-- ==== Sys2Proof/Word.lean ====
section
/-! DEFINITION. The word types of the GL9 (R38, R44): 32-bit lane and memory words, 64-bit scalar registers, lane masks of
32 rows by 32 lanes, and the plainest arithmetic on them. -/

namespace Sys2Proof

/-- A 32-bit word: an instruction, a lane register, a word of memory (R38, R44). -/
abbrev Word := BitVec 32

/-- A 64-bit scalar or control register (R44). -/
abbrev DWord := BitVec 64

abbrev Byte := BitVec 8

/-- One bit for each of the 1,024 lanes a team can have; lane `L` is lane `L mod 32` of row `L / 32` (R61, R153). -/
abbrev LaneMask := BitVec 1024

/-- A finite map held as a list of key and value pairs, sorted by key; a key that is not listed reads as a default that the
reader names. -/
abbrev NMap (α : Type) := List (Nat × α)

end Sys2Proof
end

