-- ==== Sys2Proof/Machine/Maps.lean ====
section
/-! DEFINITION. Reading and writing the finite maps that the state is made of, and the bit-field, sign-extension and
byte-order helpers that the meanings share. -/

namespace Sys2Proof.Machine

/-- The value at key `k`, or `d` where none is listed. -/
def look {α : Type} (d : α) : NMap α → Nat → α
  | [], _ => d
  | (k', v) :: r, k => if k' = k then v else look d r k

/-- Inserts a pair at its place in ascending key order. -/
def insertAt {α : Type} (k : Nat) (v : α) : NMap α → NMap α
  | [] => [(k, v)]
  | (k', v') :: r => if k < k' then (k, v) :: (k', v') :: r else (k', v') :: insertAt k v r

/-- Removes key `k`. -/
def drop {α : Type} (m : NMap α) (k : Nat) : NMap α := m.filter fun e => e.1 != k

/-- Sets key `k` to `v`, whatever `v` is. -/
def setAt {α : Type} (m : NMap α) (k : Nat) (v : α) : NMap α := insertAt k v (drop m k)

/-- Sets key `k` to `v` in a map whose unlisted keys read as `d`: a value equal to `d` is not listed, so equal maps are
equal lists. -/
def putAt {α : Type} [DecidableEq α] (d : α) (m : NMap α) (k : Nat) (v : α) : NMap α :=
  if v = d then drop m k else insertAt k v (drop m k)

/-- Sets every key of `ks` to what `f` gives for it. -/
def putMany {α : Type} [DecidableEq α] (d : α) (f : Nat → α) : List Nat → NMap α → NMap α
  | [], m => m
  | k :: ks, m => putMany d f ks (putAt d m k (f k))

/-- A map in canonical form: keys strictly ascending and no listed value equal to the default. -/
def canonical {α : Type} [DecidableEq α] (d : α) : NMap α → Bool
  | [] => true
  | [(_, v)] => v ≠ d
  | (k, v) :: (k', v') :: r => decide (k < k') && decide (v ≠ d) && canonical d ((k', v') :: r)

/-- Bits `[lo + n - 1 : lo]` of `x`, as a number. -/
def bits (x lo n : Nat) : Nat := x / 2 ^ lo % 2 ^ n

/-- Bit `i` of `x`. -/
def bit (x i : Nat) : Bool := x.testBit i

/-- `x` with bits `[lo + n - 1 : lo]` replaced by the low `n` bits of `v`. -/
def setBits (x lo n v : Nat) : Nat := x - bits x lo n * 2 ^ lo + v % 2 ^ n * 2 ^ lo

/-- The `n`-bit number `x` read in two's complement (R65). -/
def toSigned (n x : Nat) : Int := if x % 2 ^ n < 2 ^ (n - 1) then (x % 2 ^ n : Nat) else (x % 2 ^ n : Nat) - (2 ^ n : Nat)

/-- An integer modulo `2 ^ n`, as a number (R66). -/
def ofInt (n : Nat) (i : Int) : Nat := (i % (2 ^ n : Nat)).toNat

/-- The low `n` bits of `x` sign-extended to `m` bits. -/
def signExt (n m x : Nat) : Nat := ofInt m (toSigned n x)

/-- How many of the low `n` bits of `x` are set. -/
def popCount (x : Nat) : Nat → Nat
  | 0 => 0
  | n + 1 => popCount x n + (if x.testBit n then 1 else 0)

/-- Leading zeros of the `n`-bit number `x` (R85). -/
def leadingZeros (x : Nat) : Nat → Nat
  | 0 => 0
  | n + 1 => if x.testBit n then 0 else leadingZeros x n + 1

/-- The `n` low bits of `x` in reverse order (R85). -/
def reverseBits (x : Nat) : Nat → Nat
  | 0 => 0
  | n + 1 => reverseBits (x / 2) n + (x % 2) * 2 ^ n

/-- The numbers `lo, lo + 1, …, lo + n - 1`. -/
def span (lo n : Nat) : List Nat := (List.range n).map (lo + ·)

/-- Little-endian bytes of `x`: the least significant byte first (R38). -/
def leBytes (x : Nat) : Nat → List Byte
  | 0 => []
  | n + 1 => BitVec.ofNat 8 x :: leBytes (x / 256) n

/-- The number whose little-endian bytes are `bs`. -/
def ofLeBytes : List Byte → Nat
  | [] => 0
  | b :: r => b.toNat + 256 * ofLeBytes r

end Sys2Proof.Machine
end

