-- ==== Sys2Proof/Syntax.lean ====
section
/-! DEFINITION. The instructions of the GL9: one constructor for each row of the table of operations and events. The first
176 are the instruction words of revision E1, whose register, predicate and immediate fields stand as R38 and each entry lay
them out; a one-bit field is a `Bool`. The other 107 are the steps that no word encodes (a fill, a trap entry, a management
command): each carries the unit or the queue entry that it acts on and the data that it brings from outside the machine. -/

namespace Sys2Proof

inductive Instr where
  /-- `add` (R81). Adds the two vector sources in each active lane, per element, under MODE.TYPE and MODE.RND. -/
  | add (d : BitVec 6) (ta : Bool) (a : BitVec 6) (tb : Bool) (b : BitVec 6)
  /-- `sub` (R81). Subtracts vb from va in each active lane, per element, under MODE. -/
  | sub (d : BitVec 6) (ta : Bool) (a : BitVec 6) (tb : Bool) (b : BitVec 6)
  /-- `mul` (R81). Multiplies the two sources in each active lane, rounding or reducing once. -/
  | mul (d : BitVec 6) (ta : Bool) (a : BitVec 6) (tb : Bool) (b : BitVec 6)
  /-- `mulh` (R82). Writes the upper half of the exact double-width product of the two sources. -/
  | mulh (d : BitVec 6) (ta : Bool) (a : BitVec 6) (tb : Bool) (b : BitVec 6)
  /-- `div` (R83). Divides va by vb per lane, trapping DIVZ for an integer zero divisor in any present lane. -/
  | div (d : BitVec 6) (ta : Bool) (a : BitVec 6) (tb : Bool) (b : BitVec 6)
  /-- `rem` (R83). Writes the integer remainder with the sign of the dividend, trapping DIVZ on a zero divisor. -/
  | rem (d : BitVec 6) (ta : Bool) (a : BitVec 6) (tb : Bool) (b : BitVec 6)
  /-- `min` (R81). Writes the lesser of the two sources per element. -/
  | min (d : BitVec 6) (ta : Bool) (a : BitVec 6) (tb : Bool) (b : BitVec 6)
  /-- `max` (R81). Writes the greater of the two sources per element. -/
  | max (d : BitVec 6) (ta : Bool) (a : BitVec 6) (tb : Bool) (b : BitVec 6)
  /-- `abs` (R81). Writes the absolute value of each element. -/
  | abs (d : BitVec 6) (ta : Bool) (a : BitVec 6)
  /-- `neg` (R81). Writes the negation of each element. -/
  | neg (d : BitVec 6) (ta : Bool) (a : BitVec 6)
  /-- `and` (R84). Bitwise AND of the two sources over the whole register or pair. -/
  | and (d : BitVec 6) (ta : Bool) (a : BitVec 6) (tb : Bool) (b : BitVec 6)
  /-- `or` (R84). Bitwise OR of the two sources. -/
  | or (d : BitVec 6) (ta : Bool) (a : BitVec 6) (tb : Bool) (b : BitVec 6)
  /-- `xor` (R84). Bitwise exclusive OR of the two sources. -/
  | xor (d : BitVec 6) (ta : Bool) (a : BitVec 6) (tb : Bool) (b : BitVec 6)
  /-- `not` (R84). Bitwise complement of the source. -/
  | not (d : BitVec 6) (ta : Bool) (a : BitVec 6)
  /-- `shl` (R84). Shifts each element left by the amount in the low 8 bits of vb. -/
  | shl (d : BitVec 6) (ta : Bool) (a : BitVec 6) (tb : Bool) (b : BitVec 6)
  /-- `shr` (R84). Logical right shift of each element. -/
  | shr (d : BitVec 6) (ta : Bool) (a : BitVec 6) (tb : Bool) (b : BitVec 6)
  /-- `sra` (R84). Arithmetic right shift of each element. -/
  | sra (d : BitVec 6) (ta : Bool) (a : BitVec 6) (tb : Bool) (b : BitVec 6)
  /-- `bfx` (R86). Extracts a bit field at pos and len taken from vb, sign-extending under signed types. -/
  | bfx (d : BitVec 6) (ta : Bool) (a : BitVec 6) (tb : Bool) (b : BitVec 6)
  /-- `bfi` (R86). Inserts the low bits of va into the destination's field at pos and len. -/
  | bfi (d : BitVec 6) (ta : Bool) (a : BitVec 6) (tb : Bool) (b : BitVec 6)
  /-- `popc` (R85). Counts the set bits of each element. -/
  | popc (d : BitVec 6) (ta : Bool) (a : BitVec 6)
  /-- `clz` (R85). Counts the leading zeros of each element. -/
  | clz (d : BitVec 6) (ta : Bool) (a : BitVec 6)
  /-- `ctz` (R85). Counts the trailing zeros of each element. -/
  | ctz (d : BitVec 6) (ta : Bool) (a : BitVec 6)
  /-- `brev` (R85). Reverses the bit order of each element. -/
  | brev (d : BitVec 6) (ta : Bool) (a : BitVec 6)
  /-- `cmp` (R87). Compares va with vb under the condition and writes the destination predicate per lane. -/
  | cmp (c : BitVec 3) (p : BitVec 3) (ta : Bool) (a : BitVec 6) (tb : Bool) (b : BitVec 6)
  /-- `sel` (R88). Selects va or vb per lane by whether the destination's old value is nonzero. -/
  | sel (d : BitVec 6) (ta : Bool) (a : BitVec 6) (tb : Bool) (b : BitVec 6)
  /-- `cvt` (R89). Converts elements from the coded source type to MODE.TYPE, with part index k. -/
  | cvt (d : BitVec 6) (ta : Bool) (a : BitVec 6) (k : BitVec 2) (s : BitVec 4)
  /-- `pack` (R90). Narrows two source words into one word of MODE.TYPE. -/
  | pack (d : BitVec 6) (ta : Bool) (a : BitVec 6) (tb : Bool) (b : BitVec 6)
  /-- `unpk` (R90). Widens one word into the even/odd destination pair. -/
  | unpk (d : BitVec 6) (ta : Bool) (a : BitVec 6)
  /-- `mov` (R61). Copies a lane register, or pair under a wide type. -/
  | mov (d : BitVec 6) (ta : Bool) (a : BitVec 6)
  /-- `movs` (R61). Broadcasts a scalar register into every active lane. -/
  | movs (d : BitVec 6) (ta : Bool) (a : BitVec 5)
  /-- `lid` (R61). Writes each lane's team lane number. -/
  | lid (d : BitVec 6)
  /-- `rcp` (R96). Special-function producer computing the reciprocal. -/
  | rcp (d : BitVec 6) (ta : Bool) (a : BitVec 6)
  /-- `rsq` (R96). Special-function producer computing the reciprocal square root. -/
  | rsq (d : BitVec 6) (ta : Bool) (a : BitVec 6)
  /-- `sqrt` (R96). Correctly rounded square root producer. -/
  | sqrt (d : BitVec 6) (ta : Bool) (a : BitVec 6)
  /-- `exp2` (R96). Special-function producer computing 2 to the power x. -/
  | exp2 (d : BitVec 6) (ta : Bool) (a : BitVec 6)
  /-- `log2` (R96). Special-function producer computing log base 2. -/
  | log2 (d : BitVec 6) (ta : Bool) (a : BitVec 6)
  /-- `sinr` (R96). Special-function producer computing sin(2πx). -/
  | sinr (d : BitVec 6) (ta : Bool) (a : BitVec 6)
  /-- `cosr` (R96). Special-function producer computing cos(2πx). -/
  | cosr (d : BitVec 6) (ta : Bool) (a : BitVec 6)
  /-- `tanh` (R96). Special-function producer computing tanh x. -/
  | tanh (d : BitVec 6) (ta : Bool) (a : BitVec 6)
  /-- `tbev` (R102). Evaluates the active activation-table bank's cubic segment for each element. -/
  | tbev (d : BitVec 6) (ta : Bool) (a : BitVec 6)
  /-- `shfi` (R215). Gives each present lane the value of the source lane named by vi. -/
  | shfi (d : BitVec 6) (ta : Bool) (a : BitVec 6) (tb : Bool) (b : BitVec 6)
  /-- `shfd` (R215). Gives each present lane the value of the lane at a signed delta. -/
  | shfd (d : BitVec 6) (ta : Bool) (a : BitVec 6) (b : BitVec 6)
  /-- `shfx` (R215). Gives each present lane the value of the lane at L XOR mask. -/
  | shfx (d : BitVec 6) (ta : Bool) (a : BitVec 6) (b : BitVec 6)
  /-- `vany` (R216). Writes 1 to a scalar if any active lane votes true. -/
  | vany (d : BitVec 5) (inv : Bool) (p : BitVec 3)
  /-- `vall` (R216). Writes 1 to a scalar if every active lane votes true. -/
  | vall (d : BitVec 5) (inv : Bool) (p : BitVec 3)
  /-- `vbal` (R217). Writes each present lane the ballot word of its own row. -/
  | vbal (d : BitVec 6) (inv : Bool) (p : BitVec 3)
  /-- `tred` (R218). Reduces va over the present lanes into a scalar register. -/
  | tred (d : BitVec 5) (ta : Bool) (a : BitVec 6) (op : BitVec 6)
  /-- `tscan` (R219). Writes inclusive or exclusive team-wide scans of va. -/
  | tscan (d : BitVec 6) (ta : Bool) (a : BitVec 6) (excl : Bool) (op : BitVec 3)
  /-- `segred` (R220). Segmented add-scan restarting at head lanes, carrying through SCARRY. -/
  | segred (d : BitVec 6) (ta : Bool) (a : BitVec 6) (tb : Bool) (b : BitVec 6)
  /-- `tix` (R223). Splits each lane's index into N coordinates using shape constants. -/
  | tix (d : BitVec 6) (ta : Bool) (a : BitVec 6) (b : BitVec 5)
  /-- `mad` (R91). Fused multiply-add x·y+z with one rounding. -/
  | mad (d : BitVec 6) (ta : Bool) (a : BitVec 6) (tb : Bool) (b : BitVec 6) (tc : Bool) (c : BitVec 6)
  /-- `msb` (R91). Fused multiply-subtract x·y−z with one rounding. -/
  | msb (d : BitVec 6) (ta : Bool) (a : BitVec 6) (tb : Bool) (b : BitVec 6) (tc : Bool) (c : BitVec 6)
  /-- `nmad` (R91). Fused z−x·y with one rounding. -/
  | nmad (d : BitVec 6) (ta : Bool) (a : BitVec 6) (tb : Bool) (b : BitVec 6) (tc : Bool) (c : BitVec 6)
  /-- `dot` (R92). Sums the pairwise element products and c exactly into one 32-bit result. -/
  | dot (d : BitVec 6) (ta : Bool) (a : BitVec 6) (tb : Bool) (b : BitVec 6) (tc : Bool) (c : BitVec 6)
  /-- `addi` (R93). Adds an 11-bit immediate to each lane. -/
  | addi (d : BitVec 6) (a : BitVec 6) (imm : BitVec 11)
  /-- `muli` (R93). Multiplies each lane by an immediate. -/
  | muli (d : BitVec 6) (a : BitVec 6) (imm : BitVec 11)
  /-- `andi` (R93). ANDs each lane with a sign-extended immediate. -/
  | andi (d : BitVec 6) (a : BitVec 6) (imm : BitVec 11)
  /-- `ori` (R93). ORs each lane with a sign-extended immediate. -/
  | ori (d : BitVec 6) (a : BitVec 6) (imm : BitVec 11)
  /-- `xori` (R93). XORs each lane with a sign-extended immediate. -/
  | xori (d : BitVec 6) (a : BitVec 6) (imm : BitVec 11)
  /-- `shli` (R93). Shifts each element left by an immediate amount. -/
  | shli (d : BitVec 6) (a : BitVec 6) (imm : BitVec 8)
  /-- `shri` (R93). Logical right shift by an immediate amount. -/
  | shri (d : BitVec 6) (a : BitVec 6) (imm : BitVec 8)
  /-- `srai` (R93). Arithmetic right shift by an immediate amount. -/
  | srai (d : BitVec 6) (a : BitVec 6) (imm : BitVec 8)
  /-- `cmpi` (R93). Compares each lane with an immediate and writes a predicate. -/
  | cmpi (c : BitVec 3) (p : BitVec 3) (a : BitVec 6) (imm : BitVec 11)
  /-- `ld` (R111). Loads one word or pair per active lane from S[b]+w·L. -/
  | ldBase (d : BitVec 6) (b : BitVec 5) (ord : BitVec 2) (scope : BitVec 3)
  /-- `ld` (R111). Loads one word or pair per active lane from S[b] plus the lane's offset. -/
  | ldVectorOffset (d : BitVec 6) (b : BitVec 5) (o : BitVec 6) (ord : BitVec 2) (scope : BitVec 3)
  /-- `st` (R111). Stores each active lane's word at S[b]+w·L into the L1. -/
  | stBase (d : BitVec 6) (b : BitVec 5) (ord : BitVec 2) (scope : BitVec 3) (ta : Bool)
  /-- `st` (R111). Stores each active lane's word at S[b] plus the lane's offset. -/
  | stVectorOffset (d : BitVec 6) (b : BitVec 5) (o : BitVec 6) (ord : BitVec 2) (scope : BitVec 3) (ta : Bool)
  /-- `sld` (R114). Loads a scalar register from one address with the MODE width. -/
  | sld (d : BitVec 5) (b : BitVec 5) (ord : BitVec 2) (scope : BitVec 3)
  /-- `sst` (R114). Stores a scalar register at one address. -/
  | sst (d : BitVec 5) (b : BitVec 5) (ord : BitVec 2) (scope : BitVec 3) (ta : Bool)
  /-- `wgath` (R117). Gathers pattern-addressed words into the lanes as one command. -/
  | wgath (d : BitVec 6) (b : BitVec 5) (o : BitVec 5) (ord : BitVec 2) (scope : BitVec 3)
  /-- `wscat` (R117). Scatters lanes to pattern-addressed words. -/
  | wscat (d : BitVec 6) (b : BitVec 5) (o : BitVec 5) (ord : BitVec 2) (scope : BitVec 3) (ta : Bool)
  /-- `aadd` (R119). Atomic add per lane at the scope's point of coherence, returning the old value. -/
  | aadd (d : BitVec 6) (b : BitVec 5) (o : BitVec 6) (ord : BitVec 2) (scope : BitVec 3) (ta : Bool)
  /-- `amin` (R119). Atomic minimum per lane, returning the old value. -/
  | amin (d : BitVec 6) (b : BitVec 5) (o : BitVec 6) (ord : BitVec 2) (scope : BitVec 3) (ta : Bool)
  /-- `amax` (R119). Atomic maximum per lane, returning the old value. -/
  | amax (d : BitVec 6) (b : BitVec 5) (o : BitVec 6) (ord : BitVec 2) (scope : BitVec 3) (ta : Bool)
  /-- `aand` (R119). Atomic bitwise AND per lane. -/
  | aand (d : BitVec 6) (b : BitVec 5) (o : BitVec 6) (ord : BitVec 2) (scope : BitVec 3) (ta : Bool)
  /-- `aor` (R119). Atomic bitwise OR per lane. -/
  | aor (d : BitVec 6) (b : BitVec 5) (o : BitVec 6) (ord : BitVec 2) (scope : BitVec 3) (ta : Bool)
  /-- `axor` (R119). Atomic bitwise XOR per lane. -/
  | axor (d : BitVec 6) (b : BitVec 5) (o : BitVec 6) (ord : BitVec 2) (scope : BitVec 3) (ta : Bool)
  /-- `axch` (R119). Atomic exchange per lane. -/
  | axch (d : BitVec 6) (b : BitVec 5) (o : BitVec 6) (ord : BitVec 2) (scope : BitVec 3) (ta : Bool)
  /-- `acas` (R119). Atomic compare-and-swap per lane. -/
  | acas (d : BitVec 6) (b : BitVec 5) (o : BitVec 6) (ord : BitVec 2) (scope : BitVec 3) (ta : Bool)
  /-- `ared` (R120). Combines all present lanes and applies one atomic at S[b], returning nothing. -/
  | ared (d : BitVec 6) (b : BitVec 5) (c : BitVec 6) (ord : BitVec 2) (scope : BitVec 3) (ta : Bool)
  /-- `fence` (R123). Publishes the core's dirty L1 words at its scope and holds the team until done. -/
  | fence (scope : BitVec 3)
  /-- `phase` (R124). Publishes, invalidates clean L1 words and delivers held data faults. -/
  | phase (scope : BitVec 3)
  /-- `pf` (R125). Prefetches each lane's word into the L1 and L2 without faulting. -/
  | pf (b : BitVec 5) (o : BitVec 6)
  /-- `cwb` (R126). Publishes the dirty words of a byte range to the scope's point. -/
  | cwb (b : BitVec 5) (l : BitVec 5) (scope : BitVec 3)
  /-- `cinv` (R126). Publishes then invalidates a byte range in caches short of the scope's point. -/
  | cinv (b : BitVec 5) (l : BitVec 5) (scope : BitVec 3)
  /-- `mwait` (R127). Sleeps the team until the 8-byte stamp reaches the target or sets its error bit. -/
  | mwait (d : BitVec 5) (b : BitVec 5) (o : BitVec 5) (ord : BitVec 2) (scope : BitVec 3)
  /-- `br` (R162). Votes on a predicate, consuming JPC, and pushes a reconvergence entry if divergent. -/
  | br (inv : Bool) (p : BitVec 3) (off : BitVec 21)
  /-- `bru` (R163). Branches on a uniform vote, trapping DIVU on divergence. -/
  | bru (inv : Bool) (p : BitVec 3) (off : BitVec 21)
  /-- `brany` (R163). Whole team jumps if any active lane votes true. -/
  | brany (inv : Bool) (p : BitVec 3) (off : BitVec 21)
  /-- `brall` (R163). Whole team jumps only if every active lane votes true. -/
  | brall (inv : Bool) (p : BitVec 3) (off : BitVec 21)
  /-- `jmp` (R164). Moves the team's PC to the target. -/
  | jmp (off : BitVec 21)
  /-- `call` (R166). Writes the link register, increments CFD and jumps. -/
  | call (off : BitVec 21)
  /-- `nop` (R56). Changes only the PC. -/
  | nop
  /-- `exit` (R171). Waits for producers, delivers held faults and ends the current lanes. -/
  | exit
  /-- `trap` (R172). Traps SWTRAP with the code recorded and TEPC after it. -/
  | trap (z : BitVec 8)
  /-- `brk` (R172). Traps BREAK with the tag recorded and TEPC at itself. -/
  | brk (z : BitVec 8)
  /-- `rti` (R188). Restores MODE, mask, stack, CFD and JPC and resumes at TEPC. -/
  | rti
  /-- `yield` (R174). Moves the team behind every other ready team of its quarter. -/
  | yield
  /-- `callr` (R166). Calls the address held in a scalar register. -/
  | callr (x : BitVec 5)
  /-- `callv` (R168). Calls per-lane targets group by group, pushing entries for the other groups. -/
  | callv (x : BitVec 6)
  /-- `ret` (R166). Returns to the link register and decrements CFD. -/
  | ret
  /-- `cut` (R169). Unwinds reconvergence entries deeper than a depth and continues at a target. -/
  | cut (x : BitVec 5) (y : BitVec 5)
  /-- `stkrd` (R170). Reads a field of a reconvergence-stack entry. -/
  | stkrd (x : BitVec 5) (y : BitVec 5) (f : BitVec 8)
  /-- `stkwr` (R170). Writes a field of a reconvergence-stack entry. -/
  | stkwr (x : BitVec 5) (y : BitVec 5) (f : BitVec 8)
  /-- `rgnx` (R175). Closes the open idempotent region. -/
  | rgnx
  /-- `sadd` (R94). 64-bit scalar add. -/
  | sadd (x : BitVec 5) (y : BitVec 5) (z : BitVec 5)
  /-- `ssub` (R94). 64-bit scalar subtract. -/
  | ssub (x : BitVec 5) (y : BitVec 5) (z : BitVec 5)
  /-- `smul` (R94). Low 64 bits of a scalar product. -/
  | smul (x : BitVec 5) (y : BitVec 5) (z : BitVec 5)
  /-- `sdiv` (R95). Scalar division, trapping DIVZ on a zero divisor. -/
  | sdiv (x : BitVec 5) (y : BitVec 5) (z : BitVec 5)
  /-- `sand` (R94). Scalar bitwise AND. -/
  | sand (x : BitVec 5) (y : BitVec 5) (z : BitVec 5)
  /-- `sor` (R94). Scalar bitwise OR. -/
  | sor (x : BitVec 5) (y : BitVec 5) (z : BitVec 5)
  /-- `sxor` (R94). Scalar bitwise XOR. -/
  | sxor (x : BitVec 5) (y : BitVec 5) (z : BitVec 5)
  /-- `sshl` (R94). Scalar left shift. -/
  | sshl (x : BitVec 5) (y : BitVec 5) (z : BitVec 5)
  /-- `sshr` (R94). Scalar logical right shift. -/
  | sshr (x : BitVec 5) (y : BitVec 5) (z : BitVec 5)
  /-- `ssra` (R94). Scalar arithmetic right shift. -/
  | ssra (x : BitVec 5) (y : BitVec 5) (z : BitVec 5)
  /-- `smin` (R94). Scalar minimum. -/
  | smin (x : BitVec 5) (y : BitVec 5) (z : BitVec 5)
  /-- `smax` (R94). Scalar maximum. -/
  | smax (x : BitVec 5) (y : BitVec 5) (z : BitVec 5)
  /-- `scmp` (R95). Writes 1 or 0 by a scalar comparison under condition codes 0 to 5. -/
  | scmp (x : BitVec 5) (y : BitVec 5) (c : BitVec 3) (z : BitVec 5)
  /-- `saddi` (R94). Adds a signed 8-bit immediate to a scalar. -/
  | saddi (x : BitVec 5) (y : BitVec 5) (imm : BitVec 8)
  /-- `rdl` (R62). Reads one lane of a vector register into a scalar register. -/
  | rdl (x : BitVec 5) (y : BitVec 6) (z : BitVec 5)
  /-- `wrl` (R62). Writes a scalar into one lane of a vector register. -/
  | wrl (x : BitVec 6) (y : BitVec 5) (z : BitVec 5)
  /-- `bar` (R178). Arrives at a named barrier and waits for its phase to complete. -/
  | bar (n : BitVec 6)
  /-- `barar` (R178). Records the phase and arrives at a named barrier without waiting. -/
  | barar (n : BitVec 6) (y : BitVec 5)
  /-- `barwt` (R178). Waits until a named barrier passes a recorded phase. -/
  | barwt (n : BitVec 6) (y : BitVec 5)
  /-- `barini` (R179). Sets a named barrier's COUNT and NEED. -/
  | barini (n : BitVec 6) (y : BitVec 5)
  /-- `barexp` (R180). Adds expected arrivals to a named barrier's phase. -/
  | barexp (n : BitVec 6) (y : BitVec 5)
  /-- `bbar` (R181). Arrives at and waits on the band barrier. -/
  | bbar
  /-- `fwait` (R182). Waits until a vector register is full. -/
  | fwaitVector (x : BitVec 6)
  /-- `fwait` (R182). Waits until a scalar register is full. -/
  | fwaitScalar (x : BitVec 5)
  /-- `fwait` (R182). Waits until every register of the team is full. -/
  | fwaitAll
  /-- `tbld` (R100). Checks a table image address and starts loading it into the inactive bank. -/
  | tbld (x : BitVec 5)
  /-- `tbsw` (R101). Waits for table loads and evaluations, then flips the active bank. -/
  | tbsw
  /-- `shpld` (R222). Loads a shape-table entry into seven scalar registers with division constants. -/
  | shpld (x : BitVec 5) (y : BitVec 5)
  /-- `rbal` (R211). Deals jobs from per-lane lengths into row and part pairs. -/
  | rbal (x : BitVec 6) (y : BitVec 6) (c : BitVec 5)
  /-- `mlopen` (R206). Opens a Mill context on one part of two index streams. -/
  | mlopen (x : BitVec 5)
  /-- `mlfill` (R208). Starts delivering the next Mill outputs to the present lanes. -/
  | mlfill (x : BitVec 6) (y : BitVec 6) (p : BitVec 3)
  /-- `mlsave` (R234). Writes the team's Mill context as a 128-byte image. -/
  | mlsave (x : BitVec 5)
  /-- `mlrest` (R235). Re-establishes a Mill context from a saved image. -/
  | mlrest (x : BitVec 5)
  /-- `mlstat` (R209). Reads a Mill cursor register into a scalar. -/
  | mlstat (x : BitVec 5) (f : BitVec 8)
  /-- `mlclose` (R209). Frees the team's Mill context. -/
  | mlclose
  /-- `cpl` (R236). Checks and appends a linear copy packet to a copy queue. -/
  | cpl (x : BitVec 5) (y : BitVec 5)
  /-- `cpt` (R251). Checks and appends a tensor copy packet. -/
  | cpt (x : BitVec 5) (y : BitVec 5)
  /-- `cpm` (R236). Checks and appends a multicast copy packet. -/
  | cpm (x : BitVec 5) (y : BitVec 5)
  /-- `cpr` (R253). Checks and appends a reduction copy packet. -/
  | cpr (x : BitVec 5) (y : BitVec 5)
  /-- `coll` (R256). Checks and appends a collective packet, publishing SEND only. -/
  | coll (x : BitVec 5) (y : BitVec 5)
  /-- `tgl` (R264). Performs one predecessor decrement on a task control block. -/
  | tgl (x : BitVec 5)
  /-- `lnch` (R260). Places a launch packet in a launch queue of the tenant. -/
  | lnch (x : BitVec 5) (y : BitVec 5)
  /-- `qpop` (R266). Pops an item from a pipeline queue, waiting while it is empty. -/
  | qpop (x : BitVec 5) (y : BitVec 5)
  /-- `qapp` (R266). Appends an item to a pipeline queue, waiting while it is full. -/
  | qapp (x : BitVec 5) (y : BitVec 5)
  /-- `tld` (R268). Loads a tile row by row from memory. -/
  | tld (a : BitVec 5) (b : BitVec 5) (s : BitVec 5)
  /-- `tst` (R268). Stores a tile row by row to memory. -/
  | tst (a : BitVec 5) (b : BitVec 5) (s : BitVec 5)
  /-- `tzero` (R268). Zeroes every byte of a tile. -/
  | tzero (a : BitVec 5)
  /-- `mma` (R243). Queues a versioned matrix multiply-accumulate command on the array. -/
  | mma (a : BitVec 5) (b : BitVec 5) (c : BitVec 3) (v : BitVec 5)
  /-- `acz` (R271). Queues a versioned accumulator-zero command. -/
  | acz (c : BitVec 3) (v : BitVec 5)
  /-- `acrd` (R244). Waits for earlier commands on the accumulator, then reads one row into lanes. -/
  | acrd (d : BitVec 6) (r : BitVec 5) (a : BitVec 3)
  /-- `acwr` (R272). Waits for earlier commands, then writes one accumulator row from lanes. -/
  | acwr (d : BitVec 6) (r : BitVec 5) (a : BitVec 3)
  /-- `acst` (R271). Checks and queues a versioned accumulator store command. -/
  | acst (x : BitVec 5) (a : BitVec 3)
  /-- `acver` (R273). Reads an accumulator's version. -/
  | acver (d : BitVec 5) (a : BitVec 3)
  /-- `acver` (R273). Holds until an accumulator's version equals a value, then reads it. -/
  | acverWait (d : BitVec 5) (w : BitVec 5) (a : BitVec 3)
  /-- `movc` (R318). Writes a control register that has no row of its own from a scalar. -/
  | movc (y : BitVec 5) (c : BitVec 8)
  /-- `mvfc` (R319). Reads a control register into a scalar. -/
  | mvfc (x : BitVec 5) (c : BitVec 8)
  /-- `sys` (R322). Posts a service request to the tenant's ring and holds for the reply. -/
  | sys (x : BitVec 5) (y : BitVec 5) (n : BitVec 8)
  /-- `tlbi` (R323). Invalidates translations module-wide and holds until they drain. -/
  | tlbi (y : BitVec 5) (k : BitVec 8)
  /-- `rdtm` (R324). Reads the global timebase. -/
  | rdtm (x : BitVec 5)
  /-- `halt` (R325). Stops every team of the band, keeping it resident. -/
  | halt
  /-- `frrd` (R326). Reads a field of a fault record. -/
  | frrd (x : BitVec 5) (y : BitVec 5) (f : BitVec 8)
  /-- `lkill` (R152). Retires a lane in the saved mask and stack of the trap being handled. -/
  | lkill (x : BitVec 5)
  /-- `ctxsv` (R328). Writes the team's state as a team record. -/
  | ctxsv (x : BitVec 5)
  /-- `ctxld` (R329). Replaces the team's state from a team record. -/
  | ctxld (x : BitVec 5)
  /-- `mode` (R58). Writes the guard, type, rounding and flag fields of MODE. -/
  | mode (ginv : Bool) (gp : BitVec 3) (ty : BitVec 4) (rnd : BitVec 3) (sat : Bool) (ret : BitVec 2) (ftz : Bool)
  /-- `sli` (R60). Loads a sign-extended 21-bit immediate into a scalar. -/
  | sli (d : BitVec 5) (imm : BitVec 21)
  /-- `slih` (R60). Replaces bits 63 to 21 of a scalar. -/
  | slih (d : BitVec 5) (imm : BitVec 21)
  /-- `slix` (R60). Replaces bits 63 to 42 of a scalar. -/
  | slix (d : BitVec 5) (imm : BitVec 21)
  /-- `joinat` (R165). Sets the pending join target JPC. -/
  | joinat (off : BitVec 26)
  /-- `rgn` (R175). Opens an idempotent region and records its restart state. -/
  | rgn
  /-- `li` (R59). Writes a sign-extended 20-bit immediate into each active lane. -/
  | li (d : BitVec 6) (imm : BitVec 20)
  /-- `AV_WRITE` (R318). A movc to AVn waits for no running command, writes VER and lets held commands compare at once. -/
  | avWrite (n : BitVec 3) (y : BitVec 5)
  /-- `TS_WRITE` (R318). A movc to TSn waits for queued commands naming the tile, then writes its shape. -/
  | tsWrite (n : BitVec 5) (y : BitVec 5)
  /-- `SPINJ` (R321). A movc to SPINJ arms a one-shot fragment drop or delay when DBGCTL.ATT is 1. -/
  | spinj (y : BitVec 5)
  /-- `CRATE` (R320). A privileged movc to CRATEn checks and sets a traffic class's fragment, path and repair settings. -/
  | crate (n : BitVec 3) (y : BitVec 5)
  /-- `PTRIG` (R205). A privileged movc arms the instruction-count pre-emption trigger. -/
  | ptrig (y : BitVec 5)
  /-- `BREAKPOINT_WRITE` (R201). A movc to BPn or WPn writes the band's breakpoint or watchpoint in every core of the band. -/
  | breakpointWrite (n : BitVec 4) (y : BitVec 5)
  /-- `REQUEST_COLLECTOR_ADMISSION` (R129). A waiting row of a memory instruction enters the collector once entries for its lanes are free. -/
  | requestCollectorAdmission (core : Nat)
  /-- `MERGE_TIMEOUT` (R129). Eight arithmetic cycles after a superblock's first miss, its merged word-masked request leaves. -/
  | mergeTimeout (core idx : Nat)
  /-- `L2_SLICE_REQUEST` (R9). An L2 slice takes a word-masked request and forwards the words it lacks to the home. -/
  | l2SliceRequest (idx : Nat)
  /-- `HOME_REQUEST` (R135). A memory-side cache takes a request, consults its snoop filter and forms bursts for missing words. -/
  | homeRequest (idx : Nat)
  /-- `BURST_READ` (R142). A read burst returns with its CRC, which is checked and the read reissued on mismatch. -/
  | burstRead (idx : Nat) (crcBad : Bool) (flips : List (Nat × Nat))
  /-- `WRITE_REPLAY` (R142). A stack's report of a write CRC mismatch makes the controller replay the write. -/
  | writeReplay (pa : Nat) (bad : Bool)
  /-- `RETRAIN` (R142). A pseudo-channel's retraining completes and the failing access is retried once. -/
  | retrain (idx : Nat) (ok : Bool)
  /-- `BLOCK_PROCEDURE` (R140). The block and its parity are read, pending delta applied and decoded, correcting or poisoning words. -/
  | blockProcedure (idx : Nat)
  /-- `BACK_INVALIDATE_RESPONSE` (R136). Host data returned for a back-invalidate replaces the held DRAM word. -/
  | backInvalidateResponse (idx : Nat) (words : List (Nat × Option Word))
  /-- `FILL` (R12). A fill arrives at a cache level, marking only its words valid and writing destination lanes. -/
  | fill (idx : Nat)
  /-- `PUBLICATION` (R133). Published dirty words arrive at an L2 slice or home and are performed there. -/
  | publication (idx : Nat)
  /-- `BACKGROUND_SCRUB` (R386). Every 24 hours every DRAM window is read, corrected and rewritten. -/
  | backgroundScrub (stack : Nat)
  /-- `SLICE_COUNT_CLEAR` (R384). At the start of each 24-hour period the slice counts are cleared. -/
  | sliceCountClear (stack : Nat)
  /-- `SPARE_IN` (R147). A slice reaching the spare-in threshold, or failing outright, starts copying it into the spare die. -/
  | spareIn (stack pc slice : Nat)
  /-- `SPARE_IN_COMPLETE` (R147). When the copy ends the spare takes the failed slice's slot number. -/
  | spareInComplete (stack pc : Nat)
  /-- `HOT_REMOVE_ACKNOWLEDGE` (R148). Acknowledgement of a capacity hot-remove makes retired windows return poison and drop writes. -/
  | hotRemoveAcknowledge (stack pc bankSet : Nat)
  /-- `DEEP_RETENTION` (R149). Bank set 3 of a stack is written back, dropped, reported removed and powered down. -/
  | deepRetention (stack : Nat)
  /-- `HOT_ADD` (R149). Powers retained bank sets up, zeroes them with clean codes and reports the capacity. -/
  | hotAdd (stack : Nat)
  /-- `PAGE_WALK` (R376). A translation walk completes and fills the caches unless an overlapping tlbi began. -/
  | pageWalk (core va : Nat)
  /-- `MESSAGE_SEND` (R332). A Sparge message leaves as k data and m parity fragments on its paths once fewer than 128 are unacknowledged. -/
  | messageSend (die idx : Nat)
  /-- `FRAGMENT_RECEIVE` (R333, R359). A fragment arrives, is checked, accepted or dropped, and the k-th acceptance completes the message.
`arrival` holds the bits of its 80 bytes that have changed on the way, or nothing where the framing check of a flit has failed. -/
  | fragmentReceive (idx : Nat) (arrival : Option (BitVec 640))
  /-- `ACKNOWLEDGEMENT` (R360). A class 7 acknowledgement frees the message's retain buffer entry. -/
  | acknowledgement (idx : Nat)
  /-- `RECEIVER_REPAIR_TIMEOUT` (R362). With fewer than k fragments after REPAIR ticks the receiver sends a repair request. -/
  | receiverRepairTimeout (die idx : Nat)
  /-- `SENDER_REPAIR_TIMEOUT` (R362). A message unacknowledged 2·REPAIR ticks after sending is treated as an empty repair request. -/
  | senderRepairTimeout (die idx : Nat)
  /-- `REPAIR_REQUEST` (R362). The sender resends the fragments the map lacks on shifted paths, up to two attempts. -/
  | repairRequest (idx : Nat)
  /-- `MESSAGE_LOSS` (R363). REPAIR ticks after the second attempt the sender declares the message lost with its class outcome. -/
  | messageLoss (die idx : Nat)
  /-- `LOSS_NOTICE` (R362). A class 6 loss notice makes the receiver discard its partial entry and advance its window. -/
  | lossNotice (idx : Nat)
  /-- `POISON_NOTICE` (R363). A class 6 poison notice makes the home write the message's words poisoned. -/
  | poisonNotice (idx : Nat)
  /-- `DELAYED_FRAGMENT` (R334). A SPINJ-delayed fragment leaves DELAY ticks late on its own path. -/
  | delayedFragment (idx : Nat)
  /-- `LINK_REMOVAL` (R359). A link that fails training or loses framing for 1 µs is removed from every path. -/
  | linkRemoval (die port : Nat)
  /-- `TIMEBASE_CORRECTION` (R364). Every 100 µs each module measures and corrects its offset to the timebase master. -/
  | timebaseCorrection (offset : Int)
  /-- `MASTER_LINK_TIMEOUT` (R364). With no link to the master for 10 ms READY.THEBEL clears. -/
  | masterLinkTimeout
  /-- `HOST_READ_SHARED` (R368). A host shared read of an HC DRAM line is served and its state set to S. -/
  | hostReadShared (pa : Nat)
  /-- `HOST_READ_OWNED` (R368). A host owned read gathers device dirty words to the home and grants E or M. -/
  | hostReadOwned (pa : Nat)
  /-- `HOST_WRITEBACK` (R368). Host writeback data is performed at the home as a host write. -/
  | hostWriteback (pa : Nat) (words : List (Nat × Option Word)) (keep : Bool)
  /-- `HOST_SNOOP_DATA` (R367). A host snoop for data on a device line of host memory moves it to O or S. -/
  | hostSnoopData (pa : Nat)
  /-- `HOST_SNOOP_INVALIDATE` (R367). A host snoop invalidate writes back dirty words and drops the line. -/
  | hostSnoopInvalidate (pa : Nat)
  /-- `HOST_READ_GRANT` (R367). The host's reply to a shared read or ownership request sets the line's state and valid words. -/
  | hostReadGrant (idx : Nat) (owned : Bool) (words : List (Nat × Option Word))
  /-- `ATS_COMPLETION` (R377). A host ATS translation completion is cached or leads to a page request. -/
  | atsCompletion (idx : Nat) (present : Bool) (frame kind : Nat)
  /-- `ATS_INVALIDATION` (R377). A host ATS invalidation acts as tlbi kind 1 and completes after its wait. -/
  | atsInvalidation (tenant base kind : Nat)
  /-- `PAGE_REQUEST_RESPONSE` (R377). A PRI grant or refusal resumes the waiting access or faults XLATE. -/
  | pageRequestResponse (idx : Nat) (granted : Bool)
  /-- `SERVICE_REPLY` (R322). The reply to a sys request arrives, fills S[d] and acquires at system scope. -/
  | serviceReply (idx : Nat) (value : DWord)
  /-- `EXTENT_RELEASE` (R371). A Dynamic Capacity release is drained and written back before acknowledgement. -/
  | extentRelease (idx : Nat)
  /-- `SURPRISE_REMOVAL` (R372). Loss of a capacity extent poisons its dirty lines and its reads. -/
  | surpriseRemoval (idx : Nat)
  /-- `LAUNCH_HEAD` (R260). A launch reaching its queue head has its descriptor read and is refused if invalid. -/
  | launchHead (die queue : Nat)
  /-- `BAND_PLACEMENT` (R297). The die scheduler chooses a queue and places one band, zeroing resources and acquiring. -/
  | bandPlacement (die : Nat)
  /-- `QUANTUM_EXPIRY` (R300). A head blocked longer than QUANTUM pre-empts lower-priority bands of the tenant. -/
  | quantumExpiry (die queue : Nat)
  /-- `STAGE_BALANCER` (R305). Every 10 µs the balancer may move one slot from a donor stage to a receiver stage. -/
  | stageBalancer (launch : Nat)
  /-- `GANG_START` (R301). At start tick T every team of a placed gang begins issuing. -/
  | gangStart (launch : Nat)
  /-- `OPERATING_POINT_STABLE` (R308). A faster operating point becomes stable and held bands proceed. -/
  | operatingPointStable (die : Nat)
  /-- `KERNEL_BOUNDARY` (R346). After a launch's last band retires, dirty words go home, L1s are invalidated and the stamp is written. -/
  | kernelBoundary (launch : Nat)
  /-- `PRE_EMPTION` (R196). A band stops at boundaries, drains, publishes and writes its save image. -/
  | preEmption (band : Nat)
  /-- `RESUMPTION` (R198). A saved band resumes on quads with room, exchanging CENT entries and acquiring. -/
  | resumption (band : Nat)
  /-- `TRAP_ENTRY` (R185). Waits for producers, writes fault records, saves state and jumps to TVEC. -/
  | trapEntry (team : Nat)
  /-- `REGION_RESTART` (R191). Inside a region a PIPE or data fault restarts the team at RGPC. -/
  | regionRestart (team : Nat)
  /-- `MWAIT_SATISFIED` (R127). A stamp write satisfies a sleeping mwait, filling S[d] and acquiring. -/
  | mwaitSatisfied (team : Nat)
  /-- `MWTO` (R127). An mwait lasting past the MWTO limit traps MWTO. -/
  | mwto (team : Nat)
  /-- `BARRIER_WAIT_END` (R178). A completed barrier phase releases waiting teams with an acquire. -/
  | barrierWaitEnd (team : Nat)
  /-- `MMA_COMMAND` (R243). A queued mma whose version matches starts, accumulates by blocks and advances the version. -/
  | mmaCommand (core : Nat)
  /-- `ACZ_COMMAND` (R271). A queued acz zeroes the accumulator, clears FLT and advances the version. -/
  | aczCommand (core : Nat)
  /-- `ACST_COMMAND` (R271). A queued acst converts and stores the accumulator corner, or holds PIPE if faulted. -/
  | acstCommand (core : Nat)
  /-- `TABLE_LOAD_COMPLETE` (R100). A tbld's image reads complete, filling the inactive bank and marking it good or bad. -/
  | tableLoadComplete (core : Nat)
  /-- `MLFILL_COMPLETE` (R208). The Mill has delivered pairs to every present lane or run out, and MST is set. -/
  | mlfillComplete (team : Nat)
  /-- `COPY_PACKET_START` (R254). An engine reads a committed slot, checks it and the stamp page, and starts the copy. -/
  | copyPacketStart (die queue : Nat)
  /-- `COPY_READ` (R239). A copy read at an L2 slice opens or joins a merge group. -/
  | copyRead (idx : Nat)
  /-- `MERGE_WINDOW_CLOSE` (R239). 256 fabric cycles after a group opens, later copy reads open new groups. -/
  | mergeWindowClose (die idx : Nat)
  /-- `COPY_COMPLETE` (R241). At a destination's completion the chained mma is queued, the stamp written and the node updated. -/
  | copyComplete (idx dest : Nat)
  /-- `COLLECTIVE_MATCH` (R257). The k-th packets of all participants of a group are matched and checked. -/
  | collectiveMatch (idx : Nat)
  /-- `COLLECTIVE_COMPLETE` (R331). A participant's stamp is written once its RECV is written and its chunks delivered. -/
  | collectiveComplete (idx part : Nat)
  /-- `NODE_COMPLETE` (R263). A graph node completes, re-arms and decrements its successors. -/
  | nodeComplete (idx : Nat)
  /-- `DEBUG_STEP` (R203). On resumption with STEP a team issues exactly one instruction. -/
  | debugStep (team : Nat)
  /-- `STEP_LANE` (R204). Steps a team until a named lane has executed an instruction. -/
  | stepLane (team lane : Nat)
  /-- `PTRIG_FIRE` (R205). The named team's count reaching COUNT pre-empts the band. -/
  | ptrigFire (band : Nat)
  /-- `SECURITY_ALARM` (R392). Tamper, rail glitch or clock anomaly takes the action ALMPOL gives. -/
  | securityAlarm (source : Nat)
  /-- `POWER_LIMIT_STEP` (R398). Average power over the window moves the imposed operating point one step. -/
  | powerLimitStep (above : Bool)
  /-- `CURRENT_LIMIT` (R398). Core-rail current at 30,000 A halves the die's arithmetic clock. -/
  | currentLimit (die : Nat)
  /-- `CURRENT_RESTORE` (R398). After 10 µs below 27,000 A the clock is restored. -/
  | currentRestore (die : Nat)
  /-- `THERMAL_LIMIT` (R398). Junction temperature at 105 °C slows the operating point and sets THERM. -/
  | thermalLimit (die : Nat)
  /-- `THERMAL_SHUTDOWN` (R398). At 115 °C every band halts and the core rails turn off. -/
  | thermalShutdown
  /-- `MODULE_RESET` (R393). The boot ROM verifies firmware and die images before anything runs. -/
  | moduleReset
  /-- `FUNCTION_READY` (R395). A function that passes its test sets its READY bit. -/
  | functionReady (bitNo : Nat) (passed : Bool)
  /-- `COUNTER_READ` (R384). Management command that reads error counters. -/
  | counterRead (unit : Nat)
  /-- `COUNTER_CLEAR` (R384). Management command that clears error counters. -/
  | counterClear (unit : Nat)
  /-- `RAS_LOG_READ` (R385). Management command that reads the RAS log. -/
  | rasLogRead
  /-- `ERROR_RECORD_READ` (R150). Management command that reads an error completion record. -/
  | errorRecordRead (launch : Nat)
  /-- `TENANT_CREATE` (R387). Management command that creates a tenant with page root and generated key slot. -/
  | tenantCreate (root : Nat)
  /-- `TENANT_DESTROY` (R390). Management command that destroys a tenant and erases its key slot. -/
  | tenantDestroy (tenant : Nat)
  /-- `FATTR_WRITE` (R351). Management command writing a frame's home attribute to all caches, back-invalidating when leaving HC. -/
  | fattrWrite (frame : Nat) (value : BitVec 2)
  /-- `FORMAT_WINDOW_ENABLE` (R145). Writing FWCTL.EN to 1 enables a window or is refused with ERR. -/
  | formatWindowEnable (n : Nat)
  /-- `FORMAT_WINDOW_DISABLE` (R145). Clearing FWCTL.EN invalidates the window's view words in every L2. -/
  | formatWindowDisable (n : Nat)
  /-- `MANAGEMENT_REGISTER_WRITE` (R400). Management write of a register with no row of its own, or busy if in use. -/
  | managementRegisterWrite (reg : Nat) (value : DWord)
  /-- `DEBUGGER_ATTACH` (R200). Management command attaching a debugger to a band. -/
  | debuggerAttach (band : Nat)
  /-- `BAND_RESUME` (R325). Management command resuming a halted or stopped band. -/
  | bandResume (band : Nat)
  /-- `ATTESTATION_REPORT` (R394). Management command returning a signed attestation report. -/
  | attestationReport (tenant nonce : Nat)
  /-- `FIRMWARE_UPDATE` (R400). Management command storing firmware to take effect at next reset. -/
  | firmwareUpdate (image : Nat)
  /-- `UNASSIGNED_OPCODE` (R40). A team reaches a word of class 111 or with an unassigned opcode and traps ILLOP. -/
  | unassignedOpcode (w : Word)
  /-- `INSTRUCTION_FETCH_FAULT` (R167). The first fetch from an unmapped, non-executable or aperture address traps XLATE or PROT with TEPC at that address. -/
  | instructionFetchFault (cause : BitVec 8)
  /-- `PRODUCER_COMPLETION` (R47). A non-memory producer such as a special function, tbev, rdl or the second stage of acrd finishes writing and sets its destination full. -/
  | producerCompletion (team : Nat)
  /-- `STEP_ABORT` (R203). A debugger aborts a step or step-lane, leaving the team as pre-emption leaves it. -/
  | stepAbort (team : Nat)
  /-- `LAUNCH_END_FROM_OUTSIDE` (R325). The management interface ends a launch whose bands are halted, waiting or stuck. -/
  | launchEndFromOutside (launch : Nat)
  /-- `EXTENT_ADD` (R370). A Dynamic Capacity extent is added on a CXL.mem port and assigned a range of the
capacity-tier window: its base and its size. -/
  | extentAdd (port : Nat) (range : Nat × Nat)
  deriving DecidableEq, Repr

end Sys2Proof
end

