-- ==== Sys2Proof/WellFormed.lean ====
section
/-! DEFINITION. Which instructions are well formed: the values that a word can hold and the spec gives no meaning as an
instruction (a reserved order, scope or condition, a register group past s31, a reserved field number, a register that has no place in the
directory) and, of the steps that no word encodes, those that name a unit the module does not have. What depends on a team's
registers, its budgets and MODE is checked where the instruction executes. -/

namespace Sys2Proof

/-- The orders and scopes that R106 allows a plain access: `other` is its one order beside 0, which takes scope 0. -/
def plainLegal (other : BitVec 2) (ord : BitVec 2) (scope : BitVec 3) : Bool :=
  (ord == 0 && scope == 0) || (ord == other && scope != 7)

/-- A control register that a `movc` writes and that has no row of its own (R316). -/
def plainRegister (n : Nat) : Bool :=
  n == 0x00 || n == 0x01 || n == 0x04 || n == 0x05 || n == 0x09 || n == 0x0A || (decide (0x0C ≤ n) && decide (n ≤ 0x11)) ||
    n == 0x13 || n == 0x14

/-- A control register that a `mvfc` reads (R316, R397). -/
def readableRegister (n : Nat) : Bool := decide (n ≤ 0x1D) || (decide (0x20 ≤ n) && decide (n < 0x60))

/-- The static legality of an instruction or an event. -/
def Instr.wf : Instr → Bool
  | .tred _ _ _ op => decide (op.toNat ≤ 5)
  | .scmp _ _ c _ => decide (c.toNat ≤ 5)
  | .tscan _ _ _ _ op => decide (op.toNat ≤ 5)
  | .ldBase _ _ ord scope => plainLegal 1 ord scope
  | .ldVectorOffset _ _ _ ord scope => plainLegal 1 ord scope
  | .stBase _ _ ord scope _ => plainLegal 2 ord scope
  | .stVectorOffset _ _ _ ord scope _ => plainLegal 2 ord scope
  | .sld _ _ ord scope => plainLegal 1 ord scope
  | .sst _ _ ord scope _ => plainLegal 2 ord scope
  | .wgath _ _ _ ord scope => plainLegal 1 ord scope
  | .wscat _ _ _ ord scope _ => plainLegal 2 ord scope
  | .aadd _ _ _ _ scope _ => scope != 7
  | .amin _ _ _ _ scope _ => scope != 7
  | .amax _ _ _ _ scope _ => scope != 7
  | .aand _ _ _ _ scope _ => scope != 7
  | .aor _ _ _ _ scope _ => scope != 7
  | .axor _ _ _ _ scope _ => scope != 7
  | .axch _ _ _ _ scope _ => scope != 7
  | .acas _ _ _ _ scope _ => scope != 7
  | .ared _ _ c _ scope _ => scope != 7 && decide (c.toNat ≤ 5)
  | .fence scope => scope != 7
  | .phase scope => scope != 7
  | .cwb _ _ scope => scope != 7
  | .cinv _ _ scope => scope != 7
  | .mwait _ _ _ _ scope => scope != 7
  | .stkrd _ _ f => decide (f.toNat ≤ 37)
  | .stkwr _ _ f => decide (f.toNat ≤ 37) && f != 3 && f != 36
  | .shpld x _ => decide (x.toNat ≤ 25)
  | .mlopen x => decide (x.toNat ≤ 26)
  | .mlstat _ f => decide (f.toNat ≤ 3)
  | .acst x _ => decide (x.toNat ≤ 28)
  | .movc _ c => plainRegister c.toNat
  | .mvfc _ c => readableRegister c.toNat
  | .tlbi _ k => decide (k.toNat ≤ 2)
  | .requestCollectorAdmission core => decide (core < 1152)
  | .mergeTimeout core _ => decide (core < 1152)
  | .backgroundScrub stack => decide (stack ≤ 15)
  | .sliceCountClear stack => decide (stack ≤ 15)
  | .spareIn stack pc slice => decide (stack ≤ 15 ∧ pc ≤ 511 ∧ slice ≤ 15)
  | .spareInComplete stack pc => decide (stack ≤ 15 ∧ pc ≤ 511)
  | .hotRemoveAcknowledge stack pc bankSet => decide (stack ≤ 15 ∧ pc ≤ 511 ∧ bankSet ≤ 3)
  | .deepRetention stack => decide (stack ≤ 15)
  | .hotAdd stack => decide (stack ≤ 15)
  | .pageWalk core _ => decide (core < 1152)
  | .messageSend die _ => decide (die ≤ 7)
  | .receiverRepairTimeout die _ => decide (die ≤ 7)
  | .senderRepairTimeout die _ => decide (die ≤ 7)
  | .messageLoss die _ => decide (die ≤ 7)
  | .linkRemoval die port => decide (die ≤ 7 ∧ 1 ≤ port ∧ port ≤ 6)
  | .launchHead die queue => decide (die ≤ 7 ∧ queue ≤ 63)
  | .bandPlacement die => decide (die ≤ 7)
  | .quantumExpiry die queue => decide (die ≤ 7 ∧ queue ≤ 63)
  | .operatingPointStable die => decide (die ≤ 7)
  | .mmaCommand core => decide (core < 1152)
  | .aczCommand core => decide (core < 1152)
  | .acstCommand core => decide (core < 1152)
  | .tableLoadComplete core => decide (core < 1152)
  | .copyPacketStart die _ => decide (die ≤ 7)
  | .mergeWindowClose die _ => decide (die ≤ 7)
  | .stepLane _ lane => decide (lane ≤ 1023)
  | .securityAlarm source => decide (source ≤ 2)
  | .currentLimit die => decide (die ≤ 7)
  | .currentRestore die => decide (die ≤ 7)
  | .thermalLimit die => decide (die ≤ 7)
  | .functionReady bitNo _ => decide (bitNo ≤ 29)
  | .tenantDestroy tenant => decide (tenant ≤ 15)
  | .fattrWrite _ value => decide (value.toNat ≤ 1)
  | .formatWindowEnable n => decide (n ≤ 15)
  | .formatWindowDisable n => decide (n ≤ 15)
  | .attestationReport tenant _ => decide (tenant ≤ 15)
  | .instructionFetchFault cause => cause == 5 || cause == 6
  | .extentAdd port (base, size) => decide (port ≤ 11 ∧ size ≠ 0) && size % 0x10000000 == 0 && base % 0x10000000 == 0
  | .add .. | .sub .. | .mul .. | .mulh .. | .div .. | .rem .. | .min .. | .max .. | .abs .. | .neg .. | .and .. | .or ..
  | .xor .. | .not .. | .shl .. | .shr .. | .sra .. | .bfx .. | .bfi .. | .popc .. | .clz .. | .ctz .. | .brev .. | .cmp ..
  | .sel .. | .cvt .. | .pack .. | .unpk .. | .mov .. | .movs .. | .lid .. | .rcp .. | .rsq .. | .sqrt .. | .exp2 ..
  | .log2 .. | .sinr .. | .cosr .. | .tanh .. | .tbev .. | .shfi .. | .shfd .. | .shfx .. | .vany .. | .vall .. | .vbal ..
  | .segred .. | .tix .. | .mad .. | .msb .. | .nmad .. | .dot .. | .addi .. | .muli .. | .andi .. | .ori .. | .xori ..
  | .shli .. | .shri .. | .srai .. | .cmpi .. | .pf .. | .br .. | .bru .. | .brany .. | .brall .. | .jmp .. | .call ..
  | .nop .. | .exit .. | .trap .. | .brk .. | .rti .. | .yield .. | .callr .. | .callv .. | .ret .. | .cut .. | .rgnx ..
  | .sadd .. | .ssub .. | .smul .. | .sdiv .. | .sand .. | .sor .. | .sxor .. | .sshl .. | .sshr .. | .ssra .. | .smin ..
  | .smax .. | .saddi .. | .rdl .. | .wrl .. | .bar .. | .barar .. | .barwt .. | .barini .. | .barexp ..
  | .bbar .. | .fwaitVector .. | .fwaitScalar .. | .fwaitAll .. | .tbld .. | .tbsw .. | .rbal .. | .mlfill .. | .mlsave ..
  | .mlrest .. | .mlclose .. | .cpl .. | .cpt .. | .cpm .. | .cpr .. | .coll .. | .tgl .. | .lnch .. | .qpop .. | .qapp ..
  | .tld .. | .tst .. | .tzero .. | .mma .. | .acz .. | .acrd .. | .acwr .. | .acver .. | .acverWait .. | .sys .. | .rdtm ..
  | .halt .. | .frrd .. | .lkill .. | .ctxsv .. | .ctxld .. | .mode .. | .sli .. | .slih .. | .slix .. | .joinat ..
  | .rgn .. | .li .. | .avWrite .. | .tsWrite .. | .spinj .. | .crate .. | .ptrig .. | .breakpointWrite ..
  | .l2SliceRequest .. | .homeRequest .. | .burstRead .. | .writeReplay .. | .retrain .. | .blockProcedure ..
  | .backInvalidateResponse .. | .fill .. | .publication .. | .fragmentReceive .. | .acknowledgement .. | .repairRequest ..
  | .lossNotice .. | .poisonNotice .. | .delayedFragment .. | .timebaseCorrection .. | .masterLinkTimeout ..
  | .hostReadShared .. | .hostReadOwned .. | .hostWriteback .. | .hostSnoopData .. | .hostSnoopInvalidate ..
  | .hostReadGrant .. | .atsCompletion .. | .atsInvalidation .. | .pageRequestResponse .. | .serviceReply ..
  | .extentRelease .. | .surpriseRemoval .. | .stageBalancer .. | .gangStart .. | .kernelBoundary .. | .preEmption ..
  | .resumption .. | .trapEntry .. | .regionRestart .. | .mwaitSatisfied .. | .mwto .. | .barrierWaitEnd ..
  | .mlfillComplete .. | .copyRead .. | .copyComplete .. | .collectiveMatch .. | .collectiveComplete .. | .nodeComplete ..
  | .debugStep .. | .ptrigFire .. | .powerLimitStep .. | .thermalShutdown .. | .moduleReset .. | .counterRead ..
  | .counterClear .. | .rasLogRead .. | .errorRecordRead .. | .tenantCreate .. | .managementRegisterWrite ..
  | .debuggerAttach .. | .bandResume .. | .firmwareUpdate .. | .unassignedOpcode .. | .producerCompletion .. | .stepAbort ..
  | .launchEndFromOutside .. => true

end Sys2Proof
end

