-- ==== Sys2Proof/Decode.lean ====
section
/-! DEFINITION. The decoder of instruction words (R38 to R40, R51 to R60), total on any bytes, and the encoder, written from the same
tables. A word is in the class of its bits [31:29]; a `movc` to a register with a row of its own decodes to that row. -/

namespace Sys2Proof

open Sys2Proof.Machine (bits bit leBytes ofLeBytes)

/-- Why a word is rejected (R40). -/
inductive DecodeError where
  | truncated                       -- fewer than four bytes
  | class111
  | unassigned (cls op : Nat)
  | reservedField
  deriving DecidableEq, Repr

/-- A field of `n` bits from bit `lo` on. -/
def fld (w lo n : Nat) : BitVec n := BitVec.ofNat n (w / 2 ^ lo)
/-- A one-bit field. -/
def flag (w i : Nat) : Bool := w / 2 ^ i % 2 == 1
/-- A one-bit field as a number. -/
def bn (b : Bool) : Nat := if b then 1 else 0

/-- The instruction, if its reserved fields are zero. -/
def zeros (ok : Bool) (i : Instr) : Except DecodeError Instr := if ok then .ok i else .error .reservedField

/-- A `movc` by the register it names (R318 to R321). -/
def movcOf (y : BitVec 5) (c : BitVec 8) : Instr :=
  let n := c.toNat
  if n == 0x1B then .ptrig y
  else if n == 0x1C then .spinj y
  else if decide (0x20 ≤ n) && decide (n < 0x40) then .tsWrite (BitVec.ofNat 5 (n - 0x20)) y
  else if decide (0x40 ≤ n) && decide (n < 0x48) then .avWrite (BitVec.ofNat 3 (n - 0x40)) y
  else if decide (0x48 ≤ n) && decide (n < 0x50) then .crate (BitVec.ofNat 3 (n - 0x48)) y
  else if decide (0x50 ≤ n) && decide (n < 0x60) then .breakpointWrite (BitVec.ofNat 4 (n - 0x50)) y
  else .movc y c

/-- Class TR: opcode bits [28:20]. -/
def decodeTR (w : Nat) : Except DecodeError Instr :=
  match bits w 20 9 with
  | 0x001 => .ok (.add (fld w 14 6) (flag w 13) (fld w 7 6) (flag w 6) (fld w 0 6))
  | 0x002 => .ok (.sub (fld w 14 6) (flag w 13) (fld w 7 6) (flag w 6) (fld w 0 6))
  | 0x003 => .ok (.mul (fld w 14 6) (flag w 13) (fld w 7 6) (flag w 6) (fld w 0 6))
  | 0x004 => .ok (.mulh (fld w 14 6) (flag w 13) (fld w 7 6) (flag w 6) (fld w 0 6))
  | 0x005 => .ok (.div (fld w 14 6) (flag w 13) (fld w 7 6) (flag w 6) (fld w 0 6))
  | 0x006 => .ok (.rem (fld w 14 6) (flag w 13) (fld w 7 6) (flag w 6) (fld w 0 6))
  | 0x007 => .ok (.min (fld w 14 6) (flag w 13) (fld w 7 6) (flag w 6) (fld w 0 6))
  | 0x008 => .ok (.max (fld w 14 6) (flag w 13) (fld w 7 6) (flag w 6) (fld w 0 6))
  | 0x009 => zeros (bits w 0 7 == 0) (.abs (fld w 14 6) (flag w 13) (fld w 7 6))
  | 0x00A => zeros (bits w 0 7 == 0) (.neg (fld w 14 6) (flag w 13) (fld w 7 6))
  | 0x010 => .ok (.and (fld w 14 6) (flag w 13) (fld w 7 6) (flag w 6) (fld w 0 6))
  | 0x011 => .ok (.or (fld w 14 6) (flag w 13) (fld w 7 6) (flag w 6) (fld w 0 6))
  | 0x012 => .ok (.xor (fld w 14 6) (flag w 13) (fld w 7 6) (flag w 6) (fld w 0 6))
  | 0x013 => zeros (bits w 0 7 == 0) (.not (fld w 14 6) (flag w 13) (fld w 7 6))
  | 0x014 => .ok (.shl (fld w 14 6) (flag w 13) (fld w 7 6) (flag w 6) (fld w 0 6))
  | 0x015 => .ok (.shr (fld w 14 6) (flag w 13) (fld w 7 6) (flag w 6) (fld w 0 6))
  | 0x016 => .ok (.sra (fld w 14 6) (flag w 13) (fld w 7 6) (flag w 6) (fld w 0 6))
  | 0x017 => .ok (.bfx (fld w 14 6) (flag w 13) (fld w 7 6) (flag w 6) (fld w 0 6))
  | 0x018 => .ok (.bfi (fld w 14 6) (flag w 13) (fld w 7 6) (flag w 6) (fld w 0 6))
  | 0x019 => zeros (bits w 0 7 == 0) (.popc (fld w 14 6) (flag w 13) (fld w 7 6))
  | 0x01A => zeros (bits w 0 7 == 0) (.clz (fld w 14 6) (flag w 13) (fld w 7 6))
  | 0x01B => zeros (bits w 0 7 == 0) (.ctz (fld w 14 6) (flag w 13) (fld w 7 6))
  | 0x01C => zeros (bits w 0 7 == 0) (.brev (fld w 14 6) (flag w 13) (fld w 7 6))
  | 0x020 => .ok (.cmp (fld w 17 3) (fld w 14 3) (flag w 13) (fld w 7 6) (flag w 6) (fld w 0 6))
  | 0x021 => .ok (.sel (fld w 14 6) (flag w 13) (fld w 7 6) (flag w 6) (fld w 0 6))
  | 0x022 => zeros (bits w 6 1 == 0) (.cvt (fld w 14 6) (flag w 13) (fld w 7 6) (fld w 4 2) (fld w 0 4))
  | 0x023 => .ok (.pack (fld w 14 6) (flag w 13) (fld w 7 6) (flag w 6) (fld w 0 6))
  | 0x024 => zeros (bits w 0 7 == 0) (.unpk (fld w 14 6) (flag w 13) (fld w 7 6))
  | 0x030 => zeros (bits w 0 7 == 0) (.mov (fld w 14 6) (flag w 13) (fld w 7 6))
  | 0x031 => zeros (bits w 0 7 == 0 && bits w 12 1 == 0) (.movs (fld w 14 6) (flag w 13) (fld w 7 5))
  | 0x032 => zeros (bits w 0 14 == 0) (.lid (fld w 14 6))
  | 0x040 => zeros (bits w 0 7 == 0) (.rcp (fld w 14 6) (flag w 13) (fld w 7 6))
  | 0x041 => zeros (bits w 0 7 == 0) (.rsq (fld w 14 6) (flag w 13) (fld w 7 6))
  | 0x042 => zeros (bits w 0 7 == 0) (.sqrt (fld w 14 6) (flag w 13) (fld w 7 6))
  | 0x043 => zeros (bits w 0 7 == 0) (.exp2 (fld w 14 6) (flag w 13) (fld w 7 6))
  | 0x044 => zeros (bits w 0 7 == 0) (.log2 (fld w 14 6) (flag w 13) (fld w 7 6))
  | 0x045 => zeros (bits w 0 7 == 0) (.sinr (fld w 14 6) (flag w 13) (fld w 7 6))
  | 0x046 => zeros (bits w 0 7 == 0) (.cosr (fld w 14 6) (flag w 13) (fld w 7 6))
  | 0x047 => zeros (bits w 0 7 == 0) (.tanh (fld w 14 6) (flag w 13) (fld w 7 6))
  | 0x048 => zeros (bits w 0 7 == 0) (.tbev (fld w 14 6) (flag w 13) (fld w 7 6))
  | 0x060 => .ok (.shfi (fld w 14 6) (flag w 13) (fld w 7 6) (flag w 6) (fld w 0 6))
  | 0x061 => zeros (bits w 6 1 == 0) (.shfd (fld w 14 6) (flag w 13) (fld w 7 6) (fld w 0 6))
  | 0x062 => zeros (bits w 6 1 == 0) (.shfx (fld w 14 6) (flag w 13) (fld w 7 6) (fld w 0 6))
  | 0x063 => zeros (bits w 0 7 == 0 && bits w 11 3 == 0 && bits w 19 1 == 0) (.vany (fld w 14 5) (flag w 10) (fld w 7 3))
  | 0x064 => zeros (bits w 0 7 == 0 && bits w 11 3 == 0 && bits w 19 1 == 0) (.vall (fld w 14 5) (flag w 10) (fld w 7 3))
  | 0x065 => zeros (bits w 0 7 == 0 && bits w 11 3 == 0) (.vbal (fld w 14 6) (flag w 10) (fld w 7 3))
  | 0x066 => zeros (bits w 6 1 == 0 && bits w 19 1 == 0) (.tred (fld w 14 5) (flag w 13) (fld w 7 6) (fld w 0 6))
  | 0x067 => zeros (bits w 4 3 == 0) (.tscan (fld w 14 6) (flag w 13) (fld w 7 6) (flag w 3) (fld w 0 3))
  | 0x068 => .ok (.segred (fld w 14 6) (flag w 13) (fld w 7 6) (flag w 6) (fld w 0 6))
  | 0x069 => zeros (bits w 5 2 == 0) (.tix (fld w 14 6) (flag w 13) (fld w 7 6) (fld w 0 5))
  | op => .error (.unassigned 0 op)

/-- Class FR: opcode bits [28:27]. -/
def decodeFR (w : Nat) : Except DecodeError Instr :=
  match bits w 27 2 with
  | 0 => .ok (.mad (fld w 21 6) (flag w 20) (fld w 14 6) (flag w 13) (fld w 7 6) (flag w 6) (fld w 0 6))
  | 1 => .ok (.msb (fld w 21 6) (flag w 20) (fld w 14 6) (flag w 13) (fld w 7 6) (flag w 6) (fld w 0 6))
  | 2 => .ok (.nmad (fld w 21 6) (flag w 20) (fld w 14 6) (flag w 13) (fld w 7 6) (flag w 6) (fld w 0 6))
  | 3 => .ok (.dot (fld w 21 6) (flag w 20) (fld w 14 6) (flag w 13) (fld w 7 6) (flag w 6) (fld w 0 6))
  | op => .error (.unassigned 1 op)

/-- Class I: opcode bits [28:23]. -/
def decodeI (w : Nat) : Except DecodeError Instr :=
  match bits w 23 6 with
  | 0 => .ok (.addi (fld w 17 6) (fld w 11 6) (fld w 0 11))
  | 1 => .ok (.muli (fld w 17 6) (fld w 11 6) (fld w 0 11))
  | 2 => .ok (.andi (fld w 17 6) (fld w 11 6) (fld w 0 11))
  | 3 => .ok (.ori (fld w 17 6) (fld w 11 6) (fld w 0 11))
  | 4 => .ok (.xori (fld w 17 6) (fld w 11 6) (fld w 0 11))
  | 5 => zeros (bits w 8 3 == 0) (.shli (fld w 17 6) (fld w 11 6) (fld w 0 8))
  | 6 => zeros (bits w 8 3 == 0) (.shri (fld w 17 6) (fld w 11 6) (fld w 0 8))
  | 7 => zeros (bits w 8 3 == 0) (.srai (fld w 17 6) (fld w 11 6) (fld w 0 8))
  | 8 => .ok (.cmpi (fld w 20 3) (fld w 17 3) (fld w 11 6) (fld w 0 11))
  | op => .error (.unassigned 2 op)

/-- Class M: opcode bits [28:24]. -/
def decodeM (w : Nat) : Except DecodeError Instr :=
  match bits w 24 5 with
  | 0 => zeros (bits w 0 1 == 0 && bits w 6 6 == 0 && bits w 17 1 == 0) (.ldBase (fld w 18 6) (fld w 12 5) (fld w 4 2) (fld w 1 3))
  | 1 => zeros (bits w 0 1 == 0 && bits w 17 1 == 0) (.ldVectorOffset (fld w 18 6) (fld w 12 5) (fld w 6 6) (fld w 4 2) (fld w 1 3))
  | 2 => zeros (bits w 6 6 == 0 && bits w 17 1 == 0) (.stBase (fld w 18 6) (fld w 12 5) (fld w 4 2) (fld w 1 3) (flag w 0))
  | 3 => zeros (bits w 17 1 == 0) (.stVectorOffset (fld w 18 6) (fld w 12 5) (fld w 6 6) (fld w 4 2) (fld w 1 3) (flag w 0))
  | 4 => zeros (bits w 0 1 == 0 && bits w 6 6 == 0 && bits w 17 1 == 0 && bits w 23 1 == 0) (.sld (fld w 18 5) (fld w 12 5) (fld w 4 2) (fld w 1 3))
  | 5 => zeros (bits w 6 6 == 0 && bits w 17 1 == 0 && bits w 23 1 == 0) (.sst (fld w 18 5) (fld w 12 5) (fld w 4 2) (fld w 1 3) (flag w 0))
  | 6 => zeros (bits w 0 1 == 0 && bits w 11 1 == 0 && bits w 17 1 == 0) (.wgath (fld w 18 6) (fld w 12 5) (fld w 6 5) (fld w 4 2) (fld w 1 3))
  | 7 => zeros (bits w 11 1 == 0 && bits w 17 1 == 0) (.wscat (fld w 18 6) (fld w 12 5) (fld w 6 5) (fld w 4 2) (fld w 1 3) (flag w 0))
  | 8 => zeros (bits w 17 1 == 0) (.aadd (fld w 18 6) (fld w 12 5) (fld w 6 6) (fld w 4 2) (fld w 1 3) (flag w 0))
  | 9 => zeros (bits w 17 1 == 0) (.amin (fld w 18 6) (fld w 12 5) (fld w 6 6) (fld w 4 2) (fld w 1 3) (flag w 0))
  | 10 => zeros (bits w 17 1 == 0) (.amax (fld w 18 6) (fld w 12 5) (fld w 6 6) (fld w 4 2) (fld w 1 3) (flag w 0))
  | 11 => zeros (bits w 17 1 == 0) (.aand (fld w 18 6) (fld w 12 5) (fld w 6 6) (fld w 4 2) (fld w 1 3) (flag w 0))
  | 12 => zeros (bits w 17 1 == 0) (.aor (fld w 18 6) (fld w 12 5) (fld w 6 6) (fld w 4 2) (fld w 1 3) (flag w 0))
  | 13 => zeros (bits w 17 1 == 0) (.axor (fld w 18 6) (fld w 12 5) (fld w 6 6) (fld w 4 2) (fld w 1 3) (flag w 0))
  | 14 => zeros (bits w 17 1 == 0) (.axch (fld w 18 6) (fld w 12 5) (fld w 6 6) (fld w 4 2) (fld w 1 3) (flag w 0))
  | 15 => zeros (bits w 17 1 == 0) (.acas (fld w 18 6) (fld w 12 5) (fld w 6 6) (fld w 4 2) (fld w 1 3) (flag w 0))
  | 16 => zeros (bits w 17 1 == 0) (.ared (fld w 18 6) (fld w 12 5) (fld w 6 6) (fld w 4 2) (fld w 1 3) (flag w 0))
  | 17 => zeros (bits w 0 1 == 0 && bits w 4 20 == 0) (.fence (fld w 1 3))
  | 18 => zeros (bits w 0 1 == 0 && bits w 4 20 == 0) (.phase (fld w 1 3))
  | 19 => zeros (bits w 0 6 == 0 && bits w 17 7 == 0) (.pf (fld w 12 5) (fld w 6 6))
  | 20 => zeros (bits w 0 1 == 0 && bits w 4 2 == 0 && bits w 11 1 == 0 && bits w 17 7 == 0) (.cwb (fld w 12 5) (fld w 6 5) (fld w 1 3))
  | 21 => zeros (bits w 0 1 == 0 && bits w 4 2 == 0 && bits w 11 1 == 0 && bits w 17 7 == 0) (.cinv (fld w 12 5) (fld w 6 5) (fld w 1 3))
  | 22 => zeros (bits w 0 1 == 0 && bits w 11 1 == 0 && bits w 17 1 == 0 && bits w 23 1 == 0) (.mwait (fld w 18 5) (fld w 12 5) (fld w 6 5) (fld w 4 2) (fld w 1 3))
  | op => .error (.unassigned 3 op)

/-- Class B: opcode bits [28:25]. -/
def decodeB (w : Nat) : Except DecodeError Instr :=
  match bits w 25 4 with
  | 0 => .ok (.br (flag w 24) (fld w 21 3) (fld w 0 21))
  | 1 => .ok (.bru (flag w 24) (fld w 21 3) (fld w 0 21))
  | 2 => .ok (.brany (flag w 24) (fld w 21 3) (fld w 0 21))
  | 3 => .ok (.brall (flag w 24) (fld w 21 3) (fld w 0 21))
  | 4 => zeros (bits w 21 4 == 0) (.jmp (fld w 0 21))
  | 5 => zeros (bits w 21 4 == 0) (.call (fld w 0 21))
  | op => .error (.unassigned 4 op)

/-- Class X: opcode bits [28:20]. -/
def decodeX (w : Nat) : Except DecodeError Instr :=
  match bits w 20 9 with
  | 0x000 => zeros (bits w 0 20 == 0) .nop
  | 0x001 => zeros (bits w 0 20 == 0) .exit
  | 0x002 => zeros (bits w 8 12 == 0) (.trap (fld w 0 8))
  | 0x003 => zeros (bits w 8 12 == 0) (.brk (fld w 0 8))
  | 0x004 => zeros (bits w 0 20 == 0) .rti
  | 0x005 => zeros (bits w 0 20 == 0) .yield
  | 0x008 => zeros (bits w 0 14 == 0 && bits w 19 1 == 0) (.callr (fld w 14 5))
  | 0x009 => zeros (bits w 0 14 == 0) (.callv (fld w 14 6))
  | 0x00A => zeros (bits w 0 20 == 0) .ret
  | 0x00B => zeros (bits w 0 8 == 0 && bits w 13 1 == 0 && bits w 19 1 == 0) (.cut (fld w 14 5) (fld w 8 5))
  | 0x00C => zeros (bits w 13 1 == 0 && bits w 19 1 == 0) (.stkrd (fld w 14 5) (fld w 8 5) (fld w 0 8))
  | 0x00D => zeros (bits w 13 1 == 0 && bits w 19 1 == 0) (.stkwr (fld w 14 5) (fld w 8 5) (fld w 0 8))
  | 0x00E => zeros (bits w 0 20 == 0) .rgnx
  | 0x010 => zeros (bits w 5 3 == 0 && bits w 13 1 == 0 && bits w 19 1 == 0) (.sadd (fld w 14 5) (fld w 8 5) (fld w 0 5))
  | 0x011 => zeros (bits w 5 3 == 0 && bits w 13 1 == 0 && bits w 19 1 == 0) (.ssub (fld w 14 5) (fld w 8 5) (fld w 0 5))
  | 0x012 => zeros (bits w 5 3 == 0 && bits w 13 1 == 0 && bits w 19 1 == 0) (.smul (fld w 14 5) (fld w 8 5) (fld w 0 5))
  | 0x013 => zeros (bits w 5 3 == 0 && bits w 13 1 == 0 && bits w 19 1 == 0) (.sdiv (fld w 14 5) (fld w 8 5) (fld w 0 5))
  | 0x014 => zeros (bits w 5 3 == 0 && bits w 13 1 == 0 && bits w 19 1 == 0) (.sand (fld w 14 5) (fld w 8 5) (fld w 0 5))
  | 0x015 => zeros (bits w 5 3 == 0 && bits w 13 1 == 0 && bits w 19 1 == 0) (.sor (fld w 14 5) (fld w 8 5) (fld w 0 5))
  | 0x016 => zeros (bits w 5 3 == 0 && bits w 13 1 == 0 && bits w 19 1 == 0) (.sxor (fld w 14 5) (fld w 8 5) (fld w 0 5))
  | 0x017 => zeros (bits w 5 3 == 0 && bits w 13 1 == 0 && bits w 19 1 == 0) (.sshl (fld w 14 5) (fld w 8 5) (fld w 0 5))
  | 0x018 => zeros (bits w 5 3 == 0 && bits w 13 1 == 0 && bits w 19 1 == 0) (.sshr (fld w 14 5) (fld w 8 5) (fld w 0 5))
  | 0x019 => zeros (bits w 5 3 == 0 && bits w 13 1 == 0 && bits w 19 1 == 0) (.ssra (fld w 14 5) (fld w 8 5) (fld w 0 5))
  | 0x01A => zeros (bits w 5 3 == 0 && bits w 13 1 == 0 && bits w 19 1 == 0) (.smin (fld w 14 5) (fld w 8 5) (fld w 0 5))
  | 0x01B => zeros (bits w 5 3 == 0 && bits w 13 1 == 0 && bits w 19 1 == 0) (.smax (fld w 14 5) (fld w 8 5) (fld w 0 5))
  | 0x01C => zeros (bits w 13 1 == 0 && bits w 19 1 == 0) (.scmp (fld w 14 5) (fld w 8 5) (fld w 5 3) (fld w 0 5))
  | 0x01D => zeros (bits w 13 1 == 0 && bits w 19 1 == 0) (.saddi (fld w 14 5) (fld w 8 5) (fld w 0 8))
  | 0x020 => zeros (bits w 5 3 == 0 && bits w 19 1 == 0) (.rdl (fld w 14 5) (fld w 8 6) (fld w 0 5))
  | 0x021 => zeros (bits w 5 3 == 0 && bits w 13 1 == 0) (.wrl (fld w 14 6) (fld w 8 5) (fld w 0 5))
  | 0x028 => zeros (bits w 0 14 == 0) (.bar (fld w 14 6))
  | 0x029 => zeros (bits w 0 8 == 0 && bits w 13 1 == 0) (.barar (fld w 14 6) (fld w 8 5))
  | 0x02A => zeros (bits w 0 8 == 0 && bits w 13 1 == 0) (.barwt (fld w 14 6) (fld w 8 5))
  | 0x02B => zeros (bits w 0 8 == 0 && bits w 13 1 == 0) (.barini (fld w 14 6) (fld w 8 5))
  | 0x02C => zeros (bits w 0 8 == 0 && bits w 13 1 == 0) (.barexp (fld w 14 6) (fld w 8 5))
  | 0x02D => zeros (bits w 0 20 == 0) .bbar
  | 0x02E => if bits w 0 14 == 0 then .ok (.fwaitVector (fld w 14 6)) else if bits w 0 14 == 256 && bits w 19 1 == 0 then .ok (.fwaitScalar (fld w 14 5)) else if bits w 0 20 == 512 then .ok .fwaitAll else .error .reservedField
  | 0x030 => zeros (bits w 0 14 == 0 && bits w 19 1 == 0) (.tbld (fld w 14 5))
  | 0x031 => zeros (bits w 0 20 == 0) .tbsw
  | 0x038 => zeros (bits w 0 8 == 0 && bits w 13 1 == 0 && bits w 19 1 == 0) (.shpld (fld w 14 5) (fld w 8 5))
  | 0x039 => zeros (bits w 5 3 == 0) (.rbal (fld w 14 6) (fld w 8 6) (fld w 0 5))
  | 0x03A => zeros (bits w 0 14 == 0 && bits w 19 1 == 0) (.mlopen (fld w 14 5))
  | 0x03B => zeros (bits w 3 5 == 0) (.mlfill (fld w 14 6) (fld w 8 6) (fld w 0 3))
  | 0x03C => zeros (bits w 0 14 == 0 && bits w 19 1 == 0) (.mlsave (fld w 14 5))
  | 0x03D => zeros (bits w 0 14 == 0 && bits w 19 1 == 0) (.mlrest (fld w 14 5))
  | 0x03E => zeros (bits w 8 6 == 0 && bits w 19 1 == 0) (.mlstat (fld w 14 5) (fld w 0 8))
  | 0x03F => zeros (bits w 0 20 == 0) .mlclose
  | 0x040 => zeros (bits w 0 8 == 0 && bits w 13 1 == 0 && bits w 19 1 == 0) (.cpl (fld w 14 5) (fld w 8 5))
  | 0x041 => zeros (bits w 0 8 == 0 && bits w 13 1 == 0 && bits w 19 1 == 0) (.cpt (fld w 14 5) (fld w 8 5))
  | 0x042 => zeros (bits w 0 8 == 0 && bits w 13 1 == 0 && bits w 19 1 == 0) (.cpm (fld w 14 5) (fld w 8 5))
  | 0x043 => zeros (bits w 0 8 == 0 && bits w 13 1 == 0 && bits w 19 1 == 0) (.cpr (fld w 14 5) (fld w 8 5))
  | 0x044 => zeros (bits w 0 8 == 0 && bits w 13 1 == 0 && bits w 19 1 == 0) (.coll (fld w 14 5) (fld w 8 5))
  | 0x045 => zeros (bits w 0 14 == 0 && bits w 19 1 == 0) (.tgl (fld w 14 5))
  | 0x046 => zeros (bits w 0 8 == 0 && bits w 13 1 == 0 && bits w 19 1 == 0) (.lnch (fld w 14 5) (fld w 8 5))
  | 0x047 => zeros (bits w 0 8 == 0 && bits w 13 1 == 0 && bits w 19 1 == 0) (.qpop (fld w 14 5) (fld w 8 5))
  | 0x048 => zeros (bits w 0 8 == 0 && bits w 13 1 == 0 && bits w 19 1 == 0) (.qapp (fld w 14 5) (fld w 8 5))
  | 0x050 => zeros (bits w 5 3 == 0 && bits w 13 1 == 0 && bits w 19 1 == 0) (.tld (fld w 14 5) (fld w 8 5) (fld w 0 5))
  | 0x051 => zeros (bits w 5 3 == 0 && bits w 13 1 == 0 && bits w 19 1 == 0) (.tst (fld w 14 5) (fld w 8 5) (fld w 0 5))
  | 0x052 => zeros (bits w 0 14 == 0 && bits w 19 1 == 0) (.tzero (fld w 14 5))
  | 0x053 => zeros (bits w 13 1 == 0 && bits w 19 1 == 0) (.mma (fld w 14 5) (fld w 8 5) (fld w 5 3) (fld w 0 5))
  | 0x054 => zeros (bits w 8 12 == 0) (.acz (fld w 5 3) (fld w 0 5))
  | 0x055 => zeros (bits w 3 5 == 0 && bits w 13 1 == 0) (.acrd (fld w 14 6) (fld w 8 5) (fld w 0 3))
  | 0x056 => zeros (bits w 3 5 == 0 && bits w 13 1 == 0) (.acwr (fld w 14 6) (fld w 8 5) (fld w 0 3))
  | 0x057 => zeros (bits w 3 11 == 0 && bits w 19 1 == 0) (.acst (fld w 14 5) (fld w 0 3))
  | 0x058 => if bits w 3 11 == 0 && bits w 19 1 == 0 then .ok (.acver (fld w 14 5) (fld w 0 3)) else if bits w 3 5 == 1 && bits w 13 1 == 0 && bits w 19 1 == 0 then .ok (.acverWait (fld w 14 5) (fld w 8 5) (fld w 0 3)) else .error .reservedField
  | 0x060 => zeros (bits w 13 7 == 0) (movcOf (fld w 8 5) (fld w 0 8))
  | 0x061 => zeros (bits w 8 6 == 0 && bits w 19 1 == 0) (.mvfc (fld w 14 5) (fld w 0 8))
  | 0x062 => zeros (bits w 13 1 == 0 && bits w 19 1 == 0) (.sys (fld w 14 5) (fld w 8 5) (fld w 0 8))
  | 0x063 => zeros (bits w 13 7 == 0) (.tlbi (fld w 8 5) (fld w 0 8))
  | 0x064 => zeros (bits w 0 14 == 0 && bits w 19 1 == 0) (.rdtm (fld w 14 5))
  | 0x065 => zeros (bits w 0 20 == 0) .halt
  | 0x066 => zeros (bits w 13 1 == 0 && bits w 19 1 == 0) (.frrd (fld w 14 5) (fld w 8 5) (fld w 0 8))
  | 0x067 => zeros (bits w 0 14 == 0 && bits w 19 1 == 0) (.lkill (fld w 14 5))
  | 0x068 => zeros (bits w 0 14 == 0 && bits w 19 1 == 0) (.ctxsv (fld w 14 5))
  | 0x069 => zeros (bits w 0 14 == 0 && bits w 19 1 == 0) (.ctxld (fld w 14 5))
  | op => .error (.unassigned 5 op)

/-- Class W: opcode bits [28:26]. -/
def decodeW (w : Nat) : Except DecodeError Instr :=
  match bits w 26 3 with
  | 0 => zeros (bits w 0 11 == 0) (.mode (flag w 25) (fld w 22 3) (fld w 18 4) (fld w 15 3) (flag w 14) (fld w 12 2) (flag w 11))
  | 1 => .ok (.sli (fld w 21 5) (fld w 0 21))
  | 2 => .ok (.slih (fld w 21 5) (fld w 0 21))
  | 3 => .ok (.slix (fld w 21 5) (fld w 0 21))
  | 4 => .ok (.joinat (fld w 0 26))
  | 5 => zeros (bits w 0 26 == 0) .rgn
  | 6 => .ok (.li (fld w 20 6) (fld w 0 20))
  | op => .error (.unassigned 6 op)

/-- The instruction of a word. -/
def decodeWord (w : Word) : Except DecodeError Instr :=
  let n := w.toNat
  match bits n 29 3 with
  | 0 => decodeTR n
  | 1 => decodeFR n
  | 2 => decodeI n
  | 3 => decodeM n
  | 4 => decodeB n
  | 5 => decodeX n
  | 6 => decodeW n
  | _ => .error .class111

/-- The instruction at the head of a list of bytes, low byte first (R38), and the bytes after it. -/
def decode : List Byte → Except DecodeError (Instr × List Byte)
  | b0 :: b1 :: b2 :: b3 :: r => (decodeWord (BitVec.ofNat 32 (ofLeBytes [b0, b1, b2, b3]))).map fun i => (i, r)
  | _ => .error .truncated

/-- The instruction that the decoder reads from an instruction word given as a number. -/
def decodeTableWord (nbits w : Nat) : Option Instr :=
  if nbits > 32 then none
  else match decode (leBytes w 4) with
    | .ok (i, _) => some i
    | .error _ => none

/-! ### Encoding -/

/-- A word from its fixed bits and its fields, each with the number of its lowest bit. -/
def asm (base : Nat) : List (Nat × Nat) → Nat
  | [] => base
  | (lo, x) :: r => asm base r + x * 2 ^ lo

/-- The `movc` word of a register number (R318). -/
def movcWord (y : BitVec 5) (c : Nat) : Nat := 0xA6000000 + y.toNat * 2 ^ 8 + c

/-- The word of an instruction, as a number; none for a step that no word encodes. -/
def encodeNat : Instr → Option Nat
  | .add d ta a tb b => some (asm 0x00100000 [(14, d.toNat), (13, bn ta), (7, a.toNat), (6, bn tb), (0, b.toNat)])
  | .sub d ta a tb b => some (asm 0x00200000 [(14, d.toNat), (13, bn ta), (7, a.toNat), (6, bn tb), (0, b.toNat)])
  | .mul d ta a tb b => some (asm 0x00300000 [(14, d.toNat), (13, bn ta), (7, a.toNat), (6, bn tb), (0, b.toNat)])
  | .mulh d ta a tb b => some (asm 0x00400000 [(14, d.toNat), (13, bn ta), (7, a.toNat), (6, bn tb), (0, b.toNat)])
  | .div d ta a tb b => some (asm 0x00500000 [(14, d.toNat), (13, bn ta), (7, a.toNat), (6, bn tb), (0, b.toNat)])
  | .rem d ta a tb b => some (asm 0x00600000 [(14, d.toNat), (13, bn ta), (7, a.toNat), (6, bn tb), (0, b.toNat)])
  | .min d ta a tb b => some (asm 0x00700000 [(14, d.toNat), (13, bn ta), (7, a.toNat), (6, bn tb), (0, b.toNat)])
  | .max d ta a tb b => some (asm 0x00800000 [(14, d.toNat), (13, bn ta), (7, a.toNat), (6, bn tb), (0, b.toNat)])
  | .abs d ta a => some (asm 0x00900000 [(14, d.toNat), (13, bn ta), (7, a.toNat)])
  | .neg d ta a => some (asm 0x00A00000 [(14, d.toNat), (13, bn ta), (7, a.toNat)])
  | .and d ta a tb b => some (asm 0x01000000 [(14, d.toNat), (13, bn ta), (7, a.toNat), (6, bn tb), (0, b.toNat)])
  | .or d ta a tb b => some (asm 0x01100000 [(14, d.toNat), (13, bn ta), (7, a.toNat), (6, bn tb), (0, b.toNat)])
  | .xor d ta a tb b => some (asm 0x01200000 [(14, d.toNat), (13, bn ta), (7, a.toNat), (6, bn tb), (0, b.toNat)])
  | .not d ta a => some (asm 0x01300000 [(14, d.toNat), (13, bn ta), (7, a.toNat)])
  | .shl d ta a tb b => some (asm 0x01400000 [(14, d.toNat), (13, bn ta), (7, a.toNat), (6, bn tb), (0, b.toNat)])
  | .shr d ta a tb b => some (asm 0x01500000 [(14, d.toNat), (13, bn ta), (7, a.toNat), (6, bn tb), (0, b.toNat)])
  | .sra d ta a tb b => some (asm 0x01600000 [(14, d.toNat), (13, bn ta), (7, a.toNat), (6, bn tb), (0, b.toNat)])
  | .bfx d ta a tb b => some (asm 0x01700000 [(14, d.toNat), (13, bn ta), (7, a.toNat), (6, bn tb), (0, b.toNat)])
  | .bfi d ta a tb b => some (asm 0x01800000 [(14, d.toNat), (13, bn ta), (7, a.toNat), (6, bn tb), (0, b.toNat)])
  | .popc d ta a => some (asm 0x01900000 [(14, d.toNat), (13, bn ta), (7, a.toNat)])
  | .clz d ta a => some (asm 0x01A00000 [(14, d.toNat), (13, bn ta), (7, a.toNat)])
  | .ctz d ta a => some (asm 0x01B00000 [(14, d.toNat), (13, bn ta), (7, a.toNat)])
  | .brev d ta a => some (asm 0x01C00000 [(14, d.toNat), (13, bn ta), (7, a.toNat)])
  | .cmp c p ta a tb b => some (asm 0x02000000 [(17, c.toNat), (14, p.toNat), (13, bn ta), (7, a.toNat), (6, bn tb), (0, b.toNat)])
  | .sel d ta a tb b => some (asm 0x02100000 [(14, d.toNat), (13, bn ta), (7, a.toNat), (6, bn tb), (0, b.toNat)])
  | .cvt d ta a k s => some (asm 0x02200000 [(14, d.toNat), (13, bn ta), (7, a.toNat), (4, k.toNat), (0, s.toNat)])
  | .pack d ta a tb b => some (asm 0x02300000 [(14, d.toNat), (13, bn ta), (7, a.toNat), (6, bn tb), (0, b.toNat)])
  | .unpk d ta a => some (asm 0x02400000 [(14, d.toNat), (13, bn ta), (7, a.toNat)])
  | .mov d ta a => some (asm 0x03000000 [(14, d.toNat), (13, bn ta), (7, a.toNat)])
  | .movs d ta a => some (asm 0x03100000 [(14, d.toNat), (13, bn ta), (7, a.toNat)])
  | .lid d => some (asm 0x03200000 [(14, d.toNat)])
  | .rcp d ta a => some (asm 0x04000000 [(14, d.toNat), (13, bn ta), (7, a.toNat)])
  | .rsq d ta a => some (asm 0x04100000 [(14, d.toNat), (13, bn ta), (7, a.toNat)])
  | .sqrt d ta a => some (asm 0x04200000 [(14, d.toNat), (13, bn ta), (7, a.toNat)])
  | .exp2 d ta a => some (asm 0x04300000 [(14, d.toNat), (13, bn ta), (7, a.toNat)])
  | .log2 d ta a => some (asm 0x04400000 [(14, d.toNat), (13, bn ta), (7, a.toNat)])
  | .sinr d ta a => some (asm 0x04500000 [(14, d.toNat), (13, bn ta), (7, a.toNat)])
  | .cosr d ta a => some (asm 0x04600000 [(14, d.toNat), (13, bn ta), (7, a.toNat)])
  | .tanh d ta a => some (asm 0x04700000 [(14, d.toNat), (13, bn ta), (7, a.toNat)])
  | .tbev d ta a => some (asm 0x04800000 [(14, d.toNat), (13, bn ta), (7, a.toNat)])
  | .shfi d ta a tb b => some (asm 0x06000000 [(14, d.toNat), (13, bn ta), (7, a.toNat), (6, bn tb), (0, b.toNat)])
  | .shfd d ta a b => some (asm 0x06100000 [(14, d.toNat), (13, bn ta), (7, a.toNat), (0, b.toNat)])
  | .shfx d ta a b => some (asm 0x06200000 [(14, d.toNat), (13, bn ta), (7, a.toNat), (0, b.toNat)])
  | .vany d inv p => some (asm 0x06300000 [(14, d.toNat), (10, bn inv), (7, p.toNat)])
  | .vall d inv p => some (asm 0x06400000 [(14, d.toNat), (10, bn inv), (7, p.toNat)])
  | .vbal d inv p => some (asm 0x06500000 [(14, d.toNat), (10, bn inv), (7, p.toNat)])
  | .tred d ta a op => some (asm 0x06600000 [(14, d.toNat), (13, bn ta), (7, a.toNat), (0, op.toNat)])
  | .tscan d ta a excl op => some (asm 0x06700000 [(14, d.toNat), (13, bn ta), (7, a.toNat), (3, bn excl), (0, op.toNat)])
  | .segred d ta a tb b => some (asm 0x06800000 [(14, d.toNat), (13, bn ta), (7, a.toNat), (6, bn tb), (0, b.toNat)])
  | .tix d ta a b => some (asm 0x06900000 [(14, d.toNat), (13, bn ta), (7, a.toNat), (0, b.toNat)])
  | .mad d ta a tb b tc c => some (asm 0x20000000 [(21, d.toNat), (20, bn ta), (14, a.toNat), (13, bn tb), (7, b.toNat), (6, bn tc), (0, c.toNat)])
  | .msb d ta a tb b tc c => some (asm 0x28000000 [(21, d.toNat), (20, bn ta), (14, a.toNat), (13, bn tb), (7, b.toNat), (6, bn tc), (0, c.toNat)])
  | .nmad d ta a tb b tc c => some (asm 0x30000000 [(21, d.toNat), (20, bn ta), (14, a.toNat), (13, bn tb), (7, b.toNat), (6, bn tc), (0, c.toNat)])
  | .dot d ta a tb b tc c => some (asm 0x38000000 [(21, d.toNat), (20, bn ta), (14, a.toNat), (13, bn tb), (7, b.toNat), (6, bn tc), (0, c.toNat)])
  | .addi d a imm => some (asm 0x40000000 [(17, d.toNat), (11, a.toNat), (0, imm.toNat)])
  | .muli d a imm => some (asm 0x40800000 [(17, d.toNat), (11, a.toNat), (0, imm.toNat)])
  | .andi d a imm => some (asm 0x41000000 [(17, d.toNat), (11, a.toNat), (0, imm.toNat)])
  | .ori d a imm => some (asm 0x41800000 [(17, d.toNat), (11, a.toNat), (0, imm.toNat)])
  | .xori d a imm => some (asm 0x42000000 [(17, d.toNat), (11, a.toNat), (0, imm.toNat)])
  | .shli d a imm => some (asm 0x42800000 [(17, d.toNat), (11, a.toNat), (0, imm.toNat)])
  | .shri d a imm => some (asm 0x43000000 [(17, d.toNat), (11, a.toNat), (0, imm.toNat)])
  | .srai d a imm => some (asm 0x43800000 [(17, d.toNat), (11, a.toNat), (0, imm.toNat)])
  | .cmpi c p a imm => some (asm 0x44000000 [(20, c.toNat), (17, p.toNat), (11, a.toNat), (0, imm.toNat)])
  | .ldBase d b ord scope => some (asm 0x60000000 [(18, d.toNat), (12, b.toNat), (4, ord.toNat), (1, scope.toNat)])
  | .ldVectorOffset d b o ord scope => some (asm 0x61000000 [(18, d.toNat), (12, b.toNat), (6, o.toNat), (4, ord.toNat), (1, scope.toNat)])
  | .stBase d b ord scope ta => some (asm 0x62000000 [(18, d.toNat), (12, b.toNat), (4, ord.toNat), (1, scope.toNat), (0, bn ta)])
  | .stVectorOffset d b o ord scope ta => some (asm 0x63000000 [(18, d.toNat), (12, b.toNat), (6, o.toNat), (4, ord.toNat), (1, scope.toNat), (0, bn ta)])
  | .sld d b ord scope => some (asm 0x64000000 [(18, d.toNat), (12, b.toNat), (4, ord.toNat), (1, scope.toNat)])
  | .sst d b ord scope ta => some (asm 0x65000000 [(18, d.toNat), (12, b.toNat), (4, ord.toNat), (1, scope.toNat), (0, bn ta)])
  | .wgath d b o ord scope => some (asm 0x66000000 [(18, d.toNat), (12, b.toNat), (6, o.toNat), (4, ord.toNat), (1, scope.toNat)])
  | .wscat d b o ord scope ta => some (asm 0x67000000 [(18, d.toNat), (12, b.toNat), (6, o.toNat), (4, ord.toNat), (1, scope.toNat), (0, bn ta)])
  | .aadd d b o ord scope ta => some (asm 0x68000000 [(18, d.toNat), (12, b.toNat), (6, o.toNat), (4, ord.toNat), (1, scope.toNat), (0, bn ta)])
  | .amin d b o ord scope ta => some (asm 0x69000000 [(18, d.toNat), (12, b.toNat), (6, o.toNat), (4, ord.toNat), (1, scope.toNat), (0, bn ta)])
  | .amax d b o ord scope ta => some (asm 0x6A000000 [(18, d.toNat), (12, b.toNat), (6, o.toNat), (4, ord.toNat), (1, scope.toNat), (0, bn ta)])
  | .aand d b o ord scope ta => some (asm 0x6B000000 [(18, d.toNat), (12, b.toNat), (6, o.toNat), (4, ord.toNat), (1, scope.toNat), (0, bn ta)])
  | .aor d b o ord scope ta => some (asm 0x6C000000 [(18, d.toNat), (12, b.toNat), (6, o.toNat), (4, ord.toNat), (1, scope.toNat), (0, bn ta)])
  | .axor d b o ord scope ta => some (asm 0x6D000000 [(18, d.toNat), (12, b.toNat), (6, o.toNat), (4, ord.toNat), (1, scope.toNat), (0, bn ta)])
  | .axch d b o ord scope ta => some (asm 0x6E000000 [(18, d.toNat), (12, b.toNat), (6, o.toNat), (4, ord.toNat), (1, scope.toNat), (0, bn ta)])
  | .acas d b o ord scope ta => some (asm 0x6F000000 [(18, d.toNat), (12, b.toNat), (6, o.toNat), (4, ord.toNat), (1, scope.toNat), (0, bn ta)])
  | .ared d b c ord scope ta => some (asm 0x70000000 [(18, d.toNat), (12, b.toNat), (6, c.toNat), (4, ord.toNat), (1, scope.toNat), (0, bn ta)])
  | .fence scope => some (asm 0x71000000 [(1, scope.toNat)])
  | .phase scope => some (asm 0x72000000 [(1, scope.toNat)])
  | .pf b o => some (asm 0x73000000 [(12, b.toNat), (6, o.toNat)])
  | .cwb b l scope => some (asm 0x74000000 [(12, b.toNat), (6, l.toNat), (1, scope.toNat)])
  | .cinv b l scope => some (asm 0x75000000 [(12, b.toNat), (6, l.toNat), (1, scope.toNat)])
  | .mwait d b o ord scope => some (asm 0x76000000 [(18, d.toNat), (12, b.toNat), (6, o.toNat), (4, ord.toNat), (1, scope.toNat)])
  | .br inv p off => some (asm 0x80000000 [(24, bn inv), (21, p.toNat), (0, off.toNat)])
  | .bru inv p off => some (asm 0x82000000 [(24, bn inv), (21, p.toNat), (0, off.toNat)])
  | .brany inv p off => some (asm 0x84000000 [(24, bn inv), (21, p.toNat), (0, off.toNat)])
  | .brall inv p off => some (asm 0x86000000 [(24, bn inv), (21, p.toNat), (0, off.toNat)])
  | .jmp off => some (asm 0x88000000 [(0, off.toNat)])
  | .call off => some (asm 0x8A000000 [(0, off.toNat)])
  | .nop => some (asm 0xA0000000 [])
  | .exit => some (asm 0xA0100000 [])
  | .trap z => some (asm 0xA0200000 [(0, z.toNat)])
  | .brk z => some (asm 0xA0300000 [(0, z.toNat)])
  | .rti => some (asm 0xA0400000 [])
  | .yield => some (asm 0xA0500000 [])
  | .callr x => some (asm 0xA0800000 [(14, x.toNat)])
  | .callv x => some (asm 0xA0900000 [(14, x.toNat)])
  | .ret => some (asm 0xA0A00000 [])
  | .cut x y => some (asm 0xA0B00000 [(14, x.toNat), (8, y.toNat)])
  | .stkrd x y f => some (asm 0xA0C00000 [(14, x.toNat), (8, y.toNat), (0, f.toNat)])
  | .stkwr x y f => some (asm 0xA0D00000 [(14, x.toNat), (8, y.toNat), (0, f.toNat)])
  | .rgnx => some (asm 0xA0E00000 [])
  | .sadd x y z => some (asm 0xA1000000 [(14, x.toNat), (8, y.toNat), (0, z.toNat)])
  | .ssub x y z => some (asm 0xA1100000 [(14, x.toNat), (8, y.toNat), (0, z.toNat)])
  | .smul x y z => some (asm 0xA1200000 [(14, x.toNat), (8, y.toNat), (0, z.toNat)])
  | .sdiv x y z => some (asm 0xA1300000 [(14, x.toNat), (8, y.toNat), (0, z.toNat)])
  | .sand x y z => some (asm 0xA1400000 [(14, x.toNat), (8, y.toNat), (0, z.toNat)])
  | .sor x y z => some (asm 0xA1500000 [(14, x.toNat), (8, y.toNat), (0, z.toNat)])
  | .sxor x y z => some (asm 0xA1600000 [(14, x.toNat), (8, y.toNat), (0, z.toNat)])
  | .sshl x y z => some (asm 0xA1700000 [(14, x.toNat), (8, y.toNat), (0, z.toNat)])
  | .sshr x y z => some (asm 0xA1800000 [(14, x.toNat), (8, y.toNat), (0, z.toNat)])
  | .ssra x y z => some (asm 0xA1900000 [(14, x.toNat), (8, y.toNat), (0, z.toNat)])
  | .smin x y z => some (asm 0xA1A00000 [(14, x.toNat), (8, y.toNat), (0, z.toNat)])
  | .smax x y z => some (asm 0xA1B00000 [(14, x.toNat), (8, y.toNat), (0, z.toNat)])
  | .scmp x y c z => some (asm 0xA1C00000 [(14, x.toNat), (8, y.toNat), (5, c.toNat), (0, z.toNat)])
  | .saddi x y imm => some (asm 0xA1D00000 [(14, x.toNat), (8, y.toNat), (0, imm.toNat)])
  | .rdl x y z => some (asm 0xA2000000 [(14, x.toNat), (8, y.toNat), (0, z.toNat)])
  | .wrl x y z => some (asm 0xA2100000 [(14, x.toNat), (8, y.toNat), (0, z.toNat)])
  | .bar n => some (asm 0xA2800000 [(14, n.toNat)])
  | .barar n y => some (asm 0xA2900000 [(14, n.toNat), (8, y.toNat)])
  | .barwt n y => some (asm 0xA2A00000 [(14, n.toNat), (8, y.toNat)])
  | .barini n y => some (asm 0xA2B00000 [(14, n.toNat), (8, y.toNat)])
  | .barexp n y => some (asm 0xA2C00000 [(14, n.toNat), (8, y.toNat)])
  | .bbar => some (asm 0xA2D00000 [])
  | .fwaitVector x => some (asm 0xA2E00000 [(14, x.toNat)])
  | .fwaitScalar x => some (asm 0xA2E00100 [(14, x.toNat)])
  | .fwaitAll => some (asm 0xA2E00200 [])
  | .tbld x => some (asm 0xA3000000 [(14, x.toNat)])
  | .tbsw => some (asm 0xA3100000 [])
  | .shpld x y => some (asm 0xA3800000 [(14, x.toNat), (8, y.toNat)])
  | .rbal x y c => some (asm 0xA3900000 [(14, x.toNat), (8, y.toNat), (0, c.toNat)])
  | .mlopen x => some (asm 0xA3A00000 [(14, x.toNat)])
  | .mlfill x y p => some (asm 0xA3B00000 [(14, x.toNat), (8, y.toNat), (0, p.toNat)])
  | .mlsave x => some (asm 0xA3C00000 [(14, x.toNat)])
  | .mlrest x => some (asm 0xA3D00000 [(14, x.toNat)])
  | .mlstat x f => some (asm 0xA3E00000 [(14, x.toNat), (0, f.toNat)])
  | .mlclose => some (asm 0xA3F00000 [])
  | .cpl x y => some (asm 0xA4000000 [(14, x.toNat), (8, y.toNat)])
  | .cpt x y => some (asm 0xA4100000 [(14, x.toNat), (8, y.toNat)])
  | .cpm x y => some (asm 0xA4200000 [(14, x.toNat), (8, y.toNat)])
  | .cpr x y => some (asm 0xA4300000 [(14, x.toNat), (8, y.toNat)])
  | .coll x y => some (asm 0xA4400000 [(14, x.toNat), (8, y.toNat)])
  | .tgl x => some (asm 0xA4500000 [(14, x.toNat)])
  | .lnch x y => some (asm 0xA4600000 [(14, x.toNat), (8, y.toNat)])
  | .qpop x y => some (asm 0xA4700000 [(14, x.toNat), (8, y.toNat)])
  | .qapp x y => some (asm 0xA4800000 [(14, x.toNat), (8, y.toNat)])
  | .tld a b s => some (asm 0xA5000000 [(14, a.toNat), (8, b.toNat), (0, s.toNat)])
  | .tst a b s => some (asm 0xA5100000 [(14, a.toNat), (8, b.toNat), (0, s.toNat)])
  | .tzero a => some (asm 0xA5200000 [(14, a.toNat)])
  | .mma a b c v => some (asm 0xA5300000 [(14, a.toNat), (8, b.toNat), (5, c.toNat), (0, v.toNat)])
  | .acz c v => some (asm 0xA5400000 [(5, c.toNat), (0, v.toNat)])
  | .acrd d r a => some (asm 0xA5500000 [(14, d.toNat), (8, r.toNat), (0, a.toNat)])
  | .acwr d r a => some (asm 0xA5600000 [(14, d.toNat), (8, r.toNat), (0, a.toNat)])
  | .acst x a => some (asm 0xA5700000 [(14, x.toNat), (0, a.toNat)])
  | .acver d a => some (asm 0xA5800000 [(14, d.toNat), (0, a.toNat)])
  | .acverWait d w a => some (asm 0xA5800008 [(14, d.toNat), (8, w.toNat), (0, a.toNat)])
  | .movc y c => some (movcWord y c.toNat)
  | .mvfc x c => some (asm 0xA6100000 [(14, x.toNat), (0, c.toNat)])
  | .sys x y n => some (asm 0xA6200000 [(14, x.toNat), (8, y.toNat), (0, n.toNat)])
  | .tlbi y k => some (asm 0xA6300000 [(8, y.toNat), (0, k.toNat)])
  | .rdtm x => some (asm 0xA6400000 [(14, x.toNat)])
  | .halt => some (asm 0xA6500000 [])
  | .frrd x y f => some (asm 0xA6600000 [(14, x.toNat), (8, y.toNat), (0, f.toNat)])
  | .lkill x => some (asm 0xA6700000 [(14, x.toNat)])
  | .ctxsv x => some (asm 0xA6800000 [(14, x.toNat)])
  | .ctxld x => some (asm 0xA6900000 [(14, x.toNat)])
  | .mode ginv gp ty rnd sat ret ftz => some (asm 0xC0000000 [(25, bn ginv), (22, gp.toNat), (18, ty.toNat), (15, rnd.toNat), (14, bn sat), (12, ret.toNat), (11, bn ftz)])
  | .sli d imm => some (asm 0xC4000000 [(21, d.toNat), (0, imm.toNat)])
  | .slih d imm => some (asm 0xC8000000 [(21, d.toNat), (0, imm.toNat)])
  | .slix d imm => some (asm 0xCC000000 [(21, d.toNat), (0, imm.toNat)])
  | .joinat off => some (asm 0xD0000000 [(0, off.toNat)])
  | .rgn => some (asm 0xD4000000 [])
  | .li d imm => some (asm 0xD8000000 [(20, d.toNat), (0, imm.toNat)])
  | .avWrite n y => some (movcWord y (0x40 + n.toNat))
  | .tsWrite n y => some (movcWord y (0x20 + n.toNat))
  | .crate n y => some (movcWord y (0x48 + n.toNat))
  | .breakpointWrite n y => some (movcWord y (0x50 + n.toNat))
  | .spinj y => some (movcWord y 0x1C)
  | .ptrig y => some (movcWord y 0x1B)
  | .requestCollectorAdmission .. | .mergeTimeout .. | .l2SliceRequest .. | .homeRequest .. | .burstRead ..
  | .writeReplay .. | .retrain .. | .blockProcedure .. | .backInvalidateResponse .. | .fill .. | .publication ..
  | .backgroundScrub .. | .sliceCountClear .. | .spareIn .. | .spareInComplete .. | .hotRemoveAcknowledge ..
  | .deepRetention .. | .hotAdd .. | .pageWalk .. | .messageSend .. | .fragmentReceive .. | .acknowledgement ..
  | .receiverRepairTimeout .. | .senderRepairTimeout .. | .repairRequest .. | .messageLoss .. | .lossNotice ..
  | .poisonNotice .. | .delayedFragment .. | .linkRemoval .. | .timebaseCorrection .. | .masterLinkTimeout ..
  | .hostReadShared .. | .hostReadOwned .. | .hostWriteback .. | .hostSnoopData .. | .hostSnoopInvalidate ..
  | .hostReadGrant .. | .atsCompletion .. | .atsInvalidation .. | .pageRequestResponse .. | .serviceReply ..
  | .extentRelease .. | .surpriseRemoval .. | .launchHead .. | .bandPlacement .. | .quantumExpiry .. | .stageBalancer ..
  | .gangStart .. | .operatingPointStable .. | .kernelBoundary .. | .preEmption .. | .resumption .. | .trapEntry ..
  | .regionRestart .. | .mwaitSatisfied .. | .mwto .. | .barrierWaitEnd .. | .mmaCommand .. | .aczCommand ..
  | .acstCommand .. | .tableLoadComplete .. | .mlfillComplete .. | .copyPacketStart .. | .copyRead .. | .mergeWindowClose ..
  | .copyComplete .. | .collectiveMatch .. | .collectiveComplete .. | .nodeComplete .. | .debugStep .. | .stepLane ..
  | .ptrigFire .. | .securityAlarm .. | .powerLimitStep .. | .currentLimit .. | .currentRestore .. | .thermalLimit ..
  | .thermalShutdown .. | .moduleReset .. | .functionReady .. | .counterRead .. | .counterClear .. | .rasLogRead ..
  | .errorRecordRead .. | .tenantCreate .. | .tenantDestroy .. | .fattrWrite .. | .formatWindowEnable ..
  | .formatWindowDisable .. | .managementRegisterWrite .. | .debuggerAttach .. | .bandResume .. | .attestationReport ..
  | .firmwareUpdate .. | .unassignedOpcode .. | .instructionFetchFault .. | .producerCompletion .. | .stepAbort ..
  | .launchEndFromOutside .. | .extentAdd .. => none

/-- The word of an instruction. -/
def encode (i : Instr) : Option Word := (encodeNat i).map (BitVec.ofNat 32)

end Sys2Proof
end

