-- ==== Sys2Proof/Machine/Flags.lean ====
section
/-! DEFINITION. Numbers and rounding (R42, R63 to R70): the element types, the floating formats, exact values, `Round` and
the flags that a result raises. A value of any format is kept as a number whose bits are the register's bits. -/

namespace Sys2Proof.Machine

/-- The floating flags as bits of FSTAT (R71). -/
abbrev Flags := BitVec 5
def fINV : Flags := 1
def fDZ : Flags := 2
def fOVF : Flags := 4
def fUNF : Flags := 8
def fINX : Flags := 16

/-- MODE.RND 0 to 5 (R67). -/
inductive RoundMode where
  | rn | rz | ru | rd | rna | ro
  deriving DecidableEq, Repr

/-- The six codes; 6 and 7 are reserved (R41). -/
def RoundMode.ofCode : Nat → Option RoundMode
  | 0 => some .rn
  | 1 => some .rz
  | 2 => some .ru
  | 3 => some .rd
  | 4 => some .rna
  | 5 => some .ro
  | _ => none

/-- The fields of MODE that a result follows (R41). -/
structure NumEnv where
  rm : RoundMode
  sat : Bool
  ftz : Bool
  deriving DecidableEq, Repr

/-- A floating format (R63): exponent and fraction widths; `ieee` is false for E4M3, which has no infinity, and `quiet` is
true where every NaN is quiet (R64); `flushes` marks the four formats that MODE.FTZ acts on (R69). -/
structure Fmt where
  ebits : Nat
  fbits : Nat
  ieee : Bool := true
  flushes : Bool := true
  quiet : Bool := false
  deriving DecidableEq, Repr

def f64 : Fmt := { ebits := 11, fbits := 52 }
def f32 : Fmt := { ebits := 8, fbits := 23 }
def f16 : Fmt := { ebits := 5, fbits := 10 }
def bf16 : Fmt := { ebits := 8, fbits := 7 }
def e4m3 : Fmt := { ebits := 4, fbits := 3, ieee := false, flushes := false, quiet := true }
def e5m2 : Fmt := { ebits := 5, fbits := 2, flushes := false, quiet := true }

def Fmt.width (f : Fmt) : Nat := 1 + f.ebits + f.fbits
def Fmt.bias (f : Fmt) : Nat := 2 ^ (f.ebits - 1) - 1
/-- The exponent of the least significant fraction bit of a subnormal. -/
def Fmt.qmin (f : Fmt) : Int := 1 - (f.bias : Int) - (f.fbits : Int)
/-- The exponent of the smallest normal value. -/
def Fmt.emin (f : Fmt) : Int := 1 - (f.bias : Int)
/-- The code of the largest finite value, sign clear (R63). -/
def Fmt.largest (f : Fmt) : Nat :=
  if f.ieee then (2 ^ f.ebits - 2) * 2 ^ f.fbits + (2 ^ f.fbits - 1) else (2 ^ f.ebits - 1) * 2 ^ f.fbits + (2 ^ f.fbits - 2)
/-- The canonical NaN (R64). -/
def Fmt.nan (f : Fmt) : Nat :=
  if f.ieee then (2 ^ f.ebits - 1) * 2 ^ f.fbits + 2 ^ (f.fbits - 1) else 2 ^ (f.width - 1) - 1
def Fmt.inf (f : Fmt) : Nat := (2 ^ f.ebits - 1) * 2 ^ f.fbits
def Fmt.signed (f : Fmt) (neg : Bool) (x : Nat) : Nat := if neg then x + 2 ^ (f.width - 1) else x

/-- What an operand is: a finite number `(-1)^neg × m × 2^e`, an infinity, or a NaN. -/
inductive Fp where
  | num (neg : Bool) (m : Nat) (e : Int)
  | inf (neg : Bool)
  | nan (signalling : Bool)
  deriving DecidableEq, Repr

/-- Reads the low bits of `x` in a format (R63, R64). -/
def Fmt.read (f : Fmt) (x : Nat) : Fp :=
  let neg := bit x (f.width - 1)
  let e := bits x f.fbits f.ebits
  let m := bits x 0 f.fbits
  if f.ieee && e == 2 ^ f.ebits - 1 then
    if m == 0 then .inf neg else .nan (!f.quiet && !bit m (f.fbits - 1))
  else if !f.ieee && e == 2 ^ f.ebits - 1 && m == 2 ^ f.fbits - 1 then .nan false
  else if e == 0 then .num neg m f.qmin
  else .num neg (m + 2 ^ f.fbits) ((e : Int) - f.bias - f.fbits)

/-- Reads an operand of an operation: a subnormal of the four flushed formats is a zero of the same sign when MODE.FTZ is 1
(R69). -/
def Fmt.operand (f : Fmt) (ftz : Bool) (x : Nat) : Fp :=
  match f.read x with
  | .num neg m e => if ftz && f.flushes && decide (m < 2 ^ f.fbits) then .num neg 0 e else .num neg m e
  | v => v

/-- A signalling NaN operand raises INV (R64). -/
def Fp.snan : Fp → Flags
  | .nan true => fINV
  | _ => 0

/-- An exact result before rounding. In `num neg m e sticky` the magnitude is `m × 2^e` when `sticky` is false, and lies
strictly between `m × 2^e` and `(m + 1) × 2^e` when it is true. -/
inductive Exact where
  | num (neg : Bool) (m : Nat) (e : Int) (sticky : Bool)
  | inf (neg : Bool)
  | nan
  deriving DecidableEq, Repr

/-- `m × 2^e` (plus a sticky part) cut to a multiple of `2^q`: the quotient, and the remainder as 0 (none), 1 (below half),
2 (half) or 3 (above half). -/
def cutAt (m : Nat) (e : Int) (sticky : Bool) (q : Int) : Nat × Nat :=
  if e ≥ q then (m * 2 ^ (e - q).toNat, if sticky then 1 else 0)
  else
    let k := (q - e).toNat
    let r := m % 2 ^ k
    let h := 2 ^ (k - 1)
    (m / 2 ^ k,
      if r == 0 && !sticky then 0 else if decide (r < h) then 1 else if r == h && !sticky then 2 else 3)

/-- Whether the mode takes the neighbour of larger magnitude (R67), for a kept part `n` and a nonzero remainder class. -/
def roundsUp (rm : RoundMode) (neg : Bool) (n rem : Nat) : Bool :=
  match rm with
  | .rn => decide (rem = 3) || (decide (rem = 2) && n % 2 == 1)
  | .rz => false
  | .ru => !neg
  | .rd => neg
  | .rna => decide (rem ≥ 2)
  | .ro => n % 2 == 0

/-- Rounds a magnitude to a multiple of `2^q`: the multiple and whether the rounding was inexact. -/
def roundMag (rm : RoundMode) (neg : Bool) (m : Nat) (e : Int) (sticky : Bool) (q : Int) : Nat × Bool :=
  let (n, rem) := cutAt m e sticky q
  if rem == 0 then (n, false) else (if roundsUp rm neg n rem then n + 1 else n, true)

/-- The result of an overflow (R68). -/
def Fmt.overflowed (f : Fmt) (env : NumEnv) (neg : Bool) : Nat :=
  let big := f.signed neg f.largest
  let inf := f.signed neg f.inf
  if env.sat then big
  else if !f.ieee then f.nan
  else match env.rm with
    | .rn | .rna => inf
    | .rz | .ro => big
    | .ru => if neg then big else inf
    | .rd => if neg then inf else big

/-- `Round` for a finite nonzero or zero magnitude, choosing a neighbour by `rm` and following R68 and R69 under `env`. -/
def Fmt.roundNum (f : Fmt) (rm : RoundMode) (env : NumEnv) (neg : Bool) (m : Nat) (e : Int) (sticky : Bool) : Nat × Flags :=
  if m == 0 && !sticky then (f.signed neg 0, 0)
  else
    let top : Int := (Nat.log2 m : Int) + e
    let qfree := top - f.fbits
    let (nf, _) := roundMag rm neg m e sticky qfree
    let tiny := decide (qfree < f.qmin) && (decide (qfree + 1 < f.qmin) || decide (nf < 2 ^ (f.fbits + 1)))
    let q := max qfree f.qmin
    let (n, inexact) := roundMag rm neg m e sticky q
    let n' := if n == 2 ^ (f.fbits + 1) then 2 ^ f.fbits else n
    let q' := if n == 2 ^ (f.fbits + 1) then q + 1 else q
    let code := if n' < 2 ^ f.fbits then n' else ((q' - f.qmin).toNat + 1) * 2 ^ f.fbits + (n' - 2 ^ f.fbits)
    if code > f.largest then (f.overflowed env neg, fOVF ||| fINX)
    else if tiny && env.ftz && f.flushes then (f.signed neg 0, fUNF ||| fINX)
    else (f.signed neg code, (if inexact then fINX else 0) ||| (if tiny && inexact then fUNF else 0))

/-- `Round(type, x, MODE.RND)` with R64, R68 and R69. -/
def Fmt.round (f : Fmt) (env : NumEnv) : Exact → Nat × Flags
  | .nan => (f.nan, 0)
  | .inf neg => (if f.ieee then f.signed neg f.inf else if env.sat then f.signed neg f.largest else f.nan, 0)
  | .num neg m e sticky => f.roundNum env.rm env neg m e sticky

/-! ### Exact operations -/

/-- The sign of an exact zero sum of terms that do not all have one sign: IEEE 754, minus only under `rd`. -/
def zeroSign (rm : RoundMode) : Bool := rm == .rd

/-- A signed mantissa. -/
def mant (neg : Bool) (m : Nat) : Int := if neg then -(m : Int) else m

/-- The exact sum of finite terms `(neg, m, e)`; a zero sum takes the terms' common sign, or `zeroSign`. -/
def sumTerms (rm : RoundMode) (ts : List (Bool × Nat × Int)) : Exact :=
  let lo := ts.foldl (fun a t => if t.2.1 = 0 then a else min a t.2.2)
    ((ts.find? fun t => t.2.1 != 0).elim 0 fun t => t.2.2)
  let s : Int := ts.foldl (fun a t => a + mant t.1 (t.2.1 * 2 ^ (if t.2.1 = 0 then 0 else (t.2.2 - lo).toNat))) 0
  if s = 0 then
    .num (if ts.all (fun t => t.1) && !ts.isEmpty then true else if ts.all (fun t => !t.1) then false else zeroSign rm) 0 0 false
  else .num (decide (s < 0)) s.natAbs lo false

/-- The exact product of two operands, with INV for 0 × ∞ and for a signalling NaN (R64, R71). -/
def fpMul (x y : Fp) : Exact × Flags :=
  match x, y with
  | .nan s, .nan t => (.nan, if s || t then fINV else 0)
  | .nan s, _ => (.nan, if s then fINV else 0)
  | _, .nan t => (.nan, if t then fINV else 0)
  | .inf a, .inf b => (.inf (a != b), 0)
  | .inf a, .num b m _ => if m == 0 then (.nan, fINV) else (.inf (a != b), 0)
  | .num a m _, .inf b => if m == 0 then (.nan, fINV) else (.inf (a != b), 0)
  | .num a m e, .num b n f => (.num (a != b) (m * n) (e + f) false, 0)

/-- The exact sum of exact values: NaN if any is a NaN, INV for ∞ − ∞ (R71). -/
def exactSum (rm : RoundMode) (ts : List Exact) : Exact × Flags :=
  if ts.any (fun t => t == .nan) then (.nan, 0)
  else
    let pos := ts.any fun t => t == .inf false
    let neg := ts.any fun t => t == .inf true
    if pos && neg then (.nan, fINV)
    else if pos then (.inf false, 0)
    else if neg then (.inf true, 0)
    else (sumTerms rm (ts.filterMap fun t => match t with
      | .num n m e _ => some (n, m, e)
      | _ => none), 0)

def Fp.exact : Fp → Exact
  | .num neg m e => .num neg m e false
  | .inf neg => .inf neg
  | .nan _ => .nan

def Fp.negate : Fp → Fp
  | .num neg m e => .num (!neg) m e
  | .inf neg => .inf (!neg)
  | v => v

def Exact.negate : Exact → Exact
  | .num neg m e s => .num (!neg) m e s
  | .inf neg => .inf (!neg)
  | v => v

/-- The integer square root by bits, from bit `n - 1` down. -/
def isqrtFrom (x : Nat) : Nat → Nat → Nat
  | 0, r => r
  | n + 1, r => isqrtFrom x n (if (r + 2 ^ n) * (r + 2 ^ n) ≤ x then r + 2 ^ n else r)

def isqrt (x : Nat) : Nat := isqrtFrom x (Nat.log2 x / 2 + 1) 0

/-- IEEE 754 division with DZ and INV (R83). -/
def fpDiv (x y : Fp) : Exact × Flags :=
  match x, y with
  | .nan s, .nan t => (.nan, if s || t then fINV else 0)
  | .nan s, _ => (.nan, if s then fINV else 0)
  | _, .nan t => (.nan, if t then fINV else 0)
  | .inf _, .inf _ => (.nan, fINV)
  | .inf a, .num b _ _ => (.inf (a != b), 0)
  | .num a _ _, .inf b => (.num (a != b) 0 0 false, 0)
  | .num a m e, .num b n f =>
    if n == 0 then if m == 0 then (.nan, fINV) else (.inf (a != b), fDZ)
    else
      let k := Nat.log2 n + 70
      let q := m * 2 ^ k / n
      (.num (a != b) q (e - f - k) (m * 2 ^ k % n != 0), 0)

/-- Square root, INV below −0 (R97). -/
def fpSqrt (x : Fp) : Exact × Flags :=
  match x with
  | .nan s => (.nan, if s then fINV else 0)
  | .inf neg => if neg then (.nan, fINV) else (.inf false, 0)
  | .num neg m e =>
    if m == 0 then (.num neg 0 0 false, 0)
    else if neg then (.nan, fINV)
    else
      let k := 140 + (e % 2).toNat
      let m' := m * 2 ^ k
      let r := isqrt m'
      (.num false r ((e - k) / 2) (r * r != m'), 0)

/-- Compares two finite values as (x < y, x = y); −0 equals +0. -/
def numLess (a : Bool) (m : Nat) (e : Int) (b : Bool) (n : Nat) (f : Int) : Bool × Bool :=
  let lo := min e f
  let x := mant a (m * 2 ^ (e - lo).toNat)
  let y := mant b (n * 2 ^ (f - lo).toNat)
  (decide (x < y), decide (x = y))

/-- The ordered comparison of two non-NaN operands as (x < y, x = y). -/
def fpLess : Fp → Fp → Bool × Bool
  | .num a m e, .num b n f => numLess a m e b n f
  | .inf a, .inf b => (a && !b, a == b)
  | .inf a, .num _ _ _ => (a, false)
  | .num _ _ _, .inf b => (!b, false)
  | _, _ => (false, false)

def Fp.neg : Fp → Bool
  | .num n _ _ => n
  | .inf n => n
  | .nan _ => false

def Fp.isNan : Fp → Bool
  | .nan _ => true
  | _ => false

/-- The lesser operand, −0 below +0 (R81). -/
def fpMin (x y : Fp) : Exact :=
  if x.isNan then (if y.isNan then .nan else y.exact)
  else if y.isNan then x.exact
  else let (lt, eq) := fpLess x y
    if lt || (eq && x.neg) then x.exact else y.exact

/-- The greater operand, +0 above −0 (R81). -/
def fpMax (x y : Fp) : Exact :=
  if x.isNan then (if y.isNan then .nan else y.exact)
  else if y.isNan then x.exact
  else let (lt, eq) := fpLess x y
    if lt || (eq && x.neg) then y.exact else x.exact

/-! ### Element types -/

/-- How one element of a register is read (R42, R65). -/
inductive Elem where
  | int (signed : Bool) (w : Nat)
  | flt (f : Fmt)
  deriving DecidableEq, Repr

def Elem.width : Elem → Nat
  | .int _ w => w
  | .flt f => f.width

/-- The classes of R79. -/
inductive TyClass where
  | I | PI | F | PF | F8
  deriving DecidableEq, Repr

/-- One row of the table of MODE.TYPE (R42): the element, how many a lane holds, and the class. -/
structure Ty where
  elem : Elem
  count : Nat
  cls : TyClass
  deriving DecidableEq, Repr

def Ty.wide (t : Ty) : Bool := t.elem.width == 64
/-- Bits of a lane's whole value. -/
def Ty.lanes (t : Ty) : Nat := if t.wide then 64 else 32
def Ty.isFloat (t : Ty) : Bool := match t.elem with
  | .flt _ => true
  | .int _ _ => false
def Ty.isSigned (t : Ty) : Bool := match t.elem with
  | .int s _ => s
  | .flt _ => false

/-- R42; 13 to 15 are reserved. -/
def Ty.ofCode : Nat → Option Ty
  | 0 => some ⟨.int true 32, 1, .I⟩
  | 1 => some ⟨.int false 32, 1, .I⟩
  | 2 => some ⟨.int true 64, 1, .I⟩
  | 3 => some ⟨.int false 64, 1, .I⟩
  | 4 => some ⟨.flt f32, 1, .F⟩
  | 5 => some ⟨.flt f64, 1, .F⟩
  | 6 => some ⟨.flt bf16, 2, .PF⟩
  | 7 => some ⟨.flt f16, 2, .PF⟩
  | 8 => some ⟨.int true 16, 2, .PI⟩
  | 9 => some ⟨.int false 16, 2, .PI⟩
  | 10 => some ⟨.int true 8, 4, .PI⟩
  | 11 => some ⟨.flt e4m3, 4, .F8⟩
  | 12 => some ⟨.flt e5m2, 4, .F8⟩
  | _ => none

/-- A floating or F8 type handled as an unsigned integer of the same width and layout (R79). -/
def Ty.raw (t : Ty) : Ty := match t.elem with
  | .int _ _ => t
  | .flt f => { t with elem := .int false f.width }

/-- An integer reduced to its type: modulo `2^w`, or clamped under SAT (R66). -/
def reduceInt (sat signed : Bool) (w : Nat) (x : Int) : Nat :=
  if sat then
    let lo : Int := if signed then -(2 ^ (w - 1) : Nat) else 0
    let hi : Int := if signed then (2 ^ (w - 1) : Nat) - 1 else (2 ^ w : Nat) - 1
    ofInt w (max lo (min hi x))
  else ofInt w x

/-- The integer an element of a signed or unsigned type holds (R65). -/
def intOf (signed : Bool) (w x : Nat) : Int := if signed then toSigned w x else (x % 2 ^ w : Nat)

/-- Element `k` of a lane's value (R65). -/
def Ty.get (t : Ty) (x k : Nat) : Nat := bits x (k * t.elem.width) t.elem.width

/-- A lane's value whose element `k` is `f k`, with the OR of the elements' flags. -/
def Ty.build (t : Ty) (f : Nat → Nat × Flags) : Nat × Flags :=
  (List.range t.count).foldl (fun a k => let r := f k
    (a.1 + r.1 % 2 ^ t.elem.width * 2 ^ (k * t.elem.width), a.2 ||| r.2)) (0, 0)

/-! ### Conversions (R70) -/

/-- Rounds an exact finite value to an integer under the mode (R67). -/
def roundToInt (rm : RoundMode) (neg : Bool) (m : Nat) (e : Int) (sticky : Bool) : Int × Bool :=
  let (n, inexact) := roundMag rm neg m e sticky 0
  (mant neg n, inexact)

/-- A conversion between two elements (R70). -/
def convert (env : NumEnv) (src dst : Elem) (x : Nat) : Nat × Flags :=
  match src, dst with
  | .flt a, .flt b =>
    match a.operand env.ftz x with
    | .nan s => (b.nan, if s then fINV else 0)
    | .inf neg =>
      if b.ieee then (b.signed neg b.inf, 0)
      else (if env.sat then b.signed neg b.largest else b.nan, fINV)
    | .num neg m e => b.round env (.num neg m e false)
  | .flt a, .int s w =>
    let lo : Int := if s then -(2 ^ (w - 1) : Nat) else 0
    let hi : Int := if s then (2 ^ (w - 1) : Nat) - 1 else (2 ^ w : Nat) - 1
    match a.operand env.ftz x with
    | .nan _ => (0, fINV)
    | .inf neg => (ofInt w (if neg then lo else hi), fINV)
    | .num neg m e =>
      let (i, inexact) := roundToInt env.rm neg m e false
      if i < lo then (ofInt w lo, fINV) else if i > hi then (ofInt w hi, fINV)
      else (ofInt w i, if inexact then fINX else 0)
  | .int s w, .flt b =>
    let i := intOf s w x
    b.round env (.num (decide (i < 0)) i.natAbs 0 false)
  | .int s w, .int s' w' =>
    if decide (w < w') then (ofInt w' (intOf s w x), 0) else (reduceInt env.sat s' w' (intOf s w x), 0)

end Sys2Proof.Machine
end

