-- ==== Sys2Proof/Config.lean ====
section
/-! DEFINITION. What the spec leaves open: free values. Each is a constant with no body, so nothing can be proved of its
value; the state's counter `fresh` says which of them a step draws. -/

namespace Sys2Proof.Config

/-- The values the spec leaves open, one for each draw of `State.fresh`: the choice of a bracketing result (R96), a leaf of a
group with different leaves (R373), a reading of the timebase (R324), a lost atomic's outcome (R363), key material (R390). -/
opaque freeValue : Nat → DWord

/-- SHA-384 of a byte string, which the spec names and does not define (R393, R394). -/
opaque sha384 : List Byte → BitVec 384

/-- An ECDSA signature on brainpoolP384r1 of a digest under the module's identity key (R394). -/
opaque ecdsaSign : BitVec 384 → BitVec 768

/-- Whether an ECDSA signature on brainpoolP384r1 of a digest verifies under a public key, its two coordinates (R393). -/
opaque ecdsaVerify : BitVec 768 → BitVec 384 → BitVec 768 → Bool

/-- The SHA-384 digest of the verifying key, which the fuses hold (R393). -/
opaque fusedKeyDigest : BitVec 384

/-- The verifying key that comes with image `n`, and the image's SHA-384 digest, signature and security version: firmware images have
even numbers, the images of the dies odd ones (R393). -/
opaque imageKey : Nat → BitVec 768
opaque imageDigest : Nat → BitVec 384
opaque imageSignature : Nat → BitVec 768
opaque imageVersion : Nat → Nat

end Sys2Proof.Config
end

