-- ==== Sys2Proof/Machine/Codes.lean ====
section
/-! DEFINITION. The codes of the word path as functions on numbers: the word code and its address fold (R137, R138), the
block code (R139), the CRC of the stack interface (R142), AES-256-XTS on one granule (R144), CRC-32C (R356) and the
Reed-Solomon code over fragments (R357). -/

namespace Sys2Proof.Machine

/-! ### The word code -/

/-- The 8-bit values with exactly three bits set, ascending (R137). -/
def threeBits : List Nat := (List.range 256).filter fun x => popCount x 8 == 3

/-- The column of data bit `i` (below 32), and of fold bit `i - 32` (R137). -/
def codeColumn (i : Nat) : Nat := threeBits.getD i 0

/-- The fold of a word's physical address (R137). -/
def addrFold (pa : Nat) : Nat := ((bits pa 2 16 ^^^ bits pa 18 16) ^^^ bits pa 34 16) ^^^ bits pa 50 2

def xorColumns (x lo n : Nat) : Nat := (List.range n).foldl (fun a i => if bit x i then a ^^^ codeColumn (lo + i) else a) 0

/-- The check byte of a word stored at an address (R137). -/
def checkByte (w : Word) (pa : Nat) : Nat := xorColumns w.toNat 0 32 ^^^ xorColumns (addrFold pa) 32 16

/-- The classes of R138. -/
inductive Syndrome where
  | clean
  | dataBit (i : Nat)
  | checkBit
  | poison
  | address
  | bad
  deriving DecidableEq, Repr

/-- Classes a syndrome (R138). -/
def Syndrome.of (x : Nat) : Syndrome :=
  if x == 0 then .clean
  else if x == 0xFF then .poison
  else if popCount x 8 == 1 then .checkBit
  else match threeBits.idxOf? x with
    | some i => if i < 32 then .dataBit i else if i < 48 then .address else .bad
    | none => .bad

/-! ### The block code -/

/-- The generator of the BCH code, degree 156 (R139). -/
def bchGen : Nat := 0x1e4873256115a56784a6940a4c6e6d7e1205e051

/-- One message bit enters the remainder. -/
def bchBit (r b : Nat) : Nat :=
  let x := r * 2
  let y := if (bit r 155) != (b == 1) then x ^^^ bchGen else x
  y % 2 ^ 156

/-- `n` message bits of `w`, bit 0 first. -/
def bchBits (w : Nat) : Nat → Nat → Nat
  | 0, r => r
  | n + 1, r => bchBits (w / 2) n (bchBit r (w % 2))

/-- The parity of a message that is zero but for word `i` (R141). -/
def bchWord (w : Word) (i : Nat) : Nat := bchBits 0 (32 * (127 - i)) (bchBits w.toNat 32 0)

/-- Multiplication in GF(2^13) (R139); the fuel is the 13 bits of `b`. -/
def bchMul (a : Nat) : Nat → Nat → Nat → Nat
  | 0, _, acc => acc
  | n + 1, b, acc => bchMul (let x := a * 2
      if x ≥ 8192 then x ^^^ 0x201B else x) n (b / 2) (if b % 2 == 1 then acc ^^^ a else acc)
def bchTimes (a b : Nat) : Nat := bchMul a 13 b 0

/-- The inverse by `x^(2^13 - 2)`. -/
def bchInv (x : Nat) : Nat :=
  ((List.range 12).foldl (fun (a : Nat × Nat) _ => (bchTimes a.1 a.1, bchTimes a.2 (bchTimes a.1 a.1))) (x, 1)).2

/-- Division by the primitive element. -/
def bchHalf (x : Nat) : Nat := if x % 2 == 0 then x / 2 else (x ^^^ 0x201B) / 2

/-- The value at `x` of a polynomial, its coefficients from the lowest on. -/
def bchEval (p : List Nat) (x : Nat) : Nat := p.foldr (fun c a => bchTimes a x ^^^ c) 0

/-- The syndromes of a remainder of 156 bits at the powers 1 to 24 of the primitive element. -/
def bchSyndromes (r : Nat) : List Nat :=
  let p := (List.range 156).map fun i => if bit r i then 1 else 0
  ((List.range 24).foldl (fun (a : Nat × List Nat) _ =>
    let x := bchTimes a.1 2
    (x, a.2 ++ [bchEval p x])) (1, [])).2

/-- `c - k x^m b`, of polynomials. -/
def bchCombine (c b : List Nat) (k m : Nat) : List Nat :=
  (List.range (max c.length (b.length + m))).map fun i => c.getD i 0 ^^^ (if i < m then 0 else bchTimes k (b.getD (i - m) 0))

/-- The error locator of some syndromes and the number of errors that it stands for (Berlekamp and Massey). -/
def bchLocator (ss : List Nat) : List Nat × Nat :=
  let r := (List.range ss.length).foldl (fun (a : List Nat × List Nat × Nat × Nat × Nat) n =>
    let (c, b, l, m, d0) := a
    let d := (List.range (l + 1)).foldl (fun x i => x ^^^ bchTimes (c.getD i 0) (ss.getD (n - i) 0)) 0
    if d = 0 then (c, b, l, m + 1, d0)
    else
      let c' := bchCombine c b (bchTimes d (bchInv d0)) m
      if 2 * l ≤ n then (c', c, n + 1 - l, 1, d) else (c', b, l, m + 1, d0)) ([1], [1], 0, 1, 1)
  (r.1, r.2.2.1)

/-- The degrees, below 4,252, of the wrong bits of a codeword whose remainder is `r`: at most 12, or none where the decoder finds no such
set (R139, R140). -/
def bchDecode (r : Nat) : Option (List Nat) :=
  if r = 0 then some []
  else
    let (p, l) := bchLocator (bchSyndromes r)
    let es := ((List.range 4252).foldl (fun (a : Nat × List Nat) d =>
      (bchHalf a.1, if bchEval p a.1 == 0 then d :: a.2 else a.2)) (1, [])).2
    if l ≤ 12 ∧ es.length = l then some es else none

/-! ### The stack interface -/

/-- CRC-16 with polynomial x^16 + x^15 + x^2 + 1 and initial value 0xFFFF over a burst's bits in order (R142). -/
def crc16 (bs : List Bool) : Nat :=
  bs.foldl (fun r b => let x := r * 2 % 0x10000
    if bit r 15 != b then x ^^^ 0x8005 else x) 0xFFFF

/-- The bits of a burst, beat by beat: eight data bits, then two code bits (R11, R142). `slot i` gives the word and the check
byte of slot `i`, zero where the slot is idle. -/
def burstBits (slot : Nat → Word × Nat) : List Bool :=
  (List.range 64).flatMap fun beat =>
    let (w, c) := slot (beat / 4)
    (List.range 8).map (fun i => bit w.toNat (8 * (beat % 4) + i)) ++ (List.range 2).map fun i => bit c (2 * (beat % 4) + i)

/-! ### AES-256-XTS -/

/-- Multiplication in the field of eight bits modulo the polynomial `0x100 + low`. -/
def gfMul (low a : Nat) : Nat → Nat → Nat → Nat
  | 0, _, acc => acc
  | n + 1, b, acc =>
    gfMul low (let x := a * 2
      if x ≥ 256 then (x ^^^ (256 + low)) else x) n (b / 2) (if b % 2 == 1 then acc ^^^ a else acc)

def aesMul (a b : Nat) : Nat := gfMul 0x1B a 8 b 0

/-- The inverse by `x^254`. -/
def gfInv (low x : Nat) : Nat :=
  let m := fun a b => gfMul low a 8 b 0
  let x2 := m x x
  let x4 := m x2 x2
  let x8 := m x4 x4
  let x16 := m x8 x8
  let x32 := m x16 x16
  let x64 := m x32 x32
  let x128 := m x64 x64
  m x2 (m x4 (m x8 (m x16 (m x32 (m x64 x128)))))

def rotl8 (x n : Nat) : Nat := (x * 2 ^ n + x / 2 ^ (8 - n)) % 256

def aesSub (x : Nat) : Nat :=
  let y := gfInv 0x1B x
  y ^^^ rotl8 y 1 ^^^ rotl8 y 2 ^^^ rotl8 y 3 ^^^ rotl8 y 4 ^^^ 0x63

def aesUnsub (y : Nat) : Nat := gfInv 0x1B (rotl8 y 1 ^^^ rotl8 y 3 ^^^ rotl8 y 6 ^^^ 0x05)

/-- The round keys, four words of four bytes each, from the eight words of the key; `ws` holds the words so far, newest
first. -/
def aesExpand : Nat → Nat → Nat → List (List Nat) → List (List Nat)
  | 0, _, _, ws => ws
  | n + 1, i, rcon, ws =>
    let prev := ws.getD 0 []
    let old := ws.getD 7 []
    let t := if i % 8 == 0 then
        match prev.map aesSub with
        | [a, b, c, d] => [b ^^^ rcon, c, d, a]
        | x => x
      else if i % 8 == 4 then prev.map aesSub else prev
    aesExpand n (i + 1) (if i % 8 == 0 then aesMul rcon 2 else rcon) ((List.zipWith (· ^^^ ·) old t) :: ws)

/-- The fifteen round keys of 16 bytes. -/
def aesKeys (key : List Nat) : List (List Nat) :=
  let w0 := (List.range 8).map fun i => (key.drop (4 * i)).take 4
  let ws := (aesExpand 52 8 1 w0.reverse).reverse
  (List.range 15).map fun r => ((ws.drop (4 * r)).take 4).flatten

def xorBytes (a b : List Nat) : List Nat := List.zipWith (· ^^^ ·) a b
def aesShift (s : List Nat) : List Nat := (List.range 16).map fun i => s.getD ((i + 4 * (i % 4)) % 16) 0
def aesUnshift (s : List Nat) : List Nat := (List.range 16).map fun i => s.getD ((i + 12 * (i % 4)) % 16) 0
def aesMix (m0 m1 m2 m3 : Nat) (s : List Nat) : List Nat :=
  (List.range 16).map fun i =>
    let c := i / 4 * 4
    let r := i % 4
    aesMul m0 (s.getD (c + r) 0) ^^^ aesMul m1 (s.getD (c + (r + 1) % 4) 0) ^^^
      aesMul m2 (s.getD (c + (r + 2) % 4) 0) ^^^ aesMul m3 (s.getD (c + (r + 3) % 4) 0)

def aesRounds : List (List Nat) → List Nat → List Nat
  | [], s => s
  | [k], s => xorBytes (aesShift (s.map aesSub)) k
  | k :: ks, s => aesRounds ks (xorBytes (aesMix 2 3 1 1 (aesShift (s.map aesSub))) k)

def aesEncrypt (key block : List Nat) : List Nat :=
  match aesKeys key with
  | k0 :: ks => aesRounds ks (xorBytes block k0)
  | [] => block

def aesUnrounds : List (List Nat) → List Nat → List Nat
  | [], s => s
  | [k], s => xorBytes s k
  | k :: ks, s => aesUnrounds ks ((aesUnshift (aesMix 14 11 13 9 (xorBytes s k))).map aesUnsub)

def aesDecrypt (key block : List Nat) : List Nat :=
  match (aesKeys key).reverse with
  | k :: ks => aesUnrounds ks ((aesUnshift (xorBytes block k)).map aesUnsub)
  | [] => block

/-- The 16 bytes of the tweak of the granule at `pa` (R144). -/
def xtsTweak (key2 : List Nat) (pa : Nat) : List Nat := aesEncrypt key2 ((leBytes (pa / 16) 16).map BitVec.toNat)

def xtsEncrypt (key1 key2 : List Nat) (pa : Nat) (g : List Nat) : List Nat :=
  let t := xtsTweak key2 pa
  xorBytes (aesEncrypt key1 (xorBytes g t)) t

def xtsDecrypt (key1 key2 : List Nat) (pa : Nat) (g : List Nat) : List Nat :=
  let t := xtsTweak key2 pa
  xorBytes (aesDecrypt key1 (xorBytes g t)) t

/-! ### Fragments -/

def crc32cByte (r b : Nat) : Nat :=
  (List.range 8).foldl (fun a _ => if a % 2 == 1 then a / 2 ^^^ 0x82F63B78 else a / 2) (r ^^^ b)

/-- CRC-32C, reflected, initial value and final XOR all ones (R356). -/
def crc32c (bs : List Nat) : Nat := bs.foldl crc32cByte 0xFFFFFFFF ^^^ 0xFFFFFFFF

def rsMul (a b : Nat) : Nat := gfMul 0x1D a 8 b 0

/-- The coefficient of data fragment `f` in parity fragment `k + i` (R357). -/
def cauchy (i f : Nat) : Nat := gfInv 0x1D (i ^^^ (4 + f))

/-- The payload of parity fragment `k + i` over the data fragments' payloads (R357). -/
def rsParity (i : Nat) (data : List (List Nat)) : List Nat :=
  if data.length == 1 then data.headD []
  else (List.range 64).map fun j =>
    ((List.range data.length).foldl (fun a f => a ^^^ rsMul (cauchy i f) ((data.getD f []).getD j 0)) 0)

/-- The solution of `n` linear equations over the field, each a row of `n` coefficients and its value. -/
def rsSolve : Nat → List (List Nat) → List Nat
  | 0, _ => []
  | n + 1, rows =>
    match rows.find? fun r => r.headD 0 != 0 with
    | none => List.replicate (n + 1) 0
    | some p =>
      let q := p.map (rsMul (gfInv 0x1D (p.headD 0)))
      let xs := rsSolve n ((rows.erase p).map fun r => ((xorBytes r (q.map (rsMul (r.headD 0)))).drop 1))
      ((q.drop 1).zip xs).foldl (fun a c => a ^^^ rsMul c.1 c.2) (q.getLastD 0) :: xs

/-- The `k` data fragments' payloads from `k` fragments as accepted, index and payload (R333, R357). -/
def rsRebuild (k : Nat) (got : List (Nat × List Nat)) : List (List Nat) :=
  let have' := fun f => got.lookup f
  let lacks := (List.range k).filter fun f => (have' f).isNone
  let par := (got.filter fun g => g.1 ≥ k).take lacks.length
  if lacks.isEmpty then (List.range k).map fun f => (have' f).getD []
  else if k = 1 then [(par.headD (0, [])).2]
  else
    let known := (List.range k).filter fun f => !lacks.contains f
    let cols := (List.range 64).map fun j => rsSolve lacks.length (par.map fun p =>
      lacks.map (cauchy (p.1 - k)) ++
        [known.foldl (fun a f => a ^^^ rsMul (cauchy (p.1 - k) f) (((have' f).getD []).getD j 0)) (p.2.getD j 0)])
    (List.range k).map fun f => match lacks.idxOf? f with
      | some i => cols.map fun c => c.getD i 0
      | none => (have' f).getD []

end Sys2Proof.Machine
end

