-- ==== Sys2Proof/Machine/Narrow.lean ====
section
/-! DEFINITION. The narrow and block-scaled formats: E2M1, UE8F2, QC4 and the decoding of a format window's element (R275 to
R278, R281). -/

namespace Sys2Proof.Machine

/-- An E2M1 element (R275). -/
def e2m1Fp (x : Nat) : Fp :=
  let e := bits x 1 2
  let f := bits x 0 1
  if e == 0 then .num (bit x 3) f (-1) else .num (bit x 3) (2 + f) ((e : Int) - 2)

/-- A UE8F2 scale as `m × 2^e`; none for a NaN (R276). -/
def ue8f2 (x : Nat) : Option (Nat × Int) :=
  if bits x 2 8 == 255 then none else some (4 + bits x 0 2, (bits x 2 8 : Int) - 129)

/-- The magnitudes of the QC4 levels above zero in units of 1/1024, ascending (R277). -/
def qc4Levels : List Nat := [43, 130, 221, 318, 426, 556, 724, 1024]

/-- A QC4 level as sign and units of 1/1024 (R277). -/
def qc4Level (code : Nat) : Bool × Nat :=
  if code < 7 then (true, qc4Levels.getD (7 - code) 0) else if code == 7 then (false, 0) else (false, qc4Levels.getD (code - 8) 0)

/-- `L[code] × (c + 1) × 2^-8`, exactly (R278). -/
def qc4Fp (code c : Nat) : Fp :=
  let (n, l) := qc4Level code
  .num n (l * (c + 1)) (-18)

/-- An exact value times a UE8F2 scale. -/
def scaleFp (v : Fp) (s : Option (Nat × Int)) : Exact :=
  match s, v with
  | none, _ => .nan
  | _, .nan _ => .nan
  | some _, .inf n => .inf n
  | some (m, e), .num n a b => .num n (a * m) (b + e) false

/-- Rounding to nearest that keeps subnormals, with MODE.SAT as given. -/
def nearest (sat : Bool) : NumEnv := ⟨.rn, sat, false⟩

/-- The binary32 weight of a QC4 element under a group scale (R278). -/
def qc4Weight (code c g : Nat) : Nat :=
  match f32.read g, qc4Level code with
  | .nan _, _ => f32.nan
  | .inf n, (s, l) => if l == 0 then f32.nan else f32.signed (n != s) f32.inf
  | gv, _ => (f32.round (nearest false) (fpMul (qc4Fp code c) gv).1).1

/-- One element of a format window's view (R281): storage format code, view format, element, scale code and group scale. -/
def windowElem (sfmt : Nat) (view : Fmt) (x scale g : Nat) : Nat :=
  if sfmt == 0 then (convert (nearest true) (.flt f32) (.flt view) (qc4Weight x scale g)).1
  else
    let v := if sfmt == 1 then e4m3.read x else if sfmt == 2 then e5m2.read x else e2m1Fp x
    (view.round (nearest true) (scaleFp v (ue8f2 scale))).1

end Sys2Proof.Machine
end

