-- ==== Sys2Proof/Machine/State.lean ====
section
/-! DEFINITION. The state of the GL9 as plain data, and the state after reset. Every map reads a zero or an empty record
where a key is not listed, so every register holds a value at reset. A core is named by `144·die + physical core`, a crew by
`16·band + crew index`, a team by `16·crew + team index`. -/

namespace Sys2Proof.Machine

/-! ### Teams -/

/-- One entry of the reconvergence stack (R155); `st` is STATE. -/
structure Entry where
  pc : DWord := 0
  rpc : DWord := 0
  mask : LaneMask := 0
  depth : BitVec 16 := 0
  norp : Bool := false
  st : Bool := false
  deriving DecidableEq, Repr

/-- A word as it arrives: its value, poisoned, uncorrectable, or lost in transit (R110, R183). -/
inductive Datum where
  | ok (w : Word)
  | poison
  | uncorr
  | loss
  deriving DecidableEq, Repr

/-- A fault record before it is written (R189). -/
structure Rec where
  lane : Nat := 0
  cause : Nat := 0
  addr : DWord := 0
  flags : BitVec 8 := 0
  deriving DecidableEq, Repr

/-- A data fault that a register carries or that a team holds with no register: its cause code and the records that its
delivery writes (R110). -/
structure DataFault where
  cause : Nat := 8
  regs : List Nat := []          -- the registers that become full together
  recs : List Rec := []
  old : NMap Word := []          -- what the good lanes held before, for a restart (R191)
  deriving DecidableEq, Repr

/-- A trap that waits for the team's producers (R185). `tepc` is where TEPC will point. -/
structure TrapReq where
  cause : Nat
  recs : List Rec
  tepc : DWord
  deriving DecidableEq, Repr

/-- What holds a team that has issued its instruction (R127, R178, R181, R322). -/
inductive Hold where
  | free
  | mwait (d : BitVec 5) (va pa : Nat) (target : DWord) (scope : Nat) (acq : Bool) (old : DWord) (left : Nat)
  | barrier (n : Nat) (phase : Word)
  | band (phase : Word)
  | sys (d : BitVec 5) (slot : Nat) (old : DWord)
  deriving DecidableEq, Repr

/-- One stream's side of a Mill context: the cursor, the coordinate before it where known, the byte offset at which its
element is sought, and the elements read from there on, as coordinate, offset and next offset (R228, R232). `known` holds what
the boundary search has read of an IX32 stream, as position and coordinate (R228, R230). -/
structure Side where
  pos : Nat := 0
  prev : Option Nat := none
  off : Nat := 0
  buf : List (Nat × Nat × Nat) := []
  known : List (Nat × Nat) := []
  deriving DecidableEq, Repr

/-- The Mill context of a team (R206 to R209): the words from `mlopen`, the part's interval, the two sides, the pairs
delivered and MST. `searching` says that the boundary search is still to be made: its faults are for an `mlfill` (R228, R230). -/
structure Mill where
  ctl : DWord := 0
  abase : DWord := 0
  alen : DWord := 0
  bbase : DWord := 0
  blen : DWord := 0
  lo : Nat := 0
  hi : Nat := 0
  a : Side := {}
  b : Side := {}
  out : Nat := 0
  mst : DWord := 0
  searching : Bool := false
  deriving DecidableEq, Repr

structure Team where
  rows : Nat := 1
  vregs : Nat := 8
  stackSize : Nat := 0
  core : Nat := 0
  quarter : Nat := 0             -- of the core (R296)
  pc : DWord := 0
  mode : Word := 0
  v : NMap Word := []            -- key 1024·register + lane
  p : NMap LaneMask := []        -- key 1 to 7
  s : NMap DWord := []
  vEmpty : BitVec 64 := 0
  sEmpty : BitVec 32 := 0
  vFault : NMap DataFault := []
  sFault : NMap DataFault := []
  held : List DataFault := []
  upsetV : List Nat := []        -- row-registers 32·register + row that fail their code (R378)
  upsetS : List Nat := []
  upsetP : List Nat := []        -- 32·predicate + row
  softV : List Nat := []         -- the same, of what the code can correct (R378)
  softS : List Nat := []
  softP : List Nat := []
  fixes : Nat := 0               -- corrections of this step, which its end counts (R384)
  mask : LaneMask := 0
  live : LaneMask := 0
  stack : List Entry := []       -- the newest first, at most eight
  spilled : Nat := 0             -- older entries in the spill area (R156)
  cfd : BitVec 16 := 0
  jpc : DWord := 0
  rgpc : DWord := 0
  rgst : DWord := 0
  rgmask : LaneMask := 0
  tvec : DWord := 0
  frecb : DWord := 0
  tepc : DWord := 0
  tcause : DWord := 0
  frcnt : DWord := 0
  frlost : DWord := 0
  tsmode : Word := 0
  tsjpc : DWord := 0
  tstat : DWord := 0
  tsmask : LaneMask := 0
  tsstack : List Entry := []
  tsspilled : Nat := 0
  tscfd : BitVec 16 := 0
  fstat : DWord := 0
  fpte : DWord := 0
  mwto : DWord := 0
  scarry : DWord := 0
  segctl : DWord := 0
  tstk : DWord := 0
  hmsel : DWord := 0
  dbgctl : DWord := 0
  dbgst : DWord := 0
  ten : DWord := 0
  mill : Option Mill := none
  millBusy : Bool := false
  age : Nat := 1                 -- one more than R310's age; 0 right after a `yield`, which stands behind every other (R174)
  hold : Hold := .free
  trapping : Option TrapReq := none
  release : Option Nat := none   -- the publication, or the array commands before this number, that the instruction at PC waits for
  acquiring : Bool := false      -- an acquire is not yet complete (R122)
  count : Nat := 0               -- instructions issued, for PTRIG (R205)
  credit : Bool := false         -- a debugger's step may issue one instruction (R203)
  stepLane : Option Nat := none
  stepping : Nat := 0            -- a step (1) or a step-lane (2) of a debugger has not ended
  stepAsked : Option (Option Nat) := none   -- a step, or a step-lane of a lane, that waits for another team's to end (R203)
  deriving DecidableEq, Repr

/-! ### Crews and bands -/

/-- Words or segments of a crew's storage that fail their code: what the code can correct, and what it cannot (R378). -/
structure Ecc where
  soft : List Nat := []
  bad : List Nat := []
  deriving DecidableEq, Repr

/-- A named barrier (R176). -/
structure Barrier where
  count : Nat := 0
  need : Nat := 0
  arrived : Nat := 0             -- arrivals already counted in the phase (R179)
  phase : Word := 0
  deriving DecidableEq, Repr

/-- A command in a core's array queue, not yet started (R243, R271): its number, the crew, the team that issued it (none for a
copy's chain), the word, the version it is held for, and the words `acst` read. -/
structure ArrayCmd where
  uid : Nat := 0
  crew : Nat := 0
  team : Option Nat := none
  word : Word := 0
  ver : BitVec 16 := 0
  ops : List DWord := []
  deriving DecidableEq, Repr

structure Crew where
  band : Nat := 0
  index : Nat := 0
  core : Nat := 0
  lcore : Nat := 0               -- the logical core number that its teams hold (R288)
  teams : Nat := 0
  tiles : Nat := 0
  accs : Nat := 0
  bars : Nat := 0
  padBytes : Nat := 0
  pad : NMap Word := []           -- scratchpad words
  padPoison : List Nat := []
  padEcc : Ecc := {}
  tile : NMap Word := []          -- key 2048·tile + word
  tilePoison : List Nat := []
  tileEcc : Ecc := {}
  acc : NMap Word := []           -- key 16384·accumulator + 128·row + column
  accEcc : Ecc := {}              -- by segment: the key of its first element, divided by 16
  accFault : BitVec 8 := 0        -- AVn.FLT
  aver : NMap (BitVec 16) := []   -- AVn.VER
  ts : NMap DWord := []
  bar : NMap Barrier := []
  deriving DecidableEq, Repr

/-- Whether a band's teams issue (R196, R202, R308, R325). -/
inductive Run where
  | going
  | gang        -- placed, waiting for the gang's start tick (R301)
  | slowed      -- placed, waiting for a faster operating point (R308)
  | stopping    -- for a pre-emption that its producers still hold back (R196)
  | halting     -- for a `halt` that its producers still hold back (R325)
  | breaking    -- for a debug event that its producers still hold back (R202)
  | halted      -- by `halt` (R325)
  | stopped     -- by a debug event (R202)
  | saved       -- pre-empted, its image in the save area (R196)
  deriving DecidableEq, Repr

/-- The two activation-table banks of a core, as a saved band keeps them (R197). -/
structure Banks where
  tab : NMap Word := []
  good : BitVec 2 := 3
  active : Bool := false
  deriving DecidableEq, Repr

structure Band where
  launch : Nat := 0
  index : Nat := 0               -- the band index, or the instance of a pipeline's stage
  stage : Nat := 0
  die : Nat := 0
  tenant : Nat := 0
  sup : Bool := false
  crews : Nat := 0
  cores : List Nat := []
  quad : Bool := false           -- placed by a QUAD field (R289)
  prio : Nat := 0
  liveTeams : Nat := 0
  bneed : Nat := 0
  bphase : Word := 0
  run : Run := .going
  rests : Option Run := none     -- how a band that is pre-empted while it stood still stands again on its resumption (R202, R325)
  bp : NMap DWord := []           -- 0 to 7 BPn, 8 to 15 WPn
  ptrig : DWord := 0
  attached : Bool := false
  saveArea : Nat := 0
  reason : Nat := 0
  stopTick : Nat := 0            -- when the stop for a pre-emption began (R197)
  slot : Nat := 0                -- of a saved band: the place of its image in the save area
  banks : List Banks := []       -- the banks of a saved band's cores, in the order of `cores`
  arrays : List ArrayCmd := []    -- commands not yet started of a saved band
  deriving DecidableEq, Repr

/-! ### Caches -/

/-- A superblock in a cache (R130, R131): per-word masks over 64 words; `hint` holds four 2-bit fields and `host` the four
line states of a memory-side cache (R366). A line of an L1 or an L2 is invalid, clean or dirty as its masks say. -/
structure Blk where
  way : Nat := 0
  prio : BitVec 2 := 0
  sticky : BitVec 3 := 0
  hint : BitVec 8 := 0
  host : BitVec 8 := 0
  valid : BitVec 64 := 0
  dirty : BitVec 64 := 0
  poison : BitVec 64 := 0
  cp : BitVec 64 := 0            -- words last written through a CP mapping (R350)
  bad : BitVec 64 := 0           -- words that fail their code uncorrectably (R382)
  soft : BitVec 64 := 0          -- words that fail it correctably (R378)
  known : BitVec 64 := 0         -- dirty words whose old value the home held when they became dirty (R141)
  born : Nat := 0                -- the step that allocated it, plus one: what enters it in that step allocates, and hits nothing (R132)
  launch : Nat := 0              -- the launch of the last publication (R381)
  key : Nat := 0                -- 0, or 1 + the key slot of a sealed page (R144)
  words : NMap Word := []
  deriving DecidableEq, Repr

/-- A cached translation (R376). `size` is 0, 1 or 2 (R374); `frame` and `base` are byte addresses. -/
structure Trans where
  tenant : Nat := 0
  base : Nat := 0
  size : Nat := 0
  frame : Nat := 0
  attr : Nat := 0
  w : Bool := false
  x : Bool := false
  sealed : Bool := false
  owner : Nat := 0
  deriving DecidableEq, Repr

/-! ### The word path in flight -/

/-- Where a read is served (R121): the L1, the die's L2 slice, or the home. -/
inductive Point where
  | l1
  | l2
  | home
  deriving DecidableEq, Repr

/-- A word of a lane request: not yet admitted to the collector, in flight, or arrived (R129). -/
inductive Stage where
  | waiting
  | flying
  | here (d : Datum)
  deriving DecidableEq, Repr

structure WordReq where
  lane : Nat := 0
  part : Nat := 0
  pa : Nat := 0
  va : Nat := 0
  key : Nat := 0
  epoch : Nat := 0
  stage : Stage := .waiting
  via : Point := .l1             -- of the request that brings it (R13)
  stored : Option Word := none   -- what the core has stored to the word since the request was made (R12)
  deriving DecidableEq, Repr

/-- Where a load or an atomic writes its result; an `ared` and a write in flight have no register. -/
inductive Dst where
  | none
  | vec (d : Nat) (wide : Bool)
  | sca (d : Nat) (ty : Nat)
  deriving DecidableEq, Repr

/-- One lane of an atomic: its word, its operand and, for `acas`, its new value. -/
structure AtomLane where
  lane : Nat := 0
  pa : Nat := 0
  key : Nat := 0
  cp : Bool := false             -- through a CP mapping (R350)
  x : Int := 0
  y : Nat := 0
  deriving DecidableEq, Repr

/-- An atomic on its way to a home: the `LoadOp` it answers, the operation, and MODE as captured (R43, R118). -/
structure AtomReq where
  op : Nat := 0                  -- the `LoadOp`
  fn : Nat := 0                  -- 0 add, 1 min, 2 max, 3 and, 4 or, 5 xor, 6 exchange, 7 compare and swap
  mode : Word := 0
  core : Nat := 0
  tenant : Nat := 0
  launch : Nat := 0
  lanes : List AtomLane := []
  deriving DecidableEq, Repr

/-- A load, a gather or an atomic whose words have not all arrived. -/
structure LoadOp where
  id : Nat := 0
  team : Nat := 0
  core : Nat := 0
  dst : Dst := .vec 0 false
  point : Point := .l1
  acq : Bool := false
  inval : Bool := false          -- the acquire reaches past the L1 (R122)
  hint : Nat := 0
  flags : BitVec 8 := 0          -- FLAGS of its records (R189)
  words : List WordReq := []
  atomic : Bool := false
  later : List AtomReq := []     -- the parts of an atomic not yet sent to a home, in lane order (R119, R129)
  old : NMap Word := []          -- what its lanes held when it issued (R191)
  deriving DecidableEq, Repr

/-- A word-masked request for one superblock (R9, R129). `install` says which words may become valid on the way back; a word in `shut`
serves no later read, as the core has read or changed it beyond its L1 since (R113). -/
structure Miss where
  core : Nat := 0
  sb : Nat := 0
  mask : BitVec 64 := 0
  install : BitVec 64 := 0
  shut : BitVec 64 := 0
  since : NMap Word := []        -- what the core has stored since the request was made, by word (R12)
  point : Point := .l1
  hint : Nat := 0
  key : Nat := 0
  epoch : Nat := 0
  tenant : Nat := 0
  sent : Bool := false
  uid : Nat := 0                 -- the serial number when it was made (R323)
  deriving DecidableEq, Repr

/-- A request on its way: at an L2 slice, or at a home. -/
structure Req where
  core : Nat := 0
  die : Nat := 0
  sb : Nat := 0
  mask : BitVec 64 := 0
  point : Point := .l1
  hint : Nat := 0
  key : Nat := 0
  epoch : Nat := 0
  tenant : Nat := 0
  got : List (Nat × Datum) := []   -- slot results that the home holds while the host is asked (R136)
  doubt : List Nat := []           -- the words whose slot result calls for the block procedure (R136, R140)
  deriving DecidableEq, Repr

/-- A burst of a pseudo-channel: at most 16 words of one window, one for each slot (R10). -/
structure Burst where
  reqs : List Req := []          -- the requests whose words it brings
  words : List Nat := []         -- word addresses
  tries : Nat := 0               -- replays so far (R142)
  retraining : Bool := false
  held : List Req := []          -- the requests for whose words the home holds the slot result (R136)
  deriving DecidableEq, Repr

/-- Words on their way to a cache: to an L2 when `toL2`, else to an L1 (R12). -/
structure Fill where
  req : Req := {}
  toL2 : Bool := false
  data : List (Nat × Datum) := []   -- word index in the superblock
  deriving DecidableEq, Repr

/-- A word on its way to the point of a publication (R122, R133); `waiters` names the releases that it completes. -/
structure Pub where
  uid : Nat := 0
  waiters : List Nat := []
  core : Nat := 0
  die : Nat := 0
  launch : Nat := 0
  pa : Nat := 0
  w : Word := 0
  poison : Bool := false
  key : Nat := 0
  hint : Nat := 0
  toHome : Bool := false
  cp : Bool := false
  passed : Bool := false         -- it has passed the L2 slice
  sent : Bool := false           -- it travels in a message
  deriving DecidableEq, Repr

/-- What waits at a home. -/
inductive HomeItem where
  | read (r : Req)
  | atoms (a : AtomReq)
  deriving DecidableEq, Repr

/-! ### Sparge -/

/-- What a message carries to another die. -/
inductive Cargo where
  | reads (r : Req)                          -- class 0
  | reply (f : Fill)                         -- class 0, the words of a read on their way back
  | pubs (uids : List Nat)                   -- class 1
  | atoms (a : AtomReq)                      -- class 5
  | atomReply (op : Nat) (vals : List (Nat × Nat × Datum))   -- class 5: lane, part, old word
  | copy (uid : Nat) (ws : List (Nat × Word × Nat))   -- classes 2 and 4: words with their addresses and keys
  | chunk (exchange src dst lo : Nat)        -- class 3: a chunk of one rank's SEND for another, from word `lo` on
  | poison (pas : List Nat)                  -- class 6
  | loss (cls id : Nat) (reads : List Req) (atoms : List (Nat × Nat × Nat))   -- class 6, a loss notice and what it concerns
  | ack (id : Nat)                           -- class 7
  | repair (id map : Nat)                    -- class 7
  deriving DecidableEq, Repr

/-- A message, from its request until its acknowledgement (R332, R360). -/
structure Msg where
  src : Nat := 0
  dst : Nat := 0
  id : Nat := 0
  cls : Nat := 0
  len : Nat := 1
  k : Nat := 1
  m : Nat := 0
  cargo : Cargo := .ack 0
  data : List Nat := []          -- its payload bytes (R332)
  uid : Nat := 0                 -- the serial number at its request
  sent : Bool := false
  attempts : Nat := 0
  owner : Nat := 0               -- the launch that owns a publication, plus one
  deriving DecidableEq, Repr

/-- A fragment on a link (R355). -/
structure Frag where
  msg : Msg := {}
  index : Nat := 0
  path : Nat := 0
  bytes : List Nat := []         -- its payload: data, or parity (R332, R357)
  delayed : Bool := false        -- held back by SPINJ (R334)
  deriving DecidableEq, Repr

/-- A message of which fragments have been accepted (R361). -/
structure Partial where
  msg : Msg := {}
  got : List (Nat × List Nat) := []   -- index and payload
  deriving DecidableEq, Repr

/-- A receiver's side for one sender (R361). -/
structure Rx where
  low : Nat := 0                 -- L
  done : List Nat := []          -- completed or lost ids from L on
  parts : List Partial := []
  deriving DecidableEq, Repr

/-- What a home has asked the host for a line of 64 bytes, and what waits for the answer (R136, R367 to R369). -/
inductive Ask where
  | backInvalidate (forWrite : Bool)   -- a device line the host holds
  | sharedRead                         -- a line of host memory
  | ownership
  deriving DecidableEq, Repr

/-- What the graph walker has yet to do (R262, R263). -/
inductive Walking where
  | decrement (tenant die : Nat) (tcb : DWord)
  | complete (tenant die : Nat) (tcb : DWord) (err : Bool)
  | start (tenant die : Nat) (tcb : DWord)     -- a launch or copy node whose queue was full, or WALK was 0
  deriving DecidableEq, Repr

/-- A write that its home holds behind the host's answer (R369). With `stamp` it is the update of the stamp at `pa` with a sequence
and an error (R250), and `after` what follows it (R241). -/
structure HeldWrite where
  pa : Nat := 0
  value : Word := 0
  poison : Bool := false
  launch : Nat := 0
  key : Nat := 0
  hint : Nat := 0
  writer : Nat := 0              -- the writing die plus one, or 0
  stamp : Option (DWord × Bool) := none
  after : Option Walking := none
  uid : Nat := 0                 -- the serial number when it was held (R323)
  deriving DecidableEq, Repr

structure HostAsk where
  line : Nat := 0                -- PA / 64
  port : Nat := 0                -- the host port on which the request leaves (R365)
  ask : Ask := .sharedRead
  writes : List HeldWrite := []
  pubs : List Nat := []          -- releases that complete with them
  evict : Bool := false          -- the superblock is to be evicted (R368)
  deriving DecidableEq, Repr

/-- A stamp whose page the host has yet to translate (R250, R260, R377). -/
structure Owed where
  die : Nat := 0
  tenant : Nat := 0
  l2 : Bool := false             -- at the die's L2 slices, or at the home (R121)
  launch : Nat := 0
  va : DWord := 0
  seq : DWord := 0
  err : Bool := false
  after : Option Walking := none   -- what follows it (R241)
  deriving DecidableEq, Repr

/-- A write to DRAM whose CRC the stack has reported wrong (R142); the home gives the word's value until a replay passes. -/
structure WriteJob where
  pa : Nat := 0
  tries : Nat := 0
  retrains : Nat := 0
  deriving DecidableEq, Repr

/-- A block whose procedure runs (R140), or, without `proc`, whose pseudo-channel is being retrained (R142), and what waits for it. -/
structure BlockJob where
  block : Nat := 0               -- PA / 512
  proc : Bool := true
  req : Option Req := none
  writes : List HeldWrite := []  -- accepted for the block since, in order
  pubs : List Nat := []          -- releases that complete with them
  deriving DecidableEq, Repr

structure Walk where
  core : Nat := 0
  tenant : Nat := 0
  va : Nat := 0
  overlapped : Bool := false     -- a `tlbi` began after it (R376)
  deriving DecidableEq, Repr

/-! ### Cores, dies and stacks -/

structure Core where
  tenant : Option Nat := none    -- of the last band placed (R199)
  l1 : NMap Blk := []
  epoch : Nat := 0               -- counts the invalidations of clean words (R122)
  tlb : List Trans := []
  tab : NMap Word := []          -- key 2048·bank + word of the image (R99)
  tabGood : BitVec 2 := 3
  tabActive : Bool := false
  tabLoads : List (Nat × Nat × Nat) := []   -- `tbld` in order: team, bank, image address
  tabSwap : Option Nat := none   -- the team whose `tbsw` holds `tbev` (R101)
  tabWait : List Nat := []       -- teams whose `tbld` or `tbsw` waits for its turn, in order (R100, R101)
  queue : List ArrayCmd := []    -- oldest first (R243)
  icache : NMap Word := []       -- the instruction cache: words by PA / 4 (R2, R378)
  ibad : List Nat := []          -- its words that fail their parity (R378)
  deriving DecidableEq, Repr

structure Stack where
  msc : NMap Blk := []
  bIns : Nat := 0                -- B insertions (R134)
  deltas : NMap (BitVec 160) := []   -- key PA / 512 (R141)
  spared : NMap Nat := []        -- pseudo-channel to the slice spared in (R147)
  sparing : NMap Nat := []       -- a copy under way
  retiring : List Nat := []      -- 4·pseudo-channel + bank set, removal not yet acknowledged (R148)
  retired : List Nat := []
  deep : Bool := false           -- bank set 3 is powered down (R149)
  counts : NMap Nat := []        -- key 8·pseudo-channel + class of R143
  slices : NMap Nat := []        -- key 2·(16·pseudo-channel + slice), and one more for BCE (R384)
  deriving DecidableEq, Repr

/-- A non-memory producer that has issued: its values are fixed, and a PRODUCER_COMPLETION writes them (R47). -/
structure Producer where
  team : Nat := 0
  core : Nat := 0
  lanes : List (Nat × Word) := []  -- key 1024·register + lane
  vregs : List Nat := []
  sregs : List (Nat × DWord) := []
  flags : BitVec 5 := 0
  table : Bool := false            -- a `tbev` (R101)
  deriving DecidableEq, Repr

/-- An `mlfill` that has issued (R208): what MLFILL_COMPLETE writes. -/
structure MillJob where
  team : Nat := 0
  lanes : List (Nat × Word) := []
  vregs : List Nat := []
  mill : Mill := {}
  deriving DecidableEq, Repr

/-! ### The module -/

structure Tenant where
  created : Bool := false
  pageRoot : Nat := 0
  quads : List (Nat × Nat) := []  -- logical quads: physical die and physical quad (R287)
  cents : List Nat := []          -- logical core to physical core, 144·die + core (R288)
  l2pb : DWord := 0
  lqcfg : DWord := 0x1111
  selector : Nat := 512          -- set duelling (R134)
  tvec : DWord := 0              -- the trap vector Ezivo set (R150)
  frecb : DWord := 0
  hostManaged : Bool := false    -- translation through ATS (R377)
  keyed : Bool := false          -- the key slot holds a key (R390)
  keyGen : Nat := 0
  key1 : BitVec 256 := 0
  key2 : BitVec 256 := 0
  vectors : BitVec 64 := 0       -- MSI-X vectors raised (R389)
  deriving DecidableEq, Repr

/-- A record of the RAS log (R385). -/
structure Ras where
  tick : Nat := 0
  addr : Nat := 0
  cls : Nat := 0
  die : Nat := 255
  unit : Nat := 0
  tenant : Nat := 255
  act : Nat := 0
  launch : Nat := 0
  deriving DecidableEq, Repr

/-- A lost message as the Kiln logs it (R363): its class, id, source and destination, and when. -/
structure Loss where
  cls : Nat := 0
  id : Nat := 0
  src : Nat := 0
  dst : Nat := 0
  tick : Nat := 0
  deriving DecidableEq, Repr

/-- A management command that is carried out once the host has answered: a frame leaves HC (R351), a tenant's L2P table is written
(R287), a host's launch is read (R291), or a stack enters deep retention (R149). -/
inductive Command where
  | leaveHc (frame : Nat)
  | table (tenant : Nat)
  | launch (index pa : Nat)
  | deep (stack : Nat)
  deriving DecidableEq, Repr

/-- A Dynamic Capacity extent (R370 to R372). -/
structure Extent where
  port : Nat := 0
  base : Nat := 0
  size : Nat := 0
  releasing : Bool := false
  lost : Bool := false
  deriving DecidableEq, Repr

/-- An error completion record (R150). -/
structure ErrRec where
  launch : Nat := 0
  band : Nat := 0xFFFFFFFF
  crew : Nat := 0xFF
  team : Nat := 0xFF
  kind : Nat := 0
  cause : Nat := 0
  pc : DWord := 0
  cause2 : Nat := 0
  pc2 : DWord := 0
  addr : Nat := 0
  frecb : DWord := 0
  deriving DecidableEq, Repr

/-- A kernel descriptor (R31). -/
structure Kernel where
  entry : DWord := 0
  rows : Nat := 1
  vregs : Nat := 8
  stack : Nat := 0
  teams : Nat := 1
  tiles : Nat := 0
  accs : Nat := 0
  bars : Nat := 0
  pad : Nat := 0
  crews : Nat := 1
  deriving DecidableEq, Repr

/-- A stage of a pipeline launch (R303, R304); an ordinary launch has one, with every band an instance of it. -/
structure PipeStage where
  kernel : Kernel := {}
  args : DWord := 0
  inq : DWord := 0
  minb : Nat := 0
  maxb : Nat := 0
  started : Nat := 0             -- instances started so far
  retired : Nat := 0
  waited : Bool := false         -- a team waited in `qapp` in this period (R305)
  deriving DecidableEq, Repr

/-- A launch that has been accepted at a queue (R260, R291). -/
structure Launch where
  tenant : Nat := 0
  die : Nat := 0                 -- the entry die (R291)
  queue : Nat := 0               -- 0 to 3
  packet : List DWord := []      -- W0 to W7
  sup : Bool := false
  read : Bool := false           -- its descriptor has been read (R260)
  stages : List PipeStage := []
  startTick : Option Nat := none   -- of a gang (R301)
  saveArea : Nat := 0
  retired : Nat := 0             -- bands retired
  spans : Bool := false          -- a part of a gang that spans modules (R302, R364)
  favour : Option Nat := none    -- the stage that the balancer gives the next free slot (R305)
  balanced : Nat := 0            -- the tick at which the balancer last ran
  ended : Bool := false          -- refused, complete, or ended by an error
  deriving DecidableEq, Repr

/-! ### Engines -/

/-- A copy queue that Ezivo has registered (R247, R403). -/
structure CopyQueue where
  tenant : Nat := 0
  die : Nat := 0
  va : DWord := 0
  deriving DecidableEq, Repr

/-- A packet that a team or a walker has appended (R248, R403): the queue's physical address, the slot, the team, the crews at which it
completes (R238, R241), and whether DOOR counts it. -/
structure Append where
  queue : Nat := 0
  index : Nat := 0
  team : Option Nat := none
  dests : List Nat := []
  rung : Bool := false
  deriving DecidableEq, Repr

/-- A copy that an engine has started (R254). -/
structure Copy where
  uid : Nat := 0
  queue : Nat := 0               -- the copy queue's number
  slot : Nat := 0
  die : Nat := 0
  tenant : Nat := 0
  team : Option Nat := none      -- the appending team
  packet : List DWord := []
  desc : List DWord := []        -- the tensor descriptor of a `cpt`
  dests : List Nat := []         -- the destination crews
  done : List Nat := []          -- those at which it is complete
  next : Nat := 0                -- payload words moved; for `cpr` the words read
  staged : List Word := []       -- the source of a `cpr` (R253)
  applied : Nat := 0             -- its watermark, in elements
  flying : Nat := 0              -- messages of words on their way
  tries : Nat := 0               -- abandonments
  paused : Option Nat := none    -- the page whose request has abandoned the last attempt, until it is answered
  carry : Word := 0              -- the last payload word moved, of which a part goes to the next destination word (R255)
  deriving DecidableEq, Repr

/-- A merge group of an L2 slice (R239): the words it has sent. -/
structure Group where
  die : Nat := 0
  sb : Nat := 0
  vals : List (Nat × Datum) := []
  deriving DecidableEq, Repr

/-- A participant's `coll` (R257, R331). -/
structure Part where
  uid : Nat := 0
  queue : Nat := 0
  slot : Nat := 0
  die : Nat := 0
  tenant : Nat := 0
  team : Option Nat := none
  packet : List DWord := []
  gid : Nat := 0
  n : Nat := 0
  rank : Nat := 0
  turn : Nat := 0                -- the k-th `coll` of this participant
  bad : Nat := 0                 -- the cause of a failure found at its start, or 0
  exchange : Option Nat := none
  next : Nat := 0                -- RECV words written
  done : Bool := false           -- its stamp is written
  failed : Bool := false         -- it has failed, and takes part with its SEND alone (R259)
  deriving DecidableEq, Repr

/-- A matched exchange (R331): each rank's SEND as read, or the cause that made it unreadable. -/
structure Exchange where
  uid : Nat := 0
  data : List (List Word) := []
  bad : List Nat := []
  dies : List Nat := []          -- each rank's die
  flying : List (Nat × Nat × Nat) := []   -- chunks on their way: source rank, receiving rank, first word
  got : List (Nat × Nat × Nat × List Word) := []   -- chunks that have arrived: receiving rank, source rank, first word, words
  tries : Nat := 0
  again : Bool := false          -- to be repeated from its start (R259)
  deriving DecidableEq, Repr

/-- A format window's four registers (R145). -/
structure Window where
  ctl : DWord := 0
  sto : DWord := 0
  scl : DWord := 0
  view : DWord := 0
  deriving DecidableEq, Repr

/-- A translation asked of the host (R377). -/
structure AtsReq where
  tenant : Nat := 0
  page : Nat := 0
  core : Nat := 0
  asked : Bool := false          -- a page request is under way
  overlapped : Bool := false     -- a `tlbi` began after it (R376)
  deriving DecidableEq, Repr

/-- A host's invalidation of the translations of `size` bytes at `base` (R377), until every access translated before serial number `begun`
is complete. -/
structure Inval where
  tenant : Nat := 0
  base : Nat := 0
  size : Nat := 0
  begun : Nat := 0
  deriving DecidableEq, Repr

/-- A die's arithmetic clock (R307, R308, R398). -/
structure Die where
  point : Nat := 0               -- OP0 to OP6
  settling : Bool := false       -- a faster point is not yet stable
  halved : Bool := false
  off : Bool := false            -- the core rails are turned off
  deriving DecidableEq, Repr

/-- A service request in a tenant's ring (R322): the team that waits for it while the band is resident. -/
structure Service where
  slot : Nat := 0
  tenant : Nat := 0
  team : Nat := 0
  n : Nat := 0
  arg : DWord := 0
  reply : Option DWord := none
  deriving DecidableEq, Repr

/-- What a step is to do, where the order is laid down: an event of the table, or an issue by a team. -/
inductive Turn where
  | event (e : Instr)
  | team (k : Nat)
  deriving DecidableEq, Repr

structure State where
  agenda : List Turn := []       -- the steps to come, while it lists any; else the machine chooses
  cur : Option Nat := none
  stalled : Bool := false
  fresh : Nat := 0
  tick : Nat := 0
  lag : Nat := 0                 -- ticks by which a correction still holds the timebase back (R364)
  steps : Nat := 0               -- the model's own: steps taken
  upset : Option (LaneMask × Nat) := none
  teams : NMap Team := []
  crews : NMap Crew := []
  bands : NMap Band := []
  cores : NMap Core := []
  drams : NMap Stack := []
  tenants : NMap Tenant := []
  l2 : NMap (NMap Blk) := []     -- by die
  tcache : NMap (List Trans) := []
  mem : List Host.Cell := []
  memPoison : List Nat := []     -- word addresses stored with the poison check byte
  sealedPoison : List Nat := []  -- those of them that a home has enciphered with their granule (R144, R383)
  flips : NMap (BitVec 40) := [] -- bits of a stored word (32 data, 8 check) that are wrong
  slots : NMap (BitVec 160) := []
  fattr : NMap (BitVec 2) := []
  windows : NMap Window := []
  extents : List Extent := []
  loads : List LoadOp := []
  misses : List Miss := []
  l2q : List Req := []
  homeq : List HomeItem := []
  bursts : List Burst := []
  fills : List Fill := []
  pubs : List Pub := []
  asks : List HostAsk := []
  owed : List Owed := []
  late : Bool := false           -- the model's own: a read of an engine or a walker in this step has to wait, and the step is taken back
  serial : Nat := 0              -- numbers loads, publications and releases
  msgs : List Msg := []
  frags : List Frag := []
  nextId : NMap Nat := []        -- key 8·source + destination (R360)
  rx : NMap Rx := []             -- key 8·receiver + sender
  inbox : List Msg := []         -- delivered messages of classes 6 and 7
  crates : NMap DWord := []      -- key 8·die + class: CRATE0 to CRATE7
  spinj : NMap DWord := []
  deadLinks : List (Nat × Nat) := []
  writeJobs : List WriteJob := []
  blocks : List BlockJob := []
  walks : List Walk := []
  ats : List AtsReq := []
  atsDenied : List (Nat × Nat) := []
  invals : List Inval := []      -- the host's invalidations that are not yet complete (R377)
  producers : List Producer := []
  millJobs : List MillJob := []
  counters : NMap Nat := []      -- key 64·unit + class (R384)
  ras : List Ras := []
  rues : NMap (List Nat) := []   -- when a core's last 1,024 RUE events were, newest first (R396)
  worn : List Nat := []          -- cores that the next reset adds to the harvest map (R396)
  modst : DWord := 0
  ready : DWord := 0             -- READY (R312)
  hmap : NMap DWord := []        -- the harvest map (R286)
  launches : NMap Launch := []
  turns : NMap (Nat × Nat) := [] -- key 8·die + priority: the queue at the pointer and the bands it has had (R294)
  claims : List Nat := []        -- launches to which the room that a quantum's pre-emptions free goes first (R300)
  turnQ : Nat := 0               -- 4·core + quarter of the last issue
  capped : NMap Nat := []        -- by quarter: one more than the last team taken at the age cap (R310)
  blocked : NMap (Nat × Nat) := []   -- key 64·die + queue: its head, and the tick since when that has failed to place a band (R300)
  queues : NMap CopyQueue := []  -- by number
  appends : List Append := []
  copies : List Copy := []
  groups : List Group := []
  parts : List Part := []
  collTurns : NMap Nat := []     -- key 2^32·group + rank: the `coll`s a participant has appended (R257)
  collFailed : List (Nat × Nat) := []   -- group and turn of a matching that a bad descriptor failed
  exchanges : List Exchange := []
  walking : List Walking := []
  saveAreas : NMap Nat := []     -- key 64·die + queue: where a launch queue's bands are saved (R196)
  services : List Service := []
  lastTime : NMap Nat := []      -- the last timebase a die's team has read (R324)
  dies : NMap Die := []
  powerPoint : Nat := 0          -- the operating point that the power limit imposes (R398)
  heatPoint : Nat := 0           -- the one that the thermal limit imposes
  pwrcap : DWord := 670360       -- PWRCAP (R399): LIMIT 15,000, WIN 10
  almpol : DWord := 22           -- ALMPOL (R391)
  spareAt : Nat := 1024          -- the spare-in threshold (R386)
  verified : Bool := false       -- the images have been verified since the module's reset (R393)
  alarm : Option Nat := none     -- the alarm action whose bands are still stopping: 1 stops tenants, 2 erases the keys too (R392)
  command : Option Command := none   -- a management command that waits for the host (R400)
  losses : List Loss := []       -- the messages that have been lost, the newest first (R363)
  moduleNo : BitVec 10 := 0      -- the module's number, from its tray position (R355, R364)
  dramOff : Bool := false        -- a stack has failed its test: the module has no DRAM service (R395)
  bootFailed : Bool := false     -- an image has failed its verification: only recovery is answered (R393)
  firmware : Nat := 0            -- the image that the next reset boots (R400)
  secver : Nat := 0              -- the security version (R394)
  measures : List (BitVec 384) := []   -- the measurement registers (R394)
  replies : List DWord := []     -- the answer to the last management command (R400)
  hostData : List Datum := []    -- the line last supplied to the host (R367, R368)
  errors : NMap ErrRec := []
  dooms : List (Nat × Nat × Nat) := []   -- launches that an event ends: launch, cause, address (R382)
  deriving DecidableEq, Repr

/-- Why a step stops without a next state. -/
inductive Fault where
  /-- An instruction word is executed while the machine holds no team: raised by `withTeam` in Machine/Ops.lean, and never by
  `step`, which executes a word only for the team whose turn it is. Safe: the machine stops. -/
  | noTeam
  deriving DecidableEq, Repr

/-- Why an instruction has no meaning. -/
inductive Refusal where
  /-- An instruction whose meaning is not written yet: raised by the arms of Machine/Dispatch.lean. Safe: the machine stops. -/
  | notModelled (mnemonic : String)
  deriving DecidableEq, Repr

def State.reset : State := {}

end Sys2Proof.Machine
end

