-- ==== Sys2Proof/Machine/Memory.lean ====
section
/-! DEFINITION. Physical memory: the address map (R128, R354), the bytes behind the caches, the word code on a read and the
parity delta on a write (R137 to R141), sealed pages (R144), format windows (R145, R146), and the counters and the RAS log
(R384, R385). -/

namespace Sys2Proof.Machine

/-! ### The physical map -/

inductive Region where
  | dram
  | view
  | capacity
  | host
  | unassigned
  deriving DecidableEq, Repr

/-- R354. -/
def region (pa : Nat) : Region :=
  if pa < 0x18000000000 then .dram
  else if pa < 0x1C000000000 then .view
  else if 0x80000000000 ≤ pa && pa < 0x200000000000 then .capacity
  else if 0x8000000000000 ≤ pa && pa < 0x10000000000000 then .host
  else .unassigned

/-- The window number that places an address over the stacks (R128, R145, R354). -/
def windowNo (pa : Nat) : Nat :=
  match region pa with
  | .dram => pa / 4096
  | .view => (pa - 0x18000000000) / 4096
  | .capacity => (pa - 0x80000000000) / 4096
  | _ => pa / 4096

def stackNo (pa : Nat) : Nat := windowNo pa % 16 ^^^ windowNo pa / 16 % 16
/-- The die of the home of an address (R128). -/
def homeDie (pa : Nat) : Nat := stackNo pa / 2
def pseudoChannel (pa : Nat) : Nat := bits (windowNo pa) 4 9
def bankSet (pa : Nat) : Nat := (windowNo pa / 2 ^ 13) / 12288
/-- The slice that holds a word of its window (R6). -/
def sliceOf (pa : Nat) : Nat :=
  let w := pa / 4 % 1024
  w % 16 ^^^ ((3 * bits w 4 4 + 7 * bits w 8 2) % 16)
/-- The column of a word in its slice's row segment (R6). -/
def columnOf (pa : Nat) : Nat := pa / 4 % 1024 / 16

/-- The extent that covers a capacity-tier address (R370). -/
def extentOf (s : State) (pa : Nat) : Option Extent := s.extents.find? fun e => decide (e.base ≤ pa ∧ pa < e.base + e.size)

/-- Whether an address is assigned: an address of the capacity tier is where an extent covers it (R354). -/
def assigned (s : State) (pa : Nat) : Bool :=
  match region pa with
  | .unassigned => false
  | .capacity => (extentOf s pa).isSome
  | _ => true

/-! ### Bytes -/

abbrev Memory := List Host.Cell

/-- The canonical form of memory: addresses strictly rising and no byte equal to 0, which an unlisted address reads as. -/
def Memory.wf (m : Memory) : Bool := canonical (0 : Byte) m

def readByte (m : Memory) (a : Nat) : Byte := look 0 m a
def writeByte (m : Memory) (a : Nat) (b : Byte) : Memory := putAt 0 m a b

def writeBytes (m : Memory) (a : Nat) : List Byte → Memory
  | [] => m
  | b :: r => writeBytes (writeByte m a b) (a + 1) r

/-- The word at a byte address, low byte first (R38). -/
def wordAt (m : Memory) (a : Nat) : Word := BitVec.ofNat 32 (ofLeBytes ((List.range 4).map fun i => readByte m (a + i)))
def putWord (m : Memory) (a : Nat) (w : Word) : Memory := writeBytes m a (leBytes w.toNat 4)

/-! ### Counters and the log -/

/-- Counts one event of a class for an instance of a unit, saturating at 32 bits (R384). -/
def count (s : State) (unit cls : Nat) : State :=
  { s with counters := setAt s.counters (64 * unit + cls) (min (look 0 s.counters (64 * unit + cls) + 1) 0xFFFFFFFF) }

def dram (s : State) (k : Nat) : Stack := look {} s.drams k
def setDram (s : State) (k : Nat) (d : Stack) : State := { s with drams := setAt s.drams k d }

/-- Counts an event of R143 for the pseudo-channel of an address. -/
def countPc (s : State) (pa cls : Nat) : State :=
  let k := stackNo pa
  let d := dram s k
  let key := 8 * pseudoChannel pa + cls
  setDram s k { d with counts := setAt d.counts key (min (look 0 d.counts key + 1) 0xFFFFFFFF) }

/-- Counts a WCE (class 0) or a BCE (class 1) for the slice that holds the word (R384). -/
def countSlice (cls : Nat) (s : State) (pa : Nat) : State :=
  let k := stackNo pa
  let d := dram s k
  let key := 2 * (16 * pseudoChannel pa + sliceOf pa) + cls
  setDram s k { d with slices := setAt d.slices key (look 0 d.slices key + 1) }

/-- A word reaches its reader: PSN where it is a poisoned word of DRAM (R138, R143). -/
def consume (s : State) (pa : Nat) (d : Datum) : State := if d == .poison && region pa == .dram then countPc s pa 4 else s

def tenantOf (s : State) (t : Nat) : Tenant := look {} s.tenants t
def setTenant (s : State) (t : Nat) (x : Tenant) : State := { s with tenants := setAt s.tenants t x }

/-- A sealed page's key slot has been erased and has no new key: its words are delivered as poisoned (R392). -/
def keyGone (s : State) (key : Nat) : Bool := key != 0 && !(tenantOf s (key - 1)).keyed

/-- Raises an MSI-X vector of a tenant (R389). -/
def raiseVector (s : State) (t v : Nat) : State :=
  setTenant s t { tenantOf s t with vectors := (tenantOf s t).vectors ||| BitVec.ofNat 64 (2 ^ v) }

/-- Writes a record into the Kiln's ring of 4,096, newest first (R385), and raises vector 3 where it names a tenant. -/
def logRas (s : State) (r : Ras) : State :=
  let s := { s with ras := ({ r with tick := s.tick } :: s.ras).take 4096 }
  if r.tenant < 16 then raiseVector s r.tenant 3 else s

/-- Class codes of the records that the list of R385 has no class for; the classes of R143 and R384 take 0 to 20. -/
def alarmClass : Nat := 21
def replacementClass : Nat := 22
def retiredClass : Nat := 23
def droppedClass : Nat := 24
def capacityClass : Nat := 25

/-- The replacement request (R396). -/
def requestReplacement (s : State) : State :=
  logRas { s with modst := s.modst ||| 1 } { cls := replacementClass, act := 3 }

/-! ### The word code on reads -/

/-- The word as stored, with its wrong bits, and the check byte as read (R137, R138). -/
def rawWord (s : State) (pa : Nat) (noise : Nat) : Word × Nat :=
  let e := (look 0 s.flips pa).toNat ^^^ noise
  (BitVec.ofNat 32 ((wordAt s.mem pa).toNat ^^^ e % 2 ^ 32),
    checkByte (wordAt s.mem pa) pa ^^^ (if s.memPoison.contains pa then 0xFF else 0) ^^^ e / 2 ^ 32)

/-- The class of a word read from DRAM and the word after a single-bit correction (R138). -/
def senseWord (s : State) (pa : Nat) (noise : Nat) : Syndrome × Word :=
  let (w, c) := rawWord s pa noise
  let x := Syndrome.of (c ^^^ checkByte w pa)
  (x, match x with
    | .dataBit i => w ^^^ BitVec.ofNat 32 (2 ^ i)
    | _ => w)

/-- Whether an address lies in a retired window whose removal is acknowledged, or in a bank set in deep retention (R148, R149), or the
module has no DRAM service (R395). -/
def retiredAt (s : State) (pa : Nat) : Bool :=
  region pa == .dram && (s.dramOff || (dram s (stackNo pa)).retired.contains (4 * pseudoChannel pa + bankSet pa) ||
    ((dram s (stackNo pa)).deep && bankSet pa == 3))

/-- A pseudo-channel is being retrained, and its requests wait (R142). -/
def retrains (s : State) (pa : Nat) : Bool :=
  let here := fun x => stackNo x == stackNo pa && pseudoChannel x == pseudoChannel pa
  region pa == .dram && ((s.bursts.any fun b => b.retraining && here (b.words.headD 0)) ||
    s.writeJobs.any fun j => decide (j.tries ≥ 3) && here j.pa)

/-- What the memory behind the caches answers for a stored word: the word, poison, or that the block procedure must run. -/
inductive Sensed where
  | word (w : Word)
  | poison
  | block
  deriving DecidableEq, Repr

/-- Reads one stored word and counts what the word code finds (R138, R148, R372). -/
def senseStored (s : State) (pa noise : Nat) : State × Sensed :=
  match region pa with
  | .dram =>
    if retiredAt s pa then (s, .poison)
    else match senseWord s pa noise with
      | (.clean, w) => (s, .word w)
      | (.dataBit _, w) => (countSlice 0 (countPc s pa 0) pa, .word w)
      | (.checkBit, w) => (countSlice 0 (countPc s pa 0) pa, .word w)
      | (.poison, _) => (s, .poison)
      | (.address, _) => (countPc s pa 3, .block)
      | (.bad, _) => (s, .block)
  | .capacity =>
    match extentOf s pa with
    | some e => if e.lost || s.memPoison.contains pa then (s, .poison) else (s, .word (wordAt s.mem pa))
    | none => (s, .poison)
  | _ => if s.memPoison.contains pa then (s, .poison) else (s, .word (wordAt s.mem pa))

/-! ### Parity deltas and writes -/

def blockOf (pa : Nat) : Nat := pa / 512

/-- Writes a block's delta back into its parity slot (R141). -/
def flushDelta (s : State) (block : Nat) : State :=
  let k := stackNo (block * 512)
  let d := dram s k
  let x := look 0 d.deltas block
  setDram { s with slots := putAt 0 s.slots block (look 0 s.slots block ^^^ x) } k { d with deltas := putAt 0 d.deltas block 0 }

/-- The delta of one word write; a memory-side cache holds deltas for 8,192 blocks, and writes the one of the lowest block back to make
room (R141). -/
def addDelta (s : State) (pa : Nat) (old new : Word) : State :=
  let k := stackNo pa
  let b := blockOf pa
  let ds := (dram s k).deltas
  let s := match ds with
    | (b0, _) :: _ => if ds.length ≥ 8192 ∧ (ds.lookup b).isNone then flushDelta s b0 else s
    | [] => s
  let d := dram s k
  let x := look 0 d.deltas b ^^^ BitVec.ofNat 160 (bchWord (old ^^^ new) (pa / 4 % 128))
  setDram s k { d with deltas := putAt 0 d.deltas b x }

def setPoison (ps : List Nat) (pa : Nat) (on : Bool) : List Nat :=
  let r := ps.filter fun a => a != pa
  if on then (r.takeWhile fun a => a < pa) ++ pa :: r.dropWhile fun a => a < pa else r

/-! ### The block procedure -/

def blockWords (block : Nat) : List Nat := (List.range 128).map fun i => block * 512 + 4 * i

/-- The words of a block as read have this parity (R139). -/
def blockParity (s : State) (block : Nat) : Nat := (blockWords block).foldl (fun r pa => bchBits (rawWord s pa 0).1.toNat 32 r) 0

/-- What the block code finds: the wrong bits of the message, as 32·word + bit; none where it cannot decode (R139, R140). -/
def blockErrors (s : State) (block : Nat) : Option (List Nat) :=
  (bchDecode ((look 0 s.slots block).toNat % 2 ^ 156 ^^^ blockParity s block)).map fun es =>
    (es.filter fun d => d ≥ 156).map fun d => 4251 - d

/-- The wrong bits of one word of a block. -/
def wordErrors (es : List Nat) (pa : Nat) : Nat := (es.filter fun e => e / 32 == pa / 4 % 128).foldl (fun a e => a ^^^ 2 ^ (e % 32)) 0

/-- One address in each slice of a list of words. -/
def oneASlice (pas : List Nat) : List Nat := pas.foldl (fun r pa => if r.any fun x => sliceOf x == sliceOf pa then r else r ++ [pa]) []

/-- A stored word now holds `w` with a good code. -/
def stored (s : State) (pa : Nat) (w : Word) : State :=
  { s with mem := if wordAt s.mem pa == w then s.mem else putWord s.mem pa w, flips := putAt 0 s.flips pa 0 }

/-- The block procedure (R140): up to 12 wrong bits are corrected and rewritten, a BCE for the block and for each slice that held one;
with more, every word whose code is not clean is rewritten as poisoned, and the answer lists those words. -/
def blockProcedure (s : State) (block : Nat) : State × List Nat :=
  let s := flushDelta s block
  let pas := blockWords block
  match blockErrors s block with
  | some es =>
    let wrong := pas.filter fun pa => wordErrors es pa != 0
    let s := (oneASlice wrong).foldl (countSlice 1) (countPc s (block * 512) 1)
    ((pas.filter fun pa => wordErrors es pa != 0 || look 0 s.flips pa != 0).foldl (fun s pa =>
      stored s pa ((rawWord s pa 0).1 ^^^ BitVec.ofNat 32 (wordErrors es pa))) s, [])
  | none =>
    let wrong := pas.filter fun pa => match (senseWord s pa 0).1 with
      | .clean => false
      | .poison => false
      | _ => true
    let s := logRas (countPc s (block * 512) 2) { addr := block * 512, cls := 2, die := stackNo (block * 512) / 2, unit := stackNo (block * 512), act := 2 }
    (wrong.foldl (fun s pa => { s with flips := putAt 0 s.flips pa 0, memPoison := setPoison s.memPoison pa true,
                                       sealedPoison := setPoison s.sealedPoison pa false }) s, wrong)

/-- What a write reads of the stored word that it replaces (R138, R141): the word, and whether it is poisoned or lost. -/
def fetchStored (s : State) (pa : Nat) : State × Word × Bool :=
  if look 0 s.flips pa = 0 then (s, wordAt s.mem pa, s.memPoison.contains pa)
  else match senseStored s pa 0 with
    | (s, .word w) => (s, w, false)
    | (s, .poison) => (s, wordAt s.mem pa, true)
    | (s, .block) =>
      let s := (blockProcedure s (blockOf pa)).1
      (s, wordAt s.mem pa, s.memPoison.contains pa)

/-- The extent that covers a word of the capacity tier has been lost, or acknowledged as released (R371, R372). -/
def extentGone (s : State) (pa : Nat) : Bool :=
  region pa == .capacity && match extentOf s pa with
    | some e => e.lost
    | none => true

/-- A write reaches a window that has been retired, or an extent that is lost: it is dropped and logged (R148, R372). -/
def writeDropped (s : State) (pa : Nat) : Option Ras :=
  if retiredAt s pa then some { addr := pa, cls := droppedClass, die := stackNo pa / 2, unit := stackNo pa }
  else if extentGone s pa then some { addr := pa, cls := droppedClass }
  else none

/-- Writes one stored word with a fresh code, or poisoned, over the word that was read there (R137, R141, R148, R372); `cipher` says that
it is enciphered with its granule (R144). -/
def writeOver (s : State) (pa : Nat) (old w : Word) (poison cipher : Bool) : State :=
  match writeDropped s pa with
  | some r => logRas s r
  | none =>
    let s := if region pa == .dram && old != w then addDelta s pa old w else s
    { s with mem := putWord s.mem pa w, memPoison := setPoison s.memPoison pa poison,
             sealedPoison := setPoison s.sealedPoison pa (poison && cipher), flips := putAt 0 s.flips pa 0 }

/-- Writes one stored word. Where the home holds its old value (`known`), or no parity is kept, nothing is read first (R141). -/
def writeStored (s : State) (pa : Nat) (w : Word) (poison known : Bool) : State :=
  if region pa == .dram && !retiredAt s pa && !known then
    let (s, old, _) := fetchStored s pa
    writeOver s pa old w poison false
  else writeOver s pa (wordAt s.mem pa) w poison false

/-! ### Sealed pages -/

def keyBytes (k : BitVec 256) : List Nat := (leBytes k.toNat 32).map BitVec.toNat
def wordsToBytes (ws : List Word) : List Nat := ws.flatMap fun w => (leBytes w.toNat 4).map BitVec.toNat
def bytesToWord (bs : List Nat) : Word := BitVec.ofNat 32 (ofLeBytes (bs.map (BitVec.ofNat 8)))

/-- A stored word that no granule can be deciphered with: it is poisoned, and no home has enciphered it with its granule. -/
def unciphered (s : State) (pa : Nat) : Bool := retiredAt s pa || (s.memPoison.contains pa && !s.sealedPoison.contains pa)

/-- Reads one word of plaintext: of an open page, or of a page sealed under the slot `key - 1` (R144, R392). -/
def readPlain (s : State) (pa key : Nat) (noise : Nat → Nat) : State × Sensed :=
  if key == 0 then senseStored s pa (noise pa)
  else
    let t := tenantOf s (key - 1)
    if !t.keyed then (s, .poison)
    else
      let g := pa / 16 * 16
      let (s, r) := (List.range 4).foldl (fun (a : State × List Sensed) i =>
        let (s, x) := senseStored a.1 (g + 4 * i) (noise (g + 4 * i))
        (s, a.2 ++ [x])) (s, [])
      if r.contains .block then (s, .block)
      else if r.getD (pa / 4 % 4) .block == .poison || (List.range 4).any fun i => unciphered s (g + 4 * i) then (s, .poison)
      else
        let ws := r.zipIdx.map fun x => match x.1 with
          | .word w => w
          | _ => wordAt s.mem (g + 4 * x.2)
        (s, .word (bytesToWord (((xtsDecrypt (keyBytes t.key1) (keyBytes t.key2) g (wordsToBytes ws)).drop (pa % 16)).take 4)))

/-- Writes words of one granule of a sealed page, as offset in it, word and poison: they are encrypted together, and where they do not
cover it the home fetches it, decrypts it and merges them (R144). What cannot be decrypted is written as poisoned. -/
def writeGranule (s : State) (t : Tenant) (g : Nat) (ws : List (Nat × Word × Bool)) (known : Nat → Bool) : State :=
  let whole := ws.length == 4 && (List.range 4).all fun i => known (g + 4 * i)
  let (s, old) := (List.range 4).foldl (fun (a : State × List (Word × Bool)) i =>
    let (s, x) := if whole then (a.1, wordAt a.1.mem (g + 4 * i), false) else fetchStored a.1 (g + 4 * i)
    (s, a.2 ++ [x])) (s, [])
  let lost := (List.range 4).any fun i => unciphered s (g + 4 * i)
  let plain := xtsDecrypt (keyBytes t.key1) (keyBytes t.key2) g (wordsToBytes (old.map fun x => x.1))
  let new := (List.range 4).flatMap fun i => match ws.lookup i with
    | some x => wordsToBytes [x.1]
    | none => (plain.drop (4 * i)).take 4
  let enc := xtsEncrypt (keyBytes t.key1) (keyBytes t.key2) g new
  (List.range 4).foldl (fun s i =>
    writeOver s (g + 4 * i) (old.getD i (0, false)).1 (bytesToWord ((enc.drop (4 * i)).take 4)) (match ws.lookup i with
      | some x => x.2
      | none => lost || (old.getD i (0, false)).2) true) s

/-- Writes words of plaintext, as address, word and poison: each by itself on an open page, granule by granule on a sealed one (R144).
`known` says of which the home holds the old value (R141). -/
def writePlains (s : State) (key : Nat) (ws : List (Nat × Word × Bool)) (known : Nat → Bool) : State :=
  let t := tenantOf s (key - 1)
  if key == 0 || !t.keyed then ws.foldl (fun s x => writeStored s x.1 x.2.1 (x.2.2 || key != 0) (known x.1)) s
  else ((ws.map fun x => x.1 / 16 * 16).eraseDups).foldl (fun s g =>
    writeGranule s t g ((ws.filter fun x => x.1 / 16 * 16 == g).map fun x => (x.1 / 4 % 4, x.2)) known) s

def writePlain (s : State) (pa : Nat) (w : Word) (poison : Bool) (key : Nat) (known : Bool) : State :=
  writePlains s key [(pa, w, poison)] fun _ => known

/-- Reads one word of plaintext and runs the block procedure where the word code calls for it. -/
def readCorrected (s : State) (pa key : Nat) : State × Datum :=
  match readPlain s pa key (fun _ => 0) with
  | (s, .word w) => (s, .ok w)
  | (s, .poison) => (s, .poison)
  | (s, .block) =>
    let (s, bad) := blockProcedure s (blockOf pa)
    if bad.contains pa then (s, .uncorr)
    else match readPlain s pa key (fun _ => 0) with
      | (s, .word w) => (s, .ok w)
      | (s, _) => (s, .poison)

end Sys2Proof.Machine
end

