-- ==== Sys2Proof/Machine/Caches.lean ====
section
/-! DEFINITION. The three cache levels (R130 to R134): placement, replacement, the words they hold, eviction outward, and the
home of a word: reads served there and writes performed there (R135, R336, R337, R349, R366 to R369). -/

namespace Sys2Proof.Machine

inductive Level where
  | l1
  | l2
  | msc
  deriving DecidableEq, Repr

/-- The set of a superblock `sb = PA / 256` (R130); sets of different L2 slices have different numbers. -/
def Level.set (l : Level) (sb : Nat) : Nat :=
  match l with
  | .l1 => sb % 64
  | .l2 => sb % 48 * 512 + sb / 48 % 512
  | .msc => (sb % 16 + 16 * (windowNo (sb * 256) / 16)) % 16384

def setBit64 (m : BitVec 64) (i : Nat) (b : Bool) : BitVec 64 :=
  if b then m ||| BitVec.ofNat 64 (2 ^ i) else m &&& ~~~BitVec.ofNat 64 (2 ^ i)

/-- The index of a word in its superblock. -/
def wordIx (pa : Nat) : Nat := pa / 4 % 64

def Blk.has (b : Blk) (i : Nat) : Bool := bit b.valid.toNat i
def Blk.isDirty (b : Blk) (i : Nat) : Bool := bit b.dirty.toNat i
def Blk.datum (b : Blk) (i : Nat) : Datum := if bit b.poison.toNat i then .poison else .ok (look 0 b.words i)

/-- Sets one word. The home keeps the old value of a word that was valid and good until it is written back (R141). -/
def Blk.put (b : Blk) (i : Nat) (w : Word) (poison dirty cp : Bool) : Blk :=
  { b with
    valid := setBit64 b.valid i true
    dirty := setBit64 b.dirty i dirty
    poison := setBit64 b.poison i poison
    cp := setBit64 b.cp i cp
    bad := setBit64 b.bad i false
    soft := setBit64 b.soft i false
    known := setBit64 b.known i (dirty && (if b.isDirty i then bit b.known.toNat i
      else b.has i && !bit b.poison.toNat i && !bit b.bad.toNat i))
    words := putAt 0 b.words i w }

/-- Drops one word. -/
def Blk.clear (b : Blk) (i : Nat) : Blk :=
  { b with
    valid := setBit64 b.valid i false
    dirty := setBit64 b.dirty i false
    poison := setBit64 b.poison i false
    cp := setBit64 b.cp i false
    bad := setBit64 b.bad i false
    soft := setBit64 b.soft i false
    words := putAt 0 b.words i 0 }

/-- The dirty words of a superblock, in ascending order. -/
def Blk.dirtyWords (b : Blk) : List Nat := (List.range 64).filter b.isDirty

def Blk.hostField (b : Blk) (line : Nat) : Nat := bits b.host.toNat (2 * line) 2
def Blk.setHost (b : Blk) (line v : Nat) : Blk := { b with host := BitVec.ofNat 8 (setBits b.host.toNat (2 * line) 2 v) }

/-- The hint of a word's line (R131). -/
def Blk.lineHint (b : Blk) (i : Nat) : Nat := bits b.hint.toNat (2 * (i / 16)) 2
def Blk.setHint (b : Blk) (i hint : Nat) : Blk := { b with hint := BitVec.ofNat 8 (setBits b.hint.toNat (2 * (i / 16)) 2 hint) }

/-- A hit under a retention hint (R132). -/
def Blk.hit (b : Blk) (i hint : Nat) : Blk :=
  let b := b.setHint i hint
  if hint == 0 then { b with prio := 3 } else if hint == 2 then { b with prio := 3, sticky := 4 } else b

/-- A word enters a superblock: a write to one that the cache held before this step is a hit, and what enters a new one, or a line
without a word, allocates it and leaves the priority of the allocation (R131, R132). The words of one access enter in one step. -/
def Blk.enter (b : Blk) (now : Nat) (write : Bool) (i hint : Nat) : Blk :=
  if write && b.born != now + 1 then b.hit i hint
  else if b.born == now + 1 || bits b.valid.toNat (i / 16 * 16) 16 == 0 then b.setHint i hint
  else b

/-- The priority and the sticky count of a new superblock; `dflt` is the priority of the default hint (R132). -/
def newBlk (now hint dflt key : Nat) : Blk :=
  { prio := BitVec.ofNat 2 (if hint == 0 then dflt else if hint == 2 then 3 else 0)
    sticky := if hint == 2 then 4 else 0
    key := key
    born := now + 1 }

/-- The superblocks of a set. -/
def setOf (l : Level) (c : NMap Blk) (set : Nat) : NMap Blk := c.filter fun e => l.set e.1 == set

/-- The victim of a full set: the lowest priority among those whose sticky count was 0, the lowest way on a tie, way 0 when
every way is sticky (R132). -/
def chooseVictim (es : NMap Blk) : Option Nat :=
  let free := es.filter fun e => e.2.sticky == 0
  let pick := (if free.isEmpty then es.filter fun e => e.2.way == 0 else free)
  (pick.foldl (fun (a : Option (Nat × Blk)) e => match a with
    | none => some e
    | some x => if e.2.prio.toNat < x.2.prio.toNat ∨ (e.2.prio = x.2.prio ∧ e.2.way < x.2.way) then some e else a) none).map
      fun e => e.1

/-- The host holds a line of this superblock of DRAM (R366, R368). -/
def hostHolds (sb : Nat) (b : Blk) : Bool := b.host != 0 && region (sb * 256) == .dram

/-- Makes room for superblock `sb` and enters `b` in it: the cache and the superblock that left, which the caller writes
outward. A superblock of DRAM with a host-held line is not taken (R368). -/
def allocate (l : Level) (c : NMap Blk) (sb : Nat) (b : Blk) : NMap Blk × Option (Nat × Blk) :=
  let set := l.set sb
  let es := setOf l c set
  if es.length < 16 then
    let way := ((List.range 16).find? fun w => es.all fun e => e.2.way != w).getD 0
    (setAt c sb { b with way := way }, none)
  else
    let c := c.map fun e => if l.set e.1 == set && e.2.sticky != 0 then (e.1, { e.2 with sticky := e.2.sticky - 1 }) else e
    match chooseVictim es with
    | none => (setAt c sb b, none)
    | some v =>
      match c.lookup v with
      | none => (setAt c sb b, none)
      | some x =>
        if hostHolds v x ∧ l = .msc then (setAt c sb { b with way := x.way }, some (v, { x with dirty := 0 }))
        else (setAt (drop c v) sb { b with way := x.way }, some (v, x))

def l1Of (s : State) (core : Nat) : NMap Blk := (look {} s.cores core).l1
def setL1 (s : State) (core : Nat) (c : NMap Blk) : State :=
  { s with cores := setAt s.cores core { look {} s.cores core with l1 := c } }
def l2Of (s : State) (die : Nat) : NMap Blk := look [] s.l2 die
def setL2 (s : State) (die : Nat) (c : NMap Blk) : State := { s with l2 := setAt s.l2 die c }
def mscOf (s : State) (k : Nat) : NMap Blk := (dram s k).msc
def setMsc (s : State) (k : Nat) (c : NMap Blk) : State := setDram s k { dram s k with msc := c }

/-- The superblock in a cache. -/
def blk (c : NMap Blk) (sb : Nat) : Option Blk := c.lookup sb

/-- The word a cache holds valid, if it does. A clean word that fails its code counts as not held (R382). -/
def held (c : NMap Blk) (pa : Nat) : Option Datum :=
  match blk c (pa / 256) with
  | some b => if b.has (wordIx pa) && !(bit b.bad.toNat (wordIx pa) && !b.isDirty (wordIx pa)) then
      some (if bit b.bad.toNat (wordIx pa) then .poison else b.datum (wordIx pa)) else none
  | none => none

def heldDirty (c : NMap Blk) (pa : Nat) : Bool :=
  match blk c (pa / 256) with
  | some b => b.isDirty (wordIx pa)
  | none => false

/-- A read that a cache serves is a hit (R132). -/
def touch (c : NMap Blk) (pa hint : Nat) : NMap Blk :=
  match blk c (pa / 256) with
  | some b => setAt c (pa / 256) (b.hit (wordIx pa) hint)
  | none => c

/-- Drops a word from a cache. -/
def dropWord (c : NMap Blk) (pa : Nat) : NMap Blk :=
  match blk c (pa / 256) with
  | some b => setAt c (pa / 256) (b.clear (wordIx pa))
  | none => c

/-- The home attribute of a DRAM frame is HC (R348). -/
def isHC (s : State) (pa : Nat) : Bool := region pa == .dram && look 1 s.fattr (pa / 65536) == 0

/-! ### The memory-side cache -/

/-- The record of an uncorrectable error in a cache, which its unit's number names (R385). -/
def cacheRas (pa unit cls act : Nat) : Ras :=
  { addr := pa, cls := cls, act := act
    die := if unit < 10000 then unit / 144 else if unit < 20000 then (unit - 10000) / 48 else (unit - 20000) / 2
    unit := if unit < 10000 then unit % 144 else if unit < 20000 then (unit - 10000) % 48 else unit - 20000 }

/-- A dirty word that leaves a cache carries poison onward when it fails its code; the launch that owns it ends, while it runs (R381,
R382). A correctable error is corrected and counted (R378). -/
def leaving (s : State) (b : Blk) (pa unit : Nat) : State × Word × Bool :=
  let i := wordIx pa
  if bit b.bad.toNat i then
    let s := count s unit 12
    let log := cacheRas pa unit 12 2
    let s := match s.launches.lookup b.launch with
      | some l =>
        if l.ended then logRas s log
        else
          let s := logRas s { log with tenant := l.tenant, act := 1, launch := b.launch }
          { s with dooms := s.dooms ++ [(b.launch, 9, pa)] }
      | none => logRas s log
    (s, look 0 b.words i, true)
  else (if bit b.soft.toNat i then count s unit 10 else s, look 0 b.words i, bit b.poison.toNat i)

/-- A word that a cache holds passes its code (R378, R382); one that it does not hold passes. -/
def sound (c : NMap Blk) (pa : Nat) : Bool :=
  match blk c (pa / 256) with
  | some b => !b.has (wordIx pa) || (!bit b.bad.toNat (wordIx pa) && !bit b.soft.toNat (wordIx pa))
  | none => true

/-- What a cache does about a word that fails its code when it is read (R378, R382): a correctable error is corrected; a clean word
is discarded, to be fetched again; a dirty one goes onward poisoned. -/
def mend (s : State) (unit pa : Nat) (get : State → NMap Blk) (put : State → NMap Blk → State) (onward : State → Blk → State) : State :=
  if sound (get s) pa then s
  else match blk (get s) (pa / 256) with
    | none => s
    | some b =>
      let i := wordIx pa
      if !bit b.bad.toNat i then
        count (put s (setAt (get s) (pa / 256) { b with soft := setBit64 b.soft i false })) unit 10
      else if b.isDirty i then
        let s := onward s b
        put s (dropWord (get s) pa)
      else logRas (count (put s (dropWord (get s) pa)) unit 11) (cacheRas pa unit 11 0)

/-- The block of a word waits: its procedure runs, or writes to it wait for a retraining (R140, R142). -/
def blockBusy (s : State) (pa : Nat) : Bool := s.blocks.any fun b => b.block == blockOf pa

/-- A write to memory waits: for what its block waits for, or for a retraining of its pseudo-channel (R140, R142). -/
def writeWaits (s : State) (pa : Nat) : Bool := blockBusy s pa || retrains s pa

/-- Holds a write with its block (R140, R142). -/
def holdBlock (s : State) (w : HeldWrite) : State :=
  { s with blocks := match s.blocks.findIdx? fun b => b.block == blockOf w.pa with
      | some i => s.blocks.modify i fun b => { b with writes := b.writes ++ [{ w with uid := s.serial }] }
      | none => s.blocks ++ [{ block := blockOf w.pa, proc := false, writes := [{ w with uid := s.serial }] }] }

/-- A word that a home writes onward poisoned leaves every L2 (R337, R382). -/
def dropL2 (s : State) (pa : Nat) : State :=
  (List.range 8).foldl (fun s d => match blk (l2Of s d) (pa / 256) with
    | some b => if b.has (wordIx pa) then setL2 s d (dropWord (l2Of s d) pa) else s
    | none => s) s

/-- A dirty word leaves a memory-side cache: its value, and whether it is poisoned (R381, R382). -/
def leavingHome (s : State) (b : Blk) (pa : Nat) : State × Word × Bool :=
  leaving (if bit b.bad.toNat (wordIx pa) then dropL2 s pa else s) b pa (20000 + stackNo pa)

/-- The same at a home (R382). -/
def mendHome (s : State) (pa : Nat) : State :=
  let unit := 20000 + stackNo pa
  mend s unit pa (fun s => mscOf s (stackNo pa)) (fun s c => setMsc s (stackNo pa) c) fun s b =>
    let (s, w, p) := leavingHome s b pa
    if writeWaits s pa then holdBlock s { pa := pa, value := w, poison := p, launch := b.launch, key := b.key }
    else writePlain s pa w p b.key (bit b.known.toNat (wordIx pa))

/-- Writes the dirty words of a superblock of a memory-side cache to the memory behind it (R133, R141, R144, R367). -/
def mscEvict (s : State) (v : Nat × Blk) : State :=
  let (s, ws) := (v.2.dirtyWords).foldl (fun (a : State × List (Nat × Word × Bool)) i =>
    let pa := v.1 * 256 + 4 * i
    let (s, w, p) := leavingHome a.1 v.2 pa
    (s, a.2 ++ [(pa, w, p)])) (s, [])
  -- words of a block whose procedure runs wait for it (R140), and those of a pseudo-channel for its retraining (R142)
  let (hold, go) := ws.partition fun x => writeWaits s x.1
  let s := hold.foldl (fun s x => holdBlock s { pa := x.1, value := x.2.1, poison := x.2.2, launch := v.2.launch, key := v.2.key }) s
  writePlains s v.2.key go fun pa => bit v.2.known.toNat (wordIx pa)

/-- An agent of no tenant, whose misses no selector counts. -/
def noTenant : Nat := 16

/-- The tenant for which a launch writes. -/
def writerTenant (s : State) (launch : Nat) : Nat := match s.launches.lookup launch with
  | some l => l.tenant
  | none => noTenant

/-- A miss by a tenant in a leader set moves its selector (R134). -/
def countMiss (s : State) (pa tenant : Nat) : State :=
  let set := Level.set .msc (pa / 256) % 512
  let t := tenantOf s tenant
  if tenant ≥ noTenant then s
  else if set = 0 then setTenant s tenant { t with selector := min (t.selector + 1) 1023 }
  else if set = 511 then setTenant s tenant { t with selector := t.selector - 1 }
  else s

/-- The insertion priority of a default-hint allocation (R134), with the B insertions counted. For no tenant the followers use A. -/
def insertPrio (s : State) (pa tenant : Nat) : State × Nat :=
  let set := Level.set .msc (pa / 256) % 512
  if set = 0 ∨ (set ≠ 511 ∧ (tenant ≥ noTenant ∨ (tenantOf s tenant).selector < 512)) then (s, 2)
  else
    let d := dram s (stackNo pa)
    let n := d.bIns + 1
    (setDram s (stackNo pa) { d with bIns := n }, if n % 32 = 0 then 2 else 0)

/-- A request to the host for a line; it leaves on port n[0] of the line's window n (R365). -/
def hostAsk (line : Nat) (ask : Ask) : HostAsk := { line := line, ask := ask, port := windowNo (line * 64) % 2 }

/-- The superblock of a word in its memory-side cache, allocated if need be. A victim with host-held lines stays until the
host has answered a back-invalidate for each (R368). -/
def mscEnsure (s : State) (pa key hint tenant : Nat) : State :=
  let k := stackNo pa
  let sb := pa / 256
  match blk (mscOf s k) sb with
  | some _ => s
  | none =>
    let (s, p) := if hint = 0 then insertPrio s pa tenant else (s, 0)
    let (c, victim) := allocate .msc (mscOf s k) sb (newBlk s.steps hint p key)
    let s := setMsc s k c
    match victim with
    | none => s
    | some v =>
      if hostHolds v.1 v.2 then
        { s with asks := s.asks ++ ((List.range 4).filter fun l => v.2.hostField l != 0 && !(s.asks.any fun a =>
          a.line == v.1 * 4 + l)).map fun l => { hostAsk (v.1 * 4 + l) (.backInvalidate true) with evict := true } }
      else mscEvict s v

/-- The launch that a superblock carries after a write for another, or for none (R381). -/
def Blk.owner (b : Blk) (dirty : Bool) (launch : Nat) : Nat := if dirty && launch != 0 then launch else b.launch

/-- Enters a word in the memory-side cache: a write where it is dirty, else what was read behind it. -/
def mscPut (s : State) (pa : Nat) (w : Word) (poison dirty : Bool) (key hint tenant launch : Nat) : State :=
  let s := mscEnsure s pa key hint tenant
  let k := stackNo pa
  match blk (mscOf s k) (pa / 256) with
  | none => s
  | some b =>
    setMsc s k (setAt (mscOf s k) (pa / 256)
      { (b.enter s.steps dirty (wordIx pa) hint).put (wordIx pa) w (poison || keyGone s key) dirty false with
        launch := b.owner dirty launch, key := key })

/-! ### Homes -/

/-- Performs a write in the memory-side cache of the home, once no procedure runs on its block (R140). One to an extent that is gone is
dropped and logged (R371, R372). -/
def homePut (s : State) (pa : Nat) (w : Word) (poison : Bool) (launch key hint : Nat) : State :=
  if extentGone s pa then logRas s { addr := pa, cls := droppedClass, die := stackNo pa / 2, unit := stackNo pa }
  else if blockBusy s pa then holdBlock s { pa := pa, value := w, poison := poison, launch := launch, key := key, hint := hint }
  else
  let tenant := writerTenant s launch
  let s := if (blk (mscOf s (stackNo pa)) (pa / 256)).isNone then countMiss s pa tenant else s
  let s := mscPut s pa w poison true key hint tenant launch
  match region pa, blk (mscOf s (stackNo pa)) (pa / 256) with
  | .host, some b => setMsc s (stackNo pa) (setAt (mscOf s (stackNo pa)) (pa / 256) (b.setHost (pa / 64 % 4) 2))
  | _, _ => s

/-- The host field of a word's line. -/
def hostField (s : State) (pa : Nat) : Nat :=
  match blk (mscOf s (stackNo pa)) (pa / 256) with
  | some b => b.hostField (pa / 64 % 4)
  | none => 0

def asked (s : State) (pa : Nat) : Bool := s.asks.any fun a => a.line == pa / 64

/-- What the home must ask the host before an access, if anything (R136, R367, R368). -/
def needsAsk (s : State) (pa : Nat) (write : Bool) : Option Ask :=
  match region pa with
  | .dram =>
    if isHC s pa && (if write then hostField s pa != 0 else decide (hostField s pa ≥ 2)) then some (.backInvalidate write) else none
  | .host =>
    if write then (if hostField s pa == 2 then none else some .ownership)
    else if (held (mscOf s (stackNo pa)) pa).isSome then none else some .sharedRead
  | _ => none

/-- An access to a line waits: the host has been asked for it, or must be (R369). -/
def awaits (s : State) (pa : Nat) (write : Bool) : Bool := asked s pa || (needsAsk s pa write).isSome

/-- Asks the host for one line where an access needs it and nothing is asked yet. -/
def askLine (s : State) (pa : Nat) (write : Bool) : State :=
  match needsAsk s pa write with
  | some a => if asked s pa then s else { s with asks := s.asks ++ [hostAsk (pa / 64) a] }
  | none => s

/-- What an access that reads a word and writes it must ask the host: a line of host memory is first read (R367). -/
def needsBoth (s : State) (pa : Nat) : Option Ask :=
  (if region pa == .host then needsAsk s pa false else none).or (needsAsk s pa true)

/-- What a held write must ask the host: a stamp is read first, both words of it. -/
def HeldWrite.needs (s : State) (w : HeldWrite) : Option Ask :=
  if w.stamp.isSome then (needsBoth s w.pa).or (needsBoth s (w.pa + 4)) else needsAsk s w.pa true

/-- An access that reads a word and writes it waits for the host. -/
def awaitsBoth (s : State) (pa : Nat) : Bool := asked s pa || (needsBoth s pa).isSome

def askBoth (s : State) (pa : Nat) : State :=
  match needsBoth s pa with
  | some a => if asked s pa then s else { s with asks := s.asks ++ [hostAsk (pa / 64) a] }
  | none => s

/-- Holds a write behind the host's answer for its line (R369). -/
def holdWrite (s : State) (w : HeldWrite) : State :=
  let s := if asked s w.pa then s else match w.needs s with
    | some a => { s with asks := s.asks ++ [hostAsk (w.pa / 64) a] }
    | none => s
  { s with asks := s.asks.map fun a => if a.line == w.pa / 64 then { a with writes := a.writes ++ [{ w with uid := s.serial }] } else a }

/-- Performs a write at the home, or holds it behind the host's answer, which is performed first (R369). -/
def homePerform (s : State) (pa : Nat) (w : Word) (poison : Bool) (launch key hint writer : Nat) : State :=
  if awaits s pa true then
    holdWrite s { pa := pa, value := w, poison := poison, launch := launch, key := key, hint := hint, writer := writer }
  else homePut s pa w poison launch key hint

/-- Drops a word from every L2 but that of the writing die (`writer` is the die plus one, 0 for none); a copy that is dirty is
first performed at the home by `perform` (R337). -/
def purgeBy (perform : State → HeldWrite → State) (s : State) (pa writer : Nat) : State :=
  (List.range 8).foldl (fun s d =>
    if d + 1 = writer then s
    else match blk (l2Of s d) (pa / 256) with
      | none => s
      | some b =>
        if b.has (wordIx pa) then
          let s := if b.isDirty (wordIx pa) then
              let (s, w, p) := leaving s b pa (10000 + d * 48 + pa / 256 % 48)
              perform s { pa := pa, value := w, poison := p, launch := b.launch, key := b.key, hint := b.lineHint (wordIx pa), writer := d + 1 }
            else s
          setL2 s d (dropWord (l2Of s d) pa)
        else s) s

/-- For a write of the device: the dirty copy waits for the host where the write would. -/
def purgeL2 (s : State) (pa writer : Nat) : State :=
  purgeBy (fun s w => homePerform s w.pa w.value w.poison w.launch w.key w.hint w.writer) s pa writer

/-- For a write or a read of the host: the dirty copy is performed immediately before it (R337, R368). -/
def purgeNow (s : State) (pa : Nat) : State :=
  purgeBy (fun s w => homePut s w.pa w.value w.poison w.launch w.key w.hint) s pa 0

/-- Performs a write at a word's home (R336, R337). -/
def homeWrite (s : State) (pa : Nat) (w : Word) (poison : Bool) (launch key hint writer : Nat) : State :=
  homePerform (purgeL2 s pa writer) pa w poison launch key hint writer

/-- A word of an L2 slice that fails its code when it is read (R382). -/
def mendL2 (s : State) (die pa : Nat) : State :=
  let unit := 10000 + die * 48 + pa / 256 % 48
  mend s unit pa (fun s => l2Of s die) (fun s c => setL2 s die c) fun s b =>
    let (s, w, p) := leaving s b pa unit
    homeWrite s pa w p b.launch b.key (b.lineHint (wordIx pa)) (die + 1)

/-- Runs the block procedure at a home. The words it poisons leave every L2 (R140, R337). -/
def blockAtHome (s : State) (block : Nat) : State × List Nat :=
  let (s, bad) := blockProcedure s block
  ((bad.filter fun pa => (held (mscOf s (stackNo pa)) pa).isNone).foldl (fun s pa =>
    let s := purgeL2 s pa 0
    setMsc s (stackNo pa) (dropWord (mscOf s (stackNo pa)) pa)) s, bad)

/-- Reads one word of the memory behind a home's cache, with the block procedure where the word code calls for it. -/
def readBehind (s : State) (pa key : Nat) : State × Datum :=
  match readPlain s pa key (fun _ => 0) with
  | (s, .word w) => (s, .ok w)
  | (s, .poison) => (s, .poison)
  | (s, .block) =>
    let (s, bad) := blockAtHome s (blockOf pa)
    if bad.contains pa then (s, .uncorr)
    else match readPlain s pa key (fun _ => 0) with
      | (s, .word w) => (s, .ok w)
      | (s, _) => (s, .poison)

/-! ### Format windows -/

/-- The enabled window whose view holds an address (R146). -/
def windowAt (s : State) (pa : Nat) : Option (Nat × Window) :=
  s.windows.find? fun e =>
    let v := if bit e.2.ctl.toNat 5 then 1 else 2
    let base := bits e.2.view.toNat 12 40 * 4096
    bit e.2.ctl.toNat 0 && decide (base ≤ pa ∧ pa < base + bits e.2.ctl.toNat 32 32 * 16384 * v)

/-- Where element `i` of a window is stored: its byte, its scale's, and its group scale's under QC4 (R146). -/
def Window.places (w : Window) (i : Nat) : Nat × Nat × Option Nat :=
  let sfmt := bits w.ctl.toNat 2 3
  let sbase := bits w.sto.toNat 12 40 * 4096
  let cbase := bits w.scl.toNat 12 40 * 4096
  let g := 4096 * ((256 * bits w.ctl.toNat 32 32 + 4095) / 4096)
  (if sfmt == 0 || sfmt == 3 then sbase + i / 2 else sbase + i, if sfmt == 0 then cbase + i / 64 else cbase + 2 * (i / 32),
    if sfmt == 0 then some (cbase + g + 4 * (i / 16384)) else none)

/-- The elements of a view word: the first, and how many. -/
def Window.elems (w : Window) (pa : Nat) : Nat × Nat :=
  let v := if bit w.ctl.toNat 5 then 1 else 2
  ((pa - bits w.view.toNat 12 40 * 4096) / v, 4 / v)

/-- The words that a read of a word at its home reads there: the word, or the storage and the scales behind a view word (R146). -/
def homeSources (s : State) (pa : Nat) : List Nat :=
  if region pa != .view then [pa]
  else match windowAt s pa with
    | none => []
    | some (_, w) => (List.range (w.elems pa).2).flatMap fun k =>
        let p := w.places ((w.elems pa).1 + k)
        [p.1 / 4 * 4, p.2.1 / 4 * 4] ++ p.2.2.toList

/-- The home can perform an access now: no line that it reads or writes waits for the host, and no block procedure runs on its
block (R140, R369). -/
def homeReady (s : State) (pa : Nat) (write : Bool) : Bool :=
  (homeSources s pa).all fun a => !awaits s a write && !blockBusy s a

/-- A read at the home can be performed now outside a burst: no word that it reads behind the cache waits for a retraining (R142). -/
def readableNow (s : State) (pa : Nat) : Bool :=
  homeReady s pa false && (homeSources s pa).all fun a => (held (mscOf s (stackNo a)) a).isSome || !retrains s a

/-- An access that reads a word at its home and writes it can be performed now (R119, R250, R367). -/
def updatableNow (s : State) (pa : Nat) : Bool := homeReady s pa true && !awaitsBoth s pa && readableNow s pa

/-- Asks the host for the lines that an access at a home waits for. -/
def askHost (s : State) (pa : Nat) (write : Bool) : State :=
  (homeSources s pa).foldl (fun s a => askLine s a write) s

/-- A read of the core's view can be served now: its L1 or its die's L2 holds the word, or the home can (R347). -/
def readReady (s : State) (core pa : Nat) : Bool :=
  (held (l1Of s core) pa).isSome || (held (l2Of s (core / 144)) pa).isSome || readableNow s pa

/-- The stored word behind a view, through its home's cache: a read of no tenant with the default hint. -/
def storedVia (s : State) (pa : Nat) : State × Datum :=
  let s := mendHome s pa
  match held (mscOf s (stackNo pa)) pa with
  | some d => (setMsc s (stackNo pa) (touch (mscOf s (stackNo pa)) pa 0), d)
  | none =>
    match readBehind s (pa / 4 * 4) 0 with
    | (s, .ok w) => (mscPut s pa w false false 0 0 noTenant 0, .ok w)
    | (s, .poison) => (mscPut s pa 0 true false 0 0 noTenant 0, .poison)
    | r => r

/-- One decoded element of a view word: none where its storage or its scale is not good (R146). -/
def viewElem (s : State) (w : Window) (i : Nat) : State × Option Nat :=
  let sfmt := bits w.ctl.toNat 2 3
  let view := if bit w.ctl.toNat 5 then e4m3 else bf16
  let four := sfmt == 0 || sfmt == 3
  let (sAddr, cAddr, gAddr) := w.places i
  let (s, d1) := storedVia s (sAddr / 4 * 4)
  let (s, d2) := storedVia s (cAddr / 4 * 4)
  let (s, d3) := match gAddr with
    | some g => storedVia s g
    | none => (s, .ok 0)
  match d1, d2, d3 with
  | .ok a, .ok b, .ok c =>
    let x := if four then bits a.toNat (8 * (sAddr % 4) + 4 * (i % 2)) 4 else bits a.toNat (8 * (sAddr % 4)) 8
    let sc := if sfmt == 0 then bits b.toNat (8 * (cAddr % 4)) 8 else bits b.toNat (8 * (cAddr % 4)) 10
    (s, some (windowElem sfmt view x sc c.toNat))
  | _, _, _ => (s, none)

/-- A word of the format-view aperture (R146, R281). -/
def viewWord (s : State) (pa : Nat) : State × Datum :=
  match windowAt s pa with
  | none => (s, .ok 0)
  | some (_, w) =>
    let v := if bit w.ctl.toNat 5 then 1 else 2
    let (i0, n) := w.elems pa
    let (s, r) := (List.range n).foldl (fun (a : State × Option Nat) k =>
      let (s, e) := viewElem a.1 w (i0 + k)
      (s, match a.2, e with
        | some x, some y => some (x + y * 2 ^ (8 * v * k))
        | _, _ => none)) (s, some 0)
    (s, match r with
      | some x => .ok (BitVec.ofNat 32 x)
      | none => .poison)

/-- The word that a home gives for an address now. -/
def homePeek (s : State) (pa key : Nat) : Datum :=
  match held (mscOf s (stackNo pa)) pa with
  | some d => d
  | none => if region pa == .view then (viewWord s pa).2 else (readCorrected s pa key).2

/-! ### Reads at a home -/

/-- Reads a word at its home: the memory-side cache, or the memory behind it, which then fills the cache (R135). A miss is counted for
`misser` (R134). -/
def homeReadFor (s : State) (pa key hint tenant misser : Nat) : State × Datum :=
  if region pa == .view then viewWord s pa
  else
    let s := mendHome s pa
    match held (mscOf s (stackNo pa)) pa with
    | some d => (setMsc s (stackNo pa) (touch (mscOf s (stackNo pa)) pa hint), d)
    | none =>
      match readBehind (countMiss s pa misser) pa key with
      | (s, .ok w) => (mscPut s pa w false false key hint tenant 0, .ok w)
      | (s, .poison) => (mscPut s pa 0 true false key hint tenant 0, .poison)
      | r => r

/-- A request of one word (R134). -/
def homeRead (s : State) (pa key hint tenant : Nat) : State × Datum := homeReadFor s pa key hint tenant tenant

/-- A device's read of a word at its home. One that has to wait asks the host and marks the step late (R136, R142, R367, R368). -/
def deviceRead (s : State) (pa key hint tenant : Nat) : State × Datum :=
  if readableNow s pa then homeRead s pa key hint tenant
  else
    let (s, d) := homeRead s pa key hint tenant
    ({ askHost s pa false with late := true }, d)

/-! ### L2 and L1 -/

/-- Writes the dirty words of an L2 superblock to their homes (R133). -/
def l2Evict (s : State) (die : Nat) (v : Nat × Blk) : State :=
  (v.2.dirtyWords).foldl (fun s i =>
    let pa := v.1 * 256 + 4 * i
    let (s, w, p) := leaving s v.2 pa (10000 + die * 48 + v.1 % 48)
    homeWrite s pa w p v.2.launch v.2.key (v.2.lineHint i) (die + 1)) s

def l2Ensure (s : State) (die pa key hint : Nat) : State :=
  match blk (l2Of s die) (pa / 256) with
  | some _ => s
  | none =>
    let (c, victim) := allocate .l2 (l2Of s die) (pa / 256) (newBlk s.steps hint 2 key)
    let s := setL2 s die c
    match victim with
    | some v => l2Evict s die v
    | none => s

/-- Enters a word in a die's L2. -/
def l2Put (s : State) (die pa : Nat) (w : Word) (poison dirty : Bool) (key hint launch : Nat) : State :=
  let s := l2Ensure s die pa key hint
  match blk (l2Of s die) (pa / 256) with
  | none => s
  | some b => setL2 s die (setAt (l2Of s die) (pa / 256)
      { (b.enter s.steps dirty (wordIx pa) hint).put (wordIx pa) w (poison || keyGone s key) dirty false with
        launch := b.owner dirty launch, key := key })

/-- A write of a core's word at die scope: it becomes dirty in the L2 slice (R133). -/
def l2Write (s : State) (die pa : Nat) (w : Word) (poison : Bool) (key hint launch : Nat) : State :=
  l2Put s die pa w poison true key hint launch

/-- A word that was read for the slice becomes valid there; a bypassing load allocates no superblock (R12, R132). -/
def l2Fill (s : State) (die pa : Nat) (w : Word) (key hint : Nat) : State :=
  if hint == 3 && (blk (l2Of s die) (pa / 256)).isNone then s else l2Put s die pa w false false key hint 0

/-- Marks a word of a core's L1 clean. -/
def l1Clean (s : State) (core pa : Nat) : State :=
  match blk (l1Of s core) (pa / 256) with
  | some b => setL1 s core (setAt (l1Of s core) (pa / 256) { b with dirty := setBit64 b.dirty (wordIx pa) false, soft := setBit64 b.soft (wordIx pa) false })
  | none => s

/-- Performs a publication at its point (R133). A word for the L2 becomes dirty there; a word for the home updates a valid copy
of the L2 slice, a hit (R132), which is then clean. The core's own copy becomes clean unless it has been written again. A line the host must
answer for first holds the write, and the release completes with the answer (R369). -/
def performPub (s : State) (p : Pub) : State :=
  let s := { s with pubs := s.pubs.filter fun q => q.uid != p.uid }
  let s := if !p.toHome && (p.hint != 3 || (held (l2Of s p.die) p.pa).isSome) then l2Write s p.die p.pa p.w p.poison p.key p.hint p.launch
    else
      let s := homeWrite s p.pa p.w p.poison p.launch p.key p.hint (p.die + 1)
      let s := { s with
        asks := s.asks.map fun a => if a.line == p.pa / 64 then { a with pubs := a.pubs ++ p.waiters } else a
        blocks := s.blocks.map fun b => if b.block == blockOf p.pa then { b with pubs := b.pubs ++ p.waiters } else b }
      if (held (l2Of s p.die) p.pa).isSome then
        match blk (l2Of s p.die) (p.pa / 256) with
        | some b => setL2 s p.die (setAt (l2Of s p.die) (p.pa / 256)
            ((b.hit (wordIx p.pa) p.hint).put (wordIx p.pa) p.w p.poison false false))
        | none => s
      else s
  if heldDirty (l1Of s p.core) p.pa && (held (l1Of s p.core) p.pa == some (.ok p.w) ||
        (p.poison && held (l1Of s p.core) p.pa == some .poison)) &&
      !(s.pubs.any fun q => q.core == p.core && q.pa == p.pa) then l1Clean s p.core p.pa else s

/-- Performs every publication of a core's word that is on its way, oldest first. -/
def performPubs (s : State) (core pa : Nat) : State :=
  (s.pubs.filter fun p => p.core == core && p.pa == pa).foldl performPub s

/-- Writes the dirty words of an L1 superblock to the L2 (R133); a publication of the word on its way is performed first, and
what it carried is not written twice. -/
def l1Evict (s : State) (core : Nat) (v : Nat × Blk) : State :=
  (v.2.dirtyWords).foldl (fun s i =>
    let pa := v.1 * 256 + 4 * i
    let last := ((s.pubs.filter fun p => p.core == core && p.pa == pa).getLast?).map fun p => p.w
    let s := performPubs s core pa
    if last == some (look 0 v.2.words i) then s
    else
      let (s, w, p) := leaving s v.2 pa core
      l2Write s (core / 144) pa w p v.2.key (v.2.lineHint i) v.2.launch) s

/-- A word of an L1 that fails its code when it is read (R382). What a publication on its way has carried is not written twice. -/
def mendL1 (s : State) (core pa : Nat) : State :=
  mend s core pa (fun s => l1Of s core) (fun s c => setL1 s core c) fun s b =>
    let last := ((s.pubs.filter fun p => p.core == core && p.pa == pa).getLast?).map fun p => p.w
    let s := performPubs s core pa
    if last == some (look 0 b.words (wordIx pa)) then logRas (count s core 11) (cacheRas pa core 11 0)
    else
      let (s, w, p) := leaving s b pa core
      l2Write s (core / 144) pa w p b.key (b.lineHint (wordIx pa)) b.launch

def l1Ensure (s : State) (core pa key hint : Nat) : State :=
  match blk (l1Of s core) (pa / 256) with
  | some _ => s
  | none =>
    let (c, victim) := allocate .l1 (l1Of s core) (pa / 256) (newBlk s.steps hint 2 key)
    let s := setL1 s core c
    match victim with
    | some v => l1Evict s core v
    | none => s

/-- Words that a miss of the core may no longer mark valid, since the core has written them (R12). -/
def killMisses (s : State) (core pa : Nat) : State :=
  { s with misses := s.misses.map fun m => if m.core == core && m.sb == pa / 256 then
      { m with install := setBit64 m.install (wordIx pa) false } else m }

/-- The core has read or changed a word beyond its L1: an older clean copy goes, and a fill on its way neither brings it back nor serves a
later read (R113, R340). -/
def outdate (s : State) (core pa : Nat) : State :=
  let s := { s with misses := s.misses.map fun m => if m.core == core && m.sb == pa / 256 then
      { m with install := setBit64 m.install (wordIx pa) false, shut := setBit64 m.shut (wordIx pa) true } else m }
  if heldDirty (l1Of s core) pa || (held (l1Of s core) pa).isNone then s else setL1 s core (dropWord (l1Of s core) pa)

/-- A store of the core to a word whose read is on its way: the read returns what the core has stored, and so does one that joins it
(R12, R13). -/
def storedOver (s : State) (core pa : Nat) (w : Word) : State :=
  { s with
    misses := s.misses.map fun m => if m.core == core && m.sb == pa / 256 && bit m.mask.toNat (wordIx pa) then
      { m with since := setAt m.since (wordIx pa) w } else m
    loads := s.loads.map fun o => if o.core == core then
      { o with words := o.words.map fun x => if x.stage == .flying && x.pa / 4 == pa / 4 then { x with stored := some w } else x } else o }

/-- A word leaves a core's instruction cache. -/
def Core.dropCode (c : Core) (p : Nat → Bool) : Core :=
  if c.icache.isEmpty && c.ibad.isEmpty then c
  else { c with icache := c.icache.filter fun e => !p e.1, ibad := c.ibad.filter fun i => !p i }

/-- A store of one word into the core's L1 (R14): the word becomes valid and dirty, and nothing is read. -/
def l1Write (s : State) (core pa : Nat) (w : Word) (cp : Bool) (key hint launch : Nat) : State :=
  let s := { s with cores := setAt s.cores core ((look {} s.cores core).dropCode fun i => i == pa / 4) }
  let s := l1Ensure (storedOver (killMisses s core pa) core pa w) core pa key hint
  match blk (l1Of s core) (pa / 256) with
  | none => s
  | some b => setL1 s core (setAt (l1Of s core) (pa / 256)
      { (b.enter s.steps true (wordIx pa) hint).put (wordIx pa) w (keyGone s key) true cp with launch := launch, key := key })

/-- A word arrives at the core's L1: it becomes valid unless the L1 already holds it (R12); bypassing loads do not allocate
(R132). -/
def l1Fill (s : State) (core pa : Nat) (w : Word) (poison : Bool) (key hint : Nat) : State :=
  if (held (l1Of s core) pa).isSome then s
  else if hint == 3 && (blk (l1Of s core) (pa / 256)).isNone then s
  else
    let s := l1Ensure s core pa key hint
    match blk (l1Of s core) (pa / 256) with
    | none => s
    | some b => setL1 s core (setAt (l1Of s core) (pa / 256) ((b.enter s.steps false (wordIx pa) hint).put (wordIx pa) w poison false false))

/-- Invalidates every valid word of the core's L1 that is not dirty (R122), and with them its instruction cache. -/
def invalidateClean (s : State) (core : Nat) : State :=
  let c := look {} s.cores core
  let l1 := (c.l1.map fun e => (e.1, (List.range 64).foldl (fun b i =>
    if b.has i && !b.isDirty i then b.clear i else b) e.2)).filter fun e => e.2.valid != 0
  { s with cores := setAt s.cores core { c with l1 := l1, epoch := c.epoch + 1, icache := [], ibad := [] } }

/-- Reads a word as a read at the die's L2 slice sees it: the slice, else the home, which then fills the slice. -/
def l2Read (s : State) (die pa key hint tenant : Nat) : State × Datum :=
  let s := mendL2 s die pa
  match held (l2Of s die) pa with
  | some d => (setL2 s die (touch (l2Of s die) pa hint), d)
  | none =>
    match deviceRead s pa key hint tenant with
    | (s, .ok w) => (l2Fill s die pa w key hint, .ok w)
    | r => r

/-- Reads a word in the core's read view: its L1, else the L2 slice, which then fills the L1. -/
def coreRead (s : State) (core pa key hint tenant : Nat) : State × Datum :=
  let s := mendL1 s core pa
  match held (l1Of s core) pa with
  | some d => (setL1 s core (touch (l1Of s core) pa hint), d)
  | none =>
    match l2Read s (core / 144) pa key hint tenant with
    | (s, .ok w) => (l1Fill s core pa w false key hint, .ok w)
    | r => r

end Sys2Proof.Machine
end

