-- ==== Sys2Proof/Machine/Translate.lean ====
section
/-! DEFINITION. Virtual addresses: canonical form and the scratchpad aperture (R103, R105), the page tables and their walk (R373
to R375), the translation caches (R376), host-managed translation (R377), and the checks of an access (R107, R350). -/

namespace Sys2Proof.Machine

/-- Bits [63:56] all equal bit 56 (R103). -/
def canonicalVa (va : DWord) : Bool := bits va.toNat 56 8 == 0 || bits va.toNat 56 8 == 255

/-- The scratchpad aperture (R105). -/
def inAperture (va : DWord) : Bool := decide (va.toNat ≥ 0xFFFFFFFFFFC00000)
def apertureSlot (va : DWord) : Nat := (va.toNat - 0xFFFFFFFFFFC00000) / 0x40000
def apertureOffset (va : DWord) : Nat := (va.toNat - 0xFFFFFFFFFFC00000) % 0x40000

def pageBytes (size : Nat) : Nat := if size == 0 then 0x10000 else if size == 1 then 0x200000 else 0x40000000

/-- The pages of `n` bytes at `va`: one address in each page of 64 KiB. -/
def pageStarts (va : DWord) (n : Nat) : List DWord :=
  va :: (List.range ((va.toNat % 65536 + n - 1) / 65536)).map fun i => BitVec.ofNat 64 (va.toNat / 65536 * 65536 + 65536 * (i + 1))

/-- A 64-bit table entry as its home holds it (R376). -/
def entryAt (s : State) (pa : Nat) : Option Nat :=
  match homePeek s pa 0, homePeek s (pa + 4) 0 with
  | .ok lo, .ok hi => some (lo.toNat + hi.toNat * 2 ^ 32)
  | _, _ => none

/-- A table entry: the address of the next table (R374, R375). -/
def nextTable (e : Nat) : Option Nat :=
  if bit e 0 && !bit e 1 && bits e 2 11 == 0 && bits e 52 12 == 0 then some (bits e 13 39 * 2 ^ 13) else none

/-- A leaf at level 2 or 3 for the page that holds `va` (R374, R375). -/
def leafAt (s : State) (tenant level va e : Nat) : Option Trans :=
  let size := bits e 8 2
  let frame := bits e 16 36 * 2 ^ 16
  let attr := bits e 2 2
  if bit e 0 && bit e 1 && !bit e 6 && bits e 10 6 == 0 && bits e 62 2 == 0 && attr != 3 &&
      (attr == 2 || bits e 52 10 == 0) && (if level == 2 then size == 2 else decide (size < 2)) &&
      frame % pageBytes size == 0 && assigned s frame then
    some { tenant := tenant, base := va / pageBytes size * pageBytes size, size := size, frame := frame, attr := attr,
           w := bit e 4, x := bit e 5, sealed := bit e 7, owner := bits e 52 10 }
  else none

/-- The other leaves of the group of `n` entries around index `i` of a table whose page, as each describes it, contains `va`
(R373). -/
def groupLeaves (s : State) (tenant level va table i n : Nat) : List Trans :=
  (List.range n).filterMap fun j =>
    let k := i / n * n + j
    if k == i then none
    else match entryAt s (table + 8 * k) with
      | some e => if bits e 8 2 == (if level == 2 then 2 else 1) then leafAt s tenant level va e else none
      | none => none

/-- The translations that a walk may give for `va`, the one its own entry selects first (R373); none where the walk fails. -/
def walk (s : State) (tenant va : Nat) : List Trans :=
  let step := fun (table : Option Nat) lo n => table.bind fun t => (entryAt s (t + 8 * bits va lo n)).bind nextTable
  match step (step (some (tenantOf s tenant).pageRoot) 46 11) 36 10 with
  | none => []
  | some t2 =>
    let i := bits va 26 10
    match entryAt s (t2 + 8 * i) with
    | none => []
    | some e =>
      if bit e 1 then match leafAt s tenant 2 va e with
        | some l => l :: groupLeaves s tenant 2 va t2 i 16
        | none => []
      else match nextTable e with
        | none => []
        | some t3 =>
          let j := bits va 16 10
          match (entryAt s (t3 + 8 * j)).bind (leafAt s tenant 3 va) with
          | some l => l :: groupLeaves s tenant 3 va t3 j 32
          | none => []

/-- The entries that a walk for `va` reads, in order (R373). -/
def walkReads (s : State) (tenant va : Nat) : List Nat :=
  let next := fun (e : Nat) (f : Nat → List Nat) => e :: match (entryAt s e).bind nextTable with
    | some t => f t
    | none => []
  next ((tenantOf s tenant).pageRoot + 8 * bits va 46 11) fun t1 => next (t1 + 8 * bits va 36 10) fun t2 =>
    next (t2 + 8 * bits va 26 10) fun t3 => [t3 + 8 * bits va 16 10]

/-- The first entry of a walk that its home cannot give now: the host has to answer, a block procedure runs, or a retraining (R136, R140,
R142, R376). -/
def walkLate (s : State) (tenant va : Nat) : Option Nat := (walkReads s tenant va).find? fun e => !readableNow s e

/-- One of the translations of a walk: where the leaves of a group differ, which one is a free value (R373). -/
def pickLeaf (s : State) (ls : List Trans) : Option Trans :=
  match ls with
  | [] => none
  | l :: r => if r.all fun x => x == l then some l else (l :: r)[(Config.freeValue s.fresh).toNat % (r.length + 1)]?

def Trans.maps (t : Trans) (tenant va : Nat) : Bool :=
  t.tenant == tenant && decide (t.base ≤ va ∧ va < t.base + pageBytes t.size)

def tlbOf (s : State) (core : Nat) : List Trans := (look {} s.cores core).tlb

/-- What a translation gives. -/
inductive Tr where
  | ok (t : Trans)
  | fail          -- XLATE
  | wait          -- on the host (R136, R377)
  deriving DecidableEq, Repr

/-- A walk for the page is under way on the core's die, which misses of any of its cores share, or a walker of the 64 is free (R376). -/
def walkerFree (s : State) (core tenant va : Nat) : Bool :=
  (s.walks.any fun w => w.core / 144 == core / 144 && w.tenant == tenant && w.va / 65536 == va / 65536) ||
    decide ((s.walks.filter fun w => w.core / 144 == core / 144).length < 64)

/-- The translation of a virtual address for a core: the TLB, the die's cache, or a walk, for which a walker must be free (R376, R377). -/
def translate (s : State) (core tenant va : Nat) : Tr :=
  match (tlbOf s core).find? fun t => t.maps tenant va with
  | some t => .ok t
  | none =>
    match (look [] s.tcache (core / 144)).find? fun t => t.maps tenant va with
    | some t => .ok t
    | none =>
      if (tenantOf s tenant).hostManaged then
        if s.atsDenied.contains (tenant, va / 65536) then .fail else .wait
      else if !walkerFree s core tenant va || (walkLate s tenant va).isSome then .wait
      else match pickLeaf s (walk s tenant va) with
        | some t => .ok t
        | none => .fail

/-- A miss leaves a walk behind that fills the caches (R376), or asks the host (R377). -/
def noteMiss (s : State) (core tenant va : Nat) : State :=
  if ((tlbOf s core).any fun t => t.maps tenant va) || (look [] s.tcache (core / 144)).any fun t => t.maps tenant va then s
  else if (tenantOf s tenant).hostManaged then
    if s.atsDenied.contains (tenant, va / 65536) || s.ats.any fun a => a.tenant == tenant && a.page == va / 65536 then s
    else { s with ats := s.ats ++ [{ tenant := tenant, page := va / 65536, core := core }] }
  else
    let s := match walkLate s tenant va with
      | some e => askHost s e false
      | none => s
    if (s.walks.any fun w => w.core / 144 == core / 144 && w.tenant == tenant && w.va / 65536 == va / 65536) ||
      !walkerFree s core tenant va then s
  else { s with walks := s.walks ++ [{ core := core, tenant := tenant, va := va / 65536 * 65536 }] }

/-- Enters a translation in a core's TLB of 512 entries and its die's cache of 16,384 (R376). -/
def enterTrans (s : State) (core : Nat) (t : Trans) : State :=
  let c := look {} s.cores core
  { s with
    cores := setAt s.cores core { c with tlb := (t :: c.tlb.filter fun x => x != t).take 512 }
    tcache := setAt s.tcache (core / 144) ((t :: (look [] s.tcache (core / 144)).filter fun x => x != t).take 16384) }

/-- The physical core that holds a tenant's logical core number (R287, R288). -/
def coreOfLogical (s : State) (tenant n : Nat) : Option Nat := (tenantOf s tenant).cents[n]?

/-- The kinds of access a page allows or refuses. -/
inductive Acc where
  | read
  | write
  | fetch
  deriving DecidableEq, Repr

/-- Whether a page refuses an access (PROT): a write without W, a fetch without X, a CP page of another core, a write to a format
view (R107, R350, R375). -/
def refuses (s : State) (core tenant : Nat) (t : Trans) (a : Acc) : Bool :=
  (a == .write && (!t.w || region t.frame == .view)) || (a == .fetch && !t.x) ||
    (t.attr == 2 && coreOfLogical s tenant t.owner != some core)

/-- The physical address of `va` under a translation. -/
def Trans.pa (t : Trans) (va : Nat) : Nat := t.frame + (va - t.base)

/-- The slot number plus one that seals a page, or 0 (R144). -/
def Trans.keyOf (t : Trans) : Nat := if t.sealed then t.tenant + 1 else 0

/-- Where an access goes once it has passed its checks. -/
inductive Place where
  | pad (crew offset : Nat)      -- a scratchpad
  | mem (pa key : Nat) (cp : Bool)
  deriving DecidableEq, Repr

/-- The outcome of an address check (R107). -/
inductive Check where
  | go (p : Place)
  | fault (cause : Nat)
  | wait (va : Nat)
  deriving DecidableEq, Repr

/-- An extent under release admits no new access (R371). -/
def extentHeld (s : State) (pa : Nat) : Bool :=
  region pa == .capacity && match extentOf s pa with
    | some e => e.releasing
    | none => false

/-- A refused page request has made an access fault; the next access asks again (R377). -/
def useDenials (s : State) (tenant : Nat) (vas : List DWord) : State :=
  { s with atsDenied := s.atsDenied.filter fun d => !(d.1 == tenant && vas.any fun va => va.toNat % 2 ^ 57 / 65536 == d.2) }

/-- The check of one address of `w` bytes by a team of a band on a core (R107): MALIGN, BOUNDS, XLATE, PROT, in that order. -/
def checkAddr (s : State) (core band : Nat) (w : Nat) (va : DWord) (a : Acc) : Check :=
  if va.toNat % w != 0 then .fault 4
  else if inAperture va then
    match s.crews.lookup (16 * band + apertureSlot va) with
    | some c => if apertureOffset va + w ≤ c.padBytes then .go (.pad (16 * band + apertureSlot va) (apertureOffset va)) else .fault 7
    | none => .fault 7
  else if !canonicalVa va then .fault 5
  else
    let tenant := (look {} s.bands band).tenant
    match translate s core tenant (va.toNat % 2 ^ 57) with
    | .fail => .fault 5
    | .wait => .wait (va.toNat % 2 ^ 57)
    | .ok t =>
      if !assigned s (t.pa (va.toNat % 2 ^ 57)) then .fault 5
      else if extentHeld s (t.pa (va.toNat % 2 ^ 57)) then .wait (va.toNat % 2 ^ 57)
      else if refuses s core tenant t a then .fault 6
      else .go (.mem (t.pa (va.toNat % 2 ^ 57)) t.keyOf (t.attr == 2))

end Sys2Proof.Machine
end

