-- ==== Sys2Proof/Machine/Ops.lean ====
section
/-! DEFINITION. The named operations over a team's registers and the memory it reaches: registers and predicates (R44), places
(R105), stamps (R250), the end of a launch by an error (R150), the retirement of teams, crews and bands (R158, R195), and taking
a trap and restarting a region (R151, R183 to R191). -/

namespace Sys2Proof.Machine

abbrev Out := Host.Outcome State Fault Refusal

/-! ### Registers -/

/-- `S[n]`: s0 reads zero (R44). -/
def Team.rs (t : Team) (n : Nat) : DWord := if n = 0 then 0 else look 0 t.s n
/-- Writes `S[n]`: a write to s0 is discarded (R44). -/
def Team.ws (t : Team) (n : Nat) (x : DWord) : Team := if n = 0 then t else { t with s := putAt 0 t.s n x }
def Team.rv (t : Team) (r L : Nat) : Word := look 0 t.v (1024 * r + L)
def Team.wv (t : Team) (r L : Nat) (w : Word) : Team := { t with v := putAt 0 t.v (1024 * r + L) w }
/-- A wide or a narrow value of a lane (R45). -/
def Team.rw (t : Team) (wide : Bool) (r L : Nat) : Nat :=
  if wide then (t.rv r L).toNat + (t.rv (r + 1) L).toNat * 2 ^ 32 else (t.rv r L).toNat
def Team.ww (t : Team) (wide : Bool) (r L x : Nat) : Team :=
  if wide then (t.wv r L (BitVec.ofNat 32 x)).wv (r + 1) L (BitVec.ofNat 32 (x / 2 ^ 32)) else t.wv r L (BitVec.ofNat 32 x)
/-- `P[n]`: p0 reads true (R44). -/
def Team.rp (t : Team) (n : Nat) : LaneMask := if n = 0 then BitVec.allOnes 1024 else look 0 t.p n
/-- Writes `P[n]`: a write to p0 is discarded (R44). -/
def Team.wp (t : Team) (n : Nat) (m : LaneMask) : Team := if n = 0 then t else { t with p := putAt 0 t.p n m }

/-- A team has at most 32 rows of 32 lanes (R153). -/
def Team.lanes (t : Team) : Nat := 32 * min t.rows 32
/-- The lanes of a mask, ascending. -/
def laneList (t : Team) (m : LaneMask) : List Nat := (List.range t.lanes).filter fun L => bit m.toNat L
def laneMask (p : Nat → Bool) : LaneMask :=
  BitVec.ofNat 1024 ((List.range 1024).foldl (fun a L => if p L then a + 2 ^ L else a) 0)
def teamMask (t : Team) : LaneMask := BitVec.ofNat 1024 (2 ^ t.lanes - 1)

/-- Fields of MODE (R41). -/
def Team.guardReg (t : Team) : Nat := bits t.mode.toNat 22 3
def Team.guardInv (t : Team) : Bool := bit t.mode.toNat 25
def Team.typeCode (t : Team) : Nat := bits t.mode.toNat 18 4
def Team.rndCode (t : Team) : Nat := bits t.mode.toNat 15 3
def Team.sat (t : Team) : Bool := bit t.mode.toNat 14
def Team.ret (t : Team) : Nat := bits t.mode.toNat 12 2
def Team.ftz (t : Team) : Bool := bit t.mode.toNat 11

/-- The guard of every lane (R43). -/
def Team.guard (t : Team) : LaneMask := if t.guardInv then ~~~(t.rp t.guardReg) else t.rp t.guardReg
/-- `for each active lane L` (R3). -/
def Team.present (t : Team) : LaneMask := t.mask &&& t.guard
/-- The vote `P[p][L] XOR inv` over the active lanes (R161). -/
def Team.vote (t : Team) (inv : Bool) (p : Nat) : LaneMask := t.mask &&& (if inv then ~~~(t.rp p) else t.rp p)

/-! ### Full and empty -/

def Team.vIsEmpty (t : Team) (r : Nat) : Bool := bit t.vEmpty.toNat r
def Team.sIsEmpty (t : Team) (r : Nat) : Bool := bit t.sEmpty.toNat r
def Team.emptyV (t : Team) (rs : List Nat) : Team :=
  { t with vEmpty := rs.foldl (fun m r => m ||| BitVec.ofNat 64 (2 ^ r)) t.vEmpty }
def Team.fillV (t : Team) (rs : List Nat) : Team :=
  { t with vEmpty := rs.foldl (fun m r => m &&& ~~~BitVec.ofNat 64 (2 ^ r)) t.vEmpty }
/-- s0 is always full (R47). -/
def Team.emptyS (t : Team) (rs : List Nat) : Team :=
  { t with sEmpty := rs.foldl (fun m r => if r = 0 then m else m ||| BitVec.ofNat 32 (2 ^ r)) t.sEmpty }
def Team.fillS (t : Team) (rs : List Nat) : Team :=
  { t with sEmpty := rs.foldl (fun m r => m &&& ~~~BitVec.ofNat 32 (2 ^ r)) t.sEmpty }

/-- The registers of a group lose their data fault and become full (R110). -/
def Team.unfaultV (t : Team) (rs : List Nat) : Team :=
  { t.fillV rs with vFault := t.vFault.filter fun e => !rs.contains e.1 }
def Team.unfaultS (t : Team) (rs : List Nat) : Team :=
  { t.fillS rs with sFault := t.sFault.filter fun e => !rs.contains e.1 }

def Team.addFlags (t : Team) (f : BitVec 5) : Team := { t with fstat := t.fstat ||| f.setWidth 64 }

/-! ### Units by name -/

def setTeam (s : State) (k : Nat) (t : Team) : State := { s with teams := setAt s.teams k t }
def setCrew (s : State) (k : Nat) (c : Crew) : State := { s with crews := setAt s.crews k c }
def setBand (s : State) (k : Nat) (b : Band) : State := { s with bands := setAt s.bands k b }
def setCore (s : State) (k : Nat) (c : Core) : State := { s with cores := setAt s.cores k c }
def setLaunch (s : State) (k : Nat) (l : Launch) : State := { s with launches := setAt s.launches k l }
def teamOf (s : State) (k : Nat) : Team := look {} s.teams k
def crewOf (s : State) (k : Nat) : Crew := look {} s.crews k
def bandOf (s : State) (k : Nat) : Band := look {} s.bands k
def coreOf (s : State) (k : Nat) : Core := look {} s.cores k
def launchOf (s : State) (k : Nat) : Launch := look {} s.launches k

/-- The crew and the band of a team's name. -/
def crewKey (k : Nat) : Nat := k / 16
def bandKey (k : Nat) : Nat := k / 256

/-- Runs a meaning on the team whose turn it is. -/
def withTeam (s : State) (f : Nat → Team → State) : Out :=
  match s.cur with
  | none => .fault .noTeam
  | some k =>
    match s.teams.lookup k with
    | none => .fault .noTeam
    | some t => .next (f k t)

/-- The team waits: nothing of the instruction happens, and it is tried again at the team's next turn (R48, R310). -/
def waitHere (s : State) : State := { s with stalled := true }

/-- What the issue of any instruction leaves behind (R202, R203, R205): BSKIP, WSKIP and the step's credit are used up, and the
instruction is counted. An age is held as one more than R310's, so that `yield` can put a team behind the others. -/
def Team.issued (t : Team) : Team :=
  { t with dbgctl := BitVec.ofNat 64 (setBits t.dbgctl.toNat 12 2 0), credit := false, count := t.count + 1, release := none, age := 1 }

/-- The instruction completes and the team goes on at `pc`. -/
def Team.goto (t : Team) (pc : DWord) : Team := { t.issued with pc := pc }
def Team.next (t : Team) : Team := t.goto (t.pc + 4)

/-- The instruction has issued and holds its team (R178, R181, R203, R205, R322). -/
def Team.holding (t : Team) (h : Hold) : Team := { t.issued with hold := h }
/-- The hold of the team ends, and it goes on after the instruction. -/
def Team.holdOver (t : Team) : Team := { t with hold := .free, pc := t.pc + 4 }

/-- The team goes on after its instruction with the registers of `t`. -/
def finish (s : State) (k : Nat) (t : Team) : State := setTeam s k t.next

/-! ### On-die codes (R378 to R380, R384) -/

/-- The units of a core's quarters, and of a core itself, in the counters of R384. -/
def quarterUnit (core quarter : Nat) : Nat := 60000 + 4 * core + quarter
def arrayUnit (core : Nat) : Nat := 80000 + core

/-- 24 hours of the timebase (R2, R396). -/
def dayTicks : Nat := 86400 * 10 ^ 9

/-- An on-die error that is not corrected: it is counted and logged, and 1,024 on one core within 24 hours raise the replacement request
and take the core out at the next reset (R384, R385, R396). -/
def lostOnDie (s : State) (unit core part band : Nat) : State :=
  let b := bandOf s band
  let s := logRas (count s unit 9) { cls := 9, die := core / 144, unit := part, tenant := b.tenant, launch := b.launch }
  let ts := (s.tick :: look [] s.rues core).take 1024
  let s := { s with rues := setAt s.rues core ts }
  if ts.length = 1024 ∧ s.tick - ts.getLastD 0 ≤ dayTicks ∧ !s.worn.contains core then
    requestReplacement { s with worn := core :: s.worn }
  else s

/-- The words of an array read: what the code corrects is corrected and counted, and what it cannot is counted. -/
def Ecc.good (e : Ecc) : Bool := e.soft.isEmpty && e.bad.isEmpty
def tendCrew (s : State) (c : Nat) (get : Crew → Ecc) (put : Crew → Ecc → Crew) (hit : Nat → Bool) : State :=
  let e := get (crewOf s c)
  if e.good then s
  else
    let core := (crewOf s c).core
    let s := (e.soft.filter hit).foldl (fun s _ => count s (arrayUnit core) 8) s
    let s := (e.bad.filter hit).foldl (fun s _ => lostOnDie s (arrayUnit core) core (core % 144) (c / 16)) s
    setCrew s c (put (crewOf s c) { e with soft := e.soft.filter fun i => !hit i })

/-- A write of whole words leaves them good. -/
def Ecc.wrote (e : Ecc) (hit : Nat → Bool) : Ecc :=
  if e.good then e else { soft := e.soft.filter fun i => !hit i, bad := e.bad.filter fun i => !hit i }

/-- A scratchpad word, a tile word or an accumulator segment is read. -/
def tendPad (s : State) (c o : Nat) : State := tendCrew s c Crew.padEcc (fun x e => { x with padEcc := e }) fun i => i == o / 4
def tendTile (s : State) (c : Nat) (hit : Nat → Bool) : State := tendCrew s c Crew.tileEcc (fun x e => { x with tileEcc := e }) hit
def tendAcc (s : State) (c : Nat) (hit : Nat → Bool) : State := tendCrew s c Crew.accEcc (fun x e => { x with accEcc := e }) hit

/-- The registers of a team have an error that is not corrected (R379). -/
def lostRegister (s : State) (k : Nat) (t : Team) : State := lostOnDie s (quarterUnit t.core t.quarter) t.core t.quarter (bandKey k)

/-- The corrections of a step in the registers are counted (R378, R384). -/
def countFixes (s : State) : State :=
  if s.teams.all fun e => e.2.fixes == 0 then s
  else
    let s := s.teams.foldl (fun s e => (List.range e.2.fixes).foldl (fun s _ => count s (quarterUnit e.2.core e.2.quarter) 8) s) s
    { s with teams := s.teams.map fun e => (e.1, { e.2 with fixes := 0 }) }

/-! ### Places -/

/-- A scratchpad word as it is delivered (R105, R378). -/
def padDatum (s : State) (c o : Nat) : Datum :=
  if (crewOf s c).padPoison.contains (o / 4) || (crewOf s c).padEcc.bad.contains (o / 4) then .poison
  else .ok (look 0 (crewOf s c).pad (o / 4))

/-- Reads a word at a place in the core's view (R105, R347). -/
def readPlace (s : State) (core : Nat) (tenant hint : Nat) (p : Place) : State × Datum :=
  match p with
  | .pad c o => (tendPad s c o, padDatum s c o)
  | .mem pa key _ =>
    let (s, d) := coreRead s core (pa / 4 * 4) key hint tenant
    (consume s pa d, d)

/-- Writes a scratchpad word (R105). -/
def writePad (s : State) (c o : Nat) (w : Word) : State :=
  let x := crewOf s c
  setCrew s c { x with pad := putAt 0 x.pad (o / 4) w, padPoison := x.padPoison.filter fun i => i != o / 4,
                       padEcc := x.padEcc.wrote fun i => i == o / 4 }

/-- A plain store of one word in the core's view (R14, R105). -/
def storePlace (s : State) (core launch hint : Nat) (p : Place) (w : Word) : State :=
  match p with
  | .pad c o => writePad s c o w
  | .mem pa key cp => l1Write s core (pa / 4 * 4) w cp key hint launch

def Place.plus (p : Place) (n : Nat) : Place :=
  match p with
  | .pad c o => .pad c (o + n)
  | .mem pa key cp => .mem (pa + n) key cp

/-- Two words as one 64-bit value, or the first fault of the two. -/
def joinData (lo hi : Datum) : Datum × DWord :=
  match lo, hi with
  | .ok a, .ok b => (.ok a, b ++ a)
  | .ok _, d => (d, 0)
  | d, _ => (d, 0)

/-- The cause code of a data fault (R183). -/
def Datum.cause : Datum → Nat
  | .ok _ => 0
  | .poison => 8
  | .uncorr => 9
  | .loss => 13

/-! ### Accesses at a point of coherence -/

/-- Whether the point of a scope is the home, the L2 slice or the L1 (R121). -/
def pointOf (scope : Nat) : Point := if scope ≤ 1 then .l1 else if scope ≤ 3 then .l2 else .home

/-- Reads a word at a point, for an agent on a die (R121, R403). -/
def pointRead (s : State) (p : Point) (core pa key hint tenant : Nat) : State × Datum :=
  let (s, d) := match p with
    | .l1 => coreRead s core pa key hint tenant
    | .l2 => l2Read s (core / 144) pa key hint tenant
    | .home =>
      let s := if heldDirty (l2Of s (core / 144)) pa then purgeL2 s pa 0 else s
      deviceRead s pa key hint tenant
  (consume s pa d, d)

/-- Writes a word at a point (R121, R337). A write at the home drops every L2 copy. -/
def pointWrite (s : State) (p : Point) (core pa : Nat) (w : Word) (cp : Bool) (key hint launch : Nat) : State :=
  match p with
  | .l1 => l1Write s core pa w cp key hint launch
  | .l2 => l2Write s (core / 144) pa w false key hint launch
  | .home => homeWrite s pa w false launch key hint 0

/-- The stamp after an update with SEQ (R250). -/
def stampValue (old seq : DWord) (err : Bool) : DWord :=
  let o := old.toNat % 2 ^ 63
  let q := seq.toNat % 2 ^ 63
  BitVec.ofNat 64 ((if (o + 2 ^ 63 - q) % 2 ^ 63 < 2 ^ 62 then o else q) + (if bit old.toNat 63 || err then 2 ^ 63 else 0))

/-- What follows a stamp is left to the graph walker (R241, R262). -/
def follow (s : State) (after : Option Walking) : State := { s with walking := s.walking ++ after.toList }

/-- Updates the stamp at two adjacent words of a point, indivisibly (R250), and then does what follows it. At a home it is held while its
line waits for the host (R369), or its block for a procedure or a retraining (R140, R142). A stamp that is poisoned stays as it is: its
update, like an atomic's (R110), is not performed, and no write covers it (R383). -/
def stampAt (s : State) (p : Point) (core : Nat) (pl : Place) (seq : DWord) (err : Bool) (tenant launch : Nat)
    (after : Option Walking := none) : State :=
  match pl with
  | .pad c o =>
    let (d, old) := joinData (padDatum s c o) (padDatum s c (o + 4))
    let s := tendPad (tendPad s c o) c (o + 4)
    let new := stampValue old seq err
    follow (if d.cause ≠ 0 then s else writePad (writePad s c o (new.setWidth 32)) c (o + 4) ((new >>> 32).setWidth 32)) after
  | .mem pa key _ =>
    if p == .home && (awaitsBoth s pa || awaitsBoth s (pa + 4)) then
      holdWrite (purgeL2 (purgeL2 s pa 0) (pa + 4) 0) { pa := pa, launch := launch, key := key, stamp := some (seq, err), after := after }
    else if p == .home && (blockBusy s pa || !readableNow s pa || !readableNow s (pa + 4)) then
      holdBlock (purgeL2 (purgeL2 s pa 0) (pa + 4) 0) { pa := pa, launch := launch, key := key, stamp := some (seq, err), after := after }
    else
    let (s, lo) := pointRead s p core pa key 0 tenant
    let (s, hi) := pointRead s p core (pa + 4) key 0 tenant
    let (d, old) := joinData lo hi
    let new := stampValue old seq err
    follow (if d.cause ≠ 0 then s else pointWrite (pointWrite s p core pa (new.setWidth 32) false key 0 launch) p core (pa + 4)
      ((new >>> 32).setWidth 32) false key 0 launch) after

/-- Performs a write that a home has held: a word, or the update of a stamp with the value that its place then holds (R250, R369). -/
def performHeld (s : State) (w : HeldWrite) : State :=
  match w.stamp with
  | none => homePerform s w.pa w.value w.poison w.launch w.key w.hint w.writer
  | some (seq, err) =>
    if awaitsBoth s w.pa || awaitsBoth s (w.pa + 4) then holdWrite s w
    else if blockBusy s w.pa || !readableNow s w.pa || !readableNow s (w.pa + 4) then holdBlock s w
    else
      let (s, lo) := homeRead s w.pa w.key 0 (writerTenant s w.launch)
      let (s, hi) := homeRead s (w.pa + 4) w.key 0 (writerTenant s w.launch)
      let s := consume (consume s w.pa lo) (w.pa + 4) hi
      let (d, old) := joinData lo hi
      let new := stampValue old seq err
      follow (if d.cause ≠ 0 then s else
        homePut (homePut s w.pa (new.setWidth 32) false w.launch w.key 0) (w.pa + 4) ((new >>> 32).setWidth 32) false w.launch w.key 0) w.after

/-- The check of an engine's access: as a core of the engine's die, under the tenant (R403). A CP page fails with PROT (R350). -/
def engineCheck (s : State) (die tenant w : Nat) (va : DWord) (a : Acc) : Check :=
  if va.toNat % w != 0 then .fault 4
  else if inAperture va then .fault 7
  else if !canonicalVa va then .fault 5
  else match translate s (144 * die) tenant (va.toNat % 2 ^ 57) with
    | .fail => .fault 5
    | .wait => .wait (va.toNat % 2 ^ 57)
    | .ok t =>
      if !assigned s (t.pa (va.toNat % 2 ^ 57)) then .fault 5
      else if extentHeld s (t.pa (va.toNat % 2 ^ 57)) then .wait (va.toNat % 2 ^ 57)
      else if refuses s (144 * die) tenant t a || t.attr == 2 then .fault 6
      else .go (.mem (t.pa (va.toNat % 2 ^ 57)) t.keyOf false)

/-- Writes a stamp named by its virtual address at its point, where its page translates (R249, R250). Where the host has yet to
translate the page, the stamp is owed (R377). -/
def stampOwed (s : State) (o : Owed) : State :=
  match engineCheck s o.die o.tenant 8 o.va .write with
  | .go p => stampAt s (if o.l2 then .l2 else .home) (144 * o.die) p o.seq o.err o.tenant o.launch o.after
  | .wait va => { noteMiss s (144 * o.die) o.tenant va with owed := s.owed ++ [o] }
  | .fault _ => follow s o.after

/-! ### Steps that are taken back -/

/-- Carries out an act of an engine, of a walker or of a scheduler. Where one of its accesses has to wait for the host, nothing of it
takes place but what was asked of the host, and it is tried again later: false. -/
def attempt (s : State) (f : State → State) : State × Bool :=
  let r := f { s with late := false }
  if r.late then
    ({ s with asks := s.asks ++ (r.asks.drop s.asks.length).map fun a => { a with writes := [] }, ats := r.ats, walks := r.walks }, false)
  else (r, true)

/-! ### Ending and retiring -/

/-- Removes a team: its registers, and what it has in flight (R195). -/
def dropTeam (s : State) (k : Nat) : State :=
  { s with
    teams := drop s.teams k
    loads := s.loads.filter fun l => l.team != k
    producers := s.producers.filter fun p => p.team != k
    millJobs := s.millJobs.filter fun p => p.team != k
    cores := s.cores.map fun e => (e.1, { e.2 with tabSwap := e.2.tabSwap.filter fun x => x != k, tabWait := e.2.tabWait.filter fun x => x != k })
    cur := if s.cur = some k then none else s.cur }

def dropCrew (s : State) (k : Nat) : State :=
  let c := crewOf s k
  let core := coreOf s c.core
  let s := setCore s c.core { core with queue := core.queue.filter fun q => q.crew != k }
  { s with crews := drop s.crews k }

/-- Bands end: the image loads of their `tbld`s end with them (R100). -/
def endBands (s : State) (bs : List Nat) : State :=
  { s with
    bands := s.bands.filter fun e => !bs.contains e.1
    cores := s.cores.map fun e => (e.1, { e.2 with tabLoads := e.2.tabLoads.filter fun x => !bs.contains (bandKey x.1) }) }

/-- Removes every band of a launch with its crews and teams. -/
def dropBands (s : State) (p : Nat → Band → Bool) : State :=
  let bs := (s.bands.filter fun e => p e.1 e.2).map fun e => e.1
  let s := ((s.teams.filter fun e => bs.contains (bandKey e.1)).map fun e => e.1).foldl dropTeam s
  let s := ((s.crews.filter fun e => bs.contains (e.1 / 16)).map fun e => e.1).foldl dropCrew s
  endBands s bs

/-- The graph node of a launch completes, or fails (R262, R263). -/
def Launch.node (x : Launch) (err : Bool) : Option Walking :=
  if bit (x.packet.getD 0 0).toNat 9 then some (.complete x.tenant x.die (x.packet.getD 7 0) err) else none

/-- The stamp of a launch packet, W4 and W5, at device scope (R260), and its graph node after it. -/
def launchStamp (s : State) (l : Nat) (err : Bool) : State :=
  let x := launchOf s l
  stampOwed s { die := x.die, tenant := x.tenant, va := x.packet.getD 4 0, seq := x.packet.getD 5 0, err := err, after := x.node err }

/-- A launch ends with an error completion (R150): its bands stop, the stamp is written with ERR, vector 1 is raised, and the
record is kept for the management interface. -/
def errorCompletion (s : State) (r : ErrRec) : State :=
  let x := launchOf s r.launch
  if x.ended then s
  else
    let s := dropBands s fun _ b => b.launch == r.launch
    let s := setLaunch s r.launch { x with ended := true }
    let s := launchStamp s r.launch true
    let s := raiseVector s x.tenant 1
    { s with errors := setAt s.errors r.launch r }

/-- Writes the stamps that are owed where it can, and ends the launches that an event outside their teams ends (R382). -/
def settle (s : State) : State :=
  let s := countFixes s
  let s := s.owed.foldl stampOwed { s with owed := [], late := false }
  s.dooms.foldl (fun s d => errorCompletion s { launch := d.1, kind := 2, cause := d.2.1, addr := d.2.2 }) { s with dooms := [] }

/-- The band barrier with one arrival fewer to wait for (R181). -/
def Band.arrive (b : Band) : Band :=
  if b.bneed ≤ 1 then { b with bneed := b.liveTeams, bphase := b.bphase + 1 } else { b with bneed := b.bneed - 1 }

/-- A team that has no lane left retires; its crew, its band and its launch follow when it was their last (R158, R195, R346). -/
def retireTeam (s : State) (k : Nat) : State :=
  let bk := bandKey k
  let b := bandOf s bk
  let s := dropTeam s k
  let s := setBand s bk ({ b with liveTeams := b.liveTeams - 1 } : Band)
  let b := bandOf s bk
  -- the exit of the last team that had not arrived completes the phase (R181)
  let s := setBand s bk (if b.bneed ≤ 1 then { b with bneed := b.liveTeams, bphase := b.bphase + 1 } else { b with bneed := b.bneed - 1 })
  if s.teams.any fun e => crewKey e.1 == crewKey k then s
  else
    let s := dropCrew s (crewKey k)
    if s.crews.any fun e => e.1 / 16 == bk then s
    else
      let s := endBands s [bk]
      let x := launchOf s b.launch
      setLaunch s b.launch { x with
        retired := x.retired + 1
        stages := x.stages.zipIdx.map fun g => if g.2 == b.stage then { g.1 with retired := g.1.retired + 1 } else g.1 }

/-! ### Traps -/

/-- A producer of the team is outstanding (R49). -/
def outstanding (s : State) (k : Nat) : Bool :=
  (s.loads.any fun l => l.team == k) || (s.producers.any fun p => p.team == k) || s.millJobs.any fun p => p.team == k

/-- The 16 bytes of a fault record as four words (R189). -/
def recWords (r : Rec) (seq : Nat) : List Word :=
  [r.addr.setWidth 32, (r.addr >>> 32).setWidth 32,
    BitVec.ofNat 32 (r.lane + r.cause * 2 ^ 16 + r.flags.toNat * 2 ^ 24), BitVec.ofNat 32 seq]

/-- Writes the records of a trap at FRECB as plain stores (R189), or says why one of them cannot be written. -/
def writeRecs (s : State) (k : Nat) (t : Team) (recs : List Rec) (seq : Nat) : Nat → Except Check State
  | i => match recs with
    | [] => .ok s
    | r :: rest =>
      match checkAddr s t.core (bandKey k) 16 (t.frecb + BitVec.ofNat 64 (16 * i)) .write with
      | .go p =>
        let (s, _) := (recWords r seq).foldl (fun (a : State × Nat) w =>
          (storePlace a.1 t.core (bandOf a.1 (bandKey k)).launch 0 (p.plus a.2) w, a.2 + 4)) (s, 0)
        writeRecs s k t rest seq (i + 1)
      | c => .error c

def Team.inh (t : Team) : Bool := bit t.tstat.toNat 0
/-- RGST.OPEN and RGST.TRIES (R175). -/
def Team.regionOpen (t : Team) : Bool := bit t.rgst.toNat 0
def Team.tries (t : Team) : Nat := bits t.rgst.toNat 1 2
def Team.closeRegion (t : Team) : Team := { t with rgst := t.rgst &&& ~~~1 }

/-- The error record of a team's trap (R150). -/
def trapErr (s : State) (k : Nat) (t : Team) : ErrRec :=
  { launch := (bandOf s (bandKey k)).launch, band := (bandOf s (bandKey k)).index, crew := (crewOf s (crewKey k)).index,
    team := k % 16, frecb := t.frecb }

/-- A trap raised in a handler (R187). -/
def doubleTrap (s : State) (k : Nat) (t : Team) (cause : Nat) (pc : DWord) : State :=
  errorCompletion s { trapErr s k t with kind := 1, cause := t.tcause.toNat, pc := t.tepc, cause2 := cause, pc2 := pc }

/-- Trap entry once no producer is outstanding (R151, R185). A record whose write faults makes it a double trap (R190); one whose
page the host has yet to translate holds it back. -/
def enterTrap (s : State) (k : Nat) (t : Team) (q : TrapReq) : State :=
  let seq := (t.tstat.toNat / 2 ^ 32 + 1) % 2 ^ 32
  match writeRecs s k t (q.recs.take 64) seq 0 with
  | .error (.fault c) => errorCompletion s { trapErr s k t with kind := 1, cause := q.cause, pc := q.tepc, cause2 := c, pc2 := q.tepc }
  | .error (.wait va) =>
    setTeam (noteMiss s t.core (bandOf s (bandKey k)).tenant va) k { t with trapping := some q, release := none }
  | .error (.go _) => s
  | .ok s =>
    if t.tvec = 0 then errorCompletion s { trapErr s k t with kind := 0, cause := q.cause, pc := q.tepc }
    else setTeam s k { t.closeRegion with
      tepc := q.tepc
      tcause := BitVec.ofNat 64 q.cause
      frcnt := BitVec.ofNat 64 (min q.recs.length 64)
      frlost := BitVec.ofNat 64 (q.recs.length - 64)
      tsmode := t.mode
      tsjpc := t.jpc
      tsmask := t.mask
      tsstack := t.stack
      tsspilled := t.spilled
      tscfd := t.cfd
      tstat := BitVec.ofNat 64 (1 + seq * 2 ^ 32)
      mode := 0
      cfd := 0
      jpc := 0
      stack := []
      spilled := 0
      pc := t.tvec
      hold := .free
      release := none
      credit := false
      dbgctl := BitVec.ofNat 64 (setBits t.dbgctl.toNat 12 2 0)
      trapping := none }

/-- Drops the newest entries beyond a count of `n` entries in all (R191). -/
def Team.cutStack (t : Team) (n : Nat) : Team :=
  { t with stack := t.stack.drop (t.stack.length + t.spilled - n), spilled := min t.spilled n }

/-- The lanes that a producer wrote before its fault was met hold again what they held before it (R191). -/
def Team.undo (t : Team) (f : DataFault) : Team := { t with v := f.old.foldl (fun v e => putAt 0 v e.1 e.2) t.v }

/-- The lanes that a team's own masks are held to: the live lanes, and in a handler every lane of the team (R152). -/
def Team.limit (t : Team) : LaneMask := if t.inh then teamMask t else t.live &&& teamMask t

/-- The restart of an open region (R191). -/
def restartRegion (s : State) (k : Nat) (t : Team) : State :=
  let t := t.vFault.foldl (fun t e => t.undo e.2) t
  let t := (t.unfaultV (t.vFault.map fun e => e.1)).unfaultS (t.sFault.map fun e => e.1)
  let t := t.cutStack (bits t.rgst.toNat 16 16)
  setTeam s k { t with
    cfd := BitVec.ofNat 16 (bits t.rgst.toNat 32 16)
    mask := t.rgmask &&& t.limit
    jpc := 0
    rgst := BitVec.ofNat 64 (setBits t.rgst.toNat 1 2 (t.tries + 1))
    pc := t.rgpc
    hold := .free
    release := none
    credit := false
    dbgctl := BitVec.ofNat 64 (setBits t.dbgctl.toNat 12 2 0)
    trapping := none }

/-- Whether a cause restarts the open region: PIPE, POISON and UNCORR, at most three times (R191). -/
def Team.restarts (t : Team) (cause : Nat) : Bool :=
  t.regionOpen && (cause == 10 || cause == 8 || cause == 9) && decide (t.tries < 3)

/-- The team as the delivery of a vector register's data fault leaves it (R110, R191). -/
def Team.deliverV (t : Team) (f : DataFault) : Team :=
  if t.restarts f.cause then (t.unfaultV f.regs).undo f else t.unfaultV f.regs

/-- A trap that no producer holds back any more: a restart, a double trap or an entry. -/
def takeTrap (s : State) (k : Nat) (t : Team) (q : TrapReq) : State :=
  if t.restarts q.cause then restartRegion s k t
  else if t.inh then doubleTrap s k t q.cause q.tepc
  else enterTrap s k t q

/-- A team that traps or stops leaves the order of the core's `tbld`s and `tbsw`s (R100, R101): the instruction had no effect. -/
def leaveTables (s : State) (core k : Nat) : State :=
  let c := coreOf s core
  if c.tabWait.contains k || c.tabSwap == some k then
    setCore s core { c with tabWait := c.tabWait.filter fun x => x != k, tabSwap := c.tabSwap.filter fun x => x != k }
  else s

/-- Raises a trap: it waits for the team's producers (R185). -/
def raiseAt (s : State) (k : Nat) (t : Team) (cause : Nat) (recs : List Rec) (tepc : DWord) : State :=
  let s := leaveTables s t.core k
  let q : TrapReq := { cause := cause, recs := recs, tepc := tepc }
  if outstanding s k then setTeam s k { t with trapping := some q, release := none } else takeTrap s k t q

/-- A precise trap at the current instruction (R161: it has no effect). -/
def raise (s : State) (k : Nat) (t : Team) (cause : Nat) (recs : List Rec) : State := raiseAt s k t cause recs t.pc

/-- A trap that an instruction meets once its registers have let it go: the team is as the state has it, without what the
instruction would have written, and a fault that a destination carries stays held (R4, R80, R110). -/
def refuse (s : State) (k : Nat) (cause : Nat) (recs : List Rec) : State := raise s k (teamOf s k) cause recs

/-- `Record(L, cause, addr)` (R3). -/
def record (L cause : Nat) (addr : DWord) : Rec := { lane := L, cause := cause, addr := addr }

/-- A trap with one record for lane 0. -/
def raise1 (s : State) (k : Nat) (t : Team) (cause : Nat) (value : DWord) : State := raise s k t cause [record 0 cause value]

/-- Such a trap with one record for lane 0. -/
def refuse1 (s : State) (k : Nat) (cause : Nat) (value : DWord) : State := refuse s k cause [record 0 cause value]

/-- The cause codes of R183. -/
def cILLOP : Nat := 0x01
def cPRIV : Nat := 0x02
def cEMPTY : Nat := 0x03
def cMALIGN : Nat := 0x04
def cXLATE : Nat := 0x05
def cPROT : Nat := 0x06
def cBOUNDS : Nat := 0x07
def cPOISON : Nat := 0x08
def cUNCORR : Nat := 0x09
def cPIPE : Nat := 0x0A
def cDIVU : Nat := 0x0B
def cUNSORT : Nat := 0x0C
def cLOSS : Nat := 0x0D
def cMWTO : Nat := 0x0E
def cSTKOV : Nat := 0x0F
def cSWTRAP : Nat := 0x10
def cBREAK : Nat := 0x11
def cDIVZ : Nat := 0x12
def cFPEXC : Nat := 0x13

/-- ILLOP writes no record (R190). -/
def illop (s : State) (k : Nat) (t : Team) : State := raise s k t cILLOP []

end Sys2Proof.Machine
end

