-- ==== Sys2Proof/Machine/Operands.lean ====
section
/-! DEFINITION. How an instruction reads its operands and writes its results: register budgets (R45, R46), full and empty
registers and the faults they carry (R48, R49, R110, R183, R184, R379), the checkers (R192, R193) and the floating flags (R73). -/

namespace Sys2Proof.Machine

/-- The registers an instruction reads, with their t bits, the predicates it reads, and the registers it writes. `lanes` are the
lanes of the vector registers and predicates that it writes. `rows` names the rows of its vector sources, as register and row, where
they are not those of the active lanes. -/
structure Use where
  srcV : List (Nat × Bool) := []
  srcS : List (Nat × Bool) := []
  preds : List Nat := []
  dstV : List Nat := []
  dstP : List Nat := []
  dstS : List Nat := []
  lanes : LaneMask := 0
  rows : Option (List (Nat × Nat)) := none

/-- What the registers let an instruction do. -/
inductive Gate where
  | go (t : Team)
  | wait
  | trap (t : Team) (cause : Nat) (recs : List Rec) (upset : Bool)   -- whether a register failed its code (R379)

/-- A vector register a field names: even for a wide value (R45), within the budget (R46). -/
def Team.okV (t : Team) (wide : Bool) (r : Nat) : Bool :=
  if wide then r % 2 == 0 && decide (r + 1 < t.vregs) else decide (r < t.vregs)

/-- The registers of a value. -/
def pair (wide : Bool) (r : Nat) : List Nat := if wide then [r, r + 1] else [r]

/-- The lanes of one row of a mask, and what a write of those lanes does to the row-register: it leaves it alone, merges into it
or replaces it (R46). -/
def rowBits (m : LaneMask) (row : Nat) : Nat := bits m.toNat (32 * row) 32
def merges (m : LaneMask) (row : Nat) : Bool := rowBits m row != 0 && rowBits m row != 2 ^ 32 - 1
def replaces (m : LaneMask) (row : Nat) : Bool := rowBits m row == 2 ^ 32 - 1

/-- The records of a vector register, or of a predicate, of which a row that `hit` names fails its code (R379). -/
def upsetRecs (t : Team) (ups : List Nat) (hit : Nat → Bool) (r : Nat) : List Rec :=
  ((List.range t.rows).filter fun row => ups.contains (32 * r + row) && hit row).flatMap
    fun row => (List.range 32).map fun l => record (32 * row + l) cUNCORR 0

/-- The rows that a source is read in: those of an active lane, unless the instruction names its rows. -/
def Team.rowActive (t : Team) (row : Nat) : Bool := rowBits t.mask row != 0
def Use.readsRow (u : Use) (t : Team) (r row : Nat) : Bool :=
  match u.rows with
  | some l => l.contains (r, row)
  | none => t.rowActive row

/-- A vector register, or a scalar, can be read now: it is full, carries no fault and passes its code. -/
def Team.vReadable (t : Team) (r : Nat) : Bool :=
  !t.vIsEmpty r && (t.vFault.lookup r).isNone && (upsetRecs t t.upsetV t.rowActive r).isEmpty
def Team.sReadable (t : Team) (r : Nat) : Bool := !t.sIsEmpty r && (r == 0 || ((t.sFault.lookup r).isNone && !t.upsetS.contains r))

/-- The first source that cannot be read at all: one that carries a data fault, or fails its code. -/
def sourceFault (t : Team) (u : Use) : Option (Team × Nat × List Rec × Bool) :=
  match u.srcV.findSome? fun r => t.vFault.lookup r.1 with
  | some f => some (t.deliverV f, f.cause, f.recs, false)
  | none =>
  match u.srcS.findSome? fun r => if r.1 = 0 then none else t.sFault.lookup r.1 with
  | some f => some (t.unfaultS f.regs, f.cause, f.recs, false)
  | none =>
  match u.srcV.find? fun r => !(upsetRecs t t.upsetV (u.readsRow t r.1) r.1).isEmpty with
  | some r => some (t, cUNCORR, upsetRecs t t.upsetV (u.readsRow t r.1) r.1, true)
  | none =>
  match u.srcS.find? fun r => r.1 ≠ 0 && t.upsetS.contains r.1 with
  | some _ => some (t, cUNCORR, [record 0 cUNCORR 0], true)
  | none =>
  match u.preds.find? fun p => !(upsetRecs t t.upsetP t.rowActive p).isEmpty with
  | some p => some (t, cUNCORR, upsetRecs t t.upsetP t.rowActive p, true)
  | none => none

/-- A write covers the whole of every register that carries the fault (R184). -/
def Use.whole (u : Use) (t : Team) (f : DataFault) : Bool :=
  (u.lanes &&& teamMask t == teamMask t) && f.regs.all fun r => u.dstV.contains r

/-- A destination whose partial write would merge into a faulty register (R184, R379). -/
def destFault (t : Team) (u : Use) : Option (Team × Nat × List Rec × Bool) :=
  if u.lanes == 0 then none
  else match u.dstV.findSome? fun r => (t.vFault.lookup r).bind fun f => if u.whole t f then none else some f with
  | some f => some (t.deliverV f, f.cause, f.recs, false)
  | none =>
    match u.dstV.find? fun r => !(upsetRecs t t.upsetV (merges u.lanes) r).isEmpty with
    | some r => some (t, cUNCORR, upsetRecs t t.upsetV (merges u.lanes) r, true)
    | none =>
    match u.dstP.find? fun p => !(upsetRecs t t.upsetP (merges u.lanes) p).isEmpty with
    | some p => some (t, cUNCORR, upsetRecs t t.upsetP (merges u.lanes) p, true)
    | none => none

/-- What the code corrects in the registers that an instruction reads, or merges into; a row-register that it replaces holds no error
any more (R46, R378). -/
def Use.fix (u : Use) (t : Team) : Team :=
  if t.softV.isEmpty && t.softS.isEmpty && t.softP.isEmpty then t
  else
    let v := fun r => decide (r % 32 < t.rows) &&
      ((u.readsRow t (r / 32) (r % 32) && u.srcV.any fun x => x.1 == r / 32) || (merges u.lanes (r % 32) && u.dstV.contains (r / 32)))
    let x := fun r => u.srcS.any fun y => y.1 == r
    let p := fun r => decide (r % 32 < t.rows) &&
      ((t.rowActive (r % 32) && u.preds.contains (r / 32)) || (merges u.lanes (r % 32) && u.dstP.contains (r / 32)))
    { t with
      fixes := t.fixes + (t.softV.filter v).length + (t.softS.filter x).length + (t.softP.filter p).length
      softV := t.softV.filter fun r => !v r && !(replaces u.lanes (r % 32) && u.dstV.contains (r / 32))
      softS := t.softS.filter fun r => !x r && !u.dstS.contains r
      softP := t.softP.filter fun r => !p r && !(replaces u.lanes (r % 32) && u.dstP.contains (r / 32)) }

/-- The team as a write leaves it: a fault that the write covers is discarded, and the register is full (R184, R379). -/
def Use.clean (u : Use) (t : Team) : Team :=
  let v := if u.lanes == 0 then [] else u.dstV.filter fun r => (t.vFault.lookup r).isSome
  let t := if v.isEmpty then t else t.unfaultV v
  let w := u.dstS.filter fun r => (t.sFault.lookup r).isSome
  let t := if w.isEmpty then t else t.unfaultS w
  let t := if t.upsetS.isEmpty then t else { t with upsetS := t.upsetS.filter fun r => !u.dstS.contains r }
  let t := if t.upsetP.isEmpty then t else { t with upsetP := t.upsetP.filter fun r => !(replaces u.lanes (r % 32) && u.dstP.contains (r / 32)) }
  let t := if t.upsetV.isEmpty then t else { t with upsetV := t.upsetV.filter fun r => !(replaces u.lanes (r % 32) && u.dstV.contains (r / 32)) }
  u.fix t

/-- The registers' say on an instruction: a data fault of a source at rank 4, EMPTY at rank 5, then the waits (R48, R49, R183). -/
def gate (t : Team) (u : Use) : Gate :=
  match sourceFault t u with
  | some (t', c, rs, x) => .trap t' c rs x
  | none =>
  match destFault t u with
  | some (t', c, rs, x) => .trap t' c rs x
  | none =>
    if (u.srcV.any fun r => r.2 && t.vIsEmpty r.1) || u.srcS.any fun r => r.2 && t.sIsEmpty r.1 then .trap t cEMPTY [] false
    else if (u.srcV.any fun r => t.vIsEmpty r.1) || u.srcS.any fun r => t.sIsEmpty r.1 then .wait
    else if (u.lanes != 0 && u.dstV.any fun r => t.vIsEmpty r && (t.vFault.lookup r).isNone) ||
        (u.dstS.any fun r => t.sIsEmpty r && (t.sFault.lookup r).isNone) then .wait
    else .go (u.clean t)

/-- Runs a body once the registers let it. -/
def gated (s : State) (k : Nat) (t : Team) (u : Use) (body : Team → State) : State :=
  match gate t u with
  | .go t' => body t'
  | .wait => waitHere s
  | .trap t' c rs x => raise (if x then lostRegister s k t else s) k t' c rs

/-- The vector sources of a value and its t bit. -/
def srcsV (wide : Bool) (r : Nat) (t : Bool) : List (Nat × Bool) := (pair wide r).map fun x => (x, t)

/-- A checker's id: the unit, and the pipe (R193). -/
def pipeId (unit pipe : Nat) : DWord := BitVec.ofNat 64 (unit + pipe * 256)

/-- A failed check of a vector result traps PIPE for each lane that failed, and nothing is written (R192, R193). An error strikes the
teams of the quarter whose pipe it names. Unit 0 stands for the paths that have no checker. -/
def checkedLanes (s : State) (k : Nat) (t : Team) (unit : Nat) (lanes : LaneMask) (body : State → State) : State :=
  match s.upset with
  | some (m, pipe) =>
    if unit == 0 || m &&& lanes == 0 || pipe / 4 != t.quarter then body s
    else refuse (count { s with upset := none } (40000 + 17 * t.core + pipe) 13) k cPIPE
      ((laneList t (m &&& lanes)).map fun L => record L cPIPE (pipeId unit pipe))
  | none => body s

/-- A floating result: FPEXC where an enabled flag is raised (R73); else the flags join FSTAT and the body runs. -/
def withFlags (s : State) (k : Nat) (t : Team) (fs : List (Nat × Flags)) (body : Team → State) : State :=
  let hit := fs.filter fun f => f.2 &&& t.fpte.setWidth 5 != 0
  if hit.isEmpty then body (t.addFlags (fs.foldl (fun a f => a ||| f.2) 0))
  else refuse s k cFPEXC (hit.map fun f => record f.1 cFPEXC (f.2.setWidth 64))

/-- Writes a value of each listed lane. -/
def Team.writeLanes (t : Team) (wide : Bool) (d : Nat) : List (Nat × Nat) → Team
  | [] => t
  | (L, x) :: r => (t.ww wide d L x).writeLanes wide d r

/-- The end of a vector instruction: the checkers, the flags, the writes (R73, R192). -/
def vecResult (s : State) (k : Nat) (t : Team) (unit : Nat) (wide : Bool) (d : Nat) (rs : List (Nat × Nat × Flags)) : State :=
  checkedLanes s k t unit t.present fun s =>
    withFlags s k t (rs.map fun r => (r.1, r.2.2)) fun t =>
      finish s k (t.writeLanes wide d (rs.map fun r => (r.1, r.2.1)))

/-- MODE as the rounding environment; none for a reserved RND (R43). -/
def Team.env (t : Team) : Option NumEnv := (RoundMode.ofCode t.rndCode).map fun rm => ⟨rm, t.sat, t.ftz⟩
/-- The environment of an operation that does not read RND. -/
def Team.envRn (t : Team) : NumEnv := ⟨(RoundMode.ofCode t.rndCode).getD .rn, t.sat, t.ftz⟩

/-- Wide by MODE.TYPE (R61); none where reserved. -/
def Team.wideType (t : Team) : Option Bool := (Ty.ofCode t.typeCode).map Ty.wide

/-- The element type and the environment of an instruction of given type classes (R43, R79): none for ILLOP. `bits` handles
every type as bits, which reads no rounding. -/
def Team.typed (t : Team) (classes : List TyClass) (bits : Bool) : Option (Ty × NumEnv) :=
  match Ty.ofCode t.typeCode with
  | none => none
  | some ty =>
    if bits then some (ty.raw, t.envRn)
    else if !classes.contains ty.cls then none
    else if ty.isFloat then t.env.map fun e => (ty, e) else some (ty, t.envRn)

/-- A vector operation of one mould: its sources with t bits, whether it reads its destination, and what it computes of the
lane's values (the destination's old value first, where it reads it). -/
structure VOp where
  d : Nat
  srcs : List (Nat × Bool)
  narrow : List (Nat × Bool) := []   -- sources that are one 32-bit register under any type
  readsD : Bool := false
  classes : List TyClass := []
  bits : Bool := false
  unit : Nat := 1
  f : Ty → NumEnv → Nat → List Nat → Nat × Flags

/-- The values a lane's sources hold. -/
def VOp.operands (o : VOp) (t : Team) (wide : Bool) (L : Nat) : List Nat :=
  (if o.readsD then [t.rw wide o.d L] else []) ++ o.srcs.map (fun r => t.rw wide r.1 L) ++ o.narrow.map fun r => t.rw false r.1 L

/-- The registers a vector operation uses. -/
def VOp.use (o : VOp) (t : Team) (wide : Bool) : Use :=
  { srcV := (o.srcs.flatMap fun r => srcsV wide r.1 r.2) ++ o.narrow ++ (if o.readsD then srcsV wide o.d false else [])
    preds := [t.guardReg]
    dstV := pair wide o.d
    lanes := t.present }

/-- The meaning of a vector operation on a team (R80). -/
def VOp.run (o : VOp) (s : State) (k : Nat) (t : Team) : State :=
  match t.typed o.classes o.bits with
  | none => illop s k t
  | some (ty, e) =>
    if !(t.okV ty.wide o.d && (o.srcs.all fun r => t.okV ty.wide r.1) && o.narrow.all fun r => t.okV false r.1) then illop s k t
    else gated s k t (o.use t ty.wide) fun t =>
      vecResult s k t o.unit ty.wide o.d ((laneList t t.present).map fun L => (L, o.f ty e L (o.operands t ty.wide L)))

end Sys2Proof.Machine
end

