-- ==== Sys2Proof/Machine/Arith.lean ====
section
/-! DEFINITION. The vector instructions of R78 to R93: arithmetic, logic, shifts, bit fields, compare and select, conversion,
packing, the fused operations and the immediate forms. -/

namespace Sys2Proof.Machine

/-- Lifts an operation on the elements of two operands to a lane's value (R65, R80). -/
def elem2 (g : Elem → NumEnv → Nat → Nat → Nat × Flags) : Ty → NumEnv → Nat → List Nat → Nat × Flags :=
  fun ty e _ xs => ty.build fun i => g ty.elem e (ty.get (xs.getD 0 0) i) (ty.get (xs.getD 1 0) i)

def elem1 (g : Elem → NumEnv → Nat → Nat × Flags) : Ty → NumEnv → Nat → List Nat → Nat × Flags :=
  fun ty e _ xs => ty.build fun i => g ty.elem e (ty.get (xs.getD 0 0) i)

def elem3 (g : Elem → NumEnv → Nat → Nat → Nat → Nat × Flags) : Ty → NumEnv → Nat → List Nat → Nat × Flags :=
  fun ty e _ xs => ty.build fun i => g ty.elem e (ty.get (xs.getD 0 0) i) (ty.get (xs.getD 1 0) i) (ty.get (xs.getD 2 0) i)

/-- An exact floating result with the flags raised on the way. -/
def rounded (f : Fmt) (e : NumEnv) (r : Exact × Flags) (g : Flags) : Nat × Flags :=
  let (x, h) := f.round e r.1
  (x, r.2 ||| g ||| h)

/-- `x + y`, or `x − y` (R81). -/
def addElem (sub : Bool) (el : Elem) (e : NumEnv) (x y : Nat) : Nat × Flags :=
  match el with
  | .int s w => (reduceInt e.sat s w (if sub then intOf s w x - intOf s w y else intOf s w x + intOf s w y), 0)
  | .flt f =>
    let a := f.operand e.ftz x
    let b := f.operand e.ftz y
    rounded f e (exactSum e.rm [a.exact, (if sub then b.negate else b).exact]) (a.snan ||| b.snan)

def mulElem (el : Elem) (e : NumEnv) (x y : Nat) : Nat × Flags :=
  match el with
  | .int s w => (reduceInt e.sat s w (intOf s w x * intOf s w y), 0)
  | .flt f => rounded f e (fpMul (f.operand e.ftz x) (f.operand e.ftz y)) 0

/-- The lesser or the greater (R81). -/
def pickElem (greater : Bool) (el : Elem) (e : NumEnv) (x y : Nat) : Nat × Flags :=
  match el with
  | .int s w => (if (intOf s w x < intOf s w y) != greater then x else y, 0)
  | .flt f =>
    let a := f.operand e.ftz x
    let b := f.operand e.ftz y
    rounded f e (if greater then fpMax a b else fpMin a b, 0) (a.snan ||| b.snan)

/-- `|x|` and `−x` (R81): under a floating type only the sign bit changes, and MODE.FTZ does not act. -/
def signElem (neg : Bool) (el : Elem) (e : NumEnv) (x : Nat) : Nat × Flags :=
  match el with
  | .int s w => (reduceInt e.sat s w (if neg then -(intOf s w x) else (intOf s w x).natAbs), 0)
  | .flt f =>
    match f.read x with
    | .nan sn => (f.nan, if sn then fINV else 0)
    | _ => (if neg then x ^^^ 2 ^ (f.width - 1) else x % 2 ^ (f.width - 1), 0)

/-- The upper half of the exact product (R82). -/
def mulhElem (el : Elem) (_ : NumEnv) (x y : Nat) : Nat × Flags :=
  match el with
  | .int s w => (ofInt w (intOf s w x * intOf s w y / (2 ^ w : Nat)), 0)
  | .flt _ => (0, 0)

/-- Integer quotient and remainder, truncated towards zero, and IEEE division (R83). -/
def divElem (rem : Bool) (el : Elem) (e : NumEnv) (x y : Nat) : Nat × Flags :=
  match el with
  | .int s w => (if rem then ofInt w (Int.tmod (intOf s w x) (intOf s w y))
      else reduceInt e.sat s w (Int.tdiv (intOf s w x) (intOf s w y)), 0)
  | .flt f => rounded f e (fpDiv (f.operand e.ftz x) (f.operand e.ftz y)) 0

def bitElem (g : Nat → Nat → Nat) (_ : Elem) (_ : NumEnv) (x y : Nat) : Nat × Flags := (g x y, 0)

def notElem (el : Elem) (_ : NumEnv) (x : Nat) : Nat × Flags := (2 ^ el.width - 1 - x, 0)

/-- The shifts; the amount is the low 8 bits of the element (R84). -/
def shlElem (el : Elem) (_ : NumEnv) (x y : Nat) : Nat × Flags := (x * 2 ^ (y % 256) % 2 ^ el.width, 0)
def shrElem (_ : Elem) (_ : NumEnv) (x y : Nat) : Nat × Flags := (x / 2 ^ (y % 256), 0)
def sraElem (el : Elem) (_ : NumEnv) (x y : Nat) : Nat × Flags := (ofInt el.width (toSigned el.width x / (2 ^ (y % 256) : Nat)), 0)

/-- R85. -/
def popcElem (el : Elem) (_ : NumEnv) (x : Nat) : Nat × Flags := (popCount x el.width, 0)
def clzElem (el : Elem) (_ : NumEnv) (x : Nat) : Nat × Flags := (leadingZeros x el.width, 0)
def ctzElem (el : Elem) (_ : NumEnv) (x : Nat) : Nat × Flags := (leadingZeros (reverseBits x el.width) el.width, 0)
def brevElem (el : Elem) (_ : NumEnv) (x : Nat) : Nat × Flags := (reverseBits x el.width, 0)

/-- The field's width (R86). -/
def fieldLen (n pos len : Nat) : Nat := if pos < n then min len (n - pos) else 0

/-- `bfx` on the whole value (R86); `signed` from MODE.TYPE. -/
def bfxValue (ty : Ty) (x b : Nat) : Nat :=
  let n := ty.lanes
  let len := fieldLen n (bits b 0 6) (bits b 8 6)
  let f := bits x (bits b 0 6) len
  if ty.isSigned && decide (len > 0) then signExt len n f else f

def bfiValue (ty : Ty) (old x b : Nat) : Nat :=
  setBits old (bits b 0 6) (fieldLen ty.lanes (bits b 0 6) (bits b 8 6)) x

/-- A condition on two elements (R87), with INV for a signalling NaN. -/
def condElem (c : Nat) (el : Elem) (e : NumEnv) (x y : Nat) : Bool × Flags :=
  let pick := fun (nan lt eq : Bool) => match c with
    | 0 => !nan && eq
    | 1 => nan || !eq
    | 2 => !nan && lt
    | 3 => !nan && (lt || eq)
    | 4 => !nan && !lt && !eq
    | 5 => !nan && !lt
    | 6 => !nan
    | _ => nan
  match el with
  | .int s w => (pick false (decide (intOf s w x < intOf s w y)) (decide (intOf s w x = intOf s w y)), 0)
  | .flt f =>
    let a := f.operand e.ftz x
    let b := f.operand e.ftz y
    let (lt, eq) := fpLess a b
    (pick (a.isNan || b.isNan) lt eq, a.snan ||| b.snan)

/-- The fused operations (R91): 0 `mad`, 1 `msb`, 2 `nmad`. -/
def fmaElem (op : Nat) (el : Elem) (e : NumEnv) (x y z : Nat) : Nat × Flags :=
  match el with
  | .int s w =>
    let p := intOf s w x * intOf s w y
    let z := intOf s w z
    (reduceInt e.sat s w (if op = 0 then p + z else if op = 1 then p - z else z - p), 0)
  | .flt f =>
    let c := f.operand e.ftz z
    let (p, g) := fpMul (f.operand e.ftz x) (f.operand e.ftz y)
    rounded f e (exactSum e.rm [if op = 2 then p.negate else p, (if op = 1 then c.negate else c).exact]) (g ||| c.snan)

/-- The dot product and its addend, summed exactly and rounded or reduced once (R92). -/
def dotValue (ty : Ty) (e : NumEnv) (x y z : Nat) : Nat × Flags :=
  match ty.elem with
  | .int s w =>
    let p := (List.range ty.count).foldl (fun (a : Int) i => a + intOf s w (ty.get x i) * intOf s w (ty.get y i)) 0
    (reduceInt e.sat s 32 (p + intOf s 32 z), 0)
  | .flt f =>
    let ps := (List.range ty.count).map fun i => fpMul (f.operand e.ftz (ty.get x i)) (f.operand e.ftz (ty.get y i))
    let c := f32.operand e.ftz z
    rounded f32 e (exactSum e.rm (ps.map (fun p => p.1) ++ [c.exact])) (ps.foldl (fun a p => a ||| p.2) c.snan)

/-! ### The three-operand forms -/

/-- A two-source operation of R78. -/
def arith2 (classes : List TyClass) (asBits : Bool) (unit : Nat) (g : Elem → NumEnv → Nat → Nat → Nat × Flags)
    (d a b : BitVec 6) (ta tb : Bool) (s : State) : Out :=
  withTeam s fun k t => VOp.run {
    d := d.toNat, srcs := [(a.toNat, ta), (b.toNat, tb)], classes := classes, bits := asBits,
    unit := unit, f := elem2 g } s k t

def arith1 (classes : List TyClass) (asBits : Bool) (unit : Nat) (g : Elem → NumEnv → Nat → Nat × Flags)
    (d a : BitVec 6) (ta : Bool) (s : State) : Out :=
  withTeam s fun k t => VOp.run {
    d := d.toNat, srcs := [(a.toNat, ta)], classes := classes, bits := asBits,
    unit := unit, f := elem1 g } s k t

def arithClasses : List TyClass := [.I, .PI, .F, .PF]

def execAdd (d : BitVec 6) (ta : Bool) (a : BitVec 6) (tb : Bool) (b : BitVec 6) (s : State) : Out :=
  arith2 arithClasses false 1 (addElem false) d a b ta tb s
def execSub (d : BitVec 6) (ta : Bool) (a : BitVec 6) (tb : Bool) (b : BitVec 6) (s : State) : Out :=
  arith2 arithClasses false 1 (addElem true) d a b ta tb s
def execMul (d : BitVec 6) (ta : Bool) (a : BitVec 6) (tb : Bool) (b : BitVec 6) (s : State) : Out :=
  arith2 arithClasses false 2 mulElem d a b ta tb s
def execMulh (d : BitVec 6) (ta : Bool) (a : BitVec 6) (tb : Bool) (b : BitVec 6) (s : State) : Out :=
  arith2 [.I, .PI] false 2 mulhElem d a b ta tb s
def execMin (d : BitVec 6) (ta : Bool) (a : BitVec 6) (tb : Bool) (b : BitVec 6) (s : State) : Out :=
  arith2 arithClasses false 0 (pickElem false) d a b ta tb s
def execMax (d : BitVec 6) (ta : Bool) (a : BitVec 6) (tb : Bool) (b : BitVec 6) (s : State) : Out :=
  arith2 arithClasses false 0 (pickElem true) d a b ta tb s
def execAbs (d : BitVec 6) (ta : Bool) (a : BitVec 6) (s : State) : Out := arith1 arithClasses false 0 (signElem false) d a ta s
def execNeg (d : BitVec 6) (ta : Bool) (a : BitVec 6) (s : State) : Out := arith1 arithClasses false 0 (signElem true) d a ta s

/-- Division: DIVZ for each present lane with an integer zero divisor, before any result (R83). -/
def divide (rem : Bool) (d a b : BitVec 6) (ta tb : Bool) (s : State) : Out :=
  withTeam s fun k t =>
    let o : VOp := { d := d.toNat, srcs := [(a.toNat, ta), (b.toNat, tb)], classes := if rem then [.I] else [.I, .F], unit := 1,
                     f := elem2 (divElem rem) }
    match t.typed o.classes false with
    | none => illop s k t
    | some (ty, _) =>
      if !(t.okV ty.wide d.toNat && t.okV ty.wide a.toNat && t.okV ty.wide b.toNat) then illop s k t
      else gated s k t (o.use t ty.wide) fun t' =>
        let zero := if ty.isFloat then [] else (laneList t' t'.present).filter fun L => t'.rw ty.wide b.toNat L == 0
        if zero.isEmpty then o.run s k t else refuse s k cDIVZ (zero.map fun L => record L cDIVZ 0)

def execDiv (d : BitVec 6) (ta : Bool) (a : BitVec 6) (tb : Bool) (b : BitVec 6) (s : State) : Out := divide false d a b ta tb s
def execRem (d : BitVec 6) (ta : Bool) (a : BitVec 6) (tb : Bool) (b : BitVec 6) (s : State) : Out := divide true d a b ta tb s

def execAnd (d : BitVec 6) (ta : Bool) (a : BitVec 6) (tb : Bool) (b : BitVec 6) (s : State) : Out :=
  arith2 [] true 3 (bitElem (· &&& ·)) d a b ta tb s
def execOr (d : BitVec 6) (ta : Bool) (a : BitVec 6) (tb : Bool) (b : BitVec 6) (s : State) : Out :=
  arith2 [] true 3 (bitElem (· ||| ·)) d a b ta tb s
def execXor (d : BitVec 6) (ta : Bool) (a : BitVec 6) (tb : Bool) (b : BitVec 6) (s : State) : Out :=
  arith2 [] true 3 (bitElem (· ^^^ ·)) d a b ta tb s
def execNot (d : BitVec 6) (ta : Bool) (a : BitVec 6) (s : State) : Out := arith1 [] true 3 notElem d a ta s
def execShl (d : BitVec 6) (ta : Bool) (a : BitVec 6) (tb : Bool) (b : BitVec 6) (s : State) : Out :=
  arith2 [] true 3 shlElem d a b ta tb s
def execShr (d : BitVec 6) (ta : Bool) (a : BitVec 6) (tb : Bool) (b : BitVec 6) (s : State) : Out :=
  arith2 [] true 3 shrElem d a b ta tb s
def execSra (d : BitVec 6) (ta : Bool) (a : BitVec 6) (tb : Bool) (b : BitVec 6) (s : State) : Out :=
  arith2 [] true 3 sraElem d a b ta tb s
def execPopc (d : BitVec 6) (ta : Bool) (a : BitVec 6) (s : State) : Out := arith1 [] true 3 popcElem d a ta s
def execClz (d : BitVec 6) (ta : Bool) (a : BitVec 6) (s : State) : Out := arith1 [] true 3 clzElem d a ta s
def execCtz (d : BitVec 6) (ta : Bool) (a : BitVec 6) (s : State) : Out := arith1 [] true 3 ctzElem d a ta s
def execBrev (d : BitVec 6) (ta : Bool) (a : BitVec 6) (s : State) : Out := arith1 [] true 3 brevElem d a ta s

def execBfx (d : BitVec 6) (ta : Bool) (a : BitVec 6) (tb : Bool) (b : BitVec 6) (s : State) : Out :=
  withTeam s fun k t => VOp.run {
    d := d.toNat, srcs := [(a.toNat, ta), (b.toNat, tb)], bits := true, unit := 3,
    f := fun ty _ _ xs => (bfxValue ty (xs.getD 0 0) (xs.getD 1 0), 0) } s k t
def execBfi (d : BitVec 6) (ta : Bool) (a : BitVec 6) (tb : Bool) (b : BitVec 6) (s : State) : Out :=
  withTeam s fun k t => VOp.run {
    d := d.toNat, srcs := [(a.toNat, ta), (b.toNat, tb)], readsD := true, bits := true, unit := 3,
    f := fun ty _ _ xs => (bfiValue ty (xs.getD 0 0) (xs.getD 1 0) (xs.getD 2 0), 0) } s k t
def execSel (d : BitVec 6) (ta : Bool) (a : BitVec 6) (tb : Bool) (b : BitVec 6) (s : State) : Out :=
  withTeam s fun k t => VOp.run {
    d := d.toNat, srcs := [(a.toNat, ta), (b.toNat, tb)], readsD := true, bits := true, unit := 0,
    f := fun _ _ _ xs => (if xs.getD 0 0 ≠ 0 then xs.getD 1 0 else xs.getD 2 0, 0) } s k t

/-- A compare of a register with what `rhs` gives for each lane; the predicate of each present lane is written (R87, R93). -/
def compare (c p : BitVec 3) (a : BitVec 6) (ta : Bool) (b : Option (BitVec 6 × Bool)) (imm : Ty → NumEnv → Nat) (s : State) : Out :=
  withTeam s fun k t =>
    match t.typed arithClasses false with
    | none => illop s k t
    | some (ty, e) =>
      if !(t.okV ty.wide a.toNat && (b.all fun r => t.okV ty.wide r.1.toNat)) then illop s k t
      else gated s k t { srcV := srcsV ty.wide a.toNat ta ++ (match b with
          | some r => srcsV ty.wide r.1.toNat r.2
          | none => []), preds := [t.guardReg], dstP := [p.toNat], lanes := t.present } fun t =>
        let rs := (laneList t t.present).map fun L =>
          let x := t.rw ty.wide a.toNat L
          let y := match b with
            | some r => t.rw ty.wide r.1.toNat L
            | none => imm ty e
          (L, (List.range ty.count).foldl (fun (u : Bool × Flags) i =>
            let (h, g) := condElem c.toNat ty.elem e (ty.get x i) (ty.get y i)
            (u.1 && h, u.2 ||| g)) (true, 0))
        withFlags s k t (rs.map fun r => (r.1, r.2.2)) fun t =>
          let yes := laneMask fun L => rs.any fun r => r.1 == L && r.2.1
          finish s k (t.wp p.toNat ((t.rp p.toNat &&& ~~~t.present) ||| yes))

def execCmp (c p : BitVec 3) (ta : Bool) (a : BitVec 6) (tb : Bool) (b : BitVec 6) (s : State) : Out :=
  compare c p a ta (some (b, tb)) (fun _ _ => 0) s

/-- `cvt` (R89): the source type's code, the part index. -/
def execCvt (d : BitVec 6) (ta : Bool) (a : BitVec 6) (part : BitVec 2) (src : BitVec 4) (s : State) : Out :=
  withTeam s fun k t =>
    match Ty.ofCode t.typeCode, Ty.ofCode src.toNat with
    | some dt, some st =>
      let ns := st.count
      let nd := dt.count
      let kk := part.toNat
      let legal := if ns = nd then kk = 0 else if ns > nd then kk < ns / nd else kk < nd / ns
      match t.env with
      | none => if dt.isFloat || st.isFloat then illop s k t else cvtBody s k t dt st kk t.envRn legal
      | some e => cvtBody s k t dt st kk e legal
    | _, _ => illop s k t
where
  cvtBody (s : State) (k : Nat) (t : Team) (dt st : Ty) (kk : Nat) (e : NumEnv) (legal : Bool) : State :=
    if !legal || !(t.okV dt.wide d.toNat && t.okV st.wide a.toNat) then illop s k t
    else
      let widens := decide (st.count < dt.count)
      gated s k t { srcV := srcsV st.wide a.toNat ta ++ (if widens then srcsV dt.wide d.toNat false else []), preds := [t.guardReg],
                    dstV := pair dt.wide d.toNat, lanes := t.present } fun t =>
        vecResult s k t 0 dt.wide d.toNat ((laneList t t.present).map fun L =>
          let x := t.rw st.wide a.toNat L
          let old := t.rw dt.wide d.toNat L
          (L, dt.build fun j =>
            if widens then
              if kk * st.count ≤ j ∧ j < (kk + 1) * st.count then convert e st.elem dt.elem (st.get x (j - kk * st.count))
              else (dt.get old j, 0)
            else convert e st.elem dt.elem (st.get x (kk * dt.count + j))))

/-- The partner type of a packed type (R90). -/
def partner (ty : Ty) : Ty :=
  match ty.elem with
  | .int s w => if w == 8 then ⟨.int true 16, 2, .PI⟩ else ⟨.int s 32, 1, .I⟩
  | .flt f => if f.width == 8 then ⟨.flt bf16, 2, .PF⟩ else ⟨.flt f32, 1, .F⟩

def execPack (d : BitVec 6) (ta : Bool) (a : BitVec 6) (tb : Bool) (b : BitVec 6) (s : State) : Out :=
  withTeam s fun k t => VOp.run {
    d := d.toNat, srcs := [(a.toNat, ta), (b.toNat, tb)], classes := [.PI, .PF, .F8], unit := 0,
    f := fun ty e _ xs =>
      let p := partner ty
      ty.build fun i => convert e p.elem ty.elem (p.get (xs.getD (i / p.count) 0) (i % p.count)) } s k t

def execUnpk (d : BitVec 6) (ta : Bool) (a : BitVec 6) (s : State) : Out :=
  withTeam s fun k t =>
    match t.typed [.PI, .PF, .F8] false with
    | none => illop s k t
    | some (ty, e) =>
      if !(t.okV true d.toNat && t.okV false a.toNat) then illop s k t
      else gated s k t { srcV := [(a.toNat, ta)], preds := [t.guardReg], dstV := pair true d.toNat, lanes := t.present } fun t =>
        let p := partner ty
        vecResult s k t 0 true d.toNat ((laneList t t.present).map fun L =>
          let x := t.rw false a.toNat L
          let lo := p.build fun i => convert e ty.elem p.elem (ty.get x i)
          let hi := p.build fun i => convert e ty.elem p.elem (ty.get x (p.count + i))
          (L, lo.1 + hi.1 * 2 ^ 32, lo.2 ||| hi.2))

/-! ### The four-operand forms -/

def fused (op : Nat) (d a b c : BitVec 6) (ta tb tc : Bool) (s : State) : Out :=
  withTeam s fun k t => VOp.run {
    d := d.toNat, srcs := [(a.toNat, ta), (b.toNat, tb), (c.toNat, tc)], classes := arithClasses,
    unit := 2, f := elem3 (fmaElem op) } s k t

def execMad (d : BitVec 6) (ta : Bool) (a : BitVec 6) (tb : Bool) (b : BitVec 6) (tc : Bool) (c : BitVec 6) (s : State) : Out :=
  fused 0 d a b c ta tb tc s
def execMsb (d : BitVec 6) (ta : Bool) (a : BitVec 6) (tb : Bool) (b : BitVec 6) (tc : Bool) (c : BitVec 6) (s : State) : Out :=
  fused 1 d a b c ta tb tc s
def execNmad (d : BitVec 6) (ta : Bool) (a : BitVec 6) (tb : Bool) (b : BitVec 6) (tc : Bool) (c : BitVec 6) (s : State) : Out :=
  fused 2 d a b c ta tb tc s
def execDot (d : BitVec 6) (ta : Bool) (a : BitVec 6) (tb : Bool) (b : BitVec 6) (tc : Bool) (c : BitVec 6) (s : State) : Out :=
  withTeam s fun k t => VOp.run {
    d := d.toNat, srcs := [(a.toNat, ta), (b.toNat, tb), (c.toNat, tc)], classes := [.PI, .PF, .F8],
    unit := 2, f := fun ty e _ xs => dotValue ty e (xs.getD 0 0) (xs.getD 1 0) (xs.getD 2 0) } s k t

/-! ### The immediate forms (R93) -/

/-- imm11 as an element: sign-extended, or converted to the element type under MODE.RND without flags. -/
def immElem (el : Elem) (e : NumEnv) (imm : BitVec 11) : Nat :=
  match el with
  | .int _ w => ofInt w imm.toInt
  | .flt f => (f.round e (.num (decide (imm.toInt < 0)) imm.toInt.natAbs 0 false)).1

def arithImm (classes : List TyClass) (asBits : Bool) (unit : Nat) (g : Elem → NumEnv → Nat → Nat → Nat × Flags)
    (rhs : Elem → NumEnv → Nat) (d a : BitVec 6) (s : State) : Out :=
  withTeam s fun k t => VOp.run {
    d := d.toNat, srcs := [(a.toNat, false)], classes := classes, bits := asBits, unit := unit,
    f := elem1 fun el e x => g el e x (rhs el e) } s k t

def execAddi (d a : BitVec 6) (imm : BitVec 11) (s : State) : Out :=
  arithImm arithClasses false 1 (addElem false) (fun el e => immElem el e imm) d a s
def execMuli (d a : BitVec 6) (imm : BitVec 11) (s : State) : Out :=
  arithImm arithClasses false 2 mulElem (fun el e => immElem el e imm) d a s
def execAndi (d a : BitVec 6) (imm : BitVec 11) (s : State) : Out :=
  arithImm [] true 3 (bitElem (· &&& ·)) (fun el _ => ofInt el.width imm.toInt) d a s
def execOri (d a : BitVec 6) (imm : BitVec 11) (s : State) : Out :=
  arithImm [] true 3 (bitElem (· ||| ·)) (fun el _ => ofInt el.width imm.toInt) d a s
def execXori (d a : BitVec 6) (imm : BitVec 11) (s : State) : Out :=
  arithImm [] true 3 (bitElem (· ^^^ ·)) (fun el _ => ofInt el.width imm.toInt) d a s
def execShli (d a : BitVec 6) (imm : BitVec 8) (s : State) : Out := arithImm [] true 3 shlElem (fun _ _ => imm.toNat) d a s
def execShri (d a : BitVec 6) (imm : BitVec 8) (s : State) : Out := arithImm [] true 3 shrElem (fun _ _ => imm.toNat) d a s
def execSrai (d a : BitVec 6) (imm : BitVec 8) (s : State) : Out := arithImm [] true 3 sraElem (fun _ _ => imm.toNat) d a s
def execCmpi (c p : BitVec 3) (a : BitVec 6) (imm : BitVec 11) (s : State) : Out :=
  compare c p a false none (fun ty e => (ty.build fun _ => (immElem ty.elem e imm, 0)).1) s

end Sys2Proof.Machine
end

