-- ==== Sys2Proof/Machine/Lanes.lean ====
section
/-! DEFINITION. Shuffles, votes, reductions, scans and the splitting of indices (R74 to R77, R213 to R223). -/

namespace Sys2Proof.Machine

/-! ### Shuffles (R215) -/

/-- The lane that a shuffle reads for a lane: a source outside the team leaves it its own value. -/
def Team.shuffled (t : Team) (src : Team → Nat → Int) (L : Nat) : Nat :=
  if 0 ≤ src t L ∧ src t L < t.lanes then (src t L).toNat else L

/-- The rows that a shuffle of registers `rs` reads (R379): those of its index's active lanes, and of the lanes that those select. -/
def Team.shuffleRows (t : Team) (rs index : List Nat) (src : Team → Nat → Int) : List (Nat × Nat) :=
  let ls := laneList t t.mask
  (index.flatMap fun r => ls.map fun L => (r, L / 32)) ++
    if index.all t.vReadable then rs.flatMap fun r => ls.map fun L => (r, t.shuffled src L / 32) else []

/-- A shuffle whose source lane is `src`. -/
def shuffle (d a : BitVec 6) (ta : Bool) (b : List (Nat × Bool)) (src : Team → Nat → Int) (s : State) : Out :=
  withTeam s fun k t =>
    match t.typed [] true with
    | none => illop s k t
    | some (ty, _) =>
      if !(t.okV ty.wide d.toNat && t.okV ty.wide a.toNat && b.all fun r => t.okV false r.1) then illop s k t
      else gated s k t { srcV := srcsV ty.wide a.toNat ta ++ b, preds := [t.guardReg], dstV := pair ty.wide d.toNat, lanes := t.present,
                         rows := some (t.shuffleRows (pair ty.wide a.toNat) (b.map fun r => r.1) src) }
        fun t => vecResult s k t 3 ty.wide d.toNat ((laneList t t.present).map fun L =>
          (L, t.rw ty.wide a.toNat (t.shuffled src L), 0))

def execShfi (d : BitVec 6) (ta : Bool) (a : BitVec 6) (tb : Bool) (b : BitVec 6) (s : State) : Out :=
  shuffle d a ta [(b.toNat, tb)] (fun t L => (t.rv b.toNat L).toNat) s
def execShfd (d : BitVec 6) (ta : Bool) (a b : BitVec 6) (s : State) : Out := shuffle d a ta [] (fun _ L => (L : Int) + b.toInt) s
def execShfx (d : BitVec 6) (ta : Bool) (a b : BitVec 6) (s : State) : Out :=
  shuffle d a ta [] (fun _ L => ((L ^^^ b.toNat : Nat) : Int)) s

/-! ### Votes (R216, R217) -/

def voteTo (d : BitVec 5) (p : BitVec 3) (f : Team → Bool) (s : State) : Out :=
  withTeam s fun k t => gated s k t { preds := [p.toNat], dstS := [d.toNat] } fun t =>
    finish s k (t.ws d.toNat (if f t then 1 else 0))

def execVany (d : BitVec 5) (inv : Bool) (p : BitVec 3) (s : State) : Out :=
  voteTo d p (fun t => t.vote inv p.toNat != 0) s
def execVall (d : BitVec 5) (inv : Bool) (p : BitVec 3) (s : State) : Out :=
  voteTo d p (fun t => t.vote inv p.toNat == t.mask) s

def execVbal (d : BitVec 6) (inv : Bool) (p : BitVec 3) (s : State) : Out :=
  withTeam s fun k t =>
    if !t.okV false d.toNat then illop s k t
    else gated s k t { preds := [t.guardReg, p.toNat], dstV := [d.toNat], lanes := t.present } fun t =>
      let v := (t.vote inv p.toNat).toNat
      finish s k (t.writeLanes false d.toNat ((laneList t t.present).map fun L => (L, bits v (L / 32 * 32) 32)))

/-! ### Combining values -/

/-- The operations of `tred` and `tscan`: 0 add, 1 min, 2 max, 3 and, 4 or, 5 xor. -/
def combine (op : Nat) (el : Elem) (e : NumEnv) (x y : Nat) : Nat × Flags :=
  match op with
  | 0 => addElem false el e x y
  | 1 => pickElem false el e x y
  | 2 => pickElem true el e x y
  | 3 => (x &&& y, 0)
  | 4 => (x ||| y, 0)
  | _ => (x ^^^ y, 0)

/-- The identity of an operation (R218). -/
def identityOf (op : Nat) (el : Elem) : Nat :=
  match op, el with
  | 1, .int s w => if s then 2 ^ (w - 1) - 1 else 2 ^ w - 1
  | 2, .int s w => if s then 2 ^ (w - 1) else 0
  | 1, .flt f => f.inf
  | 2, .flt f => f.signed true f.inf
  | 3, el => 2 ^ el.width - 1
  | _, _ => 0

/-- Joins two values of which either may be absent; the flags of a join are kept (R75). -/
def join2 (f : Nat → Nat → Nat × Flags) : Option (Nat × Flags) → Option (Nat × Flags) → Option (Nat × Flags)
  | none, b => b
  | a, none => a
  | some a, some b =>
    let r := f a.1 b.1
    some (r.1, a.2 ||| b.2 ||| r.2)

/-- One level of the tree: adjacent results join, lower first. -/
def treeLevel (f : Nat → Nat → Nat × Flags) : List (Option (Nat × Flags)) → List (Option (Nat × Flags))
  | a :: b :: r => join2 f a b :: treeLevel f r
  | r => r

/-- The fixed order of R75: a tree in each row, then the rows in ascending order. -/
def treeSum (f : Nat → Nat → Nat × Flags) (rows : Nat) (val : Nat → Option Nat) : Option (Nat × Flags) :=
  (List.range rows).foldl (fun acc r =>
    let leaves := (List.range 32).map fun i => (val (32 * r + i)).map fun x => (x, (0 : Flags))
    join2 f acc (((List.range 5).foldl (fun l _ => treeLevel f l) leaves).headD none)) none

/-- The combination of the present lanes' values (R74, R75, R218). -/
def reduceLanes (op : Nat) (el : Elem) (e : NumEnv) (t : Team) (lanes : List Nat) (val : Nat → Nat) : Option (Nat × Flags) :=
  match op, el with
  | 0, .int s w =>
    if lanes.isEmpty then none
    else some (reduceInt e.sat s w (lanes.foldl (fun (a : Int) L => a + intOf s w (val L)) 0), 0)
  | _, _ => treeSum (combine op el e) t.rows fun L => if lanes.contains L then some (val L) else none

/-- The unit that checks an operation's results (R192). -/
def combineUnit (op : Nat) : Nat := if op = 0 then 1 else if op ≤ 2 then 0 else 3

/-- The type and the environment of a reduction: `and`, `or` and `xor` take every type as bits of the whole value. -/
def Team.redType (t : Team) (op : Nat) : Option (Ty × NumEnv) :=
  if op ≤ 2 then t.typed [.I, .F] false
  else (Ty.ofCode t.typeCode).map fun ty => (⟨.int ty.isSigned ty.lanes, 1, .I⟩, t.envRn)

/-- `tred` (R218). -/
def execTred (d : BitVec 5) (ta : Bool) (a op : BitVec 6) (s : State) : Out :=
  withTeam s fun k t =>
    if op.toNat > 5 then illop s k t
    else match t.redType op.toNat with
    | none => illop s k t
    | some (ty, e) =>
      if !t.okV ty.wide a.toNat then illop s k t
      else gated s k t { srcV := srcsV ty.wide a.toNat ta, preds := [t.guardReg], dstS := [d.toNat] } fun t =>
        let ls := laneList t t.present
        let r := (reduceLanes op.toNat ty.elem e t ls fun L => t.rw ty.wide a.toNat L).getD (identityOf op.toNat ty.elem, 0)
        checkedLanes s k t (combineUnit op.toNat) t.present fun s =>
          withFlags s k t [(0, r.2)] fun t =>
            finish s k (t.ws d.toNat (BitVec.ofNat 64 (if t.typeCode = 0 then signExt 32 64 r.1 else r.1)))

/-- The lanes of a scan in order: each lane's inclusive value, the value before it, and the flags of its own addition (R219). -/
def scanLanes (f : Nat → Nat → Nat × Flags) (val : Nat → Nat) : Option Nat → List Nat → List (Nat × Nat × Option Nat × Flags)
  | _, [] => []
  | none, L :: r => (L, val L, none, 0) :: scanLanes f val (some (val L)) r
  | some x, L :: r =>
    let (y, g) := f x (val L)
    (L, y, some x, g) :: scanLanes f val (some y) r

/-- Exact prefix sums, each to be reduced once (R74). -/
def prefixSums (val : Nat → Int) : Int → List Nat → List (Nat × Int × Int)
  | _, [] => []
  | x, L :: r => (L, x + val L, x) :: prefixSums val (x + val L) r

/-- `tscan` (R219). -/
def execTscan (d : BitVec 6) (ta : Bool) (a : BitVec 6) (excl : Bool) (op : BitVec 3) (s : State) : Out :=
  withTeam s fun k t =>
    if op.toNat > 5 then illop s k t
    else match t.redType op.toNat with
    | none => illop s k t
    | some (ty, e) =>
      if !(t.okV ty.wide d.toNat && t.okV ty.wide a.toNat) then illop s k t
      else gated s k t { srcV := srcsV ty.wide a.toNat ta, preds := [t.guardReg], dstV := pair ty.wide d.toNat, lanes := t.present }
        fun t =>
          let ls := laneList t t.present
          let val := fun L => t.rw ty.wide a.toNat L
          let rs : List (Nat × Nat × Flags) := match op.toNat, ty.elem with
            | 0, .int sg w => (prefixSums (fun L => intOf sg w (val L)) 0 ls).map fun r =>
                (r.1, reduceInt e.sat sg w (if excl then r.2.2 else r.2.1), 0)
            | o, el => (scanLanes (combine o el e) val none ls).map fun r =>
                (r.1, if excl then r.2.2.1.getD (identityOf o el) else r.2.1, r.2.2.2)
          vecResult s k t (combineUnit op.toNat) ty.wide d.toNat rs

/-- The lanes of `segred` over integers: inclusive and exclusive values (R220). -/
def segInts (val : Nat → Int) (head : Nat → Bool) : Int → List Nat → List (Nat × Int × Int)
  | _, [] => []
  | x, L :: r => if head L then (L, val L, 0) :: segInts val head (val L) r
    else (L, x + val L, x) :: segInts val head (x + val L) r

/-- The lanes of `segred` over floating values. -/
def segFloats (f : Nat → Nat → Nat × Flags) (val : Nat → Nat) (head : Nat → Bool) : Nat → List Nat → List (Nat × Nat × Nat × Flags)
  | _, [] => []
  | x, L :: r => if head L then (L, val L, 0, 0) :: segFloats f val head (val L) r
    else let (y, g) := f x (val L)
      (L, y, x, g) :: segFloats f val head y r

/-- `segred` (R212, R220). -/
def execSegred (d : BitVec 6) (ta : Bool) (a : BitVec 6) (tb : Bool) (b : BitVec 6) (s : State) : Out :=
  withTeam s fun k t =>
    match t.typed [.I, .F] false with
    | none => illop s k t
    | some (ty, e) =>
      if !(t.okV ty.wide d.toNat && t.okV ty.wide a.toNat && t.okV false b.toNat) then illop s k t
      else gated s k t { srcV := srcsV ty.wide a.toNat ta ++ [(b.toNat, tb)], preds := [t.guardReg], dstV := pair ty.wide d.toNat,
                         lanes := t.present } fun t =>
        let ls := laneList t t.present
        let val := fun L => t.rw ty.wide a.toNat L
        let head := fun L => t.rv b.toNat L != 0
        let carry := bits t.scarry.toNat 0 ty.lanes
        let exc := bit t.segctl.toNat 0
        let rs : List (Nat × Nat × Nat × Flags) := match ty.elem with
          | .int sg w => (segInts (fun L => intOf sg w (val L)) head (intOf sg w carry) ls).map fun r =>
              (r.1, reduceInt e.sat sg w r.2.1, reduceInt e.sat sg w r.2.2, 0)
          | el => segFloats (combine 0 el e) val head carry ls
        checkedLanes s k t 1 t.present fun s =>
          withFlags s k t (rs.map fun r => (r.1, r.2.2.2)) fun t =>
            let t := t.writeLanes ty.wide d.toNat (rs.map fun r => (r.1, if exc then r.2.2.1 else r.2.1))
            finish s k (match rs.getLast? with
              | some r => { t with scarry := BitVec.ofNat 64 r.2.1 }
              | none => t)

/-! ### Index splitting (R223) -/

/-- The coordinates of an index: the multipliers and extents of coordinates 0 to N − 2. -/
def splitIndex : List (Nat × Nat) → Nat → List Nat
  | [], x => [x]
  | (m, e) :: r, x =>
    let q : Nat := x * (if m = 0 then 2 ^ 64 else m) / 2 ^ 64
    ofInt 32 ((x : Int) - ((q * e : Nat) : Int)) :: splitIndex r q

/-- `tix` (R223). The registers that it writes are known once S[b] can be read. -/
def execTix (d : BitVec 6) (ta : Bool) (a : BitVec 6) (b : BitVec 5) (s : State) : Out :=
  withTeam s fun k t =>
    if b.toNat > 25 || !(t.okV false d.toNat && t.okV false a.toNat) then illop s k t
    else
      let n := bits (t.rs b.toNat).toNat 0 8
      let dst := if !t.sReadable b.toNat then [d.toNat] else if 1 ≤ n ∧ n ≤ 5 then (span d.toNat n).filter fun r => decide (r < t.vregs) else []
      gated s k t { srcV := [(a.toNat, ta)], srcS := (span b.toNat 7).map fun r => (r, false), preds := [t.guardReg],
                    dstV := dst, lanes := t.present } fun t' =>
        if n = 0 ∨ n > 5 then refuse1 s k cBOUNDS (BitVec.ofNat 64 n)
        else if d.toNat + n - 1 ≥ t'.vregs then refuse1 s k cBOUNDS (BitVec.ofNat 64 d.toNat)
        else
          let ext := fun i => bits (t'.rs (b.toNat + 5 + i / 2)).toNat (32 * (i % 2)) 32
          let ms := (List.range (n - 1)).map fun i => ((t'.rs (b.toNat + 1 + i)).toNat, ext i)
          checkedLanes s k t' 2 t'.present fun s => finish s k ((laneList t' t'.present).foldl (fun acc L =>
            (((splitIndex ms (t'.rv a.toNat L).toNat).zipIdx).foldl (fun (acc : Team) c =>
              acc.wv (d.toNat + c.2) L (BitVec.ofNat 32 c.1)) acc)) t')

end Sys2Proof.Machine
end

