-- ==== Sys2Proof/Machine/WordPath.lean ====
section
/-! DEFINITION. The word path between a core and a home: messages to other dies (R135, R360), misses and their requests (R9,
R12, R13, R129), the completion of loads (R47, R110), publication (R122, R133) and the flush of a core (R346). -/

namespace Sys2Proof.Machine

/-! ### Messages -/

/-- The reset value of CRATEn (R320). -/
def crateReset (c : Nat) : DWord :=
  BitVec.ofNat 64 ([0, 4, 4, 4, 2, 0, 0, 0].getD c 0 + [1, 1, 2, 2, 1, 2, 2, 1].getD c 0 * 8 + 0xF00 + 4000 * 65536)
def crateOf (s : State) (die c : Nat) : DWord := look (crateReset c) s.crates (8 * die + c)

/-- Cuts a list into groups of at most `n`. -/
def cut {α : Type} (n : Nat) : Nat → List α → List (List α)
  | 0, _ => []
  | fuel + 1, xs => if xs.isEmpty then [] else xs.take (max n 1) :: cut n fuel (xs.drop (max n 1))

/-- Queues messages for items of `elem` bytes each, as many in each as CRATEn.KMAX allows (R332); `bytes` gives an item's bytes. -/
def enqueueCut {α : Type} (s : State) (src dst cls elem : Nat) (items : List α) (owner : Nat) (cargo : List α → Cargo)
    (bytes : α → List Nat) : State :=
  let most := 64 * 2 ^ min (bits (crateOf s src cls).toNat 0 3) 4 / elem
  { s with
    serial := s.serial + 1
    msgs := s.msgs ++ (cut most items.length items).map fun g =>
      { src := src, dst := dst, cls := cls, len := elem * g.length, cargo := cargo g, owner := owner, uid := s.serial,
        data := g.flatMap fun x => (List.range elem).map fun i => (bytes x).getD i 0 } }

/-- Bytes of a number, low byte first. -/
def le (x n : Nat) : List Nat := (leBytes x n).map BitVec.toNat
def Datum.bytes (d : Datum) : List Nat := match d with
  | .ok w => le w.toNat 4
  | _ => [0, 0, 0, 0]

/-! ### Word masks -/

def maskWords (m : BitVec 64) : List Nat := (List.range 64).filter fun i => bit m.toNat i
def wordsMask (is : List Nat) : BitVec 64 := is.foldl (fun m i => setBit64 m i true) 0

/-! ### Requests -/

/-- A merged request leaves for the L2 slice (R129). -/
def sendMiss (s : State) (m : Miss) : State :=
  { s with
    misses := s.misses.map fun x => if x == m then { x with sent := true } else x
    l2q := s.l2q ++ [{ core := m.core, die := m.core / 144, sb := m.sb, mask := m.mask, point := m.point, hint := m.hint, key := m.key,
                       epoch := m.epoch, tenant := m.tenant }] }

/-- Every request of a core that still waits for words leaves (R129). -/
def flushMisses (s : State) (core : Nat) : State :=
  (s.misses.filter fun m => m.core == core && !m.sent).foldl sendMiss s

/-- The outstanding requests of a core that bring a word (R13). -/
def bringing (s : State) (core pa : Nat) : List Miss :=
  s.misses.filter fun m => m.core == core && m.sb == pa / 256 && bit m.mask.toNat (wordIx pa)

/-- A read at a point may take the word that a request brings: the request is not older than the core's last acquire (R122) nor than an
access of the core beyond its L1 to the word (R113), and it is at that point and has not left, where the point is not the L1. -/
def Miss.serves (m : Miss) (e : Nat) (point : Point) (i : Nat) : Bool :=
  m.epoch == e && !bit m.shut.toNat i && (point == .l1 || (m.point == point && !m.sent))

/-- The core holds the word of a read at a point. A word that the core has written is its own at any point. -/
def ownWord (s : State) (core : Nat) (point : Point) (pa : Nat) : Bool :=
  (held (l1Of s core) pa).isSome && (point == .l1 || heldDirty (l1Of s core) pa)

/-- A read waits for a fill that brings its word, sends nothing while it is outstanding, and may not take what it brings (R13). -/
def fillWaits (s : State) (core : Nat) (point : Point) (pa : Nat) : Bool :=
  !ownWord s core point pa && (bringing s core pa).any fun m => !m.serves (look {} s.cores core).epoch point (wordIx pa)

/-- A word that the L1 does not hold is wanted: it waits for a fill of the word on its way (R13), joins the superblock's request, whose
hint stays that of its first miss, or starts one. -/
def enterMiss (s : State) (core tenant : Nat) (point : Point) (hint key pa : Nat) : State :=
  let i := wordIx pa
  let e := (look {} s.cores core).epoch
  if !(bringing s core pa).isEmpty then s
  else match s.misses.find? fun m => m.core == core && m.sb == pa / 256 && m.point == point && m.epoch == e && !m.sent with
    | some m =>
      let m' : Miss := { m with mask := setBit64 m.mask i true, install := setBit64 m.install i (point == .l1) }
      let s := { s with misses := s.misses.map fun x => if x == m then m' else x }
      if m'.mask = BitVec.allOnes 64 then sendMiss s m' else s
    | none =>
      let m : Miss := { core := core, sb := pa / 256, mask := setBit64 0 i true, install := setBit64 0 i (point == .l1),
                        point := point, hint := hint, key := key, epoch := e, tenant := tenant, uid := s.serial }
      { s with misses := s.misses ++ [m] }

/-! ### Loads -/

/-- What a scalar load writes (R15). -/
def sldValue (ty : Nat) (lo hi : Word) : DWord :=
  if ty == 0 then lo.signExtend 64 else if ty == 2 || ty == 3 then hi ++ lo else lo.setWidth 64

/-- The words of one lane of a load. -/
def LoadOp.laneWords (o : LoadOp) (L : Nat) : List WordReq := o.words.filter fun w => w.lane == L
def WordReq.word (w : WordReq) : Option Word := match w.stage with
  | .here (.ok x) => some x
  | _ => none
def WordReq.bad (w : WordReq) : Option Nat := match w.stage with
  | .here (.ok _) => none
  | .here d => some d.cause
  | _ => none
def WordReq.isHere (w : WordReq) : Bool := match w.stage with
  | .here _ => true
  | _ => false

/-- The lanes of a load. -/
def LoadOp.lanes (o : LoadOp) : List Nat := (o.words.map fun w => w.lane).eraseDups

/-- The fault records of a load: one for each lane with a faulty word (R110). -/
def LoadOp.recs (o : LoadOp) : List Rec :=
  o.lanes.filterMap fun L => (o.laneWords L).findSome? fun w => w.bad.map fun c =>
    { lane := L, cause := c, addr := BitVec.ofNat 64 w.va, flags := o.flags }

/-- A lane whose words have all arrived good is written, as they arrive; any other keeps its value (R12, R110). -/
def LoadOp.writeLane (o : LoadOp) (d : Nat) (t : Team) (L : Nat) : Team :=
  let ws := o.laneWords L
  if ws.all fun w => w.word.isSome then
    ws.foldl (fun t w => t.wv (d + w.part) L (w.word.getD 0)) t
  else t

/-- The lanes of a load that have arrived are in its register (R12). -/
def LoadOp.writeLanes (o : LoadOp) (t : Team) : Team :=
  match o.dst with
  | .vec d _ => o.lanes.foldl (o.writeLane d) t
  | _ => t

/-- What the lanes of a load's register hold when it issues. -/
def Team.laneWords (t : Team) (dst : Dst) (lanes : List Nat) : NMap Word :=
  match dst with
  | .vec d wide => lanes.flatMap fun L => (pair wide d).map fun r => (1024 * r + L, t.rv r L)
  | _ => []

/-- A load whose words have all arrived: the register, or the fault it carries (R47, R110), and the acquire (R122). -/
def completeLoad (s : State) (o : LoadOp) : State :=
  let s := { s with loads := s.loads.filter fun x => x.id != o.id }
  let s := if o.atomic then s else o.words.foldl (fun s w => if w.stage == .here .poison then consume s w.pa .poison else s) s
  let s := if o.acq && o.inval then invalidateClean s o.core else s
  match s.teams.lookup o.team with
  | none => s
  | some t =>
    let t := if o.acq then { t with acquiring := false } else t
    let recs := o.recs
    let f := fun regs : List Nat => ({ cause := (recs.headD {}).cause, regs := regs, recs := recs } : DataFault)
    setTeam s o.team (match o.dst with
      | .vec d wide =>
        let rs := pair wide d
        let t := o.writeLanes t
        if recs.isEmpty then t.fillV rs else { t with vFault := putMany {} (fun _ => { f rs with old := o.old }) rs t.vFault }
      | .sca d ty =>
        if recs.isEmpty then
          (t.ws d (sldValue ty (((o.words.find? fun w => w.part == 0).bind WordReq.word).getD 0)
            (((o.words.find? fun w => w.part == 1).bind WordReq.word).getD 0))).fillS [d]
        else if d = 0 then { t with held := t.held ++ [f []] }
        else { t with sFault := putAt {} t.sFault d (f [d]) }
      | .none => if recs.isEmpty then t else { t with held := t.held ++ [f []] })

/-- Completes every load whose words are all here. -/
def finishLoads (s : State) : State :=
  (s.loads.filter fun o => o.words.all WordReq.isHere).foldl completeLoad s

/-- A `tbld` of the team has still to read this word (R100, R113). -/
def tableReads (s : State) (k pa : Nat) : Bool :=
  s.cores.any fun e => e.2.tabLoads.any fun x => x.1 == k && (List.range 1028).any fun i =>
    match checkAddr s e.1 (bandKey k) 4 (BitVec.ofNat 64 (x.2.2 + 4 * i)) .read with
    | .go (.mem a _ _) => a == pa
    | _ => false

/-- The team has a load or an atomic of this word on its way (R113). -/
def wordBusy (s : State) (k pa : Nat) : Bool :=
  (s.loads.any fun o => o.team == k && o.words.any fun w => !w.isHere && w.pa == pa) || tableReads s k pa

/-- A later read of the team at a point would not follow its read, or its atomic, of this word that is on its way: one of the two is of
an outer point, or an acquire has come between them (R13, R113, R341). -/
def readBusy (s : State) (k : Nat) (point : Point) (pa : Nat) : Bool :=
  s.loads.any fun o => o.team == k && o.words.any fun w => !w.isHere && w.pa == pa &&
    (o.atomic || o.point != .l1 || point != .l1 || (w.stage == .flying && w.epoch != (coreOf s o.core).epoch))

/-- The lanes of a core that hold an entry of the collector (R129). -/
def collectorEntries (s : State) (core : Nat) : Nat :=
  ((s.loads.filter fun o => o.core == core).map fun o =>
    ((o.words.filter fun w => w.stage == .flying).map fun w => w.lane).eraseDups.length).foldl (· + ·) 0

/-- The collector has entries for every row of some lanes in turn (R129): the rows of an instruction that is served at once free theirs
one after the other. -/
def collectorRoom (s : State) (core : Nat) (lanes : List Nat) : Bool :=
  (List.range 32).all fun row => decide (collectorEntries s core + (lanes.filter fun L => L / 32 == row).length ≤ 256)

/-- Words that reach a core: each is written into the lanes that wait for it, and a word that the core has written since the request was
made gives the value that it wrote (R12). -/
def land (s : State) (r : Req) (data : List (Nat × Datum)) : State :=
  let val := fun (o : LoadOp) (w : WordReq) (d : Datum) => match w.stored with
    | some x => Datum.ok x
    | none => if ownWord s r.core o.point w.pa then (held (l1Of s r.core) w.pa).getD d else d
  let mine := fun (o : LoadOp) => o.core == r.core && !o.atomic
  let s : State := { s with
    loads := s.loads.map fun o => if mine o then
      { o with words := o.words.map fun w => if w.stage == .flying && w.via == r.point && w.pa / 256 == r.sb && w.epoch == r.epoch then
          match data.lookup (wordIx w.pa) with
          | some d => { w with stage := .here (val o w d) }
          | none => w
        else w }
      else o }
  (s.loads.filter mine).foldl (fun s o => match s.teams.lookup o.team with
    | some t => setTeam s o.team (o.writeLanes t)
    | none => s) s

/-! ### Publication -/

/-- Takes the dirty words of a core's L1 that `p` names for publication to an outer point, for release `id`; a word last written
through a CP mapping is taken only with `cpToo` (R122, R350). A word already on its way unchanged is waited for. -/
def capture (s : State) (core : Nat) (toHome cpToo : Bool) (p : Nat → Bool) (id : Nat) : State :=
  let words := (l1Of s core).flatMap fun e => (e.2.dirtyWords.filter fun i =>
    p (e.1 * 256 + 4 * i) && (cpToo || !bit e.2.cp.toNat i)).map fun i => (e.1 * 256 + 4 * i, i, e.2)
  words.foldl (fun s x => one s x.1 x.2.1 x.2.2) s
where
  /-- One dirty word of a superblock. -/
  one (s : State) (pa i : Nat) (b : Blk) : State :=
    let last := (s.pubs.filter fun q => q.core == core && q.pa == pa).getLast?
    match last with
    | some q =>
      if q.w == look 0 b.words i && (q.toHome || !toHome || !q.sent) then
        { s with pubs := s.pubs.map fun y => if y.uid == q.uid then
            { y with waiters := y.waiters ++ [id], toHome := y.toHome || toHome } else y }
      else add s pa i b
    | none => add s pa i b
  add (s : State) (pa i : Nat) (b : Blk) : State :=
    let (s, w, poison) := leaving s b pa core
    { s with
      serial := s.serial + 1
      pubs := s.pubs ++ [{ uid := s.serial, waiters := [id], core := core, die := core / 144, launch := b.launch, pa := pa, w := w,
                           poison := poison, key := b.key, hint := bits b.hint.toNat (2 * (i / 16)) 2, toHome := toHome,
                           cp := bit b.cp.toNat i }] }

/-- Every word that release `id` publishes has been performed. -/
def releaseDone (s : State) (id : Nat) : Bool :=
  !(s.pubs.any fun p => p.waiters.contains id) && !(s.asks.any fun a => a.pubs.contains id) && !(s.blocks.any fun b => b.pubs.contains id)

/-- The team has a load or an atomic outstanding, or the loads of a `tbld` (R100, R339). -/
def loading (s : State) (k : Nat) : Bool :=
  (s.loads.any fun o => o.team == k) || s.cores.any fun e => e.2.tabLoads.any fun x => x.1 == k

/-- The release part of an instruction (R122, R339): its words are taken once, then the instruction waits until they and the
team's earlier accesses are performed, and goes on with `cont`. -/
def releasing (s : State) (k : Nat) (t : Team) (point : Point) (p : Nat → Bool) (cont : State → Team → State) : State :=
  let ready := fun (s : State) (t : Team) (id : Nat) =>
    if releaseDone s id && !loading s k then cont s t else waitHere (setTeam s k { teamOf s k with release := some id })
  match t.release with
  | some id => ready s t id
  | none =>
    let id := s.serial
    let s := flushMisses { s with serial := s.serial + 1 } t.core
    ready (if point == .l1 then s else capture s t.core (point == .home) false p id) t id

/-- A core acts as a kernel boundary, or `phase.dev`, makes it (R196, R346): its dirty words go to their homes, the words of CP
mappings too where `cpToo`, and its clean words are invalidated. -/
def flushCore (s : State) (core : Nat) (cpToo : Bool) : State :=
  let s := capture s core true cpToo (fun _ => true) s.serial
  let s := (s.pubs.filter fun p => p.core == core).foldl performPub { s with serial := s.serial + 1 }
  invalidateClean s core

/-- Writes every dirty word of a die's L2 to its home (R346). -/
def flushL2 (s : State) (die : Nat) : State :=
  (l2Of s die).foldl (fun s e =>
    let s := l2Evict s die e
    match blk (l2Of s die) e.1 with
    | some b => setL2 s die (setAt (l2Of s die) e.1 { b with dirty := 0 })
    | none => s) s

/-! ### Debug events and address checks -/

/-- Abandons an `mwait`: its destination is as it was, and it waits afresh (R127). It counts as issued when it issues again (R205). -/
def Team.abandon (t : Team) : Team :=
  let t := { t with stepAsked := none }
  match t.hold with
  | .mwait d _ _ _ _ _ old _ =>
    let t := t.ws d.toNat old
    { (if (t.sFault.lookup d.toNat).isSome then t else t.fillS [d.toNat]) with hold := .free, count := t.count - 1 }
  | _ => t

/-- Changes every team of a band. -/
def mapTeams (s : State) (band : Nat) (f : Team → Team) : State :=
  { s with teams := s.teams.map fun e => if bandKey e.1 == band then (e.1, f e.2) else e }

/-- The teams of a band. -/
def bandTeams (s : State) (band : Nat) : NMap Team := s.teams.filter fun e => bandKey e.1 == band

/-- Nothing of a band holds its stop back (R196): producers, Mill fills, table loads and swaps, pending traps. -/
def drained (s : State) (band : Nat) : Bool :=
  (bandTeams s band).all (fun e => !outstanding s e.1 && e.2.trapping.isNone) &&
    (bandOf s band).cores.all fun c => (coreOf s c).tabLoads.all (fun x => bandKey x.1 != band) &&
      (coreOf s c).tabSwap.all (fun k => bandKey k != band) && (coreOf s c).tabWait.all fun k => bandKey k != band

/-- A band whose stop was held back and which is drained now stands still: each of its cores acts as `phase.dev` and writes its CP
words too (R196, R202, R325). -/
def standStill (s : State) (band : Nat) : State :=
  let b := bandOf s band
  let flush := fun (s : State) => b.cores.foldl (fun s c => flushCore s c true) s
  if !drained s band then s
  else match b.run with
    | .halting => setBand (flush s) band { b with run := .halted }
    | .breaking => setBand (flush s) band { b with run := .stopped }
    | _ => s

/-- Stops a band by steps 1 to 4 of R196: for `halt` with `.halting`, for a debug event with `.breaking` (R202, R325). -/
def stopBand (s : State) (band : Nat) (how : Run) : State :=
  standStill (mapTeams (setBand s band { bandOf s band with run := how }) band Team.abandon) band

/-- A debug event of a team (R202): a BREAK trap, or the stop of the band where a debugger is attached. -/
def debugEvent (s : State) (k : Nat) (t : Team) (ev : Nat) (recs : List Rec) (tepc : DWord) : State :=
  if bit t.dbgctl.toNat 14 then
    stopBand (setTeam (leaveTables s t.core k) k { t with dbgst := BitVec.ofNat 64 ev, release := none, pc := tepc, credit := false,
                                                          stepping := 0, stepLane := none }) (bandKey k) .breaking
  else raiseAt s k t cBREAK recs tepc

/-- A watchpoint of the band matches an access (R202). -/
def watched (b : Band) (t : Team) (rd wr : Bool) (w : Nat) (va : DWord) : Bool :=
  !b.bp.isEmpty && !bit t.dbgctl.toNat 13 && (List.range 8).any fun i =>
    let r := (look 0 b.bp (8 + i)).toNat
    ((rd && bit r 0) || (wr && bit r 1)) && decide ((bits r 2 55 + 2 ^ 55 - bits va.toNat 2 55) % 2 ^ 55 < max 1 (w / 4))

/-- What an instruction with one range of `n` bytes does at a watchpoint, once its checks have passed (R202). -/
def unlessWatched (s : State) (k : Nat) (rd wr : Bool) (n : Nat) (va : DWord) (body : State) : State :=
  let t := teamOf s k
  if watched (bandOf s (bandKey k)) t rd wr n va then
    debugEvent s k t 5 [{ cause := cBREAK, addr := va, flags := if wr then 1 else 0 }] t.pc
  else body

/-- The same for words at several addresses. -/
def unlessWatchedAny (s : State) (k : Nat) (wr : Bool) (vas : List DWord) (body : State) : State :=
  let t := teamOf s k
  match vas.find? fun va => watched (bandOf s (bandKey k)) t (!wr) wr 4 va with
  | some va => debugEvent s k t 5 [{ cause := cBREAK, addr := va, flags := if wr then 1 else 0 }] t.pc
  | none => body

/-- Notes the translation misses of an instruction: once for each page (R376). -/
def noteMisses (s : State) (k : Nat) (t : Team) (vas : List DWord) : State :=
  let pages := ((vas.filter fun va => canonicalVa va && !inAperture va).map fun va => va.toNat % 2 ^ 57 / 65536 * 65536).eraseDups
  pages.foldl (fun s p => noteMiss s t.core (bandOf s (bandKey k)).tenant p) s

/-- The address checks of an instruction (R107, R108, R202): once every lane's check is complete, which can wait for the host's
translation, faults of the first rank, then watchpoints; else the places. -/
def access (s : State) (k : Nat) (t : Team) (w : Nat) (rd wr : Bool) (flags : BitVec 8) (as : List (Nat × DWord))
    (body : State → List (Nat × DWord × Place) → State) : State :=
  let s := noteMisses s k t (as.map fun a => a.2)
  let cs := as.map fun a => (a.1, a.2, checkAddr s t.core (bandKey k) w a.2 (if wr then .write else .read))
  let faults := cs.filterMap fun c => match c.2.2 with
    | .fault f => some (c.1, c.2.1, f)
    | _ => none
  let waits := cs.any fun c => match c.2.2 with
    | .wait _ => true
    | _ => false
  match [cMALIGN, cBOUNDS, cXLATE, cPROT].find? fun c => faults.any fun f => f.2.2 == c with
  | some c =>
    if waits then waitHere s
    else refuse (useDenials s (bandOf s (bandKey k)).tenant (as.map fun a => a.2)) k c
      (faults.map fun f => { lane := f.1, cause := f.2.2, addr := f.2.1, flags := flags })
  | none =>
    let hits := as.filter fun a => watched (bandOf s (bandKey k)) t rd wr w a.2
    if waits then waitHere s
    else if !hits.isEmpty then
      debugEvent s k (teamOf s k) 5 (hits.map fun a => { lane := a.1, cause := cBREAK, addr := a.2, flags := flags }) t.pc
    else body s (cs.filterMap fun c => match c.2.2 with
      | .go p => some (c.1, c.2.1, p)
      | _ => none)

end Sys2Proof.Machine
end

