-- ==== Sys2Proof/Machine/MemOps.lean ====
section
/-! DEFINITION. Loads, stores, gathers and scatters (R7, R8, R15, R103 to R117), prefetch, fences and cache control (R109, R122
to R126). -/

namespace Sys2Proof.Machine

/-! ### What the M class shares -/

/-- The orders of a code: acquire for 1 and 3, release for 2 and 3 (R106). -/
def acquires (ord : BitVec 2) : Bool := ord == 1 || ord == 3
def releases (ord : BitVec 2) : Bool := ord == 2 || ord == 3

/-- The orderings and scopes that R106 allows a plain access: `other` is the one legal code beside 0. -/
def plainOrder (other : Nat) (ord : BitVec 2) (scope : BitVec 3) : Bool :=
  if ord == 0 then scope == 0 else decide (ord.toNat = other) && scope != 7

/-- An instruction that goes to memory: it waits while an acquire of the team is not complete (R122). -/
def memory (legal : Bool) (s : State) (body : Nat → Team → State) : Out :=
  withTeam s fun k t => if !legal then illop s k t else if t.acquiring then waitHere s else body k t

/-- The point of an ordered access, and the L1 for a plain one. -/
def orderPoint (ord : BitVec 2) (scope : BitVec 3) : Point := if ord == 0 then .l1 else pointOf scope.toNat

/-- The lane addresses `S[b] + w·L` (R103). -/
def baseAddrs (t : Team) (b : BitVec 5) (w : Nat) (lanes : List Nat) : List (Nat × DWord) :=
  lanes.map fun L => (L, t.rs b.toNat + BitVec.ofNat 64 (w * L))
/-- The lane addresses `S[b] + SignExtend64(V[o][L])` (R103). -/
def offsetAddrs (t : Team) (b : BitVec 5) (o : BitVec 6) (lanes : List Nat) : List (Nat × DWord) :=
  lanes.map fun L => (L, t.rs b.toNat + (t.rv o.toNat L).signExtend 64)

def widthOf (wide : Bool) : Nat := if wide then 8 else 4

/-! ### Loads -/

/-- The address that a request of a scratchpad word has: none of memory. -/
def noPa : Nat := 2 ^ 52

/-- The word requests of a load: a scratchpad word is read at once, where its only copy lies (R105). -/
def loadWords (s : State) (as : List (Nat × DWord × Place)) (parts : Nat) : List WordReq :=
  as.flatMap fun a => (List.range parts).map fun i =>
    let p := a.2.2.plus (4 * i)
    let va := a.2.1.toNat + 4 * i
    match p with
    | .pad c o => { lane := a.1, part := i, pa := noPa, va := va,
                    stage := .here (padDatum s c o) }
    | .mem pa key _ => { lane := a.1, part := i, pa := pa, va := va, key := key }

/-- The scratchpad words that a load reads have their codes seen to (R378). -/
def tendLoads (s : State) (as : List (Nat × DWord × Place)) (parts : Nat) : State :=
  as.foldl (fun s a => (List.range parts).foldl (fun s i => match a.2.2 with
    | .pad c o => tendPad s c (o + 4 * i)
    | .mem _ _ _ => s) s) s

/-- Issues a load (R47, R111, R122): with no lane, only an acquire is left of it. -/
def issueLoad (s : State) (k : Nat) (t : Team) (dst : Dst) (point : Point) (acq : Bool) (as : List (Nat × DWord × Place))
    (parts : Nat) : State :=
  let outer := point != .l1
  let s := if acq && outer then flushMisses s t.core else s
  if as.isEmpty then finish (if acq && outer then invalidateClean s t.core else s) k t
  else
    let o : LoadOp := { id := s.serial, team := k, core := t.core, dst := dst, point := point, acq := acq, inval := outer,
                        hint := t.ret, words := loadWords s as parts, old := t.laneWords dst (as.map fun a => a.1) }
    let s := tendLoads s as parts
    let t := match dst with
      | .vec d wide => t.emptyV (pair wide d)
      | .sca d _ => t.emptyS [d]
      | .none => t
    finishLoads (finish { s with serial := s.serial + 1, loads := s.loads ++ [o] } k { t with acquiring := acq })

/-- A load of some words at a point has to wait for the team's own accesses to them (R113). -/
def loadWaits (s : State) (k : Nat) (point : Point) (as : List (Nat × DWord × Place)) (parts : Nat) : Bool :=
  as.any fun a => match a.2.2 with
    | .mem pa _ _ => (List.range parts).any fun i => readBusy s k point (pa + 4 * i)
    | _ => false

/-- `ld` and `wgath` once their lanes' addresses are known (R111, R117). -/
def vectorLoad (s : State) (k : Nat) (t : Team) (wide : Bool) (d : Nat) (ord : BitVec 2) (scope : BitVec 3)
    (as : List (Nat × DWord)) : State :=
  gated s k t { preds := [t.guardReg], dstV := pair wide d, lanes := laneMask fun L => as.any fun a => a.1 == L } fun t =>
    access s k t (widthOf wide) true false 0 as fun s ps =>
      if loadWaits s k (orderPoint ord scope) ps (if wide then 2 else 1) then waitHere s
      else issueLoad s k t (.vec d wide) (orderPoint ord scope) (acquires ord) ps (if wide then 2 else 1)

def execLdBase (d : BitVec 6) (b : BitVec 5) (ord : BitVec 2) (scope : BitVec 3) (s : State) : Out :=
  memory (plainOrder 1 ord scope) s fun k t =>
    match t.wideType with
    | none => illop s k t
    | some w =>
      if !t.okV w d.toNat then illop s k t
      else gated s k t { srcS := [(b.toNat, false)], preds := [t.guardReg] } fun t =>
        vectorLoad s k t w d.toNat ord scope (baseAddrs t b (widthOf w) (laneList t t.present))

def execLdVectorOffset (d : BitVec 6) (b : BitVec 5) (o : BitVec 6) (ord : BitVec 2) (scope : BitVec 3) (s : State) : Out :=
  memory (plainOrder 1 ord scope) s fun k t =>
    match t.wideType with
    | none => illop s k t
    | some w =>
      if !(t.okV w d.toNat && t.okV false o.toNat) then illop s k t
      else gated s k t { srcV := [(o.toNat, false)], srcS := [(b.toNat, false)], preds := [t.guardReg] } fun t =>
        vectorLoad s k t w d.toNat ord scope (offsetAddrs t b o (laneList t t.present))

/-- The width of `sld` and `sst`; none for a reserved type (R15). -/
def Team.scalarWidth (t : Team) : Option Nat :=
  if t.typeCode > 12 then none else some (if t.typeCode == 2 || t.typeCode == 3 then 8 else 4)

def execSld (d b : BitVec 5) (ord : BitVec 2) (scope : BitVec 3) (s : State) : Out :=
  memory (plainOrder 1 ord scope) s fun k t =>
    match t.scalarWidth with
    | none => illop s k t
    | some w =>
      gated s k t { srcS := [(b.toNat, false)], dstS := [d.toNat] } fun t =>
        access s k t w true false 0 [(0, t.rs b.toNat)] fun s ps =>
          if loadWaits s k (orderPoint ord scope) ps (w / 4) then waitHere s
          else issueLoad s k t (.sca d.toNat t.typeCode) (orderPoint ord scope) (acquires ord) ps (w / 4)

/-! ### Stores -/

/-- The words that a store writes, in lane order, so that the highest lane's value lands (R112). -/
def storeWords (as : List (Nat × DWord × Place)) (val : Nat → List Word) : List (Place × Word) :=
  as.flatMap fun a => (val a.1).zipIdx.map fun w => (a.2.2.plus (4 * w.2), w.1)

/-- Writes words in the core's view (R14). -/
def writeWords (s : State) (core launch hint : Nat) (ws : List (Place × Word)) : State :=
  ws.foldl (fun s w => storePlace s core launch hint w.1 w.2) s

/-- The physical words of a list of places. -/
def placeWords (ws : List (Place × Word)) : List Nat := ws.filterMap fun w => match w.1 with
  | .mem pa _ _ => some (pa / 4 * 4)
  | _ => none

/-- The last write of each place, in order (R112). -/
def lastWrites (ws : List (Place × Word)) : List (Place × Word) :=
  ws.reverse.foldl (fun r w => if r.any fun x => x.1 == w.1 then r else w :: r) []

/-- Writes words in the core's view, each captured at once for release `id` (R122): an eviction by a later word publishes it. -/
def writeThrough (s : State) (core launch hint : Nat) (toHome : Bool) (id : Nat) (ws : List (Place × Word)) : State :=
  ws.foldl (fun s w =>
    let s := storePlace s core launch hint w.1 w.2
    match w.1 with
    | .mem pa _ _ =>
      match blk (l1Of s core) (pa / 256) with
      | some b => if b.isDirty (wordIx pa) && !bit b.cp.toNat (wordIx pa) then capture.one core toHome id s (pa / 4 * 4) (wordIx pa) b else s
      | none => s
    | _ => s) s

/-- The point of an instruction that reaches some places: on the scratchpads a wider scope than the band's is the band's (R22, R105). -/
def clampPoint (point : Point) (ps : List Place) : Point :=
  if point == .home && !ps.isEmpty && ps.all fun p => match p with
    | .pad _ _ => true
    | _ => false then .l2 else point

/-- A store, plain or releasing (R111, R122, R129), of the words of some lanes: a release publishes first, and its own words are then
written through to its point. -/
def doStore (s : State) (k : Nat) (t : Team) (ord : BitVec 2) (scope : BitVec 3) (lanes : List Nat) (ws : List (Place × Word)) : State :=
  let pas := placeWords ws
  if (pas.any fun pa => wordBusy s k pa) || !collectorRoom s t.core lanes then waitHere s
  else
    let launch := (bandOf s (bandKey k)).launch
    let store := fun s => writeWords s t.core launch t.ret ws
    if !releases ord then finish (store s) k t
    else
      let point := clampPoint (pointOf scope.toNat) (ws.map fun w => w.1)
      releasing s k t point (fun _ => true) fun s t =>
        finish (if point == .l1 then store s
          else writeThrough { s with serial := s.serial + 1 } t.core launch t.ret (point == .home) s.serial (lastWrites ws)) k t

/-- The words of a lane's value. -/
def Team.valWords (t : Team) (wide : Bool) (d L : Nat) : List Word := (pair wide d).map fun r => t.rv r L

def vectorStore (s : State) (k : Nat) (t : Team) (wide : Bool) (d : Nat) (ord : BitVec 2) (scope : BitVec 3)
    (as : List (Nat × DWord)) : State :=
  access s k t (widthOf wide) false true 1 as fun s ps => doStore s k t ord scope (ps.map fun p => p.1) (storeWords ps (t.valWords wide d))

def execStBase (d : BitVec 6) (b : BitVec 5) (ord : BitVec 2) (scope : BitVec 3) (ta : Bool) (s : State) : Out :=
  memory (plainOrder 2 ord scope) s fun k t =>
    match t.wideType with
    | none => illop s k t
    | some w =>
      if !t.okV w d.toNat then illop s k t
      else gated s k t { srcV := srcsV w d.toNat ta, srcS := [(b.toNat, false)], preds := [t.guardReg] } fun t =>
        vectorStore s k t w d.toNat ord scope (baseAddrs t b (widthOf w) (laneList t t.present))

def execStVectorOffset (d : BitVec 6) (b : BitVec 5) (o : BitVec 6) (ord : BitVec 2) (scope : BitVec 3) (ta : Bool) (s : State) :
    Out :=
  memory (plainOrder 2 ord scope) s fun k t =>
    match t.wideType with
    | none => illop s k t
    | some w =>
      if !(t.okV w d.toNat && t.okV false o.toNat) then illop s k t
      else gated s k t { srcV := srcsV w d.toNat ta ++ [(o.toNat, false)], srcS := [(b.toNat, false)], preds := [t.guardReg] }
        fun t => vectorStore s k t w d.toNat ord scope (offsetAddrs t b o (laneList t t.present))

def execSst (d b : BitVec 5) (ord : BitVec 2) (scope : BitVec 3) (ta : Bool) (s : State) : Out :=
  memory (plainOrder 2 ord scope) s fun k t =>
    match t.scalarWidth with
    | none => illop s k t
    | some w =>
      gated s k t { srcS := [(d.toNat, ta), (b.toNat, false)] } fun t =>
        access s k t w false true 1 [(0, t.rs b.toNat)] fun s ps =>
          let x := t.rs d.toNat
          doStore s k t ord scope [0] (storeWords ps fun _ => (x.setWidth 32) :: if w == 8 then [(x >>> 32).setWidth 32] else [])

/-! ### Patterns -/

/-- The word offset of element `i` of a pattern; none where it has no such element (R8, R115, R116). -/
def patternElem (p o1 o2 : Nat) (i : Nat) : Option Int :=
  match bits p 62 2 with
  | 0 => if i < bits p 0 16 then some ((bits p 16 16 : Int) + i * toSigned 16 (bits p 32 16)) else none
  | 1 => if i < bits p 0 5 then
      some ((bits p 16 16 + (if i < 8 then bits o1 (8 * i) 8 else bits o2 (8 * (i - 8)) 8) : Nat) : Int) else none
  | _ =>
    let nc := bits p 56 6
    if i < bits p 48 8 * nc then
      some ((bits p 16 16 : Int) + (i / nc : Nat) * toSigned 16 (bits p 32 16) + (i % nc : Nat) * toSigned 16 (bits p 0 16))
    else none

/-- A pattern word that traps ILLOP (R7, R115): KIND 3, a nonzero reserved field, or a COUNT above 16 of an explicit pattern. -/
def badPattern (p : Nat) : Bool :=
  match bits p 62 2 with
  | 0 => bits p 48 14 != 0
  | 1 => bits p 32 30 != 0 || bits p 5 11 != 0 || decide (bits p 0 5 > 16)
  | 2 => false
  | _ => true

/-- Reads a pattern and gives the lanes' element addresses to `body` (R8, R115 to R117); a pattern word that can be read and is illegal
ranks before what the other registers `vs` hold back (R183). -/
def withPattern (s : State) (k : Nat) (t : Team) (vs : List (Nat × Bool)) (b o : BitVec 5) (body : Team → List (Nat × DWord) → State) : State :=
  let p := (t.rs o.toNat).toNat
  let explicit := t.sReadable o.toNat && bits p 62 2 == 1
  if t.sReadable o.toNat && (badPattern p || (explicit && decide (o.toNat > 29))) then illop s k t
  else gated s k t { srcV := vs, preds := [t.guardReg], srcS := [(b.toNat, false), (o.toNat, false)] ++
      if explicit then [(o.toNat + 1, false), (o.toNat + 2, false)] else [] } fun t =>
      let o1 := if explicit then (t.rs (o.toNat + 1)).toNat else 0
      let o2 := if explicit then (t.rs (o.toNat + 2)).toNat else 0
      body t ((laneList t t.present).filterMap fun L =>
        (patternElem p o1 o2 L).map fun w => (L, t.rs b.toNat + BitVec.ofInt 64 (4 * w)))

def execWgath (d : BitVec 6) (b o : BitVec 5) (ord : BitVec 2) (scope : BitVec 3) (s : State) : Out :=
  memory (plainOrder 1 ord scope) s fun k t =>
    match t.wideType with
    | none => illop s k t
    | some w =>
      if !t.okV w d.toNat then illop s k t
      else withPattern s k t [] b o fun t as => vectorLoad s k t w d.toNat ord scope as

def execWscat (d : BitVec 6) (b o : BitVec 5) (ord : BitVec 2) (scope : BitVec 3) (ta : Bool) (s : State) : Out :=
  memory (plainOrder 2 ord scope) s fun k t =>
    match t.wideType with
    | none => illop s k t
    | some w =>
      if !t.okV w d.toNat then illop s k t
      else withPattern s k t (srcsV w d.toNat ta) b o fun t as => vectorStore s k t w d.toNat ord scope as

/-! ### Held faults, fences and phases -/

/-- The first data fault that a team's registers carry, or that it holds with no register, with the team as delivery leaves it
(R110). In a handler none is delivered. A held PIPE is delivered inside a region as well, as trap entry closes it (R271). -/
def Team.heldFault (t : Team) : Option (Team × DataFault) :=
  if t.inh then none
  else match t.vFault, t.sFault, t.held with
    | (_, f) :: _, _, _ => some (t.deliverV f, f)
    | [], (_, f) :: _, _ => some (t.unfaultS f.regs, f)
    | [], [], f :: r => some ({ (if f.cause == cPIPE then t.closeRegion else t) with held := r }, f)
    | [], [], [] => none

/-- `fence` (R123). -/
def execFence (scope : BitVec 3) (s : State) : Out :=
  memory (scope != 7) s fun k t =>
    match t.heldFault with
    | some (t', f) => raise s k t' f.cause f.recs
    | none => releasing s k t (pointOf scope.toNat) (fun _ => true) fun s t =>
      match t.heldFault with
      | some (t', f) => raise s k t' f.cause f.recs
      | none => finish s k t

/-- `phase` (R124). -/
def execPhase (scope : BitVec 3) (s : State) : Out :=
  memory (scope != 7) s fun k t =>
    releasing s k t (pointOf scope.toNat) (fun _ => true) fun s t =>
      let s := if pointOf scope.toNat == .l1 then s else invalidateClean s t.core
      match t.heldFault with
      | some (t', f) => raise s k t' f.cause f.recs
      | none => finish s k t

/-! ### Prefetch and cache control -/

/-- `pf` (R109, R125): each lane whose address is good requests its word, or its pair, once every lane's check is complete (R107); a word
that the L1 holds is hit (R132). -/
def execPf (b : BitVec 5) (o : BitVec 6) (s : State) : Out :=
  memory true s fun k t =>
    match t.wideType with
    | none => illop s k t
    | some w =>
      if !t.okV false o.toNat then illop s k t
      else gated s k t { srcV := [(o.toNat, false)], srcS := [(b.toNat, false)], preds := [t.guardReg] } fun t =>
        let as := offsetAddrs t b o (laneList t t.present)
        let hits := as.filter fun a => watched (bandOf s (bandKey k)) t true false (widthOf w) a.2
        if !hits.isEmpty then debugEvent s k t 5 (hits.map fun a => record a.1 cBREAK a.2) t.pc
        else
        let s := noteMisses s k t (as.flatMap fun a => (List.range (if w then 2 else 1)).map fun i => a.2 + BitVec.ofNat 64 (4 * i))
        let checks := fun (a : Nat × DWord) => (List.range (if w then 2 else 1)).map fun i =>
          checkAddr s t.core (bandKey k) 1 (a.2 + BitVec.ofNat 64 (4 * i)) .read
        if !collectorRoom s t.core (as.map fun a => a.1) || as.any fun a => (checks a).any fun c => match c with
            | .wait _ => true
            | _ => false then waitHere s
        else
          let tenant := (bandOf s (bandKey k)).tenant
          let s := as.foldl (fun s a => if (checks a).any fun c => match c with
            | .fault _ => true
            | _ => false then s else (checks a).foldl (fun s c =>
            match c with
            | .go (.mem pa key _) =>
              let pa := pa / 4 * 4
              let s := mendL1 s t.core pa
              if (held (l1Of s t.core) pa).isSome then setL1 s t.core (touch (l1Of s t.core) pa t.ret)
              else enterMiss s t.core tenant .l1 t.ret key pa
            | _ => s) s) s
          finish (useDenials s (bandOf s (bandKey k)).tenant (as.map fun a => a.2)) k t

/-- How many pages of 64 KiB a byte range overlaps. -/
def pageCount (va : DWord) (n : Nat) : Nat := if n = 0 then 0 else (va.toNat % 65536 + n - 1) / 65536 + 1

/-- The page after an address's page. -/
def nextPage (va : DWord) : DWord := BitVec.ofNat 64 (va.toNat / 65536 * 65536 + 65536)

/-- The first page of a range that fails its checks, or waits; aperture addresses are skipped (R107, R126). -/
def firstMissing (f : DWord → Check) : Nat → DWord → Option (DWord × Check)
  | 0, _ => none
  | n + 1, p =>
    if inAperture p then firstMissing f n (nextPage p)
    else match f p with
      | .go _ => firstMissing f n (nextPage p)
      | r => some (p, r)

/-- One address in each page of a range. -/
def rangePages : Nat → DWord → List DWord
  | 0, _ => []
  | n + 1, p => if inAperture p then rangePages n (nextPage p) else p :: rangePages n (nextPage p)

/-- The physical bytes of a range, page by page: the first and the last address of each. -/
def inRange (s : State) (core band : Nat) (va : DWord) (n : Nat) : List (Nat × Nat) :=
  (rangePages (pageCount va n) va).filterMap fun p =>
    match translate s core (bandOf s band).tenant (p.toNat % 2 ^ 57) with
    | .ok tr =>
      let last := min (va.toNat + n - 1) (p.toNat / 65536 * 65536 + 65535)
      some (tr.pa (p.toNat % 2 ^ 57), tr.pa (p.toNat % 2 ^ 57) + (last - p.toNat))
    | _ => none

/-- Invalidates the words of a range in the caches of a core, and of its die where the point is the home (R126). A word that the core has
written since stays (R336); one that is still dirty in the L2 is first performed at its home. A fill on its way does not bring one back. -/
def dropRange (s : State) (core : Nat) (home : Bool) (p : Nat → Bool) : State :=
  let late := fun (m : Miss) => (List.range 64).filter fun i => bit m.mask.toNat i && p (m.sb * 256 + 4 * i)
  let s := { s with misses := s.misses.map fun m => if m.core == core then
      { m with install := m.install &&& ~~~wordsMask (late m), shut := m.shut ||| wordsMask (late m) } else m }
  let s := (l1Of s core).foldl (fun s e => (List.range 64).foldl (fun s i =>
    let pa := e.1 * 256 + 4 * i
    if e.2.has i && p pa && !e.2.isDirty i && !bit e.2.cp.toNat i then setL1 s core (dropWord (l1Of s core) pa) else s) s) s
  if !home then s
  else (l2Of s (core / 144)).foldl (fun s e => (List.range 64).foldl (fun s i =>
    let pa := e.1 * 256 + 4 * i
    if e.2.has i && p pa then
      let s := if e.2.isDirty i then
          let (s, w, poison) := leaving s e.2 pa (10000 + core / 144 * 48 + e.1 % 48)
          homeWrite s pa w poison e.2.launch e.2.key (e.2.lineHint i) (core / 144 + 1)
        else s
      setL2 s (core / 144) (dropWord (l2Of s (core / 144)) pa)
    else s) s) s

/-- `cwb` and `cinv` (R126). -/
def cacheControl (inv : Bool) (b l : BitVec 5) (scope : BitVec 3) (s : State) : Out :=
  memory (scope != 7) s fun k t =>
    gated s k t { srcS := [(b.toNat, false), (l.toNat, false)] } fun t =>
      let va := t.rs b.toNat
      let n := (t.rs l.toNat).toNat
      let point := pointOf scope.toNat
      if n = 0 || point == .l1 then finish s k t
      else
        match firstMissing (fun p => checkAddr s t.core (bandKey k) 1 p .read) (pageCount va n) va with
        | some (p, .fault c) => refuse1 s k c p
        | some (p, _) => waitHere (noteMisses s k t [p])
        | none =>
            let s := noteMisses s k t [va]
            let rs := inRange s t.core (bandKey k) va n
            let p := fun pa => rs.any fun r => decide (r.1 / 4 * 4 ≤ pa ∧ pa ≤ r.2)
            releasing s k t point p fun s t =>
              finish (if inv then dropRange s t.core (point == .home) p else s) k t

def execCwb (b l : BitVec 5) (scope : BitVec 3) (s : State) : Out := cacheControl false b l scope s
def execCinv (b l : BitVec 5) (scope : BitVec 3) (s : State) : Out := cacheControl true b l scope s

/-! ### Ranges -/

/-- A fault of an access to a range, a watchpoint that it meets, or a wait for its words. -/
inductive SpillStop where
  | fault (cause : Nat) (r : Rec)
  | watch (va : DWord)
  | wait

/-- The places of `n` words at `va`, or the first fault: the address of a word, in the order of R107. -/
def wordPlaces (s : State) (k : Nat) (t : Team) (align : Nat) (va : DWord) (n : Nat) (a : Acc) : Except SpillStop (List Place) :=
  if va.toNat % align ≠ 0 then .error (.fault cMALIGN { cause := cMALIGN, addr := va, flags := if a == .write then 1 else 0 })
  else (List.range n).mapM fun i =>
    let w := va + BitVec.ofNat 64 (4 * i)
    match checkAddr s t.core (bandKey k) 4 w a with
    | .go p => .ok p
    | .fault c => .error (.fault c { cause := c, addr := w, flags := if a == .write then 1 else 0 })
    | .wait _ => .error .wait

/-- Every place can be read now. -/
def placesReady (s : State) (core : Nat) (ps : List Place) : Bool := ps.all fun p => match p with
  | .mem pa _ _ => readReady s core pa
  | .pad _ _ => true
def askPlaces (s : State) (ps : List Place) : State := ps.foldl (fun s p => match p with
  | .mem pa _ _ => askHost s pa false
  | .pad _ _ => s) s

/-- Reads words at places in the team's view. -/
def readPlaces (s : State) (k : Nat) (t : Team) (ps : List Place) : State × List Datum :=
  ps.foldl (fun (r : State × List Datum) p =>
    let (s, d) := readPlace r.1 t.core (bandOf s (bandKey k)).tenant 0 p
    (s, r.2 ++ [d])) (s, [])

def writePlaces (s : State) (k : Nat) (t : Team) (ps : List Place) (ws : List Word) : State :=
  writeWords s t.core (bandOf s (bandKey k)).launch 0 (ps.zip ws)

/-- Runs `f` on what an access to a range gives; a fault traps at the instruction. -/
def spillThen {α : Type} (s : State) (k : Nat) (r : Except SpillStop α) (f : α → State) : State :=
  match r with
  | .ok x => f x
  | .error (.fault c r) => refuse s k c [r]
  | .error (.watch va) => debugEvent s k (teamOf s k) 5 [record 0 cBREAK va] (teamOf s k).pc
  | .error .wait => waitHere s

/-- The first page of an image of `n` bytes that fails a check, or the first that waits: none where every page passes. -/
def imageFault (s : State) (core band align n : Nat) (va : DWord) (a : Acc) : Option Check :=
  if va.toNat % align ≠ 0 then some (.fault cMALIGN)
  else if inAperture va then
    match checkAddr s core band 1 va a, checkAddr s core band 1 (va + BitVec.ofNat 64 (n - 1)) a with
    | .go _, .go _ => if apertureSlot va == apertureSlot (va + BitVec.ofNat 64 (n - 1)) then none else some (.fault cBOUNDS)
    | .go _, c => some c
    | c, _ => some c
  else ((pageStarts va n).map fun p => checkAddr s core band 1 p a).find? fun c => match c with
    | .go _ => false
    | _ => true

/-- The words of some places are not in the way of the team's own accesses in flight (R113). -/
def inOrder (s : State) (k : Nat) (ps : List Place) (write : Bool) : Bool :=
  ps.all fun p => match p with
    | .mem pa _ _ => !(if write then wordBusy s k pa else readBusy s k .l1 pa)
    | .pad _ _ => true

/-- An access of one lane to `n` bytes at `va` by plain loads or plain stores of the team: the checks of the whole range first (R107,
R108, R202), the order of R113 and R122, then the body. -/
def imageAccess (s : State) (k : Nat) (t : Team) (align n : Nat) (va : DWord) (a : Acc) (body : State → List Place → State) : State :=
  if t.acquiring then waitHere s
  else
    let s := noteMisses s k t (pageStarts va n)
    match imageFault s t.core (bandKey k) align n va a with
    | some (.fault c) => refuse s k c [{ cause := c, addr := va, flags := if a == .write then 1 else 0 }]
    | some _ => waitHere s
    | none => spillThen s k (wordPlaces s k t 4 va (n / 4) a) fun ps =>
      if !inOrder s k ps (a == .write) then waitHere s
      else unlessWatched s k (a == .read) (a == .write) n va (body s ps)

/-- The words of a range as plain loads give them, once its lines can be read. -/
def imageWords (s : State) (k : Nat) (t : Team) (ps : List Place) (f : State → List Datum → State) : State :=
  if !placesReady s t.core ps then waitHere (askPlaces s ps)
  else
    let (s, ds) := readPlaces s k t ps
    f s ds

/-- A scalar destination carries the fault of a word at `va`; s0 cannot, and the team holds it with no register (R47, R110). -/
def Team.carry (t : Team) (d : Nat) (cause : Nat) (va : DWord) : Team :=
  let x : DataFault := { cause := cause, regs := [d], recs := [record 0 cause va] }
  if d = 0 then { t with held := t.held ++ [x] } else { t.emptyS [d] with sFault := putAt {} t.sFault d x }

end Sys2Proof.Machine
end

