-- ==== Sys2Proof/Machine/Atomics.lean ====
section
/-! DEFINITION. Atomics (R118 to R121, R344) and `mwait` (R127). -/

namespace Sys2Proof.Machine

/-! ### One atomic update -/

/-- The element type that a captured MODE gives an atomic: as bits for `and`, `or`, `xor`, exchange and compare. A floating one takes
MODE.SAT as 0 (R73). -/
def atomElem (mode : Word) (fn : Nat) : Option (Elem × NumEnv) :=
  let t : Team := { mode := mode }
  if fn ≤ 2 then (t.typed [.I, .F] false).map fun r => (r.1.elem, if r.1.isFloat then { r.2 with sat := false } else r.2)
  else (Ty.ofCode t.typeCode).map fun ty => (.int false ty.lanes, t.envRn)

/-- The new value of a word (R118). The operand of an integer `add` is exact, so that the sum is reduced once. -/
def atomNew (mode : Word) (fn old : Nat) (x : Int) (y : Nat) : Nat :=
  match atomElem mode fn with
  | none => old
  | some (el, e) =>
    match fn, el with
    | 0, .int s w => reduceInt e.sat s w (intOf s w old + x)
    | 6, _ => x.toNat
    | 7, _ => if old = x.toNat then y else old
    | f, el => (combine f el e old (x.toNat % 2 ^ el.width)).1

def atomWide (mode : Word) : Bool := ((Ty.ofCode ({ mode := mode } : Team).typeCode).map Ty.wide).getD false

/-- The outcome of one lane: its old words. -/
def oldWords (wide : Bool) (lane : Nat) (lo hi : Datum) : List (Nat × Nat × Datum) :=
  if wide then (match lo, hi with
    | .ok _, .ok _ => [(lane, 0, lo), (lane, 1, hi)]
    | .ok _, d => [(lane, 0, d), (lane, 1, d)]
    | d, _ => [(lane, 0, d), (lane, 1, d)])
  else [(lane, 0, lo)]

/-- Updates the word of one lane at a point of memory, in one step (R119, R121): the old words. A poisoned word is not
updated (R110). -/
def atomAt (s : State) (point : Point) (a : AtomReq) (l : AtomLane) : State × List (Nat × Nat × Datum) :=
  let wide := atomWide a.mode
  let hint := bits a.mode.toNat 12 2
  let s := if point == .home then (if wide then purgeL2 (purgeL2 s l.pa 0) (l.pa + 4) 0 else purgeL2 s l.pa 0) else s
  let (s, lo) := pointRead s point a.core l.pa l.key hint a.tenant
  let (s, hi) := if wide then pointRead s point a.core (l.pa + 4) l.key hint a.tenant else (s, .ok 0)
  match lo, hi with
  | .ok x, .ok y =>
    let new := atomNew a.mode a.fn (x.toNat + y.toNat * 2 ^ 32) l.x l.y
    let s := pointWrite s point a.core l.pa (BitVec.ofNat 32 new) l.cp l.key hint a.launch
    let s := if wide then pointWrite s point a.core (l.pa + 4) (BitVec.ofNat 32 (new / 2 ^ 32)) l.cp l.key hint a.launch else s
    (s, oldWords wide l.lane lo hi)
  | _, _ => (s, oldWords wide l.lane lo hi)

/-- Updates a scratchpad word (R105). -/
def atomPad (s : State) (mode : Word) (fn lane c o : Nat) (x : Int) (y : Nat) : State × List (Nat × Nat × Datum) :=
  let wide := atomWide mode
  let rd := fun i => padDatum s c (o + i)
  let lo := rd 0
  let hi := if wide then rd 4 else .ok 0
  let s := if wide then tendPad (tendPad s c o) c (o + 4) else tendPad s c o
  match lo, hi with
  | .ok a, .ok b =>
    let new := atomNew mode fn (a.toNat + b.toNat * 2 ^ 32) x y
    let s := writePad s c o (BitVec.ofNat 32 new)
    (if wide then writePad s c (o + 4) (BitVec.ofNat 32 (new / 2 ^ 32)) else s, oldWords wide lane lo hi)
  | _, _ => (s, oldWords wide lane lo hi)

/-- Performs the lanes of an atomic at a point, in ascending order (R119). -/
def atomLanes (s : State) (point : Point) (a : AtomReq) : State × List (Nat × Nat × Datum) :=
  a.lanes.foldl (fun (r : State × List (Nat × Nat × Datum)) l =>
    let (s, vs) := atomAt r.1 point a l
    (s, r.2 ++ vs)) (s, [])

/-- The next part of an atomic for the home on a die leaves: to its own die's home, or in a message of class 5 (R135, R363). Its lanes
have entered the collector, and every earlier lane for that home has returned, so that lanes are applied in ascending order (R119,
R129). -/
def pumpHome (s : State) (op h : Nat) : State :=
  match s.loads.find? fun o => o.id == op with
  | none => s
  | some o =>
    match o.later.find? fun a => homeDie ((a.lanes.headD {}).pa) == h with
    | none => s
    | some a =>
      let named := fun (ls : List AtomLane) (w : WordReq) => ls.any fun l => l.lane == w.lane
      let queued := o.later.flatMap fun a => a.lanes
      let entered := o.words.all fun w => !named a.lanes w || w.stage != .waiting
      let earlier := o.words.all fun w => w.isHere || named queued w || homeDie w.pa != h
      if !entered || !earlier then s
      else
        let die := o.core / 144
        let most := if h == die then a.lanes.length else max 1 (64 * 2 ^ min (bits (crateOf s die 5).toNat 0 3) 4 / 16)
        let rest := a.lanes.drop most
        let later := if rest.isEmpty then o.later.erase a else o.later.map fun x => if x == a then { a with lanes := rest } else x
        let s := { s with loads := s.loads.map fun x => if x.id == op then { x with later := later } else x }
        if h == die then { s with homeq := s.homeq ++ [.atoms a] }
        else enqueueCut s die h 5 16 (a.lanes.take most) 0 (fun g => .atoms { a with lanes := g }) fun l => le l.pa 8 ++ le l.x.toNat 8

/-- The parts of an atomic that may leave do so. -/
def pumpAtoms (s : State) (op : Nat) : State := (List.range 8).foldl (fun s h => pumpHome s op h) s

/-- The old words of an atomic reach the register that waits for them. Its core's older copies of the words are out of date (R113). -/
def landAtoms (s : State) (op : Nat) (vals : List (Nat × Nat × Datum)) : State :=
  let passed := (s.loads.filter fun o => o.id == op && o.point != .l1).flatMap fun o =>
    (o.words.filter fun w => w.pa != noPa && vals.any fun v => v.1 == w.lane && v.2.1 == w.part).map fun w => (o.core, w.pa)
  let s : State := { (passed.foldl (fun s x => outdate s x.1 x.2) s) with loads := s.loads.map fun o => if o.id == op then
    { o with words := o.words.map fun w => match vals.find? fun v => v.1 == w.lane && v.2.1 == w.part with
        | some v => { w with stage := .here v.2.2 }
        | none => w }
    else o }
  finishLoads (pumpAtoms s op)

/-- Publishes a core's own dirty copy of a word to a point, and drops the word from its L1 (R121). A fill of the word on its way is not
kept there, since it may be older than what the point gives next (R113). -/
def shed (s : State) (core pa : Nat) (toHome : Bool) : State :=
  let s := performPubs (killMisses s core pa) core pa
  let s := if heldDirty (l1Of s core) pa then
      match blk (l1Of s core) (pa / 256) with
      | some b =>
        let (s, w, poison) := leaving s b pa core
        let p : Pub := { uid := s.serial, core := core, die := core / 144, launch := b.launch, pa := pa, w := w, poison := poison,
                         key := b.key, hint := b.lineHint (wordIx pa), toHome := toHome }
        performPub { s with serial := s.serial + 1 } p
      | none => s
    else s
  setL1 s core (dropWord (l1Of s core) pa)

/-- The physical words of an atomic's lanes. -/
def atomWords (wide : Bool) (ls : List AtomLane) : List Nat := ls.flatMap fun l => l.pa :: if wide then [l.pa + 4] else []

/-- An access to a word in its core's point can be performed now; the host is asked where it cannot. -/
def pointReady (s : State) (point : Point) (write : Bool) (core pa : Nat) : Bool :=
  match point with
  | .l1 => readReady s core pa
  | .l2 => (held (l2Of s (core / 144)) pa).isSome || readableNow s pa
  | .home => if write then updatableNow s pa else readableNow s pa

/-- The parts of an atomic by row and home (R129, R135). -/
def atomParts (a : AtomReq) : List AtomReq :=
  (List.range 32).flatMap fun row =>
    let ls := a.lanes.filter fun l => l.lane / 32 == row
    ((ls.map fun l => homeDie l.pa).eraseDups).map fun h => { a with lanes := ls.filter fun l => homeDie l.pa == h }

/-- One lane of an atomic instruction: its place, its operand and its new value. -/
structure AtomUse where
  lane : Nat
  va : Nat
  place : Place
  x : Int
  y : Nat

/-- Performs an atomic instruction whose addresses are good and whose release part is done (R119, R121, R122, R129). Words of the
scratchpad, of the L1 and of the L2 are updated at once, in lane order; words for a home go there row by row. -/
def doAtoms (s : State) (k : Nat) (t : Team) (dst : Dst) (fn : Nat) (point : Point) (acq : Bool) (us : List AtomUse) : State :=
  let wide := atomWide t.mode
  let b := bandOf s (bandKey k)
  let outer := point != .l1
  let s := if acq && outer then flushMisses s t.core else s
  let t := t.closeRegion
  if us.isEmpty then finish (if acq && outer then invalidateClean s t.core else s) k t
  else
    let lane := fun (u : AtomUse) (pa key : Nat) (cp : Bool) => ({ lane := u.lane, pa := pa, key := key, cp := cp, x := u.x, y := u.y } : AtomLane)
    let mems := us.filterMap fun u => match u.place with
      | .mem pa key cp => some (lane u pa key cp)
      | _ => none
    let a : AtomReq := { op := s.serial, fn := fn, mode := t.mode, core := t.core, tenant := b.tenant, launch := b.launch, lanes := mems }
    let wait := (atomWords wide mems).filter fun pa => point != .home && !pointReady s point false t.core pa
    if !wait.isEmpty then waitHere (wait.foldl (fun s pa => askHost s pa false) s)
    else if !collectorRoom s t.core (us.map fun u => u.lane) then waitHere s
    else
      let s := if outer then (atomWords wide mems).foldl (fun s pa => shed s t.core pa (point == .home)) s else s
      let (s, done) := us.foldl (fun (r : State × List (Nat × Nat × Datum)) u =>
        match u.place with
        | .pad c o =>
          let (s, vs) := atomPad r.1 t.mode fn u.lane c o u.x u.y
          (s, r.2 ++ vs)
        | .mem pa key cp =>
          if point == .home then r
          else
            let (s, vs) := atomAt r.1 point a (lane u pa key cp)
            (s, r.2 ++ vs)) (s, [])
      let words := us.flatMap fun u => (List.range (if wide then 2 else 1)).map fun i =>
        ({ lane := u.lane, part := i, va := u.va + 4 * i,
           pa := match u.place with
             | .mem pa _ _ => pa + 4 * i
             | _ => noPa } : WordReq)
      let o : LoadOp := { id := s.serial, team := k, core := t.core, dst := dst, point := point, acq := acq, inval := outer, flags := 3,
                          words := words, atomic := true, later := if point == .home then atomParts { a with op := s.serial } else [],
                          old := t.laneWords dst (us.map fun u => u.lane) }
      let t := match dst with
        | .vec d w => t.emptyV (pair w d)
        | _ => t
      landAtoms (finish { s with serial := s.serial + 1, loads := s.loads ++ [o] } k { t with acquiring := acq }) o.id done

/-- The unit whose checkers test the results of an atomic (R192): the adders of a sum, the logic units, and none of a comparison or an
exchange. -/
def atomUnit (fn : Nat) : Nat := if fn = 0 then 1 else if 3 ≤ fn ∧ fn ≤ 5 then 3 else 0

/-- The last part of an atomic instruction whose addresses are good: it waits for the team's own accesses to the words (R113), does its
release part (R122), and its results pass their check (R192). -/
def atomThen (s : State) (k : Nat) (t : Team) (dst : Dst) (fn : Nat) (ord : BitVec 2) (scope : BitVec 3) (lanes : LaneMask)
    (ps : List Place) (us : List AtomUse) : State :=
  let point := clampPoint (pointOf scope.toNat) ps
  if ps.any fun p => match p with
      | .mem pa _ _ => wordBusy s k pa || (atomWide t.mode && wordBusy s k (pa + 4))
      | _ => false then waitHere s
  else
    let go := fun s t => checkedLanes s k t (atomUnit fn) lanes fun s => doAtoms s k t dst fn point (acquires ord) us
    if releases ord then releasing s k t point (fun _ => true) go else go s t

/-! ### The instructions -/

/-- An atomic of every lane at `S[b] + SignExtend64(V[o][L])` (R118, R119). -/
def atomic (fn : Nat) (d : BitVec 6) (b : BitVec 5) (o : BitVec 6) (ord : BitVec 2) (scope : BitVec 3) (ta : Bool) (s : State) : Out :=
  memory (scope != 7) s fun k t =>
    match atomElem t.mode fn with
    | none => illop s k t
    | some (el, _) =>
      let w := el.width == 64
      let n := if w then 2 else 1
      let cas := fn == 7
      if !(t.okV w d.toNat && t.okV false o.toNat) ||
          (cas && (decide (d.toNat + 2 * n > t.vregs) || (w && d.toNat % 4 != 0))) then illop s k t
      else gated s k t
        { srcV := srcsV w d.toNat ta ++ (if cas then srcsV w (d.toNat + n) false else []) ++ [(o.toNat, false)]
          srcS := [(b.toNat, false)]
          preds := [t.guardReg]
          dstV := pair w d.toNat
          lanes := t.present } fun t =>
        access s k t (widthOf w) true true 3 (offsetAddrs t b o (laneList t t.present)) fun s ps =>
          atomThen s k t (.vec d.toNat w) fn ord scope t.present (ps.map fun p => p.2.2) (ps.map fun p =>
            let x := t.rw w d.toNat p.1
            ({ lane := p.1, va := p.2.1.toNat, place := p.2.2,
               x := (match fn, el with
                 | 0, .int sg wd => intOf sg wd x
                 | _, _ => (x : Int)),
               y := if cas then t.rw w (d.toNat + n) p.1 else 0 } : AtomUse))

def execAadd (d : BitVec 6) (b : BitVec 5) (o : BitVec 6) (ord : BitVec 2) (scope : BitVec 3) (ta : Bool) (s : State) : Out :=
  atomic 0 d b o ord scope ta s
def execAmin (d : BitVec 6) (b : BitVec 5) (o : BitVec 6) (ord : BitVec 2) (scope : BitVec 3) (ta : Bool) (s : State) : Out :=
  atomic 1 d b o ord scope ta s
def execAmax (d : BitVec 6) (b : BitVec 5) (o : BitVec 6) (ord : BitVec 2) (scope : BitVec 3) (ta : Bool) (s : State) : Out :=
  atomic 2 d b o ord scope ta s
def execAand (d : BitVec 6) (b : BitVec 5) (o : BitVec 6) (ord : BitVec 2) (scope : BitVec 3) (ta : Bool) (s : State) : Out :=
  atomic 3 d b o ord scope ta s
def execAor (d : BitVec 6) (b : BitVec 5) (o : BitVec 6) (ord : BitVec 2) (scope : BitVec 3) (ta : Bool) (s : State) : Out :=
  atomic 4 d b o ord scope ta s
def execAxor (d : BitVec 6) (b : BitVec 5) (o : BitVec 6) (ord : BitVec 2) (scope : BitVec 3) (ta : Bool) (s : State) : Out :=
  atomic 5 d b o ord scope ta s
def execAxch (d : BitVec 6) (b : BitVec 5) (o : BitVec 6) (ord : BitVec 2) (scope : BitVec 3) (ta : Bool) (s : State) : Out :=
  atomic 6 d b o ord scope ta s
def execAcas (d : BitVec 6) (b : BitVec 5) (o : BitVec 6) (ord : BitVec 2) (scope : BitVec 3) (ta : Bool) (s : State) : Out :=
  atomic 7 d b o ord scope ta s

/-- `ared` (R120): the present lanes' operands are combined, exactly for integers, and one atomic follows. -/
def execAred (d : BitVec 6) (b : BitVec 5) (c : BitVec 6) (ord : BitVec 2) (scope : BitVec 3) (ta : Bool) (s : State) : Out :=
  memory (scope != 7 && decide (c.toNat ≤ 5)) s fun k t =>
    match atomElem t.mode c.toNat with
    | none => illop s k t
    | some (el, e) =>
      let w := el.width == 64
      if !t.okV w d.toNat then illop s k t
      else gated s k t { srcV := srcsV w d.toNat ta, srcS := [(b.toNat, false)], preds := [t.guardReg] } fun t =>
        access s k t (widthOf w) true true 3 [(0, t.rs b.toNat)] fun s ps =>
          let ls := laneList t t.present
          let val := fun L => t.rw w d.toNat L
          let x : Int := match c.toNat, el with
            | 0, .int sg wd => ls.foldl (fun (a : Int) L => a + intOf sg wd (val L)) 0
            | f, el => (((treeSum (combine f el e) t.rows fun L => if ls.contains L then some (val L) else none).map
                fun r => r.1).getD 0 : Nat)
          atomThen s k t .none c.toNat ord scope t.present (ps.map fun p => p.2.2)
            (if ls.isEmpty then [] else ps.map fun p => { lane := 0, va := p.2.1.toNat, place := p.2.2, x := x, y := 0 })

/-! ### `mwait` (R127) -/

/-- A stamp satisfies a target. -/
def stampMet (stamp target : DWord) : Bool :=
  bit stamp.toNat 63 || decide ((stamp.toNat % 2 ^ 63 + 2 ^ 63 - target.toNat % 2 ^ 63) % 2 ^ 63 < 2 ^ 62)

/-- Reads the stamp of a wait at its point: both words, or a fault. A word that the core has written and not yet published is its own
(R113). -/
def readStamp (s : State) (k : Nat) (core : Nat) (point : Point) (pl : Place) (hint : Nat) : State × Datum × DWord :=
  let tenant := (bandOf s (bandKey k)).tenant
  match pl with
  | .pad c o =>
    let r := joinData (padDatum s c o) (padDatum s c (o + 4))
    (tendPad (tendPad s c o) c (o + 4), r.1, r.2)
  | .mem pa key _ =>
    let at' := fun (s : State) pa => if heldDirty (l1Of s core) pa then Point.l1 else point
    let (s, lo) := pointRead s (at' s pa) core pa key hint tenant
    let (s, hi) := pointRead s (at' s (pa + 4)) core (pa + 4) key hint tenant
    (s, (joinData lo hi).1, (joinData lo hi).2)

/-- The core's older copies of a stamp that it has read at an outer point are out of date (R113). -/
def pastStamp (s : State) (core : Nat) (point : Point) (p : Place) : State :=
  match p with
  | .mem pa _ _ => if point == .l1 then s else outdate (outdate s core pa) core (pa + 4)
  | _ => s

/-- The registers after a wait: the stamp, or the fault of a stamp word that could not be read, whose record has the stamp's address. -/
def Team.stampTo (t : Team) (d : Nat) (va : Nat) (r : Datum) (stamp : DWord) : Team :=
  let t := ({ dstS := [d] } : Use).clean t
  match r with
  | .ok _ => (t.ws d stamp).fillS [d]
  | f => t.carry d f.cause (BitVec.ofNat 64 va)

/-- The stamp of a wait can be read now (R113): the host and the team's own accesses let it. -/
def stampReady (s : State) (k core : Nat) (point : Point) (p : Place) : Bool :=
  match p with
  | .mem pa _ _ => pointReady s point false core pa && pointReady s point false core (pa + 4) && !wordBusy s k pa && !wordBusy s k (pa + 4)
  | _ => true

def askStamp (s : State) (p : Place) : State := match p with
  | .mem pa _ _ => askHost s pa false
  | _ => s

/-- `mwait`: it is satisfied at once, or holds the team at the instruction. A wait is longer than MWTO ticks after one more. -/
def execMwait (d b o : BitVec 5) (ord : BitVec 2) (scope : BitVec 3) (s : State) : Out :=
  memory (scope != 7) s fun k t =>
    gated s k t { srcS := [(b.toNat, false), (o.toNat, false)], dstS := [d.toNat] } fun t =>
      let va := t.rs b.toNat
      let target := t.rs o.toNat
      access s k t 8 true false 0 [(0, va)] fun s ps =>
        match ps with
        | [] => waitHere s
        | p :: _ =>
          let point := clampPoint (pointOf scope.toNat) [p.2.2]
          let go := fun (s : State) (t : Team) =>
            if !stampReady s k t.core point p.2.2 then waitHere (askStamp s p.2.2)
            else
              let (s, r, stamp) := readStamp s k t.core point p.2.2 t.ret
              if r.cause ≠ 0 ∨ stampMet stamp target then
                let s := pastStamp s t.core point p.2.2
                let s := if acquires ord && point != .l1 then invalidateClean s t.core else s
                finish s k (t.stampTo d.toNat va.toNat r stamp)
              else
                let t := teamOf s k
                setTeam s k ((t.holding (.mwait d va.toNat (match p.2.2 with
                    | .mem pa _ _ => pa
                    | .pad _ o => o) target scope.toNat (acquires ord) (t.rs d.toNat) (t.mwto.toNat + 1))).emptyS [d.toNat])
          if releases ord then releasing s k t point (fun _ => true) go else go s t

/-- `MWAIT_SATISFIED` (R127): a wait whose stamp meets its target ends; its team goes on after it, with the acquire. -/
def execMwaitSatisfied (team : Nat) (s : State) : Out :=
  match s.teams.lookup team with
  | none => .next s
  | some t =>
    match t.hold with
    | .mwait d va _ target scope acq _ _ =>
      match checkAddr s t.core (bandKey team) 8 (BitVec.ofNat 64 va) .read with
      | .go p =>
        let point := clampPoint (pointOf scope) [p]
        if !stampReady s team t.core point p then .next (askStamp s p)
        else
          let (s, r, stamp) := readStamp s team t.core point p t.ret
          if r.cause ≠ 0 ∨ stampMet stamp target then
            let s := pastStamp s t.core point p
            let s := if acq && point != .l1 then invalidateClean s t.core else s
            .next (setTeam s team (t.stampTo d.toNat va r stamp).holdOver)
          else .next s
      | _ => .next s
    | _ => .next s

/-- `MWTO` (R127): a wait past its limit traps, and its destination is as it was. -/
def execMwto (team : Nat) (s : State) : Out :=
  match s.teams.lookup team with
  | none => .next s
  | some t =>
    match t.hold with
    | .mwait _ va _ _ _ _ _ left =>
      if t.mwto ≠ 0 ∧ left = 0 then .next (raise1 s team t.abandon cMWTO (BitVec.ofNat 64 va)) else .next s
    | _ => .next s

end Sys2Proof.Machine
end

