-- ==== Sys2Proof/Machine/Barriers.lean ====
section
/-! DEFINITION. Named barriers and the band barrier (R176 to R181). Each step stands for a cycle of its own, so R180's order of a
cycle's operations is the order of the steps. -/

namespace Sys2Proof.Machine

/-- The phase completes (R178). -/
def Barrier.complete (b : Barrier) : Barrier := { b with need := b.count, arrived := 0, phase := b.phase + 1 }

/-- One arrival (R178). -/
def Barrier.arrive (b : Barrier) : Barrier :=
  if b.need ≤ 1 then b.complete else { b with need := b.need - 1, arrived := b.arrived + 1 }

/-- A phase lies past the phase `p` (R178). -/
def phasePast (phase p : Word) : Bool := decide (1 ≤ (phase - p).toNat ∧ (phase - p).toNat ≤ 2 ^ 31 - 1)

def setBar (s : State) (c n : Nat) (b : Barrier) : State := setCrew s c { crewOf s c with bar := setAt (crewOf s c).bar n b }
def barOf (s : State) (c n : Nat) : Barrier := look {} (crewOf s c).bar n

/-- A barrier instruction: ILLOP for a barrier outside the crew's budget (R46). -/
def barrierOp (n : BitVec 6) (s : State) (body : Nat → Team → State) : Out :=
  withTeam s fun k t => if n.toNat ≥ (crewOf s (crewKey k)).bars then illop s k t else body k t

def execBar (n : BitVec 6) (s : State) : Out :=
  barrierOp n s fun k t => releasing s k t .l1 (fun _ => true) fun s t =>
    let b := barOf s (crewKey k) n.toNat
    let s := setBar s (crewKey k) n.toNat b.arrive
    let t := t.closeRegion
    if b.need ≤ 1 then finish s k t else setTeam s k (t.holding (.barrier n.toNat b.phase))

def execBarar (n : BitVec 6) (y : BitVec 5) (s : State) : Out :=
  barrierOp n s fun k t => gated s k t { dstS := [y.toNat] } fun t =>
    releasing s k t .l1 (fun _ => true) fun s t =>
      let b := barOf s (crewKey k) n.toNat
      finish (setBar s (crewKey k) n.toNat b.arrive) k (t.closeRegion.ws y.toNat (b.phase.setWidth 64))

def execBarwt (n : BitVec 6) (y : BitVec 5) (s : State) : Out :=
  barrierOp n s fun k t => gated s k t { srcS := [(y.toNat, false)] } fun t =>
    let p : Word := (t.rs y.toNat).setWidth 32
    let t := t.closeRegion
    if phasePast (barOf s (crewKey k) n.toNat).phase p then finish s k t
    else setTeam s k (t.holding (.barrier n.toNat p))

def execBarini (n : BitVec 6) (y : BitVec 5) (s : State) : Out :=
  barrierOp n s fun k t => gated s k t { srcS := [(y.toNat, false)] } fun t =>
    let v := (t.rs y.toNat).toNat
    if v = 0 ∨ v > 65535 then refuse1 s k cBOUNDS (t.rs y.toNat)
    else
      let b := barOf s (crewKey k) n.toNat
      let b : Barrier := { b with count := v, need := v - b.arrived }
      finish (setBar s (crewKey k) n.toNat (if b.need = 0 then b.complete else b)) k t

def execBarexp (n : BitVec 6) (y : BitVec 5) (s : State) : Out :=
  barrierOp n s fun k t => gated s k t { srcS := [(y.toNat, false)] } fun t =>
    let v := (t.rs y.toNat).toNat
    let b := barOf s (crewKey k) n.toNat
    if v > 65535 ∨ b.need + v > 65535 then refuse1 s k cBOUNDS (t.rs y.toNat)
    else finish (setBar s (crewKey k) n.toNat { b with need := b.need + v }) k t

/-- `bbar` (R181). -/
def execBbar (s : State) : Out :=
  withTeam s fun k t => releasing s k t .l2 (fun _ => true) fun s t =>
    let b := bandOf s (bandKey k)
    let s := setBand s (bandKey k) b.arrive
    let t := t.closeRegion
    if b.bneed ≤ 1 then finish (invalidateClean s t.core) k t
    else setTeam s k (t.holding (.band b.bphase))

/-- `BARRIER_WAIT_END` (R178, R181): the wait of a team whose phase has completed ends with its acquire. -/
def execBarrierWaitEnd (team : Nat) (s : State) : Out :=
  match s.teams.lookup team with
  | none => .next s
  | some t =>
    match t.hold with
    | .barrier n p =>
      if phasePast (barOf s (crewKey team) n).phase p then .next (setTeam s team t.holdOver) else .next s
    | .band p =>
      if phasePast (bandOf s (bandKey team)).bphase p then
        .next (setTeam (invalidateClean s t.core) team t.holdOver)
      else .next s
    | _ => .next s

end Sys2Proof.Machine
end

