-- ==== Sys2Proof/Machine/Control.lean ====
section
/-! DEFINITION. Control flow: the reconvergence stack and its spill area (R153 to R159), branches, calls and unwinding (R160 to
R170), ending, trapping and resuming (R171 to R174, R188), and regions (R175). -/

namespace Sys2Proof.Machine

/-! ### Stack entries in memory -/

def dwords (x : DWord) : List Word := [x.setWidth 32, (x >>> 32).setWidth 32]
/-- The 64-bit value at word `i` of an image. -/
def dwordAt (ws : List Word) (i : Nat) : DWord := ws.getD (i + 1) 0 ++ ws.getD i 0

/-- The row words of a mask (R153). -/
def rowWords (m : LaneMask) : List Word := (List.range 32).map fun r => BitVec.ofNat 32 (bits m.toNat (32 * r) 32)
def summaryWord (m : LaneMask) : Word :=
  BitVec.ofNat 32 ((List.range 32).foldl (fun a r => if bits m.toNat (32 * r) 32 ≠ 0 then a + 2 ^ r else a) 0)
/-- INFO (R155). -/
def Entry.info (e : Entry) : DWord :=
  BitVec.ofNat 64 (e.depth.toNat * 65536 + (if e.norp then 2 else if e.st then 1 else 0))
def Entry.setInfo (e : Entry) (x : DWord) : Entry :=
  { e with depth := BitVec.ofNat 16 (bits x.toNat 16 16), norp := bit x.toNat 1, st := bit x.toNat 0 && !bit x.toNat 1 }

/-- The 160-byte image of an entry, as 40 words (R156). -/
def Entry.image (e : Entry) : List Word :=
  dwords e.pc ++ dwords (if e.norp then 0 else e.rpc) ++ dwords e.info ++ [summaryWord e.mask, 0] ++ rowWords e.mask

def maskOfWords (ws : List Word) : LaneMask :=
  BitVec.ofNat 1024 ((ws.take 32).zipIdx.foldl (fun a w => a + w.1.toNat * 2 ^ (32 * w.2)) 0)

/-- An entry as a reload takes it (R156, R170). -/
def entryOf (limit : LaneMask) (ws : List Word) : Entry :=
  ({ pc := dwordAt ws 0 &&& ~~~3, rpc := dwordAt ws 2 &&& ~~~3, mask := maskOfWords (ws.drop 8) &&& limit } : Entry).setInfo (dwordAt ws 4)

/-- Where entry `i` spills (R156). -/
def Team.spillVa (t : Team) (i : Nat) : DWord := t.tstk - BitVec.ofNat 64 t.stackSize + BitVec.ofNat 64 (160 * i)

/-- Reads spilled entry `i`, held to the live lanes (R152, R156), as loads of the team: after its acquire (R122, R345) and its own stores
(R113). -/
def readSpill (s : State) (k : Nat) (t : Team) (i : Nat) : State × Except SpillStop Entry :=
  let s := noteMisses s k t (pageStarts (t.spillVa i) 160)
  match wordPlaces s k t 4 (t.spillVa i) 40 .read with
  | .error e => (s, .error e)
  | .ok ps =>
    if t.acquiring || !inOrder s k ps false then (s, .error .wait)
    else if !placesReady s t.core ps then (askPlaces s ps, .error .wait)
    else
      let (s, ds) := readPlaces s k t ps
      match ds.zipIdx.find? fun d => d.1.cause ≠ 0 with
      | some d => (s, .error (.fault d.1.cause (record 0 d.1.cause (t.spillVa i + BitVec.ofNat 64 (4 * d.2)))))
      | none => (s, .ok (entryOf (t.live &&& teamMask t) (ds.map fun d => match d with
          | .ok w => w
          | _ => 0)))

/-- Pushes an entry (R156): STKOV at the limit, or where `deep` says that a call passes its own; the oldest entry held in hardware
spills first, and its address checks rank before STKOV (R183). -/
def push (s : State) (k : Nat) (t : Team) (deep : Bool) (e : Entry) (cont : State → Team → State) : State :=
  if t.inh then (if deep || decide (t.stack.length ≥ 8) then refuse s k cSTKOV [] else cont s { t with stack := e :: t.stack })
  else if t.stack.length + t.spilled ≥ 8 + t.stackSize / 640 then refuse s k cSTKOV []
  else if t.stack.length < 8 then (if deep then refuse s k cSTKOV [] else cont s { t with stack := e :: t.stack })
  else
    let va := t.spillVa t.spilled
    let s := noteMisses s k t (pageStarts va 160)
    spillThen s k (wordPlaces s k t 4 va 40 .write) fun ps =>
      if deep then refuse s k cSTKOV []
      else if t.acquiring || !inOrder s k ps true then waitHere s
      else unlessWatched s k false true 160 va
        (cont (writePlaces s k t ps ((t.stack.getD 7 {}).image)) { t with stack := e :: t.stack.take 7, spilled := t.spilled + 1 })

/-- The newest spilled entries take the free places among the eight in hardware (R156): the team, or the fault of a reload with the
team as it stood before it; a watchpoint on an entry is a debug event there (R202). -/
def refill (s : State) (k : Nat) : Nat → Team → State × Except (Team × SpillStop) Team
  | 0, t => (s, .ok t)
  | n + 1, t =>
    if t.stack.length ≥ 8 ∨ t.spilled = 0 then (s, .ok t)
    else match readSpill s k t (t.spilled - 1) with
      | (s, .ok e) =>
        let va := t.spillVa (t.spilled - 1)
        if watched (bandOf s (bandKey k)) t true false 160 va then (s, .error (t, .watch va))
        else refill s k n { t with stack := t.stack ++ [e], spilled := t.spilled - 1 }
      | (s, .error x) => (s, .error (t, x))

/-- What the reconvergence before an issue leaves (R157, R158). -/
inductive Ready where
  | issue (t : Team)
  | retire
  | stop (t : Team) (x : SpillStop)

/-- One action of R157 or R158; `more` says that the comparison is made again. A team in its handler stays live whatever its mask (R195). -/
def reconvergeStep (s : State) (k : Nat) (t : Team) : State × Ready × Bool :=
  let cur := t.mask &&& t.limit
  match t.stack with
  | [] =>
    if t.spilled ≠ 0 then match refill s k 1 t with
      | (s, .ok t') => (s, .issue t', true)
      | (s, .error x) => (s, .stop x.1 x.2, false)
    else (s, if cur == 0 && !t.inh then .retire else .issue { t with mask := cur }, false)
  | e :: rest =>
    let pop := fun (f : Team → Team) => (s, Ready.issue (f { t with stack := rest }), true)
    if cur == 0 then
      pop fun t' => { t' with mask := e.mask &&& t.limit, pc := if e.mask &&& t.limit == 0 then t'.pc else if e.st then e.rpc else e.pc }
    else if !e.norp && e.rpc == t.pc && e.depth == t.cfd then
      if e.st then pop fun t' => { t' with mask := (cur ||| e.mask) &&& t.limit }
      else if e.mask &&& t.limit == 0 then pop fun t' => { t' with mask := cur }
      else (s, .issue { t with mask := e.mask &&& t.limit, stack := { e with mask := cur, st := true } :: rest, pc := e.pc }, true)
    else (s, .issue { t with mask := cur }, false)

/-- What a team needs of its spill area before it issues (R156). -/
def reloaded (s : State) (k : Nat) (t : Team) : State × Ready :=
  match refill s k 8 t with
  | (s, .ok t') => (s, .issue t')
  | (s, .error x) => (s, .stop x.1 x.2)

/-- The reconvergence before an issue (R157, R158); the reload of spilled entries follows it (R156). -/
def reconverge (s : State) (k : Nat) : Nat → Team → State × Ready
  | 0, t => reloaded s k t
  | n + 1, t =>
    match reconvergeStep s k t with
    | (s, .issue t', true) => reconverge s k n t'
    | (s, .issue t', false) => reloaded s k t'
    | (s, r, _) => (s, r)

/-- How many actions a team's stack can need. -/
def Team.reconvergeFuel (t : Team) : Nat := 3 * (t.stack.length + t.spilled) + 2

/-- A team whose lanes may all have ended proceeds by R158 at once. -/
def proceed (s : State) (k : Nat) (t : Team) : State :=
  if t.mask &&& t.limit != 0 then setTeam s k t
  else match reconverge s k t.reconvergeFuel t with
    | (s, .issue t') => setTeam s k t'
    | (s, .retire) => retireTeam (setTeam s k t) k
    | (s, .stop t' _) => setTeam s k t'

/-! ### Branches -/

/-- A word's own address plus 4 times a signed offset (R55). -/
def target {n : Nat} (t : Team) (off : BitVec n) : DWord := t.pc + 4 * off.signExtend 64

/-- `br` (R162). -/
def execBr (inv : Bool) (p : BitVec 3) (off : BitVec 21) (s : State) : Out :=
  withTeam s fun k t => gated s k t { preds := [p.toNat] } fun t =>
    let yes := t.vote inv p.toNat
    let no := t.mask &&& ~~~yes
    let t' := { t with jpc := 0 }
    if no == 0 then setTeam s k (t'.goto (target t off))
    else if yes == 0 then finish s k t'
    else push s k t false { pc := t.pc + 4, rpc := if bit t.jpc.toNat 0 then t.jpc &&& ~~~3 else 0, mask := no, depth := t.cfd,
                              norp := !bit t.jpc.toNat 0 } fun s t =>
      setTeam s k ({ t with jpc := 0, mask := yes }.goto (target t off))

/-- `bru` (R163). -/
def execBru (inv : Bool) (p : BitVec 3) (off : BitVec 21) (s : State) : Out :=
  withTeam s fun k t => gated s k t { preds := [p.toNat] } fun t =>
    let yes := t.vote inv p.toNat
    if yes == t.mask then setTeam s k (t.goto (target t off))
    else if yes == 0 then finish s k t
    else refuse1 s k cDIVU t.pc

def execBrany (inv : Bool) (p : BitVec 3) (off : BitVec 21) (s : State) : Out :=
  withTeam s fun k t => gated s k t { preds := [p.toNat] } fun t =>
    if t.vote inv p.toNat != 0 then setTeam s k (t.goto (target t off)) else finish s k t

def execBrall (inv : Bool) (p : BitVec 3) (off : BitVec 21) (s : State) : Out :=
  withTeam s fun k t => gated s k t { preds := [p.toNat] } fun t =>
    if t.vote inv p.toNat == t.mask then setTeam s k (t.goto (target t off)) else finish s k t

/-- `jmp` (R164). -/
def execJmp (off : BitVec 21) (s : State) : Out := withTeam s fun k t => setTeam s k (t.goto (target t off))

/-- `joinat` (R165): bit 0 of JPC says that a join is pending (R317). -/
def execJoinat (off : BitVec 26) (s : State) : Out := withTeam s fun k t => finish s k { t with jpc := target t off ||| 1 }

/-! ### Calls -/

/-- Enters a frame (R154, R166): the link, the depth and the target. -/
def enter (s : State) (k : Nat) (t : Team) (dest : DWord) : State :=
  if t.cfd = 0xFFFF then refuse s k cSTKOV []
  else setTeam s k ({ t.ws 30 (t.pc + 4) with cfd := t.cfd + 1 }.goto dest)

def execCall (off : BitVec 21) (s : State) : Out :=
  withTeam s fun k t => gated s k t { dstS := [30] } fun t => enter s k t (target t off)

def execCallr (x : BitVec 5) (s : State) : Out :=
  withTeam s fun k t => gated s k t { srcS := [(x.toNat, false)], dstS := [30] } fun t =>
    let dest := t.rs x.toNat
    if dest.toNat % 4 ≠ 0 then refuse1 s k cMALIGN dest else enter s k t dest

def execRet (s : State) : Out :=
  withTeam s fun k t => gated s k t { srcS := [(30, false)] } fun t =>
    let dest := t.rs 30
    if dest.toNat % 4 ≠ 0 then refuse1 s k cMALIGN dest
    else setTeam s k ({ t with cfd := if t.cfd = 0 then 0 else t.cfd - 1 }.goto dest)

/-- `callv` (R168): the lanes that share the lowest active lane's target go; the others wait at the `callv`. -/
def execCallv (x : BitVec 6) (s : State) : Out :=
  withTeam s fun k t =>
    if !t.okV true x.toNat then illop s k t
    else gated s k t { srcV := srcsV true x.toNat false, dstS := [30] } fun t =>
      let dest := fun L => BitVec.ofNat 64 (t.rw true x.toNat L)
      let ls := laneList t t.mask
      let bad := ls.filter fun L => (dest L).toNat % 4 != 0
      if !bad.isEmpty then refuse s k cMALIGN (bad.map fun L => record L cMALIGN (dest L))
      else
        let go := dest (ls.headD 0)
        let g := t.mask &&& laneMask fun L => ls.contains L && dest L == go
        let w := t.mask &&& ~~~g
        if w == 0 then enter s k t go
        else push s k t (t.cfd == 0xFFFF) { pc := t.pc, rpc := t.pc + 4, mask := w, depth := t.cfd } fun s t => enter s k { t with mask := g } go

/-! ### Unwinding -/

/-- Every spilled entry of a stack, the newest first. -/
def readSpilled (s : State) (k : Nat) (t : Team) : Nat → State × Except SpillStop (List Entry)
  | 0 => (s, .ok [])
  | n + 1 =>
    match readSpill s k t n with
    | (s, .error e) => (s, .error e)
    | (s, .ok e) =>
      match readSpilled s k t n with
      | (s, .error e) => (s, .error e)
      | (s, .ok es) => (s, .ok (e :: es))

/-- Writes entries to the spill area, the oldest at index 0. -/
def writeSpilled (s : State) (k : Nat) (t : Team) : List Entry → Except SpillStop State
  | [] => .ok s
  | e :: es =>
    match wordPlaces s k t 4 (t.spillVa es.length) 40 .write with
    | .error x => .error x
    | .ok ps => writeSpilled (writePlaces s k t ps e.image) k t es

/-- `cut` (R169). -/
def execCut (x y : BitVec 5) (s : State) : Out :=
  withTeam s fun k t => gated s k t { srcS := [(x.toNat, false), (y.toNat, false)] } fun t =>
    let dest := t.rs x.toNat
    let n := (t.rs y.toNat).toNat
    if dest.toNat % 4 ≠ 0 then refuse1 s k cMALIGN dest
    else if n > t.cfd.toNat then refuse1 s k cBOUNDS (t.rs y.toNat)
    else
      let (s, old) := readSpilled s k t t.spilled
      spillThen s k old fun old =>
        let all := t.stack ++ old
        if all.any fun e => decide (e.depth.toNat > n) && (e.mask &&& t.limit) != 0 then refuse1 s k cDIVU (t.rs y.toNat)
        else unlessWatched s k (decide (t.spilled > 0)) false (160 * t.spilled) (t.spillVa 0) <|
          let keep := all.filter fun e => decide (e.depth.toNat ≤ n)
          let gone := fun (s : State) => setTeam s k ({ t with stack := keep.take 8, spilled := keep.length - 8, cfd := BitVec.ofNat 16 n, jpc := 0 }.goto dest)
          if keep.length = all.length || t.spilled = 0 then gone s
          else spillThen s k (writeSpilled s k t (keep.drop 8)) gone

/-- The stack that `stkrd` and `stkwr` act on: in a handler the saved one (R187). -/
def Team.shownStack (t : Team) : List Entry × Nat := if t.inh then (t.tsstack, t.tsspilled) else (t.stack, t.spilled)

/-- A field of an entry (R170). -/
def Entry.field (t : Team) (e : Entry) (f : Nat) : DWord :=
  match f with
  | 0 => e.pc
  | 1 => if e.norp then 0 else e.rpc
  | 2 => e.info
  | 3 => (summaryWord e.mask).setWidth 64
  | f => if f - 4 < t.rows then BitVec.ofNat 64 (bits e.mask.toNat (32 * (f - 4)) 32) else 0

/-- An entry of the shown stack: held, or read from the spill area. -/
def shownEntry (s : State) (k : Nat) (t : Team) (i : Nat) : State × Except SpillStop Entry :=
  let (st, n) := t.shownStack
  if i < st.length then (s, .ok (st.getD i {})) else readSpill s k t (n - 1 - (i - st.length))

/-- `stkrd` (R170). -/
def execStkrd (x y : BitVec 5) (f : BitVec 8) (s : State) : Out :=
  withTeam s fun k t =>
    if f.toNat > 37 then illop s k t
    else gated s k t { srcS := [(y.toNat, false)], dstS := [x.toNat] } fun t =>
      let (st, n) := t.shownStack
      let count := st.length + n
      if f = 36 then finish s k (t.ws x.toNat (BitVec.ofNat 64 count))
      else if f = 37 then finish s k (t.ws x.toNat ((if t.inh then t.tscfd else t.cfd).setWidth 64))
      else
        let i := (t.rs y.toNat).toNat
        if i ≥ count then refuse1 s k cBOUNDS (t.rs y.toNat)
        else
          let (s, e) := shownEntry s k t i
          spillThen s k e fun e => unlessWatched s k (decide (i ≥ st.length)) false 160 (t.spillVa (count - 1 - i)) <| finish s k (t.ws x.toNat (e.field t f.toNat))

/-- An entry with a field written (R155, R170). -/
def Entry.setField (t : Team) (e : Entry) (f : Nat) (x : DWord) : Entry :=
  match f with
  | 0 => { e with pc := x }
  | 1 => { e with rpc := x }
  | 2 => e.setInfo x
  | f =>
    let r := f - 4
    let w := if r < t.rows then bits x.toNat 0 32 &&& bits t.live.toNat (32 * r) 32 else 0
    { e with mask := BitVec.ofNat 1024 (setBits e.mask.toNat (32 * r) 32 w) }

/-- `stkwr` (R170). -/
def execStkwr (x y : BitVec 5) (f : BitVec 8) (s : State) : Out :=
  withTeam s fun k t =>
    if f.toNat > 37 || f = 3 || f = 36 || (f = 37 && !t.inh) then illop s k t
    else gated s k t { srcS := [(x.toNat, false), (y.toNat, false)] } fun t =>
      let v := t.rs x.toNat
      let (st, n) := t.shownStack
      let i := (t.rs y.toNat).toNat
      if f = 37 then finish s k { t with tscfd := v.setWidth 16 }
      else if f.toNat < 2 && v.toNat % 4 != 0 then refuse1 s k cMALIGN v
      else if i ≥ st.length + n then refuse1 s k cBOUNDS (t.rs y.toNat)
      else if i < st.length then
        let st' := st.zipIdx.map fun e => if e.2 = i then e.1.setField t f.toNat v else e.1
        finish s k (if t.inh then { t with tsstack := st' } else { t with stack := st' })
      else
        let j := n - 1 - (i - st.length)
        let (s, e) := readSpill s k t j
        spillThen s k e fun e =>
          spillThen s k (wordPlaces s k t 4 (t.spillVa j) 40 .write) fun ps => if !inOrder s k ps true then waitHere s else
            unlessWatched s k true true 160 (t.spillVa j) (finish (writePlaces s k t ps (e.setField t f.toNat v).image) k t)

/-! ### Ending, trapping and resuming -/

/-- `nop` (R56). -/
def execNop (s : State) : Out := withTeam s fun k t => finish s k t

/-- `exit` (R171). In a handler it ends the whole team. -/
def execExit (s : State) : Out :=
  withTeam s fun k t =>
    if outstanding s k then waitHere s
    else if t.inh then retireTeam (setTeam s k { t with live := 0, mask := 0 }) k
    else match t.heldFault with
    | some (t', f) => raise s k t' f.cause f.recs
    | none => proceed s k { t.issued.closeRegion with live := t.live &&& ~~~t.mask, mask := 0 }

/-- `trap` (R172): `rti` resumes after it. -/
def execTrap (z : BitVec 8) (s : State) : Out :=
  withTeam s fun k t => raiseAt s k t cSWTRAP [record 0 cSWTRAP (z.setWidth 64)] (t.pc + 4)

/-- `brk` (R172, R202). -/
def execBrk (z : BitVec 8) (s : State) : Out :=
  withTeam s fun k t => debugEvent s k t 6 [record 0 cBREAK (z.setWidth 64)] t.pc

/-- `rti` (R173, R188). -/
def execRti (s : State) : Out :=
  withTeam s fun k t =>
    if !t.inh then illop s k t
    else
      let t := { t.issued with
        mode := t.tsmode
        mask := t.tsmask &&& t.live
        stack := t.tsstack
        spilled := t.tsspilled
        cfd := t.tscfd
        jpc := t.tsjpc
        tstat := t.tstat &&& ~~~1
        pc := t.tepc
        tsmask := 0
        tsstack := []
        tsspilled := 0
        tscfd := 0 }
      proceed s k t

/-- `yield` (R174, R310). -/
def execYield (s : State) : Out := withTeam s fun k t => setTeam s k { t.next with age := 0 }

/-! ### Regions (R175) -/

def execRgn (s : State) : Out :=
  withTeam s fun k t => finish s k { t with
    rgpc := t.pc + 4
    rgmask := t.mask
    rgst := BitVec.ofNat 64 (1 + (t.stack.length + t.spilled) * 65536 + t.cfd.toNat * 2 ^ 32) }

def execRgnx (s : State) : Out := withTeam s fun k t => finish s k t.closeRegion

/-! ### Waiting for registers (R182) -/

/-- A register fault that an `fwait` delivers, else a wait while one of its registers is empty. -/
def waitFor (s : State) (k : Nat) (t : Team) (vs : Option (List Nat)) (ss : Option (List Nat)) : State :=
  let inV := fun r => vs.all fun l => l.contains r
  let inS := fun r => ss.all fun l => l.contains r
  match t.vFault.find? fun e => inV e.1, t.sFault.find? fun e => inS e.1 with
  | some (_, f), _ => raise s k (t.deliverV f) f.cause f.recs
  | none, some (_, f) => raise s k (t.unfaultS f.regs) f.cause f.recs
  | none, none =>
    if ((List.range 64).any fun r => inV r && t.vIsEmpty r) || (List.range 32).any fun r => inS r && t.sIsEmpty r then waitHere s
    else finish s k t

def execFwaitVector (x : BitVec 6) (s : State) : Out :=
  withTeam s fun k t => if !t.okV false x.toNat then illop s k t else waitFor s k t (some [x.toNat]) (some [])
def execFwaitScalar (x : BitVec 5) (s : State) : Out := withTeam s fun k t => waitFor s k t (some []) (some [x.toNat])
def execFwaitAll (s : State) : Out := withTeam s fun k t => waitFor s k t none none

end Sys2Proof.Machine
end

