-- ==== Sys2Proof/Machine/Moves.lean ====
section
/-! DEFINITION. Setting MODE, loading constants and moving registers (R58 to R62), and the producers' common issue (R47). -/

namespace Sys2Proof.Machine

/-- Issues a producer whose values are known: its destinations empty, and PRODUCER_COMPLETION writes them (R47). -/
def startProducer (s : State) (k : Nat) (t : Team) (p : Producer) : State :=
  finish { s with producers := s.producers ++ [p] } k ((t.emptyV p.vregs).emptyS (p.sregs.map fun r => r.1))

/-- The lanes of a producer's value. -/
def laneWords (wide : Bool) (d : Nat) (rs : List (Nat × Nat)) : List (Nat × Word) :=
  rs.flatMap fun r => (1024 * d + r.1, BitVec.ofNat 32 r.2) ::
    if wide then [(1024 * (d + 1) + r.1, BitVec.ofNat 32 (r.2 / 2 ^ 32))] else []

/-- Completes a producer: it writes its lanes and its scalars, raises its flags, and its registers are full (R47). -/
def Team.complete (t : Team) (p : Producer) : Team :=
  let t := p.lanes.foldl (fun (t : Team) l => { t with v := putAt 0 t.v l.1 l.2 }) t
  let t := p.sregs.foldl (fun (t : Team) r => t.ws r.1 r.2) t
  ((t.fillV p.vregs).fillS (p.sregs.map fun r => r.1)).addFlags p.flags

/-- MODE with the fields of a `mode` (R41, R58). -/
def modeWord (ginv : Bool) (gp : BitVec 3) (ty : BitVec 4) (rnd : BitVec 3) (sat : Bool) (ret : BitVec 2) (ftz : Bool) : Word :=
  BitVec.ofNat 32 (ginv.toNat * 2 ^ 25 + gp.toNat * 2 ^ 22 + ty.toNat * 2 ^ 18 + rnd.toNat * 2 ^ 15 + sat.toNat * 2 ^ 14
    + ret.toNat * 2 ^ 12 + ftz.toNat * 2 ^ 11)

/-- `mode` (R58). -/
def execMode (ginv : Bool) (gp : BitVec 3) (ty : BitVec 4) (rnd : BitVec 3) (sat : Bool) (ret : BitVec 2) (ftz : Bool)
    (s : State) : Out :=
  withTeam s fun k t =>
    finish s k { t with mode := modeWord ginv gp ty rnd sat ret ftz }

/-- A vector register written from values that are no lane's source. -/
def setLanes (s : State) (k : Nat) (t : Team) (wide : Bool) (d : Nat) (src : List (Nat × Bool)) (ssrc : List (Nat × Bool))
    (f : Team → Nat → Nat) : State :=
  gated s k t { srcV := src, srcS := ssrc, preds := [t.guardReg], dstV := pair wide d, lanes := t.present } fun t =>
    finish s k (t.writeLanes wide d ((laneList t t.present).map fun L => (L, f t L)))

/-- `li` (R59). -/
def execLi (d : BitVec 6) (imm : BitVec 20) (s : State) : Out :=
  withTeam s fun k t =>
    if !t.okV false d.toNat then illop s k t
    else setLanes s k t false d.toNat [] [] fun _ _ => (imm.signExtend 32).toNat

/-- `sli` (R60). -/
def execSli (d : BitVec 5) (imm : BitVec 21) (s : State) : Out :=
  withTeam s fun k t => gated s k t { dstS := [d.toNat] } fun t => finish s k (t.ws d.toNat (imm.signExtend 64))

/-- `slih` and `slix`: the bits from `lo` up are replaced (R60). -/
def setHigh (lo : Nat) (d : BitVec 5) (imm : BitVec 21) (s : State) : Out :=
  withTeam s fun k t => gated s k t { srcS := [(d.toNat, false)], dstS := [d.toNat] } fun t =>
    finish s k (t.ws d.toNat (BitVec.ofNat 64 (setBits (t.rs d.toNat).toNat lo (64 - lo) (imm.signExtend 64).toNat)))

def execSlih (d : BitVec 5) (imm : BitVec 21) (s : State) : Out := setHigh 21 d imm s
def execSlix (d : BitVec 5) (imm : BitVec 21) (s : State) : Out := setHigh 42 d imm s

/-- `mov` (R61). -/
def execMov (d : BitVec 6) (ta : Bool) (a : BitVec 6) (s : State) : Out :=
  withTeam s fun k t =>
    match t.wideType with
    | none => illop s k t
    | some w =>
      if !(t.okV w d.toNat && t.okV w a.toNat) then illop s k t
      else setLanes s k t w d.toNat (srcsV w a.toNat ta) [] fun t L => t.rw w a.toNat L

/-- `movs` (R61). -/
def execMovs (d : BitVec 6) (ta : Bool) (a : BitVec 5) (s : State) : Out :=
  withTeam s fun k t =>
    match t.wideType with
    | none => illop s k t
    | some w =>
      if !t.okV w d.toNat then illop s k t
      else setLanes s k t w d.toNat [] [(a.toNat, ta)] fun t _ => (t.rs a.toNat).toNat

/-- `lid` (R61). -/
def execLid (d : BitVec 6) (s : State) : Out :=
  withTeam s fun k t =>
    if !t.okV false d.toNat then illop s k t else setLanes s k t false d.toNat [] [] fun _ L => L

/-- `rdl` (R62). -/
def execRdl (x : BitVec 5) (y : BitVec 6) (z : BitVec 5) (s : State) : Out :=
  withTeam s fun k t =>
    match Ty.ofCode t.typeCode with
    | none => illop s k t
    | some ty =>
      if !t.okV ty.wide y.toNat then illop s k t
      else
        let row := if t.sReadable z.toNat then (pair ty.wide y.toNat).map fun r => (r, (t.rs z.toNat).toNat / 32) else []
        gated s k t { srcV := srcsV ty.wide y.toNat false, srcS := [(z.toNat, false)], dstS := [x.toNat], rows := some row } fun t' =>
        let L := (t'.rs z.toNat).toNat
        if L ≥ t'.lanes then refuse s k cBOUNDS []
        else
          let v := t'.rw ty.wide y.toNat L
          let v := if t.typeCode = 0 then signExt 32 64 v else v
          if x.toNat = 0 then finish s k t'
          else startProducer s k t' { team := k, core := t'.core, sregs := [(x.toNat, BitVec.ofNat 64 v)] }

/-- `wrl` (R62): it waits while its destination is empty, and a fault that the destination carries is delivered only where the
lane is written. -/
def execWrl (x : BitVec 6) (y z : BitVec 5) (s : State) : Out :=
  withTeam s fun k t =>
    match t.wideType with
    | none => illop s k t
    | some w =>
      if !t.okV w x.toNat then illop s k t
      else gated s k t { srcS := [(y.toNat, false), (z.toNat, false)], preds := [t.guardReg] } fun t' =>
        let L := (t'.rs z.toNat).toNat
        if L ≥ t'.lanes then refuse s k cBOUNDS []
        else if (pair w x.toNat).any fun r => t'.vIsEmpty r && (t'.vFault.lookup r).isNone then waitHere s
        else if !bit t'.present.toNat L then finish s k t'
        else gated s k t' { dstV := pair w x.toNat, lanes := BitVec.ofNat 1024 (2 ^ L) } fun t'' =>
          finish s k (t''.ww w x.toNat L (t''.rs y.toNat).toNat)

end Sys2Proof.Machine
end

