-- ==== Sys2Proof/Machine/Matrix.lean ====
section
/-! DEFINITION. Tiles and their shapes (R242, R267 to R269), the array's queue and its commands (R243, R270, R271, R280, R282 to
R285), and the instructions that read and write accumulators (R244, R272, R273). -/

namespace Sys2Proof.Machine

/-! ### Shapes -/

/-- The fields of a shape register (R242). -/
structure Shape where
  ety : Nat
  rows : Nat
  cols : Nat
  deriving DecidableEq, Repr

def shapeOf (ts : DWord) : Shape := { ety := bits ts.toNat 0 4, rows := bits ts.toNat 8 8, cols := bits ts.toNat 16 12 }
def Shape.shaped (h : Shape) : Bool := h.rows != 0 && decide (h.rows ≤ 128) && h.cols != 0
/-- The bits of an element; none for a reserved type (R267). -/
def Shape.size (h : Shape) : Option Nat := [16, 16, 8, 8, 4, 8, 4, 64][h.ety]?
def Shape.bits (h : Shape) : Nat := h.rows * h.cols * h.size.getD 0
/-- A shaped tile of an assigned type that fits its 8 KiB. -/
def Shape.usable (h : Shape) : Bool := h.shaped && h.size.isSome && decide (h.bits ≤ 65536)
/-- The types whose scales lie in the next tile (R280). -/
def Shape.scaled (h : Shape) : Bool := h.ety == 2 || h.ety == 3 || h.ety == 4 || h.ety == 6
/-- What `tld`, `tst` and `tzero` ask of a tile (R267). -/
def Shape.movable (h : Shape) : Bool :=
  h.usable && !(h.size == some 4 && h.cols % 2 == 1) && h.cols * h.size.getD 0 % 32 == 0
/-- The bytes of a row. -/
def Shape.rowBytes (h : Shape) : Nat := h.cols * h.size.getD 0 / 8

/-- The value of TSn. -/
def tsOf (c : Crew) (n : Nat) : DWord := look 0 c.ts n

/-! ### Commands -/

/-- The operation of a command's word: 3 `mma`, 4 `acz`, 7 `acst`. -/
def ArrayCmd.op (q : ArrayCmd) : Nat := Machine.bits q.word.toNat 20 4
def ArrayCmd.acc (q : ArrayCmd) : Nat := if q.op == 7 then Machine.bits q.word.toNat 0 3 else Machine.bits q.word.toNat 5 3
/-- The tiles of an `mma` word (R243). -/
def tileA (w : Word) : Nat := bits w.toNat 14 5
def tileB (w : Word) : Nat := bits w.toNat 8 5

/-- A tile and, where it is scaled, the tile of its scales (R280). -/
def namedTiles (c : Crew) (n : Nat) : List Nat := n :: if (shapeOf (tsOf c n)).scaled then [n + 1] else []
/-- The tiles that a queued command names. -/
def ArrayCmd.tiles (s : State) (q : ArrayCmd) : List Nat :=
  if q.op == 3 then namedTiles (crewOf s q.crew) (tileA q.word) ++ namedTiles (crewOf s q.crew) (tileB q.word) else []

/-- The pairings of R282. -/
def pairing (a b : Shape) : Bool :=
  (a.ety == b.ety && (a.ety == 0 || a.ety == 1 || a.ety == 5 || a.ety == 4 || (a.ety == 7 && decide (b.rows ≤ 64)))) ||
    ((a.ety == 2 || a.ety == 3) && (b.ety == 2 || b.ety == 3 || b.ety == 6)) || (a.ety == 0 && b.ety == 6)

/-- The check of an `mma` (R46, R243, R280, R282): its cause, and the shape register that a BOUNDS record names. -/
def mmaCheck (c : Crew) (w : Word) : Option (Nat × DWord) :=
  let ta := tsOf c (tileA w)
  let tb := tsOf c (tileB w)
  let a := shapeOf ta
  let b := shapeOf tb
  if tileA w ≥ c.tiles ∨ tileB w ≥ c.tiles ∨ bits w.toNat 5 3 ≥ c.accs ∨ (a.scaled ∧ tileA w + 1 ≥ c.tiles) ∨
      (b.scaled ∧ tileB w + 1 ≥ c.tiles) then some (cILLOP, 0)
  else if !a.usable then some (cBOUNDS, ta)
  else if !b.usable then some (cBOUNDS, tb)
  else if a.cols ≠ b.cols ∨ !pairing a b then some (cBOUNDS, ta)
  else none

/-- The array queue of a core has room (R243). -/
def arrayRoom (s : State) (core : Nat) : Bool := decide ((coreOf s core).queue.length < 16)

/-- Queues a command (R243). -/
def enqueueCmd (s : State) (core : Nat) (q : ArrayCmd) : State :=
  let c := coreOf s core
  { setCore s core { c with queue := c.queue ++ [{ q with uid := s.serial }] } with serial := s.serial + 1 }

/-- Runs `cont` once every command that `p` names and that was queued when the instruction reached issue has completed (R244,
R269, R272). -/
def afterCommands (s : State) (k : Nat) (t : Team) (p : ArrayCmd → Bool) (cont : Team → State) : State :=
  let mark := t.release.getD s.serial
  if (coreOf s t.core).queue.any fun q => q.crew == crewKey k && decide (q.uid < mark) && p q then
    waitHere (setTeam s k { teamOf s k with release := some mark })
  else cont t

def queueTeamCmd (s : State) (k : Nat) (t : Team) (w : Word) (ver : Nat) (ops : List DWord) : State :=
  if arrayRoom s t.core then
    finish (enqueueCmd s t.core { crew := crewKey k, team := some k, word := w, ver := BitVec.ofNat 16 ver, ops := ops }) k t
  else waitHere s

/-- The word of an X-class command. -/
def arrayWord (op9 x y z : Nat) : Word := BitVec.ofNat 32 (0xA0000000 + op9 * 2 ^ 20 + x * 2 ^ 14 + y * 2 ^ 8 + z)

/-- `mma` (R243). -/
def execMma (a b : BitVec 5) (c : BitVec 3) (v : BitVec 5) (s : State) : Out :=
  withTeam s fun k t =>
    let w := arrayWord 0x53 a.toNat b.toNat (c.toNat * 32 + v.toNat)
    match mmaCheck (crewOf s (crewKey k)) w with
    | some (1, _) => illop s k t
    | r => gated s k t { srcS := [(v.toNat, false)] } fun t =>
        match r with
        | some (cause, x) => refuse1 s k cause x
        | none => queueTeamCmd s k t w (bits (t.rs v.toNat).toNat 0 16) []

/-- `acz` (R271). -/
def execAcz (c : BitVec 3) (v : BitVec 5) (s : State) : Out :=
  withTeam s fun k t =>
    if c.toNat ≥ (crewOf s (crewKey k)).accs then illop s k t
    else gated s k t { srcS := [(v.toNat, false)] } fun t =>
      queueTeamCmd s k t (arrayWord 0x54 0 0 (c.toNat * 32 + v.toNat)) (bits (t.rs v.toNat).toNat 0 16) []

/-- The bytes of an output element of `acst` (R271). -/
def acstSize (otype : Nat) : Nat := [4, 2, 2, 1, 1].getD otype 4

/-- The words of one row that `acst` stores, as virtual addresses with the elements whose bytes they hold: column and byte offset
in the word. -/
def acstRow (dst stride : DWord) (size i ncols : Nat) : List (DWord × List (Nat × Nat)) :=
  let base := dst + BitVec.ofNat 64 (i * stride.toNat)
  let first := base.toNat % 4
  let n := (first + ncols * size + 3) / 4
  (List.range n).map fun j =>
    let w := BitVec.ofNat 64 (base.toNat - first + 4 * j)
    (w, (List.range ncols).filterMap fun c =>
      let o := first + c * size
      if o / 4 == j then some (c, o % 4) else none)

/-- The first address check that a row of `acst` fails (R107, R271). -/
def acstFault (s : State) (core band : Nat) (ops : List DWord) : Option (Nat × DWord) :=
  let f := ops.getD 2 0
  let size := acstSize (bits f.toNat 32 4)
  if (ops.getD 0 0).toNat % size ≠ 0 ∨ (ops.getD 1 0).toNat % size ≠ 0 then some (cMALIGN, ops.getD 0 0)
  else (List.range (bits f.toNat 0 16)).findSome? fun i =>
    (acstRow (ops.getD 0 0) (ops.getD 1 0) size i (bits f.toNat 16 16)).findSome? fun w =>
      match checkAddr s core band 4 w.1 .write with
      | .fault c => some (c, w.1)
      | _ => none

/-- An address of a row still waits for the host's translation. -/
def acstWaits (s : State) (core band : Nat) (ops : List DWord) : Bool :=
  let f := ops.getD 2 0
  (List.range (bits f.toNat 0 16)).any fun i =>
    (acstRow (ops.getD 0 0) (ops.getD 1 0) (acstSize (bits f.toNat 32 4)) i (bits f.toNat 16 16)).any fun w =>
      match checkAddr s core band 4 w.1 .write with
      | .wait _ => true
      | _ => false

/-- `acst` (R271). -/
def execAcst (x : BitVec 5) (a : BitVec 3) (s : State) : Out :=
  memory true s fun k t =>
    if x.toNat > 28 ∨ a.toNat ≥ (crewOf s (crewKey k)).accs then illop s k t
    else gated s k t { srcS := (List.range 4).map fun i => (x.toNat + i, false) } fun t =>
      let ops := (List.range 4).map fun i => t.rs (x.toNat + i)
      let f := (ops.getD 2 0).toNat
      let rows := bits f 0 16
      let cols := bits f 16 16
      if bits f 32 4 ≥ 5 ∨ bits f 37 11 ≠ 0 ∨ (ops.getD 1 0).toNat ≥ 2 ^ 32 ∨ (ops.getD 3 0).toNat ≥ 2 ^ 32 then
        refuse1 s k cILLOP (ops.getD 2 0)
      else if rows = 0 ∨ rows > 128 ∨ cols = 0 ∨ cols > 128 then refuse1 s k cBOUNDS (ops.getD 2 0)
      else
        let vas := (List.range rows).flatMap fun i => (acstRow (ops.getD 0 0) (ops.getD 1 0) (acstSize (bits f 32 4)) i cols).map fun w => w.1
        let s := noteMisses s k t vas
        match acstFault s t.core (bandKey k) ops with
        | some (c, va) => refuse s k c [{ cause := c, addr := va, flags := 1 }]
        | none =>
          if acstWaits s t.core (bandKey k) ops then waitHere s
          else unlessWatchedAny s k true vas <| queueTeamCmd s k t (arrayWord 0x57 x.toNat 0 a.toNat) (bits f 48 16) ops

/-! ### The array at work -/

/-- A band whose queued commands start: not one that stops, or has stopped, by the steps of R196 (R202, R325). -/
def Run.starts (r : Run) : Bool := r == .going || r == .gang || r == .slowed

/-- The next command that the array of a core starts: the oldest whose version matches (R243). -/
def nextCmd (s : State) (core : Nat) : Option ArrayCmd :=
  (coreOf s core).queue.find? fun q => look 0 (crewOf s q.crew).aver q.acc == q.ver && (bandOf s (q.crew / 16)).run.starts

/-- A command leaves the queue and advances its accumulator's version (R243, R271). -/
def retireCmd (s : State) (core : Nat) (q : ArrayCmd) : State :=
  let c := coreOf s core
  let s := setCore s core { c with queue := c.queue.filter fun x => x.uid != q.uid }
  let w := crewOf s q.crew
  setCrew s q.crew { w with aver := putAt 0 w.aver q.acc (q.ver + 1) }

/-- Marks an accumulator faulted, or clears the mark (R194). -/
def setFlt (s : State) (crew a : Nat) (on : Bool) : State :=
  let c := crewOf s crew
  setCrew s crew { c with accFault := if on then c.accFault ||| BitVec.ofNat 8 (2 ^ a) else c.accFault &&& ~~~BitVec.ofNat 8 (2 ^ a) }

/-- The bits `[lo + n - 1 : lo]` of a tile. -/
def tileBits (c : Crew) (tile lo n : Nat) : Nat :=
  let w := lo / 32
  if n ≤ 32 then bits (look 0 c.tile (2048 * tile + w)).toNat (lo % 32) n
  else (look 0 c.tile (2048 * tile + w)).toNat + (look 0 c.tile (2048 * tile + w + 1)).toNat * 2 ^ 32

/-- An element of a tile, decoded exactly; a QC4 element without its block's scale (R267, R275, R277, R283). -/
def tileElem (c : Crew) (tile : Nat) (h : Shape) (i k : Nat) : Fp :=
  let n := h.size.getD 0
  let x := tileBits c tile ((i * h.cols + k) * n) n
  match h.ety with
  | 0 => bf16.read x
  | 1 => f16.read x
  | 2 => e4m3.read x
  | 3 => e5m2.read x
  | 4 => e2m1Fp x
  | 5 => .num (decide (toSigned 8 x < 0)) (toSigned 8 x).natAbs 0
  | 6 => .num (qc4Level x).1 (qc4Level x).2 (-10)
  | _ => f64.read x

/-- The scale of a row's K block as `m × 2^e`; none for a NaN; one where the type has no scale (R280, R283). -/
def tileScale (c : Crew) (tile : Nat) (h : Shape) (i q : Nat) : Option (Nat × Int) :=
  if !h.scaled then some (1, 0)
  else if h.ety == 6 then
    some (tileBits c (tile + 1) (8 * (i * ((h.cols + 63) / 64) + q / 2)) 8 + 1, -8)
  else ue8f2 (tileBits c (tile + 1) (16 * (i * ((h.cols + 31) / 32) + q)) 10)

def keepEnv : NumEnv := ⟨.rn, false, false⟩

/-- An exact zero is +0 (R283). -/
def Exact.plusZero : Exact → Exact
  | .num _ 0 e false => .num false 0 e false
  | x => x

/-- The rounded sum of one K block (R283). -/
def blockSum (f : Fmt) (scaled : Bool) (ps : List Exact) (sa sb : Option (Nat × Int)) : Fp :=
  let p := f.read (f.round keepEnv (exactSum .rn ps).1.plusZero).1
  if !scaled then p
  else match sa, sb with
    | some (m, e), some (n, g) => f.read (f.round keepEnv (scaleFp p (some (m * n, e + g)))).1
    | _, _ => .nan false

/-- One element of the accumulator after an `mma` (R283). -/
def mmaElem (c : Crew) (ta tb : Nat) (a b : Shape) (i j old : Nat) : Nat :=
  let f := if a.ety == 7 then f64 else f32
  (List.range ((a.cols + 31) / 32)).foldl (fun acc q =>
    let ks := span (32 * q) (min 32 (a.cols - 32 * q))
    let p := blockSum f (a.scaled || b.scaled) (ks.map fun k => (fpMul (tileElem c ta a i k) (tileElem c tb b j k)).1)
      (tileScale c ta a i q) (tileScale c tb b j q)
    (f.round keepEnv (exactSum .rn [(f.read acc).exact, p.exact]).1).1) old

def accKey (a i j : Nat) : Nat := 16384 * a + 128 * i + j

/-- The accumulator after an `mma`; `spoiled` elements are open values (R194, R380, R283, R284). -/
def mmaAcc (c : Crew) (w : Word) (spoiled : Bool) (fresh : Nat) : NMap Word :=
  let ta := tileA w
  let tb := tileB w
  let a := shapeOf (tsOf c ta)
  let b := shapeOf (tsOf c tb)
  let n := bits w.toNat 5 3
  (List.range a.rows).foldl (fun m i => (List.range b.rows).foldl (fun m j =>
    let free := (Config.freeValue (fresh + 128 * i + j)).toNat
    if a.ety == 7 then
      let lo := accKey n i (2 * j)
      let x := if spoiled then free else
        mmaElem c ta tb a b i j ((look 0 m lo).toNat + (look 0 m (lo + 1)).toNat * 2 ^ 32)
      putAt 0 (putAt 0 m lo (BitVec.ofNat 32 x)) (lo + 1) (BitVec.ofNat 32 (x / 2 ^ 32))
    else
      let x := if spoiled then free else mmaElem c ta tb a b i j (look 0 m (accKey n i j)).toNat
      putAt 0 m (accKey n i j) (BitVec.ofNat 32 x)) m) c.acc

/-- The words of the tiles that a command reads: those of the elements, and of their scales (R280). -/
def Crew.reads (c : Crew) (n i : Nat) : Bool :=
  let h := shapeOf (tsOf c n)
  let blocks := if h.ety == 6 then h.rows * ((h.cols + 63) / 64) else 2 * h.rows * ((h.cols + 31) / 32)
  decide (2048 * n ≤ i ∧ i < 2048 * n + (h.bits + 31) / 32) ||
    (h.scaled && decide (2048 * (n + 1) ≤ i ∧ i < 2048 * (n + 1) + (blocks + 3) / 4))

/-- A tile that a command reads holds a poisoned word, or one that fails its code (R380). -/
def tilePoisoned (c : Crew) (n : Nat) : Bool := c.tilePoison.any (c.reads n) || c.tileEcc.bad.any (c.reads n)

/-- A segment of 16 elements of an accumulator (R378). -/
def accSegment (a i : Nat) : Bool := i / 1024 == a

/-- A segment of a row of which one of the lanes, or every one, is in a mask. -/
def rowSegment (a row : Nat) (all : Bool) (m : LaneMask) (i : Nat) : Bool :=
  i / 8 == 128 * a + row && (if all then (List.range 16).all fun l => bit m.toNat (16 * (i % 8) + l)
    else (List.range 16).any fun l => bit m.toNat (16 * (i % 8) + l))

/-- An accumulator of a crew is marked faulted: the event is counted and logged (R384, R385). -/
def countFaulted (s : State) (crew : Nat) : State :=
  let core := (crewOf s crew).core
  let b := bandOf s (crew / 16)
  logRas (count s (arrayUnit core) 15) { cls := 15, die := core / 144, unit := core % 144, tenant := b.tenant, launch := b.launch }

/-- `acrd` and `acst` read segments of an accumulator: one that is not corrected marks it faulted before the read (R380). -/
def readAcc (s : State) (crew a : Nat) (hit : Nat → Bool) : State :=
  let bad := (crewOf s crew).accEcc.bad.any hit
  let s := tendAcc s crew hit
  if bad then setFlt (countFaulted s crew) crew a true else s

/-- `MMA_COMMAND` (R243, R283): the array starts the next command, an `mma`. `upset` with pipe `32 + a` says that the column check of a K
block fails: the block is repeated, and where bit 1 of the mask says that it fails again, the accumulator is marked faulted (R194). -/
def execMmaCommand (core : Nat) (s : State) : Out :=
  match nextCmd s core with
  | some q =>
    if q.op ≠ 3 then .next s
    else
      let c := crewOf s q.crew
      let (repeated, failed) := match s.upset with
        | some (m, p) => (p == 32 + q.acc, p == 32 + q.acc && bit m.toNat 1)
        | none => (false, false)
      let poisoned := tilePoisoned c (tileA q.word) || tilePoisoned c (tileB q.word) || c.accEcc.bad.any (accSegment q.acc)
      let s := if repeated then count { s with upset := none } (arrayUnit core) 14 else s
      let s := if failed || poisoned then countFaulted s q.crew else s
      let s := tendTile s q.crew fun i => c.reads (tileA q.word) i || c.reads (tileB q.word) i
      let s := tendAcc s q.crew (accSegment q.acc)
      let c := crewOf s q.crew
      let s := setCrew s q.crew { c with acc := mmaAcc c q.word (failed || poisoned) s.fresh, accEcc := c.accEcc.wrote (accSegment q.acc) }
      let s := if failed || poisoned then setFlt { s with fresh := s.fresh + 16384 } q.crew q.acc true else s
      .next (retireCmd s core q)
  | none => .next s

/-- `ACZ_COMMAND` (R271). -/
def execAczCommand (core : Nat) (s : State) : Out :=
  match nextCmd s core with
  | some q =>
    if q.op ≠ 4 then .next s
    else
      let c := crewOf s q.crew
      let s := setCrew s q.crew { c with acc := c.acc.filter fun e => e.1 / 16384 != q.acc, accEcc := c.accEcc.wrote (accSegment q.acc) }
      .next (retireCmd (setFlt s q.crew q.acc false) core q)
  | none => .next s

/-- An element as `acst` stores it (R70, R271, R285). -/
def acstElem (otype : Nat) (scl : Bool) (g x : Nat) : Nat :=
  let v := if scl then (f32.round keepEnv (fpMul (f32.read x) (f32.read g)).1).1 else x
  if otype == 0 then v
  else
    let dst := ([bf16, bf16, f16, e4m3, e5m2] : List Fmt).getD otype bf16
    (convert keepEnv (.flt f32) (.flt dst) v).1

/-- Stores one word of a row: whole, or with its other bytes as the core's view has them (R271). A word whose address no longer
translates is not stored. -/
def acstWord (s : State) (core band launch tenant : Nat) (va : DWord) (es : List (Nat × Nat)) (size : Nat) (val : Nat → Nat) : State :=
  match checkAddr s core band 4 va .write with
  | .go p =>
    let new := es.foldl (fun w e => setBits w (8 * e.2) (8 * size) (val e.1)) 0
    if es.length * size == 4 then storePlace s core launch 0 p (BitVec.ofNat 32 new)
    else
      match readPlace s core tenant 0 p with
      | (s, .ok old) => storePlace s core launch 0 p (BitVec.ofNat 32 (es.foldl (fun w e => setBits w (8 * e.2) (8 * size) (val e.1)) old.toNat))
      | (s, _) => s
  | _ => s

/-- The words that an `acst` must load before it stores can be read now. -/
def acstReady (s : State) (core band : Nat) (q : ArrayCmd) : Bool :=
  let f := (q.ops.getD 2 0).toNat
  let size := acstSize (bits f 32 4)
  (List.range (bits f 0 16)).all fun i => (acstRow (q.ops.getD 0 0) (q.ops.getD 1 0) size i (bits f 16 16)).all fun w =>
    w.2.length * size == 4 || match checkAddr s core band 4 w.1 .write with
      | .go (.mem pa _ _) => readReady s core pa
      | _ => true

def acstAsk (s : State) (core band : Nat) (q : ArrayCmd) : State :=
  let f := (q.ops.getD 2 0).toNat
  let size := acstSize (bits f 32 4)
  (List.range (bits f 0 16)).foldl (fun s i => (acstRow (q.ops.getD 0 0) (q.ops.getD 1 0) size i (bits f 16 16)).foldl (fun s w =>
    match checkAddr s core band 4 w.1 .write with
      | .go (.mem pa _ _) => if w.2.length * size == 4 then s else askHost s pa false
      | _ => s) s) s

/-- The id of an array PIPE (R193, R271). -/
def arrayPipe (a : Nat) : DWord := pipeId 5 (32 + a)

/-- `ACST_COMMAND` (R271). -/
def execAcstCommand (core : Nat) (s : State) : Out :=
  match nextCmd s core with
  | some q =>
    if q.op ≠ 7 then .next s
    else
      let c := crewOf s q.crew
      let band := q.crew / 16
      let b := bandOf s band
      let f := (q.ops.getD 2 0).toNat
      let s := if acstReady s core band q && !bit c.accFault.toNat q.acc then
          readAcc s q.crew q.acc fun i => accSegment q.acc i && decide (i % 1024 / 8 < bits f 0 16 ∧ 16 * (i % 8) < bits f 16 16)
        else s
      let c := crewOf s q.crew
      if bit c.accFault.toNat q.acc then
        let s := retireCmd s core q
        match q.team.bind fun k => (s.teams.lookup k).map fun t => (k, t) with
        | some (k, t) =>
          let f : DataFault := { cause := cPIPE, recs := [record 0 cPIPE (arrayPipe q.acc)] }
          .next (setTeam s k { t with held := t.held ++ [f] })
        | none => .next (errorCompletion s { launch := b.launch, kind := 2, cause := cPIPE })
      else if !acstReady s core band q then .next (acstAsk s core band q)
      else
        let otype := bits f 32 4
        let size := acstSize otype
        let s := (List.range (bits f 0 16)).foldl (fun s i =>
          (acstRow (q.ops.getD 0 0) (q.ops.getD 1 0) size i (bits f 16 16)).foldl (fun s w =>
            acstWord s core band b.launch b.tenant w.1 w.2 size fun j =>
              acstElem otype (bit f 36) (q.ops.getD 3 0).toNat (look 0 c.acc (accKey q.acc i j)).toNat) s) s
        .next (retireCmd s core q)
  | none => .next s

/-! ### Accumulator rows and versions -/

/-- The lanes below 128 that an accumulator row has (R244, R272). -/
def rowMask (t : Team) : LaneMask := t.present &&& BitVec.ofNat 1024 (2 ^ 128 - 1)

/-- `acrd` (R244). -/
def execAcrd (d : BitVec 6) (r : BitVec 5) (a : BitVec 3) (s : State) : Out :=
  withTeam s fun k t =>
    if !t.okV false d.toNat || decide (a.toNat ≥ (crewOf s (crewKey k)).accs) then illop s k t
    else gated s k t { srcS := [(r.toNat, false)], preds := [t.guardReg], dstV := [d.toNat], lanes := rowMask t } fun t =>
      let row := (t.rs r.toNat).toNat
      if row ≥ 128 then refuse1 s k cBOUNDS (t.rs r.toNat)
      else afterCommands s k t (fun q => q.acc == a.toNat) fun t =>
        let s := if bit (crewOf s (crewKey k)).accFault.toNat a.toNat then s
          else readAcc s (crewKey k) a.toNat (rowSegment a.toNat row false (rowMask t))
        let c := crewOf s (crewKey k)
        if bit c.accFault.toNat a.toNat then refuse1 s k cPIPE (arrayPipe a.toNat)
        else if (laneList t (rowMask t)).isEmpty then finish s k t
        else
          let values := (laneList t (rowMask t)).map fun L => (1024 * d.toNat + L, look 0 c.acc (accKey a.toNat row L))
          startProducer s k t { team := k, core := t.core, vregs := [d.toNat], lanes := values }

/-- `acwr` (R272). -/
def execAcwr (d : BitVec 6) (r : BitVec 5) (a : BitVec 3) (s : State) : Out :=
  withTeam s fun k t =>
    if !t.okV false d.toNat || decide (a.toNat ≥ (crewOf s (crewKey k)).accs) then illop s k t
    else gated s k t { srcV := [(d.toNat, false)], srcS := [(r.toNat, false)], preds := [t.guardReg] } fun t =>
      let row := (t.rs r.toNat).toNat
      if row ≥ 128 then refuse1 s k cBOUNDS (t.rs r.toNat)
      else afterCommands s k t (fun q => q.acc == a.toNat) fun t =>
        let c := crewOf s (crewKey k)
        let s := setCrew s (crewKey k) { c with acc := (laneList t (rowMask t)).foldl (fun m L =>
          putAt 0 m (accKey a.toNat row L) (t.rv d.toNat L)) c.acc, accEcc := c.accEcc.wrote (rowSegment a.toNat row true (rowMask t)) }
        finish (setFlt s (crewKey k) a.toNat false) k t

/-- A PIPE held for accumulator `a` (R271). -/
def Team.heldPipe (t : Team) (a : Nat) : Option DataFault :=
  if t.inh then none else t.held.find? fun f => f.recs.any fun r => r.cause == cPIPE && r.addr == arrayPipe a

/-- `acver`, with and without its wait (R273); a PIPE held for the accumulator is delivered here (R271). -/
def readVersion (s : State) (d a : Nat) (w : Option Nat) : Out :=
  withTeam s fun k t =>
    if a ≥ (crewOf s (crewKey k)).accs then illop s k t
    else gated s k t { srcS := (w.map fun r => (r, false)).toList, dstS := [d] } fun t' =>
      match t.heldPipe a with
      | some f => raise s k { t.closeRegion with held := t.held.erase f } f.cause f.recs
      | none =>
        let ver := look 0 (crewOf s (crewKey k)).aver a
        match w with
        | some r => if ver.toNat ≠ bits (t'.rs r).toNat 0 16 then waitHere s else finish s k (t'.ws d (ver.setWidth 64))
        | none => finish s k (t'.ws d (ver.setWidth 64))

def execAcver (d : BitVec 5) (a : BitVec 3) (s : State) : Out := readVersion s d.toNat a.toNat none
def execAcverWait (d w : BitVec 5) (a : BitVec 3) (s : State) : Out := readVersion s d.toNat a.toNat (some w.toNat)

/-! ### Tiles -/

/-- Runs `body` on a tile that R267 allows. -/
def withTile (s : State) (k : Nat) (t : Team) (a : Nat) (u : Use) (body : Team → Shape → State) : State :=
  let c := crewOf s (crewKey k)
  if a ≥ c.tiles then illop s k t
  else gated s k t u fun t =>
    if (shapeOf (tsOf c a)).movable then body t (shapeOf (tsOf c a)) else refuse1 s k cBOUNDS (tsOf c a)

/-- The addresses of a tile's words in row order (R268). -/
def tileVas (h : Shape) (base stride : DWord) : List DWord :=
  (List.range h.rows).flatMap fun r => (List.range (h.rowBytes / 4)).map fun j =>
    base + BitVec.ofNat 64 (r * stride.toNat) + BitVec.ofNat 64 (4 * j)

/-- The places of a list of words, or the first fault. -/
def listPlaces (s : State) (k : Nat) (t : Team) (vas : List DWord) (a : Acc) : Except SpillStop (List Place) :=
  vas.mapM fun va => match checkAddr s t.core (bandKey k) 4 va a with
    | .go p => .ok p
    | .fault c => .error (.fault c { cause := c, addr := va, flags := if a == .write then 1 else 0 })
    | .wait _ => .error .wait

/-- Whether a queued command names a tile (R269). -/
def namesTile (s : State) (n : Nat) (q : ArrayCmd) : Bool := (q.tiles s).contains n

/-- Writes the words of a tile from its first. -/
def putTile (c : Crew) (n : Nat) (ws : List Word) : Crew :=
  { c with
    tile := ws.zipIdx.foldl (fun m w => putAt 0 m (2048 * n + w.2) w.1) c.tile
    tilePoison := c.tilePoison.filter fun i => !(i / 2048 == n && decide (i % 2048 < ws.length))
    tileEcc := c.tileEcc.wrote fun i => i / 2048 == n && decide (i % 2048 < ws.length) }

/-- The words of a tile's rows in memory, once every row's checks have passed, no queued command names the tile where it is written,
and the team's earlier accesses let these go (R107, R113, R202, R268, R269). -/
def tileAccess (s : State) (k : Nat) (t : Team) (h : Shape) (base stride : DWord) (a : Acc) (tile : Nat)
    (body : State → List DWord → List Place → State) : State :=
  let odd := fun va => refuse s k cMALIGN [{ record 0 cMALIGN va with flags := if a == .write then 1 else 0 }]
  if base.toNat % 4 ≠ 0 then odd base
  else if stride.toNat % 4 ≠ 0 then odd stride
  else
    let vas := tileVas h base stride
    let s := noteMisses s k t vas
    spillThen s k (listPlaces s k t vas a) fun ps => unlessWatchedAny s k (a == .write) vas <|
      afterCommands s k t (fun q => a == .read && namesTile s tile q) fun _ =>
        if inOrder s k ps (a == .write) then body s vas ps else waitHere s

/-- `tld` (R268, R269). -/
def execTld (a b z : BitVec 5) (s : State) : Out :=
  memory true s fun k t => withTile s k t a.toNat { srcS := [(b.toNat, false), (z.toNat, false)] } fun t h =>
    tileAccess s k t h (t.rs b.toNat) (t.rs z.toNat) .read a.toNat fun s vas ps => imageWords s k t ps fun s ds =>
      match (ds.zip vas).find? fun d => d.1.cause ≠ 0 with
      | some d => refuse1 s k d.1.cause d.2
      | none => finish (setCrew s (crewKey k) (putTile (crewOf s (crewKey k)) a.toNat (ds.map fun d => match d with
          | .ok w => w
          | _ => 0))) k t

/-- `tst` (R268). A poisoned word of the tile is a data fault at the `tst` (R110, R378). -/
def execTst (a b z : BitVec 5) (s : State) : Out :=
  memory true s fun k t => withTile s k t a.toNat { srcS := [(b.toNat, false), (z.toNat, false)] } fun t h =>
    tileAccess s k t h (t.rs b.toNat) (t.rs z.toNat) .write a.toNat fun s vas ps =>
      let c := crewOf s (crewKey k)
      let s := tendTile s (crewKey k) fun i => decide (2048 * a.toNat ≤ i ∧ i < 2048 * a.toNat + vas.length)
      match vas.zipIdx.find? fun v => c.tilePoison.contains (2048 * a.toNat + v.2) || c.tileEcc.bad.contains (2048 * a.toNat + v.2) with
      | some v => refuse1 s k cPOISON v.1
      | none => finish (writePlaces s k t ps (vas.zipIdx.map fun v => look 0 c.tile (2048 * a.toNat + v.2))) k t

/-- `tzero` (R268, R269). -/
def execTzero (a : BitVec 5) (s : State) : Out :=
  withTeam s fun k t => withTile s k t a.toNat {} fun t _ =>
    afterCommands s k t (namesTile s a.toNat) fun t =>
      let c := crewOf s (crewKey k)
      let words := c.tile.filter fun e => e.1 / 2048 != a.toNat
      let poison := c.tilePoison.filter fun i => i / 2048 != a.toNat
      let ecc := c.tileEcc.wrote fun i => i / 2048 == a.toNat
      finish (setCrew s (crewKey k) { c with tile := words, tilePoison := poison, tileEcc := ecc }) k t

end Sys2Proof.Machine
end

