-- ==== Sys2Proof/Machine/Queues.lean ====
section
/-! DEFINITION. Packets and the queues that carry them: the copy queues (R236, R237, R246 to R249, R251, R253, R256, R403), the
launch queues (R260, R291) and the pipeline queues (R265, R266). -/

namespace Sys2Proof.Machine

/-! ### Words at their homes -/

/-- A 64-bit value of two adjacent words at a point. -/
def pointDword (s : State) (p : Point) (core pa key tenant : Nat) : State × Datum × DWord :=
  let (s, lo) := pointRead s p core pa key 0 tenant
  let (s, hi) := pointRead s p core (pa + 4) key 0 tenant
  let r := joinData lo hi
  (s, r.1, r.2)

def putPointDword (s : State) (p : Point) (core pa key : Nat) (x : DWord) (launch : Nat) : State :=
  pointWrite (pointWrite s p core pa (x.setWidth 32) false key 0 launch) p core (pa + 4) ((x >>> 32).setWidth 32) false key 0 launch

/-- The home can perform an access that reads a word, writes it or both, and what it asks the host where it cannot (R140, R142, R367,
R369). -/
def homeCan (s : State) (rd wr : Bool) (pa : Nat) : Bool :=
  if rd && wr then updatableNow s pa else if wr then homeReady s pa true else readableNow s pa
def askHome (s : State) (rd wr : Bool) (pa : Nat) : State :=
  if rd && wr then askHost (askBoth s pa) pa true else askHost s pa wr

/-- An address fault of an access that writes, with one record for lane 0 (R189). -/
def refuseWrote (s : State) (k : Nat) (cause : Nat) (value : DWord) : State :=
  refuse s k cause [{ record 0 cause value with flags := 1 }]

/-- The words of a range at their homes, for an instruction whose faults are told by `fault` from their causes: each word as its address
and key. It waits where a home waits for the host. -/
def atHomesOr (s : State) (k : Nat) (t : Team) (fault : State → Nat → State) (vas : List DWord) (rd wr : Bool)
    (body : State → List (Nat × Nat) → State) : State :=
  let s := noteMisses s k t vas
  match listPlaces s k t vas (if wr then .write else .read) with
  | .error (.fault c _) => fault s c
  | .error .wait | .error (.watch _) => waitHere s
  | .ok ps =>
    let ws := ps.filterMap fun p => match p with
      | .mem pa key _ => some (pa, key)
      | .pad _ _ => none
    if ws.all fun w => homeCan s rd wr w.1 then body s ws
    else waitHere (ws.foldl (fun s w => askHome s rd wr w.1) s)

/-- The same where every fault has a record of `value`, and FLAGS of the access (R189). -/
def atHomes (s : State) (k : Nat) (t : Team) (value : DWord) (vas : List DWord) (rd wr : Bool)
    (body : State → List (Nat × Nat) → State) : State :=
  atHomesOr s k t (fun s c => if wr then refuseWrote s k c value else refuse1 s k c value) vas rd wr body

/-- The word addresses of `n` words from `va`. -/
def wordVas (va : DWord) (n : Nat) : List DWord := (List.range n).map fun i => va + BitVec.ofNat 64 (4 * i)

/-! ### Packets -/

def pw (ws : List DWord) (i : Nat) : Nat := (ws.getD i 0).toNat
def packetKind (ws : List DWord) : Nat := bits (pw ws 0) 0 4
def packetScope (ws : List DWord) : Nat := bits (pw ws 0) 4 3
def packetSpst (ws : List DWord) : Bool := bit (pw ws 0) 7
def packetChain (ws : List DWord) : Bool := bit (pw ws 0) 8
def packetGnode (ws : List DWord) : Bool := bit (pw ws 0) 9
def packetDkind (ws : List DWord) : Nat := bits (pw ws 0) 10 2
def packetTile (ws : List DWord) : Nat := bits (pw ws 0) 16 5
def packetMask (ws : List DWord) : Nat := bits (pw ws 0) 32 16

/-- A copy packet's KIND, SCOPE and reserved fields (R236, R237, R246, R251, R253). -/
def copyIllop (kind : Nat) (ws : List DWord) : Bool :=
  let w := pw ws
  packetKind ws != kind || packetScope ws == 7 || bits (w 0) 12 4 != 0 || bits (w 0) 21 11 != 0 || bits (w 0) 48 16 != 0 ||
    decide (packetDkind ws ≥ 2) || (packetDkind ws != 1 && packetTile ws != 0) || (kind != 2 && packetMask ws != 0) ||
    (packetDkind ws == 1 && w 2 != 0) || bit (w 5) 63 || bits (w 6) 48 16 != 0 ||
    (match kind with
      | 1 => bits (w 3) 52 12 != 0
      | 3 => packetDkind ws != 0 || packetChain ws || decide (bits (w 3) 32 8 > 5) || decide (bits (w 3) 40 4 > 5) || bits (w 3) 44 20 != 0
      | _ => bits (w 3) 32 32 != 0)

/-- A `coll` packet's KIND, SCOPE, codes and reserved fields (R256). -/
def collIllop (ws : List DWord) : Bool :=
  let w := pw ws
  packetKind ws != 4 || !(packetScope ws == 4 || packetScope ws == 5) || bit (w 0) 8 || bits (w 0) 10 6 != 0 ||
    decide (bits (w 0) 16 3 > 3) || decide (bits (w 0) 19 3 > 5) || decide (bits (w 0) 22 4 > 5) || bits (w 0) 26 6 != 0 ||
    bits (w 0) 48 16 != 0 || bits (w 3) 32 32 != 0 || bit (w 5) 63

/-- The bytes of an element of type codes 0 to 5 (R42). -/
def typeBytes (c : Nat) : Nat := if c == 2 || c == 3 || c == 5 then 8 else 4

/-- The band's cores in ascending logical order (R238, R297). -/
def bandCores (s : State) (band : Nat) : List Nat :=
  let b := bandOf s band
  (tenantOf s b.tenant).cents.filter fun c => b.cores.contains c

/-- The crews that a MASK selects (R238). -/
def maskCrews (s : State) (band mask : Nat) : List Nat :=
  let cores := ((bandCores s band).zipIdx.filter fun c => bit mask c.2).map fun c => c.1
  (s.crews.filter fun e => e.1 / 16 == band && cores.contains e.2.core).map fun e => e.1

/-- Every band core that a MASK names holds a crew of the band. -/
def maskGood (s : State) (band mask : Nat) : Bool :=
  mask != 0 && (List.range 16).all fun j => !bit mask j || match (bandCores s band)[j]? with
    | some c => s.crews.any fun e => e.1 / 16 == band && e.2.core == c
    | none => false

/-- A chained word: an `mma` whose z[4:0] is zero (R236). -/
def chainWord (w : Nat) : Bool := w &&& 0xFFF8201F == 0xA5300000

/-- The BOUNDS and MALIGN checks of a copy packet (R236, R251, R253), for the appending crew; none stands for a packet that no
band appended, which may not refer to one (R403). The cause and the value that its record names. -/
def copyCheck (s : State) (kind : Nat) (ws : List DWord) (crew : Option Nat) : Option (Nat × DWord) :=
  let w := pw ws
  let c := (crew.map (crewOf s)).getD {}
  let w0 := ws.getD 0 0
  if crew.isNone && (packetDkind ws == 1 || packetSpst ws || packetChain ws || kind == 2) then some (cBOUNDS, w0)
  else if packetDkind ws == 1 && decide (packetTile ws ≥ c.tiles) then some (cBOUNDS, w0)
  else if kind == 1 && (bits (w 3) 32 8 == 0 || bits (w 3) 40 12 == 0) then some (cBOUNDS, ws.getD 3 0)
  else if kind == 3 && (decide (bits (w 3) 0 32 < 4 ∨ bits (w 3) 0 32 > 65536) || bits (w 3) 0 32 % typeBytes (bits (w 3) 40 4) != 0) then
    some (cBOUNDS, w0)
  else if (kind == 0 || kind == 2) && (w 3 % 4 != 0 || (packetDkind ws == 1 && decide (w 3 > 8192))) then some (cBOUNDS, w0)
  else if kind == 2 && !maskGood s ((crew.getD 0) / 16) (packetMask ws) then some (cBOUNDS, w0)
  else if packetSpst ws && (w 4 % 8 != 0 || decide (w 4 ≥ c.padBytes)) then some (cBOUNDS, w0)
  else if packetChain ws && !chainWord (bits (w 6) 0 32) then some (cBOUNDS, w0)
  else if kind == 1 && w 1 % 8 != 0 then some (cMALIGN, ws.getD 1 0)
  else none

/-- The byte ranges of a `coll` (R256, R258): SEND, and RECV, which an allgather makes N times as long. -/
def collBytes (ws : List DWord) : Nat := bits (pw ws 3) 0 32 * typeBytes (bits (pw ws 0) 22 4)

/-- The BOUNDS and MALIGN checks of a `coll` packet (R256). -/
def collCheck (s : State) (ws : List DWord) (crew : Option Nat) : Option (Nat × DWord) :=
  let n := bits (pw ws 3) 0 32
  let send := pw ws 1
  let recv := pw ws 2
  let size := typeBytes (bits (pw ws 0) 22 4)
  if n = 0 ∨ n > 2 ^ 24 then some (cBOUNDS, ws.getD 0 0)
  else if send ≠ recv ∧ send < recv + collBytes ws ∧ recv < send + collBytes ws then some (cBOUNDS, ws.getD 2 0)
  else if crew.isNone && packetSpst ws then some (cBOUNDS, ws.getD 0 0)
  else if packetSpst ws && (pw ws 4 % 8 != 0 || decide (pw ws 4 ≥ ((crew.map (crewOf s)).getD {}).padBytes)) then some (cBOUNDS, ws.getD 0 0)
  else if send % size ≠ 0 ∨ recv % size ≠ 0 then some (cMALIGN, ws.getD 0 0)
  else none

/-! ### Copy queues -/

/-- A queue's header: its words, LOG2N, WIDX, DOOR and RIDX (R247). -/
structure Header where
  words : List (Nat × Nat) := []
  log2n : Nat := 0
  widx : Nat := 0
  door : Nat := 0
  ridx : Nat := 0

/-- Reads a header at its home. -/
def readHeader (s : State) (core tenant : Nat) (ws : List (Nat × Nat)) : State × Datum × Header :=
  let rd := fun (s : State) i => pointDword s .home core (ws.getD i (0, 0)).1 (ws.getD i (0, 0)).2 tenant
  let (s, d0, w) := rd s 0
  let (s, d1, o) := rd s 2
  let (s, d2, r) := rd s 4
  let (s, d3, n) := rd s 6
  let bad := [d0, d1, d2, d3].find? fun d => d.cause != 0
  (s, bad.getD (.ok 0), { words := ws, log2n := bits n.toNat 0 8, widx := w.toNat, door := o.toNat, ridx := r.toNat })

def setHeader (s : State) (core : Nat) (h : Header) (i : Nat) (x : Nat) : State :=
  putPointDword s .home core (h.words.getD i (0, 0)).1 (h.words.getD i (0, 0)).2 (BitVec.ofNat 64 x) 0

/-- The registered queue at a physical header address (R403). -/
def queueAt (s : State) (pa : Nat) : Option (Nat × CopyQueue) :=
  s.queues.find? fun e => match engineCheck s e.2.die e.2.tenant 64 e.2.va .read with
    | .go (.mem q _ _) => q == pa
    | _ => false

/-- The checks of a queue address, then what `body` does with its header (R246 to R248): BOUNDS of the aperture and of LOG2N comes
first, and then what the packet's own addresses or the queue's fail on. `mal` is the value that a MALIGN of the packet records, and `value`
what the other faults of the queue's address record. -/
def withQueue (s : State) (k : Nat) (t : Team) (q : DWord) (mal : Option DWord) (value : DWord) (body : State → Header → State) : State :=
  let fault := fun (s : State) (c : Nat) => match mal with
    | some v => refuse1 s k cMALIGN v
    | none => refuseWrote s k c value
  if inAperture q then refuseWrote s k cBOUNDS q
  else if q.toNat % 64 ≠ 0 then fault s cMALIGN
  else atHomesOr s k t fault (wordVas q 16) true true fun s ws =>
    match readHeader s t.core (bandOf s (bandKey k)).tenant ws with
    | (s, .ok _, h) =>
      if h.log2n < 4 ∨ h.log2n > 16 then refuse1 s k cBOUNDS q
      else match mal with
        | some v => refuse1 s k cMALIGN v
        | none => unlessWatched s k true true 64 q (body s h)
    | (s, d, _) => fault s d.cause

/-- The crews at which a team's packet completes: those that MASK selects at its append, or the team's (R238, R241). -/
def packetDests (s : State) (team : Option Nat) (ws : List DWord) : List Nat :=
  match team with
  | none => []
  | some k =>
    if packetDkind ws == 1 || packetSpst ws || packetChain ws then
      if packetKind ws == 2 then maskCrews s (bandKey k) (packetMask ws) else [crewKey k]
    else []

/-- Claims a slot, writes the packet there and rings the bell where every earlier slot is committed (R248). -/
def appendSlot (s : State) (core : Nat) (h : Header) (slot : List (Nat × Nat)) (ws : List DWord) (launch : Nat) (team : Option Nat) : State :=
  let s := setHeader s core h 0 (h.widx + 1)
  let s := (slot.zip (ws.flatMap dwords)).foldl (fun s x => pointWrite s .home core x.1.1 x.2 false x.1.2 0 launch) s
  let ring := h.door == h.widx
  let s := if ring then setHeader s core h 2 (h.widx + 1) else s
  { s with appends := s.appends ++ [{ queue := (h.words.getD 0 (0, 0)).1, index := h.widx, team := team, dests := packetDests s team ws, rung := ring }] }

def slotVa (q : DWord) (h : Header) (i : Nat) : DWord := q + BitVec.ofNat 64 (64 + 64 * (i % 2 ^ h.log2n))

/-- The packet registers of an appending instruction. -/
def packetOf (t : Team) (x : Nat) : List DWord := (List.range 8).map fun i => t.rs (x + i)

/-- Where an append publishes: at the packet's scope, at least at band scope, and at device scope for an engine of another die
(R403). -/
def appendPoint (s : State) (t : Team) (h : Header) (scope : Nat) : Point :=
  if scope ≥ 4 then .home
  else match queueAt s (h.words.getD 0 (0, 0)).1 with
    | some e => if e.2.die == t.core / 144 then .l2 else .home
    | none => .home

/-- `cpl`, `cpt`, `cpm` and `cpr` (R236, R246 to R248, R251, R253). -/
def appendCopy (kind : Nat) (x y : BitVec 5) (s : State) : Out :=
  memory (x.toNat ≤ 24) s fun k t =>
    gated s k t { srcS := (y.toNat, false) :: (List.range 8).map fun i => (x.toNat + i, false) } fun t =>
      let ws := packetOf t x.toNat
      let q := t.rs y.toNat
      if copyIllop kind ws then refuse1 s k cILLOP (ws.getD 0 0)
      else
        let r := copyCheck s kind ws (some (crewKey k))
        match r.filter fun r => r.1 == cBOUNDS with
        | some (c, v) => refuse1 s k c v
        | none => withQueue s k t q (r.map fun r => r.2) q fun s h =>
        releasing s k t (appendPoint s t h (packetScope ws)) (fun _ => true) fun s t =>
          if h.widx - h.ridx ≥ 2 ^ h.log2n then waitHere (setTeam s k t)
          else atHomes s k t q (wordVas (slotVa q h h.widx) 16) false true fun s slot =>
            unlessWatched s k false true 64 (slotVa q h h.widx)
              (finish (appendSlot s t.core h slot ws (bandOf s (bandKey k)).launch (some k)) k t.closeRegion)

def execCpl (x y : BitVec 5) (s : State) : Out := appendCopy 0 x y s
def execCpt (x y : BitVec 5) (s : State) : Out := appendCopy 1 x y s
def execCpm (x y : BitVec 5) (s : State) : Out := appendCopy 2 x y s
def execCpr (x y : BitVec 5) (s : State) : Out := appendCopy 3 x y s

/-- `coll` (R256, R259): it publishes the core's dirty words of SEND and nothing else. -/
def execColl (x y : BitVec 5) (s : State) : Out :=
  memory (x.toNat ≤ 24) s fun k t =>
    gated s k t { srcS := (y.toNat, false) :: (List.range 8).map fun i => (x.toNat + i, false) } fun t =>
      let ws := packetOf t x.toNat
      let q := t.rs y.toNat
      if collIllop ws then refuse1 s k cILLOP (ws.getD 0 0)
      else
        let r := collCheck s ws (some (crewKey k))
        match r.filter fun r => r.1 == cBOUNDS with
        | some (c, v) => refuse1 s k c v
        | none => withQueue s k t q (r.map fun r => r.2) (ws.getD 0 0) fun s h =>
        let rs := inRange s t.core (bandKey k) (ws.getD 1 0) (collBytes ws)
        releasing s k t .home (fun pa => rs.any fun r => decide (r.1 / 4 * 4 ≤ pa ∧ pa ≤ r.2)) fun s t =>
          if h.widx - h.ridx ≥ 2 ^ h.log2n then waitHere (setTeam s k t)
          else atHomes s k t (ws.getD 0 0) (wordVas (slotVa q h h.widx) 16) false true fun s slot =>
            unlessWatched s k false true 64 (slotVa q h h.widx)
              (finish (appendSlot s t.core h slot ws (bandOf s (bandKey k)).launch (some k)) k t)

/-! ### Launch queues -/

/-- A launch packet's KIND, SCOPE and reserved fields (R260). -/
def launchIllop (ws : List DWord) : Bool :=
  let w := pw ws
  packetKind ws != 8 || decide (packetScope ws < 4 ∨ packetScope ws > 6) || bits (w 0) 7 2 != 0 || bits (w 0) 18 14 != 0 ||
    bits (w 3) 16 48 != 0 || bit (w 5) 63

/-- The other checks of a launch packet (R260): NBANDS and QUAD, then the alignments. -/
def launchCheck (ws : List DWord) : Option (Nat × DWord) :=
  let w := pw ws
  if bits (w 0) 32 32 = 0 ∨ (bits (w 3) 8 8 ≠ 255 ∧ popCount (bits (w 3) 0 8) 8 ≠ 1) then some (cBOUNDS, ws.getD 0 0)
  else if w 1 % 64 ≠ 0 then some (cMALIGN, ws.getD 1 0)
  else if w 2 % 8 ≠ 0 then some (cMALIGN, ws.getD 2 0)
  else if w 6 % 16 ≠ 0 then some (cMALIGN, ws.getD 6 0)
  else none

/-- The number of slots, or of bands, of a launch. -/
def Launch.nbands (l : Launch) : Nat := bits (pw l.packet 0) 32 32
def Launch.pipe (l : Launch) : Bool := bit (pw l.packet 0) 17
def Launch.gang (l : Launch) : Bool := bit (pw l.packet 0) 16
def Launch.prio (l : Launch) : Nat := bits (pw l.packet 0) 10 3

/-- Every band of the launch has been dispatched, or none will be (R292). -/
def Launch.dispatched (l : Launch) : Bool := l.ended || (l.read && l.stages.all fun g => g.started == g.maxb)

/-- The packets in a launch queue, the oldest first (R291). -/
def queued (s : State) (die q tenant : Nat) : NMap Launch :=
  s.launches.filter fun e => e.2.die == die && e.2.queue == q && e.2.tenant == tenant && !e.2.dispatched

/-- Appends a packet to launch queue `q` of a tenant on a die (R291); none where its 64 slots are taken. -/
def appendLaunch (s : State) (die q tenant : Nat) (sup : Bool) (ws : List DWord) : Option State :=
  if (queued s die q tenant).length ≥ 64 then none
  else some { setLaunch s (s.serial + 1) { tenant := tenant, die := die, queue := q, packet := ws, sup := sup } with serial := s.serial + 1 }

/-- `lnch` (R260). -/
def execLnch (x y : BitVec 5) (s : State) : Out :=
  memory (x.toNat ≤ 24) s fun k t =>
    gated s k t { srcS := (y.toNat, false) :: (List.range 8).map fun i => (x.toNat + i, false) } fun t =>
      let ws := packetOf t x.toNat
      let q := (t.rs y.toNat).toNat
      if launchIllop ws then refuse1 s k cILLOP (ws.getD 0 0)
      else if q > 3 then refuse1 s k cBOUNDS (ws.getD 0 0)
      else match launchCheck ws with
      | some (c, v) => refuse1 s k c v
      | none => releasing s k t .home (fun _ => true) fun s t =>
        match appendLaunch s (t.core / 144) q (bandOf s (bandKey k)).tenant false ws with
        | some s => finish s k t
        | none => waitHere (setTeam s k t)

/-! ### Pipeline queues -/

/-- The checks of a pipeline queue, then `body` on its header's words, CLOSED, LOG2CAP, HEAD and TAIL (R265, R266). -/
def withPipe (s : State) (k : Nat) (t : Team) (q : DWord)
    (body : State → List (Nat × Nat) → Bool → Nat → Nat → Nat → State) : State :=
  if inAperture q then refuseWrote s k cBOUNDS q
  else if q.toNat % 64 ≠ 0 then refuseWrote s k cMALIGN q
  else atHomes s k t q (wordVas q 16) true true fun s ws =>
    let tenant := (bandOf s (bandKey k)).tenant
    let rd := fun (s : State) i => pointDword s .home t.core (ws.getD i (0, 0)).1 (ws.getD i (0, 0)).2 tenant
    let (s, d0, head) := rd s 0
    let (s, d1, tail) := rd s 2
    let (s, d2, f) := rd s 6
    match [d0, d1, d2].find? fun d => d.cause != 0 with
    | some d => refuseWrote s k d.cause q
    | none =>
      let cap := bits f.toNat 32 32
      if cap < 1 ∨ cap > 20 then refuse1 s k cBOUNDS q
      else unlessWatched s k true true 64 q (body s ws (bit f.toNat 0) cap head.toNat tail.toNat)

def itemVa (q : DWord) (cap i : Nat) : DWord := q + BitVec.ofNat 64 (64 + 8 * (i % 2 ^ cap))

/-- Notes that a team of a pipeline's stage waited in `qapp` (R305). -/
def noteQapp (s : State) (k : Nat) : State :=
  let b := bandOf s (bandKey k)
  let x := launchOf s b.launch
  setLaunch s b.launch { x with stages := x.stages.zipIdx.map fun g => if g.2 == b.stage then { g.1 with waited := true } else g.1 }

/-- `qapp` (R266). -/
def execQapp (x y : BitVec 5) (s : State) : Out :=
  memory true s fun k t =>
    gated s k t { srcS := [(x.toNat, false), (y.toNat, false)] } fun t =>
      let q := t.rs y.toNat
      if bit (t.rs x.toNat).toNat 63 then refuse1 s k cBOUNDS q
      else withPipe s k t q fun s ws closed cap head tail =>
        if closed then refuse1 s k cBOUNDS q
        else releasing s k t .home (fun _ => true) fun s t =>
          if tail - head ≥ 2 ^ cap then waitHere (setTeam (noteQapp s k) k t)
          else atHomes s k t q (wordVas (itemVa q cap tail) 2) false true fun s item =>
            unlessWatched s k false true 8 (itemVa q cap tail) <|
            let launch := (bandOf s (bandKey k)).launch
            let s := putPointDword s .home t.core (item.getD 0 (0, 0)).1 (item.getD 0 (0, 0)).2 (t.rs x.toNat) launch
            let s := putPointDword s .home t.core (ws.getD 2 (0, 0)).1 (ws.getD 2 (0, 0)).2 (BitVec.ofNat 64 (tail + 1)) launch
            finish s k t

/-- `qpop` (R266). -/
def execQpop (x y : BitVec 5) (s : State) : Out :=
  memory true s fun k t =>
    gated s k t { srcS := [(y.toNat, false)], dstS := [x.toNat] } fun t =>
      let q := t.rs y.toNat
      withPipe s k t q fun s ws closed cap head tail =>
        if head == tail then
          if closed then finish (invalidateClean s t.core) k (t.ws x.toNat (BitVec.ofNat 64 (2 ^ 63)))
          else waitHere s
        else atHomes s k t q (wordVas (itemVa q cap head) 2) true false fun s item =>
          unlessWatched s k true false 8 (itemVa q cap head) <|
          match pointDword s .home t.core (item.getD 0 (0, 0)).1 (item.getD 0 (0, 0)).2 (bandOf s (bandKey k)).tenant with
          | (s, .ok _, v) =>
            let s := putPointDword s .home t.core (ws.getD 0 (0, 0)).1 (ws.getD 0 (0, 0)).2 (BitVec.ofNat 64 (head + 1))
              (bandOf s (bandKey k)).launch
            finish (invalidateClean s t.core) k (t.ws x.toNat v)
          | (s, d, _) => refuse1 s k d.cause q

end Sys2Proof.Machine
end

