-- ==== Sys2Proof/Machine/Graph.lean ====
section
/-! DEFINITION. Task control blocks and the graph walker (R261 to R264, R306). -/

namespace Sys2Proof.Machine

/-- What the walker finds at an address: the physical address and key, a fault, or a wait. It works at device scope as an agent
of a die, under the tenant (R262). -/
def walkerAt (s : State) (die tenant w : Nat) (va : DWord) (a : Acc) : Check := engineCheck s die tenant w va a

/-- Reads a 64-bit value of a task's data with an acquire at device scope (R262); none where it cannot be read. -/
def walkerRead (s : State) (die tenant : Nat) (va : DWord) : State × Option DWord :=
  match walkerAt s die tenant 8 va .read with
  | .go (.mem pa key _) =>
    match pointDword s .home (144 * die) pa key tenant with
    | (s, .ok _, x) => (s, some x)
    | (s, _, _) => (s, none)
  | .wait p => ({ noteMiss s (144 * die) tenant p with late := true }, none)
  | _ => (s, none)

/-- Writes a 64-bit value at its home. -/
def walkerWrite (s : State) (die tenant : Nat) (va x : DWord) : State :=
  match walkerAt s die tenant 8 va .write with
  | .go (.mem pa key _) => putPointDword s .home (144 * die) pa key x 0
  | .wait p => { noteMiss s (144 * die) tenant p with late := true }
  | _ => s

def walkerPush (s : State) (w : Walking) : State := { s with walking := s.walking ++ [w] }

/-- The fields of a TCB's first 16 bytes (R261). -/
structure Tcb where
  lo : DWord := 0                -- KIND, FLAGS, NSUCC, PRED
  hi : DWord := 0                -- PREDINIT

def Tcb.kind (b : Tcb) : Nat := bits b.lo.toNat 0 8
def Tcb.queue (b : Tcb) : Nat := bits b.lo.toNat 8 2
def Tcb.run (b : Tcb) : Bool := bit b.lo.toNat 14
def Tcb.nsucc (b : Tcb) : Nat := bits b.lo.toNat 16 16
def Tcb.pred (b : Tcb) : Nat := bits b.lo.toNat 32 32
def Tcb.init (b : Tcb) : Nat := bits b.hi.toNat 0 32
/-- FLAGS with RUN or ERR set or clear, and PRED. -/
def Tcb.withRun (b : Tcb) (r : Bool) : Tcb := { b with lo := BitVec.ofNat 64 (setBits b.lo.toNat 14 1 (if r then 1 else 0)) }
def Tcb.withErr (b : Tcb) : Tcb := { b with lo := BitVec.ofNat 64 (setBits b.lo.toNat 15 1 1) }
def Tcb.withPred (b : Tcb) (p : Nat) : Tcb := { b with lo := BitVec.ofNat 64 (setBits b.lo.toNat 32 32 p) }

def readTcb (s : State) (die tenant : Nat) (va : DWord) : State × Option Tcb :=
  match walkerRead s die tenant va with
  | (s, some lo) =>
    match walkerRead s die tenant (va + 8) with
    | (s, some hi) => (s, some { lo := lo, hi := hi })
    | (s, none) => (s, none)
  | (s, none) => (s, none)

/-- Reads the eight words of a packet; none where one cannot be read. -/
def walkerPacket (s : State) (die tenant : Nat) (va : DWord) : State × Option (List DWord) :=
  (List.range 8).foldl (fun (a : State × Option (List DWord)) i =>
    match a.2 with
    | none => a
    | some ws => match walkerRead a.1 die tenant (va + BitVec.ofNat 64 (8 * i)) with
      | (s, some x) => (s, some (ws ++ [x]))
      | (s, none) => (s, none)) (s, some [])

/-- The packet with GNODE set and NODE at this TCB (R262). -/
def nodePacket (ws : List DWord) (tcb : DWord) : List DWord :=
  ((ws.getD 0 0 ||| 0x200) :: (ws.drop 1).take 6) ++ [tcb]

/-- The 16 words at `va` as an agent of a die writes them: each as its address and key; none where one cannot be reached. -/
def walkerPlaces (s : State) (die tenant : Nat) (va : DWord) : State × Option (List (Nat × Nat)) :=
  (wordVas va 16).foldl (fun (a : State × Option (List (Nat × Nat))) x =>
    match a.2, walkerAt a.1 die tenant 4 x .write with
    | some ps, .go (.mem pa key _) => (a.1, some (ps ++ [(pa, key)]))
    | _, .wait p => ({ noteMiss a.1 (144 * die) tenant p with late := true }, none)
    | _, _ => (a.1, none)) (s, some [])

/-- Appends a packet to the copy queue at `q` as the walker (R248, R262): none where it is full; false where it cannot be reached. -/
def walkerAppend (s : State) (die tenant : Nat) (q : DWord) (ws : List DWord) : State × Option Bool :=
  match walkerPlaces s die tenant q with
  | (s, none) => (s, some false)
  | (s, some hw) =>
    match readHeader s (144 * die) tenant hw with
    | (s, .ok _, h) =>
      if h.log2n < 4 ∨ h.log2n > 16 ∨ q.toNat % 64 ≠ 0 then (s, some false)
      else if h.widx - h.ridx ≥ 2 ^ h.log2n then (s, none)
      else match walkerPlaces s die tenant (slotVa q h h.widx) with
        | (s, none) => (s, some false)
        | (s, some slot) =>
          (appendSlot s (144 * die) h slot ws 0 none, some true)
    | (s, _, _) => (s, some false)

/-- The die whose walker runs a TCB: its home's (R306). -/
def tcbDie (s : State) (die tenant : Nat) (va : DWord) : Nat :=
  match walkerAt s die tenant 8 va .read with
  | .go (.mem pa _ _) => homeDie pa
  | _ => die

/-- Starts a node whose RUN is set (R262). -/
def startNode (s : State) (die tenant : Nat) (va : DWord) (b : Tcb) : State :=
  let retry := walkerPush s (.start tenant die va)
  let fail := walkerPush s (.complete tenant die va true)
  let cond := fun (s : State) => match walkerRead s die tenant (va + 80) with
    | (s, some p) => walkerRead s die tenant p
    | r => r
  if !bit s.ready.toNat 25 then retry
  else if b.kind = 0 then walkerPush s (.complete tenant die va false)
  else if b.kind = 1 ∨ b.kind = 2 then
    match walkerRead s die tenant (va + 72) with
    | (s, none) => walkerPush s (.complete tenant die va true)
    | (s, some p) =>
      match walkerPacket s die tenant p with
      | (s, none) => walkerPush s (.complete tenant die va true)
      | (s, some ws) =>
        let ws := nodePacket ws va
        if b.kind = 1 then
          if launchIllop ws || (launchCheck ws).isSome then walkerPush s (.complete tenant die va true)
          else match appendLaunch s die b.queue tenant false ws with
            | some s => s
            | none => walkerPush s (.start tenant die va)
        else match walkerRead s die tenant (va + 88) with
          | (s, none) => walkerPush s (.complete tenant die va true)
          | (s, some q) => match walkerAppend s die tenant q ws with
            | (s, some true) => s
            | (s, some false) => walkerPush s (.complete tenant die va true)
            | (s, none) => walkerPush s (.start tenant die va)
  else if b.kind = 3 ∨ b.kind = 4 then
    match cond s with
    | (s, none) => walkerPush s (.complete tenant die va true)
    | (s, some 0) => walkerPush s (.complete tenant die va false)
    | (s, some _) => match walkerRead s die tenant (va + 88) with
      | (s, some body) => walkerPush s (.decrement tenant (tcbDie s die tenant body) body)
      | (s, none) => walkerPush s (.complete tenant die va true)
  else if b.kind = 5 then
    match walkerRead s die tenant (va + 72) with
    | (s, none) => walkerPush s (.complete tenant die va true)
    | (s, some p) => match walkerRead s die tenant p with
      | (s, none) => walkerPush s (.complete tenant die va true)
      | (s, some a) => match walkerRead s die tenant (p + 8) with
        | (s, none) => walkerPush s (.complete tenant die va true)
        | (s, some x) => walkerPush (walkerWrite s die tenant a x) (.complete tenant die va false)
  else fail

/-- One decrement of a TCB's PRED (R262). A TCB that cannot be reached takes no decrement. -/
def decrement (s : State) (die tenant : Nat) (va : DWord) : State :=
  match readTcb s die tenant va with
  | (s, none) => s
  | (s, some b) =>
    if b.run && (b.kind == 3 || b.kind == 4) then
      if b.kind = 3 then walkerPush s (.complete tenant die va false)
      else startNode s die tenant va b
    else if b.run || b.pred == 0 then walkerWrite s die tenant va b.withErr.lo
    else
      let b := b.withPred (b.pred - 1)
      if b.pred = 0 then startNode (walkerWrite s die tenant va (b.withRun true).lo) die tenant va (b.withRun true)
      else walkerWrite s die tenant va b.lo

/-- The successors of a node in order (R263). -/
def successors (s : State) (die tenant : Nat) (va : DWord) (n : Nat) : State × List DWord :=
  let near := (List.range (min n 6)).foldl (fun (a : State × List DWord) i =>
    match walkerRead a.1 die tenant (va + BitVec.ofNat 64 (16 + 8 * i)) with
    | (s, some x) => (s, a.2 ++ [x])
    | (s, none) => (s, a.2)) (s, [])
  if n ≤ 6 then near
  else match walkerRead near.1 die tenant (va + 64) with
    | (s, none) => (s, near.2)
    | (s, some o) => (List.range (n - 6)).foldl (fun (a : State × List DWord) i =>
        match walkerRead a.1 die tenant (o + BitVec.ofNat 64 (8 * i)) with
        | (s, some x) => (s, a.2 ++ [x])
        | (s, none) => (s, a.2)) (s, near.2)

/-- A node completes (R263). -/
def completeNode (s : State) (die tenant : Nat) (va : DWord) (err : Bool) : State :=
  match readTcb s die tenant va with
  | (s, none) => if err then raiseVector s tenant 0 else s
  | (s, some b) =>
    if err then raiseVector (walkerWrite s die tenant va b.withErr.lo) tenant 0
    else
      let s := walkerWrite s die tenant va ((b.withRun false).withPred b.init).lo
      let (s, ns) := successors s die tenant va b.nsucc
      ns.foldl (fun s n => decrement s (tcbDie s die tenant n) tenant n) s

/-- `tgl` (R264). -/
def execTgl (x : BitVec 5) (s : State) : Out :=
  memory true s fun k t => gated s k t { srcS := [(x.toNat, false)] } fun t =>
    let va := t.rs x.toNat
    let tenant := (bandOf s (bandKey k)).tenant
    if va.toNat % 128 ≠ 0 then refuseWrote s k cMALIGN va
    else if inAperture va then refuseWrote s k cXLATE va
    else atHomes s k t va (wordVas va 32) true true fun s _ =>
      unlessWatched s k true true 128 va <| releasing s k t .home (fun _ => true) fun s t =>
        match attempt s fun s => decrement s (tcbDie s (t.core / 144) tenant va) tenant va with
        | (s, true) => finish s k t
        | (s, false) => waitHere s

/-- The walker's item `idx` (R262, R263). -/
def walkerItem (idx : Nat) (s : State) : State :=
  match s.walking[idx]? with
  | none => s
  | some w =>
    let s := { s with walking := s.walking.eraseIdx idx }
    match w with
    | .decrement tenant die va => decrement s (tcbDie s die tenant va) tenant va
    | .complete tenant die va err => completeNode s (tcbDie s die tenant va) tenant va err
    | .start tenant die va =>
      match readTcb s die tenant va with
      | (s, some b) => startNode s die tenant va b
      | (s, none) => s

/-- `NODE_COMPLETE` (R262, R263): the walker's item `idx`. -/
def execNodeComplete (idx : Nat) (s : State) : Out := .next (attempt s (walkerItem idx)).1

end Sys2Proof.Machine
end

