-- ==== Sys2Proof/Machine/Copy.lean ====
section
/-! DEFINITION. The copy engines: packets started (R249, R251, R254, R274, R403), reads and merge groups (R239, R252), reductions
(R253), landing and completion (R238, R241, R250), failures and replays (R254, R255). -/

namespace Sys2Proof.Machine

/-! ### An engine's accesses -/

/-- The check of an engine's access; an aperture address names the scratchpads of the appending team's band (R254, R403). -/
def engineAt (s : State) (die tenant : Nat) (team : Option Nat) (w : Nat) (va : DWord) (a : Acc) : Check :=
  if inAperture va then
    match team with
    | some k => checkAddr s (144 * die) (bandKey k) w va a
    | none => .fault cBOUNDS
  else engineCheck s die tenant w va a

/-- The point of a copy's scope (R403). -/
def copyPoint (ws : List DWord) : Point := if packetScope ws ≤ 3 then .l2 else .home

/-- A copy read of one word at an L2 slice, in its superblock's open group (R239). -/
def groupRead (s : State) (die pa key tenant : Nat) : State × Datum :=
  match s.groups.find? fun g => g.die == die && g.sb == pa / 256 with
  | some g =>
    match g.vals.lookup (wordIx pa) with
    | some d => (s, d)
    | none =>
      let (s, d) := pointRead s .l2 (144 * die) pa key 0 tenant
      ({ s with groups := s.groups.map fun x => if x.die == die && x.sb == pa / 256 then
          { x with vals := x.vals ++ [(wordIx pa, d)] } else x }, d)
  | none =>
    let (s, d) := pointRead s .l2 (144 * die) pa key 0 tenant
    ({ s with groups := s.groups ++ [{ die := die, sb := pa / 256, vals := [(wordIx pa, d)] }] }, d)

/-- An engine's read of one word of a destination at its point, which joins no group (R239); none where it waits for the host. -/
def destRead (s : State) (die tenant : Nat) (point : Point) (p : Place) : State × Option Datum :=
  match p with
  | .pad _ _ =>
    let (s, d) := readPlace s (144 * die) tenant 0 p
    (s, some d)
  | .mem pa key _ =>
    let pa := pa / 4 * 4
    if (point == .l2 && (held (l2Of s die) pa).isSome) || homeReady s pa false then
      let (s, d) := pointRead s point (144 * die) pa key 0 tenant
      (s, some d)
    else (askHost s pa false, none)

/-- An engine's read of one word of a source at its point; none where it waits for the host. -/
def engineRead (s : State) (die tenant : Nat) (point : Point) (p : Place) : State × Option Datum :=
  match p with
  | .pad _ _ =>
    let (s, d) := readPlace s (144 * die) tenant 0 p
    (s, some d)
  | .mem pa key _ =>
    let pa := pa / 4 * 4
    if point == .l2 then
      if (s.groups.any fun g => g.die == die && g.sb == pa / 256 && (g.vals.lookup (wordIx pa)).isSome) ||
          (held (l2Of s die) pa).isSome || homeReady s pa false then
        let (s, d) := groupRead s die pa key tenant
        (s, some d)
      else (askHost s pa false, none)
    else if homeReady s pa false then
      let (s, d) := pointRead s .home (144 * die) pa key 0 tenant
      (s, some d)
    else (askHost s pa false, none)

/-- An engine's write of one word at its point (R347). -/
def engineWrite (s : State) (die : Nat) (point : Point) (launch : Nat) (p : Place) (w : Word) : State :=
  match p with
  | .pad c o => writePad s c o w
  | .mem pa key _ => pointWrite s point (144 * die) (pa / 4 * 4) w false key 0 launch

/-- The launch of an appending team, or 0. -/
def appendLaunchId (s : State) (team : Option Nat) : Nat := (team.map fun k => (bandOf s (bandKey k)).launch).getD 0

/-! ### Ends -/

/-- The graph node of a packet that completes or fails (R241, R254). -/
def packetNode (die tenant : Nat) (ws : List DWord) (err : Bool) : Option Walking :=
  if packetGnode ws then some (.complete tenant die (ws.getD 7 0) err) else none

/-- Writes a stamp at its place where one can be reached (R250), and updates the packet's node after it (R241). -/
def engineStamp (s : State) (die tenant : Nat) (team : Option Nat) (ws : List DWord) (err : Bool) : State :=
  let after := packetNode die tenant ws err
  let launch := appendLaunchId s team
  match engineAt s die tenant team 8 (ws.getD 4 0) .write with
  | .go p => stampAt s (copyPoint ws) (144 * die) p (ws.getD 5 0) err tenant launch after
  | .wait va => { noteMiss s (144 * die) tenant va with owed := s.owed ++
      [{ die := die, tenant := tenant, l2 := copyPoint ws == .l2, launch := launch, va := ws.getD 4 0, seq := ws.getD 5 0, err := err,
         after := after }] }
  | .fault _ => follow s after

/-- The stamp in a destination crew's scratchpad (R241). -/
def crewStamp (s : State) (ws : List DWord) (crew : Nat) (err : Bool) : State :=
  stampAt s .l2 0 (.pad crew (pw ws 4)) (ws.getD 5 0) err 0 0

/-- Counts a failure in the queue's header (R247, R254). -/
def noteFailure (s : State) (queue slot cause : Nat) : State :=
  let q := look {} s.queues queue
  match engineCheck s q.die q.tenant 64 q.va .write with
  | .go (.mem pa key _) =>
    let (s, _, n) := pointDword s .home (144 * q.die) (pa + 32) key q.tenant
    let s := putPointDword s .home (144 * q.die) (pa + 32) key (n + 1) 0
    putPointDword s .home (144 * q.die) (pa + 40) key (BitVec.ofNat 64 (cause + slot * 256)) 0
  | .wait va => { noteMiss s (144 * q.die) q.tenant va with late := true }
  | _ => s

/-- A packet fails (R254): its stamp with ERR where one is written, the counters and the node. -/
def failPacket (s : State) (c : Copy) (cause : Nat) (stamp : Bool) : State :=
  let s := noteFailure s c.queue c.slot cause
  let node := packetNode c.die c.tenant c.packet true
  let s := if !stamp then follow s node
    else if packetSpst c.packet then follow ((c.dests.filter fun d => !c.done.contains d).foldl (fun s d =>
      if (s.crews.lookup d).isSome then crewStamp s c.packet d true else s) s) node
    else if pw c.packet 4 % 8 = 0 then engineStamp s c.die c.tenant c.team c.packet true else follow s node
  { s with copies := s.copies.filter fun x => x.uid != c.uid }

def setCopy (s : State) (c : Copy) : State := { s with copies := s.copies.map fun x => if x.uid == c.uid then c else x }

/-- An attempt is abandoned (R254): the copy is replayed whole under a new number, so that words still on their way no longer
count for it, and a reduction goes on at its watermark; a fourth abandonment fails the packet. -/
def abandonCopy (s : State) (c : Copy) (cause : Nat) : State :=
  if c.tries + 1 ≥ 4 then failPacket s c cause true
  else
    let keep := packetKind c.packet == 3 && decide (c.applied > 0)
    let c' : Copy := { c with uid := s.serial, tries := c.tries + 1, next := if keep then c.next else 0,
                              staged := if keep then c.staged else [], flying := 0 }
    { s with serial := s.serial + 1, copies := s.copies.map fun x => if x.uid == c.uid then c' else x }

/-! ### Accesses of a copy -/

/-- Why a read or a write of a copy stops. -/
inductive CopyStop where
  | fail (cause : Nat)
  | page (va : Nat)              -- a translation that the host has not given yet
  | host

/-- A checked access of a copy. -/
def copyAt (s : State) (c : Copy) (va : DWord) (a : Acc) : State × Except CopyStop Place :=
  match engineAt s c.die c.tenant c.team 4 va a with
  | .go p => (s, .ok p)
  | .fault f => (useDenials s c.tenant [va], .error (.fail f))
  | .wait va => (noteMiss s (144 * c.die) c.tenant va, .error (.page va))

/-- The word that holds one byte of the source. -/
def copyWord (s : State) (c : Copy) (va : DWord) : State × Except CopyStop Word :=
  match copyAt s c (BitVec.ofNat 64 (va.toNat / 4 * 4)) .read with
  | (s, .error e) => (s, .error e)
  | (s, .ok p) => match engineRead s c.die c.tenant (copyPoint c.packet) p with
    | (s, none) => (s, .error .host)
    | (s, some (.ok w)) => (s, .ok w)
    | (s, some d) => (s, .error (.fail d.cause))

/-- The page of a tenant is asked of the host by a page request (R377). -/
def pageAsked (s : State) (tenant page : Nat) : Bool := s.ats.any fun a => a.tenant == tenant && a.page == page && a.asked

/-- What a stop does to a copy (R254): a page request abandons the attempt. -/
def stopCopy (s : State) (c : Copy) (e : Option CopyStop) : State :=
  match e with
  | none => setCopy s c
  | some (.fail f) => failPacket s c f true
  | some .host => setCopy s c
  | some (.page va) => if pageAsked s c.tenant (va / 65536) then abandonCopy s { c with paused := some (va / 65536) } cXLATE else setCopy s c

/-! ### Starting a packet -/

/-- Commits the appends whose turn it is (R248). -/
def ringDoors (s : State) (core tenant : Nat) (hw : List (Nat × Nat)) : Nat → State
  | 0 => s
  | n + 1 =>
    match readHeader s core tenant hw with
    | (s, .ok _, h) =>
      let q := (hw.getD 0 (0, 0)).1
      if s.appends.any fun a => a.queue == q && a.index == h.door && !a.rung then
        let s := setHeader s core h 2 (h.door + 1)
        ringDoors { s with appends := s.appends.map fun a => if a.queue == q && a.index == h.door then { a with rung := true } else a }
          core tenant hw n
      else s
    | (s, _, _) => s

/-- The addresses that a packet holds (R237, R251, R256, R403). -/
def packetAddrs (ws : List DWord) : List DWord :=
  let w := fun i => ws.getD i 0
  let coll := packetKind ws == 4
  [w 1] ++ (if coll || packetDkind ws == 0 then [w 2] else []) ++ (if packetSpst ws then [] else [w 4]) ++
    (if coll then [w 6] else []) ++ if packetGnode ws then [w 7] else []

/-- The check an engine makes of a packet when it starts (R249, R403): the cause of its failure. What a team appended has passed its
instruction's check; any other packet may hold no aperture address. -/
def startCheck (s : State) (team : Option Nat) (ws : List DWord) : Option Nat :=
  let stray := (packetAddrs ws).any inAperture
  match packetKind ws, team with
  | 4, none => if collIllop ws then some cILLOP else if stray then some cBOUNDS else (collCheck s ws none).map fun r => r.1
  | k, none => if k > 3 ∨ copyIllop k ws then some cILLOP else if stray then some cBOUNDS else (copyCheck s k ws none).map fun r => r.1
  | k, some _ => if k > 4 then some cILLOP else none

/-- The bytes of a tensor element (R251). -/
def Copy.esz (c : Copy) : Nat := 2 ^ bits (pw c.desc 3) 0 8
def Copy.wrows (c : Copy) : Nat := bits (pw c.packet 3) 32 8
def Copy.wcols (c : Copy) : Nat := bits (pw c.packet 3) 40 12

/-- The payload words of a copy (R237, R252, R253). -/
def Copy.words (c : Copy) : Nat :=
  if packetKind c.packet == 1 then c.wrows * c.wcols * c.esz / 4 else bits (pw c.packet 3) 0 32 / 4

/-- The address of a payload byte; none for an element outside the source (R252). -/
def Copy.srcByte (c : Copy) (b : Nat) : Option DWord :=
  if packetKind c.packet != 1 then some (c.packet.getD 1 0 + BitVec.ofNat 64 b)
  else
    let e := b / c.esz
    let r : Int := toSigned 16 (pw c.packet 3) + (e / c.wcols : Nat)
    let k : Int := toSigned 16 (pw c.packet 3 / 65536) + (e % c.wcols : Nat)
    if 0 ≤ r ∧ r < (bits (pw c.desc 1) 0 32 : Nat) ∧ 0 ≤ k ∧ k < (bits (pw c.desc 1) 32 32 : Nat) then
      some (c.desc.getD 0 0 + BitVec.ofInt 64 (r * (c.desc.getD 2 0).toInt + k * c.esz) + BitVec.ofNat 64 (b % c.esz))
    else none

/-- What a tensor descriptor fails on (R252). -/
def tensorFault (c : Copy) : Option Nat :=
  let d3 := pw c.desc 3
  if bits d3 8 56 ≠ 0 ∨ bits d3 0 8 > 3 then some cBOUNDS
  else if c.wrows * c.wcols * c.esz % 4 ≠ 0 then some cBOUNDS
  else if packetDkind c.packet == 1 && decide (c.wrows * c.wcols * c.esz > 8192) then some cBOUNDS
  else if pw c.desc 0 % c.esz ≠ 0 ∨ pw c.desc 2 % c.esz ≠ 0 ∨ (packetDkind c.packet == 0 ∧ pw c.packet 2 % c.esz ≠ 0) then some cMALIGN
  else none

/-- Alignment of the words that a linear copy or a reduction moves (R107, R253). -/
def linearFault (c : Copy) : Option Nat :=
  let n := if packetKind c.packet == 3 then typeBytes (bits (pw c.packet 3) 40 4) else 4
  if pw c.packet 1 % n ≠ 0 ∨ (packetDkind c.packet == 0 ∧ pw c.packet 2 % n ≠ 0) then some cMALIGN else none

/-- A chained `mma` passes its check at every destination crew that lives (R274). -/
def chainGood (s : State) (ws : List DWord) (dests : List Nat) : Bool :=
  !packetChain ws || (dests.filter fun d => (s.crews.lookup d).isSome).all fun d => (mmaCheck (crewOf s d) (BitVec.ofNat 32 (pw ws 6))).isNone

/-- Starts a copy whose packet and stamp page have passed. -/
def startCopy (s : State) (c : Copy) : State :=
  let s := { s with copies := s.copies ++ [c] }
  if !chainGood s c.packet c.dests then failPacket s c cBOUNDS true
  else if packetKind c.packet != 1 then
    match linearFault c with
    | some f => failPacket s c f true
    | none => s
  else
    let r := (List.range 8).foldl (fun (a : State × Except CopyStop (List Word)) i =>
      match a.2 with
      | .error _ => a
      | .ok ws => match copyWord a.1 c (c.packet.getD 1 0 + BitVec.ofNat 64 (4 * i)) with
        | (s, .ok w) => (s, .ok (ws ++ [w]))
        | (s, .error e) => (s, .error e)) (s, .ok [])
    match r with
    | (s, .ok ws) =>
      let c := { c with desc := (List.range 4).map fun i => dwordAt ws (2 * i) }
      match tensorFault c with
      | some f => failPacket (setCopy s c) c f true
      | none => setCopy s c
    | (s, .error e) => stopCopy s c (some e)

/-- Reads the four words of a participant's group descriptor at its home (R257, R403): the words, or the cause that they fail on. A word
that has to wait marks the step late. -/
def readGroup (s : State) (c : Copy) : State × Except Nat (List Word) :=
  (List.range 4).foldl (fun (a : State × Except Nat (List Word)) i =>
    match a.2 with
    | .error _ => a
    | .ok ws => match engineAt a.1 c.die c.tenant c.team 4 (c.packet.getD 6 0 + BitVec.ofNat 64 (4 * i)) .read with
      | .fault f => (a.1, .error f)
      | .wait va => ({ noteMiss a.1 (144 * c.die) c.tenant va with late := true }, .error cXLATE)
      | .go p => match destRead a.1 c.die c.tenant .home p with
        | (s, some (.ok w)) => (s, .ok (ws ++ [w]))
        | (s, some d) => (s, .error d.cause)
        | (s, none) => ({ s with late := true }, .error cXLATE)) (s, .ok [])

/-- Enters a participant of a collective (R257): its group descriptor is read when its packet starts, and one that cannot be read fails
it. -/
def startPart (s : State) (c : Copy) : State :=
  if (c.packet.getD 6 0).toNat % 8 ≠ 0 then failPacket s c cMALIGN true
  else match readGroup s c with
    | (s, .error f) => failPacket s c f true
    | (s, .ok ws) =>
      let gid := (dwordAt ws 0).toNat
      let n := (ws.getD 2 0).toNat
      let rank := (ws.getD 3 0).toNat
      let key := gid * 2 ^ 32 + rank
      let turn := look 0 s.collTurns key
      { s with
        parts := s.parts ++ [{ uid := c.uid, queue := c.queue, slot := c.slot, die := c.die, tenant := c.tenant, team := c.team,
                               packet := c.packet, gid := gid, n := n, rank := rank, turn := turn,
                               bad := if n < 2 ∨ n > 4096 ∨ rank ≥ n then cBOUNDS else 0 }]
        collTurns := setAt s.collTurns key (turn + 1) }

/-- The engine of a die takes the next committed packet of a registered queue (R249, R254, R403). -/
def takePacket (die queue : Nat) (s : State) : State :=
  match s.queues.lookup queue with
  | none => s
  | some q =>
    if q.die ≠ die ∨ !bit s.ready.toNat 24 then s
    else match walkerPlaces s die q.tenant q.va with
    | (s, none) => s
    | (s, some hw) =>
      let core := 144 * die
      let s := ringDoors s core q.tenant hw 65536
      match readHeader s core q.tenant hw with
      | (s, .ok _, h) =>
        if h.ridx ≥ h.door ∨ h.log2n < 4 ∨ h.log2n > 16 then s
        else match walkerPacket s die q.tenant (slotVa q.va h h.ridx) with
        | (s, none) => s
        | (s, some ws) =>
          let pa := (hw.getD 0 (0, 0)).1
          let from' := s.appends.find? fun a => a.queue == pa && a.index == h.ridx
          let team := from'.bind fun a => a.team
          let c : Copy := { uid := s.serial, queue := queue, slot := h.ridx, die := die, tenant := q.tenant, team := team, packet := ws,
                            dests := (from'.map fun a => a.dests).getD [] }
          let go := fun (s : State) =>
            let s := setHeader s core h 4 (h.ridx + 1)
            { s with serial := s.serial + 1, appends := s.appends.filter fun a => !(a.queue == pa && a.index == h.ridx) }
          let start := fun (s : State) => if packetKind ws == 4 then startPart (go s) c else startCopy (go s) c
          match startCheck s team ws with
          | some f => failPacket (go s) c f (!(packetSpst ws && team.isNone))
          | none =>
            if packetSpst ws then start s
            else match engineAt s die q.tenant team 8 (ws.getD 4 0) .write with
              | .fault f => failPacket (go s) c f false
              | .wait va => { noteMiss s core q.tenant va with late := true }
              | .go _ => start s
      | (s, _, _) => s

/-- `COPY_PACKET_START` (R249, R254, R403). -/
def execCopyPacketStart (die queue : Nat) (s : State) : Out := .next (attempt s (takePacket die queue)).1

/-! ### Moving -/

/-- Payload word `i` (R252). -/
def payloadWord (s : State) (c : Copy) (i : Nat) : State × Except CopyStop Word :=
  match c.srcByte (4 * i) with
  | some va =>
    if va.toNat % 4 = 0 ∧ (packetKind c.packet != 1 ∨ c.esz ≥ 4) then copyWord s c va else bytes s
  | none => bytes s
where
  bytes (s : State) : State × Except CopyStop Word :=
    let (s, r) := (List.range 4).foldl (fun (a : State × Except CopyStop Nat) j =>
      match a.2, c.srcByte (4 * i + j) with
      | .error e, _ => (a.1, .error e)
      | .ok x, none => (a.1, .ok x)
      | .ok x, some va => match copyWord a.1 c va with
        | (s, .ok w) => (s, .ok (x + bits w.toNat (8 * (va.toNat % 4)) 8 * 2 ^ (8 * j)))
        | (s, .error e) => (s, .error e)) (s, .ok 0)
    (s, r.map (BitVec.ofNat 32))

/-- Writes bits `[lo + n - 1 : lo]` of the destination word at `va`. -/
def mergeWord (s : State) (c : Copy) (va : DWord) (lo n part : Nat) : State × Option CopyStop :=
  match copyAt s c va .write with
  | (s, .error e) => (s, some e)
  | (s, .ok p) => match destRead s c.die c.tenant (copyPoint c.packet) p with
    | (s, none) => (s, some .host)
    | (s, some (.ok old)) =>
      (engineWrite s c.die (copyPoint c.packet) (appendLaunchId s c.team) p (BitVec.ofNat 32 (setBits old.toNat lo n part)), none)
    | (s, some d) => (s, some (.fail d.cause))

/-- Writes a destination word whole: at the engine's point, or as a word of a message to a home on another die. -/
def landWord (s : State) (c : Copy) (va : DWord) (w : Word) : State × Except CopyStop (List (Nat × Word × Nat)) :=
  let point := copyPoint c.packet
  match copyAt s c va .write with
  | (s, .error e) => (s, .error e)
  | (s, .ok (.mem pa key cp)) =>
    if point == .home && homeDie pa != c.die then (s, .ok [(pa, w, key)])
    else (engineWrite s c.die point (appendLaunchId s c.team) (.mem pa key cp) w, .ok [])
  | (s, .ok p) => (engineWrite s c.die point (appendLaunchId s c.team) p w, .ok [])

/-- Moves payload word `i` to a memory destination, each of whose words is written once (R255). At a destination that is not a multiple of
4 a word takes bytes of payload word `i - 1` as well, which `c.carry` holds, and the first and the last keep bytes that the destination
does not cover. -/
def landMemory (s : State) (c : Copy) (i : Nat) (w : Word) : State × Except CopyStop (List (Nat × Word × Nat)) :=
  let va := c.packet.getD 2 0 + BitVec.ofNat 64 (4 * i)
  let o := va.toNat % 4
  if o = 0 then landWord s c va w
  else
    let base := va - BitVec.ofNat 64 o
    let r := if i = 0 then match mergeWord s c base (8 * o) (32 - 8 * o) w.toNat with
        | (s, some e) => (s, .error e)
        | (s, none) => (s, .ok [])
      else landWord s c base (BitVec.ofNat 32 (setBits (c.carry.toNat / 2 ^ (32 - 8 * o)) (8 * o) (32 - 8 * o) w.toNat))
    match r with
    | (s, .error e) => (s, .error e)
    | (s, .ok ms) =>
      if i + 1 < c.words then (s, .ok ms)
      else match mergeWord s c (base + 4) 0 (8 * o) (w.toNat / 2 ^ (32 - 8 * o)) with
        | (s, some e) => (s, .error e)
        | (s, none) => (s, .ok ms)

/-- Writes payload word `i` in the tile of every destination crew (R238). -/
def landTiles (s : State) (c : Copy) (i : Nat) (w : Word) : State :=
  c.dests.foldl (fun s d => if (s.crews.lookup d).isSome then
    let x := crewOf s d
    let key := 2048 * packetTile c.packet + i
    setCrew s d { x with tile := putAt 0 x.tile key w, tilePoison := x.tilePoison.filter fun p => p != key,
                         tileEcc := x.tileEcc.wrote fun i => i == key }
    else s) s

/-- Moves the next payload words, as many as `n`: the messages' words, the copy, and what stopped it. -/
def moveWords (s : State) (c : Copy) : Nat → List (Nat × Word × Nat) → State × List (Nat × Word × Nat) × Copy × Option CopyStop
  | 0, out => (s, out, c, none)
  | n + 1, out =>
    match payloadWord s c c.next with
    | (s, .error e) => (s, out, c, some e)
    | (s, .ok w) =>
      let c' := { c with next := c.next + 1, carry := w }
      if packetDkind c.packet == 1 then moveWords (landTiles s c c.next w) c' n out
      else match landMemory s c c.next w with
        | (s, .error e) => (s, out, c, some e)
        | (s, .ok ms) => moveWords s c' n (out ++ ms)

/-- Reads payload words into the staging buffer of a reduction (R253). -/
def stageWords (s : State) (c : Copy) : Nat → Nat → List Word → State × List Word × Nat × Option CopyStop
  | 0, i, out => (s, out, i, none)
  | n + 1, i, out =>
    match payloadWord s c i with
    | (s, .error e) => (s, out, i, some e)
    | (s, .ok w) => stageWords s c n (i + 1) (out ++ [w])

/-- Sends the words of a copy that go to homes on other dies, as messages of class 2, or of class 4 for a multicast (R363). -/
def sendCopyWords (s : State) (c : Copy) (ws : List (Nat × Word × Nat)) : State × Nat :=
  (List.range 8).foldl (fun (a : State × Nat) d =>
    let mine := ws.filter fun w => homeDie w.1 == d
    let s := enqueueCut a.1 c.die d (if packetKind c.packet == 2 then 4 else 2) 4 mine 0 (Cargo.copy c.uid) fun w => le w.2.1.toNat 4
    (s, a.2 + (s.msgs.length - a.1.msgs.length))) (s, 0)

/-- MODE of a reduction's atomics: its type, rounding to nearest, no saturation (R253). -/
def reduceMode (ws : List DWord) : Word := BitVec.ofNat 32 (bits (pw ws 3) 40 4 * 2 ^ 18)

/-- Applies the next element of a reduction (R253). -/
def applyElem (s : State) (c : Copy) : State × Option CopyStop :=
  let size := typeBytes (bits (pw c.packet 3) 40 4)
  let mode := reduceMode c.packet
  let fn := bits (pw c.packet 3) 32 8
  let i := c.applied * size / 4
  let raw := (c.staged.getD i 0).toNat + (if size == 8 then (c.staged.getD (i + 1) 0).toNat * 2 ^ 32 else 0)
  let x : Int := match atomElem mode fn with
    | some (.int sg w, _) => if fn == 0 then intOf sg w raw else (raw : Int)
    | _ => (raw : Int)
  let va := c.packet.getD 2 0 + BitVec.ofNat 64 (c.applied * size)
  match engineAt s c.die c.tenant c.team size va .write with
  | .fault f => (s, some (.fail f))
  | .wait va => (noteMiss s (144 * c.die) c.tenant va, some (.page va))
  | .go (.pad k o) =>
    match atomPad s mode fn 0 k o x 0 with
    | (s, vals) => match vals.find? fun v => v.2.2.cause != 0 with
      | some v => (s, some (.fail v.2.2.cause))
      | none => (s, none)
  | .go (.mem pa key _) =>
    let a : AtomReq := { fn := fn, mode := mode, core := 144 * c.die, tenant := c.tenant, launch := appendLaunchId s c.team }
    if copyPoint c.packet == .home && !homeReady s pa true then (askHost s pa true, some .host)
    else match atomAt s (copyPoint c.packet) a { pa := pa, key := key, x := x } with
      | (s, vals) => match vals.find? fun v => v.2.2.cause != 0 with
        | some v => (s, some (.fail v.2.2.cause))
        | none => (s, none)

/-- Copy `idx` moves the words of its next superblock; a reduction first stages its whole source and then applies one element (R239,
R252 to R255). An attempt that a page request has abandoned is replayed once the request is answered (R254). -/
def moveCopy (idx : Nat) (s : State) : State :=
  match s.copies[idx]? with
  | none => s
  | some c =>
    if c.paused.any (pageAsked s c.tenant) then s
    else
    let c := { c with paused := none }
    let n := min (c.words - c.next) (64 - (pw c.packet 1 / 4 + c.next) % 64)
    if packetKind c.packet == 3 then
      if c.next < c.words then
        let (s, ws, i, e) := stageWords s c n c.next []
        stopCopy s { c with staged := c.staged ++ ws, next := i } e
      else if c.applied * typeBytes (bits (pw c.packet 3) 40 4) < 4 * c.words then
        match applyElem s c with
        | (s, none) => setCopy s { c with applied := c.applied + 1 }
        | (s, e) => stopCopy s c e
      else s
    else if packetKind c.packet == 1 && c.desc.isEmpty then
      startCopy { s with copies := s.copies.filter fun x => x.uid != c.uid } c
    else if c.next < c.words then
      let (s, ws, c, e) := moveWords s c n []
      let (s, f) := sendCopyWords s c ws
      stopCopy s { c with flying := c.flying + f } e
    else s

/-- `COPY_READ` (R239, R252 to R255): copy `idx` moves the words of its next superblock; a reduction first stages its whole
source and then applies one element. -/
def execCopyRead (idx : Nat) (s : State) : Out := .next (attempt s (moveCopy idx)).1

/-- `MERGE_WINDOW_CLOSE` (R239): group `idx` of a die closes. -/
def execMergeWindowClose (die idx : Nat) (s : State) : Out :=
  match (s.groups.filter fun g => g.die == die)[idx]? with
  | none => .next s
  | some g => .next { s with groups := s.groups.erase g }

/-! ### Completion -/

/-- Every byte of a copy has landed. -/
def Copy.landed (c : Copy) : Bool :=
  c.next == c.words && c.flying == 0 && !(packetKind c.packet == 1 && c.desc.isEmpty) &&
    (packetKind c.packet != 3 || c.applied * typeBytes (bits (pw c.packet 3) 40 4) == 4 * c.words)

/-- A copy that is complete everywhere writes its stamp and updates its node (R241). -/
def endCopy (s : State) (c : Copy) : State :=
  let s := if packetSpst c.packet then follow s (packetNode c.die c.tenant c.packet false)
    else engineStamp s c.die c.tenant c.team c.packet false
  { s with copies := s.copies.filter fun x => x.uid != c.uid }

/-- Queues a chained command at a crew: in its core's array queue, or with its saved band (R196, R241). None where the queue is
full. -/
def queueChain (s : State) (crew : Nat) (ws : List DWord) : Option State :=
  let q : ArrayCmd := { crew := crew, word := BitVec.ofNat 32 (pw ws 6), ver := BitVec.ofNat 16 (bits (pw ws 6) 32 16) }
  let b := bandOf s (crew / 16)
  if b.run == .saved then some { setBand s (crew / 16) { b with arrays := b.arrays ++ [{ q with uid := s.serial }] } with serial := s.serial + 1 }
  else if arrayRoom s (crewOf s crew).core then some (enqueueCmd s (crewOf s crew).core q)
  else none

/-- The copy is complete at its destination crew number `dest` (R241, R274). -/
def completeCopy (idx dest : Nat) (s : State) : State :=
  match s.copies[idx]? with
  | none => s
  | some c =>
    if !c.landed then s
    else match c.dests[dest]? with
    | none => if c.dests.all c.done.contains then endCopy s c else s
    | some d =>
      if c.done.contains d then s
      else if (s.crews.lookup d).isNone then
        let c := { c with done := c.done ++ [d] }
        if c.dests.all c.done.contains then endCopy s c else setCopy s c
      else if !chainGood s c.packet [d] then failPacket s c cBOUNDS true
      else match (if packetChain c.packet then queueChain s d c.packet else some s) with
        | none => s
        | some s =>
          let s := if packetSpst c.packet then crewStamp s c.packet d false else s
          let c := { c with done := c.done ++ [d] }
          if c.dests.all c.done.contains then endCopy s c else setCopy s c

/-- `COPY_COMPLETE` (R241, R274): the copy is complete at its destination crew number `dest`. -/
def execCopyComplete (idx dest : Nat) (s : State) : Out := .next (attempt s (completeCopy idx dest)).1

end Sys2Proof.Machine
end

