-- ==== Sys2Proof/Machine/Collective.lean ====
section
/-! DEFINITION. The collective engines: matching (R257), the exchange of chunks (R331), results (R258) and failures (R259). -/

namespace Sys2Proof.Machine

/-- A participant seen as a packet of its copy queue. -/
def Part.copy (p : Part) (dests : List Nat) : Copy :=
  { uid := p.uid, queue := p.queue, slot := p.slot, die := p.die, tenant := p.tenant, team := p.team, packet := p.packet, dests := dests }

def partDests (s : State) (p : Part) : List Nat := if packetSpst p.packet then (p.team.map crewKey).toList.filter fun c => (s.crews.lookup c).isSome else []

def dropPart (s : State) (p : Part) : State := { s with parts := s.parts.filter fun x => x.uid != p.uid }

/-- A participant fails (R254, R257, R259). -/
def failPart (s : State) (p : Part) (cause : Nat) : State := dropPart (failPacket s (p.copy (partDests s p)) cause true) p

/-- The fields of a `coll` packet on which matched packets must agree (R257): CKIND, OP and TYPE, COUNT, ROOT. -/
def Part.key (p : Part) : Nat × Nat × Nat := (bits (pw p.packet 0) 16 10, bits (pw p.packet 3) 0 32, bits (pw p.packet 0) 32 16)
def Part.kind (p : Part) : Nat := bits (pw p.packet 0) 16 3
def Part.op (p : Part) : Nat := bits (pw p.packet 0) 19 3
def Part.type (p : Part) : Nat := bits (pw p.packet 0) 22 4
def Part.root (p : Part) : Nat := bits (pw p.packet 0) 32 16
/-- The words of a participant's SEND. -/
def Part.words (p : Part) : Nat := collBytes p.packet / 4

/-- The participants of one matching, in rank order. -/
def matched (s : State) (p : Part) : List Part :=
  (List.range p.n).filterMap fun r => s.parts.find? fun q => q.gid == p.gid && q.turn == p.turn && q.exchange == p.exchange && q.rank == r

/-- Reads a SEND range at the point of its scope (R331): the words, or the cause that makes it unreadable; none where it waits. -/
def readSend (s : State) (p : Part) : Nat → Nat → List Word → State × Option (Except Nat (List Word))
  | 0, _, out => (s, some (.ok out))
  | n + 1, i, out =>
    match engineAt s p.die p.tenant p.team 4 (p.packet.getD 1 0 + BitVec.ofNat 64 (4 * i)) .read with
    | .fault f => (s, some (.error f))
    | .wait va => (noteMiss s (144 * p.die) p.tenant va, none)
    | .go pl => match engineRead s p.die p.tenant .home pl with
      | (s, none) => (s, none)
      | (s, some (.ok w)) => readSend s p n (i + 1) (out ++ [w])
      | (s, some d) => (s, some (.error d.cause))

/-- The ranks to which a rank's SEND goes (R331). -/
def receivers (kind n root i : Nat) : List Nat :=
  if kind == 1 then [root] else if kind == 2 then (if i == root then List.range n else []) else List.range n

/-- Sends the chunks of every SEND that go to another die, each at most 1,024 bytes (R331): each with the ranks it joins and its first
word. -/
def sendChunks (s : State) (uid : Nat) (ps : List Part) (data : List (List Word)) : State × List (Nat × Nat × Nat) :=
  ps.foldl (fun (a : State × List (Nat × Nat × Nat)) p =>
    (receivers p.kind p.n p.root p.rank).foldl (fun (a : State × List (Nat × Nat × Nat)) r =>
      match ps.find? fun q => q.rank == r with
      | some q =>
        if q.die == p.die then a
        else
          let first := fun (g : List (Nat × Word)) => (g.headD (0, 0)).1
          let s := enqueueCut a.1 p.die q.die 3 4 ((data.getD p.rank []).zipIdx.map fun x => (x.2, x.1)) 0
            (fun g => Cargo.chunk uid p.rank r (first g)) fun x => le x.2.toNat 4
          (s, a.2 ++ (s.msgs.drop a.1.msgs.length).filterMap fun m => match m.cargo with
            | .chunk _ x y lo => some (x, y, lo)
            | _ => none)
      | none => a) a) (s, [])

/-- Reads the SEND of every participant, given in rank order, and starts the exchange, or repeats it from its start (R259, R331); one that
has failed takes part with its SEND. Nothing happens while a read waits. -/
def startExchange (s : State) (ps : List Part) (old : Exchange) : State :=
  let r := ps.foldl (fun (a : State × Option (List (List Word) × List Nat)) p =>
    match a.2 with
    | none => a
    | some (ds, bs) => match readSend a.1 p p.words 0 [] with
      | (s, none) => (s, none)
      | (s, some (.ok ws)) => (s, some (ds ++ [ws], bs ++ [0]))
      | (s, some (.error f)) => (s, some (ds ++ [[]], bs ++ [f]))) (s, some ([], []))
  match r with
  | (s, none) => s
  | (s, some (ds, bs)) =>
    let uid := s.serial
    let (s, fl) := sendChunks { s with serial := s.serial + 1 } uid ps ds
    { s with
      parts := s.parts.map fun q => if ps.any fun p => p.uid == q.uid then { q with exchange := some uid, next := 0 } else q
      exchanges := (s.exchanges.filter fun x => x.uid != old.uid) ++
        [{ uid := uid, data := ds, bad := bs, dies := ps.map fun p => p.die, flying := fl, tries := old.tries }] }

/-- Participant `idx` is matched with the others of its turn (R257). -/
def matchPart (idx : Nat) (s : State) : State :=
  match s.parts[idx]? with
  | none => s
  | some p =>
    if p.exchange.isSome then s
    else if p.bad ≠ 0 then failPart { s with collFailed := s.collFailed ++ [(p.gid, p.turn)] } p p.bad
    else if s.collFailed.contains (p.gid, p.turn) then failPart s p cBOUNDS
    else
      let ps := matched s p
      if ps.length ≠ p.n then s
      else if (ps.any fun q => q.key != p.key || q.n != p.n) || ((p.kind == 1 || p.kind == 2) && decide (p.root ≥ p.n)) then
        ps.foldl (fun s q => failPart s q cBOUNDS) s
      else startExchange s ps { uid := s.serial }

/-- `COLLECTIVE_MATCH` (R257): participant `idx`. -/
def execCollectiveMatch (idx : Nat) (s : State) : Out := .next (attempt s (matchPart idx)).1

/-- A loss among an exchange's messages repeats it (R259): at most three times. -/
def repeatExchange (s : State) (uid : Nat) : State :=
  match s.exchanges.find? fun e => e.uid == uid with
  | none => s
  | some e =>
    let ps := s.parts.filter fun p => p.exchange == some uid
    let s := { s with exchanges := s.exchanges.filter fun x => x.uid != uid }
    if e.tries + 1 ≥ 4 then ps.foldl (fun s p => if p.done then dropPart s p else failPart s p cLOSS) s
    else { s with exchanges := s.exchanges ++ [{ e with tries := e.tries + 1, again := true }] }

/-- Word `i` of rank `src`'s SEND as the engine of rank `dst` has it (R331): it stays on the die, or has come in a chunk. -/
def Exchange.word (e : Exchange) (dst src i : Nat) : Option Word :=
  if e.dies.getD src 0 == e.dies.getD dst 0 then (e.data.getD src [])[i]?
  else (e.got.filter fun g => g.1 == dst && g.2.1 == src).findSome? fun g => if g.2.2.1 ≤ i then g.2.2.2[i - g.2.2.1]? else none

/-- How many words a rank receives (R258). -/
def recvLen (p : Part) : Nat := if p.kind == 3 then p.n * p.words else if p.kind == 1 && p.rank != p.root then 0 else p.words

/-- Element `i` of the combination of every rank's SEND, once the engine holds it from every rank (R258, R331). -/
def combined (e : Exchange) (p : Part) (i : Nat) : Option Nat :=
  let mode : Word := BitVec.ofNat 32 (p.type * 2 ^ 18)
  let size := typeBytes p.type / 4
  let elem := fun (src : Nat) => (e.word p.rank src (size * i)).bind fun lo =>
    if size == 2 then (e.word p.rank src (size * i + 1)).map fun hi => lo.toNat + hi.toNat * 2 ^ 32 else some lo.toNat
  let operand := fun (x : Nat) => match atomElem mode p.op with
    | some (.int sg w, _) => if p.op == 0 then intOf sg w x else (x : Int)
    | _ => (x : Int)
  (span 1 (p.n - 1)).foldl (fun acc r => acc.bind fun x => (elem r).map fun y => atomNew mode p.op x (operand y) 0) (elem 0)

/-- Word `i` of a rank's RECV, once its engine holds what it takes (R258, R331). -/
def recvWord (e : Exchange) (p : Part) (i : Nat) : Option Word :=
  if p.kind == 3 then e.word p.rank (i / max p.words 1) (i % max p.words 1)
  else if p.kind == 2 then e.word p.rank p.root i
  else
    let size := typeBytes p.type / 4
    (combined e p (i / size)).map fun x => BitVec.ofNat 32 (x / 2 ^ (32 * (i % size)))

/-- The cause that a rank fails with through an unreadable SEND (R259), or 0. -/
def sendCause (e : Exchange) (p : Part) : Nat :=
  let own := e.bad.getD p.rank 0
  let any := (e.bad.find? fun c => c != 0).getD 0
  if own ≠ 0 then own
  else if p.kind == 1 then (if p.rank == p.root then any else 0)
  else if p.kind == 2 then e.bad.getD p.root 0
  else any

/-- Writes the RECV words from `i` on that the engine has, each whole (R331): how far it came, and a failure or a wait. -/
def writeRecv (s : State) (e : Exchange) (p : Part) : Nat → Nat → State × Nat × Option CopyStop
  | 0, i => (s, i, none)
  | n + 1, i =>
    match recvWord e p i with
    | none => (s, i, none)
    | some w =>
      match engineAt s p.die p.tenant p.team 4 (p.packet.getD 2 0 + BitVec.ofNat 64 (4 * i)) .write with
      | .fault f => (s, i, some (.fail f))
      | .wait va => (noteMiss s (144 * p.die) p.tenant va, i, some (.page va))
      | .go pl => writeRecv (engineWrite s p.die .home (appendLaunchId s p.team) pl w) e p n (i + 1)

/-- An exchange ends once every participant that has not failed is complete. -/
def endExchange (s : State) (uid : Nat) : State :=
  if s.parts.any fun q => q.exchange == some uid && !q.done then s
  else { s with exchanges := s.exchanges.filter fun x => x.uid != uid, parts := s.parts.filter fun q => q.exchange != some uid }

def setPart (s : State) (p : Part) : State := { s with parts := s.parts.map fun x => if x.uid == p.uid then p else x }

/-- A rank of an exchange fails (R254, R259): its stamp has ERR, and its SEND alone goes on taking part. -/
def failRank (s : State) (p : Part) (cause : Nat) : State :=
  setPart (failPacket s (p.copy (partDests s p)) cause true) { p with failed := true, done := true }

/-- Rank `part` of exchange `idx` goes on (R258, R259, R331): its engine writes the RECV words that it can, and the stamp once all are
written and the chunks of its SEND delivered. -/
def completePart (idx part : Nat) (s : State) : State :=
  match s.exchanges[idx]? with
  | none => s
  | some e =>
    match s.parts.find? fun p => p.exchange == some e.uid && p.rank == part with
    | none => s
    | some p =>
      if e.again then startExchange s (matched s p) e
      else if p.failed then s
      else if sendCause e p ≠ 0 then (if p.done then s else endExchange (failRank s p (sendCause e p)) e.uid)
      else match writeRecv s e p (recvLen p - p.next) p.next with
        | (s, i, some (.fail f)) => if p.done then setPart s { p with next := i } else endExchange (failRank s p f) e.uid
        | (s, i, some _) => setPart s { p with next := i }
        | (s, i, none) =>
          let p := { p with next := i }
          if p.done ∨ i < recvLen p ∨ e.flying.any (fun f => f.1 == part) then setPart s p
          else
            let s := if packetSpst p.packet then
                follow ((partDests s p).foldl (fun s d => crewStamp s p.packet d false) s) (packetNode p.die p.tenant p.packet false)
              else engineStamp s p.die p.tenant p.team p.packet false
            endExchange (setPart s { p with done := true }) e.uid

/-- `COLLECTIVE_COMPLETE` (R258, R259, R331): rank `part` of exchange `idx`. -/
def execCollectiveComplete (idx part : Nat) (s : State) : Out := .next (attempt s (completePart idx part)).1

end Sys2Proof.Machine
end

