-- ==== Sys2Proof/Machine/SpecialFn.lean ====
section
/-! DEFINITION. The special functions of R96 and R97 over numbers. `rcp`, `rsq`, `exp2` and `log2` give one of the two
bracketing values, and which one is a free bit; `sinr`, `cosr` and `tanh` give a free value where it lies within the error
that R96 allows. The transcendental values are computed in fixed point with 256 fraction bits. -/

namespace Sys2Proof.Machine

inductive SpecFn where
  | rcp | rsq | sqrt | exp2 | log2 | sinr | cosr | tanh
  deriving DecidableEq, Repr

/-- Fraction bits of the fixed-point numbers below. -/
def fixP : Nat := 256

/-- `2^fixP · atan(1/n)` or `atanh(1/n)` by its series; `alt` alternates the signs. -/
def atanInv (alt : Bool) (n : Nat) : Nat → Nat → Int → Int
  | 0, _, _ => 0
  | t + 1, k, p => (if alt && k % 2 == 1 then -(p / (2 * k + 1 : Nat)) else p / (2 * k + 1 : Nat))
      + atanInv alt n t (k + 1) (p / (n * n : Nat))

def fixOne : Int := 2 ^ fixP
def fixLn2 : Int := 2 * atanInv false 3 90 0 (fixOne / 3)
def fixPi : Int := 16 * atanInv true 5 60 0 (fixOne / 5) - 4 * atanInv true 239 20 0 (fixOne / 239)

/-- `Σ` of the exponential series at a fixed-point `t`. -/
def expSeries (t : Int) : Nat → Nat → Int → Int
  | 0, _, _ => 0
  | n + 1, k, p => p + expSeries t n (k + 1) (p * t / fixOne / (k + 1 : Nat))

/-- `exp t` for a small fixed-point `t`. -/
def fixExp (t : Int) : Int := expSeries t 80 0 fixOne

/-- Every second term of the exponential series, with alternating signs: sine from `p = θ, k = 1`, cosine from `p = 1, k = 0`. -/
def trigSeries (sq : Int) : Nat → Nat → Int → Int
  | 0, _, _ => 0
  | n + 1, k, p => p + trigSeries sq n (k + 2) (-(p * sq / fixOne / ((k + 1) * (k + 2) : Nat)))

def fixSin (θ : Int) : Int := trigSeries (θ * θ / fixOne) 60 1 θ
def fixCos (θ : Int) : Int := trigSeries (θ * θ / fixOne) 60 0 fixOne

/-- `atanh z` for a small fixed-point `z`. -/
def atanhSeries (sq : Int) : Nat → Nat → Int → Int
  | 0, _, _ => 0
  | n + 1, k, p => p / (2 * k + 1 : Nat) + atanhSeries sq n (k + 1) (p * sq / fixOne)

/-- `x ^ (2 ^ n)` of a fixed-point number. -/
def fixSquares : Nat → Int → Int
  | 0, x => x
  | n + 1, x => fixSquares n (x * x / fixOne)

/-- `tanh` of a fixed-point `x` with `|x| < 16`. -/
def fixTanh (x : Int) : Int :=
  let e := fixSquares 6 (fixExp (2 * x / 64))
  (e - fixOne) * fixOne / (e + fixOne)

/-- A finite operand as a fixed-point number, cut below `2^-256`. -/
def toFix (neg : Bool) (m : Nat) (e : Int) : Int :=
  mant neg (if e + fixP ≥ 0 then m * 2 ^ (e + fixP).toNat else m / 2 ^ (-(e + fixP)).toNat)

/-- A fixed-point number that is not exact, as an exact value with a sticky part. -/
def fixExact (v : Int) : Exact := .num (decide (v < 0)) (v.natAbs / 2 ^ 16) (16 - (fixP : Int)) true

/-- Rounds to one of the two bracketing binary32 values (R96): the one of smaller magnitude where `up` is false. -/
def bracket (env : NumEnv) (up : Bool) : Exact → Nat × Flags
  | .num neg m e sticky => f32.roundNum (if up then (if neg then .rd else .ru) else .rz) env neg m e sticky
  | x => f32.round env x

/-- Whether a finite number is `2^n`: its exponent. -/
def pow2Of (m : Nat) (e : Int) : Option Int := if m == 2 ^ Nat.log2 m then some (Nat.log2 m + e) else none

/-- `sqrt` (R96, R97): every result but the exact cases of R97 raises INX. -/
def sqrtIn (f : Fmt) (env : NumEnv) (x : Fp) : Nat × Flags :=
  let (r, fl) := fpSqrt x
  let (v, g) := f.round env r
  let exact := match x with
    | .num neg m e => neg || m == 0 || (match pow2Of m e with
      | some n => n % 2 == 0
      | none => false)
    | _ => true
  (v, fl ||| g ||| (if exact then 0 else fINX))

def expExact (n : Int) : Exact := .num false 1 (max (-4096) (min 4096 n)) false

/-- `2^x` (R97). -/
def exp2Exact (neg : Bool) (m : Nat) (e : Int) : Exact :=
  if m == 0 then .num false 1 0 false
  else if e > 12 then expExact (if neg then -4096 else 4096)
  else if e ≥ 0 then expExact (mant neg (m * 2 ^ e.toNat))
  else if m % 2 ^ (-e).toNat == 0 then expExact (mant neg (m / 2 ^ (-e).toNat))
  else
    let k := (-e).toNat
    let x := mant neg m
    let n := x / (2 ^ k : Nat)
    let f := x % (2 ^ k : Nat)
    let t := f * fixLn2 / (2 ^ k : Nat)
    .num false ((fixExp t).natAbs / 2 ^ 16) (16 - (fixP : Int) + max (-4096) (min 4096 n)) true

/-- `log2 x` of a positive number (R97). -/
def log2Exact (m : Nat) (e : Int) : Exact :=
  match pow2Of m e with
  | some n => .num (decide (n < 0)) n.natAbs 0 false
  | none =>
    let l := Nat.log2 m
    let up := decide (2 * m ≥ 3 * 2 ^ l)
    let b : Nat := if up then 2 ^ (l + 1) else 2 ^ l
    let z := ((m : Int) - b) * fixOne / ((m : Int) + b)
    let ln := 2 * atanhSeries (z * z / fixOne) 70 0 z
    fixExact (((l : Int) + e + (if up then 1 else 0)) * fixOne + ln * fixOne / fixLn2)

/-- `1/√x` of a positive number (R97). -/
def rsqExact (m : Nat) (e : Int) : Exact :=
  let m := if e % 2 = 0 then m else 2 * m
  let e := if e % 2 = 0 then e else e - 1
  let k := 100 + Nat.log2 m
  let r := isqrt (2 ^ (2 * k) / m)
  .num false r (-(k : Int) - e / 2) (r * r * m != 2 ^ (2 * k))

/-- A suggested binary32 value where it is a finite value within `2^-22` of `v`, else the nearest one to `v` (R96). -/
def within (env : NumEnv) (v : Int) (suggested : Nat) : Nat × Flags :=
  let ok := match f32.read suggested with
    | .num neg m e => decide ((toFix neg m e - v).natAbs ≤ 2 ^ (fixP - 22) + 2 ^ 100)
    | _ => false
  let r := if ok then suggested else (f32.roundNum .rn { env with ftz := false } (decide (v < 0)) v.natAbs (-(fixP : Int)) true).1
  if bits r 0 31 ≠ 0 && decide (bits r 0 31 < 2 ^ 23) then (if env.ftz then r - bits r 0 31 else r, fINX ||| fUNF)
  else (r, fINX)

/-- The reduced argument of `sinr` and `cosr`: the fraction of `x` in quarter turns where it is a multiple of 1/4, and the
fixed-point angle (R96, R97). -/
def turn (neg : Bool) (m : Nat) (e : Int) : Option Nat × Int :=
  if e ≥ 0 then (some 0, 0)
  else
    let k := (-e).toNat
    let f := mant neg m % (2 ^ k : Nat)
    let q := 4 * f
    (if q % (2 ^ k : Nat) = 0 then some (q / (2 ^ k : Nat)).toNat else none,
      let f' := if 2 * f > (2 ^ k : Nat) then f - (2 ^ k : Nat) else f
      2 * fixPi * f' / (2 ^ k : Nat))

def f32One (neg : Bool) : Nat := f32.signed neg 0x3F800000

/-- The binary32 result of a special function on an exact operand (R96, R97). `free` supplies the choice the rule leaves. -/
def specF32 (fn : SpecFn) (env : NumEnv) (free : Nat) (x : Fp) : Nat × Flags :=
  let up := bit free 32
  let sug := bits free 0 32
  match fn, x with
  | _, .nan s => (f32.nan, if s then fINV else 0)
  | .rcp, .inf neg => (f32.signed neg 0, 0)
  | .rcp, .num neg m e =>
    if m == 0 then (f32.signed neg f32.inf, fDZ)
    else bracket env up (fpDiv (.num false 1 0) (.num neg m e)).1
  | .rsq, .inf neg => if neg then (f32.nan, fINV) else (0, 0)
  | .rsq, .num neg m e =>
    if m == 0 then (f32.signed neg f32.inf, fDZ) else if neg then (f32.nan, fINV) else bracket env up (rsqExact m e)
  | .sqrt, x => sqrtIn f32 env x
  | .exp2, .inf neg => (if neg then 0 else f32.inf, 0)
  | .exp2, .num neg m e => bracket env up (exp2Exact neg m e)
  | .log2, .inf neg => if neg then (f32.nan, fINV) else (f32.inf, 0)
  | .log2, .num neg m e =>
    if m == 0 then (f32.signed true f32.inf, fDZ) else if neg then (f32.nan, fINV) else bracket env up (log2Exact m e)
  | .sinr, .inf _ => (f32.nan, fINV)
  | .sinr, .num neg m e =>
    if m == 0 then (f32.signed neg 0, 0)
    else match turn neg m e with
      | (some 1, _) => (f32One false, 0)
      | (some 3, _) => (f32One true, 0)
      | (some _, _) => (0, 0)
      | (none, θ) => within env (fixSin θ) sug
  | .cosr, .inf _ => (f32.nan, fINV)
  | .cosr, .num neg m e =>
    match turn neg m e with
      | (some 0, _) => (f32One false, 0)
      | (some 2, _) => (f32One true, 0)
      | (some _, _) => (0, 0)
      | (none, θ) => within env (fixCos θ) sug
  | .tanh, .inf neg => (f32One neg, 0)
  | .tanh, .num neg m e =>
    if m == 0 then (f32.signed neg 0, 0)
    else if (Nat.log2 m : Int) + e ≥ 4 then (f32One neg, fINX)
    else within env (fixTanh (toFix neg m e)) sug

/-- One element of a special function under a format (R96): under a packed type the operand is widened exactly, computed as
in binary32, where nothing is flushed, and rounded to the element, except that `sqrt` rounds once. UNF follows the final result: one
that rounding has made normal raises none (R69). -/
def specElem (fn : SpecFn) (f : Fmt) (env : NumEnv) (free x : Nat) : Nat × Flags :=
  let v := f.operand env.ftz x
  if fn = .sqrt then sqrtIn f env v
  else if f = f32 then specF32 fn env free v
  else
    let (y, g) := specF32 fn { env with ftz := false } free v
    let (z, h) := f.round env (f32.read y).exact
    (z, (if bits z 0 (f.width - 1) < 2 ^ f.fbits then g else g &&& ~~~fUNF) ||| h)

end Sys2Proof.Machine
end

