-- ==== Sys2Proof/Machine/Special.lean ====
section
/-! DEFINITION. The special functions as producers (R96, R97) and the activation tables (R98 to R102). -/

namespace Sys2Proof.Machine

/-- A vector producer of values computed at issue: the checkers, the flags, then the issue (R47, R73, R192). -/
def vecProducer (s : State) (k : Nat) (t : Team) (unit : Nat) (wide table : Bool) (d : Nat) (rs : List (Nat × Nat × Flags)) : State :=
  checkedLanes s k t unit t.present fun s =>
    let hit := rs.filter fun r => r.2.2 &&& t.fpte.setWidth 5 != 0
    if !hit.isEmpty then refuse s k cFPEXC (hit.map fun r => record r.1 cFPEXC (r.2.2.setWidth 64))
    else if rs.isEmpty then finish s k t
    else startProducer s k t { team := k, core := t.core, lanes := laneWords wide d (rs.map fun r => (r.1, r.2.1)),
                               vregs := pair wide d, flags := rs.foldl (fun a r => a ||| r.2.2) 0, table := table }

/-- A special function; each element draws a free value for what R96 leaves open. -/
def special (fn : SpecFn) (f64too : Bool) (d : BitVec 6) (ta : Bool) (a : BitVec 6) (s : State) : Out :=
  withTeam s fun k t =>
    match t.typed [.F, .PF] false with
    | none => illop s k t
    | some (ty, e) =>
      if (ty.wide && !f64too) || !(t.okV ty.wide d.toNat && t.okV ty.wide a.toNat) then illop s k t
      else gated s k t { srcV := srcsV ty.wide a.toNat ta, preds := [t.guardReg], dstV := pair ty.wide d.toNat, lanes := t.present }
        fun t =>
          vecProducer { s with fresh := s.fresh + 4096 } k t 4 ty.wide false d.toNat ((laneList t t.present).map fun L =>
            let x := t.rw ty.wide a.toNat L
            (L, ty.build fun i => match ty.elem with
              | .flt f => specElem fn f e (Config.freeValue (s.fresh + 4 * L + i)).toNat (ty.get x i)
              | .int _ _ => (0, 0)))

def execRcp (d : BitVec 6) (ta : Bool) (a : BitVec 6) (s : State) : Out := special .rcp false d ta a s
def execRsq (d : BitVec 6) (ta : Bool) (a : BitVec 6) (s : State) : Out := special .rsq false d ta a s
def execSqrt (d : BitVec 6) (ta : Bool) (a : BitVec 6) (s : State) : Out := special .sqrt true d ta a s
def execExp2 (d : BitVec 6) (ta : Bool) (a : BitVec 6) (s : State) : Out := special .exp2 false d ta a s
def execLog2 (d : BitVec 6) (ta : Bool) (a : BitVec 6) (s : State) : Out := special .log2 false d ta a s
def execSinr (d : BitVec 6) (ta : Bool) (a : BitVec 6) (s : State) : Out := special .sinr false d ta a s
def execCosr (d : BitVec 6) (ta : Bool) (a : BitVec 6) (s : State) : Out := special .cosr false d ta a s
def execTanh (d : BitVec 6) (ta : Bool) (a : BitVec 6) (s : State) : Out := special .tanh false d ta a s

/-! ### Activation tables -/

/-- Rounding of the steps of `tbev` (R102): to nearest, keeping subnormals. -/
def tableEnv : NumEnv := ⟨.rn, false, false⟩
def round32 (x : Exact) : Fp := f32.read (f32.round tableEnv x).1
def add32 (x y : Fp) : Fp := round32 (exactSum .rn [x.exact, y.exact]).1
def fma32 (x y z : Fp) : Fp := round32 (exactSum .rn [(fpMul x y).1, z.exact]).1

/-- The segment of `u`: 0 below zero or for a NaN, 255 above (R102). -/
def segment : Fp → Nat
  | .nan _ => 0
  | .inf neg => if neg then 0 else 255
  | .num neg m e => if neg then 0 else min 255 (if e ≥ 0 then (if e > 8 ∧ m ≠ 0 then 255 else m * 2 ^ e.toNat) else m / 2 ^ (-e).toNat)

/-- A word of a core's table bank. -/
def Core.tabWord (c : Core) (bank i : Nat) : Fp := f32.read (look 0 c.tab (2048 * bank + i)).toNat

/-- The value of `tbev` before its last rounding, a binary32 value (R102). -/
def tableValue (c : Core) (bank : Nat) (x : Fp) : Fp :=
  match x with
  | .nan _ => .nan false
  | _ =>
    let u := round32 (fpMul (add32 x (c.tabWord bank 0).negate) (c.tabWord bank 1)).1
    let i := segment u
    let t := add32 u (.num true i 0)
    fma32 (fma32 (fma32 (c.tabWord bank (4 + 4 * i + 3)) t (c.tabWord bank (4 + 4 * i + 2))) t
      (c.tabWord bank (4 + 4 * i + 1))) t (c.tabWord bank (4 + 4 * i))

def Core.bank (c : Core) : Nat := if c.tabActive then 1 else 0

/-- `tbev` (R102): it waits while a `tbsw` of the core holds it (R101). -/
def execTbev (d : BitVec 6) (ta : Bool) (a : BitVec 6) (s : State) : Out :=
  withTeam s fun k t =>
    match t.typed [.F, .PF] false with
    | none => illop s k t
    | some (ty, e) =>
      if ty.wide || !(t.okV false d.toNat && t.okV false a.toNat) then illop s k t
      else gated s k t { srcV := [(a.toNat, ta)], preds := [t.guardReg], dstV := [d.toNat], lanes := t.present } fun t =>
        let c := coreOf s t.core
        if c.tabSwap.isSome then waitHere s
        else vecProducer s k t 4 false true d.toNat ((laneList t t.present).map fun L =>
          let x := t.rw false a.toNat L
          (L, ty.build fun i => match ty.elem with
            | .flt f =>
              let y := tableValue c c.bank (f.operand e.ftz (ty.get x i))
              if f = f32 then ((f.round tableEnv y.exact).1, 0) else f.round e y.exact
            | .int _ _ => (0, 0)))

/-- The `tbld`s and `tbsw`s of a core take effect in the order in which they reach issue (R100, R101): whether it is a team's turn,
and a team's place in the order. -/
def Core.myTurn (c : Core) (k : Nat) : Bool := c.tabWait.headD k == k
def queueTab (s : State) (core k : Nat) : State :=
  let c := coreOf s core
  if c.tabWait.contains k then s else setCore s core { c with tabWait := c.tabWait ++ [k] }

/-- `tbld` (R100). -/
def execTbld (x : BitVec 5) (s : State) : Out :=
  withTeam s fun k t => gated s k t { srcS := [(x.toNat, false)] } fun t =>
    let va := t.rs x.toNat
    imageAccess s k t 16 4112 va .read fun s _ =>
      let c := coreOf s t.core
      if !c.tabLoads.isEmpty || c.tabSwap.isSome || !c.myTurn k then waitHere (queueTab s t.core k)
      else finish (setCore s t.core { c with tabLoads := [(k, 1 - c.bank, va.toNat)], tabWait := c.tabWait.drop 1 }) k t

/-- A word of an image can be read now, or never; else what it waits for has been asked (R100, R136, R377). -/
def imageReady (s : State) (core band : Nat) (va : DWord) : State × Bool :=
  match checkAddr s core band 4 va .read with
  | .go (.mem pa _ _) => if readReady s core pa then (s, true) else (askHost s pa false, false)
  | .wait a => (noteMiss s core (bandOf s band).tenant a, false)
  | _ => (s, true)

/-- Reads the words of an image at `va` in the core's view; a word that cannot be read counts as bad. -/
def readImage (s : State) (core band tenant : Nat) (va : DWord) (n : Nat) : State × List (Option Word) :=
  (List.range n).foldl (fun (a : State × List (Option Word)) i =>
    match checkAddr a.1 core band 4 (va + BitVec.ofNat 64 (4 * i)) .read with
    | .go p =>
      match readPlace a.1 core tenant 0 p with
      | (s, .ok w) => (s, a.2 ++ [some w])
      | (s, _) => (s, a.2 ++ [none])
    | _ => (a.1, a.2 ++ [none])) (s, [])

/-- `TABLE_LOAD_COMPLETE` (R100): once every word of the image can be read, it fills the inactive bank, and the bank is marked good or
bad. -/
def execTableLoadComplete (core : Nat) (s : State) : Out :=
  let c := coreOf s core
  match c.tabLoads with
  | [] => .next s
  | (k, bank, va) :: rest =>
    let (s, ok) := (List.range 1028).foldl (fun (a : State × Bool) i =>
      let r := imageReady a.1 core (bandKey k) (BitVec.ofNat 64 (va + 4 * i))
      (r.1, a.2 && r.2)) (s, true)
    if !ok then .next s
    else
    let (s, ws) := readImage s core (bandKey k) (c.tenant.getD 0) (BitVec.ofNat 64 va) 1028
    let c := coreOf s core
    let good := ws.all Option.isSome
    .next (setCore s core { c with
      tabLoads := rest
      tab := putMany 0 (fun i => ((ws.getD (i % 2048) none).getD 0)) (span (2048 * bank) 1028) c.tab
      tabGood := BitVec.ofNat 2 (setBits c.tabGood.toNat bank 1 (if good then 1 else 0)) })

/-- `tbsw` (R101). It keeps its place in the order until the flip. -/
def execTbsw (s : State) : Out :=
  withTeam s fun k t =>
    let c := coreOf s t.core
    if !c.tabLoads.isEmpty || (c.tabSwap.isSome && c.tabSwap != some k) || !c.myTurn k then waitHere (queueTab s t.core k)
    else if c.tabSwap.isNone && !bit c.tabGood.toNat (1 - c.bank) then raise s k t cPOISON []
    else if s.producers.any fun p => p.core == t.core && p.table then
      waitHere (queueTab (setCore s t.core { c with tabSwap := some k }) t.core k)
    else finish (setCore s t.core { c with tabActive := !c.tabActive, tabSwap := none, tabWait := c.tabWait.drop 1 }) k t

/-- `PRODUCER_COMPLETION` (R47): the team's oldest producer that is no load writes its destinations. -/
def execProducerCompletion (team : Nat) (s : State) : Out :=
  match s.producers.find? fun p => p.team == team, s.teams.lookup team with
  | some p, some t => .next (setTeam { s with producers := s.producers.erase p } team (t.complete p))
  | _, _ => .next s

end Sys2Proof.Machine
end

