-- ==== Sys2Proof/Machine/Mill.lean ====
section
/-! DEFINITION. The Mill: contexts, streams and what they deliver (R206 to R210, R224 to R235), `rbal` (R211) and `shpld`
(R222). -/

namespace Sys2Proof.Machine

/-! ### Reading streams -/

/-- Why a stream read gives no element: a fault at an address, a watchpoint that it meets, or a wait. -/
inductive MStop where
  | fault (cause : Nat) (addr : DWord)
  | watch (addr : DWord)
  | wait

/-- Reads one word as a plain load of the team (R113, R202, R208, R228). -/
def millWord (s : State) (k : Nat) (t : Team) (va : DWord) : State × Except MStop Word :=
  let s := noteMisses s k t [va]
  match checkAddr s t.core (bandKey k) 4 va .read with
  | .fault c => (s, .error (.fault c va))
  | .wait _ => (s, .error .wait)
  | .go p =>
    if watched (bandOf s (bandKey k)) t true false 4 va then (s, .error (.watch va))
    else if !inOrder s k [p] false then (s, .error .wait)
    else if !placesReady s t.core [p] then (askPlaces s [p], .error .wait)
    else
      match readPlace s t.core (bandOf s (bandKey k)).tenant 0 p with
      | (s, .ok w) => (s, .ok w)
      | (s, d) => (s, .error (.fault d.cause va))

def millHalf (s : State) (k : Nat) (t : Team) (va : DWord) : State × Except MStop Nat :=
  match millWord s k t (va &&& ~~~3) with
  | (s, .ok w) => (s, .ok (bits w.toNat (8 * (va.toNat % 4)) 16))
  | (s, .error e) => (s, .error e)

/-- The next set bit of a BM64 stream from the word at `off` on, above `prev`; none past bitmap word 2^26 − 1 (R226). -/
def millBit (s : State) (k : Nat) (t : Team) (base : DWord) : Nat → Nat → Option Nat → State × Except MStop (Option (Nat × Nat × Nat))
  | 0, _, _ => (s, .ok none)
  | n + 1, off, prev =>
    let j := off / 8
    if j ≥ 2 ^ 26 then (s, .ok none)
    else match millWord s k t (base + BitVec.ofNat 64 off) with
    | (s, .error e) => (s, .error e)
    | (s, .ok lo) =>
      match millWord s k t (base + BitVec.ofNat 64 (off + 4)) with
      | (s, .error e) => (s, .error e)
      | (s, .ok hi) =>
        let w := lo.toNat + hi.toNat * 2 ^ 32
        match (List.range 64).find? fun b => w.testBit b && prev.all fun p => decide (64 * j + b > p) with
        | some b => (s, .ok (some (64 * j + b, off, off)))
        | none => millBit s k t base n (off + 8) prev

/-- Reads the element at a position: its coordinate, its byte offset and where the next is sought (R225, R226). -/
def millElem (s : State) (k : Nat) (t : Team) (enc : Nat) (base : DWord) (pos : Nat) (prev : Option Nat) (off : Nat) :
    State × Except MStop (Option (Nat × Nat × Nat)) :=
  match enc with
  | 0 =>
    match millWord s k t (base + BitVec.ofNat 64 (4 * pos)) with
    | (s, .ok w) => (s, .ok (some (w.toNat, 4 * pos, 4 * pos + 4)))
    | (s, .error e) => (s, .error e)
  | 1 =>
    match millHalf s k t (base + BitVec.ofNat 64 off) with
    | (s, .error e) => (s, .error e)
    | (s, .ok h) =>
      if h ≠ 0xFFFF then (s, .ok (some (((if pos = 0 then 0 else prev.getD 0) + h) % 2 ^ 32, off, off + 2)))
      else match millHalf s k t (base + BitVec.ofNat 64 (off + 2)) with
      | (s, .error e) => (s, .error e)
      | (s, .ok lo) =>
        match millHalf s k t (base + BitVec.ofNat 64 (off + 4)) with
        | (s, .error e) => (s, .error e)
        | (s, .ok hi) => (s, .ok (some (lo + hi * 65536, off, off + 6)))
  | 2 => millBit s k t base (2 ^ 26) off prev
  | _ => (s, .ok (some (bits base.toNat 0 32 + pos, 0, 0)))

def Mill.enc (m : Mill) (second : Bool) : Nat := bits m.ctl.toNat (if second then 4 else 2) 2
def Mill.base (m : Mill) (second : Bool) : DWord := if second then m.bbase else m.abase
def Mill.len (m : Mill) (second : Bool) : Nat := (if second then m.blen else m.alen).toNat
def Mill.side (m : Mill) (second : Bool) : Side := if second then m.b else m.a
def Mill.setSide (m : Mill) (second : Bool) (x : Side) : Mill := if second then { m with b := x } else { m with a := x }

/-- What stands at a place of a side. -/
inductive Peek where
  | elem (c : Nat)
  | ended
  | unsorted (off : Nat)
  | stop (e : MStop)

def Peek.isEnded : Peek → Bool
  | .ended => true
  | _ => false

/-- The coordinate before a side's place. -/
def Side.before (x : Side) (i : Nat) : Option Nat :=
  if i = 0 then x.prev else (x.buf[i - 1]?).map fun e => e.1

/-- An element as a place of a side gives it: out of order, at or above the part's upper boundary, or inside. -/
def Side.judge (x : Side) (m : Mill) (i : Nat) (e : Nat × Nat × Nat) : Peek :=
  if (x.before i).any fun p => decide (e.1 ≤ p) then .unsorted e.2.1 else if e.1 < m.hi then .elem e.1 else .ended

/-- The element `i` places after a side's cursor; it is read once and kept (R228). -/
def peek (s : State) (k : Nat) (t : Team) (m : Mill) (second : Bool) (x : Side) (i : Nat) : State × Side × Peek :=
  match x.buf[i]? with
  | some e => (s, x, x.judge m i e)
  | none =>
    let pos := x.pos + i
    if pos ≥ m.len second then (s, x, .ended)
    else
      let keep := fun (e : Nat × Nat × Nat) => ({ x with buf := x.buf ++ [e] }, x.judge m i e)
      match x.known.lookup pos with
      | some c => (s, keep (c, 4 * pos, 4 * pos + 4))
      | none =>
        let off := match if i = 0 then none else x.buf[i - 1]? with
          | some e => e.2.2
          | none => x.off
        match millElem s k t (m.enc second) (m.base second) pos (x.before i) off with
        | (s, .error e) => (s, x, .stop e)
        | (s, .ok none) => (s, x, .ended)
        | (s, .ok (some e)) => (s, keep e)

/-- Moves a side's cursor past `i` elements. -/
def Side.advance (x : Side) (i : Nat) : Side :=
  match if i = 0 then none else x.buf[i - 1]? with
  | some e => { x with pos := x.pos + i, prev := some e.1, off := e.2.2, buf := x.buf.drop i }
  | none => x

/-- A side without the elements it has read beyond its cursor (R210, R233): `off` stays that of the cursor's element. -/
def Side.afresh (x : Side) : Side :=
  { x with off := (x.buf.head?.map fun e => e.2.1).getD x.off, buf := [], known := [] }

/-! ### The merge (R227, R233) -/

structure Merge where
  a : Side
  b : Side
  i : Nat := 0
  j : Nat := 0
  outs : List (Nat × Nat) := []

inductive MRes where
  | filled
  | done
  | unsorted (second : Bool) (off : Nat)
  | stop (e : MStop)

/-- No element is at a position (R227). -/
def noPos : Nat := 0xFFFFFFFF

/-- What one comparison does: whether each side moves on, and the output. -/
def mergeAction (op : Nat) (a b : Option Nat) (pa pb : Nat) : Option (Bool × Bool × Option (Nat × Nat)) :=
  match op, a, b with
  | _, none, none => none
  | 0, some x, some y => some (decide (x ≤ y), decide (y ≤ x), if x = y then some (pa, pb) else none)
  | 0, _, _ => none
  | 1, some x, some y =>
    some (decide (x ≤ y), decide (y ≤ x), some (if x ≤ y then pa else noPos, if y ≤ x then pb else noPos))
  | 1, some _, none => some (true, false, some (pa, noPos))
  | 1, none, some _ => some (false, true, some (noPos, pb))
  | 2, some x, some y => some (decide (x ≤ y), decide (y ≤ x), if x < y then some (pa, noPos) else none)
  | 2, some _, none => some (true, false, some (pa, noPos))
  | 2, none, _ => none
  | _, some x, some y => if x ≤ y then some (true, false, some (pa, noPos)) else some (false, true, some (noPos, pb))
  | _, some _, none => some (true, false, some (pa, noPos))
  | _, none, some _ => some (false, true, some (noPos, pb))

/-- Runs the comparator until `n` outputs are made, or none remains, or a stream is out of order or cannot be read on. Beyond such
an element, the other stream is followed up to the coordinate of its predecessor (R233); where a stream has ended and no output
can follow, the other one is not needed (R208, R227). -/
def mergeRun (s : State) (k : Nat) (t : Team) (m : Mill) (n : Nat) : Nat → Merge → State × Merge × MRes
  | 0, g => (s, g, .done)
  | fuel + 1, g =>
    if g.outs.length ≥ n then (s, g, .filled)
    else
      let op := bits m.ctl.toNat 0 2
      let (s, a, pa) := peek s k t m false g.a g.i
      let g := { g with a := a }
      if pa.isEnded && (op == 0 || op == 2) then (s, g, .done)
      else
      let (s, b, pb) := peek s k t m true g.b g.j
      let g := { g with b := b }
      if pb.isEnded && op == 0 then (s, g, .done)
      else
      let act := fun (x y : Option Nat) =>
        match mergeAction op x y (g.a.pos + g.i) (g.b.pos + g.j) with
        | none => none
        | some (u, v, o) =>
          let c := match x, y with
            | some c, some d => min c d
            | some c, none => c
            | none, some d => d
            | none, none => 0
          some ({ g with
            i := if u then g.i + 1 else g.i
            j := if v then g.j + 1 else g.j
            outs := match o with
              | some o => if c < m.lo then g.outs else g.outs ++ [o]
              | none => g.outs } : Merge)
      let go := fun (r : Option Merge) (x : MRes) => match r with
        | some g' => mergeRun s k t m n fuel g'
        | none => (s, g, x)
      -- whether no element of `x` from its place on can have a coordinate up to that of the predecessor of `y`'s
      let beyond := fun (x : Side) (i : Nat) (y : Side) (j : Nat) => (x.before i).any fun p => (y.before j).any fun q => decide (q ≤ p)
      let past := fun (x : Side) (i c : Nat) => (x.before i).any fun p => decide (c ≤ p)
      match pa, pb with
      | .elem c, .elem d => go (act (some c) (some d)) .done
      | .elem c, .ended => go (act (some c) none) .done
      | .ended, .elem d => go (act none (some d)) .done
      | .ended, .ended => (s, g, .done)
      | .elem c, .unsorted off => go (if past g.b g.j c then act (some c) none else none) (.unsorted true off)
      | .elem c, .stop e => go (if past g.b g.j c then act (some c) none else none) (.stop e)
      | .unsorted off, .elem c => go (if past g.a g.i c then act none (some c) else none) (.unsorted false off)
      | .stop e, .elem c => go (if past g.a g.i c then act none (some c) else none) (.stop e)
      | .unsorted off, .stop e => (s, g, if op % 2 == 1 && !beyond g.b g.j g.a g.i then .stop e else .unsorted false off)
      | .stop e, .unsorted off => (s, g, if op != 0 && !beyond g.a g.i g.b g.j then .stop e else .unsorted true off)
      | .stop e, _ => (s, g, .stop e)
      | _, .stop e => (s, g, .stop e)
      | .unsorted off, _ => (s, g, .unsorted false off)
      | _, .unsorted off => (s, g, .unsorted true off)

/-! ### The boundary search (R207, R230) -/

/-- The coordinate at a position of a stream that the search sees: of an IX32 or RNG stream, which it reads once and keeps (R228), or
of one that it has decoded in sequence. -/
def coordAt (s : State) (k : Nat) (t : Team) (m : Mill) (second : Bool) (pos : Nat) : State × Mill × Except MStop Nat :=
  let x := m.side second
  match m.enc second with
  | 0 =>
    match x.known.lookup pos with
    | some c => (s, m, .ok c)
    | none =>
      match millElem s k t 0 (m.base second) pos none 0 with
      | (s, .ok e) =>
        let c := (e.getD (2 ^ 32, 0, 0)).1
        (s, m.setSide second { x with known := (pos, c) :: x.known }, .ok c)
      | (s, .error e) => (s, m, .error e)
  | 3 => (s, m, .ok (bits (m.base second).toNat 0 32 + pos))
  | _ => (s, m, .ok ((x.buf.getD pos (2 ^ 32, 0, 0)).1))

/-- Decodes an IX16D or BM64 stream from its base up to its first element at or above `limit` (R230). -/
def decodeUpTo (s : State) (k : Nat) (t : Team) (second : Bool) (limit : Nat) : Nat → Mill → State × Mill × Except MStop Unit
  | 0, m => (s, m, .ok ())
  | n + 1, m =>
    let x := m.side second
    let last := x.buf.getLast?
    if (last.any fun e => decide (e.1 ≥ limit)) || decide (x.buf.length ≥ m.len second) then (s, m, .ok ())
    else
      match millElem s k t (m.enc second) (m.base second) x.buf.length (last.map fun e => e.1) ((last.map fun e => e.2.2).getD 0) with
      | (s, .error e) => (s, m, .error e)
      | (s, .ok none) => (s, m, .ok ())
      | (s, .ok (some e)) => decodeUpTo s k t second limit n (m.setSide second { x with buf := x.buf ++ [e] })

/-- How many elements of a stream the search sees. -/
def searchStream (s : State) (k : Nat) (t : Team) (m : Mill) (second : Bool) (limit : Nat) : State × Mill × Except MStop Nat :=
  if m.enc second = 0 ∨ m.enc second = 3 then (s, m, .ok (m.len second))
  else match decodeUpTo s k t second limit (m.len second) m with
    | (s, m, .ok _) => (s, m, .ok (m.side second).buf.length)
    | (s, m, .error e) => (s, m, .error e)

/-- The first position in `[lo, hi]` whose coordinate is at least `c`. -/
def lowerBound (s : State) (k : Nat) (t : Team) (second : Bool) (c : Nat) : Nat → Mill → Nat → Nat → State × Mill × Except MStop Nat
  | 0, m, lo, _ => (s, m, .ok lo)
  | n + 1, m, lo, hi =>
    if lo ≥ hi || c = 0 then (s, m, .ok lo)
    else
      let mid := (lo + hi) / 2
      match coordAt s k t m second mid with
      | (s, m, .error e) => (s, m, .error e)
      | (s, m, .ok v) => if v < c then lowerBound s k t second c n m (mid + 1) hi else lowerBound s k t second c n m lo mid

/-- The first positions of both streams whose coordinates are at least `c`. -/
def lowerBounds (s : State) (k : Nat) (t : Team) (m : Mill) (c : Nat) (la na lb nb : Nat) : State × Mill × Except MStop (Nat × Nat) :=
  match lowerBound s k t false c 34 m la na with
  | (s, m, .error e) => (s, m, .error e)
  | (s, m, .ok a) =>
    match lowerBound s k t true c 34 m lb nb with
    | (s, m, .error e) => (s, m, .error e)
    | (s, m, .ok b) => (s, m, .ok (a, b))

/-- How many elements of A lie among the first `r` of both streams, from position `la` of A and `lb` of B. -/
def mergePath (s : State) (k : Nat) (t : Team) (la lb r : Nat) : Nat → Mill → Nat → Nat → State × Mill × Except MStop Nat
  | 0, m, lo, _ => (s, m, .ok lo)
  | n + 1, m, lo, hi =>
    if lo ≥ hi then (s, m, .ok lo)
    else
      let mid := (lo + hi) / 2
      match coordAt s k t m false (la + mid) with
      | (s, m, .error e) => (s, m, .error e)
      | (s, m, .ok u) =>
        match coordAt s k t m true (lb + r - mid - 1) with
        | (s, m, .error e) => (s, m, .error e)
        | (s, m, .ok v) => if u < v then mergePath s k t la lb r n m (mid + 1) hi else mergePath s k t la lb r n m lo mid

/-- A coordinate where a position is below an end; above every coordinate at the end. -/
def coordBelow (s : State) (k : Nat) (t : Team) (m : Mill) (second : Bool) (pos hi : Nat) : State × Mill × Except MStop Nat :=
  if pos < hi then coordAt s k t m second pos else (s, m, .ok (2 ^ 32))

/-- The boundary K(p), with each stream's first position at or above it (R207). The elements in [CBASE, CLIM) stand at `la` to `ha` of A
and at `lb` to `hb` of B. Two equal coordinates stand side by side, A's first, so only B can have one before the place found. -/
def boundary (s : State) (k : Nat) (t : Team) (m : Mill) (cbase clim count p la ha lb hb : Nat) :
    State × Mill × Except MStop (Nat × Nat × Nat) :=
  let n := (ha - la) + (hb - lb)
  if p = 0 then (s, m, .ok (cbase, la, lb))
  else if p = count || n = 0 then (s, m, .ok (clim, ha, hb))
  else
    let r := p * n / count
    match mergePath s k t la lb r 64 m (r - (hb - lb)) (min r (ha - la)) with
    | (s, m, .error e) => (s, m, .error e)
    | (s, m, .ok i) =>
      let ib := lb + (r - i)
      match coordBelow s k t m false (la + i) ha with
      | (s, m, .error e) => (s, m, .error e)
      | (s, m, .ok u) =>
        match coordBelow s k t m true ib hb with
        | (s, m, .error e) => (s, m, .error e)
        | (s, m, .ok v) =>
          let c := max cbase (min clim (min u v))
          if ib = lb then (s, m, .ok (c, la + i, ib))
          else match coordAt s k t m true (ib - 1) with
          | (s, m, .error e) => (s, m, .error e)
          | (s, m, .ok w) => (s, m, .ok (c, la + i, if w ≥ c then ib - 1 else ib))

/-- A side whose cursor stands at a position. -/
def Side.at (x : Side) (pos : Nat) : Side :=
  if x.buf.isEmpty then { x with pos := pos, prev := if pos = 0 then none else x.known.lookup (pos - 1) } else x.advance pos

/-- The element before the place of a cursor is read, where the search has not: whether the cursor's is in order is judged by it (R230,
R233). -/
def readBefore (s : State) (k : Nat) (t : Team) (m : Mill) (second : Bool) (pos : Nat) : State × Mill × Option MStop :=
  if pos = 0 || m.enc second != 0 then (s, m, none)
  else match coordAt s k t m second (pos - 1) with
    | (s, m, .error e) => (s, m, some e)
    | (s, m, .ok _) => (s, m, none)

/-- Establishes a context's interval and cursors. `m.lo` and `m.hi` hold CBASE and CLIM before it. Where it stops, the context keeps the
elements it has read. -/
def search (s : State) (k : Nat) (t : Team) (m : Mill) : State × Mill × Option MStop :=
  let part := bits m.ctl.toNat 16 16
  let count := bits m.ctl.toNat 32 16
  let cbase := m.lo
  let clim := m.hi
  let place := fun (s : State) (m : Mill) (lo hi ia ib : Nat) =>
    match readBefore s k t m false ia with
    | (s, m, some e) => (s, m, some e)
    | (s, m, none) =>
      match readBefore s k t m true ib with
      | (s, m, some e) => (s, m, some e)
      | (s, m, none) => (s, { m with lo := lo, hi := max lo hi, a := m.a.at ia, b := m.b.at ib, searching := false }, none)
  if !m.searching || (count = 1 && cbase = 0) then (s, { m with searching := false }, none)
  else
    let limit := if count = 1 then cbase else clim
    match searchStream s k t m false limit with
    | (s, m, .error e) => (s, m, some e)
    | (s, m, .ok na) =>
    match searchStream s k t m true limit with
    | (s, m, .error e) => (s, m, some e)
    | (s, m, .ok nb) =>
    match lowerBounds s k t m cbase 0 na 0 nb with
    | (s, m, .error e) => (s, m, some e)
    | (s, m, .ok (la, lb)) =>
    if count = 1 then place s m cbase clim la lb
    else
    match lowerBounds s k t m clim la na lb nb with
    | (s, m, .error e) => (s, m, some e)
    | (s, m, .ok (ha, hb)) =>
    match boundary s k t m cbase clim count part la ha lb hb with
    | (s, m, .error e) => (s, m, some e)
    | (s, m, .ok (lo, ia, ib)) =>
    match boundary s k t m cbase clim count (part + 1) la ha lb hb with
    | (s, m, .error e) => (s, m, some e)
    | (s, m, .ok (hi, _, _)) => place s m lo hi ia ib

/-! ### The instructions -/

/-- MST of a fresh context: OPEN and OP (R209). -/
def millMst (ctl : DWord) : DWord := BitVec.ofNat 64 (2 + bits ctl.toNat 0 2 * 4)

/-- Contexts held on a core by other teams than `k`; a saved band holds none (R206, R231). -/
def millsHeld (s : State) (core k : Nat) : Nat :=
  (s.teams.filter fun e => e.2.core == core && e.1 != k && e.2.mill.isSome && (bandOf s (bandKey e.1)).run != .saved).length

/-- Closes the team's context; with no context free on its core the team waits, else it opens `m` and goes on (R206, R231, R235). -/
def openMill (s : State) (k : Nat) (t : Team) (m : Mill) : State :=
  if millsHeld s t.core k ≥ 16 then waitHere (setTeam s k { teamOf s k with mill := none }) else finish s k { t with mill := some m }

/-- An instruction that stops at a stream: the context keeps what it has read (R208, R228). -/
def millStop (s : State) (k : Nat) (m : Mill) (e : MStop) : State :=
  let t := { teamOf s k with mill := some m }
  let s := setTeam s k t
  match e with
  | .fault c a => refuse1 s k c a
  | .watch a => debugEvent s k t 5 [record 0 cBREAK a] t.pc
  | .wait => waitHere s

/-- `mlopen` (R206, R225). -/
def execMlopen (x : BitVec 5) (s : State) : Out :=
  withTeam s fun k t =>
    if x.toNat > 26 then illop s k t
    else gated s k t { srcS := (span x.toNat 6).map fun r => (r, false) } fun t =>
      let w := fun i => t.rs (x.toNat + i)
      let ctl := (w 0).toNat
      let part := bits ctl 16 16
      let count := bits ctl 32 16
      let cbase := bits (w 5).toNat 0 32
      let clim := bits (w 5).toNat 32 32
      let mis := fun enc (b : DWord) => (enc == 0 && b.toNat % 4 != 0) || (enc == 1 && b.toNat % 2 != 0) || (enc == 2 && b.toNat % 8 != 0)
      let rng := fun enc (b n : DWord) => enc == 3 && (bits b.toNat 32 32 != 0 || decide (bits b.toNat 0 32 + bits n.toNat 0 32 > 2 ^ 32))
      if bits ctl 6 10 ≠ 0 ∨ bits ctl 48 16 ≠ 0 ∨ bits (w 2).toNat 32 32 ≠ 0 ∨ bits (w 4).toNat 32 32 ≠ 0 then illop s k t
      else if count = 0 ∨ part ≥ count ∨ clim < cbase then refuse1 s k cBOUNDS (w 0)
      else if rng (bits ctl 2 2) (w 1) (w 2) || rng (bits ctl 4 2) (w 3) (w 4) then refuse1 s k cBOUNDS (w 0)
      else if mis (bits ctl 2 2) (w 1) then refuse1 s k cMALIGN (w 1)
      else if mis (bits ctl 4 2) (w 3) then refuse1 s k cMALIGN (w 3)
      else if t.millBusy then waitHere s
      else openMill s k t { ctl := w 0, abase := w 1, alen := w 2, bbase := w 3, blen := w 4, lo := cbase, hi := clim, mst := millMst (w 0),
                            searching := true }

/-- What `mlfill` delivers to the lanes `ls` (R208, R227, R233): the context with the cursors moved on, and the outputs. Where it
completes, its look-ahead says whether an output remains; a fault that it meets there is the `mlfill`'s (R228). -/
inductive Filled where
  | done (m : Mill) (outs : List (Nat × Nat))
  | unsorted (m : Mill) (addr : DWord)
  | stop (m : Mill) (e : MStop)

def millFill (s : State) (k : Nat) (t : Team) (m : Mill) (n : Nat) : State × Filled :=
  let fuel := m.len false + m.len true + 2
  let kept := fun (g : Merge) => { m with a := g.a, b := g.b }
  let whole := fun (g : Merge) (more : Bool) => Filled.done { m with
      a := g.a.advance g.i
      b := g.b.advance g.j
      out := (m.out + g.outs.length) % 2 ^ 32
      mst := BitVec.ofNat 64 ((millMst m.ctl).toNat + (if more then 0 else 1) + g.outs.length * 65536) } g.outs
  match mergeRun s k t m n fuel { a := m.a, b := m.b } with
  | (s, g, .done) => (s, whole g false)
  | (s, g, .stop e) => (s, .stop (kept g) e)
  | (s, g, .unsorted second off) =>
    if !g.outs.isEmpty then (s, whole g true)
    else
      let x := ((if second then g.b.advance g.j else g.a.advance g.i) : Side).afresh
      (s, .unsorted ((kept g).setSide second x) (m.base second + BitVec.ofNat 64 off))
  | (s, g, .filled) =>
    match mergeRun s k t m (n + 1) fuel g with
    | (s, g', .stop e) => (s, .stop (kept g') e)
    | (s, g', .done) => (s, whole { g with a := g'.a, b := g'.b } false)
    | (s, g', _) => (s, whole { g with a := g'.a, b := g'.b } true)

/-- `mlfill` (R208, R227, R228, R233): the reads are made at its issue; with no pair it writes only its predicate, and its registers stay
as they are (R47). -/
def execMlfill (x y : BitVec 6) (p : BitVec 3) (s : State) : Out :=
  withTeam s fun k t0 =>
    let ds := [x.toNat, y.toNat]
    if !(t0.okV false x.toNat && t0.okV false y.toNat) then illop s k t0
    else if t0.millBusy || t0.acquiring then waitHere s
    else gated s k t0 { preds := [t0.guardReg], dstP := [p.toNat], lanes := t0.present } fun t =>
      if t.present != 0 && ds.any fun r => t.vIsEmpty r && (t.vFault.lookup r).isNone then waitHere s
      else match t.mill with
      | none => refuse1 s k cBOUNDS 0
      | some m =>
        match search s k t m with
        | (s, m, some e) => millStop s k m e
        | (s, m, none) =>
          let ls := laneList t t.present
          match millFill s k t m ls.length with
          | (s, .stop m e) => millStop s k m e
          | (s, .unsorted m a) => millStop s k m (.fault cUNSORT a)
          | (s, .done m outs) =>
            let got := ls.take outs.length
            let yes := laneMask fun L => got.contains L
            gated s k t { dstV := ds, lanes := yes } fun t =>
              let t := (t.wp p.toNat ((t.rp p.toNat &&& ~~~t.present) ||| yes)).closeRegion
              if got.isEmpty then finish s k { t with mill := some m }
              else
                let words := (got.zip outs).flatMap fun l => [(1024 * x.toNat + l.1, BitVec.ofNat 32 l.2.1),
                  (1024 * y.toNat + l.1, BitVec.ofNat 32 l.2.2)]
                finish { s with millJobs := s.millJobs ++ [{ team := k, lanes := words, vregs := ds, mill := m }] } k
                  { t.emptyV ds with millBusy := true }

/-- `MLFILL_COMPLETE` (R208). -/
def execMlfillComplete (team : Nat) (s : State) : Out :=
  match s.millJobs.find? fun j => j.team == team, s.teams.lookup team with
  | some j, some t =>
    .next (setTeam { s with millJobs := s.millJobs.erase j } team
      { (t.complete { lanes := j.lanes, vregs := j.vregs }) with mill := some j.mill, millBusy := false })
  | _, _ => .next s

/-- `mlstat` (R209): MCA and MCB are the cursors that the boundary search finds, whose faults are for an `mlfill` (R207, R228). -/
def execMlstat (x : BitVec 5) (f : BitVec 8) (s : State) : Out :=
  withTeam s fun k t =>
    if f.toNat > 3 then illop s k t
    else if t.millBusy then waitHere s
    else gated s k t { dstS := [x.toNat] } fun t =>
      match t.mill with
      | none => finish s k (t.ws x.toNat 0)
      | some m =>
        let go := fun (s : State) (m : Mill) => finish s k ({ t with mill := some m }.ws x.toNat (match f.toNat with
          | 0 => BitVec.ofNat 64 m.a.pos
          | 1 => BitVec.ofNat 64 m.b.pos
          | 2 => BitVec.ofNat 64 m.out
          | _ => m.mst))
        if f.toNat ≥ 2 then go s m
        else if t.acquiring then waitHere s
        else match search s k t m with
        | (s, m, some .wait) => millStop s k m .wait
        | (s, m, _) => go s m

/-- `mlclose` (R209). -/
def execMlclose (s : State) : Out :=
  withTeam s fun k t => if t.millBusy then waitHere s else finish s k { t with mill := none }

/-- The resume word of a side (R232): the offset of the cursor's element where it has been read, else of where it is sought. -/
def Side.rest (x : Side) (enc : Nat) : DWord :=
  if enc = 1 ∨ enc = 2 then
    BitVec.ofNat 64 ((match x.buf.head? with
      | some e => e.2.1
      | none => x.off) + (match x.prev with
      | some p => p
      | none => 0xFFFFFFFF) * 2 ^ 32)
  else 0

/-- The image of a context (R234). -/
def millImage (m : Option Mill) : List Word :=
  match m with
  | none => List.replicate 32 0
  | some m => dwords m.ctl ++ dwords m.abase ++ dwords m.alen ++ dwords m.bbase ++ dwords m.blen ++
      dwords (BitVec.ofNat 64 (m.lo + m.hi * 2 ^ 32)) ++ dwords (BitVec.ofNat 64 m.a.pos) ++ dwords (BitVec.ofNat 64 m.b.pos) ++
      dwords (BitVec.ofNat 64 m.out) ++ dwords m.mst ++ dwords (m.a.rest (m.enc false)) ++ dwords (m.b.rest (m.enc true)) ++
      List.replicate 8 0

/-- A context as its image shows it (R210, R232, R234): the boundary search made, and the element at a BM64 cursor read, whose word the
resume word names. What cannot be read leaves the context as it stands. -/
def millSettled (s : State) (k : Nat) (t : Team) (m : Mill) : State × Mill × Option MStop :=
  let head := fun (s : State) (m : Mill) (second : Bool) =>
    if m.enc second = 2 then
      match peek s k t m second (m.side second) 0 with
      | (s, x, .stop e) => (s, m.setSide second x, some e)
      | (s, x, _) => (s, m.setSide second x, none)
    else (s, m, none)
  match search s k t m with
  | (s, m, some e) => (s, m, some e)
  | (s, m, none) =>
    match head s m false with
    | (s, m, some e) => (s, m, some e)
    | (s, m, none) => head s m true

/-- Runs a body on the team with its context settled; what the settling waits for the instruction waits for. -/
def withSettled (s : State) (k : Nat) (t : Team) (body : State → Team → State) : State :=
  match t.mill with
  | none => body s t
  | some m =>
    if t.acquiring then waitHere s
    else match millSettled s k t m with
    | (s, m, some .wait) => millStop s k m .wait
    | (s, m, _) => body (setTeam s k { teamOf s k with mill := some m }) { t with mill := some m }

/-- `mlsave` (R234). -/
def execMlsave (x : BitVec 5) (s : State) : Out :=
  withTeam s fun k t => gated s k t { srcS := [(x.toNat, false)] } fun t =>
    if t.millBusy then waitHere s
    else withSettled s k t fun s t => imageAccess s k t 16 128 (t.rs x.toNat) .write fun s ps =>
      finish (writePlaces s k t ps (millImage t.mill)) k t

/-- The context that an image describes (R235): none where the image is not valid. -/
def millOf (ws : List Word) : Option Mill :=
  let q := fun i => dwordAt ws (2 * i)
  let ctl := (q 0).toNat
  let lo := bits (q 5).toNat 0 32
  let hi := bits (q 5).toNat 32 32
  let big := fun i => bits (q i).toNat 32 32 != 0
  if bits ctl 6 10 ≠ 0 ∨ bits ctl 48 16 ≠ 0 ∨ big 2 ∨ big 4 ∨ big 6 ∨ big 7 ∨ big 8 ∨ bits (q 9).toNat 4 12 ≠ 0 ∨
      bits (q 9).toNat 27 37 ≠ 0 ∨ bits ctl 32 16 = 0 ∨ bits ctl 16 16 ≥ bits ctl 32 16 ∨ lo > hi ∨
      (q 6).toNat > (q 2).toNat ∨ (q 7).toNat > (q 4).toNat then none
  else
    let side := fun enc (pos : Nat) (r : DWord) => if enc = 1 ∨ enc = 2 then
        ({ pos := pos, off := bits r.toNat 0 32,
           prev := if bits r.toNat 32 32 = 0xFFFFFFFF then none else some (bits r.toNat 32 32) } : Side)
      else { pos := pos }
    some { ctl := q 0, abase := q 1, alen := q 2, bbase := q 3, blen := q 4, lo := lo, hi := hi,
           a := side (bits ctl 2 2) (q 6).toNat (q 10), b := side (bits ctl 4 2) (q 7).toNat (q 11), out := (q 8).toNat, mst := q 9 }

/-- The words of an image that the team reads by plain loads, where all are good; a fault of a word is delivered at the
instruction. -/
def readWordsThen (s : State) (k : Nat) (t : Team) (align n : Nat) (va : DWord) (f : State → List Word → State) : State :=
  imageAccess s k t align n va .read fun s ps => imageWords s k t ps fun s ds =>
    match ds.zipIdx.find? fun d => d.1.cause ≠ 0 with
    | some d => refuse1 s k d.1.cause (va + BitVec.ofNat 64 (4 * d.2))
    | none => f s (ds.map fun d => match d with
        | .ok w => w
        | _ => 0)

/-- `mlrest` (R235). -/
def execMlrest (x : BitVec 5) (s : State) : Out :=
  withTeam s fun k t => gated s k t { srcS := [(x.toNat, false)] } fun t =>
    if t.millBusy then waitHere s
    else
      let va := t.rs x.toNat
      readWordsThen s k t 16 128 va fun s ws =>
        if !bit (dwordAt ws 18).toNat 1 then finish s k { t with mill := none }
        else match millOf ws with
        | none => refuse1 s k cBOUNDS va
        | some m => openMill s k t m

/-- The lane that job `e` falls in, and its index there (R211). -/
def dealJob : List Nat → Nat → Nat → Option (Nat × Nat)
  | [], _, _ => none
  | n :: r, lane, e => if e < n then some (lane, e) else dealJob r (lane + 1) (e - n)

/-- `rbal` (R211). -/
def execRbal (x y : BitVec 6) (c : BitVec 5) (s : State) : Out :=
  withTeam s fun k t =>
    if !(t.okV true x.toNat && t.okV false y.toNat) then illop s k t
    else gated s k t { srcV := [(y.toNat, false)], srcS := [(c.toNat, false)], preds := [t.guardReg], dstV := pair true x.toNat,
                       lanes := t.present } fun t =>
      let lens := (List.range t.lanes).map fun L => if bit t.mask.toNat L then (t.rv y.toNat L).toNat else 0
      finish s k (t.writeLanes true x.toNat ((laneList t t.present).map fun L =>
        match dealJob lens 0 ((t.rs c.toNat).toNat + L) with
        | some (r, i) => (L, r + i * 2 ^ 32)
        | none => (L, noPos)))

/-- The multiplier that splits by an extent: ⌈2^64/E⌉, or 0 for an extent of 1 (R222). -/
def shapeMul (e : Nat) : DWord := if e ≤ 1 then 0 else BitVec.ofNat 64 ((2 ^ 64 + e - 1) / e)

/-- `shpld` (R222): the entry is read at issue, and the seven registers fill together. -/
def execShpld (x y : BitVec 5) (s : State) : Out :=
  withTeam s fun k t =>
    if x.toNat > 25 then illop s k t
    else gated s k t { srcS := [(y.toNat, false)], dstS := span x.toNat 7 } fun t =>
      let va := t.rs y.toNat
      imageAccess s k t 8 32 va .read fun s ps => imageWords s k t ps fun s ds =>
        let regs := span x.toNat 7
        match ds.zipIdx.find? fun d => d.1.cause ≠ 0 with
        | some d =>
          let f : DataFault := { cause := d.1.cause, regs := regs, recs := [record 0 d.1.cause (va + BitVec.ofNat 64 (4 * d.2))] }
          finish s k { t.emptyS regs with sFault := putMany {} (fun _ => f) (regs.filter fun r => r != 0) t.sFault }
        | none =>
          let w := fun i => match ds.getD i (.ok 0) with
            | .ok w => w.toNat
            | _ => 0
          let n := bits (w 0) 0 8
          let e := fun i => if i + 1 < n then w (2 + i) else 0
          if n = 0 ∨ n > 5 ∨ bits (w 0) 8 24 ≠ 0 ∨ w 1 ≠ 0 ∨ w 6 ≠ 0 ∨ w 7 ≠ 0 ∨ (List.range (n - 1)).any fun i => w (2 + i) == 0 then
            refuse1 s k cBOUNDS va
          else startProducer s k t { team := k, core := t.core, sregs :=
            [(x.toNat, BitVec.ofNat 64 n)] ++ ((List.range 4).map fun i => (x.toNat + 1 + i, shapeMul (e i))) ++
            [(x.toNat + 5, BitVec.ofNat 64 (e 0 + e 1 * 2 ^ 32)), (x.toNat + 6, BitVec.ofNat 64 (e 2 + e 3 * 2 ^ 32))] }

end Sys2Proof.Machine
end

