-- ==== Sys2Proof/Machine/Placement.lean ====
section
/-! DEFINITION. Placing work: what a core holds and what fits on it (R296), where a band goes (R286, R288, R289, R297), the
state a band begins with (R50, R176, R293, R401), and the operating points that its launch asks for (R308). -/

namespace Sys2Proof.Machine

/-! ### What a core holds -/

/-- The amounts of a core that crews take (R296): team slots and row-registers of the four quarters, and the crew's own. -/
structure Load where
  slots : List Nat := [0, 0, 0, 0]
  rows : List Nat := [0, 0, 0, 0]
  pad : Nat := 0
  tiles : Nat := 0
  accs : Nat := 0
  bars : Nat := 0
  crews : Nat := 0
  deriving DecidableEq, Repr

/-- A band whose crews take room: a saved band does not (R196). -/
def Band.resident (b : Band) : Bool := b.run != .saved

def bump (xs : List Nat) (i n : Nat) : List Nat := xs.zipIdx.map fun x => if x.2 == i then x.1 + n else x.1

/-- What the resident crews of a core take. -/
def coreLoad (s : State) (core : Nat) : Load :=
  let crews := s.crews.filter fun e => e.2.core == core && (bandOf s (e.1 / 16)).resident
  let l : Load := crews.foldl (fun (l : Load) e => { l with pad := l.pad + e.2.padBytes, tiles := l.tiles + e.2.tiles,
                                                            accs := l.accs + e.2.accs, bars := l.bars + e.2.bars, crews := l.crews + 1 }) {}
  (s.teams.filter fun e => crews.any fun c => c.1 == crewKey e.1).foldl (fun (l : Load) e =>
    { l with slots := bump l.slots e.2.quarter 1, rows := bump l.rows e.2.quarter (e.2.rows * e.2.vregs) }) l

/-- The quarter that a team goes to (R296): of those with a free slot and room, the one with the most free row-registers. -/
def pickQuarter (l : Load) (need : Nat) : Option Nat :=
  (List.range 4).foldl (fun (a : Option Nat) q =>
    if l.slots.getD q 0 < 16 ∧ l.rows.getD q 0 + need ≤ 1024 then
      match a with
      | none => some q
      | some p => if l.rows.getD q 0 < l.rows.getD p 0 then some q else some p
    else a) none

/-- Places the teams of a crew in ascending index (R296). -/
def fitTeams (need : Nat) : Nat → Load → Option (Load × List Nat)
  | 0, l => some (l, [])
  | n + 1, l => match pickQuarter l need with
    | none => none
    | some q =>
      (fitTeams need n { l with slots := bump l.slots q 1, rows := bump l.rows q need }).map fun r => (r.1, q :: r.2)

/-- A crew on a core (R296): the core's load with it, and its teams' quarters. -/
def fitCrew (kd : Kernel) (l : Load) : Option (Load × List Nat) :=
  if l.pad + kd.pad ≤ 262144 ∧ l.tiles + kd.tiles ≤ 32 ∧ l.accs + kd.accs ≤ 8 ∧ l.bars + kd.bars ≤ 64 then
    fitTeams (kd.rows * kd.vregs) kd.teams { l with pad := l.pad + kd.pad, tiles := l.tiles + kd.tiles, accs := l.accs + kd.accs,
                                                    bars := l.bars + kd.bars, crews := l.crews + 1 }
  else none

/-! ### The tenant's partition -/

/-- A word of the harvest map; where none has been set, every core of the die is usable (R286). -/
def hmapWord (s : State) (i : Nat) : DWord :=
  if i ≥ 24 then 0
  else look (if i % 3 == 2 then BitVec.ofNat 64 (2 ^ 16 - 1) else BitVec.allOnes 64) s.hmap i

def usable (s : State) (core : Nat) : Bool := bit (hmapWord s (3 * (core / 144) + core % 144 / 64)).toNat (core % 144 % 64)

/-- The usable cores of a physical quad (R286). -/
def quadCores (s : State) (q : Nat × Nat) : List Nat := (span (144 * q.1 + 4 * q.2) 4).filter (usable s)

/-- A tenant's physical dies in ascending order: its logical dies (R288). -/
def tenantDies (s : State) (tenant : Nat) : List Nat :=
  (List.range 8).filter fun d => (tenantOf s tenant).quads.any fun q => q.1 == d

/-- A tenant's quads on a die, in logical order. -/
def dieQuads (s : State) (tenant die : Nat) : List (Nat × Nat) := (tenantOf s tenant).quads.filter fun q => q.1 == die

/-! ### Where a band goes -/

/-- Crews placed so far: the loads, the quads taken, and each crew's core with its teams' quarters. -/
structure Layout where
  loads : NMap Load := []
  taken : List (Nat × Nat) := []
  crews : List (Nat × List Nat) := []

/-- The first of some cores that a crew fits on. -/
def firstFit (kd : Kernel) (loads : Nat → Load) (cores : List Nat) : Option (Nat × Load × List Nat) :=
  cores.findSome? fun c => (fitCrew kd (loads c)).map fun r => (c, r.1, r.2)

/-- Places one crew (R297). -/
def placeCrew (s : State) (kd : Kernel) (base : Nat → Load) (free : List (Nat × Nat)) (y : Layout) : Option Layout :=
  let loads := fun c => look (base c) y.loads c
  let put := fun (taken : List (Nat × Nat)) (r : Nat × Load × List Nat) =>
    ({ loads := setAt y.loads r.1 r.2.1, taken := taken, crews := y.crews ++ [(r.1, r.2.2)] } : Layout)
  match firstFit kd loads (y.taken.flatMap (quadCores s)) with
  | some r => some (put y.taken r)
  | none =>
    (free.filter fun q => !y.taken.contains q).findSome? fun q =>
      (firstFit kd loads (quadCores s q)).map (put (y.taken ++ [q]))

def placeCrews (s : State) (kd : Kernel) (base : Nat → Load) (free : List (Nat × Nat)) : Nat → Layout → Option Layout
  | 0, y => some y
  | n + 1, y => (placeCrew s kd base free y).bind (placeCrews s kd base free n)

/-- Places a band on a die over given loads (R289, R297): `quad` is the logical quad that a QUAD field names. -/
def placeOnDie (s : State) (tenant die : Nat) (kd : Kernel) (quad : Option Nat) (base : Nat → Load) : Option Layout :=
  let quads := dieQuads s tenant die
  match quad with
  | some q =>
    match quads[q]? with
    | some x => placeCrews s kd base [] kd.crews { taken := [x] }
    | none => none
  | none => placeCrews s kd base (quads.filter fun q => (quadCores s q).all fun c => (base c).crews == 0) kd.crews {}

/-- The dies that a packet allows, in ascending logical order (R260, R297). -/
def allowedDies (s : State) (tenant : Nat) (ws : List DWord) : List Nat :=
  let m := bits (pw ws 3) 0 8
  ((tenantDies s tenant).zipIdx.filter fun d => m == 0 || bit m d.2).map fun d => d.1

/-- The quad that a packet names (R260). -/
def quadOf (ws : List DWord) : Option Nat := if bits (pw ws 3) 8 8 == 255 then none else some (bits (pw ws 3) 8 8)

/-- The die and the layout of a launch's next band of a kernel (R297); `ready` asks for READY.DIE too. -/
def placeBand (s : State) (l : Launch) (kd : Kernel) (ready : Bool) (base : Nat → Load) : Option (Nat × Layout) :=
  ((allowedDies s l.tenant l.packet).filter fun d => !ready || bit s.ready.toNat d).findSome? fun d =>
    (placeOnDie s l.tenant d kd (quadOf l.packet) base).map fun y => (d, y)

/-- Some die holds the band with the partition taken empty (R289, R297). -/
def placeable (s : State) (l : Launch) (kd : Kernel) : Bool := (placeBand s l kd false fun _ => {}).isSome

/-- All the bands of a gang, by their kernels, fit together with the partition taken empty (R301). -/
def gangFits (s : State) (l : Launch) : List Kernel → NMap Load → Bool
  | [], _ => true
  | kd :: r, loads => match placeBand s l kd false fun c => look {} loads c with
    | none => false
    | some (_, y) => gangFits s l r (y.loads.foldl (fun m e => setAt m e.1 e.2) loads)

/-! ### Operating points -/

def dieOf (s : State) (d : Nat) : Die := look {} s.dies d
def setDie (s : State) (d : Nat) (x : Die) : State := { s with dies := setAt s.dies d x }

def Launch.hint (l : Launch) : Nat := bits (pw l.packet 0) 13 3

/-- The heads of a die's queues. -/
def headOf (s : State) (die q : Nat) : Option (Nat × Launch) := (queued s die (q % 4) (q / 4)).head?

/-- The fastest point hinted on a die (R308). -/
def hinted (s : State) (die : Nat) : Option Nat :=
  let res := (s.bands.filter fun e => e.2.die == die && e.2.resident).map fun e => (launchOf s e.2.launch).hint
  let heads := (List.range 64).filterMap fun q => (headOf s die q).map fun l => l.2.hint
  (res ++ heads).foldl (fun (a : Option Nat) h => if h == 7 then a else some (min h (a.getD 7))) none

/-- The point that a die is to run at (R308, R398). -/
def wantedPoint (s : State) (die : Nat) : Nat := max ((hinted s die).getD (dieOf s die).point) (max s.powerPoint s.heatPoint)

/-- The bands that a die has held for a faster point are let go (R308). -/
def releaseSlowed (s : State) (die : Nat) : State :=
  { s with bands := s.bands.map fun e => if e.2.die == die && e.2.run == .slowed then (e.1, { e.2 with run := .going }) else e }

/-- A slower point is taken at once; a faster one begins to settle (R308). -/
def retune (s : State) (die : Nat) : State :=
  let w := wantedPoint s die
  let d := dieOf s die
  if w > d.point then releaseSlowed (setDie s die { d with point := w, settling := false }) die
  else if w < d.point then setDie s die { d with settling := true }
  else if d.settling then releaseSlowed (setDie s die { d with settling := false }) die
  else s

/-- The points reach every die (R308, R398). -/
def retuneAll (s : State) : State := (List.range 8).foldl retune s

/-- `OPERATING_POINT_STABLE` (R308). -/
def execOperatingPointStable (die : Nat) (s : State) : Out :=
  let d := dieOf s die
  if !d.settling then .next s
  else
    .next (releaseSlowed (setDie s die { d with point := min d.point (wantedPoint s die), settling := false }) die)

/-! ### A band's first state -/

/-- A core passes to a band (R98, R199, R293): the banks are zeroed and the core acquires at device scope; a band of another tenant
finds the L1 empty. -/
def takeCore (s : State) (core tenant : Nat) (fresh : Bool) : State :=
  let other := (coreOf s core).tenant != some tenant
  let s := invalidateClean (if other then flushCore s core true else s) core
  let c := coreOf s core
  let c : Core := if other then { c with tenant := some tenant, l1 := [] } else c
  setCore s core (if fresh then { c with tab := [], tabGood := 3, tabActive := false } else c)

/-- The top of a team's stack area (R401). -/
def stackTop (l : Launch) (stage inst crew team : Nat) : DWord :=
  let kd := (l.stages.getD stage {}).kernel
  let before := ((l.stages.take stage).map fun g => g.maxb * g.kernel.crews * g.kernel.teams * g.kernel.stack).foldl (· + ·) 0
  if kd.stack == 0 then 0
  else l.packet.getD 6 0 + BitVec.ofNat 64 (before + ((inst * kd.crews + crew) * kd.teams + team + 1) * kd.stack)

/-- A team as it begins (R50, R150, R315). -/
def newTeam (s : State) (l : Launch) (stage inst core quarter crew team : Nat) : Team :=
  let g := l.stages.getD stage {}
  let kd := g.kernel
  let tn := tenantOf s l.tenant
  let full : LaneMask := BitVec.ofNat 1024 (2 ^ (32 * kd.rows) - 1)
  let count := if l.pipe then g.maxb else l.nbands
  { rows := kd.rows, vregs := kd.vregs, stackSize := kd.stack, core := core, quarter := quarter, pc := kd.entry, mask := full, live := full,
    tstk := stackTop l stage inst crew team, tvec := tn.tvec, frecb := tn.frecb,
    ten := BitVec.ofNat 64 (l.tenant + if l.sup then 16 else 0),
    s := [(1, g.args), (2, BitVec.ofNat 64 team), (3, BitVec.ofNat 64 crew), (4, BitVec.ofNat 64 inst), (5, BitVec.ofNat 64 count),
          (6, BitVec.ofNat 64 (tn.cents.idxOf core)), (7, BitVec.ofNat 64 ((tenantDies s l.tenant).idxOf (core / 144)))].filter
            fun r => r.2 != 0 }

/-- A crew as it begins (R176, R195). -/
def newCrew (kd : Kernel) (band index core lcore : Nat) : Crew :=
  { band := band, index := index, core := core, lcore := lcore, teams := kd.teams, tiles := kd.tiles, accs := kd.accs, bars := kd.bars, padBytes := kd.pad,
    bar := (List.range kd.bars).map fun i => (i, { count := kd.teams, need := kd.teams }) }

/-- Places instance `inst` of a stage as laid out (R293): its band is number `key`. -/
def startBand (s : State) (id : Nat) (l : Launch) (stage inst die : Nat) (y : Layout) (run : Run) (key : Nat) : State :=
  let kd := (l.stages.getD stage {}).kernel
  let cores := (y.crews.map fun c => c.1).eraseDups
  let n := kd.crews * kd.teams
  let s := cores.foldl (fun s c => takeCore s c l.tenant true) s
  let s := setBand s key { launch := id, index := inst, stage := stage, die := die, tenant := l.tenant, sup := l.sup, crews := kd.crews,
                           cores := cores, quad := (quadOf l.packet).isSome, prio := l.prio, liveTeams := n, bneed := n, run := run,
                           saveArea := look 0 s.saveAreas (64 * l.die + 4 * l.tenant + l.queue) }
  y.crews.zipIdx.foldl (fun s c =>
    let s := setCrew s (16 * key + c.2) (newCrew kd key c.2 c.1.1 ((tenantOf s l.tenant).cents.idxOf c.1.1))
    c.1.2.zipIdx.foldl (fun s q => setTeam s (16 * (16 * key + c.2) + q.2) (newTeam s l stage inst c.1.1 q.1 c.2 q.2)) s) s

end Sys2Proof.Machine
end

