-- ==== Sys2Proof/Machine/System.lean ====
section
/-! DEFINITION. The control registers (R314 to R321), service requests (R322), translation caches (R323), time (R324), `halt`
(R325), fault records and lanes (R326, R327), and the team record (R328, R329). -/

namespace Sys2Proof.Machine

/-! ### The register directory -/

def Team.privileged (t : Team) : Bool := bit t.ten.toNat 4

/-- The bits of a control register that a `movc` may write, team registers (R41, R71, R72, R186, R200, R221, R286, R317). -/
def writable (n : Nat) : Nat :=
  match n with
  | 0x00 => 0x3FFF800
  | 0x01 => 2 ^ 64 - 1 - 2
  | 0x04 | 0x05 => 2 ^ 64 - 4
  | 0x09 => 0x3FFF800
  | 0x0A => 2 ^ 64 - 1 - 2
  | 0x0C => 2 ^ 64 - 16
  | 0x0D | 0x0E => 31
  | 0x0F => 2 ^ 32 - 1
  | 0x10 => 2 ^ 64 - 1
  | 0x11 => 1
  | 0x13 => 31
  | 0x14 => 0x7FFF
  | _ => 0

/-- A team control register by number (R316). -/
def Team.cr (t : Team) (n : Nat) : DWord :=
  match n with
  | 0x00 => t.mode.setWidth 64
  | 0x01 => t.jpc
  | 0x02 => t.rgpc
  | 0x03 => t.rgst
  | 0x04 => t.tvec
  | 0x05 => t.tepc
  | 0x06 => t.tcause
  | 0x07 => t.frcnt
  | 0x08 => t.frlost
  | 0x09 => t.tsmode.setWidth 64
  | 0x0A => t.tsjpc
  | 0x0B => t.tstat
  | 0x0C => t.frecb
  | 0x0D => t.fstat
  | 0x0E => t.fpte
  | 0x0F => t.mwto
  | 0x10 => t.scarry
  | 0x11 => t.segctl
  | 0x12 => t.tstk
  | 0x13 => t.hmsel
  | 0x14 => t.dbgctl
  | 0x15 => t.dbgst
  | 0x16 => t.ten
  | _ => 0

def Team.setCr (t : Team) (n : Nat) (x : DWord) : Team :=
  match n with
  | 0x00 => { t with mode := x.setWidth 32 }
  | 0x01 => { t with jpc := x }
  | 0x02 => { t with rgpc := x }
  | 0x03 => { t with rgst := x }
  | 0x04 => { t with tvec := x }
  | 0x05 => { t with tepc := x }
  | 0x06 => { t with tcause := x }
  | 0x07 => { t with frcnt := x }
  | 0x08 => { t with frlost := x }
  | 0x09 => { t with tsmode := x.setWidth 32 }
  | 0x0A => { t with tsjpc := x }
  | 0x0B => { t with tstat := x }
  | 0x0C => { t with frecb := x }
  | 0x0D => { t with fstat := x }
  | 0x0E => { t with fpte := x }
  | 0x0F => { t with mwto := x }
  | 0x10 => { t with scarry := x }
  | 0x11 => { t with segctl := x }
  | 0x12 => { t with tstk := x }
  | 0x13 => { t with hmsel := x }
  | 0x14 => { t with dbgctl := x }
  | 0x15 => { t with dbgst := x }
  | 0x16 => { t with ten := x }
  | _ => t

/-- The registers a `movc` may write: RW and RWS ones among the team's own (R316). -/
def crWritable (n : Nat) : Bool := writable n != 0

def mergeBits (old new mask : Nat) : DWord := BitVec.ofNat 64 ((old &&& (2 ^ 64 - 1 - mask)) ||| (new &&& mask))

/-- Commands for an accumulator in the array queue (R270). -/
def pending (s : State) (core crew a : Nat) : Nat := ((coreOf s core).queue.filter fun q => q.crew == crew && q.acc == a).length

/-- The value of AVn (R270). -/
def avValue (s : State) (core crew a : Nat) : DWord :=
  let c := crewOf s crew
  BitVec.ofNat 64 ((look 0 c.aver a).toNat + (if bit c.accFault.toNat a then 65536 else 0) + pending s core crew a * 2 ^ 21)

/-- Reads a control register (R316, R319): none for an unassigned number. -/
def readCr (s : State) (k : Nat) (t : Team) (n : Nat) : Option DWord :=
  let b := bandOf s (bandKey k)
  if n ≤ 0x16 then some (t.cr n)
  else if n = 0x17 then some (hmapWord s (bits t.hmsel.toNat 0 5))
  else if n = 0x18 then some (tenantOf s b.tenant).l2pb
  else if n = 0x19 then some s.ready
  else if n = 0x1A then some (tenantOf s b.tenant).lqcfg
  else if n = 0x1B then some b.ptrig
  else if n = 0x1C then some (look 0 s.spinj (t.core / 144))
  else if n = 0x1D then some s.modst
  else if n < 0x20 then none
  else if n < 0x40 then some (look 0 (crewOf s (crewKey k)).ts (n - 0x20))
  else if n < 0x48 then some (avValue s t.core (crewKey k) (n - 0x40))
  else if n < 0x50 then some (crateOf s (t.core / 144) (n - 0x48))
  else if n < 0x60 then some (look 0 b.bp (n - 0x50))
  else none

/-- `mvfc` (R319). FSTAT waits for the producers that can raise a flag. -/
def execMvfc (x : BitVec 5) (c : BitVec 8) (s : State) : Out :=
  withTeam s fun k t =>
    match readCr s k t c.toNat with
    | none => illop s k t
    | some v => gated s k t { dstS := [x.toNat] } fun t =>
        if c == 0x0D && s.producers.any fun p => p.team == k then waitHere s else finish s k (t.ws x.toNat v)

/-- `movc` to a register that has no row of its own (R315, R318). The value is there for the next instruction: the `movc`'s own
issue does not use up a BSKIP or a WSKIP that it writes (R202). -/
def execMovc (y : BitVec 5) (c : BitVec 8) (s : State) : Out :=
  withTeam s fun k t =>
    if !crWritable c.toNat then illop s k t
    else if c == 0x14 && !t.privileged then raise s k t cPRIV []
    else gated s k t { srcS := [(y.toNat, false)] } fun t =>
      setTeam s k (t.next.setCr c.toNat (mergeBits (t.cr c.toNat).toNat (t.rs y.toNat).toNat (writable c.toNat)))

/-- `TS_WRITE` (R242, R318): it waits for every queued command that names the tile. -/
def execTsWrite (n y : BitVec 5) (s : State) : Out :=
  withTeam s fun k t => gated s k t { srcS := [(y.toNat, false)] } fun t =>
    if (coreOf s t.core).queue.any fun q => q.crew == crewKey k && namesTile s n.toNat q then waitHere s
    else
      let c := crewOf s (crewKey k)
      finish (setCrew s (crewKey k) { c with ts := putAt 0 c.ts n.toNat (t.rs y.toNat &&& 0x0FFFFF0F) }) k t

/-- `AV_WRITE` (R270, R318). A command starts and completes in one step, so none is ever running between two steps. -/
def execAvWrite (n : BitVec 3) (y : BitVec 5) (s : State) : Out :=
  withTeam s fun k t => gated s k t { srcS := [(y.toNat, false)] } fun t =>
    let c := crewOf s (crewKey k)
    finish (setCrew s (crewKey k) { c with aver := putAt 0 c.aver n.toNat ((t.rs y.toNat).setWidth 16) }) k t

/-- `SPINJ` (R321): a write that sets EN is ignored unless a debugger is attached. -/
def execSpinj (y : BitVec 5) (s : State) : Out :=
  withTeam s fun k t => gated s k t { srcS := [(y.toNat, false)] } fun t =>
    let v := t.rs y.toNat &&& 0xFFFFFFFFF
    if bit v.toNat 0 && !bit t.dbgctl.toNat 14 then finish s k t
    else finish { s with spinj := setAt s.spinj (t.core / 144) v } k t

/-- `CRATE` (R320). -/
def execCrate (n : BitVec 3) (y : BitVec 5) (s : State) : Out :=
  withTeam s fun k t =>
    if !t.privileged then raise s k t cPRIV []
    else gated s k t { srcS := [(y.toNat, false)] } fun t =>
      let v := (t.rs y.toNat).toNat
      if bits v 0 3 > 4 ∨ bits v 3 3 > 4 ∨ bits v 8 4 = 0 ∨ bits v 16 16 = 0 then refuse1 s k cBOUNDS (t.rs y.toNat)
      else finish { s with crates := setAt s.crates (8 * (t.core / 144) + n.toNat) (t.rs y.toNat &&& 0xFFFF0F3F) } k t

/-- `PTRIG` (R205): arming starts the named team's count. -/
def execPtrig (y : BitVec 5) (s : State) : Out :=
  withTeam s fun k t =>
    if !t.privileged then raise s k t cPRIV []
    else gated s k t { srcS := [(y.toNat, false)] } fun t =>
      let v := t.rs y.toNat &&& 0x800000FFFFFFFFFF
      let s := finish s k t
      let s := setBand s (bandKey k) { bandOf s (bandKey k) with ptrig := v }
      let named := 16 * (16 * bandKey k + bits v.toNat 36 4) + bits v.toNat 32 4
      match s.teams.lookup named with
      | some u => setTeam s named { u with count := 0 }
      | none => s

/-- `BREAKPOINT_WRITE` (R201). -/
def execBreakpointWrite (n : BitVec 4) (y : BitVec 5) (s : State) : Out :=
  withTeam s fun k t =>
    if !t.privileged then raise s k t cPRIV []
    else gated s k t { srcS := [(y.toNat, false)] } fun t =>
      let m : DWord := if n.toNat < 8 then 0x01FFFFFFFFFFFFFD else 0x01FFFFFFFFFFFFFF
      let b := bandOf s (bandKey k)
      finish (setBand s (bandKey k) { b with bp := putAt 0 b.bp n.toNat (t.rs y.toNat &&& m) }) k t

/-! ### Services, translations, time -/

/-- `sys` (R322): the request is posted once and the team waits for its reply; `S[x]` stays as it was until then. -/
def execSys (x y : BitVec 5) (n : BitVec 8) (s : State) : Out :=
  memory true s fun k t =>
    gated s k t { srcS := [(y.toNat, false)] } fun t =>
      if t.sIsEmpty x.toNat && (t.sFault.lookup x.toNat).isNone then waitHere s
      else releasing s k t .home (fun _ => true) fun s t =>
        let tenant := (bandOf s (bandKey k)).tenant
        let slot := s.serial
        let s := { s with
          serial := s.serial + 1
          services := s.services ++ [{ slot := slot, tenant := tenant, team := k, n := n.toNat, arg := t.rs y.toNat }] }
        raiseVector (setTeam s k (t.holding (.sys x slot (t.rs x.toNat)))) tenant 2

/-- A team's wait for its reply ends (R322). -/
def deliverReply (s : State) (k : Nat) (v : DWord) : State :=
  match s.teams.lookup k with
  | none => s
  | some t => match t.hold with
    | .sys d slot _ =>
      let s := { s with services := s.services.filter fun r => r.slot != slot }
      setTeam (invalidateClean s t.core) k ((({ dstS := [d.toNat] } : Use).clean t).ws d.toNat v).holdOver
    | _ => s

/-- `SERVICE_REPLY` (R322): request `idx` is answered; a team whose band is out receives the reply when it resumes. -/
def execServiceReply (idx : Nat) (value : DWord) (s : State) : Out :=
  match s.services[idx]? with
  | none => .next s
  | some r =>
    if r.reply.isSome then .next s
    else match s.teams.lookup r.team with
    | none => .next { s with services := s.services.erase r }
    | some _ =>
      if (bandOf s (bandKey r.team)).run == .saved then
        .next { s with services := s.services.map fun q => if q.slot == r.slot then { q with reply := some value } else q }
      else .next (deliverReply s r.team value)

/-- Drops the translations that `p` names from every cache of the module; walks under way no longer fill them (R323, R376). -/
def dropTranslations (s : State) (p : Trans → Bool) : State :=
  { s with
    cores := s.cores.map fun e => (e.1, { e.2 with tlb := e.2.tlb.filter fun x => !p x })
    tcache := s.tcache.map fun e => (e.1, e.2.filter fun x => !p x)
    walks := s.walks.map fun w => { w with overlapped := true }
    ats := s.ats.map fun a => { a with overlapped := true } }

/-- An access translated before serial number `begun` is not yet complete (R323): a load, an atomic, a prefetch, a word of a copy, or a
write that a home holds. -/
def usesOld (s : State) (begun : Nat) : Bool :=
  (s.misses.any fun m => decide (m.uid ≤ begun)) || (s.asks.any fun a => a.writes.any fun w => decide (w.uid ≤ begun)) ||
  (s.blocks.any fun b => b.writes.any fun w => decide (w.uid ≤ begun)) || (s.msgs.any fun m => decide (m.uid < begun) && match m.cargo with
    | .copy _ _ => true
    | _ => false) || s.loads.any fun o => decide (o.id < begun) && !o.words.all WordReq.isHere

/-- `tlbi` (R315, R323): the team holds until the loads and atomics translated before it are complete, and the words of copies that are on
their way have landed; the serial numbers below `release` are theirs. -/
def execTlbi (y : BitVec 5) (n : BitVec 8) (s : State) : Out :=
  withTeam s fun k t =>
    if n.toNat > 2 then illop s k t
    else if !t.privileged then raise s k t cPRIV []
    else gated s k t { srcS := [(y.toNat, false)] } fun t =>
      let tid := bits t.ten.toNat 0 4
      let va := (t.rs y.toNat).toNat % 2 ^ 57
      let begun := t.release.getD s.serial
      let s := if t.release.isSome then s else dropTranslations { s with serial := s.serial + 1 }
        fun x => n == 2 || (x.tenant == tid && (n == 0 || x.maps tid va))
      if usesOld s begun then waitHere (setTeam s k { t with release := some begun })
      else finish s k t

/-- `rdtm` (R324): the timebase as the team's die has it, at most 2 ticks from the true tick. -/
def execRdtm (x : BitVec 5) (s : State) : Out :=
  withTeam s fun k t => gated s k t { dstS := [x.toNat] } fun t =>
    let die := t.core / 144
    let off := (Config.freeValue s.fresh).toNat % 5
    let v := max (look 0 s.lastTime die) (s.tick + off - 2)
    finish { s with fresh := s.fresh + 1, lastTime := setAt s.lastTime die v } k (t.ws x.toNat (BitVec.ofNat 64 v))

/-- `halt` (R325): the band stops by R196 steps 1 to 4 and stays resident. -/
def execHalt (s : State) : Out :=
  withTeam s fun k t =>
    if !t.privileged then raise s k t cPRIV []
    else
      stopBand (finish s k t) (bandKey k) .halting

/-! ### Records and lanes -/

/-- `frrd` (R326): a plain load of the words of one field, whose fault the destination carries (R110). -/
def execFrrd (x y : BitVec 5) (f : BitVec 8) (s : State) : Out :=
  memory (f.toNat ≤ 4) s fun k t =>
    gated s k t { srcS := [(y.toNat, false)], dstS := [x.toNat] } fun t =>
      let i := t.rs y.toNat
      if i.toNat ≥ 64 then refuse1 s k cBOUNDS i
      else
        let va := t.frecb + 16 * i + (match f.toNat with
          | 2 => 0
          | 4 => 12
          | _ => 8)
        imageAccess s k t 4 (if f = 2 then 8 else 4) va .read fun s ps => imageWords s k t ps fun s ds =>
          match joinData (ds.getD 0 .poison) (ds.getD 1 (.ok 0)) with
          | (.ok _, v) => finish s k (t.ws x.toNat (match f.toNat with
            | 0 => BitVec.ofNat 64 (bits v.toNat 0 16)
            | 1 => BitVec.ofNat 64 (bits v.toNat 16 8)
            | 3 => BitVec.ofNat 64 (bits v.toNat 24 8)
            | _ => v))
          | (d, _) => finish s k (t.carry x.toNat d.cause va)

/-- Clears a lane in an entry's mask. -/
def Entry.without (e : Entry) (m : LaneMask) : Entry := { e with mask := e.mask &&& ~~~m }

/-- `lkill` (R152, R327): entries that have spilled are held to the live lanes wherever they are read (R156). -/
def execLkill (x : BitVec 5) (s : State) : Out :=
  withTeam s fun k t =>
    if !t.inh then illop s k t
    else gated s k t { srcS := [(x.toNat, false)] } fun t =>
      let L := (t.rs x.toNat).toNat
      if L ≥ t.lanes then refuse1 s k cBOUNDS (t.rs x.toNat)
      else
        let m : LaneMask := BitVec.ofNat 1024 (2 ^ L)
        finish s k { t with live := t.live &&& ~~~m, tsmask := t.tsmask &&& ~~~m, tsstack := t.tsstack.map fun e => e.without m }

/-! ### The team record -/

def zeros (n : Nat) : List Word := List.replicate n 0

/-- A mask in the entry image of R156. -/
def maskImage (m : LaneMask) : List Word := Entry.image { mask := m }

/-- Pads entries to eight places of 160 bytes. -/
def stackImage (es : List Entry) : List Word :=
  let ws := (es.reverse.flatMap Entry.image)
  ws ++ zeros (320 - ws.length)

/-- The full bits of an image, of the vector registers and of the scalars: with no producer outstanding, a register that carries a data
fault shows as full with the value that the delivery of its fault leaves it (R49, R110). -/
def Team.fullV (t : Team) : DWord := t.vFault.foldl (fun m e => m ||| BitVec.ofNat 64 (2 ^ e.1)) (~~~t.vEmpty)
def Team.fullS (t : Team) : Word := t.sFault.foldl (fun m e => m ||| BitVec.ofNat 32 (2 ^ e.1)) (~~~t.sEmpty)

/-- The record of a team (R328); `pc` is where it resumes. -/
def teamRecord (t : Team) (pc : DWord) : List Word :=
  let r := t.rows
  let v := t.vregs
  let sysw := match t.hold with
    | .sys _ slot _ => slot % 2 ^ 32 + 2 ^ 32
    | _ => 0
  let counts := t.cfd.toNat + (t.stack.length + t.spilled) * 2 ^ 16 + t.stack.length * 2 ^ 32 +
    (if t.inh then (t.tsstack.length + t.tsspilled) * 2 ^ 40 + t.tsstack.length * 2 ^ 56 else 0)
  let head := dwords (BitVec.ofNat 64 (0x1400 + 128 * r * v + r * 2 ^ 32 + v * 2 ^ 40 + 2 ^ 48)) ++ dwords pc ++ zeros 60
  let crs := ((List.range 32).map fun n => t.cr n).flatMap dwords
  let entries := dwords (BitVec.ofNat 64 counts) ++ dwords (if t.inh then t.tscfd.setWidth 64 else 0) ++ dwords (BitVec.ofNat 64 sysw) ++ zeros 26
  let masks := maskImage t.mask ++ maskImage t.rgmask
  let saved := if t.inh then maskImage t.tsmask ++ stackImage t.tsstack else zeros 360
  let full := dwords t.fullV ++ [t.fullS, 0]
  let regs := (List.range 32).flatMap fun n => dwords (t.rs n)
  let preds := (List.range 8).flatMap fun p => if p = 7 then zeros 32 else rowWords (t.rp (p + 1))
  let vecs := (List.range v).flatMap fun n => (List.range (32 * r)).map fun L => t.rv n L
  head ++ crs ++ entries ++ masks ++ stackImage t.stack ++ saved ++ full ++ millImage t.mill ++ zeros 4 ++ regs ++ preds ++ vecs

/-- `ctxsv` (R328): it waits for the team's producers and writes the record with plain stores. -/
def execCtxsv (x : BitVec 5) (s : State) : Out :=
  memory true s fun k t =>
    gated s k t { srcS := [(x.toNat, false)] } fun t =>
      if outstanding s k || t.millBusy then waitHere s
      else
        withSettled s k t fun s t => imageAccess s k t 128 (0x1400 + 128 * t.rows * t.vregs) (t.rs x.toNat) .write fun s ps =>
          finish (writePlaces s k t ps (teamRecord t (t.pc + 4))) k t

/-- The words from byte `o` of a record. -/
def fieldAt (ws : List Word) (o n : Nat) : List Word := (ws.drop (o / 4)).take n

/-- A reserved bit of a register image is set (R329). -/
def recordReserved (ws : List Word) : Bool :=
  let cr := fun n => (dwordAt ws (0x40 + 2 * n)).toNat
  let extra := fun n => if n = 2 then 2 ^ 64 - 4 else if n = 3 then 0xFFFFFFFF0007 else if n = 6 then 255 else if n = 7 then 127
    else if n = 8 then 2047 else if n = 0x0B then 2 ^ 64 - 2 ^ 32 + 1 else if n = 0x12 then 2 ^ 64 - 16 else if n = 0x15 then 15
    else if n = 0x16 then 31 else 0
  (List.range 32).any fun n => cr n &&& (2 ^ 64 - 1 - (writable n ||| extra n)) != 0

/-- The entries of a saved stack: the newest first. -/
def stackOf (limit : LaneMask) (ws : List Word) (o n : Nat) : List Entry :=
  ((List.range n).map fun i => entryOf limit (fieldAt ws (o + 160 * i) 40)).reverse

/-- The team as a record describes it (R329). -/
def teamOfRecord (t : Team) (ws : List Word) : Team :=
  let all := teamMask t
  let t := (List.range 0x17).foldl (fun (t : Team) n => t.setCr n (dwordAt ws (0x40 + 2 * n))) t
  let c := (dwordAt ws 0x80).toNat
  let hw := min (bits c 32 4) 8
  let tsn := min (bits c 56 4) 8
  let limit := if t.inh then all else t.live &&& all
  let m := dwordAt ws (0xE60 / 4)
  let f := ws.getD (0xE68 / 4) 0
  { t with
    pc := dwordAt ws 2 &&& ~~~3
    cfd := BitVec.ofNat 16 (bits c 0 16)
    stack := stackOf limit ws 0x3C0 hw
    spilled := bits c 16 16 - hw
    mask := maskOfWords (fieldAt ws (0x280 + 32) 32) &&& limit
    rgmask := maskOfWords (fieldAt ws (0x320 + 32) 32) &&& all
    tscfd := if t.inh then (dwordAt ws 0x82).setWidth 16 else 0
    tsmask := if t.inh then maskOfWords (fieldAt ws (0x8C0 + 32) 32) &&& t.live else 0
    tsstack := if t.inh then stackOf t.live ws 0x960 tsn else []
    tsspilled := if t.inh then bits c 40 16 - tsn else 0
    vEmpty := ~~~m
    sEmpty := ~~~f &&& ~~~1
    s := (List.range 32).foldl (fun m n => if n = 0 then m else putAt 0 m n (dwordAt ws (0xF00 / 4 + 2 * n))) []
    p := (List.range 7).foldl (fun m i => putAt 0 m (i + 1) (maskOfWords (fieldAt ws (0x1000 + 128 * i) 32))) []
    v := (List.range t.vregs).foldl (fun m n => (List.range t.lanes).foldl (fun m L =>
      putAt 0 m (1024 * n + L) (ws.getD (0x500 + 32 * t.rows * n + L) 0)) m) []
    vFault := []
    sFault := []
    upsetV := []
    upsetS := []
    upsetP := []
    softV := []
    softS := []
    softP := [] }

/-- `ctxld` (R315, R329). -/
def execCtxld (x : BitVec 5) (s : State) : Out :=
  memory true s fun k t =>
    if !t.privileged then raise s k t cPRIV []
    else gated s k t { srcS := [(x.toNat, false)] } fun t =>
      if outstanding s k || t.millBusy then waitHere s
      else
        let va := t.rs x.toNat
        let size := 0x1400 + 128 * t.rows * t.vregs
        readWordsThen s k t 128 size va fun s ws =>
          let h := (dwordAt ws 0).toNat
          let mill := fieldAt ws 0xE70 32
          let isOpen := bit (dwordAt mill 18).toNat 1
          if h % 2 ^ 56 ≠ size + t.rows * 2 ^ 32 + t.vregs * 2 ^ 40 + 2 ^ 48 ∨ recordReserved ws ∨ (isOpen ∧ (millOf mill).isNone) then
            refuse1 s k cBOUNDS va
          else if isOpen && decide (millsHeld s t.core k ≥ 16) then waitHere s
          else
            let u := teamOfRecord t.issued ws
            setTeam s k { u with pc := dwordAt ws 2 &&& ~~~3, mill := if isOpen then millOf mill else none }

end Sys2Proof.Machine
end

