-- ==== Sys2Proof/Machine/Scheduling.lean ====
section
/-! DEFINITION. Launches and bands over time: the head of a queue (R31, R260, R301, R303), the die scheduler (R292, R294, R297,
R304), the quantum and the balancer (R300, R305), gangs (R301, R302), the kernel boundary (R346), pre-emption and resumption
(R196 to R199, R288, R299, R330). -/

namespace Sys2Proof.Machine

/-! ### Descriptors -/

/-- Eight-byte words of a descriptor as the entry die reads them; none where one cannot be read. -/
def readDesc (s : State) (l : Launch) (va : DWord) (n : Nat) : State × Option (List DWord) :=
  (List.range n).foldl (fun (a : State × Option (List DWord)) i =>
    match a.2 with
    | none => a
    | some ws => match walkerRead a.1 l.die l.tenant (va + BitVec.ofNat 64 (8 * i)) with
      | (s, some x) => (s, some (ws ++ [x]))
      | (s, none) => (s, none)) (s, some [])

/-- A kernel descriptor within its limits (R31, R260); ARGSZ is not checked. -/
def kernelOf (ws : List DWord) : Option Kernel :=
  let w := pw ws
  let k : Kernel := { entry := ws.getD 0 0, rows := bits (w 1) 0 8, vregs := bits (w 1) 8 8, stack := bits (w 1) 32 32, teams := bits (w 2) 0 8,
                      tiles := bits (w 2) 8 8, accs := bits (w 2) 16 8, bars := bits (w 2) 24 8, pad := bits (w 2) 32 32,
                      crews := bits (w 3) 0 8 }
  if w 0 % 4 = 0 ∧ bits (w 1) 16 16 = 0 ∧ bits (w 3) 8 56 = 0 ∧ bits (w 4) 32 32 = 0 ∧ w 5 = 0 ∧ w 6 = 0 ∧ w 7 = 0 ∧
      1 ≤ k.rows ∧ k.rows ≤ 32 ∧ 8 ≤ k.vregs ∧ k.vregs ≤ 64 ∧ k.vregs % 8 = 0 ∧ k.rows * k.vregs ≤ 1024 ∧ k.stack % 16 = 0 ∧
      k.stack ≤ 1048576 ∧ 1 ≤ k.teams ∧ k.teams ≤ 16 ∧ k.tiles ≤ 32 ∧ k.accs ≤ 8 ∧ k.bars ≤ 64 ∧ k.pad % 4 = 0 ∧ k.pad ≤ 262144 ∧
      1 ≤ k.crews ∧ k.crews ≤ 16 then some k else none

/-- The kernel at a descriptor's address: none where the launch is refused (R260). -/
def readKernel (s : State) (l : Launch) (va : DWord) : State × Option Kernel :=
  match readDesc s l va 8 with
  | (s, some ws) => (s, (kernelOf ws).bind fun k => if k.stack > 0 ∧ pw l.packet 6 = 0 then none else some k)
  | (s, none) => (s, none)

/-- A pipeline's stages (R303). -/
def readStages (s : State) (l : Launch) : State × Option (List PipeStage) :=
  let va := l.packet.getD 1 0
  match readDesc s l va 8 with
  | (s, none) => (s, none)
  | (s, some h) =>
    let n := pw h 0
    if n = 0 ∨ n > 8 ∨ (h.drop 1).any (fun x => x != 0) ∨ pw l.packet 2 ≠ 0 then (s, none)
    else (List.range n).foldl (fun (a : State × Option (List PipeStage)) i =>
      match a.2 with
      | none => a
      | some gs => match readDesc a.1 l (va + BitVec.ofNat 64 (64 + 32 * i)) 4 with
        | (s, none) => (s, none)
        | (s, some ws) => match readKernel s l (ws.getD 0 0) with
          | (s, none) => (s, none)
          | (s, some k) =>
            let minb := bits (pw ws 3) 0 16
            let maxb := bits (pw ws 3) 16 16
            if maxb = 0 ∨ minb > maxb ∨ bits (pw ws 3) 32 32 ≠ 0 then (s, none)
            else (s, some (gs ++ [{ kernel := k, args := ws.getD 1 0, inq := ws.getD 2 0, minb := minb, maxb := maxb }]))) (s, some [])

def sumBy {α : Type} (f : α → Nat) (xs : List α) : Nat := (xs.map f).foldl (· + ·) 0

/-- A launch is refused (R260): no band runs and its stamp is written with ERR. -/
def refuseLaunch (s : State) (id : Nat) : State :=
  let l := launchOf s id
  launchStamp (setLaunch s id { l with ended := true }) id true

/-- The kernels of the bands that a launch has resident at its start, in the order of their placement (R304): of each stage its MINB,
then of the stages in order up to their MAXB. -/
def firstKernels (gs : List PipeStage) (nbands : Nat) : List Kernel :=
  ((gs.flatMap fun g => List.replicate g.minb g.kernel) ++ gs.flatMap fun g => List.replicate (g.maxb - g.minb) g.kernel).take nbands

/-- The head of queue `queue` of a die has its descriptor read (R260, R289, R297, R301, R303); a part of a gang that spans modules is
refused while READY.THEBEL is 0 (R364). -/
def readHead (die queue : Nat) (s : State) : State :=
  match headOf s die queue with
  | none => s
  | some (id, l) =>
    if l.read then s
    else if l.spans && !bit s.ready.toNat 28 then refuseLaunch s id
    else if l.pipe then
      match readStages s l with
      | (s, none) => refuseLaunch s id
      | (s, some gs) =>
        if sumBy (fun g => g.minb) gs > l.nbands ∨ l.nbands > sumBy (fun g => g.maxb) gs ∨ gs.any (fun g => !placeable s l g.kernel) ||
            (l.gang && !gangFits s l (firstKernels gs (min l.nbands 20000)) []) then
          refuseLaunch s id
        else retune (setLaunch s id { l with read := true, stages := gs }) die
    else match readKernel s l (l.packet.getD 1 0) with
      | (s, none) => refuseLaunch s id
      | (s, some k) =>
        if !placeable s l k || (l.gang && !gangFits s l (List.replicate (min l.nbands 20000) k) []) then refuseLaunch s id
        else retune (setLaunch s id { l with
          read := true, stages := [{ kernel := k, args := l.packet.getD 2 0, maxb := l.nbands }] }) die

/-- `LAUNCH_HEAD` (R260, R289, R297, R301, R303): the head of queue `queue` of a die has its descriptor read. -/
def execLaunchHead (die queue : Nat) (s : State) : Out := .next (attempt s (readHead die queue)).1

/-! ### The die scheduler -/

/-- The bands of a launch's stage that are resident, or saved with `saved`. -/
def stageBands (s : State) (id stage : Nat) (saved : Bool) : List (Nat × Band) :=
  s.bands.filter fun e => e.2.launch == id && e.2.stage == stage && (e.2.run == .saved) == saved

def launchBands (s : State) (id : Nat) (saved : Bool) : List (Nat × Band) :=
  s.bands.filter fun e => e.2.launch == id && (e.2.run == .saved) == saved

/-- The stage whose instance takes the next slot (R304, R305): one that the balancer favours or one below its MINB, else the lowest
with an instance not yet started or saved. -/
def nextStage (s : State) (id : Nat) (l : Launch) : Option Nat :=
  if (launchBands s id false).length ≥ l.nbands then none
  else
    let gs := l.stages.zipIdx.filter fun g => decide (g.1.started < g.1.maxb) || !(stageBands s id g.2 true).isEmpty
    match (gs.find? fun g => l.favour == some g.2).or (gs.find? fun g => decide ((stageBands s id g.2 false).length < g.1.minb)) with
    | some g => some g.2
    | none => gs.head?.map fun g => g.2

/-- A gang that is not whole: it has no start tick, and bands that are still to be placed or to resume (R301, R302). -/
def partGang (s : State) (id : Nat) (l : Launch) : Bool :=
  l.gang && l.read && !l.ended && l.startTick.isNone && (nextStage s id l).isSome

/-- The gang of a tenant that gathers (R301, R302): it holds bands and is not whole. -/
def gangUnderWay (s : State) (tenant : Nat) : Option Nat :=
  (s.launches.find? fun e => e.2.tenant == tenant && partGang s e.1 e.2 &&
    s.bands.any fun b => b.2.launch == e.1 && b.2.run != .saved && b.2.run != .stopping).map fun e => e.1

/-- The gang of a tenant whose bands are placed now (R301): the one that gathers, else the earliest of those that have reached their
heads and have placed none. -/
def gatheringGang (s : State) (tenant : Nat) : Option Nat :=
  (gangUnderWay s tenant).or ((s.launches.find? fun e => e.2.tenant == tenant && e.2.gang && e.2.read && !e.2.dispatched && !e.2.ended &&
    e.2.stages.all fun g => g.started == 0).map fun e => e.1)

/-- Another launch's gang that is not whole holds the quad of a core (R301). -/
def gangHolds (s : State) (id core : Nat) : Bool :=
  s.crews.any fun e => decide (e.2.core / 4 = core / 4) && (let b := bandOf s (e.1 / 16)
    b.resident && b.launch != id && partGang s b.launch (launchOf s b.launch))

/-- The load of a core for a launch that would use it: one that a gathering gang holds has no slot to lend (R296, R301). -/
def coreRoom (s : State) (id core : Nat) : Load :=
  if gangHolds s id core then { coreLoad s core with slots := [16, 16, 16, 16] } else coreLoad s core

/-- The room that a quantum has freed goes first to the launch that waited, ahead of others of the tenant with no higher priority
(R300). -/
def claimed (s : State) (tenant prio id : Nat) : Bool :=
  s.claims.any fun c => c != id && (let l := launchOf s c
    l.tenant == tenant && decide (l.prio ≥ prio) && !l.ended && (nextStage s c l).isSome)

/-- Where the head of a queue can place its next band now (R292, R297, R300, R301); a saved band of the stage comes first (R299, R305). -/
def canPlace (s : State) (id : Nat) (l : Launch) : Option (Nat × Nat × Layout) :=
  if s.alarm.isSome || !l.read || l.ended || (l.gang && l.startTick.isNone && gatheringGang s l.tenant != some id) || claimed s l.tenant l.prio id then none
  else (nextStage s id l).bind fun g =>
    if !(stageBands s id g true).isEmpty then none
    else (placeBand s l (l.stages.getD g {}).kernel true (coreRoom s id)).map fun r => (g, r.1, r.2)

/-- WEIGHT of a queue (R295). -/
def weight (s : State) (q : Nat) : Nat := max 1 (bits (tenantOf s (q / 4)).lqcfg.toNat (4 * (q % 4)) 4)

/-- The queue that the scheduler serves next among those of one priority (R294), and the turn it leaves. -/
def serveRing (s : State) (die prio : Nat) : Option (Nat × (Nat × Nat)) :=
  let turn := look (0, 0) s.turns (8 * die + prio)
  let start := if turn.2 ≥ weight s turn.1 then (turn.1 + 1) % 64 else turn.1
  let n := if turn.2 ≥ weight s turn.1 then 0 else turn.2
  ((List.range 64).map fun i => (start + i) % 64).findSome? fun q =>
    (headOf s die q).bind fun h =>
      if h.2.prio == prio && (canPlace s h.1 h.2).isSome then some (q, (q, if q == start then n + 1 else 1)) else none

/-- The queue that the scheduler serves next (R294): the highest priority that can place a band. -/
def serve (s : State) (die : Nat) : Option (Nat × Nat × (Nat × Nat)) :=
  [7, 6, 5, 4, 3, 2, 1, 0].findSome? fun p => (serveRing s die p).map fun r => (p, r.1, r.2)

/-- The scheduler has looked at the priorities above `p` and placed none of their bands: a queue in its turn has stopped early, and the
pointer goes past it (R294). -/
def passTurns (s : State) (die p : Nat) : State :=
  (List.range 8).foldl (fun s q =>
    let turn := look (0, 0) s.turns (8 * die + q)
    if q ≥ p ∧ turn.2 ≠ 0 then { s with turns := setAt s.turns (8 * die + q) ((turn.1 + 1) % 64, 0) } else s) s

/-- The heads that cannot place a band now, since when (R300). -/
def noteBlocked (s : State) (die : Nat) : State :=
  (List.range 64).foldl (fun s q => match headOf s die q with
    | some (id, l) =>
      if (canPlace s id l).isSome then { s with blocked := drop s.blocked (64 * die + q) }
      else if (s.blocked.lookup (64 * die + q)).any fun b => b.1 == id then s
      else { s with blocked := setAt s.blocked (64 * die + q) (id, s.tick) }
    | none => { s with blocked := drop s.blocked (64 * die + q) }) s

/-- `T`, the start tick of a gang whose last band is placed now (R301). -/
def startTick (now : Nat) : Nat := (now + 2000 + 4095) / 4096 * 4096

/-- A launch calls for a faster point than a die has (R308). -/
def awaitsPoint (s : State) (l : Launch) (die : Nat) : Bool :=
  l.hint != 7 && decide (max l.hint (max s.powerPoint s.heatPoint) < (dieOf s die).point)

/-- A launch's first band waits for a faster point (R308). -/
def firstRun (s : State) (l : Launch) (id die : Nat) : Run :=
  if l.gang then .gang
  else if (launchBands s id false).isEmpty && awaitsPoint s l die then .slowed
  else .going

/-- A gang whose bands, as many as it has slots, are all placed, none of them out, has its start tick chosen (R301, R302, R304), once no
die of its bands has yet to settle at the point that it calls for (R308). -/
def gangReady (s : State) (id : Nat) : State :=
  let l := launchOf s id
  let bs := s.bands.filter fun e => e.2.launch == id
  if l.gang && l.read && (nextStage s id l).isNone && !l.ended && l.startTick.isNone && bs.all (fun e => e.2.run != .saved && e.2.run != .stopping) &&
      !bs.any fun e => (dieOf s e.2.die).settling && awaitsPoint s l e.2.die then
    setLaunch s id { l with startTick := some (startTick s.tick) } else s

/-! ### Where a saved band can go -/

/-- The teams that a crew still has. -/
def crewTeams (s : State) (crew : Nat) : NMap Team := s.teams.filter fun e => crewKey e.1 == crew
def bandCrews (s : State) (band : Nat) : NMap Crew := s.crews.filter fun e => e.1 / 16 == band

/-- The crews of a band by the core that they share, and so by the logical core number that their teams hold. -/
def crewGroups (s : State) (band : Nat) : List (Nat × List Nat) :=
  let cs := bandCrews s band
  ((cs.map fun e => e.2.core).eraseDups).map fun c => (c, (cs.filter fun e => e.2.core == c).map fun e => e.1)

/-- Fits crews on one core together, each with the teams that it still has: the quarters of each. -/
def fitGroup (s : State) (kd : Kernel) : List Nat → Load → Option (List (Nat × List Nat))
  | [], _ => some []
  | c :: r, l => (fitCrew { kd with teams := (crewTeams s c).length } l).bind fun x => (fitGroup s kd r x.1).map fun y => (c, x.2) :: y

/-- Places groups of crews on cores of their own, as R297 places crews: each old core, its new one, and its crews. -/
def placeGroups (s : State) (kd : Kernel) (base : Nat → Load) (free : List (Nat × Nat)) :
    List (Nat × List Nat) → List Nat → List (Nat × Nat) → Option (List (Nat × Nat × List (Nat × List Nat)))
  | [], _, _ => some []
  | g :: r, used, taken =>
    let on := fun (q : Nat × Nat) => ((quadCores s q).filter fun c => !used.contains c).findSome? fun c =>
      (fitGroup s kd g.2 (base c)).map fun x => (q, c, x)
    (((taken ++ free.filter fun q => !taken.contains q).findSome? on)).bind fun x =>
      (placeGroups s kd base free r (x.2.1 :: used) (if taken.contains x.1 then taken else taken ++ [x.1])).map fun y => (g.1, x.2) :: y

/-- Where a saved band can go (R198, R299): for each core that it left, a core for its crews and the quarters of their teams. -/
def resumeLayout (s : State) (band : Nat) : Option (List (Nat × Nat × List (Nat × List Nat))) :=
  let b := bandOf s band
  let kd := ((launchOf s b.launch).stages.getD b.stage {}).kernel
  let base := coreRoom s b.launch
  if b.quad then
    (crewGroups s band).foldr (fun g a => a.bind fun y => (fitGroup s kd g.2 (base g.1)).map fun x => (g.1, g.1, x) :: y) (some [])
  else
    placeGroups s kd base ((dieQuads s b.tenant b.die).filter fun q => (quadCores s q).all fun c => (base c).crews == 0) (crewGroups s band) [] []

/-- A saved band's turn to resume: in a pipeline, when the next slot goes to its stage (R304, R305); in a gang, once no band of it is
still to be saved, and while no other gang of the tenant gathers (R301, R302). -/
def mayResume (s : State) (band : Nat) (b : Band) : Bool :=
  let l := launchOf s b.launch
  s.alarm.isNone && b.run == .saved && bit s.ready.toNat b.die && !claimed s b.tenant b.prio b.launch &&
    (!l.gang || ((s.bands.all fun e => e.2.launch != b.launch || e.2.run != .stopping) &&
      (gangUnderWay s b.tenant).all fun g => g == b.launch)) &&
    (!l.pipe || (nextStage s b.launch l == some b.stage && ((stageBands s b.launch b.stage true).head?.map fun e => e.1) == some band))

/-- A saved band of a priority above `p` can resume now (R294, R299). -/
def resumesAbove (s : State) (p : Nat) : Bool :=
  s.bands.any fun e => decide (e.2.prio > p) && mayResume s e.1 e.2 && (resumeLayout s e.1).isSome

/-- A head of a priority above `p` can place a band now (R294). -/
def placesAbove (s : State) (p : Nat) : Bool := (List.range 8).any fun d => match serve s d with
  | some (x, _) => decide (x > p)
  | none => false

/-- `BAND_PLACEMENT` (R292 to R297, R304): the scheduler of a die places one band, unless a saved band of a higher priority can resume. -/
def execBandPlacement (die : Nat) (s : State) : Out :=
  match serve s die with
  | none => .next (noteBlocked (passTurns s die 0) die)
  | some (p, q, turn) =>
    if resumesAbove s p then .next s
    else match headOf s die q with
    | none => .next s
    | some (id, l) => match canPlace s id l with
      | none => .next s
      | some (g, d, y) =>
        let st := l.stages.getD g {}
        let key := s.serial
        let s := passTurns s die (p + 1)
        let s := { s with serial := s.serial + 1, turns := setAt s.turns (8 * die + p) turn, blocked := drop s.blocked (64 * die + q),
                          claims := s.claims.filter fun c => c != id }
        let s := startBand s id l g st.started d y (firstRun s l id d) key
        let s := setLaunch s id { l with favour := none, stages := l.stages.zipIdx.map fun x => if x.2 == g then { x.1 with started := x.1.started + 1 } else x.1 }
        .next (noteBlocked (retune (gangReady s id) d) die)

/-- The step that DBGCTL.STEP or SLN asks for (R200). -/
def Team.stepWanted (t : Team) : Option (Option Nat) :=
  if bit t.dbgctl.toNat 0 then some none else if bit t.dbgctl.toNat 1 then some (some (bits t.dbgctl.toNat 2 10)) else none

/-- A band issues again (R200, R203): teams with STEP or SLN set are to be stepped, one after another, and then the band stays stopped. -/
def letGo (s : State) (band : Nat) : State :=
  let s := mapTeams s band fun t => { t with stepAsked := t.stepWanted }
  setBand s band { bandOf s band with run := if (bandTeams s band).any fun e => e.2.stepAsked.isSome then .stopped else .going }

/-- `GANG_START` (R301): at the start tick every team of the gang begins to issue. -/
def execGangStart (launch : Nat) (s : State) : Out :=
  match (launchOf s launch).startTick with
  | none => .next (gangReady s launch)
  | some t =>
    if s.tick < t then .next s
    else .next (((s.bands.filter fun e => e.2.launch == launch && e.2.run == .gang).map fun e => e.1).foldl letGo s)

/-! ### Pre-emption -/

/-- How a band that is pre-empted now stands on its resumption, where a `halt` or a debugger has stopped it (R202, R325). -/
def Band.standing (b : Band) : Option Run :=
  match b.run with
  | .halting | .halted => some .halted
  | .breaking | .stopped => some .stopped
  | .stopping => b.rests
  | _ => none

/-- Marks a band, and with a gang every band of it, to be pre-empted (R196, R302). -/
def beginPreempt (s : State) (band reason : Nat) : State :=
  let b := bandOf s band
  let gang := (launchOf s b.launch).gang
  let s := if gang then setLaunch s b.launch { launchOf s b.launch with startTick := none } else s
  { s with bands := s.bands.map fun e =>
      if (e.1 == band || (gang && e.2.launch == b.launch)) && e.2.resident then
        (e.1, { e.2 with run := .stopping, rests := e.2.standing, reason := reason, stopTick := s.tick }) else e }

/-- The words of a crew section (R330), each with whether it is poisoned (R383). -/
def crewSection (s : State) (k : Nat) : List (Word × Bool) :=
  let c := crewOf s k
  let core := coreOf s c.core
  let qs := core.queue.filter fun q => q.crew == k
  let recs := ((List.range 16).filterMap fun i => s.teams.lookup (16 * k + i)).flatMap fun t => teamRecord t t.pc
  let plain := fun (ws : List Word) => ws.map fun w => (w, false)
  let pad := (List.range (c.padBytes / 4)).map fun i => (look 0 c.pad i, c.padPoison.contains i || c.padEcc.bad.contains i)
  let tiles := (List.range (c.tiles * 2048)).map fun i => (look 0 c.tile i, c.tilePoison.contains i || c.tileEcc.bad.contains i)
  let accs := (List.range (c.accs * 16384)).map fun i => look 0 c.acc i
  let size := 0x900 + 4 * (pad.length + tiles.length + accs.length + recs.length)
  let bars := (List.range 64).flatMap fun i =>
    let b := if i < c.bars then look {} c.bar i else { count := 0, need := 0, phase := 0 }
    [BitVec.ofNat 32 (b.count + b.need * 65536), b.phase, 0, 0]
  let cmd := fun (q : ArrayCmd) =>
    [q.word, BitVec.ofNat 32 (q.ver.toNat + if q.team.isNone then 65536 else 0)] ++ (List.range 4).flatMap (fun i => dwords (q.ops.getD i 0)) ++ zeros 2
  let cmds := qs.flatMap cmd
  plain (dwords (BitVec.ofNat 64 size) ++ [BitVec.ofNat 32 (c.teams + c.tiles * 256 + c.accs * 65536 + c.bars * 2 ^ 24), BitVec.ofNat 32 c.padBytes] ++
    bars ++ (List.range 32).flatMap (fun i => dwords (look 0 c.ts i)) ++ (List.range 8).flatMap (fun i => dwords (avValue s c.core k i)) ++
    cmds ++ zeros (0x3B0 / 4 - cmds.length)) ++ pad ++ tiles ++ plain (accs ++ recs)

/-- The save image of a band (R197, R330). -/
def bandImage (s : State) (band : Nat) : List (Word × Bool) :=
  let b := bandOf s band
  let core := coreOf s (b.cores.headD 0)
  let bank := fun (i : Nat) => (List.range 1028).map fun j => look 0 core.tab (2048 * i + j)
  let crews := (bandCrews s band).flatMap fun e => crewSection s e.1
  let body := [BitVec.ofNat 32 (b.bneed + bits b.bphase.toNat 0 16 * 65536),
      BitVec.ofNat 32 (bits b.bphase.toNat 16 16 + (if core.tabActive then 65536 else 0) + core.tabGood.toNat * 2 ^ 24), 0, 0] ++
    bank 0 ++ bank 1 ++ (List.range 16).flatMap (fun i => dwords (look 0 b.bp i))
  let body := body ++ zeros (0x20C0 / 4 - body.length)
  let head := dwords (BitVec.ofNat 64 b.launch) ++ [BitVec.ofNat 32 b.index, BitVec.ofNat 32 (0x14 + b.reason * 256 + b.crews * 65536)] ++
    dwords (BitVec.ofNat 64 b.stopTick) ++ dwords (BitVec.ofNat 64 (64 + 4 * (body.length + crews.length))) ++ zeros 8
  (head ++ body).map (fun w => (w, false)) ++ crews

/-- The place of a band in its queue's save area (R196): the lowest that no image of a band which is still out takes. -/
def freeSlot (s : State) (b : Band) : Nat :=
  let taken := (s.bands.filter fun e => e.2.run == .saved && e.2.saveArea == b.saveArea).map fun e => e.2.slot
  ((List.range (taken.length + 1)).find? fun i => !taken.contains i).getD 0

/-- Writes the image at a band's save area (R196): each place of it has 256 MiB. -/
def writeImage (s : State) (band : Nat) : State :=
  let b := bandOf s band
  let base := b.saveArea + 0x10000000 * freeSlot s b
  if b.saveArea == 0 then s
  else ((bandImage s band).foldl (fun (a : State × Nat) w => (homeWrite a.1 a.2 w.1 w.2 b.launch 0 0 0, a.2 + 4)) (s, base)).1

/-- The open contexts of a band as its image shows them (R210), and whether none of them waits for a word of its streams. -/
def settleMills (s : State) (band : Nat) : State × Bool :=
  (bandTeams s band).foldl (fun a e => match e.2.mill with
    | some m =>
      let r := millSettled a.1 e.1 e.2 m
      (setTeam r.1 e.1 { e.2 with mill := some r.2.1 }, a.2 && match r.2.2 with
        | some .wait => false
        | _ => true)
    | none => a) (s, true)

/-- What the Mill has read beyond the cursors is discarded, and is read afresh on resumption (R210). -/
def Team.millAfresh (t : Team) : Team := { t with mill := t.mill.map fun m => { m with a := m.a.afresh, b := m.b.afresh } }

/-- Takes out a drained band whose open contexts are settled (R196). -/
def saveSettled (s : State) (band : Nat) : State :=
  let s := mapTeams s band fun t => { t.abandon with release := none, credit := false }
  let s := (bandOf s band).cores.foldl (fun s c => flushCore s c true) s
  let s := mapTeams (writeImage s band) band Team.millAfresh
  let b := bandOf s band
  let slot := freeSlot s b
  let banks := b.cores.map fun c => let x := coreOf s c
    ({ tab := x.tab, good := x.tabGood, active := x.tabActive } : Banks)
  let mine := fun (q : ArrayCmd) => q.crew / 16 == band
  let arrays := b.cores.flatMap fun c => (coreOf s c).queue.filter mine
  let s := b.cores.foldl (fun s c => setCore s c { coreOf s c with queue := (coreOf s c).queue.filter fun q => !mine q }) s
  let s := setBand s band { b with run := .saved, slot := slot, banks := banks, arrays := arrays }
  { s with cur := s.cur.filter fun k => bandKey k != band }

/-- Takes out a drained band, once the boundary searches that its image shows are made (R196, R210). -/
def saveBand (s : State) (band : Nat) : State :=
  let r := settleMills s band
  if r.2 then saveSettled r.1 band else r.1

/-- `PRE_EMPTION` (R196, R202, R325): a band that is to be pre-empted is saved, and one that is to halt or to stop for a debugger
stands still, once nothing holds it back. -/
def execPreEmption (band : Nat) (s : State) : Out :=
  match s.bands.lookup band with
  | none => .next s
  | some b => .next (if b.run == .stopping && drained s band then saveBand s band else standStill s band)

/-! ### Resumption -/

/-- Writes an entry of the L2P table in the tenant's memory, where its page translates (R287). -/
def putL2p (s : State) (tenant off : Nat) (w : Word) : State :=
  let t := tenantOf s tenant
  let die := (t.quads.headD (0, 0)).1
  match engineCheck s die tenant 4 (t.l2pb + BitVec.ofNat 64 off) .read with
  | .go (.mem pa key _) => homeWrite s pa w false 0 key 0 0
  | .wait va => { noteMiss s (144 * die) tenant va with late := true }
  | _ => s

/-- CENT n as the table holds it (R287). -/
def putCent (s : State) (tenant n : Nat) : State :=
  let t := tenantOf s tenant
  let c := t.cents.getD n 0
  putL2p s tenant (16 + 4 * t.quads.length + 4 * n) (BitVec.ofNat 32 (c % 144 + c / 144 * 256))

/-- The L2P table of a partition in the tenant's memory (R287). -/
def writeL2p (s : State) (tenant : Nat) : State :=
  let t := tenantOf s tenant
  let dies := tenantDies s tenant
  let s := [t.quads.length, t.cents.length, dies.length, 0].zipIdx.foldl (fun s w => putL2p s tenant (4 * w.2) (BitVec.ofNat 32 w.1)) s
  let s := t.quads.zipIdx.foldl (fun s q =>
    putL2p s tenant (16 + 4 * q.2) (BitVec.ofNat 32 (q.1.2 + q.1.1 * 2 ^ 8 + (dieQuads s tenant q.1.1).idxOf q.1 * 2 ^ 16 +
      dies.idxOf q.1.1 * 2 ^ 24))) s
  (List.range t.cents.length).foldl (fun s n => putCent s tenant n) s

/-- The GL9 exchanges two CENT entries for a core that a band leaves (R287, R288): entry `i`, whose number its teams hold, takes the core
`n`, and the entry that named `n` takes what entry `i` named. -/
def exchangeCent (s : State) (tenant i n : Nat) : State :=
  let t := tenantOf s tenant
  let j := t.cents.idxOf n
  if i = j ∨ i ≥ t.cents.length ∨ j ≥ t.cents.length then s
  else
    let s := setTenant s tenant { t with cents := (t.cents.set i n).set j (t.cents.getD i 0) }
    putCent (putCent s tenant i) tenant j

/-- A saved band takes new cores with the state it left (R198, R199, R288, R299, R302), unless work of a higher priority comes first
(R294). -/
def resumeBand (band : Nat) (s : State) : State :=
  match s.bands.lookup band with
  | none => s
  | some b =>
    if !mayResume s band b || placesAbove s b.prio || resumesAbove s b.prio then s
    else match resumeLayout s band with
    | none => s
    | some groups =>
      let number := fun (g : Nat × Nat × List (Nat × List Nat)) => (crewOf s ((g.2.2.headD (0, [])).1)).lcore
      let s := (groups.map fun g => (number g, g.2.1)).foldl (fun s p => exchangeCent s b.tenant p.1 p.2) s
      let new := groups.map fun g => g.2.1
      let s := new.foldl (fun s c => takeCore (flushCore s c false) c b.tenant false) s
      let s := groups.foldl (fun s g => g.2.2.foldl (fun s c =>
        let s := setCrew s c.1 { crewOf s c.1 with core := g.2.1 }
        ((crewTeams s c.1).zip c.2).foldl (fun s t => setTeam s t.1.1 { t.1.2 with core := g.2.1, quarter := t.2 }) s) s) s
      let s := groups.foldl (fun s g =>
        let x := coreOf s g.2.1
        let k := b.banks.getD (b.cores.idxOf g.1) {}
        setCore s g.2.1 { x with tab := k.tab, tabGood := k.good, tabActive := k.active,
                                 queue := x.queue ++ b.arrays.filter fun q => (crewOf s q.crew).core == g.2.1 }) s
      let s := setBand s band { b with run := b.rests.getD .gang, rests := none, cores := new, banks := [], arrays := [] }
      let s := if b.rests.isNone && !(launchOf s b.launch).gang then letGo s band else s
      let s := if (launchOf s b.launch).pipe then setLaunch s b.launch { launchOf s b.launch with favour := none } else s
      let s := (s.services.filter fun r => bandKey r.team == band && r.reply.isSome).foldl (fun s r =>
        deliverReply s r.team (r.reply.getD 0)) s
      retune (gangReady { s with claims := s.claims.filter fun c => c != b.launch } b.launch) b.die

/-- `RESUMPTION` (R198, R199, R288, R299, R302). -/
def execResumption (band : Nat) (s : State) : Out := .next (attempt s (resumeBand band)).1

/-! ### The quantum (R300) -/

/-- The next band of a launch could be placed, or resumed, on the room there is. -/
def fitsNow (s : State) (id : Nat) (l : Launch) : Bool :=
  match nextStage s id l with
  | none => false
  | some g => match (stageBands s id g true).head? with
    | some b => (resumeLayout s b.1).isSome
    | none => (placeBand s l (l.stages.getD g {}).kernel true (coreRoom s id)).isSome

/-- The launch's next band fits once the bands that are to be pre-empted are out. -/
def fitsOnceOut (s : State) (id : Nat) (l : Launch) : Bool :=
  fitsNow { s with bands := s.bands.map fun e => if e.2.run == .stopping then (e.1, { e.2 with run := .saved }) else e } id l

/-- The band of a die that a quantum pre-empts first (R300): of the tenant's launches of lower priority the lowest, and of those the
band most recently started. -/
def quantumVictim (s : State) (l : Launch) (die : Nat) : Option (Nat × Band) :=
  (s.bands.filter fun e => e.2.tenant == l.tenant && e.2.die == die && decide (e.2.prio < l.prio) &&
      !([Run.saved, .stopping, .halting, .breaking, .halted, .stopped].contains e.2.run)).foldl
    (fun (a : Option (Nat × Band)) e => match a with
      | none => some e
      | some x => if e.2.prio < x.2.prio ∨ (e.2.prio = x.2.prio ∧ e.1 > x.1) then some e else some x) none

/-- The bands of a die that a quantum pre-empts, one after another, until the waiting band fits (R300). -/
def quantumOn (s : State) (id : Nat) (l : Launch) (die : Nat) : State :=
  (List.range s.bands.length).foldl (fun s _ =>
    if fitsOnceOut s id l then s
    else match quantumVictim s l die with
      | some v => beginPreempt s v.1 0
      | none => s) s

/-- `QUANTUM_EXPIRY` (R300): bands of lower priority are pre-empted on the first die on which the waiting band then fits; where there is
none, on every die that it may go to. -/
def execQuantumExpiry (die queue : Nat) (s : State) : Out :=
  match headOf s die queue, s.blocked.lookup (64 * die + queue) with
  | some (id, l), some (head, since) =>
    let quantum := bits (tenantOf s l.tenant).lqcfg.toNat 16 32
    if head ≠ id ∨ quantum = 0 ∨ s.tick - since ≤ 1000 * quantum ∨ (canPlace s id l).isSome ∨ nextStage s id l = none ∨
        (l.gang ∧ gatheringGang s l.tenant ≠ some id) then .next s
    else
      let dies := allowedDies s l.tenant l.packet
      let one := (dies.map fun d => quantumOn s id l d).find? fun x => fitsOnceOut x id l
      .next (match one with
        | some x => { x with claims := id :: x.claims.filter fun c => c != id }
        | none => dies.foldl (fun s d => quantumOn s id l d) s)
  | _, _ => .next s

/-! ### Balancer, ends -/

/-- `d(s)` of a stage (R305). -/
def stageFill (s : State) (l : Launch) (g : PipeStage) : State × Nat :=
  if g.inq == 0 then (s, 256)
  else
    let rd := fun s o => walkerRead s l.die l.tenant (g.inq + BitVec.ofNat 64 o)
    let (s, head) := rd s 0
    let (s, tail) := rd s 8
    let (s, flags) := rd s 24
    (s, ((tail.getD 0).toNat - (head.getD 0).toNat) * 256 / 2 ^ bits (flags.getD 0).toNat 32 32)

/-- One slot of a pipeline may move from a donor stage to a receiver (R305). -/
def balance (launch : Nat) (s : State) : State :=
  let l := launchOf s launch
  if !l.pipe || !l.read || l.ended then s
  else
    let (s, fills) := l.stages.foldl (fun (a : State × List Nat) g =>
      let (s, d) := stageFill a.1 l g
      (s, a.2 ++ [d])) (s, [])
    let info := l.stages.zipIdx.map fun g =>
      let res := (stageBands s launch g.2 false).length
      let saved := (stageBands s launch g.2 true).length
      (g.2, g.1, fills.getD g.2 0, res, decide (g.1.started < g.1.maxb) || decide (saved > 0))
    let donors := info.filter fun g => decide (g.2.2.2.1 > g.2.1.minb) && (decide (g.2.2.1 < 32) || g.2.1.waited)
    let takers := info.filter fun g => decide (g.2.2.2.1 < g.2.1.maxb) && !g.2.1.waited && decide (g.2.2.1 ≥ 128) && g.2.2.2.2
    let donor := donors.foldl (fun (a : Option (Nat × Nat)) g => match a with
      | none => some (g.1, g.2.2.1)
      | some x => if g.2.2.1 ≤ x.2 then some (g.1, g.2.2.1) else a) none
    let taker := takers.foldl (fun (a : Option (Nat × Nat)) g => match a with
      | none => some (g.1, g.2.2.1)
      | some x => if g.2.2.1 > x.2 then some (g.1, g.2.2.1) else a) none
    let s := setLaunch s launch { l with
      balanced := s.tick
      stages := l.stages.map fun g => { g with waited := false }
      favour := match donor, taker with
        | some x, some y => if x.1 = y.1 then l.favour else some y.1
        | _, _ => l.favour }
    match donor, taker with
    | some x, some y =>
      if x.1 = y.1 then s
      else match (stageBands s launch x.1 false).getLast? with
        | some b => beginPreempt s b.1 0
        | none => s
    | _, _ => s

/-- `STAGE_BALANCER` (R305). -/
def execStageBalancer (launch : Nat) (s : State) : Out := .next (attempt s (balance launch)).1

/-- Drops what the L1s hold after the boundary's writes (R346). -/
def dropL1s (s : State) : State := { s with cores := s.cores.map fun e => (e.1, { e.2 with l1 := [], epoch := e.2.epoch + 1 }) }

/-- Every dirty word of the module goes to its home, and every L1 is emptied (R346). -/
def boundary346 (s : State) : State :=
  let s := (s.cores.map fun e => e.1).foldl (fun s c => flushCore s c true) s
  dropL1s ((List.range 8).foldl flushL2 s)

/-- A home holds a write behind the host's answer or a block's procedure (R140, R369). -/
def homesHold (s : State) : Bool := (s.asks.any fun a => !a.writes.isEmpty) || s.blocks.any fun b => !b.writes.isEmpty

/-- `KERNEL_BOUNDARY` (R260, R346): after the last band of a launch has retired. The stamp waits until every dirty word has been
performed at its home. -/
def execKernelBoundary (launch : Nat) (s : State) : Out :=
  let l := launchOf s launch
  if l.read && !l.ended && l.stages.all fun g => g.retired == g.maxb then
    let s := boundary346 s
    if homesHold s then .next s
    else .next (setLaunch (launchStamp s launch false) launch { l with ended := true })
  else .next s

/-- `LAUNCH_END_FROM_OUTSIDE` (R260, R325): the management interface ends a launch; its stamp is written with ERR. -/
def execLaunchEndFromOutside (launch : Nat) (s : State) : Out :=
  match s.launches.lookup launch with
  | none => .next s
  | some l => if l.ended then .next s else .next (refuseLaunch (dropBands s fun _ b => b.launch == launch) launch)

/-- `PTRIG_FIRE` (R205): the named team's count has reached COUNT. -/
def execPtrigFire (band : Nat) (s : State) : Out :=
  match s.bands.lookup band with
  | none => .next s
  | some b =>
    let v := b.ptrig.toNat
    let named := 16 * (16 * band + bits v 36 4) + bits v 32 4
    match s.teams.lookup named with
    | none => .next s
    | some t =>
      if bit v 63 && decide (t.count ≥ bits v 0 32) && b.run == .going then
        let s := setTeam s named { t with dbgst := 7 }
        .next (beginPreempt (setBand s band { b with ptrig := BitVec.ofNat 64 (v - 2 ^ 63) }) band 1)
      else .next s

end Sys2Proof.Machine
end

