-- ==== Sys2Proof/Machine/Debug.lean ====
section
/-! DEFINITION. The steps of traps that wait (R185, R191), instruction words and fetches that trap (R51, R167), and the debugger's
acts (R200 to R204, R325, R400). -/

namespace Sys2Proof.Machine

/-! ### Traps -/

/-- A trap of a team that no producer holds back any more (R185). -/
def readyTrap (s : State) (team : Nat) : Option (Team × TrapReq) :=
  match s.teams.lookup team with
  | none => none
  | some t => t.trapping.bind fun q => if outstanding s team then none else some ({ t with trapping := none }, q)

/-- `TRAP_ENTRY` (R151, R185, R187): a trap that has waited for the team's producers. -/
def execTrapEntry (team : Nat) (s : State) : Out :=
  .next (match readyTrap s team with
    | some (t, q) => if t.restarts q.cause then s else takeTrap s team t q
    | none => s)

/-- `REGION_RESTART` (R191): a restart that has waited for the team's producers. -/
def execRegionRestart (team : Nat) (s : State) : Out :=
  .next (match readyTrap s team with
    | some (t, q) => if t.restarts q.cause then restartRegion s team t else s
    | none => s)

/-- `UNASSIGNED_OPCODE` (R51): a word of class 111, or of an opcode that is not assigned, traps ILLOP. -/
def execUnassignedOpcode (_w : Word) (s : State) : Out := withTeam s fun k t => illop s k t

/-- `INSTRUCTION_FETCH_FAULT` (R167): the fetch at the team's PC traps, with TEPC at that address. -/
def execInstructionFetchFault (cause : BitVec 8) (s : State) : Out :=
  withTeam s fun k t =>
    raise (useDenials s (bandOf s (bandKey k)).tenant [t.pc]) k t cause.toNat [{ cause := cause.toNat, addr := t.pc, flags := 4 }]

/-! ### The debugger -/

/-- The band of a team is stopped for its debugger. -/
def stoppedTeam (s : State) (team : Nat) : Option Team :=
  match s.teams.lookup team with
  | some t => if (bandOf s (bandKey team)).run == .stopped then some t else none
  | none => none

/-- Lets a stopped team issue one instruction (R203). -/
def stepTeam (s : State) (team : Nat) : State :=
  match stoppedTeam s team with
  | some t => { setTeam s team { t with credit := true, stepping := 1, stepLane := none } with cur := some team }
  | none => s

/-- Lets a stopped team issue until a lane has been active at an issue; a lane that is not live ends the step-lane at once (R204). -/
def stepTeamLane (s : State) (team lane : Nat) : State :=
  match stoppedTeam s team with
  | some t =>
    if bit t.live.toNat lane then
      { setTeam s team { t with credit := true, stepping := 2, stepLane := some lane } with cur := some team }
    else setTeam s team { t with dbgst := 3 }
  | none => s

/-- A stopped band begins the next step that it has been asked for, once no step of it is under way: every other team of the band stays
stopped (R203). -/
def serveBand (s : State) (band : Nat) : State :=
  let ts := bandTeams s band
  if (bandOf s band).run != .stopped || ts.any fun e => e.2.stepping != 0 then s
  else match ts.findSome? fun e => e.2.stepAsked.map fun r => (e.1, r) with
    | some (k, r) =>
      let s := setTeam s k { teamOf s k with stepAsked := none }
      match r with
      | none => stepTeam s k
      | some L => stepTeamLane s k L
    | none => s

/-- A stopped team is asked to step. -/
def askStep (s : State) (team : Nat) (r : Option Nat) : State :=
  match stoppedTeam s team with
  | some t => serveBand (setTeam s team { t with stepAsked := some r }) (bandKey team)
  | none => s

/-- `DEBUG_STEP` (R200, R203): a stopped team whose DBGCTL.STEP is 1. -/
def execDebugStep (team : Nat) (s : State) : Out :=
  .next (if bit (teamOf s team).dbgctl.toNat 0 then askStep s team none else s)

/-- `STEP_LANE` (R200, R204). -/
def execStepLane (team lane : Nat) (s : State) : Out :=
  .next (if bit (teamOf s team).dbgctl.toNat 1 then askStep s team (some lane) else s)

/-- `STEP_ABORT` (R203): the team is left as pre-emption leaves it. -/
def execStepAbort (team : Nat) (s : State) : Out :=
  .next (match stoppedTeam s team with
    | some t => setTeam s team { t.abandon with credit := false, stepping := 0, stepLane := none, release := none }
    | none => s)

/-- A step that has issued ends once its hold has ended: DBGST records it, or the step-lane goes on (R203, R204). -/
def Team.closeStep (t : Team) : Team :=
  if t.stepping == 0 || t.credit || t.hold != .free || t.trapping.isSome then t
  else if t.stepLane.isSome then { t with credit := true }
  else { t with stepping := 0, dbgst := BitVec.ofNat 64 t.stepping }

/-- The steps that are over end, and a band begins the next one that it has been asked for (R203). -/
def closeSteps (s : State) : State :=
  let s : State := { s with teams := s.teams.map fun e => (e.1, e.2.closeStep) }
  ((s.bands.filter fun e => e.2.run == .stopped).map fun e => e.1).foldl serveBand s

/-- `DEBUGGER_ATTACH` (R200, R202, R400): the band's debug events stop it from now on, and it is pre-empted for the debugger with
REASON 2 (R197). -/
def execDebuggerAttach (band : Nat) (s : State) : Out :=
  match s.bands.lookup band with
  | none => .next s
  | some b =>
    let s := mapTeams (setBand s band { b with attached := true }) band fun t => { t with dbgctl := t.dbgctl ||| BitVec.ofNat 64 (2 ^ 14) }
    .next (if b.run == .going then beginPreempt s band 2 else s)

/-- `BAND_RESUME` (R202, R203, R325, R400): a halted or stopped band goes on; teams with STEP or SLN set are stepped instead. -/
def execBandResume (band : Nat) (s : State) : Out :=
  match s.bands.lookup band with
  | none => .next s
  | some b =>
    if (b.run != .halted && b.run != .stopped) || (dieOf s b.die).off || s.alarm.isSome then .next s
    else .next (serveBand (letGo s band) band)

end Sys2Proof.Machine
end

