-- ==== Sys2Proof/Machine/Homes.lean ====
section
/-! DEFINITION. The steps of the word path between a core and a home (R9 to R13, R129, R135, R136): admission to the collector,
requests at an L2 slice and at a home, bursts with their CRC, replays and retraining (R142), the block procedure (R140), fills
(R12) and publications (R133). -/

namespace Sys2Proof.Machine

/-! ### The collector -/

/-- A word enters the collector: the L1 serves it, or a miss does, or the fill that is bringing it to the core. -/
def admitWord (s : State) (o : LoadOp) (w : WordReq) : State × WordReq :=
  let s := mendL1 s o.core w.pa
  match held (l1Of s o.core) w.pa with
  | some d =>
    if o.point == .l1 || heldDirty (l1Of s o.core) w.pa then
      (setL1 s o.core (touch (l1Of s o.core) w.pa o.hint), { w with stage := .here d })
    else miss s
  | none => miss s
where
  miss (s : State) : State × WordReq :=
    let m := (bringing s o.core w.pa).head?
    (enterMiss s o.core (bandOf s (bandKey o.team)).tenant o.point o.hint w.key w.pa,
      { w with stage := .flying, epoch := (coreOf s o.core).epoch, via := (m.map fun m => m.point).getD o.point,
               stored := m.bind fun m => m.since.lookup (wordIx w.pa) })

/-- `REQUEST_COLLECTOR_ADMISSION` (R129): the lowest waiting row of the core's oldest waiting load enters, once the 256 entries
have room for all of its lanes. -/
def execRequestCollectorAdmission (core : Nat) (s : State) : Out :=
  match s.loads.find? fun o => o.core == core && o.words.any fun w => w.stage == .waiting with
  | none => .next s
  | some o =>
    let waiting := o.words.filter fun w => w.stage == .waiting
    let row := waiting.foldl (fun r w => min r (w.lane / 32)) 31
    let mine := waiting.filter fun w => w.lane / 32 == row
    if collectorEntries s core + (mine.map fun w => w.lane).eraseDups.length > 256 ∨ (!o.atomic ∧ mine.any fun w => fillWaits s o.core o.point w.pa) then .next s
    else if o.atomic then
      let ws := o.words.map fun w => if w.stage == .waiting && w.lane / 32 == row then { w with stage := .flying } else w
      .next (pumpAtoms { s with loads := s.loads.map fun x => if x.id == o.id then { x with words := ws } else x } o.id)
    else
      let (s, ws) := o.words.foldl (fun (a : State × List WordReq) w =>
        if w.stage == .waiting && w.lane / 32 == row then
          let (s, w) := admitWord a.1 o w
          (s, a.2 ++ [w])
        else (a.1, a.2 ++ [w])) (s, [])
      .next (finishLoads { s with loads := s.loads.map fun x => if x.id == o.id then { x with words := ws } else x })

/-- `MERGE_TIMEOUT` (R129): unsent request `idx` of a core leaves. -/
def execMergeTimeout (core idx : Nat) (s : State) : Out :=
  .next (match (s.misses.filter fun m => m.core == core && !m.sent)[idx]? with
    | some m => sendMiss s m
    | none => s)

/-! ### The L2 slice -/

/-- A home's words go back to the die that asked (R12, R135). -/
def deliverHome (s : State) (r : Req) (data : List (Nat × Datum)) : State :=
  let r := { r with mask := wordsMask (data.map fun x => x.1) }
  if data.isEmpty then s
  else if r.die == homeDie (r.sb * 256) then { s with fills := s.fills ++ [{ req := r, toL2 := true, data := data }] }
  else enqueueCut s (homeDie (r.sb * 256)) r.die 0 4 data 0 (fun g =>
    .reply { req := { r with mask := wordsMask (g.map fun x => x.1) }, toL2 := true, data := g }) fun x => x.2.bytes

/-- `L2_SLICE_REQUEST` (R9, R135): the slice serves the words it holds and forwards the others. A read at the home first moves
the die's own dirty copy there. -/
def execL2SliceRequest (idx : Nat) (s : State) : Out :=
  match s.l2q[idx]? with
  | none => .next s
  | some r =>
    let s := { s with l2q := s.l2q.eraseIdx idx }
    let word := fun i => r.sb * 256 + 4 * i
    let s := if r.point == .home then s else (maskWords r.mask).foldl (fun s i => mendL2 s r.die (word i)) s
    let hits := if r.point == .home then [] else (maskWords r.mask).filter fun i => (held (l2Of s r.die) (word i)).isSome
    let gone := (maskWords r.mask).filter fun i => !hits.contains i
    let data := hits.map fun i => (i, (held (l2Of s r.die) (word i)).getD .poison)
    let s := hits.foldl (fun s i => setL2 s r.die (touch (l2Of s r.die) (word i) r.hint)) s
    let s := if data.isEmpty then s else { s with fills := s.fills ++ [{ req := { r with mask := wordsMask hits }, data := data }] }
    let s := if r.point == .home then gone.foldl (fun s i => if heldDirty (l2Of s r.die) (word i) then purgeL2 s (word i) 0 else s) s else s
    let q := { r with mask := wordsMask gone }
    .next (if gone.isEmpty then s
      else if homeDie (r.sb * 256) == r.die then { s with homeq := s.homeq ++ [.read q] }
      else enqueueCut s r.die (homeDie (r.sb * 256)) 0 16 [q] 0 (fun g => .reads (g.headD q)) fun q => le (q.sb * 256) 8 ++ le q.mask.toNat 8)

/-! ### Homes and bursts -/

/-- Places an item, a word or a granule, in the earliest burst whose slots for its slices are free (R10, R144). -/
def placeItem (item : List Nat) : List (List Nat) → List (List Nat)
  | [] => [item]
  | b :: bs => if item.any fun pa => (b.map sliceOf).contains (sliceOf pa) then b :: placeItem item bs else (b ++ item) :: bs

/-- The bursts for the words of one window, in the order they are formed (R10); a sealed page moves whole granules (R144). -/
def formBursts (sealed : Bool) (pas : List Nat) : List (List Nat) :=
  let items := if sealed then ((pas.map fun pa => pa / 16 * 16).eraseDups).map fun g => (List.range 4).map fun i => g + 4 * i
    else pas.map fun pa => [pa]
  items.foldl (fun bs it => placeItem it bs) []

/-- A word whose slot result, held meanwhile, calls for the block procedure: memory gives the same result still (R136, R140). -/
def heldDoubt (s : State) (r : Req) (i : Nat) : Bool :=
  r.doubt.contains i && (readPlain s (r.sb * 256 + 4 * i) r.key fun _ => 0).2 == .block

/-- What the home holds of a word's slot still stands: memory has not been written since (R136). -/
def heldResult (s : State) (r : Req) (i : Nat) : Option Datum :=
  match r.got.lookup i with
  | some .uncorr => some .uncorr
  | some d => if (readCorrected s (r.sb * 256 + 4 * i) r.key).2 == d then some d else none
  | none => none

/-- The block procedures that some words of a request call for start, and the words wait for them (R140). -/
def callBlocks (s : State) (r : Req) (is : List Nat) : State :=
  let blocks := (is.map fun i => blockOf (r.sb * 256 + 4 * i)).eraseDups
  { s with blocks := s.blocks ++ blocks.map fun b =>
    { block := b, req := some { r with mask := wordsMask (is.filter fun i => blockOf (r.sb * 256 + 4 * i) == b), got := [], doubt := [] } } }

/-- What a home does at once with a read (R135, R136): words of the cache, of the view and of memory without a burst are answered, and so
are those whose slot result it has held until the host had no data for them. A request counts one miss (R134). The answer lists the DRAM words that the burst former is to
bring, and those that wait for the host while it brings them. -/
def homeTake (s : State) (r : Req) : State × List Nat × List Nat :=
  let word := fun i => r.sb * 256 + 4 * i
  let s := if region (r.sb * 256) == .view then s else (maskWords r.mask).foldl (fun s i => mendHome s (word i)) s
  let ready := (maskWords r.mask).filter fun i => homeReady s (word i) false
  let wait := (maskWords r.mask).filter fun i => !homeReady s (word i) false
  let isBurst := fun (s : State) i => region (word i) == .dram && (held (mscOf s (stackNo (word i))) (word i)).isNone
  let direct := ready.filter fun i => !isBurst s i
  let kept := ready.filter fun i => isBurst s i && (heldResult s r i).isSome
  let doubts := ready.filter fun i => isBurst s i && (heldResult s r i).isNone && heldDoubt s r i
  let drams := ready.filter fun i => isBurst s i && (heldResult s r i).isNone && !heldDoubt s r i
  let beside := wait.filter fun i => isBurst s i && !blockBusy s (word i) && (r.got.lookup i).isNone && !r.doubt.contains i
  let rest := wait.filter fun i => !beside.contains i
  let s := wait.foldl (fun s i => askHost s (word i) false) s
  let absent := direct.any fun i => region (word i) != .view && (held (mscOf s (stackNo (word i))) (word i)).isNone
  let s := if drams.isEmpty && beside.isEmpty && !absent then s else countMiss s (r.sb * 256) r.tenant
  let s := callBlocks s r doubts
  let (s, data) := direct.foldl (fun (a : State × List (Nat × Datum)) i =>
    let (s, d) := homeReadFor a.1 (word i) r.key r.hint r.tenant noTenant
    (s, a.2 ++ [(i, d)])) (s, [])
  let (s, data) := kept.foldl (fun (a : State × List (Nat × Datum)) i =>
    let d := (heldResult a.1 r i).getD .uncorr
    (match d with
      | .ok w => mscPut a.1 (word i) w false false r.key r.hint r.tenant 0
      | .poison => mscPut a.1 (word i) 0 true false r.key r.hint r.tenant 0
      | _ => a.1, a.2 ++ [(i, d)])) (s, data)
  let s := deliverHome s { r with got := [], doubt := [] } data
  (if rest.isEmpty then s else { s with homeq := s.homeq ++ [.read { r with mask := wordsMask rest }] }, drams, beside)

/-- Takes the reads of one window that are at its home: the burst former takes the words of all of them, in ascending order (R10, R117). -/
def homeReads (s : State) (rs : List Req) : State :=
  let (s, ps) := rs.foldl (fun (a : State × List (Req × List Nat × List Nat)) r =>
    let (s, p) := homeTake a.1 r
    (s, a.2 ++ [(r, p)])) (s, [])
  let base := (rs.headD {}).sb / 16 * 4096
  let wanted := ps.flatMap fun p => (p.2.1 ++ p.2.2).map fun i => p.1.sb * 256 + 4 * i
  let moved := ((List.range 1024).map fun i => base + 4 * i).filter wanted.contains
  let part := fun (b : List Nat) (r : Req) (is : List Nat) =>
    let mine := is.filter fun i => b.contains (r.sb * 256 + 4 * i)
    if mine.isEmpty then none else some { r with mask := wordsMask mine, got := [], doubt := [] }
  { s with bursts := s.bursts ++ (if moved.isEmpty then [] else formBursts (rs.any fun r => r.key != 0) moved).map fun b =>
    { reqs := ps.filterMap fun p => part b p.1 p.2.1, words := b,
      held := ps.filterMap fun p => (part b p.1 p.2.2).map fun r => { r with got := p.1.got, doubt := p.1.doubt } } }

/-- Takes an atomic at its home once every word of it can be written there (R119, R121). -/
def homeAtoms (s : State) (a : AtomReq) : State :=
  let pas := atomWords (atomWide a.mode) a.lanes
  if pas.all fun pa => updatableNow s pa then
    let (s, vals) := atomLanes s .home a
    let h := homeDie (pas.headD 0)
    if a.core / 144 == h then landAtoms s a.op vals
    else enqueueCut s h (a.core / 144) 5 16 vals 0 (fun g => .atomReply a.op g) fun v => le v.1 4 ++ le v.2.1 4 ++ v.2.2.bytes
  else
    let s := pas.foldl askBoth s
    { s with homeq := s.homeq ++ [.atoms a] }

/-- A read of the same window as another, with the same key. -/
def HomeItem.joins (q : HomeItem) (r : Req) : Bool :=
  match q with
  | .read x => x.sb / 16 == r.sb / 16 && x.key == r.key
  | .atoms _ => false

/-- `HOME_REQUEST` (R10, R135, R136): item `idx`; with a read, every other read of its window. -/
def execHomeRequest (idx : Nat) (s : State) : Out :=
  match s.homeq[idx]? with
  | none => .next s
  | some q =>
    let s := { s with homeq := s.homeq.eraseIdx idx }
    .next (match q with
      | .read r => homeReads { s with homeq := s.homeq.filter fun q => !q.joins r } (r :: s.homeq.filterMap fun q =>
          match q with
          | .read x => if q.joins r then some x else none
          | .atoms _ => none)
      | .atoms a => homeAtoms s a)

/-- What DRAM answers for words of a request: each word goes to the cache and on to its requester, or its block's procedure
starts (R12, R138, R140). A word the cache holds by now is newer. -/
def senseWords (s : State) (r : Req) (noise : Nat → Nat) : State :=
  let (s, data, jobs) := (maskWords r.mask).foldl (fun (a : State × List (Nat × Datum) × List Nat) i =>
    let pa := r.sb * 256 + 4 * i
    let a := (mendHome a.1 pa, a.2)
    match held (mscOf a.1 (stackNo pa)) pa with
    | some d => (setMsc a.1 (stackNo pa) (touch (mscOf a.1 (stackNo pa)) pa r.hint), a.2.1 ++ [(i, d)], a.2.2)
    | none =>
      if blockBusy a.1 pa then (a.1, a.2.1, a.2.2 ++ [i])
      else match (readPlain a.1 pa r.key noise).2 with
        | .word w => (mscPut a.1 pa w false false r.key r.hint r.tenant 0, a.2.1 ++ [(i, .ok w)], a.2.2)
        | .poison => (mscPut a.1 pa 0 true false r.key r.hint r.tenant 0, a.2.1 ++ [(i, .poison)], a.2.2)
        | .block => (a.1, a.2.1, a.2.2 ++ [i])) (s, [], [])
  callBlocks (deliverHome s r data) r jobs

/-- The words that a burst has brought are checked, each once (R138); its words that no request wants with the rest of their granule are
among them (R144). -/
def senseBurst (s : State) (ws : List Nat) (noise : Nat → Nat) : State := ws.foldl (fun s pa => (senseStored s pa (noise pa)).1) s

/-- The slot results of words that the host must answer for are held, and their request waits (R136). -/
def holdResults (s : State) (r : Req) (noise : Nat → Nat) : State :=
  let sensed := (maskWords r.mask).map fun i => (i, (readPlain s (r.sb * 256 + 4 * i) r.key noise).2)
  let got := sensed.filterMap fun x => match x.2 with
    | .word w => some (x.1, Datum.ok w)
    | .poison => some (x.1, .poison)
    | .block => none
  let doubt := sensed.filterMap fun x => if x.2 == .block then some x.1 else none
  { s with homeq := s.homeq ++ [.read { r with got := r.got ++ got, doubt := r.doubt ++ doubt }] }

/-- The CRC of a burst as read with the wrong bits of its transfer differs from the CRC that follows it (R142). -/
def crcDiffers (s : State) (ws : List Nat) (noise : Nat → Nat) : Bool :=
  let slot := fun (n : Nat → Nat) i => match ws.find? fun pa => sliceOf pa == i with
    | some pa => rawWord s pa (n pa)
    | none => ((0 : Word), 0)
  ws.any (fun pa => noise pa != 0) && crc16 (burstBits (slot noise)) != crc16 (burstBits (slot fun _ => 0))

/-- An interface error that replay and retraining did not cure (R142, R143, R385). -/
def interfaceLost (s : State) (pa : Nat) : State :=
  logRas (countPc s pa 6) { addr := pa, cls := 6, die := stackNo pa / 2, unit := stackNo pa }

/-- `BURST_READ` (R138, R142): burst `idx` returns. `flips` lists words with the bits, of 32 data and 8 check bits, that the
transfer changed, and `crcBad` says that its CRC was changed as well. -/
def execBurstRead (idx : Nat) (crcBad : Bool) (flips : List (Nat × Nat)) (s : State) : Out :=
  match s.bursts[idx]? with
  | none => .next s
  | some b =>
    let noise := fun pa => (flips.lookup pa).getD 0 % 2 ^ 40
    let pa0 := b.words.headD 0
    let s' := { s with bursts := s.bursts.eraseIdx idx }
    if retrains s pa0 then .next s
    else if crcBad || crcDiffers s b.words noise then
      if b.tries < 3 then .next (countPc { s with bursts := s.bursts.set idx { b with tries := b.tries + 1 } } pa0 5)
      else if b.tries = 3 then .next { s with bursts := s.bursts.set idx { b with retraining := true } }
      else .next (lost s' b)
    else
      let s := b.held.foldl (fun s r => holdResults s r noise) (senseBurst s' b.words noise)
      .next (b.reqs.foldl (fun s r => senseWords s r noise) s)
where
  /-- A read that still fails after retraining delivers UNCORR for its words. -/
  lost (s : State) (b : Burst) : State :=
    let s := b.reqs.foldl (fun s r => deliverHome s r ((maskWords r.mask).map fun i => (i, Datum.uncorr))) (interfaceLost s (b.words.headD 0))
    { s with homeq := s.homeq ++ b.held.map fun r => .read { r with got := (maskWords r.mask).map fun i => (i, Datum.uncorr) } }

/-! ### Interface errors of writes -/

/-- The bank sets of a pseudo-channel are retired (R148): removal is reported and replacement requested. -/
def retireChannel (s : State) (stack pc : Nat) : State :=
  let d := dram s stack
  let sets := (List.range 4).map (4 * pc + ·)
  let new := sets.filter fun x => !d.retiring.contains x && !d.retired.contains x
  requestReplacement (logRas (setDram s stack { d with retiring := d.retiring ++ new }) { cls := retiredClass, die := stack / 2, unit := stack, act := 3 })

/-- `WRITE_REPLAY` (R142): the stack reports a CRC mismatch of the write of the word at `pa`, and the controller replays it; `bad`
says that the replay fails too. -/
def execWriteReplay (pa : Nat) (bad : Bool) (s : State) : Out :=
  let j := (s.writeJobs.find? fun j => j.pa == pa).getD { pa := pa }
  if region pa != .dram || retrains s pa then .next s
  else
    let rest := s.writeJobs.filter fun x => x.pa != pa
    .next (countPc { s with writeJobs := if bad then rest ++ [{ j with tries := j.tries + 1 }] else rest } pa 5)

/-- What has waited for the retraining of a pseudo-channel goes on (R142). -/
def resumeRetrained (s : State) : State :=
  let (go, stay) := s.blocks.partition fun b => !b.proc && !retrains s (b.block * 512)
  (go.flatMap fun b => b.writes).foldl performHeld { s with blocks := stay }

/-- `RETRAIN` (R142): the retraining for failing access `idx`, the bursts first and the writes after them, ends and the access is
retried once; `ok` is whether the retry passes. A write is retried after a second retraining, and its pseudo-channel is retired
when that fails too. -/
def execRetrain (idx : Nat) (ok : Bool) (s : State) : Out :=
  let bs := s.bursts.zipIdx.filter fun b => b.1.retraining
  match bs[idx]? with
  | some (b, i) =>
    let b := { b with retraining := false, tries := 4 }
    .next (resumeRetrained (if ok then { s with bursts := s.bursts.set i b }
      else execBurstRead.lost { s with bursts := s.bursts.eraseIdx i } b))
  | none =>
    match (s.writeJobs.zipIdx.filter fun j => decide (j.1.tries ≥ 3))[idx - bs.length]? with
    | none => .next s
    | some (j, i) =>
      .next (resumeRetrained (if ok then { s with writeJobs := s.writeJobs.eraseIdx i }
        else if j.retrains = 0 then { s with writeJobs := s.writeJobs.set i { j with retrains := 1 } }
        else retireChannel (interfaceLost { s with writeJobs := s.writeJobs.eraseIdx i } j.pa) (stackNo j.pa) (pseudoChannel j.pa)))

/-! ### The block procedure -/

/-- `BLOCK_PROCEDURE` (R140): job `idx`, then every read and every write that has waited for its block since. -/
def execBlockProcedure (idx : Nat) (s : State) : Out :=
  match s.blocks[idx]? with
  | none => .next s
  | some j =>
    let mine := s.blocks.filter fun b => b.block == j.block
    if !mine.any fun b => b.proc then .next s else
    let reqs := mine.filterMap fun b => b.req
    let (s, bad) := blockAtHome { s with blocks := s.blocks.filter fun b => b.block != j.block } j.block
    let writes := mine.flatMap fun b => b.writes
    let jobs := s.blocks
    let s := { s with blocks := [] }
    let s := reqs.foldl (fun s r =>
      let lost := (maskWords r.mask).filter fun i => bad.contains (r.sb * 256 + 4 * i)
      let s := deliverHome s r (lost.map fun i => (i, Datum.uncorr))
      senseWords s { r with mask := wordsMask ((maskWords r.mask).filter fun i => !lost.contains i) } fun _ => 0) s
    .next (writes.foldl performHeld { s with blocks := jobs ++ s.blocks })

/-! ### Fills -/

/-- Clears the words of a fill from the requests it answers. -/
def clearMisses (s : State) (r : Req) (is : List Nat) : State :=
  { s with misses := (s.misses.map fun m => if m.core == r.core && m.sb == r.sb && m.point == r.point && m.epoch == r.epoch && m.sent then
      { m with mask := is.foldl (fun x i => setBit64 x i false) m.mask } else m).filter fun m => m.mask != 0 }

/-- Whether a word of a fill may become valid in the L1: its request is of the L1, of this epoch, and the core has not written
the word since (R12, R122). -/
def mayInstall (s : State) (r : Req) (i : Nat) : Bool :=
  r.point == .l1 && r.epoch == (coreOf s r.core).epoch &&
    s.misses.any fun m => m.core == r.core && m.sb == r.sb && m.point == .l1 && m.epoch == r.epoch && m.sent && bit m.mask.toNat i && bit m.install.toNat i

/-- A fill at the L2 slice (R12): good words become valid there, but for a bypassing load and for a word that the home has changed
since; it then goes on to the L1. A word dirty in the slice gives its own value to a read served there. -/
def fillL2 (s : State) (f : Fill) : State :=
  let r := f.req
  let (s, data) := f.data.foldl (fun (a : State × List (Nat × Datum)) x =>
    let pa := r.sb * 256 + 4 * x.1
    match x.2, held (l2Of a.1 r.die) pa with
    | d, some h => (a.1, a.2 ++ [(x.1, if r.point == .home then d else h)])
    | .ok w, none =>
      (if homePeek a.1 pa r.key != .ok w then a.1 else l2Fill a.1 r.die pa w r.key r.hint,
        a.2 ++ [(x.1, .ok w)])
    | d, none => (a.1, a.2 ++ [(x.1, d)])) (s, [])
  { s with fills := s.fills ++ [{ f with toL2 := false, data := data }] }

/-- A fill at a core (R12, R13): its words become valid in the L1 and reach the lanes that wait for them. -/
def fillCore (s : State) (f : Fill) : State :=
  let r := f.req
  let s' := f.data.foldl (fun s x => match x.2 with
    | .ok w => if mayInstall s r x.1 then l1Fill s r.core (r.sb * 256 + 4 * x.1) w false r.key r.hint else s
    | _ => s) s
  finishLoads (clearMisses (land s' r f.data) r (f.data.map fun x => x.1))

/-- `FILL` (R12): fill `idx` arrives at its level. -/
def execFill (idx : Nat) (s : State) : Out :=
  match s.fills[idx]? with
  | none => .next s
  | some f =>
    let s := { s with fills := s.fills.eraseIdx idx }
    .next (if f.toL2 then fillL2 s f else fillCore s f)

/-! ### Publications -/

/-- `PUBLICATION` (R133, R135): publication `idx` arrives at its next point, behind the core's earlier ones of the word. One for a
home passes its die's slice first, and goes to another die as a message of class 1 (R363). -/
def execPublication (idx : Nat) (s : State) : Out :=
  match s.pubs[idx]? with
  | none => .next s
  | some p =>
    if p.sent || (s.pubs.take idx).any fun q => q.core == p.core && q.pa == p.pa then .next s
    else if !p.toHome then .next (performPub s p)
    else if !p.passed then .next { s with pubs := s.pubs.set idx { p with passed := true } }
    else if homeDie p.pa == p.die then .next (performPub s p)
    else
      let s := { s with pubs := s.pubs.set idx { p with sent := true } }
      .next (enqueueCut s p.die (homeDie p.pa) 1 16 [p.uid] (if p.launch = 0 then 0 else p.launch + 1) Cargo.pubs fun _ => le p.pa 8 ++ le p.w.toNat 4)

end Sys2Proof.Machine
end

