-- ==== Sys2Proof/Machine/Drams.lean ====
section
/-! DEFINITION. The steps that keep the DRAM stacks in order (R147 to R149, R384, R386): scrubs, spare-ins, retirement, deep
retention and hot-adds; and the completion of a translation walk (R376). -/

namespace Sys2Proof.Machine

/-- Reads the words that `p` names, corrects them by R138 and R140 and rewrites those that `w` names, as they were read, with the deltas of
their blocks (R141, R386). -/
def scrub (s : State) (p w : Nat → Bool) : State :=
  let pas := (s.flips.map fun e => e.1).filter fun pa => p pa && !retiredAt s pa
  let s := pas.foldl (fun s pa =>
    match senseStored s pa 0 with
    | (s, .word x) => if w pa then stored s pa x else s
    | (s, .poison) => s
    | (s, .block) => (blockAtHome s (blockOf pa)).1) s
  let blocks := (List.range 16).flatMap fun k => ((dram s k).deltas.map fun e => e.1).filter fun b => p (b * 512)
  blocks.foldl flushDelta s

/-- `BACKGROUND_SCRUB` (R386): every window of a stack. -/
def execBackgroundScrub (stack : Nat) (s : State) : Out :=
  .next (scrub s (fun pa => region pa == .dram && stackNo pa == stack) fun _ => true)

/-- `SLICE_COUNT_CLEAR` (R384): a new period of 24 hours begins. -/
def execSliceCountClear (stack : Nat) (s : State) : Out :=
  .next (setDram s stack { dram s stack with slices := [] })

/-- `SPARE_IN` (R147, R148): a slice has reached the threshold or failed outright. The first in its pseudo-channel starts to be
copied; a second, of another slice or after the spare is in use, retires the pseudo-channel's bank sets. -/
def execSpareIn (stack pc slice : Nat) (s : State) : Out :=
  let d := dram s stack
  if stack ≥ 16 ∨ pc ≥ 512 ∨ slice ≥ 16 then .next s
  else if d.sparing.lookup pc = some slice then .next s
  else if (d.spared.lookup pc).isSome ∨ (d.sparing.lookup pc).isSome then .next (retireChannel s stack pc)
  else .next (setDram s stack { d with sparing := setAt d.sparing pc slice })

/-- `SPARE_IN_COMPLETE` (R147): the copy has read every window of the pseudo-channel, correcting, and the spare takes the slice's
number. -/
def execSpareInComplete (stack pc : Nat) (s : State) : Out :=
  match (dram s stack).sparing.lookup pc with
  | none => .next s
  | some slice =>
    let mine := fun pa => region pa == .dram && stackNo pa == stack && pseudoChannel pa == pc
    let s := scrub s mine fun pa => sliceOf pa == slice
    let d := dram s stack
    let key := 8 * pc + 7
    let s := setDram s stack { d with
      sparing := drop d.sparing pc
      spared := setAt d.spared pc slice
      counts := setAt d.counts key (min (look 0 d.counts key + 1) 0xFFFFFFFF) }
    .next (logRas s { cls := 7, die := stack / 2, unit := stack, act := 3 })

/-- `HOT_REMOVE_ACKNOWLEDGE` (R148): the removal of a bank set is acknowledged. -/
def execHotRemoveAcknowledge (stack pc bankSet : Nat) (s : State) : Out :=
  let d := dram s stack
  let x := 4 * pc + bankSet
  if bankSet < 4 ∧ d.retiring.contains x then
    .next (setDram s stack { d with retiring := d.retiring.filter fun y => y != x, retired := x :: d.retired })
  else .next s

/-- A superblock of the windows that deep retention powers down. -/
def deepBlock (stack sb : Nat) : Bool := region (sb * 256) == .dram && stackNo (sb * 256) == stack && bankSet (sb * 256) == 3

/-- The module reports a change of its capacity: a hot-remove or a hot-add of windows of a stack (R148, R149, R385). -/
def capacityChange (s : State) (stack : Nat) : State := logRas s { cls := capacityClass, die := stack / 2, unit := stack }

/-- A bank set 3 is powered down (R149): the home writes back its dirty words and deltas and drops its lines. -/
def deepRetire (s : State) (stack : Nat) : State :=
  let s := ((mscOf s stack).filter fun e => deepBlock stack e.1).foldl mscEvict s
  let s := (((dram s stack).deltas.map fun e => e.1).filter fun b => deepBlock stack (b * 2)).foldl flushDelta s
  capacityChange (setDram s stack { dram s stack with
    msc := (mscOf s stack).filter fun e => !deepBlock stack e.1, deep := true }) stack

/-- `HOT_ADD` (R149): the bank sets are powered up, and every window is written with zero, clean codes and parity. -/
def execHotAdd (stack : Nat) (s : State) : Out :=
  let d := dram s stack
  if !d.deep then .next s
  else
    let mine := fun pa => deepBlock stack (pa / 256)
    .next (capacityChange (setDram { s with
      mem := s.mem.filter fun c => !mine c.1
      memPoison := s.memPoison.filter fun pa => !mine pa
      flips := s.flips.filter fun e => !mine e.1
      slots := s.slots.filter fun e => !mine (e.1 * 512) } stack
        { d with deep := false, deltas := d.deltas.filter fun e => !mine (e.1 * 512), msc := d.msc.filter fun e => !deepBlock stack e.1 }) stack)

/-- A walker reads a table entry at its home, both words: what the word code finds is counted, and the block procedure runs where it calls
for it (R138, R140, R143, R376). -/
def readEntry (s : State) (e : Nat) : State :=
  [e, e + 4].foldl (fun s a =>
    let (s, d) := homeRead s a 0 0 noTenant
    consume s a d) s

/-- `PAGE_WALK` (R373, R376): a walk of the core completes. Its translation is entered unless a `tlbi` has begun since; a walk that
fails enters nothing. -/
def execPageWalk (core va : Nat) (s : State) : Out :=
  match s.walks.find? fun w => w.core == core && w.va / 65536 == va / 65536 with
  | none => .next s
  | some w => match walkLate s w.tenant w.va with
    | some e => .next (askHost s e false)
    | none =>
      let s := (walkReads s w.tenant w.va).foldl readEntry s
      let ls := walk s w.tenant w.va
      let leaf := pickLeaf s ls
      let s := { s with walks := s.walks.erase w, fresh := if ls.length > 1 then s.fresh + 1 else s.fresh }
      .next (if w.overlapped then s
        else match leaf with
          | some t => enterTrans s core t
          | none => s)

end Sys2Proof.Machine
end

