-- ==== Sys2Proof/Machine/Sparge.lean ====
section
/-! DEFINITION. Sparge messages between the dies of the module (R332 to R334, R355 to R363): paths, the sending of fragments with
SPINJ's faults, their acceptance, acknowledgements, repair and loss. -/

namespace Sys2Proof.Machine

/-! ### Paths -/

/-- The links of path `i` from die `a` to die `b`, for every path of the pair (R358). -/
def paths (a b : Nat) : List (List (Nat × Nat)) :=
  let t := a ^^^ b
  let via := fun u => [(a, a ^^^ u), (a ^^^ u, b)]
  if t = 7 then [via 1, via 2, via 3]
  else [(a, b)] :: (((span 1 6).filter fun u => u != t && u != (t ^^^ 7)).take 3).map via

def linkDead (s : State) (l : Nat × Nat) : Bool := s.deadLinks.contains l || s.deadLinks.contains (l.2, l.1)
def pathAlive (s : State) (p : List (Nat × Nat)) : Bool := p.all fun l => !linkDead s l

/-- The path numbers that a message of a class may use, in ascending order: those CRATEn allows and, where it allows none, every
one; a removed link takes its paths away (R320, R358, R359). -/
def usablePaths (s : State) (src dst cls : Nat) : List Nat :=
  let alive := (List.range (paths src dst).length).filter fun i => pathAlive s ((paths src dst).getD i [])
  let allowed := alive.filter fun i => bit (crateOf s src cls).toNat (8 + i)
  if allowed.isEmpty then alive else allowed

/-! ### Fragments -/

/-- Data fragments of a message of `len` bytes (R332). -/
def dataFragments (len : Nat) : Nat :=
  let n := (len + 63) / 64
  if n ≤ 1 then 1 else if n ≤ 2 then 2 else if n ≤ 4 then 4 else if n ≤ 8 then 8 else 16

/-- The header bytes 0 to 11 of a fragment within module `m` (R355). -/
def headerBytes (module : Nat) (f : Frag) : List Nat :=
  let log := ((List.range 5).find? fun i => 2 ^ i == f.msg.k).getD 0
  ((leBytes f.msg.id 2 ++ leBytes (f.msg.src + 8 * module) 2 ++ leBytes (f.msg.dst + 8 * module) 2).map BitVec.toNat) ++
    [f.msg.cls + 8 * f.msg.m, log, f.index, f.path] ++ (leBytes f.msg.len 2).map BitVec.toNat

/-- Bytes 64f to 64f + 63 of the payload, padded with zeros (R332). -/
def payloadBytes (m : Msg) (f : Nat) : List Nat := (List.range 64).map fun j => m.data.getD (64 * f + j) 0

/-- The payload of a message's fragment `f`: data, or parity (R332, R357). -/
def fragPayload (m : Msg) (f : Nat) : List Nat :=
  if f < m.k then payloadBytes m f else rsParity (f - m.k) ((List.range m.k).map (payloadBytes m))

/-- A fragment of a message on a path. -/
def fragOf (m : Msg) (f path : Nat) : Frag := { msg := m, index := f, path := path, bytes := fragPayload m f }

/-- The CRC of a fragment (R355, R356). -/
def fragCrc (module : Nat) (f : Frag) : Nat := crc32c (headerBytes module f ++ f.bytes)

/-- The 80 bytes of a fragment (R355). -/
def fragImage (module : Nat) (f : Frag) : List Nat := headerBytes module f ++ (leBytes (fragCrc module f) 4).map BitVec.toNat ++ f.bytes

/-- The bytes that arrive where the bits of `flips` have changed on the way. -/
def flipBytes (bs : List Nat) (flips : BitVec 640) : List Nat := bs.zipIdx.map fun b => b.1 ^^^ bits flips.toNat (8 * b.2) 8

/-- What R356 asks of the bytes of a fragment. -/
def imageValid (bs : List Nat) : Bool :=
  let b := fun i => bs.getD i 0
  let k := 2 ^ bits (b 7) 0 3
  let m := bits (b 6) 3 3
  let len := b 10 + 256 * b 11
  crc32c (bs.take 12 ++ bs.drop 16) == b 12 + 256 * b 13 + 65536 * b 14 + 16777216 * b 15 &&
    decide (bits (b 3) 5 3 = 0 ∧ bits (b 5) 5 3 = 0 ∧ bits (b 6) 6 2 = 0 ∧ bits (b 7) 3 5 = 0 ∧
      bits (b 7) 0 3 ≤ 4 ∧ m ≤ 4 ∧ b 8 < k + m ∧ 1 ≤ len ∧ len ≤ 1024 ∧ len ≤ 64 * k)

/-- A fragment as the bytes that arrive describe it (R355). -/
def Frag.asRead (f : Frag) (bs : List Nat) : Frag :=
  let b := fun i => bs.getD i 0
  { f with
    msg := { f.msg with id := b 0 + 256 * b 1, src := bits (b 2) 0 3, dst := bits (b 4) 0 3, cls := bits (b 6) 0 3, m := bits (b 6) 3 3,
                        k := 2 ^ bits (b 7) 0 3, len := b 10 + 256 * b 11 }
    index := b 8
    path := b 9
    bytes := bs.drop 16 }

/-! ### Sending -/

/-- The unit number of a die in the counters (R384). -/
def dieUnit (die : Nat) : Nat := 70000 + die

/-- Which fragments SPINJ drops and delays of the next message of its class for its destination (R321, R334). -/
def injection (s : State) (m : Msg) : Option (List Nat × List Nat) :=
  let x := (look 0 s.spinj m.src).toNat
  if bit x 0 && bits x 1 3 == m.cls && bits x 4 3 == m.dst then
    let a := (bits x 7 5, bit x 12)
    let acts := a :: if bit x 13 && bits x 14 5 != bits x 7 5 then [(bits x 14 5, bit x 19)] else []
    some ((acts.filter fun y => !y.2).map fun y => y.1, (acts.filter fun y => y.2).map fun y => y.1)
  else none

/-- The sender's series of numbers for a destination (R360), and the receiver's window for a sender (R361). -/
def seriesKey (m : Msg) : Nat := 8 * m.src + m.dst
def windowKey (m : Msg) : Nat := 8 * m.dst + m.src

/-- `MESSAGE_SEND` (R332, R334, R360): message `idx` of those a die has not sent leaves, unless an earlier one for its destination
waits or 128 are unacknowledged. Class 7 is not retained. -/
def execMessageSend (die idx : Nat) (s : State) : Out :=
  match (s.msgs.filter fun m => m.src == die && !m.sent)[idx]? with
  | none => .next s
  | some m =>
    let at' := s.msgs.idxOf m
    let peers := s.msgs.filter fun x => x.src == m.src && x.dst == m.dst && x.cls != 7
    let ps := usablePaths s m.src m.dst m.cls
    if ps.isEmpty ∨ (m.cls ≠ 7 ∧ ((peers.filter fun x => x.sent).length ≥ 128 ∨
        (s.msgs.take at').any fun x => x.src == m.src && x.dst == m.dst && x.cls != 7 && !x.sent)) then .next s
    else
      let id := look 0 s.nextId (seriesKey m) % 65536
      let m' : Msg := { m with id := id, k := dataFragments m.len, m := min (bits (crateOf s die m.cls).toNat 3 3) 4, sent := true }
      let inj := injection s m'
      let dropped := (inj.map fun x => x.1).getD []
      let delayed := (inj.map fun x => x.2).getD []
      let frags := ((List.range (m'.k + m'.m)).filter fun f => !dropped.contains f).map fun f =>
        { fragOf m' f (ps.getD ((id + f) % ps.length) 0) with delayed := delayed.contains f }
      .next { s with
        msgs := if m.cls == 7 then s.msgs.eraseIdx at' else s.msgs.set at' m'
        frags := s.frags ++ frags
        nextId := setAt s.nextId (seriesKey m) ((id + 1) % 65536)
        spinj := if inj.isSome then setAt s.spinj die (look 0 s.spinj die &&& ~~~1) else s.spinj }

/-- The link of a fragment's path is there still. -/
def Frag.onAlive (s : State) (f : Frag) : Bool := pathAlive s ((paths f.msg.src f.msg.dst).getD f.path [])

/-- `DELAYED_FRAGMENT` (R334): delayed fragment `idx` leaves; where a link of its path has been removed, by a path that remains (R359). -/
def execDelayedFragment (idx : Nat) (s : State) : Out :=
  match (s.frags.zipIdx.filter fun f => f.1.delayed)[idx]? with
  | none => .next s
  | some (f, i) =>
    let ps := usablePaths s f.msg.src f.msg.dst f.msg.cls
    let path := if f.onAlive s then f.path else ps.getD ((f.msg.id + f.index) % ps.length) 0
    if ps.isEmpty then .next s else .next { s with frags := s.frags.set i { f with path := path, delayed := false } }

/-! ### Delivery -/

/-- The key of the superblock that holds a word at its home. -/
def homeKey (s : State) (pa : Nat) : Nat := match blk (mscOf s (stackNo pa)) (pa / 256) with
  | some b => b.key
  | none => 0

/-- The words that a payload holds. -/
def payloadWords (bs : List Nat) : List Word := (List.range (bs.length / 4)).map fun i => bytesToWord ((bs.drop (4 * i)).take 4)

/-- The payload of a message is delivered (R333): the words of a copy and of a chunk are those of its bytes. Notices, acknowledgements and
repair requests wait for their own steps. -/
def deliver (s : State) (m : Msg) : State :=
  match m.cargo with
  | .reads r => { s with homeq := s.homeq ++ [.read r] }
  | .reply f => { s with fills := s.fills ++ [f] }
  | .pubs uids => (s.pubs.filter fun p => uids.contains p.uid).foldl performPub s
  | .atoms a => { s with homeq := s.homeq ++ [.atoms a] }
  | .atomReply op vals => landAtoms s op vals
  | .copy uid ws =>
    let team := (s.copies.find? fun c => c.uid == uid).bind fun c => c.team
    let s := (ws.zip (payloadWords m.data)).foldl (fun s w => homeWrite s w.1.1 w.2 false (appendLaunchId s team) w.1.2.2 0 0) s
    { s with copies := s.copies.map fun c => if c.uid == uid then { c with flying := c.flying - 1 } else c }
  | .chunk e src dst lo => { s with exchanges := s.exchanges.map fun x => if x.uid == e then
      { x with flying := x.flying.erase (src, dst, lo), got := x.got ++ [(dst, src, lo, payloadWords m.data)] } else x }
  | .poison _ => { s with inbox := s.inbox ++ [m] }
  | .loss _ _ _ _ => { s with inbox := s.inbox ++ [m] }
  | .ack _ => { s with inbox := s.inbox ++ [m] }
  | .repair _ _ => { s with inbox := s.inbox ++ [m] }

/-- A class 7 message back to the sender of `m`. -/
def answer (s : State) (m : Msg) (c : Cargo) : State :=
  { s with msgs := s.msgs ++ [{ src := m.dst, dst := m.src, cls := 7, len := 8, cargo := c, data := match c with
      | .ack id => le id 8
      | .repair id map => le id 4 ++ le map 4
      | _ => [] }] }

/-- The receiver's window advances past completed and lost ids (R361). -/
def Rx.advance (r : Rx) : Nat → Rx
  | 0 => r
  | n + 1 => if r.done.contains r.low then Rx.advance { r with low := (r.low + 1) % 65536, done := r.done.erase r.low } n else r

/-- A message completes, or is declared lost, at its receiver. -/
def Rx.finish (r : Rx) (id : Nat) : Rx :=
  Rx.advance { r with parts := r.parts.filter fun p => p.msg.id != id, done := id :: r.done } 128

def Rx.accept (r : Rx) (m : Msg) (got : List (Nat × List Nat)) : Rx :=
  { r with parts := (r.parts.filter fun p => p.msg.id != m.id) ++ [{ msg := m, got := got }] }

/-- Accepts one fragment of a message (R333): the `k`-th completes it, its data fragments are rebuilt from those that were accepted, and
it is delivered and acknowledged, but for one of class 7. -/
def acceptFragment (s : State) (f : Frag) : State :=
  let key := windowKey f.msg
  let r := look {} s.rx key
  let got := ((r.parts.find? fun p => p.msg.id == f.msg.id).map fun p => p.got).getD []
  if (got.lookup f.index).isSome then s
  else
    let got := got ++ [(f.index, f.bytes)]
    if got.length < f.msg.k then { s with rx := setAt s.rx key (r.accept f.msg got) }
    else
      let m := { f.msg with data := ((rsRebuild f.msg.k got).flatten).take f.msg.len }
      let s := deliver { s with rx := setAt s.rx key (r.finish m.id) } m
      if m.cls == 7 then s else answer s m (.ack m.id)

/-- `FRAGMENT_RECEIVE` (R333, R355, R356, R359, R361): fragment `idx` arrives, with the bits of `arrival` changed on the way; a flit
whose framing check fails is dropped. -/
def execFragmentReceive (idx : Nat) (arrival : Option (BitVec 640)) (s : State) : Out :=
  match s.frags[idx]? with
  | none => .next s
  | some f0 =>
    let s' := { s with frags := s.frags.eraseIdx idx }
    let die := dieUnit f0.msg.dst
    let bs := flipBytes (fragImage s.moduleNo.toNat f0) (arrival.getD 0)
    let f := f0.asRead bs
    if f0.delayed then .next s
    else if arrival.isNone then .next s'
    else if !imageValid bs then .next (count s' die 16)
    else
      let r := look {} s.rx (windowKey f.msg)
      let ahead := (f.msg.id + 65536 - r.low) % 65536
      if ahead ≥ 32768 ∨ r.done.contains f.msg.id then
        let s := count s' die 17
        .next (if f.msg.attempts > 0 ∧ f.msg.cls ≠ 7 then answer s f.msg (.ack f.msg.id) else s)
      else if ahead ≥ 128 then .next (count s' die 19)
      else .next (acceptFragment s' f)

/-- The `idx`-th message of a kind that has been delivered and not yet acted on, and the state without it. -/
def takeInbox (s : State) (p : Cargo → Bool) (idx : Nat) : Option (Msg × State) :=
  (s.inbox.zipIdx.filter fun m => p m.1.cargo)[idx]?.map fun m => (m.1, { s with inbox := s.inbox.eraseIdx m.2 })

/-- `ACKNOWLEDGEMENT` (R333): the sender frees the message's entry. -/
def execAcknowledgement (idx : Nat) (s : State) : Out :=
  match takeInbox s (fun c => match c with
      | .ack _ => true
      | _ => false) idx with
  | none => .next s
  | some (a, s) =>
    .next (match a.cargo with
      | .ack id => { s with msgs := s.msgs.filter fun m => !(m.src == a.dst && m.dst == a.src && m.sent && m.id == id) }
      | _ => s)

/-! ### Repair -/

/-- `RECEIVER_REPAIR_TIMEOUT` (R362): partial message `idx` of a die asks its sender for the fragments it lacks. -/
def execReceiverRepairTimeout (die idx : Nat) (s : State) : Out :=
  match ((List.range 8).flatMap fun src => (look {} s.rx (8 * die + src)).parts)[idx]? with
  | none => .next s
  | some p => .next (if p.msg.cls == 7 then s else answer s p.msg (.repair p.msg.id (p.got.foldl (fun a g => a + 2 ^ g.1) 0)))

/-- Serves a repair request (R362): the fragments that the map lacks are sent again, `r` paths on, at most twice. -/
def serveRepair (s : State) (m : Msg) (map : Nat) : State :=
  let ps := usablePaths s m.src m.dst m.cls
  if m.attempts ≥ 2 ∨ ps.isEmpty then s
  else
    let r := m.attempts + 1
    let m' := { m with attempts := r }
    { s with
      msgs := s.msgs.map fun x => if x == m then m' else x
      frags := s.frags ++ ((List.range (m.k + m.m)).filter fun f => !bit map f).map fun f =>
        fragOf m' f (ps.getD ((m.id + f + r) % ps.length) 0) }

/-- The messages of a die that are sent and not acknowledged. -/
def retained (s : State) (die : Nat) : List Msg := s.msgs.filter fun m => m.src == die && m.sent

/-- `SENDER_REPAIR_TIMEOUT` (R362): as an empty repair request. -/
def execSenderRepairTimeout (die idx : Nat) (s : State) : Out :=
  .next (match (retained s die)[idx]? with
    | some m => serveRepair s m 0
    | none => s)

/-- `REPAIR_REQUEST` (R362). -/
def execRepairRequest (idx : Nat) (s : State) : Out :=
  match takeInbox s (fun c => match c with
      | .repair _ _ => true
      | _ => false) idx with
  | none => .next s
  | some (a, s) =>
    .next (match a.cargo with
      | .repair id map => match s.msgs.find? fun m => m.src == a.dst && m.dst == a.src && m.sent && m.id == id with
        | some m => serveRepair s m map
        | none => s
      | _ => s)

/-! ### Loss -/

/-- Reads that are lost deliver LOSS for every word (R363). -/
def loseReads (s : State) (r : Req) : State :=
  let is := maskWords r.mask
  finishLoads (clearMisses (land s r (is.map fun i => (i, Datum.loss))) r is)

/-- Lanes of an atomic that are lost deliver LOSS (R363): triples of the operation, the lane and the part. -/
def loseAtoms (s : State) (ls : List (Nat × Nat × Nat)) : State :=
  ls.foldl (fun s l => landAtoms s l.1 [(l.2.1, l.2.2, .loss)]) s

def atomTriples (a : AtomReq) : List (Nat × Nat × Nat) :=
  a.lanes.flatMap fun l => (List.range (if atomWide a.mode then 2 else 1)).map fun i => (a.op, l.lane, i)

/-- What a loss at the sender does (R363), with what the receiver has to learn: reads and atomics of its own. -/
def lossOutcome (s : State) (m : Msg) : State × List Req × List (Nat × Nat × Nat) :=
  match m.cargo with
  | .reads r => (loseReads s r, [], [])
  | .reply f => (s, [f.req], [])
  | .pubs uids =>
    let ps := s.pubs.filter fun p => uids.contains p.uid
    let s := if m.owner ≠ 0 then { s with dooms := s.dooms ++ [(m.owner - 1, cLOSS, (ps.map fun p => p.pa).headD 0)] } else s
    let s := { s with pubs := s.pubs.filter fun p => !uids.contains p.uid }
    (enqueueCut s m.src m.dst 6 8 (ps.map fun p => p.pa) 0 Cargo.poison fun pa => le pa 8, [], [])
  | .atoms a => (loseAtoms s (atomTriples a), [], [])
  | .atomReply op vals => (s, [], vals.map fun v => (op, v.1, v.2.1))
  | .copy uid _ => (match s.copies.find? fun c => c.uid == uid with
    | some c => abandonCopy s c cLOSS
    | none => s, [], [])
  | .chunk e _ _ _ => (repeatExchange s e, [], [])
  | .poison pas => (enqueueCut s m.src m.dst 6 8 pas 0 Cargo.poison fun pa => le pa 8, [], [])
  | .loss _ _ _ _ => ({ s with msgs := s.msgs ++ [{ src := m.src, dst := m.dst, cls := 6, len := 16, cargo := m.cargo, data := m.data }] }, [], [])
  | .ack _ => (s, [], [])
  | .repair _ _ => (s, [], [])

/-- The RAS record of a lost message (R385): it names the launch that the loss ends, or says that words are poisoned. -/
def lossRecord (s : State) (m : Msg) : Ras :=
  let r : Ras := { cls := 18, die := m.src, unit := m.dst }
  match m.cargo with
  | .pubs _ => if m.owner = 0 then { r with act := 2 } else
      { r with act := 1, tenant := (launchOf s (m.owner - 1)).tenant, launch := m.owner - 1 }
  | _ => r

/-- `MESSAGE_LOSS` (R362, R363): retained message `idx` of a die, resent twice, is declared lost. It is logged with its class, id, source
and destination, and counted, its entry is freed, and the receiver is told. -/
def execMessageLoss (die idx : Nat) (s : State) : Out :=
  match (retained s die)[idx]? with
  | none => .next s
  | some m =>
    if m.attempts < 2 then .next s
    else
      let s := { s with msgs := s.msgs.erase m, losses := { cls := m.cls, id := m.id, src := m.src, dst := m.dst, tick := s.tick } :: s.losses }
      let s := logRas (count s (dieUnit die) 18) (lossRecord s m)
      let (s, rs, ls) := lossOutcome s m
      .next { s with msgs := s.msgs ++ [{ src := m.src, dst := m.dst, cls := 6, len := 16, cargo := .loss m.cls m.id rs ls,
                                             data := le m.cls 8 ++ le m.id 8 }] }

/-- `LOSS_NOTICE` (R362, R363): the receiver discards what it holds of the message, its window advances, and what it waits for is
lost. -/
def execLossNotice (idx : Nat) (s : State) : Out :=
  match takeInbox s (fun c => match c with
      | .loss _ _ _ _ => true
      | _ => false) idx with
  | none => .next s
  | some (n, s) =>
    .next (match n.cargo with
      | .loss _ id rs ls =>
        let key := 8 * n.dst + n.src
        let r := look {} s.rx key
        let s := if (id + 65536 - r.low) % 65536 < 128 && !r.done.contains id then { s with rx := setAt s.rx key (r.finish id) } else s
        loseAtoms (rs.foldl loseReads s) ls
      | _ => s)

/-- Writes a word poisoned at its home by other than a core's write: it leaves every L2 (R337). -/
def poisonHome (s : State) (pa : Nat) : State := homeWrite s pa 0 true 0 (homeKey s pa) 0 0

/-- `POISON_NOTICE` (R363). -/
def execPoisonNotice (idx : Nat) (s : State) : Out :=
  match takeInbox s (fun c => match c with
      | .poison _ => true
      | _ => false) idx with
  | none => .next s
  | some (n, s) =>
    .next (match n.cargo with
      | .poison pas => pas.foldl poisonHome s
      | _ => s)

/-- `LINK_REMOVAL` (R358, R359, R396): the link of a die's port leaves every path, the fragments already sent on it are lost, and
replacement is requested. -/
def execLinkRemoval (die port : Nat) (s : State) : Out :=
  if port < 1 ∨ port > 6 ∨ die > 7 then .next s
  else
    let l := (die, die ^^^ port)
    let s := { s with
      deadLinks := if linkDead s l then s.deadLinks else s.deadLinks ++ [l]
      frags := s.frags.filter fun f => f.delayed || !(((paths f.msg.src f.msg.dst).getD f.path []).any fun x => x == l || x == (l.2, l.1)) }
    .next (requestReplacement s)

end Sys2Proof.Machine
end

