-- ==== Sys2Proof/Machine/HostLink.lean ====
section
/-! DEFINITION. What the host, its capacity ports and the timebase do (R136, R364 to R372, R377): host requests to device lines and
snoops of host lines, the host's answers, translations asked of the host, extents, and the timebase. -/

namespace Sys2Proof.Machine

/-! ### Lines -/

/-- The addresses of the 16 words of the line that holds an address. -/
def lineWords (pa : Nat) : List Nat := (List.range 16).map fun i => pa / 64 * 64 + 4 * i

/-- Sets the host field of a line, whose superblock the memory-side cache then holds (R366). -/
def setHostField (s : State) (pa v : Nat) : State :=
  let s := mscEnsure s pa (homeKey s pa) 0 noTenant
  let c := mscOf s (stackNo pa)
  match blk c (pa / 256) with
  | some b => setMsc s (stackNo pa) (setAt c (pa / 256) (b.setHost (pa / 64 % 4) v))
  | none => s

/-- The words of a line at the home, for the host. -/
def readLine (s : State) (pa : Nat) : State × List Datum :=
  (lineWords pa).foldl (fun (a : State × List Datum) w =>
    let (s, d) := homeRead a.1 w (homeKey a.1 w) 0 noTenant
    (s, a.2 ++ [d])) (s, [])

/-- The home can read every word of a line for the host now (R140, R142). -/
def lineReady (s : State) (pa : Nat) : Bool :=
  (lineWords pa).all fun w => !blockBusy s w && ((held (mscOf s (stackNo w)) w).isSome || !retrains s w)

/-- Data that the host returns are performed at the home as host writes, word by word, each after a device's dirty copy of the word (R336,
R337, R369); a word without a value is poisoned (R337). -/
def hostWrites (s : State) (pa : Nat) (words : List (Nat × Option Word)) : State :=
  words.foldl (fun s x => if x.1 < 16 then
    let a := pa / 64 * 64 + 4 * x.1
    homePut (purgeNow s a) a (x.2.getD 0) x.2.isNone 0 (homeKey s a) 0 else s) s

/-- Drops the copies of a line's words that L2 slices hold clean. -/
def dropCleanL2 (s : State) (pa : Nat) : State :=
  (lineWords pa).foldl (fun s a => (List.range 8).foldl (fun s d =>
    if (held (l2Of s d) a).isSome && !heldDirty (l2Of s d) a then setL2 s d (dropWord (l2Of s d) a) else s) s) s

/-- A BE writeback of a line of host memory: its dirty words are written and become clean (R367). -/
def beWriteback (s : State) (pa : Nat) : State :=
  (lineWords pa).foldl (fun s a =>
    let c := mscOf s (stackNo a)
    match blk c (a / 256) with
    | some b =>
      if b.isDirty (wordIx a) then
        let (s, w, p) := leaving s b a (20000 + stackNo a)
        setMsc (writePlain s a w p b.key true) (stackNo a) (setAt c (a / 256) { b with
          dirty := setBit64 b.dirty (wordIx a) false
          soft := setBit64 b.soft (wordIx a) false })
      else s
    | none => s) s

/-- The line's words that are dirty, and those that are valid, in the home's cache. -/
def lineDirty (s : State) (pa : Nat) : Bool := (lineWords pa).any fun a => heldDirty (mscOf s (stackNo a)) a
def lineFull (s : State) (pa : Nat) : Bool := (lineWords pa).all fun a => (held (mscOf s (stackNo a)) a).isSome

/-! ### Host requests -/

-- After a failed verification the module answers none of them (R393).

/-- `HOST_READ_SHARED` (R140, R142, R368): data from the home, and the filter records S. -/
def execHostReadShared (pa : Nat) (s : State) : Out :=
  if s.bootFailed || region pa != .dram || asked s pa || decide (hostField s pa ≥ 2) || !lineReady s pa then .next s
  else
    let (s, ds) := readLine s pa
    let s := { s with hostData := ds }
    .next (if isHC s pa then setHostField s (pa / 64 * 64) 1 else s)

/-- The device's dirty words of a line move from the L2s to the home, and no L2 keeps a copy (R368). -/
def gatherLine (s : State) (pa : Nat) : State := (lineWords pa).foldl purgeNow s

/-- `HOST_READ_OWNED` (R368): the device's dirty words in the L2s reach the home first, and no L2 keeps a copy; the filter records E
or M. -/
def execHostReadOwned (pa : Nat) (s : State) : Out :=
  if s.bootFailed || region pa != .dram || asked s pa || !lineReady s pa then .next s
  else
    let (s, ds) := readLine (gatherLine s pa) pa
    let s := { s with hostData := ds }
    .next (if isHC s pa then setHostField s (pa / 64 * 64) 2 else s)

/-- `HOST_WRITEBACK` (R349, R368): the data, by word number in the line, are performed at the home; `keep` leaves the host a shared
copy. -/
def execHostWriteback (pa : Nat) (words : List (Nat × Option Word)) (keep : Bool) (s : State) : Out :=
  if s.bootFailed || region pa != .dram then .next s
  else
    let s := hostWrites s pa words
    .next (if isHC s pa && decide (hostField s pa ≥ 2) then setHostField s (pa / 64 * 64) (if keep then 1 else 0) else s)

/-- `HOST_SNOOP_DATA` (R367): the home gives up E or M of a line of host memory. -/
def execHostSnoopData (pa : Nat) (s : State) : Out :=
  if s.bootFailed || region pa != .host || hostField s pa == 0 then .next s
  else if hostField s pa == 1 then .next s
  else if !lineDirty s pa then .next (setHostField s (pa / 64 * 64) 1)
  else if lineFull s pa then
    let (s, ds) := readLine s pa
    .next (setHostField { s with hostData := ds } (pa / 64 * 64) 1)
  else .next (setHostField (beWriteback s pa) (pa / 64 * 64) 1)

/-- `HOST_SNOOP_INVALIDATE` (R367): dirty words are written back, and the line is dropped. -/
def execHostSnoopInvalidate (pa : Nat) (s : State) : Out :=
  if s.bootFailed || region pa != .host then .next s
  else
    let s := dropCleanL2 (beWriteback s pa) pa
    let s := (lineWords pa).foldl (fun s a => setMsc s (stackNo a) (dropWord (mscOf s (stackNo a)) a)) s
    .next (if hostField s pa != 0 then setHostField s (pa / 64 * 64) 0 else s)

/-! ### Answers -/

/-- The writes that waited for an answer are performed, or wait for the next one (R369). -/
def resumeWrites (s : State) (a : HostAsk) : State :=
  match (a.writes.findSome? fun w => w.needs s).or (needsAsk s (a.line * 64) true) with
  | some k => if a.writes.isEmpty then s else { s with asks := s.asks ++ [{ a with ask := k, evict := false }] }
  | none => a.writes.foldl (fun s w =>
      let s := purgeL2 s w.pa w.writer
      performHeld (if w.stamp.isSome then purgeL2 s (w.pa + 4) 0 else s) w) s

/-- A superblock whose eviction waited for the host leaves once no line of it is held (R368). -/
def finishEvict (s : State) (sb : Nat) : State :=
  let c := mscOf s (stackNo (sb * 256))
  match blk c sb with
  | some b => if b.host = 0 then setMsc (mscEvict s (sb, b)) (stackNo (sb * 256)) (drop (mscOf (mscEvict s (sb, b)) (stackNo (sb * 256))) sb) else s
  | none => s

/-- `BACK_INVALIDATE_RESPONSE` (R136, R368, R369): the host answers ask `idx` with its words, which are performed first; a line asked
for a read stays shared. -/
def execBackInvalidateResponse (idx : Nat) (words : List (Nat × Option Word)) (s : State) : Out :=
  match s.asks[idx]? with
  | none => .next s
  | some a =>
    match a.ask with
    | .backInvalidate forWrite =>
      let s := { s with asks := s.asks.eraseIdx idx }
      let s := hostWrites s (a.line * 64) words
      let s := setHostField s (a.line * 64) (if forWrite then 0 else 1)
      let s := resumeWrites s a
      .next (if a.evict then finishEvict s (a.line / 4) else s)
    | _ => .next s

/-- `HOST_READ_GRANT` (R367): the host grants a shared read of a line of host memory, with the words it returns, or its ownership. A line
that the device holds in M, some of its words not valid, stays in M. -/
def execHostReadGrant (idx : Nat) (owned : Bool) (words : List (Nat × Option Word)) (s : State) : Out :=
  match s.asks[idx]? with
  | none => .next s
  | some a =>
    let pa := a.line * 64
    let s' := { s with asks := s.asks.eraseIdx idx }
    match a.ask with
    | .backInvalidate _ => .next s
    | .ownership => .next (resumeWrites (setHostField s' pa 2) a)
    | .sharedRead =>
      let s := setHostField s' pa (if owned || (hostField s pa == 2 && lineDirty s pa) then 2 else 1)
      let s := words.foldl (fun s x =>
        let w := pa + 4 * x.1
        if x.1 < 16 && (held (mscOf s (stackNo w)) w).isNone then mscPut s w (x.2.getD 0) x.2.isNone false (homeKey s w) 0 noTenant 0 else s) s
      .next (resumeWrites s a)

/-! ### Translations asked of the host -/

/-- `ATS_COMPLETION` (R377): the host answers translation request `idx`. `kind` holds SIZE in bits [1:0], W in bit 2 and X in bit 3.
An absent translation becomes a page request. What a `tlbi` has overlapped enters no cache and is asked for again (R376). -/
def execAtsCompletion (idx : Nat) (present : Bool) (frame kind : Nat) (s : State) : Out :=
  match s.ats[idx]? with
  | none => .next s
  | some a =>
    let size := min (kind % 4) 2
    let n := pageBytes size
    if a.asked then .next s
    else if a.overlapped then .next { s with ats := s.ats.eraseIdx idx }
    else if present then
      .next (enterTrans { s with ats := s.ats.eraseIdx idx } a.core
        { tenant := a.tenant, base := a.page * 65536 / n * n, size := size, frame := frame / n * n, w := bit kind 2, x := bit kind 3 })
    else .next { s with ats := s.ats.set idx { a with asked := true } }

/-- `ATS_INVALIDATION` (R323, R377): as `tlbi` kind 1 over a range of the size of `kind`. Requests under way are asked again. The
invalidation stands in `invals`, and the step is taken again, until the accesses translated before it are complete: its completion is
then returned. -/
def execAtsInvalidation (tenant base kind : Nat) (s : State) : Out :=
  let n := pageBytes (min kind 2)
  let lo := base / n * n
  let mine := fun (v : Inval) => v.tenant == tenant && v.base == lo && v.size == n
  let begun := ((s.invals.find? mine).map fun v => v.begun).getD s.serial
  let s := dropTranslations s fun x => x.tenant == tenant && decide (x.base < lo + n ∧ lo < x.base + pageBytes x.size)
  .next { s with
    serial := s.serial + 1
    ats := s.ats.filter fun a => !(a.tenant == tenant && !a.asked && decide (lo ≤ a.page * 65536 ∧ a.page * 65536 < lo + n))
    invals := (s.invals.filter fun v => !mine v) ++
      if usesOld s begun then [{ tenant := tenant, base := lo, size := n, begun := begun }] else [] }

/-- `PAGE_REQUEST_RESPONSE` (R377): a grant lets the access be translated again; a refusal makes it fault XLATE. -/
def execPageRequestResponse (idx : Nat) (granted : Bool) (s : State) : Out :=
  match s.ats[idx]? with
  | none => .next s
  | some a =>
    if !a.asked then .next s
    else
      let s := { s with ats := s.ats.eraseIdx idx }
      .next (if granted then s else { s with atsDenied := s.atsDenied ++ [(a.tenant, a.page)] })

/-! ### Extents -/

def extentUnit : Nat := 0x10000000

/-- A place for an extent of `size` bytes: in the window, aligned, and apart from every other extent (R370). -/
def extentFits (es : List Extent) (base size : Nat) : Bool :=
  decide (0x80000000000 ≤ base ∧ base + size ≤ 0x200000000000) && base % extentUnit == 0 &&
    es.all fun e => decide (base + size ≤ e.base ∨ e.base + e.size ≤ base)

/-- `EXTENT_ADD` (R370): Ezivo assigns an extent on a port its range, a base and a size. -/
def execExtentAdd (port : Nat) (range : Nat × Nat) (s : State) : Out :=
  let (base, size) := range
  let total := (s.extents.map fun e => e.size).foldl (· + ·) 0
  if s.bootFailed ∨ port ≥ 12 ∨ size = 0 ∨ size % extentUnit ≠ 0 ∨ s.extents.length ≥ 4096 ∨ total + size > 0x180000000000 then .next s
  else .next (if extentFits s.extents base size then { s with extents := s.extents ++ [{ port := port, base := base, size := size }] } else s)

def Extent.holds (e : Extent) (pa : Nat) : Bool := decide (e.base ≤ pa ∧ pa < e.base + e.size)

/-- An access to the range that has been admitted is not yet complete (R371). -/
def extentBusy (s : State) (e : Extent) : Bool :=
  (s.loads.any fun o => o.words.any fun w => !w.isHere && e.holds w.pa) || (s.pubs.any fun p => e.holds p.pa) ||
    (s.misses.any fun m => e.holds (m.sb * 256)) || (s.homeq.any fun q => match q with
      | .read r => e.holds (r.sb * 256)
      | .atoms a => a.lanes.any fun l => e.holds l.pa) || (s.fills.any fun f => e.holds (f.req.sb * 256)) ||
    s.msgs.any fun m => match m.cargo with
      | .copy _ ws => ws.any fun w => e.holds w.1
      | _ => false

/-- Every home writes the dirty words of an extent back and drops its lines (R371). -/
def dropExtent (s : State) (e : Extent) : State :=
  let s := (List.range 16).foldl (fun s k => ((mscOf s k).filter fun b => e.holds (b.1 * 256)).foldl mscEvict s) s
  (List.range 16).foldl (fun s k => setMsc s k ((mscOf s k).filter fun b => !e.holds (b.1 * 256))) s

/-- Every L2 slice loses the words of an extent; the dirty ones go to their homes (R337). -/
def purgeExtent (s : State) (e : Extent) : State :=
  (List.range 8).foldl (fun s d => ((l2Of s d).filter fun b => e.holds (b.1 * 256)).foldl (fun s b =>
    (List.range 64).foldl (fun s i => purgeL2 s (b.1 * 256 + 4 * i) 0) s) s) s

/-- The homes and then the L2 slices give an extent up, and the homes what the slices gave them. -/
def sweepExtent (s : State) (e : Extent) : State := dropExtent (purgeExtent (dropExtent s e) e) e

/-- `EXTENT_RELEASE` (R371): the release of extent `idx` begins, no access is admitted any more, and the homes and the L2 slices give it
up; once every access already admitted is complete they give up what those have left, and it is acknowledged. -/
def execExtentRelease (idx : Nat) (s : State) : Out :=
  match s.extents[idx]? with
  | none => .next s
  | some e =>
    if !e.releasing then .next (sweepExtent { s with extents := s.extents.set idx { e with releasing := true } } e)
    else if extentBusy s e then .next s
    else
      let s := sweepExtent s e
      .next { s with extents := s.extents.eraseIdx idx }

/-- `SURPRISE_REMOVAL` (R372): extent `idx` is lost. Its dirty words are poisoned where they are, each line is logged, and no clean
copy outside the L1s is read again. -/
def execSurpriseRemoval (idx : Nat) (s : State) : Out :=
  match s.extents[idx]? with
  | none => .next s
  | some e =>
    let s := { s with extents := s.extents.set idx { e with lost := true } }
    let s := purgeExtent s e
    .next ((List.range 16).foldl (fun s k =>
      ((mscOf s k).filter fun b => e.holds (b.1 * 256)).foldl (fun s b =>
        let s := ((List.range 4).filter fun l => b.2.dirtyWords.any fun i => i / 16 == l).foldl (fun s l =>
          logRas s { addr := b.1 * 256 + 64 * l, cls := droppedClass, die := k / 2, unit := k, act := 2 }) s
        setMsc s k (setAt (mscOf s k) b.1 ((List.range 64).foldl (fun x i =>
          if x.isDirty i then { x with poison := setBit64 x.poison i true } else x.clear i) b.2))) s) s)

/-! ### The timebase -/

/-- `TIMEBASE_CORRECTION` (R324, R364): the module's offset to the master is corrected. A timebase that is ahead is not set back: it
stands still for as many ticks. -/
def execTimebaseCorrection (offset : Int) (s : State) : Out :=
  .next { s with tick := s.tick + offset.toNat, lag := if offset < 0 then (-offset).toNat else 0 }

end Sys2Proof.Machine
end

