-- ==== Sys2Proof/Machine/Platform.lean ====
section
/-! DEFINITION. The Kiln and the management interface (R145, R146, R348, R351, R384 to R400): alarms, power and heat, the module's
reset, counters and logs, tenants, and the registers that only the management interface reaches. -/

namespace Sys2Proof.Machine

/-! ### Alarms and limits -/

def modstBit (s : State) (i : Nat) (on : Bool) : State :=
  { s with modst := if on then s.modst ||| BitVec.ofNat 64 (2 ^ i) else s.modst &&& ~~~BitVec.ofNat 64 (2 ^ i) }

/-- Every band stops as `halt` stops a band (R325), but those that `spared` names. -/
def haltAll (s : State) (spared : Run → Bool) : State :=
  (s.bands.filter fun e => e.2.resident && e.2.run != .halted && !spared e.2.run).foldl (fun s e => stopBand s e.1 .halting) s

/-- The words of sealed superblocks leave every cache with the key of their slot: the words that are read of them afterwards are those of
the frame, under the key that the slot then has, or poisoned (R390, R392). -/
def dropSealed (s : State) (p : Nat → Bool) : State :=
  -- a memory-side cache goes on recording what the host holds (R368)
  let gone := fun (b : Nat × Blk) =>
    if p b.2.key = false then some b
    else if b.2.host = 0 then none
    else some (b.1, { b.2 with valid := 0, dirty := 0, poison := 0, cp := 0, bad := 0, soft := 0, words := [] })
  { s with
    cores := s.cores.map fun e => (e.1, { e.2 with l1 := e.2.l1.filter fun b => !p b.2.key, icache := [], ibad := [] })
    l2 := s.l2.map fun e => (e.1, e.2.filter fun b => !p b.2.key)
    drams := s.drams.map fun e => (e.1, { e.2 with msc := e.2.msc.filterMap gone }) }

/-- Erases every key slot (R390, R392). -/
def eraseKeys (s : State) : State :=
  { dropSealed s (fun k => k != 0) with tenants := s.tenants.map fun e => (e.1, { e.2 with keyed := false, key1 := 0, key2 := 0 }) }

/-- The action of an alarm, once every band has halted and every pre-emption under way has completed (R392): each launch ends marked
ALARM, each tenant has vector 4, and action 2 erases the keys. -/
def finishAlarm (s : State) : State :=
  match s.alarm with
  | none => s
  | some a =>
    if s.bands.any fun e => e.2.run != .halted && e.2.run != .saved then s
    else
      let s := s.launches.foldl (fun s e => errorCompletion s { launch := e.1, kind := 3 }) { s with alarm := none }
      let s := (s.tenants.filter fun e => e.2.created).foldl (fun s e => raiseVector s e.1 4) s
      if a ≥ 2 then eraseKeys s else s

/-- `SECURITY_ALARM` (R391, R392): tamper (0), a rail glitch (1) or a clock anomaly (2) takes the action ALMPOL gives it. It begins with
the stop of every band; a band that is being pre-empted goes on with that. -/
def execSecurityAlarm (source : Nat) (s : State) : Out :=
  if source > 2 then .next s
  else
    let action := bits s.almpol.toNat (2 * source) 2
    let s := logRas s { cls := alarmClass, unit := source, act := if action = 0 then 0 else 4 }
    if action = 0 then .next s
    else
      let s := haltAll (modstBit s 1 true) fun r => r == .stopping
      .next (finishAlarm { s with alarm := some (max action (s.alarm.getD 0)) })

/-- `POWER_LIMIT_STEP` (R398): the power limit imposes one point slower, or one faster again. The thermal limit's point steps back
with it, as average power steps, once the power limit imposes none. -/
def execPowerLimitStep (above : Bool) (s : State) : Out :=
  let s := if above then { s with powerPoint := min 6 (s.powerPoint + 1) }
    else if s.powerPoint > 0 then { s with powerPoint := s.powerPoint - 1 }
    else { s with heatPoint := s.heatPoint - 1 }
  .next (retuneAll (modstBit (modstBit s 2 (decide (s.powerPoint > 0))) 3 (decide (s.heatPoint > 0))))

/-- `CURRENT_LIMIT` and `CURRENT_RESTORE` (R398): the die's arithmetic clock is halved, and restored. -/
def execCurrentLimit (die : Nat) (s : State) : Out := .next (setDie s die { dieOf s die with halved := true })
def execCurrentRestore (die : Nat) (s : State) : Out := .next (setDie s die { dieOf s die with halved := false })

/-- `THERMAL_LIMIT` (R398): the operating points are one slower, and THERM is set. -/
def execThermalLimit (die : Nat) (s : State) : Out :=
  if die > 7 then .next s else .next (retuneAll (modstBit { s with heatPoint := min 6 (s.heatPoint + 1) } 3 true))

/-- `THERMAL_SHUTDOWN` (R398): every band stops as `halt` stops it, the core rails are turned off, and a record is written. -/
def execThermalShutdown (s : State) : Out :=
  let s := haltAll s fun _ => false
  let s := { s with ready := s.ready &&& ~~~255 }
  .next (logRas ((List.range 8).foldl (fun s d => setDie s d { dieOf s d with off := true }) s) { cls := alarmClass, unit := 3, act := 4 })

/-! ### Reset and readiness -/

/-- An image passes (R393): the key it comes with is the one whose digest the fuses hold, its signature verifies under that key, and its
security version is not below the fuses'. -/
def imageGood (s : State) (n : Nat) : Bool :=
  Config.sha384 (leBytes (Config.imageKey n).toNat 96) == Config.fusedKeyDigest &&
    Config.ecdsaVerify (Config.imageKey n) (Config.imageDigest n) (Config.imageSignature n) && decide (s.secver ≤ Config.imageVersion n)

/-- Extends a measurement register (R394). -/
def extendMeasure (old digest : BitVec 384) : BitVec 384 := Config.sha384 (leBytes old.toNat 48 ++ leBytes digest.toNat 48)

/-- The harvest map of the next reset: a core with 1,024 RUE events within 24 hours leaves it (R396). -/
def harvested (s : State) : NMap DWord :=
  (List.range 24).foldl (fun h i =>
    let bad := (List.range 64).filter fun b => 64 * (i % 3) + b < 144 && s.worn.contains (144 * (i / 3) + 64 * (i % 3) + b)
    if bad.isEmpty then h else setAt h i (bad.foldl (fun w b => w &&& ~~~BitVec.ofNat 64 (2 ^ b)) (hmapWord s i))) s.hmap

/-- `MODULE_RESET` (R393, R394): the machine starts afresh; the boot ROM verifies the firmware and the firmware each die's image.
What the fuses and the Kiln keep goes on. -/
def execModuleReset (s : State) : Out :=
  let images := 2 * s.firmware :: (List.range 8).map fun d => 2 * d + 1
  let good := images.all (imageGood s)
  let measure := fun i => (images.zipIdx.filter fun m => (if m.2 = 0 then 0 else m.2 - 1) == i && imageGood s m.1).foldl (fun r m =>
    extendMeasure r (Config.imageDigest m.1)) 0
  .next { State.reset with
    agenda := s.agenda
    fresh := s.fresh
    firmware := s.firmware
    secver := s.secver
    moduleNo := s.moduleNo
    hmap := harvested s
    verified := good
    bootFailed := !good
    measures := (List.range 8).map measure }

/-- `FUNCTION_READY` (R312, R395): a function that passes its test sets its READY bit; a stack first holds zero, with clean codes, in
every window. A stack that fails leaves the module with no DRAM service, and it raises its replacement request. -/
def execFunctionReady (bitNo : Nat) (passed : Bool) (s : State) : Out :=
  let stack := 8 ≤ bitNo ∧ bitNo ≤ 23
  if !s.verified || decide (bitNo > 29) then .next s
  else if !passed then .next (if stack then requestReplacement { s with dramOff := true } else s)
  else
    let mine := fun pa => region pa == .dram && stackNo pa == bitNo - 8
    let s := if stack ∧ bit s.ready.toNat bitNo = false then
        { setDram s (bitNo - 8) { dram s (bitNo - 8) with deltas := [] } with
          mem := s.mem.filter fun c => !mine c.1
          memPoison := s.memPoison.filter fun pa => !mine pa
          flips := s.flips.filter fun e => !mine e.1
          slots := s.slots.filter fun e => !mine (e.1 * 512) }
      else s
    .next { s with ready := s.ready ||| BitVec.ofNat 64 (2 ^ bitNo) }

/-! ### Management commands -/

/-- A command whose state is in use answers busy, all ones, and changes nothing (R400). -/
def busy (s : State) : State := { s with replies := [BitVec.allOnes 64] }

/-- A management command (R400): its answer, or busy, is left in `replies`. Commands are executed one at a time: while one still waits for
the host, the answer is busy. After a failed verification none but recovery is answered (R393). -/
def managed (s : State) (f : State → State) : Out :=
  if s.bootFailed then .next s
  else if s.command.isSome then .next (busy s)
  else .next (f { s with replies := [] })

/-- The code under which the management interface reports how a band stands (R325): a halted one has 3. -/
def Run.code : Run → Nat
  | .going | .gang | .slowed => 1
  | .stopping | .halting | .breaking => 2
  | .halted => 3
  | .stopped => 4
  | .saved => 5

/-- The log of a lost message as two 64-bit words (R363). -/
def Loss.words (l : Loss) : List DWord :=
  [BitVec.ofNat 64 l.tick, BitVec.ofNat 64 (l.cls + l.id * 2 ^ 16 + l.src * 2 ^ 32 + l.dst * 2 ^ 40)]

/-- What the management interface reads (R384, R400): the 32-bit counters of a unit, in the order of R143 and R384, where a
pseudo-channel is unit 100,000 + 512·stack + channel and gives its slice counts too; from 300,000 on, how a band stands, 0 where there is
none, and at 399,999 the lost messages; from 400,000 on, registers: 4·window + register of the format windows (R145), then PWRCAP, ALMPOL
and the spare-in threshold, the LQCFG of each tenant, and from 500,000 on FATTR by frame. -/
def counterWords (s : State) (unit : Nat) : List DWord :=
  if unit ≥ 500000 then [(look 1 s.fattr (unit - 500000)).setWidth 64]
  else if unit ≥ 400000 then
    let i := unit - 400000
    let w : Window := look {} s.windows (i / 4)
    if i < 64 then [[w.ctl, w.sto, w.scl, w.view].getD (i % 4) 0]
    else if i = 64 then [s.pwrcap]
    else if i = 65 then [s.almpol]
    else if i = 66 then [BitVec.ofNat 64 s.spareAt]
    else if i < 96 then [(tenantOf s (i - 80)).lqcfg]
    else []
  else if unit = 399999 then s.losses.flatMap Loss.words
  else if unit ≥ 300000 then [BitVec.ofNat 64 (((s.bands.lookup (unit - 300000)).map fun b => b.run.code).getD 0)]
  else if unit ≥ 100000 then
    let u := unit - 100000
    let d := dram s (u / 512)
    (List.range 8).map (fun c => BitVec.ofNat 64 (look 0 d.counts (8 * (u % 512) + c))) ++
      (List.range 32).map fun c => BitVec.ofNat 64 (look 0 d.slices (32 * (u % 512) + c))
  else (List.range 21).map fun c => BitVec.ofNat 64 (look 0 s.counters (64 * unit + c))

def execCounterRead (unit : Nat) (s : State) : Out := managed s fun s => { s with replies := counterWords s unit }

def execCounterClear (unit : Nat) (s : State) : Out :=
  managed s fun s =>
    if unit ≥ 300000 then s
    else if unit ≥ 100000 then
      let u := unit - 100000
      let d := dram s (u / 512)
      setDram s (u / 512) { d with counts := d.counts.filter fun e => e.1 / 8 != u % 512 }
    else { s with counters := s.counters.filter fun e => e.1 / 64 != unit }

/-- A record of the log as four 64-bit words (R385). -/
def Ras.words (r : Ras) : List DWord :=
  [BitVec.ofNat 64 r.tick, BitVec.ofNat 64 r.addr,
    BitVec.ofNat 64 (r.cls + r.die * 2 ^ 16 + r.unit % 256 * 2 ^ 24 + r.tenant * 2 ^ 32 + r.act * 2 ^ 40), BitVec.ofNat 64 r.launch]

def execRasLogRead (s : State) : Out := managed s fun s => { s with replies := s.ras.flatMap Ras.words }

/-- An error completion record as eight 64-bit words (R150). -/
def ErrRec.words (r : ErrRec) : List DWord :=
  [BitVec.ofNat 64 r.launch,
    BitVec.ofNat 64 (r.band + r.crew * 2 ^ 32 + r.team * 2 ^ 40 + r.kind * 2 ^ 48 + r.cause * 2 ^ 56), r.pc,
    BitVec.ofNat 64 r.cause2, r.pc2, BitVec.ofNat 64 r.addr, r.frecb, 0]

def execErrorRecordRead (launch : Nat) (s : State) : Out :=
  managed s fun s => match s.errors.lookup launch with
    | some r => { s with replies := r.words }
    | none => s

/-! ### Tenants -/

/-- A launch of the tenant has not ended. -/
def tenantBusy (s : State) (t : Nat) : Bool := s.launches.any fun e => e.2.tenant == t && !e.2.ended

/-- 256 bits from the Kiln's entropy source: free values (R390). -/
def drawKey (s : State) (i : Nat) : BitVec 256 :=
  Config.freeValue (s.fresh + i) ++ Config.freeValue (s.fresh + i + 1) ++ Config.freeValue (s.fresh + i + 2) ++ Config.freeValue (s.fresh + i + 3)

/-- A key slot is given a new pair of keys (R390). -/
def newKey (s : State) (t : Nat) : State :=
  let s := dropSealed s fun k => k == t + 1
  let x := tenantOf s t
  { setTenant s t { x with keyed := true, keyGen := x.keyGen + 1, key1 := drawKey s 0, key2 := drawKey s 4 } with fresh := s.fresh + 8 }

/-- `TENANT_CREATE` (R387, R390): the lowest free tenant number, with its page root and a generated key slot; busy when all 16 are
taken. -/
def execTenantCreate (root : Nat) (s : State) : Out :=
  managed s fun s => match (List.range 16).find? fun t => !(tenantOf s t).created with
    | none => busy s
    | some t =>
      let s := setTenant s t { created := true, pageRoot := root, keyGen := (tenantOf s t).keyGen }
      { newKey s t with replies := [BitVec.ofNat 64 t] }

/-- `TENANT_DESTROY` (R387, R390): busy while the tenant has launches; its slot is erased, and no translation of it is kept. -/
def execTenantDestroy (tenant : Nat) (s : State) : Out :=
  managed s fun s =>
    if tenantBusy s tenant then busy s
    else setTenant (dropTranslations (dropSealed s fun k => k == tenant + 1) fun x => x.tenant == tenant) tenant { keyGen := (tenantOf s tenant).keyGen }

/-! ### Commands that wait for the host -/

/-- The lines, of those superblocks of a stack that `p` names, which the snoop filter records in the host. -/
def hostLines (s : State) (stack : Nat) (p : Nat → Bool) : List Nat :=
  ((mscOf s stack).filter fun e => p e.1).flatMap fun e =>
    ((List.range 4).filter fun l => e.2.hostField l != 0).map fun l => e.1 * 4 + l

/-- The lines of a 64 KiB frame that the host holds (R351), and those of a bank set 3 (R149). -/
def heldLines (s : State) (frame : Nat) : List Nat := (List.range 16).flatMap fun k => hostLines s k fun sb => sb / 256 == frame
def deepLines (s : State) (stack : Nat) : List Nat := hostLines s stack (deepBlock stack)

/-- Takes lines back from the host (R136, R351). -/
def recallLines (s : State) (ls : List Nat) : State :=
  ls.foldl (fun s l => if asked s (l * 64) then s else { s with asks := s.asks ++ [hostAsk l (.backInvalidate true)] }) s

/-- The queue that a host's launch names is full (R291). -/
def launchFull (s : State) (i : Nat) : Bool := decide ((queued s (i / 64 % 8) (i % 4) (i / 4 % 16)).length ≥ 64)

/-- A host's launch (R291): the packet of 64 bytes at physical address `pa`, which the home can be read for, is appended to queue `i % 4`
of tenant `i / 4 % 16` on die `i / 64 % 8`, for a supervisor where bit 9 of `i` is set, and as a part of a gang that spans modules (R302)
where bit 10 is. Busy where the packet is not one (R260). -/
def hostLaunch (s : State) (i pa : Nat) : State :=
  let (s', ds) := readLine s pa
  let s' := ((lineWords pa).zip ds).foldl (fun s d => consume s d.1 d.2) s'
  let ws := (List.range 8).map fun j => (joinData (ds.getD (2 * j) .poison) (ds.getD (2 * j + 1) .poison)).2
  if (ds.any fun d => d.cause != 0) || launchIllop ws || (launchCheck ws).isSome then busy s
  else match appendLaunch s' (i / 64 % 8) (i % 4) (i / 4 % 16) (bit i 9) ws with
    | some s => setLaunch s s.serial { launchOf s s.serial with spans := bit i 10 }
    | none => busy s

/-- The command that waits for the host is carried out once it can be (R149, R287, R291, R351). -/
def finishCommand (s : State) : State :=
  match s.command with
  | none => s
  | some (.leaveHc f) =>
    let ls := heldLines s f
    if ls.isEmpty then { s with fattr := putAt 1 s.fattr f 1, command := none } else recallLines s ls
  | some (.table t) =>
    let (s, done) := attempt s fun s => writeL2p s t
    if done then { s with command := none } else s
  | some (.launch i pa) =>
    if launchFull s i then busy { s with command := none }
    else if (lineWords pa).all (readableNow s) then hostLaunch { s with command := none } i pa
    else (lineWords pa).foldl (fun s a => askHost s a false) s
  | some (.deep k) =>
    let ls := deepLines s k
    if ls.isEmpty then deepRetire { s with command := none } k else recallLines s ls

/-- A command begins, and is carried out at once where nothing of it waits for the host. -/
def beginCommand (s : State) (c : Command) : State := finishCommand { s with command := some c }

/-- `DEEP_RETENTION` (R149): bank set 3 of a stack is powered down, once the host has given up what it holds of it. -/
def execDeepRetention (stack : Nat) (s : State) : Out :=
  if stack ≥ 16 || s.command.isSome || s.bootFailed then .next s else .next (beginCommand s (.deep stack))

/-! ### Frames and format windows -/

/-- `FATTR_WRITE` (R348, R351): all 16 caches take a frame's home attribute; 2 and 3 are ignored. A frame that leaves HC first has its
lines taken back from the host. -/
def execFattrWrite (frame : Nat) (value : BitVec 2) (s : State) : Out :=
  managed s fun s =>
    if value ≥ 2 then s
    else if value = 1 then beginCommand s (.leaveHc frame)
    else { s with fattr := putAt 1 s.fattr frame value }

def windowOf (s : State) (n : Nat) : Window := look {} s.windows n
def setWindow (s : State) (n : Nat) (w : Window) : State := { s with windows := setAt s.windows n w }

/-- The storage, scale and view ranges of a window: base and size (R146). -/
def Window.ranges (w : Window) : List (Nat × Nat) :=
  let sfmt := bits w.ctl.toNat 2 3
  let units := bits w.ctl.toNat 32 32
  let n := 16384 * units
  let at' := fun (x : DWord) => bits x.toNat 12 40 * 4096
  [(at' w.sto, if sfmt == 0 || sfmt == 3 then n / 2 else n),
    (at' w.scl, if sfmt == 0 then 4096 * ((256 * units + 4095) / 4096) + 4 * units else n / 16),
    (at' w.view, if bit w.ctl.toNat 5 then n else 2 * n)]

def rangeIn (r : Nat × Nat) (lo hi : Nat) : Bool := decide (lo ≤ r.1 ∧ r.1 + r.2 ≤ hi)
def rangesMeet (a b : Nat × Nat) : Bool := decide (a.1 < b.1 + b.2 ∧ b.1 < a.1 + a.2)

/-- Why an enable is refused (R146). -/
def Window.refused (w : Window) (others : List Window) : Bool :=
  let rs := w.ranges
  let r := fun i => rs.getD i (0, 0)
  decide (bits w.ctl.toNat 2 3 > 3) || bits w.ctl.toNat 32 32 == 0 ||
    !rangeIn (r 0) 0 0x18000000000 || !rangeIn (r 1) 0 0x18000000000 || !rangeIn (r 2) 0x18000000000 0x1C000000000 ||
    others.any fun o => o.ranges.any fun x => rs.any (rangesMeet x)

/-- `FORMAT_WINDOW_ENABLE` (R146, R400): the window is enabled, or ERR is set; busy while it is enabled. -/
def execFormatWindowEnable (n : Nat) (s : State) : Out :=
  managed s fun s =>
    let w := windowOf s n
    if n ≥ 16 then s
    else if bit w.ctl.toNat 0 then busy s
    else
      let others := ((s.windows.filter fun e => e.1 != n).map fun e => e.2).filter fun o => bit o.ctl.toNat 0
      let bad := w.refused others
      setWindow s n { w with ctl := BitVec.ofNat 64 (setBits w.ctl.toNat 0 2 (if bad then 2 else 1)) }

/-- `FORMAT_WINDOW_DISABLE` (R146): the window's view words leave every L2 slice of the module. -/
def execFormatWindowDisable (n : Nat) (s : State) : Out :=
  managed s fun s =>
    let w := windowOf s n
    let v := w.ranges.getD 2 (0, 0)
    if !bit w.ctl.toNat 0 then s
    else
      let inView := fun pa => decide (v.1 ≤ pa ∧ pa < v.1 + v.2)
      let s := { s with l2 := s.l2.map fun d => (d.1, d.2.map fun e => (e.1, (List.range 64).foldl (fun b i =>
        if b.has i && inView (e.1 * 256 + 4 * i) then b.clear i else b) e.2)) }
      setWindow s n { w with ctl := BitVec.ofNat 64 (setBits w.ctl.toNat 0 1 0) }

/-! ### Registers of the management interface -/

/-- PWRCAP as written (R399). -/
def clampPwrcap (x : DWord) : DWord :=
  BitVec.ofNat 64 (max 1000 (min 15000 (bits x.toNat 0 14)) + max 1 (bits x.toNat 16 8) * 65536)

/-- Gives a quad to a tenant: its logical cores are then numbered densely, quad by quad, usable cores only (R287, R288). -/
def giveQuad (s : State) (t die quad : Nat) : State :=
  let x := tenantOf s t
  let q := (die, quad)
  let before := x.quads.filter fun y => decide (y.1 < die ∨ (y.1 = die ∧ y.2 < quad))
  let after := x.quads.filter fun y => decide (die < y.1 ∨ (y.1 = die ∧ quad < y.2))
  let quads := before ++ q :: after
  setTenant s t { x with quads := quads, cents := quads.flatMap (quadCores s) }

/-- A write of a format window's register (R145, R146): `r` is 0 FWCTL, 1 FWSTO, 2 FWSCL, 3 FWVIEW. EN has steps of its own. -/
def writeWindow (s : State) (n r : Nat) (x : DWord) : State :=
  let w := windowOf s n
  let base : DWord := BitVec.ofNat 64 (bits x.toNat 12 40 * 4096)
  if bit w.ctl.toNat 0 then (if r = 0 then busy s else s)
  else match r with
    | 0 => setWindow s n { w with ctl := BitVec.ofNat 64 (bits w.ctl.toNat 1 1 * 2 + bits x.toNat 2 4 * 4 + bits x.toNat 32 32 * 2 ^ 32) }
    | 1 => setWindow s n { w with sto := base }
    | 2 => setWindow s n { w with scl := base }
    | _ => setWindow s n { w with view := base }

/-- A register of a tenant: busy where the tenant's launches use it. A new partition, and a new place for it, has its L2P table written
(R287). -/
def writeTenant (s : State) (t cls : Nat) (v : DWord) : State :=
  let x := tenantOf s t
  if t ≥ 16 then s
  else match cls with
    | 1 => setTenant s t { x with lqcfg := v &&& 0xFFFFFFFFFFFF }
    | 3 => setTenant s t { x with tvec := v &&& ~~~3 }
    | 4 => setTenant s t { x with frecb := v &&& ~~~15 }
    | 9 => setTenant s t { x with vectors := x.vectors &&& ~~~v }
    | _ =>
      if tenantBusy s t then busy s
      else match cls with
        | 2 => setTenant s t { x with pageRoot := v.toNat }
        | 5 => beginCommand (setTenant s t { x with l2pb := v &&& ~~~63 }) (.table t)
        | 6 => setTenant s t { x with hostManaged := bit v.toNat 0 }
        | 7 =>
          let s := giveQuad s t (bits v.toNat 0 3) (bits v.toNat 8 8)
          if x.l2pb == 0 then s else beginCommand s (.table t)
        | _ => newKey s t

/-- `MANAGEMENT_REGISTER_WRITE` (R247, R287, R291, R295, R386, R399, R400). The interface's numbering is the model's: `reg / 65,536` is 0 for
PWRCAP, the spare-in threshold and functions taken out of READY, 1 to 9 for a tenant's registers, 10 for format windows, 11 for
copy queues (number, die, tenant), 12 for save areas, 13 for a host's launch, and from 16 on DBGCTL of team `reg - 2^20`. -/
def execManagementRegisterWrite (reg : Nat) (value : DWord) (s : State) : Out :=
  managed s fun s =>
    let i := reg % 65536
    match reg / 65536 with
    | 0 => (match i with
      | 0 => { s with pwrcap := clampPwrcap value }
      | 1 => { s with spareAt := min s.spareAt value.toNat }
      | 2 => { s with ready := s.ready &&& ~~~value }
      | _ => s)
    | 10 => if i < 64 then writeWindow s (i / 4) (i % 4) value else s
    | 11 =>
      let q : CopyQueue := { tenant := i % 16, die := i / 16 % 8, va := value }
      { s with queues := if value == 0 then drop s.queues (i / 128) else setAt s.queues (i / 128) q }
    | 12 => { s with saveAreas := setAt s.saveAreas i value.toNat }
    | 13 => beginCommand s (.launch i value.toNat)
    | 14 | 15 => s
    | c => if c < 10 then writeTenant s i c value
      else match s.teams.lookup (reg - 2 ^ 20) with
        | some t => if (bandOf s (bandKey (reg - 2 ^ 20))).attached then
            setTeam s (reg - 2 ^ 20) { t with dbgctl := value &&& 0x7FFF } else s
        | none => s

/-! ### Linked modules -/

/-- `MASTER_LINK_TIMEOUT` (R302, R364, R396): the module has lost its every link to the master. READY.THEBEL clears, the parts of gangs that
span modules and have not started are refused, and the replacement request is raised. -/
def execMasterLinkTimeout (s : State) : Out :=
  let s := { s with ready := s.ready &&& ~~~BitVec.ofNat 64 (2 ^ 28) }
  let parts := (s.launches.filter fun e => e.2.spans && !e.2.ended && e.2.startTick.isNone).map fun e => e.1
  .next (requestReplacement (parts.foldl (fun s id => refuseLaunch (dropBands s fun _ b => b.launch == id) id) s))

/-! ### Attestation and firmware -/

/-- `ATTESTATION_REPORT` (R394): the nonce, the registers, the security version, the tenant and its key-slot generation, signed. -/
def execAttestationReport (tenant nonce : Nat) (s : State) : Out :=
  managed s fun s =>
    let body := leBytes nonce 32 ++ (List.range 8).flatMap (fun i => leBytes (s.measures.getD i 0).toNat 48) ++
      leBytes s.secver 8 ++ leBytes tenant 8 ++ leBytes (tenantOf s tenant).keyGen 8
    let all := body ++ leBytes (Config.ecdsaSign (Config.sha384 body)).toNat 96
    { s with replies := (List.range (all.length / 8)).map fun i => BitVec.ofNat 64 (ofLeBytes ((all.drop (8 * i)).take 8)) }

/-- `FIRMWARE_UPDATE` (R400): the image takes effect at the next module reset; it is the recovery command too (R393). -/
def execFirmwareUpdate (image : Nat) (s : State) : Out := .next { s with firmware := image }

end Sys2Proof.Machine
end

