-- ==== Sys2Proof/Machine/Scalar.lean ====
section
/-! DEFINITION. The scalar instructions of R94 and R95. -/

namespace Sys2Proof.Machine

/-- MODE.TYPE as the scalar pipe reads it (R94): signed but under u32 and u64; none where reserved. -/
def Team.signedType (t : Team) : Option Bool :=
  if t.typeCode > 12 then none else some (t.typeCode != 1 && t.typeCode != 3)

/-- A scalar operation on `S[y]` and `S[z]`. -/
def scalar2 (x y z : BitVec 5) (f : Bool → DWord → DWord → DWord) (s : State) : Out :=
  withTeam s fun k t =>
    match t.signedType with
    | none => illop s k t
    | some sg =>
      gated s k t { srcS := [(y.toNat, false), (z.toNat, false)], dstS := [x.toNat] } fun t =>
        finish s k (t.ws x.toNat (f sg (t.rs y.toNat) (t.rs z.toNat)))

/-- Which of two scalars is lesser. -/
def scalarLess (sg : Bool) (a b : DWord) : Bool := if sg then decide (a.toInt < b.toInt) else decide (a.toNat < b.toNat)

/-- Truncating division; the most negative value over −1 gives the most negative value (R94). -/
def scalarDiv (sg : Bool) (a b : DWord) : DWord :=
  if sg then BitVec.ofInt 64 (Int.tdiv a.toInt b.toInt) else BitVec.ofNat 64 (a.toNat / b.toNat)

/-- A condition of R87 on two scalars. -/
def scalarCond (c : Nat) (sg : Bool) (a b : DWord) : Bool :=
  match c with
  | 0 => a == b
  | 1 => a != b
  | 2 => scalarLess sg a b
  | 3 => !scalarLess sg b a
  | 4 => scalarLess sg b a
  | _ => !scalarLess sg a b

/-- The amount of a scalar shift: `S[z][7:0]`. -/
def shiftAmount (b : DWord) : Nat := bits b.toNat 0 8

def execSadd (x y z : BitVec 5) (s : State) : Out := scalar2 x y z (fun _ a b => a + b) s
def execSsub (x y z : BitVec 5) (s : State) : Out := scalar2 x y z (fun _ a b => a - b) s
def execSmul (x y z : BitVec 5) (s : State) : Out := scalar2 x y z (fun _ a b => a * b) s
def execSand (x y z : BitVec 5) (s : State) : Out := scalar2 x y z (fun _ a b => a &&& b) s
def execSor (x y z : BitVec 5) (s : State) : Out := scalar2 x y z (fun _ a b => a ||| b) s
def execSxor (x y z : BitVec 5) (s : State) : Out := scalar2 x y z (fun _ a b => a ^^^ b) s
def execSshl (x y z : BitVec 5) (s : State) : Out := scalar2 x y z (fun _ a b => a <<< shiftAmount b) s
def execSshr (x y z : BitVec 5) (s : State) : Out := scalar2 x y z (fun _ a b => a >>> shiftAmount b) s
def execSsra (x y z : BitVec 5) (s : State) : Out := scalar2 x y z (fun _ a b => a.sshiftRight (shiftAmount b)) s
def execSmin (x y z : BitVec 5) (s : State) : Out := scalar2 x y z (fun sg a b => if scalarLess sg b a then b else a) s
def execSmax (x y z : BitVec 5) (s : State) : Out := scalar2 x y z (fun sg a b => if scalarLess sg a b then b else a) s
/-- `scmp`: the condition codes 6 and 7 trap ILLOP (R95). -/
def execScmp (x y : BitVec 5) (c : BitVec 3) (z : BitVec 5) (s : State) : Out :=
  if c.toNat > 5 then withTeam s fun k t => illop s k t
  else scalar2 x y z (fun sg a b => if scalarCond c.toNat sg a b then 1 else 0) s

/-- `sdiv`: DIVZ with no record for a zero divisor (R95). -/
def execSdiv (x y z : BitVec 5) (s : State) : Out :=
  withTeam s fun k t =>
    match t.signedType with
    | none => illop s k t
    | some sg =>
      gated s k t { srcS := [(y.toNat, false), (z.toNat, false)], dstS := [x.toNat] } fun t' =>
        if t'.rs z.toNat = 0 then refuse s k cDIVZ []
        else finish s k (t'.ws x.toNat (scalarDiv sg (t'.rs y.toNat) (t'.rs z.toNat)))

def execSaddi (x y : BitVec 5) (imm : BitVec 8) (s : State) : Out :=
  withTeam s fun k t =>
    match t.signedType with
    | none => illop s k t
    | some _ =>
      gated s k t { srcS := [(y.toNat, false)], dstS := [x.toNat] } fun t =>
        finish s k (t.ws x.toNat (t.rs y.toNat + imm.signExtend 64))

end Sys2Proof.Machine
end

