-- ==== Sys2Proof/Machine/Dispatch.lean ====
section
/-! DEFINITION. Execution of one instruction, or of one event: an arm for each row of the table. -/

namespace Sys2Proof.Machine

def exec (i : Instr) (s : State) : Host.Outcome State Fault Refusal :=
  match i with
  | .add d ta a tb b => Sys2Proof.Machine.execAdd d ta a tb b s
  | .sub d ta a tb b => Sys2Proof.Machine.execSub d ta a tb b s
  | .mul d ta a tb b => Sys2Proof.Machine.execMul d ta a tb b s
  | .mulh d ta a tb b => Sys2Proof.Machine.execMulh d ta a tb b s
  | .div d ta a tb b => Sys2Proof.Machine.execDiv d ta a tb b s
  | .rem d ta a tb b => Sys2Proof.Machine.execRem d ta a tb b s
  | .min d ta a tb b => Sys2Proof.Machine.execMin d ta a tb b s
  | .max d ta a tb b => Sys2Proof.Machine.execMax d ta a tb b s
  | .abs d ta a => Sys2Proof.Machine.execAbs d ta a s
  | .neg d ta a => Sys2Proof.Machine.execNeg d ta a s
  | .and d ta a tb b => Sys2Proof.Machine.execAnd d ta a tb b s
  | .or d ta a tb b => Sys2Proof.Machine.execOr d ta a tb b s
  | .xor d ta a tb b => Sys2Proof.Machine.execXor d ta a tb b s
  | .not d ta a => Sys2Proof.Machine.execNot d ta a s
  | .shl d ta a tb b => Sys2Proof.Machine.execShl d ta a tb b s
  | .shr d ta a tb b => Sys2Proof.Machine.execShr d ta a tb b s
  | .sra d ta a tb b => Sys2Proof.Machine.execSra d ta a tb b s
  | .bfx d ta a tb b => Sys2Proof.Machine.execBfx d ta a tb b s
  | .bfi d ta a tb b => Sys2Proof.Machine.execBfi d ta a tb b s
  | .popc d ta a => Sys2Proof.Machine.execPopc d ta a s
  | .clz d ta a => Sys2Proof.Machine.execClz d ta a s
  | .ctz d ta a => Sys2Proof.Machine.execCtz d ta a s
  | .brev d ta a => Sys2Proof.Machine.execBrev d ta a s
  | .cmp c p ta a tb b => Sys2Proof.Machine.execCmp c p ta a tb b s
  | .sel d ta a tb b => Sys2Proof.Machine.execSel d ta a tb b s
  | .cvt d ta a k st => Sys2Proof.Machine.execCvt d ta a k st s
  | .pack d ta a tb b => Sys2Proof.Machine.execPack d ta a tb b s
  | .unpk d ta a => Sys2Proof.Machine.execUnpk d ta a s
  | .mov d ta a => Sys2Proof.Machine.execMov d ta a s
  | .movs d ta a => Sys2Proof.Machine.execMovs d ta a s
  | .lid d => Sys2Proof.Machine.execLid d s
  | .rcp d ta a => Sys2Proof.Machine.execRcp d ta a s
  | .rsq d ta a => Sys2Proof.Machine.execRsq d ta a s
  | .sqrt d ta a => Sys2Proof.Machine.execSqrt d ta a s
  | .exp2 d ta a => Sys2Proof.Machine.execExp2 d ta a s
  | .log2 d ta a => Sys2Proof.Machine.execLog2 d ta a s
  | .sinr d ta a => Sys2Proof.Machine.execSinr d ta a s
  | .cosr d ta a => Sys2Proof.Machine.execCosr d ta a s
  | .tanh d ta a => Sys2Proof.Machine.execTanh d ta a s
  | .tbev d ta a => Sys2Proof.Machine.execTbev d ta a s
  | .shfi d ta a tb b => Sys2Proof.Machine.execShfi d ta a tb b s
  | .shfd d ta a b => Sys2Proof.Machine.execShfd d ta a b s
  | .shfx d ta a b => Sys2Proof.Machine.execShfx d ta a b s
  | .vany d inv p => Sys2Proof.Machine.execVany d inv p s
  | .vall d inv p => Sys2Proof.Machine.execVall d inv p s
  | .vbal d inv p => Sys2Proof.Machine.execVbal d inv p s
  | .tred d ta a op => Sys2Proof.Machine.execTred d ta a op s
  | .tscan d ta a excl op => Sys2Proof.Machine.execTscan d ta a excl op s
  | .segred d ta a tb b => Sys2Proof.Machine.execSegred d ta a tb b s
  | .tix d ta a b => Sys2Proof.Machine.execTix d ta a b s
  | .mad d ta a tb b tc c => Sys2Proof.Machine.execMad d ta a tb b tc c s
  | .msb d ta a tb b tc c => Sys2Proof.Machine.execMsb d ta a tb b tc c s
  | .nmad d ta a tb b tc c => Sys2Proof.Machine.execNmad d ta a tb b tc c s
  | .dot d ta a tb b tc c => Sys2Proof.Machine.execDot d ta a tb b tc c s
  | .addi d a imm => Sys2Proof.Machine.execAddi d a imm s
  | .muli d a imm => Sys2Proof.Machine.execMuli d a imm s
  | .andi d a imm => Sys2Proof.Machine.execAndi d a imm s
  | .ori d a imm => Sys2Proof.Machine.execOri d a imm s
  | .xori d a imm => Sys2Proof.Machine.execXori d a imm s
  | .shli d a imm => Sys2Proof.Machine.execShli d a imm s
  | .shri d a imm => Sys2Proof.Machine.execShri d a imm s
  | .srai d a imm => Sys2Proof.Machine.execSrai d a imm s
  | .cmpi c p a imm => Sys2Proof.Machine.execCmpi c p a imm s
  | .ldBase d b ord scope => Sys2Proof.Machine.execLdBase d b ord scope s
  | .ldVectorOffset d b o ord scope => Sys2Proof.Machine.execLdVectorOffset d b o ord scope s
  | .stBase d b ord scope ta => Sys2Proof.Machine.execStBase d b ord scope ta s
  | .stVectorOffset d b o ord scope ta => Sys2Proof.Machine.execStVectorOffset d b o ord scope ta s
  | .sld d b ord scope => Sys2Proof.Machine.execSld d b ord scope s
  | .sst d b ord scope ta => Sys2Proof.Machine.execSst d b ord scope ta s
  | .wgath d b o ord scope => Sys2Proof.Machine.execWgath d b o ord scope s
  | .wscat d b o ord scope ta => Sys2Proof.Machine.execWscat d b o ord scope ta s
  | .aadd d b o ord scope ta => Sys2Proof.Machine.execAadd d b o ord scope ta s
  | .amin d b o ord scope ta => Sys2Proof.Machine.execAmin d b o ord scope ta s
  | .amax d b o ord scope ta => Sys2Proof.Machine.execAmax d b o ord scope ta s
  | .aand d b o ord scope ta => Sys2Proof.Machine.execAand d b o ord scope ta s
  | .aor d b o ord scope ta => Sys2Proof.Machine.execAor d b o ord scope ta s
  | .axor d b o ord scope ta => Sys2Proof.Machine.execAxor d b o ord scope ta s
  | .axch d b o ord scope ta => Sys2Proof.Machine.execAxch d b o ord scope ta s
  | .acas d b o ord scope ta => Sys2Proof.Machine.execAcas d b o ord scope ta s
  | .ared d b c ord scope ta => Sys2Proof.Machine.execAred d b c ord scope ta s
  | .fence scope => Sys2Proof.Machine.execFence scope s
  | .phase scope => Sys2Proof.Machine.execPhase scope s
  | .pf b o => Sys2Proof.Machine.execPf b o s
  | .cwb b l scope => Sys2Proof.Machine.execCwb b l scope s
  | .cinv b l scope => Sys2Proof.Machine.execCinv b l scope s
  | .mwait d b o ord scope => Sys2Proof.Machine.execMwait d b o ord scope s
  | .br inv p off => Sys2Proof.Machine.execBr inv p off s
  | .bru inv p off => Sys2Proof.Machine.execBru inv p off s
  | .brany inv p off => Sys2Proof.Machine.execBrany inv p off s
  | .brall inv p off => Sys2Proof.Machine.execBrall inv p off s
  | .jmp off => Sys2Proof.Machine.execJmp off s
  | .call off => Sys2Proof.Machine.execCall off s
  | .nop => Sys2Proof.Machine.execNop s
  | .exit => Sys2Proof.Machine.execExit s
  | .trap z => Sys2Proof.Machine.execTrap z s
  | .brk z => Sys2Proof.Machine.execBrk z s
  | .rti => Sys2Proof.Machine.execRti s
  | .yield => Sys2Proof.Machine.execYield s
  | .callr x => Sys2Proof.Machine.execCallr x s
  | .callv x => Sys2Proof.Machine.execCallv x s
  | .ret => Sys2Proof.Machine.execRet s
  | .cut x y => Sys2Proof.Machine.execCut x y s
  | .stkrd x y f => Sys2Proof.Machine.execStkrd x y f s
  | .stkwr x y f => Sys2Proof.Machine.execStkwr x y f s
  | .rgnx => Sys2Proof.Machine.execRgnx s
  | .sadd x y z => Sys2Proof.Machine.execSadd x y z s
  | .ssub x y z => Sys2Proof.Machine.execSsub x y z s
  | .smul x y z => Sys2Proof.Machine.execSmul x y z s
  | .sdiv x y z => Sys2Proof.Machine.execSdiv x y z s
  | .sand x y z => Sys2Proof.Machine.execSand x y z s
  | .sor x y z => Sys2Proof.Machine.execSor x y z s
  | .sxor x y z => Sys2Proof.Machine.execSxor x y z s
  | .sshl x y z => Sys2Proof.Machine.execSshl x y z s
  | .sshr x y z => Sys2Proof.Machine.execSshr x y z s
  | .ssra x y z => Sys2Proof.Machine.execSsra x y z s
  | .smin x y z => Sys2Proof.Machine.execSmin x y z s
  | .smax x y z => Sys2Proof.Machine.execSmax x y z s
  | .scmp x y c z => Sys2Proof.Machine.execScmp x y c z s
  | .saddi x y imm => Sys2Proof.Machine.execSaddi x y imm s
  | .rdl x y z => Sys2Proof.Machine.execRdl x y z s
  | .wrl x y z => Sys2Proof.Machine.execWrl x y z s
  | .bar n => Sys2Proof.Machine.execBar n s
  | .barar n y => Sys2Proof.Machine.execBarar n y s
  | .barwt n y => Sys2Proof.Machine.execBarwt n y s
  | .barini n y => Sys2Proof.Machine.execBarini n y s
  | .barexp n y => Sys2Proof.Machine.execBarexp n y s
  | .bbar => Sys2Proof.Machine.execBbar s
  | .fwaitVector x => Sys2Proof.Machine.execFwaitVector x s
  | .fwaitScalar x => Sys2Proof.Machine.execFwaitScalar x s
  | .fwaitAll => Sys2Proof.Machine.execFwaitAll s
  | .tbld x => Sys2Proof.Machine.execTbld x s
  | .tbsw => Sys2Proof.Machine.execTbsw s
  | .shpld x y => Sys2Proof.Machine.execShpld x y s
  | .rbal x y c => Sys2Proof.Machine.execRbal x y c s
  | .mlopen x => Sys2Proof.Machine.execMlopen x s
  | .mlfill x y p => Sys2Proof.Machine.execMlfill x y p s
  | .mlsave x => Sys2Proof.Machine.execMlsave x s
  | .mlrest x => Sys2Proof.Machine.execMlrest x s
  | .mlstat x f => Sys2Proof.Machine.execMlstat x f s
  | .mlclose => Sys2Proof.Machine.execMlclose s
  | .cpl x y => Sys2Proof.Machine.execCpl x y s
  | .cpt x y => Sys2Proof.Machine.execCpt x y s
  | .cpm x y => Sys2Proof.Machine.execCpm x y s
  | .cpr x y => Sys2Proof.Machine.execCpr x y s
  | .coll x y => Sys2Proof.Machine.execColl x y s
  | .tgl x => Sys2Proof.Machine.execTgl x s
  | .lnch x y => Sys2Proof.Machine.execLnch x y s
  | .qpop x y => Sys2Proof.Machine.execQpop x y s
  | .qapp x y => Sys2Proof.Machine.execQapp x y s
  | .tld a b st => Sys2Proof.Machine.execTld a b st s
  | .tst a b st => Sys2Proof.Machine.execTst a b st s
  | .tzero a => Sys2Proof.Machine.execTzero a s
  | .mma a b c v => Sys2Proof.Machine.execMma a b c v s
  | .acz c v => Sys2Proof.Machine.execAcz c v s
  | .acrd d r a => Sys2Proof.Machine.execAcrd d r a s
  | .acwr d r a => Sys2Proof.Machine.execAcwr d r a s
  | .acst x a => Sys2Proof.Machine.execAcst x a s
  | .acver d a => Sys2Proof.Machine.execAcver d a s
  | .acverWait d w a => Sys2Proof.Machine.execAcverWait d w a s
  | .movc y c => Sys2Proof.Machine.execMovc y c s
  | .mvfc x c => Sys2Proof.Machine.execMvfc x c s
  | .sys x y n => Sys2Proof.Machine.execSys x y n s
  | .tlbi y k => Sys2Proof.Machine.execTlbi y k s
  | .rdtm x => Sys2Proof.Machine.execRdtm x s
  | .halt => Sys2Proof.Machine.execHalt s
  | .frrd x y f => Sys2Proof.Machine.execFrrd x y f s
  | .lkill x => Sys2Proof.Machine.execLkill x s
  | .ctxsv x => Sys2Proof.Machine.execCtxsv x s
  | .ctxld x => Sys2Proof.Machine.execCtxld x s
  | .mode ginv gp ty rnd sat ret ftz => Sys2Proof.Machine.execMode ginv gp ty rnd sat ret ftz s
  | .sli d imm => Sys2Proof.Machine.execSli d imm s
  | .slih d imm => Sys2Proof.Machine.execSlih d imm s
  | .slix d imm => Sys2Proof.Machine.execSlix d imm s
  | .joinat off => Sys2Proof.Machine.execJoinat off s
  | .rgn => Sys2Proof.Machine.execRgn s
  | .li d imm => Sys2Proof.Machine.execLi d imm s
  | .avWrite n y => Sys2Proof.Machine.execAvWrite n y s
  | .tsWrite n y => Sys2Proof.Machine.execTsWrite n y s
  | .spinj y => Sys2Proof.Machine.execSpinj y s
  | .crate n y => Sys2Proof.Machine.execCrate n y s
  | .ptrig y => Sys2Proof.Machine.execPtrig y s
  | .breakpointWrite n y => Sys2Proof.Machine.execBreakpointWrite n y s
  | .requestCollectorAdmission core => Sys2Proof.Machine.execRequestCollectorAdmission core s
  | .mergeTimeout core idx => Sys2Proof.Machine.execMergeTimeout core idx s
  | .l2SliceRequest idx => Sys2Proof.Machine.execL2SliceRequest idx s
  | .homeRequest idx => Sys2Proof.Machine.execHomeRequest idx s
  | .burstRead idx crcBad flips => Sys2Proof.Machine.execBurstRead idx crcBad flips s
  | .writeReplay pa bad => Sys2Proof.Machine.execWriteReplay pa bad s
  | .retrain idx ok => Sys2Proof.Machine.execRetrain idx ok s
  | .blockProcedure idx => Sys2Proof.Machine.execBlockProcedure idx s
  | .backInvalidateResponse idx words => Sys2Proof.Machine.execBackInvalidateResponse idx words s
  | .fill idx => Sys2Proof.Machine.execFill idx s
  | .publication idx => Sys2Proof.Machine.execPublication idx s
  | .backgroundScrub stack => Sys2Proof.Machine.execBackgroundScrub stack s
  | .sliceCountClear stack => Sys2Proof.Machine.execSliceCountClear stack s
  | .spareIn stack pc slice => Sys2Proof.Machine.execSpareIn stack pc slice s
  | .spareInComplete stack pc => Sys2Proof.Machine.execSpareInComplete stack pc s
  | .hotRemoveAcknowledge stack pc bankSet => Sys2Proof.Machine.execHotRemoveAcknowledge stack pc bankSet s
  | .deepRetention stack => Sys2Proof.Machine.execDeepRetention stack s
  | .hotAdd stack => Sys2Proof.Machine.execHotAdd stack s
  | .pageWalk core va => Sys2Proof.Machine.execPageWalk core va s
  | .messageSend die idx => Sys2Proof.Machine.execMessageSend die idx s
  | .fragmentReceive idx arrival => Sys2Proof.Machine.execFragmentReceive idx arrival s
  | .acknowledgement idx => Sys2Proof.Machine.execAcknowledgement idx s
  | .receiverRepairTimeout die idx => Sys2Proof.Machine.execReceiverRepairTimeout die idx s
  | .senderRepairTimeout die idx => Sys2Proof.Machine.execSenderRepairTimeout die idx s
  | .repairRequest idx => Sys2Proof.Machine.execRepairRequest idx s
  | .messageLoss die idx => Sys2Proof.Machine.execMessageLoss die idx s
  | .lossNotice idx => Sys2Proof.Machine.execLossNotice idx s
  | .poisonNotice idx => Sys2Proof.Machine.execPoisonNotice idx s
  | .delayedFragment idx => Sys2Proof.Machine.execDelayedFragment idx s
  | .linkRemoval die port => Sys2Proof.Machine.execLinkRemoval die port s
  | .timebaseCorrection offset => Sys2Proof.Machine.execTimebaseCorrection offset s
  | .masterLinkTimeout => Sys2Proof.Machine.execMasterLinkTimeout s
  | .hostReadShared pa => Sys2Proof.Machine.execHostReadShared pa s
  | .hostReadOwned pa => Sys2Proof.Machine.execHostReadOwned pa s
  | .hostWriteback pa words keep => Sys2Proof.Machine.execHostWriteback pa words keep s
  | .hostSnoopData pa => Sys2Proof.Machine.execHostSnoopData pa s
  | .hostSnoopInvalidate pa => Sys2Proof.Machine.execHostSnoopInvalidate pa s
  | .hostReadGrant idx owned words => Sys2Proof.Machine.execHostReadGrant idx owned words s
  | .atsCompletion idx present frame kind => Sys2Proof.Machine.execAtsCompletion idx present frame kind s
  | .atsInvalidation tenant base kind => Sys2Proof.Machine.execAtsInvalidation tenant base kind s
  | .pageRequestResponse idx granted => Sys2Proof.Machine.execPageRequestResponse idx granted s
  | .serviceReply idx value => Sys2Proof.Machine.execServiceReply idx value s
  | .extentRelease idx => Sys2Proof.Machine.execExtentRelease idx s
  | .surpriseRemoval idx => Sys2Proof.Machine.execSurpriseRemoval idx s
  | .launchHead die queue => Sys2Proof.Machine.execLaunchHead die queue s
  | .bandPlacement die => Sys2Proof.Machine.execBandPlacement die s
  | .quantumExpiry die queue => Sys2Proof.Machine.execQuantumExpiry die queue s
  | .stageBalancer launch => Sys2Proof.Machine.execStageBalancer launch s
  | .gangStart launch => Sys2Proof.Machine.execGangStart launch s
  | .operatingPointStable die => Sys2Proof.Machine.execOperatingPointStable die s
  | .kernelBoundary launch => Sys2Proof.Machine.execKernelBoundary launch s
  | .preEmption band => Sys2Proof.Machine.execPreEmption band s
  | .resumption band => Sys2Proof.Machine.execResumption band s
  | .trapEntry team => Sys2Proof.Machine.execTrapEntry team s
  | .regionRestart team => Sys2Proof.Machine.execRegionRestart team s
  | .mwaitSatisfied team => Sys2Proof.Machine.execMwaitSatisfied team s
  | .mwto team => Sys2Proof.Machine.execMwto team s
  | .barrierWaitEnd team => Sys2Proof.Machine.execBarrierWaitEnd team s
  | .mmaCommand core => Sys2Proof.Machine.execMmaCommand core s
  | .aczCommand core => Sys2Proof.Machine.execAczCommand core s
  | .acstCommand core => Sys2Proof.Machine.execAcstCommand core s
  | .tableLoadComplete core => Sys2Proof.Machine.execTableLoadComplete core s
  | .mlfillComplete team => Sys2Proof.Machine.execMlfillComplete team s
  | .copyPacketStart die queue => Sys2Proof.Machine.execCopyPacketStart die queue s
  | .copyRead idx => Sys2Proof.Machine.execCopyRead idx s
  | .mergeWindowClose die idx => Sys2Proof.Machine.execMergeWindowClose die idx s
  | .copyComplete idx dest => Sys2Proof.Machine.execCopyComplete idx dest s
  | .collectiveMatch idx => Sys2Proof.Machine.execCollectiveMatch idx s
  | .collectiveComplete idx part => Sys2Proof.Machine.execCollectiveComplete idx part s
  | .nodeComplete idx => Sys2Proof.Machine.execNodeComplete idx s
  | .debugStep team => Sys2Proof.Machine.execDebugStep team s
  | .stepLane team lane => Sys2Proof.Machine.execStepLane team lane s
  | .ptrigFire band => Sys2Proof.Machine.execPtrigFire band s
  | .securityAlarm source => Sys2Proof.Machine.execSecurityAlarm source s
  | .powerLimitStep above => Sys2Proof.Machine.execPowerLimitStep above s
  | .currentLimit die => Sys2Proof.Machine.execCurrentLimit die s
  | .currentRestore die => Sys2Proof.Machine.execCurrentRestore die s
  | .thermalLimit die => Sys2Proof.Machine.execThermalLimit die s
  | .thermalShutdown => Sys2Proof.Machine.execThermalShutdown s
  | .moduleReset => Sys2Proof.Machine.execModuleReset s
  | .functionReady bitNo passed => Sys2Proof.Machine.execFunctionReady bitNo passed s
  | .counterRead unit => Sys2Proof.Machine.execCounterRead unit s
  | .counterClear unit => Sys2Proof.Machine.execCounterClear unit s
  | .rasLogRead => Sys2Proof.Machine.execRasLogRead s
  | .errorRecordRead launch => Sys2Proof.Machine.execErrorRecordRead launch s
  | .tenantCreate root => Sys2Proof.Machine.execTenantCreate root s
  | .tenantDestroy tenant => Sys2Proof.Machine.execTenantDestroy tenant s
  | .fattrWrite frame value => Sys2Proof.Machine.execFattrWrite frame value s
  | .formatWindowEnable n => Sys2Proof.Machine.execFormatWindowEnable n s
  | .formatWindowDisable n => Sys2Proof.Machine.execFormatWindowDisable n s
  | .managementRegisterWrite reg value => Sys2Proof.Machine.execManagementRegisterWrite reg value s
  | .debuggerAttach band => Sys2Proof.Machine.execDebuggerAttach band s
  | .bandResume band => Sys2Proof.Machine.execBandResume band s
  | .attestationReport tenant nonce => Sys2Proof.Machine.execAttestationReport tenant nonce s
  | .firmwareUpdate image => Sys2Proof.Machine.execFirmwareUpdate image s
  | .unassignedOpcode w => Sys2Proof.Machine.execUnassignedOpcode w s
  | .instructionFetchFault cause => Sys2Proof.Machine.execInstructionFetchFault cause s
  | .producerCompletion team => Sys2Proof.Machine.execProducerCompletion team s
  | .stepAbort team => Sys2Proof.Machine.execStepAbort team s
  | .launchEndFromOutside launch => Sys2Proof.Machine.execLaunchEndFromOutside launch s
  | .extentAdd port range => Sys2Proof.Machine.execExtentAdd port range s

end Sys2Proof.Machine
end

