-- ==== Sys2Proof/Machine/Issue.lean ====
section
/-! DEFINITION. What a step does around the execution of an instruction: whose turn it is (R310), the reconvergence before an issue
(R157, R158), PTRIG and breakpoints (R202, R205), the fetch (R167), and the events that the machine takes by itself. -/

namespace Sys2Proof.Machine

/-! ### Turns -/

/-- A team that may issue: its band runs, or its debugger has let it step, and nothing holds it. In a band that
stops for a pre-emption, a debugger or `halt`, a `tbld` or a `tbsw` already issued completes (R196, R202, R325). -/
def canIssue (s : State) (k : Nat) (t : Team) : Bool :=
  t.hold == .free && t.trapping.isNone &&
    ((bandOf s (bandKey k)).run == .going || (t.credit && (bandOf s (bandKey k)).run == .stopped) ||
      ([Run.stopping, .halting, .breaking].contains (bandOf s (bandKey k)).run && (coreOf s t.core).tabWait.contains k))

/-- One tick of the timebase, unless a correction holds it back (R364): waits with a limit come nearer to it (R127). -/
def passTime (s : State) : State :=
  { s with
    tick := if s.lag = 0 then s.tick + 1 else s.tick
    lag := s.lag - 1
    steps := s.steps + 1
    teams := s.teams.map fun e => match e.2.hold with
      | .mwait d va pa target scope acq old left =>
        (e.1, { e.2 with hold := .mwait d va pa target scope acq old (left - 1) })
      | _ => e }

/-- The turn is over. -/
def passTurn : Out → Out
  | .next s => .next { s with cur := none }
  | r => r

/-! ### Fetching -/

/-- What a fetch gives. -/
inductive Fetched where
  | word (w : Word)
  | fault (cause : Nat)
  | wait (pa : Option Nat)
  deriving DecidableEq, Repr

/-- The word at a physical address in a core's read view, without a trace in any cache. -/
def peekWord (s : State) (core pa key : Nat) : Datum :=
  match held (l1Of s core) pa with
  | some d => d
  | none => match held (l2Of s (core / 144)) pa with
    | some d => d
    | none => homePeek s pa key

/-- The word that an instruction cache holds good (R2, R378). -/
def Core.code (c : Core) (pa : Nat) : Option Word := if c.ibad.contains (pa / 4) then none else c.icache.lookup (pa / 4)

/-- Fetches the word at a team's PC (R167): the instruction cache gives it, or the core's read view does. An address of the aperture
refuses execution. A word that cannot be read good is a data fault of the fetch. -/
def fetch (s : State) (k : Nat) (t : Team) : Fetched :=
  if inAperture t.pc then .fault cPROT
  else match checkAddr s t.core (bandKey k) 4 t.pc .fetch with
    | .fault c => .fault c
    | .wait _ => .wait none
    | .go (.pad _ _) => .fault cPROT
    | .go (.mem pa key _) =>
      match (coreOf s t.core).code pa with
      | some w => .word w
      | none =>
        if !readReady s t.core pa then .wait (some pa)
        else match peekWord s t.core pa key with
          | .ok w => .word w
          | d => .fault d.cause

/-- The instruction cache takes a word, in the place of its first where it holds 64 KiB (R2). -/
def Core.enterCode (c : Core) (pa : Nat) (w : Word) : Core :=
  { c with icache := setAt (if c.icache.length ≥ 16384 then c.icache.drop 1 else c.icache) (pa / 4) w }

/-- What a fetch leaves behind: a word of the cache that fails its parity takes its line out (R378), and a word that the cache did not
give has been read at the L2 slice, where the L1 does not hold it, and enters the cache. -/
def fetchTrace (s : State) (k : Nat) (t : Team) : State :=
  match checkAddr s t.core (bandKey k) 4 t.pc .fetch with
  | .go (.mem pa key _) =>
    let c := coreOf s t.core
    if (c.code pa).isSome || !readReady s t.core pa then s
    else
      let bad := c.ibad.contains (pa / 4)
      let s := if bad then setCore s t.core (c.dropCode fun i => i / 16 == pa / 64) else s
      let (s, d) := match held (l1Of s t.core) pa with
        | some d => (s, d)
        | none => l2Read s (t.core / 144) pa key 0 (bandOf s (bandKey k)).tenant
      match d with
      | .ok w => setCore s t.core ((coreOf s t.core).enterCode pa w)
      | d => consume s pa d
  | _ => s

/-! ### Issuing -/

/-- A PC breakpoint of the band matches (R201, R202). -/
def atBreakpoint (b : Band) (t : Team) : Bool :=
  !b.bp.isEmpty && !bit t.dbgctl.toNat 12 && (List.range 8).any fun i =>
    let r := (look 0 b.bp i).toNat
    bit r 0 && bits r 2 55 == bits t.pc.toNat 2 55

/-- The team that a band's PTRIG names has issued as many instructions as it counts (R205). -/
def ptrigDue (s : State) (band : Nat) : Bool :=
  let v := (bandOf s band).ptrig.toNat
  bit v 63 && match s.teams.lookup (16 * (16 * band + bits v 36 4) + bits v 32 4) with
    | some t => decide (t.count ≥ bits v 0 32)
    | none => false

/-- Executes the word at the team's PC, once the checks before an issue have passed. -/
def issueWord (s : State) (k : Nat) (t : Team) : Out :=
  match fetch s k t with
  | .fault c =>
    if c == cXLATE || c == cPROT then execInstructionFetchFault (BitVec.ofNat 8 c) s
    else .next (raise (fetchTrace s k t) k t c [{ cause := c, addr := t.pc, flags := 4 }])
  | .wait pa => .next (waitHere (match pa with
    | some a => askHost s a false
    | none => s))
  | .word w =>
    let s := fetchTrace s k t
    match decodeWord w with
    | .ok i => exec i s
    | .error _ => execUnassignedOpcode w s

/-- A step-lane's lane has been active at this issue (R204). -/
def Team.meetLane (t : Team) : Team :=
  match t.stepLane with
  | some L => if bit t.mask.toNat L then { t with stepLane := none } else t
  | none => t

/-- The issue of a team (R157, R202, R205). -/
def issue (s : State) (k : Nat) (t : Team) : Out :=
  if ptrigDue s (bandKey k) && (bandOf s (bandKey k)).run == .going then execPtrigFire (bandKey k) s
  else match reconverge s k t.reconvergeFuel t with
    | (s, .retire) => .next (retireTeam s k)
    | (s, .stop t' x) => .next (spillThen (α := Unit) (setTeam s k t') k (.error x) fun _ => s)
    | (s, .issue t') =>
      let s := setTeam s k t'
      if atBreakpoint (bandOf s (bandKey k)) t' then
        .next (debugEvent s k t' 4 [record 0 cBREAK t'.pc] t'.pc)
      else
        let t' := t'.meetLane
        issueWord (noteMisses (setTeam s k t') k t' [t'.pc]) k t'

/-- The turn of a team: it issues if it may. -/
def teamTurn (s : State) (k : Nat) : Out :=
  match s.teams.lookup k with
  | none => .next s
  | some t => if canIssue s k t then passTurn (issue { s with cur := some k, stalled := false } k t) else .next s

/-! ### Choosing -/

/-- A team's next instruction waits, its sources for instance (R48, R309): an issue would do nothing. -/
def idles (s : State) (k : Nat) (t : Team) : Bool :=
  match issue { s with cur := some k, stalled := false } k t with
  | .next x => x.stalled && decide ({ x with stalled := s.stalled, cur := s.cur } = s)
  | _ => false

/-- The ready teams of the machine, and their quarters (R309). -/
def readyTeams (s : State) : NMap Team := s.teams.filter fun e => canIssue s e.1 e.2 && !idles s e.1 e.2
def Team.place (t : Team) : Nat := 4 * t.core + t.quarter

/-- An age is held as one more than R310's; that of a team that has yielded is held as 0 until it ages (R174). -/
def ageCap : Nat := 65
def Team.older (t : Team) : Team := { t with age := if t.age = 0 then 2 else min (t.age + 1) ageCap }

/-- The team that a quarter chooses among its ready ones (R310): the highest age, the lowest slot on a tie; at the cap in turn, from the
slot `from'` on. -/
def pickTeam (from' : Nat) (ts : NMap Team) : Option Nat :=
  let top := ts.foldl (fun a e => max a e.2.age) 0
  let best := ts.filter fun e => e.2.age == top
  ((if top ≥ ageCap then (best.find? fun e => decide (e.1 ≥ from')).or best.head? else best.head?)).map fun e => e.1

/-- The quarters that have a ready team take turns, and the one whose turn it is chooses a team; the others of that quarter age (R309,
R310). -/
def choose (s : State) : State :=
  let ready := readyTeams s
  let ps := ready.map fun e => e.2.place
  match ((ps.filter fun p => p > s.turnQ).min?).or ps.min? with
  | none => { s with cur := none }
  | some q =>
    let mine := ready.filter fun e => e.2.place == q
    match pickTeam (look 0 s.capped q) mine with
    | none => { s with cur := none }
    | some k =>
      let old := (teamOf s k).age
      { s with
        cur := some k
        turnQ := q
        capped := if old ≥ ageCap then setAt s.capped q (k + 1) else s.capped
        teams := s.teams.map fun e => if e.1 == k then (e.1, { e.2 with age := 1 })
          else if mine.any fun x => x.1 == e.1 then (e.1, e.2.older) else e }

/-! ### Events that the machine takes by itself -/

/-- A die sends the oldest unsent message to each other die, and its oldest acknowledgement or repair request to it. -/
def sendEvents (s : State) (die : Nat) : List (State → Out) :=
  let out := s.msgs.filter fun m => m.src == die && !m.sent
  (out.zipIdx.filter fun m => !(out.take m.2).any fun x => x.dst == m.1.dst && (x.cls == 7) == (m.1.cls == 7)).map fun m =>
    execMessageSend die m.2

/-- Events of the word path and of Sparge. -/
def wordEvents (s : State) : List (State → Out) :=
  let cores := (s.loads.map fun o => o.core).eraseDups
  ((cores.filter fun c => s.loads.any fun o => o.core == c && o.words.any fun w => w.stage == .waiting).map execRequestCollectorAdmission) ++
    ((((s.misses.filter fun m => !m.sent).map fun m => m.core).eraseDups).map fun c => execMergeTimeout c 0) ++
    (if s.l2q.isEmpty then [] else [execL2SliceRequest 0]) ++
    (if s.homeq.isEmpty then [] else [execHomeRequest 0]) ++
    (if s.bursts.isEmpty then [] else [execBurstRead 0 false []]) ++
    (if s.bursts.any fun b => b.retraining then [execRetrain 0 true] else []) ++
    ((s.blocks.findIdx? fun b => b.proc).map execBlockProcedure).toList ++
    (if s.fills.isEmpty then [] else [execFill 0]) ++
    ((s.pubs.findIdx? fun p => !p.sent).map execPublication).toList ++
    (s.walks.head?.map fun w => execPageWalk w.core w.va).toList ++
    ((List.range 8).flatMap (sendEvents s)) ++
    ((s.frags.findIdx? fun f => !f.delayed).map fun i => execFragmentReceive i (some 0)).toList ++
    (if s.frags.any fun f => f.delayed then [execDelayedFragment 0] else []) ++
    (if s.inbox.isEmpty then [] else [execAcknowledgement 0, execRepairRequest 0, execLossNotice 0, execPoisonNotice 0])

/-- The timeouts of Sparge (R362), once nothing more is on its way. -/
def repairEvents (s : State) : List (State → Out) :=
  if s.frags.isEmpty && s.inbox.isEmpty && s.msgs.all fun m => m.sent then
    (List.range 8).flatMap fun d =>
      (if (List.range 8).any fun src => !(look {} s.rx (8 * d + src)).parts.isEmpty then [execReceiverRepairTimeout d 0] else []) ++
        if (retained s d).isEmpty then [] else [execSenderRepairTimeout d 0, execMessageLoss d 0]
  else []

/-- Events of teams and their cores. -/
def teamEvents (s : State) : List (State → Out) :=
  (s.teams.flatMap fun e =>
    (if e.2.trapping.isSome && !outstanding s e.1 then [execTrapEntry e.1, execRegionRestart e.1] else []) ++
    match e.2.hold with
    | .mwait _ _ _ _ _ _ _ left => execMwaitSatisfied e.1 :: if e.2.mwto ≠ 0 ∧ left = 0 then [execMwto e.1] else []
    | .barrier _ _ => [execBarrierWaitEnd e.1]
    | .band _ => [execBarrierWaitEnd e.1]
    | _ => []) ++
    (s.producers.head?.map fun p => execProducerCompletion p.team).toList ++
    (s.millJobs.head?.map fun j => execMlfillComplete j.team).toList ++
    (s.cores.flatMap fun e => (if e.2.tabLoads.isEmpty then [] else [execTableLoadComplete e.1]) ++
      if e.2.queue.isEmpty then [] else [execMmaCommand e.1, execAczCommand e.1, execAcstCommand e.1])

/-- Events of the engines and the schedulers. -/
def moduleEvents (s : State) : List (State → Out) :=
  (s.queues.map fun e => execCopyPacketStart e.2.die e.1) ++
    (s.copies.zipIdx.flatMap fun c => execCopyRead c.2 :: (List.range (c.1.dests.length + 1)).map fun d => execCopyComplete c.2 d) ++
    (s.groups.head?.map fun g => execMergeWindowClose g.die 0).toList ++
    (s.parts.zipIdx.map fun p => execCollectiveMatch p.2) ++
    (s.exchanges.zipIdx.flatMap fun e => (List.range e.1.data.length).map fun r => execCollectiveComplete e.2 r) ++
    (if s.walking.isEmpty then [] else [execNodeComplete 0]) ++
    ((s.launches.filter fun e => !e.2.ended).flatMap fun e =>
      [execLaunchHead e.2.die (4 * e.2.tenant + e.2.queue), execBandPlacement e.2.die, execGangStart e.1, execKernelBoundary e.1] ++
        if e.2.pipe && decide (s.tick ≥ e.2.balanced + 10000) then [execStageBalancer e.1] else []) ++
    (s.dies.filterMap fun e => if e.2.settling then some (execOperatingPointStable e.1) else none) ++
    (s.bands.filterMap fun e => match e.2.run with
      | .stopping | .halting | .breaking => some (execPreEmption e.1)
      | .going => if ptrigDue s e.1 then some (execPtrigFire e.1) else none
      | .saved => some (execResumption e.1)
      | _ => none) ++
    s.blocked.map fun e => execQuantumExpiry (e.1 / 64) (e.1 % 64)

/-- Slices that have reached the spare-in threshold (R386). -/
def spareEvents (s : State) : List (State → Out) :=
  s.drams.flatMap fun k => ((k.2.slices.map fun e => e.1 / 2).eraseDups).filterMap fun x =>
    if look 0 k.2.slices (2 * x) + look 0 k.2.slices (2 * x + 1) ≥ s.spareAt ∧ (k.2.sparing.lookup (x / 16)).isNone ∧
        (k.2.spared.lookup (x / 16)).isNone then some (execSpareIn k.1 (x / 16) (x % 16)) else none

def pendingEvents (s : State) : List (State → Out) := wordEvents s ++ repairEvents s ++ teamEvents s ++ moduleEvents s ++ spareEvents s

/-- An event that the machine takes by itself, a different one as time goes by: no stride of ticks meets only some of them. -/
def nextEvent (s : State) : Option (State → Out) :=
  let es := pendingEvents s
  es[(s.tick + s.tick / 64 + s.tick / 4096) % max es.length 1]?

/-- A step with no agenda: after a wait, or at every 64th tick, an event; else the issue of the team whose turn it is. -/
def ownStep (s : State) : Out :=
  let due := s.stalled || s.tick % 64 == 63
  match (if due then nextEvent s else none) with
  | some e => e { s with stalled := false }
  | none =>
    let s := choose { s with stalled := false }
    match s.cur with
    | some k => teamTurn s k
    | none => match nextEvent s with
      | some e => e s
      | none => .next s

/-- What goes on by itself before a step: owed stamps are written, the launches that an event has doomed end, the debugger's steps that are
over are closed, and the management command and the alarm that wait are carried on. -/
def background (s : State) : State := finishAlarm (finishCommand (closeSteps (settle s)))

/-- One step of the machine: what goes on by itself, time passes, a die whose bands have left takes its point (R308), and the agenda's head or the machine's own choice is carried out. -/
def stepBody (s : State) : Out :=
  let s := passTime (background s)
  let s := if s.launches.isEmpty then s else retuneAll s
  match s.agenda with
  | .event e :: r => exec e { s with agenda := r }
  | .team k :: r => teamTurn { s with agenda := r } k
  | [] => ownStep s

end Sys2Proof.Machine
end

