-- ==== Sys2Proof/Machine/Step.lean ====
section
/-! DEFINITION. One step of the machine, and the placing of an instruction where the next step fetches. -/

namespace Sys2Proof.Machine

/-- One step. -/
def step (s : State) : Host.Outcome State Fault Refusal := stepBody s

/-- A team that runs: one row of 32 live lanes with 64 vector registers, in crew 0 of band 0 on core 0. -/
def bootTeam : Team := { vregs := 64, mask := BitVec.ofNat 1024 (2 ^ 32 - 1), live := BitVec.ofNat 1024 (2 ^ 32 - 1) }

/-- The state with a running team: the current one where there is one that may issue, else a team of its own. -/
def State.withTurn (s : State) : State × Nat × Team :=
  match s.cur.bind fun k => (s.teams.lookup k).map fun t => (k, t) with
  | some (k, t) =>
    if canIssue s k t && !inAperture t.pc && canonicalVa t.pc then (s, k, t) else boot
  | none => boot
where
  boot : State × Nat × Team :=
    let s := setBand s 0 { crews := 1, cores := [0], liveTeams := 1, bneed := 1 }
    let s := setCrew s 0 { teams := 1 }
    (setTeam s 0 bootTeam, 0, bootTeam)

/-- Places an instruction word where the next step fetches: the turn goes to a team whose PC's page is mapped, executable, to
physical page 0, and the word lies at the PC's offset in it. -/
def State.withFetchWord (s : State) (_nbits w : Nat) : State :=
  let (s, k, t) := s.withTurn
  let va := t.pc.toNat % 2 ^ 57
  let tr : Trans := { tenant := (bandOf s (bandKey k)).tenant, base := va / 65536 * 65536, w := true, x := true }
  let pa := va % 65536 / 4 * 4
  let c := coreOf s t.core
  let l1 := if (held c.l1 pa).isSome then dropWord c.l1 pa else c.l1
  let s := setCore s t.core { c.dropCode (fun i => i == pa / 4) with tlb := tr :: c.tlb, l1 := l1 }
  let s := if (held (l2Of s (t.core / 144)) pa).isSome then setL2 s (t.core / 144) (dropWord (l2Of s (t.core / 144)) pa) else s
  let s := if (held (mscOf s (stackNo pa)) pa).isSome then setMsc s (stackNo pa) (dropWord (mscOf s (stackNo pa)) pa) else s
  { s with
    mem := putWord s.mem pa (BitVec.ofNat 32 w)
    memPoison := s.memPoison.filter fun a => a != pa
    flips := drop s.flips pa
    agenda := [.team k] }

end Sys2Proof.Machine
end

