-- ==== Sys2Proof/Safety.lean ====
section
/-! DEFINITION. The terms that claims are stated in: a team whose turn it is, registers that hold good values, and a machine in
which no storage or pipe fault is pending. -/

namespace Sys2Proof.Machine

/-- It is the turn of team `k`, whose registers are `t`. -/
abbrev Runs (s : State) (k : Nat) (t : Team) : Prop := s.cur = some k ∧ s.teams.lookup k = some t

/-- No pipe is upset, and no register of the team fails its code (R192, R378). -/
abbrev Quiet (s : State) (t : Team) : Prop :=
  s.upset = none ∧ t.upsetV = [] ∧ t.upsetS = [] ∧ t.upsetP = [] ∧ t.softV = [] ∧ t.softS = [] ∧ t.softP = []

/-- The named vector registers are full and carry no data fault (R47, R110). -/
abbrev FullV (t : Team) (rs : List Nat) : Prop := ∀ r ∈ rs, t.vIsEmpty r = false ∧ t.vFault.lookup r = none

/-- The named scalar registers are full and carry no data fault. -/
abbrev FullS (t : Team) (rs : List Nat) : Prop := ∀ r ∈ rs, t.sIsEmpty r = false ∧ t.sFault.lookup r = none

/-- The team may go to memory: no acquire of it is incomplete, and it holds no release (R122). -/
abbrev Free (t : Team) : Prop := t.acquiring = false ∧ t.release = none

/-- Nothing that a release waits for is left: the team has no load or atomic outstanding, its core holds no dirty word, and no
publication waits for the next release number (R122). -/
abbrev Published (s : State) (k : Nat) (t : Team) : Prop :=
  t.release = none ∧ loading s k = false ∧ releaseDone s s.serial = true ∧ ∀ e ∈ l1Of s t.core, e.2.dirty = 0

/-- The state in which a release that had nothing to wait for goes on: its number is used, and the requests of the core that were
still gathering words have left (R122, R129). -/
def released (s : State) (t : Team) : State := flushMisses { s with serial := s.serial + 1 } t.core

/-- No band of the team has a breakpoint or a watchpoint (R201). -/
abbrev Unwatched (s : State) (k : Nat) : Prop := (bandOf s (bandKey k)).bp = []

/-- The team may access the `n` bytes at `va` now, and its misses are noted in `s0`: no acquire holds it back, no watchpoint is set, every
page passes its check, the words lie at `ps`, and no access of its own to them is under way that it would have to follow (R107, R113,
R202). -/
structure Granted (s : State) (k : Nat) (t : Team) (align n : Nat) (va : DWord) (a : Acc) (s0 : State) (ps : List Place) : Prop where
  free : t.acquiring = false
  unwatched : Unwatched s k
  missed : s0 = noteMisses s k t (pageStarts va n)
  checked : imageFault s0 t.core (bandKey k) align n va a = none
  places : wordPlaces s0 k t 4 va (n / 4) a = .ok ps
  ordered : inOrder s0 k ps (a == .write) = true

/-- The team's Mill, if it has one, is settled without a wait: `s1` and `t1` are the machine and the team with its boundaries found (R210,
R234). -/
def Settled (s : State) (k : Nat) (t : Team) (s1 : State) (t1 : Team) : Prop :=
  match t.mill with
  | none => s1 = s ∧ t1 = t
  | some m =>
    let r := millSettled s k t m
    t.acquiring = false ∧ (match r.2.2 with
      | some .wait => False
      | _ => True) ∧ s1 = setTeam r.1 k { teamOf r.1 k with mill := some r.2.1 } ∧ t1 = { t with mill := some r.2.1 }

/-- The vector registers that a lane operation names, under a type's width. -/
def VOp.regs (o : VOp) (wide : Bool) : List Nat := (o.srcs.flatMap fun r => pair wide r.1) ++ pair wide o.d

/-- The word that a wide or a narrow value puts into register `r` of a destination `d`. -/
def destWord (wide : Bool) (d r x : Nat) : Word := if wide && r == d + 1 then BitVec.ofNat 32 (x / 2 ^ 32) else BitVec.ofNat 32 x

/-- The outcome of an instruction that writes the present lanes of a register and raises flags: the next instruction follows, the
lanes hold what `f` gives, and no other register and no other part of the machine has changed. -/
def LanesWritten (s : State) (k : Nat) (t : Team) (wide : Bool) (d : Nat) (f : Nat → Nat × Flags) (out : Out) : Prop :=
  ∃ t', out = .next (setTeam s k t') ∧
    t' = { t.next with v := t'.v, fstat := t.fstat ||| ((laneList t t.present).foldl (fun a L => a ||| (f L).2) 0).setWidth 64 } ∧
    ∀ r L, L < 1024 → t'.rv r L = if r ∈ pair wide d ∧ L ∈ laneList t t.present then destWord wide d r (f L).1 else t.rv r L

/-- A step that stops: the machine answers no next state. -/
def Stops (s : State) : Prop := ∀ s', step s ≠ .next s'

end Sys2Proof.Machine
end

