-- ==== Sys2Proof/Certificates/Slice0/Obligations.lean ====
section
/-! DEFINITION. The statements about the GL9. Each names the rules of spec/ that it says; `Runs s k t` says that it is the turn of
team `k` with registers `t`, and the hypotheses `Quiet` and `Full…` that no fault is pending in the registers an instruction
names. -/

open Sys2Proof Sys2Proof.Machine

/-! ### Vector instructions -/

/-- The vector instructions of one mould: destination, sources with their t bits, element types, and the lane's result. -/
def laneOp : Instr → Option VOp
  | .add d ta a tb b => some { d := d.toNat, srcs := [(a.toNat, ta), (b.toNat, tb)], classes := arithClasses, f := elem2 (addElem false) }
  | .sub d ta a tb b => some { d := d.toNat, srcs := [(a.toNat, ta), (b.toNat, tb)], classes := arithClasses, f := elem2 (addElem true) }
  | .mul d ta a tb b => some { d := d.toNat, srcs := [(a.toNat, ta), (b.toNat, tb)], classes := arithClasses, f := elem2 mulElem }
  | .mulh d ta a tb b => some { d := d.toNat, srcs := [(a.toNat, ta), (b.toNat, tb)], classes := [.I, .PI], f := elem2 mulhElem }
  | .min d ta a tb b => some { d := d.toNat, srcs := [(a.toNat, ta), (b.toNat, tb)], classes := arithClasses, f := elem2 (pickElem false) }
  | .max d ta a tb b => some { d := d.toNat, srcs := [(a.toNat, ta), (b.toNat, tb)], classes := arithClasses, f := elem2 (pickElem true) }
  | .abs d ta a => some { d := d.toNat, srcs := [(a.toNat, ta)], classes := arithClasses, f := elem1 (signElem false) }
  | .neg d ta a => some { d := d.toNat, srcs := [(a.toNat, ta)], classes := arithClasses, f := elem1 (signElem true) }
  | .and d ta a tb b => some { d := d.toNat, srcs := [(a.toNat, ta), (b.toNat, tb)], bits := true, f := elem2 (bitElem (· &&& ·)) }
  | .or d ta a tb b => some { d := d.toNat, srcs := [(a.toNat, ta), (b.toNat, tb)], bits := true, f := elem2 (bitElem (· ||| ·)) }
  | .xor d ta a tb b => some { d := d.toNat, srcs := [(a.toNat, ta), (b.toNat, tb)], bits := true, f := elem2 (bitElem (· ^^^ ·)) }
  | .not d ta a => some { d := d.toNat, srcs := [(a.toNat, ta)], bits := true, f := elem1 notElem }
  | .shl d ta a tb b => some { d := d.toNat, srcs := [(a.toNat, ta), (b.toNat, tb)], bits := true, f := elem2 shlElem }
  | .shr d ta a tb b => some { d := d.toNat, srcs := [(a.toNat, ta), (b.toNat, tb)], bits := true, f := elem2 shrElem }
  | .sra d ta a tb b => some { d := d.toNat, srcs := [(a.toNat, ta), (b.toNat, tb)], bits := true, f := elem2 sraElem }
  | .bfx d ta a tb b => some {
      d := d.toNat, srcs := [(a.toNat, ta), (b.toNat, tb)], bits := true,
      f := fun ty _ _ xs => (bfxValue ty (xs.getD 0 0) (xs.getD 1 0), 0) }
  | .bfi d ta a tb b => some {
      d := d.toNat, srcs := [(a.toNat, ta), (b.toNat, tb)], bits := true, readsD := true,
      f := fun ty _ _ xs => (bfiValue ty (xs.getD 0 0) (xs.getD 1 0) (xs.getD 2 0), 0) }
  | .popc d ta a => some { d := d.toNat, srcs := [(a.toNat, ta)], bits := true, f := elem1 popcElem }
  | .clz d ta a => some { d := d.toNat, srcs := [(a.toNat, ta)], bits := true, f := elem1 clzElem }
  | .ctz d ta a => some { d := d.toNat, srcs := [(a.toNat, ta)], bits := true, f := elem1 ctzElem }
  | .brev d ta a => some { d := d.toNat, srcs := [(a.toNat, ta)], bits := true, f := elem1 brevElem }
  | .sel d ta a tb b => some {
      d := d.toNat, srcs := [(a.toNat, ta), (b.toNat, tb)], bits := true, readsD := true,
      f := fun _ _ _ xs => (if xs.getD 0 0 ≠ 0 then xs.getD 1 0 else xs.getD 2 0, 0) }
  | .pack d ta a tb b => some {
      d := d.toNat, srcs := [(a.toNat, ta), (b.toNat, tb)], classes := [.PI, .PF, .F8],
      f := fun ty e _ xs => ty.build fun i =>
        convert e (partner ty).elem ty.elem ((partner ty).get (xs.getD (i / (partner ty).count) 0) (i % (partner ty).count)) }
  | .mad d ta a tb b tc c => some { d := d.toNat, srcs := [(a.toNat, ta), (b.toNat, tb), (c.toNat, tc)], classes := arithClasses, f := elem3 (fmaElem 0) }
  | .msb d ta a tb b tc c => some { d := d.toNat, srcs := [(a.toNat, ta), (b.toNat, tb), (c.toNat, tc)], classes := arithClasses, f := elem3 (fmaElem 1) }
  | .nmad d ta a tb b tc c => some { d := d.toNat, srcs := [(a.toNat, ta), (b.toNat, tb), (c.toNat, tc)], classes := arithClasses, f := elem3 (fmaElem 2) }
  | .dot d ta a tb b tc c => some {
      d := d.toNat, srcs := [(a.toNat, ta), (b.toNat, tb), (c.toNat, tc)], classes := [.PI, .PF, .F8],
      f := fun ty e _ xs => dotValue ty e (xs.getD 0 0) (xs.getD 1 0) (xs.getD 2 0) }
  | .addi d a imm => some {
      d := d.toNat, srcs := [(a.toNat, false)], classes := arithClasses,
      f := elem1 fun el e x => addElem false el e x (immElem el e imm) }
  | .muli d a imm => some {
      d := d.toNat, srcs := [(a.toNat, false)], classes := arithClasses,
      f := elem1 fun el e x => mulElem el e x (immElem el e imm) }
  | .andi d a imm => some { d := d.toNat, srcs := [(a.toNat, false)], bits := true, f := elem1 fun el _ x => (x &&& ofInt el.width imm.toInt, 0) }
  | .ori d a imm => some { d := d.toNat, srcs := [(a.toNat, false)], bits := true, f := elem1 fun el _ x => (x ||| ofInt el.width imm.toInt, 0) }
  | .xori d a imm => some { d := d.toNat, srcs := [(a.toNat, false)], bits := true, f := elem1 fun el _ x => (x ^^^ ofInt el.width imm.toInt, 0) }
  | .shli d a imm => some { d := d.toNat, srcs := [(a.toNat, false)], bits := true, f := elem1 fun el e x => shlElem el e x imm.toNat }
  | .shri d a imm => some { d := d.toNat, srcs := [(a.toNat, false)], bits := true, f := elem1 fun el e x => shrElem el e x imm.toNat }
  | .srai d a imm => some { d := d.toNat, srcs := [(a.toNat, false)], bits := true, f := elem1 fun el e x => sraElem el e x imm.toNat }
  | .div d ta a tb b => some { d := d.toNat, srcs := [(a.toNat, ta), (b.toNat, tb)], classes := [.I, .F], f := elem2 (divElem false) }
  | .rem d ta a tb b => some { d := d.toNat, srcs := [(a.toNat, ta), (b.toNat, tb)], classes := [.I], f := elem2 (divElem true) }
  | _ => none

/-- The second source's value is zero under an integer type, where a division raises DIVZ (R83). -/
def dividesByZero (i : Instr) (t : Team) (ty : Ty) (L : Nat) : Bool :=
  match i with
  | .div _ _ _ _ b => !ty.isFloat && t.rw ty.wide b.toNat L == 0
  | .rem _ _ _ _ b => !ty.isFloat && t.rw ty.wide b.toNat L == 0
  | _ => false

/-- R80: an instruction of `laneOp` under an element type it takes, on registers in range and full, raising no enabled flag and
dividing no lane by an integer zero, completes: each present lane of its destination holds the lane's result, the flags join
FSTAT, and nothing else changes but what every issue changes. -/
def Obligations.LaneOperationsComplete : Prop :=
  ∀ (i : Instr) (o : VOp), laneOp i = some o →
  ∀ (s : State) (k : Nat) (t : Team) (ty : Ty) (e : NumEnv), Runs s k t → Quiet s t →
    t.typed o.classes o.bits = some (ty, e) → t.okV ty.wide o.d = true → (∀ r ∈ o.srcs, t.okV ty.wide r.1 = true) →
    FullV t (o.regs ty.wide) → (∀ L ∈ laneList t t.present, dividesByZero i t ty L = false) →
    (∀ L ∈ laneList t t.present, (o.f ty e L (o.operands t ty.wide L)).2 &&& t.fpte.setWidth 5 = 0) →
    LanesWritten s k t ty.wide o.d (fun L => o.f ty e L (o.operands t ty.wide L)) (exec i s)

/-- R83: a division under an integer type with a zero divisor in a present lane takes the trap DIVZ, with a record for each such
lane, and writes no lane.
R95: `sdiv` by zero traps DIVZ with no record and writes no register. -/
def Obligations.DivisionByZeroTraps : Prop :=
  (∀ (s : State) (k : Nat) (t : Team) (ty : Ty) (e : NumEnv) (d a b : BitVec 6) (ta tb : Bool), Runs s k t → Quiet s t →
    t.typed [.I] false = some (ty, e) → t.okV ty.wide d.toNat = true → t.okV ty.wide a.toNat = true → t.okV ty.wide b.toNat = true →
    FullV t (pair ty.wide a.toNat ++ pair ty.wide b.toNat ++ pair ty.wide d.toNat) →
    (∃ L ∈ laneList t t.present, t.rw ty.wide b.toNat L = 0) →
    exec (.div d ta a tb b) s = exec (.rem d ta a tb b) s ∧
      exec (.rem d ta a tb b) s = .next (raise s k t cDIVZ
        (((laneList t t.present).filter fun L => t.rw ty.wide b.toNat L == 0).map fun L => record L cDIVZ 0))) ∧
  (∀ (s : State) (k : Nat) (t : Team) (x y z : BitVec 5), Runs s k t → Quiet s t → t.typeCode ≤ 12 →
    FullS t [x.toNat, y.toNat, z.toNat] → t.rs z.toNat = 0 → exec (.sdiv x y z) s = .next (raise s k t cDIVZ []))

/-- R66, R81, R82, R84: what the lane results are under u32 and i32 without SAT, as 32-bit words: sums, differences and products
wrap; the upper half of the exact product; bitwise results; shifts by the low 8 bits of the amount.
R66, R81: with SAT a sum, a difference, a product or a negative of integers is the exact one, held to the range of the type.
R85: what the bit counts are of a 32-bit element. -/
def Obligations.IntegerLaneValues : Prop :=
  (∀ (sg : Bool) (e : NumEnv) (x y : Word), e.sat = false →
    let el := Elem.int sg 32
    let w := fun (g : Elem → NumEnv → Nat → Nat → Nat × Flags) => BitVec.ofNat 32 (g el e x.toNat y.toNat).1
    w (addElem false) = x + y ∧ w (addElem true) = x - y ∧ w mulElem = x * y ∧
    w mulhElem = (if sg then ((x.signExtend 64 * y.signExtend 64) >>> 32).setWidth 32
      else ((x.setWidth 64 * y.setWidth 64) >>> 32).setWidth 32) ∧
    w (pickElem false) = (if (if sg then x.slt y else x.ult y) then x else y) ∧
    w (pickElem true) = (if (if sg then x.slt y else x.ult y) then y else x) ∧
    w (bitElem (· &&& ·)) = x &&& y ∧ w (bitElem (· ||| ·)) = x ||| y ∧ w (bitElem (· ^^^ ·)) = x ^^^ y ∧
    BitVec.ofNat 32 (notElem el e x.toNat).1 = ~~~x ∧ BitVec.ofNat 32 (signElem true el e x.toNat).1 = -x ∧
    w shlElem = x <<< (y.toNat % 256) ∧ w shrElem = x >>> (y.toNat % 256) ∧ w sraElem = x.sshiftRight (y.toNat % 256)) ∧
  (∀ (sg : Bool) (w : Nat) (e : NumEnv) (x y : Nat), e.sat = true → 0 < w →
    let lo : Int := if sg then -(2 ^ (w - 1)) else 0
    let hi : Int := if sg then 2 ^ (w - 1) - 1 else 2 ^ w - 1
    let hold := fun (i : Int) => ofInt w (max lo (min hi i))
    addElem false (.int sg w) e x y = (hold (intOf sg w x + intOf sg w y), 0) ∧
    addElem true (.int sg w) e x y = (hold (intOf sg w x - intOf sg w y), 0) ∧
    mulElem (.int sg w) e x y = (hold (intOf sg w x * intOf sg w y), 0) ∧
    signElem true (.int sg w) e x = (hold (-intOf sg w x), 0)) ∧
  (∀ (sg : Bool) (e : NumEnv) (x : Word),
    let el := Elem.int sg 32
    (popcElem el e x.toNat).1 = ((List.range 32).filter fun i => x.getLsbD i).length ∧
    (clzElem el e x.toNat).1 = ((List.range 32).takeWhile fun i => !x.getLsbD (31 - i)).length ∧
    (ctzElem el e x.toNat).1 = ((List.range 32).takeWhile fun i => !x.getLsbD i).length ∧
    (∀ i < 32, (BitVec.ofNat 32 (brevElem el e x.toNat).1).getLsbD i = x.getLsbD (31 - i)))

/-- A producer issues: the next instruction follows, the registers it names are empty, and what it will write is recorded. -/
def ProducerIssued (s : State) (k : Nat) (t : Team) (p : Producer) (out : Out) : Prop :=
  out = .next (setTeam { s with producers := s.producers ++ [p] } k ((t.next.emptyV p.vregs).emptyS (p.sregs.map fun r => r.1)))

/-! ### Moves, shuffles and votes -/

/-- R62: `wrl` writes the one lane that `S[z]` names where that lane is present, and nothing else; a lane number of 32·R or more traps
BOUNDS.
R62: `rdl` on full registers and a lane of the team issues as a producer of that lane's value, sign-extended under i32, and has no
effect where its destination is s0; a lane number of 32·R or more traps BOUNDS.
That this BOUNDS writes no record (log 22) and that a producer's value is that of its issue (log 9) are the model's readings. -/
def Obligations.LaneTransfersComplete : Prop :=
  (∀ (s : State) (k : Nat) (t : Team) (w : Bool) (x : BitVec 6) (y z : BitVec 5), Runs s k t → Quiet s t → t.wideType = some w →
    t.okV w x.toNat = true → FullV t (pair w x.toNat) → FullS t [y.toNat, z.toNat] →
    exec (.wrl x y z) s = .next (if (t.rs z.toNat).toNat ≥ t.lanes then raise s k t cBOUNDS []
      else if bit t.present.toNat (t.rs z.toNat).toNat then finish s k (t.ww w x.toNat (t.rs z.toNat).toNat (t.rs y.toNat).toNat)
      else finish s k t)) ∧
  (∀ (s : State) (k : Nat) (t : Team) (ty : Ty) (x : BitVec 5) (y : BitVec 6) (z : BitVec 5), Runs s k t → Quiet s t → Ty.ofCode t.typeCode = some ty →
    t.okV ty.wide y.toNat = true → FullV t (pair ty.wide y.toNat) → FullS t [x.toNat, z.toNat] →
    let L := (t.rs z.toNat).toNat
    let v : DWord := if ty.wide then t.rv (y.toNat + 1) L ++ t.rv y.toNat L else if t.typeCode = 0 then (t.rv y.toNat L).signExtend 64 else (t.rv y.toNat L).setWidth 64
    (t.lanes ≤ L → exec (.rdl x y z) s = .next (raise s k t cBOUNDS [])) ∧
    (L < t.lanes → x = 0 → exec (.rdl x y z) s = .next (finish s k t)) ∧
    (L < t.lanes → x ≠ 0 → ProducerIssued s k t { team := k, core := t.core, sregs := [(x.toNat, v)] } (exec (.rdl x y z) s)))

/-- R59, R61, R215, R217: constants, moves, shuffles and `vbal` complete on registers in range and full, each present lane holding
the value that the rule gives it.
R58: `mode` completes under any MODE and writes its fields: the guard register and its sense, TYPE, RND, SAT, RET and FTZ read
back as the operands, the other bits of MODE are 0, and nothing else changes. -/
def Obligations.MovesAndModeComplete : Prop :=
  (∀ (s : State) (k : Nat) (t : Team), Runs s k t → Quiet s t →
    (∀ d imm, t.okV false d.toNat = true → FullV t [d.toNat] →
      LanesWritten s k t false d.toNat (fun _ => ((BitVec.signExtend 32 imm).toNat, 0)) (exec (.li d imm) s)) ∧
    (∀ d, t.okV false d.toNat = true → FullV t [d.toNat] → LanesWritten s k t false d.toNat (fun L => (L, 0)) (exec (.lid d) s)) ∧
    (∀ d inv p, t.okV false d.toNat = true → FullV t [d.toNat] →
      LanesWritten s k t false d.toNat (fun L => (bits (t.vote inv p.toNat).toNat (L / 32 * 32) 32, 0)) (exec (.vbal d inv p) s)) ∧
    (∀ w, t.wideType = some w →
      (∀ d ta a, t.okV w d.toNat = true → t.okV w a.toNat = true → FullV t (pair w a.toNat ++ pair w d.toNat) →
        LanesWritten s k t w d.toNat (fun L => (t.rw w a.toNat L, 0)) (exec (.mov d ta a) s)) ∧
      (∀ d ta a, t.okV w d.toNat = true → FullV t (pair w d.toNat) → FullS t [a.toNat] →
        LanesWritten s k t w d.toNat (fun _ => ((t.rs a.toNat).toNat, 0)) (exec (.movs d ta a) s)) ∧
      (∀ d ta a tb b, t.okV w d.toNat = true → t.okV w a.toNat = true → t.okV false b.toNat = true →
        FullV t (pair w a.toNat ++ [b.toNat] ++ pair w d.toNat) →
        LanesWritten s k t w d.toNat (fun L => (t.rw w a.toNat (if (t.rv b.toNat L).toNat < t.lanes then (t.rv b.toNat L).toNat else L), 0))
          (exec (.shfi d ta a tb b) s)) ∧
      (∀ d ta a b, t.okV w d.toNat = true → t.okV w a.toNat = true → FullV t (pair w a.toNat ++ pair w d.toNat) →
        LanesWritten s k t w d.toNat (fun L => (t.rw w a.toNat
          (if 0 ≤ (L : Int) + b.toInt ∧ (L : Int) + b.toInt < t.lanes then ((L : Int) + b.toInt).toNat else L), 0)) (exec (.shfd d ta a b) s)) ∧
      (∀ d ta a b, t.okV w d.toNat = true → t.okV w a.toNat = true → FullV t (pair w a.toNat ++ pair w d.toNat) →
        LanesWritten s k t w d.toNat (fun L => (t.rw w a.toNat (if L ^^^ b.toNat < t.lanes then L ^^^ b.toNat else L), 0))
          (exec (.shfx d ta a b) s)))) ∧
  (∀ (s : State) (k : Nat) (t : Team) (ginv : Bool) (gp : BitVec 3) (ty : BitVec 4) (rnd : BitVec 3) (sat : Bool) (ret : BitVec 2)
    (ftz : Bool), Runs s k t →
    ∃ m : Word, exec (.mode ginv gp ty rnd sat ret ftz) s = .next (finish s k { t with mode := m }) ∧
      m.extractLsb' 26 6 = 0 ∧ m.extractLsb' 0 11 = 0 ∧
      let u := { t with mode := m }
      u.guardInv = ginv ∧ u.guardReg = gp.toNat ∧ u.typeCode = ty.toNat ∧ u.rndCode = rnd.toNat ∧ u.sat = sat ∧ u.ret = ret.toNat ∧
        u.ftz = ftz)

/-! ### Scalar instructions -/

/-- The scalar instructions of one mould: destination, sources, and the result from the signedness of TYPE and the two values. -/
def scalarOp : Instr → Option (BitVec 5 × BitVec 5 × BitVec 5 × (Bool → DWord → DWord → DWord))
  | .sadd x y z => some (x, y, z, fun _ a b => a + b)
  | .ssub x y z => some (x, y, z, fun _ a b => a - b)
  | .smul x y z => some (x, y, z, fun _ a b => a * b)
  | .sdiv x y z => some (x, y, z, fun sg a b => if sg then a.sdiv b else a.udiv b)
  | .sand x y z => some (x, y, z, fun _ a b => a &&& b)
  | .sor x y z => some (x, y, z, fun _ a b => a ||| b)
  | .sxor x y z => some (x, y, z, fun _ a b => a ^^^ b)
  | .sshl x y z => some (x, y, z, fun _ a b => a <<< (b.toNat % 256))
  | .sshr x y z => some (x, y, z, fun _ a b => a >>> (b.toNat % 256))
  | .ssra x y z => some (x, y, z, fun _ a b => a.sshiftRight (b.toNat % 256))
  | .smin x y z => some (x, y, z, fun sg a b => if (if sg then b.slt a else b.ult a) then b else a)
  | .smax x y z => some (x, y, z, fun sg a b => if (if sg then b.slt a else b.ult a) then a else b)
  | .scmp x y c z =>
    if c.toNat > 5 then none
    else some (x, y, z, fun sg a b =>
      let lt := if sg then a.slt b else a.ult b
      if (match c.toNat with
        | 0 => a == b
        | 1 => a != b
        | 2 => lt
        | 3 => lt || a == b
        | 4 => !lt && a != b
        | _ => !lt) then 1 else 0)
  | .saddi x y imm => some (x, y, 0, fun _ a _ => a + imm.signExtend 64)
  | _ => none

/-- R44: a read of s0 gives zero and of p0 true, a write to either is discarded, and a write to another register is read back
there and nowhere else. -/
def Obligations.RegisterZeroIsFixed : Prop :=
  ∀ (t : Team) (n m : Nat) (x : DWord) (q : LaneMask),
    t.rs 0 = 0 ∧ t.ws 0 x = t ∧ t.rp 0 = BitVec.allOnes 1024 ∧ t.wp 0 q = t ∧
    (n ≠ 0 → (t.ws n x).rs n = x ∧ (t.wp n q).rp n = q) ∧
    (m ≠ n → (t.ws n x).rs m = t.rs m ∧ (t.wp n q).rp m = t.rp m)

/-- R94: a scalar instruction on full registers under an assigned TYPE completes: `S[x]` holds the result (s0 stays zero), the
guard, RND and SAT have no part in it, and nothing else changes.
R95: `scmp` with a condition code of 6 or 7 traps ILLOP.
R60, R216: `sli`, `slih` and `slix` replace their bits of `S[d]` and keep the others, and `vany` and `vall` write their vote over the
active lanes; each completes on full registers under any MODE. -/
def Obligations.ScalarOperationsComplete : Prop :=
  (∀ (i : Instr) (x y z : BitVec 5) (f : Bool → DWord → DWord → DWord), scalarOp i = some (x, y, z, f) →
  ∀ (s : State) (k : Nat) (t : Team), Runs s k t → Quiet s t → t.typeCode ≤ 12 → FullS t [x.toNat, y.toNat, z.toNat] →
    ((∃ p q r, i = .sdiv p q r) → t.rs z.toNat ≠ 0) →
    exec i s = .next (finish s k (t.ws x.toNat (f (t.typeCode != 1 && t.typeCode != 3) (t.rs y.toNat) (t.rs z.toNat))))) ∧
  (∀ (s : State) (k : Nat) (t : Team) (x y z : BitVec 5) (c : BitVec 3), Runs s k t → 5 < c.toNat →
    exec (.scmp x y c z) s = .next (raise s k t cILLOP [])) ∧
  (∀ (s : State) (k : Nat) (t : Team) (d : BitVec 5), Runs s k t → Quiet s t → FullS t [d.toNat] →
    (∀ imm, exec (.sli d imm) s = .next (finish s k (t.ws d.toNat (imm.signExtend 64)))) ∧
    (∀ imm, exec (.slih d imm) s = .next (finish s k (t.ws d.toNat (imm.signExtend 43 ++ (t.rs d.toNat).extractLsb' 0 21)))) ∧
    (∀ imm, exec (.slix d imm) s = .next (finish s k (t.ws d.toNat (imm.signExtend 22 ++ (t.rs d.toNat).extractLsb' 0 42)))) ∧
    (∀ inv p, exec (.vany d inv p) s =
      .next (finish s k (t.ws d.toNat (if t.mask &&& (if inv then ~~~(t.rp p.toNat) else t.rp p.toNat) = 0 then 0 else 1)))) ∧
    (∀ inv p, exec (.vall d inv p) s =
      .next (finish s k (t.ws d.toNat (if t.mask &&& (if inv then ~~~(t.rp p.toNat) else t.rp p.toNat) = t.mask then 1 else 0)))))

/-! ### Compares, conversions and the lanes of a team -/

/-- The flags that the listed lanes raise together. -/
def joinFlags (ls : List Nat) (g : Nat → Flags) : Flags := ls.foldl (fun a L => a ||| g L) 0

/-- The condition of R87 on every element of two lanes' values, and the flags it raises. -/
def laneCond (c : Nat) (ty : Ty) (e : NumEnv) (x y : Nat) : Bool := (List.range ty.count).all fun i => (condElem c ty.elem e (ty.get x i) (ty.get y i)).1
def laneCondFlags (c : Nat) (ty : Ty) (e : NumEnv) (x y : Nat) : Flags := joinFlags (List.range ty.count) fun i => (condElem c ty.elem e (ty.get x i) (ty.get y i)).2

/-- R87, R93: `cmp` and `cmpi` on full registers, raising no enabled flag, complete: in each present lane the destination predicate
holds the condition over all elements; the other lanes, the other predicates and every register are as they were. -/
def Obligations.ComparesComplete : Prop :=
  ∀ (s : State) (k : Nat) (t : Team) (ty : Ty) (e : NumEnv) (c p : BitVec 3) (a : BitVec 6) (i : Instr) (y : Nat → Nat), Runs s k t →
    Quiet s t → t.typed arithClasses false = some (ty, e) → t.okV ty.wide a.toNat = true → FullV t (pair ty.wide a.toNat) →
    ((∃ ta tb b, i = .cmp c p ta a tb b ∧ t.okV ty.wide b.toNat = true ∧ FullV t (pair ty.wide b.toNat) ∧ y = fun L => t.rw ty.wide b.toNat L) ∨
      (∃ imm, i = .cmpi c p a imm ∧ y = fun _ => (ty.build fun _ => (immElem ty.elem e imm, 0)).1)) →
    (∀ L ∈ laneList t t.present, laneCondFlags c.toNat ty e (t.rw ty.wide a.toNat L) (y L) &&& t.fpte.setWidth 5 = 0) →
    ∃ m, exec i s = .next (finish s k ((t.addFlags (joinFlags (laneList t t.present) fun L =>
        laneCondFlags c.toNat ty e (t.rw ty.wide a.toNat L) (y L))).wp p.toNat m)) ∧
      ∀ L < 1024, m.getLsbD L = if t.present.getLsbD L then decide (L < t.lanes) && laneCond c.toNat ty e (t.rw ty.wide a.toNat L) (y L)
        else (t.rp p.toNat).getLsbD L

/-- R70, R89: `cvt` between two assigned types with a part index in its range completes: each element is converted from the source
element that the rule names, and the elements that a widening `cvt` does not name keep their values.
R90: `unpk` under a packed type completes: the even register holds the lower half of the elements, widened, the odd one the upper
half. -/
def Obligations.ConversionsComplete : Prop :=
  (∀ (s : State) (k : Nat) (t : Team) (dt st : Ty) (e : NumEnv) (d a : BitVec 6) (ta : Bool) (part : BitVec 2) (src : BitVec 4), Runs s k t →
    Quiet s t → Ty.ofCode t.typeCode = some dt → Ty.ofCode src.toNat = some st →
    (t.env = some e ∨ (t.env = none ∧ dt.isFloat = false ∧ st.isFloat = false ∧ e = t.envRn)) →
    t.okV dt.wide d.toNat = true → t.okV st.wide a.toNat = true → FullV t (pair st.wide a.toNat ++ pair dt.wide d.toNat) →
    part.toNat < max 1 (max (st.count / dt.count) (dt.count / st.count)) →
    let f := fun L => dt.build fun j =>
      if st.count < dt.count then
        (if j / st.count = part.toNat then convert e st.elem dt.elem (st.get (t.rw st.wide a.toNat L) (j % st.count))
          else (dt.get (t.rw dt.wide d.toNat L) j, 0))
      else convert e st.elem dt.elem (st.get (t.rw st.wide a.toNat L) (part.toNat * dt.count + j))
    (∀ L ∈ laneList t t.present, (f L).2 &&& t.fpte.setWidth 5 = 0) →
    LanesWritten s k t dt.wide d.toNat f (exec (.cvt d ta a part src) s)) ∧
  (∀ (s : State) (k : Nat) (t : Team) (ty : Ty) (e : NumEnv) (d a : BitVec 6) (ta : Bool), Runs s k t → Quiet s t →
    t.typed [.PI, .PF, .F8] false = some (ty, e) → t.okV true d.toNat = true → t.okV false a.toNat = true →
    FullV t ([a.toNat] ++ pair true d.toNat) →
    let half := fun o L => (partner ty).build fun i => convert e ty.elem (partner ty).elem (ty.get (t.rv a.toNat L).toNat (o + i))
    (∀ L ∈ laneList t t.present, ((half 0 L).2 ||| (half (partner ty).count L).2) &&& t.fpte.setWidth 5 = 0) →
    LanesWritten s k t true d.toNat (fun L => ((half 0 L).1 + (half (partner ty).count L).1 * 2 ^ 32, (half 0 L).2 ||| (half (partner ty).count L).2))
      (exec (.unpk d ta a) s))

/-- R74, R75, R218: `tred` on full registers, raising no enabled flag, completes: `S[d]` holds the combination of the present lanes, or
the identity where none is present, a narrow result sign-extended under i32 and zero-extended otherwise.
R74, R218: under i32 without SAT the integer `tred` add is the sum of the present lanes modulo 2^32, sign-extended. -/
def Obligations.ReductionCompletes : Prop :=
  (∀ (s : State) (k : Nat) (t : Team) (ty : Ty) (e : NumEnv) (d : BitVec 5) (ta : Bool) (a op : BitVec 6), Runs s k t → Quiet s t →
    op.toNat ≤ 5 → t.redType op.toNat = some (ty, e) → t.okV ty.wide a.toNat = true → FullV t (pair ty.wide a.toNat) → FullS t [d.toNat] →
    let r := (reduceLanes op.toNat ty.elem e t (laneList t t.present) fun L => t.rw ty.wide a.toNat L).getD (identityOf op.toNat ty.elem, 0)
    r.2 &&& t.fpte.setWidth 5 = 0 →
    exec (.tred d ta a op) s = .next (finish s k ((t.addFlags r.2).ws d.toNat (BitVec.ofNat 64 (if t.typeCode = 0 then signExt 32 64 r.1 else r.1))))) ∧
  (∀ (s : State) (k : Nat) (t : Team) (d : BitVec 5) (ta : Bool) (a : BitVec 6), Runs s k t → Quiet s t →
    t.typeCode = 0 → t.sat = false → t.okV false a.toNat = true → FullV t [a.toNat] → FullS t [d.toNat] →
    exec (.tred d ta a 0) s = .next (finish s k (t.ws d.toNat
      (((laneList t t.present).foldl (fun (x : Word) L => x + t.rv a.toNat L) 0).signExtend 64))))

/-- The lanes of a segmented sum: lane, inclusive and exclusive value, flags. Integer sums are exact and each reduced once. -/
def segLanes (ty : Ty) (e : NumEnv) (carry : Nat) (val : Nat → Nat) (head : Nat → Bool) (ls : List Nat) : List (Nat × Nat × Nat × Flags) :=
  match ty.elem with
  | .int sg w => (segInts (fun L => intOf sg w (val L)) head (intOf sg w carry) ls).map fun r => (r.1, reduceInt e.sat sg w r.2.1, reduceInt e.sat sg w r.2.2, 0)
  | el => segFloats (addElem false el e) val head carry ls

/-- R219: `tscan` on full registers, raising no enabled flag, completes; for the integer add each present lane holds the exact sum of
the present lanes up to it, or before it with `excl`, reduced once.
R212, R220: `segred` completes on full registers, raising no enabled flag: a lane holds the sum since its nearest head, from SCARRY
where there is none, inclusive or exclusive by SEGCTL.EXC, and SCARRY takes the inclusive sum of the last present lane. -/
def Obligations.ScansComplete : Prop :=
  (∀ (s : State) (k : Nat) (t : Team) (ty : Ty) (e : NumEnv) (d : BitVec 6) (ta : Bool) (a : BitVec 6) (excl : Bool) (op : BitVec 3), Runs s k t →
    Quiet s t → op.toNat ≤ 5 → t.redType op.toNat = some (ty, e) → t.okV ty.wide d.toNat = true → t.okV ty.wide a.toNat = true →
    FullV t (pair ty.wide a.toNat ++ pair ty.wide d.toNat) →
    let ls := laneList t t.present
    let val := fun L => t.rw ty.wide a.toNat L
    (∀ sg w, ty.elem = .int sg w → op = 0 →
      LanesWritten s k t ty.wide d.toNat (fun L => (reduceInt e.sat sg w
        ((ls.filter fun M => if excl then decide (M < L) else decide (M ≤ L)).map fun M => intOf sg w (val M)).sum, 0)) (exec (.tscan d ta a excl op) s)) ∧
    ((¬ ∃ sg w, ty.elem = .int sg w ∧ op = 0) →
      (∀ r ∈ scanLanes (combine op.toNat ty.elem e) val none ls, r.2.2.2 &&& t.fpte.setWidth 5 = 0) →
      exec (.tscan d ta a excl op) s = .next (finish s k ((t.addFlags
        ((scanLanes (combine op.toNat ty.elem e) val none ls).foldl (fun g r => g ||| r.2.2.2) 0)).writeLanes ty.wide d.toNat
        ((scanLanes (combine op.toNat ty.elem e) val none ls).map fun r =>
          (r.1, if excl then r.2.2.1.getD (identityOf op.toNat ty.elem) else r.2.1)))))) ∧
  (∀ (s : State) (k : Nat) (t : Team) (ty : Ty) (e : NumEnv) (d : BitVec 6) (ta : Bool) (a : BitVec 6) (tb : Bool) (b : BitVec 6),
    Runs s k t → Quiet s t → t.typed [.I, .F] false = some (ty, e) → t.okV ty.wide d.toNat = true →
    t.okV ty.wide a.toNat = true → t.okV false b.toNat = true → FullV t (pair ty.wide a.toNat ++ [b.toNat] ++ pair ty.wide d.toNat) →
    let rs := segLanes ty e (t.scarry.toNat % 2 ^ ty.lanes) (fun L => t.rw ty.wide a.toNat L) (fun L => t.rv b.toNat L != 0) (laneList t t.present)
    (∀ r ∈ rs, r.2.2.2 &&& t.fpte.setWidth 5 = 0) →
    exec (.segred d ta a tb b) s = .next (finish s k
      { (t.addFlags (rs.foldl (fun g r => g ||| r.2.2.2) 0)).writeLanes ty.wide d.toNat
          (rs.map fun r => (r.1, if bit t.segctl.toNat 0 then r.2.2.1 else r.2.1)) with
        scarry := match rs.getLast? with
          | some r => BitVec.ofNat 64 r.2.1
          | none => t.scarry }))

/-- R223: `tix` completes for N from 1 to 5 with its registers in range and full: each present lane of `V[d]` to `V[d+N−1]` holds a
coordinate, and no other register changes; another N traps BOUNDS with N in the record. -/
def Obligations.IndexSplitCompletes : Prop :=
  ∀ (s : State) (k : Nat) (t : Team) (d : BitVec 6) (ta : Bool) (a : BitVec 6) (b : BitVec 5), Runs s k t → Quiet s t → b.toNat ≤ 25 →
    t.okV false d.toNat = true → t.okV false a.toNat = true → FullV t [a.toNat] → FullS t (span b.toNat 7) →
    let n := (t.rs b.toNat).toNat % 256
    (n = 0 ∨ 5 < n → exec (.tix d ta a b) s = .next (raise1 s k t cBOUNDS (BitVec.ofNat 64 n))) ∧
    (1 ≤ n → n ≤ 5 → d.toNat + n - 1 < t.vregs → FullV t (span d.toNat n) →
      let ms := (List.range (n - 1)).map fun i => ((t.rs (b.toNat + 1 + i)).toNat, (t.rs (b.toNat + 5 + i / 2)).toNat / 2 ^ (32 * (i % 2)) % 2 ^ 32)
      ∃ t', exec (.tix d ta a b) s = .next (setTeam s k t') ∧ t' = { t.next with v := t'.v } ∧
        ∀ r L, L < 1024 → t'.rv r L =
          if L ∈ laneList t t.present ∧ d.toNat ≤ r ∧ r < d.toNat + n then BitVec.ofNat 32 ((splitIndex ms (t.rv a.toNat L).toNat).getD (r - d.toNat) 0)
          else t.rv r L)

/-! ### Producers -/

/-- The special functions of R96, and whether each takes f64. -/
def specOf : Instr → Option (BitVec 6 × BitVec 6 × SpecFn × Bool)
  | .rcp d _ a => some (d, a, .rcp, false)
  | .rsq d _ a => some (d, a, .rsq, false)
  | .sqrt d _ a => some (d, a, .sqrt, true)
  | .exp2 d _ a => some (d, a, .exp2, false)
  | .log2 d _ a => some (d, a, .log2, false)
  | .sinr d _ a => some (d, a, .sinr, false)
  | .cosr d _ a => some (d, a, .cosr, false)
  | .tanh d _ a => some (d, a, .tanh, false)
  | _ => none

/-- R47, R96: a special function on full registers of a floating type that it takes issues as a producer of each present lane's value,
whatever free values are drawn; with no present lane it has no effect but to go on.
R101, R102: `tbev` on full registers, while no `tbsw` of the core holds it, issues as a producer of the active bank's values.
Which of the allowed values a lane gets is a free value (log 11). -/
def Obligations.SpecialFunctionsIssue : Prop :=
  (∀ (i : Instr) (d a : BitVec 6) (fn : SpecFn) (wideToo : Bool), specOf i = some (d, a, fn, wideToo) →
  ∀ (s : State) (k : Nat) (t : Team) (ty : Ty) (f : Fmt) (e : NumEnv), Runs s k t → Quiet s t → t.typed [.F, .PF] false = some (ty, e) →
    ty.elem = .flt f → (ty.wide = true → wideToo = true) → t.okV ty.wide d.toNat = true → t.okV ty.wide a.toNat = true →
    FullV t (pair ty.wide a.toNat ++ pair ty.wide d.toNat) →
    let val := fun L => ty.build fun i => specElem fn f e (Config.freeValue (s.fresh + 4 * L + i)).toNat (ty.get (t.rw ty.wide a.toNat L) i)
    (∀ L ∈ laneList t t.present, (val L).2 &&& t.fpte.setWidth 5 = 0) →
    (laneList t t.present = [] → exec i s = .next (finish { s with fresh := s.fresh + 4096 } k t)) ∧
    (laneList t t.present ≠ [] → ProducerIssued { s with fresh := s.fresh + 4096 } k t
      { team := k, core := t.core, lanes := laneWords ty.wide d.toNat ((laneList t t.present).map fun L => (L, (val L).1)),
        vregs := pair ty.wide d.toNat, flags := joinFlags (laneList t t.present) fun L => (val L).2 } (exec i s))) ∧
  (∀ (s : State) (k : Nat) (t : Team) (ty : Ty) (f : Fmt) (e : NumEnv) (d a : BitVec 6) (ta : Bool), Runs s k t → Quiet s t →
    t.typed [.F, .PF] false = some (ty, e) → ty.elem = .flt f → ty.wide = false → t.okV false d.toNat = true → t.okV false a.toNat = true →
    FullV t [a.toNat, d.toNat] → (coreOf s t.core).tabSwap = none →
    let c := coreOf s t.core
    let val := fun L => ty.build fun i =>
      let y := tableValue c (if c.tabActive then 1 else 0) (f.operand e.ftz (ty.get (t.rv a.toNat L).toNat i))
      if f = f32 then ((f.round tableEnv y.exact).1, 0) else f.round e y.exact
    (∀ L ∈ laneList t t.present, (val L).2 &&& t.fpte.setWidth 5 = 0) → laneList t t.present ≠ [] →
    ProducerIssued s k t
      { team := k, core := t.core, lanes := laneWords false d.toNat ((laneList t t.present).map fun L => (L, (val L).1)),
        vregs := [d.toNat], flags := joinFlags (laneList t t.present) fun L => (val L).2, table := true } (exec (.tbev d ta a) s))

/-- R47: PRODUCER_COMPLETION of a team with a producer outstanding completes its oldest: the producer is gone, its registers are full,
its scalars and lanes hold its values, its flags join FSTAT, and no other team changes. With no producer outstanding it does nothing.
When the completion happens is open in the spec (logs 6 and 9). -/
def Obligations.ProducerCompletionWrites : Prop :=
  (∀ (s : State) (k : Nat), (s.producers.find? fun q => q.team == k) = none ∨ s.teams.lookup k = none → exec (.producerCompletion k) s = .next s) ∧
  ∀ (s : State) (k : Nat) (t : Team) (p : Producer), s.teams.lookup k = some t → (s.producers.find? fun q => q.team == k) = some p →
    ∃ t', exec (.producerCompletion k) s = .next (setTeam { s with producers := s.producers.erase p } k t') ∧
      (∀ r ∈ p.vregs, r < 64 → t'.vIsEmpty r = false) ∧ (∀ r ∈ p.sregs, r.1 < 32 → t'.sIsEmpty r.1 = false) ∧
      t'.fstat = t.fstat ||| p.flags.setWidth 64 ∧ t'.pc = t.pc ∧
      (∀ n x, p.sregs = [(n, x)] → n ≠ 0 → t'.rs n = x) ∧
      (∀ r L, (∀ e ∈ p.lanes, e.1 ≠ 1024 * r + L) → t'.rv r L = t.rv r L) ∧
      (p.lanes.Pairwise (fun a b => a.1 ≠ b.1) → ∀ r L w, (1024 * r + L, w) ∈ p.lanes → t'.rv r L = w)

/-! ### Memory instructions -/

/-- A scratchpad word is not poisoned, and no word of its scratchpad fails its code (R378). -/
abbrev PadGood (s : State) (c w : Nat) : Prop := (crewOf s c).padPoison.contains w = false ∧ (crewOf s c).padEcc = {}

/-- What a load or a store names: its order and scope, its width in bytes, its lanes' addresses, and the registers it reads or
writes. -/
structure MemUse where
  ord : BitVec 2
  scope : BitVec 3
  width : Nat
  addrs : List (Nat × DWord)
  vs : List Nat
  ss : List Nat
  dst : Dst := .none
  val : Nat → List Word := fun _ => []

/-- The lanes and addresses of a pattern (R8, R115, R116); none where it traps ILLOP. -/
def patternAddrs (t : Team) (b o : BitVec 5) : Option (List (Nat × DWord) × List Nat) :=
  let p := (t.rs o.toNat).toNat
  let explicit := bits p 62 2 == 1
  if badPattern p || (explicit && decide (o.toNat > 29)) then none
  else
    let o1 := if explicit then (t.rs (o.toNat + 1)).toNat else 0
    let o2 := if explicit then (t.rs (o.toNat + 2)).toNat else 0
    some ((laneList t t.present).filterMap fun L => (patternElem p o1 o2 L).map fun w => (L, t.rs b.toNat + BitVec.ofInt 64 (4 * w)),
      [b.toNat, o.toNat] ++ if explicit then [o.toNat + 1, o.toNat + 2] else [])

/-- The loads of R103, R111, R114 to R117 under a TYPE they take and with registers in range. -/
def loadUse (t : Team) : Instr → Option MemUse
  | .ldBase d b ord scope => t.wideType.bind fun w => if t.okV w d.toNat then some {
      ord := ord, scope := scope, width := widthOf w, addrs := baseAddrs t b (widthOf w) (laneList t t.present), vs := pair w d.toNat,
      ss := [b.toNat], dst := .vec d.toNat w } else none
  | .ldVectorOffset d b o ord scope => t.wideType.bind fun w => if t.okV w d.toNat && t.okV false o.toNat then some {
      ord := ord, scope := scope, width := widthOf w, addrs := offsetAddrs t b o (laneList t t.present), vs := o.toNat :: pair w d.toNat,
      ss := [b.toNat], dst := .vec d.toNat w } else none
  | .sld d b ord scope => t.scalarWidth.map fun w => {
      ord := ord, scope := scope, width := w, addrs := [(0, t.rs b.toNat)], vs := [], ss := [b.toNat, d.toNat], dst := .sca d.toNat t.typeCode }
  | .wgath d b o ord scope => t.wideType.bind fun w => if t.okV w d.toNat then (patternAddrs t b o).map fun p => {
      ord := ord, scope := scope, width := widthOf w, addrs := p.1, vs := pair w d.toNat, ss := p.2, dst := .vec d.toNat w } else none
  | _ => none

/-- R103, R106, R111, R113: a load with a legal order, its registers full and its addresses granted, and no watchpoint set, issues:
its words are requested at the point of its scope, and the team goes on. Where an access of the team's own to one of the words is under
way that the load has to follow, it waits.
R47, R110: what the issue of a plain load of memory does: its destination is empty, the load is outstanding with a request for each
word of each lane, and nothing else changes. -/
def Obligations.LoadsIssue : Prop :=
  (∀ (i : Instr) (s : State) (k : Nat) (t : Team) (u : MemUse) (p : Nat → Place), Runs s k t → Quiet s t → Free t → Unwatched s k →
    loadUse t i = some u → plainOrder 1 u.ord u.scope = true → FullV t u.vs → FullS t u.ss →
    (∀ x ∈ u.addrs, checkAddr s t.core (bandKey k) u.width x.2 .read = .go (p x.1)) →
    let s1 := noteMisses s k t (u.addrs.map fun x => x.2)
    let as := u.addrs.map fun x => (x.1, x.2, p x.1)
    exec i s = .next (if loadWaits s k (orderPoint u.ord u.scope) as (u.width / 4) then waitHere s1
      else issueLoad s1 k t u.dst (orderPoint u.ord u.scope) (acquires u.ord) as (u.width / 4))) ∧
  (∀ (s : State) (k : Nat) (t : Team) (d : Nat) (wide : Bool) (as : List (Nat × DWord × Place)) (parts : Nat), 0 < parts → as ≠ [] →
    (∀ x ∈ as, ∃ pa key cp, x.2.2 = .mem pa key cp) → (∀ o ∈ s.loads, ∃ w ∈ o.words, w.isHere = false) →
    ∃ o, issueLoad s k t (.vec d wide) .l1 false as parts =
        setTeam { s with serial := s.serial + 1, loads := s.loads ++ [o] } k { t.next.emptyV (pair wide d) with acquiring := false } ∧
      o.team = k ∧ o.dst = .vec d wide ∧ o.words.length = as.length * parts ∧ ∀ w ∈ o.words, w.isHere = false)

/-- The stores of R103, R111, R112 and R117. -/
def storeUse (t : Team) : Instr → Option MemUse
  | .stBase d b ord scope _ => t.wideType.bind fun w => if t.okV w d.toNat then some {
      ord := ord, scope := scope, width := widthOf w, addrs := baseAddrs t b (widthOf w) (laneList t t.present), vs := pair w d.toNat,
      ss := [b.toNat], val := fun L => (pair w d.toNat).map fun r => t.rv r L } else none
  | .stVectorOffset d b o ord scope _ => t.wideType.bind fun w => if t.okV w d.toNat && t.okV false o.toNat then some {
      ord := ord, scope := scope, width := widthOf w, addrs := offsetAddrs t b o (laneList t t.present), vs := o.toNat :: pair w d.toNat,
      ss := [b.toNat], val := fun L => (pair w d.toNat).map fun r => t.rv r L } else none
  | .sst d b ord scope _ => t.scalarWidth.map fun w => {
      ord := ord, scope := scope, width := w, addrs := [(0, t.rs b.toNat)], vs := [], ss := [b.toNat, d.toNat],
      val := fun _ => if w = 8 then [(t.rs d.toNat).setWidth 32, (t.rs d.toNat >>> 32).setWidth 32] else [(t.rs d.toNat).setWidth 32] }
  | .wscat d b o ord scope _ => t.wideType.bind fun w => if t.okV w d.toNat then (patternAddrs t b o).map fun p => {
      ord := ord, scope := scope, width := widthOf w, addrs := p.1, vs := pair w d.toNat, ss := p.2,
      val := fun L => (pair w d.toNat).map fun r => t.rv r L } else none
  | _ => none

/-- R14, R103, R112, R129: a plain store with its registers full, its addresses granted, no watchpoint set, no access of the team's own to
its words under way and room in the collector completes: the words of its lanes are written in lane order, so that the highest lane's
value stays, and no register changes. Where its words are under way, or the collector has no room, it waits.
R106, R122: a releasing store of a team that has nothing left to publish completes as well: its own words are written, and each is written
through to its point. -/
def Obligations.StoresComplete : Prop :=
  ∀ (i : Instr) (s : State) (k : Nat) (t : Team) (u : MemUse) (p : Nat → Place), Runs s k t → Quiet s t → Free t → Unwatched s k →
    storeUse t i = some u → FullV t u.vs → FullS t u.ss →
    (∀ x ∈ u.addrs, checkAddr s t.core (bandKey k) u.width x.2 .write = .go (p x.1)) →
    let s1 := noteMisses s k t (u.addrs.map fun x => x.2)
    let ws := u.addrs.flatMap fun x => (u.val x.1).zipIdx.map fun w => ((p x.1).plus (4 * w.2), w.1)
    let launch := (bandOf s (bandKey k)).launch
    let free := (∀ pa ∈ placeWords ws, wordBusy s k pa = false) ∧ collectorRoom s t.core (u.addrs.map fun x => x.1) = true
    (u.ord = 0 → u.scope = 0 → free → exec i s = .next (finish (writeWords s1 t.core launch t.ret ws) k t)) ∧
    (plainOrder 2 u.ord u.scope = true → ¬ free → exec i s = .next (waitHere s1)) ∧
    (u.ord = 2 → u.scope ≠ 7 → free → Published s k t →
      let point := clampPoint (pointOf u.scope.toNat) (ws.map fun w => w.1)
      let s2 := released s1 t
      exec i s = .next (finish (if point = .l1 then writeWords s2 t.core launch t.ret ws
        else writeThrough { s2 with serial := s2.serial + 1 } t.core launch t.ret (point == .home) s2.serial (lastWrites ws)) k t))

/-- R105: a word stored to a scratchpad is read back there, every other word of every crew's scratchpad is as it was, and nothing
outside that scratchpad changes.
R12, R14: a word stored to memory whose superblock the core's L1 holds, or has room for, is read back in the core's L1, every other
word that the L1 holds is as it was, and the bytes behind the caches and the other cores' caches do not change. Under a key that has been
erased the word is poisoned (R392). -/
def Obligations.StoredWordsAreReadBack : Prop :=
  (∀ (s : State) (core launch hint c o : Nat) (w : Word),
    let s' := storePlace s core launch hint (.pad c o) w
    s' = { s with crews := s'.crews } ∧
    ∀ c' o', (readPlace s' 0 0 0 (.pad c' o')).2 = if c' = c ∧ o' / 4 = o / 4 then .ok w else (readPlace s 0 0 0 (.pad c' o')).2) ∧
  (∀ (s : State) (core launch hint pa key : Nat) (cp : Bool) (w : Word),
    ((blk (l1Of s core) (pa / 256)).isSome = true ∨ (setOf .l1 (l1Of s core) (Level.set .l1 (pa / 256))).length < 16) →
    let s' := l1Write s core pa w cp key hint launch
    s'.mem = s.mem ∧ s'.memPoison = s.memPoison ∧ s'.l2 = s.l2 ∧ s'.drams = s.drams ∧ s'.teams = s.teams ∧ s'.crews = s.crews ∧
    (∀ c, c ≠ core → l1Of s' c = l1Of s c) ∧ held (l1Of s' core) pa = some (if keyGone s key then .poison else .ok w) ∧
    heldDirty (l1Of s' core) pa = true ∧
    ∀ a, a / 4 ≠ pa / 4 → held (l1Of s' core) a = held (l1Of s core) a)

/-- The atomics of R118 with a lane operand each, and their numbers. -/
def atomOf : Instr → Option (Nat × BitVec 6 × BitVec 5 × BitVec 6 × BitVec 2 × BitVec 3)
  | .aadd d b o ord scope _ => some (0, d, b, o, ord, scope)
  | .amin d b o ord scope _ => some (1, d, b, o, ord, scope)
  | .amax d b o ord scope _ => some (2, d, b, o, ord, scope)
  | .aand d b o ord scope _ => some (3, d, b, o, ord, scope)
  | .aor d b o ord scope _ => some (4, d, b, o, ord, scope)
  | .axor d b o ord scope _ => some (5, d, b, o, ord, scope)
  | .axch d b o ord scope _ => some (6, d, b, o, ord, scope)
  | .acas d b o ord scope _ => some (7, d, b, o, ord, scope)
  | _ => none

/-- A word of a scratchpad, or under a wide type the two that lie at `a`. -/
def padCell (s : State) (c : Nat) (wide : Bool) (a : Nat) : Nat :=
  (look 0 (crewOf s c).pad (a / 4)).toNat + if wide then (look 0 (crewOf s c).pad (a / 4 + 1)).toNat * 2 ^ 32 else 0

/-- What lanes do to cells in turn, each with its lane number and its cell: the cells after, and what each lane has found (R118, R119). -/
def inTurn (f : Nat → Nat → Nat) : List (Nat × Nat) → (Nat → Nat) → (Nat → Nat) × List (Nat × Nat)
  | [], m => (m, [])
  | (L, a) :: ls, m =>
    let r := inTurn f ls fun b => if b = a then f L (m a) else m b
    (r.1, (L, m a) :: r.2)

/-- An atomic on full registers in range, under a type it takes, may go: its element type is `el`, no watchpoint is set, and where it
releases nothing is left to publish. -/
structure AtomMay (s : State) (k : Nat) (t : Team) (fn : Nat) (ord : BitVec 2) (scope : BitVec 3) (el : Elem) (vs : List Nat) (b : BitVec 5) :
    Prop where
  runs : Runs s k t
  quiet : Quiet s t
  free : Free t
  unwatched : Unwatched s k
  legal : scope ≠ 7
  typed : ∃ e, atomElem t.mode fn = some (el, e)
  width : el.width = 32 ∨ el.width = 64
  vectors : FullV t vs
  base : FullS t [b.toNat]
  published : releases ord = true → Published s k t

/-- The operand of a lane: exact for an integer sum (R66). -/
def atomOperand (el : Elem) (fn x : Nat) : Int :=
  match el with
  | .int sg w => if fn = 0 then intOf sg w x else (x : Int)
  | .flt _ => (x : Int)

/-- R105, R106, R118, R119, R122: an atomic on words of one crew's scratchpad, of any lanes, type, order and scope, with no access
under way, completes at once: the lanes are applied in ascending order, each to what the lanes before it have left, each cell holds what the
last lane has left there, each lane's register takes what the lane has found, and the registers are full.
R47, R119: an atomic at a scope beyond the die on words of memory issues, once the collector has room: its destination is empty, the atomic is
outstanding with a request for each word of each lane, and the registers hold their values until the words return.
R118, R119, R121: an atomic of one lane under a narrow type on a word that its core's L1 holds, at a scope within the core, completes at
once: the L1 then holds the new value, and the register takes the old one. At a scope within the die the same holds of a word that the die's L2
holds and the L1 does not.
R118: the new value of an atomic under u32: the sum, the lesser, the greater, the bitwise results, the operand, and the second operand
where the word equals the first. -/
def Obligations.AtomicsComplete : Prop :=
  (∀ (i : Instr) (fn : Nat) (d : BitVec 6) (b : BitVec 5) (o : BitVec 6) (ord : BitVec 2) (scope : BitVec 3),
    atomOf i = some (fn, d, b, o, ord, scope) →
  ∀ (s : State) (k : Nat) (t : Team) (el : Elem),
    let w := el.width == 64
    let n := if w then 2 else 1
    let ls := laneList t t.present
    let va := fun L => t.rs b.toNat + (t.rv o.toNat L).signExtend 64
    let f := fun L old => atomNew t.mode fn old (atomOperand el fn (t.rw w d.toNat L)) (if fn = 7 then t.rw w (d.toNat + n) L else 0)
    AtomMay s k t fn ord scope el (pair w d.toNat ++ [o.toNat] ++ if fn = 7 then pair w (d.toNat + n) else []) b →
    t.okV w d.toNat = true → t.okV false o.toNat = true → (fn = 7 → d.toNat + 2 * n ≤ t.vregs ∧ (w = true → d.toNat % 4 = 0)) →
    -- scratchpad words
    (∀ (c : Nat) (off : Nat → Nat), s.loads = [] →
      (∀ L ∈ ls, checkAddr s t.core (bandKey k) (widthOf w) (va L) .write = .go (.pad c (off L)) ∧ off L % widthOf w = 0 ∧
        ∀ j < n, PadGood s c (off L / 4 + j)) →
      let r := inTurn (fun L old => f L old % 2 ^ el.width) (ls.map fun L => (L, off L)) (padCell s c w)
      ∃ s' t', exec i s = .next s' ∧ s'.teams.lookup k = some t' ∧ t'.pc = t.pc + 4 ∧ s'.mem = s.mem ∧ s'.loads = [] ∧
        (∀ a, a % widthOf w = 0 → padCell s' c w a = r.1 a) ∧ (∀ x ∈ r.2, t'.rw w d.toNat x.1 = x.2) ∧
        ∀ q ∈ pair w d.toNat, t'.vIsEmpty q = false) ∧
    -- memory words at their homes
    (∀ (pl : Nat → Nat × Nat × Bool), pointOf scope.toNat = .home → ls ≠ [] →
      (∀ L ∈ ls, checkAddr s t.core (bandKey k) (widthOf w) (va L) .write = .go (.mem (pl L).1 (pl L).2.1 (pl L).2.2)) →
      (∀ L ∈ ls, wordBusy s k (pl L).1 = false ∧ wordBusy s k ((pl L).1 + 4) = false) → (∀ q ∈ s.loads, ∃ x ∈ q.words, x.isHere = false) →
      collectorRoom s t.core ls = true →
      ∃ s' t' q, exec i s = .next s' ∧ s'.teams.lookup k = some t' ∧ t'.pc = t.pc + 4 ∧ q ∈ s'.loads ∧ q.team = k ∧ q.atomic = true ∧
        q.dst = .vec d.toNat w ∧ q.words.length = ls.length * n ∧ (∀ x ∈ q.words, x.isHere = false) ∧
        (∀ r ∈ pair w d.toNat, t'.vIsEmpty r = true) ∧ (∀ L, t'.rw w d.toNat L = t.rw w d.toNat L) ∧ s'.mem = s.mem) ∧
    -- a word that the core, or its die, holds
    (∀ (L pa key : Nat) (cp : Bool) (old : Word), ls = [L] → w = false → s.loads = [] → s.pubs = [] → wordBusy s k pa = false →
      checkAddr s t.core (bandKey k) 4 (va L) .write = .go (.mem pa key cp) →
      let new := if keyGone s key then Datum.poison else .ok (BitVec.ofNat 32 (f L old.toNat))
      ((pointOf scope.toNat = .l1 → held (l1Of s t.core) pa = some (.ok old) → sound (l1Of s t.core) pa = true →
        ∃ s' t', exec i s = .next s' ∧ s'.teams.lookup k = some t' ∧ t'.pc = t.pc + 4 ∧ s'.loads = [] ∧ t'.rv d.toNat L = old ∧
          t'.vIsEmpty d.toNat = false ∧ held (l1Of s' t.core) pa = some new) ∧
      (pointOf scope.toNat = .l2 → (blk (l1Of s t.core) (pa / 256)).isNone = true → held (l2Of s (t.core / 144)) pa = some (.ok old) →
        sound (l2Of s (t.core / 144)) pa = true → acquires ord = false →
        ∃ s' t', exec i s = .next s' ∧ s'.teams.lookup k = some t' ∧ t'.pc = t.pc + 4 ∧ s'.loads = [] ∧ t'.rv d.toNat L = old ∧
          t'.vIsEmpty d.toNat = false ∧ held (l2Of s' (t.core / 144)) pa = some new)))) ∧
  (∀ (m : Word) (x y old : Word), bits m.toNat 18 4 = 1 → bit m.toNat 14 = false →
    let new := fun fn => BitVec.ofNat 32 (atomNew m fn old.toNat (x.toNat : Int) y.toNat)
    new 0 = old + x ∧ new 1 = (if x.toNat < old.toNat then x else old) ∧ new 2 = (if old.toNat < x.toNat then x else old) ∧
    new 3 = old &&& x ∧ new 4 = old ||| x ∧ new 5 = old ^^^ x ∧ new 6 = x ∧ new 7 = (if old = x then y else old))

/-- What `ared` combines its lanes to (R75, R120): the exact sum of integers, else the tree of R74; none with no present lane. -/
def aredOperand (t : Team) (el : Elem) (e : NumEnv) (w : Bool) (d op : Nat) : Int :=
  match op, el with
  | 0, .int sg n => ((laneList t t.present).map fun L => intOf sg n (t.rw w d L)).sum
  | f, el => (((treeSum (combine f el e) t.rows fun L => if (laneList t t.present).contains L then some (t.rw w d L) else none).map fun r =>
      r.1).getD 0 : Nat)

/-- R105, R106, R120, R122: `ared` of any operation, type, order and scope on words of a scratchpad, with no access under way, completes:
with present lanes the cell takes the atomic of the combined operands, with none nothing is updated; no register changes.
R120, R119: on words of memory at a scope beyond the die it issues as one atomic with no destination, and the team goes on.
R120: with op add under u32 it adds the lanes' sum modulo 2^32. -/
def Obligations.AredCompletes : Prop :=
  (∀ (s : State) (k : Nat) (t : Team) (d op : BitVec 6) (b : BitVec 5) (ord : BitVec 2) (scope : BitVec 3) (ta : Bool) (el : Elem) (e : NumEnv),
    let w := el.width == 64
    let ls := laneList t t.present
    AtomMay s k t op.toNat ord scope el (pair w d.toNat) b → atomElem t.mode op.toNat = some (el, e) → op.toNat ≤ 5 → t.okV w d.toNat = true →
    (∀ c off, s.loads = [] → checkAddr s t.core (bandKey k) (widthOf w) (t.rs b.toNat) .write = .go (.pad c off) → off % widthOf w = 0 →
      (∀ j < (if w then 2 else 1), PadGood s c (off / 4 + j)) →
      ∃ s' t', exec (.ared d b op ord scope ta) s = .next s' ∧ s'.teams.lookup k = some t' ∧ t'.pc = t.pc + 4 ∧ t'.v = t.v ∧ t'.s = t.s ∧
        s'.mem = s.mem ∧ s'.loads = [] ∧
        ∀ a, a % widthOf w = 0 → padCell s' c w a = if a = off ∧ ls ≠ [] then
          atomNew t.mode op.toNat (padCell s c w off) (aredOperand t el e w d.toNat op.toNat) 0 % 2 ^ el.width else padCell s c w a) ∧
    (∀ pa key cp, pointOf scope.toNat = .home → ls ≠ [] →
      checkAddr s t.core (bandKey k) (widthOf w) (t.rs b.toNat) .write = .go (.mem pa key cp) → wordBusy s k pa = false → wordBusy s k (pa + 4) = false →
      (∀ q ∈ s.loads, ∃ x ∈ q.words, x.isHere = false) → collectorRoom s t.core [0] = true →
      ∃ s' t' q, exec (.ared d b op ord scope ta) s = .next s' ∧ s'.teams.lookup k = some t' ∧ t'.pc = t.pc + 4 ∧ t'.v = t.v ∧ t'.s = t.s ∧
        q ∈ s'.loads ∧ q.team = k ∧ q.atomic = true ∧ q.dst = .none ∧ (∀ x ∈ q.words, x.isHere = false) ∧ s'.mem = s.mem)) ∧
  (∀ (s : State) (k : Nat) (t : Team) (d : BitVec 6) (b : BitVec 5) (ta : Bool) (c off : Nat) (old : Word), Runs s k t → Quiet s t → Free t → Unwatched s k →
    t.typeCode = 1 → t.sat = false → t.okV false d.toNat = true → FullV t [d.toNat] → FullS t [b.toNat] → s.loads = [] →
    checkAddr s t.core (bandKey k) 4 (t.rs b.toNat) .write = .go (.pad c off) →
    PadGood s c (off / 4) → look 0 (crewOf s c).pad (off / 4) = old →
    ∃ s' t', exec (.ared d b 0 0 1 ta) s = .next s' ∧ s'.teams.lookup k = some t' ∧ t'.pc = t.pc + 4 ∧ t'.v = t.v ∧ t'.s = t.s ∧
      look 0 (crewOf s' c).pad (off / 4) = old + (laneList t t.present).foldl (fun (a : Word) L => a + t.rv d.toNat L) 0)

/-- R122, R123, R124: `fence` and `phase` of a team that has nothing to publish, no load outstanding and no fault to deliver complete;
`phase` beyond the L1 then invalidates the core's clean words.
R110, R123: a `fence` of a team that is in no handler and holds a data fault delivers it: the trap has the fault's cause and records. In a
handler none is delivered, by log 19.
R109, R125, R126, R129: `pf` on full registers completes once the collector has room and every lane's check is complete, whatever its
addresses are, and leaves no trace but translation misses, requests for words, hits and page requests refused; its entries of the collector are free at
once, by log 93. `cwb` and `cinv` over no bytes, or at a scope within the core, complete and change nothing.
R122, R125, R126: `cwb` and `cinv` over a range of bytes at a wider scope, whose pages pass their checks, publish the core's dirty words of the
range: where those, and the team's earlier accesses, are performed they complete, and `cinv` invalidates the range; until then they wait, and complete
once they are. -/
def Obligations.FencesAndCacheControlComplete : Prop :=
  ((∀ (s : State) (k : Nat) (t : Team) (scope : BitVec 3), Runs s k t → Free t → Published s k t → scope ≠ 7 → t.heldFault = none →
    exec (.fence scope) s = .next (finish (released s t) k t) ∧
    exec (.phase scope) s = .next (finish (if scope.toNat ≤ 1 then released s t else invalidateClean (released s t) t.core) k t)) ∧
  (∀ (s : State) (k : Nat) (t : Team) (scope : BitVec 3) (f : DataFault) (r : Nat) (rest : NMap DataFault), Runs s k t → Free t → scope ≠ 7 →
    t.inh = false → t.vFault = (r, f) :: rest → exec (.fence scope) s = .next (raise s k (t.deliverV f) f.cause f.recs))) ∧
  (∀ (s : State) (k : Nat) (t : Team), Runs s k t → Quiet s t → Free t → Unwatched s k →
    (∀ w b o, t.wideType = some w → t.okV false o.toNat = true → FullV t [o.toNat] → FullS t [b.toNat] →
      let as := (offsetAddrs t b o (laneList t t.present)).flatMap fun a => (List.range (if w then 2 else 1)).map fun i => a.2 + BitVec.ofNat 64 (4 * i)
      let s0 := noteMisses s k t as
      let late := ∃ va ∈ as, ∃ x, checkAddr s0 t.core (bandKey k) 1 va .read = .wait x
      (collectorRoom s t.core (laneList t t.present) = false ∨ late → exec (.pf b o) s = .next (waitHere s0)) ∧
      (collectorRoom s t.core (laneList t t.present) = true → ¬ late → (∀ pa, sound (l1Of s t.core) pa = true) →
        ∃ s1, exec (.pf b o) s = .next (finish s1 k t) ∧
        s1 = { s with walks := s1.walks, ats := s1.ats, atsDenied := s1.atsDenied, asks := s1.asks, misses := s1.misses, l2q := s1.l2q, cores := s1.cores } ∧
        ∀ pa, held (l1Of s1 t.core) pa = held (l1Of s t.core) pa)) ∧
    (∀ b l scope, scope ≠ (7 : BitVec 3) → FullS t [b.toNat, l.toNat] → (t.rs l.toNat = 0 ∨ scope.toNat ≤ 1) →
      exec (.cwb b l scope) s = .next (finish s k t) ∧ exec (.cinv b l scope) s = .next (finish s k t))) ∧
  (∀ (s : State) (k : Nat) (t : Team) (b l : BitVec 5) (scope : BitVec 3) (i : Instr) (inv : Bool), Runs s k t → Quiet s t → t.acquiring = false →
    scope ≠ 7 → FullS t [b.toNat, l.toNat] → t.rs l.toNat ≠ 0 → pointOf scope.toNat ≠ .l1 →
    (i = .cwb b l scope ∧ inv = false ∨ i = .cinv b l scope ∧ inv = true) →
    let va := t.rs b.toNat
    let n := (t.rs l.toNat).toNat
    firstMissing (fun p => checkAddr s t.core (bandKey k) 1 p .read) (pageCount va n) va = none →
    let s1 := noteMisses s k t [va]
    let rs := inRange s1 t.core (bandKey k) va n
    let p := fun pa => rs.any fun r => decide (r.1 / 4 * 4 ≤ pa ∧ pa ≤ r.2)
    let home := pointOf scope.toNat == .home
    let ends := fun (s : State) (id : Nat) => if releaseDone s id && !loading s k then
        finish (if inv then dropRange s t.core home p else s) k t
      else waitHere (setTeam s k { teamOf s k with release := some id })
    (t.release = none → exec i s = .next (ends
      (capture (flushMisses { s1 with serial := s1.serial + 1 } t.core) t.core home false p s1.serial) s1.serial)) ∧
    (∀ id, t.release = some id → exec i s = .next (ends s1 id)))

/-- R113, R122, R127: `mwait` on a granted stamp that can be read now, and of a team with nothing to publish where it releases: if the
stamp satisfies the target, or a word of it is faulty, it completes at once and `S[d]` takes the stamp or carries the fault; else the
instruction has issued and the team holds at it, with `S[d]` empty. Where the stamp cannot be read yet, it waits.
R105, R127: on a scratchpad the stamp is the two words there, and `S[d]` holds it and stays full.
R127: MWAIT_SATISFIED ends the wait of a team whose scratchpad stamp now satisfies its target: `S[d]` holds the stamp and is full, and
the team goes on after the instruction; where the stamp does not satisfy it, nothing happens. In memory the stamp is what its point holds, a
faulty one ends the wait as well, and one that cannot be read now is asked for. MWTO ends a wait that has been longer than MWTO ticks with the
trap MWTO, its destination as it was. Each does nothing for a team that is in no such wait. -/
def Obligations.MwaitCompletes : Prop :=
  (∀ (s : State) (k : Nat) (t : Team) (d b o : BitVec 5) (ord : BitVec 2) (scope : BitVec 3) (p : Place), Runs s k t → Quiet s t → Free t →
    Unwatched s k → scope ≠ 7 → FullS t [b.toNat, o.toNat, d.toNat] → checkAddr s t.core (bandKey k) 8 (t.rs b.toNat) .read = .go p →
    (releases ord = true → Published s k t) →
    let point := clampPoint (pointOf scope.toNat) [p]
    let s1 := noteMisses s k t [t.rs b.toNat]
    let s2 := if releases ord then released s1 t else s1
    let r := readStamp s2 k t.core point p t.ret
    (stampReady s2 k t.core point p = false → exec (.mwait d b o ord scope) s = .next (waitHere (askStamp s2 p))) ∧
    (stampReady s2 k t.core point p = true → r.2.1.cause ≠ 0 ∨ stampMet r.2.2 (t.rs o.toNat) = true → exec (.mwait d b o ord scope) s =
      .next (finish (if acquires ord && point != .l1 then invalidateClean (pastStamp r.1 t.core point p) t.core
        else pastStamp r.1 t.core point p) k (t.stampTo d.toNat (t.rs b.toNat).toNat r.2.1 r.2.2))) ∧
    (stampReady s2 k t.core point p = true → r.2.1.cause = 0 → stampMet r.2.2 (t.rs o.toNat) = false → ∃ pa,
      exec (.mwait d b o ord scope) s = .next (setTeam r.1 k (((teamOf r.1 k).holding (.mwait d (t.rs b.toNat).toNat pa (t.rs o.toNat)
        scope.toNat (acquires ord) ((teamOf r.1 k).rs d.toNat) ((teamOf r.1 k).mwto.toNat + 1))).emptyS [d.toNat])))) ∧
  (∀ (s : State) (k : Nat) (t : Team) (d b o : BitVec 5) (scope : BitVec 3) (c off : Nat), Runs s k t → Quiet s t → Free t → Unwatched s k → scope ≠ 7 →
    FullS t [b.toNat, o.toNat, d.toNat] → checkAddr s t.core (bandKey k) 8 (t.rs b.toNat) .read = .go (.pad c off) →
    PadGood s c (off / 4) → PadGood s c ((off + 4) / 4) →
    let stamp : DWord := look 0 (crewOf s c).pad ((off + 4) / 4) ++ look 0 (crewOf s c).pad (off / 4)
    stampMet stamp (t.rs o.toNat) = true → exec (.mwait d b o 0 scope) s = .next (finish s k ((t.ws d.toNat stamp).fillS [d.toNat]))) ∧
  (∀ (s : State) (k : Nat) (t : Team) (d : BitVec 5) (va pa : Nat) (target old : DWord) (scope left : Nat), s.teams.lookup k = some t →
    t.hold = .mwait d va pa target scope false old left → Quiet s t → t.sFault.lookup d.toNat = none →
    (∀ c off, checkAddr s t.core (bandKey k) 8 (BitVec.ofNat 64 va) .read = .go (.pad c off) →
      PadGood s c (off / 4) → PadGood s c ((off + 4) / 4) →
      let stamp : DWord := look 0 (crewOf s c).pad ((off + 4) / 4) ++ look 0 (crewOf s c).pad (off / 4)
      exec (.mwaitSatisfied k) s = .next (if stampMet stamp target then setTeam s k (((t.ws d.toNat stamp).fillS [d.toNat]).holdOver) else s)) ∧
    (t.mwto ≠ 0 → left = 0 → exec (.mwto k) s = .next (raise1 s k
      { (t.ws d.toNat old).fillS [d.toNat] with hold := .free, count := t.count - 1, stepAsked := none } cMWTO (BitVec.ofNat 64 va)))) ∧
  (∀ (s : State) (k : Nat) (t : Team) (d : BitVec 5) (va pa : Nat) (target old : DWord) (scope left : Nat) (acq : Bool), s.teams.lookup k = some t →
    t.hold = .mwait d va pa target scope acq old left →
    (∀ p, checkAddr s t.core (bandKey k) 8 (BitVec.ofNat 64 va) .read = .go p →
      let point := clampPoint (pointOf scope) [p]
      let r := readStamp s k t.core point p t.ret
      (stampReady s k t.core point p = false → exec (.mwaitSatisfied k) s = .next (askStamp s p)) ∧
      (stampReady s k t.core point p = true → r.2.1.cause ≠ 0 ∨ stampMet r.2.2 target = true → exec (.mwaitSatisfied k) s =
        .next (setTeam (if acq && point != .l1 then invalidateClean (pastStamp r.1 t.core point p) t.core else pastStamp r.1 t.core point p) k
          (t.stampTo d.toNat va r.2.1 r.2.2).holdOver)) ∧
      (stampReady s k t.core point p = true → r.2.1.cause = 0 → stampMet r.2.2 target = false → exec (.mwaitSatisfied k) s = .next r.1)) ∧
    ((∀ p, checkAddr s t.core (bandKey k) 8 (BitVec.ofNat 64 va) .read ≠ .go p) → exec (.mwaitSatisfied k) s = .next s) ∧
    (t.mwto = 0 ∨ left ≠ 0 → exec (.mwto k) s = .next s)) ∧
  (∀ (s : State) (k : Nat), (∀ t, s.teams.lookup k = some t → ∀ d va pa g sc a old left, t.hold ≠ .mwait d va pa g sc a old left) →
    exec (.mwaitSatisfied k) s = .next s ∧ exec (.mwto k) s = .next s)

/-! ### Control flow -/

/-- R56, R162, R163, R164, R165, R174, R175: branches, jumps, `joinat`, `nop`, `yield`, `rgn` and `rgnx` complete: where the PC goes, and what else
each changes. A divergent `br` with room on the stack pushes its false lanes; a divergent `bru` traps DIVU. -/
def Obligations.BranchesComplete : Prop :=
  ∀ (s : State) (k : Nat) (t : Team), Runs s k t → Quiet s t →
    exec .nop s = .next (setTeam s k t.next) ∧
    exec .yield s = .next (setTeam s k { t.next with age := 0 }) ∧
    exec .rgnx s = .next (setTeam s k { t.next with rgst := t.rgst &&& ~~~1 }) ∧
    exec .rgn s = .next (setTeam s k { t.next with
      rgpc := t.pc + 4
      rgmask := t.mask
      rgst := BitVec.ofNat 64 (1 + (t.stack.length + t.spilled) * 65536 + t.cfd.toNat * 2 ^ 32) }) ∧
    (∀ off, exec (.jmp off) s = .next (setTeam s k (t.goto (t.pc + 4 * off.signExtend 64)))) ∧
    (∀ off, exec (.joinat off) s = .next (setTeam s k { t.next with jpc := (t.pc + 4 * off.signExtend 64) ||| 1 })) ∧
    (∀ inv p off, exec (.brany inv p off) s =
      .next (setTeam s k (if t.vote inv p.toNat = 0 then t.next else t.goto (t.pc + 4 * off.signExtend 64)))) ∧
    (∀ inv p off, exec (.brall inv p off) s =
      .next (setTeam s k (if t.vote inv p.toNat = t.mask then t.goto (t.pc + 4 * off.signExtend 64) else t.next))) ∧
    (∀ inv p off, exec (.bru inv p off) s = .next (
      if t.vote inv p.toNat = t.mask then setTeam s k (t.goto (t.pc + 4 * off.signExtend 64))
      else if t.vote inv p.toNat = 0 then setTeam s k t.next
      else raise s k t cDIVU [record 0 cDIVU t.pc])) ∧
    (∀ inv p off, let yes := t.vote inv p.toNat
      let no := t.mask &&& ~~~yes
      (no = 0 → exec (.br inv p off) s = .next (setTeam s k { t.goto (t.pc + 4 * off.signExtend 64) with jpc := 0 })) ∧
      (no ≠ 0 → yes = 0 → exec (.br inv p off) s = .next (setTeam s k { t.next with jpc := 0 })) ∧
      (no ≠ 0 → yes ≠ 0 → t.inh = false → t.spilled = 0 → t.stack.length < 8 →
        exec (.br inv p off) s = .next (setTeam s k { t.goto (t.pc + 4 * off.signExtend 64) with
          jpc := 0
          mask := yes
          stack := { pc := t.pc + 4, rpc := if bit t.jpc.toNat 0 then t.jpc &&& ~~~3 else 0, mask := no, depth := t.cfd,
                     norp := !bit t.jpc.toNat 0 } :: t.stack })))

/-- R154, R166, R168: calls and `ret` complete: the link, the depth and the target; a target that is no multiple of 4 traps MALIGN, and a
call at depth 65535 traps STKOV. `callv` calls the target of the lowest active lane and pushes the other lanes.
That STKOV writes no record is the model's reading (log 22). -/
def Obligations.CallsComplete : Prop :=
  ∀ (s : State) (k : Nat) (t : Team), Runs s k t → Quiet s t → FullS t [30] →
    let enters := fun (u : Team) (dest : DWord) => setTeam s k { (u.goto dest).ws 30 (t.pc + 4) with cfd := t.cfd + 1 }
    (t.cfd ≠ 0xFFFF → ∀ off, exec (.call off) s = .next (enters t (t.pc + 4 * off.signExtend 64))) ∧
    (t.cfd = 0xFFFF → ∀ off, exec (.call off) s = .next (raise s k t cSTKOV [])) ∧
    (∀ x, FullS t [x.toNat] → exec (.callr x) s = .next (
      if (t.rs x.toNat).toNat % 4 ≠ 0 then raise s k t cMALIGN [record 0 cMALIGN (t.rs x.toNat)]
      else if t.cfd = 0xFFFF then raise s k t cSTKOV [] else enters t (t.rs x.toNat))) ∧
    (exec .ret s = .next (
      if (t.rs 30).toNat % 4 ≠ 0 then raise s k t cMALIGN [record 0 cMALIGN (t.rs 30)]
      else setTeam s k { t.goto (t.rs 30) with cfd := t.cfd - (if t.cfd = 0 then 0 else 1) })) ∧
    (∀ x, t.okV true x.toNat = true → FullV t [x.toNat, x.toNat + 1] → t.cfd ≠ 0xFFFF → t.inh = false → t.spilled = 0 → t.stack.length < 8 →
      let dest := fun L => t.rv (x.toNat + 1) L ++ t.rv x.toNat L
      (∀ L ∈ laneList t t.mask, (dest L).toNat % 4 = 0) →
      ∀ L₀, (laneList t t.mask).head? = some L₀ →
      ∃ g : LaneMask, (∀ L < 1024, g.getLsbD L = (decide (L < t.lanes) && t.mask.getLsbD L && dest L == dest L₀)) ∧
        exec (.callv x) s = .next (if t.mask &&& ~~~g = 0 then enters t (dest L₀)
          else enters { t with mask := g, stack := { pc := t.pc, rpc := t.pc + 4, mask := t.mask &&& ~~~g, depth := t.cfd } :: t.stack } (dest L₀)))

/-- What follows the reading of the spill area: a fault of it traps at the instruction, and a wait for a translation or for the host
makes the instruction wait. -/
def AfterSpill {α : Type} (k : Nat) (r : State × Except SpillStop α) (out : Out) (good : State → α → Prop) : Prop :=
  (∀ x, r.2 = .ok x → good r.1 x) ∧
  (∀ c rec, r.2 = .error (.fault c rec) → out = .next (raise r.1 k (teamOf r.1 k) c [rec])) ∧
  (r.2 = .error .wait → out = .next (waitHere r.1))

/-- R169: `cut` on full registers: a target that is no multiple of 4 traps MALIGN, and a depth beyond CFD traps BOUNDS. Else every entry of
a deeper frame that holds a lane of the team traps DIVU, and with none the deeper entries go, the others stay in their order, the eight
newest of them in hardware, and the team goes on at `S[x]` at depth `S[y]`: with no spilled entry at once, and with spilled entries on what
the spill area holds.
R170, R187: `stkrd` and `stkwr` on full registers, on the saved stack in a handler and on the team's own outside one: which fields trap
ILLOP, which index traps BOUNDS, which value traps MALIGN, and what the others read and write, in an entry held in hardware and in a
spilled one. -/
def Obligations.StackInstructionsComplete : Prop :=
  ∀ (s : State) (k : Nat) (t : Team) (x y : BitVec 5), Runs s k t → Quiet s t → Unwatched s k →
    let n := (t.rs y.toNat).toNat
    let v := t.rs x.toNat
    -- cut
    (FullS t [x.toNat, y.toNat] →
      let deep := fun (es : List Entry) => es.any fun e => decide (n < e.depth.toNat) && (e.mask &&& t.limit) != 0
      let keep := fun (es : List Entry) => es.filter fun e => decide (e.depth.toNat ≤ n)
      let gone := fun (s : State) (es : List Entry) => setTeam s k { t.goto v with
        stack := es.take 8
        spilled := es.length - 8
        cfd := BitVec.ofNat 16 n
        jpc := 0 }
      (v.toNat % 4 ≠ 0 → exec (.cut x y) s = .next (raise s k t cMALIGN [record 0 cMALIGN v])) ∧
      (v.toNat % 4 = 0 → t.cfd.toNat < n → exec (.cut x y) s = .next (raise s k t cBOUNDS [record 0 cBOUNDS (t.rs y.toNat)])) ∧
      (v.toNat % 4 = 0 → n ≤ t.cfd.toNat → t.spilled = 0 → exec (.cut x y) s = .next (
        if deep t.stack then raise s k t cDIVU [record 0 cDIVU (t.rs y.toNat)] else gone s (keep t.stack))) ∧
      (v.toNat % 4 = 0 → n ≤ t.cfd.toNat → 0 < t.spilled →
        AfterSpill k (readSpilled s k t t.spilled) (exec (.cut x y) s) fun s1 old =>
          (deep (t.stack ++ old) = true → exec (.cut x y) s = .next (raise s1 k (teamOf s1 k) cDIVU [record 0 cDIVU (t.rs y.toNat)])) ∧
          (deep (t.stack ++ old) = false → keep (t.stack ++ old) = t.stack ++ old → exec (.cut x y) s = .next (gone s1 (t.stack ++ old))) ∧
          (deep (t.stack ++ old) = false → keep (t.stack ++ old) ≠ t.stack ++ old → ∀ s2,
            writeSpilled s1 k t ((keep (t.stack ++ old)).drop 8) = .ok s2 → exec (.cut x y) s = .next (gone s2 (keep (t.stack ++ old)))))) ∧
    -- stkrd
    (∀ f : BitVec 8,
      let st := if t.inh then t.tsstack else t.stack
      let held := if t.inh then t.tsspilled else t.spilled
      (37 < f.toNat → exec (.stkrd x y f) s = .next (raise s k t cILLOP [])) ∧
      (FullS t [x.toNat, y.toNat] →
        (f = 36 → exec (.stkrd x y f) s = .next (finish s k (t.ws x.toNat (BitVec.ofNat 64 (st.length + held))))) ∧
        (f = 37 → exec (.stkrd x y f) s = .next (finish s k (t.ws x.toNat ((if t.inh then t.tscfd else t.cfd).setWidth 64)))) ∧
        (f.toNat < 36 → st.length + held ≤ n → exec (.stkrd x y f) s = .next (raise s k t cBOUNDS [record 0 cBOUNDS (t.rs y.toNat)])) ∧
        (f.toNat < 36 → ∀ e, st[n]? = some e → exec (.stkrd x y f) s = .next (finish s k (t.ws x.toNat (e.field t f.toNat)))) ∧
        (f.toNat < 36 → st.length ≤ n → n < st.length + held →
          AfterSpill k (readSpill s k t (held - 1 - (n - st.length))) (exec (.stkrd x y f) s) fun s1 e =>
            exec (.stkrd x y f) s = .next (finish s1 k (t.ws x.toNat (e.field t f.toNat)))))) ∧
    -- stkwr
    (∀ f : BitVec 8,
      let st := if t.inh then t.tsstack else t.stack
      let held := if t.inh then t.tsspilled else t.spilled
      (37 < f.toNat ∨ f = 3 ∨ f = 36 ∨ (f = 37 ∧ t.inh = false) → exec (.stkwr x y f) s = .next (raise s k t cILLOP [])) ∧
      (FullS t [x.toNat, y.toNat] →
        (f = 37 → t.inh = true → exec (.stkwr x y f) s = .next (finish s k { t with tscfd := v.setWidth 16 })) ∧
        (f.toNat < 36 → f ≠ 3 →
          (f.toNat < 2 → v.toNat % 4 ≠ 0 → exec (.stkwr x y f) s = .next (raise s k t cMALIGN [record 0 cMALIGN v])) ∧
          ((f.toNat < 2 → v.toNat % 4 = 0) →
            (st.length + held ≤ n → exec (.stkwr x y f) s = .next (raise s k t cBOUNDS [record 0 cBOUNDS (t.rs y.toNat)])) ∧
            (n < st.length →
              let new := st.zipIdx.map fun e => if e.2 = n then e.1.setField t f.toNat v else e.1
              exec (.stkwr x y f) s = .next (finish s k (if t.inh then { t with tsstack := new } else { t with stack := new }))) ∧
            (st.length ≤ n → n < st.length + held →
              let j := held - 1 - (n - st.length)
              AfterSpill k (readSpill s k t j) (exec (.stkwr x y f) s) fun s1 e =>
                ∀ ps, wordPlaces s1 k t 4 (t.spillVa j) 40 .write = .ok ps →
                exec (.stkwr x y f) s = .next (if inOrder s1 k ps true then finish (writePlaces s1 k t ps (e.setField t f.toNat v).image) k t
                  else waitHere s1))))))

/-! ### Traps -/

/-- R172, R202: `trap` of a team that no producer holds back and that is in no region, with TVEC set and FRECB's page writable in a
scratchpad, enters the handler with cause SWTRAP and TEPC after the instruction; `brk` with no debugger attached enters it with cause
BREAK and TEPC at the instruction; each has one record.
R188: `rti` in a handler whose saved mask holds a live lane restores MODE, the mask, the stack, CFD and JPC, clears TSTAT.INH and goes to
TEPC; outside a handler it traps ILLOP. -/
def Obligations.SoftwareTrapsAndReturnsComplete : Prop :=
  (∀ (s : State) (k : Nat) (t : Team) (z : BitVec 8) (c off : Nat), Runs s k t → outstanding s k = false → t.inh = false → t.regionOpen = false → t.tvec ≠ 0 →
    checkAddr s t.core (bandKey k) 16 t.frecb .write = .go (.pad c off) → bit t.dbgctl.toNat 14 = false →
    (∃ s' t', exec (.trap z) s = .next s' ∧ s'.teams.lookup k = some t' ∧ t'.pc = t.tvec ∧ t'.tepc = t.pc + 4 ∧ t'.tcause = 0x10 ∧ t'.frcnt = 1 ∧
      t'.mode = 0 ∧ t'.tsmode = t.mode ∧ t'.tsmask = t.mask ∧ t'.inh = true ∧ t'.s = t.s ∧ t'.v = t.v ∧ t'.p = t.p ∧ s'.mem = s.mem) ∧
    (∃ s' t', exec (.brk z) s = .next s' ∧ s'.teams.lookup k = some t' ∧ t'.pc = t.tvec ∧ t'.tepc = t.pc ∧ t'.tcause = 0x11 ∧ t'.frcnt = 1 ∧
      t'.mode = 0 ∧ t'.tsmode = t.mode ∧ t'.tsmask = t.mask ∧ t'.inh = true ∧ t'.s = t.s ∧ t'.v = t.v ∧ t'.p = t.p ∧ s'.mem = s.mem)) ∧
  (∀ (s : State) (k : Nat) (t : Team), Runs s k t →
    (t.inh = false → exec .rti s = .next (raise s k t cILLOP [])) ∧
    (t.inh = true → t.tsmask &&& t.live &&& teamMask t ≠ 0 → exec .rti s = .next (setTeam s k { t.issued with
      mode := t.tsmode
      mask := t.tsmask &&& t.live
      stack := t.tsstack
      spilled := t.tsspilled
      cfd := t.tscfd
      jpc := t.tsjpc
      tstat := t.tstat &&& ~~~1
      pc := t.tepc
      tsmask := 0
      tsstack := []
      tsspilled := 0
      tscfd := 0 })))

/-- R152, R327: `lkill` in a handler ends a lane: it is no longer live nor in the saved mask or a saved entry; the handler's own mask is as it
was. Outside a handler it traps ILLOP, and a lane outside the team traps BOUNDS.
An entry that has spilled keeps its bits in memory and is held to the live lanes where it is read back, by log 85.
R158, R171: `exit` waits while a producer of the team is outstanding. In a handler the whole team ends. Outside one a held data fault traps
there; with none the team's lanes end, entries with no lane left go, and the newest entry with one goes on at its PC (or its reconvergence PC), held in
hardware or read back from the spill area; with none left the team retires. What a spill area of more entries holds is as `proceed` has it. -/
def Obligations.LanesAndTeamsEnd : Prop :=
  (∀ (s : State) (k : Nat) (t : Team) (x : BitVec 5), Runs s k t → Quiet s t → FullS t [x.toNat] →
    (t.inh = false → exec (.lkill x) s = .next (raise s k t cILLOP [])) ∧
    (t.inh = true → let L := (t.rs x.toNat).toNat
      exec (.lkill x) s = .next (if t.lanes ≤ L then raise s k t cBOUNDS [record 0 cBOUNDS (t.rs x.toNat)]
        else finish s k { t with
          live := t.live &&& ~~~(BitVec.ofNat 1024 (2 ^ L))
          tsmask := t.tsmask &&& ~~~(BitVec.ofNat 1024 (2 ^ L))
          tsstack := t.tsstack.map fun e => { e with mask := e.mask &&& ~~~(BitVec.ofNat 1024 (2 ^ L)) } }))) ∧
  (∀ (s : State) (k : Nat) (t : Team), Runs s k t →
    let gone := ∃ s', exec .exit s = .next s' ∧ s'.teams.lookup k = none ∧ s'.mem = s.mem ∧ ∀ j, j ≠ k → s'.teams.lookup j = s.teams.lookup j
    (outstanding s k = true → exec .exit s = .next (waitHere s)) ∧
    (outstanding s k = false → t.inh = true → gone) ∧
    (outstanding s k = false → t.inh = false →
      (∀ t' f, t.heldFault = some (t', f) → exec .exit s = .next (raise s k t' f.cause f.recs)) ∧
      (t.heldFault = none →
        let left := t.live &&& ~~~t.mask
        let ended := fun (e : Entry) => e.mask &&& (left &&& teamMask t) = 0
        let goesOn := fun (s : State) (e : Entry) (rest : List Entry) => ∃ t', exec .exit s = .next (setTeam s k t') ∧
          t'.pc = (if e.st then e.rpc else e.pc) ∧ t'.mask = e.mask &&& (left &&& teamMask t) ∧ t'.live = left ∧ t'.stack = rest ∧ t'.spilled = 0 ∧
          t'.v = t.v ∧ t'.s = t.s
        (t.spilled = 0 → (∀ e ∈ t.stack, ended e) → gone) ∧
        (∀ dead e rest, t.spilled = 0 → t.stack = dead ++ e :: rest → (∀ d ∈ dead, ended d) → ¬ ended e →
          (∀ r, rest.head? = some r → r.norp = true ∨ r.rpc ≠ (if e.st then e.rpc else e.pc) ∨ r.depth ≠ t.cfd) → goesOn s e rest) ∧
        (let t1 := { t.issued.closeRegion with live := left, mask := 0, stack := [] }
          let r := readSpill s k t1 0
          t.spilled = 1 → Unwatched s k → (∀ e ∈ t.stack, ended e) → ∀ e, r.2 = .ok e → ¬ ended e →
            ∃ t', exec .exit s = .next (setTeam r.1 k t') ∧ t'.pc = (if e.st then e.rpc else e.pc) ∧ t'.mask = e.mask &&& (left &&& teamMask t) ∧
              t'.live = left ∧ t'.stack = [] ∧ t'.spilled = 0 ∧ t'.v = t.v ∧ t'.s = t.s) ∧
        (t.spilled ≠ 0 → exec .exit s = .next (proceed s k { t.issued.closeRegion with live := left, mask := 0 })))))

/-- R151, R185, R186: a trap of a team with no producer outstanding, outside a handler and outside a region, with TVEC set and no record to
write, is taken at once: TEPC, TCAUSE, FRCNT, FRLOST and TSTAT say what trapped; MODE, JPC, the mask, the stack and CFD are saved; the
handler runs at TVEC with MODE 0, an empty stack and the mask as it was; no other register of the team changes, and no other team. DBGCTL's
BSKIP and WSKIP are cleared by every entry, by log 96.
R49, R185: while a producer of the team is outstanding, a trap waits: the team keeps its registers and its PC.
R151, R185, R191: TRAP_ENTRY of a team whose trap waited enters the handler once no producer is outstanding; REGION_RESTART restarts the open
region at RGPC with its mask and counts the try. Each takes the trap that waits for it, and does nothing where none is ready or it is the
other's.
R150, R187, R190: with no producer outstanding, a trap in a handler, a trap whose first record cannot be written and a trap with no record while
TVEC is 0 end the launch with an error completion, whose record names the team, the causes and the PCs. -/
def Obligations.TrapEntry : Prop :=
  ((∀ (s : State) (k : Nat) (t : Team) (cause : Nat), outstanding s k = false → t.inh = false → t.regionOpen = false → t.tvec ≠ 0 →
    raise s k t cause [] = setTeam (leaveTables s t.core k) k { t with
      tepc := t.pc
      tcause := BitVec.ofNat 64 cause
      frcnt := 0
      frlost := 0
      tsmode := t.mode
      tsjpc := t.jpc
      tsmask := t.mask
      tsstack := t.stack
      tsspilled := t.spilled
      tscfd := t.cfd
      tstat := BitVec.ofNat 64 (1 + (t.tstat.toNat / 2 ^ 32 + 1) % 2 ^ 32 * 2 ^ 32)
      rgst := t.rgst &&& ~~~1
      mode := 0
      cfd := 0
      jpc := 0
      stack := []
      spilled := 0
      pc := t.tvec
      hold := .free
      release := none
      credit := false
      dbgctl := BitVec.ofNat 64 (setBits t.dbgctl.toNat 12 2 0)
      trapping := none }) ∧
  (∀ (s : State) (k : Nat) (t : Team) (cause : Nat) (recs : List Rec), outstanding s k = true →
    raise s k t cause recs = setTeam (leaveTables s t.core k) k { t with trapping := some { cause := cause, recs := recs, tepc := t.pc }, release := none })) ∧
  (∀ (s : State) (k : Nat) (t : Team) (cause : Nat) (tepc : DWord), s.teams.lookup k = some t → outstanding s k = false →
    t.trapping = some { cause := cause, recs := [], tepc := tepc } → t.inh = false →
    (t.regionOpen = false → t.tvec ≠ 0 → ∃ t', exec (.trapEntry k) s = .next (setTeam s k t') ∧ t'.pc = t.tvec ∧ t'.tepc = tepc ∧
      t'.tcause = BitVec.ofNat 64 cause ∧ t'.tsmode = t.mode ∧ t'.tsmask = t.mask ∧ t'.mode = 0 ∧ t'.trapping = none ∧ t'.inh = true) ∧
    (t.regionOpen = true → cause ∈ [8, 9, 10] → t.tries < 3 → ∃ t', exec (.regionRestart k) s = .next (setTeam s k t') ∧ t'.pc = t.rgpc ∧
      t'.mask = t.rgmask &&& (t.live &&& teamMask t) ∧ t'.tries = t.tries + 1 ∧ t'.jpc = 0 ∧ t'.trapping = none ∧ t'.vFault = [] ∧ t'.sFault = [])) ∧
  (∀ (s : State) (k : Nat), (readyTrap s k = none → exec (.trapEntry k) s = .next s ∧ exec (.regionRestart k) s = .next s) ∧
    ∀ t q, readyTrap s k = some (t, q) →
      (t.restarts q.cause = true → exec (.trapEntry k) s = .next s ∧ exec (.regionRestart k) s = .next (restartRegion s k t)) ∧
      (t.restarts q.cause = false → exec (.trapEntry k) s = .next (takeTrap s k t q) ∧ exec (.regionRestart k) s = .next s)) ∧
  (∀ (s : State) (k : Nat) (t : Team) (cause f : Nat) (recs : List Rec), outstanding s k = false → t.restarts cause = false →
    let s1 := leaveTables s t.core k
    let b := bandOf s (bandKey k)
    let e : ErrRec := { launch := b.launch, band := b.index, crew := (crewOf s (crewKey k)).index, team := k % 16, frecb := t.frecb }
    (t.inh = true → raise s k t cause recs = errorCompletion s1 { e with kind := 1, cause := t.tcause.toNat, pc := t.tepc, cause2 := cause, pc2 := t.pc }) ∧
    (t.inh = false → t.tvec = 0 → raise s k t cause [] = errorCompletion s1 { e with kind := 0, cause := cause, pc := t.pc }) ∧
    (t.inh = false → recs ≠ [] → checkAddr s1 t.core (bandKey k) 16 t.frecb .write = .fault f →
      raise s k t cause recs = errorCompletion s1 { e with kind := 1, cause := cause, pc := t.pc, cause2 := f, pc2 := t.pc })) ∧
  (∀ (s : State) (r : ErrRec), (launchOf s r.launch).ended = false → (errorCompletion s r).errors.lookup r.launch = some r)

/-- R40, R167: a word that decodes to no instruction traps ILLOP; a fetch that fails its check traps with the cause of the check and one record of
the PC.
R315: an instruction that needs privilege, issued by a team whose TEN.SUP is 0, traps PRIV and has no other effect. -/
def Obligations.FetchAndPrivilegeTraps : Prop :=
  (∀ (s : State) (k : Nat) (t : Team), Runs s k t →
    (∀ w, exec (.unassignedOpcode w) s = .next (raise s k t cILLOP [])) ∧
    (∀ c : BitVec 8, exec (.instructionFetchFault c) s = .next (raise (useDenials s (bandOf s (bandKey k)).tenant [t.pc]) k t c.toNat
      [{ cause := c.toNat, addr := t.pc, flags := 4 }]))) ∧
  (∀ (s : State) (k : Nat) (t : Team) (x y : BitVec 5) (n : BitVec 8), Runs s k t → bit t.ten.toNat 4 = false →
    exec .halt s = .next (raise s k t cPRIV []) ∧
    (n.toNat ≤ 2 → exec (.tlbi y n) s = .next (raise s k t cPRIV [])) ∧
    (t.acquiring = false → exec (.ctxld x) s = .next (raise s k t cPRIV [])) ∧
    (∀ m, exec (.crate m y) s = .next (raise s k t cPRIV [])) ∧
    exec (.ptrig y) s = .next (raise s k t cPRIV []) ∧
    (∀ m, exec (.breakpointWrite m y) s = .next (raise s k t cPRIV [])) ∧
    exec (.movc y 0x14) s = .next (raise s k t cPRIV []))

/-! ### Barriers and waits -/

/-- R46, R176, R178, R179, R180: barrier instructions of a barrier within the crew's budget complete, and one outside it traps ILLOP. An arrival that is
the last of the phase restores NEED and advances PHASE; another lowers NEED, and `bar` then holds the team. `barwt` goes on past its phase and
holds otherwise; `barini` and `barexp` set NEED, within the bounds of R179 and R180, `barini` completing the phase where every team has arrived.
R178, R181: BARRIER_WAIT_END lets a team go on whose phase has completed: past the instruction, with nothing else changed but, for the band
barrier, the clean words of its core; a wait whose phase has not completed goes on.
R181, R182: `bbar` of a team with nothing to publish arrives at the band barrier: the last arrival advances its phase and goes on, another holds.
An `fwait` whose registers are full and carry no fault goes on; one that finds a register empty, and no fault, waits.
That a barrier instruction completes in one step is the model's choice (log 27). -/
def Obligations.BarriersComplete : Prop :=
  ((∀ (s : State) (k : Nat) (t : Team) (n : BitVec 6) (y : BitVec 5), Runs s k t → (crewOf s (crewKey k)).bars ≤ n.toNat →
    ∀ i ∈ [Instr.bar n, .barar n y, .barwt n y, .barini n y, .barexp n y], exec i s = .next (raise s k t cILLOP [])) ∧
  (∀ (s : State) (k : Nat) (t : Team) (n : BitVec 6) (y : BitVec 5) (b : Barrier), Runs s k t → Quiet s t → t.release = none → FullS t [y.toNat] →
    loading s k = false → releaseDone s s.serial = true →
    n.toNat < (crewOf s (crewKey k)).bars → barOf s (crewKey k) n.toNat = b →
    let s1 := released s t
    let c := t.closeRegion
    let done := fun (b : Barrier) => ({ b with need := b.count, arrived := 0, phase := b.phase + 1 } : Barrier)
    let arrived : Barrier := if b.need ≤ 1 then done b else { b with need := b.need - 1, arrived := b.arrived + 1 }
    let v := (t.rs y.toNat).toNat
    (exec (.bar n) s = .next (if b.need ≤ 1 then finish (setBar s1 (crewKey k) n.toNat arrived) k c
      else setTeam (setBar s1 (crewKey k) n.toNat arrived) k (c.holding (.barrier n.toNat b.phase)))) ∧
    (exec (.barar n y) s = .next (finish (setBar s1 (crewKey k) n.toNat arrived) k (c.ws y.toNat (b.phase.setWidth 64)))) ∧
    (exec (.barwt n y) s = .next (if phasePast b.phase ((t.rs y.toNat).setWidth 32) then finish s k c
      else setTeam s k (c.holding (.barrier n.toNat ((t.rs y.toNat).setWidth 32))))) ∧
    (exec (.barini n y) s = .next (
      if v = 0 ∨ 65535 < v then raise s k t cBOUNDS [record 0 cBOUNDS (t.rs y.toNat)]
      else if v ≤ b.arrived then finish (setBar s (crewKey k) n.toNat (done { b with count := v, need := 0 })) k t
      else finish (setBar s (crewKey k) n.toNat { b with count := v, need := v - b.arrived }) k t)) ∧
    (exec (.barexp n y) s = .next (
      if 65535 < v ∨ 65535 < b.need + v then raise s k t cBOUNDS [record 0 cBOUNDS (t.rs y.toNat)]
      else finish (setBar s (crewKey k) n.toNat { b with need := b.need + v }) k t)))) ∧
  (∀ (s : State) (k : Nat) (t : Team) (n : Nat) (p : Word), s.teams.lookup k = some t →
    (t.hold = .barrier n p → exec (.barrierWaitEnd k) s =
      .next (if phasePast (barOf s (crewKey k) n).phase p then setTeam s k { t with hold := .free, pc := t.pc + 4 } else s)) ∧
    (t.hold = .free → exec (.barrierWaitEnd k) s = .next s) ∧
    (t.hold = .band p → exec (.barrierWaitEnd k) s =
      .next (if phasePast (bandOf s (bandKey k)).bphase p then setTeam (invalidateClean s t.core) k { t with hold := .free, pc := t.pc + 4 }
        else s))) ∧
  (∀ (s : State) (k : Nat) (t : Team) (b : Band), Runs s k t → bandOf s (bandKey k) = b →
    (Published s k t → exec .bbar s = .next (if b.bneed ≤ 1 then
        finish (invalidateClean (setBand (released s t) (bandKey k) { b with bneed := b.liveTeams, bphase := b.bphase + 1 }) t.core) k t.closeRegion
      else setTeam (setBand (released s t) (bandKey k) { b with bneed := b.bneed - 1 }) k (t.closeRegion.holding (.band b.bphase)))) ∧
    (∀ x, t.okV false x.toNat = true → (∀ e ∈ t.vFault, e.1 ≠ x.toNat) →
      exec (.fwaitVector x) s = .next (if t.vIsEmpty x.toNat then waitHere s else finish s k t)) ∧
    (∀ x, (∀ e ∈ t.sFault, e.1 ≠ x.toNat) → exec (.fwaitScalar x) s = .next (if t.sIsEmpty x.toNat then waitHere s else finish s k t)) ∧
    (t.vFault = [] → t.sFault = [] → exec .fwaitAll s = .next (if t.vEmpty = 0 ∧ t.sEmpty = 0 then finish s k t else waitHere s)))

/-! ### Control registers and system instructions -/

/-- The team registers that a `movc` writes, each with the bits that R41, R71, R72, R186, R200, R221, R286 and R317 let it write. -/
def crMasks : List (BitVec 8 × DWord) :=
  [(0x00, 0x3FFF800), (0x01, 0xFFFFFFFFFFFFFFFD), (0x04, 0xFFFFFFFFFFFFFFFC), (0x05, 0xFFFFFFFFFFFFFFFC), (0x09, 0x3FFF800),
    (0x0A, 0xFFFFFFFFFFFFFFFD), (0x0C, 0xFFFFFFFFFFFFFFF0), (0x0D, 0x1F), (0x0E, 0x1F), (0x0F, 0xFFFFFFFF),
    (0x10, 0xFFFFFFFFFFFFFFFF), (0x11, 1), (0x13, 0x1F), (0x14, 0x7FFF)]

/-- R316, R318, R319: `movc` of a team register that the team may write completes with the writable bits from `S[y]` and the others kept, and
the register then reads so; a `movc` of a register that is read only traps ILLOP; `mvfc` reads every assigned register, FSTAT once no
producer of the team is outstanding, and traps ILLOP for an unassigned number. -/
def Obligations.ControlRegistersComplete : Prop :=
  ∀ (s : State) (k : Nat) (t : Team) (y : BitVec 5), Runs s k t → Quiet s t → FullS t [y.toNat] →
    (∀ p ∈ crMasks, (p.1 = 0x14 → bit t.ten.toNat 4 = true) →
      let v := (t.cr p.1.toNat &&& ~~~p.2) ||| (t.rs y.toNat &&& p.2)
      exec (.movc y p.1) s = .next (setTeam s k (t.next.setCr p.1.toNat v)) ∧
        (t.next.setCr p.1.toNat v).cr p.1.toNat &&& p.2 = t.rs y.toNat &&& p.2) ∧
    (∀ c ∈ ([0x02, 0x03, 0x06, 0x07, 0x08, 0x0B, 0x12, 0x15, 0x16, 0x17, 0x18, 0x19, 0x1A, 0x1D] : List (BitVec 8)),
      exec (.movc y c) s = .next (raise s k t cILLOP [])) ∧
    (∀ (c : BitVec 8) (v : DWord), readCr s k t c.toNat = some v → (c = 0x0D → ∀ p ∈ s.producers, p.team ≠ k) →
      exec (.mvfc y c) s = .next (finish s k (t.ws y.toNat v))) ∧
    (∀ c : BitVec 8, 0x60 ≤ c.toNat ∨ c = 0x1E ∨ c = 0x1F → exec (.mvfc y c) s = .next (raise s k t cILLOP []))

/-- R201, R205, R242, R270, R315, R318, R320, R321: the writes of the registers that the crew, the die and the band own complete with the bits
that the register's table gives it: AVn; TSn, once no queued command names the tile; SPINJ, which sets EN only with a debugger attached;
CRATEn of legal fields, by a privileged team, a `movc` of others trapping BOUNDS; PTRIG, which starts the named team's count; BPn and WPn. -/
def Obligations.SharedRegisterWritesComplete : Prop :=
  ∀ (s : State) (k : Nat) (t : Team) (y : BitVec 5), Runs s k t → Quiet s t → FullS t [y.toNat] →
    let v := t.rs y.toNat
    let c := crewOf s (crewKey k)
    let b := bandOf s (bandKey k)
    (∀ n, exec (.avWrite n y) s = .next (finish (setCrew s (crewKey k) { c with aver := putAt 0 c.aver n.toNat (v.setWidth 16) }) k t)) ∧
    (∀ n, (∀ q ∈ (coreOf s t.core).queue, q.crew = crewKey k → n.toNat ∉ q.tiles s) →
      exec (.tsWrite n y) s = .next (finish (setCrew s (crewKey k) { c with ts := putAt 0 c.ts n.toNat (v &&& 0x0FFFFF0F) }) k t)) ∧
    exec (.spinj y) s = .next (if bit v.toNat 0 = true ∧ bit t.dbgctl.toNat 14 = false then finish s k t
      else finish { s with spinj := setAt s.spinj (t.core / 144) (v &&& 0xFFFFFFFFF) } k t) ∧
    (bit t.ten.toNat 4 = true →
      (∀ n, exec (.crate n y) s = .next (
        if 4 < bits v.toNat 0 3 ∨ 4 < bits v.toNat 3 3 ∨ bits v.toNat 8 4 = 0 ∨ bits v.toNat 16 16 = 0 then raise s k t cBOUNDS [record 0 cBOUNDS v]
        else finish { s with crates := setAt s.crates (8 * (t.core / 144) + n.toNat) (v &&& 0xFFFF0F3F) } k t)) ∧
      (∀ n, exec (.breakpointWrite n y) s = .next (finish (setBand s (bandKey k) { b with
        bp := putAt 0 b.bp n.toNat (v &&& if n.toNat < 8 then 0x01FFFFFFFFFFFFFD else 0x01FFFFFFFFFFFFFF) }) k t)) ∧
      (let named := 16 * (16 * bandKey k + bits v.toNat 36 4) + bits v.toNat 32 4
        ∃ s', exec (.ptrig y) s = .next s' ∧ s' = { s with bands := s'.bands, teams := s'.teams } ∧
          (bandOf s' (bandKey k)).ptrig = v &&& 0x800000FFFFFFFFFF ∧ (∀ j, j ≠ bandKey k → bandOf s' j = bandOf s j) ∧
          (∀ j, s'.teams.lookup j = (if j = k then some t.next else s.teams.lookup j).map fun u => if j = named then { u with count := 0 } else u)))

/-- R322: `sys` of a team with nothing to publish posts one request with its argument, raises vector 2 of the tenant, and holds with `S[x]` as
it was; SERVICE_REPLY gives the reply to `S[x]`, acquires, and the team goes on after the `sys`. The reply for a team whose band is out is
kept for its resumption, one for a team that has ended goes with its request, and a second reply, or one to no request, does nothing. -/
def Obligations.ServiceRequestsComplete : Prop :=
  (∀ (s : State) (k : Nat) (t : Team) (x y : BitVec 5) (n : BitVec 8), Runs s k t → Quiet s t → Free t → Published s k t →
    FullS t [y.toNat, x.toNat] →
    let r := released s t
    let tenant := (bandOf s (bandKey k)).tenant
    exec (.sys x y n) s = .next (raiseVector (setTeam { r with
      serial := r.serial + 1
      services := s.services ++ [{ slot := r.serial, tenant := tenant, team := k, n := n.toNat, arg := t.rs y.toNat }] } k
        (t.holding (.sys x r.serial (t.rs x.toNat)))) tenant 2)) ∧
  (∀ (s : State) (t : Team) (i : Nat) (r : Service) (v : DWord), s.services[i]? = some r → r.reply = none → s.teams.lookup r.team = some t →
    ((bandOf s (bandKey r.team)).run = .saved → exec (.serviceReply i v) s =
      .next { s with services := s.services.map fun q => if q.slot == r.slot then { q with reply := some v } else q }) ∧
    ((bandOf s (bandKey r.team)).run ≠ .saved → exec (.serviceReply i v) s = .next (deliverReply s r.team v)) ∧
    (∀ (d : BitVec 5) (slot : Nat) (old : DWord), (bandOf s (bandKey r.team)).run ≠ .saved → t.hold = .sys d slot old → Quiet s t →
      t.sFault.lookup d.toNat = none →
      exec (.serviceReply i v) s = .next (setTeam (invalidateClean { s with services := s.services.filter fun q => q.slot != slot } t.core) r.team
        { t.ws d.toNat v with hold := .free, pc := t.pc + 4 }))) ∧
  (∀ (s : State) (i : Nat) (v : DWord), (s.services[i]? = none ∨ (∃ r, s.services[i]? = some r ∧ r.reply ≠ none) → exec (.serviceReply i v) s = .next s) ∧
    ∀ r, s.services[i]? = some r → r.reply = none → s.teams.lookup r.team = none → exec (.serviceReply i v) s = .next { s with services := s.services.erase r })

/-! ### Images in memory -/

/-- What follows the reading of granted words: where a line of them has to come from the host first, the instruction asks for it and waits;
else it goes on with the words, in the state that the reads leave. -/
def WordsRead (s0 : State) (k : Nat) (t : Team) (ps : List Place) (out : Out) (good : State → List Datum → Prop) : Prop :=
  (placesReady s0 t.core ps = false → out = .next (waitHere (askPlaces s0 ps))) ∧
  (placesReady s0 t.core ps = true → good (readPlaces s0 k t ps).1 (readPlaces s0 k t ps).2)

/-- R323: `tlbi` of a privileged team removes its translations from every cache of the module: for kind 0 the tenant's, for kind 1 those that
map `S[y]`, for kind 2 all. It completes once no access translated before it is under way (`usesOld`), and waits until then; a kind of 3 or
more traps ILLOP.
R324, R325: `rdtm` writes a tick that the die has not passed before and that lies within 2 of the true one; `halt` of a privileged team
whose band is drained and has nothing to publish halts the band, with the team past the instruction and every team of another band as it
was; the band of another halts once it is drained.
R189, R326: `frrd` of a field 0 to 4 of a record below 64 completes with the field of the words that it reads, zero-extended, or its
destination carries their fault; a field of 5 or more traps ILLOP, a record of 64 or more BOUNDS, and a range that fails its check traps
with the cause of the check.
The offset that `rdtm` adds within R324 is a free value (log 29). -/
def Obligations.SystemInstructionsComplete : Prop :=
  (∀ (s : State) (k : Nat) (t : Team) (y : BitVec 5) (n : BitVec 8), Runs s k t → Quiet s t → FullS t [y.toNat] →
    (2 < n.toNat → exec (.tlbi y n) s = .next (raise s k t cILLOP [])) ∧
    (n.toNat ≤ 2 → bit t.ten.toNat 4 = true →
      (∀ id, t.release = some id → exec (.tlbi y n) s = .next (if usesOld s id then waitHere (setTeam s k t) else finish s k t)) ∧ (t.release = none →
      let named := fun (x : Trans) => n = 2 ∨ (x.tenant = bits t.ten.toNat 0 4 ∧
        (n = 0 ∨ (x.base ≤ (t.rs y.toNat).toNat % 2 ^ 57 ∧ (t.rs y.toNat).toNat % 2 ^ 57 < x.base + pageBytes x.size)))
      ∃ s', exec (.tlbi y n) s = .next (if usesOld s s.serial then waitHere (setTeam s' k { t with release := some s.serial }) else finish s' k t) ∧
        s' = { s with serial := s.serial + 1, cores := s'.cores, tcache := s'.tcache, walks := s'.walks, ats := s'.ats } ∧
        (∀ c, tlbOf s' c = (tlbOf s c).filter fun x => ¬ named x) ∧ (∀ d, look [] s'.tcache d = (look [] s.tcache d).filter fun x => ¬ named x) ∧
        (∀ c, (coreOf s' c).l1 = (coreOf s c).l1) ∧ (∀ w ∈ s'.walks, w.overlapped = true) ∧
        (∀ a ∈ s'.ats, a.overlapped = true)))) ∧
  (∀ (s : State) (k : Nat) (t : Team) (x : BitVec 5), Runs s k t → Quiet s t →
    (FullS t [x.toNat] → look 0 s.lastTime (t.core / 144) ≤ s.tick + 2 →
      ∃ v, exec (.rdtm x) s = .next (finish { s with fresh := s.fresh + 1, lastTime := setAt s.lastTime (t.core / 144) v } k
          (t.ws x.toNat (BitVec.ofNat 64 v))) ∧
        look 0 s.lastTime (t.core / 144) ≤ v ∧ v ≤ s.tick + 2 ∧ s.tick ≤ v + 2) ∧
    (bit t.ten.toNat 4 = true → t.hold = .free →
      (drained s (bandKey k) = true → s.pubs = [] → (∀ c ∈ (bandOf s (bandKey k)).cores, ∀ e ∈ l1Of s c, e.2.dirty = 0) →
        ∃ s', exec .halt s = .next s' ∧ s'.teams.lookup k = some { t.next with stepAsked := none } ∧ (bandOf s' (bandKey k)).run = .halted ∧ s'.mem = s.mem ∧
          ∀ j, bandKey j ≠ bandKey k → s'.teams.lookup j = s.teams.lookup j) ∧
      (drained s (bandKey k) = false →
        ∃ s', exec .halt s = .next s' ∧ s'.teams.lookup k = some { t.next with stepAsked := none } ∧ (bandOf s' (bandKey k)).run = .halting ∧ s' = { s with
          teams := s'.teams, bands := s'.bands }))) ∧
  (∀ (s : State) (k : Nat) (t : Team) (x y : BitVec 5) (f : BitVec 8), Runs s k t → Quiet s t → t.acquiring = false → FullS t [y.toNat, x.toNat] →
    let i := t.rs y.toNat
    let va := t.frecb + 16 * i + (if f = 2 then 0 else if f = 4 then 12 else 8)
    let n := if f = 2 then 8 else 4
    (5 ≤ f.toNat → exec (.frrd x y f) s = .next (raise s k t cILLOP [])) ∧
    (f.toNat ≤ 4 → 64 ≤ i.toNat → exec (.frrd x y f) s = .next (raise s k t cBOUNDS [record 0 cBOUNDS i])) ∧
    (f.toNat ≤ 4 → i.toNat < 64 → ∀ c, imageFault (noteMisses s k t (pageStarts va n)) t.core (bandKey k) 4 n va .read = some (.fault c) →
      exec (.frrd x y f) s = .next (raise (noteMisses s k t (pageStarts va n)) k t c [record 0 c va])) ∧
    (f.toNat ≤ 4 → i.toNat < 64 → ∀ s0 ps, Granted s k t 4 n va .read s0 ps →
      WordsRead s0 k t ps (exec (.frrd x y f) s) fun s1 ds =>
        (f = 2 → ∀ a b, ds = [.ok a, .ok b] → exec (.frrd x y f) s = .next (finish s1 k (t.ws x.toNat (b ++ a)))) ∧
        (f ≠ 2 → ∀ w, ds = [.ok w] → exec (.frrd x y f) s = .next (finish s1 k (t.ws x.toNat (
          if f = 0 then (w.extractLsb' 0 16).setWidth 64 else if f = 1 then (w.extractLsb' 16 8).setWidth 64
          else if f = 3 then (w.extractLsb' 24 8).setWidth 64 else w.setWidth 64)))) ∧
        (∀ d, d = (joinData (ds.getD 0 .poison) (ds.getD 1 (.ok 0))).1 → d.cause ≠ 0 → exec (.frrd x y f) s = .next (finish s1 k (t.carry x.toNat d.cause va)))))

/-- R328, R329: `ctxsv` of a team with nothing outstanding and its Mill settled stores its record, which begins with the record's size and the
team's shape and says that the team resumes after the `ctxsv`; `ctxld` of a privileged team with nothing outstanding, from a good record of
its own shape that has no reserved bit set, takes PC, MODE, the scalar registers and the Mill's context from it, and waits while the core
holds 16 contexts; a record that is not so traps BOUNDS. A range that fails its check traps with the cause of the check.
`ctxld` leaves the live lanes as they are by the model's reading (log 28), and a Mill whose boundary search faults has its interval stored as given, with cursors
0 (log 84). -/
def Obligations.ContextsComplete : Prop :=
  ∀ (s : State) (k : Nat) (t : Team) (x : BitVec 5), Runs s k t → Quiet s t → t.acquiring = false → FullS t [x.toNat] →
    outstanding s k = false → t.millBusy = false →
    let va := t.rs x.toNat
    let size := 0x1400 + 128 * t.rows * t.vregs
    (∀ s1 t1, Settled s k t s1 t1 →
      (∀ s0 ps, Granted s1 k t1 128 size va .write s0 ps →
        exec (.ctxsv x) s = .next (finish (writePlaces s0 k t1 ps (teamRecord t1 (t.pc + 4))) k t1) ∧
        dwordAt (teamRecord t1 (t.pc + 4)) 0 = BitVec.ofNat 64 (size + t.rows * 2 ^ 32 + t.vregs * 2 ^ 40 + 2 ^ 48) ∧
        dwordAt (teamRecord t1 (t.pc + 4)) 2 = t.pc + 4) ∧
      (∀ c, imageFault (noteMisses s1 k t1 (pageStarts va size)) t.core (bandKey k) 128 size va .write = some (.fault c) →
        let s0 := noteMisses s1 k t1 (pageStarts va size)
        exec (.ctxsv x) s = .next (raise s0 k (teamOf s0 k) c [{ cause := c, addr := va, flags := 1 }]))) ∧
    (bit t.ten.toNat 4 = true →
      (∀ c, imageFault (noteMisses s k t (pageStarts va size)) t.core (bandKey k) 128 size va .read = some (.fault c) →
        exec (.ctxld x) s = .next (raise (noteMisses s k t (pageStarts va size)) k t c [record 0 c va])) ∧
      (∀ s0 ps, Granted s k t 128 size va .read s0 ps → WordsRead s0 k t ps (exec (.ctxld x) s) fun s1 ds =>
        ∀ ws : List Word, ds = ws.map Datum.ok →
        let image := fieldAt ws 0xE70 32
        let opened := bit (dwordAt image 18).toNat 1
        let legal := (dwordAt ws 0).toNat % 2 ^ 56 = size + t.rows * 2 ^ 32 + t.vregs * 2 ^ 40 + 2 ^ 48 ∧ recordReserved ws = false ∧
          (opened = true → millOf image ≠ none)
        (¬ legal → exec (.ctxld x) s = .next (raise s1 k t cBOUNDS [record 0 cBOUNDS va])) ∧
        (legal → opened = true → 16 ≤ millsHeld s1 t.core k → exec (.ctxld x) s = .next (waitHere s1)) ∧
        (legal → (opened = true → millsHeld s1 t.core k < 16) → ∃ t', exec (.ctxld x) s = .next (setTeam s1 k t') ∧
          t'.pc = dwordAt ws 2 &&& ~~~3 ∧ t'.mode = (dwordAt ws 0x40).setWidth 32 ∧ (∀ n, 1 ≤ n → n < 32 → t'.rs n = dwordAt ws (0xF00 / 4 + 2 * n)) ∧
          t'.mill = (if opened then millOf image else none) ∧ t'.rows = t.rows ∧ t'.vregs = t.vregs)))

/-! ### Tables, shapes and job lists -/

/-- The job that falls to element `e` of the list of lengths `ns`: the first lane whose jobs and those before it number more than `e`, and
the index among that lane's jobs. -/
def jobOf (ns : List Nat) (e : Nat) : Option (Nat × Nat) :=
  ((List.range ns.length).find? fun r => decide (e < (ns.take (r + 1)).sum)).map fun r => (r, e - (ns.take r).sum)

/-- R99 to R101: `tbld` of a granted image starts the load of the inactive bank, and `tbsw` swaps the banks once no `tbev` of the core is
outstanding, or traps POISON where the inactive bank is not good: each in its turn, while no load and no other swap is under way, and
waiting until then. A `tbld` whose range fails its check traps there. TABLE_LOAD_COMPLETE gives the bank the words of an image in a
scratchpad and marks it good; of any image it gives it the words that can be read, and it is good where each can; where a word is not there yet
it asks for it and waits, and with no load it does nothing.
R211, R222: `rbal` deals job `S[c] + L` of the active lanes' lists to each present lane L as owner and index, or all ones where there is
none (which lanes are present is R211's, by log 66, and the sum is exact, by log 97); `shpld` of a good shape entry issues as a producer of the rank, the four multipliers and the extents; an entry that is no shape traps
BOUNDS, and a fault of its words is carried by the seven registers.
When the words of a table image are read is the model's reading (log 23). -/
def Obligations.TablesAndShapesComplete : Prop :=
  ((∀ (s : State) (k : Nat) (t : Team) (x : BitVec 5), Runs s k t → Quiet s t → t.acquiring = false → FullS t [x.toNat] →
    let va := t.rs x.toNat
    (∀ c, imageFault (noteMisses s k t (pageStarts va 4112)) t.core (bandKey k) 16 4112 va .read = some (.fault c) →
      exec (.tbld x) s = .next (raise (noteMisses s k t (pageStarts va 4112)) k t c [record 0 c va])) ∧
    (∀ s0 ps, Granted s k t 16 4112 va .read s0 ps →
      let co := coreOf s0 t.core
      exec (.tbld x) s = .next (if co.tabLoads ≠ [] ∨ co.tabSwap ≠ none ∨ co.tabWait.headD k ≠ k then waitHere (queueTab s0 t.core k)
        else finish (setCore s0 t.core { co with
          tabLoads := [(k, if co.tabActive then 0 else 1, va.toNat)]
          tabWait := co.tabWait.drop 1 }) k t))) ∧
  (∀ (s : State) (k : Nat) (t : Team), Runs s k t →
    let co := coreOf s t.core
    let wait := co.tabLoads ≠ [] ∨ (co.tabSwap ≠ none ∧ co.tabSwap ≠ some k) ∨ co.tabWait.headD k ≠ k
    let good := co.tabSwap = some k ∨ bit co.tabGood.toNat (if co.tabActive then 0 else 1) = true
    let busy := ∃ p ∈ s.producers, p.core = t.core ∧ p.table = true
    (wait → exec .tbsw s = .next (waitHere (queueTab s t.core k))) ∧
    (¬ wait → ¬ good → exec .tbsw s = .next (raise s k t cPOISON [])) ∧
    (¬ wait → good → busy → exec .tbsw s = .next (waitHere (queueTab (setCore s t.core { co with tabSwap := some k }) t.core k))) ∧
    (¬ wait → good → ¬ busy → exec .tbsw s = .next (finish (setCore s t.core { co with
      tabActive := !co.tabActive
      tabSwap := none
      tabWait := co.tabWait.drop 1 }) k t))) ∧
  (∀ (s : State) (core : Nat), ((coreOf s core).tabLoads = [] → exec (.tableLoadComplete core) s = .next s) ∧
    ∀ k bank va rest, (coreOf s core).tabLoads = (k, bank, va) :: rest →
      let asked := (List.range 1028).foldl (fun (a : State × Bool) i =>
        let r := imageReady a.1 core (bandKey k) (BitVec.ofNat 64 (va + 4 * i))
        (r.1, a.2 && r.2)) (s, true)
      let r := readImage asked.1 core (bandKey k) ((coreOf s core).tenant.getD 0) (BitVec.ofNat 64 va) 1028
      (asked.2 = false → exec (.tableLoadComplete core) s = .next asked.1) ∧
      (asked.2 = true → bank < 2 → ∃ c, exec (.tableLoadComplete core) s = .next (setCore r.1 core c) ∧ c.tabLoads = rest ∧
        (bit c.tabGood.toNat bank = true ↔ ∀ w ∈ r.2, w.isSome = true) ∧
        ∀ j, look 0 c.tab j = if 2048 * bank ≤ j ∧ j < 2048 * bank + 1028 then (r.2.getD (j - 2048 * bank) none).getD 0
          else look 0 (coreOf r.1 core).tab j)) ∧
  (∀ (s : State) (k core bank va c o : Nat) (rest : List (Nat × Nat × Nat)), (coreOf s core).tabLoads = (k, bank, va) :: rest → bank < 2 → o % 4 = 0 →
    (∀ i < 1028, checkAddr s core (bandKey k) 4 (BitVec.ofNat 64 va + BitVec.ofNat 64 (4 * i)) .read = .go (.pad c (o + 4 * i)) ∧
      PadGood s c (o / 4 + i)) →
    ∃ s', exec (.tableLoadComplete core) s = .next s' ∧ s' = { s with cores := s'.cores } ∧ (coreOf s' core).tabLoads = rest ∧
      bit (coreOf s' core).tabGood.toNat bank = true ∧ (coreOf s' core).tabActive = (coreOf s core).tabActive ∧
      ∀ j, look 0 (coreOf s' core).tab j = if 2048 * bank ≤ j ∧ j < 2048 * bank + 1028 then look 0 (crewOf s c).pad (o / 4 + (j - 2048 * bank))
        else look 0 (coreOf s core).tab j)) ∧
  (∀ (s : State) (k : Nat) (t : Team), Runs s k t → Quiet s t →
    (∀ (x y : BitVec 6) (c : BitVec 5), t.okV true x.toNat = true → t.okV false y.toNat = true → FullV t (y.toNat :: pair true x.toNat) →
      FullS t [c.toNat] →
      LanesWritten s k t true x.toNat (fun L => (match jobOf ((List.range t.lanes).map fun M => if bit t.mask.toNat M then (t.rv y.toNat M).toNat else 0)
          ((t.rs c.toNat).toNat + L) with
        | some (r, i) => r + i * 2 ^ 32
        | none => 0xFFFFFFFF, 0)) (exec (.rbal x y c) s)) ∧
    (∀ (x y : BitVec 5), (25 < x.toNat → exec (.shpld x y) s = .next (raise s k t cILLOP [])) ∧
      (x.toNat ≤ 25 → FullS t (y.toNat :: span x.toNat 7) → ∀ s0 ps, Granted s k t 8 32 (t.rs y.toNat) .read s0 ps →
        WordsRead s0 k t ps (exec (.shpld x y) s) fun s1 ds =>
        (∀ ws : List Word, ds = ws.map Datum.ok →
          let w := fun i => (ws.getD i 0).toNat
          let e := fun i => if i + 1 < w 0 then w (2 + i) else 0
          let shape := 1 ≤ w 0 ∧ w 0 ≤ 5 ∧ w 1 = 0 ∧ w 6 = 0 ∧ w 7 = 0 ∧ ∀ i, i + 1 < w 0 → w (2 + i) ≠ 0
          (¬ shape → exec (.shpld x y) s = .next (raise s1 k t cBOUNDS [record 0 cBOUNDS (t.rs y.toNat)])) ∧
          (shape → ProducerIssued s1 k t { team := k, core := t.core, sregs :=
            [(x.toNat, BitVec.ofNat 64 (w 0)), (x.toNat + 1, shapeMul (e 0)), (x.toNat + 2, shapeMul (e 1)), (x.toNat + 3, shapeMul (e 2)),
              (x.toNat + 4, shapeMul (e 3)), (x.toNat + 5, BitVec.ofNat 64 (e 0 + e 1 * 2 ^ 32)), (x.toNat + 6, BitVec.ofNat 64 (e 2 + e 3 * 2 ^ 32))] }
            (exec (.shpld x y) s))) ∧
        (∀ i d, ds[i]? = some d → d.cause ≠ 0 → (∀ j < i, ∀ e, ds[j]? = some e → e.cause = 0) →
          ∃ t', exec (.shpld x y) s = .next (finish s1 k t') ∧ t'.sEmpty = (t.emptyS (span x.toNat 7)).sEmpty ∧ t'.s = t.s ∧
            ∀ r ∈ span x.toNat 7, r ≠ 0 → t'.sFault.lookup r = some {
              cause := d.cause
              regs := span x.toNat 7
              recs := [record 0 d.cause (t.rs y.toNat + BitVec.ofNat 64 (4 * i))] }))))

/-! ### The Mill -/

/-- The predicate that an `mlfill` of `n` pairs writes: of the present lanes, the first `n`. -/
def fillMask (t : Team) (p : BitVec 3) (n : Nat) : LaneMask :=
  (t.rp p.toNat &&& ~~~t.present) ||| laneMask fun L => ((laneList t t.present).take n).contains L

/-- R227: what one comparison of the Mill does with the coordinates `a` and `b` at positions `p` and `q`: which side moves on, and what it
delivers, for intersection, union, difference and merge.
R208, R209, R227, R228, R230: `mlfill` on a context whose boundaries can be found: with no pair left it completes at once, the predicate false in
every present lane and DONE set; with pairs it issues, its two registers empty until MLFILL_COMPLETE writes the pairs to the first present lanes;
DONE is set where no pair is left after them, and a word that faults before that is known traps. With no context it traps BOUNDS; at a word that is not yet there it waits, and at a word that
faults before the first pair it traps with the fault's cause and address, the context keeping what it has read.
That a fault met while DONE is sought traps is the model's reading (log 24). -/
def Obligations.MillFillsComplete : Prop :=
  (∀ (a b p q : Nat),
    mergeAction 0 (some a) (some b) p q = some (decide (a ≤ b), decide (b ≤ a), if a = b then some (p, q) else none) ∧
    mergeAction 1 (some a) (some b) p q =
      some (decide (a ≤ b), decide (b ≤ a), some (if a ≤ b then p else 0xFFFFFFFF, if b ≤ a then q else 0xFFFFFFFF)) ∧
    mergeAction 2 (some a) (some b) p q = some (decide (a ≤ b), decide (b ≤ a), if a < b then some (p, 0xFFFFFFFF) else none) ∧
    mergeAction 3 (some a) (some b) p q =
      some (decide (a ≤ b), decide (b < a), some (if a ≤ b then (p, 0xFFFFFFFF) else (0xFFFFFFFF, q))) ∧
    mergeAction 0 (some a) none p q = none ∧ mergeAction 0 none (some b) p q = none ∧ mergeAction 2 none (some b) p q = none ∧
    (∀ op ∈ [1, 2, 3], mergeAction op (some a) none p q = some (true, false, some (p, 0xFFFFFFFF))) ∧
    (∀ op ∈ [1, 3], mergeAction op none (some b) p q = some (false, true, some (0xFFFFFFFF, q))) ∧
    ∀ op, mergeAction op none none p q = none) ∧
  (∀ (s : State) (k : Nat) (t : Team) (x y : BitVec 6) (p : BitVec 3), Runs s k t → Quiet s t → t.okV false x.toNat = true →
    t.okV false y.toNat = true → FullV t [x.toNat, y.toNat] → t.millBusy = false → t.acquiring = false →
    (t.mill = none → exec (.mlfill x y p) s = .next (raise1 s k t cBOUNDS 0)) ∧
    (∀ m s0 m0 e, t.mill = some m → search s k t m = (s0, m0, some e) → exec (.mlfill x y p) s = .next (millStop s0 k m0 e)) ∧
    (∀ m s0 m0, t.mill = some m → search s k t m = (s0, m0, none) →
      let ls := laneList t t.present
      let fuel := m0.len false + m0.len true + 2
      let mst := fun (done : Bool) (n : Nat) => BitVec.ofNat 64 (2 + 4 * bits m0.ctl.toNat 0 2 + (if done then 1 else 0) + n * 65536)
      -- the context past the pairs of `g`, with the elements read ahead in `a` and `b`
      let moved := fun (g : Merge) (a b : Side) (done : Bool) => { m0 with
        a := a.advance g.i
        b := b.advance g.j
        out := (m0.out + g.outs.length) % 2 ^ 32
        mst := mst done g.outs.length }
      -- the instruction ends with the pairs of `g`
      let ends := fun (s' : State) (g : Merge) (m' : Mill) =>
        let t' := (t.wp p.toNat (fillMask t p g.outs.length)).closeRegion
        let lanes := ((ls.take g.outs.length).zip g.outs).flatMap fun l =>
          [(1024 * x.toNat + l.1, BitVec.ofNat 32 l.2.1), (1024 * y.toNat + l.1, BitVec.ofNat 32 l.2.2)]
        if ls.take g.outs.length = [] then finish s' k { t' with mill := some m' }
        else finish { s' with millJobs := s'.millJobs ++ [{ team := k, vregs := [x.toNat, y.toNat], mill := m', lanes := lanes }] } k
          { t'.emptyV [x.toNat, y.toNat] with millBusy := true }
      (∀ s' g, mergeRun s0 k t m0 ls.length fuel { a := m0.a, b := m0.b } = (s', g, .done) →
        exec (.mlfill x y p) s = .next (ends s' g (moved g g.a g.b true))) ∧
      (∀ s' g e, mergeRun s0 k t m0 ls.length fuel { a := m0.a, b := m0.b } = (s', g, .stop e) →
        exec (.mlfill x y p) s = .next (millStop s' k { m0 with a := g.a, b := g.b } e)) ∧
      (∀ s' g second off, mergeRun s0 k t m0 ls.length fuel { a := m0.a, b := m0.b } = (s', g, .unsorted second off) →
        (g.outs ≠ [] → exec (.mlfill x y p) s = .next (ends s' g (moved g g.a g.b false))) ∧
        (g.outs = [] → ∃ m', exec (.mlfill x y p) s = .next (millStop s' k m' (.fault cUNSORT (m0.base second + BitVec.ofNat 64 off))))) ∧
      (∀ s1 s' g g' r, mergeRun s0 k t m0 ls.length fuel { a := m0.a, b := m0.b } = (s1, g, .filled) →
        mergeRun s1 k t m0 (ls.length + 1) fuel g = (s', g', r) →
        exec (.mlfill x y p) s = .next (match r with
          | .stop e => millStop s' k { m0 with a := g'.a, b := g'.b } e
          | .done => ends s' g (moved g g'.a g'.b true)
          | _ => ends s' g (moved g g'.a g'.b false))))) ∧
  (∀ (s : State) (k : Nat), (s.millJobs.find? fun j => j.team == k) = none ∨ s.teams.lookup k = none → exec (.mlfillComplete k) s = .next s) ∧
  (∀ (s : State) (k : Nat) (t : Team) (j : MillJob), s.teams.lookup k = some t → (s.millJobs.find? fun j => j.team == k) = some j →
    ∃ t', exec (.mlfillComplete k) s = .next (setTeam { s with millJobs := s.millJobs.erase j } k t') ∧ t'.mill = some j.mill ∧ t'.millBusy = false ∧
      (∀ r ∈ j.vregs, r < 64 → t'.vIsEmpty r = false) ∧ t'.s = t.s ∧ t'.pc = t.pc ∧ (∀ r L, (∀ e ∈ j.lanes, e.1 ≠ 1024 * r + L) → t'.rv r L = t.rv r L) ∧
      (j.lanes.Pairwise (fun a b => a.1 ≠ b.1) → ∀ r L w, (1024 * r + L, w) ∈ j.lanes → t'.rv r L = w))

/-- R206, R209, R225, R230, R231: `mlopen` of six words that are well formed opens a context over the interval that they give, its boundaries yet to be
found, once the core holds fewer than 16 others; while it holds 16, the team's own context is closed and it waits.
R209, R234, R235: `mlstat`, `mlclose`, `mlsave` and `mlrest` of a team whose Mill is not busy complete: the positions that the boundary search
finds, the outputs and MST, or 0 without a context; the context closed; the image of the settled context stored; and the context that an image
describes, or none where its OPEN is 0. An image that is not valid traps BOUNDS, and a range that fails its check traps with the cause of the
check.
After a boundary search that faults `mlstat` and `mlsave` give cursors 0 and the interval as given by the model's reading (log 84). -/
def Obligations.MillContextsComplete : Prop :=
  (∀ (s : State) (k : Nat) (t : Team) (x : BitVec 5), Runs s k t → Quiet s t → x.toNat ≤ 26 → FullS t (span x.toNat 6) → t.millBusy = false →
    let w := fun i => t.rs (x.toNat + i)
    let ctl := (w 0).toNat
    let enc := fun (second : Bool) => bits ctl (if second then 4 else 2) 2
    let okay := fun (e : Nat) (base len : DWord) => (e = 0 → base.toNat % 4 = 0) ∧ (e = 1 → base.toNat % 2 = 0) ∧ (e = 2 → base.toNat % 8 = 0) ∧
      (e = 3 → base.toNat < 2 ^ 32 ∧ base.toNat + len.toNat ≤ 2 ^ 32)
    let lo := bits (w 5).toNat 0 32
    let hi := bits (w 5).toNat 32 32
    let m : Mill := { ctl := w 0, abase := w 1, alen := w 2, bbase := w 3, blen := w 4, lo := lo, hi := hi, searching := true,
                      mst := BitVec.ofNat 64 (2 + 4 * bits ctl 0 2) }
    let formed := bits ctl 6 10 = 0 ∧ bits ctl 48 16 = 0 ∧ (w 2).toNat < 2 ^ 32 ∧ (w 4).toNat < 2 ^ 32
    (¬ formed → exec (.mlopen x) s = .next (raise s k t cILLOP [])) ∧
    (formed → (bits ctl 32 16 ≤ bits ctl 16 16 ∨ hi < lo) → exec (.mlopen x) s = .next (raise s k t cBOUNDS [record 0 cBOUNDS (w 0)])) ∧
    (formed → bits ctl 16 16 < bits ctl 32 16 → lo ≤ hi → okay (enc false) (w 1) (w 2) → okay (enc true) (w 3) (w 4) →
      exec (.mlopen x) s = .next (if 16 ≤ millsHeld s t.core k then waitHere (setTeam s k { t with mill := none })
        else finish s k { t with mill := some m }))) ∧
  (∀ (s : State) (k : Nat) (t : Team) (x : BitVec 5), Runs s k t → Quiet s t → FullS t [x.toNat] → t.millBusy = false → t.acquiring = false →
    let va := t.rs x.toNat
    (∀ f : BitVec 8,
      (3 < f.toNat → exec (.mlstat x f) s = .next (raise s k t cILLOP [])) ∧
      (f.toNat ≤ 3 → t.mill = none → exec (.mlstat x f) s = .next (finish s k (t.ws x.toNat 0))) ∧
      (∀ m, t.mill = some m →
        (f = 2 → exec (.mlstat x f) s = .next (finish s k (t.ws x.toNat (BitVec.ofNat 64 m.out)))) ∧
        (f = 3 → exec (.mlstat x f) s = .next (finish s k (t.ws x.toNat m.mst))) ∧
        (f.toNat < 2 → ∀ s' m', search s k t m = (s', m', some .wait) → exec (.mlstat x f) s = .next (millStop s' k m' .wait)) ∧
        (f.toNat < 2 → ∀ s' m' e, search s k t m = (s', m', e) → (match e with | some .wait => False | _ => True) → exec (.mlstat x f) s =
          .next (finish s' k ({ t with mill := some m' }.ws x.toNat (BitVec.ofNat 64 (if f = 0 then m'.a.pos else m'.b.pos))))))) ∧
    exec .mlclose s = .next (finish s k { t with mill := none }) ∧
    (∀ s1 t1, Settled s k t s1 t1 →
      (∀ s0 ps, Granted s1 k t1 16 128 va .write s0 ps → exec (.mlsave x) s = .next (finish (writePlaces s0 k t1 ps (millImage t1.mill)) k t1)) ∧
      (∀ c, imageFault (noteMisses s1 k t1 (pageStarts va 128)) t.core (bandKey k) 16 128 va .write = some (.fault c) →
        let s0 := noteMisses s1 k t1 (pageStarts va 128)
        exec (.mlsave x) s = .next (raise s0 k (teamOf s0 k) c [{ cause := c, addr := va, flags := 1 }]))) ∧
    (∀ c, imageFault (noteMisses s k t (pageStarts va 128)) t.core (bandKey k) 16 128 va .read = some (.fault c) →
      exec (.mlrest x) s = .next (raise (noteMisses s k t (pageStarts va 128)) k t c [record 0 c va])) ∧
    (∀ s0 ps, Granted s k t 16 128 va .read s0 ps → WordsRead s0 k t ps (exec (.mlrest x) s) fun s1 ds =>
      ∀ ws : List Word, ds = ws.map Datum.ok →
      exec (.mlrest x) s = .next (if bit (dwordAt ws 18).toNat 1 = false then finish s1 k { t with mill := none }
        else match millOf ws with
          | none => raise s1 k t cBOUNDS [record 0 cBOUNDS va]
          | some m => if 16 ≤ millsHeld s1 t.core k then waitHere (setTeam s1 k { t with mill := none })
            else finish s1 k { t with mill := some m })))

/-! ### Queues and graphs -/

/-- The words at the addresses lie in memory, each at its physical address and key, and their homes can be read, written or both now. -/
def AtHomes (s : State) (k : Nat) (t : Team) (vas : List DWord) (rd wr : Bool) (ws : List (Nat × Nat)) : Prop :=
  noteMisses s k t vas = s ∧ (∃ cp : Nat → Bool, listPlaces s k t vas (if wr then .write else .read) = .ok (ws.zipIdx.map fun w => .mem w.1.1 w.1.2 (cp w.2))) ∧
    ∀ w ∈ ws, homeCan s rd wr w.1 = true

/-- The appends of R246 to R256: the kind of the packet, its first register and the register of the queue. -/
def appendOf : Instr → Option (Nat × BitVec 5 × BitVec 5)
  | .cpl x y => some (0, x, y)
  | .cpt x y => some (1, x, y)
  | .cpm x y => some (2, x, y)
  | .cpr x y => some (3, x, y)
  | .coll x y => some (4, x, y)
  | _ => none

/-- R236, R246 to R248, R251, R253, R256: `cpl`, `cpt`, `cpm`, `cpr` and `coll` on full registers. Where no check fails, the queue has room and
the team has nothing to publish, the append completes: the slot WIDX takes the packet and WIDX goes up by one, and DOOR with it where every
earlier slot is committed; where the queue is full the team waits. The checks, in their order: a packet that does not fit in the registers, or
with a bad field, traps ILLOP; a bound of the packet, a queue in the aperture and a LOG2N outside 4 to 16 trap BOUNDS; an address of the packet
or of the queue that is not aligned traps MALIGN; and what the queue's words fail with traps with their cause. That a packet's misalignment
comes before a fault of the queue's words, and which value their record has, is log 90, and that a packet's destination crews are those of its
append log 98; the identity of a launch that `lnch` queues is log 39.
R260, R291: `lnch` of a legal packet to a queue 0 to 3 of the tenant, by a team with nothing to publish, completes where the queue holds fewer
than 64 packets, and the packet then stands in it; where it holds 64 the team waits. A bad packet traps ILLOP, BOUNDS or MALIGN, and a queue
above 3 traps BOUNDS. -/
def Obligations.AppendsComplete : Prop :=
  (∀ (i : Instr) (kind : Nat) (x y : BitVec 5), appendOf i = some (kind, x, y) →
  ∀ (s : State) (k : Nat) (t : Team), Runs s k t → Quiet s t → Free t →
    (24 < x.toNat → exec i s = .next (raise s k t cILLOP [])) ∧
    (x.toNat ≤ 24 → FullS t (y.toNat :: span x.toNat 8) →
      let ws := (List.range 8).map fun i => t.rs (x.toNat + i)
      let w0 := t.rs x.toNat
      let q := t.rs y.toNat
      let illegal := if kind = 4 then collIllop ws else copyIllop kind ws
      let check := if kind = 4 then collCheck s ws (some (crewKey k)) else copyCheck s kind ws (some (crewKey k))
      let value := if kind = 4 then w0 else q
      -- a fault of the queue's own words: the packet's misalignment ranks before it
      let fault := fun (s' : State) (c : Nat) => match check with
        | some (_, v) => refuse s' k cMALIGN [record 0 cMALIGN v]
        | none => refuse s' k c [{ lane := 0, cause := c, addr := value, flags := 1 }]
      let s0 := noteMisses s k t (wordVas q 16)
      (illegal = true → exec i s = .next (raise s k t cILLOP [record 0 cILLOP w0])) ∧
      (illegal = false → ∀ v, check = some (cBOUNDS, v) → exec i s = .next (raise s k t cBOUNDS [record 0 cBOUNDS v])) ∧
      (illegal = false → (∀ v, check ≠ some (cBOUNDS, v)) →
        (inAperture q = true → exec i s = .next (raise s k t cBOUNDS [{ lane := 0, cause := cBOUNDS, addr := q, flags := 1 }])) ∧
        (inAperture q = false → q.toNat % 64 ≠ 0 → exec i s = .next (fault s cMALIGN)) ∧
        (inAperture q = false → q.toNat % 64 = 0 →
          (∀ c r, listPlaces s0 k t (wordVas q 16) .write = .error (.fault c r) → exec i s = .next (fault s0 c)) ∧
          (∀ hw s1 d h, Unwatched s k → AtHomes s k t (wordVas q 16) true true hw → readHeader s t.core (bandOf s (bandKey k)).tenant hw = (s1, d, h) →
            (d.cause ≠ 0 → exec i s = .next (fault s1 d.cause)) ∧
            (d.cause = 0 → h.log2n < 4 ∨ 16 < h.log2n → exec i s = .next (refuse s1 k cBOUNDS [record 0 cBOUNDS q])) ∧
            (d.cause = 0 → 4 ≤ h.log2n → h.log2n ≤ 16 →
              (check ≠ none → exec i s = .next (fault s1 cMALIGN)) ∧
              (check = none → Published s1 k t →
                let r := released s1 t
                (2 ^ h.log2n ≤ h.widx - h.ridx → exec i s = .next (waitHere (setTeam r k t))) ∧
                (h.widx - h.ridx < 2 ^ h.log2n →
                  (∀ c e, listPlaces (noteMisses r k t (wordVas (slotVa q h h.widx) 16)) k t (wordVas (slotVa q h h.widx) 16) .write = .error (.fault c e) →
                    exec i s = .next (refuse (noteMisses r k t (wordVas (slotVa q h h.widx) 16)) k c [{ lane := 0, cause := c, addr := value, flags := 1 }])) ∧
                  (∀ slot, AtHomes r k t (wordVas (slotVa q h h.widx) 16) false true slot →
                    exec i s = .next (finish (appendSlot r t.core h slot ws (bandOf r (bandKey k)).launch (some k)) k
                      (if kind = 4 then t else t.closeRegion))))))))))) ∧
  (∀ (s : State) (core launch : Nat) (team : Option Nat) (h : Header) (slot : List (Nat × Nat)) (ws : List DWord),
    (appendSlot s core h slot ws launch team).appends = s.appends ++
      [{ queue := (h.words.getD 0 (0, 0)).1, index := h.widx, team := team, dests := packetDests s team ws, rung := h.door == h.widx }] ∧
    (appendSlot s core h slot ws launch team).teams = s.teams) ∧
  (∀ (s : State) (k : Nat) (t : Team) (x y : BitVec 5), Runs s k t → Quiet s t → Free t →
    (24 < x.toNat → exec (.lnch x y) s = .next (raise s k t cILLOP [])) ∧
    (x.toNat ≤ 24 → FullS t (y.toNat :: span x.toNat 8) →
      let ws := (List.range 8).map fun i => t.rs (x.toNat + i)
      let w0 := t.rs x.toNat
      let q := (t.rs y.toNat).toNat
      let tenant := (bandOf s (bandKey k)).tenant
      (launchIllop ws = true → exec (.lnch x y) s = .next (raise s k t cILLOP [record 0 cILLOP w0])) ∧
      (launchIllop ws = false → 3 < q → exec (.lnch x y) s = .next (raise s k t cBOUNDS [record 0 cBOUNDS w0])) ∧
      (launchIllop ws = false → q ≤ 3 →
        (∀ c v, launchCheck ws = some (c, v) → exec (.lnch x y) s = .next (raise s k t c [record 0 c v])) ∧
        (launchCheck ws = none → Published s k t →
          let r := released s t
          ((queued s (t.core / 144) q tenant).length < 64 → exec (.lnch x y) s = .next (finish { setLaunch r (r.serial + 1)
            { tenant := tenant, die := t.core / 144, queue := q, packet := ws } with serial := r.serial + 1 } k t)) ∧
          (64 ≤ (queued s (t.core / 144) q tenant).length → exec (.lnch x y) s = .next (waitHere (setTeam r k t)))))))

/-- The header of a pipeline queue (R265): its words in memory, CLOSED, LOG2CAP, HEAD and TAIL, as a read of it leaves the machine. -/
def PipeHeader (s : State) (k : Nat) (t : Team) (q : DWord) (s1 : State) (ws : List (Nat × Nat)) (closed : Bool) (cap head tail : Nat) : Prop :=
  inAperture q = false ∧ q.toNat % 64 = 0 ∧ AtHomes s k t (wordVas q 16) true true ws ∧ 1 ≤ cap ∧ cap ≤ 20 ∧
    let rd := fun (s' : State) i => pointDword s' .home t.core (ws.getD i (0, 0)).1 (ws.getD i (0, 0)).2 (bandOf s (bandKey k)).tenant
    ∃ sa sb d0 d1 d2 h tl f, rd s 0 = (sa, .ok d0, h) ∧ rd sa 2 = (sb, .ok d1, tl) ∧ rd sb 6 = (s1, .ok d2, f) ∧ head = h.toNat ∧ tail = tl.toNat ∧
      closed = bit f.toNat 0 ∧ cap = bits f.toNat 32 32

/-- R266: `qpop` of a queue that holds an item completes with the oldest, HEAD goes up by one, and the core acquires; of an empty closed queue it gives
2^63; of an empty open one it waits. `qapp` to an open queue with room, by a team with nothing to publish, completes: the item stands at TAIL and
TAIL goes up by one; at a full queue it waits; a closed queue, or an item with bit 63 set, traps BOUNDS.
A queue in the aperture traps BOUNDS and one that is not aligned MALIGN.
R264, R306: `tgl` of a task in memory, by a team with nothing to publish, completes with one decrement of its PRED at its home's die; a misaligned
address traps MALIGN, one in the aperture XLATE, and one that fails its check traps with the cause of the check.
R262, R263: what a decrement does with a task that is not running: PRED goes down by one, and at zero RUN is set and the node starts; a task that is
running, or whose PRED is zero, takes ERR, but that a running conditional completes and a running loop tests its condition again. NODE_COMPLETE carries
out the walker's item, each task at its home's die: a completion clears RUN, sets PRED to PREDINIT and decrements each successor; a failed one sets ERR
and raises vector 0; an item whose task cannot be read ends with no other effect, by log 37, and with no item it does nothing. Where an access of the walker has to wait for the host or for a walk, the item stays and only that access is asked for (log 65,
the model's choice). -/
def Obligations.QueuesAndGraphsComplete : Prop :=
  (∀ (s : State) (k : Nat) (t : Team) (x y : BitVec 5) (s1 : State) (ws : List (Nat × Nat)) (closed : Bool) (cap head tail : Nat), Runs s k t → Quiet s t →
    Free t → Unwatched s k → FullS t [x.toNat, y.toNat] →
    let q := t.rs y.toNat
    let wrote := fun (cause : Nat) => raise s k t cause [{ lane := 0, cause := cause, addr := q, flags := 1 }]
    let put := fun (s' : State) (p : Nat × Nat) (v : DWord) launch => putPointDword s' .home t.core p.1 p.2 v launch
    (bit (t.rs x.toNat).toNat 63 = true → exec (.qapp x y) s = .next (raise1 s k t cBOUNDS q)) ∧
    (inAperture q = true → (bit (t.rs x.toNat).toNat 63 = false → exec (.qapp x y) s = .next (wrote cBOUNDS)) ∧
      exec (.qpop x y) s = .next (wrote cBOUNDS)) ∧
    (inAperture q = false → q.toNat % 64 ≠ 0 → bit (t.rs x.toNat).toNat 63 = false →
      exec (.qapp x y) s = .next (wrote cMALIGN)) ∧
    (inAperture q = false → q.toNat % 64 ≠ 0 → exec (.qpop x y) s = .next (wrote cMALIGN)) ∧
    (PipeHeader s k t q s1 ws closed cap head tail →
      (head = tail → exec (.qpop x y) s = .next (if closed then finish (invalidateClean s1 t.core) k (t.ws x.toNat (BitVec.ofNat 64 (2 ^ 63))) else waitHere s1)) ∧
      (head ≠ tail → ∀ p more s2 d v, AtHomes s1 k t (wordVas (itemVa q cap head) 2) true false (p :: more) →
        pointDword s1 .home t.core p.1 p.2 (bandOf s1 (bandKey k)).tenant = (s2, .ok d, v) →
        exec (.qpop x y) s = .next (finish (invalidateClean (put s2 (ws.getD 0 (0, 0)) (BitVec.ofNat 64 (head + 1)) (bandOf s2 (bandKey k)).launch) t.core) k
          (t.ws x.toNat v))) ∧
      (bit (t.rs x.toNat).toNat 63 = false →
        (closed = true → exec (.qapp x y) s = .next (refuse1 s1 k cBOUNDS q)) ∧
        (closed = false → Published s1 k t → let r := released s1 t
          (tail - head ≥ 2 ^ cap → exec (.qapp x y) s = .next (waitHere (setTeam (noteQapp r k) k t))) ∧
          (tail - head < 2 ^ cap → ∀ p more, AtHomes r k t (wordVas (itemVa q cap tail) 2) false true (p :: more) →
            let launch := (bandOf r (bandKey k)).launch
            exec (.qapp x y) s = .next (finish (put (put r p (t.rs x.toNat) launch) (ws.getD 2 (0, 0)) (BitVec.ofNat 64 (tail + 1)) launch) k t)))))) ∧
  ((∀ (s : State) (k : Nat) (t : Team) (x : BitVec 5), Runs s k t → Quiet s t → Free t → FullS t [x.toNat] →
    let va := t.rs x.toNat
    let tenant := (bandOf s (bandKey k)).tenant
    (va.toNat % 128 ≠ 0 → exec (.tgl x) s = .next (raise s k t cMALIGN [{ lane := 0, cause := cMALIGN, addr := va, flags := 1 }])) ∧
    (va.toNat % 128 = 0 → inAperture va = true → exec (.tgl x) s = .next (raise s k t cXLATE [{ lane := 0, cause := cXLATE, addr := va, flags := 1 }])) ∧
    (∀ c e, va.toNat % 128 = 0 → inAperture va = false → listPlaces (noteMisses s k t (wordVas va 32)) k t (wordVas va 32) .write = .error (.fault c e) →
      exec (.tgl x) s = .next (refuse (noteMisses s k t (wordVas va 32)) k c [{ lane := 0, cause := c, addr := va, flags := 1 }])) ∧
    (∀ ws, va.toNat % 128 = 0 → inAperture va = false → Unwatched s k → AtHomes s k t (wordVas va 32) true true ws → Published s k t → s.late = false →
      let r := decrement (released s t) (tcbDie (released s t) (t.core / 144) tenant va) tenant va
      (r.late = false → exec (.tgl x) s = .next (finish r k t)) ∧
      (r.late = true → ∃ s', exec (.tgl x) s = .next (waitHere s') ∧ s' = { released s t with asks := s'.asks, ats := s'.ats, walks := s'.walks }))) ∧
  (∀ (s s1 : State) (die tenant : Nat) (va : DWord) (b : Tcb), readTcb s die tenant va = (s1, some b) →
    (b.run = false → 1 < b.pred → decrement s die tenant va = walkerWrite s1 die tenant va (b.withPred (b.pred - 1)).lo ∧
      (b.withPred (b.pred - 1)).pred = b.pred - 1 ∧ (b.withPred (b.pred - 1)).kind = b.kind ∧ (b.withPred (b.pred - 1)).nsucc = b.nsucc) ∧
    (b.run = false → b.pred = 1 → let n := (b.withPred 0).withRun true
      decrement s die tenant va = startNode (walkerWrite s1 die tenant va n.lo) die tenant va n ∧ n.pred = 0 ∧ n.run = true ∧ n.kind = b.kind) ∧
    ((b.run = false ∧ b.pred = 0) ∨ (b.run = true ∧ b.kind ≠ 3 ∧ b.kind ≠ 4) →
      decrement s die tenant va = walkerWrite s1 die tenant va b.withErr.lo ∧ bit b.withErr.lo.toNat 15 = true) ∧
    (b.run = true → b.kind = 3 → decrement s die tenant va = { s1 with walking := s1.walking ++ [.complete tenant die va false] }) ∧
    (b.run = true → b.kind = 4 → decrement s die tenant va = startNode s1 die tenant va b)) ∧
  (∀ (s s1 : State) (idx tenant die : Nat) (va : DWord) (b : Tcb), s.late = false → let r := { s with walking := s.walking.eraseIdx idx }
    let home := tcbDie r die tenant va
    (s.walking[idx]? = none → exec (.nodeComplete idx) s = .next s) ∧
    (s.walking[idx]? = some (.start tenant die va) → readTcb r die tenant va = (s1, none) → s1.late = false → exec (.nodeComplete idx) s = .next s1) ∧
    (∀ err, s.walking[idx]? = some (.complete tenant die va err) → readTcb r home tenant va = (s1, none) → s1.late = false →
      exec (.nodeComplete idx) s = .next (if err then raiseVector s1 tenant 0 else s1)) ∧
    (s.walking[idx]? = some (.decrement tenant die va) → (decrement r home tenant va).late = false →
      exec (.nodeComplete idx) s = .next (decrement r home tenant va)) ∧
    ((walkerItem idx s).late = true → ∃ s', exec (.nodeComplete idx) s = .next s' ∧
      s' = { s with asks := s'.asks, ats := s'.ats, walks := s'.walks }) ∧
    (s.walking[idx]? = some (.start tenant die va) → readTcb r die tenant va = (s1, some b) →
      (startNode s1 die tenant va b).late = false → exec (.nodeComplete idx) s = .next (startNode s1 die tenant va b)) ∧
    (s.walking[idx]? = some (.complete tenant die va true) → readTcb r home tenant va = (s1, some b) →
      let r1 := raiseVector (walkerWrite s1 home tenant va b.withErr.lo) tenant 0
      r1.late = false → exec (.nodeComplete idx) s = .next r1) ∧
    (s.walking[idx]? = some (.complete tenant die va false) → readTcb r home tenant va = (s1, some b) →
      let n := (b.withRun false).withPred b.init
      let found := successors (walkerWrite s1 home tenant va n.lo) home tenant va b.nsucc
      let r1 := found.2.foldl (fun s d => decrement s (tcbDie s home tenant d) tenant d) found.1
      r1.late = false → exec (.nodeComplete idx) s = .next r1 ∧ n.run = false ∧ n.pred = b.init)))

/-! ### The matrix unit -/

/-- A tile instruction's effect: the words of tile `n` of the crew are what `f` gives and none of them is poisoned, those beyond them and every other tile
are as they were, and nothing else changes but that the team goes on. -/
def TileWritten (s : State) (k : Nat) (t : Team) (n count : Nat) (f : Nat → Word) (out : Out) : Prop :=
  ∃ s' c', out = .next (finish s' k t) ∧ s' = setCrew s (crewKey k) c' ∧
    c' = { crewOf s (crewKey k) with tile := c'.tile, tilePoison := c'.tilePoison, tileEcc := c'.tileEcc } ∧
    (∀ m i, i < 2048 → look 0 c'.tile (2048 * m + i) = if m = n ∧ i < count then f i else look 0 (crewOf s (crewKey k)).tile (2048 * m + i)) ∧
    ∀ i < count, 2048 * n + i ∉ c'.tilePoison

/-- A command of the crew that was queued when the team's instruction reached issue, and that `p` holds of, is still queued. -/
def Pending (s : State) (k : Nat) (t : Team) (p : ArrayCmd → Prop) : Prop :=
  ∃ q ∈ (coreOf s t.core).queue, q.crew = crewKey k ∧ q.uid < t.release.getD s.serial ∧ p q

/-- The team waits at its instruction for such commands, and remembers which they are. -/
def waitsFor (s : State) (k : Nat) (t : Team) : State := waitHere (setTeam s k { t with release := some (t.release.getD s.serial) })

/-- R267 to R269: a tile instruction on a tile outside the crew's budget traps ILLOP, and on one whose shape may not move BOUNDS. `tzero`, once no queued
command names the tile, completes and the tile is zero. `tld` and `tst` of a misaligned base or stride trap MALIGN; a row whose check fails traps with the
cause of the check. `tld`, once no queued command names the tile, completes and the tile holds the words that lie, row by row, at its places, in memory or
in a scratchpad; a word that carries a fault traps with its cause. `tst` completes and its words are stored at their places, row by row; a poisoned one
traps POISON. -/
def Obligations.TileInstructionsComplete : Prop :=
  ∀ (s : State) (k : Nat) (t : Team) (a b z : BitVec 5), Runs s k t → Quiet s t →
    let c := crewOf s (crewKey k)
    let ts := tsOf c a.toNat
    let h := shapeOf ts
    let base := t.rs b.toNat
    let stride := t.rs z.toNat
    let vas := tileVas h base stride
    let r := noteMisses s k t vas
    (c.tiles ≤ a.toNat → exec (.tzero a) s = .next (raise s k t cILLOP []) ∧
      (t.acquiring = false → exec (.tld a b z) s = .next (raise s k t cILLOP []) ∧ exec (.tst a b z) s = .next (raise s k t cILLOP []))) ∧
    (a.toNat < c.tiles → h.movable = false → exec (.tzero a) s = .next (raise1 s k t cBOUNDS ts) ∧
      (t.acquiring = false → FullS t [b.toNat, z.toNat] →
        exec (.tld a b z) s = .next (raise1 s k t cBOUNDS ts) ∧ exec (.tst a b z) s = .next (raise1 s k t cBOUNDS ts))) ∧
    (a.toNat < c.tiles → h.movable = true →
      (Pending s k t (a.toNat ∈ ·.tiles s) → exec (.tzero a) s = .next (waitsFor s k t)) ∧
      (¬ Pending s k t (a.toNat ∈ ·.tiles s) → TileWritten s k t a.toNat 2048 (fun _ => 0) (exec (.tzero a) s)) ∧
      (t.acquiring = false → FullS t [b.toNat, z.toNat] →
        let wrote := fun (v : DWord) => raise s k t cMALIGN [{ lane := 0, cause := cMALIGN, addr := v, flags := 1 }]
        (base.toNat % 4 ≠ 0 → exec (.tld a b z) s = .next (raise1 s k t cMALIGN base) ∧ exec (.tst a b z) s = .next (wrote base)) ∧
        (base.toNat % 4 = 0 → stride.toNat % 4 ≠ 0 →
          exec (.tld a b z) s = .next (raise1 s k t cMALIGN stride) ∧ exec (.tst a b z) s = .next (wrote stride)) ∧
        (base.toNat % 4 = 0 → stride.toNat % 4 = 0 →
          (∀ cause e, listPlaces r k t vas .read = .error (.fault cause e) → exec (.tld a b z) s = .next (raise r k t cause [e])) ∧
          (∀ cause e, listPlaces r k t vas .write = .error (.fault cause e) → exec (.tst a b z) s = .next (raise r k t cause [e])) ∧
          (∀ ps, listPlaces r k t vas .read = .ok ps → Unwatched s k →
            (Pending r k t (a.toNat ∈ ·.tiles r) → exec (.tld a b z) s = .next (waitsFor r k t)) ∧
            (¬ Pending r k t (a.toNat ∈ ·.tiles r) → inOrder r k ps false = true → WordsRead r k t ps (exec (.tld a b z) s) fun s1 ds =>
              (∀ ws : List Word, ds = ws.map Datum.ok → TileWritten s1 k t a.toNat vas.length (fun i => ws.getD i 0) (exec (.tld a b z) s)) ∧
              (∀ i d, ds[i]? = some d → d.cause ≠ 0 → (∀ j < i, ∀ e, ds[j]? = some e → e.cause = 0) →
                exec (.tld a b z) s = .next (raise1 s1 k t d.cause (vas.getD i 0))))) ∧
          (∀ ps, listPlaces r k t vas .write = .ok ps → Unwatched s k → inOrder r k ps true = true →
            let bad := fun i => 2048 * a.toNat + i ∈ c.tilePoison ∨ 2048 * a.toNat + i ∈ c.tileEcc.bad
            let s1 := tendTile r (crewKey k) fun i => decide (2048 * a.toNat ≤ i ∧ i < 2048 * a.toNat + vas.length)
            (∀ j < vas.length, bad j → (∀ i < j, ¬ bad i) → exec (.tst a b z) s = .next (raise1 s1 k t cPOISON (vas.getD j 0))) ∧
            ((∀ j < vas.length, ¬ bad j) → exec (.tst a b z) s = .next (finish (writeWords s1 t.core (bandOf s (bandKey k)).launch 0
              (ps.zip ((List.range vas.length).map fun i => look 0 c.tile (2048 * a.toNat + i)))) k t))))))

/-- The array queue of the team's core takes the command `q` at its end, and the team goes on. -/
def Queued (s : State) (k : Nat) (t : Team) (q : ArrayCmd) (out : Out) : Prop :=
  out = .next (finish { setCore s t.core { coreOf s t.core with queue := (coreOf s t.core).queue ++ [{ q with uid := s.serial }] } with
    serial := s.serial + 1 } k t)

/-- R46, R243, R271, R280, R282: `mma`, `acz` and `acst` that pass their checks queue their command while the array queue has room, with the accumulator and
the version it waits for; where the queue is full the team waits. One that names a tile or an accumulator outside the crew's budget traps ILLOP, and shapes
that do not pair BOUNDS; a packet of `acst` with a reserved type or field traps ILLOP, one of no rows or columns, or of more than 128, BOUNDS, and a row
whose check fails traps with the cause of the check.
R244, R272, R273: `acrd` issues as a producer of the row's present lanes and `acwr` writes them and clears FLT, once no queued command of the
crew names the accumulator; `acrd` of a faulted accumulator, or of a segment that fails its code, traps PIPE; `acver` reads the version, with WAIT once it
equals `S[w][15:0]`, and a PIPE held for the accumulator is delivered there, after the faults of the registers. -/
def Obligations.ArrayInstructionsComplete : Prop :=
  ∀ (s : State) (k : Nat) (t : Team) (acc : BitVec 3), Runs s k t → Quiet s t →
    let c := crewOf s (crewKey k)
    let base : ArrayCmd := { crew := crewKey k, team := some k }
    let room := fun (r : State) => (coreOf r t.core).queue.length < 16
    (∀ (a b v : BitVec 5), let check := mmaCheck c (arrayWord 0x53 a.toNat b.toNat (acc.toNat * 32 + v.toNat))
      (∀ x, check = some (cILLOP, x) → exec (.mma a b acc v) s = .next (raise s k t cILLOP [])) ∧
      (c.tiles ≤ a.toNat ∨ c.tiles ≤ b.toNat ∨ c.accs ≤ acc.toNat → ∃ x, check = some (cILLOP, x)) ∧
      (FullS t [v.toNat] → (∀ cause x, check = some (cause, x) → cause ≠ cILLOP → cause = cBOUNDS ∧ exec (.mma a b acc v) s = .next (raise1 s k t cBOUNDS x)) ∧
        (check = none → (¬ room s → exec (.mma a b acc v) s = .next (waitHere s)) ∧
          (room s → ∃ w, Queued s k t { base with word := w, ver := (t.rs v.toNat).setWidth 16 } (exec (.mma a b acc v) s) ∧
            tileA w = a.toNat ∧ tileB w = b.toNat ∧ ({ base with word := w } : ArrayCmd).op = 3 ∧ ({ base with word := w } : ArrayCmd).acc = acc.toNat)))) ∧
    (∀ (v : BitVec 5), (c.accs ≤ acc.toNat → exec (.acz acc v) s = .next (raise s k t cILLOP [])) ∧
      (acc.toNat < c.accs → FullS t [v.toNat] → (¬ room s → exec (.acz acc v) s = .next (waitHere s)) ∧
        (room s → ∃ w, Queued s k t { base with word := w, ver := (t.rs v.toNat).setWidth 16 } (exec (.acz acc v) s) ∧
          ({ base with word := w } : ArrayCmd).op = 4 ∧ ({ base with word := w } : ArrayCmd).acc = acc.toNat))) ∧
    (∀ (x : BitVec 5), t.acquiring = false → (28 < x.toNat ∨ c.accs ≤ acc.toNat → exec (.acst x acc) s = .next (raise s k t cILLOP [])) ∧
      (x.toNat ≤ 28 → acc.toNat < c.accs → FullS t (span x.toNat 4) →
        let ops := (List.range 4).map fun i => t.rs (x.toNat + i)
        let stride := (t.rs (x.toNat + 1)).toNat
        let f := (t.rs (x.toNat + 2)).toNat
        let legal := bits f 32 4 < 5 ∧ bits f 37 11 = 0 ∧ stride < 2 ^ 32 ∧ (t.rs (x.toNat + 3)).toNat < 2 ^ 32
        let sized := 1 ≤ bits f 0 16 ∧ bits f 0 16 ≤ 128 ∧ 1 ≤ bits f 16 16 ∧ bits f 16 16 ≤ 128
        let r := noteMisses s k t ((List.range (bits f 0 16)).flatMap fun i =>
          (acstRow (t.rs x.toNat) (t.rs (x.toNat + 1)) (acstSize (bits f 32 4)) i (bits f 16 16)).map fun w => w.1)
        (¬ legal → exec (.acst x acc) s = .next (raise1 s k t cILLOP (t.rs (x.toNat + 2)))) ∧
        (legal → ¬ sized → exec (.acst x acc) s = .next (raise1 s k t cBOUNDS (t.rs (x.toNat + 2)))) ∧
        (legal → sized → (∀ cause va, acstFault r t.core (bandKey k) ops = some (cause, va) →
            exec (.acst x acc) s = .next (raise r k t cause [{ lane := 0, cause := cause, addr := va, flags := 1 }])) ∧
          (acstFault r t.core (bandKey k) ops = none → (acstWaits r t.core (bandKey k) ops = true → exec (.acst x acc) s = .next (waitHere r)) ∧
            (acstWaits r t.core (bandKey k) ops = false → Unwatched s k → (¬ room r → exec (.acst x acc) s = .next (waitHere r)) ∧
              (room r → ∃ w, Queued r k t { base with word := w, ver := BitVec.ofNat 16 (bits f 48 16), ops := ops } (exec (.acst x acc) s) ∧
                ({ base with word := w } : ArrayCmd).op = 7 ∧ ({ base with word := w } : ArrayCmd).acc = acc.toNat)))))) ∧
    (∀ (d : BitVec 6) (r : BitVec 5),
      (t.okV false d.toNat = false ∨ c.accs ≤ acc.toNat →
        exec (.acrd d r acc) s = .next (raise s k t cILLOP []) ∧ exec (.acwr d r acc) s = .next (raise s k t cILLOP [])) ∧
      (t.okV false d.toNat = true → acc.toNat < c.accs → FullV t [d.toNat] → FullS t [r.toNat] →
        let row := (t.rs r.toNat).toNat
        (128 ≤ row → exec (.acrd d r acc) s = .next (raise1 s k t cBOUNDS (t.rs r.toNat)) ∧ exec (.acwr d r acc) s = .next (raise1 s k t cBOUNDS (t.rs r.toNat))) ∧
        (row < 128 → (Pending s k t (·.acc = acc.toNat) → exec (.acrd d r acc) s = .next (waitsFor s k t) ∧ exec (.acwr d r acc) s = .next (waitsFor s k t)) ∧
          (¬ Pending s k t (·.acc = acc.toNat) →
            let ls := (laneList t t.present).filter fun L => decide (L < 128)
            let key := fun L => 16384 * acc.toNat + 128 * row + L
            let hit := rowSegment acc.toNat row false (rowMask t)
            let s1 := if bit c.accFault.toNat acc.toNat then s else tendAcc s (crewKey k) hit
            (bit c.accFault.toNat acc.toNat = true → exec (.acrd d r acc) s = .next (raise1 s k t cPIPE (arrayPipe acc.toNat))) ∧
            (bit c.accFault.toNat acc.toNat = false → c.accEcc.bad.any hit = true →
              exec (.acrd d r acc) s = .next (refuse1 (setFlt (countFaulted s1 (crewKey k)) (crewKey k) acc.toNat true) k cPIPE (arrayPipe acc.toNat))) ∧
            (bit c.accFault.toNat acc.toNat = false → c.accEcc.bad.any hit = false → ls = [] → exec (.acrd d r acc) s = .next (finish s1 k t)) ∧
            (bit c.accFault.toNat acc.toNat = false → c.accEcc.bad.any hit = false → ls ≠ [] →
              ProducerIssued s1 k t { team := k, core := t.core, vregs := [d.toNat], lanes := ls.map fun L => (1024 * d.toNat + L, look 0 c.acc (key L)) }
                (exec (.acrd d r acc) s)) ∧
            ∃ c', exec (.acwr d r acc) s = .next (finish (setCrew s (crewKey k) c') k t) ∧
              c' = { c with acc := c'.acc, accFault := c'.accFault, accEcc := c'.accEcc } ∧
              (∀ n < 8, bit c'.accFault.toNat n = if n = acc.toNat then false else bit c.accFault.toNat n) ∧
              (∀ L ∈ ls, look 0 c'.acc (key L) = t.rv d.toNat L) ∧ (∀ j, (∀ L ∈ ls, j ≠ key L) → look 0 c'.acc j = look 0 c.acc j))))) ∧
    (∀ (d w : BitVec 5),
      (c.accs ≤ acc.toNat → exec (.acver d acc) s = .next (raise s k t cILLOP []) ∧ exec (.acverWait d w acc) s = .next (raise s k t cILLOP [])) ∧
      (acc.toNat < c.accs → (∀ f, t.heldPipe acc.toNat = some f →
          (FullS t [d.toNat] → exec (.acver d acc) s = .next (raise s k { t.closeRegion with held := t.held.erase f } f.cause f.recs)) ∧
          (FullS t [d.toNat, w.toNat] →
            exec (.acverWait d w acc) s = .next (raise s k { t.closeRegion with held := t.held.erase f } f.cause f.recs))) ∧
        (t.heldPipe acc.toNat = none → let ver := look 0 c.aver acc.toNat
          (FullS t [d.toNat] → exec (.acver d acc) s = .next (finish s k (t.ws d.toNat (ver.setWidth 64)))) ∧
          (FullS t [d.toNat, w.toNat] → exec (.acverWait d w acc) s = .next (if ver = (t.rs w.toNat).setWidth 16
            then finish s k (t.ws d.toNat (ver.setWidth 64)) else waitHere s)))))

/-- The command `q` of a core has left its queue, and its accumulator's version is one past the one it waited for. -/
def Retired (s s' : State) (core : Nat) (q : ArrayCmd) : Prop :=
  (coreOf s' core).queue = (coreOf s core).queue.filter (fun x => x.uid != q.uid) ∧ look 0 (crewOf s' q.crew).aver q.acc = q.ver + 1 ∧
    ∀ n, n ≠ q.acc → look 0 (crewOf s' q.crew).aver n = look 0 (crewOf s q.crew).aver n

/-- R243, R271, R283: the array starts the oldest command whose version matches and whose band runs, and each advances the version; a step for a command of
another kind, or for none, does nothing. An `mma` gives each element of its rows and columns the sum over the K blocks, every other element as it was; one
that reads a poisoned word or a word that fails its code, or whose block fails its check twice, marks the accumulator faulted (R194, R380), which is counted and logged (R384), and a block that
fails once is counted and leaves no mark. `acz` gives +0 and clears FLT; `acst` of a faulted accumulator, or of a segment that fails its code, stores nothing
and holds PIPE for its team, or logs an error completion where it has none, and another stores its rows once the words that it writes in part can be read.
A command starts and completes in one step by the model's choice (log 32). -/
def Obligations.ArrayCommandsComplete : Prop :=
  (∀ (s : State) (core : Nat), nextCmd s core = none →
    exec (.mmaCommand core) s = .next s ∧ exec (.aczCommand core) s = .next s ∧ exec (.acstCommand core) s = .next s) ∧
  ∀ (s : State) (core : Nat) (q : ArrayCmd), nextCmd s core = some q →
    let c := crewOf s q.crew
    let a := shapeOf (tsOf c (tileA q.word))
    let b := shapeOf (tsOf c (tileB q.word))
    let band := bandOf s (q.crew / 16)
    (q.op ≠ 3 → exec (.mmaCommand core) s = .next s) ∧ (q.op ≠ 4 → exec (.aczCommand core) s = .next s) ∧
    (q.op ≠ 7 → exec (.acstCommand core) s = .next s) ∧
    (∀ r : State, Retired r (retireCmd r core q) core q) ∧
    (q.op = 3 → ∀ repeated failed : Bool, (repeated = true ↔ ∃ m, s.upset = some (m, 32 + q.acc)) →
      (failed = true ↔ ∃ m, s.upset = some (m, 32 + q.acc) ∧ bit m.toNat 1 = true) →
      let poisoned := tilePoisoned c (tileA q.word) || tilePoisoned c (tileB q.word) || c.accEcc.bad.any (accSegment q.acc)
      let s0 := if repeated then count { s with upset := none } (arrayUnit core) 14 else s
      let s1 := if failed || poisoned then logRas (count s0 (arrayUnit c.core) 15)
          { cls := 15, die := c.core / 144, unit := c.core % 144, tenant := band.tenant, launch := band.launch } else s0
      ∃ s', exec (.mmaCommand core) s = .next s' ∧ s'.teams = s.teams ∧ s'.bands = s.bands ∧ Retired s s' core q ∧
        (c.tileEcc = {} → c.accEcc = {} → s' = { s1 with cores := s'.cores, crews := s'.crews, fresh := s'.fresh }) ∧
        (failed = true ∨ poisoned = true → bit (crewOf s' q.crew).accFault.toNat q.acc = true) ∧
        (failed = false → poisoned = false → (crewOf s' q.crew).accFault = c.accFault ∧
          (a.ety ≠ 7 → a.rows ≤ 128 → b.rows ≤ 128 → ∀ i j n, i < 128 → j < 128 → look 0 (crewOf s' q.crew).acc (16384 * n + 128 * i + j) =
            if n = q.acc ∧ i < a.rows ∧ j < b.rows then BitVec.ofNat 32 (mmaElem c (tileA q.word) (tileB q.word) a b i j (look 0 c.acc (16384 * n + 128 * i + j)).toNat)
            else look 0 c.acc (16384 * n + 128 * i + j)) ∧
          (a.ety = 7 → a.rows ≤ 128 → b.rows ≤ 64 → ∀ i j n, i < 128 → j < 64 →
            let word := fun (c : Crew) p => look 0 c.acc (16384 * n + 128 * i + 2 * j + p)
            if n = q.acc ∧ i < a.rows ∧ j < b.rows then word (crewOf s' q.crew) 1 ++ word (crewOf s' q.crew) 0 =
                BitVec.ofNat 64 (mmaElem c (tileA q.word) (tileB q.word) a b i j ((word c 0).toNat + (word c 1).toNat * 2 ^ 32))
              else word (crewOf s' q.crew) 0 = word c 0 ∧ word (crewOf s' q.crew) 1 = word c 1))) ∧
    (q.op = 4 → ∃ s', exec (.aczCommand core) s = .next s' ∧ s' = { s with cores := s'.cores, crews := s'.crews } ∧ Retired s s' core q ∧
      bit (crewOf s' q.crew).accFault.toNat q.acc = false ∧
      ∀ n i, i < 16384 → look 0 (crewOf s' q.crew).acc (16384 * n + i) = if n = q.acc then 0 else look 0 c.acc (16384 * n + i)) ∧
    (q.op = 7 →
      let f := (q.ops.getD 2 0).toNat
      let size := acstSize (bits f 32 4)
      let hit := fun i => accSegment q.acc i && decide (i % 1024 / 8 < bits f 0 16 ∧ 16 * (i % 8) < bits f 16 16)
      let rows := (List.range (bits f 0 16)).flatMap fun i => (acstRow (q.ops.getD 0 0) (q.ops.getD 1 0) size i (bits f 16 16)).map fun w => (i, w)
      let stopped := fun r : State =>
        (∀ k t, q.team = some k → s.teams.lookup k = some t → exec (.acstCommand core) s = .next (setTeam (retireCmd r core q) k
          { t with held := t.held ++ [{ cause := cPIPE, recs := [record 0 cPIPE (arrayPipe q.acc)] }] })) ∧
        ((q.team.bind fun k => s.teams.lookup k) = none → exec (.acstCommand core) s = .next (errorCompletion (retireCmd r core q)
          { launch := band.launch, kind := 2, cause := cPIPE }))
      (bit c.accFault.toNat q.acc = true → stopped s) ∧
      (bit c.accFault.toNat q.acc = false → acstReady s core (q.crew / 16) q = false → exec (.acstCommand core) s = .next (acstAsk s core (q.crew / 16) q)) ∧
      (bit c.accFault.toNat q.acc = false → acstReady s core (q.crew / 16) q = true → let r := tendAcc s q.crew hit
        (c.accEcc.bad.any hit = true → q.acc < 8 → stopped (setFlt (countFaulted r q.crew) q.crew q.acc true)) ∧
        (c.accEcc.bad.any hit = false → exec (.acstCommand core) s = .next (retireCmd (rows.foldl (fun r w =>
          acstWord r core (q.crew / 16) band.launch band.tenant w.2.1 w.2.2 size fun j =>
            acstElem (bits f 32 4) (bit f 36) (q.ops.getD 3 0).toNat (look 0 c.acc (16384 * q.acc + 128 * w.1 + j)).toNat) r) core q))))

/-! ### The word path -/

/-- R10: the bursts formed for words in order hold each word once, and no burst holds two words of one slice.
R129: REQUEST_COLLECTOR_ADMISSION takes the lowest waiting row of the core's oldest waiting load, once the 256 entries have room for its lanes and no fill
that it may not take is bringing one of its words: a word is served by the L1, by the fill that is bringing it, or is part of a request for its superblock;
where the L1 holds none of the words, each goes on its way and no other load changes; the lanes of an atomic go to their homes. MERGE_TIMEOUT sends a request that was still gathering
words.
R9, R135: L2_SLICE_REQUEST answers the words that the slice holds, and sends the request for the others to their home, to another die as a message.
R12: FILL arrives at the slice and goes on to the core with the same words, or at the core: of a word that a load waits for as its last it completes it, and
the lane holds the word and the register is full.
R133: PUBLICATION of the first word of its address is performed at its point, after its die's slice for one that goes to the home, and goes to another die as
a message of class 1; a later one of the word waits.
Each is a step that does nothing where there is nothing of its kind. Which step comes first is open in the spec (log 6); which fill a read may take is
log 72, and the lengths and payloads of the messages are log 41. -/
def Obligations.WordPathEventsComplete : Prop :=
  (∀ pas : List Nat, (∀ b ∈ formBursts false pas, (b.map sliceOf).Nodup) ∧ (formBursts false pas).flatten.Perm pas) ∧
  (∀ (s : State) (core : Nat), (s.loads.find? fun o => o.core == core && o.words.any fun w => w.stage == .waiting) = none →
    exec (.requestCollectorAdmission core) s = .next s) ∧
  (∀ (s : State) (core : Nat) (o : LoadOp), (s.loads.find? fun o => o.core == core && o.words.any fun w => w.stage == .waiting) = some o →
    let row := (o.words.filter fun w => w.stage == .waiting).foldl (fun r w => min r (w.lane / 32)) 31
    let enters := fun w : WordReq => w.stage == .waiting && w.lane / 32 == row
    let mine := o.words.filter enters
    let waits := 256 < collectorEntries s core + (mine.map fun w => w.lane).eraseDups.length ∨ (o.atomic = false ∧ ∃ w ∈ mine, fillWaits s core o.point w.pa = true)
    let put := fun (r : State) (ws : List WordReq) => { r with loads := r.loads.map fun x => if x.id == o.id then { x with words := ws } else x }
    (waits → exec (.requestCollectorAdmission core) s = .next s) ∧
    (¬ waits → o.atomic = true → exec (.requestCollectorAdmission core) s =
      .next (pumpAtoms (put s (o.words.map fun w => if enters w then { w with stage := .flying } else w)) o.id)) ∧
    (¬ waits → o.atomic = false →
      (∃ r ws, exec (.requestCollectorAdmission core) s = .next (finishLoads (put r ws)) ∧ r.teams = s.teams ∧ r.loads = s.loads ∧ ws.length = o.words.length ∧
        ∀ (i : Nat) (w : WordReq), o.words[i]? = some w → ∃ w', ws[i]? = some w' ∧ (enters w = false → w' = w) ∧
          (enters w = true → (∃ d, w' = { w with stage := .here d }) ∨ (w' = { w with stage := .flying, epoch := w'.epoch, via := w'.via, stored := w'.stored } ∧
            ∃ m ∈ r.misses, m.core = core ∧ m.sb = w.pa / 256 ∧ m.point = w'.via ∧ bit m.mask.toNat (w.pa / 4 % 64) = true))) ∧
      ((∀ w ∈ mine, held (l1Of s core) w.pa = none ∧ sound (l1Of s core) w.pa = true) → mine ≠ [] → (∀ x ∈ s.loads, ∃ w ∈ x.words, w.isHere = false) →
        ∃ s' ws, exec (.requestCollectorAdmission core) s = .next s' ∧ s' = { s with loads := s'.loads, misses := s'.misses, l2q := s'.l2q } ∧
          s'.loads = (put s ws).loads ∧ ws.length = o.words.length ∧ ∀ (i : Nat) (w : WordReq), o.words[i]? = some w → ∃ w', ws[i]? = some w' ∧
            w' = (if enters w then { w with stage := .flying, epoch := (coreOf s core).epoch, via := w'.via, stored := w'.stored } else w) ∧
            (enters w = true → bringing s core w.pa = [] → w'.via = o.point)))) ∧
  (∀ (s : State) (core idx : Nat), ((s.misses.filter fun m => m.core == core && !m.sent)[idx]? = none → exec (.mergeTimeout core idx) s = .next s) ∧
    ∀ m : Miss, (s.misses.filter fun m => m.core == core && !m.sent)[idx]? = some m → exec (.mergeTimeout core idx) s = .next { s with
      misses := s.misses.map fun x => if x = m then { x with sent := true } else x
      l2q := s.l2q ++ [{ core := m.core, die := m.core / 144, sb := m.sb, mask := m.mask, point := m.point, hint := m.hint, key := m.key,
                         epoch := m.epoch, tenant := m.tenant }] }) ∧
  (∀ (s : State) (idx : Nat), (s.l2q[idx]? = none → exec (.l2SliceRequest idx) s = .next s) ∧ ∀ r : Req, s.l2q[idx]? = some r → r.mask ≠ 0 →
    let word := fun i => r.sb * 256 + 4 * i
    let rest := { s with l2q := s.l2q.eraseIdx idx }
    let asked : Msg := { src := r.die, dst := homeDie (r.sb * 256), len := 16, cargo := .reads r, uid := s.serial, data := le (r.sb * 256) 8 ++ le r.mask.toNat 8 }
    -- the words that the slice holds, with any error of them put right first
    (let seen := if r.point = .home then rest else (maskWords r.mask).foldl (fun s i => mendL2 s r.die (word i)) rest
      let hits := if r.point = .home then [] else (maskWords r.mask).filter fun i => (held (l2Of seen r.die) (word i)).isSome
      let gone := (maskWords r.mask).filter fun i => !hits.contains i
      ∃ s', exec (.l2SliceRequest idx) s = .next s' ∧ s'.teams = s.teams ∧ s'.loads = s.loads ∧
        (hits ≠ [] → ∃ f ∈ s'.fills, f.toL2 = false ∧ f.req = { r with mask := wordsMask hits } ∧
          f.data = hits.map fun i => (i, (held (l2Of seen r.die) (word i)).getD .poison)) ∧
        (gone ≠ [] → homeDie (r.sb * 256) = r.die → HomeItem.read { r with mask := wordsMask gone } ∈ s'.homeq) ∧
        (gone ≠ [] → homeDie (r.sb * 256) ≠ r.die → ∃ m ∈ s'.msgs, m.src = r.die ∧ m.dst = homeDie (r.sb * 256) ∧ m.cls = 0 ∧
          m.cargo = .reads { r with mask := wordsMask gone })) ∧
    ((∀ i ∈ maskWords r.mask, sound (l2Of s r.die) (word i) = true) →
      (r.point ≠ .home → (∀ i ∈ maskWords r.mask, (held (l2Of s r.die) (word i)).isSome = true) →
        ∃ l2, exec (.l2SliceRequest idx) s = .next { rest with l2 := l2, fills := s.fills ++
          [{ req := r, data := (maskWords r.mask).map fun i => (i, (held (l2Of s r.die) (word i)).getD .poison) }] }) ∧
      ((∀ i ∈ maskWords r.mask, held (l2Of s r.die) (word i) = none ∧ heldDirty (l2Of s r.die) (word i) = false) →
        (homeDie (r.sb * 256) = r.die → exec (.l2SliceRequest idx) s = .next { rest with homeq := s.homeq ++ [.read r] }) ∧
        (homeDie (r.sb * 256) ≠ r.die → exec (.l2SliceRequest idx) s = .next { rest with msgs := s.msgs ++ [asked], serial := s.serial + 1 })))) ∧
  (∀ (s : State) (idx : Nat), (s.fills[idx]? = none → exec (.fill idx) s = .next s) ∧ ∀ f : Fill, s.fills[idx]? = some f →
    let rest := { s with fills := s.fills.eraseIdx idx }
    (f.toL2 = true → exec (.fill idx) s = .next (fillL2 rest f) ∧ (fillL2 rest f).teams = s.teams ∧
      ∃ g, (fillL2 rest f).fills.getLast? = some g ∧ g.req = f.req ∧ g.toL2 = false ∧ g.data.map (fun x => x.1) = f.data.map fun x => x.1) ∧
    (f.toL2 = false → exec (.fill idx) s = .next (fillCore rest f))) ∧
  (∀ (s : State) (idx k : Nat) (t : Team) (f : Fill) (i d L id pa va key hint part : Nat) (fl : BitVec 8) (inval : Bool) (w : Word), s.fills[idx]? = some f →
    f.toL2 = false → f.data = [(i, .ok w)] → f.req.point = .l1 → s.teams.lookup k = some t → pa = f.req.sb * 256 + 4 * i → i < 64 → part = 0 →
    s.loads = [{ id := id, team := k, core := f.req.core, dst := .vec d false, point := .l1, inval := inval, hint := hint, flags := fl,
                 words := [{ lane := L, part := part, pa := pa, va := va, key := key, epoch := f.req.epoch, stage := .flying }] }] →
    held (l1Of s f.req.core) pa = none →
    ∃ s', exec (.fill idx) s = .next s' ∧ s'.loads = [] ∧ (∃ t', s'.teams.lookup k = some t' ∧ t'.vIsEmpty d = false ∧ t'.rv d L = w ∧
        t' = { t with v := t'.v, vEmpty := t'.vEmpty } ∧ ∀ r L', L' < 1024 → (r, L') ≠ (d, L) → t'.rv r L' = t.rv r L') ∧
      ∀ j, j ≠ k → s'.teams.lookup j = s.teams.lookup j) ∧
  (∀ (s : State) (idx : Nat), (s.pubs[idx]? = none → exec (.publication idx) s = .next s) ∧ ∀ p : Pub, s.pubs[idx]? = some p →
    let first := p.sent = false ∧ ∀ q ∈ s.pubs.take idx, ¬ (q.core = p.core ∧ q.pa = p.pa)
    (¬ first → exec (.publication idx) s = .next s) ∧
    (first → (p.toHome = false ∨ (p.passed = true ∧ homeDie p.pa = p.die) → exec (.publication idx) s = .next (performPub s p)) ∧
      (p.toHome = true → p.passed = false → exec (.publication idx) s = .next { s with pubs := s.pubs.set idx { p with passed := true } }) ∧
      (p.toHome = true → p.passed = true → homeDie p.pa ≠ p.die → exec (.publication idx) s = .next { s with
        pubs := s.pubs.set idx { p with sent := true }
        serial := s.serial + 1
        msgs := s.msgs ++ [{ src := p.die, dst := homeDie p.pa, cls := 1, len := 16, cargo := .pubs [p.uid], uid := s.serial,
                             owner := if p.launch = 0 then 0 else p.launch + 1,
                             data := le p.pa 8 ++ le p.w.toNat 4 ++ [0, 0, 0, 0] }] })))

/-- The answer to a burst that the interface has lost (R142): its words are UNCORR for their requesters, and for the requests that wait for the host. -/
def burstLost (s : State) (b : Burst) : State :=
  let uncorr := fun r : Req => (maskWords r.mask).map fun i => (i, Datum.uncorr)
  let r := b.reqs.foldl (fun s r => deliverHome s r (uncorr r)) (interfaceLost s (b.words.headD 0))
  { r with homeq := r.homeq ++ b.held.map fun r => .read { r with got := uncorr r } }

/-- R10, R136: HOME_REQUEST of a read takes with it every other read of its window: of DRAM words that no cache holds and no host has, it forms the bursts of
the words of all of them in ascending order; of an atomic, it performs it once its words can be written.
R138, R142: BURST_READ of a burst with a wrong CRC replays it up to three times, then retrains, and one that fails after that gives UNCORR; a good one gives
what its words decode to; none of a pseudo-channel returns while it is retrained. RETRAIN retries the access, and a write whose second retraining fails
retires its bank sets; WRITE_REPLAY replays a write, up to three times. R140: BLOCK_PROCEDURE answers the requests of its block, the words that it could
not correct with UNCORR, and performs the writes that have waited for it.
Each is a step that does nothing where there is nothing of its kind. Which request a home serves first is open in the spec (log 40). A write whose replay is
under way stands in memory, and its job is the dirty copy, by log 82; a write that has to wait is held with the job of its block and performed there, by
log 89. -/
def Obligations.HomeEventsComplete : Prop :=
  (∀ (s : State) (idx : Nat), (s.homeq[idx]? = none → exec (.homeRequest idx) s = .next s) ∧
    (∀ a, s.homeq[idx]? = some (.atoms a) → exec (.homeRequest idx) s = .next (homeAtoms { s with homeq := s.homeq.eraseIdx idx } a)) ∧
    ∀ r, s.homeq[idx]? = some (.read r) →
      let others := s.homeq.eraseIdx idx
      let taken := { s with homeq := others.filter fun q => !q.joins r }
      let rs := r :: others.filterMap fun q => match q with
        | .read x => if q.joins r then some x else none
        | .atoms _ => none
      let pas := fun x : Req => (maskWords x.mask).map fun i => x.sb * 256 + 4 * i
      exec (.homeRequest idx) s = .next (homeReads taken rs) ∧
      ((∀ x ∈ rs, x.got = [] ∧ x.doubt = [] ∧ x.mask ≠ 0) → (∀ pa ∈ rs.flatMap pas, homeReady s pa false = true ∧ region pa = .dram ∧
          held (mscOf s (stackNo pa)) pa = none ∧ sound (mscOf s (stackNo pa)) pa = true) →
        let words := ((List.range 1024).map fun i => r.sb / 16 * 4096 + 4 * i).filter fun pa => (rs.flatMap pas).contains pa
        let counted := rs.foldl (fun s x => countMiss s (x.sb * 256) x.tenant) taken
        homeReads taken rs = { counted with bursts := s.bursts ++ (formBursts (rs.any fun x => x.key != 0) words).map fun b =>
          { words := b, reqs := rs.filterMap fun x =>
              let mine := (maskWords x.mask).filter fun i => b.contains (x.sb * 256 + 4 * i)
              if mine = [] then none else some { x with mask := wordsMask mine } } })) ∧
  (∀ (s : State) (idx : Nat) (bad : Bool) (flips : List (Nat × Nat)), (s.bursts[idx]? = none → exec (.burstRead idx bad flips) s = .next s) ∧
    ∀ b : Burst, s.bursts[idx]? = some b →
      let pa0 := b.words.headD 0
      let noise := fun pa => (flips.lookup pa).getD 0 % 2 ^ 40
      let wrong := (bad || crcDiffers s b.words noise) = true
      let rest := { s with bursts := s.bursts.eraseIdx idx }
      (retrains s pa0 = true → exec (.burstRead idx bad flips) s = .next s) ∧
      (retrains s pa0 = false →
        (wrong → b.tries < 3 → exec (.burstRead idx bad flips) s = .next (countPc { s with bursts := s.bursts.set idx { b with tries := b.tries + 1 } } pa0 5)) ∧
        (wrong → b.tries = 3 → exec (.burstRead idx bad flips) s = .next { s with bursts := s.bursts.set idx { b with retraining := true } }) ∧
        (wrong → 3 < b.tries → exec (.burstRead idx bad flips) s = .next (burstLost rest b)) ∧
        (¬ wrong → exec (.burstRead idx bad flips) s =
          .next (b.reqs.foldl (fun s r => senseWords s r noise) (b.held.foldl (fun s r => holdResults s r noise) (senseBurst rest b.words noise)))))) ∧
  (∀ (s s1 : State) (r : Req) (i : Nat) (d : Sensed) (noise : Nat → Nat), i < 64 → r.mask = wordsMask [i] →
    let pa := r.sb * 256 + 4 * i
    sound (mscOf s (stackNo pa)) pa = true → held (mscOf s (stackNo pa)) pa = none → blockBusy s pa = false → readPlain s pa r.key noise = (s1, d) →
    senseWords s r noise = match d with
      | .word w => deliverHome (mscPut s pa w false false r.key r.hint r.tenant 0) r [(i, .ok w)]
      | .poison => deliverHome (mscPut s pa 0 true false r.key r.hint r.tenant 0) r [(i, .poison)]
      | .block => { s with blocks := s.blocks ++ [{ block := blockOf pa, req := some { r with got := [], doubt := [] } }] }) ∧
  (∀ s : State, (∀ b ∈ s.blocks, b.proc = true ∨ retrains s (b.block * 512) = true) → resumeRetrained s = s) ∧
  (∀ (s : State) (idx : Nat) (ok : Bool),
    let bs := s.bursts.zipIdx.filter fun b => b.1.retraining
    let js := s.writeJobs.zipIdx.filter fun j => decide (3 ≤ j.1.tries)
    (∀ b i, bs[idx]? = some (b, i) → exec (.retrain idx ok) s = .next (resumeRetrained (if ok then
        { s with bursts := s.bursts.set i { b with retraining := false, tries := 4 } }
      else burstLost { s with bursts := s.bursts.eraseIdx i } { b with retraining := false, tries := 4 }))) ∧
    (bs[idx]? = none → js[idx - bs.length]? = none → exec (.retrain idx ok) s = .next s) ∧
    (∀ j i, bs[idx]? = none → js[idx - bs.length]? = some (j, i) →
      (ok = true → exec (.retrain idx ok) s = .next (resumeRetrained { s with writeJobs := s.writeJobs.eraseIdx i })) ∧
      (ok = false → j.retrains = 0 → exec (.retrain idx ok) s = .next (resumeRetrained { s with writeJobs := s.writeJobs.set i { j with retrains := 1 } })) ∧
      (ok = false → j.retrains ≠ 0 → ∃ s', exec (.retrain idx ok) s = .next (resumeRetrained s') ∧ s'.writeJobs = s.writeJobs.eraseIdx i ∧
        ∀ b < 4, 4 * pseudoChannel j.pa + b ∈ (dram s' (stackNo j.pa)).retiring ∨ 4 * pseudoChannel j.pa + b ∈ (dram s' (stackNo j.pa)).retired))) ∧
  (∀ (s : State) (pa : Nat) (bad : Bool), (region pa ≠ .dram ∨ retrains s pa = true → exec (.writeReplay pa bad) s = .next s) ∧
    (region pa = .dram → retrains s pa = false → let j := (s.writeJobs.find? fun j => j.pa == pa).getD { pa := pa }
      exec (.writeReplay pa bad) s = .next (countPc { s with
        writeJobs := (s.writeJobs.filter fun x => x.pa != pa) ++ if bad then [{ j with tries := j.tries + 1 }] else [] } pa 5))) ∧
  (∀ (s : State) (idx : Nat), (s.blocks[idx]? = none → exec (.blockProcedure idx) s = .next s) ∧
    ∀ (j : BlockJob) (s1 : State) (lost : List Nat), s.blocks[idx]? = some j → let mine := s.blocks.filter fun b => b.block == j.block
      ((∀ b ∈ mine, b.proc = false) → exec (.blockProcedure idx) s = .next s) ∧
      ((∃ b ∈ mine, b.proc = true) → blockAtHome { s with blocks := s.blocks.filter fun b => b.block != j.block } j.block = (s1, lost) →
      let reqs := mine.filterMap fun b => b.req
      let answered := reqs.foldl (fun s r =>
        let is := (maskWords r.mask).filter fun i => lost.contains (r.sb * 256 + 4 * i)
        senseWords (deliverHome s r (is.map fun i => (i, Datum.uncorr))) { r with mask := wordsMask ((maskWords r.mask).filter fun i => !is.contains i) } fun _ => 0)
        { s1 with blocks := [] }
      exec (.blockProcedure idx) s = .next ((mine.flatMap fun b => b.writes).foldl performHeld { answered with blocks := s1.blocks ++ answered.blocks })))

/-- R386: a scrub reads every stored word of the stack that an error is in, puts it right by R138 and R140 and rewrites it, and a word that one data bit is
wrong in is corrected and counted. R384: SLICE_COUNT_CLEAR begins a period with every count at zero. R147, R148: SPARE_IN starts the copy of the first slice
of a pseudo-channel, and a second one retires its bank sets; the same slice again changes nothing; SPARE_IN_COMPLETE puts the spare in the slice's place; a
removal that is acknowledged retires the bank set. R149: DEEP_RETENTION takes the host's lines back, and once it has none leaves no line of bank set 3 in the
home's cache and powers it down, and HOT_ADD powers it up with every word zero. R376: PAGE_WALK enters the translation that its walk gives, unless a `tlbi` has
begun since or the walk gives none; a walk that the host holds a line of waits for it. Each is a step that does nothing where there is nothing of its kind.
The model's own are that a walk waits (log 65), that a retention waits as a command for the host's lines (log 52, DEDUCED), and that a walk enters the leaf of a
free choice where the leaves of a group differ (log 16, DESIGN CHOICE). -/
def Obligations.StackEventsComplete : Prop :=
  (∀ (s : State) (stack : Nat), exec (.backgroundScrub stack) s = .next (scrub s (fun pa => region pa == .dram && stackNo pa == stack) fun _ => true) ∧
    ∀ pa i e, s.flips = [(pa, e)] → region pa = .dram → stackNo pa = stack → retiredAt s pa = false →
      (senseWord s pa 0).1 = .dataBit i → (senseWord s pa 0).2 = wordAt s.mem pa → (∀ k < 16, (dram s k).deltas = []) →
      exec (.backgroundScrub stack) s = .next { countSlice 0 (countPc s pa 0) pa with flips := [] }) ∧
  (∀ (s : State) (stack : Nat), ∃ s', exec (.sliceCountClear stack) s = .next s' ∧ s' = { s with drams := s'.drams } ∧ (dram s' stack).slices = [] ∧
    (dram s' stack).counts = (dram s stack).counts ∧ ∀ k, k ≠ stack → dram s' k = dram s k) ∧
  (∀ (s : State) (stack pc slice : Nat), (16 ≤ stack ∨ 512 ≤ pc ∨ 16 ≤ slice → exec (.spareIn stack pc slice) s = .next s) ∧
    (stack < 16 → pc < 512 → slice < 16 → let d := dram s stack
      (d.sparing.lookup pc = some slice → exec (.spareIn stack pc slice) s = .next s) ∧
      (d.spared.lookup pc = none → d.sparing.lookup pc = none →
        ∃ s', exec (.spareIn stack pc slice) s = .next s' ∧ (dram s' stack).sparing.lookup pc = some slice ∧ s'.mem = s.mem ∧ ∀ k, k ≠ stack → dram s' k = dram s k) ∧
      (d.sparing.lookup pc ≠ some slice → d.spared.lookup pc ≠ none ∨ d.sparing.lookup pc ≠ none →
        ∃ s', exec (.spareIn stack pc slice) s = .next s' ∧ bit s'.modst.toNat 0 = true ∧
          ∀ b < 4, 4 * pc + b ∈ (dram s' stack).retiring ∨ 4 * pc + b ∈ (dram s' stack).retired))) ∧
  (∀ (s : State) (stack pc : Nat), ((dram s stack).sparing.lookup pc = none → exec (.spareInComplete stack pc) s = .next s) ∧
    ∀ slice, (dram s stack).sparing.lookup pc = some slice → ∃ s', exec (.spareInComplete stack pc) s = .next s' ∧
      (dram s' stack).spared.lookup pc = some slice ∧ (dram s' stack).sparing.lookup pc = none) ∧
  (∀ (s : State) (stack pc bankSet : Nat),
    (4 ≤ bankSet ∨ 4 * pc + bankSet ∉ (dram s stack).retiring → exec (.hotRemoveAcknowledge stack pc bankSet) s = .next s) ∧
    (bankSet < 4 → 4 * pc + bankSet ∈ (dram s stack).retiring → ∃ s', exec (.hotRemoveAcknowledge stack pc bankSet) s = .next s' ∧
      4 * pc + bankSet ∈ (dram s' stack).retired ∧ 4 * pc + bankSet ∉ (dram s' stack).retiring ∧ s' = { s with drams := s'.drams })) ∧
  (∀ (s : State) (stack : Nat), (16 ≤ stack ∨ s.command ≠ none ∨ s.bootFailed = true → exec (.deepRetention stack) s = .next s) ∧
    (stack < 16 → s.command = none → s.bootFailed = false → let mine := (mscOf s stack).filter fun e => deepBlock stack e.1
      ((∃ e ∈ mine, e.2.host ≠ 0) → ∃ s', exec (.deepRetention stack) s = .next s' ∧ s' = { s with asks := s'.asks, command := some (.deep stack) } ∧
        ∀ e ∈ mine, ∀ l < 4, e.2.hostField l ≠ 0 → asked s' (e.1 * 256 + 64 * l) = true) ∧
      ((∀ e ∈ mine, e.2.host = 0) → ∃ s', exec (.deepRetention stack) s = .next s' ∧ s'.command = none ∧ (dram s' stack).deep = true ∧
        ∀ e ∈ mscOf s' stack, deepBlock stack e.1 = false))) ∧
  (∀ (s : State) (stack : Nat), ((dram s stack).deep = false → exec (.hotAdd stack) s = .next s) ∧
    ((dram s stack).deep = true → ∃ s', exec (.hotAdd stack) s = .next s' ∧ (dram s' stack).deep = false ∧
      ∀ pa, pa % 4 = 0 → wordAt s'.mem pa = if deepBlock stack (pa / 256) then 0 else wordAt s.mem pa)) ∧
  (∀ (s : State) (core va : Nat), ((s.walks.find? fun w => w.core == core && w.va / 65536 == va / 65536) = none → exec (.pageWalk core va) s = .next s) ∧
    ∀ w : Walk, (s.walks.find? fun w => w.core == core && w.va / 65536 == va / 65536) = some w →
      (∀ e, walkLate s w.tenant w.va = some e → exec (.pageWalk core va) s = .next (askHost s e false)) ∧
      (walkLate s w.tenant w.va = none → let read := (walkReads s w.tenant w.va).foldl readEntry s
        ∃ s', exec (.pageWalk core va) s = .next s' ∧ s'.walks = read.walks.erase w ∧ s'.teams = s.teams ∧
          (w.overlapped = true ∨ pickLeaf read (walk read w.tenant w.va) = none → tlbOf s' core = tlbOf read core) ∧
          ∀ x, w.overlapped = false → pickLeaf read (walk read w.tenant w.va) = some x → (tlbOf s' core).head? = some x ∧ (look [] s'.tcache (core / 144)).head? = some x))

/-! ### Sparge -/

/-- The kinds of message that wait for a step of their own. -/
def isAck (c : Cargo) : Bool := match c with
  | .ack _ => true
  | _ => false
def isRepair (c : Cargo) : Bool := match c with
  | .repair _ _ => true
  | _ => false
def isPoison (c : Cargo) : Bool := match c with
  | .poison _ => true
  | _ => false
def isLoss (c : Cargo) : Bool := match c with
  | .loss _ _ _ _ => true
  | _ => false

/-- R332, R334, R360: MESSAGE_SEND of a message gives it the next id and puts a fragment of each index, with its bytes of the payload, on the path that its
number selects, but for those that SPINJ drops; it waits behind an earlier one for its destination, and while 128 are unacknowledged. R355, R356: the 80 bytes
of a fragment that arrives as it was sent are valid, and describe it. R333, R356, R359: a flit whose framing check fails is dropped; a fragment whose CRC fails,
or whose header is not valid, is counted and dropped, as one beyond the window is; one of a message that is done is counted and answered
where it was repaired; one that is new is kept, and the last that a message needs delivers it and answers with an acknowledgement; an acknowledgement frees
the sender's entry. R362: the repair steps ask for, and send again, the fragments that are lacking, at most twice. R363: a message that is lost is logged
with its class, id, source and destination, its cargo lost, and its receiver told; a poison notice poisons its words. R358, R396: LINK_REMOVAL takes the link and the fragments on it away and requests
replacement; a delayed fragment then leaves by a path that remains. Each is a step that does nothing where there is nothing of its kind.
The model's own are the fields of a RAS record and where a loss is logged (log 43), the bytes of a payload (log 41), the id series that acknowledgements share
(log 42) and the outcome of a lost atomic (log 63). -/
def Obligations.SpargeEventsComplete : Prop :=
  (∀ (s : State) (die idx : Nat), ((s.msgs.filter fun m => m.src == die && !m.sent)[idx]? = none → exec (.messageSend die idx) s = .next s) ∧
    ∀ m : Msg, (s.msgs.filter fun m => m.src == die && !m.sent)[idx]? = some m →
      let place := s.msgs.idxOf m
      let peer := fun x : Msg => x.src == m.src && x.dst == m.dst && x.cls != 7
      let ps := usablePaths s m.src m.dst m.cls
      let waits := ps = [] ∨ (m.cls ≠ 7 ∧ (128 ≤ ((s.msgs.filter peer).filter fun x => x.sent).length ∨ ∃ x ∈ s.msgs.take place, peer x = true ∧ x.sent = false))
      let key := 8 * m.src + m.dst
      let id := look 0 s.nextId key % 65536
      let m' : Msg := { m with id := id, k := dataFragments m.len, m := min (bits (crateOf s die m.cls).toNat 3 3) 4, sent := true }
      let inj := injection s m'
      let dropped := (inj.map fun x => x.1).getD []
      let delayed := (inj.map fun x => x.2).getD []
      (waits → exec (.messageSend die idx) s = .next s) ∧
      (bit (look 0 s.spinj m.src).toNat 0 = false → inj = none) ∧
      (¬ waits → exec (.messageSend die idx) s = .next { s with
        msgs := if m.cls = 7 then s.msgs.eraseIdx place else s.msgs.set place m'
        nextId := setAt s.nextId key ((id + 1) % 65536)
        spinj := if inj.isSome then setAt s.spinj die (look 0 s.spinj die &&& ~~~1) else s.spinj
        frags := s.frags ++ ((List.range (m'.k + m'.m)).filter fun f => f ∉ dropped).map fun f =>
          { fragOf m' f (ps.getD ((id + f) % ps.length) 0) with delayed := decide (f ∈ delayed) } })) ∧
  (∀ (m : Msg) (f path j : Nat), (fragOf m f path).msg = m ∧ (fragOf m f path).index = f ∧ (fragOf m f path).path = path ∧
    (f < m.k → j < 64 → (fragOf m f path).bytes.getD j 0 = m.data.getD (64 * f + j) 0)) ∧
  (∀ (md : BitVec 10) (f : Frag), f.msg.id < 65536 → f.msg.src < 8 → f.msg.dst < 8 → f.msg.cls < 8 → f.msg.m ≤ 4 → f.msg.k ∈ [1, 2, 4, 8, 16] →
    f.index < f.msg.k + f.msg.m → f.path < 256 → 1 ≤ f.msg.len → f.msg.len ≤ 64 * f.msg.k → (∀ b ∈ f.bytes, b < 256) →
    let bs := flipBytes (fragImage md.toNat f) 0
    imageValid bs = true ∧ f.asRead bs = f ∧ (f.bytes.length = 64 → bs.length = 80)) ∧
  (∀ (s : State) (idx : Nat) (arrival : Option (BitVec 640)), (s.frags[idx]? = none → exec (.fragmentReceive idx arrival) s = .next s) ∧
    ∀ f0 : Frag, s.frags[idx]? = some f0 → (f0.delayed = true → exec (.fragmentReceive idx arrival) s = .next s) ∧
      (f0.delayed = false →
        let rest := { s with frags := s.frags.eraseIdx idx }
        let unit := 70000 + f0.msg.dst
        let bs := flipBytes (fragImage s.moduleNo.toNat f0) (arrival.getD 0)
        let f := f0.asRead bs
        let key := 8 * f.msg.dst + f.msg.src
        let r := look {} s.rx key
        let ahead := (f.msg.id + 65536 - r.low) % 65536
        let ack : Msg := { src := f.msg.dst, dst := f.msg.src, cls := 7, len := 8, cargo := .ack f.msg.id, data := le f.msg.id 8 }
        let got := ((r.parts.find? fun p => p.msg.id == f.msg.id).map fun p => p.got).getD []
        (arrival = none → exec (.fragmentReceive idx arrival) s = .next rest) ∧
        (arrival ≠ none → imageValid bs = false → exec (.fragmentReceive idx arrival) s = .next (count rest unit 16)) ∧
        (arrival ≠ none → imageValid bs = true →
          (32768 ≤ ahead ∨ f.msg.id ∈ r.done → exec (.fragmentReceive idx arrival) s = .next (if 0 < f.msg.attempts ∧ f.msg.cls ≠ 7
            then { count rest unit 17 with msgs := s.msgs ++ [ack] } else count rest unit 17)) ∧
          (128 ≤ ahead → ahead < 32768 → f.msg.id ∉ r.done → exec (.fragmentReceive idx arrival) s = .next (count rest unit 19)) ∧
          (ahead < 128 → f.msg.id ∉ r.done →
            ((∃ b, got.lookup f.index = some b) → exec (.fragmentReceive idx arrival) s = .next rest) ∧
            (got.lookup f.index = none → got.length + 1 < f.msg.k → exec (.fragmentReceive idx arrival) s =
              .next { rest with rx := setAt s.rx key (r.accept f.msg (got ++ [(f.index, f.bytes)])) }) ∧
            (got.lookup f.index = none → f.msg.k ≤ got.length + 1 →
              let m : Msg := { f.msg with data := ((rsRebuild f.msg.k (got ++ [(f.index, f.bytes)])).flatten).take f.msg.len }
              let d := deliver { rest with rx := setAt s.rx key (r.finish f.msg.id) } m
              exec (.fragmentReceive idx arrival) s = .next (if f.msg.cls = 7 then d else { d with msgs := d.msgs ++ [ack] })))))) ∧
  (∀ (s : State) (m : Msg), (∀ q, m.cargo = .reads q → deliver s m = { s with homeq := s.homeq ++ [.read q] }) ∧
    (∀ q, m.cargo = .atoms q → deliver s m = { s with homeq := s.homeq ++ [.atoms q] }) ∧ (∀ f, m.cargo = .reply f → deliver s m = { s with fills := s.fills ++ [f] }) ∧
    (isAck m.cargo = true ∨ isRepair m.cargo = true ∨ isPoison m.cargo = true ∨ isLoss m.cargo = true → deliver s m = { s with inbox := s.inbox ++ [m] })) ∧
  (∀ (s : State) (idx : Nat), (takeInbox s isAck idx = none → exec (.acknowledgement idx) s = .next s) ∧
    (takeInbox s isRepair idx = none → exec (.repairRequest idx) s = .next s) ∧
    (takeInbox s isPoison idx = none → exec (.poisonNotice idx) s = .next s) ∧ (takeInbox s isLoss idx = none → exec (.lossNotice idx) s = .next s) ∧
    ∀ (m : Msg) (r : State),
      (∀ id, takeInbox s isAck idx = some (m, r) → m.cargo = .ack id → exec (.acknowledgement idx) s =
        .next { r with msgs := s.msgs.filter fun x => !(x.src == m.dst && x.dst == m.src && x.sent && x.id == id) }) ∧
      (∀ id map, takeInbox s isRepair idx = some (m, r) → m.cargo = .repair id map →
        exec (.repairRequest idx) s = .next (match s.msgs.find? fun x => x.src == m.dst && x.dst == m.src && x.sent && x.id == id with
          | some x => serveRepair r x map
          | none => r)) ∧
      (∀ pas, takeInbox s isPoison idx = some (m, r) → m.cargo = .poison pas → exec (.poisonNotice idx) s = .next (pas.foldl poisonHome r)) ∧
      (∀ cls id rs ls, takeInbox s isLoss idx = some (m, r) → m.cargo = .loss cls id rs ls →
        let x := look {} s.rx (8 * m.dst + m.src)
        exec (.lossNotice idx) s = .next (loseAtoms (rs.foldl loseReads (if (id + 65536 - x.low) % 65536 < 128 ∧ id ∉ x.done
          then { r with rx := setAt s.rx (8 * m.dst + m.src) (x.finish id) } else r)) ls))) ∧
  (∀ (s : State) (p : Cargo → Bool) (m : Msg) (rest : List Msg), s.inbox = m :: rest → p m.cargo = true → takeInbox s p 0 = some (m, { s with inbox := rest })) ∧
  (∀ (s : State) (m : Msg) (map : Nat), (2 ≤ m.attempts ∨ usablePaths s m.src m.dst m.cls = [] → serveRepair s m map = s) ∧
    (m.attempts < 2 → usablePaths s m.src m.dst m.cls ≠ [] →
      ∃ s', serveRepair s m map = s' ∧ s' = { s with msgs := s'.msgs, frags := s'.frags } ∧
        (∀ f < m.k + m.m, bit map f = false → ∃ g ∈ s'.frags, g.index = f ∧ g.msg.id = m.id ∧ g.msg.attempts = m.attempts + 1) ∧
        s'.frags.length ≤ s.frags.length + m.k + m.m)) ∧
  (∀ (s : State) (die idx : Nat), ((retained s die)[idx]? = none → exec (.senderRepairTimeout die idx) s = .next s ∧ exec (.messageLoss die idx) s = .next s) ∧
    (∀ m, (retained s die)[idx]? = some m → exec (.senderRepairTimeout die idx) s = .next (serveRepair s m 0)) ∧
    let parts := (List.range 8).flatMap fun src => (look {} s.rx (8 * die + src)).parts
    (parts[idx]? = none → exec (.receiverRepairTimeout die idx) s = .next s) ∧
    (∀ p, parts[idx]? = some p → let map := p.got.foldl (fun a g => a + 2 ^ g.1) 0
      exec (.receiverRepairTimeout die idx) s = .next (if p.msg.cls = 7 then s else { s with msgs := s.msgs ++
        [{ src := p.msg.dst, dst := p.msg.src, cls := 7, len := 8, cargo := .repair p.msg.id map, data := le p.msg.id 4 ++ le map 4 }] }))) ∧
  (∀ (s : State) (m : Msg), lossRecord s m = match m.cargo with
    | .pubs _ => if m.owner = 0 then { cls := 18, die := m.src, unit := m.dst, act := 2 } else
        { cls := 18, die := m.src, unit := m.dst, act := 1, tenant := (launchOf s (m.owner - 1)).tenant, launch := m.owner - 1 }
    | _ => { cls := 18, die := m.src, unit := m.dst }) ∧
  (∀ (s : State) (die idx : Nat) (m : Msg), (retained s die)[idx]? = some m → (m.attempts < 2 → exec (.messageLoss die idx) s = .next s) ∧
    (2 ≤ m.attempts →
      let gone := { s with msgs := s.msgs.erase m, losses := { cls := m.cls, id := m.id, src := m.src, dst := m.dst, tick := s.tick } :: s.losses }
      let logged := logRas (count gone (70000 + die) 18) (lossRecord gone m)
      let tell := fun (r : State) rs ls => { r with msgs := r.msgs ++
        [{ src := m.src, dst := m.dst, cls := 6, len := 16, cargo := .loss m.cls m.id rs ls, data := le m.cls 8 ++ le m.id 8 }] }
      (∀ r, m.cargo = .reads r → exec (.messageLoss die idx) s = .next (tell (loseReads logged r) [] [])) ∧
      (∀ f, m.cargo = .reply f → exec (.messageLoss die idx) s = .next (tell logged [f.req] [])) ∧
      (∀ a, m.cargo = .atoms a → exec (.messageLoss die idx) s = .next (tell (loseAtoms logged (atomTriples a)) [] [])) ∧
      (∀ op vals, m.cargo = .atomReply op vals → exec (.messageLoss die idx) s = .next (tell logged [] (vals.map fun v => (op, v.1, v.2.1)))) ∧
      (∀ e a b lo, m.cargo = .chunk e a b lo → exec (.messageLoss die idx) s = .next (tell (repeatExchange logged e) [] [])) ∧
      (∀ uid ws c, m.cargo = .copy uid ws → (logged.copies.find? fun c => c.uid == uid) = some c →
        exec (.messageLoss die idx) s = .next (tell (abandonCopy logged c cLOSS) [] [])) ∧
      (∀ uid ws, m.cargo = .copy uid ws → (logged.copies.find? fun c => c.uid == uid) = none → exec (.messageLoss die idx) s = .next (tell logged [] [])) ∧
      (∀ pas, m.cargo = .poison pas →
        exec (.messageLoss die idx) s = .next (tell (enqueueCut logged m.src m.dst 6 8 pas 0 Cargo.poison fun pa => le pa 8) [] [])) ∧
      (isAck m.cargo = true ∨ isRepair m.cargo = true → exec (.messageLoss die idx) s = .next (tell logged [] [])) ∧
      (isLoss m.cargo = true → exec (.messageLoss die idx) s = .next (tell { logged with msgs := logged.msgs ++
        [{ src := m.src, dst := m.dst, cls := 6, len := 16, cargo := m.cargo, data := m.data }] } [] [])) ∧
      (∀ uids, m.cargo = .pubs uids →
        let ps := s.pubs.filter fun p => uids.contains p.uid
        ∃ s', exec (.messageLoss die idx) s = .next s' ∧
          s'.dooms = s.dooms ++ (if m.owner = 0 then [] else [(m.owner - 1, cLOSS, (ps.map fun p => p.pa).headD 0)]) ∧
          s'.pubs = s.pubs.filter (fun p => !uids.contains p.uid) ∧ s'.teams = s.teams ∧
          (∀ p ∈ ps, ∃ x ∈ s'.msgs, x.src = m.src ∧ x.dst = m.dst ∧ x.cls = 6 ∧ ∃ pas, x.cargo = .poison pas ∧ p.pa ∈ pas) ∧
          ∃ x, s'.msgs.getLast? = some x ∧ x.src = m.src ∧ x.dst = m.dst ∧ x.cls = 6 ∧ x.cargo = .loss m.cls m.id [] []))) ∧
  (∀ (s : State) (idx : Nat), ((s.frags.zipIdx.filter fun f => f.1.delayed)[idx]? = none → exec (.delayedFragment idx) s = .next s) ∧
    ∀ i f, (s.frags.zipIdx.filter fun f => f.1.delayed)[idx]? = some (f, i) → let ps := usablePaths s f.msg.src f.msg.dst f.msg.cls
      let path := if ∀ l ∈ (paths f.msg.src f.msg.dst).getD f.path [], linkDead s l = false then f.path else ps.getD ((f.msg.id + f.index) % ps.length) 0
      (ps = [] → exec (.delayedFragment idx) s = .next s) ∧
      (ps ≠ [] → exec (.delayedFragment idx) s = .next { s with frags := s.frags.set i { f with path := path, delayed := false } })) ∧
  (∀ (s : State) (die port : Nat), (port < 1 ∨ 6 < port ∨ 7 < die → exec (.linkRemoval die port) s = .next s) ∧
    (1 ≤ port → port ≤ 6 → die ≤ 7 → ∃ s', exec (.linkRemoval die port) s = .next s' ∧
      linkDead s' (die, die ^^^ port) = true ∧ linkDead s' (die ^^^ port, die) = true ∧ bit s'.modst.toNat 0 = true ∧
      s'.frags = s.frags.filter fun f => f.delayed || !(((paths f.msg.src f.msg.dst).getD f.path []).any fun l =>
        l == (die, die ^^^ port) || l == (die ^^^ port, die))))

/-! ### The host, its capacity and the timebase -/

/-- R366 to R369: a host read of a device line that no answer of the host is awaited for gives the line's words, and the filter of an HC line records S, or E or
M for a read that owns it; a host writeback is performed at the home and leaves the host S or nothing; snoops of a host line leave the home S, or no word
of it; the host's answers give the home its words and the field they grant, and what waited goes on. Each is a step that does nothing where there is nothing
of its kind: a line of another region, a read of a line that the host owns or is being asked for or that a block procedure or a retraining holds back, an
answer that nothing waits for; R393: nothing is answered after a failed verification.
Where the supplied line stands is the model's choice (log 58), and its own are that a write waits with the ask and is performed there (log 89, DEDUCED) and that
a line in M stays in M after a granted read (log 94). -/
def Obligations.HostLinesComplete : Prop :=
  (∀ (s : State) (pa : Nat),
    (s.bootFailed = true ∨ region pa ≠ .dram ∨ asked s pa = true ∨ 2 ≤ hostField s pa ∨ lineReady s pa = false → exec (.hostReadShared pa) s = .next s) ∧
    (s.bootFailed = true ∨ region pa ≠ .dram ∨ asked s pa = true ∨ lineReady s pa = false → exec (.hostReadOwned pa) s = .next s) ∧
    (∀ words keep, s.bootFailed = true ∨ region pa ≠ .dram → exec (.hostWriteback pa words keep) s = .next s) ∧
    (s.bootFailed = true ∨ region pa ≠ .host → exec (.hostSnoopData pa) s = .next s ∧ exec (.hostSnoopInvalidate pa) s = .next s)) ∧
  (∀ (s : State) (pa : Nat), s.bootFailed = false → region pa = .dram →
    (asked s pa = false → hostField s pa < 2 → lineReady s pa = true →
      let r := readLine s pa
      let s1 := { r.1 with hostData := r.2 }
      exec (.hostReadShared pa) s = .next (if isHC s1 pa then setHostField s1 (pa / 64 * 64) 1 else s1)) ∧
    (asked s pa = false → lineReady s pa = true →
      let r := readLine (gatherLine s pa) pa
      let s1 := { r.1 with hostData := r.2 }
      exec (.hostReadOwned pa) s = .next (if isHC s1 pa then setHostField s1 (pa / 64 * 64) 2 else s1)) ∧
    (∀ words keep, let s1 := hostWrites s pa words
      exec (.hostWriteback pa words keep) s = .next (
        if isHC s1 pa = true ∧ 2 ≤ hostField s1 pa then setHostField s1 (pa / 64 * 64) (if keep then 1 else 0) else s1))) ∧
  (∀ (s : State) (pa : Nat), s.bootFailed = false → region pa = .host →
    (hostField s pa < 2 → exec (.hostSnoopData pa) s = .next s) ∧
    (2 ≤ hostField s pa → lineDirty s pa = false → exec (.hostSnoopData pa) s = .next (setHostField s (pa / 64 * 64) 1)) ∧
    (2 ≤ hostField s pa → lineDirty s pa = true → lineFull s pa = true →
      exec (.hostSnoopData pa) s = .next (setHostField { (readLine s pa).1 with hostData := (readLine s pa).2 } (pa / 64 * 64) 1)) ∧
    (2 ≤ hostField s pa → lineDirty s pa = true → lineFull s pa = false →
      exec (.hostSnoopData pa) s = .next (setHostField (beWriteback s pa) (pa / 64 * 64) 1)) ∧
    ∃ s', exec (.hostSnoopInvalidate pa) s = .next s' ∧ ∀ a ∈ lineWords pa, held (mscOf s' (stackNo a)) a = none) ∧
  (∀ (s : State) (idx : Nat) (owned : Bool) (words : List (Nat × Option Word)),
    (s.asks[idx]? = none → exec (.backInvalidateResponse idx words) s = .next s ∧ exec (.hostReadGrant idx owned words) s = .next s) ∧
    ∀ a : HostAsk, s.asks[idx]? = some a →
      let rest := { s with asks := s.asks.eraseIdx idx }
      let pa := a.line * 64
      (∀ w, a.ask = .backInvalidate w → let s1 := resumeWrites (setHostField (hostWrites rest pa words) pa (if w then 0 else 1)) a
        exec (.backInvalidateResponse idx words) s = .next (if a.evict then finishEvict s1 (a.line / 4) else s1) ∧ exec (.hostReadGrant idx owned words) s = .next s) ∧
      (a.ask = .ownership → exec (.hostReadGrant idx owned words) s = .next (resumeWrites (setHostField rest pa 2) a) ∧
        exec (.backInvalidateResponse idx words) s = .next s) ∧
      (a.ask = .sharedRead → exec (.backInvalidateResponse idx words) s = .next s ∧
        let put := fun (r : State) (x : Nat × Option Word) =>
          if x.1 < 16 ∧ held (mscOf r (stackNo (pa + 4 * x.1))) (pa + 4 * x.1) = none
          then mscPut r (pa + 4 * x.1) (x.2.getD 0) x.2.isNone false (homeKey r (pa + 4 * x.1)) 0 noTenant 0 else r
        exec (.hostReadGrant idx owned words) s = .next (resumeWrites (words.foldl put (setHostField rest pa (if owned ∨ (hostField s pa = 2 ∧ lineDirty s pa) then 2 else 1))) a)))

/-- R377: a translation that the host gives is entered, an absent one becomes a page request, and a refused request makes its page's accesses fault; what a `tlbi` has overlapped is entered in no
cache; an invalidation takes from every cache the translations that overlap its range, and is complete where no access that was translated before is under way.
R370 to R372: an extent that is added has the range that Ezivo assigns, in the window, in units of 256 MiB and apart from every other; a release leaves none of
its lines in a home's cache or an L2 slice, when it begins and again once the accesses admitted before are complete; a surprise removal marks the extent lost.
R324, R364: a correction never sets the timebase back. R302, R364, R396: the loss of the master clears READY.THEBEL, refuses the parts of gangs that span modules
and have not started, and requests replacement. Each is a step that does nothing where there is nothing of its kind.
The form of a completion's operand and the way a negative correction acts are the model's choice and reading (logs 47 and 48). -/
def Obligations.HostTranslationsAndExtentsComplete : Prop :=
  (∀ (s : State) (idx : Nat) (present : Bool) (frame kind : Nat),
    (s.ats[idx]? = none → exec (.atsCompletion idx present frame kind) s = .next s ∧ exec (.pageRequestResponse idx present) s = .next s) ∧
    ∀ a : AtsReq, s.ats[idx]? = some a →
      let rest := { s with ats := s.ats.eraseIdx idx }
      let size := min (kind % 4) 2
      let n := pageBytes size
      (a.asked = false → exec (.pageRequestResponse idx present) s = .next s) ∧
      (a.asked = false → a.overlapped = true → exec (.atsCompletion idx present frame kind) s = .next rest) ∧
      (a.asked = false → a.overlapped = false → exec (.atsCompletion idx present frame kind) s = .next (if present then enterTrans rest a.core
          { tenant := a.tenant, base := a.page * 65536 / n * n, size := size, frame := frame / n * n, w := bit kind 2, x := bit kind 3 }
          else { s with ats := s.ats.set idx { a with asked := true } })) ∧
      (a.asked = true → exec (.atsCompletion idx present frame kind) s = .next s ∧ exec (.pageRequestResponse idx true) s = .next rest ∧
        exec (.pageRequestResponse idx false) s = .next { rest with atsDenied := s.atsDenied ++ [(a.tenant, a.page)] })) ∧
  (∀ (s : State) (tenant base kind : Nat),
    let n := pageBytes (min kind 2)
    let lo := base / n * n
    let hit := fun (x : Trans) => x.tenant = tenant ∧ x.base < lo + n ∧ lo < x.base + pageBytes x.size
    ∃ s', exec (.atsInvalidation tenant base kind) s = .next s' ∧ s' = { s with serial := s.serial + 1, cores := s'.cores, tcache := s'.tcache, walks := s'.walks, ats := s'.ats, invals := s'.invals } ∧
      (∀ begun, begun = ((s.invals.find? fun v => (v.tenant, v.base, v.size) == (tenant, lo, n)).map fun v => v.begun).getD s.serial →
        s'.invals = (s.invals.filter fun v => (v.tenant, v.base, v.size) != (tenant, lo, n)) ++
          (if usesOld s begun then [{ tenant := tenant, base := lo, size := n, begun := begun }] else [])) ∧
      (∀ begun, s.loads = [] → s.msgs = [] → s.misses = [] → s.asks = [] → s.blocks = [] → usesOld s begun = false) ∧
      (∀ a ∈ s'.ats, a.overlapped = true ∧ (a.tenant = tenant → a.asked = false → ¬ (lo ≤ a.page * 65536 ∧ a.page * 65536 < lo + n))) ∧
      (∀ c, tlbOf s' c = (tlbOf s c).filter fun x => ¬ hit x) ∧ (∀ d, look [] s'.tcache d = (look [] s.tcache d).filter fun x => ¬ hit x) ∧
      ∀ c, (coreOf s' c).l1 = (coreOf s c).l1) ∧
  (∀ (s : State) (port base size : Nat),
    let legal := s.bootFailed = false ∧ port < 12 ∧ size ≠ 0 ∧ size % 0x10000000 = 0 ∧ s.extents.length < 4096 ∧
      (s.extents.map fun e => e.size).sum + size ≤ 0x180000000000 ∧ 0x80000000000 ≤ base ∧ base + size ≤ 0x200000000000 ∧ base % 0x10000000 = 0 ∧
      ∀ e ∈ s.extents, base + size ≤ e.base ∨ e.base + e.size ≤ base
    (¬ legal → exec (.extentAdd port (base, size)) s = .next s) ∧
    (legal → exec (.extentAdd port (base, size)) s = .next { s with extents := s.extents ++ [{ port := port, base := base, size := size }] })) ∧
  (∀ (s : State) (idx : Nat), (s.extents[idx]? = none → exec (.extentRelease idx) s = .next s ∧ exec (.surpriseRemoval idx) s = .next s) ∧
    ∀ e : Extent, s.extents[idx]? = some e →
      (e.releasing = false → ∃ s', exec (.extentRelease idx) s = .next s' ∧ s'.extents = s.extents.set idx { e with releasing := true } ∧ s'.teams = s.teams ∧
        (∀ k < 16, ∀ b ∈ mscOf s' k, e.holds (b.1 * 256) = false) ∧ ∀ d < 8, ∀ pa, e.holds (pa / 256 * 256) = true → held (l2Of s' d) pa = none) ∧
      (e.releasing = true → extentBusy s e = true → exec (.extentRelease idx) s = .next s) ∧
      (e.releasing = true → extentBusy s e = false → ∃ s', exec (.extentRelease idx) s = .next s' ∧ s'.extents = s.extents.eraseIdx idx ∧ s'.teams = s.teams ∧
        (∀ k < 16, ∀ b ∈ mscOf s' k, e.holds (b.1 * 256) = false) ∧ ∀ d < 8, ∀ pa, e.holds (pa / 256 * 256) = true → held (l2Of s' d) pa = none) ∧
      ∃ s', exec (.surpriseRemoval idx) s = .next s' ∧ s'.extents = s.extents.set idx { e with lost := true } ∧ s'.teams = s.teams) ∧
  (∀ (s : State) (d : Int), exec (.timebaseCorrection d) s = .next { s with
    tick := if d ≤ 0 then s.tick else s.tick + d.toNat, lag := if d < 0 then (-d).toNat else 0 }) ∧
  (∀ s : State, ∃ r : DWord, (∀ i < 64, r.getLsbD i = (decide (i ≠ 28) && s.ready.getLsbD i)) ∧
    let parts := (s.launches.filter fun e => e.2.spans = true ∧ e.2.ended = false ∧ e.2.startTick = none).map fun e => e.1
    let refused := parts.foldl (fun s id => refuseLaunch (dropBands s fun _ b => b.launch == id) id) { s with ready := r }
    exec .masterLinkTimeout s = .next (requestReplacement refused) ∧ bit (requestReplacement refused).modst.toNat 0 = true)

/-! ### Launches and bands -/

/-- R50: what a team begins with. R260, R301, R303: LAUNCH_HEAD reads the descriptor of a queue's head, and refuses a launch whose descriptor is bad or that no
die can hold, and a part of a gang that spans modules while READY.THEBEL is 0 (R364). R292 to R294: BAND_PLACEMENT places one band of the queue whose turn it is, unless a saved band of a higher priority can resume.
R300: QUANTUM_EXPIRY pre-empts bands for a band that has waited past its quantum, on the first die where that suffices, and of one band that is in its way that
band. R301: GANG_START lets every band of the gang issue, or step where a debugger has asked for that. R305: STAGE_BALANCER moves one slot from a stage that drains to one that fills. R308: a faster point becomes stable, and bands that
waited for it go. R346: KERNEL_BOUNDARY leaves every L1 empty and stamps the launch. R196, R198, R202, R325: PRE_EMPTION saves, halts or stops a band that
nothing holds back, once its open Mill contexts wait for no word (R210), and RESUMPTION brings a saved one back, halted or stopped where it stood so. R205: PTRIG_FIRE; R325: LAUNCH_END_FROM_OUTSIDE.
Each is a step that does nothing where there is nothing of its kind. The team fields that no rule lists at a start are zero by the model's choice (log 2), and
the identity of a launch is its choice too (log 39). On which dies a quantum looks (log 68), what is claimed of the room it frees (log 86) and that a queue of a die
that is not READY places bands (log 64) are its readings. A scheduler's step that meets a line which the host holds, or a page that is not translated, is taken back
but for what it has asked (`attempt`; log 65, the model's choice). -/
def Obligations.SchedulingEventsComplete : Prop :=
  (∀ (s : State) (l : Launch) (stage inst core quarter crew team : Nat), let g := l.stages.getD stage {}
    g.kernel.rows ≤ 32 →
    let t := newTeam s l stage inst core quarter crew team
    t.pc = g.kernel.entry ∧ t.mode = 0 ∧ t.jpc = 0 ∧ t.stack = [] ∧ t.vEmpty = 0 ∧ t.sEmpty = 0 ∧ t.rs 1 = g.args ∧ t.rs 2 = BitVec.ofNat 64 team ∧
    t.rs 3 = BitVec.ofNat 64 crew ∧ t.rs 4 = BitVec.ofNat 64 inst ∧ (l.pipe = false → t.rs 5 = BitVec.ofNat 64 l.nbands) ∧ (∀ n, 8 ≤ n → t.rs n = 0) ∧
    (∀ r L, t.rv r L = 0) ∧ (∀ n, n ≠ 0 → t.rp n = 0) ∧ t.live = t.mask ∧ ∀ L < 1024, t.mask.getLsbD L = decide (L < 32 * g.kernel.rows)) ∧
  (∀ (s : State) (die queue : Nat), exec (.launchHead die queue) s = .next (attempt s (readHead die queue)).1 ∧
    (headOf s die queue = none → readHead die queue s = s) ∧
    ∀ id l, headOf s die queue = some (id, l) → (l.read = true → readHead die queue s = s) ∧
      (l.read = false → l.spans = true → bit s.ready.toNat 28 = false → readHead die queue s = refuseLaunch s id) ∧
      (l.read = false → l.spans = false ∨ bit s.ready.toNat 28 = true → l.pipe = false → ∀ s1 : State,
        (readKernel s l (l.packet.getD 1 0) = (s1, none) → readHead die queue s = refuseLaunch s1 id) ∧
        (∀ kd, readKernel s l (l.packet.getD 1 0) = (s1, some kd) →
          let fits := placeable s1 l kd = true ∧ (l.gang = true → gangFits s1 l (List.replicate (min l.nbands 20000) kd) [] = true)
          (¬ fits → readHead die queue s = refuseLaunch s1 id) ∧
          (fits → readHead die queue s = retune (setLaunch s1 id { l with
            read := true
            stages := [{ kernel := kd, args := l.packet.getD 2 0, maxb := l.nbands }] }) die))) ∧
      (l.read = false → l.spans = false ∨ bit s.ready.toNat 28 = true → l.pipe = true → ∀ s1 : State,
        (readStages s l = (s1, none) → readHead die queue s = refuseLaunch s1 id) ∧
        (∀ gs, readStages s l = (s1, some gs) →
          let fits := (gs.map fun g => g.minb).sum ≤ l.nbands ∧ l.nbands ≤ (gs.map fun g => g.maxb).sum ∧ (∀ g ∈ gs, placeable s1 l g.kernel = true) ∧
            (l.gang = true → gangFits s1 l (firstKernels gs (min l.nbands 20000)) [] = true)
          (¬ fits → readHead die queue s = refuseLaunch s1 id) ∧
          (fits → readHead die queue s = retune (setLaunch s1 id { l with read := true, stages := gs }) die)))) ∧
  (∀ (s : State) (id : Nat), refuseLaunch s id = launchStamp (setLaunch s id { launchOf s id with ended := true }) id true) ∧
  (∀ (s : State) (die : Nat), (serve s die = none → exec (.bandPlacement die) s = .next (noteBlocked (passTurns s die 0) die)) ∧
    ∀ (p q : Nat) (turn : Nat × Nat), serve s die = some (p, q, turn) → (resumesAbove s p = true → exec (.bandPlacement die) s = .next s) ∧
      (resumesAbove s p = false → ∃ id l g d y, headOf s die q = some (id, l) ∧ canPlace s id l = some (g, d, y) ∧
        let r := passTurns s die (p + 1)
        let s1 := { r with
          serial := r.serial + 1
          turns := setAt r.turns (8 * die + p) turn
          blocked := drop r.blocked (64 * die + q)
          claims := r.claims.filter fun c => c != id }
        let s2 := startBand s1 id l g (l.stages.getD g {}).started d y (firstRun s1 l id d) s.serial
        let s3 := setLaunch s2 id { l with favour := none, stages := l.stages.zipIdx.map fun x => if x.2 = g then { x.1 with started := x.1.started + 1 } else x.1 }
        exec (.bandPlacement die) s = .next (noteBlocked (retune (gangReady s3 id) d) die))) ∧
  (∀ (s : State) (die queue : Nat),
    (headOf s die queue = none ∨ s.blocked.lookup (64 * die + queue) = none → exec (.quantumExpiry die queue) s = .next s) ∧
    ∀ id l head since, headOf s die queue = some (id, l) → s.blocked.lookup (64 * die + queue) = some (head, since) →
      let quantum := bits (tenantOf s l.tenant).lqcfg.toNat 16 32
      let due := head = id ∧ quantum ≠ 0 ∧ 1000 * quantum < s.tick - since ∧ canPlace s id l = none ∧ nextStage s id l ≠ none ∧
        (l.gang = true → gatheringGang s l.tenant = some id)
      (¬ due → exec (.quantumExpiry die queue) s = .next s) ∧
      (due → let dies := allowedDies s l.tenant l.packet
        (∀ x, (dies.map fun d => quantumOn s id l d).find? (fun x => fitsOnceOut x id l) = some x →
          exec (.quantumExpiry die queue) s = .next { x with claims := id :: x.claims.filter fun c => c != id }) ∧
        ((∀ d ∈ dies, fitsOnceOut (quantumOn s id l d) id l = false) →
          exec (.quantumExpiry die queue) s = .next (dies.foldl (fun s d => quantumOn s id l d) s))) ∧
      (due → ∃ s', exec (.quantumExpiry die queue) s = .next s' ∧ s'.teams = s.teams ∧
        ∀ j, (bandOf s' j).run ≠ (bandOf s j).run → (bandOf s' j).run = .stopping) ∧
      (due → fitsNow s id l = false → ∀ v b, s.bands = [(v, b)] →
        b.tenant = l.tenant → b.die ∈ allowedDies s l.tenant l.packet → b.prio < l.prio → b.run = .going ∨ b.run = .gang ∨ b.run = .slowed →
        let r := beginPreempt s v 0
        let gone := { r with bands := r.bands.map fun e => if e.2.run = .stopping then (e.1, { e.2 with run := .saved }) else e }
        exec (.quantumExpiry die queue) s = .next (if fitsNow gone id l then { r with claims := id :: r.claims.filter fun c => c != id } else r))) ∧
  (∀ (s : State) (launch : Nat), ((launchOf s launch).startTick = none → exec (.gangStart launch) s = .next (gangReady s launch)) ∧
    ∀ tick, (launchOf s launch).startTick = some tick → (s.tick < tick → exec (.gangStart launch) s = .next s) ∧
      (tick ≤ s.tick → exec (.gangStart launch) s =
        .next (((s.bands.filter fun e => e.2.launch = launch ∧ e.2.run = .gang).map fun e => e.1).foldl letGo s))) ∧
  (∀ (s : State) (band : Nat), let s' := letGo s band
    s' = { s with bands := s'.bands, teams := s'.teams } ∧
      bandOf s' band = { bandOf s band with run := if ∃ e ∈ bandTeams s band, e.2.stepWanted ≠ none then .stopped else .going } ∧
      (∀ j, j ≠ band → bandOf s' j = bandOf s j) ∧
      ∀ k, s'.teams.lookup k = (s.teams.lookup k).map fun t => if bandKey k = band then { t with stepAsked := t.stepWanted } else t) ∧
  (∀ t : Team, t.stepWanted = if bit t.dbgctl.toNat 0 then some none else if bit t.dbgctl.toNat 1 then some (some (bits t.dbgctl.toNat 2 10)) else none) ∧
  (∀ (s : State) (launch : Nat) (l : Launch), launchOf s launch = l → exec (.stageBalancer launch) s = .next (attempt s (balance launch)).1 ∧
    (l.pipe = false ∨ l.read = false ∨ l.ended = true → balance launch s = s) ∧
    ∀ (s1 s2 : State) (d0 d1 : Nat) (g0 g1 : PipeStage) (b : Nat × Band), l.pipe = true → l.read = true →
      l.ended = false → l.stages = [g0, g1] → stageFill s l g0 = (s1, d0) → stageFill s1 l g1 = (s2, d1) →
      g0.minb < (stageBands s2 launch 0 false).length → (stageBands s2 launch 0 false).getLast? = some b → d0 < 32 →
      (stageBands s2 launch 1 false).length ≤ g1.minb → (stageBands s2 launch 1 false).length < g1.maxb → g1.waited = false → 128 ≤ d1 →
      g1.started < g1.maxb →
      balance launch s = beginPreempt (setLaunch s2 launch { l with
        balanced := s2.tick
        stages := [{ g0 with waited := false }, { g1 with waited := false }]
        favour := some 1 }) b.1 0) ∧
  (∀ (s : State) (die : Nat), ((dieOf s die).settling = false → exec (.operatingPointStable die) s = .next s) ∧
    ((dieOf s die).settling = true →
      ∃ s', exec (.operatingPointStable die) s = .next s' ∧ s' = { s with dies := s'.dies, bands := s'.bands } ∧
        dieOf s' die = { dieOf s die with point := min (dieOf s die).point (wantedPoint s die), settling := false } ∧
        ∀ j, (s.bands.lookup j).isSome = true → bandOf s' j =
          if (bandOf s j).die = die ∧ (bandOf s j).run = .slowed then { bandOf s j with run := .going } else bandOf s j)) ∧
  (∀ (s : State) (launch : Nat), let l := launchOf s launch
    let complete := l.read = true ∧ l.ended = false ∧ ∀ g ∈ l.stages, g.retired = g.maxb
    (¬ complete → exec (.kernelBoundary launch) s = .next s) ∧
    (complete → homesHold (boundary346 s) = false →
      exec (.kernelBoundary launch) s = .next (setLaunch (launchStamp (boundary346 s) launch false) launch { l with ended := true })) ∧
    (complete → homesHold (boundary346 s) = true → exec (.kernelBoundary launch) s = .next (boundary346 s)) ∧
    ∀ c, l1Of (boundary346 s) c = []) ∧
  (∀ (s : State) (band : Nat), (s.bands.lookup band = none → exec (.preEmption band) s = .next s) ∧
    ∀ b : Band, s.bands.lookup band = some b →
      (drained s band = false ∨ b.run ∉ [Run.stopping, .halting, .breaking] → exec (.preEmption band) s = .next s) ∧
      (drained s band = true → b.run = .stopping → (settleMills s band).2 = false → exec (.preEmption band) s = .next (settleMills s band).1) ∧
      ((∀ e ∈ bandTeams s band, e.2.mill = none) → settleMills s band = (s, true)) ∧
      (drained s band = true → b.run = .stopping → (settleMills s band).2 = true →
        ∃ s', exec (.preEmption band) s = .next s' ∧ (bandOf s' band).run = .saved ∧ ∀ k, s'.cur = some k → bandKey k ≠ band) ∧
      (drained s band = true → b.run = .halting → ∃ s', exec (.preEmption band) s = .next s' ∧ s'.teams = s.teams ∧ (bandOf s' band).run = .halted) ∧
      (drained s band = true → b.run = .breaking → ∃ s', exec (.preEmption band) s = .next s' ∧ s'.teams = s.teams ∧ (bandOf s' band).run = .stopped)) ∧
  (∀ (s : State) (band : Nat), exec (.resumption band) s = .next (attempt s (resumeBand band)).1 ∧ (s.bands.lookup band = none → resumeBand band s = s) ∧
    ∀ b : Band, s.bands.lookup band = some b →
      (mayResume s band b = false ∨ placesAbove s b.prio = true ∨ resumesAbove s b.prio = true ∨ resumeLayout s band = none → resumeBand band s = s) ∧
      ∀ groups, mayResume s band b = true → placesAbove s b.prio = false → resumesAbove s b.prio = false → resumeLayout s band = some groups →
        let r := bandOf (resumeBand band s) band
        let gang := (launchOf s b.launch).gang
        r.cores = groups.map (fun g => g.2.1) ∧ r.launch = b.launch ∧ (∀ x, b.rests = some x → x ≠ .slowed → r.run = x) ∧
          (b.rests = none → gang = true → r.run = .gang) ∧
          (b.rests = none → gang = false → (∃ e ∈ bandTeams s band, e.2.stepWanted ≠ none ∧ ∀ x ∈ s.teams, x.1 = e.1 → x = e) → r.run = .stopped) ∧
          (b.rests = none → gang = false → (∀ e ∈ bandTeams s band, e.2.stepWanted = none) → r.run = .going)) ∧
  (∀ (s : State) (band : Nat) (b : Band), s.alarm ≠ none → mayResume s band b = false) ∧
  (∀ (s : State) (id : Nat) (l : Launch), s.alarm ≠ none → canPlace s id l = none) ∧
  (∀ (s : State) (launch : Nat), (s.launches.lookup launch = none → exec (.launchEndFromOutside launch) s = .next s) ∧
    ∀ l, s.launches.lookup launch = some l → (l.ended = true → exec (.launchEndFromOutside launch) s = .next s) ∧
      (l.ended = false → ∃ s', exec (.launchEndFromOutside launch) s = .next s' ∧ (launchOf s' launch).ended = true ∧ ∀ e ∈ s'.bands, e.2.launch ≠ launch)) ∧
  (∀ (s : State) (band : Nat), (s.bands.lookup band = none → exec (.ptrigFire band) s = .next s) ∧
    ∀ b : Band, s.bands.lookup band = some b →
      let v := b.ptrig.toNat
      let named := 16 * (16 * band + bits v 36 4) + bits v 32 4
      (s.teams.lookup named = none → exec (.ptrigFire band) s = .next s) ∧
      ∀ t, s.teams.lookup named = some t → let fires := bit v 63 = true ∧ bits v 0 32 ≤ t.count ∧ b.run = .going
        (¬ fires → exec (.ptrigFire band) s = .next s) ∧
        (fires → exec (.ptrigFire band) s = .next (beginPreempt (setBand (setTeam s named { t with dbgst := 7 }) band
          { b with ptrig := b.ptrig &&& 0x7FFFFFFFFFFFFFFF }) band 1)))

/-- R203, R204: DEBUG_STEP and STEP_LANE ask a stopped team to issue, its band serves one step at a time, a lane that is not live ends the step-lane at once, and
STEP_ABORT takes the step back.
R197, R202: DEBUGGER_ATTACH marks every team of the band and pre-empts it with REASON 2. R202, R203, R325: BAND_RESUME lets a halted or stopped band go on, and
where teams of it have STEP or SLN set, those alone issue, one after another. Each does nothing where there is nothing of its kind.
That a debugger acts by these events is the model's choice (log 62). -/
def Obligations.DebuggerEventsComplete : Prop :=
  (∀ (s : State) (k L : Nat),
    (stoppedTeam s k = none → exec (.debugStep k) s = .next s ∧ exec (.stepLane k L) s = .next s ∧ exec (.stepAbort k) s = .next s) ∧
    ∀ t : Team, s.teams.lookup k = some t → (bandOf s (bandKey k)).run = .stopped →
      (bit t.dbgctl.toNat 0 = false → exec (.debugStep k) s = .next s) ∧ (bit t.dbgctl.toNat 1 = false → exec (.stepLane k L) s = .next s) ∧
      (bit t.dbgctl.toNat 0 = true → exec (.debugStep k) s = .next (serveBand (setTeam s k { t with stepAsked := some none }) (bandKey k))) ∧
      (bit t.dbgctl.toNat 1 = true → exec (.stepLane k L) s = .next (serveBand (setTeam s k { t with stepAsked := some (some L) }) (bandKey k))) ∧
      exec (.stepAbort k) s = .next (setTeam s k { t.abandon with credit := false, stepping := 0, stepLane := none, release := none })) ∧
  (∀ (s : State) (band : Nat), let ts := bandTeams s band
    ((bandOf s band).run ≠ .stopped ∨ (∃ e ∈ ts, e.2.stepping ≠ 0) ∨ (∀ e ∈ ts, e.2.stepAsked = none) → serveBand s band = s) ∧
    ∀ (k : Nat) (t : Team) (r : Option Nat) (before after : NMap Team), (bandOf s band).run = .stopped → ts = before ++ (k, t) :: after →
      (∀ e ∈ ts, e.2.stepping = 0) → (∀ e ∈ before, e.2.stepAsked = none) → t.stepAsked = some r → s.teams.lookup k = some t →
      (r = none → serveBand s band =
        { setTeam s k { t with stepAsked := none, credit := true, stepping := 1, stepLane := none } with cur := some k }) ∧
      (∀ L, r = some L → serveBand s band = if bit t.live.toNat L
        then { setTeam s k { t with stepAsked := none, credit := true, stepping := 2, stepLane := some L } with cur := some k }
        else setTeam s k { t with stepAsked := none, dbgst := 3 })) ∧
  (∀ (s : State) (band : Nat), (s.bands.lookup band = none → exec (.debuggerAttach band) s = .next s ∧ exec (.bandResume band) s = .next s) ∧
    ∀ b : Band, s.bands.lookup band = some b →
      (∃ s', exec (.debuggerAttach band) s = .next s' ∧ (bandOf s' band).attached = true ∧ (b.run ≠ .going → (bandOf s' band).run = b.run) ∧
        (b.run = .going → (bandOf s' band).run = .stopping ∧ (bandOf s' band).reason = 2) ∧
        ∀ k, s'.teams.lookup k = (s.teams.lookup k).map fun t => if bandKey k = band then { t with dbgctl := t.dbgctl ||| 0x4000 } else t) ∧
      ((b.run ≠ .halted ∧ b.run ≠ .stopped) ∨ (dieOf s b.die).off = true ∨ s.alarm ≠ none → exec (.bandResume band) s = .next s) ∧
      (b.run = .halted ∨ b.run = .stopped → (dieOf s b.die).off = false → s.alarm = none →
        exec (.bandResume band) s = .next (serveBand (letGo s band) band) ∧
        ((∀ e ∈ bandTeams s band, e.2.stepWanted = none) → (bandOf (serveBand (letGo s band) band) band).run = .going)))

/-! ### Engines -/

/-- R250: a stamp takes a SEQ that is ahead of it and keeps itself where it is not, and ERR stays once it is set.
R249, R254, R274: COPY_PACKET_START takes the packet at RIDX; one whose checks fail fails with their cause, another starts. R239, R252, R253: COPY_READ moves
the words of the next superblock, and a reduction stages them and then applies its elements one by one; MERGE_WINDOW_CLOSE ends a group. R241: COPY_COMPLETE
queues the chained command and stamps each destination crew and, when all are done, the packet's own stamp and node.
R257 to R259, R331: COLLECTIVE_MATCH starts the exchange once every rank's packet is there and they agree, and fails a participant with a bad descriptor;
COLLECTIVE_COMPLETE writes the words of a rank's RECV that its engine has, for an allgather every SEND in rank order, for a broadcast the root's, and for a
reduction the combination of every rank's in rank order, and once all are written and its own SEND is delivered its stamp and node; a rank that fails alone has
its SEND go on taking part (R259). R254: a copy whose page is asked of the host is abandoned at each request, and goes on once that is answered.
Each is a step that does nothing where there is nothing of its kind. That an exchange of ranks on one module alone is matched is the model's scope (log 36).
An act that meets a line which the host holds, or a page that is not translated, is taken back but for what it has asked (`attempt`; log 65, the model's
choice). That a copy lands in ascending order (log 35) and that RECV is written in ascending order (log 92) are its readings, and that the destination crews of a
packet are fixed at its append (log 98). -/
def Obligations.EngineEventsComplete : Prop :=
  (∀ (old seq : DWord) (err : Bool), let o := old.toNat % 2 ^ 63
    let q := seq.toNat % 2 ^ 63
    (stampValue old seq err).toNat % 2 ^ 63 = (if (o + 2 ^ 63 - q) % 2 ^ 63 < 2 ^ 62 then o else q) ∧
      bit (stampValue old seq err).toNat 63 = (bit old.toNat 63 || err)) ∧
  (∀ (s : State) (f : State → State), let r := f { s with late := false }
    (r.late = false → attempt s f = (r, true)) ∧
    (r.late = true → ∃ s', attempt s f = (s', false) ∧ s' = { s with asks := s'.asks, ats := s'.ats, walks := s'.walks } ∧ ∀ a ∈ s.asks, a ∈ s'.asks)) ∧
  (∀ (s : State) (a b : Nat), exec (.copyPacketStart a b) s = .next (attempt s (takePacket a b)).1 ∧
    exec (.copyRead a) s = .next (attempt s (moveCopy a)).1 ∧ exec (.copyComplete a b) s = .next (attempt s (completeCopy a b)).1 ∧
    exec (.collectiveMatch a) s = .next (attempt s (matchPart a)).1 ∧ exec (.collectiveComplete a b) s = .next (attempt s (completePart a b)).1) ∧
  (∀ (s : State) (die queue : Nat), (s.queues.lookup queue = none → takePacket die queue s = s) ∧
    ∀ q : CopyQueue, s.queues.lookup queue = some q → (q.die ≠ die ∨ bit s.ready.toNat 24 = false → takePacket die queue s = s) ∧
      (q.die = die → bit s.ready.toNat 24 = true →
        (∀ s1, walkerPlaces s die q.tenant q.va = (s1, none) → takePacket die queue s = s1) ∧
        ∀ (s1 s2 : State) (hw : List (Nat × Nat)) (d : Datum) (h : Header), walkerPlaces s die q.tenant q.va = (s1, some hw) →
          readHeader (ringDoors s1 (144 * die) q.tenant hw 65536) (144 * die) q.tenant hw = (s2, d, h) →
          (d.cause ≠ 0 ∨ h.door ≤ h.ridx ∨ h.log2n < 4 ∨ 16 < h.log2n → takePacket die queue s = s2) ∧
          (d.cause = 0 → h.ridx < h.door → 4 ≤ h.log2n → h.log2n ≤ 16 →
            (∀ s3, walkerPacket s2 die q.tenant (slotVa q.va h h.ridx) = (s3, none) → takePacket die queue s = s3) ∧
            ∀ s3 ws, walkerPacket s2 die q.tenant (slotVa q.va h h.ridx) = (s3, some ws) →
              let pa := (hw.getD 0 (0, 0)).1
              let append := s3.appends.find? fun a => a.queue == pa && a.index == h.ridx
              let team := append.bind fun a => a.team
              let c : Copy := { uid := s3.serial, queue := queue, slot := h.ridx, die := die, tenant := q.tenant, team := team, packet := ws,
                                dests := (append.map fun a => a.dests).getD [] }
              let s4 := setHeader s3 (144 * die) h 4 (h.ridx + 1)
              let s5 := { s4 with serial := s4.serial + 1, appends := s4.appends.filter fun a => !(a.queue == pa && a.index == h.ridx) }
              let started := if packetKind ws = 4 then startPart s5 c else startCopy s5 c
              (∀ f, startCheck s3 team ws = some f →
                takePacket die queue s = failPacket s5 c f (!(packetSpst ws && team.isNone))) ∧
              (startCheck s3 team ws = none → packetSpst ws = true → takePacket die queue s = started) ∧
              (startCheck s3 team ws = none → packetSpst ws = false → let stamp := engineAt s3 die q.tenant team 8 (ws.getD 4 0) .write
                (∀ f, stamp = .fault f → takePacket die queue s = failPacket s5 c f false) ∧ (∀ p, stamp = .go p → takePacket die queue s = started) ∧
                ∀ va, stamp = .wait va → (takePacket die queue s).late = true)))) ∧
  (∀ (s : State) (idx : Nat), (s.copies[idx]? = none → moveCopy idx s = s) ∧ ∀ c : Copy, s.copies[idx]? = some c →
    let size := typeBytes (bits (pw c.packet 3) 40 4)
    let n := min (c.words - c.next) (64 - (pw c.packet 1 / 4 + c.next) % 64)
    let waits := ∃ g, c.paused = some g ∧ pageAsked s c.tenant g = true
    let c0 := { c with paused := none }
    (waits → moveCopy idx s = s) ∧
    (¬ waits → packetKind c.packet = 1 → c.desc = [] → moveCopy idx s = startCopy { s with copies := s.copies.filter fun x => x.uid != c.uid } c0) ∧
    (¬ waits → packetKind c.packet ≠ 3 → (packetKind c.packet = 1 → c.desc ≠ []) →
      (c.words ≤ c.next → moveCopy idx s = s) ∧
      (c.next < c.words → ∀ s1 ws c1 e s2 f, moveWords s c0 n [] = (s1, ws, c1, e) → sendCopyWords s1 c1 ws = (s2, f) →
        moveCopy idx s = stopCopy s2 { c1 with flying := c1.flying + f } e)) ∧
    (¬ waits → packetKind c.packet = 3 →
      (c.next < c.words → ∀ s1 ws i e, stageWords s c0 n c.next [] = (s1, ws, i, e) →
        moveCopy idx s = stopCopy s1 { c0 with staged := c.staged ++ ws, next := i } e) ∧
      (c.words ≤ c.next → 4 * c.words ≤ c.applied * size → moveCopy idx s = s) ∧
      (c.words ≤ c.next → c.applied * size < 4 * c.words → ∀ s1 e, applyElem s c0 = (s1, e) →
        moveCopy idx s = if e.isSome then stopCopy s1 c0 e else setCopy s1 { c0 with applied := c.applied + 1 }))) ∧
  (∀ (s : State) (c : Copy) (i : Nat) (w : Word), (c.packet.getD 2 0).toNat % 4 = 0 →
    landMemory s c i w = landWord s c (c.packet.getD 2 0 + BitVec.ofNat 64 (4 * i)) w) ∧
  (∀ (s : State) (k : Nat) (ws : List DWord), startCheck s (some k) ws = if 4 < packetKind ws then some cILLOP else none) ∧
  (∀ (s : State) (c : Copy), stopCopy s c none = setCopy s c ∧ stopCopy s c (some .host) = setCopy s c ∧
    (∀ f, stopCopy s c (some (.fail f)) = failPacket s c f true) ∧
    ∀ va, let asked := ∃ a ∈ s.ats, a.tenant = c.tenant ∧ a.page = va / 65536 ∧ a.asked = true
      (asked → stopCopy s c (some (.page va)) = abandonCopy s { c with paused := some (va / 65536) } cXLATE) ∧
      (¬ asked → stopCopy s c (some (.page va)) = setCopy s c)) ∧
  (∀ (s : State) (die idx : Nat), ((s.groups.filter fun g => g.die == die)[idx]? = none → exec (.mergeWindowClose die idx) s = .next s) ∧
    ∀ g : Group, (s.groups.filter fun g => g.die == die)[idx]? = some g → exec (.mergeWindowClose die idx) s = .next { s with groups := s.groups.erase g }) ∧
  (∀ (s : State) (idx dest : Nat), (s.copies[idx]? = none → completeCopy idx dest s = s) ∧ ∀ c : Copy, s.copies[idx]? = some c →
    (c.landed = false → completeCopy idx dest s = s) ∧
    (c.landed = true →
      let after := fun (r : State) (c : Copy) => if ∀ x ∈ c.dests, x ∈ c.done then endCopy r c else setCopy r c
      (c.dests[dest]? = none → completeCopy idx dest s = if ∀ x ∈ c.dests, x ∈ c.done then endCopy s c else s) ∧
      ∀ d, c.dests[dest]? = some d → (d ∈ c.done → completeCopy idx dest s = s) ∧
        (d ∉ c.done → let c1 := { c with done := c.done ++ [d] }
          (s.crews.lookup d = none → completeCopy idx dest s = after s c1) ∧
          (s.crews.lookup d ≠ none → (chainGood s c.packet [d] = false → completeCopy idx dest s = failPacket s c cBOUNDS true) ∧
            (chainGood s c.packet [d] = true → let queued := if packetChain c.packet then queueChain s d c.packet else some s
              (queued = none → completeCopy idx dest s = s) ∧
              ∀ r, queued = some r → completeCopy idx dest s = after (if packetSpst c.packet then crewStamp r c.packet d false else r) c1))))) ∧
  (∀ (s : State) (c : Copy), endCopy s c =
    let r := if packetSpst c.packet then follow s (packetNode c.die c.tenant c.packet false) else engineStamp s c.die c.tenant c.team c.packet false
    { r with copies := r.copies.filter fun x => x.uid != c.uid }) ∧
  (∀ (s : State) (idx : Nat), (s.parts[idx]? = none → matchPart idx s = s) ∧ ∀ p : Machine.Part, s.parts[idx]? = some p →
    (p.exchange ≠ none → matchPart idx s = s) ∧
    (p.exchange = none →
      (p.bad ≠ 0 → matchPart idx s = failPart { s with collFailed := s.collFailed ++ [(p.gid, p.turn)] } p p.bad) ∧
      (p.bad = 0 → (p.gid, p.turn) ∈ s.collFailed → matchPart idx s = failPart s p cBOUNDS) ∧
      (p.bad = 0 → (p.gid, p.turn) ∉ s.collFailed →
        let agree := (∀ q ∈ matched s p, q.key = p.key ∧ q.n = p.n) ∧ (p.kind = 1 ∨ p.kind = 2 → p.root < p.n)
        ((matched s p).length ≠ p.n → matchPart idx s = s) ∧
        ((matched s p).length = p.n → ¬ agree → matchPart idx s = (matched s p).foldl (fun s q => failPart s q cBOUNDS) s) ∧
        ((matched s p).length = p.n → agree → matchPart idx s = startExchange s (matched s p) { uid := s.serial })))) ∧
  (∀ (s : State) (idx rank : Nat), (s.exchanges[idx]? = none → completePart idx rank s = s) ∧ ∀ e : Exchange, s.exchanges[idx]? = some e →
    let mine := s.parts.find? fun p => p.exchange == some e.uid && p.rank == rank
    (mine = none → completePart idx rank s = s) ∧
    ∀ p : Machine.Part, mine = some p →
      (e.again = true → completePart idx rank s = startExchange s (matched s p) e) ∧
      (e.again = false → p.failed = true → completePart idx rank s = s) ∧
      (e.again = false → p.failed = false → sendCause e p ≠ 0 → completePart idx rank s =
        if p.done then s else endExchange (failRank s p (sendCause e p)) e.uid) ∧
      (e.again = false → p.failed = false → sendCause e p = 0 → ∀ s1 i r, writeRecv s e p (recvLen p - p.next) p.next = (s1, i, r) →
        let p1 := { p with next := i }
        (∀ f, r = some (.fail f) → completePart idx rank s = if p.done then setPart s1 p1 else endExchange (failRank s1 p f) e.uid) ∧
        (r ≠ none → (∀ f, r ≠ some (.fail f)) → completePart idx rank s = setPart s1 p1) ∧
        (r = none → (p.done = true ∨ i < recvLen p ∨ ∃ f ∈ e.flying, f.1 = rank) → completePart idx rank s = setPart s1 p1) ∧
        (r = none → p.done = false → recvLen p ≤ i → (∀ f ∈ e.flying, f.1 ≠ rank) → completePart idx rank s =
          let s2 := if packetSpst p.packet then
              follow ((partDests s1 p).foldl (fun s d => crewStamp s p.packet d false) s1) (packetNode p.die p.tenant p.packet false)
            else engineStamp s1 p.die p.tenant p.team p.packet false
          endExchange (setPart s2 { p1 with done := true }) e.uid))) ∧
  (∀ (s : State) (p : Machine.Part) (f : Nat),
    failRank s p f = setPart (failPacket s (p.copy (partDests s p)) f true) { p with failed := true, done := true }) ∧
  (∀ (e : Exchange) (p : Machine.Part) (i : Nat),
    (p.kind = 3 → 0 < p.words → recvWord e p i = e.word p.rank (i / p.words) (i % p.words)) ∧ (p.kind = 2 → recvWord e p i = e.word p.rank p.root i) ∧
    (∀ src, e.dies.getD src 0 = e.dies.getD p.rank 0 → e.word p.rank src i = (e.data.getD src [])[i]?) ∧
    (p.kind ≠ 2 → p.kind ≠ 3 → p.op = 0 → p.type ≤ 1 → ∀ x : Nat → Word, 0 < p.n → (∀ r < p.n, e.word p.rank r i = some (x r)) →
      recvWord e p i = some ((List.range p.n).foldl (fun a r => a + x r) 0)))

/-! ### The platform -/

/-- R391, R392: SECURITY_ALARM takes the action of its source: it logs, or stops every band, and once all have halted or been saved ends every launch, and
erases the keys as well where the action says so. R398: the power, current and
thermal limits move the points and halve the clocks; THERMAL_SHUTDOWN stops every band as `halt` does and turns the rails off. R393: MODULE_RESET starts the machine
afresh, with what the fuses and the Kiln keep, and verifies the images: the digest of the key, the signature under it and the security version. R312, R395:
FUNCTION_READY sets a bit of READY, and a stack then holds zero; one that fails leaves no DRAM service and requests replacement. R400: FIRMWARE_UPDATE.
The class code 21, the way the points rise again and what a reset keeps are the model's choice and readings (logs 44, 49 and 50), and that a shutdown clears
every DIE bit of READY and a failed stack the service of every stack is log 70 (DEDUCED). -/
def Obligations.PlatformEventsComplete : Prop :=
  (∀ (s : State) (source : Nat), 2 < source → exec (.securityAlarm source) s = .next s) ∧
  (∀ (s : State) (source : Nat), source ≤ 2 → let action := bits s.almpol.toNat (2 * source) 2
    (action = 0 → exec (.securityAlarm source) s = .next { s with ras := ({ tick := s.tick, cls := 21, unit := source } :: s.ras).take 4096 }) ∧
    (action ≠ 0 → ∃ s1 : State, exec (.securityAlarm source) s = .next (finishAlarm s1) ∧ s1.alarm = some (max action (s.alarm.getD 0)) ∧
      bit s1.modst.toNat 1 = true ∧ s1.launches = s.launches ∧ ∀ j b, s1.bands.lookup j = some b → b.run ∈ [Run.halted, .halting, .saved, .stopping])) ∧
  (∀ s : State, (s.alarm = none ∨ (∃ e ∈ s.bands, e.2.run ≠ .halted ∧ e.2.run ≠ .saved) → finishAlarm s = s) ∧
    ∀ a, s.alarm = some a → (∀ e ∈ s.bands, e.2.run = .halted ∨ e.2.run = .saved) → (finishAlarm s).alarm = none ∧
      (∀ e ∈ s.launches, e.1 ≤ s.serial → (launchOf (finishAlarm s) e.1).ended = true) ∧
      (2 ≤ a → ∀ j, (tenantOf (finishAlarm s) j).keyed = false ∧ (tenantOf (finishAlarm s) j).key1 = 0 ∧ (tenantOf (finishAlarm s) j).key2 = 0)) ∧
  (∀ (s : State) (above : Bool), ∃ s', exec (.powerLimitStep above) s = .next s' ∧
    s' = { s with powerPoint := s'.powerPoint, heatPoint := s'.heatPoint, modst := s'.modst, dies := s'.dies, bands := s'.bands } ∧
    s'.powerPoint = (if above then min 6 (s.powerPoint + 1) else s.powerPoint - 1) ∧
    s'.heatPoint = (if above = false ∧ s.powerPoint = 0 then s.heatPoint - 1 else s.heatPoint) ∧
    bit s'.modst.toNat 2 = decide (0 < s'.powerPoint) ∧ bit s'.modst.toNat 3 = decide (0 < s'.heatPoint)) ∧
  (∀ (s : State) (die : Nat),
    exec (.currentLimit die) s = .next { s with dies := setAt s.dies die { dieOf s die with halved := true } } ∧
    exec (.currentRestore die) s = .next { s with dies := setAt s.dies die { dieOf s die with halved := false } } ∧
    (7 < die → exec (.thermalLimit die) s = .next s) ∧
    (die ≤ 7 → ∃ s', exec (.thermalLimit die) s = .next s' ∧ s' = { s with heatPoint := s'.heatPoint, modst := s'.modst, dies := s'.dies, bands := s'.bands } ∧
      s'.heatPoint = min 6 (s.heatPoint + 1) ∧ bit s'.modst.toNat 3 = true)) ∧
  (∀ s : State, ∃ s', exec .thermalShutdown s = .next s' ∧ (∀ i < 8, bit s'.ready.toNat i = false ∧ (dieOf s' i).off = true) ∧
    ∀ j b, s'.bands.lookup j = some b → b.run ∈ [Run.halted, .halting, .saved]) ∧
  (∀ s : State, let good := (2 * s.firmware :: (List.range 8).map fun d => 2 * d + 1).all (imageGood s)
    ∃ h m, m.length = 8 ∧ exec .moduleReset s = .next { State.reset with
      agenda := s.agenda
      fresh := s.fresh
      firmware := s.firmware
      secver := s.secver
      moduleNo := s.moduleNo
      hmap := h
      verified := good
      bootFailed := !good
      measures := m }) ∧
  (∀ (s : State) (n : Nat) (passed : Bool), (s.verified = false ∨ 29 < n → exec (.functionReady n passed) s = .next s) ∧
    (s.verified = true → n ≤ 29 →
      exec (.functionReady n false) s = .next (if 8 ≤ n ∧ n ≤ 23 then requestReplacement { s with dramOff := true } else s))) ∧
  (∀ (s : State) (n : Nat), imageGood s n = true ↔ Config.sha384 (leBytes (Config.imageKey n).toNat 96) = Config.fusedKeyDigest ∧
    Config.ecdsaVerify (Config.imageKey n) (Config.imageDigest n) (Config.imageSignature n) = true ∧ s.secver ≤ Config.imageVersion n) ∧
  (∀ (s : State) (pa : Nat), region pa = .dram → s.dramOff = true → retiredAt s pa = true) ∧
  (∀ (s : State) (n : Nat), s.verified = true → n ≤ 29 → ∃ s', exec (.functionReady n true) s = .next s' ∧
    (∀ i < 64, bit s'.ready.toNat i = (decide (i = n) || bit s.ready.toNat i)) ∧
    (8 ≤ n → n ≤ 23 → bit s.ready.toNat n = false → (dram s' (n - 8)).deltas = []) ∧
    ∀ pa, pa % 4 = 0 → wordAt s'.mem pa = if 8 ≤ n ∧ n ≤ 23 ∧ bit s.ready.toNat n = false ∧ region pa = .dram ∧ stackNo pa = n - 8 then 0 else wordAt s.mem pa) ∧
  (∀ (s : State) (image : Nat), exec (.firmwareUpdate image) s = .next { s with firmware := image })

/-- R150, R384, R385: the counters, the log and the error records answer with their values, and a cleared counter reads zero. R387, R390: a tenant that is created takes the
lowest free number and a key slot with keys, and one that is destroyed leaves no translation behind; a tenant with launches is busy. R348, R351: the home
attribute of a frame. R146: a format window is enabled, or refused with ERR, and a disabled one leaves no word of its view in an L2. R399, R400:
PWRCAP is held to its range, and the other registers take their bits; a command that meets a state in use answers busy, and so does each while one still waits
for the host. R325, R363: how a band stands and the lost messages can be read. R393: after a failed verification none of them does anything. R394: the report begins with the nonce.
The numbers of units and registers are the model's choice (logs 45, 46 and 88), and that a command waits for the host's lines (log 52), the translations dropped
with a tenant (log 51) and when the table at L2PB is written (log 87) its readings. -/
def Obligations.ManagementCommandsComplete : Prop :=
  (∀ s : State, s.bootFailed = true → ∀ (n m : Nat) (v : DWord) (a : BitVec 2),
    (∀ i ∈ [Instr.counterRead n, .counterClear n, .rasLogRead, .errorRecordRead n, .tenantCreate n, .tenantDestroy n, .fattrWrite n a, .formatWindowEnable n,
      .formatWindowDisable n, .managementRegisterWrite n v, .attestationReport n m], exec i s = .next s)) ∧
  (∀ s : State, s.bootFailed = false → s.command ≠ none → ∀ (n m : Nat) (v : DWord) (a : BitVec 2),
    (∀ i ∈ [Instr.counterRead n, .counterClear n, .rasLogRead, .errorRecordRead n, .tenantCreate n, .tenantDestroy n, .fattrWrite n a, .formatWindowEnable n,
      .formatWindowDisable n, .managementRegisterWrite n v, .attestationReport n m], exec i s = .next { s with replies := [BitVec.allOnes 64] })) ∧
  (∀ s : State, (s.command = none → finishCommand s = s) ∧
    (∀ f, s.command = some (.leaveHc f) → finishCommand s =
      if heldLines s f = [] then { s with fattr := putAt 1 s.fattr f 1, command := none } else recallLines s (heldLines s f)) ∧
    (∀ t, s.command = some (.table t) → let r := attempt s fun s => writeL2p s t
      finishCommand s = if r.2 then { r.1 with command := none } else r.1) ∧
    (∀ i pa, s.command = some (.launch i pa) → let done := { s with command := none }
      (64 ≤ (queued s (i / 64 % 8) (i % 4) (i / 4 % 16)).length → finishCommand s = busy done) ∧
      ((queued s (i / 64 % 8) (i % 4) (i / 4 % 16)).length < 64 →
        ((∀ a ∈ lineWords pa, readableNow s a = true) → finishCommand s = hostLaunch done i pa) ∧
        ((∃ a ∈ lineWords pa, readableNow s a = false) → finishCommand s = (lineWords pa).foldl (fun s a => askHost s a false) s))) ∧
    (∀ k, s.command = some (.deep k) → finishCommand s =
      if deepLines s k = [] then deepRetire { s with command := none } k else recallLines s (deepLines s k))) ∧
  (∀ (s s1 : State) (i pa : Nat) (ds : List Datum), readLine s pa = (s1, ds) →
    let s2 := ((lineWords pa).zip ds).foldl (fun s d => consume s d.1 d.2) s1
    let ws := (List.range 8).map fun j => (joinData (ds.getD (2 * j) .poison) (ds.getD (2 * j + 1) .poison)).2
    let bad := (∃ d ∈ ds, d.cause ≠ 0) ∨ launchIllop ws = true ∨ launchCheck ws ≠ none
    (bad → hostLaunch s i pa = busy s) ∧
    ∀ s3, ¬ bad → appendLaunch s2 (i / 64 % 8) (i % 4) (i / 4 % 16) (bit i 9) ws = some s3 →
      hostLaunch s i pa = setLaunch s3 s3.serial { launchOf s3 s3.serial with spans := bit i 10 }) ∧
  ∀ s : State, s.bootFailed = false → s.command = none → let q : State := { s with replies := [] }
    let refused : State := { s with replies := [BitVec.allOnes 64] }
    (∀ unit, exec (.counterRead unit) s = .next { s with replies := counterWords s unit } ∧ (300000 ≤ unit → exec (.counterClear unit) s = .next q) ∧
      (100000 ≤ unit → unit < 300000 → ∃ s', exec (.counterClear unit) s = .next s' ∧ s' = { s with drams := s'.drams, replies := [] } ∧
        ∀ k c, let key := 8 * ((unit - 100000) % 512) + c
          c < 8 → look 0 (dram s' k).counts key = if k = (unit - 100000) / 512 then 0 else look 0 (dram s k).counts key)) ∧
    (∀ unit, unit < 100000 →
      exec (.counterRead unit) s = .next { s with replies := (List.range 21).map fun c => BitVec.ofNat 64 (look 0 s.counters (64 * unit + c)) } ∧
      ∃ s', exec (.counterClear unit) s = .next s' ∧ s' = { s with counters := s'.counters, replies := [] } ∧
        ∀ u c, c < 64 → look 0 s'.counters (64 * u + c) = if u = unit then 0 else look 0 s.counters (64 * u + c)) ∧
    (∀ band < 99999, counterWords s (300000 + band) = [BitVec.ofNat 64 (((s.bands.lookup band).map fun b => b.run.code).getD 0)]) ∧ Run.halted.code = 3 ∧
    (∀ r : Run, r ≠ .halted → r.code ≠ 3) ∧ counterWords s 399999 = s.losses.flatMap Loss.words ∧
    (∀ f, counterWords s (500000 + f) = [(look 1 s.fattr f).setWidth 64]) ∧
    exec .rasLogRead s = .next { s with replies := s.ras.flatMap Ras.words } ∧
    (∀ launch, exec (.errorRecordRead launch) s = .next { s with replies := ((s.errors.lookup launch).map ErrRec.words).getD [] }) ∧
    (∀ root, (∀ t, t < 16 → (tenantOf s t).created = false → (∀ j < t, (tenantOf s j).created = true) →
        ∃ s', exec (.tenantCreate root) s = .next s' ∧ s'.replies = [BitVec.ofNat 64 t] ∧ (tenantOf s' t).created = true ∧ (tenantOf s' t).pageRoot = root ∧
          (tenantOf s' t).keyed = true ∧ (tenantOf s' t).keyGen = (tenantOf s t).keyGen + 1 ∧ ∀ j, j ≠ t → tenantOf s' j = tenantOf s j) ∧
      ((∀ j < 16, (tenantOf s j).created = true) → exec (.tenantCreate root) s = .next { s with replies := [BitVec.allOnes 64] })) ∧
    (∀ t, (tenantBusy s t = true → exec (.tenantDestroy t) s = .next { s with replies := [BitVec.allOnes 64] }) ∧
      (tenantBusy s t = false → ∃ s', exec (.tenantDestroy t) s = .next s' ∧ (tenantOf s' t).created = false ∧ (tenantOf s' t).keyed = false ∧
        (∀ c, ∀ x ∈ tlbOf s' c, x.tenant ≠ t) ∧ ∀ j, j ≠ t → tenantOf s' j = tenantOf s j)) ∧
    (∀ frame (value : BitVec 2), (2 ≤ value.toNat → exec (.fattrWrite frame value) s = .next q) ∧
      (value = 1 → heldLines s frame ≠ [] → ∃ s', exec (.fattrWrite frame value) s = .next s' ∧
        s' = { q with asks := s'.asks, command := some (.leaveHc frame) } ∧
        ∀ l ∈ heldLines s frame, ∃ a ∈ s'.asks, a.line = l)) ∧
    (∀ frame (value : BitVec 2), value.toNat < 2 → (value = 0 ∨ heldLines s frame = []) →
      ∃ s', exec (.fattrWrite frame value) s = .next s' ∧ s' = { s with fattr := s'.fattr, replies := [] } ∧
        ∀ f, look 1 s'.fattr f = if f = frame then value else look 1 s.fattr f) ∧
    (∀ n, (16 ≤ n → exec (.formatWindowEnable n) s = .next q) ∧
      (n < 16 → bit (windowOf s n).ctl.toNat 0 = true → exec (.formatWindowEnable n) s = .next refused) ∧
      (bit (windowOf s n).ctl.toNat 0 = false → exec (.formatWindowDisable n) s = .next q)) ∧
    (∀ n, n < 16 → bit (windowOf s n).ctl.toNat 0 = false →
      let bad := (windowOf s n).refused (((s.windows.filter fun e => e.1 != n).map fun e => e.2).filter fun o => bit o.ctl.toNat 0)
      ∃ s', exec (.formatWindowEnable n) s = .next s' ∧ s' = { s with windows := s'.windows, replies := [] } ∧
        bit (windowOf s' n).ctl.toNat 0 = !bad ∧ bit (windowOf s' n).ctl.toNat 1 = bad ∧ ∀ j, j ≠ n → windowOf s' j = windowOf s j) ∧
    (∀ n, bit (windowOf s n).ctl.toNat 0 = true → let v := (windowOf s n).ranges.getD 2 (0, 0)
      ∃ s', exec (.formatWindowDisable n) s = .next s' ∧ bit (windowOf s' n).ctl.toNat 0 = false ∧
        ∀ d pa, pa % 4 = 0 → v.1 ≤ pa → pa < v.1 + v.2 → held (l2Of s' d) pa = none) ∧
    (∀ x : DWord, (∃ p : DWord, exec (.managementRegisterWrite 0 x) s = .next { s with pwrcap := p, replies := [] } ∧ 1000 ≤ bits p.toNat 0 14 ∧
        bits p.toNat 0 14 ≤ 15000 ∧ 1 ≤ bits p.toNat 16 8 ∧ bits p.toNat 14 2 = 0 ∧ bits p.toNat 24 40 = 0) ∧
      exec (.managementRegisterWrite 2 x) s = .next { s with ready := s.ready &&& ~~~x, replies := [] } ∧
      exec (.managementRegisterWrite 1 x) s = .next { q with spareAt := min s.spareAt x.toNat } ∧
      (∀ i, 3 ≤ i → i < 65536 → exec (.managementRegisterWrite i x) s = .next q) ∧
      (∀ i < 65536, exec (.managementRegisterWrite (655360 + i) x) s = .next (if i < 64 then writeWindow q (i / 4) (i % 4) x else q) ∧
        exec (.managementRegisterWrite (720896 + i) x) s = .next { q with
          queues := if x = 0 then drop s.queues (i / 128) else setAt s.queues (i / 128) { tenant := i % 16, die := i / 16 % 8, va := x } } ∧
        exec (.managementRegisterWrite (786432 + i) x) s = .next { q with saveAreas := setAt s.saveAreas i x.toNat } ∧
        exec (.managementRegisterWrite (851968 + i) x) s = .next (beginCommand q (.launch i x.toNat)) ∧
        exec (.managementRegisterWrite (917504 + i) x) s = .next q ∧ exec (.managementRegisterWrite (983040 + i) x) s = .next q) ∧
      (∀ k, (s.teams.lookup k = none ∨ (bandOf s (bandKey k)).attached = false → exec (.managementRegisterWrite (1048576 + k) x) s = .next q) ∧
        ∀ t, s.teams.lookup k = some t → (bandOf s (bandKey k)).attached = true →
          exec (.managementRegisterWrite (1048576 + k) x) s = .next (setTeam q k { t with dbgctl := x &&& 0x7FFF })) ∧
      (∀ t < 65536, ∀ c, 1 ≤ c → c ≤ 9 → exec (.managementRegisterWrite (65536 * c + t) x) s = .next (writeTenant q t c x)) ∧
      (∀ (r : State) (n : Nat), (bit (windowOf r n).ctl.toNat 0 = true → writeWindow r n 0 x = busy r ∧ ∀ i, i ≠ 0 → writeWindow r n i x = r) ∧
        (bit (windowOf r n).ctl.toNat 0 = false → let base : DWord := BitVec.ofNat 64 (bits x.toNat 12 40 * 4096)
          writeWindow r n 1 x = setWindow r n { windowOf r n with sto := base } ∧ writeWindow r n 2 x = setWindow r n { windowOf r n with scl := base } ∧
          writeWindow r n 3 x = setWindow r n { windowOf r n with view := base } ∧ (windowOf (writeWindow r n 0 x) n).sto = (windowOf r n).sto)) ∧
      (∀ (r : State) (c : Command), beginCommand r c = finishCommand { r with command := some c }) ∧
      (∀ (r : State) (t : Nat), 16 ≤ t → ∀ c, writeTenant r t c x = r) ∧
      (∀ (r : State) (t : Nat), t < 16 → let old := tenantOf r t
        writeTenant r t 1 x = setTenant r t { old with lqcfg := x &&& 0xFFFFFFFFFFFF } ∧ writeTenant r t 3 x = setTenant r t { old with tvec := x &&& ~~~3 } ∧
        writeTenant r t 4 x = setTenant r t { old with frecb := x &&& ~~~15 } ∧ writeTenant r t 9 x = setTenant r t { old with vectors := old.vectors &&& ~~~x } ∧
        (tenantBusy r t = true → ∀ c ∈ [2, 5, 6, 7, 8], writeTenant r t c x = busy r) ∧
        (tenantBusy r t = false → writeTenant r t 2 x = setTenant r t { old with pageRoot := x.toNat } ∧
          writeTenant r t 6 x = setTenant r t { old with hostManaged := bit x.toNat 0 } ∧ writeTenant r t 8 x = newKey r t ∧
          writeTenant r t 5 x = beginCommand (setTenant r t { old with l2pb := x &&& ~~~63 }) (.table t) ∧
          let given := giveQuad r t (bits x.toNat 0 3) (bits x.toNat 8 8)
          writeTenant r t 7 x = if old.l2pb = 0 then given else beginCommand given (.table t))) ∧
      ∀ t < 16, ∃ s', exec (.managementRegisterWrite (65536 + t) x) s = .next s' ∧ tenantOf s' t = { tenantOf s t with lqcfg := x &&& 0xFFFFFFFFFFFF } ∧
        ∀ j, j ≠ t → tenantOf s' j = tenantOf s j) ∧
    (∀ tenant nonce, ∃ ws, exec (.attestationReport tenant nonce) s = .next { s with replies := ws } ∧ ws.length = 67 ∧
      ∀ i < 4, ws.getD i 0 = BitVec.ofNat 64 (nonce / 2 ^ (64 * i)))

/-! ### The machine as a whole -/

/-- R312, R320, R384, R386, R391, R399: the machine right after reset. READY reads zero, CRATE0 to CRATE7 have their KMAX, M and REPAIR and every path, ALMPOL is 22, the
spare-in threshold 1,024, PWRCAP LIMIT 15,000 and WIN 10, every counter 0; and, as the model has it (logs 1 and 3), no launch, band or team is
there and memory lists nothing, in its canonical form. -/
def Obligations.ResetState : Prop :=
  let s := State.reset
  s.ready = 0 ∧ s.almpol = 22 ∧ s.spareAt = 1024 ∧ bits s.pwrcap.toNat 0 14 = 15000 ∧ bits s.pwrcap.toNat 14 2 = 0 ∧ bits s.pwrcap.toNat 16 8 = 10 ∧
  bits s.pwrcap.toNat 24 40 = 0 ∧ (∀ u, look 0 s.counters u = 0) ∧
  (∀ d < 8, (List.range 8).map (fun c => let r := (crateOf s d c).toNat
      [bits r 0 3, bits r 3 3, bits r 6 2, bits r 8 4, bits r 12 4, bits r 16 16, bits r 32 32]) =
    [[0, 1, 0, 15, 0, 4000, 0], [4, 1, 0, 15, 0, 4000, 0], [4, 2, 0, 15, 0, 4000, 0], [4, 2, 0, 15, 0, 4000, 0], [2, 1, 0, 15, 0, 4000, 0],
      [0, 2, 0, 15, 0, 4000, 0], [0, 2, 0, 15, 0, 4000, 0], [0, 1, 0, 15, 0, 4000, 0]]) ∧
  (∀ t, (tenantOf s t).created = false ∧ (tenantOf s t).lqcfg = 0x1111) ∧
  s.launches = [] ∧ s.bands = [] ∧ s.crews = [] ∧ s.teams = [] ∧ s.mem = [] ∧ Memory.wf s.mem = true

/-- R38, R40: the seven worked words (one of each usable class), two of the matrix instructions and one of control flow stand for their instructions; the word 0, a word of
class 111 stand for none, and the word of the store with the reserved ordering `acq` for an instruction that is not well formed. -/
def Obligations.WordsAreDecoded : Prop :=
  decodeWord 0x0010A001 = .ok (.add 2 true 0 false 1) ∧ decodeWord 0x30804143 = .ok (.nmad 4 false 1 false 2 true 3) ∧
  decodeWord 0x42860802 = .ok (.shli 3 1 2) ∧ decodeWord 0x630090C0 = .ok (.stVectorOffset 0 9 3 0 0 false) ∧ decodeWord 0x803FFFF8 = .ok (.br false 1 (-8)) ∧
  decodeWord 0xA1D24108 = .ok (.saddi 9 1 8) ∧ decodeWord 0xD85FFFFD = .ok (.li 5 (-3)) ∧ decodeWord 0xA530001B = .ok (.mma 0 0 0 27) ∧
  decodeWord 0xA5004809 = .ok (.tld 1 8 9) ∧ decodeWord 0x88000003 = .ok (.jmp 3) ∧
  (∀ i, decodeWord 0 ≠ .ok i) ∧ (∀ w : Word, 0xE0000000 ≤ w.toNat → ∀ i, decodeWord w ≠ .ok i) ∧
  decodeWord 0x630090D8 = .ok (.stVectorOffset 0 9 3 1 4 false) ∧ (Instr.stVectorOffset 0 9 3 1 4 false).wf = false

/-- R38 to R57: decoding the encoding of any well-formed instruction gives that instruction back, with every operand at every value that it admits. -/
def Obligations.DecodeOfEncode : Prop :=
  ∀ (i : Instr) (w : Word), i.wf = true → encode i = some w → decodeWord w = .ok i

/-- R38, R157, R158, R167, R310: a step runs the decoded instruction. Around it the step carries on what goes on by itself (the launches that events
have doomed end, the debugger's steps that are over are closed, and the command and the alarm that wait are carried on), lets time pass and lets the dies take their operating points; takes the agenda's head or the ready team of highest age; reconverges the team; and
meets PTRIG and breakpoints. Where the word at the PC then decodes to an instruction, the step is the execution of that instruction, in the state that the
fetch has left the caches in, after which the turn is over; a word that stands for no instruction is an UNASSIGNED_OPCODE, a fetch that the translation refuses
an INSTRUCTION_FETCH_FAULT, one whose word is faulty traps with its cause, and one that has to wait leaves the team where it is. A team whose stack is empty
issues as it is, with the lanes that its limit leaves it; an event at the agenda's head is executed.
The order of the steps is the model's choice (log 6); repeating the comparison of R157 (log 20), the instruction cache that the fetch leaves changed (log 53) and
the one record, of lane 0 with FLAGS 4, of a faulty word (log 54) are its readings. -/
def Obligations.StepRunsTheDecodedInstruction : Prop :=
  ∀ s : State, let s0 := passTime (background s)
    let s1 := if s0.launches = [] then s0 else retuneAll s0
    (∀ e r, s1.agenda = .event e :: r → step s = exec e { s1 with agenda := r }) ∧
    (∀ (k : Nat) (t t1 : Team) (s2 s3 : State),
      ((∃ r, s1.agenda = .team k :: r ∧ s2 = { s1 with agenda := r }) ∨
        (s1.agenda = [] ∧ s1.stalled = false ∧ s1.tick % 64 ≠ 63 ∧ s2 = choose { s1 with stalled := false } ∧ s2.cur = some k)) →
      s2.teams.lookup k = some t → canIssue s2 k t = true → ¬ (ptrigDue s2 (bandKey k) = true ∧ (bandOf s2 (bandKey k)).run = .going) →
      reconverge { s2 with cur := some k, stalled := false } k t.reconvergeFuel t = (s3, .issue t1) → atBreakpoint (bandOf s3 (bandKey k)) t1 = false →
      let t2 := t1.meetLane
      let s4 := noteMisses (setTeam (setTeam s3 k t1) k t2) k t2 [t2.pc]
      (∀ w, fetch s4 k t2 = .word w → (∀ i, decodeWord w = .ok i → step s = passTurn (exec i (fetchTrace s4 k t2))) ∧
        ((∀ i, decodeWord w ≠ .ok i) → step s = passTurn (exec (.unassignedOpcode w) (fetchTrace s4 k t2)))) ∧
      (∀ c, fetch s4 k t2 = .fault c → (c = cXLATE ∨ c = cPROT) → step s = passTurn (exec (.instructionFetchFault (BitVec.ofNat 8 c)) s4)) ∧
      (∀ c, fetch s4 k t2 = .fault c → c ≠ cXLATE → c ≠ cPROT →
        step s = passTurn (.next (raise (fetchTrace s4 k t2) k t2 c [{ cause := c, addr := t2.pc, flags := 4 }]))) ∧
      (∀ pa, fetch s4 k t2 = .wait pa → step s = passTurn (.next (waitHere (match pa with
        | some a => askHost s4 a false
        | none => s4))))) ∧
    (∀ (k : Nat) (t : Team) (n : Nat), t.stack = [] → t.spilled = 0 → t.mask &&& t.limit ≠ 0 →
      reconverge s k (n + 1) t = (s, .issue { t with mask := t.mask &&& t.limit }))

/-- R309, R310: the quarters that have a ready team take turns, and the turn goes to a ready team of the quarter that no ready team of it exceeds in age; its own age
starts again, and every other ready team of the quarter ages, up to its cap of 64; no age changes of a team that is not ready. Where a team is ready one is
chosen.
An age is held as one more than the rule's, the order of the quarters and which of several oldest teams is chosen are the model's choice (logs 6 and 55). -/
def Obligations.TheOldestTeamIssues : Prop :=
  ∀ s : State, (readyTeams s = [] → (choose s).cur = none ∧ (choose s).teams = s.teams) ∧ (readyTeams s ≠ [] → (choose s).cur ≠ none) ∧
    ∀ k, (choose s).cur = some k → ∃ t, (k, t) ∈ s.teams ∧ canIssue s k t = true ∧ (k, t) ∈ readyTeams s ∧
      (∀ e ∈ readyTeams s, e.2.place = t.place → e.2.age ≤ t.age) ∧
      (∀ e ∈ readyTeams s, s.turnQ < e.2.place → s.turnQ < t.place ∧ t.place ≤ e.2.place) ∧
      ((∀ e ∈ readyTeams s, e.2.place ≤ s.turnQ) → ∀ e ∈ readyTeams s, t.place ≤ e.2.place) ∧
      (choose s).turnQ = t.place ∧
      (choose s).teams = s.teams.map fun e => if e.1 = k then (e.1, { e.2 with age := 1 })
        else if ∃ x ∈ readyTeams s, x.1 = e.1 ∧ x.2.place = t.place then (e.1, { e.2 with age := if e.2.age = 0 then 2 else min (e.2.age + 1) 65 }) else e

/-- Every turn goes on: a step that the machine takes of its own accord, or gives to a team, answers a next state, whatever instruction the team meets and whatever state the machine is in. No
instruction of a running team stops the machine.
This rests on the model's choice of what is an event and what a turn (log 6). -/
def Obligations.EveryTurnGoesOn : Prop :=
  ∀ s : State, (∀ e r, s.agenda ≠ .event e :: r) → ∃ s', step s = .next s'

/-- Memory keeps its canonical form: where its addresses rise strictly and no byte is listed that equals what an unlisted one reads as, the same holds after a step.
That an unlisted byte reads as 0 is the model's choice (log 3). -/
def Obligations.MemoryStaysCanonical : Prop :=
  ∀ s s' : State, Memory.wf s.mem = true → step s = .next s' → Memory.wf s'.mem = true
end

