-- ==== Sys2Proof/Laws/Encoding.lean ====
section
/-! SUPPORT. The layouts of instruction words: what each field of a word reads back as. -/

namespace Sys2Proof.Laws

open Sys2Proof.Machine (bits)

theorem fld_eq {w lo n : Nat} {x : BitVec n} (h : w / 2 ^ lo % 2 ^ n = x.toNat) : fld w lo n = x := by
  apply BitVec.eq_of_toNat_eq
  rw [fld, BitVec.toNat_ofNat, h]

theorem bn_lt (b : Bool) : bn b < 2 := by cases b <;> decide

theorem flag_eq {w i : Nat} {b : Bool} (h : w / 2 ^ i % 2 = bn b) : flag w i = b := by
  rw [flag, h]
  cases b <;> rfl

theorem wordTR {N : Nat} {w : Word} {i : Instr} (hn : N < 4294967296) (ho : N / 1048576 / 512 % 8 = 0)
    (h : some (BitVec.ofNat 32 N) = some w) (hd : decodeTR N = .ok i) : decodeWord w = .ok i := by
  obtain rfl := Option.some.inj h
  have hw : (BitVec.ofNat 32 N).toNat = N := by rw [BitVec.toNat_ofNat, Nat.mod_eq_of_lt hn]
  have hc : bits N 29 3 = 0 := by
    rw [Nat.div_div_eq_div_mul] at ho
    exact ho
  simp only [decodeWord, hw, hc, hd]

theorem wordFR {N : Nat} {w : Word} {i : Instr} (hn : N < 4294967296) (ho : N / 134217728 / 4 % 8 = 1)
    (h : some (BitVec.ofNat 32 N) = some w) (hd : decodeFR N = .ok i) : decodeWord w = .ok i := by
  obtain rfl := Option.some.inj h
  have hw : (BitVec.ofNat 32 N).toNat = N := by rw [BitVec.toNat_ofNat, Nat.mod_eq_of_lt hn]
  have hc : bits N 29 3 = 1 := by
    rw [Nat.div_div_eq_div_mul] at ho
    exact ho
  simp only [decodeWord, hw, hc, hd]

theorem wordI {N : Nat} {w : Word} {i : Instr} (hn : N < 4294967296) (ho : N / 8388608 / 64 % 8 = 2)
    (h : some (BitVec.ofNat 32 N) = some w) (hd : decodeI N = .ok i) : decodeWord w = .ok i := by
  obtain rfl := Option.some.inj h
  have hw : (BitVec.ofNat 32 N).toNat = N := by rw [BitVec.toNat_ofNat, Nat.mod_eq_of_lt hn]
  have hc : bits N 29 3 = 2 := by
    rw [Nat.div_div_eq_div_mul] at ho
    exact ho
  simp only [decodeWord, hw, hc, hd]

theorem wordM {N : Nat} {w : Word} {i : Instr} (hn : N < 4294967296) (ho : N / 16777216 / 32 % 8 = 3)
    (h : some (BitVec.ofNat 32 N) = some w) (hd : decodeM N = .ok i) : decodeWord w = .ok i := by
  obtain rfl := Option.some.inj h
  have hw : (BitVec.ofNat 32 N).toNat = N := by rw [BitVec.toNat_ofNat, Nat.mod_eq_of_lt hn]
  have hc : bits N 29 3 = 3 := by
    rw [Nat.div_div_eq_div_mul] at ho
    exact ho
  simp only [decodeWord, hw, hc, hd]

theorem wordB {N : Nat} {w : Word} {i : Instr} (hn : N < 4294967296) (ho : N / 33554432 / 16 % 8 = 4)
    (h : some (BitVec.ofNat 32 N) = some w) (hd : decodeB N = .ok i) : decodeWord w = .ok i := by
  obtain rfl := Option.some.inj h
  have hw : (BitVec.ofNat 32 N).toNat = N := by rw [BitVec.toNat_ofNat, Nat.mod_eq_of_lt hn]
  have hc : bits N 29 3 = 4 := by
    rw [Nat.div_div_eq_div_mul] at ho
    exact ho
  simp only [decodeWord, hw, hc, hd]

theorem wordX {N : Nat} {w : Word} {i : Instr} (hn : N < 4294967296) (ho : N / 1048576 / 512 % 8 = 5)
    (h : some (BitVec.ofNat 32 N) = some w) (hd : decodeX N = .ok i) : decodeWord w = .ok i := by
  obtain rfl := Option.some.inj h
  have hw : (BitVec.ofNat 32 N).toNat = N := by rw [BitVec.toNat_ofNat, Nat.mod_eq_of_lt hn]
  have hc : bits N 29 3 = 5 := by
    rw [Nat.div_div_eq_div_mul] at ho
    exact ho
  simp only [decodeWord, hw, hc, hd]

theorem wordW {N : Nat} {w : Word} {i : Instr} (hn : N < 4294967296) (ho : N / 67108864 / 8 % 8 = 6)
    (h : some (BitVec.ofNat 32 N) = some w) (hd : decodeW N = .ok i) : decodeWord w = .ok i := by
  obtain rfl := Option.some.inj h
  have hw : (BitVec.ofNat 32 N).toNat = N := by rw [BitVec.toNat_ofNat, Nat.mod_eq_of_lt hn]
  have hc : bits N 29 3 = 6 := by
    rw [Nat.div_div_eq_div_mul] at ho
    exact ho
  simp only [decodeWord, hw, hc, hd]

theorem opTR {N K : Nat} (h : N / 1048576 = K) : bits N 20 9 = K % 512 := by
  subst h
  rfl

theorem opFR {N K : Nat} (h : N / 134217728 = K) : bits N 27 2 = K % 4 := by
  subst h
  rfl

theorem opI {N K : Nat} (h : N / 8388608 = K) : bits N 23 6 = K % 64 := by
  subst h
  rfl

theorem opM {N K : Nat} (h : N / 16777216 = K) : bits N 24 5 = K % 32 := by
  subst h
  rfl

theorem opB {N K : Nat} (h : N / 33554432 = K) : bits N 25 4 = K % 16 := by
  subst h
  rfl

theorem opX {N K : Nat} (h : N / 1048576 = K) : bits N 20 9 = K % 512 := by
  subst h
  rfl

theorem opW {N K : Nat} (h : N / 67108864 = K) : bits N 26 3 = K % 8 := by
  subst h
  rfl

theorem shape0 (B : Nat) (hB : B % 1048576 = 0) (hl : B < 4294967296) (x0 : BitVec 6) (x1 : Bool) (x2 : BitVec 6) (x3 : Bool) (x4 : BitVec 6) :
    let N := asm B [(14, x0.toNat), (13, bn x1), (7, x2.toNat), (6, bn x3), (0, x4.toNat)]
    N < 4294967296 ∧ N / 1048576 = B / 1048576 ∧ fld N 14 6 = x0 ∧ flag N 13 = x1 ∧ fld N 7 6 = x2 ∧ flag N 6 = x3 ∧ fld N 0 6 = x4 := by
  intro N
  have h0 := x0.isLt
  have h1 := bn_lt x1
  have h2 := x2.isLt
  have h3 := bn_lt x3
  have h4 := x4.isLt
  simp only [N, asm]
  exact ⟨by omega, by omega, fld_eq (by omega), flag_eq (by omega), fld_eq (by omega), flag_eq (by omega), fld_eq (by omega)⟩

theorem shape1 (B : Nat) (hB : B % 1048576 = 0) (hl : B < 4294967296) (x0 : BitVec 6) (x1 : Bool) (x2 : BitVec 6) :
    let N := asm B [(14, x0.toNat), (13, bn x1), (7, x2.toNat)]
    N < 4294967296 ∧ N / 1048576 = B / 1048576 ∧ fld N 14 6 = x0 ∧ flag N 13 = x1 ∧ fld N 7 6 = x2 ∧ bits N 0 7 = 0 := by
  intro N
  have h0 := x0.isLt
  have h1 := bn_lt x1
  have h2 := x2.isLt
  simp only [N, asm]
  exact ⟨by omega, by omega, fld_eq (by omega), flag_eq (by omega), fld_eq (by omega), by unfold bits; omega⟩

theorem shape2 (B : Nat) (hB : B % 1048576 = 0) (hl : B < 4294967296) (x0 : BitVec 3) (x1 : BitVec 3) (x2 : Bool) (x3 : BitVec 6) (x4 : Bool) (x5 : BitVec 6) :
    let N := asm B [(17, x0.toNat), (14, x1.toNat), (13, bn x2), (7, x3.toNat), (6, bn x4), (0, x5.toNat)]
    N < 4294967296 ∧ N / 1048576 = B / 1048576 ∧ fld N 17 3 = x0 ∧ fld N 14 3 = x1 ∧ flag N 13 = x2 ∧ fld N 7 6 = x3 ∧ flag N 6 = x4 ∧ fld N 0 6 = x5 := by
  intro N
  have h0 := x0.isLt
  have h1 := x1.isLt
  have h2 := bn_lt x2
  have h3 := x3.isLt
  have h4 := bn_lt x4
  have h5 := x5.isLt
  simp only [N, asm]
  exact ⟨by omega, by omega, fld_eq (by omega), fld_eq (by omega), flag_eq (by omega), fld_eq (by omega), flag_eq (by omega), fld_eq (by omega)⟩

theorem shape3 (B : Nat) (hB : B % 1048576 = 0) (hl : B < 4294967296) (x0 : BitVec 6) (x1 : Bool) (x2 : BitVec 6) (x3 : BitVec 2) (x4 : BitVec 4) :
    let N := asm B [(14, x0.toNat), (13, bn x1), (7, x2.toNat), (4, x3.toNat), (0, x4.toNat)]
    N < 4294967296 ∧ N / 1048576 = B / 1048576 ∧ fld N 14 6 = x0 ∧ flag N 13 = x1 ∧ fld N 7 6 = x2 ∧ fld N 4 2 = x3 ∧ fld N 0 4 = x4 ∧ bits N 6 1 = 0 := by
  intro N
  have h0 := x0.isLt
  have h1 := bn_lt x1
  have h2 := x2.isLt
  have h3 := x3.isLt
  have h4 := x4.isLt
  simp only [N, asm]
  exact ⟨by omega, by omega, fld_eq (by omega), flag_eq (by omega), fld_eq (by omega), fld_eq (by omega), fld_eq (by omega), by unfold bits; omega⟩

theorem shape4 (B : Nat) (hB : B % 1048576 = 0) (hl : B < 4294967296) (x0 : BitVec 6) (x1 : Bool) (x2 : BitVec 5) :
    let N := asm B [(14, x0.toNat), (13, bn x1), (7, x2.toNat)]
    N < 4294967296 ∧ N / 1048576 = B / 1048576 ∧ fld N 14 6 = x0 ∧ flag N 13 = x1 ∧ fld N 7 5 = x2 ∧ bits N 0 7 = 0 ∧ bits N 12 1 = 0 := by
  intro N
  have h0 := x0.isLt
  have h1 := bn_lt x1
  have h2 := x2.isLt
  simp only [N, asm]
  exact ⟨by omega, by omega, fld_eq (by omega), flag_eq (by omega), fld_eq (by omega), by unfold bits; omega, by unfold bits; omega⟩

theorem shape5 (B : Nat) (hB : B % 1048576 = 0) (hl : B < 4294967296) (x0 : BitVec 6) :
    let N := asm B [(14, x0.toNat)]
    N < 4294967296 ∧ N / 1048576 = B / 1048576 ∧ fld N 14 6 = x0 ∧ bits N 0 14 = 0 := by
  intro N
  have h0 := x0.isLt
  simp only [N, asm]
  exact ⟨by omega, by omega, fld_eq (by omega), by unfold bits; omega⟩

theorem shape6 (B : Nat) (hB : B % 1048576 = 0) (hl : B < 4294967296) (x0 : BitVec 6) (x1 : Bool) (x2 : BitVec 6) (x3 : BitVec 6) :
    let N := asm B [(14, x0.toNat), (13, bn x1), (7, x2.toNat), (0, x3.toNat)]
    N < 4294967296 ∧ N / 1048576 = B / 1048576 ∧ fld N 14 6 = x0 ∧ flag N 13 = x1 ∧ fld N 7 6 = x2 ∧ fld N 0 6 = x3 ∧ bits N 6 1 = 0 := by
  intro N
  have h0 := x0.isLt
  have h1 := bn_lt x1
  have h2 := x2.isLt
  have h3 := x3.isLt
  simp only [N, asm]
  exact ⟨by omega, by omega, fld_eq (by omega), flag_eq (by omega), fld_eq (by omega), fld_eq (by omega), by unfold bits; omega⟩

theorem shape7 (B : Nat) (hB : B % 1048576 = 0) (hl : B < 4294967296) (x0 : BitVec 5) (x1 : Bool) (x2 : BitVec 3) :
    let N := asm B [(14, x0.toNat), (10, bn x1), (7, x2.toNat)]
    N < 4294967296 ∧ N / 1048576 = B / 1048576 ∧ fld N 14 5 = x0 ∧ flag N 10 = x1 ∧ fld N 7 3 = x2 ∧ bits N 0 7 = 0 ∧ bits N 11 3 = 0 ∧ bits N 19 1 = 0 := by
  intro N
  have h0 := x0.isLt
  have h1 := bn_lt x1
  have h2 := x2.isLt
  simp only [N, asm]
  exact ⟨by omega, by omega, fld_eq (by omega), flag_eq (by omega), fld_eq (by omega), by unfold bits; omega, by unfold bits; omega, by unfold bits; omega⟩

theorem shape8 (B : Nat) (hB : B % 1048576 = 0) (hl : B < 4294967296) (x0 : BitVec 6) (x1 : Bool) (x2 : BitVec 3) :
    let N := asm B [(14, x0.toNat), (10, bn x1), (7, x2.toNat)]
    N < 4294967296 ∧ N / 1048576 = B / 1048576 ∧ fld N 14 6 = x0 ∧ flag N 10 = x1 ∧ fld N 7 3 = x2 ∧ bits N 0 7 = 0 ∧ bits N 11 3 = 0 := by
  intro N
  have h0 := x0.isLt
  have h1 := bn_lt x1
  have h2 := x2.isLt
  simp only [N, asm]
  exact ⟨by omega, by omega, fld_eq (by omega), flag_eq (by omega), fld_eq (by omega), by unfold bits; omega, by unfold bits; omega⟩

theorem shape9 (B : Nat) (hB : B % 1048576 = 0) (hl : B < 4294967296) (x0 : BitVec 5) (x1 : Bool) (x2 : BitVec 6) (x3 : BitVec 6) :
    let N := asm B [(14, x0.toNat), (13, bn x1), (7, x2.toNat), (0, x3.toNat)]
    N < 4294967296 ∧ N / 1048576 = B / 1048576 ∧ fld N 14 5 = x0 ∧ flag N 13 = x1 ∧ fld N 7 6 = x2 ∧ fld N 0 6 = x3 ∧ bits N 6 1 = 0 ∧ bits N 19 1 = 0 := by
  intro N
  have h0 := x0.isLt
  have h1 := bn_lt x1
  have h2 := x2.isLt
  have h3 := x3.isLt
  simp only [N, asm]
  exact ⟨by omega, by omega, fld_eq (by omega), flag_eq (by omega), fld_eq (by omega), fld_eq (by omega), by unfold bits; omega, by unfold bits; omega⟩

theorem shape10 (B : Nat) (hB : B % 1048576 = 0) (hl : B < 4294967296) (x0 : BitVec 6) (x1 : Bool) (x2 : BitVec 6) (x3 : Bool) (x4 : BitVec 3) :
    let N := asm B [(14, x0.toNat), (13, bn x1), (7, x2.toNat), (3, bn x3), (0, x4.toNat)]
    N < 4294967296 ∧ N / 1048576 = B / 1048576 ∧ fld N 14 6 = x0 ∧ flag N 13 = x1 ∧ fld N 7 6 = x2 ∧ flag N 3 = x3 ∧ fld N 0 3 = x4 ∧ bits N 4 3 = 0 := by
  intro N
  have h0 := x0.isLt
  have h1 := bn_lt x1
  have h2 := x2.isLt
  have h3 := bn_lt x3
  have h4 := x4.isLt
  simp only [N, asm]
  exact ⟨by omega, by omega, fld_eq (by omega), flag_eq (by omega), fld_eq (by omega), flag_eq (by omega), fld_eq (by omega), by unfold bits; omega⟩

theorem shape11 (B : Nat) (hB : B % 1048576 = 0) (hl : B < 4294967296) (x0 : BitVec 6) (x1 : Bool) (x2 : BitVec 6) (x3 : BitVec 5) :
    let N := asm B [(14, x0.toNat), (13, bn x1), (7, x2.toNat), (0, x3.toNat)]
    N < 4294967296 ∧ N / 1048576 = B / 1048576 ∧ fld N 14 6 = x0 ∧ flag N 13 = x1 ∧ fld N 7 6 = x2 ∧ fld N 0 5 = x3 ∧ bits N 5 2 = 0 := by
  intro N
  have h0 := x0.isLt
  have h1 := bn_lt x1
  have h2 := x2.isLt
  have h3 := x3.isLt
  simp only [N, asm]
  exact ⟨by omega, by omega, fld_eq (by omega), flag_eq (by omega), fld_eq (by omega), fld_eq (by omega), by unfold bits; omega⟩

theorem shape12 (B : Nat) (hB : B % 134217728 = 0) (hl : B < 4294967296) (x0 : BitVec 6) (x1 : Bool) (x2 : BitVec 6) (x3 : Bool) (x4 : BitVec 6) (x5 : Bool) (x6 : BitVec 6) :
    let N := asm B [(21, x0.toNat), (20, bn x1), (14, x2.toNat), (13, bn x3), (7, x4.toNat), (6, bn x5), (0, x6.toNat)]
    N < 4294967296 ∧ N / 134217728 = B / 134217728 ∧ fld N 21 6 = x0 ∧ flag N 20 = x1 ∧ fld N 14 6 = x2 ∧ flag N 13 = x3 ∧ fld N 7 6 = x4 ∧ flag N 6 = x5 ∧ fld N 0 6 = x6 := by
  intro N
  have h0 := x0.isLt
  have h1 := bn_lt x1
  have h2 := x2.isLt
  have h3 := bn_lt x3
  have h4 := x4.isLt
  have h5 := bn_lt x5
  have h6 := x6.isLt
  simp only [N, asm]
  exact ⟨by omega, by omega, fld_eq (by omega), flag_eq (by omega), fld_eq (by omega), flag_eq (by omega), fld_eq (by omega), flag_eq (by omega), fld_eq (by omega)⟩

theorem shape13 (B : Nat) (hB : B % 8388608 = 0) (hl : B < 4294967296) (x0 : BitVec 6) (x1 : BitVec 6) (x2 : BitVec 11) :
    let N := asm B [(17, x0.toNat), (11, x1.toNat), (0, x2.toNat)]
    N < 4294967296 ∧ N / 8388608 = B / 8388608 ∧ fld N 17 6 = x0 ∧ fld N 11 6 = x1 ∧ fld N 0 11 = x2 := by
  intro N
  have h0 := x0.isLt
  have h1 := x1.isLt
  have h2 := x2.isLt
  simp only [N, asm]
  exact ⟨by omega, by omega, fld_eq (by omega), fld_eq (by omega), fld_eq (by omega)⟩

theorem shape14 (B : Nat) (hB : B % 8388608 = 0) (hl : B < 4294967296) (x0 : BitVec 6) (x1 : BitVec 6) (x2 : BitVec 8) :
    let N := asm B [(17, x0.toNat), (11, x1.toNat), (0, x2.toNat)]
    N < 4294967296 ∧ N / 8388608 = B / 8388608 ∧ fld N 17 6 = x0 ∧ fld N 11 6 = x1 ∧ fld N 0 8 = x2 ∧ bits N 8 3 = 0 := by
  intro N
  have h0 := x0.isLt
  have h1 := x1.isLt
  have h2 := x2.isLt
  simp only [N, asm]
  exact ⟨by omega, by omega, fld_eq (by omega), fld_eq (by omega), fld_eq (by omega), by unfold bits; omega⟩

theorem shape15 (B : Nat) (hB : B % 8388608 = 0) (hl : B < 4294967296) (x0 : BitVec 3) (x1 : BitVec 3) (x2 : BitVec 6) (x3 : BitVec 11) :
    let N := asm B [(20, x0.toNat), (17, x1.toNat), (11, x2.toNat), (0, x3.toNat)]
    N < 4294967296 ∧ N / 8388608 = B / 8388608 ∧ fld N 20 3 = x0 ∧ fld N 17 3 = x1 ∧ fld N 11 6 = x2 ∧ fld N 0 11 = x3 := by
  intro N
  have h0 := x0.isLt
  have h1 := x1.isLt
  have h2 := x2.isLt
  have h3 := x3.isLt
  simp only [N, asm]
  exact ⟨by omega, by omega, fld_eq (by omega), fld_eq (by omega), fld_eq (by omega), fld_eq (by omega)⟩

theorem shape16 (B : Nat) (hB : B % 16777216 = 0) (hl : B < 4294967296) (x0 : BitVec 6) (x1 : BitVec 5) (x2 : BitVec 2) (x3 : BitVec 3) :
    let N := asm B [(18, x0.toNat), (12, x1.toNat), (4, x2.toNat), (1, x3.toNat)]
    N < 4294967296 ∧ N / 16777216 = B / 16777216 ∧ fld N 18 6 = x0 ∧ fld N 12 5 = x1 ∧ fld N 4 2 = x2 ∧ fld N 1 3 = x3 ∧ bits N 0 1 = 0 ∧ bits N 6 6 = 0 ∧ bits N 17 1 = 0 := by
  intro N
  have h0 := x0.isLt
  have h1 := x1.isLt
  have h2 := x2.isLt
  have h3 := x3.isLt
  simp only [N, asm]
  exact ⟨by omega, by omega, fld_eq (by omega), fld_eq (by omega), fld_eq (by omega), fld_eq (by omega), by unfold bits; omega, by unfold bits; omega, by unfold bits; omega⟩

theorem shape17 (B : Nat) (hB : B % 16777216 = 0) (hl : B < 4294967296) (x0 : BitVec 6) (x1 : BitVec 5) (x2 : BitVec 6) (x3 : BitVec 2) (x4 : BitVec 3) :
    let N := asm B [(18, x0.toNat), (12, x1.toNat), (6, x2.toNat), (4, x3.toNat), (1, x4.toNat)]
    N < 4294967296 ∧ N / 16777216 = B / 16777216 ∧ fld N 18 6 = x0 ∧ fld N 12 5 = x1 ∧ fld N 6 6 = x2 ∧ fld N 4 2 = x3 ∧ fld N 1 3 = x4 ∧ bits N 0 1 = 0 ∧ bits N 17 1 = 0 := by
  intro N
  have h0 := x0.isLt
  have h1 := x1.isLt
  have h2 := x2.isLt
  have h3 := x3.isLt
  have h4 := x4.isLt
  simp only [N, asm]
  exact ⟨by omega, by omega, fld_eq (by omega), fld_eq (by omega), fld_eq (by omega), fld_eq (by omega), fld_eq (by omega), by unfold bits; omega, by unfold bits; omega⟩

theorem shape18 (B : Nat) (hB : B % 16777216 = 0) (hl : B < 4294967296) (x0 : BitVec 6) (x1 : BitVec 5) (x2 : BitVec 2) (x3 : BitVec 3) (x4 : Bool) :
    let N := asm B [(18, x0.toNat), (12, x1.toNat), (4, x2.toNat), (1, x3.toNat), (0, bn x4)]
    N < 4294967296 ∧ N / 16777216 = B / 16777216 ∧ fld N 18 6 = x0 ∧ fld N 12 5 = x1 ∧ fld N 4 2 = x2 ∧ fld N 1 3 = x3 ∧ flag N 0 = x4 ∧ bits N 6 6 = 0 ∧ bits N 17 1 = 0 := by
  intro N
  have h0 := x0.isLt
  have h1 := x1.isLt
  have h2 := x2.isLt
  have h3 := x3.isLt
  have h4 := bn_lt x4
  simp only [N, asm]
  exact ⟨by omega, by omega, fld_eq (by omega), fld_eq (by omega), fld_eq (by omega), fld_eq (by omega), flag_eq (by omega), by unfold bits; omega, by unfold bits; omega⟩

theorem shape19 (B : Nat) (hB : B % 16777216 = 0) (hl : B < 4294967296) (x0 : BitVec 6) (x1 : BitVec 5) (x2 : BitVec 6) (x3 : BitVec 2) (x4 : BitVec 3) (x5 : Bool) :
    let N := asm B [(18, x0.toNat), (12, x1.toNat), (6, x2.toNat), (4, x3.toNat), (1, x4.toNat), (0, bn x5)]
    N < 4294967296 ∧ N / 16777216 = B / 16777216 ∧ fld N 18 6 = x0 ∧ fld N 12 5 = x1 ∧ fld N 6 6 = x2 ∧ fld N 4 2 = x3 ∧ fld N 1 3 = x4 ∧ flag N 0 = x5 ∧ bits N 17 1 = 0 := by
  intro N
  have h0 := x0.isLt
  have h1 := x1.isLt
  have h2 := x2.isLt
  have h3 := x3.isLt
  have h4 := x4.isLt
  have h5 := bn_lt x5
  simp only [N, asm]
  exact ⟨by omega, by omega, fld_eq (by omega), fld_eq (by omega), fld_eq (by omega), fld_eq (by omega), fld_eq (by omega), flag_eq (by omega), by unfold bits; omega⟩

theorem shape20 (B : Nat) (hB : B % 16777216 = 0) (hl : B < 4294967296) (x0 : BitVec 5) (x1 : BitVec 5) (x2 : BitVec 2) (x3 : BitVec 3) :
    let N := asm B [(18, x0.toNat), (12, x1.toNat), (4, x2.toNat), (1, x3.toNat)]
    N < 4294967296 ∧ N / 16777216 = B / 16777216 ∧ fld N 18 5 = x0 ∧ fld N 12 5 = x1 ∧ fld N 4 2 = x2 ∧ fld N 1 3 = x3 ∧ bits N 0 1 = 0 ∧ bits N 6 6 = 0 ∧ bits N 17 1 = 0 ∧ bits N 23 1 = 0 := by
  intro N
  have h0 := x0.isLt
  have h1 := x1.isLt
  have h2 := x2.isLt
  have h3 := x3.isLt
  simp only [N, asm]
  exact ⟨by omega, by omega, fld_eq (by omega), fld_eq (by omega), fld_eq (by omega), fld_eq (by omega), by unfold bits; omega, by unfold bits; omega, by unfold bits; omega, by unfold bits; omega⟩

theorem shape21 (B : Nat) (hB : B % 16777216 = 0) (hl : B < 4294967296) (x0 : BitVec 5) (x1 : BitVec 5) (x2 : BitVec 2) (x3 : BitVec 3) (x4 : Bool) :
    let N := asm B [(18, x0.toNat), (12, x1.toNat), (4, x2.toNat), (1, x3.toNat), (0, bn x4)]
    N < 4294967296 ∧ N / 16777216 = B / 16777216 ∧ fld N 18 5 = x0 ∧ fld N 12 5 = x1 ∧ fld N 4 2 = x2 ∧ fld N 1 3 = x3 ∧ flag N 0 = x4 ∧ bits N 6 6 = 0 ∧ bits N 17 1 = 0 ∧ bits N 23 1 = 0 := by
  intro N
  have h0 := x0.isLt
  have h1 := x1.isLt
  have h2 := x2.isLt
  have h3 := x3.isLt
  have h4 := bn_lt x4
  simp only [N, asm]
  exact ⟨by omega, by omega, fld_eq (by omega), fld_eq (by omega), fld_eq (by omega), fld_eq (by omega), flag_eq (by omega), by unfold bits; omega, by unfold bits; omega, by unfold bits; omega⟩

theorem shape22 (B : Nat) (hB : B % 16777216 = 0) (hl : B < 4294967296) (x0 : BitVec 6) (x1 : BitVec 5) (x2 : BitVec 5) (x3 : BitVec 2) (x4 : BitVec 3) :
    let N := asm B [(18, x0.toNat), (12, x1.toNat), (6, x2.toNat), (4, x3.toNat), (1, x4.toNat)]
    N < 4294967296 ∧ N / 16777216 = B / 16777216 ∧ fld N 18 6 = x0 ∧ fld N 12 5 = x1 ∧ fld N 6 5 = x2 ∧ fld N 4 2 = x3 ∧ fld N 1 3 = x4 ∧ bits N 0 1 = 0 ∧ bits N 11 1 = 0 ∧ bits N 17 1 = 0 := by
  intro N
  have h0 := x0.isLt
  have h1 := x1.isLt
  have h2 := x2.isLt
  have h3 := x3.isLt
  have h4 := x4.isLt
  simp only [N, asm]
  exact ⟨by omega, by omega, fld_eq (by omega), fld_eq (by omega), fld_eq (by omega), fld_eq (by omega), fld_eq (by omega), by unfold bits; omega, by unfold bits; omega, by unfold bits; omega⟩

theorem shape23 (B : Nat) (hB : B % 16777216 = 0) (hl : B < 4294967296) (x0 : BitVec 6) (x1 : BitVec 5) (x2 : BitVec 5) (x3 : BitVec 2) (x4 : BitVec 3) (x5 : Bool) :
    let N := asm B [(18, x0.toNat), (12, x1.toNat), (6, x2.toNat), (4, x3.toNat), (1, x4.toNat), (0, bn x5)]
    N < 4294967296 ∧ N / 16777216 = B / 16777216 ∧ fld N 18 6 = x0 ∧ fld N 12 5 = x1 ∧ fld N 6 5 = x2 ∧ fld N 4 2 = x3 ∧ fld N 1 3 = x4 ∧ flag N 0 = x5 ∧ bits N 11 1 = 0 ∧ bits N 17 1 = 0 := by
  intro N
  have h0 := x0.isLt
  have h1 := x1.isLt
  have h2 := x2.isLt
  have h3 := x3.isLt
  have h4 := x4.isLt
  have h5 := bn_lt x5
  simp only [N, asm]
  exact ⟨by omega, by omega, fld_eq (by omega), fld_eq (by omega), fld_eq (by omega), fld_eq (by omega), fld_eq (by omega), flag_eq (by omega), by unfold bits; omega, by unfold bits; omega⟩

theorem shape24 (B : Nat) (hB : B % 16777216 = 0) (hl : B < 4294967296) (x0 : BitVec 3) :
    let N := asm B [(1, x0.toNat)]
    N < 4294967296 ∧ N / 16777216 = B / 16777216 ∧ fld N 1 3 = x0 ∧ bits N 0 1 = 0 ∧ bits N 4 20 = 0 := by
  intro N
  have h0 := x0.isLt
  simp only [N, asm]
  exact ⟨by omega, by omega, fld_eq (by omega), by unfold bits; omega, by unfold bits; omega⟩

theorem shape25 (B : Nat) (hB : B % 16777216 = 0) (hl : B < 4294967296) (x0 : BitVec 5) (x1 : BitVec 6) :
    let N := asm B [(12, x0.toNat), (6, x1.toNat)]
    N < 4294967296 ∧ N / 16777216 = B / 16777216 ∧ fld N 12 5 = x0 ∧ fld N 6 6 = x1 ∧ bits N 0 6 = 0 ∧ bits N 17 7 = 0 := by
  intro N
  have h0 := x0.isLt
  have h1 := x1.isLt
  simp only [N, asm]
  exact ⟨by omega, by omega, fld_eq (by omega), fld_eq (by omega), by unfold bits; omega, by unfold bits; omega⟩

theorem shape26 (B : Nat) (hB : B % 16777216 = 0) (hl : B < 4294967296) (x0 : BitVec 5) (x1 : BitVec 5) (x2 : BitVec 3) :
    let N := asm B [(12, x0.toNat), (6, x1.toNat), (1, x2.toNat)]
    N < 4294967296 ∧ N / 16777216 = B / 16777216 ∧ fld N 12 5 = x0 ∧ fld N 6 5 = x1 ∧ fld N 1 3 = x2 ∧ bits N 0 1 = 0 ∧ bits N 4 2 = 0 ∧ bits N 11 1 = 0 ∧ bits N 17 7 = 0 := by
  intro N
  have h0 := x0.isLt
  have h1 := x1.isLt
  have h2 := x2.isLt
  simp only [N, asm]
  exact ⟨by omega, by omega, fld_eq (by omega), fld_eq (by omega), fld_eq (by omega), by unfold bits; omega, by unfold bits; omega, by unfold bits; omega, by unfold bits; omega⟩

theorem shape27 (B : Nat) (hB : B % 16777216 = 0) (hl : B < 4294967296) (x0 : BitVec 5) (x1 : BitVec 5) (x2 : BitVec 5) (x3 : BitVec 2) (x4 : BitVec 3) :
    let N := asm B [(18, x0.toNat), (12, x1.toNat), (6, x2.toNat), (4, x3.toNat), (1, x4.toNat)]
    N < 4294967296 ∧ N / 16777216 = B / 16777216 ∧ fld N 18 5 = x0 ∧ fld N 12 5 = x1 ∧ fld N 6 5 = x2 ∧ fld N 4 2 = x3 ∧ fld N 1 3 = x4 ∧ bits N 0 1 = 0 ∧ bits N 11 1 = 0 ∧ bits N 17 1 = 0 ∧ bits N 23 1 = 0 := by
  intro N
  have h0 := x0.isLt
  have h1 := x1.isLt
  have h2 := x2.isLt
  have h3 := x3.isLt
  have h4 := x4.isLt
  simp only [N, asm]
  exact ⟨by omega, by omega, fld_eq (by omega), fld_eq (by omega), fld_eq (by omega), fld_eq (by omega), fld_eq (by omega), by unfold bits; omega, by unfold bits; omega, by unfold bits; omega, by unfold bits; omega⟩

theorem shape28 (B : Nat) (hB : B % 33554432 = 0) (hl : B < 4294967296) (x0 : Bool) (x1 : BitVec 3) (x2 : BitVec 21) :
    let N := asm B [(24, bn x0), (21, x1.toNat), (0, x2.toNat)]
    N < 4294967296 ∧ N / 33554432 = B / 33554432 ∧ flag N 24 = x0 ∧ fld N 21 3 = x1 ∧ fld N 0 21 = x2 := by
  intro N
  have h0 := bn_lt x0
  have h1 := x1.isLt
  have h2 := x2.isLt
  simp only [N, asm]
  exact ⟨by omega, by omega, flag_eq (by omega), fld_eq (by omega), fld_eq (by omega)⟩

theorem shape29 (B : Nat) (hB : B % 33554432 = 0) (hl : B < 4294967296) (x0 : BitVec 21) :
    let N := asm B [(0, x0.toNat)]
    N < 4294967296 ∧ N / 33554432 = B / 33554432 ∧ fld N 0 21 = x0 ∧ bits N 21 4 = 0 := by
  intro N
  have h0 := x0.isLt
  simp only [N, asm]
  exact ⟨by omega, by omega, fld_eq (by omega), by unfold bits; omega⟩

theorem shape30 (B : Nat) (hB : B % 1048576 = 0) (hl : B < 4294967296)  :
    let N := asm B []
    N < 4294967296 ∧ N / 1048576 = B / 1048576 ∧ bits N 0 20 = 0 := by
  intro N
  simp only [N, asm]
  exact ⟨by omega, trivial, by unfold bits; omega⟩

theorem shape31 (B : Nat) (hB : B % 1048576 = 0) (hl : B < 4294967296) (x0 : BitVec 8) :
    let N := asm B [(0, x0.toNat)]
    N < 4294967296 ∧ N / 1048576 = B / 1048576 ∧ fld N 0 8 = x0 ∧ bits N 8 12 = 0 := by
  intro N
  have h0 := x0.isLt
  simp only [N, asm]
  exact ⟨by omega, by omega, fld_eq (by omega), by unfold bits; omega⟩

theorem shape32 (B : Nat) (hB : B % 1048576 = 0) (hl : B < 4294967296) (x0 : BitVec 5) :
    let N := asm B [(14, x0.toNat)]
    N < 4294967296 ∧ N / 1048576 = B / 1048576 ∧ fld N 14 5 = x0 ∧ bits N 0 14 = 0 ∧ bits N 19 1 = 0 := by
  intro N
  have h0 := x0.isLt
  simp only [N, asm]
  exact ⟨by omega, by omega, fld_eq (by omega), by unfold bits; omega, by unfold bits; omega⟩

theorem shape33 (B : Nat) (hB : B % 1048576 = 0) (hl : B < 4294967296) (x0 : BitVec 5) (x1 : BitVec 5) :
    let N := asm B [(14, x0.toNat), (8, x1.toNat)]
    N < 4294967296 ∧ N / 1048576 = B / 1048576 ∧ fld N 14 5 = x0 ∧ fld N 8 5 = x1 ∧ bits N 0 8 = 0 ∧ bits N 13 1 = 0 ∧ bits N 19 1 = 0 := by
  intro N
  have h0 := x0.isLt
  have h1 := x1.isLt
  simp only [N, asm]
  exact ⟨by omega, by omega, fld_eq (by omega), fld_eq (by omega), by unfold bits; omega, by unfold bits; omega, by unfold bits; omega⟩

theorem shape34 (B : Nat) (hB : B % 1048576 = 0) (hl : B < 4294967296) (x0 : BitVec 5) (x1 : BitVec 5) (x2 : BitVec 8) :
    let N := asm B [(14, x0.toNat), (8, x1.toNat), (0, x2.toNat)]
    N < 4294967296 ∧ N / 1048576 = B / 1048576 ∧ fld N 14 5 = x0 ∧ fld N 8 5 = x1 ∧ fld N 0 8 = x2 ∧ bits N 13 1 = 0 ∧ bits N 19 1 = 0 := by
  intro N
  have h0 := x0.isLt
  have h1 := x1.isLt
  have h2 := x2.isLt
  simp only [N, asm]
  exact ⟨by omega, by omega, fld_eq (by omega), fld_eq (by omega), fld_eq (by omega), by unfold bits; omega, by unfold bits; omega⟩

theorem shape35 (B : Nat) (hB : B % 1048576 = 0) (hl : B < 4294967296) (x0 : BitVec 5) (x1 : BitVec 5) (x2 : BitVec 5) :
    let N := asm B [(14, x0.toNat), (8, x1.toNat), (0, x2.toNat)]
    N < 4294967296 ∧ N / 1048576 = B / 1048576 ∧ fld N 14 5 = x0 ∧ fld N 8 5 = x1 ∧ fld N 0 5 = x2 ∧ bits N 5 3 = 0 ∧ bits N 13 1 = 0 ∧ bits N 19 1 = 0 := by
  intro N
  have h0 := x0.isLt
  have h1 := x1.isLt
  have h2 := x2.isLt
  simp only [N, asm]
  exact ⟨by omega, by omega, fld_eq (by omega), fld_eq (by omega), fld_eq (by omega), by unfold bits; omega, by unfold bits; omega, by unfold bits; omega⟩

theorem shape36 (B : Nat) (hB : B % 1048576 = 0) (hl : B < 4294967296) (x0 : BitVec 5) (x1 : BitVec 5) (x2 : BitVec 3) (x3 : BitVec 5) :
    let N := asm B [(14, x0.toNat), (8, x1.toNat), (5, x2.toNat), (0, x3.toNat)]
    N < 4294967296 ∧ N / 1048576 = B / 1048576 ∧ fld N 14 5 = x0 ∧ fld N 8 5 = x1 ∧ fld N 5 3 = x2 ∧ fld N 0 5 = x3 ∧ bits N 13 1 = 0 ∧ bits N 19 1 = 0 := by
  intro N
  have h0 := x0.isLt
  have h1 := x1.isLt
  have h2 := x2.isLt
  have h3 := x3.isLt
  simp only [N, asm]
  exact ⟨by omega, by omega, fld_eq (by omega), fld_eq (by omega), fld_eq (by omega), fld_eq (by omega), by unfold bits; omega, by unfold bits; omega⟩

theorem shape37 (B : Nat) (hB : B % 1048576 = 0) (hl : B < 4294967296) (x0 : BitVec 5) (x1 : BitVec 6) (x2 : BitVec 5) :
    let N := asm B [(14, x0.toNat), (8, x1.toNat), (0, x2.toNat)]
    N < 4294967296 ∧ N / 1048576 = B / 1048576 ∧ fld N 14 5 = x0 ∧ fld N 8 6 = x1 ∧ fld N 0 5 = x2 ∧ bits N 5 3 = 0 ∧ bits N 19 1 = 0 := by
  intro N
  have h0 := x0.isLt
  have h1 := x1.isLt
  have h2 := x2.isLt
  simp only [N, asm]
  exact ⟨by omega, by omega, fld_eq (by omega), fld_eq (by omega), fld_eq (by omega), by unfold bits; omega, by unfold bits; omega⟩

theorem shape38 (B : Nat) (hB : B % 1048576 = 0) (hl : B < 4294967296) (x0 : BitVec 6) (x1 : BitVec 5) (x2 : BitVec 5) :
    let N := asm B [(14, x0.toNat), (8, x1.toNat), (0, x2.toNat)]
    N < 4294967296 ∧ N / 1048576 = B / 1048576 ∧ fld N 14 6 = x0 ∧ fld N 8 5 = x1 ∧ fld N 0 5 = x2 ∧ bits N 5 3 = 0 ∧ bits N 13 1 = 0 := by
  intro N
  have h0 := x0.isLt
  have h1 := x1.isLt
  have h2 := x2.isLt
  simp only [N, asm]
  exact ⟨by omega, by omega, fld_eq (by omega), fld_eq (by omega), fld_eq (by omega), by unfold bits; omega, by unfold bits; omega⟩

theorem shape39 (B : Nat) (hB : B % 1048576 = 0) (hl : B < 4294967296) (x0 : BitVec 6) (x1 : BitVec 5) :
    let N := asm B [(14, x0.toNat), (8, x1.toNat)]
    N < 4294967296 ∧ N / 1048576 = B / 1048576 ∧ fld N 14 6 = x0 ∧ fld N 8 5 = x1 ∧ bits N 0 8 = 0 ∧ bits N 13 1 = 0 := by
  intro N
  have h0 := x0.isLt
  have h1 := x1.isLt
  simp only [N, asm]
  exact ⟨by omega, by omega, fld_eq (by omega), fld_eq (by omega), by unfold bits; omega, by unfold bits; omega⟩

theorem shape40 (B : Nat) (hB : B % 1048576 = 0) (hl : B < 4294967296) (x0 : BitVec 6) (x1 : BitVec 6) (x2 : BitVec 5) :
    let N := asm B [(14, x0.toNat), (8, x1.toNat), (0, x2.toNat)]
    N < 4294967296 ∧ N / 1048576 = B / 1048576 ∧ fld N 14 6 = x0 ∧ fld N 8 6 = x1 ∧ fld N 0 5 = x2 ∧ bits N 5 3 = 0 := by
  intro N
  have h0 := x0.isLt
  have h1 := x1.isLt
  have h2 := x2.isLt
  simp only [N, asm]
  exact ⟨by omega, by omega, fld_eq (by omega), fld_eq (by omega), fld_eq (by omega), by unfold bits; omega⟩

theorem shape41 (B : Nat) (hB : B % 1048576 = 0) (hl : B < 4294967296) (x0 : BitVec 6) (x1 : BitVec 6) (x2 : BitVec 3) :
    let N := asm B [(14, x0.toNat), (8, x1.toNat), (0, x2.toNat)]
    N < 4294967296 ∧ N / 1048576 = B / 1048576 ∧ fld N 14 6 = x0 ∧ fld N 8 6 = x1 ∧ fld N 0 3 = x2 ∧ bits N 3 5 = 0 := by
  intro N
  have h0 := x0.isLt
  have h1 := x1.isLt
  have h2 := x2.isLt
  simp only [N, asm]
  exact ⟨by omega, by omega, fld_eq (by omega), fld_eq (by omega), fld_eq (by omega), by unfold bits; omega⟩

theorem shape42 (B : Nat) (hB : B % 1048576 = 0) (hl : B < 4294967296) (x0 : BitVec 5) (x1 : BitVec 8) :
    let N := asm B [(14, x0.toNat), (0, x1.toNat)]
    N < 4294967296 ∧ N / 1048576 = B / 1048576 ∧ fld N 14 5 = x0 ∧ fld N 0 8 = x1 ∧ bits N 8 6 = 0 ∧ bits N 19 1 = 0 := by
  intro N
  have h0 := x0.isLt
  have h1 := x1.isLt
  simp only [N, asm]
  exact ⟨by omega, by omega, fld_eq (by omega), fld_eq (by omega), by unfold bits; omega, by unfold bits; omega⟩

theorem shape43 (B : Nat) (hB : B % 1048576 = 0) (hl : B < 4294967296) (x0 : BitVec 3) (x1 : BitVec 5) :
    let N := asm B [(5, x0.toNat), (0, x1.toNat)]
    N < 4294967296 ∧ N / 1048576 = B / 1048576 ∧ fld N 5 3 = x0 ∧ fld N 0 5 = x1 ∧ bits N 8 12 = 0 := by
  intro N
  have h0 := x0.isLt
  have h1 := x1.isLt
  simp only [N, asm]
  exact ⟨by omega, by omega, fld_eq (by omega), fld_eq (by omega), by unfold bits; omega⟩

theorem shape44 (B : Nat) (hB : B % 1048576 = 0) (hl : B < 4294967296) (x0 : BitVec 6) (x1 : BitVec 5) (x2 : BitVec 3) :
    let N := asm B [(14, x0.toNat), (8, x1.toNat), (0, x2.toNat)]
    N < 4294967296 ∧ N / 1048576 = B / 1048576 ∧ fld N 14 6 = x0 ∧ fld N 8 5 = x1 ∧ fld N 0 3 = x2 ∧ bits N 3 5 = 0 ∧ bits N 13 1 = 0 := by
  intro N
  have h0 := x0.isLt
  have h1 := x1.isLt
  have h2 := x2.isLt
  simp only [N, asm]
  exact ⟨by omega, by omega, fld_eq (by omega), fld_eq (by omega), fld_eq (by omega), by unfold bits; omega, by unfold bits; omega⟩

theorem shape45 (B : Nat) (hB : B % 1048576 = 0) (hl : B < 4294967296) (x0 : BitVec 5) (x1 : BitVec 3) :
    let N := asm B [(14, x0.toNat), (0, x1.toNat)]
    N < 4294967296 ∧ N / 1048576 = B / 1048576 ∧ fld N 14 5 = x0 ∧ fld N 0 3 = x1 ∧ bits N 3 11 = 0 ∧ bits N 19 1 = 0 := by
  intro N
  have h0 := x0.isLt
  have h1 := x1.isLt
  simp only [N, asm]
  exact ⟨by omega, by omega, fld_eq (by omega), fld_eq (by omega), by unfold bits; omega, by unfold bits; omega⟩

theorem shape46 (B : Nat) (hB : B % 1048576 = 0) (hl : B < 4294967296) (x0 : BitVec 5) (x1 : BitVec 8) :
    let N := asm B [(8, x0.toNat), (0, x1.toNat)]
    N < 4294967296 ∧ N / 1048576 = B / 1048576 ∧ fld N 8 5 = x0 ∧ fld N 0 8 = x1 ∧ bits N 13 7 = 0 := by
  intro N
  have h0 := x0.isLt
  have h1 := x1.isLt
  simp only [N, asm]
  exact ⟨by omega, by omega, fld_eq (by omega), fld_eq (by omega), by unfold bits; omega⟩

theorem shape47 (B : Nat) (hB : B % 67108864 = 0) (hl : B < 4294967296) (x0 : Bool) (x1 : BitVec 3) (x2 : BitVec 4) (x3 : BitVec 3) (x4 : Bool) (x5 : BitVec 2) (x6 : Bool) :
    let N := asm B [(25, bn x0), (22, x1.toNat), (18, x2.toNat), (15, x3.toNat), (14, bn x4), (12, x5.toNat), (11, bn x6)]
    N < 4294967296 ∧ N / 67108864 = B / 67108864 ∧ flag N 25 = x0 ∧ fld N 22 3 = x1 ∧ fld N 18 4 = x2 ∧ fld N 15 3 = x3 ∧ flag N 14 = x4 ∧ fld N 12 2 = x5 ∧ flag N 11 = x6 ∧ bits N 0 11 = 0 := by
  intro N
  have h0 := bn_lt x0
  have h1 := x1.isLt
  have h2 := x2.isLt
  have h3 := x3.isLt
  have h4 := bn_lt x4
  have h5 := x5.isLt
  have h6 := bn_lt x6
  simp only [N, asm]
  exact ⟨by omega, by omega, flag_eq (by omega), fld_eq (by omega), fld_eq (by omega), fld_eq (by omega), flag_eq (by omega), fld_eq (by omega), flag_eq (by omega), by unfold bits; omega⟩

theorem shape48 (B : Nat) (hB : B % 67108864 = 0) (hl : B < 4294967296) (x0 : BitVec 5) (x1 : BitVec 21) :
    let N := asm B [(21, x0.toNat), (0, x1.toNat)]
    N < 4294967296 ∧ N / 67108864 = B / 67108864 ∧ fld N 21 5 = x0 ∧ fld N 0 21 = x1 := by
  intro N
  have h0 := x0.isLt
  have h1 := x1.isLt
  simp only [N, asm]
  exact ⟨by omega, by omega, fld_eq (by omega), fld_eq (by omega)⟩

theorem shape49 (B : Nat) (hB : B % 67108864 = 0) (hl : B < 4294967296) (x0 : BitVec 26) :
    let N := asm B [(0, x0.toNat)]
    N < 4294967296 ∧ N / 67108864 = B / 67108864 ∧ fld N 0 26 = x0 := by
  intro N
  have h0 := x0.isLt
  simp only [N, asm]
  exact ⟨by omega, by omega, fld_eq (by omega)⟩

theorem shape50 (B : Nat) (hB : B % 67108864 = 0) (hl : B < 4294967296)  :
    let N := asm B []
    N < 4294967296 ∧ N / 67108864 = B / 67108864 ∧ bits N 0 26 = 0 := by
  intro N
  simp only [N, asm]
  exact ⟨by omega, trivial, by unfold bits; omega⟩

theorem shape51 (B : Nat) (hB : B % 67108864 = 0) (hl : B < 4294967296) (x0 : BitVec 6) (x1 : BitVec 20) :
    let N := asm B [(20, x0.toNat), (0, x1.toNat)]
    N < 4294967296 ∧ N / 67108864 = B / 67108864 ∧ fld N 20 6 = x0 ∧ fld N 0 20 = x1 := by
  intro N
  have h0 := x0.isLt
  have h1 := x1.isLt
  simp only [N, asm]
  exact ⟨by omega, by omega, fld_eq (by omega), fld_eq (by omega)⟩

theorem shapeFwaitV (x : BitVec 6) :
    let N := asm 0xA2E00000 [(14, x.toNat)]
    N < 4294967296 ∧ N / 1048576 = 0xA2E ∧ fld N 14 6 = x ∧ bits N 0 14 = 0 := by
  intro N
  have h0 := x.isLt
  simp only [N, asm]
  exact ⟨by omega, by omega, fld_eq (by omega), by unfold bits; omega⟩

theorem shapeFwaitS (x : BitVec 5) :
    let N := asm 0xA2E00100 [(14, x.toNat)]
    N < 4294967296 ∧ N / 1048576 = 0xA2E ∧ fld N 14 5 = x ∧ bits N 0 14 = 256 ∧ bits N 19 1 = 0 := by
  intro N
  have h0 := x.isLt
  simp only [N, asm]
  exact ⟨by omega, by omega, fld_eq (by omega), by unfold bits; omega, by unfold bits; omega⟩

theorem shapeAcver (x : BitVec 5) (a : BitVec 3) :
    let N := asm 0xA5800000 [(14, x.toNat), (0, a.toNat)]
    N < 4294967296 ∧ N / 1048576 = 0xA58 ∧ fld N 14 5 = x ∧ fld N 0 3 = a ∧ bits N 3 11 = 0 ∧ bits N 19 1 = 0 := by
  intro N
  have h0 := x.isLt
  have h1 := a.isLt
  simp only [N, asm]
  exact ⟨by omega, by omega, fld_eq (by omega), fld_eq (by omega), by unfold bits; omega, by unfold bits; omega⟩

theorem shapeAcverWait (x : BitVec 5) (y : BitVec 5) (a : BitVec 3) :
    let N := asm 0xA5800008 [(14, x.toNat), (8, y.toNat), (0, a.toNat)]
    N < 4294967296 ∧ N / 1048576 = 0xA58 ∧ fld N 14 5 = x ∧ fld N 8 5 = y ∧ fld N 0 3 = a ∧ bits N 3 5 = 1 ∧ bits N 13 1 = 0 ∧
      bits N 19 1 = 0 ∧ bits N 3 11 ≠ 0 := by
  intro N
  have h0 := x.isLt
  have h1 := y.isLt
  have h2 := a.isLt
  simp only [N, asm]
  exact ⟨by omega, by omega, fld_eq (by omega), fld_eq (by omega), fld_eq (by omega), by unfold bits; omega, by unfold bits; omega,
    by unfold bits; omega, by unfold bits; omega⟩

theorem movcWord_decodes {i : Instr} {w : Word} (y : BitVec 5) (c : Nat) (hc : c < 256) (h : some (BitVec.ofNat 32 (movcWord y c)) = some w)
    (hi : movcOf y (BitVec.ofNat 8 c) = i) : decodeWord w = .ok i := by
  have h0 := y.isLt
  refine wordX (N := movcWord y c) (by unfold movcWord; omega) (by unfold movcWord; omega) h ?_
  have ho : bits (movcWord y c) 20 9 = 0x60 := by unfold bits movcWord; omega
  have h1 : bits (movcWord y c) 13 7 = 0 := by unfold bits movcWord; omega
  have h2 : fld (movcWord y c) 8 5 = y := fld_eq (by unfold movcWord; omega)
  have h3 : fld (movcWord y c) 0 8 = BitVec.ofNat 8 c := by
    apply BitVec.eq_of_toNat_eq
    rw [fld, BitVec.toNat_ofNat, BitVec.toNat_ofNat]
    unfold movcWord
    omega
  rw [decodeX, ho]
  simp only [zeros, h1, h2, h3, hi]
  rfl

theorem movcOf_plain (y : BitVec 5) (c : BitVec 8) (h : plainRegister c.toNat = true) : movcOf y c = .movc y c := by
  simp only [plainRegister, Bool.or_eq_true, Bool.and_eq_true, beq_iff_eq, decide_eq_true_eq] at h
  simp only [movcOf]
  rw [if_neg (by simp; omega), if_neg (by simp; omega), if_neg (by simp; omega), if_neg (by simp; omega), if_neg (by simp; omega),
    if_neg (by simp; omega)]

theorem movcOf_tile (y : BitVec 5) (n : BitVec 5) : movcOf y (BitVec.ofNat 8 (0x20 + n.toNat)) = .tsWrite n y := by
  have h := n.isLt
  have e : (BitVec.ofNat 8 (0x20 + n.toNat)).toNat = 0x20 + n.toNat := by
    rw [BitVec.toNat_ofNat]
    omega
  simp only [movcOf, e]
  rw [if_neg (by simp; omega), if_neg (by simp; omega), if_pos (by rw [Bool.and_eq_true, decide_eq_true_eq, decide_eq_true_eq]; omega), Nat.add_sub_cancel_left, BitVec.ofNat_toNat,
    BitVec.setWidth_eq]

theorem movcOf_av (y : BitVec 5) (n : BitVec 3) : movcOf y (BitVec.ofNat 8 (0x40 + n.toNat)) = .avWrite n y := by
  have h := n.isLt
  have e : (BitVec.ofNat 8 (0x40 + n.toNat)).toNat = 0x40 + n.toNat := by
    rw [BitVec.toNat_ofNat]
    omega
  simp only [movcOf, e]
  rw [if_neg (by simp; omega), if_neg (by simp; omega), if_neg (by simp), if_pos (by rw [Bool.and_eq_true, decide_eq_true_eq, decide_eq_true_eq]; omega), Nat.add_sub_cancel_left, BitVec.ofNat_toNat,
    BitVec.setWidth_eq]

theorem movcOf_crate (y : BitVec 5) (n : BitVec 3) : movcOf y (BitVec.ofNat 8 (0x48 + n.toNat)) = .crate n y := by
  have h := n.isLt
  have e : (BitVec.ofNat 8 (0x48 + n.toNat)).toNat = 0x48 + n.toNat := by
    rw [BitVec.toNat_ofNat]
    omega
  simp only [movcOf, e]
  rw [if_neg (by simp; omega), if_neg (by simp; omega), if_neg (by simp; omega), if_neg (by simp), if_pos (by rw [Bool.and_eq_true, decide_eq_true_eq, decide_eq_true_eq]; omega), Nat.add_sub_cancel_left, BitVec.ofNat_toNat,
    BitVec.setWidth_eq]

theorem movcOf_bp (y : BitVec 5) (n : BitVec 4) : movcOf y (BitVec.ofNat 8 (0x50 + n.toNat)) = .breakpointWrite n y := by
  have h := n.isLt
  have e : (BitVec.ofNat 8 (0x50 + n.toNat)).toNat = 0x50 + n.toNat := by
    rw [BitVec.toNat_ofNat]
    omega
  simp only [movcOf, e]
  rw [if_neg (by simp; omega), if_neg (by simp; omega), if_neg (by simp; omega), if_neg (by simp; omega), if_neg (by simp), if_pos (by rw [Bool.and_eq_true, decide_eq_true_eq, decide_eq_true_eq]; omega), Nat.add_sub_cancel_left, BitVec.ofNat_toNat,
    BitVec.setWidth_eq]


end Sys2Proof.Laws
end

