-- ==== Sys2Proof/Laws/Maps.lean ====
section
/-! SUPPORT. What the operations on maps, bytes and words do: a read after a write, and the canonical form. -/

namespace Sys2Proof.Machine

variable {α : Type}

theorem look_cons (d : α) (a k : Nat) (x : α) (r : NMap α) : look d ((a, x) :: r) k = if k = a then x else look d r k := by
  by_cases h : k = a
  · simp [look, h]
  · simp [look, h, Ne.symm h]

theorem lookup_cons_ite (a k : Nat) (x : α) (r : NMap α) :
    List.lookup k ((a, x) :: r) = if k = a then some x else List.lookup k r := by
  by_cases h : k = a
  · simp [List.lookup, h]
  · have : (k == a) = false := by simpa using h
    simp [List.lookup, this, h]

theorem look_insertAt (d : α) (m : NMap α) (k k' : Nat) (v : α) (h : ∀ e ∈ m, e.1 ≠ k) :
    look d (insertAt k v m) k' = if k' = k then v else look d m k' := by
  induction m with
  | nil => simp [insertAt, look_cons]
  | cons e r ih =>
    obtain ⟨a, x⟩ := e
    have ih := ih fun e he => h e (List.mem_cons_of_mem _ he)
    have ha : a ≠ k := h (a, x) (by simp)
    simp only [insertAt]
    split
    · simp [look_cons]
    · simp only [look_cons, ih]
      by_cases h1 : k' = a
      · subst h1; simp [ha]
      · simp [h1]

theorem drop_keys (m : NMap α) (k : Nat) : ∀ e ∈ drop m k, e.1 ≠ k := by
  intro e he
  simpa using (List.mem_filter.mp he).2

theorem look_drop (d : α) (m : NMap α) (k k' : Nat) : look d (drop m k) k' = if k' = k then d else look d m k' := by
  induction m with
  | nil => simp [drop, look]
  | cons e r ih =>
    obtain ⟨a, x⟩ := e
    simp only [drop] at ih
    by_cases ha : a = k
    · subst ha
      simp only [drop, List.filter_cons, bne_self_eq_false, Bool.false_eq_true, if_false, ih, look_cons]
      by_cases h1 : k' = a <;> simp [h1]
    · have : ((a, x).1 != k) = true := by simpa using ha
      simp only [drop, List.filter_cons, this, if_true, ih, look_cons]
      by_cases h1 : k' = a
      · subst h1; simp [ha]
      · simp [h1]

/-- A read after a write of a map whose default values are not listed. -/
@[simp] theorem look_putAt [DecidableEq α] (d : α) (m : NMap α) (k k' : Nat) (v : α) :
    look d (putAt d m k v) k' = if k' = k then v else look d m k' := by
  unfold putAt
  split
  · subst_vars; rw [look_drop]
  · rw [look_insertAt _ _ _ _ _ (drop_keys m k), look_drop]; split <;> simp_all

/-- A read after a write of a map that lists every value. -/
@[simp] theorem look_setAt (d : α) (m : NMap α) (k k' : Nat) (v : α) :
    look d (setAt m k v) k' = if k' = k then v else look d m k' := by
  rw [setAt, look_insertAt _ _ _ _ _ (drop_keys m k), look_drop]
  by_cases h1 : k' = k <;> simp [h1]

theorem lookup_insertAt (m : NMap α) (k k' : Nat) (v : α) (h : ∀ e ∈ m, e.1 ≠ k) :
    List.lookup k' (insertAt k v m) = if k' = k then some v else List.lookup k' m := by
  induction m with
  | nil => simp [insertAt, lookup_cons_ite]
  | cons e r ih =>
    obtain ⟨a, x⟩ := e
    have ih := ih fun e he => h e (List.mem_cons_of_mem _ he)
    have ha : a ≠ k := h (a, x) (by simp)
    simp only [insertAt]
    split
    · simp only [lookup_cons_ite]
    · simp only [lookup_cons_ite, ih]
      by_cases h1 : k' = a
      · subst h1; simp [ha]
      · simp [h1]

theorem lookup_drop (m : NMap α) (k k' : Nat) : List.lookup k' (drop m k) = if k' = k then none else List.lookup k' m := by
  induction m with
  | nil => simp [drop]
  | cons e r ih =>
    obtain ⟨a, x⟩ := e
    simp only [drop] at ih
    by_cases ha : a = k
    · subst ha
      simp only [drop, List.filter_cons, bne_self_eq_false, Bool.false_eq_true, if_false, ih, lookup_cons_ite]
      by_cases h1 : k' = a <;> simp [h1]
    · have : ((a, x).1 != k) = true := by simpa using ha
      simp only [drop, List.filter_cons, this, if_true, ih, lookup_cons_ite]
      by_cases h1 : k' = a
      · subst h1; simp [ha]
      · simp [h1]

theorem drop_insertAt (m : NMap α) (k : Nat) (v : α) (h : ∀ e ∈ m, e.1 ≠ k) : drop (insertAt k v m) k = m := by
  induction m with
  | nil => simp [insertAt, drop]
  | cons e r ih =>
    have hr : ∀ x ∈ r, x.1 ≠ k := fun x hx => h x (List.mem_cons_of_mem _ hx)
    have hd : drop r k = r := List.filter_eq_self.2 fun x hx => by simpa using hr x hx
    have he : e.1 ≠ k := h e (by simp)
    simp only [insertAt]
    split
    · simpa [drop, he] using hd
    · simpa [drop, he] using ih hr

/-- The later of two settings of a key stands. -/
@[simp] theorem setAt_setAt (m : NMap α) (k : Nat) (v w : α) : setAt (setAt m k v) k w = setAt m k w := by
  rw [setAt, setAt, drop_insertAt _ _ _ (drop_keys m k), setAt]

@[simp] theorem lookup_setAt (m : NMap α) (k k' : Nat) (v : α) :
    List.lookup k' (setAt m k v) = if k' = k then some v else List.lookup k' m := by
  rw [setAt, lookup_insertAt _ _ _ _ (drop_keys m k), lookup_drop]
  by_cases h1 : k' = k <;> simp [h1]

/-- A key that is listed is found by either reading. -/
theorem look_of_lookup (d : α) {m : NMap α} {k : Nat} {v : α} (h : List.lookup k m = some v) : look d m k = v := by
  induction m with
  | nil => simp at h
  | cons e r ih =>
    obtain ⟨a, x⟩ := e
    rw [lookup_cons_ite] at h
    rw [look_cons]
    split at h
    · simp_all
    · simp_all

/-! ### The canonical form -/

/-- The canonical form, said of all pairs at once. -/
theorem canonical_iff [DecidableEq α] (d : α) (m : NMap α) :
    canonical d m = true ↔ m.Pairwise (fun a b => a.1 < b.1) ∧ ∀ e ∈ m, e.2 ≠ d := by
  induction m with
  | nil => simp [canonical]
  | cons a r ih =>
    cases r with
    | nil => simp [canonical]
    | cons b r =>
      simp only [canonical, Bool.and_eq_true, decide_eq_true_eq, ih, List.pairwise_cons, List.mem_cons, forall_eq_or_imp]
      constructor
      · rintro ⟨⟨h1, h2⟩, ⟨h3, h4⟩, h5, h6⟩
        exact ⟨⟨⟨h1, fun e he => lt_trans h1 (h3 e he)⟩, h3, h4⟩, h2, h5, h6⟩
      · rintro ⟨⟨⟨h1, _⟩, h3, h4⟩, h2, h5, h6⟩
        exact ⟨⟨h1, h2⟩, ⟨h3, h4⟩, h5, h6⟩

theorem insertAt_mem (m : NMap α) (k : Nat) (v : α) (e : Nat × α) : e ∈ insertAt k v m ↔ e = (k, v) ∨ e ∈ m := by
  induction m with
  | nil => simp [insertAt]
  | cons a r ih =>
    simp only [insertAt]
    split
    · simp
    · simp only [List.mem_cons, ih]; tauto

theorem insertAt_sorted (m : NMap α) (k : Nat) (v : α) (hk : ∀ e ∈ m, e.1 ≠ k) (hm : m.Pairwise fun a b => a.1 < b.1) :
    (insertAt k v m).Pairwise fun a b => a.1 < b.1 := by
  induction m with
  | nil => simp [insertAt]
  | cons a r ih =>
    have h := List.pairwise_cons.mp hm
    have ha := hk a (by simp)
    simp only [insertAt]
    split
    · rename_i hlt
      refine List.pairwise_cons.mpr ⟨?_, hm⟩
      intro e he
      rcases List.mem_cons.mp he with rfl | he
      · exact hlt
      · exact lt_trans hlt (h.1 e he)
    · rename_i hge
      refine List.pairwise_cons.mpr ⟨?_, ih (fun e he => hk e (List.mem_cons_of_mem _ he)) h.2⟩
      intro e he
      rcases (insertAt_mem r k v e).mp he with rfl | he
      · simp only; omega
      · exact h.1 e he

theorem drop_sorted (m : NMap α) (k : Nat) (hm : m.Pairwise fun a b => a.1 < b.1) : (drop m k).Pairwise fun a b => a.1 < b.1 :=
  hm.filter _

/-- A write keeps the canonical form. -/
theorem putAt_canonical [DecidableEq α] (d : α) (m : NMap α) (k : Nat) (v : α) (h : canonical d m = true) :
    canonical d (putAt d m k v) = true := by
  rw [canonical_iff] at h ⊢
  unfold putAt
  split
  · exact ⟨drop_sorted m k h.1, fun e he => h.2 e (List.mem_filter.mp he).1⟩
  · rename_i hv
    refine ⟨insertAt_sorted _ _ _ (drop_keys m k) (drop_sorted m k h.1), ?_⟩
    intro e he
    rcases (insertAt_mem _ _ _ _).mp he with rfl | he
    · exact hv
    · exact h.2 e (List.mem_filter.mp he).1

/-! ### Bytes and words of memory -/

theorem readByte_writeByte (m : Memory) (a a' : Nat) (b : Byte) :
    readByte (writeByte m a b) a' = if a' = a then b else readByte m a' := by
  simp [readByte, writeByte]

theorem writeByte_wf (m : Memory) (a : Nat) (b : Byte) (h : Memory.wf m = true) : Memory.wf (writeByte m a b) = true :=
  putAt_canonical 0 m a b h

theorem writeBytes_wf (m : Memory) (a : Nat) (bs : List Byte) (h : Memory.wf m = true) : Memory.wf (writeBytes m a bs) = true := by
  induction bs generalizing m a with
  | nil => exact h
  | cons b r ih => exact ih _ _ (writeByte_wf m a b h)

/-- A stored word keeps the canonical form of memory. -/
theorem putWord_wf (m : Memory) (a : Nat) (w : Word) (h : Memory.wf m = true) : Memory.wf (putWord m a w) = true :=
  writeBytes_wf m a _ h

theorem readByte_writeBytes_out (m : Memory) (a a' : Nat) (bs : List Byte) (h : a' < a ∨ a + bs.length ≤ a') :
    readByte (writeBytes m a bs) a' = readByte m a' := by
  induction bs generalizing m a with
  | nil => rfl
  | cons b r ih =>
    simp only [List.length_cons] at h
    rw [writeBytes, ih _ _ (by omega), readByte_writeByte]
    simp; omega

/-- A stored word changes no byte outside its four. -/
theorem readByte_putWord_out (m : Memory) (a a' : Nat) (w : Word) (h : a' < a ∨ a + 4 ≤ a') :
    readByte (putWord m a w) a' = readByte m a' :=
  readByte_writeBytes_out m a a' _ (by simpa [leBytes] using h)

/-- A word reads back as it was stored. -/
theorem wordAt_putWord (m : Memory) (a : Nat) (w : Word) : wordAt (putWord m a w) a = w := by
  have e : (List.range 4).map (fun i => readByte (putWord m a w) (a + i)) =
      [BitVec.ofNat 8 w.toNat, BitVec.ofNat 8 (w.toNat / 256), BitVec.ofNat 8 (w.toNat / 256 / 256), BitVec.ofNat 8 (w.toNat / 256 / 256 / 256)] := by
    have r : List.range 4 = [0, 1, 2, 3] := rfl
    simp only [r, putWord, leBytes, writeBytes, readByte_writeByte, List.map_cons, List.map_nil]
    simp [Nat.add_assoc]
  rw [wordAt, e]
  apply BitVec.eq_of_toNat_eq
  simp only [ofLeBytes, BitVec.toNat_ofNat]
  have := w.isLt
  omega

/-- A word at another aligned address is as before. -/
theorem wordAt_putWord_ne (m : Memory) (a a' : Nat) (w : Word) (h : a' + 4 ≤ a ∨ a + 4 ≤ a') :
    wordAt (putWord m a w) a' = wordAt m a' := by
  unfold wordAt
  congr 2
  apply List.map_congr_left
  intro i hi
  have := List.mem_range.mp hi
  exact readByte_putWord_out m a (a' + i) w (by omega)

end Sys2Proof.Machine
end

