-- ==== Sys2Proof/Laws/State.lean ====
section
/-! SUPPORT. What each update of the state and of a team leaves and changes, a field at a time. -/

namespace Sys2Proof.Machine

/-! ### `setTeam` -/

@[simp] theorem setTeam_setTeam (s : State) (k : Nat) (t u : Team) : setTeam (setTeam s k t) k u = setTeam s k u := by simp [setTeam]
@[simp] theorem setTeam_agenda (s : State) (k : Nat) (t : Team) : (setTeam s k t).agenda = s.agenda := rfl
@[simp] theorem setTeam_cur (s : State) (k : Nat) (t : Team) : (setTeam s k t).cur = s.cur := rfl
@[simp] theorem setTeam_stalled (s : State) (k : Nat) (t : Team) : (setTeam s k t).stalled = s.stalled := rfl
@[simp] theorem setTeam_fresh (s : State) (k : Nat) (t : Team) : (setTeam s k t).fresh = s.fresh := rfl
@[simp] theorem setTeam_tick (s : State) (k : Nat) (t : Team) : (setTeam s k t).tick = s.tick := rfl
@[simp] theorem setTeam_upset (s : State) (k : Nat) (t : Team) : (setTeam s k t).upset = s.upset := rfl
@[simp] theorem setTeam_teams (s : State) (k : Nat) (t : Team) : (setTeam s k t).teams = setAt s.teams k t := rfl
@[simp] theorem setTeam_crews (s : State) (k : Nat) (t : Team) : (setTeam s k t).crews = s.crews := rfl
@[simp] theorem setTeam_bands (s : State) (k : Nat) (t : Team) : (setTeam s k t).bands = s.bands := rfl
@[simp] theorem setTeam_cores (s : State) (k : Nat) (t : Team) : (setTeam s k t).cores = s.cores := rfl
@[simp] theorem setTeam_drams (s : State) (k : Nat) (t : Team) : (setTeam s k t).drams = s.drams := rfl
@[simp] theorem setTeam_tenants (s : State) (k : Nat) (t : Team) : (setTeam s k t).tenants = s.tenants := rfl
@[simp] theorem setTeam_l2 (s : State) (k : Nat) (t : Team) : (setTeam s k t).l2 = s.l2 := rfl
@[simp] theorem setTeam_tcache (s : State) (k : Nat) (t : Team) : (setTeam s k t).tcache = s.tcache := rfl
@[simp] theorem setTeam_mem (s : State) (k : Nat) (t : Team) : (setTeam s k t).mem = s.mem := rfl
@[simp] theorem setTeam_memPoison (s : State) (k : Nat) (t : Team) : (setTeam s k t).memPoison = s.memPoison := rfl
@[simp] theorem setTeam_flips (s : State) (k : Nat) (t : Team) : (setTeam s k t).flips = s.flips := rfl
@[simp] theorem setTeam_slots (s : State) (k : Nat) (t : Team) : (setTeam s k t).slots = s.slots := rfl
@[simp] theorem setTeam_fattr (s : State) (k : Nat) (t : Team) : (setTeam s k t).fattr = s.fattr := rfl
@[simp] theorem setTeam_windows (s : State) (k : Nat) (t : Team) : (setTeam s k t).windows = s.windows := rfl
@[simp] theorem setTeam_extents (s : State) (k : Nat) (t : Team) : (setTeam s k t).extents = s.extents := rfl
@[simp] theorem setTeam_loads (s : State) (k : Nat) (t : Team) : (setTeam s k t).loads = s.loads := rfl
@[simp] theorem setTeam_misses (s : State) (k : Nat) (t : Team) : (setTeam s k t).misses = s.misses := rfl
@[simp] theorem setTeam_l2q (s : State) (k : Nat) (t : Team) : (setTeam s k t).l2q = s.l2q := rfl
@[simp] theorem setTeam_homeq (s : State) (k : Nat) (t : Team) : (setTeam s k t).homeq = s.homeq := rfl
@[simp] theorem setTeam_bursts (s : State) (k : Nat) (t : Team) : (setTeam s k t).bursts = s.bursts := rfl
@[simp] theorem setTeam_fills (s : State) (k : Nat) (t : Team) : (setTeam s k t).fills = s.fills := rfl
@[simp] theorem setTeam_pubs (s : State) (k : Nat) (t : Team) : (setTeam s k t).pubs = s.pubs := rfl
@[simp] theorem setTeam_asks (s : State) (k : Nat) (t : Team) : (setTeam s k t).asks = s.asks := rfl
@[simp] theorem setTeam_owed (s : State) (k : Nat) (t : Team) : (setTeam s k t).owed = s.owed := rfl
@[simp] theorem setTeam_late (s : State) (k : Nat) (t : Team) : (setTeam s k t).late = s.late := rfl
@[simp] theorem setTeam_serial (s : State) (k : Nat) (t : Team) : (setTeam s k t).serial = s.serial := rfl
@[simp] theorem setTeam_msgs (s : State) (k : Nat) (t : Team) : (setTeam s k t).msgs = s.msgs := rfl
@[simp] theorem setTeam_frags (s : State) (k : Nat) (t : Team) : (setTeam s k t).frags = s.frags := rfl
@[simp] theorem setTeam_nextId (s : State) (k : Nat) (t : Team) : (setTeam s k t).nextId = s.nextId := rfl
@[simp] theorem setTeam_rx (s : State) (k : Nat) (t : Team) : (setTeam s k t).rx = s.rx := rfl
@[simp] theorem setTeam_inbox (s : State) (k : Nat) (t : Team) : (setTeam s k t).inbox = s.inbox := rfl
@[simp] theorem setTeam_crates (s : State) (k : Nat) (t : Team) : (setTeam s k t).crates = s.crates := rfl
@[simp] theorem setTeam_spinj (s : State) (k : Nat) (t : Team) : (setTeam s k t).spinj = s.spinj := rfl
@[simp] theorem setTeam_deadLinks (s : State) (k : Nat) (t : Team) : (setTeam s k t).deadLinks = s.deadLinks := rfl
@[simp] theorem setTeam_writeJobs (s : State) (k : Nat) (t : Team) : (setTeam s k t).writeJobs = s.writeJobs := rfl
@[simp] theorem setTeam_blocks (s : State) (k : Nat) (t : Team) : (setTeam s k t).blocks = s.blocks := rfl
@[simp] theorem setTeam_walks (s : State) (k : Nat) (t : Team) : (setTeam s k t).walks = s.walks := rfl
@[simp] theorem setTeam_ats (s : State) (k : Nat) (t : Team) : (setTeam s k t).ats = s.ats := rfl
@[simp] theorem setTeam_atsDenied (s : State) (k : Nat) (t : Team) : (setTeam s k t).atsDenied = s.atsDenied := rfl
@[simp] theorem setTeam_sealedPoison (s : State) (k : Nat) (t : Team) : (setTeam s k t).sealedPoison = s.sealedPoison := rfl
@[simp] theorem setTeam_lag (s : State) (k : Nat) (t : Team) : (setTeam s k t).lag = s.lag := rfl
@[simp] theorem setTeam_steps (s : State) (k : Nat) (t : Team) : (setTeam s k t).steps = s.steps := rfl
@[simp] theorem setTeam_alarm (s : State) (k : Nat) (t : Team) : (setTeam s k t).alarm = s.alarm := rfl
@[simp] theorem setTeam_command (s : State) (k : Nat) (t : Team) : (setTeam s k t).command = s.command := rfl
@[simp] theorem setTeam_losses (s : State) (k : Nat) (t : Team) : (setTeam s k t).losses = s.losses := rfl
@[simp] theorem setTeam_moduleNo (s : State) (k : Nat) (t : Team) : (setTeam s k t).moduleNo = s.moduleNo := rfl
@[simp] theorem setTeam_dramOff (s : State) (k : Nat) (t : Team) : (setTeam s k t).dramOff = s.dramOff := rfl
@[simp] theorem setTeam_invals (s : State) (k : Nat) (t : Team) : (setTeam s k t).invals = s.invals := rfl
@[simp] theorem setTeam_producers (s : State) (k : Nat) (t : Team) : (setTeam s k t).producers = s.producers := rfl
@[simp] theorem setTeam_millJobs (s : State) (k : Nat) (t : Team) : (setTeam s k t).millJobs = s.millJobs := rfl
@[simp] theorem setTeam_counters (s : State) (k : Nat) (t : Team) : (setTeam s k t).counters = s.counters := rfl
@[simp] theorem setTeam_ras (s : State) (k : Nat) (t : Team) : (setTeam s k t).ras = s.ras := rfl
@[simp] theorem setTeam_rues (s : State) (k : Nat) (t : Team) : (setTeam s k t).rues = s.rues := rfl
@[simp] theorem setTeam_worn (s : State) (k : Nat) (t : Team) : (setTeam s k t).worn = s.worn := rfl
@[simp] theorem setTeam_modst (s : State) (k : Nat) (t : Team) : (setTeam s k t).modst = s.modst := rfl
@[simp] theorem setTeam_ready (s : State) (k : Nat) (t : Team) : (setTeam s k t).ready = s.ready := rfl
@[simp] theorem setTeam_hmap (s : State) (k : Nat) (t : Team) : (setTeam s k t).hmap = s.hmap := rfl
@[simp] theorem setTeam_launches (s : State) (k : Nat) (t : Team) : (setTeam s k t).launches = s.launches := rfl
@[simp] theorem setTeam_turns (s : State) (k : Nat) (t : Team) : (setTeam s k t).turns = s.turns := rfl
@[simp] theorem setTeam_claims (s : State) (k : Nat) (t : Team) : (setTeam s k t).claims = s.claims := rfl
@[simp] theorem setTeam_turnQ (s : State) (k : Nat) (t : Team) : (setTeam s k t).turnQ = s.turnQ := rfl
@[simp] theorem setTeam_capped (s : State) (k : Nat) (t : Team) : (setTeam s k t).capped = s.capped := rfl
@[simp] theorem setTeam_blocked (s : State) (k : Nat) (t : Team) : (setTeam s k t).blocked = s.blocked := rfl
@[simp] theorem setTeam_queues (s : State) (k : Nat) (t : Team) : (setTeam s k t).queues = s.queues := rfl
@[simp] theorem setTeam_appends (s : State) (k : Nat) (t : Team) : (setTeam s k t).appends = s.appends := rfl
@[simp] theorem setTeam_copies (s : State) (k : Nat) (t : Team) : (setTeam s k t).copies = s.copies := rfl
@[simp] theorem setTeam_groups (s : State) (k : Nat) (t : Team) : (setTeam s k t).groups = s.groups := rfl
@[simp] theorem setTeam_parts (s : State) (k : Nat) (t : Team) : (setTeam s k t).parts = s.parts := rfl
@[simp] theorem setTeam_collTurns (s : State) (k : Nat) (t : Team) : (setTeam s k t).collTurns = s.collTurns := rfl
@[simp] theorem setTeam_collFailed (s : State) (k : Nat) (t : Team) : (setTeam s k t).collFailed = s.collFailed := rfl
@[simp] theorem setTeam_exchanges (s : State) (k : Nat) (t : Team) : (setTeam s k t).exchanges = s.exchanges := rfl
@[simp] theorem setTeam_walking (s : State) (k : Nat) (t : Team) : (setTeam s k t).walking = s.walking := rfl
@[simp] theorem setTeam_saveAreas (s : State) (k : Nat) (t : Team) : (setTeam s k t).saveAreas = s.saveAreas := rfl
@[simp] theorem setTeam_services (s : State) (k : Nat) (t : Team) : (setTeam s k t).services = s.services := rfl
@[simp] theorem setTeam_lastTime (s : State) (k : Nat) (t : Team) : (setTeam s k t).lastTime = s.lastTime := rfl
@[simp] theorem setTeam_dies (s : State) (k : Nat) (t : Team) : (setTeam s k t).dies = s.dies := rfl
@[simp] theorem setTeam_powerPoint (s : State) (k : Nat) (t : Team) : (setTeam s k t).powerPoint = s.powerPoint := rfl
@[simp] theorem setTeam_heatPoint (s : State) (k : Nat) (t : Team) : (setTeam s k t).heatPoint = s.heatPoint := rfl
@[simp] theorem setTeam_pwrcap (s : State) (k : Nat) (t : Team) : (setTeam s k t).pwrcap = s.pwrcap := rfl
@[simp] theorem setTeam_almpol (s : State) (k : Nat) (t : Team) : (setTeam s k t).almpol = s.almpol := rfl
@[simp] theorem setTeam_spareAt (s : State) (k : Nat) (t : Team) : (setTeam s k t).spareAt = s.spareAt := rfl
@[simp] theorem setTeam_verified (s : State) (k : Nat) (t : Team) : (setTeam s k t).verified = s.verified := rfl
@[simp] theorem setTeam_bootFailed (s : State) (k : Nat) (t : Team) : (setTeam s k t).bootFailed = s.bootFailed := rfl
@[simp] theorem setTeam_firmware (s : State) (k : Nat) (t : Team) : (setTeam s k t).firmware = s.firmware := rfl
@[simp] theorem setTeam_secver (s : State) (k : Nat) (t : Team) : (setTeam s k t).secver = s.secver := rfl
@[simp] theorem setTeam_measures (s : State) (k : Nat) (t : Team) : (setTeam s k t).measures = s.measures := rfl
@[simp] theorem setTeam_replies (s : State) (k : Nat) (t : Team) : (setTeam s k t).replies = s.replies := rfl
@[simp] theorem setTeam_hostData (s : State) (k : Nat) (t : Team) : (setTeam s k t).hostData = s.hostData := rfl
@[simp] theorem setTeam_errors (s : State) (k : Nat) (t : Team) : (setTeam s k t).errors = s.errors := rfl
@[simp] theorem setTeam_dooms (s : State) (k : Nat) (t : Team) : (setTeam s k t).dooms = s.dooms := rfl

/-! ### `setCrew` -/

@[simp] theorem setCrew_agenda (s : State) (k : Nat) (c : Crew) : (setCrew s k c).agenda = s.agenda := rfl
@[simp] theorem setCrew_cur (s : State) (k : Nat) (c : Crew) : (setCrew s k c).cur = s.cur := rfl
@[simp] theorem setCrew_stalled (s : State) (k : Nat) (c : Crew) : (setCrew s k c).stalled = s.stalled := rfl
@[simp] theorem setCrew_fresh (s : State) (k : Nat) (c : Crew) : (setCrew s k c).fresh = s.fresh := rfl
@[simp] theorem setCrew_tick (s : State) (k : Nat) (c : Crew) : (setCrew s k c).tick = s.tick := rfl
@[simp] theorem setCrew_upset (s : State) (k : Nat) (c : Crew) : (setCrew s k c).upset = s.upset := rfl
@[simp] theorem setCrew_teams (s : State) (k : Nat) (c : Crew) : (setCrew s k c).teams = s.teams := rfl
@[simp] theorem setCrew_crews (s : State) (k : Nat) (c : Crew) : (setCrew s k c).crews = setAt s.crews k c := rfl
@[simp] theorem setCrew_bands (s : State) (k : Nat) (c : Crew) : (setCrew s k c).bands = s.bands := rfl
@[simp] theorem setCrew_cores (s : State) (k : Nat) (c : Crew) : (setCrew s k c).cores = s.cores := rfl
@[simp] theorem setCrew_drams (s : State) (k : Nat) (c : Crew) : (setCrew s k c).drams = s.drams := rfl
@[simp] theorem setCrew_tenants (s : State) (k : Nat) (c : Crew) : (setCrew s k c).tenants = s.tenants := rfl
@[simp] theorem setCrew_l2 (s : State) (k : Nat) (c : Crew) : (setCrew s k c).l2 = s.l2 := rfl
@[simp] theorem setCrew_tcache (s : State) (k : Nat) (c : Crew) : (setCrew s k c).tcache = s.tcache := rfl
@[simp] theorem setCrew_mem (s : State) (k : Nat) (c : Crew) : (setCrew s k c).mem = s.mem := rfl
@[simp] theorem setCrew_memPoison (s : State) (k : Nat) (c : Crew) : (setCrew s k c).memPoison = s.memPoison := rfl
@[simp] theorem setCrew_flips (s : State) (k : Nat) (c : Crew) : (setCrew s k c).flips = s.flips := rfl
@[simp] theorem setCrew_slots (s : State) (k : Nat) (c : Crew) : (setCrew s k c).slots = s.slots := rfl
@[simp] theorem setCrew_fattr (s : State) (k : Nat) (c : Crew) : (setCrew s k c).fattr = s.fattr := rfl
@[simp] theorem setCrew_windows (s : State) (k : Nat) (c : Crew) : (setCrew s k c).windows = s.windows := rfl
@[simp] theorem setCrew_extents (s : State) (k : Nat) (c : Crew) : (setCrew s k c).extents = s.extents := rfl
@[simp] theorem setCrew_loads (s : State) (k : Nat) (c : Crew) : (setCrew s k c).loads = s.loads := rfl
@[simp] theorem setCrew_misses (s : State) (k : Nat) (c : Crew) : (setCrew s k c).misses = s.misses := rfl
@[simp] theorem setCrew_l2q (s : State) (k : Nat) (c : Crew) : (setCrew s k c).l2q = s.l2q := rfl
@[simp] theorem setCrew_homeq (s : State) (k : Nat) (c : Crew) : (setCrew s k c).homeq = s.homeq := rfl
@[simp] theorem setCrew_bursts (s : State) (k : Nat) (c : Crew) : (setCrew s k c).bursts = s.bursts := rfl
@[simp] theorem setCrew_fills (s : State) (k : Nat) (c : Crew) : (setCrew s k c).fills = s.fills := rfl
@[simp] theorem setCrew_pubs (s : State) (k : Nat) (c : Crew) : (setCrew s k c).pubs = s.pubs := rfl
@[simp] theorem setCrew_asks (s : State) (k : Nat) (c : Crew) : (setCrew s k c).asks = s.asks := rfl
@[simp] theorem setCrew_owed (s : State) (k : Nat) (c : Crew) : (setCrew s k c).owed = s.owed := rfl
@[simp] theorem setCrew_late (s : State) (k : Nat) (c : Crew) : (setCrew s k c).late = s.late := rfl
@[simp] theorem setCrew_serial (s : State) (k : Nat) (c : Crew) : (setCrew s k c).serial = s.serial := rfl
@[simp] theorem setCrew_msgs (s : State) (k : Nat) (c : Crew) : (setCrew s k c).msgs = s.msgs := rfl
@[simp] theorem setCrew_frags (s : State) (k : Nat) (c : Crew) : (setCrew s k c).frags = s.frags := rfl
@[simp] theorem setCrew_nextId (s : State) (k : Nat) (c : Crew) : (setCrew s k c).nextId = s.nextId := rfl
@[simp] theorem setCrew_rx (s : State) (k : Nat) (c : Crew) : (setCrew s k c).rx = s.rx := rfl
@[simp] theorem setCrew_inbox (s : State) (k : Nat) (c : Crew) : (setCrew s k c).inbox = s.inbox := rfl
@[simp] theorem setCrew_crates (s : State) (k : Nat) (c : Crew) : (setCrew s k c).crates = s.crates := rfl
@[simp] theorem setCrew_spinj (s : State) (k : Nat) (c : Crew) : (setCrew s k c).spinj = s.spinj := rfl
@[simp] theorem setCrew_deadLinks (s : State) (k : Nat) (c : Crew) : (setCrew s k c).deadLinks = s.deadLinks := rfl
@[simp] theorem setCrew_writeJobs (s : State) (k : Nat) (c : Crew) : (setCrew s k c).writeJobs = s.writeJobs := rfl
@[simp] theorem setCrew_blocks (s : State) (k : Nat) (c : Crew) : (setCrew s k c).blocks = s.blocks := rfl
@[simp] theorem setCrew_walks (s : State) (k : Nat) (c : Crew) : (setCrew s k c).walks = s.walks := rfl
@[simp] theorem setCrew_ats (s : State) (k : Nat) (c : Crew) : (setCrew s k c).ats = s.ats := rfl
@[simp] theorem setCrew_atsDenied (s : State) (k : Nat) (c : Crew) : (setCrew s k c).atsDenied = s.atsDenied := rfl
@[simp] theorem setCrew_sealedPoison (s : State) (k : Nat) (c : Crew) : (setCrew s k c).sealedPoison = s.sealedPoison := rfl
@[simp] theorem setCrew_lag (s : State) (k : Nat) (c : Crew) : (setCrew s k c).lag = s.lag := rfl
@[simp] theorem setCrew_steps (s : State) (k : Nat) (c : Crew) : (setCrew s k c).steps = s.steps := rfl
@[simp] theorem setCrew_alarm (s : State) (k : Nat) (c : Crew) : (setCrew s k c).alarm = s.alarm := rfl
@[simp] theorem setCrew_command (s : State) (k : Nat) (c : Crew) : (setCrew s k c).command = s.command := rfl
@[simp] theorem setCrew_losses (s : State) (k : Nat) (c : Crew) : (setCrew s k c).losses = s.losses := rfl
@[simp] theorem setCrew_moduleNo (s : State) (k : Nat) (c : Crew) : (setCrew s k c).moduleNo = s.moduleNo := rfl
@[simp] theorem setCrew_dramOff (s : State) (k : Nat) (c : Crew) : (setCrew s k c).dramOff = s.dramOff := rfl
@[simp] theorem setCrew_invals (s : State) (k : Nat) (c : Crew) : (setCrew s k c).invals = s.invals := rfl
@[simp] theorem setCrew_producers (s : State) (k : Nat) (c : Crew) : (setCrew s k c).producers = s.producers := rfl
@[simp] theorem setCrew_millJobs (s : State) (k : Nat) (c : Crew) : (setCrew s k c).millJobs = s.millJobs := rfl
@[simp] theorem setCrew_counters (s : State) (k : Nat) (c : Crew) : (setCrew s k c).counters = s.counters := rfl
@[simp] theorem setCrew_ras (s : State) (k : Nat) (c : Crew) : (setCrew s k c).ras = s.ras := rfl
@[simp] theorem setCrew_rues (s : State) (k : Nat) (c : Crew) : (setCrew s k c).rues = s.rues := rfl
@[simp] theorem setCrew_worn (s : State) (k : Nat) (c : Crew) : (setCrew s k c).worn = s.worn := rfl
@[simp] theorem setCrew_modst (s : State) (k : Nat) (c : Crew) : (setCrew s k c).modst = s.modst := rfl
@[simp] theorem setCrew_ready (s : State) (k : Nat) (c : Crew) : (setCrew s k c).ready = s.ready := rfl
@[simp] theorem setCrew_hmap (s : State) (k : Nat) (c : Crew) : (setCrew s k c).hmap = s.hmap := rfl
@[simp] theorem setCrew_launches (s : State) (k : Nat) (c : Crew) : (setCrew s k c).launches = s.launches := rfl
@[simp] theorem setCrew_turns (s : State) (k : Nat) (c : Crew) : (setCrew s k c).turns = s.turns := rfl
@[simp] theorem setCrew_claims (s : State) (k : Nat) (c : Crew) : (setCrew s k c).claims = s.claims := rfl
@[simp] theorem setCrew_turnQ (s : State) (k : Nat) (c : Crew) : (setCrew s k c).turnQ = s.turnQ := rfl
@[simp] theorem setCrew_capped (s : State) (k : Nat) (c : Crew) : (setCrew s k c).capped = s.capped := rfl
@[simp] theorem setCrew_blocked (s : State) (k : Nat) (c : Crew) : (setCrew s k c).blocked = s.blocked := rfl
@[simp] theorem setCrew_queues (s : State) (k : Nat) (c : Crew) : (setCrew s k c).queues = s.queues := rfl
@[simp] theorem setCrew_appends (s : State) (k : Nat) (c : Crew) : (setCrew s k c).appends = s.appends := rfl
@[simp] theorem setCrew_copies (s : State) (k : Nat) (c : Crew) : (setCrew s k c).copies = s.copies := rfl
@[simp] theorem setCrew_groups (s : State) (k : Nat) (c : Crew) : (setCrew s k c).groups = s.groups := rfl
@[simp] theorem setCrew_parts (s : State) (k : Nat) (c : Crew) : (setCrew s k c).parts = s.parts := rfl
@[simp] theorem setCrew_collTurns (s : State) (k : Nat) (c : Crew) : (setCrew s k c).collTurns = s.collTurns := rfl
@[simp] theorem setCrew_collFailed (s : State) (k : Nat) (c : Crew) : (setCrew s k c).collFailed = s.collFailed := rfl
@[simp] theorem setCrew_exchanges (s : State) (k : Nat) (c : Crew) : (setCrew s k c).exchanges = s.exchanges := rfl
@[simp] theorem setCrew_walking (s : State) (k : Nat) (c : Crew) : (setCrew s k c).walking = s.walking := rfl
@[simp] theorem setCrew_saveAreas (s : State) (k : Nat) (c : Crew) : (setCrew s k c).saveAreas = s.saveAreas := rfl
@[simp] theorem setCrew_services (s : State) (k : Nat) (c : Crew) : (setCrew s k c).services = s.services := rfl
@[simp] theorem setCrew_lastTime (s : State) (k : Nat) (c : Crew) : (setCrew s k c).lastTime = s.lastTime := rfl
@[simp] theorem setCrew_dies (s : State) (k : Nat) (c : Crew) : (setCrew s k c).dies = s.dies := rfl
@[simp] theorem setCrew_powerPoint (s : State) (k : Nat) (c : Crew) : (setCrew s k c).powerPoint = s.powerPoint := rfl
@[simp] theorem setCrew_heatPoint (s : State) (k : Nat) (c : Crew) : (setCrew s k c).heatPoint = s.heatPoint := rfl
@[simp] theorem setCrew_pwrcap (s : State) (k : Nat) (c : Crew) : (setCrew s k c).pwrcap = s.pwrcap := rfl
@[simp] theorem setCrew_almpol (s : State) (k : Nat) (c : Crew) : (setCrew s k c).almpol = s.almpol := rfl
@[simp] theorem setCrew_spareAt (s : State) (k : Nat) (c : Crew) : (setCrew s k c).spareAt = s.spareAt := rfl
@[simp] theorem setCrew_verified (s : State) (k : Nat) (c : Crew) : (setCrew s k c).verified = s.verified := rfl
@[simp] theorem setCrew_bootFailed (s : State) (k : Nat) (c : Crew) : (setCrew s k c).bootFailed = s.bootFailed := rfl
@[simp] theorem setCrew_firmware (s : State) (k : Nat) (c : Crew) : (setCrew s k c).firmware = s.firmware := rfl
@[simp] theorem setCrew_secver (s : State) (k : Nat) (c : Crew) : (setCrew s k c).secver = s.secver := rfl
@[simp] theorem setCrew_measures (s : State) (k : Nat) (c : Crew) : (setCrew s k c).measures = s.measures := rfl
@[simp] theorem setCrew_replies (s : State) (k : Nat) (c : Crew) : (setCrew s k c).replies = s.replies := rfl
@[simp] theorem setCrew_hostData (s : State) (k : Nat) (c : Crew) : (setCrew s k c).hostData = s.hostData := rfl
@[simp] theorem setCrew_errors (s : State) (k : Nat) (c : Crew) : (setCrew s k c).errors = s.errors := rfl
@[simp] theorem setCrew_dooms (s : State) (k : Nat) (c : Crew) : (setCrew s k c).dooms = s.dooms := rfl

/-! ### `setBand` -/

@[simp] theorem setBand_agenda (s : State) (k : Nat) (b : Band) : (setBand s k b).agenda = s.agenda := rfl
@[simp] theorem setBand_cur (s : State) (k : Nat) (b : Band) : (setBand s k b).cur = s.cur := rfl
@[simp] theorem setBand_stalled (s : State) (k : Nat) (b : Band) : (setBand s k b).stalled = s.stalled := rfl
@[simp] theorem setBand_fresh (s : State) (k : Nat) (b : Band) : (setBand s k b).fresh = s.fresh := rfl
@[simp] theorem setBand_tick (s : State) (k : Nat) (b : Band) : (setBand s k b).tick = s.tick := rfl
@[simp] theorem setBand_upset (s : State) (k : Nat) (b : Band) : (setBand s k b).upset = s.upset := rfl
@[simp] theorem setBand_teams (s : State) (k : Nat) (b : Band) : (setBand s k b).teams = s.teams := rfl
@[simp] theorem setBand_crews (s : State) (k : Nat) (b : Band) : (setBand s k b).crews = s.crews := rfl
@[simp] theorem setBand_bands (s : State) (k : Nat) (b : Band) : (setBand s k b).bands = setAt s.bands k b := rfl
@[simp] theorem setBand_cores (s : State) (k : Nat) (b : Band) : (setBand s k b).cores = s.cores := rfl
@[simp] theorem setBand_drams (s : State) (k : Nat) (b : Band) : (setBand s k b).drams = s.drams := rfl
@[simp] theorem setBand_tenants (s : State) (k : Nat) (b : Band) : (setBand s k b).tenants = s.tenants := rfl
@[simp] theorem setBand_l2 (s : State) (k : Nat) (b : Band) : (setBand s k b).l2 = s.l2 := rfl
@[simp] theorem setBand_tcache (s : State) (k : Nat) (b : Band) : (setBand s k b).tcache = s.tcache := rfl
@[simp] theorem setBand_mem (s : State) (k : Nat) (b : Band) : (setBand s k b).mem = s.mem := rfl
@[simp] theorem setBand_memPoison (s : State) (k : Nat) (b : Band) : (setBand s k b).memPoison = s.memPoison := rfl
@[simp] theorem setBand_flips (s : State) (k : Nat) (b : Band) : (setBand s k b).flips = s.flips := rfl
@[simp] theorem setBand_slots (s : State) (k : Nat) (b : Band) : (setBand s k b).slots = s.slots := rfl
@[simp] theorem setBand_fattr (s : State) (k : Nat) (b : Band) : (setBand s k b).fattr = s.fattr := rfl
@[simp] theorem setBand_windows (s : State) (k : Nat) (b : Band) : (setBand s k b).windows = s.windows := rfl
@[simp] theorem setBand_extents (s : State) (k : Nat) (b : Band) : (setBand s k b).extents = s.extents := rfl
@[simp] theorem setBand_loads (s : State) (k : Nat) (b : Band) : (setBand s k b).loads = s.loads := rfl
@[simp] theorem setBand_misses (s : State) (k : Nat) (b : Band) : (setBand s k b).misses = s.misses := rfl
@[simp] theorem setBand_l2q (s : State) (k : Nat) (b : Band) : (setBand s k b).l2q = s.l2q := rfl
@[simp] theorem setBand_homeq (s : State) (k : Nat) (b : Band) : (setBand s k b).homeq = s.homeq := rfl
@[simp] theorem setBand_bursts (s : State) (k : Nat) (b : Band) : (setBand s k b).bursts = s.bursts := rfl
@[simp] theorem setBand_fills (s : State) (k : Nat) (b : Band) : (setBand s k b).fills = s.fills := rfl
@[simp] theorem setBand_pubs (s : State) (k : Nat) (b : Band) : (setBand s k b).pubs = s.pubs := rfl
@[simp] theorem setBand_asks (s : State) (k : Nat) (b : Band) : (setBand s k b).asks = s.asks := rfl
@[simp] theorem setBand_owed (s : State) (k : Nat) (b : Band) : (setBand s k b).owed = s.owed := rfl
@[simp] theorem setBand_late (s : State) (k : Nat) (b : Band) : (setBand s k b).late = s.late := rfl
@[simp] theorem setBand_serial (s : State) (k : Nat) (b : Band) : (setBand s k b).serial = s.serial := rfl
@[simp] theorem setBand_msgs (s : State) (k : Nat) (b : Band) : (setBand s k b).msgs = s.msgs := rfl
@[simp] theorem setBand_frags (s : State) (k : Nat) (b : Band) : (setBand s k b).frags = s.frags := rfl
@[simp] theorem setBand_nextId (s : State) (k : Nat) (b : Band) : (setBand s k b).nextId = s.nextId := rfl
@[simp] theorem setBand_rx (s : State) (k : Nat) (b : Band) : (setBand s k b).rx = s.rx := rfl
@[simp] theorem setBand_inbox (s : State) (k : Nat) (b : Band) : (setBand s k b).inbox = s.inbox := rfl
@[simp] theorem setBand_crates (s : State) (k : Nat) (b : Band) : (setBand s k b).crates = s.crates := rfl
@[simp] theorem setBand_spinj (s : State) (k : Nat) (b : Band) : (setBand s k b).spinj = s.spinj := rfl
@[simp] theorem setBand_deadLinks (s : State) (k : Nat) (b : Band) : (setBand s k b).deadLinks = s.deadLinks := rfl
@[simp] theorem setBand_writeJobs (s : State) (k : Nat) (b : Band) : (setBand s k b).writeJobs = s.writeJobs := rfl
@[simp] theorem setBand_blocks (s : State) (k : Nat) (b : Band) : (setBand s k b).blocks = s.blocks := rfl
@[simp] theorem setBand_walks (s : State) (k : Nat) (b : Band) : (setBand s k b).walks = s.walks := rfl
@[simp] theorem setBand_ats (s : State) (k : Nat) (b : Band) : (setBand s k b).ats = s.ats := rfl
@[simp] theorem setBand_atsDenied (s : State) (k : Nat) (b : Band) : (setBand s k b).atsDenied = s.atsDenied := rfl
@[simp] theorem setBand_sealedPoison (s : State) (k : Nat) (b : Band) : (setBand s k b).sealedPoison = s.sealedPoison := rfl
@[simp] theorem setBand_lag (s : State) (k : Nat) (b : Band) : (setBand s k b).lag = s.lag := rfl
@[simp] theorem setBand_steps (s : State) (k : Nat) (b : Band) : (setBand s k b).steps = s.steps := rfl
@[simp] theorem setBand_alarm (s : State) (k : Nat) (b : Band) : (setBand s k b).alarm = s.alarm := rfl
@[simp] theorem setBand_command (s : State) (k : Nat) (b : Band) : (setBand s k b).command = s.command := rfl
@[simp] theorem setBand_losses (s : State) (k : Nat) (b : Band) : (setBand s k b).losses = s.losses := rfl
@[simp] theorem setBand_moduleNo (s : State) (k : Nat) (b : Band) : (setBand s k b).moduleNo = s.moduleNo := rfl
@[simp] theorem setBand_dramOff (s : State) (k : Nat) (b : Band) : (setBand s k b).dramOff = s.dramOff := rfl
@[simp] theorem setBand_invals (s : State) (k : Nat) (b : Band) : (setBand s k b).invals = s.invals := rfl
@[simp] theorem setBand_producers (s : State) (k : Nat) (b : Band) : (setBand s k b).producers = s.producers := rfl
@[simp] theorem setBand_millJobs (s : State) (k : Nat) (b : Band) : (setBand s k b).millJobs = s.millJobs := rfl
@[simp] theorem setBand_counters (s : State) (k : Nat) (b : Band) : (setBand s k b).counters = s.counters := rfl
@[simp] theorem setBand_ras (s : State) (k : Nat) (b : Band) : (setBand s k b).ras = s.ras := rfl
@[simp] theorem setBand_rues (s : State) (k : Nat) (b : Band) : (setBand s k b).rues = s.rues := rfl
@[simp] theorem setBand_worn (s : State) (k : Nat) (b : Band) : (setBand s k b).worn = s.worn := rfl
@[simp] theorem setBand_modst (s : State) (k : Nat) (b : Band) : (setBand s k b).modst = s.modst := rfl
@[simp] theorem setBand_ready (s : State) (k : Nat) (b : Band) : (setBand s k b).ready = s.ready := rfl
@[simp] theorem setBand_hmap (s : State) (k : Nat) (b : Band) : (setBand s k b).hmap = s.hmap := rfl
@[simp] theorem setBand_launches (s : State) (k : Nat) (b : Band) : (setBand s k b).launches = s.launches := rfl
@[simp] theorem setBand_turns (s : State) (k : Nat) (b : Band) : (setBand s k b).turns = s.turns := rfl
@[simp] theorem setBand_claims (s : State) (k : Nat) (b : Band) : (setBand s k b).claims = s.claims := rfl
@[simp] theorem setBand_turnQ (s : State) (k : Nat) (b : Band) : (setBand s k b).turnQ = s.turnQ := rfl
@[simp] theorem setBand_capped (s : State) (k : Nat) (b : Band) : (setBand s k b).capped = s.capped := rfl
@[simp] theorem setBand_blocked (s : State) (k : Nat) (b : Band) : (setBand s k b).blocked = s.blocked := rfl
@[simp] theorem setBand_queues (s : State) (k : Nat) (b : Band) : (setBand s k b).queues = s.queues := rfl
@[simp] theorem setBand_appends (s : State) (k : Nat) (b : Band) : (setBand s k b).appends = s.appends := rfl
@[simp] theorem setBand_copies (s : State) (k : Nat) (b : Band) : (setBand s k b).copies = s.copies := rfl
@[simp] theorem setBand_groups (s : State) (k : Nat) (b : Band) : (setBand s k b).groups = s.groups := rfl
@[simp] theorem setBand_parts (s : State) (k : Nat) (b : Band) : (setBand s k b).parts = s.parts := rfl
@[simp] theorem setBand_collTurns (s : State) (k : Nat) (b : Band) : (setBand s k b).collTurns = s.collTurns := rfl
@[simp] theorem setBand_collFailed (s : State) (k : Nat) (b : Band) : (setBand s k b).collFailed = s.collFailed := rfl
@[simp] theorem setBand_exchanges (s : State) (k : Nat) (b : Band) : (setBand s k b).exchanges = s.exchanges := rfl
@[simp] theorem setBand_walking (s : State) (k : Nat) (b : Band) : (setBand s k b).walking = s.walking := rfl
@[simp] theorem setBand_saveAreas (s : State) (k : Nat) (b : Band) : (setBand s k b).saveAreas = s.saveAreas := rfl
@[simp] theorem setBand_services (s : State) (k : Nat) (b : Band) : (setBand s k b).services = s.services := rfl
@[simp] theorem setBand_lastTime (s : State) (k : Nat) (b : Band) : (setBand s k b).lastTime = s.lastTime := rfl
@[simp] theorem setBand_dies (s : State) (k : Nat) (b : Band) : (setBand s k b).dies = s.dies := rfl
@[simp] theorem setBand_powerPoint (s : State) (k : Nat) (b : Band) : (setBand s k b).powerPoint = s.powerPoint := rfl
@[simp] theorem setBand_heatPoint (s : State) (k : Nat) (b : Band) : (setBand s k b).heatPoint = s.heatPoint := rfl
@[simp] theorem setBand_pwrcap (s : State) (k : Nat) (b : Band) : (setBand s k b).pwrcap = s.pwrcap := rfl
@[simp] theorem setBand_almpol (s : State) (k : Nat) (b : Band) : (setBand s k b).almpol = s.almpol := rfl
@[simp] theorem setBand_spareAt (s : State) (k : Nat) (b : Band) : (setBand s k b).spareAt = s.spareAt := rfl
@[simp] theorem setBand_verified (s : State) (k : Nat) (b : Band) : (setBand s k b).verified = s.verified := rfl
@[simp] theorem setBand_bootFailed (s : State) (k : Nat) (b : Band) : (setBand s k b).bootFailed = s.bootFailed := rfl
@[simp] theorem setBand_firmware (s : State) (k : Nat) (b : Band) : (setBand s k b).firmware = s.firmware := rfl
@[simp] theorem setBand_secver (s : State) (k : Nat) (b : Band) : (setBand s k b).secver = s.secver := rfl
@[simp] theorem setBand_measures (s : State) (k : Nat) (b : Band) : (setBand s k b).measures = s.measures := rfl
@[simp] theorem setBand_replies (s : State) (k : Nat) (b : Band) : (setBand s k b).replies = s.replies := rfl
@[simp] theorem setBand_hostData (s : State) (k : Nat) (b : Band) : (setBand s k b).hostData = s.hostData := rfl
@[simp] theorem setBand_errors (s : State) (k : Nat) (b : Band) : (setBand s k b).errors = s.errors := rfl
@[simp] theorem setBand_dooms (s : State) (k : Nat) (b : Band) : (setBand s k b).dooms = s.dooms := rfl

/-! ### `setCore` -/

@[simp] theorem setCore_agenda (s : State) (k : Nat) (c : Core) : (setCore s k c).agenda = s.agenda := rfl
@[simp] theorem setCore_cur (s : State) (k : Nat) (c : Core) : (setCore s k c).cur = s.cur := rfl
@[simp] theorem setCore_stalled (s : State) (k : Nat) (c : Core) : (setCore s k c).stalled = s.stalled := rfl
@[simp] theorem setCore_fresh (s : State) (k : Nat) (c : Core) : (setCore s k c).fresh = s.fresh := rfl
@[simp] theorem setCore_tick (s : State) (k : Nat) (c : Core) : (setCore s k c).tick = s.tick := rfl
@[simp] theorem setCore_upset (s : State) (k : Nat) (c : Core) : (setCore s k c).upset = s.upset := rfl
@[simp] theorem setCore_teams (s : State) (k : Nat) (c : Core) : (setCore s k c).teams = s.teams := rfl
@[simp] theorem setCore_crews (s : State) (k : Nat) (c : Core) : (setCore s k c).crews = s.crews := rfl
@[simp] theorem setCore_bands (s : State) (k : Nat) (c : Core) : (setCore s k c).bands = s.bands := rfl
@[simp] theorem setCore_cores (s : State) (k : Nat) (c : Core) : (setCore s k c).cores = setAt s.cores k c := rfl
@[simp] theorem setCore_drams (s : State) (k : Nat) (c : Core) : (setCore s k c).drams = s.drams := rfl
@[simp] theorem setCore_tenants (s : State) (k : Nat) (c : Core) : (setCore s k c).tenants = s.tenants := rfl
@[simp] theorem setCore_l2 (s : State) (k : Nat) (c : Core) : (setCore s k c).l2 = s.l2 := rfl
@[simp] theorem setCore_tcache (s : State) (k : Nat) (c : Core) : (setCore s k c).tcache = s.tcache := rfl
@[simp] theorem setCore_mem (s : State) (k : Nat) (c : Core) : (setCore s k c).mem = s.mem := rfl
@[simp] theorem setCore_memPoison (s : State) (k : Nat) (c : Core) : (setCore s k c).memPoison = s.memPoison := rfl
@[simp] theorem setCore_flips (s : State) (k : Nat) (c : Core) : (setCore s k c).flips = s.flips := rfl
@[simp] theorem setCore_slots (s : State) (k : Nat) (c : Core) : (setCore s k c).slots = s.slots := rfl
@[simp] theorem setCore_fattr (s : State) (k : Nat) (c : Core) : (setCore s k c).fattr = s.fattr := rfl
@[simp] theorem setCore_windows (s : State) (k : Nat) (c : Core) : (setCore s k c).windows = s.windows := rfl
@[simp] theorem setCore_extents (s : State) (k : Nat) (c : Core) : (setCore s k c).extents = s.extents := rfl
@[simp] theorem setCore_loads (s : State) (k : Nat) (c : Core) : (setCore s k c).loads = s.loads := rfl
@[simp] theorem setCore_misses (s : State) (k : Nat) (c : Core) : (setCore s k c).misses = s.misses := rfl
@[simp] theorem setCore_l2q (s : State) (k : Nat) (c : Core) : (setCore s k c).l2q = s.l2q := rfl
@[simp] theorem setCore_homeq (s : State) (k : Nat) (c : Core) : (setCore s k c).homeq = s.homeq := rfl
@[simp] theorem setCore_bursts (s : State) (k : Nat) (c : Core) : (setCore s k c).bursts = s.bursts := rfl
@[simp] theorem setCore_fills (s : State) (k : Nat) (c : Core) : (setCore s k c).fills = s.fills := rfl
@[simp] theorem setCore_pubs (s : State) (k : Nat) (c : Core) : (setCore s k c).pubs = s.pubs := rfl
@[simp] theorem setCore_asks (s : State) (k : Nat) (c : Core) : (setCore s k c).asks = s.asks := rfl
@[simp] theorem setCore_owed (s : State) (k : Nat) (c : Core) : (setCore s k c).owed = s.owed := rfl
@[simp] theorem setCore_late (s : State) (k : Nat) (c : Core) : (setCore s k c).late = s.late := rfl
@[simp] theorem setCore_serial (s : State) (k : Nat) (c : Core) : (setCore s k c).serial = s.serial := rfl
@[simp] theorem setCore_msgs (s : State) (k : Nat) (c : Core) : (setCore s k c).msgs = s.msgs := rfl
@[simp] theorem setCore_frags (s : State) (k : Nat) (c : Core) : (setCore s k c).frags = s.frags := rfl
@[simp] theorem setCore_nextId (s : State) (k : Nat) (c : Core) : (setCore s k c).nextId = s.nextId := rfl
@[simp] theorem setCore_rx (s : State) (k : Nat) (c : Core) : (setCore s k c).rx = s.rx := rfl
@[simp] theorem setCore_inbox (s : State) (k : Nat) (c : Core) : (setCore s k c).inbox = s.inbox := rfl
@[simp] theorem setCore_crates (s : State) (k : Nat) (c : Core) : (setCore s k c).crates = s.crates := rfl
@[simp] theorem setCore_spinj (s : State) (k : Nat) (c : Core) : (setCore s k c).spinj = s.spinj := rfl
@[simp] theorem setCore_deadLinks (s : State) (k : Nat) (c : Core) : (setCore s k c).deadLinks = s.deadLinks := rfl
@[simp] theorem setCore_writeJobs (s : State) (k : Nat) (c : Core) : (setCore s k c).writeJobs = s.writeJobs := rfl
@[simp] theorem setCore_blocks (s : State) (k : Nat) (c : Core) : (setCore s k c).blocks = s.blocks := rfl
@[simp] theorem setCore_walks (s : State) (k : Nat) (c : Core) : (setCore s k c).walks = s.walks := rfl
@[simp] theorem setCore_ats (s : State) (k : Nat) (c : Core) : (setCore s k c).ats = s.ats := rfl
@[simp] theorem setCore_atsDenied (s : State) (k : Nat) (c : Core) : (setCore s k c).atsDenied = s.atsDenied := rfl
@[simp] theorem setCore_sealedPoison (s : State) (k : Nat) (c : Core) : (setCore s k c).sealedPoison = s.sealedPoison := rfl
@[simp] theorem setCore_lag (s : State) (k : Nat) (c : Core) : (setCore s k c).lag = s.lag := rfl
@[simp] theorem setCore_steps (s : State) (k : Nat) (c : Core) : (setCore s k c).steps = s.steps := rfl
@[simp] theorem setCore_alarm (s : State) (k : Nat) (c : Core) : (setCore s k c).alarm = s.alarm := rfl
@[simp] theorem setCore_command (s : State) (k : Nat) (c : Core) : (setCore s k c).command = s.command := rfl
@[simp] theorem setCore_losses (s : State) (k : Nat) (c : Core) : (setCore s k c).losses = s.losses := rfl
@[simp] theorem setCore_moduleNo (s : State) (k : Nat) (c : Core) : (setCore s k c).moduleNo = s.moduleNo := rfl
@[simp] theorem setCore_dramOff (s : State) (k : Nat) (c : Core) : (setCore s k c).dramOff = s.dramOff := rfl
@[simp] theorem setCore_invals (s : State) (k : Nat) (c : Core) : (setCore s k c).invals = s.invals := rfl
@[simp] theorem setCore_producers (s : State) (k : Nat) (c : Core) : (setCore s k c).producers = s.producers := rfl
@[simp] theorem setCore_millJobs (s : State) (k : Nat) (c : Core) : (setCore s k c).millJobs = s.millJobs := rfl
@[simp] theorem setCore_counters (s : State) (k : Nat) (c : Core) : (setCore s k c).counters = s.counters := rfl
@[simp] theorem setCore_ras (s : State) (k : Nat) (c : Core) : (setCore s k c).ras = s.ras := rfl
@[simp] theorem setCore_rues (s : State) (k : Nat) (c : Core) : (setCore s k c).rues = s.rues := rfl
@[simp] theorem setCore_worn (s : State) (k : Nat) (c : Core) : (setCore s k c).worn = s.worn := rfl
@[simp] theorem setCore_modst (s : State) (k : Nat) (c : Core) : (setCore s k c).modst = s.modst := rfl
@[simp] theorem setCore_ready (s : State) (k : Nat) (c : Core) : (setCore s k c).ready = s.ready := rfl
@[simp] theorem setCore_hmap (s : State) (k : Nat) (c : Core) : (setCore s k c).hmap = s.hmap := rfl
@[simp] theorem setCore_launches (s : State) (k : Nat) (c : Core) : (setCore s k c).launches = s.launches := rfl
@[simp] theorem setCore_turns (s : State) (k : Nat) (c : Core) : (setCore s k c).turns = s.turns := rfl
@[simp] theorem setCore_claims (s : State) (k : Nat) (c : Core) : (setCore s k c).claims = s.claims := rfl
@[simp] theorem setCore_turnQ (s : State) (k : Nat) (c : Core) : (setCore s k c).turnQ = s.turnQ := rfl
@[simp] theorem setCore_capped (s : State) (k : Nat) (c : Core) : (setCore s k c).capped = s.capped := rfl
@[simp] theorem setCore_blocked (s : State) (k : Nat) (c : Core) : (setCore s k c).blocked = s.blocked := rfl
@[simp] theorem setCore_queues (s : State) (k : Nat) (c : Core) : (setCore s k c).queues = s.queues := rfl
@[simp] theorem setCore_appends (s : State) (k : Nat) (c : Core) : (setCore s k c).appends = s.appends := rfl
@[simp] theorem setCore_copies (s : State) (k : Nat) (c : Core) : (setCore s k c).copies = s.copies := rfl
@[simp] theorem setCore_groups (s : State) (k : Nat) (c : Core) : (setCore s k c).groups = s.groups := rfl
@[simp] theorem setCore_parts (s : State) (k : Nat) (c : Core) : (setCore s k c).parts = s.parts := rfl
@[simp] theorem setCore_collTurns (s : State) (k : Nat) (c : Core) : (setCore s k c).collTurns = s.collTurns := rfl
@[simp] theorem setCore_collFailed (s : State) (k : Nat) (c : Core) : (setCore s k c).collFailed = s.collFailed := rfl
@[simp] theorem setCore_exchanges (s : State) (k : Nat) (c : Core) : (setCore s k c).exchanges = s.exchanges := rfl
@[simp] theorem setCore_walking (s : State) (k : Nat) (c : Core) : (setCore s k c).walking = s.walking := rfl
@[simp] theorem setCore_saveAreas (s : State) (k : Nat) (c : Core) : (setCore s k c).saveAreas = s.saveAreas := rfl
@[simp] theorem setCore_services (s : State) (k : Nat) (c : Core) : (setCore s k c).services = s.services := rfl
@[simp] theorem setCore_lastTime (s : State) (k : Nat) (c : Core) : (setCore s k c).lastTime = s.lastTime := rfl
@[simp] theorem setCore_dies (s : State) (k : Nat) (c : Core) : (setCore s k c).dies = s.dies := rfl
@[simp] theorem setCore_powerPoint (s : State) (k : Nat) (c : Core) : (setCore s k c).powerPoint = s.powerPoint := rfl
@[simp] theorem setCore_heatPoint (s : State) (k : Nat) (c : Core) : (setCore s k c).heatPoint = s.heatPoint := rfl
@[simp] theorem setCore_pwrcap (s : State) (k : Nat) (c : Core) : (setCore s k c).pwrcap = s.pwrcap := rfl
@[simp] theorem setCore_almpol (s : State) (k : Nat) (c : Core) : (setCore s k c).almpol = s.almpol := rfl
@[simp] theorem setCore_spareAt (s : State) (k : Nat) (c : Core) : (setCore s k c).spareAt = s.spareAt := rfl
@[simp] theorem setCore_verified (s : State) (k : Nat) (c : Core) : (setCore s k c).verified = s.verified := rfl
@[simp] theorem setCore_bootFailed (s : State) (k : Nat) (c : Core) : (setCore s k c).bootFailed = s.bootFailed := rfl
@[simp] theorem setCore_firmware (s : State) (k : Nat) (c : Core) : (setCore s k c).firmware = s.firmware := rfl
@[simp] theorem setCore_secver (s : State) (k : Nat) (c : Core) : (setCore s k c).secver = s.secver := rfl
@[simp] theorem setCore_measures (s : State) (k : Nat) (c : Core) : (setCore s k c).measures = s.measures := rfl
@[simp] theorem setCore_replies (s : State) (k : Nat) (c : Core) : (setCore s k c).replies = s.replies := rfl
@[simp] theorem setCore_hostData (s : State) (k : Nat) (c : Core) : (setCore s k c).hostData = s.hostData := rfl
@[simp] theorem setCore_errors (s : State) (k : Nat) (c : Core) : (setCore s k c).errors = s.errors := rfl
@[simp] theorem setCore_dooms (s : State) (k : Nat) (c : Core) : (setCore s k c).dooms = s.dooms := rfl

/-! ### `setLaunch` -/

@[simp] theorem setLaunch_agenda (s : State) (k : Nat) (l : Launch) : (setLaunch s k l).agenda = s.agenda := rfl
@[simp] theorem setLaunch_cur (s : State) (k : Nat) (l : Launch) : (setLaunch s k l).cur = s.cur := rfl
@[simp] theorem setLaunch_stalled (s : State) (k : Nat) (l : Launch) : (setLaunch s k l).stalled = s.stalled := rfl
@[simp] theorem setLaunch_fresh (s : State) (k : Nat) (l : Launch) : (setLaunch s k l).fresh = s.fresh := rfl
@[simp] theorem setLaunch_tick (s : State) (k : Nat) (l : Launch) : (setLaunch s k l).tick = s.tick := rfl
@[simp] theorem setLaunch_upset (s : State) (k : Nat) (l : Launch) : (setLaunch s k l).upset = s.upset := rfl
@[simp] theorem setLaunch_teams (s : State) (k : Nat) (l : Launch) : (setLaunch s k l).teams = s.teams := rfl
@[simp] theorem setLaunch_crews (s : State) (k : Nat) (l : Launch) : (setLaunch s k l).crews = s.crews := rfl
@[simp] theorem setLaunch_bands (s : State) (k : Nat) (l : Launch) : (setLaunch s k l).bands = s.bands := rfl
@[simp] theorem setLaunch_cores (s : State) (k : Nat) (l : Launch) : (setLaunch s k l).cores = s.cores := rfl
@[simp] theorem setLaunch_drams (s : State) (k : Nat) (l : Launch) : (setLaunch s k l).drams = s.drams := rfl
@[simp] theorem setLaunch_tenants (s : State) (k : Nat) (l : Launch) : (setLaunch s k l).tenants = s.tenants := rfl
@[simp] theorem setLaunch_l2 (s : State) (k : Nat) (l : Launch) : (setLaunch s k l).l2 = s.l2 := rfl
@[simp] theorem setLaunch_tcache (s : State) (k : Nat) (l : Launch) : (setLaunch s k l).tcache = s.tcache := rfl
@[simp] theorem setLaunch_mem (s : State) (k : Nat) (l : Launch) : (setLaunch s k l).mem = s.mem := rfl
@[simp] theorem setLaunch_memPoison (s : State) (k : Nat) (l : Launch) : (setLaunch s k l).memPoison = s.memPoison := rfl
@[simp] theorem setLaunch_flips (s : State) (k : Nat) (l : Launch) : (setLaunch s k l).flips = s.flips := rfl
@[simp] theorem setLaunch_slots (s : State) (k : Nat) (l : Launch) : (setLaunch s k l).slots = s.slots := rfl
@[simp] theorem setLaunch_fattr (s : State) (k : Nat) (l : Launch) : (setLaunch s k l).fattr = s.fattr := rfl
@[simp] theorem setLaunch_windows (s : State) (k : Nat) (l : Launch) : (setLaunch s k l).windows = s.windows := rfl
@[simp] theorem setLaunch_extents (s : State) (k : Nat) (l : Launch) : (setLaunch s k l).extents = s.extents := rfl
@[simp] theorem setLaunch_loads (s : State) (k : Nat) (l : Launch) : (setLaunch s k l).loads = s.loads := rfl
@[simp] theorem setLaunch_misses (s : State) (k : Nat) (l : Launch) : (setLaunch s k l).misses = s.misses := rfl
@[simp] theorem setLaunch_l2q (s : State) (k : Nat) (l : Launch) : (setLaunch s k l).l2q = s.l2q := rfl
@[simp] theorem setLaunch_homeq (s : State) (k : Nat) (l : Launch) : (setLaunch s k l).homeq = s.homeq := rfl
@[simp] theorem setLaunch_bursts (s : State) (k : Nat) (l : Launch) : (setLaunch s k l).bursts = s.bursts := rfl
@[simp] theorem setLaunch_fills (s : State) (k : Nat) (l : Launch) : (setLaunch s k l).fills = s.fills := rfl
@[simp] theorem setLaunch_pubs (s : State) (k : Nat) (l : Launch) : (setLaunch s k l).pubs = s.pubs := rfl
@[simp] theorem setLaunch_asks (s : State) (k : Nat) (l : Launch) : (setLaunch s k l).asks = s.asks := rfl
@[simp] theorem setLaunch_owed (s : State) (k : Nat) (l : Launch) : (setLaunch s k l).owed = s.owed := rfl
@[simp] theorem setLaunch_late (s : State) (k : Nat) (l : Launch) : (setLaunch s k l).late = s.late := rfl
@[simp] theorem setLaunch_serial (s : State) (k : Nat) (l : Launch) : (setLaunch s k l).serial = s.serial := rfl
@[simp] theorem setLaunch_msgs (s : State) (k : Nat) (l : Launch) : (setLaunch s k l).msgs = s.msgs := rfl
@[simp] theorem setLaunch_frags (s : State) (k : Nat) (l : Launch) : (setLaunch s k l).frags = s.frags := rfl
@[simp] theorem setLaunch_nextId (s : State) (k : Nat) (l : Launch) : (setLaunch s k l).nextId = s.nextId := rfl
@[simp] theorem setLaunch_rx (s : State) (k : Nat) (l : Launch) : (setLaunch s k l).rx = s.rx := rfl
@[simp] theorem setLaunch_inbox (s : State) (k : Nat) (l : Launch) : (setLaunch s k l).inbox = s.inbox := rfl
@[simp] theorem setLaunch_crates (s : State) (k : Nat) (l : Launch) : (setLaunch s k l).crates = s.crates := rfl
@[simp] theorem setLaunch_spinj (s : State) (k : Nat) (l : Launch) : (setLaunch s k l).spinj = s.spinj := rfl
@[simp] theorem setLaunch_deadLinks (s : State) (k : Nat) (l : Launch) : (setLaunch s k l).deadLinks = s.deadLinks := rfl
@[simp] theorem setLaunch_writeJobs (s : State) (k : Nat) (l : Launch) : (setLaunch s k l).writeJobs = s.writeJobs := rfl
@[simp] theorem setLaunch_blocks (s : State) (k : Nat) (l : Launch) : (setLaunch s k l).blocks = s.blocks := rfl
@[simp] theorem setLaunch_walks (s : State) (k : Nat) (l : Launch) : (setLaunch s k l).walks = s.walks := rfl
@[simp] theorem setLaunch_ats (s : State) (k : Nat) (l : Launch) : (setLaunch s k l).ats = s.ats := rfl
@[simp] theorem setLaunch_atsDenied (s : State) (k : Nat) (l : Launch) : (setLaunch s k l).atsDenied = s.atsDenied := rfl
@[simp] theorem setLaunch_sealedPoison (s : State) (k : Nat) (l : Launch) : (setLaunch s k l).sealedPoison = s.sealedPoison := rfl
@[simp] theorem setLaunch_lag (s : State) (k : Nat) (l : Launch) : (setLaunch s k l).lag = s.lag := rfl
@[simp] theorem setLaunch_steps (s : State) (k : Nat) (l : Launch) : (setLaunch s k l).steps = s.steps := rfl
@[simp] theorem setLaunch_alarm (s : State) (k : Nat) (l : Launch) : (setLaunch s k l).alarm = s.alarm := rfl
@[simp] theorem setLaunch_command (s : State) (k : Nat) (l : Launch) : (setLaunch s k l).command = s.command := rfl
@[simp] theorem setLaunch_losses (s : State) (k : Nat) (l : Launch) : (setLaunch s k l).losses = s.losses := rfl
@[simp] theorem setLaunch_moduleNo (s : State) (k : Nat) (l : Launch) : (setLaunch s k l).moduleNo = s.moduleNo := rfl
@[simp] theorem setLaunch_dramOff (s : State) (k : Nat) (l : Launch) : (setLaunch s k l).dramOff = s.dramOff := rfl
@[simp] theorem setLaunch_invals (s : State) (k : Nat) (l : Launch) : (setLaunch s k l).invals = s.invals := rfl
@[simp] theorem setLaunch_producers (s : State) (k : Nat) (l : Launch) : (setLaunch s k l).producers = s.producers := rfl
@[simp] theorem setLaunch_millJobs (s : State) (k : Nat) (l : Launch) : (setLaunch s k l).millJobs = s.millJobs := rfl
@[simp] theorem setLaunch_counters (s : State) (k : Nat) (l : Launch) : (setLaunch s k l).counters = s.counters := rfl
@[simp] theorem setLaunch_ras (s : State) (k : Nat) (l : Launch) : (setLaunch s k l).ras = s.ras := rfl
@[simp] theorem setLaunch_rues (s : State) (k : Nat) (l : Launch) : (setLaunch s k l).rues = s.rues := rfl
@[simp] theorem setLaunch_worn (s : State) (k : Nat) (l : Launch) : (setLaunch s k l).worn = s.worn := rfl
@[simp] theorem setLaunch_modst (s : State) (k : Nat) (l : Launch) : (setLaunch s k l).modst = s.modst := rfl
@[simp] theorem setLaunch_ready (s : State) (k : Nat) (l : Launch) : (setLaunch s k l).ready = s.ready := rfl
@[simp] theorem setLaunch_hmap (s : State) (k : Nat) (l : Launch) : (setLaunch s k l).hmap = s.hmap := rfl
@[simp] theorem setLaunch_launches (s : State) (k : Nat) (l : Launch) : (setLaunch s k l).launches = setAt s.launches k l := rfl
@[simp] theorem setLaunch_turns (s : State) (k : Nat) (l : Launch) : (setLaunch s k l).turns = s.turns := rfl
@[simp] theorem setLaunch_claims (s : State) (k : Nat) (l : Launch) : (setLaunch s k l).claims = s.claims := rfl
@[simp] theorem setLaunch_turnQ (s : State) (k : Nat) (l : Launch) : (setLaunch s k l).turnQ = s.turnQ := rfl
@[simp] theorem setLaunch_capped (s : State) (k : Nat) (l : Launch) : (setLaunch s k l).capped = s.capped := rfl
@[simp] theorem setLaunch_blocked (s : State) (k : Nat) (l : Launch) : (setLaunch s k l).blocked = s.blocked := rfl
@[simp] theorem setLaunch_queues (s : State) (k : Nat) (l : Launch) : (setLaunch s k l).queues = s.queues := rfl
@[simp] theorem setLaunch_appends (s : State) (k : Nat) (l : Launch) : (setLaunch s k l).appends = s.appends := rfl
@[simp] theorem setLaunch_copies (s : State) (k : Nat) (l : Launch) : (setLaunch s k l).copies = s.copies := rfl
@[simp] theorem setLaunch_groups (s : State) (k : Nat) (l : Launch) : (setLaunch s k l).groups = s.groups := rfl
@[simp] theorem setLaunch_parts (s : State) (k : Nat) (l : Launch) : (setLaunch s k l).parts = s.parts := rfl
@[simp] theorem setLaunch_collTurns (s : State) (k : Nat) (l : Launch) : (setLaunch s k l).collTurns = s.collTurns := rfl
@[simp] theorem setLaunch_collFailed (s : State) (k : Nat) (l : Launch) : (setLaunch s k l).collFailed = s.collFailed := rfl
@[simp] theorem setLaunch_exchanges (s : State) (k : Nat) (l : Launch) : (setLaunch s k l).exchanges = s.exchanges := rfl
@[simp] theorem setLaunch_walking (s : State) (k : Nat) (l : Launch) : (setLaunch s k l).walking = s.walking := rfl
@[simp] theorem setLaunch_saveAreas (s : State) (k : Nat) (l : Launch) : (setLaunch s k l).saveAreas = s.saveAreas := rfl
@[simp] theorem setLaunch_services (s : State) (k : Nat) (l : Launch) : (setLaunch s k l).services = s.services := rfl
@[simp] theorem setLaunch_lastTime (s : State) (k : Nat) (l : Launch) : (setLaunch s k l).lastTime = s.lastTime := rfl
@[simp] theorem setLaunch_dies (s : State) (k : Nat) (l : Launch) : (setLaunch s k l).dies = s.dies := rfl
@[simp] theorem setLaunch_powerPoint (s : State) (k : Nat) (l : Launch) : (setLaunch s k l).powerPoint = s.powerPoint := rfl
@[simp] theorem setLaunch_heatPoint (s : State) (k : Nat) (l : Launch) : (setLaunch s k l).heatPoint = s.heatPoint := rfl
@[simp] theorem setLaunch_pwrcap (s : State) (k : Nat) (l : Launch) : (setLaunch s k l).pwrcap = s.pwrcap := rfl
@[simp] theorem setLaunch_almpol (s : State) (k : Nat) (l : Launch) : (setLaunch s k l).almpol = s.almpol := rfl
@[simp] theorem setLaunch_spareAt (s : State) (k : Nat) (l : Launch) : (setLaunch s k l).spareAt = s.spareAt := rfl
@[simp] theorem setLaunch_verified (s : State) (k : Nat) (l : Launch) : (setLaunch s k l).verified = s.verified := rfl
@[simp] theorem setLaunch_bootFailed (s : State) (k : Nat) (l : Launch) : (setLaunch s k l).bootFailed = s.bootFailed := rfl
@[simp] theorem setLaunch_firmware (s : State) (k : Nat) (l : Launch) : (setLaunch s k l).firmware = s.firmware := rfl
@[simp] theorem setLaunch_secver (s : State) (k : Nat) (l : Launch) : (setLaunch s k l).secver = s.secver := rfl
@[simp] theorem setLaunch_measures (s : State) (k : Nat) (l : Launch) : (setLaunch s k l).measures = s.measures := rfl
@[simp] theorem setLaunch_replies (s : State) (k : Nat) (l : Launch) : (setLaunch s k l).replies = s.replies := rfl
@[simp] theorem setLaunch_hostData (s : State) (k : Nat) (l : Launch) : (setLaunch s k l).hostData = s.hostData := rfl
@[simp] theorem setLaunch_errors (s : State) (k : Nat) (l : Launch) : (setLaunch s k l).errors = s.errors := rfl
@[simp] theorem setLaunch_dooms (s : State) (k : Nat) (l : Launch) : (setLaunch s k l).dooms = s.dooms := rfl

/-! ### `setTenant` -/

@[simp] theorem setTenant_agenda (s : State) (k : Nat) (x : Tenant) : (setTenant s k x).agenda = s.agenda := rfl
@[simp] theorem setTenant_cur (s : State) (k : Nat) (x : Tenant) : (setTenant s k x).cur = s.cur := rfl
@[simp] theorem setTenant_stalled (s : State) (k : Nat) (x : Tenant) : (setTenant s k x).stalled = s.stalled := rfl
@[simp] theorem setTenant_fresh (s : State) (k : Nat) (x : Tenant) : (setTenant s k x).fresh = s.fresh := rfl
@[simp] theorem setTenant_tick (s : State) (k : Nat) (x : Tenant) : (setTenant s k x).tick = s.tick := rfl
@[simp] theorem setTenant_upset (s : State) (k : Nat) (x : Tenant) : (setTenant s k x).upset = s.upset := rfl
@[simp] theorem setTenant_teams (s : State) (k : Nat) (x : Tenant) : (setTenant s k x).teams = s.teams := rfl
@[simp] theorem setTenant_crews (s : State) (k : Nat) (x : Tenant) : (setTenant s k x).crews = s.crews := rfl
@[simp] theorem setTenant_bands (s : State) (k : Nat) (x : Tenant) : (setTenant s k x).bands = s.bands := rfl
@[simp] theorem setTenant_cores (s : State) (k : Nat) (x : Tenant) : (setTenant s k x).cores = s.cores := rfl
@[simp] theorem setTenant_drams (s : State) (k : Nat) (x : Tenant) : (setTenant s k x).drams = s.drams := rfl
@[simp] theorem setTenant_tenants (s : State) (k : Nat) (x : Tenant) : (setTenant s k x).tenants = setAt s.tenants k x := rfl
@[simp] theorem setTenant_l2 (s : State) (k : Nat) (x : Tenant) : (setTenant s k x).l2 = s.l2 := rfl
@[simp] theorem setTenant_tcache (s : State) (k : Nat) (x : Tenant) : (setTenant s k x).tcache = s.tcache := rfl
@[simp] theorem setTenant_mem (s : State) (k : Nat) (x : Tenant) : (setTenant s k x).mem = s.mem := rfl
@[simp] theorem setTenant_memPoison (s : State) (k : Nat) (x : Tenant) : (setTenant s k x).memPoison = s.memPoison := rfl
@[simp] theorem setTenant_flips (s : State) (k : Nat) (x : Tenant) : (setTenant s k x).flips = s.flips := rfl
@[simp] theorem setTenant_slots (s : State) (k : Nat) (x : Tenant) : (setTenant s k x).slots = s.slots := rfl
@[simp] theorem setTenant_fattr (s : State) (k : Nat) (x : Tenant) : (setTenant s k x).fattr = s.fattr := rfl
@[simp] theorem setTenant_windows (s : State) (k : Nat) (x : Tenant) : (setTenant s k x).windows = s.windows := rfl
@[simp] theorem setTenant_extents (s : State) (k : Nat) (x : Tenant) : (setTenant s k x).extents = s.extents := rfl
@[simp] theorem setTenant_loads (s : State) (k : Nat) (x : Tenant) : (setTenant s k x).loads = s.loads := rfl
@[simp] theorem setTenant_misses (s : State) (k : Nat) (x : Tenant) : (setTenant s k x).misses = s.misses := rfl
@[simp] theorem setTenant_l2q (s : State) (k : Nat) (x : Tenant) : (setTenant s k x).l2q = s.l2q := rfl
@[simp] theorem setTenant_homeq (s : State) (k : Nat) (x : Tenant) : (setTenant s k x).homeq = s.homeq := rfl
@[simp] theorem setTenant_bursts (s : State) (k : Nat) (x : Tenant) : (setTenant s k x).bursts = s.bursts := rfl
@[simp] theorem setTenant_fills (s : State) (k : Nat) (x : Tenant) : (setTenant s k x).fills = s.fills := rfl
@[simp] theorem setTenant_pubs (s : State) (k : Nat) (x : Tenant) : (setTenant s k x).pubs = s.pubs := rfl
@[simp] theorem setTenant_asks (s : State) (k : Nat) (x : Tenant) : (setTenant s k x).asks = s.asks := rfl
@[simp] theorem setTenant_owed (s : State) (k : Nat) (x : Tenant) : (setTenant s k x).owed = s.owed := rfl
@[simp] theorem setTenant_late (s : State) (k : Nat) (x : Tenant) : (setTenant s k x).late = s.late := rfl
@[simp] theorem setTenant_serial (s : State) (k : Nat) (x : Tenant) : (setTenant s k x).serial = s.serial := rfl
@[simp] theorem setTenant_msgs (s : State) (k : Nat) (x : Tenant) : (setTenant s k x).msgs = s.msgs := rfl
@[simp] theorem setTenant_frags (s : State) (k : Nat) (x : Tenant) : (setTenant s k x).frags = s.frags := rfl
@[simp] theorem setTenant_nextId (s : State) (k : Nat) (x : Tenant) : (setTenant s k x).nextId = s.nextId := rfl
@[simp] theorem setTenant_rx (s : State) (k : Nat) (x : Tenant) : (setTenant s k x).rx = s.rx := rfl
@[simp] theorem setTenant_inbox (s : State) (k : Nat) (x : Tenant) : (setTenant s k x).inbox = s.inbox := rfl
@[simp] theorem setTenant_crates (s : State) (k : Nat) (x : Tenant) : (setTenant s k x).crates = s.crates := rfl
@[simp] theorem setTenant_spinj (s : State) (k : Nat) (x : Tenant) : (setTenant s k x).spinj = s.spinj := rfl
@[simp] theorem setTenant_deadLinks (s : State) (k : Nat) (x : Tenant) : (setTenant s k x).deadLinks = s.deadLinks := rfl
@[simp] theorem setTenant_writeJobs (s : State) (k : Nat) (x : Tenant) : (setTenant s k x).writeJobs = s.writeJobs := rfl
@[simp] theorem setTenant_blocks (s : State) (k : Nat) (x : Tenant) : (setTenant s k x).blocks = s.blocks := rfl
@[simp] theorem setTenant_walks (s : State) (k : Nat) (x : Tenant) : (setTenant s k x).walks = s.walks := rfl
@[simp] theorem setTenant_ats (s : State) (k : Nat) (x : Tenant) : (setTenant s k x).ats = s.ats := rfl
@[simp] theorem setTenant_atsDenied (s : State) (k : Nat) (x : Tenant) : (setTenant s k x).atsDenied = s.atsDenied := rfl
@[simp] theorem setTenant_sealedPoison (s : State) (k : Nat) (x : Tenant) : (setTenant s k x).sealedPoison = s.sealedPoison := rfl
@[simp] theorem setTenant_lag (s : State) (k : Nat) (x : Tenant) : (setTenant s k x).lag = s.lag := rfl
@[simp] theorem setTenant_steps (s : State) (k : Nat) (x : Tenant) : (setTenant s k x).steps = s.steps := rfl
@[simp] theorem setTenant_alarm (s : State) (k : Nat) (x : Tenant) : (setTenant s k x).alarm = s.alarm := rfl
@[simp] theorem setTenant_command (s : State) (k : Nat) (x : Tenant) : (setTenant s k x).command = s.command := rfl
@[simp] theorem setTenant_losses (s : State) (k : Nat) (x : Tenant) : (setTenant s k x).losses = s.losses := rfl
@[simp] theorem setTenant_moduleNo (s : State) (k : Nat) (x : Tenant) : (setTenant s k x).moduleNo = s.moduleNo := rfl
@[simp] theorem setTenant_dramOff (s : State) (k : Nat) (x : Tenant) : (setTenant s k x).dramOff = s.dramOff := rfl
@[simp] theorem setTenant_invals (s : State) (k : Nat) (x : Tenant) : (setTenant s k x).invals = s.invals := rfl
@[simp] theorem setTenant_producers (s : State) (k : Nat) (x : Tenant) : (setTenant s k x).producers = s.producers := rfl
@[simp] theorem setTenant_millJobs (s : State) (k : Nat) (x : Tenant) : (setTenant s k x).millJobs = s.millJobs := rfl
@[simp] theorem setTenant_counters (s : State) (k : Nat) (x : Tenant) : (setTenant s k x).counters = s.counters := rfl
@[simp] theorem setTenant_ras (s : State) (k : Nat) (x : Tenant) : (setTenant s k x).ras = s.ras := rfl
@[simp] theorem setTenant_rues (s : State) (k : Nat) (x : Tenant) : (setTenant s k x).rues = s.rues := rfl
@[simp] theorem setTenant_worn (s : State) (k : Nat) (x : Tenant) : (setTenant s k x).worn = s.worn := rfl
@[simp] theorem setTenant_modst (s : State) (k : Nat) (x : Tenant) : (setTenant s k x).modst = s.modst := rfl
@[simp] theorem setTenant_ready (s : State) (k : Nat) (x : Tenant) : (setTenant s k x).ready = s.ready := rfl
@[simp] theorem setTenant_hmap (s : State) (k : Nat) (x : Tenant) : (setTenant s k x).hmap = s.hmap := rfl
@[simp] theorem setTenant_launches (s : State) (k : Nat) (x : Tenant) : (setTenant s k x).launches = s.launches := rfl
@[simp] theorem setTenant_turns (s : State) (k : Nat) (x : Tenant) : (setTenant s k x).turns = s.turns := rfl
@[simp] theorem setTenant_claims (s : State) (k : Nat) (x : Tenant) : (setTenant s k x).claims = s.claims := rfl
@[simp] theorem setTenant_turnQ (s : State) (k : Nat) (x : Tenant) : (setTenant s k x).turnQ = s.turnQ := rfl
@[simp] theorem setTenant_capped (s : State) (k : Nat) (x : Tenant) : (setTenant s k x).capped = s.capped := rfl
@[simp] theorem setTenant_blocked (s : State) (k : Nat) (x : Tenant) : (setTenant s k x).blocked = s.blocked := rfl
@[simp] theorem setTenant_queues (s : State) (k : Nat) (x : Tenant) : (setTenant s k x).queues = s.queues := rfl
@[simp] theorem setTenant_appends (s : State) (k : Nat) (x : Tenant) : (setTenant s k x).appends = s.appends := rfl
@[simp] theorem setTenant_copies (s : State) (k : Nat) (x : Tenant) : (setTenant s k x).copies = s.copies := rfl
@[simp] theorem setTenant_groups (s : State) (k : Nat) (x : Tenant) : (setTenant s k x).groups = s.groups := rfl
@[simp] theorem setTenant_parts (s : State) (k : Nat) (x : Tenant) : (setTenant s k x).parts = s.parts := rfl
@[simp] theorem setTenant_collTurns (s : State) (k : Nat) (x : Tenant) : (setTenant s k x).collTurns = s.collTurns := rfl
@[simp] theorem setTenant_collFailed (s : State) (k : Nat) (x : Tenant) : (setTenant s k x).collFailed = s.collFailed := rfl
@[simp] theorem setTenant_exchanges (s : State) (k : Nat) (x : Tenant) : (setTenant s k x).exchanges = s.exchanges := rfl
@[simp] theorem setTenant_walking (s : State) (k : Nat) (x : Tenant) : (setTenant s k x).walking = s.walking := rfl
@[simp] theorem setTenant_saveAreas (s : State) (k : Nat) (x : Tenant) : (setTenant s k x).saveAreas = s.saveAreas := rfl
@[simp] theorem setTenant_services (s : State) (k : Nat) (x : Tenant) : (setTenant s k x).services = s.services := rfl
@[simp] theorem setTenant_lastTime (s : State) (k : Nat) (x : Tenant) : (setTenant s k x).lastTime = s.lastTime := rfl
@[simp] theorem setTenant_dies (s : State) (k : Nat) (x : Tenant) : (setTenant s k x).dies = s.dies := rfl
@[simp] theorem setTenant_powerPoint (s : State) (k : Nat) (x : Tenant) : (setTenant s k x).powerPoint = s.powerPoint := rfl
@[simp] theorem setTenant_heatPoint (s : State) (k : Nat) (x : Tenant) : (setTenant s k x).heatPoint = s.heatPoint := rfl
@[simp] theorem setTenant_pwrcap (s : State) (k : Nat) (x : Tenant) : (setTenant s k x).pwrcap = s.pwrcap := rfl
@[simp] theorem setTenant_almpol (s : State) (k : Nat) (x : Tenant) : (setTenant s k x).almpol = s.almpol := rfl
@[simp] theorem setTenant_spareAt (s : State) (k : Nat) (x : Tenant) : (setTenant s k x).spareAt = s.spareAt := rfl
@[simp] theorem setTenant_verified (s : State) (k : Nat) (x : Tenant) : (setTenant s k x).verified = s.verified := rfl
@[simp] theorem setTenant_bootFailed (s : State) (k : Nat) (x : Tenant) : (setTenant s k x).bootFailed = s.bootFailed := rfl
@[simp] theorem setTenant_firmware (s : State) (k : Nat) (x : Tenant) : (setTenant s k x).firmware = s.firmware := rfl
@[simp] theorem setTenant_secver (s : State) (k : Nat) (x : Tenant) : (setTenant s k x).secver = s.secver := rfl
@[simp] theorem setTenant_measures (s : State) (k : Nat) (x : Tenant) : (setTenant s k x).measures = s.measures := rfl
@[simp] theorem setTenant_replies (s : State) (k : Nat) (x : Tenant) : (setTenant s k x).replies = s.replies := rfl
@[simp] theorem setTenant_hostData (s : State) (k : Nat) (x : Tenant) : (setTenant s k x).hostData = s.hostData := rfl
@[simp] theorem setTenant_errors (s : State) (k : Nat) (x : Tenant) : (setTenant s k x).errors = s.errors := rfl
@[simp] theorem setTenant_dooms (s : State) (k : Nat) (x : Tenant) : (setTenant s k x).dooms = s.dooms := rfl

/-! ### `setDram` -/

@[simp] theorem setDram_agenda (s : State) (k : Nat) (d : Stack) : (setDram s k d).agenda = s.agenda := rfl
@[simp] theorem setDram_cur (s : State) (k : Nat) (d : Stack) : (setDram s k d).cur = s.cur := rfl
@[simp] theorem setDram_stalled (s : State) (k : Nat) (d : Stack) : (setDram s k d).stalled = s.stalled := rfl
@[simp] theorem setDram_fresh (s : State) (k : Nat) (d : Stack) : (setDram s k d).fresh = s.fresh := rfl
@[simp] theorem setDram_tick (s : State) (k : Nat) (d : Stack) : (setDram s k d).tick = s.tick := rfl
@[simp] theorem setDram_upset (s : State) (k : Nat) (d : Stack) : (setDram s k d).upset = s.upset := rfl
@[simp] theorem setDram_teams (s : State) (k : Nat) (d : Stack) : (setDram s k d).teams = s.teams := rfl
@[simp] theorem setDram_crews (s : State) (k : Nat) (d : Stack) : (setDram s k d).crews = s.crews := rfl
@[simp] theorem setDram_bands (s : State) (k : Nat) (d : Stack) : (setDram s k d).bands = s.bands := rfl
@[simp] theorem setDram_cores (s : State) (k : Nat) (d : Stack) : (setDram s k d).cores = s.cores := rfl
@[simp] theorem setDram_drams (s : State) (k : Nat) (d : Stack) : (setDram s k d).drams = setAt s.drams k d := rfl
@[simp] theorem setDram_tenants (s : State) (k : Nat) (d : Stack) : (setDram s k d).tenants = s.tenants := rfl
@[simp] theorem setDram_l2 (s : State) (k : Nat) (d : Stack) : (setDram s k d).l2 = s.l2 := rfl
@[simp] theorem setDram_tcache (s : State) (k : Nat) (d : Stack) : (setDram s k d).tcache = s.tcache := rfl
@[simp] theorem setDram_mem (s : State) (k : Nat) (d : Stack) : (setDram s k d).mem = s.mem := rfl
@[simp] theorem setDram_memPoison (s : State) (k : Nat) (d : Stack) : (setDram s k d).memPoison = s.memPoison := rfl
@[simp] theorem setDram_flips (s : State) (k : Nat) (d : Stack) : (setDram s k d).flips = s.flips := rfl
@[simp] theorem setDram_slots (s : State) (k : Nat) (d : Stack) : (setDram s k d).slots = s.slots := rfl
@[simp] theorem setDram_fattr (s : State) (k : Nat) (d : Stack) : (setDram s k d).fattr = s.fattr := rfl
@[simp] theorem setDram_windows (s : State) (k : Nat) (d : Stack) : (setDram s k d).windows = s.windows := rfl
@[simp] theorem setDram_extents (s : State) (k : Nat) (d : Stack) : (setDram s k d).extents = s.extents := rfl
@[simp] theorem setDram_loads (s : State) (k : Nat) (d : Stack) : (setDram s k d).loads = s.loads := rfl
@[simp] theorem setDram_misses (s : State) (k : Nat) (d : Stack) : (setDram s k d).misses = s.misses := rfl
@[simp] theorem setDram_l2q (s : State) (k : Nat) (d : Stack) : (setDram s k d).l2q = s.l2q := rfl
@[simp] theorem setDram_homeq (s : State) (k : Nat) (d : Stack) : (setDram s k d).homeq = s.homeq := rfl
@[simp] theorem setDram_bursts (s : State) (k : Nat) (d : Stack) : (setDram s k d).bursts = s.bursts := rfl
@[simp] theorem setDram_fills (s : State) (k : Nat) (d : Stack) : (setDram s k d).fills = s.fills := rfl
@[simp] theorem setDram_pubs (s : State) (k : Nat) (d : Stack) : (setDram s k d).pubs = s.pubs := rfl
@[simp] theorem setDram_asks (s : State) (k : Nat) (d : Stack) : (setDram s k d).asks = s.asks := rfl
@[simp] theorem setDram_owed (s : State) (k : Nat) (d : Stack) : (setDram s k d).owed = s.owed := rfl
@[simp] theorem setDram_late (s : State) (k : Nat) (d : Stack) : (setDram s k d).late = s.late := rfl
@[simp] theorem setDram_serial (s : State) (k : Nat) (d : Stack) : (setDram s k d).serial = s.serial := rfl
@[simp] theorem setDram_msgs (s : State) (k : Nat) (d : Stack) : (setDram s k d).msgs = s.msgs := rfl
@[simp] theorem setDram_frags (s : State) (k : Nat) (d : Stack) : (setDram s k d).frags = s.frags := rfl
@[simp] theorem setDram_nextId (s : State) (k : Nat) (d : Stack) : (setDram s k d).nextId = s.nextId := rfl
@[simp] theorem setDram_rx (s : State) (k : Nat) (d : Stack) : (setDram s k d).rx = s.rx := rfl
@[simp] theorem setDram_inbox (s : State) (k : Nat) (d : Stack) : (setDram s k d).inbox = s.inbox := rfl
@[simp] theorem setDram_crates (s : State) (k : Nat) (d : Stack) : (setDram s k d).crates = s.crates := rfl
@[simp] theorem setDram_spinj (s : State) (k : Nat) (d : Stack) : (setDram s k d).spinj = s.spinj := rfl
@[simp] theorem setDram_deadLinks (s : State) (k : Nat) (d : Stack) : (setDram s k d).deadLinks = s.deadLinks := rfl
@[simp] theorem setDram_writeJobs (s : State) (k : Nat) (d : Stack) : (setDram s k d).writeJobs = s.writeJobs := rfl
@[simp] theorem setDram_blocks (s : State) (k : Nat) (d : Stack) : (setDram s k d).blocks = s.blocks := rfl
@[simp] theorem setDram_walks (s : State) (k : Nat) (d : Stack) : (setDram s k d).walks = s.walks := rfl
@[simp] theorem setDram_ats (s : State) (k : Nat) (d : Stack) : (setDram s k d).ats = s.ats := rfl
@[simp] theorem setDram_atsDenied (s : State) (k : Nat) (d : Stack) : (setDram s k d).atsDenied = s.atsDenied := rfl
@[simp] theorem setDram_sealedPoison (s : State) (k : Nat) (d : Stack) : (setDram s k d).sealedPoison = s.sealedPoison := rfl
@[simp] theorem setDram_lag (s : State) (k : Nat) (d : Stack) : (setDram s k d).lag = s.lag := rfl
@[simp] theorem setDram_steps (s : State) (k : Nat) (d : Stack) : (setDram s k d).steps = s.steps := rfl
@[simp] theorem setDram_alarm (s : State) (k : Nat) (d : Stack) : (setDram s k d).alarm = s.alarm := rfl
@[simp] theorem setDram_command (s : State) (k : Nat) (d : Stack) : (setDram s k d).command = s.command := rfl
@[simp] theorem setDram_losses (s : State) (k : Nat) (d : Stack) : (setDram s k d).losses = s.losses := rfl
@[simp] theorem setDram_moduleNo (s : State) (k : Nat) (d : Stack) : (setDram s k d).moduleNo = s.moduleNo := rfl
@[simp] theorem setDram_dramOff (s : State) (k : Nat) (d : Stack) : (setDram s k d).dramOff = s.dramOff := rfl
@[simp] theorem setDram_invals (s : State) (k : Nat) (d : Stack) : (setDram s k d).invals = s.invals := rfl
@[simp] theorem setDram_producers (s : State) (k : Nat) (d : Stack) : (setDram s k d).producers = s.producers := rfl
@[simp] theorem setDram_millJobs (s : State) (k : Nat) (d : Stack) : (setDram s k d).millJobs = s.millJobs := rfl
@[simp] theorem setDram_counters (s : State) (k : Nat) (d : Stack) : (setDram s k d).counters = s.counters := rfl
@[simp] theorem setDram_ras (s : State) (k : Nat) (d : Stack) : (setDram s k d).ras = s.ras := rfl
@[simp] theorem setDram_rues (s : State) (k : Nat) (d : Stack) : (setDram s k d).rues = s.rues := rfl
@[simp] theorem setDram_worn (s : State) (k : Nat) (d : Stack) : (setDram s k d).worn = s.worn := rfl
@[simp] theorem setDram_modst (s : State) (k : Nat) (d : Stack) : (setDram s k d).modst = s.modst := rfl
@[simp] theorem setDram_ready (s : State) (k : Nat) (d : Stack) : (setDram s k d).ready = s.ready := rfl
@[simp] theorem setDram_hmap (s : State) (k : Nat) (d : Stack) : (setDram s k d).hmap = s.hmap := rfl
@[simp] theorem setDram_launches (s : State) (k : Nat) (d : Stack) : (setDram s k d).launches = s.launches := rfl
@[simp] theorem setDram_turns (s : State) (k : Nat) (d : Stack) : (setDram s k d).turns = s.turns := rfl
@[simp] theorem setDram_claims (s : State) (k : Nat) (d : Stack) : (setDram s k d).claims = s.claims := rfl
@[simp] theorem setDram_turnQ (s : State) (k : Nat) (d : Stack) : (setDram s k d).turnQ = s.turnQ := rfl
@[simp] theorem setDram_capped (s : State) (k : Nat) (d : Stack) : (setDram s k d).capped = s.capped := rfl
@[simp] theorem setDram_blocked (s : State) (k : Nat) (d : Stack) : (setDram s k d).blocked = s.blocked := rfl
@[simp] theorem setDram_queues (s : State) (k : Nat) (d : Stack) : (setDram s k d).queues = s.queues := rfl
@[simp] theorem setDram_appends (s : State) (k : Nat) (d : Stack) : (setDram s k d).appends = s.appends := rfl
@[simp] theorem setDram_copies (s : State) (k : Nat) (d : Stack) : (setDram s k d).copies = s.copies := rfl
@[simp] theorem setDram_groups (s : State) (k : Nat) (d : Stack) : (setDram s k d).groups = s.groups := rfl
@[simp] theorem setDram_parts (s : State) (k : Nat) (d : Stack) : (setDram s k d).parts = s.parts := rfl
@[simp] theorem setDram_collTurns (s : State) (k : Nat) (d : Stack) : (setDram s k d).collTurns = s.collTurns := rfl
@[simp] theorem setDram_collFailed (s : State) (k : Nat) (d : Stack) : (setDram s k d).collFailed = s.collFailed := rfl
@[simp] theorem setDram_exchanges (s : State) (k : Nat) (d : Stack) : (setDram s k d).exchanges = s.exchanges := rfl
@[simp] theorem setDram_walking (s : State) (k : Nat) (d : Stack) : (setDram s k d).walking = s.walking := rfl
@[simp] theorem setDram_saveAreas (s : State) (k : Nat) (d : Stack) : (setDram s k d).saveAreas = s.saveAreas := rfl
@[simp] theorem setDram_services (s : State) (k : Nat) (d : Stack) : (setDram s k d).services = s.services := rfl
@[simp] theorem setDram_lastTime (s : State) (k : Nat) (d : Stack) : (setDram s k d).lastTime = s.lastTime := rfl
@[simp] theorem setDram_dies (s : State) (k : Nat) (d : Stack) : (setDram s k d).dies = s.dies := rfl
@[simp] theorem setDram_powerPoint (s : State) (k : Nat) (d : Stack) : (setDram s k d).powerPoint = s.powerPoint := rfl
@[simp] theorem setDram_heatPoint (s : State) (k : Nat) (d : Stack) : (setDram s k d).heatPoint = s.heatPoint := rfl
@[simp] theorem setDram_pwrcap (s : State) (k : Nat) (d : Stack) : (setDram s k d).pwrcap = s.pwrcap := rfl
@[simp] theorem setDram_almpol (s : State) (k : Nat) (d : Stack) : (setDram s k d).almpol = s.almpol := rfl
@[simp] theorem setDram_spareAt (s : State) (k : Nat) (d : Stack) : (setDram s k d).spareAt = s.spareAt := rfl
@[simp] theorem setDram_verified (s : State) (k : Nat) (d : Stack) : (setDram s k d).verified = s.verified := rfl
@[simp] theorem setDram_bootFailed (s : State) (k : Nat) (d : Stack) : (setDram s k d).bootFailed = s.bootFailed := rfl
@[simp] theorem setDram_firmware (s : State) (k : Nat) (d : Stack) : (setDram s k d).firmware = s.firmware := rfl
@[simp] theorem setDram_secver (s : State) (k : Nat) (d : Stack) : (setDram s k d).secver = s.secver := rfl
@[simp] theorem setDram_measures (s : State) (k : Nat) (d : Stack) : (setDram s k d).measures = s.measures := rfl
@[simp] theorem setDram_replies (s : State) (k : Nat) (d : Stack) : (setDram s k d).replies = s.replies := rfl
@[simp] theorem setDram_hostData (s : State) (k : Nat) (d : Stack) : (setDram s k d).hostData = s.hostData := rfl
@[simp] theorem setDram_errors (s : State) (k : Nat) (d : Stack) : (setDram s k d).errors = s.errors := rfl
@[simp] theorem setDram_dooms (s : State) (k : Nat) (d : Stack) : (setDram s k d).dooms = s.dooms := rfl

/-! ### `finish` and `waitHere` -/

@[simp] theorem finish_agenda (s : State) (k : Nat) (t : Team) : (finish s k t).agenda = s.agenda := rfl
@[simp] theorem finish_cur (s : State) (k : Nat) (t : Team) : (finish s k t).cur = s.cur := rfl
@[simp] theorem finish_stalled (s : State) (k : Nat) (t : Team) : (finish s k t).stalled = s.stalled := rfl
@[simp] theorem finish_fresh (s : State) (k : Nat) (t : Team) : (finish s k t).fresh = s.fresh := rfl
@[simp] theorem finish_tick (s : State) (k : Nat) (t : Team) : (finish s k t).tick = s.tick := rfl
@[simp] theorem finish_upset (s : State) (k : Nat) (t : Team) : (finish s k t).upset = s.upset := rfl
@[simp] theorem finish_teams (s : State) (k : Nat) (t : Team) : (finish s k t).teams = setAt s.teams k t.next := rfl
@[simp] theorem finish_crews (s : State) (k : Nat) (t : Team) : (finish s k t).crews = s.crews := rfl
@[simp] theorem finish_bands (s : State) (k : Nat) (t : Team) : (finish s k t).bands = s.bands := rfl
@[simp] theorem finish_cores (s : State) (k : Nat) (t : Team) : (finish s k t).cores = s.cores := rfl
@[simp] theorem finish_drams (s : State) (k : Nat) (t : Team) : (finish s k t).drams = s.drams := rfl
@[simp] theorem finish_tenants (s : State) (k : Nat) (t : Team) : (finish s k t).tenants = s.tenants := rfl
@[simp] theorem finish_l2 (s : State) (k : Nat) (t : Team) : (finish s k t).l2 = s.l2 := rfl
@[simp] theorem finish_tcache (s : State) (k : Nat) (t : Team) : (finish s k t).tcache = s.tcache := rfl
@[simp] theorem finish_mem (s : State) (k : Nat) (t : Team) : (finish s k t).mem = s.mem := rfl
@[simp] theorem finish_memPoison (s : State) (k : Nat) (t : Team) : (finish s k t).memPoison = s.memPoison := rfl
@[simp] theorem finish_flips (s : State) (k : Nat) (t : Team) : (finish s k t).flips = s.flips := rfl
@[simp] theorem finish_slots (s : State) (k : Nat) (t : Team) : (finish s k t).slots = s.slots := rfl
@[simp] theorem finish_fattr (s : State) (k : Nat) (t : Team) : (finish s k t).fattr = s.fattr := rfl
@[simp] theorem finish_windows (s : State) (k : Nat) (t : Team) : (finish s k t).windows = s.windows := rfl
@[simp] theorem finish_extents (s : State) (k : Nat) (t : Team) : (finish s k t).extents = s.extents := rfl
@[simp] theorem finish_loads (s : State) (k : Nat) (t : Team) : (finish s k t).loads = s.loads := rfl
@[simp] theorem finish_misses (s : State) (k : Nat) (t : Team) : (finish s k t).misses = s.misses := rfl
@[simp] theorem finish_l2q (s : State) (k : Nat) (t : Team) : (finish s k t).l2q = s.l2q := rfl
@[simp] theorem finish_homeq (s : State) (k : Nat) (t : Team) : (finish s k t).homeq = s.homeq := rfl
@[simp] theorem finish_bursts (s : State) (k : Nat) (t : Team) : (finish s k t).bursts = s.bursts := rfl
@[simp] theorem finish_fills (s : State) (k : Nat) (t : Team) : (finish s k t).fills = s.fills := rfl
@[simp] theorem finish_pubs (s : State) (k : Nat) (t : Team) : (finish s k t).pubs = s.pubs := rfl
@[simp] theorem finish_asks (s : State) (k : Nat) (t : Team) : (finish s k t).asks = s.asks := rfl
@[simp] theorem finish_owed (s : State) (k : Nat) (t : Team) : (finish s k t).owed = s.owed := rfl
@[simp] theorem finish_late (s : State) (k : Nat) (t : Team) : (finish s k t).late = s.late := rfl
@[simp] theorem finish_serial (s : State) (k : Nat) (t : Team) : (finish s k t).serial = s.serial := rfl
@[simp] theorem finish_msgs (s : State) (k : Nat) (t : Team) : (finish s k t).msgs = s.msgs := rfl
@[simp] theorem finish_frags (s : State) (k : Nat) (t : Team) : (finish s k t).frags = s.frags := rfl
@[simp] theorem finish_nextId (s : State) (k : Nat) (t : Team) : (finish s k t).nextId = s.nextId := rfl
@[simp] theorem finish_rx (s : State) (k : Nat) (t : Team) : (finish s k t).rx = s.rx := rfl
@[simp] theorem finish_inbox (s : State) (k : Nat) (t : Team) : (finish s k t).inbox = s.inbox := rfl
@[simp] theorem finish_crates (s : State) (k : Nat) (t : Team) : (finish s k t).crates = s.crates := rfl
@[simp] theorem finish_spinj (s : State) (k : Nat) (t : Team) : (finish s k t).spinj = s.spinj := rfl
@[simp] theorem finish_deadLinks (s : State) (k : Nat) (t : Team) : (finish s k t).deadLinks = s.deadLinks := rfl
@[simp] theorem finish_writeJobs (s : State) (k : Nat) (t : Team) : (finish s k t).writeJobs = s.writeJobs := rfl
@[simp] theorem finish_blocks (s : State) (k : Nat) (t : Team) : (finish s k t).blocks = s.blocks := rfl
@[simp] theorem finish_walks (s : State) (k : Nat) (t : Team) : (finish s k t).walks = s.walks := rfl
@[simp] theorem finish_ats (s : State) (k : Nat) (t : Team) : (finish s k t).ats = s.ats := rfl
@[simp] theorem finish_atsDenied (s : State) (k : Nat) (t : Team) : (finish s k t).atsDenied = s.atsDenied := rfl
@[simp] theorem finish_sealedPoison (s : State) (k : Nat) (t : Team) : (finish s k t).sealedPoison = s.sealedPoison := rfl
@[simp] theorem finish_lag (s : State) (k : Nat) (t : Team) : (finish s k t).lag = s.lag := rfl
@[simp] theorem finish_steps (s : State) (k : Nat) (t : Team) : (finish s k t).steps = s.steps := rfl
@[simp] theorem finish_alarm (s : State) (k : Nat) (t : Team) : (finish s k t).alarm = s.alarm := rfl
@[simp] theorem finish_command (s : State) (k : Nat) (t : Team) : (finish s k t).command = s.command := rfl
@[simp] theorem finish_losses (s : State) (k : Nat) (t : Team) : (finish s k t).losses = s.losses := rfl
@[simp] theorem finish_moduleNo (s : State) (k : Nat) (t : Team) : (finish s k t).moduleNo = s.moduleNo := rfl
@[simp] theorem finish_dramOff (s : State) (k : Nat) (t : Team) : (finish s k t).dramOff = s.dramOff := rfl
@[simp] theorem finish_invals (s : State) (k : Nat) (t : Team) : (finish s k t).invals = s.invals := rfl
@[simp] theorem finish_producers (s : State) (k : Nat) (t : Team) : (finish s k t).producers = s.producers := rfl
@[simp] theorem finish_millJobs (s : State) (k : Nat) (t : Team) : (finish s k t).millJobs = s.millJobs := rfl
@[simp] theorem finish_counters (s : State) (k : Nat) (t : Team) : (finish s k t).counters = s.counters := rfl
@[simp] theorem finish_ras (s : State) (k : Nat) (t : Team) : (finish s k t).ras = s.ras := rfl
@[simp] theorem finish_rues (s : State) (k : Nat) (t : Team) : (finish s k t).rues = s.rues := rfl
@[simp] theorem finish_worn (s : State) (k : Nat) (t : Team) : (finish s k t).worn = s.worn := rfl
@[simp] theorem finish_modst (s : State) (k : Nat) (t : Team) : (finish s k t).modst = s.modst := rfl
@[simp] theorem finish_ready (s : State) (k : Nat) (t : Team) : (finish s k t).ready = s.ready := rfl
@[simp] theorem finish_hmap (s : State) (k : Nat) (t : Team) : (finish s k t).hmap = s.hmap := rfl
@[simp] theorem finish_launches (s : State) (k : Nat) (t : Team) : (finish s k t).launches = s.launches := rfl
@[simp] theorem finish_turns (s : State) (k : Nat) (t : Team) : (finish s k t).turns = s.turns := rfl
@[simp] theorem finish_claims (s : State) (k : Nat) (t : Team) : (finish s k t).claims = s.claims := rfl
@[simp] theorem finish_turnQ (s : State) (k : Nat) (t : Team) : (finish s k t).turnQ = s.turnQ := rfl
@[simp] theorem finish_capped (s : State) (k : Nat) (t : Team) : (finish s k t).capped = s.capped := rfl
@[simp] theorem finish_blocked (s : State) (k : Nat) (t : Team) : (finish s k t).blocked = s.blocked := rfl
@[simp] theorem finish_queues (s : State) (k : Nat) (t : Team) : (finish s k t).queues = s.queues := rfl
@[simp] theorem finish_appends (s : State) (k : Nat) (t : Team) : (finish s k t).appends = s.appends := rfl
@[simp] theorem finish_copies (s : State) (k : Nat) (t : Team) : (finish s k t).copies = s.copies := rfl
@[simp] theorem finish_groups (s : State) (k : Nat) (t : Team) : (finish s k t).groups = s.groups := rfl
@[simp] theorem finish_parts (s : State) (k : Nat) (t : Team) : (finish s k t).parts = s.parts := rfl
@[simp] theorem finish_collTurns (s : State) (k : Nat) (t : Team) : (finish s k t).collTurns = s.collTurns := rfl
@[simp] theorem finish_collFailed (s : State) (k : Nat) (t : Team) : (finish s k t).collFailed = s.collFailed := rfl
@[simp] theorem finish_exchanges (s : State) (k : Nat) (t : Team) : (finish s k t).exchanges = s.exchanges := rfl
@[simp] theorem finish_walking (s : State) (k : Nat) (t : Team) : (finish s k t).walking = s.walking := rfl
@[simp] theorem finish_saveAreas (s : State) (k : Nat) (t : Team) : (finish s k t).saveAreas = s.saveAreas := rfl
@[simp] theorem finish_services (s : State) (k : Nat) (t : Team) : (finish s k t).services = s.services := rfl
@[simp] theorem finish_lastTime (s : State) (k : Nat) (t : Team) : (finish s k t).lastTime = s.lastTime := rfl
@[simp] theorem finish_dies (s : State) (k : Nat) (t : Team) : (finish s k t).dies = s.dies := rfl
@[simp] theorem finish_powerPoint (s : State) (k : Nat) (t : Team) : (finish s k t).powerPoint = s.powerPoint := rfl
@[simp] theorem finish_heatPoint (s : State) (k : Nat) (t : Team) : (finish s k t).heatPoint = s.heatPoint := rfl
@[simp] theorem finish_pwrcap (s : State) (k : Nat) (t : Team) : (finish s k t).pwrcap = s.pwrcap := rfl
@[simp] theorem finish_almpol (s : State) (k : Nat) (t : Team) : (finish s k t).almpol = s.almpol := rfl
@[simp] theorem finish_spareAt (s : State) (k : Nat) (t : Team) : (finish s k t).spareAt = s.spareAt := rfl
@[simp] theorem finish_verified (s : State) (k : Nat) (t : Team) : (finish s k t).verified = s.verified := rfl
@[simp] theorem finish_bootFailed (s : State) (k : Nat) (t : Team) : (finish s k t).bootFailed = s.bootFailed := rfl
@[simp] theorem finish_firmware (s : State) (k : Nat) (t : Team) : (finish s k t).firmware = s.firmware := rfl
@[simp] theorem finish_secver (s : State) (k : Nat) (t : Team) : (finish s k t).secver = s.secver := rfl
@[simp] theorem finish_measures (s : State) (k : Nat) (t : Team) : (finish s k t).measures = s.measures := rfl
@[simp] theorem finish_replies (s : State) (k : Nat) (t : Team) : (finish s k t).replies = s.replies := rfl
@[simp] theorem finish_hostData (s : State) (k : Nat) (t : Team) : (finish s k t).hostData = s.hostData := rfl
@[simp] theorem finish_errors (s : State) (k : Nat) (t : Team) : (finish s k t).errors = s.errors := rfl
@[simp] theorem finish_dooms (s : State) (k : Nat) (t : Team) : (finish s k t).dooms = s.dooms := rfl
@[simp] theorem waitHere_agenda (s : State) : (waitHere s).agenda = s.agenda := rfl
@[simp] theorem waitHere_cur (s : State) : (waitHere s).cur = s.cur := rfl
@[simp] theorem waitHere_stalled (s : State) : (waitHere s).stalled = true := rfl
@[simp] theorem waitHere_fresh (s : State) : (waitHere s).fresh = s.fresh := rfl
@[simp] theorem waitHere_tick (s : State) : (waitHere s).tick = s.tick := rfl
@[simp] theorem waitHere_upset (s : State) : (waitHere s).upset = s.upset := rfl
@[simp] theorem waitHere_teams (s : State) : (waitHere s).teams = s.teams := rfl
@[simp] theorem waitHere_crews (s : State) : (waitHere s).crews = s.crews := rfl
@[simp] theorem waitHere_bands (s : State) : (waitHere s).bands = s.bands := rfl
@[simp] theorem waitHere_cores (s : State) : (waitHere s).cores = s.cores := rfl
@[simp] theorem waitHere_drams (s : State) : (waitHere s).drams = s.drams := rfl
@[simp] theorem waitHere_tenants (s : State) : (waitHere s).tenants = s.tenants := rfl
@[simp] theorem waitHere_l2 (s : State) : (waitHere s).l2 = s.l2 := rfl
@[simp] theorem waitHere_tcache (s : State) : (waitHere s).tcache = s.tcache := rfl
@[simp] theorem waitHere_mem (s : State) : (waitHere s).mem = s.mem := rfl
@[simp] theorem waitHere_memPoison (s : State) : (waitHere s).memPoison = s.memPoison := rfl
@[simp] theorem waitHere_flips (s : State) : (waitHere s).flips = s.flips := rfl
@[simp] theorem waitHere_slots (s : State) : (waitHere s).slots = s.slots := rfl
@[simp] theorem waitHere_fattr (s : State) : (waitHere s).fattr = s.fattr := rfl
@[simp] theorem waitHere_windows (s : State) : (waitHere s).windows = s.windows := rfl
@[simp] theorem waitHere_extents (s : State) : (waitHere s).extents = s.extents := rfl
@[simp] theorem waitHere_loads (s : State) : (waitHere s).loads = s.loads := rfl
@[simp] theorem waitHere_misses (s : State) : (waitHere s).misses = s.misses := rfl
@[simp] theorem waitHere_l2q (s : State) : (waitHere s).l2q = s.l2q := rfl
@[simp] theorem waitHere_homeq (s : State) : (waitHere s).homeq = s.homeq := rfl
@[simp] theorem waitHere_bursts (s : State) : (waitHere s).bursts = s.bursts := rfl
@[simp] theorem waitHere_fills (s : State) : (waitHere s).fills = s.fills := rfl
@[simp] theorem waitHere_pubs (s : State) : (waitHere s).pubs = s.pubs := rfl
@[simp] theorem waitHere_asks (s : State) : (waitHere s).asks = s.asks := rfl
@[simp] theorem waitHere_owed (s : State) : (waitHere s).owed = s.owed := rfl
@[simp] theorem waitHere_late (s : State) : (waitHere s).late = s.late := rfl
@[simp] theorem waitHere_serial (s : State) : (waitHere s).serial = s.serial := rfl
@[simp] theorem waitHere_msgs (s : State) : (waitHere s).msgs = s.msgs := rfl
@[simp] theorem waitHere_frags (s : State) : (waitHere s).frags = s.frags := rfl
@[simp] theorem waitHere_nextId (s : State) : (waitHere s).nextId = s.nextId := rfl
@[simp] theorem waitHere_rx (s : State) : (waitHere s).rx = s.rx := rfl
@[simp] theorem waitHere_inbox (s : State) : (waitHere s).inbox = s.inbox := rfl
@[simp] theorem waitHere_crates (s : State) : (waitHere s).crates = s.crates := rfl
@[simp] theorem waitHere_spinj (s : State) : (waitHere s).spinj = s.spinj := rfl
@[simp] theorem waitHere_deadLinks (s : State) : (waitHere s).deadLinks = s.deadLinks := rfl
@[simp] theorem waitHere_writeJobs (s : State) : (waitHere s).writeJobs = s.writeJobs := rfl
@[simp] theorem waitHere_blocks (s : State) : (waitHere s).blocks = s.blocks := rfl
@[simp] theorem waitHere_walks (s : State) : (waitHere s).walks = s.walks := rfl
@[simp] theorem waitHere_ats (s : State) : (waitHere s).ats = s.ats := rfl
@[simp] theorem waitHere_atsDenied (s : State) : (waitHere s).atsDenied = s.atsDenied := rfl
@[simp] theorem waitHere_sealedPoison (s : State) : (waitHere s).sealedPoison = s.sealedPoison := rfl
@[simp] theorem waitHere_lag (s : State) : (waitHere s).lag = s.lag := rfl
@[simp] theorem waitHere_steps (s : State) : (waitHere s).steps = s.steps := rfl
@[simp] theorem waitHere_alarm (s : State) : (waitHere s).alarm = s.alarm := rfl
@[simp] theorem waitHere_command (s : State) : (waitHere s).command = s.command := rfl
@[simp] theorem waitHere_losses (s : State) : (waitHere s).losses = s.losses := rfl
@[simp] theorem waitHere_moduleNo (s : State) : (waitHere s).moduleNo = s.moduleNo := rfl
@[simp] theorem waitHere_dramOff (s : State) : (waitHere s).dramOff = s.dramOff := rfl
@[simp] theorem waitHere_invals (s : State) : (waitHere s).invals = s.invals := rfl
@[simp] theorem waitHere_producers (s : State) : (waitHere s).producers = s.producers := rfl
@[simp] theorem waitHere_millJobs (s : State) : (waitHere s).millJobs = s.millJobs := rfl
@[simp] theorem waitHere_counters (s : State) : (waitHere s).counters = s.counters := rfl
@[simp] theorem waitHere_ras (s : State) : (waitHere s).ras = s.ras := rfl
@[simp] theorem waitHere_rues (s : State) : (waitHere s).rues = s.rues := rfl
@[simp] theorem waitHere_worn (s : State) : (waitHere s).worn = s.worn := rfl
@[simp] theorem waitHere_modst (s : State) : (waitHere s).modst = s.modst := rfl
@[simp] theorem waitHere_ready (s : State) : (waitHere s).ready = s.ready := rfl
@[simp] theorem waitHere_hmap (s : State) : (waitHere s).hmap = s.hmap := rfl
@[simp] theorem waitHere_launches (s : State) : (waitHere s).launches = s.launches := rfl
@[simp] theorem waitHere_turns (s : State) : (waitHere s).turns = s.turns := rfl
@[simp] theorem waitHere_claims (s : State) : (waitHere s).claims = s.claims := rfl
@[simp] theorem waitHere_turnQ (s : State) : (waitHere s).turnQ = s.turnQ := rfl
@[simp] theorem waitHere_capped (s : State) : (waitHere s).capped = s.capped := rfl
@[simp] theorem waitHere_blocked (s : State) : (waitHere s).blocked = s.blocked := rfl
@[simp] theorem waitHere_queues (s : State) : (waitHere s).queues = s.queues := rfl
@[simp] theorem waitHere_appends (s : State) : (waitHere s).appends = s.appends := rfl
@[simp] theorem waitHere_copies (s : State) : (waitHere s).copies = s.copies := rfl
@[simp] theorem waitHere_groups (s : State) : (waitHere s).groups = s.groups := rfl
@[simp] theorem waitHere_parts (s : State) : (waitHere s).parts = s.parts := rfl
@[simp] theorem waitHere_collTurns (s : State) : (waitHere s).collTurns = s.collTurns := rfl
@[simp] theorem waitHere_collFailed (s : State) : (waitHere s).collFailed = s.collFailed := rfl
@[simp] theorem waitHere_exchanges (s : State) : (waitHere s).exchanges = s.exchanges := rfl
@[simp] theorem waitHere_walking (s : State) : (waitHere s).walking = s.walking := rfl
@[simp] theorem waitHere_saveAreas (s : State) : (waitHere s).saveAreas = s.saveAreas := rfl
@[simp] theorem waitHere_services (s : State) : (waitHere s).services = s.services := rfl
@[simp] theorem waitHere_lastTime (s : State) : (waitHere s).lastTime = s.lastTime := rfl
@[simp] theorem waitHere_dies (s : State) : (waitHere s).dies = s.dies := rfl
@[simp] theorem waitHere_powerPoint (s : State) : (waitHere s).powerPoint = s.powerPoint := rfl
@[simp] theorem waitHere_heatPoint (s : State) : (waitHere s).heatPoint = s.heatPoint := rfl
@[simp] theorem waitHere_pwrcap (s : State) : (waitHere s).pwrcap = s.pwrcap := rfl
@[simp] theorem waitHere_almpol (s : State) : (waitHere s).almpol = s.almpol := rfl
@[simp] theorem waitHere_spareAt (s : State) : (waitHere s).spareAt = s.spareAt := rfl
@[simp] theorem waitHere_verified (s : State) : (waitHere s).verified = s.verified := rfl
@[simp] theorem waitHere_bootFailed (s : State) : (waitHere s).bootFailed = s.bootFailed := rfl
@[simp] theorem waitHere_firmware (s : State) : (waitHere s).firmware = s.firmware := rfl
@[simp] theorem waitHere_secver (s : State) : (waitHere s).secver = s.secver := rfl
@[simp] theorem waitHere_measures (s : State) : (waitHere s).measures = s.measures := rfl
@[simp] theorem waitHere_replies (s : State) : (waitHere s).replies = s.replies := rfl
@[simp] theorem waitHere_hostData (s : State) : (waitHere s).hostData = s.hostData := rfl
@[simp] theorem waitHere_errors (s : State) : (waitHere s).errors = s.errors := rfl
@[simp] theorem waitHere_dooms (s : State) : (waitHere s).dooms = s.dooms := rfl

/-! ### Teams -/

@[simp] theorem Team.issued_rows (t : Team) : (t.issued).rows = t.rows := rfl
@[simp] theorem Team.issued_vregs (t : Team) : (t.issued).vregs = t.vregs := rfl
@[simp] theorem Team.issued_stackSize (t : Team) : (t.issued).stackSize = t.stackSize := rfl
@[simp] theorem Team.issued_core (t : Team) : (t.issued).core = t.core := rfl
@[simp] theorem Team.issued_quarter (t : Team) : (t.issued).quarter = t.quarter := rfl
@[simp] theorem Team.issued_pc (t : Team) : (t.issued).pc = t.pc := rfl
@[simp] theorem Team.issued_mode (t : Team) : (t.issued).mode = t.mode := rfl
@[simp] theorem Team.issued_v (t : Team) : (t.issued).v = t.v := rfl
@[simp] theorem Team.issued_p (t : Team) : (t.issued).p = t.p := rfl
@[simp] theorem Team.issued_s (t : Team) : (t.issued).s = t.s := rfl
@[simp] theorem Team.issued_vEmpty (t : Team) : (t.issued).vEmpty = t.vEmpty := rfl
@[simp] theorem Team.issued_sEmpty (t : Team) : (t.issued).sEmpty = t.sEmpty := rfl
@[simp] theorem Team.issued_vFault (t : Team) : (t.issued).vFault = t.vFault := rfl
@[simp] theorem Team.issued_sFault (t : Team) : (t.issued).sFault = t.sFault := rfl
@[simp] theorem Team.issued_held (t : Team) : (t.issued).held = t.held := rfl
@[simp] theorem Team.issued_upsetV (t : Team) : (t.issued).upsetV = t.upsetV := rfl
@[simp] theorem Team.issued_upsetS (t : Team) : (t.issued).upsetS = t.upsetS := rfl
@[simp] theorem Team.issued_upsetP (t : Team) : (t.issued).upsetP = t.upsetP := rfl
@[simp] theorem Team.issued_softV (t : Team) : (t.issued).softV = t.softV := rfl
@[simp] theorem Team.issued_softS (t : Team) : (t.issued).softS = t.softS := rfl
@[simp] theorem Team.issued_softP (t : Team) : (t.issued).softP = t.softP := rfl
@[simp] theorem Team.issued_fixes (t : Team) : (t.issued).fixes = t.fixes := rfl
@[simp] theorem Team.issued_mask (t : Team) : (t.issued).mask = t.mask := rfl
@[simp] theorem Team.issued_live (t : Team) : (t.issued).live = t.live := rfl
@[simp] theorem Team.issued_stack (t : Team) : (t.issued).stack = t.stack := rfl
@[simp] theorem Team.issued_spilled (t : Team) : (t.issued).spilled = t.spilled := rfl
@[simp] theorem Team.issued_cfd (t : Team) : (t.issued).cfd = t.cfd := rfl
@[simp] theorem Team.issued_jpc (t : Team) : (t.issued).jpc = t.jpc := rfl
@[simp] theorem Team.issued_rgpc (t : Team) : (t.issued).rgpc = t.rgpc := rfl
@[simp] theorem Team.issued_rgst (t : Team) : (t.issued).rgst = t.rgst := rfl
@[simp] theorem Team.issued_rgmask (t : Team) : (t.issued).rgmask = t.rgmask := rfl
@[simp] theorem Team.issued_tvec (t : Team) : (t.issued).tvec = t.tvec := rfl
@[simp] theorem Team.issued_frecb (t : Team) : (t.issued).frecb = t.frecb := rfl
@[simp] theorem Team.issued_tepc (t : Team) : (t.issued).tepc = t.tepc := rfl
@[simp] theorem Team.issued_tcause (t : Team) : (t.issued).tcause = t.tcause := rfl
@[simp] theorem Team.issued_frcnt (t : Team) : (t.issued).frcnt = t.frcnt := rfl
@[simp] theorem Team.issued_frlost (t : Team) : (t.issued).frlost = t.frlost := rfl
@[simp] theorem Team.issued_tsmode (t : Team) : (t.issued).tsmode = t.tsmode := rfl
@[simp] theorem Team.issued_tsjpc (t : Team) : (t.issued).tsjpc = t.tsjpc := rfl
@[simp] theorem Team.issued_tstat (t : Team) : (t.issued).tstat = t.tstat := rfl
@[simp] theorem Team.issued_tsmask (t : Team) : (t.issued).tsmask = t.tsmask := rfl
@[simp] theorem Team.issued_tsstack (t : Team) : (t.issued).tsstack = t.tsstack := rfl
@[simp] theorem Team.issued_tsspilled (t : Team) : (t.issued).tsspilled = t.tsspilled := rfl
@[simp] theorem Team.issued_tscfd (t : Team) : (t.issued).tscfd = t.tscfd := rfl
@[simp] theorem Team.issued_fstat (t : Team) : (t.issued).fstat = t.fstat := rfl
@[simp] theorem Team.issued_fpte (t : Team) : (t.issued).fpte = t.fpte := rfl
@[simp] theorem Team.issued_mwto (t : Team) : (t.issued).mwto = t.mwto := rfl
@[simp] theorem Team.issued_scarry (t : Team) : (t.issued).scarry = t.scarry := rfl
@[simp] theorem Team.issued_segctl (t : Team) : (t.issued).segctl = t.segctl := rfl
@[simp] theorem Team.issued_tstk (t : Team) : (t.issued).tstk = t.tstk := rfl
@[simp] theorem Team.issued_hmsel (t : Team) : (t.issued).hmsel = t.hmsel := rfl
@[simp] theorem Team.issued_dbgctl (t : Team) : (t.issued).dbgctl = BitVec.ofNat 64 (setBits t.dbgctl.toNat 12 2 0) := rfl
@[simp] theorem Team.issued_dbgst (t : Team) : (t.issued).dbgst = t.dbgst := rfl
@[simp] theorem Team.issued_ten (t : Team) : (t.issued).ten = t.ten := rfl
@[simp] theorem Team.issued_mill (t : Team) : (t.issued).mill = t.mill := rfl
@[simp] theorem Team.issued_millBusy (t : Team) : (t.issued).millBusy = t.millBusy := rfl
@[simp] theorem Team.issued_age (t : Team) : (t.issued).age = 1 := rfl
@[simp] theorem Team.issued_hold (t : Team) : (t.issued).hold = t.hold := rfl
@[simp] theorem Team.issued_trapping (t : Team) : (t.issued).trapping = t.trapping := rfl
@[simp] theorem Team.issued_release (t : Team) : (t.issued).release = none := rfl
@[simp] theorem Team.issued_acquiring (t : Team) : (t.issued).acquiring = t.acquiring := rfl
@[simp] theorem Team.issued_count (t : Team) : (t.issued).count = t.count + 1 := rfl
@[simp] theorem Team.issued_credit (t : Team) : (t.issued).credit = false := rfl
@[simp] theorem Team.issued_stepLane (t : Team) : (t.issued).stepLane = t.stepLane := rfl
@[simp] theorem Team.issued_stepping (t : Team) : (t.issued).stepping = t.stepping := rfl
@[simp] theorem Team.issued_stepAsked (t : Team) : (t.issued).stepAsked = t.stepAsked := rfl

@[simp] theorem Team.goto_rows (t : Team) (pc : DWord) : (t.goto pc).rows = t.rows := rfl
@[simp] theorem Team.goto_vregs (t : Team) (pc : DWord) : (t.goto pc).vregs = t.vregs := rfl
@[simp] theorem Team.goto_stackSize (t : Team) (pc : DWord) : (t.goto pc).stackSize = t.stackSize := rfl
@[simp] theorem Team.goto_core (t : Team) (pc : DWord) : (t.goto pc).core = t.core := rfl
@[simp] theorem Team.goto_quarter (t : Team) (pc : DWord) : (t.goto pc).quarter = t.quarter := rfl
@[simp] theorem Team.goto_pc (t : Team) (pc : DWord) : (t.goto pc).pc = pc := rfl
@[simp] theorem Team.goto_mode (t : Team) (pc : DWord) : (t.goto pc).mode = t.mode := rfl
@[simp] theorem Team.goto_v (t : Team) (pc : DWord) : (t.goto pc).v = t.v := rfl
@[simp] theorem Team.goto_p (t : Team) (pc : DWord) : (t.goto pc).p = t.p := rfl
@[simp] theorem Team.goto_s (t : Team) (pc : DWord) : (t.goto pc).s = t.s := rfl
@[simp] theorem Team.goto_vEmpty (t : Team) (pc : DWord) : (t.goto pc).vEmpty = t.vEmpty := rfl
@[simp] theorem Team.goto_sEmpty (t : Team) (pc : DWord) : (t.goto pc).sEmpty = t.sEmpty := rfl
@[simp] theorem Team.goto_vFault (t : Team) (pc : DWord) : (t.goto pc).vFault = t.vFault := rfl
@[simp] theorem Team.goto_sFault (t : Team) (pc : DWord) : (t.goto pc).sFault = t.sFault := rfl
@[simp] theorem Team.goto_held (t : Team) (pc : DWord) : (t.goto pc).held = t.held := rfl
@[simp] theorem Team.goto_upsetV (t : Team) (pc : DWord) : (t.goto pc).upsetV = t.upsetV := rfl
@[simp] theorem Team.goto_upsetS (t : Team) (pc : DWord) : (t.goto pc).upsetS = t.upsetS := rfl
@[simp] theorem Team.goto_upsetP (t : Team) (pc : DWord) : (t.goto pc).upsetP = t.upsetP := rfl
@[simp] theorem Team.goto_softV (t : Team) (pc : DWord) : (t.goto pc).softV = t.softV := rfl
@[simp] theorem Team.goto_softS (t : Team) (pc : DWord) : (t.goto pc).softS = t.softS := rfl
@[simp] theorem Team.goto_softP (t : Team) (pc : DWord) : (t.goto pc).softP = t.softP := rfl
@[simp] theorem Team.goto_fixes (t : Team) (pc : DWord) : (t.goto pc).fixes = t.fixes := rfl
@[simp] theorem Team.goto_mask (t : Team) (pc : DWord) : (t.goto pc).mask = t.mask := rfl
@[simp] theorem Team.goto_live (t : Team) (pc : DWord) : (t.goto pc).live = t.live := rfl
@[simp] theorem Team.goto_stack (t : Team) (pc : DWord) : (t.goto pc).stack = t.stack := rfl
@[simp] theorem Team.goto_spilled (t : Team) (pc : DWord) : (t.goto pc).spilled = t.spilled := rfl
@[simp] theorem Team.goto_cfd (t : Team) (pc : DWord) : (t.goto pc).cfd = t.cfd := rfl
@[simp] theorem Team.goto_jpc (t : Team) (pc : DWord) : (t.goto pc).jpc = t.jpc := rfl
@[simp] theorem Team.goto_rgpc (t : Team) (pc : DWord) : (t.goto pc).rgpc = t.rgpc := rfl
@[simp] theorem Team.goto_rgst (t : Team) (pc : DWord) : (t.goto pc).rgst = t.rgst := rfl
@[simp] theorem Team.goto_rgmask (t : Team) (pc : DWord) : (t.goto pc).rgmask = t.rgmask := rfl
@[simp] theorem Team.goto_tvec (t : Team) (pc : DWord) : (t.goto pc).tvec = t.tvec := rfl
@[simp] theorem Team.goto_frecb (t : Team) (pc : DWord) : (t.goto pc).frecb = t.frecb := rfl
@[simp] theorem Team.goto_tepc (t : Team) (pc : DWord) : (t.goto pc).tepc = t.tepc := rfl
@[simp] theorem Team.goto_tcause (t : Team) (pc : DWord) : (t.goto pc).tcause = t.tcause := rfl
@[simp] theorem Team.goto_frcnt (t : Team) (pc : DWord) : (t.goto pc).frcnt = t.frcnt := rfl
@[simp] theorem Team.goto_frlost (t : Team) (pc : DWord) : (t.goto pc).frlost = t.frlost := rfl
@[simp] theorem Team.goto_tsmode (t : Team) (pc : DWord) : (t.goto pc).tsmode = t.tsmode := rfl
@[simp] theorem Team.goto_tsjpc (t : Team) (pc : DWord) : (t.goto pc).tsjpc = t.tsjpc := rfl
@[simp] theorem Team.goto_tstat (t : Team) (pc : DWord) : (t.goto pc).tstat = t.tstat := rfl
@[simp] theorem Team.goto_tsmask (t : Team) (pc : DWord) : (t.goto pc).tsmask = t.tsmask := rfl
@[simp] theorem Team.goto_tsstack (t : Team) (pc : DWord) : (t.goto pc).tsstack = t.tsstack := rfl
@[simp] theorem Team.goto_tsspilled (t : Team) (pc : DWord) : (t.goto pc).tsspilled = t.tsspilled := rfl
@[simp] theorem Team.goto_tscfd (t : Team) (pc : DWord) : (t.goto pc).tscfd = t.tscfd := rfl
@[simp] theorem Team.goto_fstat (t : Team) (pc : DWord) : (t.goto pc).fstat = t.fstat := rfl
@[simp] theorem Team.goto_fpte (t : Team) (pc : DWord) : (t.goto pc).fpte = t.fpte := rfl
@[simp] theorem Team.goto_mwto (t : Team) (pc : DWord) : (t.goto pc).mwto = t.mwto := rfl
@[simp] theorem Team.goto_scarry (t : Team) (pc : DWord) : (t.goto pc).scarry = t.scarry := rfl
@[simp] theorem Team.goto_segctl (t : Team) (pc : DWord) : (t.goto pc).segctl = t.segctl := rfl
@[simp] theorem Team.goto_tstk (t : Team) (pc : DWord) : (t.goto pc).tstk = t.tstk := rfl
@[simp] theorem Team.goto_hmsel (t : Team) (pc : DWord) : (t.goto pc).hmsel = t.hmsel := rfl
@[simp] theorem Team.goto_dbgctl (t : Team) (pc : DWord) : (t.goto pc).dbgctl = BitVec.ofNat 64 (setBits t.dbgctl.toNat 12 2 0) := rfl
@[simp] theorem Team.goto_dbgst (t : Team) (pc : DWord) : (t.goto pc).dbgst = t.dbgst := rfl
@[simp] theorem Team.goto_ten (t : Team) (pc : DWord) : (t.goto pc).ten = t.ten := rfl
@[simp] theorem Team.goto_mill (t : Team) (pc : DWord) : (t.goto pc).mill = t.mill := rfl
@[simp] theorem Team.goto_millBusy (t : Team) (pc : DWord) : (t.goto pc).millBusy = t.millBusy := rfl
@[simp] theorem Team.goto_age (t : Team) (pc : DWord) : (t.goto pc).age = 1 := rfl
@[simp] theorem Team.goto_hold (t : Team) (pc : DWord) : (t.goto pc).hold = t.hold := rfl
@[simp] theorem Team.goto_trapping (t : Team) (pc : DWord) : (t.goto pc).trapping = t.trapping := rfl
@[simp] theorem Team.goto_release (t : Team) (pc : DWord) : (t.goto pc).release = none := rfl
@[simp] theorem Team.goto_acquiring (t : Team) (pc : DWord) : (t.goto pc).acquiring = t.acquiring := rfl
@[simp] theorem Team.goto_count (t : Team) (pc : DWord) : (t.goto pc).count = t.count + 1 := rfl
@[simp] theorem Team.goto_credit (t : Team) (pc : DWord) : (t.goto pc).credit = false := rfl
@[simp] theorem Team.goto_stepLane (t : Team) (pc : DWord) : (t.goto pc).stepLane = t.stepLane := rfl
@[simp] theorem Team.goto_stepping (t : Team) (pc : DWord) : (t.goto pc).stepping = t.stepping := rfl
@[simp] theorem Team.goto_stepAsked (t : Team) (pc : DWord) : (t.goto pc).stepAsked = t.stepAsked := rfl

@[simp] theorem Team.next_rows (t : Team) : (t.next).rows = t.rows := rfl
@[simp] theorem Team.next_vregs (t : Team) : (t.next).vregs = t.vregs := rfl
@[simp] theorem Team.next_stackSize (t : Team) : (t.next).stackSize = t.stackSize := rfl
@[simp] theorem Team.next_core (t : Team) : (t.next).core = t.core := rfl
@[simp] theorem Team.next_quarter (t : Team) : (t.next).quarter = t.quarter := rfl
@[simp] theorem Team.next_pc (t : Team) : (t.next).pc = t.pc + 4 := rfl
@[simp] theorem Team.next_mode (t : Team) : (t.next).mode = t.mode := rfl
@[simp] theorem Team.next_v (t : Team) : (t.next).v = t.v := rfl
@[simp] theorem Team.next_p (t : Team) : (t.next).p = t.p := rfl
@[simp] theorem Team.next_s (t : Team) : (t.next).s = t.s := rfl
@[simp] theorem Team.next_vEmpty (t : Team) : (t.next).vEmpty = t.vEmpty := rfl
@[simp] theorem Team.next_sEmpty (t : Team) : (t.next).sEmpty = t.sEmpty := rfl
@[simp] theorem Team.next_vFault (t : Team) : (t.next).vFault = t.vFault := rfl
@[simp] theorem Team.next_sFault (t : Team) : (t.next).sFault = t.sFault := rfl
@[simp] theorem Team.next_held (t : Team) : (t.next).held = t.held := rfl
@[simp] theorem Team.next_upsetV (t : Team) : (t.next).upsetV = t.upsetV := rfl
@[simp] theorem Team.next_upsetS (t : Team) : (t.next).upsetS = t.upsetS := rfl
@[simp] theorem Team.next_upsetP (t : Team) : (t.next).upsetP = t.upsetP := rfl
@[simp] theorem Team.next_softV (t : Team) : (t.next).softV = t.softV := rfl
@[simp] theorem Team.next_softS (t : Team) : (t.next).softS = t.softS := rfl
@[simp] theorem Team.next_softP (t : Team) : (t.next).softP = t.softP := rfl
@[simp] theorem Team.next_fixes (t : Team) : (t.next).fixes = t.fixes := rfl
@[simp] theorem Team.next_mask (t : Team) : (t.next).mask = t.mask := rfl
@[simp] theorem Team.next_live (t : Team) : (t.next).live = t.live := rfl
@[simp] theorem Team.next_stack (t : Team) : (t.next).stack = t.stack := rfl
@[simp] theorem Team.next_spilled (t : Team) : (t.next).spilled = t.spilled := rfl
@[simp] theorem Team.next_cfd (t : Team) : (t.next).cfd = t.cfd := rfl
@[simp] theorem Team.next_jpc (t : Team) : (t.next).jpc = t.jpc := rfl
@[simp] theorem Team.next_rgpc (t : Team) : (t.next).rgpc = t.rgpc := rfl
@[simp] theorem Team.next_rgst (t : Team) : (t.next).rgst = t.rgst := rfl
@[simp] theorem Team.next_rgmask (t : Team) : (t.next).rgmask = t.rgmask := rfl
@[simp] theorem Team.next_tvec (t : Team) : (t.next).tvec = t.tvec := rfl
@[simp] theorem Team.next_frecb (t : Team) : (t.next).frecb = t.frecb := rfl
@[simp] theorem Team.next_tepc (t : Team) : (t.next).tepc = t.tepc := rfl
@[simp] theorem Team.next_tcause (t : Team) : (t.next).tcause = t.tcause := rfl
@[simp] theorem Team.next_frcnt (t : Team) : (t.next).frcnt = t.frcnt := rfl
@[simp] theorem Team.next_frlost (t : Team) : (t.next).frlost = t.frlost := rfl
@[simp] theorem Team.next_tsmode (t : Team) : (t.next).tsmode = t.tsmode := rfl
@[simp] theorem Team.next_tsjpc (t : Team) : (t.next).tsjpc = t.tsjpc := rfl
@[simp] theorem Team.next_tstat (t : Team) : (t.next).tstat = t.tstat := rfl
@[simp] theorem Team.next_tsmask (t : Team) : (t.next).tsmask = t.tsmask := rfl
@[simp] theorem Team.next_tsstack (t : Team) : (t.next).tsstack = t.tsstack := rfl
@[simp] theorem Team.next_tsspilled (t : Team) : (t.next).tsspilled = t.tsspilled := rfl
@[simp] theorem Team.next_tscfd (t : Team) : (t.next).tscfd = t.tscfd := rfl
@[simp] theorem Team.next_fstat (t : Team) : (t.next).fstat = t.fstat := rfl
@[simp] theorem Team.next_fpte (t : Team) : (t.next).fpte = t.fpte := rfl
@[simp] theorem Team.next_mwto (t : Team) : (t.next).mwto = t.mwto := rfl
@[simp] theorem Team.next_scarry (t : Team) : (t.next).scarry = t.scarry := rfl
@[simp] theorem Team.next_segctl (t : Team) : (t.next).segctl = t.segctl := rfl
@[simp] theorem Team.next_tstk (t : Team) : (t.next).tstk = t.tstk := rfl
@[simp] theorem Team.next_hmsel (t : Team) : (t.next).hmsel = t.hmsel := rfl
@[simp] theorem Team.next_dbgctl (t : Team) : (t.next).dbgctl = BitVec.ofNat 64 (setBits t.dbgctl.toNat 12 2 0) := rfl
@[simp] theorem Team.next_dbgst (t : Team) : (t.next).dbgst = t.dbgst := rfl
@[simp] theorem Team.next_ten (t : Team) : (t.next).ten = t.ten := rfl
@[simp] theorem Team.next_mill (t : Team) : (t.next).mill = t.mill := rfl
@[simp] theorem Team.next_millBusy (t : Team) : (t.next).millBusy = t.millBusy := rfl
@[simp] theorem Team.next_age (t : Team) : (t.next).age = 1 := rfl
@[simp] theorem Team.next_hold (t : Team) : (t.next).hold = t.hold := rfl
@[simp] theorem Team.next_trapping (t : Team) : (t.next).trapping = t.trapping := rfl
@[simp] theorem Team.next_release (t : Team) : (t.next).release = none := rfl
@[simp] theorem Team.next_acquiring (t : Team) : (t.next).acquiring = t.acquiring := rfl
@[simp] theorem Team.next_count (t : Team) : (t.next).count = t.count + 1 := rfl
@[simp] theorem Team.next_credit (t : Team) : (t.next).credit = false := rfl
@[simp] theorem Team.next_stepLane (t : Team) : (t.next).stepLane = t.stepLane := rfl
@[simp] theorem Team.next_stepping (t : Team) : (t.next).stepping = t.stepping := rfl
@[simp] theorem Team.next_stepAsked (t : Team) : (t.next).stepAsked = t.stepAsked := rfl

@[simp] theorem Team.wv_rows (t : Team) (r L : Nat) (w : Word) : (t.wv r L w).rows = t.rows := rfl
@[simp] theorem Team.wv_vregs (t : Team) (r L : Nat) (w : Word) : (t.wv r L w).vregs = t.vregs := rfl
@[simp] theorem Team.wv_stackSize (t : Team) (r L : Nat) (w : Word) : (t.wv r L w).stackSize = t.stackSize := rfl
@[simp] theorem Team.wv_core (t : Team) (r L : Nat) (w : Word) : (t.wv r L w).core = t.core := rfl
@[simp] theorem Team.wv_quarter (t : Team) (r L : Nat) (w : Word) : (t.wv r L w).quarter = t.quarter := rfl
@[simp] theorem Team.wv_pc (t : Team) (r L : Nat) (w : Word) : (t.wv r L w).pc = t.pc := rfl
@[simp] theorem Team.wv_mode (t : Team) (r L : Nat) (w : Word) : (t.wv r L w).mode = t.mode := rfl
@[simp] theorem Team.wv_p (t : Team) (r L : Nat) (w : Word) : (t.wv r L w).p = t.p := rfl
@[simp] theorem Team.wv_s (t : Team) (r L : Nat) (w : Word) : (t.wv r L w).s = t.s := rfl
@[simp] theorem Team.wv_vEmpty (t : Team) (r L : Nat) (w : Word) : (t.wv r L w).vEmpty = t.vEmpty := rfl
@[simp] theorem Team.wv_sEmpty (t : Team) (r L : Nat) (w : Word) : (t.wv r L w).sEmpty = t.sEmpty := rfl
@[simp] theorem Team.wv_vFault (t : Team) (r L : Nat) (w : Word) : (t.wv r L w).vFault = t.vFault := rfl
@[simp] theorem Team.wv_sFault (t : Team) (r L : Nat) (w : Word) : (t.wv r L w).sFault = t.sFault := rfl
@[simp] theorem Team.wv_held (t : Team) (r L : Nat) (w : Word) : (t.wv r L w).held = t.held := rfl
@[simp] theorem Team.wv_upsetV (t : Team) (r L : Nat) (w : Word) : (t.wv r L w).upsetV = t.upsetV := rfl
@[simp] theorem Team.wv_upsetS (t : Team) (r L : Nat) (w : Word) : (t.wv r L w).upsetS = t.upsetS := rfl
@[simp] theorem Team.wv_upsetP (t : Team) (r L : Nat) (w : Word) : (t.wv r L w).upsetP = t.upsetP := rfl
@[simp] theorem Team.wv_softV (t : Team) (r L : Nat) (w : Word) : (t.wv r L w).softV = t.softV := rfl
@[simp] theorem Team.wv_softS (t : Team) (r L : Nat) (w : Word) : (t.wv r L w).softS = t.softS := rfl
@[simp] theorem Team.wv_softP (t : Team) (r L : Nat) (w : Word) : (t.wv r L w).softP = t.softP := rfl
@[simp] theorem Team.wv_fixes (t : Team) (r L : Nat) (w : Word) : (t.wv r L w).fixes = t.fixes := rfl
@[simp] theorem Team.wv_mask (t : Team) (r L : Nat) (w : Word) : (t.wv r L w).mask = t.mask := rfl
@[simp] theorem Team.wv_live (t : Team) (r L : Nat) (w : Word) : (t.wv r L w).live = t.live := rfl
@[simp] theorem Team.wv_stack (t : Team) (r L : Nat) (w : Word) : (t.wv r L w).stack = t.stack := rfl
@[simp] theorem Team.wv_spilled (t : Team) (r L : Nat) (w : Word) : (t.wv r L w).spilled = t.spilled := rfl
@[simp] theorem Team.wv_cfd (t : Team) (r L : Nat) (w : Word) : (t.wv r L w).cfd = t.cfd := rfl
@[simp] theorem Team.wv_jpc (t : Team) (r L : Nat) (w : Word) : (t.wv r L w).jpc = t.jpc := rfl
@[simp] theorem Team.wv_rgpc (t : Team) (r L : Nat) (w : Word) : (t.wv r L w).rgpc = t.rgpc := rfl
@[simp] theorem Team.wv_rgst (t : Team) (r L : Nat) (w : Word) : (t.wv r L w).rgst = t.rgst := rfl
@[simp] theorem Team.wv_rgmask (t : Team) (r L : Nat) (w : Word) : (t.wv r L w).rgmask = t.rgmask := rfl
@[simp] theorem Team.wv_tvec (t : Team) (r L : Nat) (w : Word) : (t.wv r L w).tvec = t.tvec := rfl
@[simp] theorem Team.wv_frecb (t : Team) (r L : Nat) (w : Word) : (t.wv r L w).frecb = t.frecb := rfl
@[simp] theorem Team.wv_tepc (t : Team) (r L : Nat) (w : Word) : (t.wv r L w).tepc = t.tepc := rfl
@[simp] theorem Team.wv_tcause (t : Team) (r L : Nat) (w : Word) : (t.wv r L w).tcause = t.tcause := rfl
@[simp] theorem Team.wv_frcnt (t : Team) (r L : Nat) (w : Word) : (t.wv r L w).frcnt = t.frcnt := rfl
@[simp] theorem Team.wv_frlost (t : Team) (r L : Nat) (w : Word) : (t.wv r L w).frlost = t.frlost := rfl
@[simp] theorem Team.wv_tsmode (t : Team) (r L : Nat) (w : Word) : (t.wv r L w).tsmode = t.tsmode := rfl
@[simp] theorem Team.wv_tsjpc (t : Team) (r L : Nat) (w : Word) : (t.wv r L w).tsjpc = t.tsjpc := rfl
@[simp] theorem Team.wv_tstat (t : Team) (r L : Nat) (w : Word) : (t.wv r L w).tstat = t.tstat := rfl
@[simp] theorem Team.wv_tsmask (t : Team) (r L : Nat) (w : Word) : (t.wv r L w).tsmask = t.tsmask := rfl
@[simp] theorem Team.wv_tsstack (t : Team) (r L : Nat) (w : Word) : (t.wv r L w).tsstack = t.tsstack := rfl
@[simp] theorem Team.wv_tsspilled (t : Team) (r L : Nat) (w : Word) : (t.wv r L w).tsspilled = t.tsspilled := rfl
@[simp] theorem Team.wv_tscfd (t : Team) (r L : Nat) (w : Word) : (t.wv r L w).tscfd = t.tscfd := rfl
@[simp] theorem Team.wv_fstat (t : Team) (r L : Nat) (w : Word) : (t.wv r L w).fstat = t.fstat := rfl
@[simp] theorem Team.wv_fpte (t : Team) (r L : Nat) (w : Word) : (t.wv r L w).fpte = t.fpte := rfl
@[simp] theorem Team.wv_mwto (t : Team) (r L : Nat) (w : Word) : (t.wv r L w).mwto = t.mwto := rfl
@[simp] theorem Team.wv_scarry (t : Team) (r L : Nat) (w : Word) : (t.wv r L w).scarry = t.scarry := rfl
@[simp] theorem Team.wv_segctl (t : Team) (r L : Nat) (w : Word) : (t.wv r L w).segctl = t.segctl := rfl
@[simp] theorem Team.wv_tstk (t : Team) (r L : Nat) (w : Word) : (t.wv r L w).tstk = t.tstk := rfl
@[simp] theorem Team.wv_hmsel (t : Team) (r L : Nat) (w : Word) : (t.wv r L w).hmsel = t.hmsel := rfl
@[simp] theorem Team.wv_dbgctl (t : Team) (r L : Nat) (w : Word) : (t.wv r L w).dbgctl = t.dbgctl := rfl
@[simp] theorem Team.wv_dbgst (t : Team) (r L : Nat) (w : Word) : (t.wv r L w).dbgst = t.dbgst := rfl
@[simp] theorem Team.wv_ten (t : Team) (r L : Nat) (w : Word) : (t.wv r L w).ten = t.ten := rfl
@[simp] theorem Team.wv_mill (t : Team) (r L : Nat) (w : Word) : (t.wv r L w).mill = t.mill := rfl
@[simp] theorem Team.wv_millBusy (t : Team) (r L : Nat) (w : Word) : (t.wv r L w).millBusy = t.millBusy := rfl
@[simp] theorem Team.wv_age (t : Team) (r L : Nat) (w : Word) : (t.wv r L w).age = t.age := rfl
@[simp] theorem Team.wv_hold (t : Team) (r L : Nat) (w : Word) : (t.wv r L w).hold = t.hold := rfl
@[simp] theorem Team.wv_trapping (t : Team) (r L : Nat) (w : Word) : (t.wv r L w).trapping = t.trapping := rfl
@[simp] theorem Team.wv_release (t : Team) (r L : Nat) (w : Word) : (t.wv r L w).release = t.release := rfl
@[simp] theorem Team.wv_acquiring (t : Team) (r L : Nat) (w : Word) : (t.wv r L w).acquiring = t.acquiring := rfl
@[simp] theorem Team.wv_count (t : Team) (r L : Nat) (w : Word) : (t.wv r L w).count = t.count := rfl
@[simp] theorem Team.wv_credit (t : Team) (r L : Nat) (w : Word) : (t.wv r L w).credit = t.credit := rfl
@[simp] theorem Team.wv_stepLane (t : Team) (r L : Nat) (w : Word) : (t.wv r L w).stepLane = t.stepLane := rfl
@[simp] theorem Team.wv_stepping (t : Team) (r L : Nat) (w : Word) : (t.wv r L w).stepping = t.stepping := rfl
@[simp] theorem Team.wv_stepAsked (t : Team) (r L : Nat) (w : Word) : (t.wv r L w).stepAsked = t.stepAsked := rfl

@[simp] theorem Team.ws_rows (t : Team) (n : Nat) (x : DWord) : (t.ws n x).rows = t.rows := by unfold Team.ws; split <;> rfl
@[simp] theorem Team.ws_vregs (t : Team) (n : Nat) (x : DWord) : (t.ws n x).vregs = t.vregs := by unfold Team.ws; split <;> rfl
@[simp] theorem Team.ws_stackSize (t : Team) (n : Nat) (x : DWord) : (t.ws n x).stackSize = t.stackSize := by unfold Team.ws; split <;> rfl
@[simp] theorem Team.ws_core (t : Team) (n : Nat) (x : DWord) : (t.ws n x).core = t.core := by unfold Team.ws; split <;> rfl
@[simp] theorem Team.ws_quarter (t : Team) (n : Nat) (x : DWord) : (t.ws n x).quarter = t.quarter := by unfold Team.ws; split <;> rfl
@[simp] theorem Team.ws_pc (t : Team) (n : Nat) (x : DWord) : (t.ws n x).pc = t.pc := by unfold Team.ws; split <;> rfl
@[simp] theorem Team.ws_mode (t : Team) (n : Nat) (x : DWord) : (t.ws n x).mode = t.mode := by unfold Team.ws; split <;> rfl
@[simp] theorem Team.ws_v (t : Team) (n : Nat) (x : DWord) : (t.ws n x).v = t.v := by unfold Team.ws; split <;> rfl
@[simp] theorem Team.ws_p (t : Team) (n : Nat) (x : DWord) : (t.ws n x).p = t.p := by unfold Team.ws; split <;> rfl
@[simp] theorem Team.ws_vEmpty (t : Team) (n : Nat) (x : DWord) : (t.ws n x).vEmpty = t.vEmpty := by unfold Team.ws; split <;> rfl
@[simp] theorem Team.ws_sEmpty (t : Team) (n : Nat) (x : DWord) : (t.ws n x).sEmpty = t.sEmpty := by unfold Team.ws; split <;> rfl
@[simp] theorem Team.ws_vFault (t : Team) (n : Nat) (x : DWord) : (t.ws n x).vFault = t.vFault := by unfold Team.ws; split <;> rfl
@[simp] theorem Team.ws_sFault (t : Team) (n : Nat) (x : DWord) : (t.ws n x).sFault = t.sFault := by unfold Team.ws; split <;> rfl
@[simp] theorem Team.ws_held (t : Team) (n : Nat) (x : DWord) : (t.ws n x).held = t.held := by unfold Team.ws; split <;> rfl
@[simp] theorem Team.ws_upsetV (t : Team) (n : Nat) (x : DWord) : (t.ws n x).upsetV = t.upsetV := by unfold Team.ws; split <;> rfl
@[simp] theorem Team.ws_upsetS (t : Team) (n : Nat) (x : DWord) : (t.ws n x).upsetS = t.upsetS := by unfold Team.ws; split <;> rfl
@[simp] theorem Team.ws_upsetP (t : Team) (n : Nat) (x : DWord) : (t.ws n x).upsetP = t.upsetP := by unfold Team.ws; split <;> rfl
@[simp] theorem Team.ws_softV (t : Team) (n : Nat) (x : DWord) : (t.ws n x).softV = t.softV := by unfold Team.ws; split <;> rfl
@[simp] theorem Team.ws_softS (t : Team) (n : Nat) (x : DWord) : (t.ws n x).softS = t.softS := by unfold Team.ws; split <;> rfl
@[simp] theorem Team.ws_softP (t : Team) (n : Nat) (x : DWord) : (t.ws n x).softP = t.softP := by unfold Team.ws; split <;> rfl
@[simp] theorem Team.ws_fixes (t : Team) (n : Nat) (x : DWord) : (t.ws n x).fixes = t.fixes := by unfold Team.ws; split <;> rfl
@[simp] theorem Team.ws_mask (t : Team) (n : Nat) (x : DWord) : (t.ws n x).mask = t.mask := by unfold Team.ws; split <;> rfl
@[simp] theorem Team.ws_live (t : Team) (n : Nat) (x : DWord) : (t.ws n x).live = t.live := by unfold Team.ws; split <;> rfl
@[simp] theorem Team.ws_stack (t : Team) (n : Nat) (x : DWord) : (t.ws n x).stack = t.stack := by unfold Team.ws; split <;> rfl
@[simp] theorem Team.ws_spilled (t : Team) (n : Nat) (x : DWord) : (t.ws n x).spilled = t.spilled := by unfold Team.ws; split <;> rfl
@[simp] theorem Team.ws_cfd (t : Team) (n : Nat) (x : DWord) : (t.ws n x).cfd = t.cfd := by unfold Team.ws; split <;> rfl
@[simp] theorem Team.ws_jpc (t : Team) (n : Nat) (x : DWord) : (t.ws n x).jpc = t.jpc := by unfold Team.ws; split <;> rfl
@[simp] theorem Team.ws_rgpc (t : Team) (n : Nat) (x : DWord) : (t.ws n x).rgpc = t.rgpc := by unfold Team.ws; split <;> rfl
@[simp] theorem Team.ws_rgst (t : Team) (n : Nat) (x : DWord) : (t.ws n x).rgst = t.rgst := by unfold Team.ws; split <;> rfl
@[simp] theorem Team.ws_rgmask (t : Team) (n : Nat) (x : DWord) : (t.ws n x).rgmask = t.rgmask := by unfold Team.ws; split <;> rfl
@[simp] theorem Team.ws_tvec (t : Team) (n : Nat) (x : DWord) : (t.ws n x).tvec = t.tvec := by unfold Team.ws; split <;> rfl
@[simp] theorem Team.ws_frecb (t : Team) (n : Nat) (x : DWord) : (t.ws n x).frecb = t.frecb := by unfold Team.ws; split <;> rfl
@[simp] theorem Team.ws_tepc (t : Team) (n : Nat) (x : DWord) : (t.ws n x).tepc = t.tepc := by unfold Team.ws; split <;> rfl
@[simp] theorem Team.ws_tcause (t : Team) (n : Nat) (x : DWord) : (t.ws n x).tcause = t.tcause := by unfold Team.ws; split <;> rfl
@[simp] theorem Team.ws_frcnt (t : Team) (n : Nat) (x : DWord) : (t.ws n x).frcnt = t.frcnt := by unfold Team.ws; split <;> rfl
@[simp] theorem Team.ws_frlost (t : Team) (n : Nat) (x : DWord) : (t.ws n x).frlost = t.frlost := by unfold Team.ws; split <;> rfl
@[simp] theorem Team.ws_tsmode (t : Team) (n : Nat) (x : DWord) : (t.ws n x).tsmode = t.tsmode := by unfold Team.ws; split <;> rfl
@[simp] theorem Team.ws_tsjpc (t : Team) (n : Nat) (x : DWord) : (t.ws n x).tsjpc = t.tsjpc := by unfold Team.ws; split <;> rfl
@[simp] theorem Team.ws_tstat (t : Team) (n : Nat) (x : DWord) : (t.ws n x).tstat = t.tstat := by unfold Team.ws; split <;> rfl
@[simp] theorem Team.ws_tsmask (t : Team) (n : Nat) (x : DWord) : (t.ws n x).tsmask = t.tsmask := by unfold Team.ws; split <;> rfl
@[simp] theorem Team.ws_tsstack (t : Team) (n : Nat) (x : DWord) : (t.ws n x).tsstack = t.tsstack := by unfold Team.ws; split <;> rfl
@[simp] theorem Team.ws_tsspilled (t : Team) (n : Nat) (x : DWord) : (t.ws n x).tsspilled = t.tsspilled := by unfold Team.ws; split <;> rfl
@[simp] theorem Team.ws_tscfd (t : Team) (n : Nat) (x : DWord) : (t.ws n x).tscfd = t.tscfd := by unfold Team.ws; split <;> rfl
@[simp] theorem Team.ws_fstat (t : Team) (n : Nat) (x : DWord) : (t.ws n x).fstat = t.fstat := by unfold Team.ws; split <;> rfl
@[simp] theorem Team.ws_fpte (t : Team) (n : Nat) (x : DWord) : (t.ws n x).fpte = t.fpte := by unfold Team.ws; split <;> rfl
@[simp] theorem Team.ws_mwto (t : Team) (n : Nat) (x : DWord) : (t.ws n x).mwto = t.mwto := by unfold Team.ws; split <;> rfl
@[simp] theorem Team.ws_scarry (t : Team) (n : Nat) (x : DWord) : (t.ws n x).scarry = t.scarry := by unfold Team.ws; split <;> rfl
@[simp] theorem Team.ws_segctl (t : Team) (n : Nat) (x : DWord) : (t.ws n x).segctl = t.segctl := by unfold Team.ws; split <;> rfl
@[simp] theorem Team.ws_tstk (t : Team) (n : Nat) (x : DWord) : (t.ws n x).tstk = t.tstk := by unfold Team.ws; split <;> rfl
@[simp] theorem Team.ws_hmsel (t : Team) (n : Nat) (x : DWord) : (t.ws n x).hmsel = t.hmsel := by unfold Team.ws; split <;> rfl
@[simp] theorem Team.ws_dbgctl (t : Team) (n : Nat) (x : DWord) : (t.ws n x).dbgctl = t.dbgctl := by unfold Team.ws; split <;> rfl
@[simp] theorem Team.ws_dbgst (t : Team) (n : Nat) (x : DWord) : (t.ws n x).dbgst = t.dbgst := by unfold Team.ws; split <;> rfl
@[simp] theorem Team.ws_ten (t : Team) (n : Nat) (x : DWord) : (t.ws n x).ten = t.ten := by unfold Team.ws; split <;> rfl
@[simp] theorem Team.ws_mill (t : Team) (n : Nat) (x : DWord) : (t.ws n x).mill = t.mill := by unfold Team.ws; split <;> rfl
@[simp] theorem Team.ws_millBusy (t : Team) (n : Nat) (x : DWord) : (t.ws n x).millBusy = t.millBusy := by unfold Team.ws; split <;> rfl
@[simp] theorem Team.ws_age (t : Team) (n : Nat) (x : DWord) : (t.ws n x).age = t.age := by unfold Team.ws; split <;> rfl
@[simp] theorem Team.ws_hold (t : Team) (n : Nat) (x : DWord) : (t.ws n x).hold = t.hold := by unfold Team.ws; split <;> rfl
@[simp] theorem Team.ws_trapping (t : Team) (n : Nat) (x : DWord) : (t.ws n x).trapping = t.trapping := by unfold Team.ws; split <;> rfl
@[simp] theorem Team.ws_release (t : Team) (n : Nat) (x : DWord) : (t.ws n x).release = t.release := by unfold Team.ws; split <;> rfl
@[simp] theorem Team.ws_acquiring (t : Team) (n : Nat) (x : DWord) : (t.ws n x).acquiring = t.acquiring := by unfold Team.ws; split <;> rfl
@[simp] theorem Team.ws_count (t : Team) (n : Nat) (x : DWord) : (t.ws n x).count = t.count := by unfold Team.ws; split <;> rfl
@[simp] theorem Team.ws_credit (t : Team) (n : Nat) (x : DWord) : (t.ws n x).credit = t.credit := by unfold Team.ws; split <;> rfl
@[simp] theorem Team.ws_stepLane (t : Team) (n : Nat) (x : DWord) : (t.ws n x).stepLane = t.stepLane := by unfold Team.ws; split <;> rfl
@[simp] theorem Team.ws_stepping (t : Team) (n : Nat) (x : DWord) : (t.ws n x).stepping = t.stepping := by unfold Team.ws; split <;> rfl
@[simp] theorem Team.ws_stepAsked (t : Team) (n : Nat) (x : DWord) : (t.ws n x).stepAsked = t.stepAsked := by unfold Team.ws; split <;> rfl

@[simp] theorem Team.wp_rows (t : Team) (n : Nat) (m : LaneMask) : (t.wp n m).rows = t.rows := by unfold Team.wp; split <;> rfl
@[simp] theorem Team.wp_vregs (t : Team) (n : Nat) (m : LaneMask) : (t.wp n m).vregs = t.vregs := by unfold Team.wp; split <;> rfl
@[simp] theorem Team.wp_stackSize (t : Team) (n : Nat) (m : LaneMask) : (t.wp n m).stackSize = t.stackSize := by unfold Team.wp; split <;> rfl
@[simp] theorem Team.wp_core (t : Team) (n : Nat) (m : LaneMask) : (t.wp n m).core = t.core := by unfold Team.wp; split <;> rfl
@[simp] theorem Team.wp_quarter (t : Team) (n : Nat) (m : LaneMask) : (t.wp n m).quarter = t.quarter := by unfold Team.wp; split <;> rfl
@[simp] theorem Team.wp_pc (t : Team) (n : Nat) (m : LaneMask) : (t.wp n m).pc = t.pc := by unfold Team.wp; split <;> rfl
@[simp] theorem Team.wp_mode (t : Team) (n : Nat) (m : LaneMask) : (t.wp n m).mode = t.mode := by unfold Team.wp; split <;> rfl
@[simp] theorem Team.wp_v (t : Team) (n : Nat) (m : LaneMask) : (t.wp n m).v = t.v := by unfold Team.wp; split <;> rfl
@[simp] theorem Team.wp_s (t : Team) (n : Nat) (m : LaneMask) : (t.wp n m).s = t.s := by unfold Team.wp; split <;> rfl
@[simp] theorem Team.wp_vEmpty (t : Team) (n : Nat) (m : LaneMask) : (t.wp n m).vEmpty = t.vEmpty := by unfold Team.wp; split <;> rfl
@[simp] theorem Team.wp_sEmpty (t : Team) (n : Nat) (m : LaneMask) : (t.wp n m).sEmpty = t.sEmpty := by unfold Team.wp; split <;> rfl
@[simp] theorem Team.wp_vFault (t : Team) (n : Nat) (m : LaneMask) : (t.wp n m).vFault = t.vFault := by unfold Team.wp; split <;> rfl
@[simp] theorem Team.wp_sFault (t : Team) (n : Nat) (m : LaneMask) : (t.wp n m).sFault = t.sFault := by unfold Team.wp; split <;> rfl
@[simp] theorem Team.wp_held (t : Team) (n : Nat) (m : LaneMask) : (t.wp n m).held = t.held := by unfold Team.wp; split <;> rfl
@[simp] theorem Team.wp_upsetV (t : Team) (n : Nat) (m : LaneMask) : (t.wp n m).upsetV = t.upsetV := by unfold Team.wp; split <;> rfl
@[simp] theorem Team.wp_upsetS (t : Team) (n : Nat) (m : LaneMask) : (t.wp n m).upsetS = t.upsetS := by unfold Team.wp; split <;> rfl
@[simp] theorem Team.wp_upsetP (t : Team) (n : Nat) (m : LaneMask) : (t.wp n m).upsetP = t.upsetP := by unfold Team.wp; split <;> rfl
@[simp] theorem Team.wp_softV (t : Team) (n : Nat) (m : LaneMask) : (t.wp n m).softV = t.softV := by unfold Team.wp; split <;> rfl
@[simp] theorem Team.wp_softS (t : Team) (n : Nat) (m : LaneMask) : (t.wp n m).softS = t.softS := by unfold Team.wp; split <;> rfl
@[simp] theorem Team.wp_softP (t : Team) (n : Nat) (m : LaneMask) : (t.wp n m).softP = t.softP := by unfold Team.wp; split <;> rfl
@[simp] theorem Team.wp_fixes (t : Team) (n : Nat) (m : LaneMask) : (t.wp n m).fixes = t.fixes := by unfold Team.wp; split <;> rfl
@[simp] theorem Team.wp_mask (t : Team) (n : Nat) (m : LaneMask) : (t.wp n m).mask = t.mask := by unfold Team.wp; split <;> rfl
@[simp] theorem Team.wp_live (t : Team) (n : Nat) (m : LaneMask) : (t.wp n m).live = t.live := by unfold Team.wp; split <;> rfl
@[simp] theorem Team.wp_stack (t : Team) (n : Nat) (m : LaneMask) : (t.wp n m).stack = t.stack := by unfold Team.wp; split <;> rfl
@[simp] theorem Team.wp_spilled (t : Team) (n : Nat) (m : LaneMask) : (t.wp n m).spilled = t.spilled := by unfold Team.wp; split <;> rfl
@[simp] theorem Team.wp_cfd (t : Team) (n : Nat) (m : LaneMask) : (t.wp n m).cfd = t.cfd := by unfold Team.wp; split <;> rfl
@[simp] theorem Team.wp_jpc (t : Team) (n : Nat) (m : LaneMask) : (t.wp n m).jpc = t.jpc := by unfold Team.wp; split <;> rfl
@[simp] theorem Team.wp_rgpc (t : Team) (n : Nat) (m : LaneMask) : (t.wp n m).rgpc = t.rgpc := by unfold Team.wp; split <;> rfl
@[simp] theorem Team.wp_rgst (t : Team) (n : Nat) (m : LaneMask) : (t.wp n m).rgst = t.rgst := by unfold Team.wp; split <;> rfl
@[simp] theorem Team.wp_rgmask (t : Team) (n : Nat) (m : LaneMask) : (t.wp n m).rgmask = t.rgmask := by unfold Team.wp; split <;> rfl
@[simp] theorem Team.wp_tvec (t : Team) (n : Nat) (m : LaneMask) : (t.wp n m).tvec = t.tvec := by unfold Team.wp; split <;> rfl
@[simp] theorem Team.wp_frecb (t : Team) (n : Nat) (m : LaneMask) : (t.wp n m).frecb = t.frecb := by unfold Team.wp; split <;> rfl
@[simp] theorem Team.wp_tepc (t : Team) (n : Nat) (m : LaneMask) : (t.wp n m).tepc = t.tepc := by unfold Team.wp; split <;> rfl
@[simp] theorem Team.wp_tcause (t : Team) (n : Nat) (m : LaneMask) : (t.wp n m).tcause = t.tcause := by unfold Team.wp; split <;> rfl
@[simp] theorem Team.wp_frcnt (t : Team) (n : Nat) (m : LaneMask) : (t.wp n m).frcnt = t.frcnt := by unfold Team.wp; split <;> rfl
@[simp] theorem Team.wp_frlost (t : Team) (n : Nat) (m : LaneMask) : (t.wp n m).frlost = t.frlost := by unfold Team.wp; split <;> rfl
@[simp] theorem Team.wp_tsmode (t : Team) (n : Nat) (m : LaneMask) : (t.wp n m).tsmode = t.tsmode := by unfold Team.wp; split <;> rfl
@[simp] theorem Team.wp_tsjpc (t : Team) (n : Nat) (m : LaneMask) : (t.wp n m).tsjpc = t.tsjpc := by unfold Team.wp; split <;> rfl
@[simp] theorem Team.wp_tstat (t : Team) (n : Nat) (m : LaneMask) : (t.wp n m).tstat = t.tstat := by unfold Team.wp; split <;> rfl
@[simp] theorem Team.wp_tsmask (t : Team) (n : Nat) (m : LaneMask) : (t.wp n m).tsmask = t.tsmask := by unfold Team.wp; split <;> rfl
@[simp] theorem Team.wp_tsstack (t : Team) (n : Nat) (m : LaneMask) : (t.wp n m).tsstack = t.tsstack := by unfold Team.wp; split <;> rfl
@[simp] theorem Team.wp_tsspilled (t : Team) (n : Nat) (m : LaneMask) : (t.wp n m).tsspilled = t.tsspilled := by unfold Team.wp; split <;> rfl
@[simp] theorem Team.wp_tscfd (t : Team) (n : Nat) (m : LaneMask) : (t.wp n m).tscfd = t.tscfd := by unfold Team.wp; split <;> rfl
@[simp] theorem Team.wp_fstat (t : Team) (n : Nat) (m : LaneMask) : (t.wp n m).fstat = t.fstat := by unfold Team.wp; split <;> rfl
@[simp] theorem Team.wp_fpte (t : Team) (n : Nat) (m : LaneMask) : (t.wp n m).fpte = t.fpte := by unfold Team.wp; split <;> rfl
@[simp] theorem Team.wp_mwto (t : Team) (n : Nat) (m : LaneMask) : (t.wp n m).mwto = t.mwto := by unfold Team.wp; split <;> rfl
@[simp] theorem Team.wp_scarry (t : Team) (n : Nat) (m : LaneMask) : (t.wp n m).scarry = t.scarry := by unfold Team.wp; split <;> rfl
@[simp] theorem Team.wp_segctl (t : Team) (n : Nat) (m : LaneMask) : (t.wp n m).segctl = t.segctl := by unfold Team.wp; split <;> rfl
@[simp] theorem Team.wp_tstk (t : Team) (n : Nat) (m : LaneMask) : (t.wp n m).tstk = t.tstk := by unfold Team.wp; split <;> rfl
@[simp] theorem Team.wp_hmsel (t : Team) (n : Nat) (m : LaneMask) : (t.wp n m).hmsel = t.hmsel := by unfold Team.wp; split <;> rfl
@[simp] theorem Team.wp_dbgctl (t : Team) (n : Nat) (m : LaneMask) : (t.wp n m).dbgctl = t.dbgctl := by unfold Team.wp; split <;> rfl
@[simp] theorem Team.wp_dbgst (t : Team) (n : Nat) (m : LaneMask) : (t.wp n m).dbgst = t.dbgst := by unfold Team.wp; split <;> rfl
@[simp] theorem Team.wp_ten (t : Team) (n : Nat) (m : LaneMask) : (t.wp n m).ten = t.ten := by unfold Team.wp; split <;> rfl
@[simp] theorem Team.wp_mill (t : Team) (n : Nat) (m : LaneMask) : (t.wp n m).mill = t.mill := by unfold Team.wp; split <;> rfl
@[simp] theorem Team.wp_millBusy (t : Team) (n : Nat) (m : LaneMask) : (t.wp n m).millBusy = t.millBusy := by unfold Team.wp; split <;> rfl
@[simp] theorem Team.wp_age (t : Team) (n : Nat) (m : LaneMask) : (t.wp n m).age = t.age := by unfold Team.wp; split <;> rfl
@[simp] theorem Team.wp_hold (t : Team) (n : Nat) (m : LaneMask) : (t.wp n m).hold = t.hold := by unfold Team.wp; split <;> rfl
@[simp] theorem Team.wp_trapping (t : Team) (n : Nat) (m : LaneMask) : (t.wp n m).trapping = t.trapping := by unfold Team.wp; split <;> rfl
@[simp] theorem Team.wp_release (t : Team) (n : Nat) (m : LaneMask) : (t.wp n m).release = t.release := by unfold Team.wp; split <;> rfl
@[simp] theorem Team.wp_acquiring (t : Team) (n : Nat) (m : LaneMask) : (t.wp n m).acquiring = t.acquiring := by unfold Team.wp; split <;> rfl
@[simp] theorem Team.wp_count (t : Team) (n : Nat) (m : LaneMask) : (t.wp n m).count = t.count := by unfold Team.wp; split <;> rfl
@[simp] theorem Team.wp_credit (t : Team) (n : Nat) (m : LaneMask) : (t.wp n m).credit = t.credit := by unfold Team.wp; split <;> rfl
@[simp] theorem Team.wp_stepLane (t : Team) (n : Nat) (m : LaneMask) : (t.wp n m).stepLane = t.stepLane := by unfold Team.wp; split <;> rfl
@[simp] theorem Team.wp_stepping (t : Team) (n : Nat) (m : LaneMask) : (t.wp n m).stepping = t.stepping := by unfold Team.wp; split <;> rfl
@[simp] theorem Team.wp_stepAsked (t : Team) (n : Nat) (m : LaneMask) : (t.wp n m).stepAsked = t.stepAsked := by unfold Team.wp; split <;> rfl

@[simp] theorem Team.ww_rows (t : Team) (wide : Bool) (r L x : Nat) : (t.ww wide r L x).rows = t.rows := by unfold Team.ww; split <;> rfl
@[simp] theorem Team.ww_vregs (t : Team) (wide : Bool) (r L x : Nat) : (t.ww wide r L x).vregs = t.vregs := by unfold Team.ww; split <;> rfl
@[simp] theorem Team.ww_stackSize (t : Team) (wide : Bool) (r L x : Nat) : (t.ww wide r L x).stackSize = t.stackSize := by unfold Team.ww; split <;> rfl
@[simp] theorem Team.ww_core (t : Team) (wide : Bool) (r L x : Nat) : (t.ww wide r L x).core = t.core := by unfold Team.ww; split <;> rfl
@[simp] theorem Team.ww_quarter (t : Team) (wide : Bool) (r L x : Nat) : (t.ww wide r L x).quarter = t.quarter := by unfold Team.ww; split <;> rfl
@[simp] theorem Team.ww_pc (t : Team) (wide : Bool) (r L x : Nat) : (t.ww wide r L x).pc = t.pc := by unfold Team.ww; split <;> rfl
@[simp] theorem Team.ww_mode (t : Team) (wide : Bool) (r L x : Nat) : (t.ww wide r L x).mode = t.mode := by unfold Team.ww; split <;> rfl
@[simp] theorem Team.ww_p (t : Team) (wide : Bool) (r L x : Nat) : (t.ww wide r L x).p = t.p := by unfold Team.ww; split <;> rfl
@[simp] theorem Team.ww_s (t : Team) (wide : Bool) (r L x : Nat) : (t.ww wide r L x).s = t.s := by unfold Team.ww; split <;> rfl
@[simp] theorem Team.ww_vEmpty (t : Team) (wide : Bool) (r L x : Nat) : (t.ww wide r L x).vEmpty = t.vEmpty := by unfold Team.ww; split <;> rfl
@[simp] theorem Team.ww_sEmpty (t : Team) (wide : Bool) (r L x : Nat) : (t.ww wide r L x).sEmpty = t.sEmpty := by unfold Team.ww; split <;> rfl
@[simp] theorem Team.ww_vFault (t : Team) (wide : Bool) (r L x : Nat) : (t.ww wide r L x).vFault = t.vFault := by unfold Team.ww; split <;> rfl
@[simp] theorem Team.ww_sFault (t : Team) (wide : Bool) (r L x : Nat) : (t.ww wide r L x).sFault = t.sFault := by unfold Team.ww; split <;> rfl
@[simp] theorem Team.ww_held (t : Team) (wide : Bool) (r L x : Nat) : (t.ww wide r L x).held = t.held := by unfold Team.ww; split <;> rfl
@[simp] theorem Team.ww_upsetV (t : Team) (wide : Bool) (r L x : Nat) : (t.ww wide r L x).upsetV = t.upsetV := by unfold Team.ww; split <;> rfl
@[simp] theorem Team.ww_upsetS (t : Team) (wide : Bool) (r L x : Nat) : (t.ww wide r L x).upsetS = t.upsetS := by unfold Team.ww; split <;> rfl
@[simp] theorem Team.ww_upsetP (t : Team) (wide : Bool) (r L x : Nat) : (t.ww wide r L x).upsetP = t.upsetP := by unfold Team.ww; split <;> rfl
@[simp] theorem Team.ww_softV (t : Team) (wide : Bool) (r L x : Nat) : (t.ww wide r L x).softV = t.softV := by unfold Team.ww; split <;> rfl
@[simp] theorem Team.ww_softS (t : Team) (wide : Bool) (r L x : Nat) : (t.ww wide r L x).softS = t.softS := by unfold Team.ww; split <;> rfl
@[simp] theorem Team.ww_softP (t : Team) (wide : Bool) (r L x : Nat) : (t.ww wide r L x).softP = t.softP := by unfold Team.ww; split <;> rfl
@[simp] theorem Team.ww_fixes (t : Team) (wide : Bool) (r L x : Nat) : (t.ww wide r L x).fixes = t.fixes := by unfold Team.ww; split <;> rfl
@[simp] theorem Team.ww_mask (t : Team) (wide : Bool) (r L x : Nat) : (t.ww wide r L x).mask = t.mask := by unfold Team.ww; split <;> rfl
@[simp] theorem Team.ww_live (t : Team) (wide : Bool) (r L x : Nat) : (t.ww wide r L x).live = t.live := by unfold Team.ww; split <;> rfl
@[simp] theorem Team.ww_stack (t : Team) (wide : Bool) (r L x : Nat) : (t.ww wide r L x).stack = t.stack := by unfold Team.ww; split <;> rfl
@[simp] theorem Team.ww_spilled (t : Team) (wide : Bool) (r L x : Nat) : (t.ww wide r L x).spilled = t.spilled := by unfold Team.ww; split <;> rfl
@[simp] theorem Team.ww_cfd (t : Team) (wide : Bool) (r L x : Nat) : (t.ww wide r L x).cfd = t.cfd := by unfold Team.ww; split <;> rfl
@[simp] theorem Team.ww_jpc (t : Team) (wide : Bool) (r L x : Nat) : (t.ww wide r L x).jpc = t.jpc := by unfold Team.ww; split <;> rfl
@[simp] theorem Team.ww_rgpc (t : Team) (wide : Bool) (r L x : Nat) : (t.ww wide r L x).rgpc = t.rgpc := by unfold Team.ww; split <;> rfl
@[simp] theorem Team.ww_rgst (t : Team) (wide : Bool) (r L x : Nat) : (t.ww wide r L x).rgst = t.rgst := by unfold Team.ww; split <;> rfl
@[simp] theorem Team.ww_rgmask (t : Team) (wide : Bool) (r L x : Nat) : (t.ww wide r L x).rgmask = t.rgmask := by unfold Team.ww; split <;> rfl
@[simp] theorem Team.ww_tvec (t : Team) (wide : Bool) (r L x : Nat) : (t.ww wide r L x).tvec = t.tvec := by unfold Team.ww; split <;> rfl
@[simp] theorem Team.ww_frecb (t : Team) (wide : Bool) (r L x : Nat) : (t.ww wide r L x).frecb = t.frecb := by unfold Team.ww; split <;> rfl
@[simp] theorem Team.ww_tepc (t : Team) (wide : Bool) (r L x : Nat) : (t.ww wide r L x).tepc = t.tepc := by unfold Team.ww; split <;> rfl
@[simp] theorem Team.ww_tcause (t : Team) (wide : Bool) (r L x : Nat) : (t.ww wide r L x).tcause = t.tcause := by unfold Team.ww; split <;> rfl
@[simp] theorem Team.ww_frcnt (t : Team) (wide : Bool) (r L x : Nat) : (t.ww wide r L x).frcnt = t.frcnt := by unfold Team.ww; split <;> rfl
@[simp] theorem Team.ww_frlost (t : Team) (wide : Bool) (r L x : Nat) : (t.ww wide r L x).frlost = t.frlost := by unfold Team.ww; split <;> rfl
@[simp] theorem Team.ww_tsmode (t : Team) (wide : Bool) (r L x : Nat) : (t.ww wide r L x).tsmode = t.tsmode := by unfold Team.ww; split <;> rfl
@[simp] theorem Team.ww_tsjpc (t : Team) (wide : Bool) (r L x : Nat) : (t.ww wide r L x).tsjpc = t.tsjpc := by unfold Team.ww; split <;> rfl
@[simp] theorem Team.ww_tstat (t : Team) (wide : Bool) (r L x : Nat) : (t.ww wide r L x).tstat = t.tstat := by unfold Team.ww; split <;> rfl
@[simp] theorem Team.ww_tsmask (t : Team) (wide : Bool) (r L x : Nat) : (t.ww wide r L x).tsmask = t.tsmask := by unfold Team.ww; split <;> rfl
@[simp] theorem Team.ww_tsstack (t : Team) (wide : Bool) (r L x : Nat) : (t.ww wide r L x).tsstack = t.tsstack := by unfold Team.ww; split <;> rfl
@[simp] theorem Team.ww_tsspilled (t : Team) (wide : Bool) (r L x : Nat) : (t.ww wide r L x).tsspilled = t.tsspilled := by unfold Team.ww; split <;> rfl
@[simp] theorem Team.ww_tscfd (t : Team) (wide : Bool) (r L x : Nat) : (t.ww wide r L x).tscfd = t.tscfd := by unfold Team.ww; split <;> rfl
@[simp] theorem Team.ww_fstat (t : Team) (wide : Bool) (r L x : Nat) : (t.ww wide r L x).fstat = t.fstat := by unfold Team.ww; split <;> rfl
@[simp] theorem Team.ww_fpte (t : Team) (wide : Bool) (r L x : Nat) : (t.ww wide r L x).fpte = t.fpte := by unfold Team.ww; split <;> rfl
@[simp] theorem Team.ww_mwto (t : Team) (wide : Bool) (r L x : Nat) : (t.ww wide r L x).mwto = t.mwto := by unfold Team.ww; split <;> rfl
@[simp] theorem Team.ww_scarry (t : Team) (wide : Bool) (r L x : Nat) : (t.ww wide r L x).scarry = t.scarry := by unfold Team.ww; split <;> rfl
@[simp] theorem Team.ww_segctl (t : Team) (wide : Bool) (r L x : Nat) : (t.ww wide r L x).segctl = t.segctl := by unfold Team.ww; split <;> rfl
@[simp] theorem Team.ww_tstk (t : Team) (wide : Bool) (r L x : Nat) : (t.ww wide r L x).tstk = t.tstk := by unfold Team.ww; split <;> rfl
@[simp] theorem Team.ww_hmsel (t : Team) (wide : Bool) (r L x : Nat) : (t.ww wide r L x).hmsel = t.hmsel := by unfold Team.ww; split <;> rfl
@[simp] theorem Team.ww_dbgctl (t : Team) (wide : Bool) (r L x : Nat) : (t.ww wide r L x).dbgctl = t.dbgctl := by unfold Team.ww; split <;> rfl
@[simp] theorem Team.ww_dbgst (t : Team) (wide : Bool) (r L x : Nat) : (t.ww wide r L x).dbgst = t.dbgst := by unfold Team.ww; split <;> rfl
@[simp] theorem Team.ww_ten (t : Team) (wide : Bool) (r L x : Nat) : (t.ww wide r L x).ten = t.ten := by unfold Team.ww; split <;> rfl
@[simp] theorem Team.ww_mill (t : Team) (wide : Bool) (r L x : Nat) : (t.ww wide r L x).mill = t.mill := by unfold Team.ww; split <;> rfl
@[simp] theorem Team.ww_millBusy (t : Team) (wide : Bool) (r L x : Nat) : (t.ww wide r L x).millBusy = t.millBusy := by unfold Team.ww; split <;> rfl
@[simp] theorem Team.ww_age (t : Team) (wide : Bool) (r L x : Nat) : (t.ww wide r L x).age = t.age := by unfold Team.ww; split <;> rfl
@[simp] theorem Team.ww_hold (t : Team) (wide : Bool) (r L x : Nat) : (t.ww wide r L x).hold = t.hold := by unfold Team.ww; split <;> rfl
@[simp] theorem Team.ww_trapping (t : Team) (wide : Bool) (r L x : Nat) : (t.ww wide r L x).trapping = t.trapping := by unfold Team.ww; split <;> rfl
@[simp] theorem Team.ww_release (t : Team) (wide : Bool) (r L x : Nat) : (t.ww wide r L x).release = t.release := by unfold Team.ww; split <;> rfl
@[simp] theorem Team.ww_acquiring (t : Team) (wide : Bool) (r L x : Nat) : (t.ww wide r L x).acquiring = t.acquiring := by unfold Team.ww; split <;> rfl
@[simp] theorem Team.ww_count (t : Team) (wide : Bool) (r L x : Nat) : (t.ww wide r L x).count = t.count := by unfold Team.ww; split <;> rfl
@[simp] theorem Team.ww_credit (t : Team) (wide : Bool) (r L x : Nat) : (t.ww wide r L x).credit = t.credit := by unfold Team.ww; split <;> rfl
@[simp] theorem Team.ww_stepLane (t : Team) (wide : Bool) (r L x : Nat) : (t.ww wide r L x).stepLane = t.stepLane := by unfold Team.ww; split <;> rfl
@[simp] theorem Team.ww_stepping (t : Team) (wide : Bool) (r L x : Nat) : (t.ww wide r L x).stepping = t.stepping := by unfold Team.ww; split <;> rfl
@[simp] theorem Team.ww_stepAsked (t : Team) (wide : Bool) (r L x : Nat) : (t.ww wide r L x).stepAsked = t.stepAsked := by unfold Team.ww; split <;> rfl

/-! ### Registers -/

/-- A scalar register after a write: s0 stays zero. -/
theorem Team.rs_ws (t : Team) (n m : Nat) (x : DWord) : (t.ws n x).rs m = if m = 0 then 0 else if m = n then x else t.rs m := by
  unfold Team.rs Team.ws
  by_cases hm : m = 0
  · simp [hm]
  · by_cases hn : n = 0
    · subst hn; simp [hm]
    · simp [hm, hn]

theorem Team.rp_wp (t : Team) (n m : Nat) (x : LaneMask) :
    (t.wp n x).rp m = if m = 0 then BitVec.allOnes 1024 else if m = n then x else t.rp m := by
  unfold Team.rp Team.wp
  by_cases hm : m = 0
  · simp [hm]
  · by_cases hn : n = 0
    · subst hn; simp [hm]
    · simp [hm, hn]

/-- A vector register's lane after the write of one lane. -/
theorem Team.rv_wv (t : Team) (r L r' L' : Nat) (w : Word) (hL : L < 1024) (hL' : L' < 1024) :
    (t.wv r L w).rv r' L' = if r' = r ∧ L' = L then w else t.rv r' L' := by
  unfold Team.rv Team.wv
  simp only [look_putAt]
  have : (1024 * r' + L' = 1024 * r + L) ↔ (r' = r ∧ L' = L) := by omega
  simp [this]

theorem teamOf_setTeam (s : State) (k k' : Nat) (t : Team) : teamOf (setTeam s k t) k' = if k' = k then t else teamOf s k' := by
  simp [teamOf]
theorem crewOf_setCrew (s : State) (k k' : Nat) (c : Crew) : crewOf (setCrew s k c) k' = if k' = k then c else crewOf s k' := by
  simp [crewOf]
theorem bandOf_setBand (s : State) (k k' : Nat) (b : Band) : bandOf (setBand s k b) k' = if k' = k then b else bandOf s k' := by
  simp [bandOf]
theorem coreOf_setCore (s : State) (k k' : Nat) (c : Core) : coreOf (setCore s k c) k' = if k' = k then c else coreOf s k' := by
  simp [coreOf]
@[simp] theorem crewOf_setTeam (s : State) (k k' : Nat) (t : Team) : crewOf (setTeam s k t) k' = crewOf s k' := rfl
@[simp] theorem bandOf_setTeam (s : State) (k k' : Nat) (t : Team) : bandOf (setTeam s k t) k' = bandOf s k' := rfl
@[simp] theorem coreOf_setTeam (s : State) (k k' : Nat) (t : Team) : coreOf (setTeam s k t) k' = coreOf s k' := rfl

end Sys2Proof.Machine
end

