-- ==== Sys2Proof/Laws/Frames.lean ====
section
/-! SUPPORT. What memory leaves alone: no access to a cache, a home or the memory behind it changes a team, a band, a launch or whose turn
it is. -/

namespace Sys2Proof.Machine

/-- The teams, the bands, the launches and the turn are as they were. -/
abbrev Calm (s s' : State) : Prop := s'.teams = s.teams ∧ s'.bands = s.bands ∧ s'.cur = s.cur ∧ s'.launches = s.launches

theorem Calm.trans {a b c : State} (h : Calm a b) (g : Calm b c) : Calm a c :=
  ⟨g.1.trans h.1, g.2.1.trans h.2.1, g.2.2.1.trans h.2.2.1, g.2.2.2.trans h.2.2.2⟩

theorem foldl_calm {α : Type} {f : State → α → State} (h : ∀ s a, Calm s (f s a)) (l : List α) (s : State) : Calm s (l.foldl f s) := by
  induction l generalizing s with
  | nil => simp [Calm]
  | cons a l ih => exact (h s a).trans (ih _)

theorem foldl_calm₂ {α β : Type} {f : State × β → α → State × β} (h : ∀ r a, Calm r.1 (f r a).1) (l : List α) (r : State × β) :
    Calm r.1 (l.foldl f r).1 := by
  induction l generalizing r with
  | nil => simp [Calm]
  | cons a l ih => exact (h r a).trans (ih _)

/-! ### Memory -/

@[simp] theorem count_calm (s : State) (u c : Nat) : Calm s (count s u c) := by simp [Calm, count]
@[simp] theorem setDram_calm (s : State) (k : Nat) (d : Stack) : Calm s (setDram s k d) := by simp [Calm, setDram]
@[simp] theorem countPc_calm (s : State) (pa c : Nat) : Calm s (countPc s pa c) := by simp [Calm, countPc]
@[simp] theorem countSlice_calm (c : Nat) (s : State) (pa : Nat) : Calm s (countSlice c s pa) := by simp [Calm, countSlice]
@[simp] theorem consume_calm (s : State) (pa : Nat) (d : Datum) : Calm s (consume s pa d) := by
  unfold consume; split <;> simp [Calm]
@[simp] theorem setTenant_calm (s : State) (t : Nat) (x : Tenant) : Calm s (setTenant s t x) := by simp [Calm, setTenant]
@[simp] theorem raiseVector_calm (s : State) (t v : Nat) : Calm s (raiseVector s t v) := by simp [Calm, raiseVector]
@[simp] theorem logRas_calm (s : State) (r : Ras) : Calm s (logRas s r) := by
  unfold logRas; dsimp only; split <;> simp [Calm]
@[simp] theorem senseStored_calm (s : State) (pa n : Nat) : Calm s (senseStored s pa n).1 := by
  unfold senseStored; repeat' split
  all_goals simp [Calm]
@[simp] theorem flushDelta_calm (s : State) (b : Nat) : Calm s (flushDelta s b) := by simp [Calm, flushDelta]
@[simp] theorem addDelta_calm (s : State) (pa : Nat) (o n : Word) : Calm s (addDelta s pa o n) := by
  unfold addDelta; dsimp only; repeat' split
  all_goals simp [Calm]
@[simp] theorem blockProcedure_calm (s : State) (b : Nat) : Calm s (blockProcedure s b).1 := by
  unfold blockProcedure; dsimp only; split
  · exact ((by simp [Calm] : Calm s (countPc (flushDelta s b) (b * 512) 1)).trans (foldl_calm (fun s a => countSlice_calm 1 s a) _ _)).trans
      (foldl_calm (fun s a => by simp [Calm, stored]) _ _)
  · refine Calm.trans (b := logRas (countPc (flushDelta s b) (b * 512) 2) _) (by simp [Calm]) (foldl_calm (fun s a => by simp [Calm]) _ _)
@[simp] theorem fetchStored_calm (s : State) (pa : Nat) : Calm s (fetchStored s pa).1 := by
  have h := senseStored_calm s pa 0
  unfold fetchStored; split
  · simp [Calm]
  · split <;> rename_i e <;> rw [e] at h <;> first | exact h | exact h.trans (by simp [Calm])
@[simp] theorem writeOver_calm (s : State) (pa : Nat) (o w : Word) (p x : Bool) : Calm s (writeOver s pa o w p x) := by
  unfold writeOver; dsimp only; repeat' split
  all_goals simp [Calm]
@[simp] theorem writeStored_calm (s : State) (pa : Nat) (w : Word) (p x : Bool) : Calm s (writeStored s pa w p x) := by
  unfold writeStored; dsimp only; split <;> simp [Calm]
@[simp] theorem readPlain_calm (s : State) (pa key : Nat) (n : Nat → Nat) : Calm s (readPlain s pa key n).1 := by
  have h := foldl_calm₂ (f := fun (a : State × List Sensed) i => ((senseStored a.1 (pa / 16 * 16 + 4 * i) (n (pa / 16 * 16 + 4 * i))).1,
    a.2 ++ [(senseStored a.1 (pa / 16 * 16 + 4 * i) (n (pa / 16 * 16 + 4 * i))).2])) (fun r a => by simp [Calm]) (List.range 4) (s, [])
  unfold readPlain; dsimp only; repeat' split
  all_goals first | exact h | simp [Calm]
@[simp] theorem writeGranule_calm (s : State) (t : Tenant) (g : Nat) (ws : List (Nat × Word × Bool)) (known : Nat → Bool) :
    Calm s (writeGranule s t g ws known) := by
  unfold writeGranule
  extract_lets whole
  split
  rename_i s1 old e
  have h : Calm s s1 := by
    have e' : _ = s1 := congrArg Prod.fst e
    rw [← e']
    refine foldl_calm₂ ?_ _ (s, [])
    intro r a
    dsimp only
    split
    · simp [Calm]
    · exact fetchStored_calm r.1 _
  refine h.trans (foldl_calm ?_ _ _)
  exact fun s a => writeOver_calm s _ _ _ _ _
@[simp] theorem writePlains_calm (s : State) (key : Nat) (ws : List (Nat × Word × Bool)) (known : Nat → Bool) :
    Calm s (writePlains s key ws known) := by
  unfold writePlains; dsimp only; split <;> exact foldl_calm (fun s a => by simp [Calm]) _ _
@[simp] theorem writePlain_calm (s : State) (pa : Nat) (w : Word) (p : Bool) (key : Nat) (x : Bool) : Calm s (writePlain s pa w p key x) := by
  simp [writePlain, Calm]

/-! ### Caches and homes -/

@[simp] theorem setL1_calm (s : State) (c : Nat) (m : NMap Blk) : Calm s (setL1 s c m) := by simp [Calm, setL1]
@[simp] theorem setL2_calm (s : State) (d : Nat) (m : NMap Blk) : Calm s (setL2 s d m) := by simp [Calm, setL2]
@[simp] theorem setMsc_calm (s : State) (k : Nat) (m : NMap Blk) : Calm s (setMsc s k m) := by simp [Calm, setMsc]
@[simp] theorem leaving_calm (s : State) (b : Blk) (pa u : Nat) : Calm s (leaving s b pa u).1 := by
  unfold leaving; dsimp only; repeat' split
  all_goals simp [Calm]
theorem mend_calm (s : State) (u pa : Nat) (get : State → NMap Blk) (put : State → NMap Blk → State) (on : State → Blk → State)
    (hp : ∀ s c, Calm s (put s c)) (ho : ∀ s b, Calm s (on s b)) : Calm s (mend s u pa get put on) := by
  unfold mend; dsimp only; repeat' split
  all_goals simp [Calm, hp, ho]
@[simp] theorem holdBlock_calm (s : State) (w : HeldWrite) : Calm s (holdBlock s w) := by simp [Calm, holdBlock]
@[simp] theorem dropL2_calm (s : State) (pa : Nat) : Calm s (dropL2 s pa) := by
  refine foldl_calm (fun s d => ?_) _ _
  repeat' split
  all_goals simp [Calm]
@[simp] theorem leavingHome_calm (s : State) (b : Blk) (pa : Nat) : Calm s (leavingHome s b pa).1 := by
  unfold leavingHome; split <;> simp [Calm]
@[simp] theorem mendHome_calm (s : State) (pa : Nat) : Calm s (mendHome s pa) := by
  refine mend_calm _ _ _ _ _ _ (fun s c => by simp [Calm]) fun s b => ?_
  dsimp only; split <;> simp [Calm]
@[simp] theorem mscEvict_calm (s : State) (v : Nat × Blk) : Calm s (mscEvict s v) := by
  unfold mscEvict
  split
  rename_i s1 ws e
  have h : Calm s s1 := by
    have e' : _ = s1 := congrArg Prod.fst e
    rw [← e']
    refine foldl_calm₂ ?_ _ (s, [])
    exact fun r a => leavingHome_calm r.1 _ _
  exact (h.trans (foldl_calm (fun s a => holdBlock_calm s _) _ _)).trans (writePlains_calm _ _ _ _)
@[simp] theorem countMiss_calm (s : State) (pa t : Nat) : Calm s (countMiss s pa t) := by
  unfold countMiss; dsimp only; repeat' split
  all_goals simp [Calm]
@[simp] theorem insertPrio_calm (s : State) (pa t : Nat) : Calm s (insertPrio s pa t).1 := by
  unfold insertPrio; dsimp only; split <;> simp [Calm]
@[simp] theorem mscEnsure_calm (s : State) (pa key hint t : Nat) : Calm s (mscEnsure s pa key hint t) := by
  have h : Calm s (if hint = 0 then insertPrio s pa t else (s, 0)).1 := by split <;> simp [Calm]
  unfold mscEnsure; dsimp only; repeat' split
  all_goals simp [Calm]
@[simp] theorem mscPut_calm (s : State) (pa : Nat) (w : Word) (p d : Bool) (key hint t l : Nat) : Calm s (mscPut s pa w p d key hint t l) := by
  unfold mscPut; dsimp only; split <;> simp [Calm]
@[simp] theorem homePut_calm (s : State) (pa : Nat) (w : Word) (p : Bool) (l key hint : Nat) : Calm s (homePut s pa w p l key hint) := by
  unfold homePut; dsimp only; repeat' split
  all_goals simp [Calm]
@[simp] theorem askLine_calm (s : State) (pa : Nat) (w : Bool) : Calm s (askLine s pa w) := by
  unfold askLine; repeat' split
  all_goals simp [Calm]
@[simp] theorem holdWrite_calm (s : State) (w : HeldWrite) : Calm s (holdWrite s w) := by
  unfold holdWrite; dsimp only; repeat' split
  all_goals simp [Calm]
@[simp] theorem homePerform_calm (s : State) (pa : Nat) (w : Word) (p : Bool) (l key hint wr : Nat) :
    Calm s (homePerform s pa w p l key hint wr) := by unfold homePerform; split <;> simp [Calm]
theorem purgeBy_calm {f : State → HeldWrite → State} (hf : ∀ s w, Calm s (f s w)) (s : State) (pa wr : Nat) : Calm s (purgeBy f s pa wr) := by
  refine foldl_calm (fun s d => ?_) _ _
  dsimp only; repeat' split
  all_goals simp [Calm, hf]
@[simp] theorem purgeL2_calm (s : State) (pa wr : Nat) : Calm s (purgeL2 s pa wr) := purgeBy_calm (fun s w => by simp [Calm]) _ _ _
@[simp] theorem purgeNow_calm (s : State) (pa : Nat) : Calm s (purgeNow s pa) := purgeBy_calm (fun s w => by simp [Calm]) _ _ _
@[simp] theorem homeWrite_calm (s : State) (pa : Nat) (w : Word) (p : Bool) (l key hint wr : Nat) :
    Calm s (homeWrite s pa w p l key hint wr) := by simp [Calm, homeWrite]
@[simp] theorem mendL2_calm (s : State) (d pa : Nat) : Calm s (mendL2 s d pa) :=
  mend_calm _ _ _ _ _ _ (fun s c => by simp [Calm]) fun s b => by simp [Calm]
@[simp] theorem blockAtHome_calm (s : State) (b : Nat) : Calm s (blockAtHome s b).1 := by
  refine Calm.trans (b := (blockProcedure s b).1) (by simp [Calm]) (foldl_calm (fun s a => by simp [Calm]) _ _)
@[simp] theorem readBehind_calm (s : State) (pa key : Nat) : Calm s (readBehind s pa key).1 := by
  have h := readPlain_calm s pa key fun _ => 0
  unfold readBehind; split
  · rename_i e; rw [e] at h; exact h
  · rename_i e; rw [e] at h; exact h
  · rename_i s1 e; rw [e] at h
    have g := blockAtHome_calm s1 (blockOf pa)
    dsimp only; split
    · exact h.trans g
    · have f := readPlain_calm (blockAtHome s1 (blockOf pa)).1 pa key fun _ => 0
      split <;> rename_i e' <;> rw [e'] at f <;> exact (h.trans g).trans f
@[simp] theorem storedVia_calm (s : State) (pa : Nat) : Calm s (storedVia s pa).1 := by
  have h := readBehind_calm (mendHome s pa) (pa / 4 * 4) 0
  unfold storedVia; dsimp only; split
  · simp [Calm]
  · split <;> rename_i e <;> simp_all [Calm]
@[simp] theorem viewElem_calm (s : State) (w : Window) (i : Nat) : Calm s (viewElem s w i).1 := by
  unfold viewElem; dsimp only; repeat' split
  all_goals simp [Calm]
@[simp] theorem viewWord_calm (s : State) (pa : Nat) : Calm s (viewWord s pa).1 := by
  unfold viewWord; split
  · simp [Calm]
  · exact foldl_calm₂ (fun r a => by simp [Calm]) _ _
@[simp] theorem homeReadFor_calm (s : State) (pa key hint t m : Nat) : Calm s (homeReadFor s pa key hint t m).1 := by
  have h := readBehind_calm (countMiss (mendHome s pa) pa m) pa key
  unfold homeReadFor; dsimp only; repeat' split
  all_goals simp_all [Calm]
@[simp] theorem homeRead_calm (s : State) (pa key hint t : Nat) : Calm s (homeRead s pa key hint t).1 := homeReadFor_calm s pa key hint t t
@[simp] theorem askHost_calm (s : State) (pa : Nat) (w : Bool) : Calm s (askHost s pa w) := foldl_calm (fun s a => by simp [Calm]) _ _
@[simp] theorem deviceRead_calm (s : State) (pa key hint t : Nat) : Calm s (deviceRead s pa key hint t).1 := by
  unfold deviceRead; split <;> simp [Calm]
@[simp] theorem l2Evict_calm (s : State) (d : Nat) (v : Nat × Blk) : Calm s (l2Evict s d v) := foldl_calm (fun s a => by simp [Calm]) _ _
@[simp] theorem l2Ensure_calm (s : State) (d pa key hint : Nat) : Calm s (l2Ensure s d pa key hint) := by
  unfold l2Ensure; dsimp only; repeat' split
  all_goals simp [Calm]
@[simp] theorem l2Put_calm (s : State) (d pa : Nat) (w : Word) (p dt : Bool) (key hint l : Nat) : Calm s (l2Put s d pa w p dt key hint l) := by
  unfold l2Put; dsimp only; split <;> simp [Calm]
@[simp] theorem l2Write_calm (s : State) (d pa : Nat) (w : Word) (p : Bool) (key hint l : Nat) : Calm s (l2Write s d pa w p key hint l) := by
  simp [Calm, l2Write]
@[simp] theorem l2Fill_calm (s : State) (d pa : Nat) (w : Word) (key hint : Nat) : Calm s (l2Fill s d pa w key hint) := by
  unfold l2Fill; split <;> simp [Calm]
@[simp] theorem l1Clean_calm (s : State) (c pa : Nat) : Calm s (l1Clean s c pa) := by unfold l1Clean; split <;> simp [Calm]
@[simp] theorem performPub_calm (s : State) (p : Pub) : Calm s (performPub s p) := by
  unfold performPub; dsimp only; repeat' split
  all_goals simp [Calm]
@[simp] theorem performPubs_calm (s : State) (c pa : Nat) : Calm s (performPubs s c pa) := foldl_calm (fun s a => by simp [Calm]) _ _
@[simp] theorem l1Evict_calm (s : State) (c : Nat) (v : Nat × Blk) : Calm s (l1Evict s c v) := by
  refine foldl_calm (fun s a => ?_) _ _
  dsimp only; split <;> simp [Calm]
@[simp] theorem mendL1_calm (s : State) (c pa : Nat) : Calm s (mendL1 s c pa) := by
  refine mend_calm _ _ _ _ _ _ (fun s c => by simp [Calm]) fun s b => ?_
  dsimp only; split <;> simp [Calm]
@[simp] theorem l1Ensure_calm (s : State) (c pa key hint : Nat) : Calm s (l1Ensure s c pa key hint) := by
  unfold l1Ensure; dsimp only; repeat' split
  all_goals simp [Calm]
@[simp] theorem killMisses_calm (s : State) (c pa : Nat) : Calm s (killMisses s c pa) := by simp [Calm, killMisses]
@[simp] theorem outdate_calm (s : State) (c pa : Nat) : Calm s (outdate s c pa) := by
  unfold outdate; dsimp only; split <;> simp [Calm]
@[simp] theorem storedOver_calm (s : State) (c pa : Nat) (w : Word) : Calm s (storedOver s c pa w) := by simp [Calm, storedOver]
@[simp] theorem l1Write_calm (s : State) (c pa : Nat) (w : Word) (cp : Bool) (key hint l : Nat) : Calm s (l1Write s c pa w cp key hint l) := by
  unfold l1Write; dsimp only; split <;> simp [Calm]
@[simp] theorem l1Fill_calm (s : State) (c pa : Nat) (w : Word) (p : Bool) (key hint : Nat) : Calm s (l1Fill s c pa w p key hint) := by
  unfold l1Fill; dsimp only; repeat' split
  all_goals simp [Calm]
@[simp] theorem invalidateClean_calm (s : State) (c : Nat) : Calm s (invalidateClean s c) := by simp [Calm, invalidateClean]
@[simp] theorem l2Read_calm (s : State) (d pa key hint t : Nat) : Calm s (l2Read s d pa key hint t).1 := by
  have h := deviceRead_calm (mendL2 s d pa) pa key hint t
  unfold l2Read; dsimp only; split
  · simp [Calm]
  · split <;> simp_all [Calm]
@[simp] theorem coreRead_calm (s : State) (c pa key hint t : Nat) : Calm s (coreRead s c pa key hint t).1 := by
  have h := l2Read_calm (mendL1 s c pa) (c / 144) pa key hint t
  unfold coreRead; dsimp only; split
  · simp [Calm]
  · split <;> simp_all [Calm]

/-! ### Places -/

@[simp] theorem lostOnDie_calm (s : State) (u c p b : Nat) : Calm s (lostOnDie s u c p b) := by
  unfold lostOnDie requestReplacement; dsimp only; split <;> simp [Calm]
@[simp] theorem tendCrew_calm (s : State) (c : Nat) (get : Crew → Ecc) (put : Crew → Ecc → Crew) (hit : Nat → Bool) :
    Calm s (tendCrew s c get put hit) := by
  unfold tendCrew; dsimp only; split
  · simp [Calm]
  · exact ((foldl_calm (fun s _ => count_calm s _ _) _ _).trans (foldl_calm (fun s _ => lostOnDie_calm s _ _ _ _) _ _)).trans
      ⟨rfl, rfl, rfl, rfl⟩
@[simp] theorem tendPad_calm (s : State) (c o : Nat) : Calm s (tendPad s c o) := by simp [Calm, tendPad]
@[simp] theorem writePad_calm (s : State) (c o : Nat) (w : Word) : Calm s (writePad s c o w) := by simp [Calm, writePad, setCrew]
@[simp] theorem readPlace_calm (s : State) (c t hint : Nat) (p : Place) : Calm s (readPlace s c t hint p).1 := by
  cases p <;> simp [Calm, readPlace]
@[simp] theorem storePlace_calm (s : State) (c l hint : Nat) (p : Place) (w : Word) : Calm s (storePlace s c l hint p w) := by
  cases p <;> simp [Calm, storePlace]
@[simp] theorem pointRead_calm (s : State) (p : Point) (c pa key hint t : Nat) : Calm s (pointRead s p c pa key hint t).1 := by
  cases p <;> simp [Calm, pointRead]
  split <;> simp
@[simp] theorem pointWrite_calm (s : State) (p : Point) (c pa : Nat) (w : Word) (cp : Bool) (key hint l : Nat) :
    Calm s (pointWrite s p c pa w cp key hint l) := by cases p <;> simp [Calm, pointWrite]
@[simp] theorem noteMiss_calm (s : State) (c t va : Nat) : Calm s (noteMiss s c t va) := by
  unfold noteMiss; dsimp only; repeat' split
  all_goals simp [Calm]
@[simp] theorem noteMisses_calm (s : State) (k : Nat) (t : Team) (vas : List DWord) : Calm s (noteMisses s k t vas) :=
  foldl_calm (fun s a => by simp [Calm]) _ _
@[simp] theorem askPlaces_calm (s : State) (ps : List Place) : Calm s (askPlaces s ps) := by
  refine foldl_calm (fun s p => ?_) _ _
  cases p <;> simp [Calm]
@[simp] theorem readPlaces_calm (s : State) (k : Nat) (t : Team) (ps : List Place) : Calm s (readPlaces s k t ps).1 :=
  foldl_calm₂ (fun r a => by simp [Calm]) _ _
@[simp] theorem writeWords_calm (s : State) (c l hint : Nat) (ws : List (Place × Word)) : Calm s (writeWords s c l hint ws) :=
  foldl_calm (fun s a => by simp [Calm]) _ _
@[simp] theorem writePlaces_calm (s : State) (k : Nat) (t : Team) (ps : List Place) (ws : List Word) : Calm s (writePlaces s k t ps ws) := by
  simp [Calm, writePlaces]

/-! ### Ranges -/

/-- With no watchpoint set nothing matches. -/
theorem watched_none {b : Band} (h : b.bp = []) (t : Team) (rd wr : Bool) (w : Nat) (va : DWord) : watched b t rd wr w va = false := by
  simp [watched, h]

theorem unlessWatched_none {s : State} {k : Nat} (h : Unwatched s k) (rd wr : Bool) (n : Nat) (va : DWord) (body : State) :
    unlessWatched s k rd wr n va body = body := by simp [unlessWatched, watched_none h]

/-- A granted range is accessed at its places. -/
theorem imageAccess_granted {s s0 : State} {k : Nat} {t : Team} {align n : Nat} {va : DWord} {a : Acc} {ps : List Place}
    (h : Granted s k t align n va a s0 ps) (body : State → List Place → State) : imageAccess s k t align n va a body = body s0 ps := by
  have hb : Unwatched s0 k := by
    have := h.unwatched
    rw [h.missed]
    simpa [Unwatched, bandOf] using this
  unfold imageAccess
  simp only [h.free, ← h.missed, h.checked, h.places, spillThen, h.ordered, unlessWatched_none hb]
  simp

/-- A range whose check fails traps there, with its cause and its address. -/
theorem imageAccess_fault {s : State} {k : Nat} {t : Team} {align n c : Nat} {va : DWord} {a : Acc} (hf : t.acquiring = false)
    (h : imageFault (noteMisses s k t (pageStarts va n)) t.core (bandKey k) align n va a = some (.fault c))
    (body : State → List Place → State) : imageAccess s k t align n va a body =
      refuse (noteMisses s k t (pageStarts va n)) k c [{ cause := c, addr := va, flags := if a == .write then 1 else 0 }] := by
  simp [imageAccess, hf, h]

theorem withSettled_settled {s s1 : State} {k : Nat} {t t1 : Team} (h : Settled s k t s1 t1) (body : State → Team → State) :
    withSettled s k t body = body s1 t1 := by
  unfold Settled at h
  unfold withSettled
  split at h
  · rename_i e; simp [e, h.1, h.2]
  · rename_i m e
    obtain ⟨ha, hw, rfl, rfl⟩ := h
    simp only [e, ha]
    rcases hr : millSettled s k t m with ⟨s', m', _ | x⟩
    · simp
    · cases x <;> simp_all

/-- Reading words of a scratchpad with no poisoned word and no error changes nothing and gives what it holds. -/
theorem readPlaces_pad (s : State) (k c : Nat) (t : Team) (hp : (crewOf s c).padPoison = []) (he : (crewOf s c).padEcc = {}) (os : List Nat) :
    readPlaces s k t (os.map fun o => .pad c o) = (s, os.map fun o => .ok (look 0 (crewOf s c).pad (o / 4))) := by
  have hr : ∀ (n o : Nat), readPlace s t.core n 0 (.pad c o) = (s, .ok (look 0 (crewOf s c).pad (o / 4))) := fun n o => by
    simp [readPlace, tendPad, tendCrew, padDatum, he, hp, Ecc.good]
  suffices ∀ (os : List Nat) (ds : List Datum), (os.map fun o => Place.pad c o).foldl (fun (r : State × List Datum) p =>
      ((readPlace r.1 t.core (bandOf s (bandKey k)).tenant 0 p).1, r.2 ++ [(readPlace r.1 t.core (bandOf s (bandKey k)).tenant 0 p).2])) (s, ds) =
        (s, ds ++ os.map fun o => .ok (look 0 (crewOf s c).pad (o / 4))) by
    simpa [readPlaces] using this os []
  intro os
  induction os with
  | nil => simp
  | cons o os ih => intro ds; simp only [List.map_cons, List.foldl_cons, hr]; rw [ih]; simp

/-! ### What leaves a queue, and what is asked of the host -/

/-- A team that leaves the queue for the tables changes its core and nothing else. -/
theorem leaveTables_eq (s : State) (core k : Nat) : ∃ cs, leaveTables s core k = { s with cores := cs } ∧
    ∀ c, c ≠ core → look {} cs c = look {} s.cores c := by
  unfold leaveTables; dsimp only; split
  · exact ⟨_, rfl, fun c h => by simp [h]⟩
  · exact ⟨s.cores, rfl, fun _ _ => rfl⟩
@[simp] theorem leaveTables_calm (s : State) (core k : Nat) : Calm s (leaveTables s core k) := by
  obtain ⟨cs, h, -⟩ := leaveTables_eq s core k; simp [h, Calm]
/-- Taking lines back asks for each that has not been asked for, and changes nothing else. -/
theorem recallLines_eq (ls : List Nat) (s : State) : ∃ as, recallLines s ls = { s with asks := s.asks ++ as } ∧
    (∀ a ∈ as, a.line ∈ ls) ∧ ∀ l ∈ ls, asked (recallLines s ls) (l * 64) = true := by
  induction ls generalizing s with
  | nil => exact ⟨[], by simp [recallLines], by simp, by simp⟩
  | cons l ls ih =>
    have hm : ∀ (s : State) pa, asked s pa = true → asked (recallLines s ls) pa = true := by
      intro s pa h
      obtain ⟨as, e, -, -⟩ := ih s
      rw [e]; simp only [asked, List.any_append, Bool.or_eq_true] at h ⊢; exact .inl h
    show ∃ as, recallLines (if asked s (l * 64) then s else _) ls = _ ∧ _ ∧ ∀ x ∈ l :: ls, asked (recallLines (if asked s (l * 64) then s else _) ls) _ = true
    split
    · rename_i h
      obtain ⟨as, e, h1, h2⟩ := ih s
      exact ⟨as, e, fun a ha => List.mem_cons_of_mem _ (h1 a ha), fun x hx => by
        rcases List.mem_cons.1 hx with rfl | hx
        · exact hm _ _ h
        · exact h2 x hx⟩
    · obtain ⟨as, e, h1, h2⟩ := ih { s with asks := s.asks ++ [hostAsk l (.backInvalidate true)] }
      refine ⟨hostAsk l (.backInvalidate true) :: as, by rw [e]; simp, ?_, ?_⟩
      · intro a ha
        rcases List.mem_cons.1 ha with rfl | ha
        · simp [hostAsk]
        · exact List.mem_cons_of_mem _ (h1 a ha)
      · intro x hx
        rcases List.mem_cons.1 hx with rfl | hx
        · exact hm _ _ (by simp [asked, hostAsk])
        · exact h2 x hx

@[simp] theorem waitHere_calm (s : State) : Calm s (waitHere s) := by simp [Calm, waitHere]

end Sys2Proof.Machine
end

