-- ==== Sys2Proof/Laws/Operands.lean ====
section
/-! SUPPORT. What the shared operations over registers do: the turn of a team, the registers' say on an instruction, the
checkers, the flags and the writes of lanes. -/

namespace Sys2Proof.Machine

/-- A meaning runs on the team whose turn it is. -/
theorem withTeam_runs {s : State} {k : Nat} {t : Team} (h : Runs s k t) (f : Nat → Team → State) :
    withTeam s f = .next (f k t) := by
  simp [withTeam, h.1, h.2]

/-- A meaning of a team answers a next state whenever a team has the turn. -/
theorem withTeam_next {s : State} {k : Nat} {t : Team} (h : Runs s k t) (f : Nat → Team → State) :
    ∃ s', withTeam s f = .next s' := ⟨_, withTeam_runs h f⟩

@[simp] theorem upsetRecs_nil (t : Team) (hit : Nat → Bool) (r : Nat) : upsetRecs t [] hit r = [] := by
  simp [upsetRecs]

theorem find?_lookup_none {α β : Type} (l : List α) (g : α → Nat) (m : NMap β) (h : ∀ r ∈ l, m.lookup (g r) = none) :
    (l.findSome? fun r => m.lookup (g r)) = none := by
  rw [List.findSome?_eq_none_iff]; exact h

/-- Good sources hold nothing back. -/
theorem sourceFault_none {s : State} {t : Team} {u : Use} (q : Quiet s t) (hv : FullV t (u.srcV.map fun r => r.1))
    (hs : FullS t (u.srcS.map fun r => r.1)) : sourceFault t u = none := by
  obtain ⟨-, qv, qs, qp, -⟩ := q
  have h1 : (u.srcV.findSome? fun r => t.vFault.lookup r.1) = none := by
    rw [List.findSome?_eq_none_iff]
    intro r hr
    exact (hv r.1 (List.mem_map_of_mem hr)).2
  have h2 : (u.srcS.findSome? fun r => if r.1 = 0 then none else t.sFault.lookup r.1) = none := by
    rw [List.findSome?_eq_none_iff]
    intro r hr
    split
    · rfl
    · exact (hs r.1 (List.mem_map_of_mem hr)).2
  have h3 : (u.srcV.find? fun r => !(upsetRecs t t.upsetV (u.readsRow t r.1) r.1).isEmpty) = none := by simp [qv]
  have h4 : (u.srcS.find? fun r => r.1 ≠ 0 && t.upsetS.contains r.1) = none := by simp [qs]
  have h5 : (u.preds.find? fun p => !(upsetRecs t t.upsetP t.rowActive p).isEmpty) = none := by simp [qp]
  simp only [sourceFault, h1, h2, h3, h4, h5]

/-- Good destinations hold nothing back. -/
theorem destFault_none {s : State} {t : Team} {u : Use} (q : Quiet s t) (hd : FullV t u.dstV) : destFault t u = none := by
  obtain ⟨-, qv, -, qp, -⟩ := q
  have h1 : (u.dstV.findSome? fun r => (t.vFault.lookup r).bind fun f => if u.whole t f then none else some f) = none := by
    rw [List.findSome?_eq_none_iff]
    intro r hr
    simp [(hd r hr).2]
  have h3 : (u.dstV.find? fun r => !(upsetRecs t t.upsetV (merges u.lanes) r).isEmpty) = none := by simp [qv]
  have h4 : (u.dstP.find? fun p => !(upsetRecs t t.upsetP (merges u.lanes) p).isEmpty) = none := by simp [qp]
  unfold destFault
  split
  · rfl
  · simp only [h1, h3, h4]

/-- A write to good registers leaves the team as it is. -/
theorem clean_good {s : State} {t : Team} {u : Use} (q : Quiet s t) (hd : FullV t u.dstV) (hs : FullS t u.dstS) : u.clean t = t := by
  obtain ⟨-, qv, qs, qp, sv, ss, sp⟩ := q
  have h1 : (if u.lanes == 0 then [] else u.dstV.filter fun r => (t.vFault.lookup r).isSome) = [] := by
    split
    · rfl
    · rw [List.filter_eq_nil_iff]
      intro r hr
      simp [(hd r hr).2]
  have h2 : (u.dstS.filter fun r => (t.sFault.lookup r).isSome) = [] := by
    rw [List.filter_eq_nil_iff]
    intro r hr
    simp [(hs r hr).2]
  simp only [Use.clean, h1, List.isEmpty_nil, if_true, h2, qs, qv, qp, Use.fix, sv, ss, sp, Bool.and_self]

/-- The registers let an instruction go when those that it names are full and good. -/
theorem gate_good {s : State} {t : Team} {u : Use} (q : Quiet s t) (hv : FullV t (u.srcV.map fun r => r.1))
    (hs : FullS t (u.srcS.map fun r => r.1)) (hd : FullV t u.dstV) (hd' : FullS t u.dstS) : gate t u = .go t := by
  have e1 : (u.srcV.any fun r => r.2 && t.vIsEmpty r.1) = false := by
    rw [List.any_eq_false]; intro r hr; simp [(hv r.1 (List.mem_map_of_mem hr)).1]
  have e2 : (u.srcS.any fun r => r.2 && t.sIsEmpty r.1) = false := by
    rw [List.any_eq_false]; intro r hr; simp [(hs r.1 (List.mem_map_of_mem hr)).1]
  have e3 : (u.srcV.any fun r => t.vIsEmpty r.1) = false := by
    rw [List.any_eq_false]; intro r hr; simp [(hv r.1 (List.mem_map_of_mem hr)).1]
  have e4 : (u.srcS.any fun r => t.sIsEmpty r.1) = false := by
    rw [List.any_eq_false]; intro r hr; simp [(hs r.1 (List.mem_map_of_mem hr)).1]
  have e5 : (u.dstV.any fun r => t.vIsEmpty r && (t.vFault.lookup r).isNone) = false := by
    rw [List.any_eq_false]; intro r hr; simp [(hd r hr).1]
  have e6 : (u.dstS.any fun r => t.sIsEmpty r && (t.sFault.lookup r).isNone) = false := by
    rw [List.any_eq_false]; intro r hr; simp [(hd' r hr).1]
  simp only [gate, sourceFault_none q hv hs, destFault_none q hd, e1, e2, e3, e4, e5, e6, Bool.or_false, Bool.and_false,
    Bool.false_eq_true, if_false, clean_good q hd hd']

theorem gated_good {s : State} {k : Nat} {t : Team} {u : Use} (body : Team → State) (q : Quiet s t)
    (hv : FullV t (u.srcV.map fun r => r.1)) (hs : FullS t (u.srcS.map fun r => r.1)) (hd : FullV t u.dstV) (hd' : FullS t u.dstS) :
    gated s k t u body = body t := by
  simp [gated, gate_good q hv hs hd hd']

/-- With no upset pipe the checkers let every result pass. -/
theorem checkedLanes_quiet {s : State} (k : Nat) (t : Team) (unit : Nat) (lanes : LaneMask) (body : State → State)
    (h : s.upset = none) : checkedLanes s k t unit lanes body = body s := by
  simp [checkedLanes, h]

/-- Flags of which none is enabled join FSTAT. -/
theorem withFlags_clear {s : State} (k : Nat) {t : Team} {fs : List (Nat × Flags)} (body : Team → State)
    (h : ∀ f ∈ fs, f.2 &&& t.fpte.setWidth 5 = 0) :
    withFlags s k t fs body = body (t.addFlags (fs.foldl (fun a f => a ||| f.2) 0)) := by
  have : (fs.filter fun f => f.2 &&& t.fpte.setWidth 5 != 0) = [] := by
    rw [List.filter_eq_nil_iff]
    intro f hf
    simp [h f hf]
  unfold withFlags
  simp only [this]
  rfl

/-- The end of a vector instruction where no checker and no enabled flag stops it. -/
theorem vecResult_good {s : State} (k : Nat) {t : Team} (unit : Nat) (wide : Bool) (d : Nat) {rs : List (Nat × Nat × Flags)}
    (hu : s.upset = none) (h : ∀ r ∈ rs, r.2.2 &&& t.fpte.setWidth 5 = 0) :
    vecResult s k t unit wide d rs = finish s k ((t.addFlags (rs.foldl (fun a r => a ||| r.2.2) 0)).writeLanes wide d
      (rs.map fun r => (r.1, r.2.1))) := by
  unfold vecResult
  rw [checkedLanes_quiet _ _ _ _ _ hu, withFlags_clear]
  · simp [List.foldl_map]
  · intro f hf
    obtain ⟨r, hr, rfl⟩ := List.mem_map.mp hf
    exact h r hr

/-! ### Lanes -/

theorem mem_laneList {t : Team} {m : LaneMask} {L : Nat} : L ∈ laneList t m ↔ L < t.lanes ∧ bit m.toNat L = true := by
  simp [laneList]

theorem lanes_le (t : Team) : t.lanes ≤ 1024 := by
  unfold Team.lanes; omega

theorem laneList_lt {t : Team} {m : LaneMask} {L : Nat} (h : L ∈ laneList t m) : L < 1024 :=
  lt_of_lt_of_le (mem_laneList.mp h).1 (lanes_le t)

/-- A write of lanes changes vector registers only. -/
theorem writeLanes_frame (t : Team) (wide : Bool) (d : Nat) (rs : List (Nat × Nat)) :
    t.writeLanes wide d rs = { t with v := (t.writeLanes wide d rs).v } := by
  induction rs generalizing t with
  | nil => rfl
  | cons r rs ih =>
    obtain ⟨L, x⟩ := r
    rw [Team.writeLanes, ih]
    unfold Team.ww Team.wv
    split <;> rfl

theorem rv_ww (t : Team) (wide : Bool) (d L x r L' : Nat) (hL : L < 1024) (hL' : L' < 1024) :
    (t.ww wide d L x).rv r L' = if r ∈ pair wide d ∧ L' = L then destWord wide d r x else t.rv r L' := by
  unfold Team.ww pair destWord
  cases wide
  · simp [Team.rv_wv, hL, hL']
  · simp only [if_true, Team.rv_wv _ _ _ _ _ _ hL hL', List.mem_cons, List.not_mem_nil, or_false, Bool.true_and, beq_iff_eq]
    by_cases h1 : r = d + 1 <;> by_cases h2 : L' = L <;> by_cases h3 : r = d <;> simp_all

/-- A lane's register after a write of lanes. -/
theorem rv_writeLanes (t : Team) (wide : Bool) (d : Nat) (f : Nat → Nat) (ls : List Nat) (r L' : Nat) (hls : ∀ L ∈ ls, L < 1024)
    (hL' : L' < 1024) :
    (t.writeLanes wide d (ls.map fun L => (L, f L))).rv r L' =
      if r ∈ pair wide d ∧ L' ∈ ls then destWord wide d r (f L') else t.rv r L' := by
  induction ls generalizing t with
  | nil => simp [Team.writeLanes]
  | cons a ls ih =>
    rw [List.map_cons, Team.writeLanes, ih _ (fun L h => hls L (List.mem_cons_of_mem _ h)), rv_ww _ _ _ _ _ _ _ (hls a (by simp)) hL']
    by_cases h1 : L' ∈ ls <;> by_cases h2 : L' = a <;> by_cases h3 : r ∈ pair wide d <;> simp_all

theorem vecResult_lanes {s : State} (k : Nat) {t : Team} (unit : Nat) (wide : Bool) (d : Nat) (f : Nat → Nat × Flags)
    (hu : s.upset = none) (h : ∀ L ∈ laneList t t.present, (f L).2 &&& t.fpte.setWidth 5 = 0) :
    LanesWritten s k t wide d f (.next (vecResult s k t unit wide d ((laneList t t.present).map fun L => (L, f L)))) := by
  rw [vecResult_good k unit wide d hu (by
    intro r hr
    obtain ⟨L, hL, rfl⟩ := List.mem_map.mp hr
    exact h L hL)]
  refine ⟨_, rfl, ?_, ?_⟩
  · rw [writeLanes_frame]
    simp only [Team.next, Team.goto, Team.issued, Team.addFlags, List.foldl_map]
  · intro r L hL
    simp only [List.map_map]
    exact rv_writeLanes (t.addFlags _) wide d (fun L => (f L).1) (laneList t t.present) r L (fun L h => laneList_lt h) hL

/-- The registers of sources that may be wide. -/
theorem srcs_map (wide : Bool) (l : List (Nat × Bool)) : ((l.flatMap fun r => srcsV wide r.1 r.2).map fun r => r.1) = l.flatMap fun r => pair wide r.1 := by
  induction l with
  | nil => rfl
  | cons a l ih =>
    simp only [List.flatMap_cons, List.map_append, ih]
    simp [srcsV, Function.comp_def]

/-- A vector operation of one mould on good registers writes what its lanes' results are. -/
theorem VOp.run_good {o : VOp} {s : State} {k : Nat} {t : Team} {ty : Ty} {e : NumEnv} (hn : o.narrow = []) (q : Quiet s t)
    (hty : t.typed o.classes o.bits = some (ty, e)) (hd : t.okV ty.wide o.d = true) (hs : ∀ r ∈ o.srcs, t.okV ty.wide r.1 = true)
    (hf : FullV t (o.regs ty.wide))
    (hx : ∀ L ∈ laneList t t.present, (o.f ty e L (o.operands t ty.wide L)).2 &&& t.fpte.setWidth 5 = 0) :
    LanesWritten s k t ty.wide o.d (fun L => o.f ty e L (o.operands t ty.wide L)) (.next (o.run s k t)) := by
  have hok : (!(t.okV ty.wide o.d && (o.srcs.all fun r => t.okV ty.wide r.1) && o.narrow.all fun r => t.okV false r.1)) = false := by
    simp only [hn, List.all_nil, Bool.and_true, Bool.not_eq_false', Bool.and_eq_true, hd, true_and, List.all_eq_true]
    exact hs
  unfold VOp.run
  simp only [hty, hok, Bool.false_eq_true, if_false]
  rw [gated_good _ q]
  · exact vecResult_lanes k o.unit ty.wide o.d _ q.1 hx
  · intro r hr
    simp only [VOp.use, hn, List.append_nil, List.map_append, srcs_map] at hr
    apply hf
    simp only [VOp.regs, List.mem_append] at hr ⊢
    rcases hr with hr | hr
    · exact .inl hr
    · split at hr
      · right; simpa [srcsV, Function.comp_def] using hr
      · simp at hr
  · intro r hr; simp [VOp.use] at hr
  · intro r hr; exact hf r (by simp only [VOp.regs, List.mem_append]; exact .inr hr)
  · intro r hr; simp [VOp.use] at hr

@[simp] theorem srcsV_map (wide : Bool) (r : Nat) (b : Bool) : ((srcsV wide r b).map fun x => x.1) = pair wide r := by
  simp [srcsV, Function.comp_def]

end Sys2Proof.Machine
end

