-- ==== Sys2Proof/Laws/PerInstr.lean ====
section
/-! SUPPORT. What the encoding says of every instruction, one lemma per constructor: the family F. -/

namespace Sys2Proof.Laws

set_option Elab.async false

open Sys2Proof.Machine (bits)

/-- R38: decoding the word of a well-formed instruction gives it back. -/
def F.Statement (i : Instr) : Prop := i.wf = true → ∀ w, encode i = some w → decodeWord w = .ok i

theorem noWord (i : Instr) (h : encodeNat i = none) : F.Statement i := by
  intro _ w hw
  simp [encode, h] at hw

theorem F.add (d : BitVec 6) (ta : Bool) (a : BitVec 6) (tb : Bool) (b : BitVec 6) : F.Statement (.add d ta a tb b) := by
  intro _ w h
  obtain ⟨hn, ho, hf0, hf1, hf2, hf3, hf4⟩ := shape0 0x00100000 rfl (by decide) d ta a tb b
  refine wordTR hn (by rw [ho]) h ?_
  generalize asm _ _ = N at *
  rw [decodeTR, show bits _ 20 9 = 1 from opTR ho]
  simp only [hf0, hf1, hf2, hf3, hf4]

theorem F.sub (d : BitVec 6) (ta : Bool) (a : BitVec 6) (tb : Bool) (b : BitVec 6) : F.Statement (.sub d ta a tb b) := by
  intro _ w h
  obtain ⟨hn, ho, hf0, hf1, hf2, hf3, hf4⟩ := shape0 0x00200000 rfl (by decide) d ta a tb b
  refine wordTR hn (by rw [ho]) h ?_
  generalize asm _ _ = N at *
  rw [decodeTR, show bits _ 20 9 = 2 from opTR ho]
  simp only [hf0, hf1, hf2, hf3, hf4]

theorem F.mul (d : BitVec 6) (ta : Bool) (a : BitVec 6) (tb : Bool) (b : BitVec 6) : F.Statement (.mul d ta a tb b) := by
  intro _ w h
  obtain ⟨hn, ho, hf0, hf1, hf2, hf3, hf4⟩ := shape0 0x00300000 rfl (by decide) d ta a tb b
  refine wordTR hn (by rw [ho]) h ?_
  generalize asm _ _ = N at *
  rw [decodeTR, show bits _ 20 9 = 3 from opTR ho]
  simp only [hf0, hf1, hf2, hf3, hf4]

theorem F.mulh (d : BitVec 6) (ta : Bool) (a : BitVec 6) (tb : Bool) (b : BitVec 6) : F.Statement (.mulh d ta a tb b) := by
  intro _ w h
  obtain ⟨hn, ho, hf0, hf1, hf2, hf3, hf4⟩ := shape0 0x00400000 rfl (by decide) d ta a tb b
  refine wordTR hn (by rw [ho]) h ?_
  generalize asm _ _ = N at *
  rw [decodeTR, show bits _ 20 9 = 4 from opTR ho]
  simp only [hf0, hf1, hf2, hf3, hf4]

theorem F.div (d : BitVec 6) (ta : Bool) (a : BitVec 6) (tb : Bool) (b : BitVec 6) : F.Statement (.div d ta a tb b) := by
  intro _ w h
  obtain ⟨hn, ho, hf0, hf1, hf2, hf3, hf4⟩ := shape0 0x00500000 rfl (by decide) d ta a tb b
  refine wordTR hn (by rw [ho]) h ?_
  generalize asm _ _ = N at *
  rw [decodeTR, show bits _ 20 9 = 5 from opTR ho]
  simp only [hf0, hf1, hf2, hf3, hf4]

theorem F.rem (d : BitVec 6) (ta : Bool) (a : BitVec 6) (tb : Bool) (b : BitVec 6) : F.Statement (.rem d ta a tb b) := by
  intro _ w h
  obtain ⟨hn, ho, hf0, hf1, hf2, hf3, hf4⟩ := shape0 0x00600000 rfl (by decide) d ta a tb b
  refine wordTR hn (by rw [ho]) h ?_
  generalize asm _ _ = N at *
  rw [decodeTR, show bits _ 20 9 = 6 from opTR ho]
  simp only [hf0, hf1, hf2, hf3, hf4]

theorem F.min (d : BitVec 6) (ta : Bool) (a : BitVec 6) (tb : Bool) (b : BitVec 6) : F.Statement (.min d ta a tb b) := by
  intro _ w h
  obtain ⟨hn, ho, hf0, hf1, hf2, hf3, hf4⟩ := shape0 0x00700000 rfl (by decide) d ta a tb b
  refine wordTR hn (by rw [ho]) h ?_
  generalize asm _ _ = N at *
  rw [decodeTR, show bits _ 20 9 = 7 from opTR ho]
  simp only [hf0, hf1, hf2, hf3, hf4]

theorem F.max (d : BitVec 6) (ta : Bool) (a : BitVec 6) (tb : Bool) (b : BitVec 6) : F.Statement (.max d ta a tb b) := by
  intro _ w h
  obtain ⟨hn, ho, hf0, hf1, hf2, hf3, hf4⟩ := shape0 0x00800000 rfl (by decide) d ta a tb b
  refine wordTR hn (by rw [ho]) h ?_
  generalize asm _ _ = N at *
  rw [decodeTR, show bits _ 20 9 = 8 from opTR ho]
  simp only [hf0, hf1, hf2, hf3, hf4]

theorem F.abs (d : BitVec 6) (ta : Bool) (a : BitVec 6) : F.Statement (.abs d ta a) := by
  intro _ w h
  obtain ⟨hn, ho, hf0, hf1, hf2, hr0⟩ := shape1 0x00900000 rfl (by decide) d ta a
  refine wordTR hn (by rw [ho]) h ?_
  generalize asm _ _ = N at *
  rw [decodeTR, show bits _ 20 9 = 9 from opTR ho]
  simp only [zeros, hf0, hf1, hf2, hr0]; rfl

theorem F.neg (d : BitVec 6) (ta : Bool) (a : BitVec 6) : F.Statement (.neg d ta a) := by
  intro _ w h
  obtain ⟨hn, ho, hf0, hf1, hf2, hr0⟩ := shape1 0x00A00000 rfl (by decide) d ta a
  refine wordTR hn (by rw [ho]) h ?_
  generalize asm _ _ = N at *
  rw [decodeTR, show bits _ 20 9 = 10 from opTR ho]
  simp only [zeros, hf0, hf1, hf2, hr0]; rfl

theorem F.and (d : BitVec 6) (ta : Bool) (a : BitVec 6) (tb : Bool) (b : BitVec 6) : F.Statement (.and d ta a tb b) := by
  intro _ w h
  obtain ⟨hn, ho, hf0, hf1, hf2, hf3, hf4⟩ := shape0 0x01000000 rfl (by decide) d ta a tb b
  refine wordTR hn (by rw [ho]) h ?_
  generalize asm _ _ = N at *
  rw [decodeTR, show bits _ 20 9 = 16 from opTR ho]
  simp only [hf0, hf1, hf2, hf3, hf4]

theorem F.or (d : BitVec 6) (ta : Bool) (a : BitVec 6) (tb : Bool) (b : BitVec 6) : F.Statement (.or d ta a tb b) := by
  intro _ w h
  obtain ⟨hn, ho, hf0, hf1, hf2, hf3, hf4⟩ := shape0 0x01100000 rfl (by decide) d ta a tb b
  refine wordTR hn (by rw [ho]) h ?_
  generalize asm _ _ = N at *
  rw [decodeTR, show bits _ 20 9 = 17 from opTR ho]
  simp only [hf0, hf1, hf2, hf3, hf4]

theorem F.xor (d : BitVec 6) (ta : Bool) (a : BitVec 6) (tb : Bool) (b : BitVec 6) : F.Statement (.xor d ta a tb b) := by
  intro _ w h
  obtain ⟨hn, ho, hf0, hf1, hf2, hf3, hf4⟩ := shape0 0x01200000 rfl (by decide) d ta a tb b
  refine wordTR hn (by rw [ho]) h ?_
  generalize asm _ _ = N at *
  rw [decodeTR, show bits _ 20 9 = 18 from opTR ho]
  simp only [hf0, hf1, hf2, hf3, hf4]

theorem F.not (d : BitVec 6) (ta : Bool) (a : BitVec 6) : F.Statement (.not d ta a) := by
  intro _ w h
  obtain ⟨hn, ho, hf0, hf1, hf2, hr0⟩ := shape1 0x01300000 rfl (by decide) d ta a
  refine wordTR hn (by rw [ho]) h ?_
  generalize asm _ _ = N at *
  rw [decodeTR, show bits _ 20 9 = 19 from opTR ho]
  simp only [zeros, hf0, hf1, hf2, hr0]; rfl

theorem F.shl (d : BitVec 6) (ta : Bool) (a : BitVec 6) (tb : Bool) (b : BitVec 6) : F.Statement (.shl d ta a tb b) := by
  intro _ w h
  obtain ⟨hn, ho, hf0, hf1, hf2, hf3, hf4⟩ := shape0 0x01400000 rfl (by decide) d ta a tb b
  refine wordTR hn (by rw [ho]) h ?_
  generalize asm _ _ = N at *
  rw [decodeTR, show bits _ 20 9 = 20 from opTR ho]
  simp only [hf0, hf1, hf2, hf3, hf4]

theorem F.shr (d : BitVec 6) (ta : Bool) (a : BitVec 6) (tb : Bool) (b : BitVec 6) : F.Statement (.shr d ta a tb b) := by
  intro _ w h
  obtain ⟨hn, ho, hf0, hf1, hf2, hf3, hf4⟩ := shape0 0x01500000 rfl (by decide) d ta a tb b
  refine wordTR hn (by rw [ho]) h ?_
  generalize asm _ _ = N at *
  rw [decodeTR, show bits _ 20 9 = 21 from opTR ho]
  simp only [hf0, hf1, hf2, hf3, hf4]

theorem F.sra (d : BitVec 6) (ta : Bool) (a : BitVec 6) (tb : Bool) (b : BitVec 6) : F.Statement (.sra d ta a tb b) := by
  intro _ w h
  obtain ⟨hn, ho, hf0, hf1, hf2, hf3, hf4⟩ := shape0 0x01600000 rfl (by decide) d ta a tb b
  refine wordTR hn (by rw [ho]) h ?_
  generalize asm _ _ = N at *
  rw [decodeTR, show bits _ 20 9 = 22 from opTR ho]
  simp only [hf0, hf1, hf2, hf3, hf4]

theorem F.bfx (d : BitVec 6) (ta : Bool) (a : BitVec 6) (tb : Bool) (b : BitVec 6) : F.Statement (.bfx d ta a tb b) := by
  intro _ w h
  obtain ⟨hn, ho, hf0, hf1, hf2, hf3, hf4⟩ := shape0 0x01700000 rfl (by decide) d ta a tb b
  refine wordTR hn (by rw [ho]) h ?_
  generalize asm _ _ = N at *
  rw [decodeTR, show bits _ 20 9 = 23 from opTR ho]
  simp only [hf0, hf1, hf2, hf3, hf4]

theorem F.bfi (d : BitVec 6) (ta : Bool) (a : BitVec 6) (tb : Bool) (b : BitVec 6) : F.Statement (.bfi d ta a tb b) := by
  intro _ w h
  obtain ⟨hn, ho, hf0, hf1, hf2, hf3, hf4⟩ := shape0 0x01800000 rfl (by decide) d ta a tb b
  refine wordTR hn (by rw [ho]) h ?_
  generalize asm _ _ = N at *
  rw [decodeTR, show bits _ 20 9 = 24 from opTR ho]
  simp only [hf0, hf1, hf2, hf3, hf4]

theorem F.popc (d : BitVec 6) (ta : Bool) (a : BitVec 6) : F.Statement (.popc d ta a) := by
  intro _ w h
  obtain ⟨hn, ho, hf0, hf1, hf2, hr0⟩ := shape1 0x01900000 rfl (by decide) d ta a
  refine wordTR hn (by rw [ho]) h ?_
  generalize asm _ _ = N at *
  rw [decodeTR, show bits _ 20 9 = 25 from opTR ho]
  simp only [zeros, hf0, hf1, hf2, hr0]; rfl

theorem F.clz (d : BitVec 6) (ta : Bool) (a : BitVec 6) : F.Statement (.clz d ta a) := by
  intro _ w h
  obtain ⟨hn, ho, hf0, hf1, hf2, hr0⟩ := shape1 0x01A00000 rfl (by decide) d ta a
  refine wordTR hn (by rw [ho]) h ?_
  generalize asm _ _ = N at *
  rw [decodeTR, show bits _ 20 9 = 26 from opTR ho]
  simp only [zeros, hf0, hf1, hf2, hr0]; rfl

theorem F.ctz (d : BitVec 6) (ta : Bool) (a : BitVec 6) : F.Statement (.ctz d ta a) := by
  intro _ w h
  obtain ⟨hn, ho, hf0, hf1, hf2, hr0⟩ := shape1 0x01B00000 rfl (by decide) d ta a
  refine wordTR hn (by rw [ho]) h ?_
  generalize asm _ _ = N at *
  rw [decodeTR, show bits _ 20 9 = 27 from opTR ho]
  simp only [zeros, hf0, hf1, hf2, hr0]; rfl

theorem F.brev (d : BitVec 6) (ta : Bool) (a : BitVec 6) : F.Statement (.brev d ta a) := by
  intro _ w h
  obtain ⟨hn, ho, hf0, hf1, hf2, hr0⟩ := shape1 0x01C00000 rfl (by decide) d ta a
  refine wordTR hn (by rw [ho]) h ?_
  generalize asm _ _ = N at *
  rw [decodeTR, show bits _ 20 9 = 28 from opTR ho]
  simp only [zeros, hf0, hf1, hf2, hr0]; rfl

theorem F.cmp (c : BitVec 3) (p : BitVec 3) (ta : Bool) (a : BitVec 6) (tb : Bool) (b : BitVec 6) : F.Statement (.cmp c p ta a tb b) := by
  intro _ w h
  obtain ⟨hn, ho, hf0, hf1, hf2, hf3, hf4, hf5⟩ := shape2 0x02000000 rfl (by decide) c p ta a tb b
  refine wordTR hn (by rw [ho]) h ?_
  generalize asm _ _ = N at *
  rw [decodeTR, show bits _ 20 9 = 32 from opTR ho]
  simp only [hf0, hf1, hf2, hf3, hf4, hf5]

theorem F.sel (d : BitVec 6) (ta : Bool) (a : BitVec 6) (tb : Bool) (b : BitVec 6) : F.Statement (.sel d ta a tb b) := by
  intro _ w h
  obtain ⟨hn, ho, hf0, hf1, hf2, hf3, hf4⟩ := shape0 0x02100000 rfl (by decide) d ta a tb b
  refine wordTR hn (by rw [ho]) h ?_
  generalize asm _ _ = N at *
  rw [decodeTR, show bits _ 20 9 = 33 from opTR ho]
  simp only [hf0, hf1, hf2, hf3, hf4]

theorem F.cvt (d : BitVec 6) (ta : Bool) (a : BitVec 6) (k : BitVec 2) (s : BitVec 4) : F.Statement (.cvt d ta a k s) := by
  intro _ w h
  obtain ⟨hn, ho, hf0, hf1, hf2, hf3, hf4, hr0⟩ := shape3 0x02200000 rfl (by decide) d ta a k s
  refine wordTR hn (by rw [ho]) h ?_
  generalize asm _ _ = N at *
  rw [decodeTR, show bits _ 20 9 = 34 from opTR ho]
  simp only [zeros, hf0, hf1, hf2, hf3, hf4, hr0]; rfl

theorem F.pack (d : BitVec 6) (ta : Bool) (a : BitVec 6) (tb : Bool) (b : BitVec 6) : F.Statement (.pack d ta a tb b) := by
  intro _ w h
  obtain ⟨hn, ho, hf0, hf1, hf2, hf3, hf4⟩ := shape0 0x02300000 rfl (by decide) d ta a tb b
  refine wordTR hn (by rw [ho]) h ?_
  generalize asm _ _ = N at *
  rw [decodeTR, show bits _ 20 9 = 35 from opTR ho]
  simp only [hf0, hf1, hf2, hf3, hf4]

theorem F.unpk (d : BitVec 6) (ta : Bool) (a : BitVec 6) : F.Statement (.unpk d ta a) := by
  intro _ w h
  obtain ⟨hn, ho, hf0, hf1, hf2, hr0⟩ := shape1 0x02400000 rfl (by decide) d ta a
  refine wordTR hn (by rw [ho]) h ?_
  generalize asm _ _ = N at *
  rw [decodeTR, show bits _ 20 9 = 36 from opTR ho]
  simp only [zeros, hf0, hf1, hf2, hr0]; rfl

theorem F.mov (d : BitVec 6) (ta : Bool) (a : BitVec 6) : F.Statement (.mov d ta a) := by
  intro _ w h
  obtain ⟨hn, ho, hf0, hf1, hf2, hr0⟩ := shape1 0x03000000 rfl (by decide) d ta a
  refine wordTR hn (by rw [ho]) h ?_
  generalize asm _ _ = N at *
  rw [decodeTR, show bits _ 20 9 = 48 from opTR ho]
  simp only [zeros, hf0, hf1, hf2, hr0]; rfl

theorem F.movs (d : BitVec 6) (ta : Bool) (a : BitVec 5) : F.Statement (.movs d ta a) := by
  intro _ w h
  obtain ⟨hn, ho, hf0, hf1, hf2, hr0, hr1⟩ := shape4 0x03100000 rfl (by decide) d ta a
  refine wordTR hn (by rw [ho]) h ?_
  generalize asm _ _ = N at *
  rw [decodeTR, show bits _ 20 9 = 49 from opTR ho]
  simp only [zeros, hf0, hf1, hf2, hr0, hr1]; rfl

theorem F.lid (d : BitVec 6) : F.Statement (.lid d) := by
  intro _ w h
  obtain ⟨hn, ho, hf0, hr0⟩ := shape5 0x03200000 rfl (by decide) d
  refine wordTR hn (by rw [ho]) h ?_
  generalize asm _ _ = N at *
  rw [decodeTR, show bits _ 20 9 = 50 from opTR ho]
  simp only [zeros, hf0, hr0]; rfl

theorem F.rcp (d : BitVec 6) (ta : Bool) (a : BitVec 6) : F.Statement (.rcp d ta a) := by
  intro _ w h
  obtain ⟨hn, ho, hf0, hf1, hf2, hr0⟩ := shape1 0x04000000 rfl (by decide) d ta a
  refine wordTR hn (by rw [ho]) h ?_
  generalize asm _ _ = N at *
  rw [decodeTR, show bits _ 20 9 = 64 from opTR ho]
  simp only [zeros, hf0, hf1, hf2, hr0]; rfl

theorem F.rsq (d : BitVec 6) (ta : Bool) (a : BitVec 6) : F.Statement (.rsq d ta a) := by
  intro _ w h
  obtain ⟨hn, ho, hf0, hf1, hf2, hr0⟩ := shape1 0x04100000 rfl (by decide) d ta a
  refine wordTR hn (by rw [ho]) h ?_
  generalize asm _ _ = N at *
  rw [decodeTR, show bits _ 20 9 = 65 from opTR ho]
  simp only [zeros, hf0, hf1, hf2, hr0]; rfl

theorem F.sqrt (d : BitVec 6) (ta : Bool) (a : BitVec 6) : F.Statement (.sqrt d ta a) := by
  intro _ w h
  obtain ⟨hn, ho, hf0, hf1, hf2, hr0⟩ := shape1 0x04200000 rfl (by decide) d ta a
  refine wordTR hn (by rw [ho]) h ?_
  generalize asm _ _ = N at *
  rw [decodeTR, show bits _ 20 9 = 66 from opTR ho]
  simp only [zeros, hf0, hf1, hf2, hr0]; rfl

theorem F.exp2 (d : BitVec 6) (ta : Bool) (a : BitVec 6) : F.Statement (.exp2 d ta a) := by
  intro _ w h
  obtain ⟨hn, ho, hf0, hf1, hf2, hr0⟩ := shape1 0x04300000 rfl (by decide) d ta a
  refine wordTR hn (by rw [ho]) h ?_
  generalize asm _ _ = N at *
  rw [decodeTR, show bits _ 20 9 = 67 from opTR ho]
  simp only [zeros, hf0, hf1, hf2, hr0]; rfl

theorem F.log2 (d : BitVec 6) (ta : Bool) (a : BitVec 6) : F.Statement (.log2 d ta a) := by
  intro _ w h
  obtain ⟨hn, ho, hf0, hf1, hf2, hr0⟩ := shape1 0x04400000 rfl (by decide) d ta a
  refine wordTR hn (by rw [ho]) h ?_
  generalize asm _ _ = N at *
  rw [decodeTR, show bits _ 20 9 = 68 from opTR ho]
  simp only [zeros, hf0, hf1, hf2, hr0]; rfl

theorem F.sinr (d : BitVec 6) (ta : Bool) (a : BitVec 6) : F.Statement (.sinr d ta a) := by
  intro _ w h
  obtain ⟨hn, ho, hf0, hf1, hf2, hr0⟩ := shape1 0x04500000 rfl (by decide) d ta a
  refine wordTR hn (by rw [ho]) h ?_
  generalize asm _ _ = N at *
  rw [decodeTR, show bits _ 20 9 = 69 from opTR ho]
  simp only [zeros, hf0, hf1, hf2, hr0]; rfl

theorem F.cosr (d : BitVec 6) (ta : Bool) (a : BitVec 6) : F.Statement (.cosr d ta a) := by
  intro _ w h
  obtain ⟨hn, ho, hf0, hf1, hf2, hr0⟩ := shape1 0x04600000 rfl (by decide) d ta a
  refine wordTR hn (by rw [ho]) h ?_
  generalize asm _ _ = N at *
  rw [decodeTR, show bits _ 20 9 = 70 from opTR ho]
  simp only [zeros, hf0, hf1, hf2, hr0]; rfl

theorem F.tanh (d : BitVec 6) (ta : Bool) (a : BitVec 6) : F.Statement (.tanh d ta a) := by
  intro _ w h
  obtain ⟨hn, ho, hf0, hf1, hf2, hr0⟩ := shape1 0x04700000 rfl (by decide) d ta a
  refine wordTR hn (by rw [ho]) h ?_
  generalize asm _ _ = N at *
  rw [decodeTR, show bits _ 20 9 = 71 from opTR ho]
  simp only [zeros, hf0, hf1, hf2, hr0]; rfl

theorem F.tbev (d : BitVec 6) (ta : Bool) (a : BitVec 6) : F.Statement (.tbev d ta a) := by
  intro _ w h
  obtain ⟨hn, ho, hf0, hf1, hf2, hr0⟩ := shape1 0x04800000 rfl (by decide) d ta a
  refine wordTR hn (by rw [ho]) h ?_
  generalize asm _ _ = N at *
  rw [decodeTR, show bits _ 20 9 = 72 from opTR ho]
  simp only [zeros, hf0, hf1, hf2, hr0]; rfl

theorem F.shfi (d : BitVec 6) (ta : Bool) (a : BitVec 6) (tb : Bool) (b : BitVec 6) : F.Statement (.shfi d ta a tb b) := by
  intro _ w h
  obtain ⟨hn, ho, hf0, hf1, hf2, hf3, hf4⟩ := shape0 0x06000000 rfl (by decide) d ta a tb b
  refine wordTR hn (by rw [ho]) h ?_
  generalize asm _ _ = N at *
  rw [decodeTR, show bits _ 20 9 = 96 from opTR ho]
  simp only [hf0, hf1, hf2, hf3, hf4]

theorem F.shfd (d : BitVec 6) (ta : Bool) (a : BitVec 6) (b : BitVec 6) : F.Statement (.shfd d ta a b) := by
  intro _ w h
  obtain ⟨hn, ho, hf0, hf1, hf2, hf3, hr0⟩ := shape6 0x06100000 rfl (by decide) d ta a b
  refine wordTR hn (by rw [ho]) h ?_
  generalize asm _ _ = N at *
  rw [decodeTR, show bits _ 20 9 = 97 from opTR ho]
  simp only [zeros, hf0, hf1, hf2, hf3, hr0]; rfl

theorem F.shfx (d : BitVec 6) (ta : Bool) (a : BitVec 6) (b : BitVec 6) : F.Statement (.shfx d ta a b) := by
  intro _ w h
  obtain ⟨hn, ho, hf0, hf1, hf2, hf3, hr0⟩ := shape6 0x06200000 rfl (by decide) d ta a b
  refine wordTR hn (by rw [ho]) h ?_
  generalize asm _ _ = N at *
  rw [decodeTR, show bits _ 20 9 = 98 from opTR ho]
  simp only [zeros, hf0, hf1, hf2, hf3, hr0]; rfl

theorem F.vany (d : BitVec 5) (inv : Bool) (p : BitVec 3) : F.Statement (.vany d inv p) := by
  intro _ w h
  obtain ⟨hn, ho, hf0, hf1, hf2, hr0, hr1, hr2⟩ := shape7 0x06300000 rfl (by decide) d inv p
  refine wordTR hn (by rw [ho]) h ?_
  generalize asm _ _ = N at *
  rw [decodeTR, show bits _ 20 9 = 99 from opTR ho]
  simp only [zeros, hf0, hf1, hf2, hr0, hr1, hr2]; rfl

theorem F.vall (d : BitVec 5) (inv : Bool) (p : BitVec 3) : F.Statement (.vall d inv p) := by
  intro _ w h
  obtain ⟨hn, ho, hf0, hf1, hf2, hr0, hr1, hr2⟩ := shape7 0x06400000 rfl (by decide) d inv p
  refine wordTR hn (by rw [ho]) h ?_
  generalize asm _ _ = N at *
  rw [decodeTR, show bits _ 20 9 = 100 from opTR ho]
  simp only [zeros, hf0, hf1, hf2, hr0, hr1, hr2]; rfl

theorem F.vbal (d : BitVec 6) (inv : Bool) (p : BitVec 3) : F.Statement (.vbal d inv p) := by
  intro _ w h
  obtain ⟨hn, ho, hf0, hf1, hf2, hr0, hr1⟩ := shape8 0x06500000 rfl (by decide) d inv p
  refine wordTR hn (by rw [ho]) h ?_
  generalize asm _ _ = N at *
  rw [decodeTR, show bits _ 20 9 = 101 from opTR ho]
  simp only [zeros, hf0, hf1, hf2, hr0, hr1]; rfl

theorem F.tred (d : BitVec 5) (ta : Bool) (a : BitVec 6) (op : BitVec 6) : F.Statement (.tred d ta a op) := by
  intro _ w h
  obtain ⟨hn, ho, hf0, hf1, hf2, hf3, hr0, hr1⟩ := shape9 0x06600000 rfl (by decide) d ta a op
  refine wordTR hn (by rw [ho]) h ?_
  generalize asm _ _ = N at *
  rw [decodeTR, show bits _ 20 9 = 102 from opTR ho]
  simp only [zeros, hf0, hf1, hf2, hf3, hr0, hr1]; rfl

theorem F.tscan (d : BitVec 6) (ta : Bool) (a : BitVec 6) (excl : Bool) (op : BitVec 3) : F.Statement (.tscan d ta a excl op) := by
  intro _ w h
  obtain ⟨hn, ho, hf0, hf1, hf2, hf3, hf4, hr0⟩ := shape10 0x06700000 rfl (by decide) d ta a excl op
  refine wordTR hn (by rw [ho]) h ?_
  generalize asm _ _ = N at *
  rw [decodeTR, show bits _ 20 9 = 103 from opTR ho]
  simp only [zeros, hf0, hf1, hf2, hf3, hf4, hr0]; rfl

theorem F.segred (d : BitVec 6) (ta : Bool) (a : BitVec 6) (tb : Bool) (b : BitVec 6) : F.Statement (.segred d ta a tb b) := by
  intro _ w h
  obtain ⟨hn, ho, hf0, hf1, hf2, hf3, hf4⟩ := shape0 0x06800000 rfl (by decide) d ta a tb b
  refine wordTR hn (by rw [ho]) h ?_
  generalize asm _ _ = N at *
  rw [decodeTR, show bits _ 20 9 = 104 from opTR ho]
  simp only [hf0, hf1, hf2, hf3, hf4]

theorem F.tix (d : BitVec 6) (ta : Bool) (a : BitVec 6) (b : BitVec 5) : F.Statement (.tix d ta a b) := by
  intro _ w h
  obtain ⟨hn, ho, hf0, hf1, hf2, hf3, hr0⟩ := shape11 0x06900000 rfl (by decide) d ta a b
  refine wordTR hn (by rw [ho]) h ?_
  generalize asm _ _ = N at *
  rw [decodeTR, show bits _ 20 9 = 105 from opTR ho]
  simp only [zeros, hf0, hf1, hf2, hf3, hr0]; rfl

theorem F.mad (d : BitVec 6) (ta : Bool) (a : BitVec 6) (tb : Bool) (b : BitVec 6) (tc : Bool) (c : BitVec 6) : F.Statement (.mad d ta a tb b tc c) := by
  intro _ w h
  obtain ⟨hn, ho, hf0, hf1, hf2, hf3, hf4, hf5, hf6⟩ := shape12 0x20000000 rfl (by decide) d ta a tb b tc c
  refine wordFR hn (by rw [ho]) h ?_
  generalize asm _ _ = N at *
  rw [decodeFR, show bits _ 27 2 = 0 from opFR ho]
  simp only [hf0, hf1, hf2, hf3, hf4, hf5, hf6]

theorem F.msb (d : BitVec 6) (ta : Bool) (a : BitVec 6) (tb : Bool) (b : BitVec 6) (tc : Bool) (c : BitVec 6) : F.Statement (.msb d ta a tb b tc c) := by
  intro _ w h
  obtain ⟨hn, ho, hf0, hf1, hf2, hf3, hf4, hf5, hf6⟩ := shape12 0x28000000 rfl (by decide) d ta a tb b tc c
  refine wordFR hn (by rw [ho]) h ?_
  generalize asm _ _ = N at *
  rw [decodeFR, show bits _ 27 2 = 1 from opFR ho]
  simp only [hf0, hf1, hf2, hf3, hf4, hf5, hf6]

theorem F.nmad (d : BitVec 6) (ta : Bool) (a : BitVec 6) (tb : Bool) (b : BitVec 6) (tc : Bool) (c : BitVec 6) : F.Statement (.nmad d ta a tb b tc c) := by
  intro _ w h
  obtain ⟨hn, ho, hf0, hf1, hf2, hf3, hf4, hf5, hf6⟩ := shape12 0x30000000 rfl (by decide) d ta a tb b tc c
  refine wordFR hn (by rw [ho]) h ?_
  generalize asm _ _ = N at *
  rw [decodeFR, show bits _ 27 2 = 2 from opFR ho]
  simp only [hf0, hf1, hf2, hf3, hf4, hf5, hf6]

theorem F.dot (d : BitVec 6) (ta : Bool) (a : BitVec 6) (tb : Bool) (b : BitVec 6) (tc : Bool) (c : BitVec 6) : F.Statement (.dot d ta a tb b tc c) := by
  intro _ w h
  obtain ⟨hn, ho, hf0, hf1, hf2, hf3, hf4, hf5, hf6⟩ := shape12 0x38000000 rfl (by decide) d ta a tb b tc c
  refine wordFR hn (by rw [ho]) h ?_
  generalize asm _ _ = N at *
  rw [decodeFR, show bits _ 27 2 = 3 from opFR ho]
  simp only [hf0, hf1, hf2, hf3, hf4, hf5, hf6]

theorem F.addi (d : BitVec 6) (a : BitVec 6) (imm : BitVec 11) : F.Statement (.addi d a imm) := by
  intro _ w h
  obtain ⟨hn, ho, hf0, hf1, hf2⟩ := shape13 0x40000000 rfl (by decide) d a imm
  refine wordI hn (by rw [ho]) h ?_
  generalize asm _ _ = N at *
  rw [decodeI, show bits _ 23 6 = 0 from opI ho]
  simp only [hf0, hf1, hf2]

theorem F.muli (d : BitVec 6) (a : BitVec 6) (imm : BitVec 11) : F.Statement (.muli d a imm) := by
  intro _ w h
  obtain ⟨hn, ho, hf0, hf1, hf2⟩ := shape13 0x40800000 rfl (by decide) d a imm
  refine wordI hn (by rw [ho]) h ?_
  generalize asm _ _ = N at *
  rw [decodeI, show bits _ 23 6 = 1 from opI ho]
  simp only [hf0, hf1, hf2]

theorem F.andi (d : BitVec 6) (a : BitVec 6) (imm : BitVec 11) : F.Statement (.andi d a imm) := by
  intro _ w h
  obtain ⟨hn, ho, hf0, hf1, hf2⟩ := shape13 0x41000000 rfl (by decide) d a imm
  refine wordI hn (by rw [ho]) h ?_
  generalize asm _ _ = N at *
  rw [decodeI, show bits _ 23 6 = 2 from opI ho]
  simp only [hf0, hf1, hf2]

theorem F.ori (d : BitVec 6) (a : BitVec 6) (imm : BitVec 11) : F.Statement (.ori d a imm) := by
  intro _ w h
  obtain ⟨hn, ho, hf0, hf1, hf2⟩ := shape13 0x41800000 rfl (by decide) d a imm
  refine wordI hn (by rw [ho]) h ?_
  generalize asm _ _ = N at *
  rw [decodeI, show bits _ 23 6 = 3 from opI ho]
  simp only [hf0, hf1, hf2]

theorem F.xori (d : BitVec 6) (a : BitVec 6) (imm : BitVec 11) : F.Statement (.xori d a imm) := by
  intro _ w h
  obtain ⟨hn, ho, hf0, hf1, hf2⟩ := shape13 0x42000000 rfl (by decide) d a imm
  refine wordI hn (by rw [ho]) h ?_
  generalize asm _ _ = N at *
  rw [decodeI, show bits _ 23 6 = 4 from opI ho]
  simp only [hf0, hf1, hf2]

theorem F.shli (d : BitVec 6) (a : BitVec 6) (imm : BitVec 8) : F.Statement (.shli d a imm) := by
  intro _ w h
  obtain ⟨hn, ho, hf0, hf1, hf2, hr0⟩ := shape14 0x42800000 rfl (by decide) d a imm
  refine wordI hn (by rw [ho]) h ?_
  generalize asm _ _ = N at *
  rw [decodeI, show bits _ 23 6 = 5 from opI ho]
  simp only [zeros, hf0, hf1, hf2, hr0]; rfl

theorem F.shri (d : BitVec 6) (a : BitVec 6) (imm : BitVec 8) : F.Statement (.shri d a imm) := by
  intro _ w h
  obtain ⟨hn, ho, hf0, hf1, hf2, hr0⟩ := shape14 0x43000000 rfl (by decide) d a imm
  refine wordI hn (by rw [ho]) h ?_
  generalize asm _ _ = N at *
  rw [decodeI, show bits _ 23 6 = 6 from opI ho]
  simp only [zeros, hf0, hf1, hf2, hr0]; rfl

theorem F.srai (d : BitVec 6) (a : BitVec 6) (imm : BitVec 8) : F.Statement (.srai d a imm) := by
  intro _ w h
  obtain ⟨hn, ho, hf0, hf1, hf2, hr0⟩ := shape14 0x43800000 rfl (by decide) d a imm
  refine wordI hn (by rw [ho]) h ?_
  generalize asm _ _ = N at *
  rw [decodeI, show bits _ 23 6 = 7 from opI ho]
  simp only [zeros, hf0, hf1, hf2, hr0]; rfl

theorem F.cmpi (c : BitVec 3) (p : BitVec 3) (a : BitVec 6) (imm : BitVec 11) : F.Statement (.cmpi c p a imm) := by
  intro _ w h
  obtain ⟨hn, ho, hf0, hf1, hf2, hf3⟩ := shape15 0x44000000 rfl (by decide) c p a imm
  refine wordI hn (by rw [ho]) h ?_
  generalize asm _ _ = N at *
  rw [decodeI, show bits _ 23 6 = 8 from opI ho]
  simp only [hf0, hf1, hf2, hf3]

theorem F.ldBase (d : BitVec 6) (b : BitVec 5) (ord : BitVec 2) (scope : BitVec 3) : F.Statement (.ldBase d b ord scope) := by
  intro _ w h
  obtain ⟨hn, ho, hf0, hf1, hf2, hf3, hr0, hr1, hr2⟩ := shape16 0x60000000 rfl (by decide) d b ord scope
  refine wordM hn (by rw [ho]) h ?_
  generalize asm _ _ = N at *
  rw [decodeM, show bits _ 24 5 = 0 from opM ho]
  simp only [zeros, hf0, hf1, hf2, hf3, hr0, hr1, hr2]; rfl

theorem F.ldVectorOffset (d : BitVec 6) (b : BitVec 5) (o : BitVec 6) (ord : BitVec 2) (scope : BitVec 3) : F.Statement (.ldVectorOffset d b o ord scope) := by
  intro _ w h
  obtain ⟨hn, ho, hf0, hf1, hf2, hf3, hf4, hr0, hr1⟩ := shape17 0x61000000 rfl (by decide) d b o ord scope
  refine wordM hn (by rw [ho]) h ?_
  generalize asm _ _ = N at *
  rw [decodeM, show bits _ 24 5 = 1 from opM ho]
  simp only [zeros, hf0, hf1, hf2, hf3, hf4, hr0, hr1]; rfl

theorem F.stBase (d : BitVec 6) (b : BitVec 5) (ord : BitVec 2) (scope : BitVec 3) (ta : Bool) : F.Statement (.stBase d b ord scope ta) := by
  intro _ w h
  obtain ⟨hn, ho, hf0, hf1, hf2, hf3, hf4, hr0, hr1⟩ := shape18 0x62000000 rfl (by decide) d b ord scope ta
  refine wordM hn (by rw [ho]) h ?_
  generalize asm _ _ = N at *
  rw [decodeM, show bits _ 24 5 = 2 from opM ho]
  simp only [zeros, hf0, hf1, hf2, hf3, hf4, hr0, hr1]; rfl

theorem F.stVectorOffset (d : BitVec 6) (b : BitVec 5) (o : BitVec 6) (ord : BitVec 2) (scope : BitVec 3) (ta : Bool) : F.Statement (.stVectorOffset d b o ord scope ta) := by
  intro _ w h
  obtain ⟨hn, ho, hf0, hf1, hf2, hf3, hf4, hf5, hr0⟩ := shape19 0x63000000 rfl (by decide) d b o ord scope ta
  refine wordM hn (by rw [ho]) h ?_
  generalize asm _ _ = N at *
  rw [decodeM, show bits _ 24 5 = 3 from opM ho]
  simp only [zeros, hf0, hf1, hf2, hf3, hf4, hf5, hr0]; rfl

theorem F.sld (d : BitVec 5) (b : BitVec 5) (ord : BitVec 2) (scope : BitVec 3) : F.Statement (.sld d b ord scope) := by
  intro _ w h
  obtain ⟨hn, ho, hf0, hf1, hf2, hf3, hr0, hr1, hr2, hr3⟩ := shape20 0x64000000 rfl (by decide) d b ord scope
  refine wordM hn (by rw [ho]) h ?_
  generalize asm _ _ = N at *
  rw [decodeM, show bits _ 24 5 = 4 from opM ho]
  simp only [zeros, hf0, hf1, hf2, hf3, hr0, hr1, hr2, hr3]; rfl

theorem F.sst (d : BitVec 5) (b : BitVec 5) (ord : BitVec 2) (scope : BitVec 3) (ta : Bool) : F.Statement (.sst d b ord scope ta) := by
  intro _ w h
  obtain ⟨hn, ho, hf0, hf1, hf2, hf3, hf4, hr0, hr1, hr2⟩ := shape21 0x65000000 rfl (by decide) d b ord scope ta
  refine wordM hn (by rw [ho]) h ?_
  generalize asm _ _ = N at *
  rw [decodeM, show bits _ 24 5 = 5 from opM ho]
  simp only [zeros, hf0, hf1, hf2, hf3, hf4, hr0, hr1, hr2]; rfl

theorem F.wgath (d : BitVec 6) (b : BitVec 5) (o : BitVec 5) (ord : BitVec 2) (scope : BitVec 3) : F.Statement (.wgath d b o ord scope) := by
  intro _ w h
  obtain ⟨hn, ho, hf0, hf1, hf2, hf3, hf4, hr0, hr1, hr2⟩ := shape22 0x66000000 rfl (by decide) d b o ord scope
  refine wordM hn (by rw [ho]) h ?_
  generalize asm _ _ = N at *
  rw [decodeM, show bits _ 24 5 = 6 from opM ho]
  simp only [zeros, hf0, hf1, hf2, hf3, hf4, hr0, hr1, hr2]; rfl

theorem F.wscat (d : BitVec 6) (b : BitVec 5) (o : BitVec 5) (ord : BitVec 2) (scope : BitVec 3) (ta : Bool) : F.Statement (.wscat d b o ord scope ta) := by
  intro _ w h
  obtain ⟨hn, ho, hf0, hf1, hf2, hf3, hf4, hf5, hr0, hr1⟩ := shape23 0x67000000 rfl (by decide) d b o ord scope ta
  refine wordM hn (by rw [ho]) h ?_
  generalize asm _ _ = N at *
  rw [decodeM, show bits _ 24 5 = 7 from opM ho]
  simp only [zeros, hf0, hf1, hf2, hf3, hf4, hf5, hr0, hr1]; rfl

theorem F.aadd (d : BitVec 6) (b : BitVec 5) (o : BitVec 6) (ord : BitVec 2) (scope : BitVec 3) (ta : Bool) : F.Statement (.aadd d b o ord scope ta) := by
  intro _ w h
  obtain ⟨hn, ho, hf0, hf1, hf2, hf3, hf4, hf5, hr0⟩ := shape19 0x68000000 rfl (by decide) d b o ord scope ta
  refine wordM hn (by rw [ho]) h ?_
  generalize asm _ _ = N at *
  rw [decodeM, show bits _ 24 5 = 8 from opM ho]
  simp only [zeros, hf0, hf1, hf2, hf3, hf4, hf5, hr0]; rfl

theorem F.amin (d : BitVec 6) (b : BitVec 5) (o : BitVec 6) (ord : BitVec 2) (scope : BitVec 3) (ta : Bool) : F.Statement (.amin d b o ord scope ta) := by
  intro _ w h
  obtain ⟨hn, ho, hf0, hf1, hf2, hf3, hf4, hf5, hr0⟩ := shape19 0x69000000 rfl (by decide) d b o ord scope ta
  refine wordM hn (by rw [ho]) h ?_
  generalize asm _ _ = N at *
  rw [decodeM, show bits _ 24 5 = 9 from opM ho]
  simp only [zeros, hf0, hf1, hf2, hf3, hf4, hf5, hr0]; rfl

theorem F.amax (d : BitVec 6) (b : BitVec 5) (o : BitVec 6) (ord : BitVec 2) (scope : BitVec 3) (ta : Bool) : F.Statement (.amax d b o ord scope ta) := by
  intro _ w h
  obtain ⟨hn, ho, hf0, hf1, hf2, hf3, hf4, hf5, hr0⟩ := shape19 0x6A000000 rfl (by decide) d b o ord scope ta
  refine wordM hn (by rw [ho]) h ?_
  generalize asm _ _ = N at *
  rw [decodeM, show bits _ 24 5 = 10 from opM ho]
  simp only [zeros, hf0, hf1, hf2, hf3, hf4, hf5, hr0]; rfl

theorem F.aand (d : BitVec 6) (b : BitVec 5) (o : BitVec 6) (ord : BitVec 2) (scope : BitVec 3) (ta : Bool) : F.Statement (.aand d b o ord scope ta) := by
  intro _ w h
  obtain ⟨hn, ho, hf0, hf1, hf2, hf3, hf4, hf5, hr0⟩ := shape19 0x6B000000 rfl (by decide) d b o ord scope ta
  refine wordM hn (by rw [ho]) h ?_
  generalize asm _ _ = N at *
  rw [decodeM, show bits _ 24 5 = 11 from opM ho]
  simp only [zeros, hf0, hf1, hf2, hf3, hf4, hf5, hr0]; rfl

theorem F.aor (d : BitVec 6) (b : BitVec 5) (o : BitVec 6) (ord : BitVec 2) (scope : BitVec 3) (ta : Bool) : F.Statement (.aor d b o ord scope ta) := by
  intro _ w h
  obtain ⟨hn, ho, hf0, hf1, hf2, hf3, hf4, hf5, hr0⟩ := shape19 0x6C000000 rfl (by decide) d b o ord scope ta
  refine wordM hn (by rw [ho]) h ?_
  generalize asm _ _ = N at *
  rw [decodeM, show bits _ 24 5 = 12 from opM ho]
  simp only [zeros, hf0, hf1, hf2, hf3, hf4, hf5, hr0]; rfl

theorem F.axor (d : BitVec 6) (b : BitVec 5) (o : BitVec 6) (ord : BitVec 2) (scope : BitVec 3) (ta : Bool) : F.Statement (.axor d b o ord scope ta) := by
  intro _ w h
  obtain ⟨hn, ho, hf0, hf1, hf2, hf3, hf4, hf5, hr0⟩ := shape19 0x6D000000 rfl (by decide) d b o ord scope ta
  refine wordM hn (by rw [ho]) h ?_
  generalize asm _ _ = N at *
  rw [decodeM, show bits _ 24 5 = 13 from opM ho]
  simp only [zeros, hf0, hf1, hf2, hf3, hf4, hf5, hr0]; rfl

theorem F.axch (d : BitVec 6) (b : BitVec 5) (o : BitVec 6) (ord : BitVec 2) (scope : BitVec 3) (ta : Bool) : F.Statement (.axch d b o ord scope ta) := by
  intro _ w h
  obtain ⟨hn, ho, hf0, hf1, hf2, hf3, hf4, hf5, hr0⟩ := shape19 0x6E000000 rfl (by decide) d b o ord scope ta
  refine wordM hn (by rw [ho]) h ?_
  generalize asm _ _ = N at *
  rw [decodeM, show bits _ 24 5 = 14 from opM ho]
  simp only [zeros, hf0, hf1, hf2, hf3, hf4, hf5, hr0]; rfl

theorem F.acas (d : BitVec 6) (b : BitVec 5) (o : BitVec 6) (ord : BitVec 2) (scope : BitVec 3) (ta : Bool) : F.Statement (.acas d b o ord scope ta) := by
  intro _ w h
  obtain ⟨hn, ho, hf0, hf1, hf2, hf3, hf4, hf5, hr0⟩ := shape19 0x6F000000 rfl (by decide) d b o ord scope ta
  refine wordM hn (by rw [ho]) h ?_
  generalize asm _ _ = N at *
  rw [decodeM, show bits _ 24 5 = 15 from opM ho]
  simp only [zeros, hf0, hf1, hf2, hf3, hf4, hf5, hr0]; rfl

theorem F.ared (d : BitVec 6) (b : BitVec 5) (c : BitVec 6) (ord : BitVec 2) (scope : BitVec 3) (ta : Bool) : F.Statement (.ared d b c ord scope ta) := by
  intro _ w h
  obtain ⟨hn, ho, hf0, hf1, hf2, hf3, hf4, hf5, hr0⟩ := shape19 0x70000000 rfl (by decide) d b c ord scope ta
  refine wordM hn (by rw [ho]) h ?_
  generalize asm _ _ = N at *
  rw [decodeM, show bits _ 24 5 = 16 from opM ho]
  simp only [zeros, hf0, hf1, hf2, hf3, hf4, hf5, hr0]; rfl

theorem F.fence (scope : BitVec 3) : F.Statement (.fence scope) := by
  intro _ w h
  obtain ⟨hn, ho, hf0, hr0, hr1⟩ := shape24 0x71000000 rfl (by decide) scope
  refine wordM hn (by rw [ho]) h ?_
  generalize asm _ _ = N at *
  rw [decodeM, show bits _ 24 5 = 17 from opM ho]
  simp only [zeros, hf0, hr0, hr1]; rfl

theorem F.phase (scope : BitVec 3) : F.Statement (.phase scope) := by
  intro _ w h
  obtain ⟨hn, ho, hf0, hr0, hr1⟩ := shape24 0x72000000 rfl (by decide) scope
  refine wordM hn (by rw [ho]) h ?_
  generalize asm _ _ = N at *
  rw [decodeM, show bits _ 24 5 = 18 from opM ho]
  simp only [zeros, hf0, hr0, hr1]; rfl

theorem F.pf (b : BitVec 5) (o : BitVec 6) : F.Statement (.pf b o) := by
  intro _ w h
  obtain ⟨hn, ho, hf0, hf1, hr0, hr1⟩ := shape25 0x73000000 rfl (by decide) b o
  refine wordM hn (by rw [ho]) h ?_
  generalize asm _ _ = N at *
  rw [decodeM, show bits _ 24 5 = 19 from opM ho]
  simp only [zeros, hf0, hf1, hr0, hr1]; rfl

theorem F.cwb (b : BitVec 5) (l : BitVec 5) (scope : BitVec 3) : F.Statement (.cwb b l scope) := by
  intro _ w h
  obtain ⟨hn, ho, hf0, hf1, hf2, hr0, hr1, hr2, hr3⟩ := shape26 0x74000000 rfl (by decide) b l scope
  refine wordM hn (by rw [ho]) h ?_
  generalize asm _ _ = N at *
  rw [decodeM, show bits _ 24 5 = 20 from opM ho]
  simp only [zeros, hf0, hf1, hf2, hr0, hr1, hr2, hr3]; rfl

theorem F.cinv (b : BitVec 5) (l : BitVec 5) (scope : BitVec 3) : F.Statement (.cinv b l scope) := by
  intro _ w h
  obtain ⟨hn, ho, hf0, hf1, hf2, hr0, hr1, hr2, hr3⟩ := shape26 0x75000000 rfl (by decide) b l scope
  refine wordM hn (by rw [ho]) h ?_
  generalize asm _ _ = N at *
  rw [decodeM, show bits _ 24 5 = 21 from opM ho]
  simp only [zeros, hf0, hf1, hf2, hr0, hr1, hr2, hr3]; rfl

theorem F.mwait (d : BitVec 5) (b : BitVec 5) (o : BitVec 5) (ord : BitVec 2) (scope : BitVec 3) : F.Statement (.mwait d b o ord scope) := by
  intro _ w h
  obtain ⟨hn, ho, hf0, hf1, hf2, hf3, hf4, hr0, hr1, hr2, hr3⟩ := shape27 0x76000000 rfl (by decide) d b o ord scope
  refine wordM hn (by rw [ho]) h ?_
  generalize asm _ _ = N at *
  rw [decodeM, show bits _ 24 5 = 22 from opM ho]
  simp only [zeros, hf0, hf1, hf2, hf3, hf4, hr0, hr1, hr2, hr3]; rfl

theorem F.br (inv : Bool) (p : BitVec 3) (off : BitVec 21) : F.Statement (.br inv p off) := by
  intro _ w h
  obtain ⟨hn, ho, hf0, hf1, hf2⟩ := shape28 0x80000000 rfl (by decide) inv p off
  refine wordB hn (by rw [ho]) h ?_
  generalize asm _ _ = N at *
  rw [decodeB, show bits _ 25 4 = 0 from opB ho]
  simp only [hf0, hf1, hf2]

theorem F.bru (inv : Bool) (p : BitVec 3) (off : BitVec 21) : F.Statement (.bru inv p off) := by
  intro _ w h
  obtain ⟨hn, ho, hf0, hf1, hf2⟩ := shape28 0x82000000 rfl (by decide) inv p off
  refine wordB hn (by rw [ho]) h ?_
  generalize asm _ _ = N at *
  rw [decodeB, show bits _ 25 4 = 1 from opB ho]
  simp only [hf0, hf1, hf2]

theorem F.brany (inv : Bool) (p : BitVec 3) (off : BitVec 21) : F.Statement (.brany inv p off) := by
  intro _ w h
  obtain ⟨hn, ho, hf0, hf1, hf2⟩ := shape28 0x84000000 rfl (by decide) inv p off
  refine wordB hn (by rw [ho]) h ?_
  generalize asm _ _ = N at *
  rw [decodeB, show bits _ 25 4 = 2 from opB ho]
  simp only [hf0, hf1, hf2]

theorem F.brall (inv : Bool) (p : BitVec 3) (off : BitVec 21) : F.Statement (.brall inv p off) := by
  intro _ w h
  obtain ⟨hn, ho, hf0, hf1, hf2⟩ := shape28 0x86000000 rfl (by decide) inv p off
  refine wordB hn (by rw [ho]) h ?_
  generalize asm _ _ = N at *
  rw [decodeB, show bits _ 25 4 = 3 from opB ho]
  simp only [hf0, hf1, hf2]

theorem F.jmp (off : BitVec 21) : F.Statement (.jmp off) := by
  intro _ w h
  obtain ⟨hn, ho, hf0, hr0⟩ := shape29 0x88000000 rfl (by decide) off
  refine wordB hn (by rw [ho]) h ?_
  generalize asm _ _ = N at *
  rw [decodeB, show bits _ 25 4 = 4 from opB ho]
  simp only [zeros, hf0, hr0]; rfl

theorem F.call (off : BitVec 21) : F.Statement (.call off) := by
  intro _ w h
  obtain ⟨hn, ho, hf0, hr0⟩ := shape29 0x8A000000 rfl (by decide) off
  refine wordB hn (by rw [ho]) h ?_
  generalize asm _ _ = N at *
  rw [decodeB, show bits _ 25 4 = 5 from opB ho]
  simp only [zeros, hf0, hr0]; rfl

theorem F.nop  : F.Statement .nop := by
  intro _ w h
  obtain ⟨hn, ho, hr0⟩ := shape30 0xA0000000 rfl (by decide) 
  refine wordX hn (by rw [ho]) h ?_
  generalize asm _ _ = N at *
  rw [decodeX, show bits _ 20 9 = 0 from opX ho]
  simp only [zeros, hr0]; rfl

theorem F.exit  : F.Statement .exit := by
  intro _ w h
  obtain ⟨hn, ho, hr0⟩ := shape30 0xA0100000 rfl (by decide) 
  refine wordX hn (by rw [ho]) h ?_
  generalize asm _ _ = N at *
  rw [decodeX, show bits _ 20 9 = 1 from opX ho]
  simp only [zeros, hr0]; rfl

theorem F.trap (z : BitVec 8) : F.Statement (.trap z) := by
  intro _ w h
  obtain ⟨hn, ho, hf0, hr0⟩ := shape31 0xA0200000 rfl (by decide) z
  refine wordX hn (by rw [ho]) h ?_
  generalize asm _ _ = N at *
  rw [decodeX, show bits _ 20 9 = 2 from opX ho]
  simp only [zeros, hf0, hr0]; rfl

theorem F.brk (z : BitVec 8) : F.Statement (.brk z) := by
  intro _ w h
  obtain ⟨hn, ho, hf0, hr0⟩ := shape31 0xA0300000 rfl (by decide) z
  refine wordX hn (by rw [ho]) h ?_
  generalize asm _ _ = N at *
  rw [decodeX, show bits _ 20 9 = 3 from opX ho]
  simp only [zeros, hf0, hr0]; rfl

theorem F.rti  : F.Statement .rti := by
  intro _ w h
  obtain ⟨hn, ho, hr0⟩ := shape30 0xA0400000 rfl (by decide) 
  refine wordX hn (by rw [ho]) h ?_
  generalize asm _ _ = N at *
  rw [decodeX, show bits _ 20 9 = 4 from opX ho]
  simp only [zeros, hr0]; rfl

theorem F.yield  : F.Statement .yield := by
  intro _ w h
  obtain ⟨hn, ho, hr0⟩ := shape30 0xA0500000 rfl (by decide) 
  refine wordX hn (by rw [ho]) h ?_
  generalize asm _ _ = N at *
  rw [decodeX, show bits _ 20 9 = 5 from opX ho]
  simp only [zeros, hr0]; rfl

theorem F.callr (x : BitVec 5) : F.Statement (.callr x) := by
  intro _ w h
  obtain ⟨hn, ho, hf0, hr0, hr1⟩ := shape32 0xA0800000 rfl (by decide) x
  refine wordX hn (by rw [ho]) h ?_
  generalize asm _ _ = N at *
  rw [decodeX, show bits _ 20 9 = 8 from opX ho]
  simp only [zeros, hf0, hr0, hr1]; rfl

theorem F.callv (x : BitVec 6) : F.Statement (.callv x) := by
  intro _ w h
  obtain ⟨hn, ho, hf0, hr0⟩ := shape5 0xA0900000 rfl (by decide) x
  refine wordX hn (by rw [ho]) h ?_
  generalize asm _ _ = N at *
  rw [decodeX, show bits _ 20 9 = 9 from opX ho]
  simp only [zeros, hf0, hr0]; rfl

theorem F.ret  : F.Statement .ret := by
  intro _ w h
  obtain ⟨hn, ho, hr0⟩ := shape30 0xA0A00000 rfl (by decide) 
  refine wordX hn (by rw [ho]) h ?_
  generalize asm _ _ = N at *
  rw [decodeX, show bits _ 20 9 = 10 from opX ho]
  simp only [zeros, hr0]; rfl

theorem F.cut (x : BitVec 5) (y : BitVec 5) : F.Statement (.cut x y) := by
  intro _ w h
  obtain ⟨hn, ho, hf0, hf1, hr0, hr1, hr2⟩ := shape33 0xA0B00000 rfl (by decide) x y
  refine wordX hn (by rw [ho]) h ?_
  generalize asm _ _ = N at *
  rw [decodeX, show bits _ 20 9 = 11 from opX ho]
  simp only [zeros, hf0, hf1, hr0, hr1, hr2]; rfl

theorem F.stkrd (x : BitVec 5) (y : BitVec 5) (f : BitVec 8) : F.Statement (.stkrd x y f) := by
  intro _ w h
  obtain ⟨hn, ho, hf0, hf1, hf2, hr0, hr1⟩ := shape34 0xA0C00000 rfl (by decide) x y f
  refine wordX hn (by rw [ho]) h ?_
  generalize asm _ _ = N at *
  rw [decodeX, show bits _ 20 9 = 12 from opX ho]
  simp only [zeros, hf0, hf1, hf2, hr0, hr1]; rfl

theorem F.stkwr (x : BitVec 5) (y : BitVec 5) (f : BitVec 8) : F.Statement (.stkwr x y f) := by
  intro _ w h
  obtain ⟨hn, ho, hf0, hf1, hf2, hr0, hr1⟩ := shape34 0xA0D00000 rfl (by decide) x y f
  refine wordX hn (by rw [ho]) h ?_
  generalize asm _ _ = N at *
  rw [decodeX, show bits _ 20 9 = 13 from opX ho]
  simp only [zeros, hf0, hf1, hf2, hr0, hr1]; rfl

theorem F.rgnx  : F.Statement .rgnx := by
  intro _ w h
  obtain ⟨hn, ho, hr0⟩ := shape30 0xA0E00000 rfl (by decide) 
  refine wordX hn (by rw [ho]) h ?_
  generalize asm _ _ = N at *
  rw [decodeX, show bits _ 20 9 = 14 from opX ho]
  simp only [zeros, hr0]; rfl

theorem F.sadd (x : BitVec 5) (y : BitVec 5) (z : BitVec 5) : F.Statement (.sadd x y z) := by
  intro _ w h
  obtain ⟨hn, ho, hf0, hf1, hf2, hr0, hr1, hr2⟩ := shape35 0xA1000000 rfl (by decide) x y z
  refine wordX hn (by rw [ho]) h ?_
  generalize asm _ _ = N at *
  rw [decodeX, show bits _ 20 9 = 16 from opX ho]
  simp only [zeros, hf0, hf1, hf2, hr0, hr1, hr2]; rfl

theorem F.ssub (x : BitVec 5) (y : BitVec 5) (z : BitVec 5) : F.Statement (.ssub x y z) := by
  intro _ w h
  obtain ⟨hn, ho, hf0, hf1, hf2, hr0, hr1, hr2⟩ := shape35 0xA1100000 rfl (by decide) x y z
  refine wordX hn (by rw [ho]) h ?_
  generalize asm _ _ = N at *
  rw [decodeX, show bits _ 20 9 = 17 from opX ho]
  simp only [zeros, hf0, hf1, hf2, hr0, hr1, hr2]; rfl

theorem F.smul (x : BitVec 5) (y : BitVec 5) (z : BitVec 5) : F.Statement (.smul x y z) := by
  intro _ w h
  obtain ⟨hn, ho, hf0, hf1, hf2, hr0, hr1, hr2⟩ := shape35 0xA1200000 rfl (by decide) x y z
  refine wordX hn (by rw [ho]) h ?_
  generalize asm _ _ = N at *
  rw [decodeX, show bits _ 20 9 = 18 from opX ho]
  simp only [zeros, hf0, hf1, hf2, hr0, hr1, hr2]; rfl

theorem F.sdiv (x : BitVec 5) (y : BitVec 5) (z : BitVec 5) : F.Statement (.sdiv x y z) := by
  intro _ w h
  obtain ⟨hn, ho, hf0, hf1, hf2, hr0, hr1, hr2⟩ := shape35 0xA1300000 rfl (by decide) x y z
  refine wordX hn (by rw [ho]) h ?_
  generalize asm _ _ = N at *
  rw [decodeX, show bits _ 20 9 = 19 from opX ho]
  simp only [zeros, hf0, hf1, hf2, hr0, hr1, hr2]; rfl

theorem F.sand (x : BitVec 5) (y : BitVec 5) (z : BitVec 5) : F.Statement (.sand x y z) := by
  intro _ w h
  obtain ⟨hn, ho, hf0, hf1, hf2, hr0, hr1, hr2⟩ := shape35 0xA1400000 rfl (by decide) x y z
  refine wordX hn (by rw [ho]) h ?_
  generalize asm _ _ = N at *
  rw [decodeX, show bits _ 20 9 = 20 from opX ho]
  simp only [zeros, hf0, hf1, hf2, hr0, hr1, hr2]; rfl

theorem F.sor (x : BitVec 5) (y : BitVec 5) (z : BitVec 5) : F.Statement (.sor x y z) := by
  intro _ w h
  obtain ⟨hn, ho, hf0, hf1, hf2, hr0, hr1, hr2⟩ := shape35 0xA1500000 rfl (by decide) x y z
  refine wordX hn (by rw [ho]) h ?_
  generalize asm _ _ = N at *
  rw [decodeX, show bits _ 20 9 = 21 from opX ho]
  simp only [zeros, hf0, hf1, hf2, hr0, hr1, hr2]; rfl

theorem F.sxor (x : BitVec 5) (y : BitVec 5) (z : BitVec 5) : F.Statement (.sxor x y z) := by
  intro _ w h
  obtain ⟨hn, ho, hf0, hf1, hf2, hr0, hr1, hr2⟩ := shape35 0xA1600000 rfl (by decide) x y z
  refine wordX hn (by rw [ho]) h ?_
  generalize asm _ _ = N at *
  rw [decodeX, show bits _ 20 9 = 22 from opX ho]
  simp only [zeros, hf0, hf1, hf2, hr0, hr1, hr2]; rfl

theorem F.sshl (x : BitVec 5) (y : BitVec 5) (z : BitVec 5) : F.Statement (.sshl x y z) := by
  intro _ w h
  obtain ⟨hn, ho, hf0, hf1, hf2, hr0, hr1, hr2⟩ := shape35 0xA1700000 rfl (by decide) x y z
  refine wordX hn (by rw [ho]) h ?_
  generalize asm _ _ = N at *
  rw [decodeX, show bits _ 20 9 = 23 from opX ho]
  simp only [zeros, hf0, hf1, hf2, hr0, hr1, hr2]; rfl

theorem F.sshr (x : BitVec 5) (y : BitVec 5) (z : BitVec 5) : F.Statement (.sshr x y z) := by
  intro _ w h
  obtain ⟨hn, ho, hf0, hf1, hf2, hr0, hr1, hr2⟩ := shape35 0xA1800000 rfl (by decide) x y z
  refine wordX hn (by rw [ho]) h ?_
  generalize asm _ _ = N at *
  rw [decodeX, show bits _ 20 9 = 24 from opX ho]
  simp only [zeros, hf0, hf1, hf2, hr0, hr1, hr2]; rfl

theorem F.ssra (x : BitVec 5) (y : BitVec 5) (z : BitVec 5) : F.Statement (.ssra x y z) := by
  intro _ w h
  obtain ⟨hn, ho, hf0, hf1, hf2, hr0, hr1, hr2⟩ := shape35 0xA1900000 rfl (by decide) x y z
  refine wordX hn (by rw [ho]) h ?_
  generalize asm _ _ = N at *
  rw [decodeX, show bits _ 20 9 = 25 from opX ho]
  simp only [zeros, hf0, hf1, hf2, hr0, hr1, hr2]; rfl

theorem F.smin (x : BitVec 5) (y : BitVec 5) (z : BitVec 5) : F.Statement (.smin x y z) := by
  intro _ w h
  obtain ⟨hn, ho, hf0, hf1, hf2, hr0, hr1, hr2⟩ := shape35 0xA1A00000 rfl (by decide) x y z
  refine wordX hn (by rw [ho]) h ?_
  generalize asm _ _ = N at *
  rw [decodeX, show bits _ 20 9 = 26 from opX ho]
  simp only [zeros, hf0, hf1, hf2, hr0, hr1, hr2]; rfl

theorem F.smax (x : BitVec 5) (y : BitVec 5) (z : BitVec 5) : F.Statement (.smax x y z) := by
  intro _ w h
  obtain ⟨hn, ho, hf0, hf1, hf2, hr0, hr1, hr2⟩ := shape35 0xA1B00000 rfl (by decide) x y z
  refine wordX hn (by rw [ho]) h ?_
  generalize asm _ _ = N at *
  rw [decodeX, show bits _ 20 9 = 27 from opX ho]
  simp only [zeros, hf0, hf1, hf2, hr0, hr1, hr2]; rfl

theorem F.scmp (x : BitVec 5) (y : BitVec 5) (c : BitVec 3) (z : BitVec 5) : F.Statement (.scmp x y c z) := by
  intro _ w h
  obtain ⟨hn, ho, hf0, hf1, hf2, hf3, hr0, hr1⟩ := shape36 0xA1C00000 rfl (by decide) x y c z
  refine wordX hn (by rw [ho]) h ?_
  generalize asm _ _ = N at *
  rw [decodeX, show bits _ 20 9 = 28 from opX ho]
  simp only [zeros, hf0, hf1, hf2, hf3, hr0, hr1]; rfl

theorem F.saddi (x : BitVec 5) (y : BitVec 5) (imm : BitVec 8) : F.Statement (.saddi x y imm) := by
  intro _ w h
  obtain ⟨hn, ho, hf0, hf1, hf2, hr0, hr1⟩ := shape34 0xA1D00000 rfl (by decide) x y imm
  refine wordX hn (by rw [ho]) h ?_
  generalize asm _ _ = N at *
  rw [decodeX, show bits _ 20 9 = 29 from opX ho]
  simp only [zeros, hf0, hf1, hf2, hr0, hr1]; rfl

theorem F.rdl (x : BitVec 5) (y : BitVec 6) (z : BitVec 5) : F.Statement (.rdl x y z) := by
  intro _ w h
  obtain ⟨hn, ho, hf0, hf1, hf2, hr0, hr1⟩ := shape37 0xA2000000 rfl (by decide) x y z
  refine wordX hn (by rw [ho]) h ?_
  generalize asm _ _ = N at *
  rw [decodeX, show bits _ 20 9 = 32 from opX ho]
  simp only [zeros, hf0, hf1, hf2, hr0, hr1]; rfl

theorem F.wrl (x : BitVec 6) (y : BitVec 5) (z : BitVec 5) : F.Statement (.wrl x y z) := by
  intro _ w h
  obtain ⟨hn, ho, hf0, hf1, hf2, hr0, hr1⟩ := shape38 0xA2100000 rfl (by decide) x y z
  refine wordX hn (by rw [ho]) h ?_
  generalize asm _ _ = N at *
  rw [decodeX, show bits _ 20 9 = 33 from opX ho]
  simp only [zeros, hf0, hf1, hf2, hr0, hr1]; rfl

theorem F.bar (n : BitVec 6) : F.Statement (.bar n) := by
  intro _ w h
  obtain ⟨hn, ho, hf0, hr0⟩ := shape5 0xA2800000 rfl (by decide) n
  refine wordX hn (by rw [ho]) h ?_
  generalize asm _ _ = N at *
  rw [decodeX, show bits _ 20 9 = 40 from opX ho]
  simp only [zeros, hf0, hr0]; rfl

theorem F.barar (n : BitVec 6) (y : BitVec 5) : F.Statement (.barar n y) := by
  intro _ w h
  obtain ⟨hn, ho, hf0, hf1, hr0, hr1⟩ := shape39 0xA2900000 rfl (by decide) n y
  refine wordX hn (by rw [ho]) h ?_
  generalize asm _ _ = N at *
  rw [decodeX, show bits _ 20 9 = 41 from opX ho]
  simp only [zeros, hf0, hf1, hr0, hr1]; rfl

theorem F.barwt (n : BitVec 6) (y : BitVec 5) : F.Statement (.barwt n y) := by
  intro _ w h
  obtain ⟨hn, ho, hf0, hf1, hr0, hr1⟩ := shape39 0xA2A00000 rfl (by decide) n y
  refine wordX hn (by rw [ho]) h ?_
  generalize asm _ _ = N at *
  rw [decodeX, show bits _ 20 9 = 42 from opX ho]
  simp only [zeros, hf0, hf1, hr0, hr1]; rfl

theorem F.barini (n : BitVec 6) (y : BitVec 5) : F.Statement (.barini n y) := by
  intro _ w h
  obtain ⟨hn, ho, hf0, hf1, hr0, hr1⟩ := shape39 0xA2B00000 rfl (by decide) n y
  refine wordX hn (by rw [ho]) h ?_
  generalize asm _ _ = N at *
  rw [decodeX, show bits _ 20 9 = 43 from opX ho]
  simp only [zeros, hf0, hf1, hr0, hr1]; rfl

theorem F.barexp (n : BitVec 6) (y : BitVec 5) : F.Statement (.barexp n y) := by
  intro _ w h
  obtain ⟨hn, ho, hf0, hf1, hr0, hr1⟩ := shape39 0xA2C00000 rfl (by decide) n y
  refine wordX hn (by rw [ho]) h ?_
  generalize asm _ _ = N at *
  rw [decodeX, show bits _ 20 9 = 44 from opX ho]
  simp only [zeros, hf0, hf1, hr0, hr1]; rfl

theorem F.bbar  : F.Statement .bbar := by
  intro _ w h
  obtain ⟨hn, ho, hr0⟩ := shape30 0xA2D00000 rfl (by decide) 
  refine wordX hn (by rw [ho]) h ?_
  generalize asm _ _ = N at *
  rw [decodeX, show bits _ 20 9 = 45 from opX ho]
  simp only [zeros, hr0]; rfl

theorem F.fwaitVector (x : BitVec 6) : F.Statement (.fwaitVector x) := by
  intro _ w h
  obtain ⟨hn, ho, h1, h2⟩ := shapeFwaitV x
  refine wordX hn (by rw [ho]) h ?_
  rw [decodeX, show bits _ 20 9 = 0x2E from opX ho]
  simp only [h1, h2]; rfl

theorem F.fwaitScalar (x : BitVec 5) : F.Statement (.fwaitScalar x) := by
  intro _ w h
  obtain ⟨hn, ho, h1, h2, h3⟩ := shapeFwaitS x
  refine wordX hn (by rw [ho]) h ?_
  rw [decodeX, show bits _ 20 9 = 0x2E from opX ho]
  simp only [h1, h2, h3]; rfl

theorem F.fwaitAll : F.Statement .fwaitAll := by
  intro _ w h
  obtain rfl := Option.some.inj h
  decide

theorem F.tbld (x : BitVec 5) : F.Statement (.tbld x) := by
  intro _ w h
  obtain ⟨hn, ho, hf0, hr0, hr1⟩ := shape32 0xA3000000 rfl (by decide) x
  refine wordX hn (by rw [ho]) h ?_
  generalize asm _ _ = N at *
  rw [decodeX, show bits _ 20 9 = 48 from opX ho]
  simp only [zeros, hf0, hr0, hr1]; rfl

theorem F.tbsw  : F.Statement .tbsw := by
  intro _ w h
  obtain ⟨hn, ho, hr0⟩ := shape30 0xA3100000 rfl (by decide) 
  refine wordX hn (by rw [ho]) h ?_
  generalize asm _ _ = N at *
  rw [decodeX, show bits _ 20 9 = 49 from opX ho]
  simp only [zeros, hr0]; rfl

theorem F.shpld (x : BitVec 5) (y : BitVec 5) : F.Statement (.shpld x y) := by
  intro _ w h
  obtain ⟨hn, ho, hf0, hf1, hr0, hr1, hr2⟩ := shape33 0xA3800000 rfl (by decide) x y
  refine wordX hn (by rw [ho]) h ?_
  generalize asm _ _ = N at *
  rw [decodeX, show bits _ 20 9 = 56 from opX ho]
  simp only [zeros, hf0, hf1, hr0, hr1, hr2]; rfl

theorem F.rbal (x : BitVec 6) (y : BitVec 6) (c : BitVec 5) : F.Statement (.rbal x y c) := by
  intro _ w h
  obtain ⟨hn, ho, hf0, hf1, hf2, hr0⟩ := shape40 0xA3900000 rfl (by decide) x y c
  refine wordX hn (by rw [ho]) h ?_
  generalize asm _ _ = N at *
  rw [decodeX, show bits _ 20 9 = 57 from opX ho]
  simp only [zeros, hf0, hf1, hf2, hr0]; rfl

theorem F.mlopen (x : BitVec 5) : F.Statement (.mlopen x) := by
  intro _ w h
  obtain ⟨hn, ho, hf0, hr0, hr1⟩ := shape32 0xA3A00000 rfl (by decide) x
  refine wordX hn (by rw [ho]) h ?_
  generalize asm _ _ = N at *
  rw [decodeX, show bits _ 20 9 = 58 from opX ho]
  simp only [zeros, hf0, hr0, hr1]; rfl

theorem F.mlfill (x : BitVec 6) (y : BitVec 6) (p : BitVec 3) : F.Statement (.mlfill x y p) := by
  intro _ w h
  obtain ⟨hn, ho, hf0, hf1, hf2, hr0⟩ := shape41 0xA3B00000 rfl (by decide) x y p
  refine wordX hn (by rw [ho]) h ?_
  generalize asm _ _ = N at *
  rw [decodeX, show bits _ 20 9 = 59 from opX ho]
  simp only [zeros, hf0, hf1, hf2, hr0]; rfl

theorem F.mlsave (x : BitVec 5) : F.Statement (.mlsave x) := by
  intro _ w h
  obtain ⟨hn, ho, hf0, hr0, hr1⟩ := shape32 0xA3C00000 rfl (by decide) x
  refine wordX hn (by rw [ho]) h ?_
  generalize asm _ _ = N at *
  rw [decodeX, show bits _ 20 9 = 60 from opX ho]
  simp only [zeros, hf0, hr0, hr1]; rfl

theorem F.mlrest (x : BitVec 5) : F.Statement (.mlrest x) := by
  intro _ w h
  obtain ⟨hn, ho, hf0, hr0, hr1⟩ := shape32 0xA3D00000 rfl (by decide) x
  refine wordX hn (by rw [ho]) h ?_
  generalize asm _ _ = N at *
  rw [decodeX, show bits _ 20 9 = 61 from opX ho]
  simp only [zeros, hf0, hr0, hr1]; rfl

theorem F.mlstat (x : BitVec 5) (f : BitVec 8) : F.Statement (.mlstat x f) := by
  intro _ w h
  obtain ⟨hn, ho, hf0, hf1, hr0, hr1⟩ := shape42 0xA3E00000 rfl (by decide) x f
  refine wordX hn (by rw [ho]) h ?_
  generalize asm _ _ = N at *
  rw [decodeX, show bits _ 20 9 = 62 from opX ho]
  simp only [zeros, hf0, hf1, hr0, hr1]; rfl

theorem F.mlclose  : F.Statement .mlclose := by
  intro _ w h
  obtain ⟨hn, ho, hr0⟩ := shape30 0xA3F00000 rfl (by decide) 
  refine wordX hn (by rw [ho]) h ?_
  generalize asm _ _ = N at *
  rw [decodeX, show bits _ 20 9 = 63 from opX ho]
  simp only [zeros, hr0]; rfl

theorem F.cpl (x : BitVec 5) (y : BitVec 5) : F.Statement (.cpl x y) := by
  intro _ w h
  obtain ⟨hn, ho, hf0, hf1, hr0, hr1, hr2⟩ := shape33 0xA4000000 rfl (by decide) x y
  refine wordX hn (by rw [ho]) h ?_
  generalize asm _ _ = N at *
  rw [decodeX, show bits _ 20 9 = 64 from opX ho]
  simp only [zeros, hf0, hf1, hr0, hr1, hr2]; rfl

theorem F.cpt (x : BitVec 5) (y : BitVec 5) : F.Statement (.cpt x y) := by
  intro _ w h
  obtain ⟨hn, ho, hf0, hf1, hr0, hr1, hr2⟩ := shape33 0xA4100000 rfl (by decide) x y
  refine wordX hn (by rw [ho]) h ?_
  generalize asm _ _ = N at *
  rw [decodeX, show bits _ 20 9 = 65 from opX ho]
  simp only [zeros, hf0, hf1, hr0, hr1, hr2]; rfl

theorem F.cpm (x : BitVec 5) (y : BitVec 5) : F.Statement (.cpm x y) := by
  intro _ w h
  obtain ⟨hn, ho, hf0, hf1, hr0, hr1, hr2⟩ := shape33 0xA4200000 rfl (by decide) x y
  refine wordX hn (by rw [ho]) h ?_
  generalize asm _ _ = N at *
  rw [decodeX, show bits _ 20 9 = 66 from opX ho]
  simp only [zeros, hf0, hf1, hr0, hr1, hr2]; rfl

theorem F.cpr (x : BitVec 5) (y : BitVec 5) : F.Statement (.cpr x y) := by
  intro _ w h
  obtain ⟨hn, ho, hf0, hf1, hr0, hr1, hr2⟩ := shape33 0xA4300000 rfl (by decide) x y
  refine wordX hn (by rw [ho]) h ?_
  generalize asm _ _ = N at *
  rw [decodeX, show bits _ 20 9 = 67 from opX ho]
  simp only [zeros, hf0, hf1, hr0, hr1, hr2]; rfl

theorem F.coll (x : BitVec 5) (y : BitVec 5) : F.Statement (.coll x y) := by
  intro _ w h
  obtain ⟨hn, ho, hf0, hf1, hr0, hr1, hr2⟩ := shape33 0xA4400000 rfl (by decide) x y
  refine wordX hn (by rw [ho]) h ?_
  generalize asm _ _ = N at *
  rw [decodeX, show bits _ 20 9 = 68 from opX ho]
  simp only [zeros, hf0, hf1, hr0, hr1, hr2]; rfl

theorem F.tgl (x : BitVec 5) : F.Statement (.tgl x) := by
  intro _ w h
  obtain ⟨hn, ho, hf0, hr0, hr1⟩ := shape32 0xA4500000 rfl (by decide) x
  refine wordX hn (by rw [ho]) h ?_
  generalize asm _ _ = N at *
  rw [decodeX, show bits _ 20 9 = 69 from opX ho]
  simp only [zeros, hf0, hr0, hr1]; rfl

theorem F.lnch (x : BitVec 5) (y : BitVec 5) : F.Statement (.lnch x y) := by
  intro _ w h
  obtain ⟨hn, ho, hf0, hf1, hr0, hr1, hr2⟩ := shape33 0xA4600000 rfl (by decide) x y
  refine wordX hn (by rw [ho]) h ?_
  generalize asm _ _ = N at *
  rw [decodeX, show bits _ 20 9 = 70 from opX ho]
  simp only [zeros, hf0, hf1, hr0, hr1, hr2]; rfl

theorem F.qpop (x : BitVec 5) (y : BitVec 5) : F.Statement (.qpop x y) := by
  intro _ w h
  obtain ⟨hn, ho, hf0, hf1, hr0, hr1, hr2⟩ := shape33 0xA4700000 rfl (by decide) x y
  refine wordX hn (by rw [ho]) h ?_
  generalize asm _ _ = N at *
  rw [decodeX, show bits _ 20 9 = 71 from opX ho]
  simp only [zeros, hf0, hf1, hr0, hr1, hr2]; rfl

theorem F.qapp (x : BitVec 5) (y : BitVec 5) : F.Statement (.qapp x y) := by
  intro _ w h
  obtain ⟨hn, ho, hf0, hf1, hr0, hr1, hr2⟩ := shape33 0xA4800000 rfl (by decide) x y
  refine wordX hn (by rw [ho]) h ?_
  generalize asm _ _ = N at *
  rw [decodeX, show bits _ 20 9 = 72 from opX ho]
  simp only [zeros, hf0, hf1, hr0, hr1, hr2]; rfl

theorem F.tld (a : BitVec 5) (b : BitVec 5) (s : BitVec 5) : F.Statement (.tld a b s) := by
  intro _ w h
  obtain ⟨hn, ho, hf0, hf1, hf2, hr0, hr1, hr2⟩ := shape35 0xA5000000 rfl (by decide) a b s
  refine wordX hn (by rw [ho]) h ?_
  generalize asm _ _ = N at *
  rw [decodeX, show bits _ 20 9 = 80 from opX ho]
  simp only [zeros, hf0, hf1, hf2, hr0, hr1, hr2]; rfl

theorem F.tst (a : BitVec 5) (b : BitVec 5) (s : BitVec 5) : F.Statement (.tst a b s) := by
  intro _ w h
  obtain ⟨hn, ho, hf0, hf1, hf2, hr0, hr1, hr2⟩ := shape35 0xA5100000 rfl (by decide) a b s
  refine wordX hn (by rw [ho]) h ?_
  generalize asm _ _ = N at *
  rw [decodeX, show bits _ 20 9 = 81 from opX ho]
  simp only [zeros, hf0, hf1, hf2, hr0, hr1, hr2]; rfl

theorem F.tzero (a : BitVec 5) : F.Statement (.tzero a) := by
  intro _ w h
  obtain ⟨hn, ho, hf0, hr0, hr1⟩ := shape32 0xA5200000 rfl (by decide) a
  refine wordX hn (by rw [ho]) h ?_
  generalize asm _ _ = N at *
  rw [decodeX, show bits _ 20 9 = 82 from opX ho]
  simp only [zeros, hf0, hr0, hr1]; rfl

theorem F.mma (a : BitVec 5) (b : BitVec 5) (c : BitVec 3) (v : BitVec 5) : F.Statement (.mma a b c v) := by
  intro _ w h
  obtain ⟨hn, ho, hf0, hf1, hf2, hf3, hr0, hr1⟩ := shape36 0xA5300000 rfl (by decide) a b c v
  refine wordX hn (by rw [ho]) h ?_
  generalize asm _ _ = N at *
  rw [decodeX, show bits _ 20 9 = 83 from opX ho]
  simp only [zeros, hf0, hf1, hf2, hf3, hr0, hr1]; rfl

theorem F.acz (c : BitVec 3) (v : BitVec 5) : F.Statement (.acz c v) := by
  intro _ w h
  obtain ⟨hn, ho, hf0, hf1, hr0⟩ := shape43 0xA5400000 rfl (by decide) c v
  refine wordX hn (by rw [ho]) h ?_
  generalize asm _ _ = N at *
  rw [decodeX, show bits _ 20 9 = 84 from opX ho]
  simp only [zeros, hf0, hf1, hr0]; rfl

theorem F.acrd (d : BitVec 6) (r : BitVec 5) (a : BitVec 3) : F.Statement (.acrd d r a) := by
  intro _ w h
  obtain ⟨hn, ho, hf0, hf1, hf2, hr0, hr1⟩ := shape44 0xA5500000 rfl (by decide) d r a
  refine wordX hn (by rw [ho]) h ?_
  generalize asm _ _ = N at *
  rw [decodeX, show bits _ 20 9 = 85 from opX ho]
  simp only [zeros, hf0, hf1, hf2, hr0, hr1]; rfl

theorem F.acwr (d : BitVec 6) (r : BitVec 5) (a : BitVec 3) : F.Statement (.acwr d r a) := by
  intro _ w h
  obtain ⟨hn, ho, hf0, hf1, hf2, hr0, hr1⟩ := shape44 0xA5600000 rfl (by decide) d r a
  refine wordX hn (by rw [ho]) h ?_
  generalize asm _ _ = N at *
  rw [decodeX, show bits _ 20 9 = 86 from opX ho]
  simp only [zeros, hf0, hf1, hf2, hr0, hr1]; rfl

theorem F.acst (x : BitVec 5) (a : BitVec 3) : F.Statement (.acst x a) := by
  intro _ w h
  obtain ⟨hn, ho, hf0, hf1, hr0, hr1⟩ := shape45 0xA5700000 rfl (by decide) x a
  refine wordX hn (by rw [ho]) h ?_
  generalize asm _ _ = N at *
  rw [decodeX, show bits _ 20 9 = 87 from opX ho]
  simp only [zeros, hf0, hf1, hr0, hr1]; rfl

theorem F.acver (x : BitVec 5) (a : BitVec 3) : F.Statement (.acver x a) := by
  intro _ w h
  obtain ⟨hn, ho, h1, h2, h3, h4⟩ := shapeAcver x a
  refine wordX hn (by rw [ho]) h ?_
  rw [decodeX, show bits _ 20 9 = 0x58 from opX ho]
  simp only [h1, h2, h3, h4]; rfl

theorem F.acverWait (x : BitVec 5) (y : BitVec 5) (a : BitVec 3) : F.Statement (.acverWait x y a) := by
  intro _ w h
  obtain ⟨hn, ho, h1, h2, h3, h4, h5, h6, h7⟩ := shapeAcverWait x y a
  refine wordX hn (by rw [ho]) h ?_
  rw [decodeX, show bits _ 20 9 = 0x58 from opX ho]
  have h8 : (bits (asm 0xA5800008 [(14, x.toNat), (8, y.toNat), (0, a.toNat)]) 3 11 == 0) = false := by simpa using h7
  simp only [h1, h2, h3, h4, h5, h6, h8]; rfl

theorem F.movc (y : BitVec 5) (c : BitVec 8) : F.Statement (.movc y c) := by
  intro hw w h
  refine movcWord_decodes y c.toNat c.isLt h ?_
  have hc : plainRegister c.toNat = true := hw
  rw [BitVec.ofNat_toNat, BitVec.setWidth_eq]
  exact movcOf_plain y c hc

theorem F.mvfc (x : BitVec 5) (c : BitVec 8) : F.Statement (.mvfc x c) := by
  intro _ w h
  obtain ⟨hn, ho, hf0, hf1, hr0, hr1⟩ := shape42 0xA6100000 rfl (by decide) x c
  refine wordX hn (by rw [ho]) h ?_
  generalize asm _ _ = N at *
  rw [decodeX, show bits _ 20 9 = 97 from opX ho]
  simp only [zeros, hf0, hf1, hr0, hr1]; rfl

theorem F.sys (x : BitVec 5) (y : BitVec 5) (n : BitVec 8) : F.Statement (.sys x y n) := by
  intro _ w h
  obtain ⟨hn, ho, hf0, hf1, hf2, hr0, hr1⟩ := shape34 0xA6200000 rfl (by decide) x y n
  refine wordX hn (by rw [ho]) h ?_
  generalize asm _ _ = N at *
  rw [decodeX, show bits _ 20 9 = 98 from opX ho]
  simp only [zeros, hf0, hf1, hf2, hr0, hr1]; rfl

theorem F.tlbi (y : BitVec 5) (k : BitVec 8) : F.Statement (.tlbi y k) := by
  intro _ w h
  obtain ⟨hn, ho, hf0, hf1, hr0⟩ := shape46 0xA6300000 rfl (by decide) y k
  refine wordX hn (by rw [ho]) h ?_
  generalize asm _ _ = N at *
  rw [decodeX, show bits _ 20 9 = 99 from opX ho]
  simp only [zeros, hf0, hf1, hr0]; rfl

theorem F.rdtm (x : BitVec 5) : F.Statement (.rdtm x) := by
  intro _ w h
  obtain ⟨hn, ho, hf0, hr0, hr1⟩ := shape32 0xA6400000 rfl (by decide) x
  refine wordX hn (by rw [ho]) h ?_
  generalize asm _ _ = N at *
  rw [decodeX, show bits _ 20 9 = 100 from opX ho]
  simp only [zeros, hf0, hr0, hr1]; rfl

theorem F.halt  : F.Statement .halt := by
  intro _ w h
  obtain ⟨hn, ho, hr0⟩ := shape30 0xA6500000 rfl (by decide) 
  refine wordX hn (by rw [ho]) h ?_
  generalize asm _ _ = N at *
  rw [decodeX, show bits _ 20 9 = 101 from opX ho]
  simp only [zeros, hr0]; rfl

theorem F.frrd (x : BitVec 5) (y : BitVec 5) (f : BitVec 8) : F.Statement (.frrd x y f) := by
  intro _ w h
  obtain ⟨hn, ho, hf0, hf1, hf2, hr0, hr1⟩ := shape34 0xA6600000 rfl (by decide) x y f
  refine wordX hn (by rw [ho]) h ?_
  generalize asm _ _ = N at *
  rw [decodeX, show bits _ 20 9 = 102 from opX ho]
  simp only [zeros, hf0, hf1, hf2, hr0, hr1]; rfl

theorem F.lkill (x : BitVec 5) : F.Statement (.lkill x) := by
  intro _ w h
  obtain ⟨hn, ho, hf0, hr0, hr1⟩ := shape32 0xA6700000 rfl (by decide) x
  refine wordX hn (by rw [ho]) h ?_
  generalize asm _ _ = N at *
  rw [decodeX, show bits _ 20 9 = 103 from opX ho]
  simp only [zeros, hf0, hr0, hr1]; rfl

theorem F.ctxsv (x : BitVec 5) : F.Statement (.ctxsv x) := by
  intro _ w h
  obtain ⟨hn, ho, hf0, hr0, hr1⟩ := shape32 0xA6800000 rfl (by decide) x
  refine wordX hn (by rw [ho]) h ?_
  generalize asm _ _ = N at *
  rw [decodeX, show bits _ 20 9 = 104 from opX ho]
  simp only [zeros, hf0, hr0, hr1]; rfl

theorem F.ctxld (x : BitVec 5) : F.Statement (.ctxld x) := by
  intro _ w h
  obtain ⟨hn, ho, hf0, hr0, hr1⟩ := shape32 0xA6900000 rfl (by decide) x
  refine wordX hn (by rw [ho]) h ?_
  generalize asm _ _ = N at *
  rw [decodeX, show bits _ 20 9 = 105 from opX ho]
  simp only [zeros, hf0, hr0, hr1]; rfl

theorem F.mode (ginv : Bool) (gp : BitVec 3) (ty : BitVec 4) (rnd : BitVec 3) (sat : Bool) (ret : BitVec 2) (ftz : Bool) : F.Statement (.mode ginv gp ty rnd sat ret ftz) := by
  intro _ w h
  obtain ⟨hn, ho, hf0, hf1, hf2, hf3, hf4, hf5, hf6, hr0⟩ := shape47 0xC0000000 rfl (by decide) ginv gp ty rnd sat ret ftz
  refine wordW hn (by rw [ho]) h ?_
  generalize asm _ _ = N at *
  rw [decodeW, show bits _ 26 3 = 0 from opW ho]
  simp only [zeros, hf0, hf1, hf2, hf3, hf4, hf5, hf6, hr0]; rfl

theorem F.sli (d : BitVec 5) (imm : BitVec 21) : F.Statement (.sli d imm) := by
  intro _ w h
  obtain ⟨hn, ho, hf0, hf1⟩ := shape48 0xC4000000 rfl (by decide) d imm
  refine wordW hn (by rw [ho]) h ?_
  generalize asm _ _ = N at *
  rw [decodeW, show bits _ 26 3 = 1 from opW ho]
  simp only [hf0, hf1]

theorem F.slih (d : BitVec 5) (imm : BitVec 21) : F.Statement (.slih d imm) := by
  intro _ w h
  obtain ⟨hn, ho, hf0, hf1⟩ := shape48 0xC8000000 rfl (by decide) d imm
  refine wordW hn (by rw [ho]) h ?_
  generalize asm _ _ = N at *
  rw [decodeW, show bits _ 26 3 = 2 from opW ho]
  simp only [hf0, hf1]

theorem F.slix (d : BitVec 5) (imm : BitVec 21) : F.Statement (.slix d imm) := by
  intro _ w h
  obtain ⟨hn, ho, hf0, hf1⟩ := shape48 0xCC000000 rfl (by decide) d imm
  refine wordW hn (by rw [ho]) h ?_
  generalize asm _ _ = N at *
  rw [decodeW, show bits _ 26 3 = 3 from opW ho]
  simp only [hf0, hf1]

theorem F.joinat (off : BitVec 26) : F.Statement (.joinat off) := by
  intro _ w h
  obtain ⟨hn, ho, hf0⟩ := shape49 0xD0000000 rfl (by decide) off
  refine wordW hn (by rw [ho]) h ?_
  generalize asm _ _ = N at *
  rw [decodeW, show bits _ 26 3 = 4 from opW ho]
  simp only [hf0]

theorem F.rgn  : F.Statement .rgn := by
  intro _ w h
  obtain ⟨hn, ho, hr0⟩ := shape50 0xD4000000 rfl (by decide) 
  refine wordW hn (by rw [ho]) h ?_
  generalize asm _ _ = N at *
  rw [decodeW, show bits _ 26 3 = 5 from opW ho]
  simp only [zeros, hr0]; rfl

theorem F.li (d : BitVec 6) (imm : BitVec 20) : F.Statement (.li d imm) := by
  intro _ w h
  obtain ⟨hn, ho, hf0, hf1⟩ := shape51 0xD8000000 rfl (by decide) d imm
  refine wordW hn (by rw [ho]) h ?_
  generalize asm _ _ = N at *
  rw [decodeW, show bits _ 26 3 = 6 from opW ho]
  simp only [hf0, hf1]

theorem F.avWrite (n : BitVec 3) (y : BitVec 5) : F.Statement (.avWrite n y) := by
  intro _ w h
  refine movcWord_decodes y _ (by have := n.isLt; omega) h ?_
  exact movcOf_av y n

theorem F.tsWrite (n : BitVec 5) (y : BitVec 5) : F.Statement (.tsWrite n y) := by
  intro _ w h
  refine movcWord_decodes y _ (by have := n.isLt; omega) h ?_
  exact movcOf_tile y n

theorem F.spinj (y : BitVec 5) : F.Statement (.spinj y) := by
  intro _ w h
  exact movcWord_decodes y _ (by decide) h rfl

theorem F.crate (n : BitVec 3) (y : BitVec 5) : F.Statement (.crate n y) := by
  intro _ w h
  refine movcWord_decodes y _ (by have := n.isLt; omega) h ?_
  exact movcOf_crate y n

theorem F.ptrig (y : BitVec 5) : F.Statement (.ptrig y) := by
  intro _ w h
  exact movcWord_decodes y _ (by decide) h rfl

theorem F.breakpointWrite (n : BitVec 4) (y : BitVec 5) : F.Statement (.breakpointWrite n y) := by
  intro _ w h
  refine movcWord_decodes y _ (by have := n.isLt; omega) h ?_
  exact movcOf_bp y n

theorem F.requestCollectorAdmission (core : Nat) : F.Statement (.requestCollectorAdmission core) := noWord _ rfl

theorem F.mergeTimeout (core : Nat) (idx : Nat) : F.Statement (.mergeTimeout core idx) := noWord _ rfl

theorem F.l2SliceRequest (idx : Nat) : F.Statement (.l2SliceRequest idx) := noWord _ rfl

theorem F.homeRequest (idx : Nat) : F.Statement (.homeRequest idx) := noWord _ rfl

theorem F.burstRead (idx : Nat) (crcBad : Bool) (flips : List (Nat × Nat)) : F.Statement (.burstRead idx crcBad flips) := noWord _ rfl

theorem F.writeReplay (pa : Nat) (bad : Bool) : F.Statement (.writeReplay pa bad) := noWord _ rfl

theorem F.retrain (idx : Nat) (ok : Bool) : F.Statement (.retrain idx ok) := noWord _ rfl

theorem F.blockProcedure (idx : Nat) : F.Statement (.blockProcedure idx) := noWord _ rfl

theorem F.backInvalidateResponse (idx : Nat) (words : List (Nat × Option Word)) : F.Statement (.backInvalidateResponse idx words) := noWord _ rfl

theorem F.fill (idx : Nat) : F.Statement (.fill idx) := noWord _ rfl

theorem F.publication (idx : Nat) : F.Statement (.publication idx) := noWord _ rfl

theorem F.backgroundScrub (stack : Nat) : F.Statement (.backgroundScrub stack) := noWord _ rfl

theorem F.sliceCountClear (stack : Nat) : F.Statement (.sliceCountClear stack) := noWord _ rfl

theorem F.spareIn (stack : Nat) (pc : Nat) (slice : Nat) : F.Statement (.spareIn stack pc slice) := noWord _ rfl

theorem F.spareInComplete (stack : Nat) (pc : Nat) : F.Statement (.spareInComplete stack pc) := noWord _ rfl

theorem F.hotRemoveAcknowledge (stack : Nat) (pc : Nat) (bankSet : Nat) : F.Statement (.hotRemoveAcknowledge stack pc bankSet) := noWord _ rfl

theorem F.deepRetention (stack : Nat) : F.Statement (.deepRetention stack) := noWord _ rfl

theorem F.hotAdd (stack : Nat) : F.Statement (.hotAdd stack) := noWord _ rfl

theorem F.pageWalk (core : Nat) (va : Nat) : F.Statement (.pageWalk core va) := noWord _ rfl

theorem F.messageSend (die : Nat) (idx : Nat) : F.Statement (.messageSend die idx) := noWord _ rfl

theorem F.fragmentReceive (idx : Nat) (arrival : Option (BitVec 640)) : F.Statement (.fragmentReceive idx arrival) := noWord _ rfl

theorem F.acknowledgement (idx : Nat) : F.Statement (.acknowledgement idx) := noWord _ rfl

theorem F.receiverRepairTimeout (die : Nat) (idx : Nat) : F.Statement (.receiverRepairTimeout die idx) := noWord _ rfl

theorem F.senderRepairTimeout (die : Nat) (idx : Nat) : F.Statement (.senderRepairTimeout die idx) := noWord _ rfl

theorem F.repairRequest (idx : Nat) : F.Statement (.repairRequest idx) := noWord _ rfl

theorem F.messageLoss (die : Nat) (idx : Nat) : F.Statement (.messageLoss die idx) := noWord _ rfl

theorem F.lossNotice (idx : Nat) : F.Statement (.lossNotice idx) := noWord _ rfl

theorem F.poisonNotice (idx : Nat) : F.Statement (.poisonNotice idx) := noWord _ rfl

theorem F.delayedFragment (idx : Nat) : F.Statement (.delayedFragment idx) := noWord _ rfl

theorem F.linkRemoval (die : Nat) (port : Nat) : F.Statement (.linkRemoval die port) := noWord _ rfl

theorem F.timebaseCorrection (offset : Int) : F.Statement (.timebaseCorrection offset) := noWord _ rfl

theorem F.masterLinkTimeout  : F.Statement .masterLinkTimeout := noWord _ rfl

theorem F.hostReadShared (pa : Nat) : F.Statement (.hostReadShared pa) := noWord _ rfl

theorem F.hostReadOwned (pa : Nat) : F.Statement (.hostReadOwned pa) := noWord _ rfl

theorem F.hostWriteback (pa : Nat) (words : List (Nat × Option Word)) (keep : Bool) : F.Statement (.hostWriteback pa words keep) := noWord _ rfl

theorem F.hostSnoopData (pa : Nat) : F.Statement (.hostSnoopData pa) := noWord _ rfl

theorem F.hostSnoopInvalidate (pa : Nat) : F.Statement (.hostSnoopInvalidate pa) := noWord _ rfl

theorem F.hostReadGrant (idx : Nat) (owned : Bool) (words : List (Nat × Option Word)) : F.Statement (.hostReadGrant idx owned words) := noWord _ rfl

theorem F.atsCompletion (idx : Nat) (present : Bool) (frame : Nat) (kind : Nat) : F.Statement (.atsCompletion idx present frame kind) := noWord _ rfl

theorem F.atsInvalidation (tenant : Nat) (base : Nat) (kind : Nat) : F.Statement (.atsInvalidation tenant base kind) := noWord _ rfl

theorem F.pageRequestResponse (idx : Nat) (granted : Bool) : F.Statement (.pageRequestResponse idx granted) := noWord _ rfl

theorem F.serviceReply (idx : Nat) (value : DWord) : F.Statement (.serviceReply idx value) := noWord _ rfl

theorem F.extentRelease (idx : Nat) : F.Statement (.extentRelease idx) := noWord _ rfl

theorem F.surpriseRemoval (idx : Nat) : F.Statement (.surpriseRemoval idx) := noWord _ rfl

theorem F.launchHead (die : Nat) (queue : Nat) : F.Statement (.launchHead die queue) := noWord _ rfl

theorem F.bandPlacement (die : Nat) : F.Statement (.bandPlacement die) := noWord _ rfl

theorem F.quantumExpiry (die : Nat) (queue : Nat) : F.Statement (.quantumExpiry die queue) := noWord _ rfl

theorem F.stageBalancer (launch : Nat) : F.Statement (.stageBalancer launch) := noWord _ rfl

theorem F.gangStart (launch : Nat) : F.Statement (.gangStart launch) := noWord _ rfl

theorem F.operatingPointStable (die : Nat) : F.Statement (.operatingPointStable die) := noWord _ rfl

theorem F.kernelBoundary (launch : Nat) : F.Statement (.kernelBoundary launch) := noWord _ rfl

theorem F.preEmption (band : Nat) : F.Statement (.preEmption band) := noWord _ rfl

theorem F.resumption (band : Nat) : F.Statement (.resumption band) := noWord _ rfl

theorem F.trapEntry (team : Nat) : F.Statement (.trapEntry team) := noWord _ rfl

theorem F.regionRestart (team : Nat) : F.Statement (.regionRestart team) := noWord _ rfl

theorem F.mwaitSatisfied (team : Nat) : F.Statement (.mwaitSatisfied team) := noWord _ rfl

theorem F.mwto (team : Nat) : F.Statement (.mwto team) := noWord _ rfl

theorem F.barrierWaitEnd (team : Nat) : F.Statement (.barrierWaitEnd team) := noWord _ rfl

theorem F.mmaCommand (core : Nat) : F.Statement (.mmaCommand core) := noWord _ rfl

theorem F.aczCommand (core : Nat) : F.Statement (.aczCommand core) := noWord _ rfl

theorem F.acstCommand (core : Nat) : F.Statement (.acstCommand core) := noWord _ rfl

theorem F.tableLoadComplete (core : Nat) : F.Statement (.tableLoadComplete core) := noWord _ rfl

theorem F.mlfillComplete (team : Nat) : F.Statement (.mlfillComplete team) := noWord _ rfl

theorem F.copyPacketStart (die : Nat) (queue : Nat) : F.Statement (.copyPacketStart die queue) := noWord _ rfl

theorem F.copyRead (idx : Nat) : F.Statement (.copyRead idx) := noWord _ rfl

theorem F.mergeWindowClose (die : Nat) (idx : Nat) : F.Statement (.mergeWindowClose die idx) := noWord _ rfl

theorem F.copyComplete (idx : Nat) (dest : Nat) : F.Statement (.copyComplete idx dest) := noWord _ rfl

theorem F.collectiveMatch (idx : Nat) : F.Statement (.collectiveMatch idx) := noWord _ rfl

theorem F.collectiveComplete (idx : Nat) (part : Nat) : F.Statement (.collectiveComplete idx part) := noWord _ rfl

theorem F.nodeComplete (idx : Nat) : F.Statement (.nodeComplete idx) := noWord _ rfl

theorem F.debugStep (team : Nat) : F.Statement (.debugStep team) := noWord _ rfl

theorem F.stepLane (team : Nat) (lane : Nat) : F.Statement (.stepLane team lane) := noWord _ rfl

theorem F.ptrigFire (band : Nat) : F.Statement (.ptrigFire band) := noWord _ rfl

theorem F.securityAlarm (source : Nat) : F.Statement (.securityAlarm source) := noWord _ rfl

theorem F.powerLimitStep (above : Bool) : F.Statement (.powerLimitStep above) := noWord _ rfl

theorem F.currentLimit (die : Nat) : F.Statement (.currentLimit die) := noWord _ rfl

theorem F.currentRestore (die : Nat) : F.Statement (.currentRestore die) := noWord _ rfl

theorem F.thermalLimit (die : Nat) : F.Statement (.thermalLimit die) := noWord _ rfl

theorem F.thermalShutdown  : F.Statement .thermalShutdown := noWord _ rfl

theorem F.moduleReset  : F.Statement .moduleReset := noWord _ rfl

theorem F.functionReady (bitNo : Nat) (passed : Bool) : F.Statement (.functionReady bitNo passed) := noWord _ rfl

theorem F.counterRead (unit : Nat) : F.Statement (.counterRead unit) := noWord _ rfl

theorem F.counterClear (unit : Nat) : F.Statement (.counterClear unit) := noWord _ rfl

theorem F.rasLogRead  : F.Statement .rasLogRead := noWord _ rfl

theorem F.errorRecordRead (launch : Nat) : F.Statement (.errorRecordRead launch) := noWord _ rfl

theorem F.tenantCreate (root : Nat) : F.Statement (.tenantCreate root) := noWord _ rfl

theorem F.tenantDestroy (tenant : Nat) : F.Statement (.tenantDestroy tenant) := noWord _ rfl

theorem F.fattrWrite (frame : Nat) (value : BitVec 2) : F.Statement (.fattrWrite frame value) := noWord _ rfl

theorem F.formatWindowEnable (n : Nat) : F.Statement (.formatWindowEnable n) := noWord _ rfl

theorem F.formatWindowDisable (n : Nat) : F.Statement (.formatWindowDisable n) := noWord _ rfl

theorem F.managementRegisterWrite (reg : Nat) (value : DWord) : F.Statement (.managementRegisterWrite reg value) := noWord _ rfl

theorem F.debuggerAttach (band : Nat) : F.Statement (.debuggerAttach band) := noWord _ rfl

theorem F.bandResume (band : Nat) : F.Statement (.bandResume band) := noWord _ rfl

theorem F.attestationReport (tenant : Nat) (nonce : Nat) : F.Statement (.attestationReport tenant nonce) := noWord _ rfl

theorem F.firmwareUpdate (image : Nat) : F.Statement (.firmwareUpdate image) := noWord _ rfl

theorem F.unassignedOpcode (w : Word) : F.Statement (.unassignedOpcode w) := noWord _ rfl

theorem F.instructionFetchFault (cause : BitVec 8) : F.Statement (.instructionFetchFault cause) := noWord _ rfl

theorem F.producerCompletion (team : Nat) : F.Statement (.producerCompletion team) := noWord _ rfl

theorem F.stepAbort (team : Nat) : F.Statement (.stepAbort team) := noWord _ rfl

theorem F.launchEndFromOutside (launch : Nat) : F.Statement (.launchEndFromOutside launch) := noWord _ rfl

theorem F.extentAdd (port : Nat) (range : Nat × Nat) : F.Statement (.extentAdd port range) := noWord _ rfl

end Sys2Proof.Laws
end

