-- ==== Sys2Proof/Tests/Slice0.lean ====
section
/-! SUPPORT. Tests: words of the spec and what they decode to, ill-formed terms, single steps, and for every statement with
hypotheses a concrete machine that meets them. -/

set_option Elab.async false

namespace Sys2Proof.Tests

open Sys2Proof Sys2Proof.Machine

/-! ### Decoding: the words that the spec writes out -/

/-- spec/03, R38: one word of each class but B and W. -/
theorem test_decode_classes :
    decodeWord 0x0010A001 = .ok (.add 2 true 0 false 1) ∧ decodeWord 0x30804143 = .ok (.nmad 4 false 1 false 2 true 3) ∧
    decodeWord 0x42860802 = .ok (.shli 3 1 2) ∧ decodeWord 0x630090C0 = .ok (.stVectorOffset 0 9 3 0 0 false) ∧
    decodeWord 0xA1D24108 = .ok (.saddi 9 1 8) := by decide +kernel

/-- spec/05: `cmp.lt p1, v1, v2`, `pack v6, v4, v5`, and the table instructions of R100 and R101. -/
theorem test_decode_vector :
    decodeWord 0x02044082 = .ok (.cmp 2 1 false 1 false 2) ∧ decodeWord 0x02318205 = .ok (.pack 6 false 4 false 5) ∧
    decodeWord 0xA3000000 = .ok (.tbld 0) ∧ decodeWord 0xA3020000 = .ok (.tbld 8) ∧ decodeWord 0xA3100000 = .ok .tbsw := by decide +kernel

/-- spec/06: the table of worked words of R104. -/
theorem test_decode_memory :
    decodeWord 0x64249000 = .ok (.sld 9 9 0 0) ∧ decodeWord 0x60108000 = .ok (.ldBase 4 8 0 0) ∧
    decodeWord 0x611080D8 = .ok (.ldVectorOffset 4 8 3 1 4) ∧ decodeWord 0x66008300 = .ok (.wgath 0 8 12 0 0) ∧
    decodeWord 0x6814A188 = .ok (.aadd 5 10 6 0 4 false) ∧ decodeWord 0x70108088 = .ok (.ared 4 8 2 0 4 false) ∧
    decodeWord 0x72000008 = .ok (.phase 4) ∧ decodeWord 0x7400824C = .ok (.cwb 8 9 6) ∧
    decodeWord 0x76254558 = .ok (.mwait 9 20 21 1 4) := by decide +kernel

/-- spec/08 and R38: branches forward and back, `joinat`, `jmp`, `rti`, and the words of its fault handler. -/
theorem test_decode_control :
    decodeWord 0x803FFFF8 = .ok (.br false 1 (-8)) ∧ decodeWord 0x80200004 = .ok (.br false 1 4) ∧ decodeWord 0x80FFFFF1 = .ok (.br false 7 (-15)) ∧
    decodeWord 0x88000003 = .ok (.jmp 3) ∧ decodeWord 0xD0000007 = .ok (.joinat 7) ∧ decodeWord 0xA0400000 = .ok .rti ∧
    decodeWord 0xA0000000 = .ok .nop ∧ decodeWord 0xA6645000 = .ok (.frrd 17 16 0) ∧ decodeWord 0xA6744000 = .ok (.lkill 17) := by decide +kernel

/-- R58, R60 and R61: the wide immediates. -/
theorem test_decode_wide :
    decodeWord 0xC2D65000 = .ok (.mode true 3 5 4 true 1 false) ∧ decodeWord 0xC0500000 = .ok (.mode false 1 4 0 false 0 false) ∧
    decodeWord 0xC50BCDEF = .ok (.sli 8 0x0BCDEF) ∧ decodeWord 0xC90B3C4D = .ok (.slih 8 0x0B3C4D) ∧
    decodeWord 0xCD0048D1 = .ok (.slix 8 0x48D1) ∧ decodeWord 0xD85FFFFD = .ok (.li 5 (-3)) := by decide +kernel

/-- R245: engines, queues, tiles and accumulators. -/
theorem test_decode_engines :
    decodeWord 0xA4040A00 = .ok (.cpl 16 10) ∧ decodeWord 0xA4440A00 = .ok (.coll 16 10) ∧ decodeWord 0xA4520000 = .ok (.tgl 8) ∧
    decodeWord 0xA4640900 = .ok (.lnch 16 9) ∧ decodeWord 0xA4724800 = .ok (.qpop 9 8) ∧ decodeWord 0xA4824800 = .ok (.qapp 9 8) ∧
    decodeWord 0xA5004809 = .ok (.tld 1 8 9) ∧ decodeWord 0xA5204000 = .ok (.tzero 1) ∧ decodeWord 0xA530001B = .ok (.mma 0 0 0 27) ∧
    decodeWord 0xA540005B = .ok (.acz 2 27) ∧ decodeWord 0xA5608300 = .ok (.acwr 2 3 0) ∧ decodeWord 0xA5750000 = .ok (.acst 20 0) ∧
    decodeWord 0xA5824A09 = .ok (.acverWait 9 10 1) ∧ decodeWord 0xA5824001 = .ok (.acver 9 1) := by decide +kernel

/-- R40: the word 0, a word of class 111 and a `nop` with a reserved field set stand for no instruction. -/
theorem test_decode_refuses :
    (decodeWord 0).toOption = none ∧ (decodeWord 0xE0000000).toOption = none ∧ (decodeWord 0xA0000001).toOption = none := by decide +kernel

/-- The table's numbering: a 32-bit word, and no other length. -/
theorem test_decode_table_word : decodeTableWord 32 0x88000003 = some (.jmp 3) ∧ decodeTableWord 32 0 = none := by decide +kernel

/-! ### Well-formedness: an ill-formed term for each check -/

/-- Reserved reductions, orders, scopes and register groups (R74, R106, R107, R120, R123). -/
theorem test_wf_refuses_operands :
    (Instr.tred 1 false 0 6).wf = false ∧ (Instr.tscan 1 false 0 false 6).wf = false ∧
    (Instr.ldBase 1 0 2 0).wf = false ∧ (Instr.ldVectorOffset 1 0 0 0 1).wf = false ∧ (Instr.stBase 1 0 1 0 false).wf = false ∧
    (Instr.stVectorOffset 1 0 0 2 7 false).wf = false ∧ (Instr.sld 1 0 3 0).wf = false ∧ (Instr.sst 1 0 1 4 false).wf = false ∧
    (Instr.wgath 1 0 0 1 7).wf = false ∧ (Instr.wscat 1 0 0 3 0 false).wf = false ∧ (Instr.aadd 1 0 0 0 7 false).wf = false ∧
    (Instr.amin 1 0 0 0 7 false).wf = false ∧ (Instr.amax 1 0 0 0 7 false).wf = false ∧ (Instr.aand 1 0 0 0 7 false).wf = false ∧
    (Instr.aor 1 0 0 0 7 false).wf = false ∧ (Instr.axor 1 0 0 0 7 false).wf = false ∧ (Instr.axch 1 0 0 0 7 false).wf = false ∧
    (Instr.acas 1 0 0 0 7 false).wf = false ∧ (Instr.ared 1 0 6 0 0 false).wf = false ∧ (Instr.ared 1 0 0 0 7 false).wf = false ∧
    (Instr.fence 7).wf = false ∧ (Instr.phase 7).wf = false ∧ (Instr.cwb 0 0 7).wf = false ∧ (Instr.cinv 0 0 7).wf = false ∧
    (Instr.mwait 0 0 0 0 7).wf = false := by decide +kernel

/-- Field numbers, register groups and registers that the directory lacks (R170, R206, R209, R223, R316, R323). -/
theorem test_wf_refuses_fields :
    (Instr.stkrd 1 2 38).wf = false ∧ (Instr.stkwr 1 2 3).wf = false ∧ (Instr.stkwr 1 2 36).wf = false ∧ (Instr.stkwr 1 2 38).wf = false ∧
    (Instr.shpld 26 0).wf = false ∧ (Instr.mlopen 27).wf = false ∧ (Instr.mlstat 1 4).wf = false ∧ (Instr.acst 29 0).wf = false ∧
    (Instr.movc 1 0x02).wf = false ∧ (Instr.mvfc 1 0x1E).wf = false ∧ (Instr.mvfc 1 0x60).wf = false ∧ (Instr.tlbi 1 3).wf = false ∧
    (Instr.instructionFetchFault 4).wf = false := by decide +kernel

/-- Events at units that the module does not have. -/
theorem test_wf_refuses_units :
    (Instr.requestCollectorAdmission 1152).wf = false ∧ (Instr.mergeTimeout 1152 0).wf = false ∧ (Instr.pageWalk 1152 0).wf = false ∧
    (Instr.mmaCommand 1152).wf = false ∧ (Instr.aczCommand 1152).wf = false ∧ (Instr.acstCommand 1152).wf = false ∧
    (Instr.tableLoadComplete 1152).wf = false ∧ (Instr.backgroundScrub 16).wf = false ∧ (Instr.sliceCountClear 16).wf = false ∧
    (Instr.spareIn 0 512 0).wf = false ∧ (Instr.spareInComplete 0 512).wf = false ∧ (Instr.hotRemoveAcknowledge 0 0 4).wf = false ∧
    (Instr.deepRetention 16).wf = false ∧ (Instr.hotAdd 16).wf = false ∧ (Instr.messageSend 8 0).wf = false ∧
    (Instr.receiverRepairTimeout 8 0).wf = false ∧ (Instr.senderRepairTimeout 8 0).wf = false ∧ (Instr.messageLoss 8 0).wf = false ∧
    (Instr.linkRemoval 0 0).wf = false ∧ (Instr.launchHead 0 64).wf = false ∧ (Instr.bandPlacement 8).wf = false ∧
    (Instr.quantumExpiry 8 0).wf = false ∧ (Instr.operatingPointStable 8).wf = false ∧ (Instr.copyPacketStart 8 0).wf = false ∧
    (Instr.mergeWindowClose 8 0).wf = false ∧ (Instr.stepLane 0 1024).wf = false ∧ (Instr.securityAlarm 3).wf = false ∧
    (Instr.currentLimit 8).wf = false ∧ (Instr.currentRestore 8).wf = false ∧ (Instr.thermalLimit 8).wf = false ∧
    (Instr.functionReady 30 true).wf = false ∧ (Instr.tenantDestroy 16).wf = false ∧ (Instr.fattrWrite 0 2).wf = false ∧
    (Instr.formatWindowEnable 16).wf = false ∧ (Instr.formatWindowDisable 16).wf = false ∧ (Instr.attestationReport 16 0).wf = false ∧
    (Instr.extentAdd 12 (0x80000000000, 0x10000000)).wf = false ∧ (Instr.extentAdd 0 (0x80000000000, 0)).wf = false ∧
    (Instr.extentAdd 0 (1, 0x10000000)).wf = false := by decide +kernel
/-- spec/09: worked words of control flow. -/
theorem test_decode_calls :
    decodeWord 0x83400002 = .ok (.bru true 2 2) ∧ decodeWord 0x8A000010 = .ok (.call 16) ∧ decodeWord 0xA0830000 = .ok (.callr 12) ∧
    decodeWord 0xA0920000 = .ok (.callv 8) ∧ decodeWord 0xA0B30D00 = .ok (.cut 12 13) ∧ decodeWord 0xA0C24A02 = .ok (.stkrd 9 10 2) ∧
    decodeWord 0xA0200007 = .ok (.trap 7) ∧ decodeWord 0xA0E00000 = .ok .rgnx := by decide +kernel

/-- spec/11, spec/12 and spec/16: worked words of the lanes, the Mill and the barriers of memory. -/
theorem test_decode_lanes :
    decodeWord 0x06110101 = .ok (.shfd 4 false 2 1) ∧ decodeWord 0x06210101 = .ok (.shfx 4 false 2 1) ∧ decodeWord 0x06324580 = .ok (.vany 9 true 3) ∧
    decodeWord 0x06518080 = .ok (.vbal 6 false 1) ∧ decodeWord 0x06628700 = .ok (.tred 10 false 14 0) ∧ decodeWord 0x0673C708 = .ok (.tscan 15 false 14 true 0) ∧
    decodeWord 0x06920094 = .ok (.tix 8 false 1 20) ∧ decodeWord 0x0683C710 = .ok (.segred 15 false 14 false 16) ∧ decodeWord 0x0603048B = .ok (.shfi 12 false 9 false 11) ∧
    decodeWord 0xA3908412 = .ok (.rbal 2 4 18) ∧ decodeWord 0xA3A50000 = .ok (.mlopen 20) ∧ decodeWord 0xA3B28B03 = .ok (.mlfill 10 11 3) ∧
    decodeWord 0xA3E0C003 = .ok (.mlstat 3 3) ∧ decodeWord 0xA3F00000 = .ok .mlclose ∧ decodeWord 0x71000008 = .ok (.fence 4) := by decide +kernel

/-- R316: worked words of the system instructions; `movc SPINJ` has a row of its own. -/
theorem test_decode_system :
    decodeWord 0xA6001404 = .ok (.movc 20 4) ∧ decodeWord 0xA6148007 = .ok (.mvfc 18 7) ∧ decodeWord 0xA6224A05 = .ok (.sys 9 10 5) ∧
    decodeWord 0xA6300801 = .ok (.tlbi 8 1) ∧ decodeWord 0xA6424000 = .ok (.rdtm 9) ∧ decodeWord 0xA6500000 = .ok .halt ∧
    decodeWord 0xA6820000 = .ok (.ctxsv 8) ∧ decodeWord 0xA6920000 = .ok (.ctxld 8) ∧ decodeWord 0xA6000E1C = .ok (.spinj 14) := by decide +kernel
/-! ### Machines for the tests

`team` has 64 vector registers and four live lanes of one row, under MODE 0: TYPE i32, no guard. `machine t` gives the turn to `t`,
the one team of crew 0 of band 0 on core 0, with 32 KiB of scratchpad and one page mapped. -/

def team : Team := { vregs := 64, mask := 15, live := 15 }
def crew : Crew := { teams := 1, tiles := 2, accs := 2, bars := 4, padBytes := 0x8000 }
def band : Band := { crews := 1, cores := [0], liveTeams := 1, bneed := 1 }
def page : Trans := { w := true, x := true }
def machine (t : Team) : State :=
  { teams := [(0, t)], crews := [(0, crew)], bands := [(0, band)], cores := [(0, { tlb := [page] })], cur := some 0 }

/-- MODE with a TYPE. -/
def typed (n : Nat) : Word := BitVec.ofNat 32 (n * 2 ^ 18)
/-- The first byte of the scratchpad aperture (R105). -/
def pad0 : DWord := 0xFFFFFFFFFFC00000

/-! ### Machines that meet the statements' hypotheses: vector and scalar instructions -/

theorem test_meets_lane_operations : ∃ o ty e, laneOp (.add 63 false 0 false 1) = some o ∧ Runs (machine team) 0 team ∧ Quiet (machine team) team ∧
    team.typed o.classes o.bits = some (ty, e) ∧ team.okV ty.wide o.d = true ∧ (∀ r ∈ o.srcs, team.okV ty.wide r.1 = true) ∧
    FullV team (o.regs ty.wide) ∧ (∀ L ∈ laneList team team.present, dividesByZero (.add 63 false 0 false 1) team ty L = false) ∧
    ∀ L ∈ laneList team team.present, (o.f ty e L (o.operands team ty.wide L)).2 &&& team.fpte.setWidth 5 = 0 := by
  refine ⟨_, _, _, rfl, ?_, ?_, rfl, ?_⟩ <;> decide +kernel

/-- A lane of v1 is zero: the vector division's clause; s2 is zero: the scalar one's. -/
theorem test_meets_division_by_zero : ∃ ty e, Runs (machine team) 0 team ∧ Quiet (machine team) team ∧ team.typed [.I] false = some (ty, e) ∧
    (team.okV ty.wide 3 = true ∧ team.okV ty.wide 0 = true ∧ team.okV ty.wide 1 = true) ∧
    FullV team (pair ty.wide 0 ++ pair ty.wide 1 ++ pair ty.wide 3) ∧ (∃ L ∈ laneList team team.present, team.rw ty.wide 1 L = 0) ∧
    team.typeCode ≤ 12 ∧ FullS team [3, 1, 2] ∧ team.rs 2 = 0 := by
  refine ⟨_, _, ?_, ?_, rfl, ?_⟩ <;> decide +kernel

theorem test_meets_integer_values : (NumEnv.mk .rn false false).sat = false ∧ (NumEnv.mk .rn true false).sat = true ∧ 0 < 1 := by decide

/-- `rdl` of lane 3 to s9 and to s0, and of a lane past the team; `wrl` to lane 3. -/
def laneTeam : Team := { team with s := [(4, 3), (5, 32)] }
theorem test_meets_lane_transfers : Runs (machine laneTeam) 0 laneTeam ∧ Quiet (machine laneTeam) laneTeam ∧ laneTeam.wideType = some false ∧
    laneTeam.okV false 1 = true ∧ FullV laneTeam (pair false 1) ∧ FullS laneTeam [9, 4] ∧ FullS laneTeam [0, 5] ∧
    Ty.ofCode laneTeam.typeCode = some ⟨.int true 32, 1, .I⟩ ∧ (laneTeam.rs 4).toNat < laneTeam.lanes ∧ laneTeam.lanes ≤ (laneTeam.rs 5).toNat ∧
    (9 : BitVec 5) ≠ 0 := by decide +kernel

/-- Every clause of the moves, at the highest register and under a wide type as well. -/
def wideTeam : Team := { team with mode := typed 2 }
theorem test_meets_moves : Runs (machine team) 0 team ∧ Quiet (machine team) team ∧ team.okV false 63 = true ∧ FullV team [63] ∧
    team.wideType = some false ∧ FullV team (pair false 0 ++ [1] ++ pair false 63) ∧ FullS team [31] ∧
    Runs (machine wideTeam) 0 wideTeam ∧ Quiet (machine wideTeam) wideTeam ∧ wideTeam.wideType = some true ∧ wideTeam.okV true 62 = true ∧
    wideTeam.okV false 61 = true ∧ FullV wideTeam (pair true 0 ++ [61] ++ pair true 62) := by decide +kernel

/-- Two scalar operations with a divisor that is not zero, and the constants. -/
def divTeam : Team := { team with s := [(1, 7), (2, 2)] }
theorem test_meets_scalar_operations : (∃ f, scalarOp (.sdiv 31 1 2) = some (31, 1, 2, f)) ∧ Runs (machine divTeam) 0 divTeam ∧ Quiet (machine divTeam) divTeam ∧
    divTeam.typeCode ≤ 12 ∧ FullS divTeam [31, 1, 2] ∧ divTeam.rs 2 ≠ 0 ∧ FullS divTeam [0] ∧ 5 < (6 : BitVec 3).toNat := by
  refine ⟨⟨_, rfl⟩, ?_⟩; decide +kernel

theorem test_meets_register_zero : (1 : Nat) ≠ 0 ∧ (0 : Nat) ≠ 1 := by decide

/-- `cmp.lt p1, v1, v2` and `cmpi` under i32. -/
theorem test_meets_compares : ∃ ty e, Runs (machine team) 0 team ∧ Quiet (machine team) team ∧ team.typed arithClasses false = some (ty, e) ∧
    team.okV ty.wide 1 = true ∧ FullV team (pair ty.wide 1) ∧ team.okV ty.wide 2 = true ∧ FullV team (pair ty.wide 2) ∧
    (∀ L ∈ laneList team team.present, laneCondFlags 2 ty e (team.rw ty.wide 1 L) (team.rw ty.wide 2 L) &&& team.fpte.setWidth 5 = 0) ∧
    ∀ L ∈ laneList team team.present, laneCondFlags 2 ty e (team.rw ty.wide 1 L) (ty.build fun _ => (immElem ty.elem e 5, 0)).1 &&& team.fpte.setWidth 5 = 0 := by
  refine ⟨_, _, ?_, ?_, rfl, ?_⟩ <;> decide +kernel

/-- `cvt.i32.bf16x2` part 1, which narrows; `cvt.bf16x2.i32` part 0, which widens; `unpk` under bf16x2. -/
def packTeam : Team := { team with mode := typed 6 }
theorem test_meets_conversions :
    (∃ dt st e, Runs (machine team) 0 team ∧ Quiet (machine team) team ∧ Ty.ofCode team.typeCode = some dt ∧ Ty.ofCode 6 = some st ∧ team.env = some e ∧
      team.okV dt.wide 63 = true ∧ team.okV st.wide 0 = true ∧ FullV team (pair st.wide 0 ++ pair dt.wide 63) ∧
      1 < max 1 (max (st.count / dt.count) (dt.count / st.count)) ∧
      ∀ L ∈ laneList team team.present, (dt.build fun j => convert e st.elem dt.elem (st.get (team.rw st.wide 0 L) (1 * dt.count + j))).2 &&&
        team.fpte.setWidth 5 = 0) ∧
    (∃ ty e, Runs (machine packTeam) 0 packTeam ∧ Quiet (machine packTeam) packTeam ∧ packTeam.typed [.PI, .PF, .F8] false = some (ty, e) ∧
      packTeam.okV true 62 = true ∧ packTeam.okV false 0 = true ∧ FullV packTeam ([0] ++ pair true 62) ∧
      ∀ L ∈ laneList packTeam packTeam.present, ((partner ty).build fun i => convert e ty.elem (partner ty).elem
        (ty.get (packTeam.rv 0 L).toNat ((partner ty).count + i))).2 &&& packTeam.fpte.setWidth 5 = 0) := by
  refine ⟨⟨_, _, _, ?_, ?_, rfl, rfl, rfl, ?_⟩, _, _, ?_, ?_, rfl, ?_⟩ <;> decide +kernel

/-- `tred` with add and with min under i32. -/
theorem test_meets_reductions : ∃ ty e, Runs (machine team) 0 team ∧ Quiet (machine team) team ∧ team.redType 1 = some (ty, e) ∧
    team.okV ty.wide 63 = true ∧ FullV team (pair ty.wide 63) ∧ FullS team [31] ∧
    ((reduceLanes 1 ty.elem e team (laneList team team.present) fun L => team.rw ty.wide 63 L).getD (identityOf 1 ty.elem, 0)).2 &&& team.fpte.setWidth 5 = 0 ∧
    team.typeCode = 0 ∧ team.sat = false := by
  refine ⟨_, _, ?_, ?_, rfl, ?_⟩ <;> decide +kernel

/-- `tscan` with the integer add and with min, and `segred`, under i32. -/
theorem test_meets_scans : ∃ ty e, Runs (machine team) 0 team ∧ Quiet (machine team) team ∧ team.redType 0 = some (ty, e) ∧ ty.elem = .int true 32 ∧
    team.redType 1 = some (ty, e) ∧ (∀ r ∈ scanLanes (combine 1 ty.elem e) (fun L => team.rw ty.wide 1 L) none (laneList team team.present),
      r.2.2.2 &&& team.fpte.setWidth 5 = 0) ∧
    team.typed [.I, .F] false = some (ty, e) ∧ team.okV ty.wide 63 = true ∧ team.okV ty.wide 1 = true ∧ team.okV false 2 = true ∧
    FullV team (pair ty.wide 1 ++ [2] ++ pair ty.wide 63) ∧
    ∀ r ∈ segLanes ty e (team.scarry.toNat % 2 ^ ty.lanes) (fun L => team.rw ty.wide 1 L) (fun L => team.rv 2 L != 0) (laneList team team.present),
      r.2.2.2 &&& team.fpte.setWidth 5 = 0 := by
  refine ⟨_, _, ?_, ?_, rfl, rfl, rfl, ?_, rfl, ?_⟩ <;> decide +kernel

/-- `tix` with N = 5, N = 6 and N = 0. -/
def splitTeam (n : DWord) : Team := { team with s := [(25, n)] }
theorem test_meets_index_split : Runs (machine (splitTeam 5)) 0 (splitTeam 5) ∧ Quiet (machine (splitTeam 5)) (splitTeam 5) ∧
    (splitTeam 5).okV false 59 = true ∧ FullV (splitTeam 5) [0] ∧ FullS (splitTeam 5) (span 25 7) ∧
    ((splitTeam 5).rs 25).toNat % 256 = 5 ∧ 59 + 5 - 1 < (splitTeam 5).vregs ∧ FullV (splitTeam 5) (span 59 5) ∧
    5 < ((splitTeam 6).rs 25).toNat % 256 ∧ ((splitTeam 0).rs 25).toNat % 256 = 0 := by decide +kernel

/-- `sqrt` and `tbev` under f32, with lanes present and with none. -/
def floatTeam : Team := { team with mode := typed 4 }
def noLanes : Team := { floatTeam with mask := 0 }
theorem test_meets_special_functions : (∃ fn, specOf (.sqrt 63 false 0) = some (63, 0, fn, true)) ∧
    Runs (machine floatTeam) 0 floatTeam ∧ Quiet (machine floatTeam) floatTeam ∧
    floatTeam.typed [.F, .PF] false = some (⟨.flt f32, 1, .F⟩, ⟨.rn, false, false⟩) ∧
    floatTeam.okV false 63 = true ∧ floatTeam.okV false 0 = true ∧ FullV floatTeam (pair false 0 ++ pair false 63) ∧
    (∀ L ∈ laneList floatTeam floatTeam.present, (Ty.build ⟨.flt f32, 1, .F⟩ fun i =>
      let y := tableValue {} 0 (f32.operand false ((Ty.get ⟨.flt f32, 1, .F⟩) (floatTeam.rv 0 L).toNat i))
      ((f32.round tableEnv y.exact).1, 0)).2 &&& floatTeam.fpte.setWidth 5 = 0) ∧
    (coreOf (machine floatTeam) 0).tabSwap = none ∧ laneList floatTeam floatTeam.present ≠ [] ∧ laneList noLanes noLanes.present = [] := by
  refine ⟨⟨_, rfl⟩, ?_⟩; decide +kernel
/-- With no trap enabled a special function raises no enabled flag, whatever free value is drawn. -/
theorem test_meets_special_flags (x : Flags) : x &&& floatTeam.fpte.setWidth 5 = 0 := by simp [floatTeam, team]

/-- A producer of team 0 with a lane and a scalar to write. -/
def wroteLane : Producer := { team := 0, lanes := [(1024 * 3 + 1, 7)], vregs := [3], sregs := [(9, 5)] }
theorem test_meets_producer_completion : ({ machine team with producers := [wroteLane] } : State).teams.lookup 0 = some team ∧
    (({ machine team with producers := [wroteLane] } : State).producers.find? fun q => q.team == 0) = some wroteLane ∧
    wroteLane.sregs = [(9, 5)] ∧ wroteLane.lanes.Pairwise (fun a b => a.1 ≠ b.1) ∧ (1024 * 3 + 1, (7 : Word)) ∈ wroteLane.lanes := by decide +kernel
/-! ### Memory instructions -/

/-- s8 points at the scratchpad, s9 at the mapped page, s12 holds a pattern of two lanes. -/
def memTeam : Team := { team with s := [(8, pad0), (9, 0x1000), (12, 0x0000000100000002)] }
def loadOf (t : Team) (i : Instr) : MemUse := (loadUse t i).getD { ord := 0, scope := 0, width := 4, addrs := [], vs := [], ss := [] }
def storeOf (t : Team) (i : Instr) : MemUse := (storeUse t i).getD { ord := 0, scope := 0, width := 4, addrs := [], vs := [], ss := [] }
/-- The machine of `memTeam`, with 7 in word 0 of the scratchpad. -/
def padMachine (t : Team) : State := { machine t with crews := [(0, { crew with pad := [(0, 7)] })] }

/-- A load from the scratchpad, and one of each form from the mapped page. -/
theorem test_meets_loads : Runs (padMachine memTeam) 0 memTeam ∧ Quiet (padMachine memTeam) memTeam ∧ Free memTeam ∧ Unwatched (padMachine memTeam) 0 ∧
    (padMachine memTeam).loads = [] ∧
    (∀ i ∈ [Instr.ldBase 63 8 0 0, .ldVectorOffset 63 8 0 0 0, .sld 31 8 0 0, .wgath 63 8 12 0 0],
      loadUse memTeam i = some (loadOf memTeam i) ∧ plainOrder 1 (loadOf memTeam i).ord (loadOf memTeam i).scope = true ∧
        FullV memTeam (loadOf memTeam i).vs ∧ FullS memTeam (loadOf memTeam i).ss ∧
        ∀ x ∈ (loadOf memTeam i).addrs, checkAddr (padMachine memTeam) 0 0 (loadOf memTeam i).width x.2 .read =
          .go (.pad 0 ((x.2 - pad0).toNat))) := by
  refine ⟨?_, ?_, ?_, ?_, ?_, ?_⟩
  case refine_6 => intro i hi; simp only [List.mem_cons, List.mem_nil_iff, or_false] at hi; rcases hi with rfl | rfl | rfl | rfl <;>
                     exact ⟨rfl, by decide +kernel, by decide +kernel, by decide +kernel, by decide +kernel⟩
  all_goals decide +kernel

/-- A plain load of four lanes whose words lie in memory. -/
theorem test_meets_load_issue : (0 < 1) ∧ ([(0, pad0, Place.mem 0x1000 0 false)] ≠ []) ∧
    (∀ x ∈ [(0, pad0, Place.mem 0x1000 0 false)], x.2.2 = .mem 0x1000 0 false) ∧ (∀ o ∈ (machine memTeam).loads, ∃ w ∈ o.words, w.isHere = false) ∧
    checkAddr (machine memTeam) 0 0 4 0x1000 .read = .go (.mem 0x1000 0 false) := by decide +kernel

theorem test_meets_stores :
    (∀ i ∈ [Instr.stBase 63 8 0 0 false, .stVectorOffset 63 8 0 0 0 true, .sst 31 8 0 0 false, .wscat 63 8 12 0 0 false],
      storeUse memTeam i = some (storeOf memTeam i) ∧ (storeOf memTeam i).ord = 0 ∧ (storeOf memTeam i).scope = 0 ∧
        FullV memTeam (storeOf memTeam i).vs ∧ FullS memTeam (storeOf memTeam i).ss ∧
        ∀ x ∈ (storeOf memTeam i).addrs, checkAddr (padMachine memTeam) 0 0 (storeOf memTeam i).width x.2 .write =
          .go (.pad 0 ((x.2 - pad0).toNat))) ∧
    ∀ o ∈ (padMachine memTeam).loads, o.team ≠ 0 := by
  refine ⟨?_, by decide +kernel⟩
  intro i hi; simp only [List.mem_cons, List.mem_nil_iff, or_false] at hi; rcases hi with rfl | rfl | rfl | rfl <;>
    exact ⟨rfl, rfl, rfl, by decide +kernel, by decide +kernel, by decide +kernel⟩

/-- An L1 with room, and one that holds the superblock. -/
theorem test_meets_stored_words : (setOf .l1 (l1Of (machine memTeam) 0) (Level.set .l1 (0x1000 / 256))).length < 16 ∧
    (blk [((0x1000 / 256 : Nat), ({} : Blk))] (0x1000 / 256)).isSome = true ∧ (1 : Nat) ≠ 0 ∧ (0x1004 / 4 : Nat) ≠ 0x1000 / 4 := by decide +kernel

/-- One present lane on the scratchpad's first word, under u32; `acas` takes v62 and v63. -/
def atomTeam : Team := { team with mode := typed 1, mask := 1, live := 1, s := [(8, pad0)] }
theorem test_meets_atomics : ∃ el e, Runs (padMachine atomTeam) 0 atomTeam ∧ Quiet (padMachine atomTeam) atomTeam ∧ Free atomTeam ∧
    Unwatched (padMachine atomTeam) 0 ∧ atomOf (.acas 62 8 0 0 4 false) = some (7, 62, 8, 0, 0, 4) ∧ atomOf (.aadd 62 8 0 0 4 false) = some (0, 62, 8, 0, 0, 4) ∧
    atomElem atomTeam.mode 0 = some (el, e) ∧ atomElem atomTeam.mode 7 = some (el, e) ∧ el.width = 32 ∧
    (releases 0 = false ∧ acquires 0 = false ∧ (4 : BitVec 3) ≠ 7 ∧ atomTeam.okV false 62 = true ∧ atomTeam.okV false 0 = true ∧ 62 + 2 ≤ atomTeam.vregs) ∧
    FullV atomTeam [62, 0, 63] ∧ FullS atomTeam [8] ∧ (padMachine atomTeam).loads = [] ∧ laneList atomTeam atomTeam.present = [0] ∧
    checkAddr (padMachine atomTeam) 0 0 4 (atomTeam.rs 8 + (atomTeam.rv 0 0).signExtend 64) .write = .go (.pad 0 0) ∧
    PadGood (padMachine atomTeam) 0 0 ∧ look 0 (crewOf (padMachine atomTeam) 0).pad 0 = 7 ∧
    bits atomTeam.mode.toNat 18 4 = 1 ∧ bit atomTeam.mode.toNat 14 = false := by
  refine ⟨_, _, ?_, ?_, ?_, ?_, rfl, rfl, rfl, rfl, ?_⟩ <;> decide +kernel

/-- Four lanes of a u64 atomic, acquiring and releasing, on two cells of the scratchpad; the same team at a memory word of its home. -/
def wideAtoms : Team := { team with mode := typed 3, s := [(8, pad0), (9, 0x1000)], v := [(2, 8), (3, 8)] }
theorem test_meets_wide_atomics : (∃ el e, AtomMay (padMachine wideAtoms) 0 wideAtoms 7 3 4 el (pair true 60 ++ [0] ++ pair true 62) 8 ∧
      AtomMay (machine wideAtoms) 0 wideAtoms 0 3 4 el (pair true 62 ++ [0]) 9 ∧ atomElem wideAtoms.mode 0 = some (el, e) ∧ (el.width == 64) = true) ∧
    wideAtoms.okV true 62 = true ∧ wideAtoms.okV false 0 = true ∧ 60 + 2 * 2 ≤ wideAtoms.vregs ∧ 60 % 4 = 0 ∧ laneList wideAtoms wideAtoms.present = [0, 1, 2, 3] ∧
    (∀ L < 4, checkAddr (padMachine wideAtoms) 0 0 8 (wideAtoms.rs 8 + (wideAtoms.rv 0 L).signExtend 64) .write = .go (.pad 0 (8 * (L / 2))) ∧
      8 * (L / 2) % 8 = 0 ∧ PadGood (padMachine wideAtoms) 0 (8 * (L / 2) / 4) ∧ PadGood (padMachine wideAtoms) 0 (8 * (L / 2) / 4 + 1) ∧
      checkAddr (machine wideAtoms) 0 0 8 (wideAtoms.rs 9 + (wideAtoms.rv 0 L).signExtend 64) .write = .go (.mem (0x1000 + 8 * (L / 2)) 0 false) ∧
      wordBusy (machine wideAtoms) 0 (0x1000 + 8 * (L / 2)) = false ∧ wordBusy (machine wideAtoms) 0 (0x1000 + 8 * (L / 2) + 4) = false) ∧
    pointOf 4 = .home ∧ collectorRoom (machine wideAtoms) 0 [0, 1, 2, 3] = true := by
  refine ⟨⟨_, _, ⟨?_, ?_, ?_, ?_, ?_, ⟨_, rfl⟩, ?_, ?_, ?_, fun _ => ?_⟩, ⟨?_, ?_, ?_, ?_, ?_, ⟨_, rfl⟩, ?_, ?_, ?_, fun _ => ?_⟩, rfl, ?_⟩, ?_⟩ <;> decide +kernel
/-- An atomic of one lane whose word the L1 holds, and one whose word only the die's L2 holds. -/
def heldAtoms (l1 l2 : NMap Blk) : State := { setL1 (machine { atomTeam with s := [(8, 0x1000)] }) 0 l1 with l2 := [(0, l2)] }
def heldBlk : NMap Blk := [(16, { valid := 1, words := [(0, 5)] })]
theorem test_meets_held_atomics : let t : Team := { atomTeam with s := [(8, 0x1000)] }
    (∀ s ∈ [heldAtoms heldBlk [], heldAtoms [] heldBlk], Runs s 0 t ∧ Quiet s t ∧ Unwatched s 0 ∧ s.loads = [] ∧ s.pubs = [] ∧ wordBusy s 0 0x1000 = false ∧
      checkAddr s 0 0 4 (t.rs 8 + (t.rv 0 0).signExtend 64) .write = .go (.mem 0x1000 0 false)) ∧
    pointOf 1 = .l1 ∧ held (l1Of (heldAtoms heldBlk []) 0) 0x1000 = some (.ok 5) ∧ sound (l1Of (heldAtoms heldBlk []) 0) 0x1000 = true ∧
    pointOf 2 = .l2 ∧ (blk (l1Of (heldAtoms [] heldBlk) 0) (0x1000 / 256)).isNone = true ∧ held (l2Of (heldAtoms [] heldBlk) 0) 0x1000 = some (.ok 5) ∧
    sound (l2Of (heldAtoms [] heldBlk) 0) 0x1000 = true ∧ acquires 2 = false := by decide +kernel
/-- `ared` of four lanes under u64, acquiring and releasing, on the scratchpad and on memory. -/
theorem test_meets_wide_ared : (∃ el e, AtomMay (padMachine wideAtoms) 0 wideAtoms 5 3 4 el (pair true 62) 8 ∧
      AtomMay (machine wideAtoms) 0 wideAtoms 5 3 4 el (pair true 62) 9 ∧ atomElem wideAtoms.mode 5 = some (el, e)) ∧ 5 ≤ 5 ∧
    checkAddr (padMachine wideAtoms) 0 0 8 (wideAtoms.rs 8) .write = .go (.pad 0 0) ∧ laneList wideAtoms wideAtoms.present ≠ [] ∧
    checkAddr (machine wideAtoms) 0 0 8 (wideAtoms.rs 9) .write = .go (.mem 0x1000 0 false) ∧ collectorRoom (machine wideAtoms) 0 [0] = true := by
  refine ⟨⟨_, _, ⟨?_, ?_, ?_, ?_, ?_, ⟨_, rfl⟩, ?_, ?_, ?_, fun _ => ?_⟩, ⟨?_, ?_, ?_, ?_, ?_, ⟨_, rfl⟩, ?_, ?_, ?_, fun _ => ?_⟩, rfl⟩, ?_⟩ <;> decide +kernel

theorem test_meets_ared : Runs (padMachine atomTeam) 0 atomTeam ∧ Quiet (padMachine atomTeam) atomTeam ∧ Free atomTeam ∧ atomTeam.typeCode = 1 ∧
    atomTeam.sat = false ∧ atomTeam.okV false 63 = true ∧ FullV atomTeam [63] ∧ FullS atomTeam [8] ∧
    checkAddr (padMachine atomTeam) 0 0 4 (atomTeam.rs 8) .write = .go (.pad 0 0) ∧
    PadGood (padMachine atomTeam) 0 0 ∧ look 0 (crewOf (padMachine atomTeam) 0).pad 0 = 7 := by decide +kernel

/-- Nothing to publish; a fault held by v3, outside a handler. -/
def faultTeam : Team := { team with vFault := [(3, { regs := [3], recs := [record 0 8 0x1000] })] }
theorem test_meets_fences : Runs (machine team) 0 team ∧ Free team ∧ Published (machine team) 0 team ∧ (6 : BitVec 3) ≠ 7 ∧ team.heldFault = none ∧
    Runs (machine faultTeam) 0 faultTeam ∧ Free faultTeam ∧ faultTeam.inh = false ∧
    faultTeam.vFault = (3, { regs := [3], recs := [record 0 8 0x1000] }) :: [] := by decide +kernel

/-- `pf`, and `cwb` and `cinv` over no bytes and at a scope within the core. -/
theorem test_meets_cache_control : Quiet (machine team) team ∧ Unwatched (machine team) 0 ∧ team.wideType = some false ∧ team.okV false 63 = true ∧ FullV team [63] ∧
    FullS team [31, 30] ∧ team.rs 30 = 0 ∧ (1 : BitVec 3).toNat ≤ 1 := by decide +kernel

/-- A range of 256 bytes in the mapped page, before the release and after it; a `pf` that has to wait for a page of the host. -/
def rangeTeam (r : Option Nat) : Team := { team with s := [(8, 0x1000), (9, 256)], release := r }
theorem test_meets_cache_ranges : (∀ r ∈ [none, some 3], Runs (machine (rangeTeam r)) 0 (rangeTeam r) ∧ Quiet (machine (rangeTeam r)) (rangeTeam r) ∧
      (rangeTeam r).acquiring = false ∧ FullS (rangeTeam r) [8, 9] ∧ (rangeTeam r).rs 9 ≠ 0 ∧
      (firstMissing (fun p => checkAddr (machine (rangeTeam r)) 0 0 1 p .read) (pageCount ((rangeTeam r).rs 8) 256) ((rangeTeam r).rs 8)).isNone = true) ∧
    pointOf 2 ≠ .l1 ∧ pointOf 4 ≠ .l1 := by decide +kernel
def pagelessMachine : State := { machine memTeam with cores := [], tenants := [(0, { created := true, hostManaged := true })] }
theorem test_meets_late_prefetch : collectorRoom pagelessMachine 0 (laneList memTeam memTeam.present) = true ∧
    ((checkAddr pagelessMachine 0 0 1 0x1000 .read) matches (.wait _)) = true ∧
    ¬ ((checkAddr (machine memTeam) 0 0 1 0x1000 .read) matches (.wait _)) = true := by decide +kernel

/-- A stamp of 7 meets the target 7, and not the target 8. -/
def stampTeam (target : DWord) : Team := { team with s := [(8, pad0), (31, target)] }
theorem test_meets_mwait : Runs (padMachine (stampTeam 7)) 0 (stampTeam 7) ∧ Quiet (padMachine (stampTeam 7)) (stampTeam 7) ∧ Free (stampTeam 7) ∧
    Unwatched (padMachine (stampTeam 7)) 0 ∧ FullS (stampTeam 7) [8, 31, 9] ∧
    checkAddr (padMachine (stampTeam 7)) 0 0 8 ((stampTeam 7).rs 8) .read = .go (.pad 0 0) ∧
    PadGood (padMachine (stampTeam 7)) 0 0 ∧ PadGood (padMachine (stampTeam 7)) 0 1 ∧
    (let stamp : DWord := look 0 (crewOf (padMachine (stampTeam 7)) 0).pad 1 ++ look 0 (crewOf (padMachine (stampTeam 7)) 0).pad 0
     stampMet stamp 7 = true ∧ stampMet stamp 8 = false) := by decide +kernel
/-- A team that waits for the stamp, and one whose limit has passed. -/
def waitingTeam : Team := { team with hold := .mwait 9 pad0.toNat 0 7 0 false 0 0, mwto := 1 }
theorem test_meets_mwait_ends : (padMachine waitingTeam).teams.lookup 0 = some waitingTeam ∧ waitingTeam.hold = .mwait 9 pad0.toNat 0 7 0 false 0 0 ∧
    checkAddr (padMachine waitingTeam) 0 0 8 (BitVec.ofNat 64 pad0.toNat) .read = .go (.pad 0 0) ∧ stampMet 7 7 = true ∧ waitingTeam.mwto ≠ 0 := by
  decide +kernel
/-! ### Control flow, traps, barriers -/

/-- p1 true in lanes 0 and 1: a divergent branch; an empty stack. -/
def splitVote : Team := { team with p := [(1, 3)] }
theorem test_meets_branches : Runs (machine splitVote) 0 splitVote ∧ Quiet (machine splitVote) splitVote ∧
    splitVote.mask &&& ~~~splitVote.vote false 1 ≠ 0 ∧ splitVote.vote false 1 ≠ 0 ∧ splitVote.inh = false ∧ splitVote.spilled = 0 ∧ splitVote.stack.length < 8 ∧
    splitVote.mask &&& ~~~splitVote.vote false 0 = 0 ∧ splitVote.vote true 0 = 0 := by decide +kernel

/-- Calls at depth 0 and at 65535; `callv` whose lanes 0 and 1 name 0x100 and whose lanes 2 and 3 name 0x200. -/
def callTeam : Team := { team with v := [(0, 0x100), (1, 0x100), (2, 0x200), (3, 0x200)] }
def deepTeam : Team := { team with cfd := 0xFFFF }
theorem test_meets_calls : Runs (machine callTeam) 0 callTeam ∧ Quiet (machine callTeam) callTeam ∧ FullS callTeam [30] ∧ FullS callTeam [31] ∧
    callTeam.cfd ≠ 0xFFFF ∧ callTeam.okV true 0 = true ∧ FullV callTeam [0, 1] ∧ callTeam.inh = false ∧ callTeam.spilled = 0 ∧ callTeam.stack.length < 8 ∧
    (∀ L ∈ laneList callTeam callTeam.mask, (callTeam.rv 1 L ++ callTeam.rv 0 L : DWord).toNat % 4 = 0) ∧
    (laneList callTeam callTeam.mask).head? = some 0 ∧ deepTeam.cfd = 0xFFFF ∧ Runs (machine deepTeam) 0 deepTeam := by decide +kernel

/-- One entry on the stack. -/
def stackTeam : Team := { team with stack := [{ mask := 12, depth := 0 }], mask := 3, s := [(1, 0x100)] }
theorem test_meets_stack_instructions : Runs (machine stackTeam) 0 stackTeam ∧ Quiet (machine stackTeam) stackTeam ∧ FullS stackTeam [1, 2] ∧
    stackTeam.inh = false ∧ stackTeam.spilled = 0 ∧ (35 : BitVec 8).toNat < 36 ∧ (35 : BitVec 8) ≠ 3 ∧ (stackTeam.rs 1).toNat % 4 = 0 ∧
    (stackTeam.rs 2).toNat < stackTeam.stack.length := by decide +kernel

/-- A handler is named and the records lie in the scratchpad; a team in its handler whose saved mask has a live lane. -/
def trapTeam : Team := { team with tvec := 0x200, frecb := pad0 }
def handlerTeam : Team := { team with tstat := 1, tsmask := 15, s := [(1, 3)] }
theorem test_meets_software_traps : Runs (machine trapTeam) 0 trapTeam ∧ outstanding (machine trapTeam) 0 = false ∧ trapTeam.inh = false ∧
    trapTeam.regionOpen = false ∧ trapTeam.tvec ≠ 0 ∧ checkAddr (machine trapTeam) 0 0 16 trapTeam.frecb .write = .go (.pad 0 0) ∧
    bit trapTeam.dbgctl.toNat 14 = false ∧ Runs (machine handlerTeam) 0 handlerTeam ∧ handlerTeam.inh = true ∧
    handlerTeam.tsmask &&& handlerTeam.live &&& teamMask handlerTeam ≠ 0 := by decide +kernel

theorem test_meets_ends : Quiet (machine handlerTeam) handlerTeam ∧ FullS handlerTeam [1] ∧ handlerTeam.inh = true ∧
    Runs (machine team) 0 team ∧ outstanding (machine team) 0 = false ∧ team.inh = false ∧ team.heldFault = none ∧ team.spilled = 0 ∧ team.stack = [] ∧
    Runs (machine stackTeam) 0 stackTeam ∧ outstanding (machine stackTeam) 0 = false ∧ stackTeam.heldFault = none ∧
    stackTeam.stack = { mask := 12, depth := 0 } :: [] ∧ (12 : LaneMask) &&& (stackTeam.live &&& ~~~stackTeam.mask) &&& teamMask stackTeam ≠ 0 := by
  decide +kernel

/-- `exit` with a producer outstanding, in a handler, with a held fault; with an entry that has ended above one that goes on, and with one entry
in the spill area at 0x1000, whose mask is 12. -/
def endTeam (st : List Entry) (sp : Nat) : Team := { team with stack := st, spilled := sp, mask := 3, tstk := 0x2000, stackSize := 4096 }
def spillMachine : State := { machine (endTeam [] 1) with mem := [(0x1018, 1), (0x1020, 12)] }
theorem test_meets_exits : outstanding { machine team with producers := [wroteLane] } 0 = true ∧ outstanding (machine handlerTeam) 0 = false ∧
    faultTeam.inh = false ∧ (faultTeam.heldFault.isSome = true) ∧ (endTeam [] 0).heldFault = none ∧ (endTeam [] 0).spilled = 0 ∧
    (let t := endTeam [{ mask := 3 }, { mask := 12 }, { mask := 4, norp := true }] 0
     t.stack = [{ mask := 3 }] ++ { mask := 12 } :: [{ mask := 4, norp := true }] ∧ (3 : LaneMask) &&& ((t.live &&& ~~~t.mask) &&& teamMask t) = 0 ∧
       (12 : LaneMask) &&& ((t.live &&& ~~~t.mask) &&& teamMask t) ≠ 0) ∧
    Runs spillMachine 0 (endTeam [] 1) ∧ Unwatched spillMachine 0 ∧ (endTeam [] 1).spilled = 1 ∧
    ((readSpill spillMachine 0 { (endTeam [] 1).issued.closeRegion with live := 12, mask := 0, stack := [] } 0).2.toOption.map fun e => e.mask &&& 12) = some 12 := by
  decide +kernel

/-- A trap that waits while a producer is outstanding, one that can be taken, and one in an open region. -/
def pendingTeam : Team := { trapTeam with trapping := some { cause := 8, recs := [], tepc := 0x40 } }
def regionTeam : Team := { pendingTeam with rgst := 1 }
theorem test_meets_trap_entry : outstanding (machine trapTeam) 0 = false ∧ trapTeam.inh = false ∧ trapTeam.regionOpen = false ∧ trapTeam.tvec ≠ 0 ∧
    Runs (machine trapTeam) 0 trapTeam ∧ outstanding { machine trapTeam with producers := [wroteLane] } 0 = true ∧
    (machine pendingTeam).teams.lookup 0 = some pendingTeam ∧ outstanding (machine pendingTeam) 0 = false ∧
    pendingTeam.trapping = some { cause := 8, recs := [], tepc := 0x40 } ∧ pendingTeam.inh = false ∧ pendingTeam.regionOpen = false ∧
    (machine regionTeam).teams.lookup 0 = some regionTeam ∧ outstanding (machine regionTeam) 0 = false ∧
    regionTeam.trapping = some { cause := 8, recs := [], tepc := 0x40 } ∧ regionTeam.inh = false ∧ regionTeam.regionOpen = true ∧ regionTeam.tries < 3 := by
  decide +kernel

/-- A trap in a handler, a trap with TVEC 0 and one whose record lies in a page that no walk finds. -/
theorem test_meets_error_completion : outstanding (machine team) 0 = false ∧ team.restarts 1 = false ∧ team.inh = false ∧ team.tvec = 0 ∧
    (launchOf (machine team) 0).ended = false ∧ outstanding (machine { team with tstat := 1 }) 0 = false ∧ ({ team with tstat := 1 } : Team).inh = true ∧
    ({ team with tstat := 1 } : Team).restarts 1 = false ∧
    checkAddr (machine { team with frecb := 0xF00000 }) 0 0 16 0xF00000 .write = .fault 5 := by decide +kernel

theorem test_meets_fetch_traps : Runs (machine team) 0 team ∧ (machine team).atsDenied = [] ∧ bit team.ten.toNat 4 = false ∧ (2 : BitVec 8).toNat ≤ 2 ∧
    team.acquiring = false := by decide +kernel

/-- Barrier 3 of the crew, whose last arrival this is, and barrier 2, with two more to come. -/
def barMachine (t : Team) : State := { machine t with crews := [(0, { crew with bar := [(3, { count := 2, need := 1, arrived := 1 }), (2, { count := 3, need := 2, arrived := 1 })] })] }
def countTeam : Team := { team with s := [(1, 2)] }
def waitsTeam : Team := { team with hold := .barrier 3 0xFFFFFFFF }
def bandWaits : Team := { team with hold := .band 0xFFFFFFFF }
theorem test_meets_barriers : Runs (barMachine countTeam) 0 countTeam ∧ Quiet (barMachine countTeam) countTeam ∧ countTeam.release = none ∧ FullS countTeam [1] ∧
    loading (barMachine countTeam) 0 = false ∧ releaseDone (barMachine countTeam) (barMachine countTeam).serial = true ∧
    3 < (crewOf (barMachine countTeam) 0).bars ∧ barOf (barMachine countTeam) 0 3 = { count := 2, need := 1, arrived := 1 } ∧
    barOf (barMachine countTeam) 0 2 = { count := 3, need := 2, arrived := 1 } ∧
    1 ≤ (countTeam.rs 1).toNat ∧ (countTeam.rs 1).toNat ≤ 65535 ∧ 1 < (countTeam.rs 1).toNat ∧ 1 + (countTeam.rs 1).toNat ≤ 65535 ∧
    (barMachine waitsTeam).teams.lookup 0 = some waitsTeam ∧ phasePast (barOf (barMachine waitsTeam) 0 3).phase 0xFFFFFFFF = true ∧
    (barMachine bandWaits).teams.lookup 0 = some bandWaits ∧ phasePast (bandOf (barMachine bandWaits) 0).bphase 0xFFFFFFFF = true := by decide +kernel
theorem test_meets_band_barrier : Runs (machine team) 0 team ∧ bandOf (machine team) (bandKey 0) = band ∧ Published (machine team) 0 team ∧
    team.okV false 63 = true ∧ (∀ e ∈ team.vFault, e.1 ≠ 63) ∧ team.vIsEmpty 63 = false ∧ (∀ e ∈ team.sFault, e.1 ≠ 31) ∧ team.sIsEmpty 31 = false ∧
    team.vFault = [] ∧ team.sFault = [] ∧ team.vEmpty = 0 ∧ team.sEmpty = 0 := by decide +kernel

/-! ### Control registers, system instructions, images -/

/-- A result without an error is known by its value alone. -/
theorem ok_of_value {ε α : Type} {x : Except ε α} {y : α} (h : x.toOption = some y) : x = .ok y := by
  cases x <;> simp_all [Except.toOption]
/-- `n` words of crew 0's scratchpad from word `i`. -/
def padPlaces (i n : Nat) : List Place := (List.range n).map fun j => .pad 0 (4 * (i + j))
theorem granted {s : State} {t : Team} {align n : Nat} {va : DWord} {a : Acc} {ps : List Place}
    (h : t.acquiring = false ∧ Unwatched s 0 ∧ noteMisses s 0 t (pageStarts va n) = s ∧ imageFault s t.core (bandKey 0) align n va a = none ∧
      (wordPlaces s 0 t 4 va (n / 4) a).toOption = some ps ∧ inOrder s 0 ps (a == .write) = true) : Granted s 0 t align n va a s ps :=
  ⟨h.1, h.2.1, h.2.2.1.symm, h.2.2.2.1, ok_of_value h.2.2.2.2.1, h.2.2.2.2.2⟩

def supTeam : Team := { team with ten := 0x10, s := [(1, 0x10101), (8, pad0)] }
theorem test_meets_control_registers : Runs (machine supTeam) 0 supTeam ∧ Quiet (machine supTeam) supTeam ∧ FullS supTeam [1] ∧ bit supTeam.ten.toNat 4 = true ∧
    ((0x14 : BitVec 8), (0x7FFF : DWord)) ∈ crMasks ∧ readCr (machine supTeam) 0 supTeam 0x0D = some 0 ∧
    (∀ p ∈ (machine supTeam).producers, p.team ≠ 0) ∧ 0x60 ≤ (0x60 : BitVec 8).toNat := by decide +kernel
theorem test_meets_shared_registers : (∀ q ∈ (coreOf (machine supTeam) supTeam.core).queue, q.crew = crewKey 0 → (31 : BitVec 5).toNat ∉ q.tiles (machine supTeam)) ∧
    bit supTeam.ten.toNat 4 = true ∧ FullS supTeam [1] := by decide +kernel

/-- A team that waits in `sys`, and the request it waits for. -/
def askedTeam : Team := { team with hold := .sys 9 4 0 }
def askedMachine : State := { machine askedTeam with services := [{ slot := 4, team := 0 }] }
theorem test_meets_service_requests : Runs (machine team) 0 team ∧ Quiet (machine team) team ∧ Free team ∧ Published (machine team) 0 team ∧ FullS team [1, 9] ∧
    askedMachine.services[0]? = some { slot := 4, team := 0 } ∧ askedMachine.teams.lookup 0 = some askedTeam ∧ askedTeam.hold = .sys 9 4 0 ∧
    (bandOf askedMachine (bandKey 0)).run ≠ .saved := by decide +kernel

theorem test_meets_system_instructions : Runs (machine supTeam) 0 supTeam ∧ Quiet (machine supTeam) supTeam ∧ FullS supTeam [1] ∧ 2 < (3 : BitVec 8).toNat ∧
    bit supTeam.ten.toNat 4 = true ∧ supTeam.release = none ∧ (machine supTeam).loads = [] ∧
    look 0 (machine supTeam).lastTime (supTeam.core / 144) ≤ (machine supTeam).tick + 2 ∧ supTeam.hold = .free ∧ (machine supTeam).pubs = [] ∧
    (∀ c ∈ (bandOf (machine supTeam) (bandKey 0)).cores, ∀ e ∈ l1Of (machine supTeam) c, e.2.dirty = 0) := by decide +kernel
/-- Record 1 of a fault buffer at the scratchpad's base. -/
def recordTeam : Team := { team with frecb := pad0, s := [(1, 1), (2, 64)] }
theorem test_meets_record_reads : Runs (machine recordTeam) 0 recordTeam ∧ Quiet (machine recordTeam) recordTeam ∧ Free recordTeam ∧ FullS recordTeam [1, 9] ∧
    (recordTeam.rs 1).toNat < 64 ∧ 64 ≤ (recordTeam.rs 2).toNat ∧ recordTeam.acquiring = false ∧
    placesReady (machine recordTeam) 0 (padPlaces 4 2) = true ∧
    (readPlaces (machine recordTeam) 0 recordTeam (padPlaces 4 2)).2 = [.ok 0, .ok 0] ∧
    ∃ c, imageFault (machine { recordTeam with frecb := 0x20000 }) 0 (bandKey 0) 4 8 0x20010 .read = some (.fault c) := by
  refine ⟨?_, ?_, ?_, ?_, ?_, ?_, ?_, ?_, ?_, 5, ?_⟩ <;> decide +kernel
theorem test_meets_record_range : Granted (machine recordTeam) 0 recordTeam 4 8 (recordTeam.frecb + 16 * recordTeam.rs 1) .read (machine recordTeam) (padPlaces 4 2) :=
  granted (by decide +kernel)

/-- A privileged team of 8 vector registers, whose record of 6,144 bytes begins the scratchpad. -/
def smallTeam : Team := { supTeam with vregs := 8 }
def recordWords : NMap Word := [(0, 0x1800), (1, 0x00010801)]
def recordMachine : State := { machine smallTeam with crews := [(0, { crew with pad := recordWords })] }
def recordList : List Word := (List.range (0x1800 / 4)).map fun i => look 0 recordWords i
theorem test_meets_context_save : Runs (machine smallTeam) 0 smallTeam ∧ Quiet (machine smallTeam) smallTeam ∧ Free smallTeam ∧ FullS smallTeam [8] ∧
    outstanding (machine smallTeam) 0 = false ∧ smallTeam.millBusy = false ∧
    smallTeam.acquiring = false ∧ smallTeam.mill = none ∧ (teamRecord smallTeam (smallTeam.pc + 4)).length = 0x1800 / 4 := by decide +kernel
theorem test_meets_context_settled : Settled (machine smallTeam) 0 smallTeam (machine smallTeam) smallTeam := ⟨rfl, rfl⟩
theorem test_meets_context_ranges :
    Granted (machine smallTeam) 0 smallTeam 128 0x1800 (smallTeam.rs 8) .write (machine smallTeam) (padPlaces 0 (0x1800 / 4)) ∧
    Granted recordMachine 0 smallTeam 128 0x1800 (smallTeam.rs 8) .read recordMachine (padPlaces 0 (0x1800 / 4)) := by
  refine ⟨granted ?_, granted ?_⟩ <;> decide +kernel
theorem test_meets_context_load : Runs recordMachine 0 smallTeam ∧ bit smallTeam.ten.toNat 4 = true ∧
    placesReady recordMachine 0 (padPlaces 0 (0x1800 / 4)) = true ∧
    (dwordAt recordList 0).toNat = 0x1800 + 1 * 2 ^ 32 + 8 * 2 ^ 40 + 2 ^ 48 ∧ recordReserved recordList = false ∧
    bit (dwordAt recordList (0xEB8 / 4)).toNat 1 = false := by decide +kernel
theorem test_meets_context_words : (readPlaces recordMachine 0 smallTeam (padPlaces 0 (0x1800 / 4))).2 = recordList.map Datum.ok := by
  have h := readPlaces_pad recordMachine 0 0 smallTeam rfl rfl ((List.range (0x1800 / 4)).map fun j => 4 * (0 + j))
  rw [List.map_map] at h
  rw [show padPlaces 0 (0x1800 / 4) = (List.range (0x1800 / 4)).map ((fun o => Place.pad 0 o) ∘ fun j => 4 * (0 + j)) from rfl, h]
  simp only [recordList, List.map_map]
  refine List.map_congr_left fun j _ => ?_
  simp only [Function.comp, Nat.zero_add, Nat.mul_div_cancel_left j (by decide : 0 < 4)]
  rfl
/-! ### Tables, shapes, the Mill -/

/-- s8 points at a table image or at a shape entry of rank 2 with a last dimension of 3, in the scratchpad. -/
def shapeMachine : State := { machine memTeam with crews := [(0, { crew with pad := [(0, 2), (2, 3)] })] }
def tableMachine (c : Core) : State := { machine memTeam with cores := [(0, c)] }
theorem test_meets_tables : Runs (tableMachine {}) 0 memTeam ∧ Quiet (tableMachine {}) memTeam ∧ FullS memTeam [8] ∧ (coreOf (tableMachine {}) 0).tabLoads = [] ∧
    (coreOf (tableMachine {}) 0).tabSwap = none ∧ noteMisses (tableMachine {}) 0 memTeam (pageStarts (memTeam.rs 8) 4112) = tableMachine {} ∧
    imageFault (tableMachine {}) 0 (bandKey 0) 16 4112 (memTeam.rs 8) .read = none ∧
    bit (coreOf (tableMachine { tabGood := 1 }) 0).tabGood.toNat 1 = false ∧ bit (coreOf (tableMachine {}) 0).tabGood.toNat 1 = true ∧
    (∀ p ∈ (tableMachine {}).producers, p.core = 0 → p.table = false) ∧ (coreOf (tableMachine { tabSwap := some 0 }) 0).tabSwap = some 0 := by decide +kernel
def loadingCore : Core := { tabLoads := [(0, 1, pad0.toNat)] }
theorem test_meets_table_load : (coreOf (tableMachine loadingCore) 0).tabLoads = (0, 1, pad0.toNat) :: [] ∧ 1 < 2 ∧
    ∀ i < 1028, checkAddr (tableMachine loadingCore) 0 (bandKey 0) 4 (BitVec.ofNat 64 pad0.toNat + BitVec.ofNat 64 (4 * i)) .read = .go (.pad 0 (4 * i)) ∧
      PadGood (tableMachine loadingCore) 0 i := by decide +kernel
theorem test_meets_jobs_and_shapes : Runs shapeMachine 0 memTeam ∧ Quiet shapeMachine memTeam ∧ memTeam.okV true 62 = true ∧ memTeam.okV false 0 = true ∧
    FullV memTeam (0 :: pair true 62) ∧ FullS memTeam [31] ∧ FullS memTeam (8 :: span 25 7) ∧ placesReady shapeMachine 0 (padPlaces 0 8) = true ∧
    (readPlaces shapeMachine 0 memTeam (padPlaces 0 8)).2 = ([2, 0, 3, 0, 0, 0, 0, 0] : List Word).map Datum.ok ∧
    (readPlaces { shapeMachine with crews := [(0, { crew with padPoison := [2] })] } 0 memTeam (padPlaces 0 8)).2[2]? = some .poison ∧
    (let w := fun i => (([2, 0, 3, 0, 0, 0, 0, 0] : List Word).getD i 0).toNat
     1 ≤ w 0 ∧ w 0 ≤ 5 ∧ w 1 = 0 ∧ w 6 = 0 ∧ w 7 = 0 ∧ ∀ i < 4, i + 1 < w 0 → w (2 + i) ≠ 0) := by decide +kernel
theorem test_meets_table_and_shape_ranges :
    Granted (tableMachine {}) 0 memTeam 16 4112 (memTeam.rs 8) .read (tableMachine {}) (padPlaces 0 1028) ∧
    Granted shapeMachine 0 memTeam 8 32 (memTeam.rs 8) .read shapeMachine (padPlaces 0 8) := by
  refine ⟨granted ?_, granted ?_⟩ <;> decide +kernel

/-- An empty context; one whose first streams hold 2 and 5, 2 and 7, of 32 bits each, in the scratchpad. -/
def emptyMill : Mill := { ctl := 0x100000000, hi := 0xFFFFFFFF }
def fullMill : Mill := { ctl := 0x100000000, abase := pad0, alen := 2, bbase := pad0 + 8, blen := 2, hi := 0xFFFFFFFF }
def millTeam (m : Mill) : Team := { team with mill := some m, s := [(8, pad0), (26, 0x100000000), (31, 0xFFFFFFFF00000000)] }
def millMachine (m : Mill) : State := { machine (millTeam m) with crews := [(0, { crew with pad := [(0, 2), (1, 5), (2, 2), (3, 7)] })] }
theorem test_meets_mill_fills : Runs (millMachine fullMill) 0 (millTeam fullMill) ∧ Quiet (millMachine fullMill) (millTeam fullMill) ∧
    (millTeam fullMill).okV false 62 = true ∧ (millTeam fullMill).okV false 63 = true ∧ FullV (millTeam fullMill) [62, 63] ∧ (millTeam fullMill).millBusy = false ∧
    (millTeam fullMill).mill = some fullMill ∧ fullMill.searching = false := by decide +kernel
/-- The comparator runs out on the empty streams, delivers the one common coordinate of the full ones, and fills one lane. -/
theorem test_meets_mill_runs :
    (let r := mergeRun (millMachine emptyMill) 0 (millTeam emptyMill) emptyMill 4 2 { a := emptyMill.a, b := emptyMill.b }
     (r.2.2 matches .done) = true ∧ r.2.1.outs = []) ∧
    (let r := mergeRun (millMachine fullMill) 0 (millTeam fullMill) fullMill 4 6 { a := fullMill.a, b := fullMill.b }
     (r.2.2 matches .done) = true ∧ r.2.1.outs = [(0, 0)]) ∧
    (let r := mergeRun (millMachine fullMill) 0 (millTeam fullMill) fullMill 1 6 { a := fullMill.a, b := fullMill.b }
     (r.2.2 matches .filled) = true ∧ r.2.1.outs ≠ []) := by decide +kernel
def filledJob : MillJob := { team := 0, lanes := [(1024 * 62, 0)], vregs := [62, 63], mill := fullMill }
theorem test_meets_mill_job : ({ millMachine fullMill with millJobs := [filledJob] } : State).teams.lookup 0 = some (millTeam fullMill) ∧
    (({ millMachine fullMill with millJobs := [filledJob] } : State).millJobs.find? fun j => j.team == 0) = some filledJob ∧
    filledJob.lanes.Pairwise (fun a b => a.1 ≠ b.1) ∧ (1024 * 62 + 0, (0 : Word)) ∈ filledJob.lanes := by decide +kernel

/-- `mlopen s26` of two empty streams; images in the scratchpad. -/
theorem test_meets_mill_contexts : FullS (millTeam fullMill) (span 26 6) ∧ millsHeld (millMachine fullMill) 0 0 < 16 ∧
    (let w := fun i => (millTeam fullMill).rs (26 + i)
     let ctl := (w 0).toNat
     bits ctl 6 10 = 0 ∧ bits ctl 48 16 = 0 ∧ (w 2).toNat < 2 ^ 32 ∧ (w 4).toNat < 2 ^ 32 ∧ bits ctl 16 16 < bits ctl 32 16 ∧
       bits (w 5).toNat 0 32 ≤ bits (w 5).toNat 32 32 ∧ (w 1).toNat % 4 = 0 ∧ (w 3).toNat % 4 = 0 ∧ bits ctl 2 2 = 0 ∧ bits ctl 4 2 = 0 ∧
       bits ctl 32 16 = 1 ∧ bits (w 5).toNat 0 32 = 0) ∧ FullS (millTeam fullMill) [8] := by decide +kernel
/-- A context whose boundaries are found is settled as it is; its image, and one to read, lie in the scratchpad. -/
theorem test_meets_mill_settled : ∃ s1 t1, Settled (millMachine fullMill) 0 (millTeam fullMill) s1 t1 := by
  refine ⟨_, _, rfl, ?_, rfl, rfl⟩
  rw [show (millSettled (millMachine fullMill) 0 (millTeam fullMill) fullMill).2.2 = none from rfl]; trivial
theorem test_meets_mill_images :
    Granted (millMachine fullMill) 0 (millTeam fullMill) 16 128 ((millTeam fullMill).rs 8) .write (millMachine fullMill) (padPlaces 0 32) ∧
    Granted (millMachine fullMill) 0 (millTeam fullMill) 16 128 ((millTeam fullMill).rs 8) .read (millMachine fullMill) (padPlaces 0 32) := by
  refine ⟨granted ?_, granted ?_⟩ <;> decide +kernel
/-- The boundary search finds a part of the streams, and meets a fault in an unmapped one. -/
def partMill : Mill := { fullMill with lo := 3, hi := 6, searching := true }
def lostMill : Mill := { partMill with abase := 0x20000 }
theorem test_meets_mill_search : (search (millMachine fullMill) 0 (millTeam fullMill) partMill).2.2.isNone = true ∧
    ((search (millMachine fullMill) 0 (millTeam fullMill) lostMill).2.2 matches (some (.fault _ _))) = true := by decide +kernel

/-! ### Queues and graphs -/

/-- s10 names a queue in the mapped page with LOG2N 4, or with LOG2CAP 4 and an item; s16 to s23 hold a packet. -/
def queueTeam (w0 : DWord) : Team := { team with s := [(10, 0x1000), (16, w0), (8, 0x2000), (9, 1), (19, 1)] }
def queueMachine (t : Team) (m : List Host.Cell) : State := { machine t with mem := m }
def copyTeam : Team := { team with s := [(10, 0x1000)] }
def homeWords (va n : Nat) : List (Nat × Nat) := (List.range n).map fun i => (va + 4 * i, 0)
theorem test_meets_appends : Runs (queueMachine copyTeam [(0x1018, 4)]) 0 copyTeam ∧ Quiet (queueMachine copyTeam [(0x1018, 4)]) copyTeam ∧ Free copyTeam ∧
    FullS copyTeam (10 :: span 24 8) ∧
    (let ws := (List.range 8).map fun i => copyTeam.rs (24 + i)
     copyIllop 0 ws = false ∧ copyCheck (queueMachine copyTeam [(0x1018, 4)]) 0 ws (some 0) = none) ∧
    (let ws := (List.range 8).map fun i => (queueTeam 0x44).rs (16 + i)
     collIllop ws = false ∧ collCheck (machine (queueTeam 0x44)) ws (some 0) = none) ∧
    copyIllop 0 ((List.range 8).map fun i => (queueTeam 0x70).rs (16 + i)) = true ∧
    inAperture (copyTeam.rs 10) = false ∧ (copyTeam.rs 10).toNat % 64 = 0 := by decide +kernel
theorem test_meets_append_homes : AtHomes (queueMachine copyTeam [(0x1018, 4)]) 0 copyTeam (wordVas 0x1000 16) true true (homeWords 0x1000 16) := by
  refine ⟨?_, ⟨fun _ => false, ok_of_value ?_⟩, ?_⟩ <;> decide +kernel
/-- The header has room; with WIDX 16 it has none. -/
theorem test_meets_append_header :
    (let r := readHeader (queueMachine copyTeam [(0x1018, 4)]) 0 0 (homeWords 0x1000 16)
     r.2.1 = .ok 0 ∧ r.2.2.log2n = 4 ∧ r.2.2.widx - r.2.2.ridx < 2 ^ 4 ∧ Published r.1 0 copyTeam) ∧
    (let r := readHeader (queueMachine copyTeam [(0x1000, 16), (0x1018, 4)]) 0 0 (homeWords 0x1000 16)
     r.2.1 = .ok 0 ∧ r.2.2.log2n = 4 ∧ 2 ^ 4 ≤ r.2.2.widx - r.2.2.ridx ∧ Published r.1 0 copyTeam) := by decide +kernel
theorem test_meets_append_slot :
    let r := readHeader (queueMachine copyTeam [(0x1018, 4)]) 0 0 (homeWords 0x1000 16)
    AtHomes (released r.1 copyTeam) 0 copyTeam (wordVas (slotVa 0x1000 r.2.2 0) 16) false true (homeWords 0x1040 16) := by
  refine ⟨?_, ⟨fun _ => false, ok_of_value ?_⟩, ?_⟩ <;> decide +kernel
/-- A launch packet for queue 1: KIND 8, SCOPE 4, one band, any quadrant. -/
def launchTeam : Team := { team with s := [(9, 1), (16, 0x100000048), (19, 0xFF00)] }
theorem test_meets_launches : Runs (machine launchTeam) 0 launchTeam ∧ FullS launchTeam (9 :: span 16 8) ∧
    (let ws := (List.range 8).map fun i => launchTeam.rs (16 + i)
     launchIllop ws = false ∧ launchCheck ws = none) ∧ (launchTeam.rs 9).toNat ≤ 3 ∧ Published (machine launchTeam) 0 launchTeam ∧
    (bandOf (released (machine launchTeam) launchTeam) 0).tenant = (bandOf (machine launchTeam) 0).tenant := by decide +kernel
/-- A read of a whole double word is known by its value. -/
theorem read_known {r : State × Datum × DWord} {w : Word} (h : r.2.1 = .ok w) : r = (r.1, .ok w, r.2.2) := by
  rcases r with ⟨_, _, _⟩; simp_all
/-- The header of a pipeline queue of 16 slots as it is read: HEAD, TAIL, and CLOSED with LOG2CAP. -/
def pipeMachine (tail closed : BitVec 8) : State :=
  { machine copyTeam with mem := (if tail = 0 then [] else [(0x1008, tail)]) ++ (if closed = 0 then [] else [(0x1018, closed)]) ++ [(0x101C, 4)] }
/-- Dword `i` of a header as a step that meets `s` reads it in `s'`. -/
def readAt (s s' : State) (i : Nat) : State × Datum × DWord :=
  pointDword s' .home copyTeam.core ((homeWords 0x1000 16).getD i (0, 0)).1 ((homeWords 0x1000 16).getD i (0, 0)).2 (bandOf s (bandKey 0)).tenant
def readPipe (s : State) : State × Datum × DWord := readAt s (readAt s (readAt s s 0).1 2).1 6
theorem pipe_header (s : State) (h : DWord) (tail flags : Word) (c : Bool) (n : Nat)
    (h1 : noteMisses s 0 copyTeam (wordVas h 16) = s)
    (h2 : listPlaces s 0 copyTeam (wordVas h 16) .write = .ok ((homeWords 0x1000 16).zipIdx.map fun w => .mem w.1.1 w.1.2 false))
    (h3 : ∀ w ∈ homeWords 0x1000 16, homeCan s true true w.1 = true) (h4 : inAperture h = false) (h5 : h.toNat % 64 = 0)
    (r0 : (readAt s s 0).2.1 = .ok 0) (r1 : (readAt s (readAt s s 0).1 2).2.1 = .ok tail) (r2 : (readPipe s).2.1 = .ok flags)
    (e0 : (readAt s s 0).2.2.toNat = 0) (e1 : (readAt s (readAt s s 0).1 2).2.2.toNat = n) (e2 : c = bit (readPipe s).2.2.toNat 0)
    (e3 : bits (readPipe s).2.2.toNat 32 32 = 4) :
    PipeHeader s 0 copyTeam h (readPipe s).1 (homeWords 0x1000 16) c 4 0 n := by
  unfold PipeHeader
  refine ⟨h4, h5, ⟨h1, ⟨fun _ => false, h2⟩, h3⟩, by omega, by omega, ?_⟩
  intro rd
  have q1 : ∀ s' i, rd s' i = readAt s s' i := fun _ _ => rfl
  clear_value rd
  refine ⟨(readAt s s 0).1, (readAt s (readAt s s 0).1 2).1, 0, tail, flags, _, _, _, ?_, ?_, ?_, e0.symm, e1.symm, e2, e3.symm⟩
  · rw [q1]; exact read_known r0
  · rw [q1]; exact read_known (r := readAt s (readAt s s 0).1 2) r1
  · rw [q1, show readAt s (readAt s (readAt s s 0).1 2).1 6 = readPipe s from rfl]; exact read_known r2
/-- A queue that is open with an item. -/
theorem test_meets_pipe_open : PipeHeader (pipeMachine 1 0) 0 copyTeam 0x1000 (readPipe (pipeMachine 1 0)).1 (homeWords 0x1000 16) false 4 0 1 := by
  apply pipe_header (tail := 1) (flags := 0) <;> first | (apply ok_of_value; decide +kernel) | decide +kernel
/-- A queue that is open and empty. -/
theorem test_meets_pipe_empty : PipeHeader (pipeMachine 0 0) 0 copyTeam 0x1000 (readPipe (pipeMachine 0 0)).1 (homeWords 0x1000 16) false 4 0 0 := by
  apply pipe_header (tail := 0) (flags := 0) <;> first | (apply ok_of_value; decide +kernel) | decide +kernel
/-- A queue that is closed. -/
theorem test_meets_pipe_closed : PipeHeader (pipeMachine 0 1) 0 copyTeam 0x1000 (readPipe (pipeMachine 0 1)).1 (homeWords 0x1000 16) true 4 0 0 := by
  apply pipe_header (tail := 0) (flags := 1) <;> first | (apply ok_of_value; decide +kernel) | decide +kernel
/-- A queue that is full. -/
theorem test_meets_pipe_full : PipeHeader (pipeMachine 16 0) 0 copyTeam 0x1000 (readPipe (pipeMachine 16 0)).1 (homeWords 0x1000 16) false 4 0 16 := by
  apply pipe_header (tail := 16) (flags := 0) <;> first | (apply ok_of_value; decide +kernel) | decide +kernel
theorem test_meets_pipe_item :
    let s1 := (readPipe (pipeMachine 1 0)).1
    AtHomes s1 0 copyTeam (wordVas (itemVa 0x1000 4 0) 2) true false ((0x1040, 0) :: [(0x1044, 0)]) ∧
    AtHomes (released s1 copyTeam) 0 copyTeam (wordVas (itemVa 0x1000 4 1) 2) false true ((0x1048, 0) :: [(0x104C, 0)]) := by
  refine ⟨⟨?_, ⟨fun _ => false, ok_of_value ?_⟩, ?_⟩, ?_, ⟨fun _ => false, ok_of_value ?_⟩, ?_⟩ <;> decide +kernel
theorem test_meets_pipe_reads : FullS copyTeam [9, 10] ∧ bit (copyTeam.rs 9).toNat 63 = false ∧ bit (0x8000000000000000 : DWord).toNat 63 = true ∧
    (pointDword (readPipe (pipeMachine 1 0)).1 .home 0 0x1040 0 0).2.1 = .ok 0 ∧ Published (readPipe (pipeMachine 1 0)).1 0 copyTeam := by decide +kernel

/-- `tgl` of a misaligned task, of one in the aperture, and of one in the mapped page. -/
theorem test_meets_tgl : FullS copyTeam [10] ∧ ((0x1040 : DWord).toNat % 128 ≠ 0) ∧ (pad0.toNat % 128 = 0 ∧ inAperture pad0 = true) ∧
    (copyTeam.rs 10).toNat % 128 = 0 ∧ inAperture (copyTeam.rs 10) = false ∧ Published (machine copyTeam) 0 copyTeam ∧
    (machine copyTeam).late = false ∧ (decrement (released (machine copyTeam) copyTeam) 0 0 (copyTeam.rs 10)).late = false := by decide +kernel
theorem test_meets_tgl_homes : AtHomes (machine copyTeam) 0 copyTeam (wordVas (copyTeam.rs 10) 32) true true (homeWords 0x1000 32) := by
  refine ⟨?_, ⟨fun _ => false, ok_of_value ?_⟩, ?_⟩ <;> decide +kernel

/-- A task at 0x1000 whose PRED is 2, 1 or 0, one that is running, and one whose completion has PREDINIT 3. -/
def taskMachine (pred run : BitVec 8) : State :=
  { machine copyTeam with mem := (if run = 0 then [] else [(0x1001, run)]) ++ (if pred = 0 then [] else [(0x1004, pred)]) ++ [(0x1008, 3)] }
theorem test_meets_decrements : ((readTcb (taskMachine 2 0) 0 0 0x1000).2.map fun b => (b.run, b.pred)) = some (false, 2) ∧
    ((readTcb (taskMachine 1 0) 0 0 0x1000).2.map fun b => (b.run, b.pred)) = some (false, 1) ∧
    ((readTcb (taskMachine 0 0) 0 0 0x1000).2.map fun b => (b.run, b.pred)) = some (false, 0) ∧
    ((readTcb (taskMachine 2 0x40) 0 0 0x1000).2.map fun b => (b.run, b.kind)) = some (true, 0) := by decide +kernel
/-- The walker's items. -/
theorem test_meets_nodes : ({ taskMachine 2 0 with walking := [.decrement 0 0 0x1000, .start 0 0 0x1000, .complete 0 0 0x1000 true, .complete 0 0 0x1000 false] } : State).walking[3]? =
    some (.complete 0 0 0x1000 false) ∧ (readTcb { taskMachine 2 0 with walking := [] } 0 0 0x1000).2.isSome = true ∧
    ∀ i < 4, (walkerItem i { taskMachine 2 0 with walking := [.decrement 0 0 0x1000, .start 0 0 0x1000, .complete 0 0 0x1000 true, .complete 0 0 0x1000 false] }).late = false := by decide +kernel

/-! ### The matrix unit -/

/-- Tiles 0 and 1 of bf16, 2 rows of 2 columns each; accumulators 0 and 1. -/
def tileCrew : Crew := { crew with ts := [(0, 0x20201), (1, 0x20201)] }
def tileTeam : Team := { team with s := [(8, pad0), (9, 8), (3, 1), (4, 128), (20, pad0), (21, 512), (22, 0x10001)] }
def tileMachine (q : List ArrayCmd) : State := { machine tileTeam with crews := [(0, tileCrew)], cores := [(0, { queue := q })] }
theorem test_meets_tiles : Runs (tileMachine []) 0 tileTeam ∧ Quiet (tileMachine []) tileTeam ∧ Free tileTeam ∧ FullS tileTeam [8, 9] ∧
    (1 : BitVec 5).toNat < (crewOf (tileMachine []) (crewKey 0)).tiles ∧ (shapeOf (tsOf tileCrew 1)).movable = true ∧ (shapeOf (tsOf {} 1)).movable = false ∧
    (tileTeam.rs 8).toNat % 4 = 0 ∧ (tileTeam.rs 9).toNat % 4 = 0 ∧ (tileTeam.rs 3).toNat % 4 ≠ 0 ∧
    (∀ q ∈ (coreOf (tileMachine []) tileTeam.core).queue, q.crew = crewKey 0 → (1 : BitVec 5).toNat ∉ q.tiles (tileMachine [])) ∧
    noteMisses (tileMachine []) 0 tileTeam (tileVas (shapeOf (tsOf tileCrew 1)) pad0 8) = tileMachine [] ∧
    (tileVas (shapeOf (tsOf tileCrew 1)) pad0 8 = [pad0, pad0 + 8] ∧
      checkAddr (tileMachine []) 0 0 4 pad0 .read = .go (.pad 0 0) ∧ checkAddr (tileMachine []) 0 0 4 (pad0 + 8) .read = .go (.pad 0 8) ∧
      checkAddr (tileMachine []) 0 0 4 pad0 .write = .go (.pad 0 0) ∧ checkAddr (tileMachine []) 0 0 4 (pad0 + 8) .write = .go (.pad 0 8) ∧
      (crewOf (tileMachine []) 0).padPoison = [] ∧ (crewOf (tileMachine []) 0).padEcc = {}) ∧
    tileCrew.tilePoison = [] ∧ tileCrew.tileEcc = {} := by decide +kernel

def fullQueue : List ArrayCmd := List.replicate 16 { word := 0xA5400000, ver := 1 }
theorem test_meets_array_queue : (1 : BitVec 3).toNat < (crewOf (tileMachine []) (crewKey 0)).accs ∧ FullS tileTeam [31] ∧
    mmaCheck tileCrew (arrayWord 0x53 0 1 (1 * 32 + 31)) = none ∧ (coreOf (tileMachine []) 0).queue.length < 16 ∧
    ¬ (coreOf (tileMachine fullQueue) 0).queue.length < 16 := by decide +kernel
/-- `acst` of one row of one element as f32 to the scratchpad. -/
theorem test_meets_acst : FullS tileTeam (span 20 4) ∧
    (let ops := (List.range 4).map fun i => tileTeam.rs (20 + i)
     let f := (tileTeam.rs 22).toNat
     bits f 32 4 < 5 ∧ bits f 37 11 = 0 ∧ (tileTeam.rs 21).toNat < 2 ^ 32 ∧ (tileTeam.rs 23).toNat < 2 ^ 32 ∧ 1 ≤ bits f 0 16 ∧ bits f 0 16 ≤ 128 ∧
       1 ≤ bits f 16 16 ∧ bits f 16 16 ≤ 128 ∧
       noteMisses (tileMachine []) 0 tileTeam ((List.range (bits f 0 16)).map fun i => tileTeam.rs 20 + BitVec.ofNat 64 (i * (tileTeam.rs 21).toNat)) = tileMachine [] ∧
       acstFault (tileMachine []) 0 (bandKey 0) ops = none ∧ acstWaits (tileMachine []) 0 (bandKey 0) ops = false) := by decide +kernel
/-- Row 1 and row 128 of an accumulator; its version; the faulted one. -/
theorem test_meets_accumulators : tileTeam.okV false 63 = true ∧ FullV tileTeam [63] ∧ FullS tileTeam [3, 4] ∧ 128 ≤ (tileTeam.rs 4).toNat ∧
    (tileTeam.rs 3).toNat < 128 ∧ (∀ q ∈ (coreOf (tileMachine []) tileTeam.core).queue, q.crew = crewKey 0 → q.acc ≠ (1 : BitVec 3).toNat) ∧
    ((crewOf (tileMachine []) 0).accEcc = {} ∧ bit (crewOf (tileMachine []) 0).accFault.toNat 1 = false ∧ bit ({ tileCrew with accFault := 2 } : Crew).accFault.toNat 1 = true) ∧
    ((laneList tileTeam tileTeam.present).filter fun L => decide (L < 128)) ≠ [] ∧ FullS tileTeam [31, 30] ∧ tileTeam.heldPipe 1 = none := by decide +kernel

/-- An `mma`, an `acz` and an `acst` that the array may start. -/
def mmaCmd : ArrayCmd := { team := some 0, word := 0xA530013B }
def aczCmd : ArrayCmd := { team := some 0, word := 0xA540003B }
def acstCmd : ArrayCmd := { team := some 0, word := 0xA5750001, ops := [pad0, 512, 0x10001, 0] }
theorem test_meets_array_commands : nextCmd (tileMachine [mmaCmd]) 0 = some mmaCmd ∧ mmaCmd.op = 3 ∧ (tileMachine [mmaCmd]).upset = none ∧
    tileCrew.tileEcc = {} ∧ tileCrew.accEcc = {} ∧
    (tilePoisoned tileCrew (tileA mmaCmd.word) || tilePoisoned tileCrew (tileB mmaCmd.word)) = false ∧
    (shapeOf (tsOf tileCrew (tileA mmaCmd.word))).ety ≠ 7 ∧ (shapeOf (tsOf tileCrew (tileA mmaCmd.word))).rows ≤ 128 ∧
    (shapeOf (tsOf tileCrew (tileB mmaCmd.word))).rows ≤ 128 ∧ tilePoisoned { tileCrew with tilePoison := [0] } (tileA mmaCmd.word) = true ∧
    nextCmd (tileMachine [aczCmd]) 0 = some aczCmd ∧ aczCmd.op = 4 ∧ nextCmd (tileMachine [acstCmd]) 0 = some acstCmd ∧ acstCmd.op = 7 ∧
    acstCmd.team = some 0 ∧ (tileMachine [acstCmd]).teams.lookup 0 = some tileTeam ∧ bit tileCrew.accFault.toNat acstCmd.acc = false ∧
    bit ({ tileCrew with accFault := 2 } : Crew).accFault.toNat acstCmd.acc = true ∧ acstReady (tileMachine [acstCmd]) 0 0 acstCmd = true := by decide +kernel

/-! ### The word path and the homes -/

/-- A load of one word that waits; a word of it on its way. -/
def oneLoad (st : Stage) : LoadOp := { words := [{ pa := 0x1000, va := 0x1000, stage := st }], dst := .vec 3 false }
def loadMachine (st : Stage) : State := { machine memTeam with loads := [oneLoad st] }
theorem test_meets_collector : ((loadMachine .waiting).loads.find? fun o => o.core == 0 && o.words.any fun w => w.stage == .waiting) = some (oneLoad .waiting) ∧
    collectorEntries (loadMachine .waiting) 0 + ([0].eraseDups).length ≤ 256 ∧ fillWaits (loadMachine .waiting) 0 .l1 0x1000 = false ∧
    held (l1Of (loadMachine .waiting) 0) 0x1000 = none ∧ sound (l1Of (loadMachine .waiting) 0) 0x1000 = true ∧ (oneLoad .waiting).words ≠ [] ∧
    (∀ x ∈ (loadMachine .waiting).loads, ∃ w ∈ x.words, w.isHere = false) := by decide +kernel
/-- A request gathering words, one at its slice for a word of its own die's home, one for another die's, and one whose word the slice holds. -/
def oneReq (sb : Nat) : Req := { sb := sb, mask := 1 }
def sliceMachine (sb : Nat) (l2 : NMap (NMap Blk)) : State := { machine memTeam with misses := [{ sb := sb, mask := 1 }], l2q := [oneReq sb], l2 := l2 }
theorem test_meets_slices : ((sliceMachine 16 []).misses.filter fun m => m.core == 0 && !m.sent)[0]? = some { sb := 16, mask := 1 } ∧
    (sliceMachine 16 []).l2q[0]? = some (oneReq 16) ∧ (oneReq 16).mask ≠ 0 ∧ (oneReq 16).point ≠ .home ∧
    (∀ i ∈ maskWords (oneReq 16).mask, held (l2Of (sliceMachine 16 []) 0) (16 * 256 + 4 * i) = none ∧ heldDirty (l2Of (sliceMachine 16 []) 0) (16 * 256 + 4 * i) = false ∧
      sound (l2Of (sliceMachine 16 []) 0) (16 * 256 + 4 * i) = true) ∧
    homeDie (0 * 256) = 0 ∧ (∃ n < 64, homeDie (n * 256 * 16) ≠ 0) ∧
    (∀ i ∈ maskWords (oneReq 16).mask, (held (l2Of (sliceMachine 16 [(0, [(16, { valid := 1 })])]) 0) (16 * 256 + 4 * i)).isSome = true ∧
      sound (l2Of (sliceMachine 16 [(0, [(16, { valid := 1 })])]) 0) (16 * 256 + 4 * i) = true) := by decide +kernel
/-- The words of superblock 16 on their way to the L1 of core 0. -/
def oneFill : Fill := { req := oneReq 16, data := [(0, .ok 7)] }
theorem test_meets_fills : ({ loadMachine .flying with fills := [oneFill] } : State).fills[0]? = some oneFill ∧ oneFill.toL2 = false ∧
    oneFill.data = [(0, .ok 7)] ∧ oneFill.req.point = .l1 ∧ (loadMachine .flying).teams.lookup 0 = some memTeam ∧ 0x1000 = oneFill.req.sb * 256 + 4 * 0 ∧
    (loadMachine .flying).loads = [{ id := 0, team := 0, core := oneFill.req.core, dst := .vec 3 false, point := .l1, inval := false, hint := 0, flags := 0, words := [{ lane := 0, part := 0, pa := 0x1000, va := 0x1000, key := 0, epoch := oneFill.req.epoch, stage := .flying }] }] ∧
    held (l1Of (loadMachine .flying) oneFill.req.core) 0x1000 = none := by decide +kernel
/-- A publication to its slice, one to its home, and one whose home is on another die. -/
def onePub (toHome passed : Bool) (pa : Nat) : Pub := { pa := pa, toHome := toHome, passed := passed }
theorem test_meets_publications : (∀ p ∈ [onePub false false 0, onePub true false 0, onePub true true 0],
    ({ machine team with pubs := [p] } : State).pubs[0]? = some p ∧ p.sent = false ∧ ∀ q ∈ ({ machine team with pubs := [p] } : State).pubs.take 0, ¬ (q.core = p.core ∧ q.pa = p.pa)) ∧
    homeDie (onePub true true 0).pa = (onePub true true 0).die ∧ (∃ n < 64, homeDie (onePub true true (n * 4096)).pa ≠ (onePub true true (n * 4096)).die) := by decide +kernel
/-- A read at a home, a burst, a retraining, a write whose CRC was wrong, and a block's procedure. -/
theorem test_meets_homes : ({ machine team with homeq := [.read (oneReq 16)] } : State).homeq[0]? = some (.read (oneReq 16)) ∧
    (∀ pa ∈ (maskWords (oneReq 16).mask).map fun i => 16 * 256 + 4 * i, homeReady { machine team with homeq := [.read (oneReq 16)] } pa false = true ∧
      region pa = .dram ∧ held (mscOf (machine team) (stackNo pa)) pa = none ∧ sound (mscOf (machine team) (stackNo pa)) pa = true) ∧
    (∀ b ∈ [({ words := [0x1000], tries := 2 } : Burst), { words := [0x1000], tries := 3 }, { words := [0x1000], tries := 4 }],
      ({ machine team with bursts := [b] } : State).bursts[0]? = some b ∧ b.retraining = false ∧ b.held = []) ∧
    ({ machine team with bursts := [{ retraining := true }] } : State).bursts = [{ retraining := true }] ∧
    ({ machine team with writeJobs := [{ tries := 3 }] } : State).bursts = [] ∧ 3 ≤ ({ tries := 3 } : WriteJob).tries ∧ ({ tries := 3 } : WriteJob).retrains = 0 ∧
    ({ retrains := 1 } : WriteJob).retrains ≠ 0 ∧ region 0x1000 = .dram ∧ ((machine team).writeJobs.find? fun j => j.pa == 0x1000).getD { pa := 0x1000 } = { pa := 0x1000 } := by
  decide +kernel
theorem test_meets_block : ({ machine team with blocks := [{ block := 8, req := some (oneReq 16) }] } : State).blocks[0]? =
    some { block := 8, req := some (oneReq 16) } := rfl
/-! ### Stacks and Sparge -/

theorem test_meets_scrub : ({ machine team with flips := [(0x1000, 1)] } : State).flips = [(0x1000, 1)] ∧ region 0x1000 = .dram ∧
    stackNo 0x1000 < 16 ∧ retiredAt { machine team with flips := [(0x1000, 1)] } 0x1000 = false ∧
    (senseWord { machine team with flips := [(0x1000, 1)] } 0x1000 0).1 = .dataBit 0 ∧
    ∀ k < 16, (dram { machine team with flips := [(0x1000, 1)] } k).deltas = [] := by decide +kernel
/-- Stacks that a spare goes into, that has one, and one whose copy is under way; bank sets that are removed and that sleep. -/
def stackMachine (d : Stack) : State := { machine team with drams := [(0, d)] }
theorem test_meets_spares : (15 < 16 ∧ 511 < 512) ∧ (dram (stackMachine {}) 15).spared.lookup 511 = none ∧ (dram (stackMachine {}) 15).sparing.lookup 511 = none ∧
    ((dram (stackMachine { spared := [(511, 3)] }) 0).spared.lookup 511).isSome = true ∧
    (dram (stackMachine { sparing := [(511, 15)] }) 0).sparing.lookup 511 = some 15 ∧
    4 * 511 + 3 ∈ (dram (stackMachine { retiring := [2047] }) 0).retiring ∧
    (∀ e ∈ mscOf (stackMachine { msc := [(0, {})] }) 0, deepBlock 0 e.1 = true → e.2.host = 0) ∧ (dram (stackMachine { deep := true }) 0).deep = true := by decide +kernel

/-- A tenant whose page tables map page 0, and a kernel descriptor of one row, 8 registers, one team and one crew at 0x1000. -/
def tables : List Host.Cell := [(0x1008, 1), (0x1009, 8), (0x1010, 1), (0x1018, 1), (0x2000, 1), (0x2001, 0x40), (0x4000, 1), (0x4001, 0x60), (0x6000, 1), (0x6001, 0x80), (0x8000, 0x33)]
def tenant0 : Tenant := { created := true, pageRoot := 0x2000, quads := [(0, 0)], cents := [0, 1, 2, 3], keyed := true }
def hostMachine : State := { cores := [(0, { tlb := [page] })], mem := tables, tenants := [(0, tenant0)], ready := 0x3FFFFFFF }
theorem test_meets_page_walk : ({ hostMachine with walks := [{}] } : State).walks.find? (fun w => w.core == 0 && w.va / 65536 == 0x1000 / 65536) = some {} ∧
    pickLeaf { hostMachine with walks := [{}] } (walk { hostMachine with walks := [{}] } 0 0) = some page ∧
    walkLate { hostMachine with walks := [{}] } 0 0 = none ∧
    (∀ e ∈ walkReads { hostMachine with walks := [{}] } 0 0, sound (mscOf hostMachine (stackNo e)) e = true ∧ sound (mscOf hostMachine (stackNo (e + 4))) (e + 4) = true) ∧ ({ overlapped := true } : Walk).overlapped = true := by decide +kernel

/-- A message that waits for die 1, its fragment on the way, and it again when its acknowledgement is awaited. -/
def oneMsg : Msg := { src := 0, dst := 1, len := 16, cargo := .reads (oneReq 16) }
def sentMsg (c : Cargo) : Msg := { oneMsg with id := 5, sent := true, cargo := c, owner := 3 }
def linkMachine (ms : List Msg) (fs : List Frag) (inbox : List Msg) : State := { machine team with msgs := ms, frags := fs, inbox := inbox }
theorem test_meets_message_send : ((linkMachine [oneMsg] [] []).msgs.filter fun m => m.src == 0 && !m.sent) = oneMsg :: [] ∧
    (linkMachine [oneMsg] [] []).msgs.head? = some oneMsg ∧ oneMsg.cls ≠ 7 ∧
    ((linkMachine [oneMsg] [] []).msgs.filter fun x => x.src == oneMsg.src && x.dst == oneMsg.dst && x.cls != 7 && x.sent).length < 128 ∧
    bit (look 0 (linkMachine [oneMsg] [] []).spinj 0).toNat 0 = false ∧ usablePaths (linkMachine [oneMsg] [] []) 0 1 0 ≠ [] := by decide +kernel
/-- An intact fragment of 64 bytes is valid and reads as what was sent; with one bit changed it is not valid. -/
def oneFrag : Frag := fragOf (sentMsg (.reads (oneReq 16))) 0 0
theorem test_meets_fragment_bytes : oneFrag.bytes.length = 64 ∧ (∀ b ∈ oneFrag.bytes, b < 256) ∧
    (let bs := flipBytes (fragImage 3 oneFrag) 0
     bs.length = 80 ∧ imageValid bs = true ∧ oneFrag.asRead bs = oneFrag) ∧ imageValid (flipBytes (fragImage 3 oneFrag) 0x100000000000000000000) = false := by decide +kernel
theorem test_meets_fragments : (linkMachine [] [oneFrag] []).frags[0]? = some oneFrag ∧ oneFrag.delayed = false ∧ (sentMsg (.reads (oneReq 16))).cls < 6 ∧
    (sentMsg (.reads (oneReq 16))).cargo = .reads (oneReq 16) ∧ ((sentMsg (.reads (oneReq 16))).id + 65536 - (look ({} : Rx) [] 8).low) % 65536 < 128 ∧
    (sentMsg (.reads (oneReq 16))).id ∉ (look ({} : Rx) [] 8).done ∧ (sentMsg (.reads (oneReq 16))).k = 1 ∧
    ((linkMachine [] [{ delayed := true }] []).frags.zipIdx.filter fun f => f.1.delayed)[0]? = some ({ delayed := true }, 0) := by decide +kernel
theorem test_meets_inbox : (∀ c ∈ [Cargo.ack 5, .repair 5 0, .poison [0x1000], .loss 0 5 [oneReq 16] []],
      (linkMachine [sentMsg (.ack 0)] [] [{ src := 1, dst := 0, cls := 7, cargo := c }]).inbox = { src := 1, dst := 0, cls := 7, cargo := c } :: []) ∧
    ((linkMachine [sentMsg (.ack 0)] [] []).msgs.find? fun x => x.src == 0 && x.dst == 1 && x.sent && x.id == 5) = some (sentMsg (.ack 0)) ∧
    (5 + 65536 - (look ({} : Rx) [] 1).low) % 65536 < 128 ∧ 5 ∉ (look ({} : Rx) [] 1).done := by decide +kernel
theorem test_meets_repairs : (sentMsg (.ack 0)).attempts < 2 ∧ usablePaths (linkMachine [] [] []) (sentMsg (.ack 0)).src (sentMsg (.ack 0)).dst (sentMsg (.ack 0)).cls ≠ [] ∧
    (retained (linkMachine [sentMsg (.pubs [1])] [] []) 0)[0]? = some (sentMsg (.pubs [1])) ∧ 2 ≤ ({ sentMsg (.pubs [1]) with attempts := 2 } : Msg).attempts ∧
    (sentMsg (.pubs [1])).owner ≠ 0 ∧ (sentMsg (.pubs [1])).cargo = .pubs [1] ∧
    ((List.range 8).flatMap fun src => (look {} [(0, ({ parts := [{ msg := oneMsg }] } : Rx))] (8 * 0 + src)).parts)[0]? = some { msg := oneMsg } ∧
    1 ≤ 6 ∧ 7 ≤ 7 := by decide +kernel

/-! ### The host -/

def hostLine : Nat := 0x8000000000000
def heldMachine (b : Blk) : State := { machine team with drams := [(stackNo hostLine, { msc := [(hostLine / 256, b)] })] }
/-- The host holds no line of 0x1000, and nothing has been asked of it. -/
theorem test_meets_host_reads : region 0x1000 = .dram ∧ asked (machine team) 0x1000 = false ∧ hostField (machine team) 0x1000 < 2 := by decide +kernel
/-- Snoops of a line that the home owns clean, dirty and full, and dirty in part. -/
theorem test_meets_host_snoops : region hostLine = .host ∧ (∀ b ∈ [({ host := 2 } : Blk), { host := 2, valid := 0xFFFF, dirty := 1 }, { host := 2, valid := 1, dirty := 1 }],
      2 ≤ hostField (heldMachine b) hostLine) ∧ lineDirty (heldMachine { host := 2 }) hostLine = false ∧
    lineDirty (heldMachine { host := 2, valid := 0xFFFF, dirty := 1 }) hostLine = true ∧ lineFull (heldMachine { host := 2, valid := 0xFFFF, dirty := 1 }) hostLine = true ∧
    lineDirty (heldMachine { host := 2, valid := 1, dirty := 1 }) hostLine = true ∧ lineFull (heldMachine { host := 2, valid := 1, dirty := 1 }) hostLine = false := by decide +kernel
theorem test_meets_host_answers : (∀ a ∈ [Ask.backInvalidate true, .ownership, .sharedRead],
      ({ machine team with asks := [{ line := hostLine / 64, ask := a }] } : State).asks[0]? = some { line := hostLine / 64, ask := a }) ∧
    held (mscOf (setHostField { machine team with asks := [] } (hostLine / 64 * 64) 1) (stackNo (hostLine / 64 * 64))) (hostLine / 64 * 64) = none := by decide +kernel
/-- Translations of the host, extents, and the window's ends. -/
theorem test_meets_host_translations : (∀ b ∈ [false, true], ({ machine team with ats := [{ asked := b }] } : State).ats[0]? = some { asked := b }) ∧
    (14 < 16 ∧ 14 % 4 ≤ 2) ∧ (11 < 12 ∧ 0x10000000 ≠ 0 ∧ 0x10000000 % 0x10000000 = 0) ∧
    extentFits [{ base := 0x80000000000, size := 0x10000000 }] 0x80010000000 0x10000000 = true ∧
    extentFits [{ base := 0x80000000000, size := 0x10000000 }] 0x80000000000 0x10000000 = false ∧ 0x10000000 + 0x10000000 ≤ 0x180000000000 ∧
    (∀ r ∈ [false, true], ({ machine team with extents := [{ releasing := r }] } : State).extents[0]? = some { releasing := r }) ∧
    extentBusy { machine team with extents := [{ releasing := true }] } { releasing := true } = false := by decide +kernel
/-- No access is under way that an invalidation waits for; a boundary finds writes held behind the host's answer, and none; a line of host
memory that is held in M gets a shared read. -/
theorem test_meets_held_writes : (machine team).loads = [] ∧ (machine team).msgs = [] ∧
    homesHold (boundary346 (machine team)) = false ∧
    homesHold (boundary346 { machine team with asks := [{ writes := [{}] }] }) = true ∧
    hostField (heldMachine { host := 2, valid := 1, dirty := 1 }) hostLine = 2 ∧
    lineDirty (heldMachine { host := 2, valid := 1, dirty := 1 }) hostLine = true := by decide +kernel

/-! ### Launches and bands -/

/-- A launch of one band on any quad of die 0 at queue 0 of tenant 0, its descriptor read and not, and one whose descriptor is bad. -/
def kernel : Kernel := { entry := 0x100 }
def launch (read : Bool) (desc : DWord) : Launch :=
  { packet := [0x100000048, desc, 0, 0xFF00], read := read, stages := if read then [{ kernel := kernel, maxb := 1 }] else [] }
def launchMachine (l : Launch) : State := { hostMachine with launches := [(7, l)] }
theorem test_meets_new_team : (((launch true 0x1000).stages.getD 0 {}).kernel.rows ≤ 32) ∧ (launch true 0x1000).pipe = false ∧ (9 : Nat) ≠ 0 := by decide +kernel
theorem test_meets_launch_head : headOf (launchMachine (launch false 0x1000)) 0 0 = some (7, launch false 0x1000) ∧ (launch false 0x1000).read = false ∧
    (launch false 0x1000).pipe = false ∧ (launch false 0x1000).gang = false ∧
    (readKernel (launchMachine (launch false 0x1000)) (launch false 0x1000) 0x1000).2 = some { entry := 0 } ∧
    placeable (readKernel (launchMachine (launch false 0x1000)) (launch false 0x1000) 0x1000).1 (launch false 0x1000) { entry := 0 } = true ∧
    (readKernel (launchMachine (launch false 0x1000)) (launch false 0x1000) 0x1000).1.late = false ∧
    (readKernel (launchMachine (launch false 0x20000)) (launch false 0x20000) 0x20000).2 = none ∧
    (readKernel (launchMachine (launch false 0x20000)) (launch false 0x20000) 0x20000).1.late = false ∧
    placeable (readKernel { launchMachine (launch false 0x1000) with tenants := [] } (launch false 0x1000) 0x1000).1 (launch false 0x1000) { entry := 0 } = false := by decide +kernel
theorem test_meets_placement : bit (launchMachine (launch true 0x1000)).ready.toNat 0 = true ∧ (serve (launchMachine (launch true 0x1000)) 0).isSome = true ∧
    headOf (launchMachine (launch true 0x1000)) 0 0 = some (7, launch true 0x1000) ∧ ((canPlace (launchMachine (launch true 0x1000)) 7 (launch true 0x1000)).map fun r => (r.1, r.2.1)) = some (0, 0) := by
  decide +kernel
/-- The head of queue 0, of priority 7 in a partition of one quad, has waited past its quantum of 1 for a band of priority 0. -/
def hungry : Launch := { launch true 0x1000 with packet := [0x100001C48, 0x1000, 0, 0xFF00] }
def victim : Band := { band with launch := 8 }
def hungryMachine : State :=
  { machine team with bands := [(0, victim)], launches := [(7, hungry)], blocked := [(0, (7, 0))], tick := 1001, tenants := [(0, { tenant0 with lqcfg := 0x11111 })], ready := 0x3FFFFFFF }
theorem test_meets_quantum : headOf hungryMachine 0 0 = some (7, hungry) ∧ hungryMachine.blocked.lookup 0 = some (7, 0) ∧
    bits (tenantOf hungryMachine hungry.tenant).lqcfg.toNat 16 32 ≠ 0 ∧ 1000 * bits (tenantOf hungryMachine hungry.tenant).lqcfg.toNat 16 32 < hungryMachine.tick - 0 ∧
    (canPlace hungryMachine 7 hungry).isNone = true ∧ fitsNow hungryMachine 7 hungry = false ∧ (nextStage hungryMachine 7 hungry).isSome = true ∧ hungry.gang = false ∧ hungryMachine.bands = [(0, victim)] ∧
    victim.tenant = hungry.tenant ∧ victim.die ∈ allowedDies hungryMachine hungry.tenant hungry.packet ∧ victim.prio < hungry.prio ∧ victim.run ∉ [Run.saved, .stopping, .halted, .stopped] := by decide +kernel
theorem test_meets_gang_start : (launchOf { machine team with launches := [(7, { startTick := some 4096 })], tick := 4096 } 7).startTick = some 4096 ∧ 4096 ≤ 4096 := by decide +kernel
/-- A pipeline of two stages: the first has no queue before it and a band to give, the second has work and no band. -/
def pipeStages : List PipeStage := [{ inq := 0xA000, minb := 0, maxb := 1, started := 1 }, { minb := 0, maxb := 1 }]
def pipeLaunch : Launch := { packet := [0x100020048], read := true, stages := pipeStages }
def pipeRun : State := { hostMachine with launches := [(7, pipeLaunch)], bands := [(0, { launch := 7 })] }
theorem test_meets_balancer : launchOf pipeRun 7 = pipeLaunch ∧ pipeLaunch.pipe = true ∧ pipeLaunch.read = true ∧ pipeLaunch.ended = false ∧
    pipeLaunch.stages = [{ inq := 0xA000, minb := 0, maxb := 1, started := 1 }, { minb := 0, maxb := 1 }] ∧
    (let a := stageFill pipeRun pipeLaunch { inq := 0xA000, minb := 0, maxb := 1, started := 1 }
     let b := stageFill a.1 pipeLaunch { minb := 0, maxb := 1 }
     a.2 < 32 ∧ 128 ≤ b.2 ∧ b.1.late = false ∧ 0 < (stageBands b.1 7 0 false).length ∧
     (stageBands b.1 7 0 false).getLast? = some (0, { launch := 7 }) ∧ (stageBands b.1 7 1 false).length ≤ 0) := by decide +kernel
theorem test_meets_points : (dieOf { machine team with dies := [(0, { settling := true })] } 0).settling = true ∧
    (∀ g ∈ ({ launch true 0 with stages := [{ maxb := 1, retired := 1 }] } : Launch).stages, g.retired = g.maxb) ∧
    launchOf { machine team with launches := [(7, { launch true 0 with stages := [{ maxb := 1, retired := 1 }] })] } 7 = { launch true 0 with stages := [{ maxb := 1, retired := 1 }] } := by
  decide +kernel
/-- A band that stops, with nothing to hold it back, and a saved one that has room again. -/
def bandMachine (b : Band) : State := { hostMachine with teams := [(0, team)], crews := [(0, crew)], bands := [(0, b)], launches := [(7, launch true 0x1000)], cur := some 0 }
theorem test_meets_preemption : (bandMachine { band with run := .stopping }).bands.lookup 0 = some { band with run := .stopping } ∧
    drained (bandMachine { band with run := .stopping }) 0 = true ∧
    (bandMachine { band with run := .saved, launch := 7 }).bands.lookup 0 = some { band with run := .saved, launch := 7 } ∧
    bit (bandMachine { band with run := .saved, launch := 7 }).ready.toNat 0 = true ∧ (resumeLayout (bandMachine { band with run := .saved, launch := 7 }) 0).isSome = true ∧
    (launchOf (bandMachine { band with run := .saved, launch := 7 }) 7).gang = false ∧ (launchOf (bandMachine { band with run := .saved, launch := 7 }) 7).pipe = false ∧
    (∀ e ∈ bandTeams (bandMachine { band with run := .saved, launch := 7 }) 0, bit e.2.dbgctl.toNat 0 = false ∧ bit e.2.dbgctl.toNat 1 = false) ∧
    (resumeBand 0 (bandMachine { band with run := .saved, launch := 7 })).late = false ∧ (bandMachine band).launches.lookup 7 = some (launch true 0x1000) ∧ (launch true 0x1000).ended = false := by decide +kernel
def countedBand : Band := { band with ptrig := 0x8000000000000003 }
theorem test_meets_ptrig : (bandMachine countedBand).bands.lookup 0 = some countedBand ∧
    ({ bandMachine countedBand with teams := [(0, { team with count := 3 })] } : State).teams.lookup 0 = some { team with count := 3 } ∧
    (16 * (16 * 0 + bits countedBand.ptrig.toNat 36 4) + bits countedBand.ptrig.toNat 32 4 = 0) ∧ bit countedBand.ptrig.toNat 63 = true ∧
    bits countedBand.ptrig.toNat 0 32 ≤ 3 ∧ countedBand.run = .going := by decide +kernel
/-- A team stopped by a debugger, with STEP and with STEPL set, and a band that halted. -/
theorem test_meets_debugger : (bandMachine { band with run := .stopped }).teams.lookup 0 = some team ∧ (bandOf (bandMachine { band with run := .stopped }) (bandKey 0)).run = .stopped ∧
    bit ({ team with dbgctl := 1 } : Team).dbgctl.toNat 0 = true ∧ bit ({ team with dbgctl := 2 } : Team).dbgctl.toNat 1 = true ∧ team.hold = .free ∧
    (bandMachine band).bands.lookup 0 = some band ∧ band.run = .going ∧ (bandMachine { band with run := .halted }).bands.lookup 0 = some { band with run := .halted } ∧
    (dieOf (bandMachine { band with run := .halted }) 0).off = false ∧
    ∀ e ∈ bandTeams (bandMachine { band with run := .halted }) 0, bit e.2.dbgctl.toNat 0 = false ∧ bit e.2.dbgctl.toNat 1 = false := by decide +kernel
/-! ### Engines -/

/-- A copy queue at 0x9000 with one packet rung, its scope W0[6:4], its stamp W4. -/
def engineMachine (scope stamp : BitVec 8) : State :=
  { cores := [(0, { tlb := [page] })], queues := [(3, { va := 0x9000 })], ready := 0x3FFFFFFF,
    mem := [(0x9000, 1), (0x9008, 1), (0x9018, 4), (0x9040, scope)] ++ if stamp = 0 then [] else [(0x9060, stamp)] }
def engineHeader : List (Nat × Nat) := homeWords 0x9000 16
def rung (s : State) : State × Datum × Header := readHeader (ringDoors s 0 0 engineHeader 65536) 0 0 engineHeader
def rungPacket (s : State) : State × Option (List DWord) := walkerPacket (rung s).1 0 0 (slotVa 0x9000 (rung s).2.2 (rung s).2.2.ridx)
theorem test_meets_packet_start : (engineMachine 0x40 0).queues.lookup 3 = some { va := 0x9000 } ∧ bit (engineMachine 0x40 0).ready.toNat 24 = true ∧
    (walkerPlaces (engineMachine 0x40 0) 0 0 0x9000).2 = some engineHeader ∧ (∀ x ∈ [0x40, 0x70], (takePacket 0 3 (engineMachine x 0)).late = false) ∧
    (takePacket 0 3 (engineMachine 0x40 4)).late = false ∧
    (rung (engineMachine 0x40 0)).2.1 = .ok 0 ∧ (rung (engineMachine 0x40 0)).2.2.ridx < (rung (engineMachine 0x40 0)).2.2.door ∧
    (rung (engineMachine 0x40 0)).2.2.log2n = 4 := by decide +kernel
/-- A good packet, one with the reserved scope, and one whose stamp is misaligned. -/
theorem test_meets_packet_checks : (rungPacket (engineMachine 0x40 0)).2 = some [0x40, 0, 0, 0, 0, 0, 0, 0] ∧
    startCheck (rungPacket (engineMachine 0x40 0)).1 none [0x40, 0, 0, 0, 0, 0, 0, 0] = none ∧
    engineAt (rungPacket (engineMachine 0x40 0)).1 0 0 none 8 0 .write = .go (.mem 0 0 false) ∧ packetSpst [0x40] = false ∧
    startCheck (engineMachine 0x70 0) none [0x70] = some cILLOP ∧ engineAt (engineMachine 0x40 4) 0 0 none 8 4 .write = .fault cMALIGN := by decide +kernel
/-- A copy of one word from 0x1000 to 0x2000 on the way, one that has landed for crew 0, and one with no crew. -/
def oneCopy : Copy := { packet := [0x40, 0x1000, 0x2000, 4, 0x3000, 1, 0, 0] }
def copyMachine (c : Copy) : State := { machine team with copies := [c] }
theorem test_meets_copy_read : (copyMachine oneCopy).copies[0]? = some oneCopy ∧ packetKind oneCopy.packet = 0 ∧
    (let r := moveWords (copyMachine oneCopy) oneCopy (min (oneCopy.words - oneCopy.next) (64 - (pw oneCopy.packet 1 / 4 + oneCopy.next) % 64)) []
     r.2.2.1.next = 1 ∧ r.2.2.2.isNone = true ∧ (sendCopyWords r.1 r.2.2.1 r.2.1).1.late = false) := by decide +kernel
theorem test_meets_copy_complete : ({ oneCopy with next := 1 } : Copy).landed = true ∧ ({ oneCopy with next := 1 } : Copy).dests = [] ∧
    ({ oneCopy with next := 1, dests := [0] } : Copy).dests[0]? = some 0 ∧ 0 ∉ ({ oneCopy with next := 1, dests := [0] } : Copy).done ∧
    ((copyMachine oneCopy).crews.lookup 0).isSome = true ∧ (∀ c ∈ [({ oneCopy with next := 1 } : Copy), { oneCopy with next := 1, dests := [0] }],
      (completeCopy 0 0 (copyMachine c)).late = false) ∧ packetChain oneCopy.packet = false ∧
    (({ machine team with groups := [{ die := 7 }] } : State).groups.filter fun g => g.die == 7)[0]? = some { die := 7 } := by decide +kernel
/-- An exchange of one rank on this module, not yet matched; a bad participant; and an allgather that is complete. -/
def onePart : Part := { packet := [0x30044, 0x1000, 0x2000, 1, 0x3000, 1, 0, 0], n := 1 }
def partMachine (p : Part) (es : List Exchange) : State := { machine team with parts := [p], exchanges := es }
def oneExchange : Exchange := { uid := 5, data := [[7]], bad := [0] }
theorem test_meets_collective_match : (partMachine onePart []).parts[0]? = some onePart ∧ onePart.exchange = none ∧ onePart.bad = 0 ∧ ({ onePart with bad := 1 } : Part).bad ≠ 0 ∧
    (onePart.gid, onePart.turn) ∉ (partMachine onePart []).collFailed ∧ (matched (partMachine onePart []) onePart).length = onePart.n ∧
    (∀ q ∈ matched (partMachine onePart []) onePart, q.key = onePart.key ∧ q.n = onePart.n) ∧ onePart.kind = 3 ∧
    ∀ p ∈ [onePart, { onePart with bad := 1 }], (matchPart 0 (partMachine p [])).late = false := by decide +kernel
theorem test_meets_collective_complete : let p : Part := { onePart with exchange := some 5 }
    (partMachine p [oneExchange]).exchanges[0]? = some oneExchange ∧ ((partMachine p [oneExchange]).parts.find? fun p => p.exchange == some 5 && p.rank == 0) = some p ∧
    oneExchange.again = false ∧ (∀ f ∈ oneExchange.flying, f.1 ≠ 0 ∧ f.2 ≠ 0) ∧ sendCause oneExchange p = 0 ∧ recvLen p = 1 ∧
    (let r := writeRecv (partMachine p [oneExchange]) oneExchange p (recvLen p - p.next) p.next
     r.2.1 = 1 ∧ r.2.2.isNone = true) ∧ p.done = false ∧ (completePart 0 0 (partMachine p [oneExchange])).late = false ∧ packetSpst p.packet = false ∧
    ({ onePart with packet := [0x20044] } : Part).kind = 2 := by decide +kernel

/-- An act that has to wait is taken back. -/
theorem test_meets_attempt : ((fun s : State => { s with late := true }) { machine team with late := false }).late = true := rfl

/-! ### The platform -/

theorem test_meets_alarms : 2 ≤ 2 ∧ bits (machine team).almpol.toNat 0 2 = 2 ∧ bits ({ machine team with almpol := 0 } : State).almpol.toNat 4 2 = 0 ∧
    7 ≤ 7 ∧ 29 ≤ 29 ∧ ({ machine team with verified := true } : State).verified = true := by decide +kernel
theorem test_meets_management : (machine team).bootFailed = false ∧ 99999 < 100000 ∧ (tenantOf (machine team) 15).created = false ∧
    (∀ j < 0, (tenantOf (machine team) j).created = true) ∧
    (∀ j < 16, (tenantOf { machine team with tenants := (List.range 16).map fun i => (i, { created := true }) } j).created = true) ∧
    tenantBusy (machine team) 0 = false ∧ tenantBusy (launchMachine (launch false 0)) 0 = true ∧ (1 : BitVec 2).toNat < 2 ∧ heldLines (machine team) 0 = [] ∧
    bit (windowOf (machine team) 15).ctl.toNat 0 = false ∧ bit (windowOf { machine team with windows := [(15, { ctl := 1 })] } 15).ctl.toNat 0 = true := by decide +kernel

/-! ### Further cases of the statements -/

/-- R12, R129: a store waits while a word of it is under way, or while the collector has no room. -/
def busyLoad : LoadOp := { words := (List.range 256).map fun i => { lane := i, pa := 0x1000 + 4 * i, va := 0x1000 + 4 * i, stage := .flying }, dst := .vec 3 false }
theorem test_meets_store_cases : wordBusy { machine memTeam with loads := [busyLoad] } 0 0x1000 = true ∧
    collectorRoom { machine memTeam with loads := [busyLoad] } 0 [0] = false ∧ collectorRoom (machine memTeam) 0 [0, 1, 2, 3] = true ∧
    (storeOf memTeam (.stBase 63 9 2 4 false)).ord = 2 ∧ (storeOf memTeam (.stBase 63 9 2 4 false)).scope ≠ 7 ∧ Published (machine memTeam) 0 memTeam ∧
    plainOrder 2 2 4 = true ∧ loadWaits { machine memTeam with loads := [busyLoad] } 0 .l2 [(0, 0x1000, .mem 0x1000 0 false)] 1 = true := by decide +kernel

/-- R127: a stamp in memory that can be read, and a wait for it; a team that is at no `mwait`, and one whose limit has not passed. -/
def stampWait : Team := { team with hold := .mwait 9 0x1000 0x1000 8 4 true 0 1, mwto := 1 }
theorem test_meets_mwait_cases : checkAddr (machine stampWait) 0 0 8 (BitVec.ofNat 64 0x1000) .read = .go (.mem 0x1000 0 false) ∧
    (let point := clampPoint (pointOf 4) [.mem 0x1000 0 false]
     let r := readStamp (machine stampWait) 0 0 point (.mem 0x1000 0 false) 0
     stampReady (machine stampWait) 0 0 point (.mem 0x1000 0 false) = true ∧ r.2.1.cause = 0 ∧ stampMet r.2.2 8 = false ∧ stampMet r.2.2 0 = true) ∧
    (machine team).teams.lookup 0 = some team ∧ team.hold = .free ∧ stampWait.hold = .mwait 9 0x1000 0x1000 8 4 true 0 1 ∧ (1 : Nat) ≠ 0 ∧
    checkAddr (machine stampWait) 0 0 8 (BitVec.ofNat 64 0x20000) .read ≠ .go (.mem 0x20000 0 false) := by decide +kernel

/-- R169, R170: stacks whose deeper entry holds a lane, holds none, and one with a spilled entry in the mapped page. -/
def cutTeam (m : LaneMask) (sp : Nat) : Team := { team with stack := [{ mask := m, depth := 2 }], cfd := 2, spilled := sp, tstk := 0x2000, stackSize := 4096, s := [(1, 0x100), (2, 1), (3, 0x102), (4, 3)] }
theorem test_meets_cut_cases : FullS (cutTeam 8 0) [1, 2] ∧ ((cutTeam 8 0).rs 1).toNat % 4 = 0 ∧ ((cutTeam 8 0).rs 3).toNat % 4 ≠ 0 ∧
    (cutTeam 8 0).cfd.toNat < ((cutTeam 8 0).rs 4).toNat ∧ ((cutTeam 8 0).rs 2).toNat ≤ (cutTeam 8 0).cfd.toNat ∧ (cutTeam 8 0).spilled = 0 ∧
    (cutTeam 8 0).stack.any (fun e => decide (1 < e.depth.toNat) && (e.mask &&& (cutTeam 8 0).limit) != 0) = true ∧
    (cutTeam 0 0).stack.any (fun e => decide (1 < e.depth.toNat) && (e.mask &&& (cutTeam 0 0).limit) != 0) = false ∧
    0 < (cutTeam 8 1).spilled ∧ (readSpilled (machine (cutTeam 8 1)) 0 (cutTeam 8 1) 1).2.toOption.isSome = true ∧
    (readSpill (machine (cutTeam 8 1)) 0 (cutTeam 8 1) 0).2.toOption.isSome = true ∧ (wordPlaces (machine (cutTeam 8 1)) 0 (cutTeam 8 1) 4 ((cutTeam 8 1).spillVa 0) 40 .write).toOption.isSome = true ∧
    1 ≤ ((cutTeam 8 1).rs 2).toNat ∧ ((cutTeam 8 1).rs 2).toNat < 1 + 1 ∧ 37 < (38 : BitVec 8).toNat := by decide +kernel
theorem test_meets_cut_rewrites : (writeSpilled (machine (cutTeam 0 1)) 0 (cutTeam 0 1) []).toOption.isSome = true := by decide +kernel

/-- R151, R185, R191: no trap is ready; one is, of each kind. -/
theorem test_meets_trap_cases : (readyTrap (machine team) 0).isNone = true ∧ ((readyTrap (machine pendingTeam) 0).map fun r => r.1.restarts r.2.cause) = some false ∧
    ((readyTrap (machine regionTeam) 0).map fun r => r.1.restarts r.2.cause) = some true ∧ team.hold = .free := by decide +kernel

/-- R47, R209: nothing of a team to complete; a request that has its reply, one of a team that has ended, and a core with no table load. -/
theorem test_meets_nothing_to_do : ((machine team).producers.find? fun q => q.team == 0) = none ∧ ((machine team).millJobs.find? fun j => j.team == 0) = none ∧
    (machine team).services[0]? = none ∧ (∃ r, ({ machine team with services := [{ reply := some 7 }] } : State).services[0]? = some r ∧ r.reply ≠ none) ∧
    ({ machine team with services := [{ team := 5 }] } : State).teams.lookup 5 = none ∧ (coreOf (machine team) 0).tabLoads = [] := by
  refine ⟨?_, ?_, ?_, ⟨{ reply := some 7 }, ?_⟩, ?_⟩ <;> decide +kernel

/-- R227, R228: an unsorted element, and one whose stream lies in no page. -/
def unsortedMill : Mill := { fullMill with alen := 2, blen := 0 }
def unsortedMachine : State := { machine (millTeam unsortedMill) with crews := [(0, { crew with pad := [(0, 5), (1, 2)] })] }
theorem test_meets_mill_stops :
    ((mergeRun unsortedMachine 0 (millTeam unsortedMill) { unsortedMill with ctl := 0x100000002 } 4 6 { a := unsortedMill.a, b := unsortedMill.b }).2.2 matches .unsorted _ _) = true ∧
    ((mergeRun (millMachine lostMill) 0 (millTeam lostMill) { lostMill with searching := false } 4 6 { a := lostMill.a, b := lostMill.b }).2.2 matches .stop _) = true ∧
    (let g := mergeRun (millMachine fullMill) 0 (millTeam fullMill) fullMill 1 6 { a := fullMill.a, b := fullMill.b }
     (mergeRun g.1 0 (millTeam fullMill) fullMill 2 6 g.2.1).2.2 matches .done) = true := by decide +kernel
/-- R206, R234, R235: a context not settled; ill-formed contexts; sixteen held; images that fail their check, or that are no context. -/
theorem test_meets_mill_cases : (millTeam fullMill).acquiring = false ∧ (millTeam fullMill).millBusy = false ∧ 3 < (4 : BitVec 8).toNat ∧
    (∃ c, imageFault (noteMisses (millMachine fullMill) 0 (millTeam fullMill) (pageStarts 0x20000 128)) 0 (bandKey 0) 16 128 0x20000 .read = some (.fault c)) ∧
    (readPlaces (millMachine fullMill) 0 (millTeam fullMill) (padPlaces 0 32)).2 = ([2, 5, 2, 7] ++ List.replicate 28 0 : List Word).map Datum.ok ∧
    16 ≤ millsHeld { millMachine fullMill with teams := (List.range 17).map fun i => (i, millTeam fullMill) } 0 0 := by
  refine ⟨?_, ?_, ?_, ⟨5, ?_⟩, ?_⟩ <;> decide +kernel

/-- R247, R256: packets with a bound and an address that fail; a queue in the aperture, misaligned, unmapped, and with a bad LOG2N. -/
theorem test_meets_append_cases : 24 < (25 : BitVec 5).toNat ∧ (∃ v, copyCheck (machine team) 0 [0x40, pad0, 0, 4, 0, 0, 0, 0] none = some (cBOUNDS, v) ∨
      copyCheck (machine team) 1 [0x41, 0x1002, 0, 0x10100000004, 0, 0, 0, 0] (some 0) = some (cMALIGN, v)) ∧ inAperture pad0 = true ∧ (0x1010 : DWord).toNat % 64 ≠ 0 ∧
    (listPlaces (machine copyTeam) 0 copyTeam (wordVas 0x20000 16) .write matches .error (.fault _ _)) = true ∧
    (readHeader (queueMachine copyTeam [(0x1018, 3)]) 0 0 (homeWords 0x1000 16)).2.2.log2n < 4 ∧
    3 < (7 : DWord).toNat ∧ (launchCheck [0x48, 0, 0, 0, 0, 0, 0, 0]).isSome = true := by
  refine ⟨?_, ⟨0x1002, Or.inr ?_⟩, ?_⟩ <;> decide +kernel

/-- R262: no item; an item whose task lies in no page. -/
theorem test_meets_node_cases : (machine team).walking[0]? = none ∧ (readTcb (machine team) 0 0 0x20000).2.isNone = true ∧
    (readTcb (machine team) 0 0 0x20000).1.late = false := by decide +kernel

/-- R267 to R269: a poisoned word of a tile that `tst` reads and one that `tld` reads; a command queued for the tile; places that fail. -/
theorem test_meets_tile_cases : (readPlaces { tileMachine [] with crews := [(0, { tileCrew with padPoison := [2] })] } 0 tileTeam [.pad 0 0, .pad 0 8]).2[1]? = some .poison ∧
    2048 * 1 + 0 ∈ ({ tileCrew with tilePoison := [2048] } : Crew).tilePoison ∧ (∃ q ∈ (coreOf (tileMachine [mmaCmd]) 0).queue, q.crew = crewKey 0 ∧ q.uid < 1 ∧ 1 ∈ q.tiles (tileMachine [mmaCmd])) ∧
    inOrder (tileMachine []) 0 [.pad 0 0, .pad 0 8] true = true ∧ placesReady (tileMachine []) 0 [.pad 0 0, .pad 0 8] = true ∧
    (listPlaces (tileMachine []) 0 tileTeam [0x20000] .read matches .error (.fault _ _)) = true := by
  refine ⟨?_, ?_, ⟨mmaCmd, ?_⟩, ?_⟩ <;> decide +kernel
/-- R243, R194: checks that fail with ILLOP and BOUNDS; segments and blocks that fail; a held PIPE. -/
theorem test_meets_array_cases : (∃ x, mmaCheck tileCrew (arrayWord 0x53 2 1 (1 * 32 + 31)) = some (cILLOP, x)) ∧ (∃ x, mmaCheck crew (arrayWord 0x53 0 1 (1 * 32 + 31)) = some (cBOUNDS, x)) ∧
    28 < (29 : BitVec 5).toNat ∧ bit (2 : BitVec 8).toNat 1 = true ∧ (∃ m : BitVec 64, (some (m, 32 + mmaCmd.acc)) = some (3, 32 + mmaCmd.acc) ∧ bit m.toNat 1 = true) ∧
    ({ tileTeam with held := [{ cause := cPIPE, recs := [record 0 cPIPE (arrayPipe 1)] }] } : Team).heldPipe 1 = some { cause := cPIPE, recs := [record 0 cPIPE (arrayPipe 1)] } ∧
    nextCmd (tileMachine []) 0 = none := by
  refine ⟨⟨_, rfl⟩, ⟨_, rfl⟩, ?_, ?_, ⟨3, ?_⟩, ?_⟩ <;> decide +kernel

/-- R129, R138: an atomic that waits; a word of a request at its home. -/
theorem test_meets_word_cases : ((machine team).loads.find? fun o => o.core == 0 && o.words.any fun w => w.stage == .waiting) = none ∧ ({ oneLoad .waiting with atomic := true } : LoadOp).atomic = true ∧
    sound (mscOf (machine team) (stackNo (16 * 256))) (16 * 256) = true ∧ held (mscOf (machine team) (stackNo (16 * 256))) (16 * 256) = none ∧
    blockBusy (machine team) (16 * 256) = false ∧ (oneReq 16).mask = wordsMask [0] ∧ (16 * 256 + 4 * 0 : Nat) = 0x1000 ∧ retrains { machine team with bursts := [{ words := [0x1000], retraining := true }] } 0x1000 = true := by decide +kernel

/-- R202 to R204, R254, R307: a band with no debugger, a stopped team with no step set, a copy whose page has been asked for. -/
theorem test_meets_engine_cases : (stoppedTeam (machine team) 0).isNone = true ∧ (machine team).copies[0]? = none ∧
    (∃ a ∈ ({ machine team with ats := [{ tenant := 0, page := 3, asked := true }] } : State).ats, a.tenant = 0 ∧ a.page = 3 ∧ a.asked = true) ∧ oneCopy.paused = none ∧
    packetKind ({ oneCopy with packet := [0x43] } : Copy).packet = 3 ∧ packetKind ({ oneCopy with packet := [0x41] } : Copy).packet = 1 := by
  refine ⟨?_, ?_, ⟨{ tenant := 0, page := 3, asked := true }, ?_⟩, ?_⟩ <;> decide +kernel

/-- R149, R369, R393: a line of bank set 3 that the host holds; a home that answers the host; a translation that a `tlbi` has overlapped. -/
def deepHeld : State := stackMachine { msc := [(4831838208, { host := 2 })] }
theorem test_meets_host_cases : (∃ e ∈ (mscOf deepHeld 0).filter (fun e => deepBlock 0 e.1), e.2.host ≠ 0) ∧ (machine team).command = none ∧ (machine team).bootFailed = false ∧ lineReady (machine team) 0x1000 = true ∧
    lineReady { machine team with blocks := [{ block := blockOf 0x1000, proc := true }] } 0x1000 = false ∧
    (∀ b ∈ [false, true], ({ machine team with ats := [{ overlapped := b }] } : State).ats[0]? = some { overlapped := b } ∧ ({ overlapped := b } : AtsReq).asked = false) := by
  refine ⟨⟨(4831838208, { host := 2 }), ?_⟩, ?_⟩ <;> decide +kernel

/-- R302, R364: a part that spans modules while the master is lost; R301: a launch that is a gang. -/
theorem test_meets_spans : let l : Launch := { launch false 0x1000 with spans := true }
    headOf { launchMachine l with ready := 0 } 0 0 = some (7, l) ∧ l.read = false ∧ bit (0 : BitVec 64).toNat 28 = false ∧
    l.ended = false ∧ l.startTick = none ∧ bit (launchMachine l).ready.toNat 28 = true := by decide +kernel

/-- R300: the die on which the waiting band fits once one is out, and one on which no band may be pre-empted. -/
theorem test_meets_quantum_cases :
    (((allowedDies hungryMachine hungry.tenant hungry.packet).map fun d => quantumOn hungryMachine 7 hungry d).find? fun x => fitsOnceOut x 7 hungry).isSome = true ∧
    (let s : State := { hungryMachine with bands := [(0, { victim with prio := 7 })] }
     ∀ d ∈ allowedDies s hungry.tenant hungry.packet, fitsOnceOut (quantumOn s 7 hungry d) 7 hungry = false) := by decide +kernel

/-- R210: a band with no context, one whose search waits for a page of the host, and one whose contexts are settled. -/
def awaitedMill : State := { millMachine lostMill with cores := [], tenants := [(0, { created := true, hostManaged := true })] }
theorem test_meets_settled_bands : (∀ e ∈ bandTeams (machine team) 0, e.2.mill = none) ∧ (settleMills awaitedMill 0).2 = false ∧ (settleMills (millMachine partMill) 0).2 = true := by
  decide +kernel

/-- R200, R302: saved bands: halted, of a gang, with one team to step, with none. -/
theorem test_meets_resumed_bands : (∀ r ∈ [some Run.halted, some .stopped], ({ band with run := .saved, rests := r } : Band).rests = r ∧ r ≠ some .slowed) ∧ band.rests = none ∧
    (let t : Team := { team with dbgctl := 1 }
     let s : State := { bandMachine { band with run := .saved } with teams := [(0, t)] }
     bandTeams s 0 = [(0, t)] ∧ t.stepWanted ≠ none ∧ (∀ x ∈ s.teams, x.1 = 0 → x = (0, t)) ∧ team.stepWanted = none) ∧
    ({ machine team with alarm := some 1 } : State).alarm ≠ none := by decide +kernel

/-- R203: a stopped band: the second of its teams is asked to issue, or to step a lane that is live or not; one whose step is under way. -/
theorem test_meets_served_bands : (∀ r ∈ [none, some 3, some 9], let t : Team := { team with stepAsked := some r }
      let s : State := { bandMachine { band with run := .stopped } with teams := [(0, team), (1, t)] }
      bandTeams s 0 = [(0, team)] ++ (1, t) :: [] ∧ (bandOf s 0).run = .stopped ∧ team.stepAsked = none ∧ team.stepping = 0 ∧ t.stepAsked = some r ∧ t.stepping = 0 ∧
        s.teams.lookup 1 = some t) ∧ bit team.live.toNat 3 = true ∧ bit team.live.toNat 9 = false ∧ ({ team with stepping := 1 } : Team).stepping ≠ 0 ∧
    (machine team).alarm = none ∧ team.stepWanted = none := by decide +kernel

/-- R254, R259: a copy that waits for the host's answer, and one whose page has been answered; an exchange that is to be made again, and a
rank that has failed alone. -/
theorem test_meets_engine_waits : pageAsked { machine team with ats := [{ tenant := 0, page := 3, asked := true }] } 0 3 = true ∧ pageAsked (machine team) 0 3 = false ∧
    (oneCopy.packet.getD 2 0).toNat % 4 = 0 ∧ ({ oneExchange with again := true } : Exchange).again = true ∧ ({ onePart with failed := true } : Part).failed = true ∧
    startCheck (machine team) (some 0) [0x47] = some cILLOP ∧ startCheck (machine team) (some 0) [0x44] = none := by decide +kernel

/-- R391: an alarm that waits for a band, and one whose bands have all halted or been saved. R395: a stack that is not ready. -/
theorem test_meets_alarm_cases : (∃ e ∈ (machine team).bands, e.2.run ≠ .halted ∧ e.2.run ≠ .saved) ∧
    (∀ e ∈ ({ machine team with bands := [(0, { band with run := .halted }), (1, { band with run := .saved })] } : State).bands, e.2.run = .halted ∨ e.2.run = .saved) ∧
    (∀ e ∈ (launchMachine (launch true 0)).launches, e.1 ≤ ({ launchMachine (launch true 0) with serial := 9 } : State).serial) ∧
    bit (0 : BitVec 64).toNat 8 = false ∧ region 0x1000 = .dram := by
  refine ⟨⟨(0, band), ?_⟩, ?_⟩ <;> decide +kernel

/-- R400: each command that waits for the host; a launch that the host appends whose packet can be read, is good, and is bad; a full queue. -/
def hostPacket : State := { machine team with mem := [(0x1000, 0x48), (0x1004, 1), (0x1019, 0xFF)] }
theorem test_meets_commands : (∀ c ∈ [Command.leaveHc 3, .table 0, .launch 1 0x1000, .deep 0], ({ machine team with command := some c } : State).command = some c) ∧
    (queued hostPacket 0 1 0).length < 64 ∧ (∀ a ∈ lineWords 0x1000, readableNow hostPacket a = true) ∧
    (∃ a ∈ lineWords 0x1000, readableNow { hostPacket with asks := [{ line := 0x1000 / 64, ask := .backInvalidate true }], drams := [(stackNo 0x1000, { msc := [(16, { host := 2 })] })] } a = false) ∧
    64 ≤ (queued { hostPacket with launches := (List.range 64).map fun i => (i, { launch false 0 with queue := 1 }) } 0 1 0).length ∧
    (let ds := (readLine hostPacket 0x1000).2
     let ws := (List.range 8).map fun j => (joinData (ds.getD (2 * j) .poison) (ds.getD (2 * j + 1) .poison)).2
     (∀ d ∈ ds, d.cause = 0) ∧ launchIllop ws = false ∧ launchCheck ws = none ∧
       (appendLaunch (readLine hostPacket 0x1000).1 0 1 0 false ws).isSome = true) ∧
    (let ds := (readLine (machine team) 0x1000).2
     launchCheck ((List.range 8).map fun j => (joinData (ds.getD (2 * j) .poison) (ds.getD (2 * j + 1) .poison)).2) ≠ none) := by
  refine ⟨?_, ?_, ?_, ⟨0x1000, ?_⟩, ?_⟩ <;> decide +kernel

/-! ### The machine as a whole -/

theorem test_meets_round_trip : (Instr.add 63 true 0 false 63).wf = true ∧ encode (.add 63 true 0 false 63) = some 0x001FE03F ∧
    (Instr.halt).wf = true := by decide +kernel
/-- The turn goes to team 0, whose word lies in the mapped page; an event at the agenda's head; a word that stands for none; a fetch that fails. -/
def wordMachine (w : Nat) : State := State.reset.withFetchWord 32 w
def goneMachine : State := { wordMachine 0x88000003 with cores := [] }
def turnState (s : State) : State := passTime (background s)
theorem test_meets_step : (turnState (wordMachine 0x88000003)).agenda = .team 0 :: [] ∧
    (turnState (wordMachine 0x88000003)).teams.lookup 0 = some bootTeam ∧ canIssue { turnState (wordMachine 0x88000003) with agenda := [] } 0 bootTeam = true ∧
    ptrigDue { turnState (wordMachine 0x88000003) with agenda := [] } 0 = false ∧ (turnState (wordMachine 0x88000003)).launches = [] ∧
    bootTeam.stack = [] ∧ bootTeam.spilled = 0 ∧ bootTeam.mask &&& bootTeam.limit = bootTeam.mask ∧ bootTeam.mask &&& bootTeam.limit ≠ 0 ∧
    atBreakpoint (bandOf (turnState (wordMachine 0x88000003)) (bandKey 0)) bootTeam = false ∧
    (turnState { wordMachine 0x88000003 with agenda := [.event .thermalShutdown] }).agenda = .event .thermalShutdown :: [] := by decide +kernel
theorem test_meets_own_step : (turnState { machine team with agenda := [] }).stalled = false ∧ (turnState (machine team)).tick % 64 ≠ 63 ∧
    (choose { turnState (machine team) with stalled := false }).cur = some 0 := by decide +kernel
theorem test_meets_fetch : ((fetch (wordMachine 0x88000003) 0 bootTeam) matches (.word 0x88000003)) = true ∧ decodeWord 0x88000003 = .ok (.jmp 3) ∧
    ((fetch (wordMachine 0) 0 bootTeam) matches (.word 0)) = true ∧ ((fetch goneMachine 0 bootTeam) matches (.fault 5)) = true := by decide +kernel
theorem test_meets_choice : (choose (machine team)).cur = some 0 := by decide +kernel
/-- An agenda with no event at its head, and a memory in its canonical form that a step leaves. -/
theorem test_meets_going_on : (∀ e, (wordMachine 0x88000003).agenda.head? ≠ some (.event e)) ∧ Memory.wf (wordMachine 0x88000003).mem = true ∧
    ((step (wordMachine 0x88000003)) matches (.next _)) = true := by
  refine ⟨?_, ?_⟩
  · intro e h; simp [wordMachine, State.withFetchWord] at h
  · decide +kernel
/-! ### Single steps and values, from the worked examples of the spec -/

/-- Team 0 after an instruction. -/
def after (o : Out) : Option Team :=
  match o with
  | .next s => s.teams.lookup 0
  | _ => none

/-- R60: the constant 0x0123456789ABCDEF in three instructions. -/
theorem test_wide_constant :
    (after (exec (.sli 8 0x0BCDEF) (machine team))).map (·.rs 8) = some 0x00000000000BCDEF ∧
    (after (exec (.slih 8 0x0B3C4D) (machine { team with s := [(8, 0xBCDEF)] }))).map (·.rs 8) = some 0x0000016789ABCDEF ∧
    (after (exec (.slix 8 0x48D1) (machine { team with s := [(8, 0x0000016789ABCDEF)] }))).map (·.rs 8) = some 0x0123456789ABCDEF := by decide +kernel

/-- spec/05: `pack.bf16x2 v6, v4, v5` of 1.0 and 1/3 under `rn` and `rz`, raising INX; and `mad` of R86, fused. -/
def oneLane (mode : Word) (v : NMap Word) : State := machine { team with mode := mode, mask := 1, live := 1, v := v }
theorem test_pack : (after (exec (.pack 6 false 4 false 5) (oneLane (typed 6) [(4096, 0x3F800000), (5120, 0x3EAAAAAB)]))).map (fun t => (t.rv 6 0, t.fstat)) = some (0x3EAB3F80, 16) ∧
    (after (exec (.pack 6 false 4 false 5) (oneLane (typed 6 ||| 0x8000) [(4096, 0x3F800000), (5120, 0x3EAAAAAB)]))).map (fun t => (t.rv 6 0, t.fstat)) =
      some (0x3EAA3F80, 16) := by decide +kernel
theorem test_fused : (after (exec (.mad 4 false 1 false 1 false 3) (oneLane (typed 4) [(1024, 0x3F800800), (3072, 0xBF801000)]))).map (·.rv 4 0) = some 0x33800000 := by decide +kernel

/-- R81, R82: an i32 sum wraps, and under SAT it clamps; a source may be the destination. -/
theorem test_add : (after (exec (.add 1 false 1 false 2) (oneLane 0 [(1024, 0x7FFFFFFF), (2048, 1)]))).map (·.rv 1 0) = some 0x80000000 ∧
    (after (exec (.add 1 false 1 false 2) (oneLane 0x4000 [(1024, 0x7FFFFFFF), (2048, 1)]))).map (·.rv 1 0) = some 0x7FFFFFFF := by decide +kernel

/-- R94: the most negative value over −1; R68: −0.4 and −1.0 converted to u32. -/
theorem test_sdiv : (after (exec (.sdiv 3 1 2) (machine { team with s := [(1, 0x8000000000000000), (2, 0xFFFFFFFFFFFFFFFF)] }))).map (·.rs 3) = some 0x8000000000000000 := by decide +kernel
theorem test_convert : convert ⟨.rn, false, false⟩ (.flt f32) (.int false 32) 0xBECCCCCD = (0, 16) ∧
    (convert ⟨.rn, false, false⟩ (.flt f32) (.int false 32) 0xBF800000).1 = 0 := by decide +kernel

/-- R104: the patterns of a gather of four scattered words and of a block of 3 × 2 words. -/
theorem test_patterns : (List.range 5).map (patternElem 0x4000000000640004 0x00000000FF281100 0) = [some 100, some 117, some 140, some 355, none] ∧
    (List.range 7).map (patternElem 0x8203004000000001 0 0) = [some 0, some 1, some 64, some 65, some 128, some 129, none] := by decide +kernel

/-- R127: a stamp of 0x41 meets 0x40 and not 0x42, and one with its error bit meets either. -/
theorem test_stamps : stampMet 0x41 0x40 = true ∧ stampMet 0x41 0x42 = false ∧ stampMet 0x8000000000000041 0x40 = true ∧ stampMet 0x8000000000000041 0x42 = true := by decide +kernel

/-- R138: two check bytes. R10 and spec/01: the column of eight words, five apart: word 17 opens a second burst. -/
theorem test_check_bytes : checkByte 0x40000000 0x00400008 = 0x8C ∧ checkByte 0x40000000 0x0040000C = 0xE8 := by decide +kernel
theorem test_column : wordsMask ((List.range 8).map fun i => 2 + 5 * i) = 0x0000002108421084 ∧
    (formBursts false ((List.range 8).map fun i => 4 * (2 + 5 * i))).map (fun b => b.map (· / 4)) = [[2, 7, 12, 22, 27, 32, 37], [17]] := by decide +kernel

/-- R278: the double rounding of a QC4 weight to bfloat16; R283: the order of an `mma`'s sums. -/
theorem test_double_rounding : qc4Weight 14 255 0x3FB5BEF1 = 0x3F808000 ∧ windowElem 0 bf16 14 255 0x3FB5BEF1 = 0x3F80 := by decide +kernel
def sumCrew : Crew := { crew with
  ts := [(0, 0x400100), (1, 0x400100)]
  tile := [(0, 0x3F804580), (16, 0x45803F80), (2048, 0x3F804580), (2064, 0xC5803F80)] }
theorem test_mma_order : mmaElem sumCrew 0 1 (shapeOf 0x400100) (shapeOf 0x400100) 0 0 0 = 0x3F800000 := by decide +kernel

/-- R227: intersection in one part of 1, 4, 4, 9 and 1, 2, 4, 9, 13: two pairs, then a fault at position 2 of A. -/
def streams : NMap Word := [(0, 1), (1, 4), (2, 4), (3, 9), (4, 1), (5, 2), (6, 4), (7, 9), (8, 13)]
def sortMill : Mill := { ctl := 0x100000000, abase := pad0, alen := 4, bbase := pad0 + 16, blen := 5, hi := 0xFFFFFFFF, mst := 2 }
def sortMachine (m : Mill) : State := { machine { team with mask := 255, live := 255, mill := some m } with crews := [(0, { crew with pad := streams })] }
theorem test_mill : (after (exec (.mlfill 10 11 3) (sortMachine sortMill))).map (fun t => (t.rp 3, t.millBusy)) = some (3, true) ∧
    (match exec (.mlfill 10 11 3) (sortMachine sortMill) with
      | .next s => s.millJobs.map fun j => (j.mill.a.pos, j.mill.b.pos, bits j.mill.mst.toNat 16 11, bit j.mill.mst.toNat 0)
      | _ => []) = [(2, 3, 2, false)] := by decide +kernel

/-- R176: the last arrival goes on and advances the phase. R154: four lanes of a `callv`, three targets. -/
theorem test_barrier : (after (exec (.bar 3) (barMachine team))).map (·.pc) = some 4 ∧
    (match exec (.bar 3) (barMachine team) with
      | .next s => some (barOf s 0 3)
      | _ => none) = some { count := 2, need := 2, phase := 1 } := by decide +kernel
theorem test_callv : (after (exec (.callv 0) (machine { team with pc := 0x40, v := [(0, 0x100), (1, 0x200), (2, 0x100), (3, 0x300)] }))).map
      (fun t => (t.pc, t.mask, t.stack.map (·.mask), t.cfd, t.rs 30)) = some (0x100, 5, [10], 1, 0x44) := by decide +kernel

/-- A step from reset with a word placed: `jmp .+12` and `saddi s9, s1, 8`. -/
theorem test_step_jmp : (after (step (wordMachine 0x88000003))).map (·.pc) = some 12 := by decide +kernel
theorem test_step_saddi : (after (step (wordMachine 0xA1D24108))).map (fun t => (t.pc, t.rs 9)) = some (4, 8) := by decide +kernel

/-! ### On-die codes -/

/-- R379, R384, R385: a register that fails its code traps UNCORR, which is counted and logged (class 9 of the list of R384). -/
theorem test_register_error_is_counted :
    (match exec (.and 1 false 0 false 0) (machine { team with upsetV := [0] }) with
      | .next s => (look 0 s.counters (64 * quarterUnit 0 0 + 9), s.ras.map fun r => r.cls)
      | _ => (0, [])) = (1, [9]) := by decide +kernel

/-- R378: a correctable error of a register that is read is corrected and counted, and has no other effect. -/
theorem test_register_error_is_corrected :
    (match exec (.and 1 false 0 false 0) (machine { team with softV := [0, 64] }) with
      | .next s => (look 0 (settle s).counters (64 * quarterUnit 0 0 + 8), (s.teams.lookup 0).map fun t => (t.softV, t.pc))
      | _ => (0, none)) = (1, some ([64], 4)) := by decide +kernel

/-- R378, R382: a clean word of an L1 that fails its code is discarded and counted CRF, a correctable one is corrected and counted CCE. -/
theorem test_cache_word_errors :
    let s := fun (b s : BitVec 64) => setL1 (machine team) 0 [(16, { valid := 1, bad := b, soft := s, words := [(0, 5)] })]
    held (l1Of (mendL1 (s 1 0) 0 0x1000) 0) 0x1000 = none ∧ look 0 (mendL1 (s 1 0) 0 0x1000).counters 11 = 1 ∧
    held (l1Of (mendL1 (s 0 1) 0 0x1000) 0) 0x1000 = some (.ok 5) ∧ look 0 (mendL1 (s 0 1) 0 0x1000).counters 10 = 1 := by decide +kernel

/-- R372: a write to an extent that is lost is dropped and logged (class 24, log 44). -/
theorem test_write_to_a_lost_extent_is_dropped :
    let s := homeWrite { machine team with extents := [{ base := 0x80000000000, size := 0x10000000, lost := true }] } 0x80000000000 5 false 0 0 0 0
    held (mscOf s (stackNo 0x80000000000)) 0x80000000000 = none ∧ s.ras.map (fun r => r.cls) = [24] := by decide +kernel

/-- R390, R392: a word of a sealed frame is in no cache once the keys are erased. -/
theorem test_erased_keys_leave_no_plaintext :
    let s := eraseKeys (setL1 (machine team) 0 [(16, { valid := 1, key := 1, words := [(0, 5)] }), (17, { valid := 1, words := [(0, 6)] })])
    held (l1Of s 0) 0x1000 = none ∧ held (l1Of s 0) 0x1100 = some (.ok 6) := by decide +kernel

/-- R378, R384: a scratchpad word that is not corrected is delivered poisoned, and a whole-word write leaves it good. -/
theorem test_scratchpad_word_error :
    let s := { machine team with crews := [(0, { crew with padEcc := { bad := [0] } })] }
    (readPlace s 0 0 0 (.pad 0 0)).2 = .poison ∧ look 0 (readPlace s 0 0 0 (.pad 0 0)).1.counters (64 * arrayUnit 0 + 9) = 1 ∧
    (readPlace (writePad s 0 0 3) 0 0 0 (.pad 0 0)).2 = .ok 3 := by decide +kernel

end Sys2Proof.Tests
end

section
/-! SUPPORT. The steps of a home (R10, R136, R138, R140, R142): what it does with a read that comes by burst, with a burst that returns, with
a retraining that ends and with a block whose procedure runs; and the proof of `HomeEventsComplete`. -/

namespace Sys2Proof.Machine

/-! ### Word masks -/

/-- The mask of one word names that word. -/
theorem maskWords_wordsMask_singleton : ∀ i < 64, maskWords (wordsMask [i]) = [i] := by decide +kernel

/-- A mask that is not empty names a word. -/
theorem maskWords_ne_nil {m : BitVec 64} (h : m ≠ 0) : maskWords m ≠ [] := by
  intro e
  apply h
  apply BitVec.eq_of_getLsbD_eq
  intro i hi
  have := List.filter_eq_nil_iff.1 e i (List.mem_range.2 hi)
  simpa [bit, BitVec.getLsbD] using this

/-! ### What leaves the home as it is -/

theorem mendHome_of_sound {s : State} {pa : Nat} (h : sound (mscOf s (stackNo pa)) pa = true) : mendHome s pa = s := by
  simp [mendHome, mend, h]

/-- A miss of a tenant moves its selector and nothing else (R134). -/
theorem countMiss_tenants (s : State) (pa t : Nat) : ∃ ts, countMiss s pa t = { s with tenants := ts } := by
  unfold countMiss
  dsimp only
  repeat' split
  all_goals exact ⟨_, rfl⟩

@[simp] theorem callBlocks_nil (s : State) (r : Req) : callBlocks s r [] = s := by simp [callBlocks]

@[simp] theorem deliverHome_nil (s : State) (r : Req) : deliverHome s r [] = s := by simp [deliverHome]

/-- One word that waits for its block calls for one procedure (R140). -/
theorem callBlocks_singleton (s : State) (r : Req) (i : Nat) : callBlocks s r [i] = { s with
    blocks := s.blocks ++ [{ block := blockOf (r.sb * 256 + 4 * i), req := some { r with mask := wordsMask [i], got := [], doubt := [] } }] } := by
  simp [callBlocks, List.eraseDups_cons]

/-! ### HOME_REQUEST -/

/-- A word that a read at its home brings by burst: nothing holds it back, it lies in DRAM, and its home's cache neither holds it nor has an
error of it to put right (R10, R136). -/
def ComesByBurst (s : State) (pa : Nat) : Prop :=
  homeReady s pa false = true ∧ region pa = .dram ∧ held (mscOf s (stackNo pa)) pa = none ∧ sound (mscOf s (stackNo pa)) pa = true

theorem ComesByBurst.countMiss {s : State} {pa : Nat} (h : ComesByBurst s pa) (pa' t : Nat) : ComesByBurst (countMiss s pa' t) pa := by
  obtain ⟨ts, e⟩ := countMiss_tenants s pa' t
  rw [e]
  exact h

theorem foldl_mendHome_byBurst {s : State} {pas : List Nat} (h : ∀ pa ∈ pas, ComesByBurst s pa) : pas.foldl mendHome s = s := by
  induction pas with
  | nil => rfl
  | cons pa pas ih =>
    rw [List.foldl_cons, mendHome_of_sound (h pa (by simp)).2.2.2]
    exact ih fun x hx => h x (by simp [hx])

/-- The addresses of the words that a request asks for. -/
def Req.addrs (r : Req) : List Nat := (maskWords r.mask).map fun i => r.sb * 256 + 4 * i

/-- A read whose words all come by burst counts one miss and leaves all its words to the burst former (R10, R134). -/
theorem homeTake_byBurst {s : State} {r : Req} (hg : r.got = []) (hd : r.doubt = []) (hm : r.mask ≠ 0) (h : ∀ pa ∈ r.addrs, ComesByBurst s pa) :
    homeTake s r = (countMiss s (r.sb * 256) r.tenant, maskWords r.mask, []) := by
  unfold homeTake
  extract_lets word s0 ready wait isBurst direct kept doubts drams beside rest asked absent missed called
  have mended : s0 = s := by
    have : (maskWords r.mask).foldl (fun s i => mendHome s (word i)) s = s := by
      rw [← List.foldl_map (f := word) (g := mendHome)]
      exact foldl_mendHome_byBurst h
    exact (congrArg _ this).trans (ite_self s)
  have burst : ∀ i ∈ maskWords r.mask, homeReady s0 (word i) false = true ∧ isBurst s0 i = true := fun i hi => by
    obtain ⟨free, dram, absent, -⟩ := h _ (List.mem_map.2 ⟨i, hi, rfl⟩)
    rw [mended]
    exact ⟨free, by simp [isBurst, word, dram, absent]⟩
  have result : ∀ i, heldResult s0 r i = none := fun i => by simp [heldResult, hg]
  have doubt : ∀ i, heldDoubt s0 r i = false := fun i => by simp [heldDoubt, hd]
  have ready_eq : ready = maskWords r.mask := List.filter_eq_self.2 fun i hi => (burst i hi).1
  have wait_eq : wait = [] := List.filter_eq_nil_iff.2 fun i hi => by simp [(burst i hi).1]
  have direct_eq : direct = [] := List.filter_eq_nil_iff.2 fun i hi => by simp [(burst i (ready_eq ▸ hi)).2]
  have kept_eq : kept = [] := List.filter_eq_nil_iff.2 fun i _ => by simp [result]
  have doubts_eq : doubts = [] := List.filter_eq_nil_iff.2 fun i _ => by simp [doubt]
  have drams_eq : drams = maskWords r.mask :=
    (List.filter_eq_self.2 fun i hi => by simp [(burst i (ready_eq ▸ hi)).2, result, doubt]).trans ready_eq
  have beside_eq : beside = [] := by simp [beside, wait_eq]
  have rest_eq : rest = [] := by simp [rest, wait_eq]
  have asked_eq : asked = s := by simp [asked, wait_eq, mended]
  have wanted : drams.isEmpty = false := by rw [drams_eq]; exact List.isEmpty_eq_false_iff.2 (maskWords_ne_nil hm)
  have called_eq : called = countMiss s (r.sb * 256) r.tenant := by
    simp only [called, doubts_eq, callBlocks_nil, missed, wanted, asked_eq, Bool.false_and, Bool.false_eq_true, if_false]
  rw [direct_eq, kept_eq, rest_eq, called_eq, drams_eq, beside_eq]
  rfl

/-- The reads of a window whose words all come by burst leave their words together to the burst former (R10, R117). -/
theorem foldl_homeTake_byBurst (rs : List Req) (s : State) (ps : List (Req × List Nat × List Nat))
    (hr : ∀ x ∈ rs, x.got = [] ∧ x.doubt = [] ∧ x.mask ≠ 0) (h : ∀ x ∈ rs, ∀ pa ∈ x.addrs, ComesByBurst s pa) :
    rs.foldl (fun (a : State × List (Req × List Nat × List Nat)) r => ((homeTake a.1 r).1, a.2 ++ [(r, (homeTake a.1 r).2)])) (s, ps) =
      (rs.foldl (fun s x => countMiss s (x.sb * 256) x.tenant) s, ps ++ rs.map fun x => (x, maskWords x.mask, [])) := by
  induction rs generalizing s ps with
  | nil => simp
  | cons r rs ih =>
    obtain ⟨hg, hd, hm⟩ := hr r (by simp)
    rw [List.foldl_cons, homeTake_byBurst hg hd hm (h r (by simp))]
    rw [ih _ _ (fun x hx => hr x (by simp [hx])) fun x hx pa hpa => (h x (by simp [hx]) pa hpa).countMiss _ _]
    simp

/-- The misses that a home counts leave its bursts as they are. -/
theorem foldl_countMiss_bursts (rs : List Req) (s : State) : (rs.foldl (fun s x => countMiss s (x.sb * 256) x.tenant) s).bursts = s.bursts := by
  induction rs generalizing s with
  | nil => rfl
  | cons r rs ih =>
    obtain ⟨ts, e⟩ := countMiss_tenants s (r.sb * 256) r.tenant
    rw [List.foldl_cons, ih, e]

/-- Of no word no burst is formed. -/
theorem formBursts_nil (sealed : Bool) : formBursts sealed [] = [] := by cases sealed <;> rfl

theorem formBursts_unless_empty (sealed : Bool) (pas : List Nat) : (if pas.isEmpty then [] else formBursts sealed pas) = formBursts sealed pas := by
  cases pas with
  | nil => exact (formBursts_nil sealed).symm
  | cons pa pas => rfl

/-- The part of a request that a burst brings. -/
def Req.partIn (x : Req) (b : List Nat) : Option Req :=
  let mine := (maskWords x.mask).filter fun i => b.contains (x.sb * 256 + 4 * i)
  if mine = [] then none else some { x with mask := wordsMask mine }

/-- R10, R136: the bursts of the words of all the reads of a window, in ascending order, where all of them come by burst. -/
theorem homeReads_byBurst {s : State} {rs : List Req} (hr : ∀ x ∈ rs, x.got = [] ∧ x.doubt = [] ∧ x.mask ≠ 0)
    (h : ∀ x ∈ rs, ∀ pa ∈ x.addrs, ComesByBurst s pa) : homeReads s rs = { rs.foldl (fun s x => countMiss s (x.sb * 256) x.tenant) s with
      bursts := s.bursts ++ (formBursts (rs.any fun x => x.key != 0) (((List.range 1024).map fun i => (rs.headD {}).sb / 16 * 4096 + 4 * i).filter
        (rs.flatMap Req.addrs).contains)).map fun b => { words := b, reqs := rs.filterMap fun x => x.partIn b } } := by
  have asked : (rs.map fun x => (x, maskWords x.mask, ([] : List Nat))).flatMap (fun p => (p.2.1 ++ p.2.2).map fun i => p.1.sb * 256 + 4 * i) =
      rs.flatMap Req.addrs := by
    simp only [List.flatMap_map, List.append_nil]
    rfl
  unfold homeReads
  rw [foldl_homeTake_byBurst rs s [] hr h]
  dsimp only
  rw [List.nil_append, asked, foldl_countMiss_bursts]
  generalize List.filter (rs.flatMap Req.addrs).contains _ = words
  congr 1
  refine congrArg (s.bursts ++ ·) ?_
  rw [formBursts_unless_empty]
  refine List.map_congr_left fun b _ => ?_
  rw [List.filterMap_map, List.filterMap_map]
  congr 1
  · refine List.filterMap_congr fun x hx => ?_
    obtain ⟨hg, hd, -⟩ := hr x hx
    simp [Req.partIn, hg, hd]
  · simp

/-- R10, R136: HOME_REQUEST does nothing where its item is not there. -/
theorem homeRequest_none {s : State} {idx : Nat} (h : s.homeq[idx]? = none) : exec (.homeRequest idx) s = .next s := by
  show execHomeRequest idx s = _
  simp only [execHomeRequest, h]

theorem homeRequest_atoms {s : State} {idx : Nat} {a : AtomReq} (h : s.homeq[idx]? = some (.atoms a)) :
    exec (.homeRequest idx) s = .next (homeAtoms { s with homeq := s.homeq.eraseIdx idx } a) := by
  show execHomeRequest idx s = _
  simp only [execHomeRequest, h]

/-- The reads that a HOME_REQUEST of one takes with it: itself first, and those that join it. -/
def readsTaken (r : Req) (others : List HomeItem) : List Req :=
  r :: others.filterMap fun q => match q with
    | .read x => if q.joins r then some x else none
    | .atoms _ => none

theorem homeRequest_read {s : State} {idx : Nat} {r : Req} (h : s.homeq[idx]? = some (.read r)) : exec (.homeRequest idx) s =
    .next (homeReads { s with homeq := (s.homeq.eraseIdx idx).filter fun q => !q.joins r } (readsTaken r (s.homeq.eraseIdx idx))) := by
  show execHomeRequest idx s = _
  simp only [execHomeRequest, h]
  rfl

/-! ### BURST_READ -/

section
variable {s : State} {idx : Nat} {bad : Bool} {flips : List (Nat × Nat)} {b : Burst}

/-- The bits that the transfer of a burst has changed, by word. -/
def transferNoise (flips : List (Nat × Nat)) (pa : Nat) : Nat := (flips.lookup pa).getD 0 % 2 ^ 40

theorem burstRead_none (h : s.bursts[idx]? = none) : exec (.burstRead idx bad flips) s = .next s := by
  show execBurstRead idx bad flips s = _
  simp only [execBurstRead, h]

/-- What BURST_READ does with a burst that returns: nothing while its pseudo-channel is retrained; with a wrong CRC a replay, a retraining or
the loss of its words, by how often it was tried; else what its words decode to (R138, R142). -/
theorem burstRead_some (h : s.bursts[idx]? = some b) : exec (.burstRead idx bad flips) s =
    if retrains s (b.words.headD 0) then .next s
    else if bad || crcDiffers s b.words (transferNoise flips) then
      if b.tries < 3 then .next (countPc { s with bursts := s.bursts.set idx { b with tries := b.tries + 1 } } (b.words.headD 0) 5)
      else if b.tries = 3 then .next { s with bursts := s.bursts.set idx { b with retraining := true } }
      else .next (burstLost { s with bursts := s.bursts.eraseIdx idx } b)
    else .next (b.reqs.foldl (fun s r => senseWords s r (transferNoise flips)) (b.held.foldl (fun s r => holdResults s r (transferNoise flips))
      (senseBurst { s with bursts := s.bursts.eraseIdx idx } b.words (transferNoise flips)))) := by
  show execBurstRead idx bad flips s = _
  simp only [execBurstRead, h]
  rfl

end

/-- Where the answer of DRAM for word `i` of a request goes: the word, or its poison, to the cache and on to the requester, or the procedure
of its block starts with the request (R12, R138, R140). -/
def sensedGoes (s : State) (r : Req) (i : Nat) : Sensed → State
  | .word w => deliverHome (mscPut s (r.sb * 256 + 4 * i) w false false r.key r.hint r.tenant 0) r [(i, .ok w)]
  | .poison => deliverHome (mscPut s (r.sb * 256 + 4 * i) 0 true false r.key r.hint r.tenant 0) r [(i, .poison)]
  | .block => { s with blocks := s.blocks ++ [{ block := blockOf (r.sb * 256 + 4 * i), req := some { r with got := [], doubt := [] } }] }

/-- A request of one word that the home's cache does not hold and whose block does not wait is answered by what DRAM answers for the word. -/
theorem senseWords_one {s s1 : State} {r : Req} {i : Nat} {d : Sensed} {noise : Nat → Nat} (hi : i < 64) (hm : r.mask = wordsMask [i])
    (hs : sound (mscOf s (stackNo (r.sb * 256 + 4 * i))) (r.sb * 256 + 4 * i) = true)
    (hh : held (mscOf s (stackNo (r.sb * 256 + 4 * i))) (r.sb * 256 + 4 * i) = none) (hb : blockBusy s (r.sb * 256 + 4 * i) = false)
    (hr : readPlain s (r.sb * 256 + 4 * i) r.key noise = (s1, d)) : senseWords s r noise = sensedGoes s r i d := by
  have words : maskWords r.mask = [i] := hm ▸ maskWords_wordsMask_singleton i hi
  unfold senseWords
  simp only [words, List.foldl_cons, List.foldl_nil, mendHome_of_sound hs, hh, hb, hr, Bool.false_eq_true, if_false]
  cases d with
  | word w => simp only [callBlocks_nil, List.nil_append, sensedGoes]
  | poison => simp only [callBlocks_nil, List.nil_append, sensedGoes]
  | block => simp only [deliverHome_nil, List.nil_append, callBlocks_singleton, ← hm, sensedGoes]

/-! ### RETRAIN and WRITE_REPLAY -/

/-- R142: where every waiting block still waits, nothing goes on. -/
theorem resumeRetrained_of_waiting {s : State} (h : ∀ b ∈ s.blocks, b.proc = true ∨ retrains s (b.block * 512) = true) : resumeRetrained s = s := by
  have stay : ∀ b ∈ s.blocks, (!b.proc && !retrains s (b.block * 512)) = false := fun b hb => by
    rcases h b hb with e | e <;> simp [e]
  have go : s.blocks.partition (fun b => !b.proc && !retrains s (b.block * 512)) = ([], s.blocks) := by
    rw [List.partition_eq_filter_filter]
    exact Prod.ext (List.filter_eq_nil_iff.2 fun b hb => by simp [stay b hb]) (List.filter_eq_self.2 fun b hb => by simp [stay b hb])
  unfold resumeRetrained
  rw [go]
  rfl

/-- A record of the log changes no DRAM stack and no replay of a write. -/
theorem logRas_drams (s : State) (r : Ras) : (logRas s r).drams = s.drams ∧ (logRas s r).writeJobs = s.writeJobs := by
  unfold logRas
  dsimp only
  split <;> exact ⟨rfl, rfl⟩

/-- R148: the bank sets of a pseudo-channel that is retired are being removed or have been; no replay of a write changes. -/
theorem retireChannel_retires (s : State) (stack pc : Nat) : (retireChannel s stack pc).writeJobs = s.writeJobs ∧
    ∀ b < 4, 4 * pc + b ∈ (dram (retireChannel s stack pc) stack).retiring ∨ 4 * pc + b ∈ (dram (retireChannel s stack pc) stack).retired := by
  unfold retireChannel requestReplacement dram
  simp only [logRas_drams]
  refine ⟨rfl, fun b hb => ?_⟩
  simp only [setDram, look_setAt, if_true]
  have mine : 4 * pc + b ∈ (List.range 4).map (4 * pc + ·) := List.mem_map.2 ⟨b, List.mem_range.2 hb, rfl⟩
  by_cases retiring : 4 * pc + b ∈ (look {} s.drams stack).retiring
  · exact .inl (List.mem_append_left _ retiring)
  by_cases retired : 4 * pc + b ∈ (look {} s.drams stack).retired
  · exact .inr retired
  · exact .inl (List.mem_append_right _ (List.mem_filter.2 ⟨mine, by simp [retiring, retired]⟩))

theorem interfaceLost_writeJobs (s : State) (pa : Nat) : (interfaceLost s pa).writeJobs = s.writeJobs := (logRas_drams _ _).2

section
variable {s : State} {idx : Nat} {ok : Bool}

/-- The bursts that are retrained, with their places. -/
def retrainedBursts (s : State) : List (Burst × Nat) := s.bursts.zipIdx.filter fun b => b.1.retraining
/-- The writes that are retrained, with their places. -/
def retrainedWrites (s : State) : List (WriteJob × Nat) := s.writeJobs.zipIdx.filter fun j => decide (3 ≤ j.1.tries)

/-- R142: the retraining of a burst ends, and it is tried for the last time or its words are lost. -/
theorem retrain_burst {b : Burst} {i : Nat} (h : (retrainedBursts s)[idx]? = some (b, i)) : exec (.retrain idx ok) s =
    .next (resumeRetrained (if ok then { s with bursts := s.bursts.set i { b with retraining := false, tries := 4 } }
      else burstLost { s with bursts := s.bursts.eraseIdx i } { b with retraining := false, tries := 4 })) := by
  show execRetrain idx ok s = _
  unfold retrainedBursts at h
  simp only [execRetrain, h]
  rfl

theorem retrain_none (hb : (retrainedBursts s)[idx]? = none) (hj : (retrainedWrites s)[idx - (retrainedBursts s).length]? = none) :
    exec (.retrain idx ok) s = .next s := by
  show execRetrain idx ok s = _
  unfold retrainedBursts at hb hj
  unfold retrainedWrites at hj
  simp only [execRetrain, hb, hj, ge_iff_le]

/-- R142, R148: the retraining of a write ends: it has passed, it is retried after a second one, or its pseudo-channel is retired. -/
theorem retrain_write {j : WriteJob} {i : Nat} (hb : (retrainedBursts s)[idx]? = none)
    (hj : (retrainedWrites s)[idx - (retrainedBursts s).length]? = some (j, i)) : exec (.retrain idx ok) s =
    .next (resumeRetrained (if ok then { s with writeJobs := s.writeJobs.eraseIdx i }
      else if j.retrains = 0 then { s with writeJobs := s.writeJobs.set i { j with retrains := 1 } }
      else retireChannel (interfaceLost { s with writeJobs := s.writeJobs.eraseIdx i } j.pa) (stackNo j.pa) (pseudoChannel j.pa))) := by
  show execRetrain idx ok s = _
  unfold retrainedBursts at hb hj
  unfold retrainedWrites at hj
  simp only [execRetrain, hb, hj, ge_iff_le]

end

/-- R142: of a word that is not in DRAM, or while its pseudo-channel is retrained, no write is replayed. -/
theorem writeReplay_none {s : State} {pa : Nat} (bad : Bool) (h : region pa ≠ .dram ∨ retrains s pa = true) :
    exec (.writeReplay pa bad) s = .next s := by
  have stops : (region pa != .dram || retrains s pa) = true := by simpa using h
  show execWriteReplay pa bad s = _
  simp only [execWriteReplay, stops, if_true]

/-- R142: a replay of a write that passes ends its job, and one that fails counts one more try. -/
theorem writeReplay_dram {s : State} {pa : Nat} (bad : Bool) (hd : region pa = .dram) (hr : retrains s pa = false) :
    exec (.writeReplay pa bad) s = .next (countPc { s with writeJobs := (s.writeJobs.filter fun x => x.pa != pa) ++
      if bad then [{ (s.writeJobs.find? fun j => j.pa == pa).getD { pa := pa } with
        tries := ((s.writeJobs.find? fun j => j.pa == pa).getD { pa := pa }).tries + 1 }] else [] } pa 5) := by
  have goes : (region pa != .dram || retrains s pa) = false := by simp [hd, hr]
  show execWriteReplay pa bad s = _
  simp only [execWriteReplay, goes, Bool.false_eq_true, if_false]
  cases bad with
  | true => rfl
  | false => simp only [Bool.false_eq_true, if_false, List.append_nil]

/-! ### BLOCK_PROCEDURE -/

section
variable {s : State} {idx : Nat}

theorem blockProcedure_none (h : s.blocks[idx]? = none) : exec (.blockProcedure idx) s = .next s := by
  show execBlockProcedure idx s = _
  simp only [execBlockProcedure, h]

/-- R142: what only waits for a retraining of its pseudo-channel has no procedure to run. -/
theorem blockProcedure_waiting {j : BlockJob} (h : s.blocks[idx]? = some j)
    (hw : ∀ b ∈ s.blocks.filter fun b => b.block == j.block, b.proc = false) : exec (.blockProcedure idx) s = .next s := by
  have idle : ((s.blocks.filter fun b => b.block == j.block).any fun b => b.proc) = false := List.any_eq_false.2 fun b hb => by simp [hw b hb]
  show execBlockProcedure idx s = _
  simp only [execBlockProcedure, h, idle, Bool.not_false, if_true]

/-- The answer to a request that has waited for its block: UNCORR for the words that the procedure has lost, and the others as they are
read again (R140). -/
def answerLost (lost : List Nat) (s : State) (r : Req) : State :=
  let is := (maskWords r.mask).filter fun i => lost.contains (r.sb * 256 + 4 * i)
  senseWords (deliverHome s r (is.map fun i => (i, Datum.uncorr))) { r with mask := wordsMask ((maskWords r.mask).filter fun i => !is.contains i) } fun _ => 0

/-- R140: the procedure of a block runs, its requests are answered, and the writes that have waited for it are performed. -/
theorem blockProcedure_runs {j : BlockJob} {s1 : State} {lost : List Nat} (h : s.blocks[idx]? = some j)
    (hp : ∃ b ∈ s.blocks.filter fun b => b.block == j.block, b.proc = true)
    (hb : blockAtHome { s with blocks := s.blocks.filter fun b => b.block != j.block } j.block = (s1, lost)) :
    let mine := s.blocks.filter fun b => b.block == j.block
    let answered := (mine.filterMap fun b => b.req).foldl (answerLost lost) { s1 with blocks := [] }
    exec (.blockProcedure idx) s = .next ((mine.flatMap fun b => b.writes).foldl performHeld { answered with blocks := s1.blocks ++ answered.blocks }) := by
  have runs : ((s.blocks.filter fun b => b.block == j.block).any fun b => b.proc) = true := List.any_eq_true.2 hp
  show execBlockProcedure idx s = _
  simp only [execBlockProcedure, h, runs, hb, Bool.not_true, Bool.false_eq_true, if_false]
  rfl

end

/-! ### The obligation -/

/-- Settles O44, each event by the lemma that says what its step does. -/
theorem homeEventsComplete : Obligations.HomeEventsComplete := by
  unfold Obligations.HomeEventsComplete
  refine ⟨fun s idx => ⟨homeRequest_none, fun a => homeRequest_atoms, fun r h => ⟨homeRequest_read h, fun hr hw => ?byBurst⟩⟩,
    fun s idx bad flips => ⟨burstRead_none, fun b h => ?burst⟩,
    fun s s1 r i d noise hi hm hs hh hb hr => (senseWords_one hi hm hs hh hb hr).trans (by cases d <;> rfl),
    fun s => resumeRetrained_of_waiting,
    fun s idx ok => ⟨fun b i => retrain_burst, retrain_none, fun j i hb hj => ?write⟩,
    fun s pa bad => ⟨writeReplay_none bad, writeReplay_dram bad⟩,
    fun s idx => ⟨blockProcedure_none, fun j s1 lost h => ⟨blockProcedure_waiting h, blockProcedure_runs h⟩⟩⟩
  case byBurst =>
    exact homeReads_byBurst hr fun x hx pa hpa => hw pa (List.mem_flatMap.2 ⟨x, hx, hpa⟩)
  case burst =>
    rw [burstRead_some h]
    refine ⟨fun busy => by rw [if_pos busy], fun idle => ?_⟩
    rw [idle]
    refine ⟨fun wrong few => ?_, fun wrong last => ?_, fun wrong many => ?_, fun good => if_neg good⟩
    · exact (if_pos wrong).trans (if_pos few)
    · exact (if_pos wrong).trans ((if_neg (by omega)).trans (if_pos last))
    · exact (if_pos wrong).trans ((if_neg (by omega)).trans (if_neg (by omega)))
  case write =>
    rw [retrain_write hb hj]
    refine ⟨fun passed => by rw [if_pos passed], fun failed first => ?_, fun failed second => ?_⟩
    · rw [failed, if_neg Bool.false_ne_true, if_pos first]
    · obtain ⟨jobs, sets⟩ := retireChannel_retires (interfaceLost { s with writeJobs := s.writeJobs.eraseIdx i } j.pa) (stackNo j.pa) (pseudoChannel j.pa)
      rw [failed, if_neg Bool.false_ne_true, if_neg second]
      exact ⟨_, rfl, jobs.trans (interfaceLost_writeJobs _ _), sets⟩

end Sys2Proof.Machine
end

section
/-! SUPPORT. Two statements that fail. A store to two pages whose checks both pass has to wait where one walker is free for its two walks (R107,
R376); and a load of a lane that no team has, number 1024, writes a word of the next register (R12). -/

namespace Sys2Proof.Machine

/-! ### A store that has to wait for a walker -/

/-- Team `k` as a step leaves it. -/
def teamAfter (k : Nat) : Out → Option Team
  | .next s => s.teams.lookup k
  | _ => none

/-- An instruction that completes leaves its team at the next one. -/
theorem teamAfter_finish (s : State) (k : Nat) (t : Team) : teamAfter k (.next (finish s k t)) = some t.next := by
  simp [teamAfter, finish]

/-- A team of two lanes; s9 and v1 give them addresses in two pages of 64 KiB, 0x100000 and 0x110000. -/
def twoPageTeam : Team := { mask := 3, live := 3, s := [(9, 0x100000)], v := [(1025, 0x10000)] }

/-- `st v0, [s9 + v1]`. -/
def twoPageStore : Instr := .stVectorOffset 0 9 1 0 0 false

/-- Page tables at 0, 0x2000 and 0x4000 map the first GiB, writable, to itself; no cache holds a translation; and 63 of the die's 64 walkers are
at work for other pages. -/
def oneWalkerFree : State :=
  { teams := [(0, twoPageTeam)], bands := [(0, {})], cur := some 0
    mem := putWord (putWord (putWord [] 0 0x2001) 0x2000 0x4001) 0x4000 0x213
    walks := (List.range 63).map fun i => { core := 1, va := 0x200000 + 0x10000 * i } }

/-- What the store names. -/
def twoPageUse : MemUse :=
  { ord := 0, scope := 0, width := 4, addrs := [(0, 0x100000), (1, 0x110000)], vs := [1, 0], ss := [9], val := fun L => [twoPageTeam.rv 0 L] }

/-- Where the words of its lanes lie. -/
def twoPagePlace (L : Nat) : Place := .mem (0x100000 + 0x10000 * L) 0 false

theorem twoPageStore_use : storeUse twoPageTeam twoPageStore = some twoPageUse := by
  have addrs : offsetAddrs twoPageTeam 9 1 (laneList twoPageTeam twoPageTeam.present) = twoPageUse.addrs := by decide +kernel
  have narrow : twoPageTeam.wideType = some false := by decide +kernel
  have inRange : (twoPageTeam.okV false (0 : BitVec 6).toNat && twoPageTeam.okV false (1 : BitVec 6).toNat) = true := by decide +kernel
  unfold twoPageStore storeUse
  simp only [narrow, Option.bind_some, inRange, if_true, widthOf, Bool.false_eq_true, if_false]
  exact congrArg (fun as => some { twoPageUse with addrs := as }) addrs

/-- Each lane's check passes by itself: a walker is free for the walk of its page, which gives a translation. -/
theorem twoPages_granted : ∀ x ∈ twoPageUse.addrs,
    checkAddr oneWalkerFree twoPageTeam.core (bandKey 0) twoPageUse.width x.2 .write = .go (twoPagePlace x.1) := by
  decide +kernel

/-- The walk of the first page takes the last walker, and the second page waits for one. -/
theorem secondPage_waits : checkAddr (noteMisses oneWalkerFree 0 twoPageTeam [0x100000, 0x110000]) 0 0 4 0x110000 .write = .wait 0x110000 := by
  decide +kernel

/-- So the store does not complete. -/
theorem twoPageStore_stays : ((teamAfter 0 (exec twoPageStore oneWalkerFree)).map fun t => t.pc) = some 0 := by decide +kernel

/-- Refutes O16: the statement asks that each address be granted before the misses of the store are noted, and noting them can take the walkers
that the granted addresses need. -/
theorem not_storesComplete : ¬ Obligations.StoresComplete := by
  unfold Obligations.StoresComplete
  intro h
  have completes := (h twoPageStore oneWalkerFree 0 twoPageTeam twoPageUse twoPagePlace ⟨rfl, rfl⟩ (by decide +kernel) ⟨rfl, rfl⟩ rfl twoPageStore_use
    (by decide +kernel) (by decide +kernel) twoPages_granted).1 rfl rfl (by decide +kernel)
  have stays := twoPageStore_stays
  rw [completes, teamAfter_finish] at stays
  exact absurd stays (by decide +kernel)

/-! ### A lane that no team has -/

/-- The fill of word 0 of superblock 0, with 1. -/
def oneWordFill : Fill := { req := { mask := 1 }, data := [(0, .ok 1)] }

/-- Its word is the last of a load of v0 whose only lane is 1024. -/
def lane1024Loads : State :=
  { teams := [(0, {})], fills := [oneWordFill]
    loads := [{ words := [{ lane := 1024, stage := .flying }] }] }

/-- The word lands at lane 0 of v1: a register's lane 1024 has the key of the next one's lane 0. -/
theorem fill_writes_next_register : ((teamAfter 0 (exec (.fill 0) lane1024Loads)).map fun t => t.rv 1 0) = some 1 := by decide +kernel

/-- Refutes O43: its clause of the fill that completes a load bounds the other lanes by 1024 and not the lane of the load. Of the fill for lane
1024 of v0 it asks that lane 0 of v1 keep its value, where the word lands. -/
theorem not_wordPathEventsComplete : ¬ Obligations.WordPathEventsComplete := by
  unfold Obligations.WordPathEventsComplete
  intro h
  obtain ⟨-, -, -, -, -, -, fillCompletes, -⟩ := h
  obtain ⟨s', filled, -, ⟨t', team, -, -, -, others⟩, -⟩ := fillCompletes lane1024Loads 0 0 {} oneWordFill 0 0 1024 0 0 0 0 0 0 0 false 1
    rfl rfl rfl rfl rfl rfl (by decide) rfl rfl rfl
  have kept : t'.rv 1 0 = 0 := others 1 0 (by decide) (by decide)
  have written := fill_writes_next_register
  rw [filled, teamAfter, team, Option.map_some, kept] at written
  exact absurd written (by decide)

end Sys2Proof.Machine
end

section
/-! SUPPORT. What an instruction or an event means: the function of the model that carries it out. -/

namespace Sys2Proof.Machine

theorem exec_mov d ta a (s : State) : exec (.mov d ta a) s = execMov d ta a s := rfl
theorem exec_movs d ta a (s : State) : exec (.movs d ta a) s = execMovs d ta a s := rfl
theorem exec_lid d (s : State) : exec (.lid d) s = execLid d s := rfl
theorem exec_tbev d ta a (s : State) : exec (.tbev d ta a) s = execTbev d ta a s := rfl
theorem exec_shfi d ta a tb b (s : State) : exec (.shfi d ta a tb b) s = execShfi d ta a tb b s := rfl
theorem exec_shfx d ta a b (s : State) : exec (.shfx d ta a b) s = execShfx d ta a b s := rfl
theorem exec_vbal d inv p (s : State) : exec (.vbal d inv p) s = execVbal d inv p s := rfl
theorem exec_scmp x y c z (s : State) : exec (.scmp x y c z) s = execScmp x y c z s := rfl
theorem exec_rdl x y z (s : State) : exec (.rdl x y z) s = execRdl x y z s := rfl
theorem exec_wrl x y z (s : State) : exec (.wrl x y z) s = execWrl x y z s := rfl
theorem exec_bar n (s : State) : exec (.bar n) s = execBar n s := rfl
theorem exec_barar n y (s : State) : exec (.barar n y) s = execBarar n y s := rfl
theorem exec_barwt n y (s : State) : exec (.barwt n y) s = execBarwt n y s := rfl
theorem exec_barini n y (s : State) : exec (.barini n y) s = execBarini n y s := rfl
theorem exec_barexp n y (s : State) : exec (.barexp n y) s = execBarexp n y s := rfl
theorem exec_bbar (s : State) : exec .bbar s = execBbar s := rfl
theorem exec_fwaitVector x (s : State) : exec (.fwaitVector x) s = execFwaitVector x s := rfl
theorem exec_fwaitScalar x (s : State) : exec (.fwaitScalar x) s = execFwaitScalar x s := rfl
theorem exec_fwaitAll (s : State) : exec .fwaitAll s = execFwaitAll s := rfl
theorem exec_mma a b c v (s : State) : exec (.mma a b c v) s = execMma a b c v s := rfl
theorem exec_acz c v (s : State) : exec (.acz c v) s = execAcz c v s := rfl
theorem exec_acrd d r a (s : State) : exec (.acrd d r a) s = execAcrd d r a s := rfl
theorem exec_acwr d r a (s : State) : exec (.acwr d r a) s = execAcwr d r a s := rfl
theorem exec_acst x a (s : State) : exec (.acst x a) s = execAcst x a s := rfl
theorem exec_movc y c (s : State) : exec (.movc y c) s = execMovc y c s := rfl
theorem exec_tlbi y k (s : State) : exec (.tlbi y k) s = execTlbi y k s := rfl
theorem exec_halt (s : State) : exec .halt s = execHalt s := rfl
theorem exec_ctxld x (s : State) : exec (.ctxld x) s = execCtxld x s := rfl
theorem exec_li d imm (s : State) : exec (.li d imm) s = execLi d imm s := rfl
theorem exec_crate n y (s : State) : exec (.crate n y) s = execCrate n y s := rfl
theorem exec_ptrig y (s : State) : exec (.ptrig y) s = execPtrig y s := rfl
theorem exec_breakpointWrite n y (s : State) : exec (.breakpointWrite n y) s = execBreakpointWrite n y s := rfl
theorem exec_bandPlacement die (s : State) : exec (.bandPlacement die) s = execBandPlacement die s := rfl
theorem exec_quantumExpiry die queue (s : State) : exec (.quantumExpiry die queue) s = execQuantumExpiry die queue s := rfl
theorem exec_gangStart launch (s : State) : exec (.gangStart launch) s = execGangStart launch s := rfl
theorem exec_operatingPointStable die (s : State) : exec (.operatingPointStable die) s = execOperatingPointStable die s := rfl
theorem exec_preEmption band (s : State) : exec (.preEmption band) s = execPreEmption band s := rfl
theorem exec_barrierWaitEnd team (s : State) : exec (.barrierWaitEnd team) s = execBarrierWaitEnd team s := rfl
theorem exec_ptrigFire band (s : State) : exec (.ptrigFire band) s = execPtrigFire band s := rfl
theorem exec_unassignedOpcode w (s : State) : exec (.unassignedOpcode w) s = execUnassignedOpcode w s := rfl
theorem exec_instructionFetchFault cause (s : State) : exec (.instructionFetchFault cause) s = execInstructionFetchFault cause s := rfl
theorem exec_producerCompletion team (s : State) : exec (.producerCompletion team) s = execProducerCompletion team s := rfl
theorem exec_launchEndFromOutside launch (s : State) : exec (.launchEndFromOutside launch) s = execLaunchEndFromOutside launch s := rfl

end Sys2Proof.Machine
end

section
/-! SUPPORT. The encoding of instructions (R38 to R57): every instruction that has a word is read back from it, and what the worked words stand for. -/

namespace Sys2Proof.Laws

/-- R38, R40: every instruction and every event meets its lemma of the family F. -/
theorem decodeWord_encode : ∀ i : Instr, F.Statement i
  | .add d ta a tb b => F.add d ta a tb b
  | .sub d ta a tb b => F.sub d ta a tb b
  | .mul d ta a tb b => F.mul d ta a tb b
  | .mulh d ta a tb b => F.mulh d ta a tb b
  | .div d ta a tb b => F.div d ta a tb b
  | .rem d ta a tb b => F.rem d ta a tb b
  | .min d ta a tb b => F.min d ta a tb b
  | .max d ta a tb b => F.max d ta a tb b
  | .abs d ta a => F.abs d ta a
  | .neg d ta a => F.neg d ta a
  | .and d ta a tb b => F.and d ta a tb b
  | .or d ta a tb b => F.or d ta a tb b
  | .xor d ta a tb b => F.xor d ta a tb b
  | .not d ta a => F.not d ta a
  | .shl d ta a tb b => F.shl d ta a tb b
  | .shr d ta a tb b => F.shr d ta a tb b
  | .sra d ta a tb b => F.sra d ta a tb b
  | .bfx d ta a tb b => F.bfx d ta a tb b
  | .bfi d ta a tb b => F.bfi d ta a tb b
  | .popc d ta a => F.popc d ta a
  | .clz d ta a => F.clz d ta a
  | .ctz d ta a => F.ctz d ta a
  | .brev d ta a => F.brev d ta a
  | .cmp c p ta a tb b => F.cmp c p ta a tb b
  | .sel d ta a tb b => F.sel d ta a tb b
  | .cvt d ta a k s => F.cvt d ta a k s
  | .pack d ta a tb b => F.pack d ta a tb b
  | .unpk d ta a => F.unpk d ta a
  | .mov d ta a => F.mov d ta a
  | .movs d ta a => F.movs d ta a
  | .lid d => F.lid d
  | .rcp d ta a => F.rcp d ta a
  | .rsq d ta a => F.rsq d ta a
  | .sqrt d ta a => F.sqrt d ta a
  | .exp2 d ta a => F.exp2 d ta a
  | .log2 d ta a => F.log2 d ta a
  | .sinr d ta a => F.sinr d ta a
  | .cosr d ta a => F.cosr d ta a
  | .tanh d ta a => F.tanh d ta a
  | .tbev d ta a => F.tbev d ta a
  | .shfi d ta a tb b => F.shfi d ta a tb b
  | .shfd d ta a b => F.shfd d ta a b
  | .shfx d ta a b => F.shfx d ta a b
  | .vany d inv p => F.vany d inv p
  | .vall d inv p => F.vall d inv p
  | .vbal d inv p => F.vbal d inv p
  | .tred d ta a op => F.tred d ta a op
  | .tscan d ta a excl op => F.tscan d ta a excl op
  | .segred d ta a tb b => F.segred d ta a tb b
  | .tix d ta a b => F.tix d ta a b
  | .mad d ta a tb b tc c => F.mad d ta a tb b tc c
  | .msb d ta a tb b tc c => F.msb d ta a tb b tc c
  | .nmad d ta a tb b tc c => F.nmad d ta a tb b tc c
  | .dot d ta a tb b tc c => F.dot d ta a tb b tc c
  | .addi d a imm => F.addi d a imm
  | .muli d a imm => F.muli d a imm
  | .andi d a imm => F.andi d a imm
  | .ori d a imm => F.ori d a imm
  | .xori d a imm => F.xori d a imm
  | .shli d a imm => F.shli d a imm
  | .shri d a imm => F.shri d a imm
  | .srai d a imm => F.srai d a imm
  | .cmpi c p a imm => F.cmpi c p a imm
  | .ldBase d b ord scope => F.ldBase d b ord scope
  | .ldVectorOffset d b o ord scope => F.ldVectorOffset d b o ord scope
  | .stBase d b ord scope ta => F.stBase d b ord scope ta
  | .stVectorOffset d b o ord scope ta => F.stVectorOffset d b o ord scope ta
  | .sld d b ord scope => F.sld d b ord scope
  | .sst d b ord scope ta => F.sst d b ord scope ta
  | .wgath d b o ord scope => F.wgath d b o ord scope
  | .wscat d b o ord scope ta => F.wscat d b o ord scope ta
  | .aadd d b o ord scope ta => F.aadd d b o ord scope ta
  | .amin d b o ord scope ta => F.amin d b o ord scope ta
  | .amax d b o ord scope ta => F.amax d b o ord scope ta
  | .aand d b o ord scope ta => F.aand d b o ord scope ta
  | .aor d b o ord scope ta => F.aor d b o ord scope ta
  | .axor d b o ord scope ta => F.axor d b o ord scope ta
  | .axch d b o ord scope ta => F.axch d b o ord scope ta
  | .acas d b o ord scope ta => F.acas d b o ord scope ta
  | .ared d b c ord scope ta => F.ared d b c ord scope ta
  | .fence scope => F.fence scope
  | .phase scope => F.phase scope
  | .pf b o => F.pf b o
  | .cwb b l scope => F.cwb b l scope
  | .cinv b l scope => F.cinv b l scope
  | .mwait d b o ord scope => F.mwait d b o ord scope
  | .br inv p off => F.br inv p off
  | .bru inv p off => F.bru inv p off
  | .brany inv p off => F.brany inv p off
  | .brall inv p off => F.brall inv p off
  | .jmp off => F.jmp off
  | .call off => F.call off
  | .nop => F.nop
  | .exit => F.exit
  | .trap z => F.trap z
  | .brk z => F.brk z
  | .rti => F.rti
  | .yield => F.yield
  | .callr x => F.callr x
  | .callv x => F.callv x
  | .ret => F.ret
  | .cut x y => F.cut x y
  | .stkrd x y f => F.stkrd x y f
  | .stkwr x y f => F.stkwr x y f
  | .rgnx => F.rgnx
  | .sadd x y z => F.sadd x y z
  | .ssub x y z => F.ssub x y z
  | .smul x y z => F.smul x y z
  | .sdiv x y z => F.sdiv x y z
  | .sand x y z => F.sand x y z
  | .sor x y z => F.sor x y z
  | .sxor x y z => F.sxor x y z
  | .sshl x y z => F.sshl x y z
  | .sshr x y z => F.sshr x y z
  | .ssra x y z => F.ssra x y z
  | .smin x y z => F.smin x y z
  | .smax x y z => F.smax x y z
  | .scmp x y c z => F.scmp x y c z
  | .saddi x y imm => F.saddi x y imm
  | .rdl x y z => F.rdl x y z
  | .wrl x y z => F.wrl x y z
  | .bar n => F.bar n
  | .barar n y => F.barar n y
  | .barwt n y => F.barwt n y
  | .barini n y => F.barini n y
  | .barexp n y => F.barexp n y
  | .bbar => F.bbar
  | .fwaitVector x => F.fwaitVector x
  | .fwaitScalar x => F.fwaitScalar x
  | .fwaitAll => F.fwaitAll
  | .tbld x => F.tbld x
  | .tbsw => F.tbsw
  | .shpld x y => F.shpld x y
  | .rbal x y c => F.rbal x y c
  | .mlopen x => F.mlopen x
  | .mlfill x y p => F.mlfill x y p
  | .mlsave x => F.mlsave x
  | .mlrest x => F.mlrest x
  | .mlstat x f => F.mlstat x f
  | .mlclose => F.mlclose
  | .cpl x y => F.cpl x y
  | .cpt x y => F.cpt x y
  | .cpm x y => F.cpm x y
  | .cpr x y => F.cpr x y
  | .coll x y => F.coll x y
  | .tgl x => F.tgl x
  | .lnch x y => F.lnch x y
  | .qpop x y => F.qpop x y
  | .qapp x y => F.qapp x y
  | .tld a b s => F.tld a b s
  | .tst a b s => F.tst a b s
  | .tzero a => F.tzero a
  | .mma a b c v => F.mma a b c v
  | .acz c v => F.acz c v
  | .acrd d r a => F.acrd d r a
  | .acwr d r a => F.acwr d r a
  | .acst x a => F.acst x a
  | .acver x a => F.acver x a
  | .acverWait x y a => F.acverWait x y a
  | .movc y c => F.movc y c
  | .mvfc x c => F.mvfc x c
  | .sys x y n => F.sys x y n
  | .tlbi y k => F.tlbi y k
  | .rdtm x => F.rdtm x
  | .halt => F.halt
  | .frrd x y f => F.frrd x y f
  | .lkill x => F.lkill x
  | .ctxsv x => F.ctxsv x
  | .ctxld x => F.ctxld x
  | .mode ginv gp ty rnd sat ret ftz => F.mode ginv gp ty rnd sat ret ftz
  | .sli d imm => F.sli d imm
  | .slih d imm => F.slih d imm
  | .slix d imm => F.slix d imm
  | .joinat off => F.joinat off
  | .rgn => F.rgn
  | .li d imm => F.li d imm
  | .avWrite n y => F.avWrite n y
  | .tsWrite n y => F.tsWrite n y
  | .spinj y => F.spinj y
  | .crate n y => F.crate n y
  | .ptrig y => F.ptrig y
  | .breakpointWrite n y => F.breakpointWrite n y
  | .requestCollectorAdmission core => F.requestCollectorAdmission core
  | .mergeTimeout core idx => F.mergeTimeout core idx
  | .l2SliceRequest idx => F.l2SliceRequest idx
  | .homeRequest idx => F.homeRequest idx
  | .burstRead idx crcBad flips => F.burstRead idx crcBad flips
  | .writeReplay pa bad => F.writeReplay pa bad
  | .retrain idx ok => F.retrain idx ok
  | .blockProcedure idx => F.blockProcedure idx
  | .backInvalidateResponse idx words => F.backInvalidateResponse idx words
  | .fill idx => F.fill idx
  | .publication idx => F.publication idx
  | .backgroundScrub stack => F.backgroundScrub stack
  | .sliceCountClear stack => F.sliceCountClear stack
  | .spareIn stack pc slice => F.spareIn stack pc slice
  | .spareInComplete stack pc => F.spareInComplete stack pc
  | .hotRemoveAcknowledge stack pc bankSet => F.hotRemoveAcknowledge stack pc bankSet
  | .deepRetention stack => F.deepRetention stack
  | .hotAdd stack => F.hotAdd stack
  | .pageWalk core va => F.pageWalk core va
  | .messageSend die idx => F.messageSend die idx
  | .fragmentReceive idx arrival => F.fragmentReceive idx arrival
  | .acknowledgement idx => F.acknowledgement idx
  | .receiverRepairTimeout die idx => F.receiverRepairTimeout die idx
  | .senderRepairTimeout die idx => F.senderRepairTimeout die idx
  | .repairRequest idx => F.repairRequest idx
  | .messageLoss die idx => F.messageLoss die idx
  | .lossNotice idx => F.lossNotice idx
  | .poisonNotice idx => F.poisonNotice idx
  | .delayedFragment idx => F.delayedFragment idx
  | .linkRemoval die port => F.linkRemoval die port
  | .timebaseCorrection offset => F.timebaseCorrection offset
  | .masterLinkTimeout => F.masterLinkTimeout
  | .hostReadShared pa => F.hostReadShared pa
  | .hostReadOwned pa => F.hostReadOwned pa
  | .hostWriteback pa words keep => F.hostWriteback pa words keep
  | .hostSnoopData pa => F.hostSnoopData pa
  | .hostSnoopInvalidate pa => F.hostSnoopInvalidate pa
  | .hostReadGrant idx owned words => F.hostReadGrant idx owned words
  | .atsCompletion idx present frame kind => F.atsCompletion idx present frame kind
  | .atsInvalidation tenant base kind => F.atsInvalidation tenant base kind
  | .pageRequestResponse idx granted => F.pageRequestResponse idx granted
  | .serviceReply idx value => F.serviceReply idx value
  | .extentRelease idx => F.extentRelease idx
  | .surpriseRemoval idx => F.surpriseRemoval idx
  | .launchHead die queue => F.launchHead die queue
  | .bandPlacement die => F.bandPlacement die
  | .quantumExpiry die queue => F.quantumExpiry die queue
  | .stageBalancer launch => F.stageBalancer launch
  | .gangStart launch => F.gangStart launch
  | .operatingPointStable die => F.operatingPointStable die
  | .kernelBoundary launch => F.kernelBoundary launch
  | .preEmption band => F.preEmption band
  | .resumption band => F.resumption band
  | .trapEntry team => F.trapEntry team
  | .regionRestart team => F.regionRestart team
  | .mwaitSatisfied team => F.mwaitSatisfied team
  | .mwto team => F.mwto team
  | .barrierWaitEnd team => F.barrierWaitEnd team
  | .mmaCommand core => F.mmaCommand core
  | .aczCommand core => F.aczCommand core
  | .acstCommand core => F.acstCommand core
  | .tableLoadComplete core => F.tableLoadComplete core
  | .mlfillComplete team => F.mlfillComplete team
  | .copyPacketStart die queue => F.copyPacketStart die queue
  | .copyRead idx => F.copyRead idx
  | .mergeWindowClose die idx => F.mergeWindowClose die idx
  | .copyComplete idx dest => F.copyComplete idx dest
  | .collectiveMatch idx => F.collectiveMatch idx
  | .collectiveComplete idx part => F.collectiveComplete idx part
  | .nodeComplete idx => F.nodeComplete idx
  | .debugStep team => F.debugStep team
  | .stepLane team lane => F.stepLane team lane
  | .ptrigFire band => F.ptrigFire band
  | .securityAlarm source => F.securityAlarm source
  | .powerLimitStep above => F.powerLimitStep above
  | .currentLimit die => F.currentLimit die
  | .currentRestore die => F.currentRestore die
  | .thermalLimit die => F.thermalLimit die
  | .thermalShutdown => F.thermalShutdown
  | .moduleReset => F.moduleReset
  | .functionReady bitNo passed => F.functionReady bitNo passed
  | .counterRead unit => F.counterRead unit
  | .counterClear unit => F.counterClear unit
  | .rasLogRead => F.rasLogRead
  | .errorRecordRead launch => F.errorRecordRead launch
  | .tenantCreate root => F.tenantCreate root
  | .tenantDestroy tenant => F.tenantDestroy tenant
  | .fattrWrite frame value => F.fattrWrite frame value
  | .formatWindowEnable n => F.formatWindowEnable n
  | .formatWindowDisable n => F.formatWindowDisable n
  | .managementRegisterWrite reg value => F.managementRegisterWrite reg value
  | .debuggerAttach band => F.debuggerAttach band
  | .bandResume band => F.bandResume band
  | .attestationReport tenant nonce => F.attestationReport tenant nonce
  | .firmwareUpdate image => F.firmwareUpdate image
  | .unassignedOpcode w => F.unassignedOpcode w
  | .instructionFetchFault cause => F.instructionFetchFault cause
  | .producerCompletion team => F.producerCompletion team
  | .stepAbort team => F.stepAbort team
  | .launchEndFromOutside launch => F.launchEndFromOutside launch
  | .extentAdd port range => F.extentAdd port range

/-- Settles O56: each constructor has its round trip among the laws of the encoding. -/
theorem decodeOfEncode : Obligations.DecodeOfEncode :=
  fun i w wellFormed encoded => decodeWord_encode i wellFormed w encoded
end Sys2Proof.Laws

namespace Sys2Proof.Machine

/-! ### Worked and rejected words -/

/-- R38: a word of class 111 stands for no instruction. -/
theorem decodeWord_class111 {w : Word} (h : 0xE0000000 ≤ w.toNat) : decodeWord w = .error .class111 := by
  have := w.isLt
  have class7 : bits w.toNat 29 3 = 7 := by unfold bits; omega
  simp only [decodeWord, class7]

/-- Settles O55. -/
theorem wordsAreDecoded : Obligations.WordsAreDecoded := by
  have zero : decodeWord 0 = .error (.unassigned 0 0) := by decide +kernel
  have refused : ∀ {w : Word} {e : DecodeError}, decodeWord w = .error e → ∀ i, decodeWord w ≠ .ok i :=
    fun h i => by simp [h]
  exact ⟨by decide +kernel, by decide +kernel, by decide +kernel, by decide +kernel, by decide +kernel, by decide +kernel,
    by decide +kernel, by decide +kernel, by decide +kernel, by decide +kernel, refused zero,
    fun _ h => refused (decodeWord_class111 h), by decide +kernel, by decide +kernel⟩

/-! ### Fixed registers -/

/-- Settles O6, by what a register reads as after a write. -/
theorem registerZeroIsFixed : Obligations.RegisterZeroIsFixed := by
  intro t n m x q
  refine ⟨if_pos rfl, if_pos rfl, if_pos rfl, if_pos rfl, fun nonzero => ?_, fun other => ?_⟩
  · simp only [Team.rs_ws, Team.rp_wp, if_neg nonzero, if_true, and_self]
  · simp only [Team.rs_ws, Team.rp_wp, if_neg other]
    by_cases zero : m = 0
    · simp only [zero, Team.rs, Team.rp, if_true, and_self]
    · simp only [if_neg zero, and_self]

end Sys2Proof.Machine
end

section
/-! SUPPORT. What a step does around the execution of an instruction (R157, R158, R167, R310), an equation for each of its parts. -/

namespace Sys2Proof.Machine

/-- The state in which a step chooses what it does. -/
def chooses (s : State) : State :=
  if (passTime (background s)).launches = [] then passTime (background s) else retuneAll (passTime (background s))

/-- R310: a step carries out the agenda's head, or else the machine's own choice. -/
theorem step_eq (s : State) : step s = (match (chooses s).agenda with
    | .event e :: r => exec e { chooses s with agenda := r }
    | .team k :: r => teamTurn { chooses s with agenda := r } k
    | [] => ownStep (chooses s)) := by
  unfold step stepBody chooses
  simp only [List.isEmpty_iff] <;> rfl

theorem step_event {s : State} {e : Instr} {r : List Turn} (h : (chooses s).agenda = .event e :: r) :
    step s = exec e { chooses s with agenda := r } := by
  rw [step_eq, h]

theorem step_team {s : State} {k : Nat} {r : List Turn} (h : (chooses s).agenda = .team k :: r) :
    step s = teamTurn { chooses s with agenda := r } k := by
  rw [step_eq, h]

theorem step_own {s : State} (h : (chooses s).agenda = []) : step s = ownStep (chooses s) := by
  rw [step_eq, h]

/-- A step with no agenda that no event takes goes to the team that is chosen. -/
theorem ownStep_chosen {s : State} {k : Nat} (busy : s.stalled = false) (early : s.tick % 64 ≠ 63)
    (chosen : (choose { s with stalled := false }).cur = some k) : ownStep s = teamTurn (choose { s with stalled := false }) k := by
  simp [ownStep, busy, early, chosen]

/-- The turn of a team that may issue is its issue. -/
theorem teamTurn_issues {s : State} {k : Nat} {t : Team} (found : s.teams.lookup k = some t) (may : canIssue s k t = true) :
    teamTurn s k = passTurn (issue { s with cur := some k, stalled := false } k t) := by
  simp [teamTurn, found, may]

/-- R157, R202, R205: an issue that neither PTRIG nor a breakpoint stops, and whose reconvergence leaves the team with lanes, goes to the word. -/
theorem issue_reaches_word {s s' : State} {k : Nat} {t t' : Team}
    (untriggered : ¬ (ptrigDue s (bandKey k) = true ∧ (bandOf s (bandKey k)).run = .going))
    (ready : reconverge s k t.reconvergeFuel t = (s', .issue t')) (unbroken : atBreakpoint (bandOf s' (bandKey k)) t' = false) :
    issue s k t = issueWord (noteMisses (setTeam (setTeam s' k t') k t'.meetLane) k t'.meetLane [t'.meetLane.pc]) k t'.meetLane := by
  have free : (ptrigDue s (bandKey k) && (bandOf s (bandKey k)).run == .going) = false := by
    simpa using untriggered
  simp [issue, free, ready, unbroken]

theorem issueWord_decoded {s : State} {k : Nat} {t : Team} {w : Word} {i : Instr} (fetched : fetch s k t = .word w)
    (decoded : decodeWord w = .ok i) : issueWord s k t = exec i (fetchTrace s k t) := by
  simp [issueWord, fetched, decoded]

theorem issueWord_undecoded {s : State} {k : Nat} {t : Team} {w : Word} (fetched : fetch s k t = .word w)
    (undecoded : ∀ i, decodeWord w ≠ .ok i) : issueWord s k t = exec (.unassignedOpcode w) (fetchTrace s k t) := by
  rw [issueWord, fetched]
  cases decoded : decodeWord w with
  | ok i => exact absurd decoded (undecoded i)
  | error e => simp [decoded, exec_unassignedOpcode]

theorem issueWord_refused {s : State} {k : Nat} {t : Team} {c : Nat} (fetched : fetch s k t = .fault c) (cause : c = cXLATE ∨ c = cPROT) :
    issueWord s k t = exec (.instructionFetchFault (BitVec.ofNat 8 c)) s := by
  simp [issueWord, fetched, cause, exec_instructionFetchFault]

theorem issueWord_faulty {s : State} {k : Nat} {t : Team} {c : Nat} (fetched : fetch s k t = .fault c) (xlate : c ≠ cXLATE) (prot : c ≠ cPROT) :
    issueWord s k t = .next (raise (fetchTrace s k t) k t c [{ cause := c, addr := t.pc, flags := 4 }]) := by
  simp [issueWord, fetched, xlate, prot]

theorem issueWord_waits {s : State} {k : Nat} {t : Team} {pa : Option Nat} (fetched : fetch s k t = .wait pa) :
    issueWord s k t = .next (waitHere (pa.elim s fun a => askHost s a false)) := by
  cases pa <;> simp [issueWord, fetched]

/-- A team with no entry in its spill area has nothing to reload (R156). -/
theorem refill_unspilled {t : Team} (s : State) (k n : Nat) (spilled : t.spilled = 0) : refill s k n t = (s, .ok t) := by
  cases n with
  | zero => rfl
  | succ n => rw [refill, if_pos (.inr spilled)]

/-- R157, R158: a team with no stack entry, in hardware or spilled, and a live lane issues as it is. -/
theorem reconverge_emptyStack {s : State} {k : Nat} {t : Team} (n : Nat) (stack : t.stack = []) (spilled : t.spilled = 0)
    (live : t.mask &&& t.limit ≠ 0) : reconverge s k (n + 1) t = (s, .issue { t with mask := t.mask &&& t.limit }) := by
  have alive : (t.mask &&& t.limit == 0) = false := beq_eq_false_iff_ne.2 live
  have stepped : reconvergeStep s k t = (s, .issue { t with mask := t.mask &&& t.limit }, false) := by
    simp only [reconvergeStep, stack, spilled, alive]
    rfl
  have full := refill_unspilled (t := { t with mask := t.mask &&& t.limit }) s k 8 spilled
  simp only [reconverge, stepped, reloaded, full]

/-- Settles O57: the parts of a step, each by its own equation. -/
theorem stepRunsTheDecodedInstruction : Obligations.StepRunsTheDecodedInstruction := by
  intro s s0 s1
  have start : s1 = chooses s := rfl
  clear_value s1
  subst start
  refine ⟨fun e r event => step_event event, ?_, fun k t n stack spilled live => reconverge_emptyStack n stack spilled live⟩
  intro k t t1 s2 s3 turn found may untriggered ready unbroken t2 s4
  have turned : step s = teamTurn s2 k := by
    rcases turn with ⟨r, team, rfl⟩ | ⟨empty, busy, early, rfl, chosen⟩
    · exact step_team team
    · exact (step_own empty).trans (ownStep_chosen busy early chosen)
  have issued : step s = passTurn (issueWord s4 k t2) := by
    rw [turned, teamTurn_issues found may, issue_reaches_word (s := { s2 with cur := some k, stalled := false }) untriggered ready unbroken]
  rw [issued]
  refine ⟨fun w fetched => ⟨fun i decoded => ?_, fun undecoded => ?_⟩, fun c fetched cause => ?_, fun c fetched xlate prot => ?_,
    fun pa fetched => ?_⟩
  · rw [issueWord_decoded fetched decoded]
  · rw [issueWord_undecoded fetched undecoded]
  · rw [issueWord_refused fetched cause]
  · rw [issueWord_faulty fetched xlate prot]
  · rw [issueWord_waits fetched]
    cases pa <;> rfl

end Sys2Proof.Machine
end

section
/-! SUPPORT. Moves between registers (R58 to R62, R215, R217): what each does on registers that are in range, full and good. -/

namespace Sys2Proof.Machine

/-! ### What the moves share -/

/-- Of the team whose turn it is, an instruction that the registers have let go traps as any other. -/
theorem refuse_runs {s : State} {k : Nat} {t : Team} (h : Runs s k t) (cause : Nat) (recs : List Rec) :
    refuse s k cause recs = raise s k t cause recs := by
  rw [refuse, teamOf, look_of_lookup {} h.2]

theorem startProducer_issued (s : State) (k : Nat) (t : Team) (p : Producer) : ProducerIssued s k t p (.next (startProducer s k t p)) := rfl

/-- Lanes written with values that raise no flag. -/
theorem lanesWritten_finish (s : State) (k : Nat) (t : Team) (wide : Bool) (d : Nat) (f : Nat → Nat) :
    LanesWritten s k t wide d (fun L => (f L, 0))
      (.next (finish s k (t.writeLanes wide d ((laneList t t.present).map fun L => (L, f L))))) := by
  have noFlags : ∀ ls : List Nat, ls.foldl (fun (a : Flags) _ => a ||| 0) 0 = 0 := by
    intro ls
    induction ls with
    | nil => rfl
    | cons L ls ih => simp
  refine ⟨_, rfl, ?_, fun r L hL => ?_⟩
  · rw [writeLanes_frame]
    simp only [noFlags, Team.next, Team.goto, Team.issued]
    simp
  · exact rv_writeLanes t wide d f (laneList t t.present) r L (fun L => laneList_lt) hL

/-- A register written from sources that are good. -/
theorem setLanes_good {s : State} {k : Nat} {t : Team} {wide : Bool} {d : Nat} {src ssrc : List (Nat × Bool)} (f : Team → Nat → Nat) (q : Quiet s t)
    (sources : FullV t (src.map fun r => r.1)) (scalars : FullS t (ssrc.map fun r => r.1)) (dest : FullV t (pair wide d)) :
    LanesWritten s k t wide d (fun L => (f t L, 0)) (.next (setLanes s k t wide d src ssrc f)) := by
  unfold setLanes
  rw [gated_good _ q sources scalars dest (by nofun)]
  exact lanesWritten_finish s k t wide d (f t)

theorem fullV_left {t : Team} {as bs : List Nat} (h : FullV t (as ++ bs)) : FullV t as := fun r hr => h r (List.mem_append_left _ hr)
theorem fullV_right {t : Team} {as bs : List Nat} (h : FullV t (as ++ bs)) : FullV t bs := fun r hr => h r (List.mem_append_right _ hr)

/-! ### Lanes to scalars and back -/

/-- R62: `wrl` on good registers. -/
theorem wrl_good {s : State} {k : Nat} {t : Team} {w : Bool} {x : BitVec 6} {y z : BitVec 5} (h : Runs s k t) (q : Quiet s t)
    (wide : t.wideType = some w) (ok : t.okV w x.toNat = true) (dest : FullV t (pair w x.toNat)) (scalars : FullS t [y.toNat, z.toNat]) :
    exec (.wrl x y z) s = .next (if (t.rs z.toNat).toNat ≥ t.lanes then raise s k t cBOUNDS []
      else if bit t.present.toNat (t.rs z.toNat).toNat then finish s k (t.ww w x.toNat (t.rs z.toNat).toNat (t.rs y.toNat).toNat)
      else finish s k t) := by
  have full : ((pair w x.toNat).any fun r => t.vIsEmpty r && (t.vFault.lookup r).isNone) = false := by
    rw [List.any_eq_false]
    intro r hr
    simp [(dest r hr).1]
  have sources : ∀ body, gated s k t { srcS := [(y.toNat, false), (z.toNat, false)], preds := [t.guardReg] } body = body t :=
    fun body => gated_good body q nofun scalars nofun nofun
  have writes : ∀ lanes body, gated s k t { dstV := pair w x.toNat, lanes := lanes } body = body t :=
    fun lanes body => gated_good body q nofun nofun dest nofun
  rw [exec_wrl, execWrl, withTeam_runs h]
  simp only [wide, ok, Bool.not_true, Bool.false_eq_true, if_false, sources, writes, full, refuse_runs h]
  by_cases beyond : (t.rs z.toNat).toNat ≥ t.lanes
  · rw [if_pos beyond, if_pos beyond]
  · rw [if_neg beyond, if_neg beyond]
    cases bit t.present.toNat (t.rs z.toNat).toNat <;> rfl

/-- A narrow value read in two's complement is the word's own integer. -/
theorem toSigned_word (w : Word) : toSigned 32 w.toNat = w.toInt := by
  have low : w.toNat < 2 ^ (32 - 1) ↔ 2 * w.toNat < 2 ^ 32 := by omega
  simp only [toSigned, BitVec.toInt_eq_toNat_cond, Nat.mod_eq_of_lt w.isLt, low]

theorem ofNat_signExt (w : Word) : BitVec.ofNat 64 (signExt 32 64 w.toNat) = w.signExtend 64 := by
  apply BitVec.eq_of_toNat_eq
  rw [signExt, ofInt, toSigned_word, BitVec.signExtend, BitVec.toNat_ofInt, BitVec.toNat_ofNat]
  omega
theorem ofNat_pairValue (lo hi : Word) : BitVec.ofNat 64 (lo.toNat + hi.toNat * 2 ^ 32) = hi ++ lo := by
  apply BitVec.eq_of_toNat_eq
  rw [BitVec.toNat_ofNat, BitVec.toNat_append, ← Nat.shiftLeft_add_eq_or_of_lt lo.isLt, Nat.shiftLeft_eq]
  omega
/-- R62: the value that `rdl` reads of a lane. -/
def rdlValue (t : Team) (ty : Ty) (y L : Nat) : DWord :=
  if ty.wide then t.rv (y + 1) L ++ t.rv y L else if t.typeCode = 0 then (t.rv y L).signExtend 64 else (t.rv y L).setWidth 64

theorem ofNat_rdlValue {t : Team} {ty : Ty} (coded : Ty.ofCode t.typeCode = some ty) (y L : Nat) :
    BitVec.ofNat 64 (if t.typeCode = 0 then signExt 32 64 (t.rw ty.wide y L) else t.rw ty.wide y L) = rdlValue t ty y L := by
  unfold rdlValue Team.rw
  by_cases i32 : t.typeCode = 0
  · have narrow : ty.wide = false := by
      rw [i32, Ty.ofCode, Option.some.injEq] at coded
      subst coded
      rfl
    simp only [i32, narrow, if_true, Bool.false_eq_true, if_false, ofNat_signExt]
  · cases wide : ty.wide
    · simp only [i32, if_false, Bool.false_eq_true, BitVec.ofNat_toNat]
    · simp only [i32, if_false, if_true, ofNat_pairValue]

/-- R62: `rdl` on good registers. -/
theorem rdl_good {s : State} {k : Nat} {t : Team} {ty : Ty} {x : BitVec 5} {y : BitVec 6} {z : BitVec 5} (h : Runs s k t) (q : Quiet s t)
    (coded : Ty.ofCode t.typeCode = some ty) (ok : t.okV ty.wide y.toNat = true) (source : FullV t (pair ty.wide y.toNat))
    (scalars : FullS t [x.toNat, z.toNat]) :
    exec (.rdl x y z) s = .next (if (t.rs z.toNat).toNat ≥ t.lanes then raise s k t cBOUNDS []
      else if x.toNat = 0 then finish s k t
      else startProducer s k t { team := k, core := t.core, sregs := [(x.toNat, rdlValue t ty y.toNat (t.rs z.toNat).toNat)] }) := by
  have go : ∀ rows body, gated s k t { srcV := srcsV ty.wide y.toNat false, srcS := [(z.toNat, false)], dstS := [x.toNat], rows := rows } body =
      body t := fun rows body => gated_good body q (by simpa using source) (fun r hr => scalars r (by simp_all)) nofun
        (fun r hr => scalars r (by simp_all))
  rw [exec_rdl, execRdl, withTeam_runs h]
  simp only [coded, ok, Bool.not_true, Bool.false_eq_true, if_false, go, refuse_runs h, ofNat_rdlValue coded]

/-- Settles O4, by `wrl` and `rdl` on good registers. -/
theorem laneTransfersComplete : Obligations.LaneTransfersComplete := by
  refine ⟨fun s k t w x y z h q wide ok dest scalars => wrl_good h q wide ok dest scalars,
    fun s k t ty x y z h q coded ok source scalars => ?_⟩
  intro L v
  have run := rdl_good h q coded ok source scalars
  refine ⟨fun beyond => ?_, fun inside zero => ?_, fun inside nonzero => ?_⟩
  · rw [run, if_pos beyond]
  · rw [run, if_neg (by omega), if_pos (by simp [zero])]
  · rw [run, if_neg (by omega), if_neg (by simpa using fun e => nonzero (BitVec.eq_of_toNat_eq e))]
    exact startProducer_issued s k t _

/-! ### Constants, moves and shuffles -/

/-- R59, R61, R217: `li`, `lid` and `vbal`, which read no register of lanes. -/
theorem li_good {s : State} {k : Nat} {t : Team} {d : BitVec 6} (imm : BitVec 20) (h : Runs s k t) (q : Quiet s t) (ok : t.okV false d.toNat = true)
    (dest : FullV t [d.toNat]) : LanesWritten s k t false d.toNat (fun _ => ((BitVec.signExtend 32 imm).toNat, 0)) (exec (.li d imm) s) := by
  rw [exec_li, execLi, withTeam_runs h]
  simp only [ok, Bool.not_true, Bool.false_eq_true, if_false]
  exact setLanes_good (fun _ _ => (imm.signExtend 32).toNat) q nofun nofun dest

theorem lid_good {s : State} {k : Nat} {t : Team} {d : BitVec 6} (h : Runs s k t) (q : Quiet s t) (ok : t.okV false d.toNat = true)
    (dest : FullV t [d.toNat]) : LanesWritten s k t false d.toNat (fun L => (L, 0)) (exec (.lid d) s) := by
  rw [exec_lid, execLid, withTeam_runs h]
  simp only [ok, Bool.not_true, Bool.false_eq_true, if_false]
  exact setLanes_good (fun _ L => L) q nofun nofun dest

theorem vbal_good {s : State} {k : Nat} {t : Team} {d : BitVec 6} (inv : Bool) (p : BitVec 3) (h : Runs s k t) (q : Quiet s t)
    (ok : t.okV false d.toNat = true) (dest : FullV t [d.toNat]) :
    LanesWritten s k t false d.toNat (fun L => (bits (t.vote inv p.toNat).toNat (L / 32 * 32) 32, 0)) (exec (.vbal d inv p) s) := by
  have go : ∀ body, gated s k t { preds := [t.guardReg, p.toNat], dstV := [d.toNat], lanes := t.present } body = body t :=
    fun body => gated_good body q nofun nofun dest nofun
  rw [exec_vbal, execVbal, withTeam_runs h]
  simp only [ok, Bool.not_true, Bool.false_eq_true, if_false, go]
  exact lanesWritten_finish s k t false d.toNat fun L => bits (t.vote inv p.toNat).toNat (L / 32 * 32) 32

/-- R61: `mov` and `movs`. -/
theorem mov_good {s : State} {k : Nat} {t : Team} {w : Bool} {d a : BitVec 6} (ta : Bool) (h : Runs s k t) (q : Quiet s t)
    (wide : t.wideType = some w) (okD : t.okV w d.toNat = true) (okA : t.okV w a.toNat = true)
    (full : FullV t (pair w a.toNat ++ pair w d.toNat)) :
    LanesWritten s k t w d.toNat (fun L => (t.rw w a.toNat L, 0)) (exec (.mov d ta a) s) := by
  rw [exec_mov, execMov, withTeam_runs h]
  simp only [wide, okD, okA, Bool.and_self, Bool.not_true, Bool.false_eq_true, if_false]
  exact setLanes_good (fun t L => t.rw w a.toNat L) q (by simpa using fullV_left full) nofun (fullV_right full)

theorem movs_good {s : State} {k : Nat} {t : Team} {w : Bool} {d : BitVec 6} {a : BitVec 5} (ta : Bool) (h : Runs s k t) (q : Quiet s t)
    (wide : t.wideType = some w) (ok : t.okV w d.toNat = true) (dest : FullV t (pair w d.toNat)) (source : FullS t [a.toNat]) :
    LanesWritten s k t w d.toNat (fun _ => ((t.rs a.toNat).toNat, 0)) (exec (.movs d ta a) s) := by
  rw [exec_movs, execMovs, withTeam_runs h]
  simp only [wide, ok, Bool.not_true, Bool.false_eq_true, if_false]
  exact setLanes_good (fun t _ => (t.rs a.toNat).toNat) q nofun source dest

/-- A type handled as bits keeps its width (R79). -/
theorem Ty.raw_wide (ty : Ty) : ty.raw.wide = ty.wide := by
  unfold Ty.raw
  split
  · rfl
  · rename_i f isFloat
    simp only [Ty.wide, isFloat, Elem.width]

/-- An operation that handles its elements as bits is as wide as MODE.TYPE (R61, R79). -/
theorem typed_bits {t : Team} {w : Bool} (wide : t.wideType = some w) : ∃ ty : Ty, t.typed [] true = some (ty, t.envRn) ∧ ty.wide = w := by
  obtain ⟨ty, coded, isWide⟩ := Option.map_eq_some_iff.1 wide
  exact ⟨ty.raw, by simp [Team.typed, coded], (Ty.raw_wide ty).trans isWide⟩

/-- R215: a shuffle on good registers. -/
theorem shuffle_good {s : State} {k : Nat} {t : Team} {w : Bool} {d a : BitVec 6} (ta : Bool) (index : List (Nat × Bool)) (src : Team → Nat → Int)
    (h : Runs s k t) (q : Quiet s t) (wide : t.wideType = some w) (okD : t.okV w d.toNat = true) (okA : t.okV w a.toNat = true)
    (okI : ∀ r ∈ index, t.okV false r.1 = true) (full : FullV t (pair w a.toNat ++ index.map (fun r => r.1) ++ pair w d.toNat)) :
    LanesWritten s k t w d.toNat (fun L => (t.rw w a.toNat (t.shuffled src L), 0)) (shuffle d a ta index src s) := by
  obtain ⟨ty, typed, rfl⟩ := typed_bits wide
  have go : ∀ rows body, gated s k t
      { srcV := srcsV ty.wide a.toNat ta ++ index, preds := [t.guardReg], dstV := pair ty.wide d.toNat, lanes := t.present, rows := rows } body =
        body t := fun rows body =>
    gated_good body q (by simpa using fullV_left full) nofun (fullV_right full) nofun
  have okI' : (index.all fun r => t.okV false r.1) = true := List.all_eq_true.2 okI
  rw [shuffle, withTeam_runs h]
  simp only [typed, okD, okA, okI', Bool.and_self, Bool.not_true, Bool.false_eq_true, if_false, go]
  exact vecResult_lanes k 3 ty.wide d.toNat (fun L => (t.rw ty.wide a.toNat (t.shuffled src L), 0)) q.1 (by simp)

/-! ### MODE -/

/-- The word of MODE as a number: its fields do not overlap (R41). -/
theorem toNat_modeWord (ginv : Bool) (gp : BitVec 3) (ty : BitVec 4) (rnd : BitVec 3) (sat : Bool) (ret : BitVec 2) (ftz : Bool) :
    (modeWord ginv gp ty rnd sat ret ftz).toNat = ginv.toNat * 33554432 + gp.toNat * 4194304 + ty.toNat * 262144 + rnd.toNat * 32768 +
      sat.toNat * 16384 + ret.toNat * 4096 + ftz.toNat * 2048 := by
  have := ginv.toNat_le; have := sat.toNat_le; have := ftz.toNat_le
  have := gp.isLt; have := ty.isLt; have := rnd.isLt; have := ret.isLt
  rw [modeWord, BitVec.toNat_ofNat]
  omega

theorem flag_of_div {x i : Nat} {b : Bool} (h : x / 2 ^ i % 2 = b.toNat) : bit x i = b := by
  rw [bit, Nat.testBit_eq_decide_div_mod_eq, h]
  cases b <;> rfl

/-- R41, R58: the fields of the word that `mode` writes. -/
theorem modeWord_fields (ginv : Bool) (gp : BitVec 3) (ty : BitVec 4) (rnd : BitVec 3) (sat : Bool) (ret : BitVec 2) (ftz : Bool) :
    let m := modeWord ginv gp ty rnd sat ret ftz
    m.extractLsb' 26 6 = 0 ∧ m.extractLsb' 0 11 = 0 ∧ bit m.toNat 25 = ginv ∧ bits m.toNat 22 3 = gp.toNat ∧ bits m.toNat 18 4 = ty.toNat ∧
      bits m.toNat 15 3 = rnd.toNat ∧ bit m.toNat 14 = sat ∧ bits m.toNat 12 2 = ret.toNat ∧ bit m.toNat 11 = ftz := by
  intro m
  have value := toNat_modeWord ginv gp ty rnd sat ret ftz
  have unset : ∀ lo n, m.toNat / 2 ^ lo % 2 ^ n = 0 → m.extractLsb' lo n = 0 := fun lo n h =>
    BitVec.eq_of_toNat_eq (by rw [BitVec.extractLsb'_toNat, Nat.shiftRight_eq_div_pow, h]; rfl)
  change m.toNat = _ at value
  clear_value m
  have := ginv.toNat_le; have := sat.toNat_le; have := ftz.toNat_le
  have := gp.isLt; have := ty.isLt; have := rnd.isLt; have := ret.isLt
  have field : ∀ lo n x, m.toNat / 2 ^ lo % 2 ^ n = x → bits m.toNat lo n = x := fun _ _ _ h => h
  refine ⟨unset _ _ ?_, unset _ _ ?_, flag_of_div ?_, field _ _ _ ?_, field _ _ _ ?_, field _ _ _ ?_, flag_of_div ?_, field _ _ _ ?_,
    flag_of_div ?_⟩
  all_goals omega

/-- Settles O5: each move by its lemma on good registers, and `mode` by the fields of its word. -/
theorem movesAndModeComplete : Obligations.MovesAndModeComplete := by
  refine ⟨fun s k t h q => ⟨fun d imm ok dest => li_good imm h q ok dest, fun d ok dest => lid_good h q ok dest,
    fun d inv p ok dest => vbal_good inv p h q ok dest, fun w wide => ⟨fun d ta a okD okA full => mov_good ta h q wide okD okA full,
    fun d ta a ok dest source => movs_good ta h q wide ok dest source, fun d ta a tb b okD okA okB full => ?_, fun d ta a b okD okA full => ?_,
    fun d ta a b okD okA full => ?_⟩⟩, fun s k t ginv gp ty rnd sat ret ftz h => ?_⟩
  · have run := shuffle_good ta [(b.toNat, tb)] (fun t L => (t.rv b.toNat L).toNat) h q wide okD okA (by simpa using okB) (by simpa using full)
    rw [exec_shfi]
    simpa only [execShfi, Team.shuffled, Int.natCast_nonneg, true_and, Int.toNat_natCast, Nat.cast_lt] using run
  · exact shuffle_good ta [] (fun _ L => (L : Int) + b.toInt) h q wide okD okA nofun (by simpa using full)
  · have run := shuffle_good ta [] (fun _ L => ((L ^^^ b.toNat : Nat) : Int)) h q wide okD okA nofun (by simpa using full)
    rw [exec_shfx]
    simpa only [execShfx, Team.shuffled, Int.natCast_nonneg, true_and, Int.toNat_natCast, Nat.cast_lt] using run
  · refine ⟨modeWord ginv gp ty rnd sat ret ftz, withTeam_runs h _, ?_⟩
    exact modeWord_fields ginv gp ty rnd sat ret ftz

end Sys2Proof.Machine
end

section
/-! SUPPORT. Producers (R47): what a completion writes, and how special functions and table evaluations issue (R96, R101, R102). -/

namespace Sys2Proof.Machine

/-! ### What a completion writes -/

/-- A bit that is cleared stays cleared. -/
theorem getLsbD_foldl_clear {w : Nat} (rs : List Nat) (m : BitVec w) (i : Nat) (h : m.getLsbD i = false) :
    (rs.foldl (fun m r => m &&& ~~~BitVec.ofNat w (2 ^ r)) m).getLsbD i = false := by
  induction rs generalizing m with
  | nil => exact h
  | cons r rs ih => exact ih _ (by simp [h])

/-- The bits of a list of registers are cleared. -/
theorem bit_foldl_clear {w : Nat} {rs : List Nat} (m : BitVec w) {r : Nat} (listed : r ∈ rs) (bound : r < w) :
    bit (rs.foldl (fun m r => m &&& ~~~BitVec.ofNat w (2 ^ r)) m).toNat r = false := by
  rw [bit, BitVec.testBit_toNat]
  induction rs generalizing m with
  | nil => nomatch listed
  | cons a rs ih =>
    rcases List.mem_cons.1 listed with rfl | later
    · exact getLsbD_foldl_clear rs _ r (by
        simp only [BitVec.getLsbD_and, BitVec.getLsbD_not, BitVec.getLsbD_ofNat, Nat.testBit_two_pow_self, bound]
        simp)
    · exact ih _ later

theorem Team.fillV_vIsEmpty {t : Team} {rs : List Nat} {r : Nat} (listed : r ∈ rs) (bound : r < 64) : (t.fillV rs).vIsEmpty r = false :=
  bit_foldl_clear t.vEmpty listed bound

theorem Team.fillS_sIsEmpty {t : Team} {rs : List Nat} {r : Nat} (listed : r ∈ rs) (bound : r < 32) : (t.fillS rs).sIsEmpty r = false :=
  bit_foldl_clear t.sEmpty listed bound

/-- The lanes of a producer, written one after another. -/
def putLanes (v : NMap Word) (ls : List (Nat × Word)) : NMap Word := ls.foldl (fun v l => putAt 0 v l.1 l.2) v

theorem look_putLanes_other {ls : List (Nat × Word)} {key : Nat} (v : NMap Word) (other : ∀ e ∈ ls, e.1 ≠ key) :
    look 0 (putLanes v ls) key = look 0 v key := by
  induction ls generalizing v with
  | nil => rfl
  | cons a ls ih =>
    rw [putLanes, List.foldl_cons, ← putLanes, ih _ fun e he => other e (List.mem_cons_of_mem _ he), look_putAt,
      if_neg (other a List.mem_cons_self).symm]

theorem look_putLanes_mem {ls : List (Nat × Word)} {key : Nat} {w : Word} (v : NMap Word) (distinct : ls.Pairwise fun a b => a.1 ≠ b.1)
    (listed : (key, w) ∈ ls) : look 0 (putLanes v ls) key = w := by
  induction ls generalizing v with
  | nil => nomatch listed
  | cons a ls ih =>
    obtain ⟨first, rest⟩ := List.pairwise_cons.1 distinct
    rw [putLanes, List.foldl_cons, ← putLanes]
    rcases List.mem_cons.1 listed with rfl | later
    · rw [look_putLanes_other _ fun e he => (first e he).symm, look_putAt, if_pos rfl]
    · exact ih _ rest later

theorem foldl_putLane (ls : List (Nat × Word)) (t : Team) :
    ls.foldl (fun (t : Team) l => { t with v := putAt 0 t.v l.1 l.2 }) t = { t with v := putLanes t.v ls } := by
  induction ls generalizing t with
  | nil => rfl
  | cons l ls ih => exact ih _

/-- The scalars of a producer, written one after another: s0 stays zero (R44). -/
def putScalars (m : NMap DWord) (rs : List (Nat × DWord)) : NMap DWord :=
  rs.foldl (fun m r => if r.1 = 0 then m else putAt 0 m r.1 r.2) m

theorem foldl_ws (rs : List (Nat × DWord)) (t : Team) :
    rs.foldl (fun (t : Team) r => t.ws r.1 r.2) t = { t with s := putScalars t.s rs } := by
  induction rs generalizing t with
  | nil => rfl
  | cons r rs ih =>
    rw [List.foldl_cons, ih, putScalars, putScalars, List.foldl_cons, Team.ws]
    split <;> rfl

/-- A completion as an update of the team: its vector lanes, its scalars, the full bits and FSTAT. -/
theorem Team.complete_eq (t : Team) (p : Producer) : t.complete p =
    { t with
      v := putLanes t.v p.lanes
      s := putScalars t.s p.sregs
      vEmpty := (t.fillV p.vregs).vEmpty
      sEmpty := (t.fillS (p.sregs.map fun r => r.1)).sEmpty
      fstat := t.fstat ||| p.flags.setWidth 64 } := by
  rw [Team.complete, foldl_putLane, foldl_ws]
  rfl

/-- Settles O14: the completed team by its lanes, its scalars and its full bits. -/
theorem producerCompletionWrites : Obligations.ProducerCompletionWrites := by
  refine ⟨fun s k missing => ?_, fun s k t p team oldest => ?_⟩
  · rw [exec_producerCompletion, execProducerCompletion]
    rcases missing with noProducer | noTeam
    · rw [noProducer]
    · rw [noTeam]
      cases s.producers.find? fun q => q.team == k <;> rfl
  · refine ⟨t.complete p, by simp only [exec_producerCompletion, execProducerCompletion, oldest, team], ?_⟩
    rw [Team.complete_eq]
    refine ⟨fun r listed bound => Team.fillV_vIsEmpty listed bound,
      fun r listed bound => Team.fillS_sIsEmpty (List.mem_map_of_mem listed) bound, rfl, rfl, fun n x one nonzero => ?_,
      fun r L other => look_putLanes_other t.v other, fun distinct r L w listed => look_putLanes_mem t.v distinct listed⟩
    simp only [Team.rs, if_neg nonzero, one, putScalars, List.foldl_cons, List.foldl_nil, look_putAt, if_true]

/-! ### What issues as a producer -/

/-- A vector producer whose checkers and flags let its values pass. -/
theorem vecProducer_good {s : State} (k : Nat) {t : Team} (unit : Nat) (wide table : Bool) (d : Nat) (f : Nat → Nat × Flags) (sound : s.upset = none)
    (clear : ∀ L ∈ laneList t t.present, (f L).2 &&& t.fpte.setWidth 5 = 0) :
    vecProducer s k t unit wide table d ((laneList t t.present).map fun L => (L, f L)) =
      if laneList t t.present = [] then finish s k t
      else startProducer s k t { team := k, core := t.core, vregs := pair wide d, table := table
                                 lanes := laneWords wide d ((laneList t t.present).map fun L => (L, (f L).1))
                                 flags := joinFlags (laneList t t.present) fun L => (f L).2 } := by
  have noHit : (((laneList t t.present).map fun L => (L, f L)).filter fun r => r.2.2 &&& t.fpte.setWidth 5 != 0) = [] := by
    rw [List.filter_eq_nil_iff]
    intro r listed
    obtain ⟨L, present, rfl⟩ := List.mem_map.1 listed
    simp [clear L present]
  unfold vecProducer
  rw [checkedLanes_quiet _ _ _ _ _ sound]
  simp only [noHit, List.isEmpty_nil, Bool.not_true, Bool.false_eq_true, if_false, List.isEmpty_iff, List.map_eq_nil_iff, List.map_map, joinFlags,
    List.foldl_map, Function.comp_def]

/-- R96: what each special function executes. -/
theorem exec_special {i : Instr} {d a : BitVec 6} {fn : SpecFn} {wideToo : Bool} (h : specOf i = some (d, a, fn, wideToo)) :
    ∃ ta, exec i = special fn wideToo d ta a := by
  unfold specOf at h
  split at h
  all_goals cases h
  all_goals exact ⟨_, rfl⟩

/-- R47, R96: a special function on good registers of a floating type that it takes. -/
theorem special_good {s : State} {k : Nat} {t : Team} {ty : Ty} {f : Fmt} {e : NumEnv} {d a : BitVec 6} (fn : SpecFn) (wideToo ta : Bool)
    (h : Runs s k t) (q : Quiet s t) (typed : t.typed [.F, .PF] false = some (ty, e)) (float : ty.elem = .flt f)
    (takes : ty.wide = true → wideToo = true) (okD : t.okV ty.wide d.toNat = true) (okA : t.okV ty.wide a.toNat = true)
    (full : FullV t (pair ty.wide a.toNat ++ pair ty.wide d.toNat)) :
    special fn wideToo d ta a s = .next (vecProducer { s with fresh := s.fresh + 4096 } k t 4 ty.wide false d.toNat
      ((laneList t t.present).map fun L => (L, ty.build fun i =>
        specElem fn f e (Config.freeValue (s.fresh + 4 * L + i)).toNat (ty.get (t.rw ty.wide a.toNat L) i)))) := by
  have go : ∀ body, gated s k t { srcV := srcsV ty.wide a.toNat ta, preds := [t.guardReg], dstV := pair ty.wide d.toNat, lanes := t.present } body =
      body t := fun body => gated_good body q (by simpa using fullV_left full) nofun (fullV_right full) nofun
  have taken : (ty.wide && !wideToo) = false := by
    cases wide : ty.wide
    · rfl
    · simp [takes wide]
  rw [special, withTeam_runs h]
  simp only [typed, taken, okD, okA, Bool.and_self, Bool.not_true, Bool.or_self, Bool.false_eq_true, if_false, go, float]

/-- R101, R102: the value of `tbev` for a lane. -/
def tbevValue (s : State) (t : Team) (ty : Ty) (f : Fmt) (e : NumEnv) (a L : Nat) : Nat × Flags :=
  ty.build fun i =>
    let y := tableValue (coreOf s t.core) (coreOf s t.core).bank (f.operand e.ftz (ty.get (t.rv a L).toNat i))
    if f = f32 then ((f.round tableEnv y.exact).1, 0) else f.round e y.exact

/-- R101, R102: `tbev` on good registers, while no `tbsw` holds the tables. -/
theorem tbev_good {s : State} {k : Nat} {t : Team} {ty : Ty} {f : Fmt} {e : NumEnv} {d a : BitVec 6} (ta : Bool) (h : Runs s k t) (q : Quiet s t)
    (typed : t.typed [.F, .PF] false = some (ty, e)) (float : ty.elem = .flt f) (narrow : ty.wide = false) (okD : t.okV false d.toNat = true)
    (okA : t.okV false a.toNat = true) (full : FullV t [a.toNat, d.toNat]) (unheld : (coreOf s t.core).tabSwap = none) :
    exec (.tbev d ta a) s = .next (vecProducer s k t 4 false true d.toNat
      ((laneList t t.present).map fun L => (L, tbevValue s t ty f e a.toNat L))) := by
  have go : ∀ body, gated s k t { srcV := [(a.toNat, ta)], preds := [t.guardReg], dstV := [d.toNat], lanes := t.present } body = body t :=
    fun body => gated_good body q (fun r hr => full r (by simp_all)) nofun (fun r hr => full r (by simp_all)) nofun
  rw [exec_tbev, execTbev, withTeam_runs h]
  simp only [typed, narrow, okD, okA, Bool.and_self, Bool.not_true, Bool.or_self, Bool.false_eq_true, if_false, go, unheld, Option.isSome_none, float,
    Team.rw, tbevValue]

/-- Settles O13: a special function and a table evaluation issue a vector producer, whose checkers and flags let it pass. -/
theorem specialFunctionsIssue : Obligations.SpecialFunctionsIssue := by
  refine ⟨fun i d a fn wideToo named s k t ty f e h q typed float takes okD okA full => ?_,
    fun s k t ty f e d a ta h q typed float narrow okD okA full unheld => ?_⟩
  · intro val clear
    obtain ⟨ta, executes⟩ := exec_special named
    have run := special_good fn wideToo ta h q typed float takes okD okA full
    have issued := vecProducer_good (s := { s with fresh := s.fresh + 4096 }) k 4 ty.wide false d.toNat val q.1 clear
    rw [executes, run, issued]
    exact ⟨fun none => by rw [if_pos none], fun some => by rw [if_neg some]; exact startProducer_issued _ k t _⟩
  · intro c val clear some
    have run := tbev_good ta h q typed float narrow okD okA full unheld
    rw [vecProducer_good k 4 false true d.toNat (tbevValue s t ty f e a.toNat) q.1 clear, if_neg some] at run
    rw [run]
    exact startProducer_issued s k t _

end Sys2Proof.Machine
end

section
/-! SUPPORT. Bad fetches and privileged instructions (O28), and barriers and waits (O29). -/

namespace Sys2Proof.Machine

/-! ### Instructions that need privilege (R315) -/

theorem not_privileged {t : Team} (user : bit t.ten.toNat 4 = false) : (!t.privileged) = true := by
  rw [Team.privileged, user]; rfl

/-- Settles O28: each of these meanings traps before it looks at anything else. -/
theorem fetchAndPrivilegeTraps : Obligations.FetchAndPrivilegeTraps := by
  refine ⟨fun s k t h => ⟨fun w => withTeam_runs h _, fun c => withTeam_runs h _⟩, fun s k t x y n h user => ?_⟩
  have denied := not_privileged user
  refine ⟨?halt, ?tlbi, ?ctxld, ?crate, ?ptrig, ?breakpoint, ?movc⟩
  case halt => rw [exec_halt, execHalt, withTeam_runs h, if_pos denied]
  case tlbi =>
    intro inRange
    rw [exec_tlbi, execTlbi, withTeam_runs h, if_neg (by omega), if_pos denied]
  case ctxld =>
    intro free
    rw [exec_ctxld, execCtxld, memory, withTeam_runs h, free, if_neg (by simp), if_neg (by simp), if_pos denied]
  case crate => intro m; rw [exec_crate, execCrate, withTeam_runs h, if_pos denied]
  case ptrig => rw [exec_ptrig, execPtrig, withTeam_runs h, if_pos denied]
  case breakpoint => intro m; rw [exec_breakpointWrite, execBreakpointWrite, withTeam_runs h, if_pos denied]
  case movc => rw [exec_movc, execMovc, withTeam_runs h, if_neg (by simp [crWritable, writable]), denied, if_pos (by simp)]

/-! ### The release part of an instruction that has nothing to wait for (R122) -/

/-- The requests that leave are all that changes. -/
theorem foldl_sendMiss (ms : List Miss) (s : State) :
    ∃ misses l2q, ms.foldl sendMiss s = { s with misses := misses, l2q := l2q } := by
  induction ms generalizing s with
  | nil => exact ⟨s.misses, s.l2q, rfl⟩
  | cons m ms ih =>
    obtain ⟨misses, l2q, eq⟩ := ih (sendMiss s m)
    exact ⟨misses, l2q, eq⟩

theorem released_eq (s : State) (t : Team) :
    ∃ misses l2q, released s t = { s with serial := s.serial + 1, misses := misses, l2q := l2q } := foldl_sendMiss _ _

/-- A core with no dirty word publishes nothing. -/
theorem capture_clean {s : State} {core : Nat} (clean : ∀ e ∈ l1Of s core, e.2.dirty = 0) (toHome cpToo : Bool) (p : Nat → Bool) (id : Nat) :
    capture s core toHome cpToo p id = s := by
  have none : ∀ e ∈ l1Of s core, e.2.dirtyWords = [] := fun e mem => by
    simp [Blk.dirtyWords, Blk.isDirty, clean e mem, bit]
  rw [capture, List.flatMap_eq_nil_iff.2 fun e mem => by rw [none e mem]; rfl]
  rfl

/-- A new release goes on at once where what it leaves is done. -/
theorem releasing_at {s s' : State} {k : Nat} {t : Team} {point : Point} {p : Nat → Bool} (free : t.release = none)
    (state : (if point == .l1 then released s t else capture (released s t) t.core (point == .home) false p s.serial) = s')
    (done : releaseDone s' s.serial = true) (idle : loading s' k = false) (cont : State → Team → State) :
    releasing s k t point p cont = cont s' t := by
  subst state
  have settled : (releaseDone (if point == .l1 then released s t else capture (released s t) t.core (point == .home) false p s.serial) s.serial &&
      !loading (if point == .l1 then released s t else capture (released s t) t.core (point == .home) false p s.serial) k) = true := by
    rw [done, idle]; rfl
  simp only [releasing, free]
  exact if_pos settled

/-- A release of the L1 goes on at once where the team has nothing outstanding and its number is not in use. -/
theorem releasing_l1 {s : State} {k : Nat} {t : Team} (free : t.release = none) (idle : loading s k = false)
    (done : releaseDone s s.serial = true) (p : Nat → Bool) (cont : State → Team → State) :
    releasing s k t .l1 p cont = cont (released s t) t := by
  obtain ⟨misses, l2q, eq⟩ := released_eq s t
  refine releasing_at free (if_pos rfl) ?_ ?_ cont
  · rw [eq]; exact done
  · rw [eq]; exact idle

/-- A release of a wider scope does too, where the core has no dirty word. -/
theorem releasing_published {s : State} {k : Nat} {t : Team} (pub : Published s k t) (p : Nat → Bool) (cont : State → Team → State) :
    releasing s k t .l2 p cont = cont (released s t) t := by
  obtain ⟨free, idle, done, clean⟩ := pub
  obtain ⟨misses, l2q, eq⟩ := released_eq s t
  refine releasing_at free ((if_neg (by simp)).trans (capture_clean ?_ _ _ _ _)) ?_ ?_ cont
  · rw [eq]; exact clean
  · rw [eq]; exact done
  · rw [eq]; exact idle

/-! ### Named barriers (R176 to R180) -/

theorem arrive_eq (b : Barrier) : b.arrive = if b.need ≤ 1 then { b with need := b.count, arrived := 0, phase := b.phase + 1 }
    else { b with need := b.need - 1, arrived := b.arrived + 1 } := rfl

/-- A barrier instruction of a barrier outside the crew's budget. -/
theorem barrierOp_outside {s : State} {k : Nat} {t : Team} (h : Runs s k t) {n : BitVec 6} (out : (crewOf s (crewKey k)).bars ≤ n.toNat)
    (body : Nat → Team → State) : barrierOp n s body = .next (raise s k t cILLOP []) := by
  rw [barrierOp, withTeam_runs h, if_pos out]; rfl

theorem barrierOp_inside {s : State} {k : Nat} {t : Team} (h : Runs s k t) {n : BitVec 6} (inside : n.toNat < (crewOf s (crewKey k)).bars)
    (body : Nat → Team → State) : barrierOp n s body = .next (body k t) := by
  rw [barrierOp, withTeam_runs h, if_neg (by omega)]

/-- The barriers are as they were when a release has nothing to wait for. -/
theorem barOf_released (s : State) (t : Team) (c n : Nat) : barOf (released s t) c n = barOf s c n := by
  obtain ⟨misses, l2q, eq⟩ := released_eq s t
  rw [eq]; rfl

theorem bandOf_released (s : State) (t : Team) (b : Nat) : bandOf (released s t) b = bandOf s b := by
  obtain ⟨misses, l2q, eq⟩ := released_eq s t
  rw [eq]; rfl

/-- What an instruction of a barrier within the budget does, on a full register and with nothing to release. -/
theorem barrier_inside {s : State} {k : Nat} {t : Team} {n : BitVec 6} {y : BitVec 5} {b : Barrier} (h : Runs s k t) (q : Quiet s t)
    (free : t.release = none) (full : FullS t [y.toNat]) (idle : loading s k = false) (done : releaseDone s s.serial = true)
    (inside : n.toNat < (crewOf s (crewKey k)).bars) (is : barOf s (crewKey k) n.toNat = b) :
    let s1 := released s t
    let c := t.closeRegion
    let v := (t.rs y.toNat).toNat
    let ini : Barrier := { b with count := v, need := v - b.arrived }
    (exec (.bar n) s = .next (if b.need ≤ 1 then finish (setBar s1 (crewKey k) n.toNat b.arrive) k c
      else setTeam (setBar s1 (crewKey k) n.toNat b.arrive) k (c.holding (.barrier n.toNat b.phase)))) ∧
    (exec (.barar n y) s = .next (finish (setBar s1 (crewKey k) n.toNat b.arrive) k (c.ws y.toNat (b.phase.setWidth 64)))) ∧
    (exec (.barwt n y) s = .next (if phasePast b.phase ((t.rs y.toNat).setWidth 32) then finish s k c
      else setTeam s k (c.holding (.barrier n.toNat ((t.rs y.toNat).setWidth 32))))) ∧
    (exec (.barini n y) s = .next (
      if v = 0 ∨ v > 65535 then raise s k t cBOUNDS [record 0 cBOUNDS (t.rs y.toNat)]
      else finish (setBar s (crewKey k) n.toNat (if ini.need = 0 then ini.complete else ini)) k t)) ∧
    (exec (.barexp n y) s = .next (
      if v > 65535 ∨ b.need + v > 65535 then raise s k t cBOUNDS [record 0 cBOUNDS (t.rs y.toNat)]
      else finish (setBar s (crewKey k) n.toNat { b with need := b.need + v }) k t)) := by
  have read : ∀ body : Team → State, gated s k t { srcS := [(y.toNat, false)] } body = body t := fun body =>
    gated_good body q nofun full nofun nofun
  have write : ∀ body : Team → State, gated s k t { dstS := [y.toNat] } body = body t := fun body =>
    gated_good body q nofun nofun nofun full
  have now : ∀ cont : State → Team → State, releasing s k t .l1 (fun _ => true) cont = cont (released s t) t :=
    fun cont => releasing_l1 free idle done _ cont
  subst is
  refine ⟨?bar, ?barar, ?barwt, ?barini, ?barexp⟩
  case bar => simp only [exec_bar, execBar, barrierOp_inside h inside, now, barOf_released]
  case barar => simp only [exec_barar, execBarar, barrierOp_inside h inside, write, now, barOf_released]
  case barwt => simp only [exec_barwt, execBarwt, barrierOp_inside h inside, read]
  case barini => simp only [exec_barini, execBarini, barrierOp_inside h inside, read, refuse1, refuse_runs h]
  case barexp => simp only [exec_barexp, execBarexp, barrierOp_inside h inside, read, refuse1, refuse_runs h]

/-- `barini` completes the phase where every team has arrived (R179). -/
theorem initialized (b : Barrier) (v : Nat) : (if ({ b with count := v, need := v - b.arrived } : Barrier).need = 0
      then ({ b with count := v, need := v - b.arrived } : Barrier).complete else { b with count := v, need := v - b.arrived }) =
    if v ≤ b.arrived then { b with count := v, need := v, arrived := 0, phase := b.phase + 1 }
    else { b with count := v, need := v - b.arrived } := by
  by_cases all : v ≤ b.arrived
  · rw [if_pos all, if_pos (show v - b.arrived = 0 by omega)]; rfl
  · rw [if_neg all, if_neg (show ¬ v - b.arrived = 0 by omega)]

/-! ### Waits for registers (R182) -/

theorem find?_none_of_ne {β : Type} {m : NMap β} {r : Nat} (other : ∀ e ∈ m, e.1 ≠ r) : m.find? (fun e => [r].contains e.1) = none := by
  rw [List.find?_eq_none]
  intro e mem
  simpa using other e mem

theorem any_contains {n r : Nat} (inRange : r < n) (p : Nat → Bool) : ((List.range n).any fun i => [r].contains i && p i) = p r := by
  rw [Bool.eq_iff_iff, List.any_eq_true]
  constructor
  · rintro ⟨i, -, both⟩
    simp only [List.contains_cons, List.contains_nil, Bool.or_false, Bool.and_eq_true, beq_iff_eq] at both
    exact both.1 ▸ both.2
  · intro yes
    exact ⟨r, List.mem_range.2 inRange, by simpa using yes⟩

/-- No register of a mask is empty just where the mask is zero. -/
theorem any_bit_eq {n : Nat} (m : BitVec n) : ((List.range n).any fun i => bit m.toNat i) = true ↔ m ≠ 0 := by
  have zero : m = 0 ↔ ∀ i < n, m.toNat.testBit i = false := by
    rw [BitVec.eq_of_getLsbD_eq_iff]
    simp [BitVec.getLsbD]
  rw [List.any_eq_true, ne_eq, zero]
  simp [bit]

theorem vIsEmpty_all (t : Team) : ((List.range 64).any t.vIsEmpty) = true ↔ t.vEmpty ≠ 0 := any_bit_eq t.vEmpty
theorem sIsEmpty_all (t : Team) : ((List.range 32).any t.sIsEmpty) = true ↔ t.sEmpty ≠ 0 := any_bit_eq t.sEmpty

/-- Where no register that is waited for carries a fault, the wait lasts while one is empty. -/
theorem waitFor_faultless {s : State} {k : Nat} {t : Team} {vs ss : Option (List Nat)}
    (noV : t.vFault.find? (fun e => vs.all fun l => l.contains e.1) = none)
    (noS : t.sFault.find? (fun e => ss.all fun l => l.contains e.1) = none) :
    waitFor s k t vs ss = if ((List.range 64).any fun r => (vs.all fun l => l.contains r) && t.vIsEmpty r) ||
        (List.range 32).any fun r => (ss.all fun l => l.contains r) && t.sIsEmpty r then waitHere s
      else finish s k t := by
  simp only [waitFor, noV, noS]

theorem fwaitVector_faultless {s : State} {k : Nat} {t : Team} (h : Runs s k t) {x : BitVec 6} (ok : t.okV false x.toNat = true)
    (noFault : ∀ e ∈ t.vFault, e.1 ≠ x.toNat) :
    exec (.fwaitVector x) s = .next (if t.vIsEmpty x.toNat then waitHere s else finish s k t) := by
  have others : ((List.range 32).any fun r => ((some []).all fun l : List Nat => l.contains r) && t.sIsEmpty r) = false := by simp
  have run := waitFor_faultless (s := s) (k := k) (vs := some [x.toNat]) (ss := some []) (find?_none_of_ne noFault) (by simp)
  rw [others, Bool.or_false] at run
  have one : ((List.range 64).any fun r => ((some [x.toNat]).all fun l => l.contains r) && t.vIsEmpty r) = t.vIsEmpty x.toNat :=
    any_contains x.isLt t.vIsEmpty
  rw [exec_fwaitVector, execFwaitVector, withTeam_runs h, ok, if_neg (by simp), run, one]

theorem fwaitScalar_faultless {s : State} {k : Nat} {t : Team} (h : Runs s k t) {x : BitVec 5} (noFault : ∀ e ∈ t.sFault, e.1 ≠ x.toNat) :
    exec (.fwaitScalar x) s = .next (if t.sIsEmpty x.toNat then waitHere s else finish s k t) := by
  have others : ((List.range 64).any fun r => ((some []).all fun l : List Nat => l.contains r) && t.vIsEmpty r) = false := by simp
  have run := waitFor_faultless (s := s) (k := k) (vs := some []) (ss := some [x.toNat]) (by simp) (find?_none_of_ne noFault)
  rw [others, Bool.false_or] at run
  have one : ((List.range 32).any fun r => ((some [x.toNat]).all fun l => l.contains r) && t.sIsEmpty r) = t.sIsEmpty x.toNat :=
    any_contains x.isLt t.sIsEmpty
  rw [exec_fwaitScalar, execFwaitScalar, withTeam_runs h, run, one]

theorem fwaitAll_faultless {s : State} {k : Nat} {t : Team} (h : Runs s k t) (noV : t.vFault = []) (noS : t.sFault = []) :
    exec .fwaitAll s = .next (if t.vEmpty = 0 ∧ t.sEmpty = 0 then finish s k t else waitHere s) := by
  have run := waitFor_faultless (s := s) (k := k) (t := t) (vs := none) (ss := none) (by rw [noV]; rfl) (by rw [noS]; rfl)
  rw [exec_fwaitAll, execFwaitAll, withTeam_runs h, run]
  congr 1
  have any : (((List.range 64).any fun r => ((none : Option (List Nat)).all fun l => l.contains r) && t.vIsEmpty r) ||
      (List.range 32).any fun r => ((none : Option (List Nat)).all fun l => l.contains r) && t.sIsEmpty r) = true ↔
      ¬(t.vEmpty = 0 ∧ t.sEmpty = 0) := by
    simp only [Option.all_none, Bool.true_and, Bool.or_eq_true]
    rw [vIsEmpty_all, sIsEmpty_all]
    tauto
  by_cases full : t.vEmpty = 0 ∧ t.sEmpty = 0
  · rw [if_pos full, if_neg fun some => any.1 some full]
  · rw [if_neg full, if_pos (any.2 full)]

/-- Settles O29. -/
theorem barriersComplete : Obligations.BarriersComplete := by
  refine ⟨⟨fun s k t n y h out => ?outside, fun s k t n y b h q free full idle done inside is => ?inside⟩,
    fun s k t n p has => ⟨fun holds => ?barrier, fun holds => ?free, fun holds => ?band⟩,
    fun s k t b h is => ⟨fun pub => ?bbar, fun x ok noFault => fwaitVector_faultless h ok noFault,
      fun x noFault => fwaitScalar_faultless h noFault, fwaitAll_faultless h⟩⟩
  case outside => simp [exec_bar, exec_barar, exec_barwt, exec_barini, exec_barexp, execBar, execBarar, execBarwt, execBarini, execBarexp, barrierOp_outside h out]
  case inside =>
    obtain ⟨bar, barar, barwt, barini, barexp⟩ := barrier_inside h q free full idle done inside is
    refine ⟨bar, barar, barwt, barini.trans ?_, barexp⟩
    rw [initialized]
    split
    · rfl
    · split <;> rfl
  case barrier =>
    simp only [exec_barrierWaitEnd, execBarrierWaitEnd, has, holds]
    split <;> rfl
  case free => simp only [exec_barrierWaitEnd, execBarrierWaitEnd, has, holds]
  case band =>
    simp only [exec_barrierWaitEnd, execBarrierWaitEnd, has, holds]
    split <;> rfl
  case bbar =>
    subst is
    have now : ∀ cont : State → Team → State, releasing s k t .l2 (fun _ => true) cont = cont (released s t) t := releasing_published pub _
    simp only [exec_bbar, execBbar, withTeam_runs h, now, bandOf_released, Band.arrive]
    by_cases last : (bandOf s (bandKey k)).bneed ≤ 1
    · simp only [if_pos last]; rfl
    · simp only [if_neg last]

end Sys2Proof.Machine
end

section
/-! SUPPORT. Matrix instructions: how their commands are queued, and how accumulators are read and written (O41). -/

namespace Sys2Proof.Machine

/-! ### The words of commands (R243) -/

theorem arrayWord_toNat {op x y z : Nat} (hop : op < 512) (hx : x < 32) (hy : y < 32) (hz : z < 256) :
    (arrayWord op x y z).toNat = 0xA0000000 + op * 2 ^ 20 + x * 2 ^ 14 + y * 2 ^ 8 + z := by
  rw [arrayWord, BitVec.toNat_ofNat]
  omega

theorem tileA_arrayWord {op x y z : Nat} (hop : op < 512) (hx : x < 32) (hy : y < 32) (hz : z < 256) : tileA (arrayWord op x y z) = x := by
  rw [tileA, arrayWord_toNat hop hx hy hz, bits]
  omega

theorem tileB_arrayWord {op x y z : Nat} (hop : op < 512) (hx : x < 32) (hy : y < 32) (hz : z < 256) : tileB (arrayWord op x y z) = y := by
  rw [tileB, arrayWord_toNat hop hx hy hz, bits]
  omega

theorem op_arrayWord {op x y z : Nat} (hop : op < 512) (hx : x < 32) (hy : y < 32) (hz : z < 256) (q : ArrayCmd) :
    ({ q with word := arrayWord op x y z } : ArrayCmd).op = op % 16 := by
  rw [ArrayCmd.op, arrayWord_toNat hop hx hy hz, bits]
  omega

/-- The accumulator that a command of `mma` or `acz` names. -/
theorem acc_arrayWord {op x y a v : Nat} (hop : op < 512) (other : op % 16 ≠ 7) (hx : x < 32) (hy : y < 32) (ha : a < 8) (hv : v < 32)
    (q : ArrayCmd) : ({ q with word := arrayWord op x y (a * 32 + v) } : ArrayCmd).acc = a := by
  have hz : a * 32 + v < 256 := by omega
  rw [ArrayCmd.acc, op_arrayWord hop hx hy hz, if_neg (by simpa using other), arrayWord_toNat hop hx hy hz, bits]
  omega

/-- The accumulator that a command of `acst` names. -/
theorem acc_storeWord {x a : Nat} (hx : x < 32) (ha : a < 8) (q : ArrayCmd) :
    ({ q with word := arrayWord 0x57 x 0 a } : ArrayCmd).acc = a := by
  have hz : a < 256 := by omega
  rw [ArrayCmd.acc, op_arrayWord (by norm_num) hx (by norm_num) hz, if_pos (by simp), arrayWord_toNat (by norm_num) hx (by norm_num) hz, bits]
  omega

/-- The version that a command waits for is the low half of its register. -/
theorem version_eq (x : DWord) : BitVec.ofNat 16 (bits x.toNat 0 16) = x.setWidth 16 := by
  apply BitVec.eq_of_toNat_eq
  rw [BitVec.toNat_ofNat, BitVec.toNat_setWidth, bits]
  omega

/-! ### The array queue (R243) -/

theorem queueTeamCmd_full {s : State} {t : Team} (full : ¬ (coreOf s t.core).queue.length < 16) (k : Nat) (w : Word) (ver : Nat) (ops : List DWord) :
    queueTeamCmd s k t w ver ops = waitHere s := by
  rw [queueTeamCmd, arrayRoom, decide_eq_false full]; rfl

theorem queueTeamCmd_room {s : State} {t : Team} (room : (coreOf s t.core).queue.length < 16) (k : Nat) (w : Word) (ver : Nat) (ops : List DWord) :
    Queued s k t { crew := crewKey k, team := some k, word := w, ver := BitVec.ofNat 16 ver, ops := ops } (.next (queueTeamCmd s k t w ver ops)) := by
  rw [queueTeamCmd, arrayRoom, decide_eq_true room]; rfl

/-! ### Waiting for the commands of an accumulator (R244) -/

theorem pending_iff (s : State) (k : Nat) (t : Team) (p : ArrayCmd → Bool) :
    ((coreOf s t.core).queue.any fun q => q.crew == crewKey k && decide (q.uid < t.release.getD s.serial) && p q) = true ↔
      Pending s k t fun q => p q = true := by
  rw [List.any_eq_true]
  simp only [Pending, Bool.and_eq_true, beq_iff_eq, decide_eq_true_eq, and_assoc]

theorem afterCommands_pending {s : State} {k : Nat} {t : Team} (h : Runs s k t) {p : ArrayCmd → Bool}
    (some : Pending s k t fun q => p q = true) (cont : Team → State) : afterCommands s k t p cont = waitsFor s k t := by
  simp only [afterCommands, (pending_iff s k t p).2 some, if_true, teamOf, look_of_lookup {} h.2, waitsFor]

theorem afterCommands_none {s : State} {k : Nat} {t : Team} {p : ArrayCmd → Bool}
    (none : ¬ Pending s k t fun q => p q = true) (cont : Team → State) : afterCommands s k t p cont = cont t := by
  rw [afterCommands]
  exact if_neg fun any => none ((pending_iff s k t p).1 any)

/-! ### `mma` and `acz` -/

/-- An `mma` refuses with ILLOP or BOUNDS. -/
theorem mmaCheck_cause {c : Crew} {w : Word} {cause : Nat} {x : DWord} (fails : mmaCheck c w = some (cause, x)) :
    cause = cILLOP ∨ cause = cBOUNDS := by
  unfold mmaCheck at fails
  dsimp only at fails
  split at fails
  · exact .inl (by cases fails; rfl)
  · right
    repeat' split at fails
    all_goals cases fails
    all_goals rfl

theorem mma_illop {s : State} {k : Nat} {t : Team} (h : Runs s k t) {a b v : BitVec 5} {acc : BitVec 3} {x : DWord}
    (fails : mmaCheck (crewOf s (crewKey k)) (arrayWord 0x53 a.toNat b.toNat (acc.toNat * 32 + v.toNat)) = some (cILLOP, x)) :
    exec (.mma a b acc v) s = .next (raise s k t cILLOP []) := by
  rw [exec_mma, execMma, withTeam_runs h]
  simp only [fails, cILLOP]
  rfl

theorem mma_bounds {s : State} {k : Nat} {t : Team} (h : Runs s k t) (q : Quiet s t) {a b v : BitVec 5} {acc : BitVec 3} {x : DWord}
    (full : FullS t [v.toNat])
    (fails : mmaCheck (crewOf s (crewKey k)) (arrayWord 0x53 a.toNat b.toNat (acc.toNat * 32 + v.toNat)) = some (cBOUNDS, x)) :
    exec (.mma a b acc v) s = .next (raise1 s k t cBOUNDS x) := by
  have go : ∀ body : Team → State, gated s k t { srcS := [(v.toNat, false)] } body = body t := fun body => gated_good body q nofun full nofun nofun
  rw [exec_mma, execMma, withTeam_runs h]
  simp only [fails, cBOUNDS, go, refuse1, refuse_runs h]
  rfl

theorem mma_queues {s : State} {k : Nat} {t : Team} (h : Runs s k t) (q : Quiet s t) {a b v : BitVec 5} {acc : BitVec 3} (full : FullS t [v.toNat])
    (passes : mmaCheck (crewOf s (crewKey k)) (arrayWord 0x53 a.toNat b.toNat (acc.toNat * 32 + v.toNat)) = none) :
    exec (.mma a b acc v) s = .next (queueTeamCmd s k t (arrayWord 0x53 a.toNat b.toNat (acc.toNat * 32 + v.toNat))
      (bits (t.rs v.toNat).toNat 0 16) []) := by
  have go : ∀ body : Team → State, gated s k t { srcS := [(v.toNat, false)] } body = body t := fun body => gated_good body q nofun full nofun nofun
  rw [exec_mma, execMma, withTeam_runs h]
  simp only [passes, go]

theorem mma_outside (c : Crew) {a b v : BitVec 5} {acc : BitVec 3} (out : c.tiles ≤ a.toNat ∨ c.tiles ≤ b.toNat ∨ c.accs ≤ acc.toNat) :
    mmaCheck c (arrayWord 0x53 a.toNat b.toNat (acc.toNat * 32 + v.toNat)) = some (cILLOP, 0) := by
  have hz : acc.toNat * 32 + v.toNat < 256 := by omega
  have named : bits (arrayWord 0x53 a.toNat b.toNat (acc.toNat * 32 + v.toNat)).toNat 5 3 = acc.toNat := by
    rw [arrayWord_toNat (by norm_num) a.isLt b.isLt hz, bits]
    omega
  rw [mmaCheck, tileA_arrayWord (by norm_num) a.isLt b.isLt hz, tileB_arrayWord (by norm_num) a.isLt b.isLt hz, named]
  exact if_pos (by tauto)

theorem acz_queues {s : State} {k : Nat} {t : Team} (h : Runs s k t) (q : Quiet s t) {acc : BitVec 3} {v : BitVec 5}
    (inside : acc.toNat < (crewOf s (crewKey k)).accs) (full : FullS t [v.toNat]) :
    exec (.acz acc v) s = .next (queueTeamCmd s k t (arrayWord 0x54 0 0 (acc.toNat * 32 + v.toNat)) (bits (t.rs v.toNat).toNat 0 16) []) := by
  have go : ∀ body : Team → State, gated s k t { srcS := [(v.toNat, false)] } body = body t := fun body => gated_good body q nofun full nofun nofun
  rw [exec_acz, execAcz, withTeam_runs h, if_neg (by omega), go]

/-! ### `acst` (R271) -/

theorem unlessWatchedAny_none {s : State} {k : Nat} (h : Unwatched s k) (wr : Bool) (vas : List DWord) (body : State) :
    unlessWatchedAny s k wr vas body = body := by
  have none : (vas.find? fun va => watched (bandOf s (bandKey k)) (teamOf s k) (!wr) wr 4 va) = none := by
    rw [List.find?_eq_none]
    intro va _
    rw [watched_none h]
    exact Bool.false_ne_true
  simp only [unlessWatchedAny, none]

/-- The packet of `acst`. -/
def acstOps (t : Team) (x : Nat) : List DWord := (List.range 4).map fun i => t.rs (x + i)

/-- The machine with the misses of the rows of `acst` noted. -/
def acstMissed (s : State) (k : Nat) (t : Team) (x : Nat) : State :=
  noteMisses s k t ((List.range (bits (t.rs (x + 2)).toNat 0 16)).flatMap fun i =>
    (acstRow (t.rs x) (t.rs (x + 1)) (acstSize (bits (t.rs (x + 2)).toNat 32 4)) i (bits (t.rs (x + 2)).toNat 16 16)).map fun w => w.1)

theorem acst_outside {s : State} {k : Nat} {t : Team} (h : Runs s k t) (free : t.acquiring = false) {x : BitVec 5} {acc : BitVec 3}
    (out : 28 < x.toNat ∨ (crewOf s (crewKey k)).accs ≤ acc.toNat) : exec (.acst x acc) s = .next (raise s k t cILLOP []) := by
  rw [exec_acst, execAcst, memory, withTeam_runs h, free, if_neg (by simp), if_neg (by simp), if_pos (by omega)]
  rfl

/-- What `acst` does in range, with its packet full. -/
theorem acst_inside {s : State} {k : Nat} {t : Team} (h : Runs s k t) (q : Quiet s t) (free : t.acquiring = false) {x : BitVec 5} {acc : BitVec 3}
    (inRange : x.toNat ≤ 28) (inside : acc.toNat < (crewOf s (crewKey k)).accs) (full : FullS t (span x.toNat 4)) :
    let f := (t.rs (x.toNat + 2)).toNat
    let r := acstMissed s k t x.toNat
    let ops := acstOps t x.toNat
    exec (.acst x acc) s = .next (
      if bits f 32 4 ≥ 5 ∨ bits f 37 11 ≠ 0 ∨ (t.rs (x.toNat + 1)).toNat ≥ 2 ^ 32 ∨ (t.rs (x.toNat + 3)).toNat ≥ 2 ^ 32 then
        raise1 s k t cILLOP (t.rs (x.toNat + 2))
      else if bits f 0 16 = 0 ∨ bits f 0 16 > 128 ∨ bits f 16 16 = 0 ∨ bits f 16 16 > 128 then raise1 s k t cBOUNDS (t.rs (x.toNat + 2))
      else match acstFault r t.core (bandKey k) ops with
        | some (c, va) => refuse r k c [{ cause := c, addr := va, flags := 1 }]
        | none => if acstWaits r t.core (bandKey k) ops then waitHere r
          else unlessWatchedAny r k true ((List.range (bits f 0 16)).flatMap fun i =>
              (acstRow (t.rs x.toNat) (t.rs (x.toNat + 1)) (acstSize (bits f 32 4)) i (bits f 16 16)).map fun w => w.1)
            (queueTeamCmd r k t (arrayWord 0x57 x.toNat 0 acc.toNat) (bits f 48 16) ops)) := by
  have go : ∀ body : Team → State, gated s k t { srcS := (List.range 4).map fun i => (x.toNat + i, false) } body = body t := fun body =>
    gated_good body q nofun (by rw [List.map_map]; exact full) nofun nofun
  rw [exec_acst, execAcst, memory, withTeam_runs h, free, if_neg (by simp), if_neg (by simp), if_neg (by omega), go]
  simp only [refuse1, raise1, refuse_runs h]
  rfl

/-- A row's check or its wait is told of the machine with the misses noted, in which the team and its band are as they were. -/
theorem acstMissed_runs {s : State} {k : Nat} {t : Team} (h : Runs s k t) (x : Nat) : Runs (acstMissed s k t x) k t := by
  obtain ⟨teams, -, cur, -⟩ := noteMisses_calm s k t ((List.range (bits (t.rs (x + 2)).toNat 0 16)).flatMap fun i =>
    (acstRow (t.rs x) (t.rs (x + 1)) (acstSize (bits (t.rs (x + 2)).toNat 32 4)) i (bits (t.rs (x + 2)).toNat 16 16)).map fun w => w.1)
  exact ⟨cur.trans h.1, (congrArg (List.lookup k) teams).trans h.2⟩

theorem acstMissed_unwatched {s : State} {k : Nat} {t : Team} (h : Unwatched s k) (x : Nat) : Unwatched (acstMissed s k t x) k := by
  obtain ⟨-, bands, -, -⟩ := noteMisses_calm s k t ((List.range (bits (t.rs (x + 2)).toNat 0 16)).flatMap fun i =>
    (acstRow (t.rs x) (t.rs (x + 1)) (acstSize (bits (t.rs (x + 2)).toNat 32 4)) i (bits (t.rs (x + 2)).toNat 16 16)).map fun w => w.1)
  exact (congrArg (fun m => (look {} m (bandKey k)).bp) bands).trans h

/-! ### The code of an accumulator's segments (R378) -/

theorem raiseVector_crews (s : State) (t v : Nat) : (raiseVector s t v).crews = s.crews := rfl

theorem logRas_crews (s : State) (r : Ras) : (logRas s r).crews = s.crews := by
  rw [logRas]
  split <;> rfl

theorem lostOnDie_crews (s : State) (unit core part band : Nat) : (lostOnDie s unit core part band).crews = s.crews := by
  unfold lostOnDie
  dsimp only
  split <;> simp [requestReplacement, logRas_crews, count]

theorem foldl_crews {α : Type} {f : State → α → State} (keeps : ∀ s a, (f s a).crews = s.crews) (l : List α) (s : State) :
    (l.foldl f s).crews = s.crews := by
  induction l generalizing s with
  | nil => rfl
  | cons a l ih => exact (ih _).trans (keeps s a)

/-- Reading segments of an accumulator changes the crew in its code's marks only. -/
theorem crewOf_tendAcc (s : State) (c : Nat) (hit : Nat → Bool) :
    ∃ ecc, crewOf (tendAcc s c hit) c = { crewOf s c with accEcc := ecc } := by
  unfold tendAcc tendCrew
  dsimp only
  split
  · exact ⟨(crewOf s c).accEcc, rfl⟩
  · refine ⟨{ (crewOf s c).accEcc with soft := (crewOf s c).accEcc.soft.filter fun i => !hit i }, ?_⟩
    rw [crewOf_setCrew, if_pos rfl]
    have same : ∀ (fixes losses : List Nat) (core : Nat), crewOf (losses.foldl (fun s _ => lostOnDie s (arrayUnit core) core (core % 144) (c / 16))
        (fixes.foldl (fun s _ => count s (arrayUnit core) 8) s)) c = crewOf s c := fun fixes losses core => by
      have after := foldl_crews (f := fun s _ => lostOnDie s (arrayUnit core) core (core % 144) (c / 16))
        (fun s _ => lostOnDie_crews s _ _ _ _) losses (fixes.foldl (fun s _ => count s (arrayUnit core) 8) s)
      have before := foldl_crews (f := fun s _ => count s (arrayUnit core) 8) (fun _ _ => rfl) fixes s
      exact congrArg (fun m => look {} m c) (after.trans before)
    rw [same]

theorem bit_toNat {w : Nat} (m : BitVec w) (n : Nat) : bit m.toNat n = m.getLsbD n := rfl

theorem bit_mark (m : BitVec 8) {a : Nat} (inRange : a < 8) : bit (m ||| BitVec.ofNat 8 (2 ^ a)).toNat a = true := by
  rw [bit_toNat, BitVec.getLsbD_or, BitVec.getLsbD_ofNat, decide_eq_true inRange, Nat.testBit_two_pow_self, Bool.and_self, Bool.or_true]

theorem bit_clear (m : BitVec 8) (a : Nat) {n : Nat} (inRange : n < 8) :
    bit (m &&& ~~~BitVec.ofNat 8 (2 ^ a)).toNat n = if n = a then false else bit m.toNat n := by
  rw [bit_toNat, bit_toNat, BitVec.getLsbD_and, BitVec.getLsbD_not, BitVec.getLsbD_ofNat, decide_eq_true inRange, Nat.testBit_two_pow]
  by_cases here : n = a
  · simp [here]
  · simp [here, Ne.symm here]

/-! ### Rows of an accumulator (R244, R272) -/

theorem laneList_rowMask (t : Team) : laneList t (rowMask t) = (laneList t t.present).filter fun L => decide (L < 128) := by
  rw [laneList, laneList, List.filter_filter]
  refine List.filter_congr fun L mem => ?_
  have bound : L < 1024 := lt_of_lt_of_le (List.mem_range.1 mem) (lanes_le t)
  rw [rowMask, bit, bit, ← BitVec.getLsbD, ← BitVec.getLsbD, BitVec.getLsbD_and, BitVec.getLsbD_ofNat, decide_eq_true bound,
    Nat.testBit_two_pow_sub_one, Bool.true_and, Bool.and_comm]

/-- The machine in which `acrd` reads its row: its segments have been checked (R378). -/
def rowRead (s : State) (k : Nat) (t : Team) (a row : Nat) : State := tendAcc s (crewKey k) (rowSegment a row false (rowMask t))

theorem acrd_outside {s : State} {k : Nat} {t : Team} (h : Runs s k t) {d : BitVec 6} {r : BitVec 5} {acc : BitVec 3}
    (out : t.okV false d.toNat = false ∨ (crewOf s (crewKey k)).accs ≤ acc.toNat) :
    exec (.acrd d r acc) s = .next (raise s k t cILLOP []) ∧ exec (.acwr d r acc) s = .next (raise s k t cILLOP []) := by
  have refused : (!t.okV false d.toNat || decide (acc.toNat ≥ (crewOf s (crewKey k)).accs)) = true := by
    rcases out with bad | bad
    · rw [bad]; rfl
    · rw [decide_eq_true bad, Bool.or_true]
  rw [exec_acrd, exec_acwr, execAcrd, execAcwr, withTeam_runs h, withTeam_runs h, if_pos refused, if_pos refused]
  exact ⟨rfl, rfl⟩

section Inside
variable {s : State} {k : Nat} {t : Team} {d : BitVec 6} {r : BitVec 5} {acc : BitVec 3}

/-- `acrd` within the budgets, on full registers. -/
theorem acrd_inside (h : Runs s k t) (q : Quiet s t) (ok : t.okV false d.toNat = true) (inside : acc.toNat < (crewOf s (crewKey k)).accs)
    (fullV : FullV t [d.toNat]) (fullS : FullS t [r.toNat]) :
    ((t.rs r.toNat).toNat ≥ 128 → exec (.acrd d r acc) s = .next (raise1 s k t cBOUNDS (t.rs r.toNat))) ∧
    ((t.rs r.toNat).toNat < 128 → (Pending s k t fun q => (q.acc == acc.toNat) = true) → exec (.acrd d r acc) s = .next (waitsFor s k t)) ∧
    ((t.rs r.toNat).toNat < 128 → ¬(Pending s k t fun q => (q.acc == acc.toNat) = true) →
      let s' := if bit (crewOf s (crewKey k)).accFault.toNat acc.toNat then s
        else readAcc s (crewKey k) acc.toNat (rowSegment acc.toNat (t.rs r.toNat).toNat false (rowMask t))
      exec (.acrd d r acc) s = .next (
        if bit (crewOf s' (crewKey k)).accFault.toNat acc.toNat then refuse1 s' k cPIPE (arrayPipe acc.toNat)
        else if (laneList t (rowMask t)).isEmpty then finish s' k t
        else
          let values := (laneList t (rowMask t)).map fun L =>
            (1024 * d.toNat + L, look 0 (crewOf s' (crewKey k)).acc (accKey acc.toNat (t.rs r.toNat).toNat L))
          startProducer s' k t { team := k, core := t.core, vregs := [d.toNat], lanes := values })) := by
  have go : ∀ body : Team → State,
      gated s k t { srcS := [(r.toNat, false)], preds := [t.guardReg], dstV := [d.toNat], lanes := rowMask t } body = body t :=
    fun body => gated_good body q nofun fullS fullV nofun
  have passes : ¬(!t.okV false d.toNat || decide (acc.toNat ≥ (crewOf s (crewKey k)).accs)) = true := by
    rw [ok, decide_eq_false (by omega)]; exact Bool.false_ne_true
  refine ⟨fun far => ?_, fun near waits => ?_, fun near ready => ?_⟩
  · rw [exec_acrd, execAcrd, withTeam_runs h, if_neg passes, go, if_pos far]
    exact congrArg _ (refuse_runs h _ _)
  · rw [exec_acrd, execAcrd, withTeam_runs h, if_neg passes, go, if_neg (by omega), afterCommands_pending h waits]
  · intro s'
    rw [exec_acrd, execAcrd, withTeam_runs h, if_neg passes, go]
    exact congrArg _ ((if_neg (Nat.not_le.2 near)).trans (afterCommands_none ready _))

/-- `acwr` within the budgets, on full registers. -/
theorem acwr_inside (h : Runs s k t) (q : Quiet s t) (ok : t.okV false d.toNat = true) (inside : acc.toNat < (crewOf s (crewKey k)).accs)
    (fullV : FullV t [d.toNat]) (fullS : FullS t [r.toNat]) :
    ((t.rs r.toNat).toNat ≥ 128 → exec (.acwr d r acc) s = .next (raise1 s k t cBOUNDS (t.rs r.toNat))) ∧
    ((t.rs r.toNat).toNat < 128 → (Pending s k t fun q => (q.acc == acc.toNat) = true) → exec (.acwr d r acc) s = .next (waitsFor s k t)) ∧
    ((t.rs r.toNat).toNat < 128 → ¬(Pending s k t fun q => (q.acc == acc.toNat) = true) →
      let c := crewOf s (crewKey k)
      exec (.acwr d r acc) s = .next (finish (setCrew s (crewKey k) { c with
        acc := (laneList t (rowMask t)).foldl (fun m L => putAt 0 m (accKey acc.toNat (t.rs r.toNat).toNat L) (t.rv d.toNat L)) c.acc
        accEcc := c.accEcc.wrote (rowSegment acc.toNat (t.rs r.toNat).toNat true (rowMask t))
        accFault := c.accFault &&& ~~~BitVec.ofNat 8 (2 ^ acc.toNat) }) k t)) := by
  have go : ∀ body : Team → State, gated s k t { srcV := [(d.toNat, false)], srcS := [(r.toNat, false)], preds := [t.guardReg] } body = body t :=
    fun body => gated_good body q fullV fullS nofun nofun
  have passes : ¬(!t.okV false d.toNat || decide (acc.toNat ≥ (crewOf s (crewKey k)).accs)) = true := by
    rw [ok, decide_eq_false (by omega)]; exact Bool.false_ne_true
  refine ⟨fun far => ?_, fun near waits => ?_, fun near ready => ?_⟩
  · rw [exec_acwr, execAcwr, withTeam_runs h, if_neg passes, go, if_pos far]
    exact congrArg _ (refuse_runs h _ _)
  · rw [exec_acwr, execAcwr, withTeam_runs h, if_neg passes, go, if_neg (by omega), afterCommands_pending h waits]
  · rw [exec_acwr, execAcwr, withTeam_runs h, if_neg passes, go, if_neg (by omega), afterCommands_none ready]
    simp only [setFlt, crewOf_setCrew, if_true, Bool.false_eq_true, if_false]
    simp only [setCrew, setAt_setAt]

end Inside

/-- The words of an accumulator's row after a write of lanes. -/
theorem look_foldl_row (f : Nat → Word) (a row : Nat) (ls : List Nat) (m : NMap Word) :
    (∀ L ∈ ls, look 0 (ls.foldl (fun m L => putAt 0 m (accKey a row L) (f L)) m) (accKey a row L) = f L) ∧
    ∀ j, (∀ L ∈ ls, j ≠ accKey a row L) → look 0 (ls.foldl (fun m L => putAt 0 m (accKey a row L) (f L)) m) j = look 0 m j := by
  induction ls generalizing m with
  | nil => exact ⟨nofun, fun _ _ => rfl⟩
  | cons L ls ih =>
    obtain ⟨inside, outside⟩ := ih (putAt 0 m (accKey a row L) (f L))
    refine ⟨fun L' mem => ?_, fun j other => ?_⟩
    · by_cases again : L' ∈ ls
      · exact inside L' again
      · have first : L' = L := by simpa [again] using mem
        rw [first] at again ⊢
        rw [List.foldl_cons, outside _ fun M mem same => again (by
          have : L = M := by simpa [accKey] using same
          exact this ▸ mem), look_putAt, if_pos rfl]
    · rw [List.foldl_cons, outside j fun M mem => other M (List.mem_cons_of_mem L mem), look_putAt, if_neg (other L List.mem_cons_self)]

/-! ### Versions (R273) -/

theorem acver_outside {s : State} {k : Nat} {t : Team} (h : Runs s k t) {acc : BitVec 3} (out : (crewOf s (crewKey k)).accs ≤ acc.toNat)
    (d : Nat) (w : Option Nat) : readVersion s d acc.toNat w = .next (raise s k t cILLOP []) := by
  rw [readVersion, withTeam_runs h, if_pos out]; rfl

/-- A read of a version within the budget, on full registers. -/
theorem acver_inside {s : State} {k : Nat} {t : Team} (h : Runs s k t) (q : Quiet s t) {acc : BitVec 3}
    (inside : acc.toNat < (crewOf s (crewKey k)).accs) {d : Nat} {w : Option Nat} (full : FullS t (d :: w.toList)) :
    (∀ f, t.heldPipe acc.toNat = some f → readVersion s d acc.toNat w =
      .next (raise s k { t.closeRegion with held := t.held.erase f } f.cause f.recs)) ∧
    (t.heldPipe acc.toNat = none → let ver := look 0 (crewOf s (crewKey k)).aver acc.toNat
      (w = none → readVersion s d acc.toNat w = .next (finish s k (t.ws d (ver.setWidth 64)))) ∧
      ∀ r, w = some r → readVersion s d acc.toNat w = .next (
        if ver.toNat ≠ bits (t.rs r).toNat 0 16 then waitHere s else finish s k (t.ws d (ver.setWidth 64)))) := by
  have go : ∀ body : Team → State, gated s k t { srcS := (w.map fun r => (r, false)).toList, dstS := [d] } body = body t := fun body =>
    gated_good body q nofun (fun r mem => full r (List.mem_cons_of_mem d (by simpa [List.map_map] using mem))) nofun
      fun r mem => full r (by simp_all)
  refine ⟨fun f pipe => ?_, fun none => ⟨fun plain => ?_, fun r waits => ?_⟩⟩
  · rw [readVersion, withTeam_runs h, if_neg (by omega), go]
    simp only [pipe]
  · subst plain
    rw [readVersion, withTeam_runs h, if_neg (by omega), go]
    simp only [none]
  · subst waits
    rw [readVersion, withTeam_runs h, if_neg (by omega), go]
    simp only [none]

/-! ### The obligation -/

section Clauses
variable {s : State} {k : Nat} {t : Team} {acc : BitVec 3}

theorem mma_clauses (h : Runs s k t) (q : Quiet s t) (a b v : BitVec 5) :
    let check := mmaCheck (crewOf s (crewKey k)) (arrayWord 0x53 a.toNat b.toNat (acc.toNat * 32 + v.toNat))
    let cmd : ArrayCmd := { crew := crewKey k, team := some k }
    FullS t [v.toNat] →
      (∀ cause x, check = some (cause, x) → cause ≠ cILLOP → cause = cBOUNDS ∧ exec (.mma a b acc v) s = .next (raise1 s k t cBOUNDS x)) ∧
      (check = none → (¬(coreOf s t.core).queue.length < 16 → exec (.mma a b acc v) s = .next (waitHere s)) ∧
        ((coreOf s t.core).queue.length < 16 → ∃ w, Queued s k t { cmd with word := w, ver := (t.rs v.toNat).setWidth 16 } (exec (.mma a b acc v) s) ∧
          tileA w = a.toNat ∧ tileB w = b.toNat ∧ ({ cmd with word := w } : ArrayCmd).op = 3 ∧ ({ cmd with word := w } : ArrayCmd).acc = acc.toNat)) := by
  intro check cmd full
  have hz : acc.toNat * 32 + v.toNat < 256 := by omega
  refine ⟨fun cause x fails other => ?_, fun passes => ⟨fun noRoom => ?_, fun room => ⟨arrayWord 0x53 a.toNat b.toNat (acc.toNat * 32 + v.toNat), ?_,
    tileA_arrayWord (by norm_num) a.isLt b.isLt hz, tileB_arrayWord (by norm_num) a.isLt b.isLt hz, op_arrayWord (by norm_num) a.isLt b.isLt hz cmd,
    acc_arrayWord (by norm_num) (by norm_num) a.isLt b.isLt acc.isLt v.isLt cmd⟩⟩⟩
  · obtain rfl := (mmaCheck_cause fails).resolve_left other
    exact ⟨rfl, mma_bounds h q full fails⟩
  · rw [mma_queues h q full passes, queueTeamCmd_full noRoom]
  · rw [mma_queues h q full passes, ← version_eq]
    exact queueTeamCmd_room room k _ _ _

theorem acz_clauses (h : Runs s k t) (q : Quiet s t) (v : BitVec 5) (inside : acc.toNat < (crewOf s (crewKey k)).accs) (full : FullS t [v.toNat]) :
    let cmd : ArrayCmd := { crew := crewKey k, team := some k }
    (¬(coreOf s t.core).queue.length < 16 → exec (.acz acc v) s = .next (waitHere s)) ∧
    ((coreOf s t.core).queue.length < 16 → ∃ w, Queued s k t { cmd with word := w, ver := (t.rs v.toNat).setWidth 16 } (exec (.acz acc v) s) ∧
      ({ cmd with word := w } : ArrayCmd).op = 4 ∧ ({ cmd with word := w } : ArrayCmd).acc = acc.toNat) := by
  intro cmd
  have hz : acc.toNat * 32 + v.toNat < 256 := by omega
  refine ⟨fun noRoom => ?_, fun room => ⟨arrayWord 0x54 0 0 (acc.toNat * 32 + v.toNat), ?_, op_arrayWord (by norm_num) (by norm_num) (by norm_num) hz cmd,
    acc_arrayWord (by norm_num) (by norm_num) (by norm_num) (by norm_num) acc.isLt v.isLt cmd⟩⟩
  · rw [acz_queues h q inside full, queueTeamCmd_full noRoom]
  · rw [acz_queues h q inside full, ← version_eq]
    exact queueTeamCmd_room room k _ _ _

/-- A row of `acst` whose check fails, and a packet whose rows pass. -/
theorem acst_clauses (h : Runs s k t) (q : Quiet s t) (free : t.acquiring = false) {x : BitVec 5} (inRange : x.toNat ≤ 28)
    (inside : acc.toNat < (crewOf s (crewKey k)).accs) (full : FullS t (span x.toNat 4)) :
    let cmd : ArrayCmd := { crew := crewKey k, team := some k }
    let f := (t.rs (x.toNat + 2)).toNat
    let r := acstMissed s k t x.toNat
    let ops := acstOps t x.toNat
    let legal := bits f 32 4 < 5 ∧ bits f 37 11 = 0 ∧ (t.rs (x.toNat + 1)).toNat < 2 ^ 32 ∧ (t.rs (x.toNat + 3)).toNat < 2 ^ 32
    let sized := 1 ≤ bits f 0 16 ∧ bits f 0 16 ≤ 128 ∧ 1 ≤ bits f 16 16 ∧ bits f 16 16 ≤ 128
    (¬ legal → exec (.acst x acc) s = .next (raise1 s k t cILLOP (t.rs (x.toNat + 2)))) ∧
    (legal → ¬ sized → exec (.acst x acc) s = .next (raise1 s k t cBOUNDS (t.rs (x.toNat + 2)))) ∧
    (legal → sized → (∀ cause va, acstFault r t.core (bandKey k) ops = some (cause, va) →
        exec (.acst x acc) s = .next (raise r k t cause [{ lane := 0, cause := cause, addr := va, flags := 1 }])) ∧
      (acstFault r t.core (bandKey k) ops = none → (acstWaits r t.core (bandKey k) ops = true → exec (.acst x acc) s = .next (waitHere r)) ∧
        (acstWaits r t.core (bandKey k) ops = false → Unwatched s k →
          (¬(coreOf r t.core).queue.length < 16 → exec (.acst x acc) s = .next (waitHere r)) ∧
          ((coreOf r t.core).queue.length < 16 → ∃ w,
            Queued r k t { cmd with word := w, ver := BitVec.ofNat 16 (bits f 48 16), ops := ops } (exec (.acst x acc) s) ∧
            ({ cmd with word := w } : ArrayCmd).op = 7 ∧ ({ cmd with word := w } : ArrayCmd).acc = acc.toNat)))) := by
  intro cmd f r ops legal sized
  have run := acst_inside h q free inRange inside full
  refine ⟨fun bad => ?_, fun good bad => ?_, fun good fits => ?_⟩
  · exact run.trans (congrArg _ (if_pos (by simp only [legal, f] at bad; omega)))
  · refine run.trans (congrArg _ ((if_neg ?_).trans (if_pos ?_)))
    · simp only [legal, f] at good; omega
    · simp only [sized, f] at bad; omega
  have body := run.trans (congrArg _ ((if_neg (by simp only [legal, f] at good; omega)).trans (if_neg (by simp only [sized, f] at fits; omega))))
  refine ⟨fun cause va fails => ?_, fun passes => ⟨fun waits => ?_, fun ready unwatched => ?_⟩⟩
  · rw [body, fails]
    exact congrArg _ (refuse_runs (acstMissed_runs h x.toNat) _ _)
  · rw [body, passes]
    exact congrArg _ (if_pos waits)
  have queues : exec (.acst x acc) s = .next (queueTeamCmd r k t (arrayWord 0x57 x.toNat 0 acc.toNat) (bits f 48 16) ops) := by
    rw [body, passes]
    exact congrArg _ ((if_neg (by rw [ready]; exact Bool.false_ne_true)).trans (unlessWatchedAny_none (acstMissed_unwatched unwatched x.toNat) _ _ _))
  refine ⟨fun noRoom => ?_, fun room => ⟨arrayWord 0x57 x.toNat 0 acc.toNat, ?_, op_arrayWord (by norm_num) x.isLt (by norm_num) (by omega) cmd,
    acc_storeWord x.isLt acc.isLt cmd⟩⟩
  · rw [queues, queueTeamCmd_full noRoom]
  · rw [queues]
    exact queueTeamCmd_room room k _ _ _

/-- What `acrd` answers, by the accumulator's mark and its segments' code. -/
theorem acrd_answers (h : Runs s k t) (q : Quiet s t) {d : BitVec 6} {r : BitVec 5} (ok : t.okV false d.toNat = true)
    (inside : acc.toNat < (crewOf s (crewKey k)).accs) (fullV : FullV t [d.toNat]) (fullS : FullS t [r.toNat])
    (near : (t.rs r.toNat).toNat < 128) (ready : ¬ Pending s k t (·.acc = acc.toNat)) :
    let c := crewOf s (crewKey k)
    let row := (t.rs r.toNat).toNat
    let ls := (laneList t t.present).filter fun L => decide (L < 128)
    let hit := rowSegment acc.toNat row false (rowMask t)
    let s1 := if bit c.accFault.toNat acc.toNat then s else tendAcc s (crewKey k) hit
    (bit c.accFault.toNat acc.toNat = true → exec (.acrd d r acc) s = .next (raise1 s k t cPIPE (arrayPipe acc.toNat))) ∧
    (bit c.accFault.toNat acc.toNat = false → c.accEcc.bad.any hit = true →
      exec (.acrd d r acc) s = .next (refuse1 (setFlt (countFaulted s1 (crewKey k)) (crewKey k) acc.toNat true) k cPIPE (arrayPipe acc.toNat))) ∧
    (bit c.accFault.toNat acc.toNat = false → c.accEcc.bad.any hit = false → ls = [] → exec (.acrd d r acc) s = .next (finish s1 k t)) ∧
    (bit c.accFault.toNat acc.toNat = false → c.accEcc.bad.any hit = false → ls ≠ [] →
      ProducerIssued s1 k t { team := k, core := t.core, vregs := [d.toNat],
                              lanes := ls.map fun L => (1024 * d.toNat + L, look 0 c.acc (16384 * acc.toNat + 128 * row + L)) }
        (exec (.acrd d r acc) s)) := by
  intro c row ls hit s1
  have run := (acrd_inside h q ok inside fullV fullS).2.2 near (by simpa using ready)
  dsimp only at run
  obtain ⟨ecc, same⟩ := crewOf_tendAcc s (crewKey k) hit
  refine ⟨fun faulted => ?_, fun sound bad => ?_, fun sound good none => ?_, fun sound good some => ?_⟩
  · rw [run, if_pos faulted, if_pos faulted]
    exact congrArg _ (refuse_runs h _ _)
  · have marked : readAcc s (crewKey k) acc.toNat hit = setFlt (countFaulted (tendAcc s (crewKey k) hit) (crewKey k)) (crewKey k) acc.toNat true := by
      simp only [readAcc]; exact if_pos bad
    have set : bit (crewOf (setFlt (countFaulted (tendAcc s (crewKey k) hit) (crewKey k)) (crewKey k) acc.toNat true) (crewKey k)).accFault.toNat
        acc.toNat = true := by
      simp only [setFlt, crewOf_setCrew, if_true]
      exact bit_mark _ acc.isLt
    have unmarked : ¬ bit c.accFault.toNat acc.toNat = true := by rw [sound]; exact Bool.false_ne_true
    simp only [s1]
    rw [run, if_neg unmarked, if_neg unmarked, marked, if_pos set]
  all_goals
    have unmarked : ¬ bit c.accFault.toNat acc.toNat = true := by rw [sound]; exact Bool.false_ne_true
    have read : readAcc s (crewKey k) acc.toNat hit = tendAcc s (crewKey k) hit := by
      simp only [readAcc]; exact if_neg (by rw [good]; exact Bool.false_ne_true)
    simp only [s1]
    rw [run, if_neg unmarked, if_neg unmarked, read, same, laneList_rowMask]
    refine congrArg _ ((if_neg unmarked).trans ?_)
  · exact if_pos (by rw [List.isEmpty_iff]; exact none)
  · exact if_neg (by rw [List.isEmpty_iff]; exact some)

/-- What `acwr` leaves. -/
theorem acwr_writes (h : Runs s k t) (q : Quiet s t) {d : BitVec 6} {r : BitVec 5} (ok : t.okV false d.toNat = true)
    (inside : acc.toNat < (crewOf s (crewKey k)).accs) (fullV : FullV t [d.toNat]) (fullS : FullS t [r.toNat])
    (near : (t.rs r.toNat).toNat < 128) (ready : ¬ Pending s k t (·.acc = acc.toNat)) :
    let c := crewOf s (crewKey k)
    let ls := (laneList t t.present).filter fun L => decide (L < 128)
    let key := fun L => 16384 * acc.toNat + 128 * (t.rs r.toNat).toNat + L
    ∃ c', exec (.acwr d r acc) s = .next (finish (setCrew s (crewKey k) c') k t) ∧
      c' = { c with acc := c'.acc, accFault := c'.accFault, accEcc := c'.accEcc } ∧
      (∀ n < 8, bit c'.accFault.toNat n = if n = acc.toNat then false else bit c.accFault.toNat n) ∧
      (∀ L ∈ ls, look 0 c'.acc (key L) = t.rv d.toNat L) ∧ (∀ j, (∀ L ∈ ls, j ≠ key L) → look 0 c'.acc j = look 0 c.acc j) := by
  intro c ls key
  have run := (acwr_inside h q ok inside fullV fullS).2.2 near (by simpa using ready)
  obtain ⟨written, kept⟩ := look_foldl_row (t.rv d.toNat) acc.toNat (t.rs r.toNat).toNat ls c.acc
  rw [laneList_rowMask] at run
  exact ⟨_, run, rfl, fun n inRange => bit_clear _ _ inRange, written, kept⟩

end Clauses

/-- Settles O41. -/
theorem arrayInstructionsComplete : Obligations.ArrayInstructionsComplete := by
  intro s k t acc h q c base room
  refine ⟨fun a b v => ⟨fun x => mma_illop h, fun out => ⟨0, mma_outside c out⟩, mma_clauses h q a b v⟩,
    fun v => ⟨fun out => ?aczOut, fun inside full => acz_clauses h q v inside full⟩,
    fun x free => ⟨acst_outside h free, fun inRange inside full => acst_clauses h q free inRange inside full⟩,
    fun d r => ⟨acrd_outside h, fun ok inside fullV fullS => ⟨fun far => ?rowFar, fun near => ⟨fun waits => ?rowWaits, fun ready => ?row⟩⟩⟩,
    fun d w => ⟨fun out => ⟨acver_outside h out _ _, acver_outside h out _ _⟩, fun inside => ⟨fun f pipe => ?pipe, fun noPipe => ?version⟩⟩⟩
  case aczOut => rw [exec_acz, execAcz, withTeam_runs h, if_pos out]; rfl
  case rowFar => exact ⟨(acrd_inside h q ok inside fullV fullS).1 far, (acwr_inside h q ok inside fullV fullS).1 far⟩
  case rowWaits =>
    have waits' : Pending s k t fun q => (q.acc == acc.toNat) = true := by simpa using waits
    exact ⟨(acrd_inside h q ok inside fullV fullS).2.1 near waits', (acwr_inside h q ok inside fullV fullS).2.1 near waits'⟩
  case row =>
    obtain ⟨faulted, fails, empty, issues⟩ := acrd_answers h q ok inside fullV fullS near ready
    exact ⟨faulted, fails, empty, issues, acwr_writes h q ok inside fullV fullS near ready⟩
  case pipe =>
    exact ⟨fun full => (acver_inside h q inside (w := none) full).1 f pipe, fun full => (acver_inside h q inside (w := some w.toNat) full).1 f pipe⟩
  case version =>
    refine ⟨fun full => ((acver_inside h q inside (w := none) full).2 noPipe).1 rfl, fun full => ?_⟩
    have run := ((acver_inside h q inside (w := some w.toNat) full).2 noPipe).2 _ rfl
    have same : look 0 c.aver acc.toNat = (t.rs w.toNat).setWidth 16 ↔ (look 0 c.aver acc.toNat).toNat = bits (t.rs w.toNat).toNat 0 16 := by
      rw [← version_eq, ← BitVec.toNat_inj, BitVec.toNat_ofNat, bits]
      omega
    refine Eq.trans run (congrArg _ ?_)
    by_cases equal : (look 0 c.aver acc.toNat).toNat = bits (t.rs w.toNat).toNat 0 16
    · exact (if_neg (not_not.2 equal)).trans (if_pos (same.2 equal)).symm
    · exact (if_pos equal).trans (if_neg (same.not.2 equal)).symm

end Sys2Proof.Machine
end

section
/-! SUPPORT. Launches, bands and pre-emption (O49): what a team begins with, and what each step of the schedulers does. -/

namespace Sys2Proof.Machine

/-! ### Maps whose values change and whose keys stay -/

theorem lookup_cons_pair {α : Type} (a k : Nat) (v : α) (m : NMap α) : List.lookup k ((a, v) :: m) = if k = a then some v else m.lookup k := by
  by_cases here : k = a
  · simp [here]
  · have other : (k == a) = false := by simpa using here
    rw [List.lookup_cons, other, if_neg here]

theorem lookup_mapValues {α : Type} (f : Nat → α → α) (m : NMap α) (k : Nat) :
    List.lookup k (m.map fun e => (e.1, f e.1 e.2)) = (m.lookup k).map (f k) := by
  induction m with
  | nil => rfl
  | cons e m ih =>
    obtain ⟨a, v⟩ := e
    rw [List.map_cons, lookup_cons_pair, lookup_cons_pair, ih]
    split
    · rename_i here
      rw [here]
      rfl
    · rfl

theorem look_of_lookup_none {α : Type} (d : α) {m : NMap α} {k : Nat} (h : m.lookup k = none) : look d m k = d := by
  induction m with
  | nil => rfl
  | cons e m ih =>
    obtain ⟨a, v⟩ := e
    rw [lookup_cons_pair] at h
    rw [look_cons]
    split at h
    · cases h
    · rename_i other
      rw [if_neg other, ih h]

theorem look_mapValues {α : Type} (d : α) (f : Nat → α → α) (m : NMap α) (k : Nat) :
    look d (m.map fun e => (e.1, f e.1 e.2)) k = if (m.lookup k).isSome then f k (look d m k) else look d m k := by
  cases held : m.lookup k with
  | none => rw [look_of_lookup_none d held, look_of_lookup_none d (by rw [lookup_mapValues, held]; rfl)]; rfl
  | some v => rw [look_of_lookup d held, look_of_lookup d (v := f k v) (by rw [lookup_mapValues, held]; rfl)]; rfl

theorem mem_of_lookup {α : Type} {m : NMap α} {k : Nat} {v : α} (h : m.lookup k = some v) : (k, v) ∈ m := by
  induction m with
  | nil => simp at h
  | cons e m ih =>
    obtain ⟨a, w⟩ := e
    rw [lookup_cons_pair] at h
    split at h
    · rename_i here
      cases h
      exact here ▸ List.mem_cons_self
    · exact List.mem_cons_of_mem _ (ih h)

/-! ### What a team begins with (R50) -/

/-- Looking up a map from which the entries of the default value are taken out. -/
theorem look_filter_nonzero (m : NMap DWord) (distinct : (m.map fun e => e.1).Nodup) (k : Nat) :
    look 0 (m.filter fun r => r.2 != 0) k = look 0 m k := by
  induction m with
  | nil => rfl
  | cons e m ih =>
    obtain ⟨a, v⟩ := e
    obtain ⟨fresh, rest⟩ := List.nodup_cons.1 distinct
    have unlisted : look 0 m a = 0 := look_of_lookup_none 0 (Option.eq_none_iff_forall_ne_some.2 fun v has =>
      fresh (List.mem_map_of_mem (f := fun e => e.1) (mem_of_lookup has)))
    rw [List.filter_cons, look_cons]
    split
    · rw [look_cons, ih rest]
    · rename_i zero
      rw [ih rest]
      split
      · rename_i here
        rw [here, unlisted]
        have is : v = 0 := by simpa using zero
        exact is.symm
      · rfl

theorem newTeam_begins (s : State) (l : Launch) (stage inst core quarter crew team : Nat) :
    let g := l.stages.getD stage {}
    let t := newTeam s l stage inst core quarter crew team
    t.pc = g.kernel.entry ∧ t.mode = 0 ∧ t.jpc = 0 ∧ t.stack = [] ∧ t.vEmpty = 0 ∧ t.sEmpty = 0 ∧ t.rs 1 = g.args ∧ t.rs 2 = BitVec.ofNat 64 team ∧
    t.rs 3 = BitVec.ofNat 64 crew ∧ t.rs 4 = BitVec.ofNat 64 inst ∧ (l.pipe = false → t.rs 5 = BitVec.ofNat 64 l.nbands) ∧ (∀ n, 8 ≤ n → t.rs n = 0) ∧
    (∀ r L, t.rv r L = 0) ∧ (∀ n, n ≠ 0 → t.rp n = 0) ∧ t.live = t.mask ∧ ∀ L < 1024, t.mask.getLsbD L = decide (L < 32 * g.kernel.rows) := by
  intro g t
  have reads : ∀ n, n ≠ 0 → t.rs n = look 0 [(1, g.args), (2, BitVec.ofNat 64 team), (3, BitVec.ofNat 64 crew), (4, BitVec.ofNat 64 inst),
      (5, BitVec.ofNat 64 (if l.pipe then g.maxb else l.nbands)), (6, BitVec.ofNat 64 ((tenantOf s l.tenant).cents.idxOf core)),
      (7, BitVec.ofNat 64 ((tenantDies s l.tenant).idxOf (core / 144)))] n := fun n nonzero =>
    (if_neg nonzero).trans (look_filter_nonzero _ (by simp) n)
  refine ⟨rfl, rfl, rfl, rfl, rfl, rfl, reads 1 (by norm_num), reads 2 (by norm_num), reads 3 (by norm_num), reads 4 (by norm_num), fun plain => ?_,
    fun n above => ?_, fun r L => rfl, fun n nonzero => if_neg nonzero, rfl, fun L bound => ?_⟩
  · rw [reads 5 (by norm_num), plain]; rfl
  · rw [reads n (by omega)]
    rw [look_cons, look_cons, look_cons, look_cons, look_cons, look_cons, look_cons, if_neg (by omega), if_neg (by omega), if_neg (by omega),
      if_neg (by omega), if_neg (by omega), if_neg (by omega), if_neg (by omega)]
    rfl
  · show (BitVec.ofNat 1024 (2 ^ (32 * g.kernel.rows) - 1)).getLsbD L = _
    rw [BitVec.getLsbD_ofNat, decide_eq_true bound, Bool.true_and, Nat.testBit_two_pow_sub_one]

/-! ### The head of a queue (R260, R301, R303) -/

theorem sumBy_eq {α : Type} (f : α → Nat) (xs : List α) : sumBy f xs = (xs.map f).sum := by
  rw [sumBy, List.sum_eq_foldl]

section Head
variable {s : State} {die queue id : Nat} {l : Launch}

theorem readHead_none (none : headOf s die queue = none) : readHead die queue s = s := by simp only [readHead, none]

theorem readHead_read (head : headOf s die queue = some (id, l)) (read : l.read = true) : readHead die queue s = s := by
  simp only [readHead, head, read, if_true]

theorem readHead_spans (head : headOf s die queue = some (id, l)) (unread : l.read = false) (spans : l.spans = true)
    (off : bit s.ready.toNat 28 = false) : readHead die queue s = refuseLaunch s id := by
  simp only [readHead, head, unread, spans, off, Bool.false_eq_true, if_false, Bool.not_false, Bool.and_self, if_true]

/-- A head that is to be read and that the loss of the master does not refuse. -/
theorem readHead_reads (head : headOf s die queue = some (id, l)) (unread : l.read = false) (here : l.spans = false ∨ bit s.ready.toNat 28 = true) :
    readHead die queue s = if l.pipe then
        match readStages s l with
        | (s, none) => refuseLaunch s id
        | (s, some gs) =>
          if sumBy (fun g => g.minb) gs > l.nbands ∨ l.nbands > sumBy (fun g => g.maxb) gs ∨ gs.any (fun g => !placeable s l g.kernel) ||
              (l.gang && !gangFits s l (firstKernels gs (min l.nbands 20000)) []) then
            refuseLaunch s id
          else retune (setLaunch s id { l with read := true, stages := gs }) die
      else match readKernel s l (l.packet.getD 1 0) with
        | (s, none) => refuseLaunch s id
        | (s, some k) =>
          if !placeable s l k || (l.gang && !gangFits s l (List.replicate (min l.nbands 20000) k) []) then refuseLaunch s id
          else retune (setLaunch s id { l with read := true, stages := [{ kernel := k, args := l.packet.getD 2 0, maxb := l.nbands }] }) die := by
  have both : (l.spans && !bit s.ready.toNat 28) = false := by
    rcases here with no | yes
    · rw [no]; rfl
    · rw [yes, Bool.not_true, Bool.and_false]
  simp only [readHead, head, unread, both, Bool.false_eq_true, if_false] <;> rfl

theorem readHead_kernel (head : headOf s die queue = some (id, l)) (unread : l.read = false) (here : l.spans = false ∨ bit s.ready.toNat 28 = true)
    (plain : l.pipe = false) (s1 : State) :
    (readKernel s l (l.packet.getD 1 0) = (s1, none) → readHead die queue s = refuseLaunch s1 id) ∧
    (∀ kd, readKernel s l (l.packet.getD 1 0) = (s1, some kd) →
      let fits := placeable s1 l kd = true ∧ (l.gang = true → gangFits s1 l (List.replicate (min l.nbands 20000) kd) [] = true)
      (¬ fits → readHead die queue s = refuseLaunch s1 id) ∧
      (fits → readHead die queue s = retune (setLaunch s1 id { l with
        read := true
        stages := [{ kernel := kd, args := l.packet.getD 2 0, maxb := l.nbands }] }) die)) := by
  have run := readHead_reads head unread here
  rw [plain, if_neg Bool.false_ne_true] at run
  refine ⟨fun bad => by rw [run, bad], fun kd good => ?_⟩
  rw [good] at run
  have refused : (!placeable s1 l kd || (l.gang && !gangFits s1 l (List.replicate (min l.nbands 20000) kd) [])) = true ↔
      ¬(placeable s1 l kd = true ∧ (l.gang = true → gangFits s1 l (List.replicate (min l.nbands 20000) kd) [] = true)) := by
    cases placeable s1 l kd <;> cases l.gang <;> simp
  exact ⟨fun unfit => run.trans (if_pos (refused.2 unfit)), fun fit => run.trans (if_neg fun no => refused.1 no fit)⟩

theorem readHead_stages (head : headOf s die queue = some (id, l)) (unread : l.read = false) (here : l.spans = false ∨ bit s.ready.toNat 28 = true)
    (pipe : l.pipe = true) (s1 : State) :
    (readStages s l = (s1, none) → readHead die queue s = refuseLaunch s1 id) ∧
    (∀ gs, readStages s l = (s1, some gs) →
      let fits := (gs.map fun g => g.minb).sum ≤ l.nbands ∧ l.nbands ≤ (gs.map fun g => g.maxb).sum ∧ (∀ g ∈ gs, placeable s1 l g.kernel = true) ∧
        (l.gang = true → gangFits s1 l (firstKernels gs (min l.nbands 20000)) [] = true)
      (¬ fits → readHead die queue s = refuseLaunch s1 id) ∧
      (fits → readHead die queue s = retune (setLaunch s1 id { l with read := true, stages := gs }) die)) := by
  have run := readHead_reads head unread here
  rw [pipe, if_pos rfl] at run
  refine ⟨fun bad => by rw [run, bad], fun gs good => ?_⟩
  rw [good] at run
  simp only [sumBy_eq] at run
  have refused : ((gs.map fun g => g.minb).sum > l.nbands ∨ l.nbands > (gs.map fun g => g.maxb).sum ∨
      (gs.any (fun g => !placeable s1 l g.kernel) || (l.gang && !gangFits s1 l (firstKernels gs (min l.nbands 20000)) [])) = true) ↔
      ¬((gs.map fun g => g.minb).sum ≤ l.nbands ∧ l.nbands ≤ (gs.map fun g => g.maxb).sum ∧ (∀ g ∈ gs, placeable s1 l g.kernel = true) ∧
        (l.gang = true → gangFits s1 l (firstKernels gs (min l.nbands 20000)) [] = true)) := by
    have places : gs.any (fun g => !placeable s1 l g.kernel) = true ↔ ¬ ∀ g ∈ gs, placeable s1 l g.kernel = true := by simp
    have gang : (l.gang && !gangFits s1 l (firstKernels gs (min l.nbands 20000)) []) = true ↔
        ¬(l.gang = true → gangFits s1 l (firstKernels gs (min l.nbands 20000)) [] = true) := by simp
    rw [Bool.or_eq_true, places, gang, gt_iff_lt, gt_iff_lt, ← Nat.not_le, ← Nat.not_le]
    tauto
  exact ⟨fun unfit => run.trans (if_pos (refused.2 unfit)), fun fit => run.trans (if_neg fun no => refused.1 no fit)⟩

end Head

/-! ### The die scheduler (R292 to R294) -/

/-- The queue that is served has a head whose band can be placed. -/
theorem served {s : State} {die p q : Nat} {turn : Nat × Nat} (h : serve s die = some (p, q, turn)) :
    ∃ id l g d y, headOf s die q = some (id, l) ∧ canPlace s id l = some (g, d, y) := by
  obtain ⟨p', -, ring⟩ := List.exists_of_findSome?_eq_some h
  obtain ⟨r, served, same⟩ := Option.map_eq_some_iff.1 ring
  obtain ⟨q', -, found⟩ := List.exists_of_findSome?_eq_some served
  obtain ⟨⟨id, l⟩, head, chosen⟩ := Option.bind_eq_some_iff.1 found
  dsimp only at chosen
  split at chosen
  · rename_i can
    cases chosen
    cases same
    obtain ⟨⟨g, d, y⟩, place⟩ := Option.isSome_iff_exists.1 (Bool.and_eq_true_iff.1 can).2
    exact ⟨id, l, g, d, y, head, place⟩
  · cases chosen

theorem bandPlacement_places {s : State} {die p q id g d : Nat} {turn : Nat × Nat} {l : Launch} {y : Layout} (serves : serve s die = some (p, q, turn))
    (first : resumesAbove s p = false) (head : headOf s die q = some (id, l)) (place : canPlace s id l = some (g, d, y)) :
    let r := passTurns s die (p + 1)
    let s1 := { r with
      serial := r.serial + 1
      turns := setAt r.turns (8 * die + p) turn
      blocked := drop r.blocked (64 * die + q)
      claims := r.claims.filter fun c => c != id }
    let s2 := startBand s1 id l g (l.stages.getD g {}).started d y (firstRun s1 l id d) s.serial
    let s3 := setLaunch s2 id { l with favour := none, stages := l.stages.zipIdx.map fun x => if x.2 = g then { x.1 with started := x.1.started + 1 } else x.1 }
    exec (.bandPlacement die) s = .next (noteBlocked (retune (gangReady s3 id) d) die) := by
  simp only [exec_bandPlacement, execBandPlacement, serves, first, head, place, Bool.false_eq_true, if_false, beq_iff_eq]

/-! ### The quantum (R300) -/

section Quantum
variable {s : State} {die queue id head since : Nat} {l : Launch}

theorem quantumExpiry_none (none : headOf s die queue = none ∨ s.blocked.lookup (64 * die + queue) = none) :
    exec (.quantumExpiry die queue) s = .next s := by
  rcases none with noHead | noWait
  · simp only [exec_quantumExpiry, execQuantumExpiry, noHead]
  · cases waits : headOf s die queue <;> simp only [exec_quantumExpiry, execQuantumExpiry, waits, noWait]

/-- A head's quantum is over, and its next band cannot be placed. -/
def Due (s : State) (id : Nat) (l : Launch) (head since : Nat) : Prop :=
  let quantum := bits (tenantOf s l.tenant).lqcfg.toNat 16 32
  head = id ∧ quantum ≠ 0 ∧ 1000 * quantum < s.tick - since ∧ canPlace s id l = none ∧ nextStage s id l ≠ none ∧
    (l.gang = true → gatheringGang s l.tenant = some id)

theorem due_iff (s : State) (id : Nat) (l : Launch) (head since : Nat) :
    let quantum := bits (tenantOf s l.tenant).lqcfg.toNat 16 32
    (head ≠ id ∨ quantum = 0 ∨ s.tick - since ≤ 1000 * quantum ∨ (canPlace s id l).isSome = true ∨ nextStage s id l = none ∨
      (l.gang = true ∧ gatheringGang s l.tenant ≠ some id)) ↔ ¬ Due s id l head since := by
  have can : (canPlace s id l).isSome = true ↔ ¬ canPlace s id l = none := by simp [Option.isSome_iff_ne_none]
  simp only [Due, can, ← Nat.not_lt, ne_eq]
  tauto

theorem quantumExpiry_early (is : headOf s die queue = some (id, l)) (waits : s.blocked.lookup (64 * die + queue) = some (head, since))
    (early : ¬ Due s id l head since) : exec (.quantumExpiry die queue) s = .next s := by
  simp only [exec_quantumExpiry, execQuantumExpiry, is, waits]
  exact if_pos ((due_iff s id l head since).2 early)

/-- The bands that a quantum takes out, on the first die where that suffices, or on every die. -/
def quantumDone (s : State) (id : Nat) (l : Launch) : State :=
  let dies := allowedDies s l.tenant l.packet
  match (dies.map fun d => quantumOn s id l d).find? fun x => fitsOnceOut x id l with
  | some x => { x with claims := id :: x.claims.filter fun c => c != id }
  | none => dies.foldl (fun s d => quantumOn s id l d) s

theorem quantumExpiry_due (is : headOf s die queue = some (id, l)) (waits : s.blocked.lookup (64 * die + queue) = some (head, since))
    (due : Due s id l head since) : exec (.quantumExpiry die queue) s = .next (quantumDone s id l) := by
  simp only [exec_quantumExpiry, execQuantumExpiry, is, waits]
  exact if_neg fun early => (due_iff s id l head since).1 early due

end Quantum

/-- Bands are only marked to be pre-empted. -/
def OnlyStops (s s' : State) : Prop := s'.teams = s.teams ∧ ∀ j, (bandOf s' j).run ≠ (bandOf s j).run → (bandOf s' j).run = .stopping

theorem OnlyStops.refl (s : State) : OnlyStops s s := ⟨rfl, fun _ other => absurd rfl other⟩

theorem OnlyStops.trans {a b c : State} (h : OnlyStops a b) (g : OnlyStops b c) : OnlyStops a c := by
  refine ⟨g.1.trans h.1, fun j changed => ?_⟩
  by_cases second : (bandOf c j).run = (bandOf b j).run
  · rw [second] at changed ⊢
    exact h.2 j changed
  · exact g.2 j second

theorem foldl_onlyStops {α : Type} {f : State → α → State} (h : ∀ s a, OnlyStops s (f s a)) (l : List α) (s : State) : OnlyStops s (l.foldl f s) := by
  induction l generalizing s with
  | nil => exact .refl s
  | cons a l ih => exact (h s a).trans (ih _)

/-- A band after the marks of R196. -/
def stopped (s : State) (band reason : Nat) (j : Nat) (b : Band) : Band :=
  if (j == band || ((launchOf s (bandOf s band).launch).gang && b.launch == (bandOf s band).launch)) && b.resident
  then { b with run := .stopping, rests := b.standing, reason := reason, stopTick := s.tick } else b

/-- The marks change bands, and a gang's start tick. -/
theorem beginPreempt_eq (s : State) (band reason : Nat) :
    beginPreempt s band reason = { (if (launchOf s (bandOf s band).launch).gang
        then setLaunch s (bandOf s band).launch { launchOf s (bandOf s band).launch with startTick := none } else s) with
      bands := s.bands.map fun e => (e.1, stopped s band reason e.1 e.2) } := by
  have each : ∀ e : Nat × Band, (e.1, stopped s band reason e.1 e.2) =
      if (e.1 == band || ((launchOf s (bandOf s band).launch).gang && e.2.launch == (bandOf s band).launch)) && e.2.resident
      then (e.1, { e.2 with run := .stopping, rests := e.2.standing, reason := reason, stopTick := s.tick }) else e := fun e => by
    rw [stopped]
    split <;> rfl
  simp only [each, beginPreempt]
  split <;> rfl

theorem beginPreempt_onlyStops (s : State) (band reason : Nat) : OnlyStops s (beginPreempt s band reason) := by
  rw [beginPreempt_eq]
  refine ⟨by split <;> rfl, fun j changed => ?_⟩
  have after : ∀ s' : State, bandOf { s' with bands := s.bands.map fun e => (e.1, stopped s band reason e.1 e.2) } j =
      if (s.bands.lookup j).isSome then stopped s band reason j (bandOf s j) else bandOf s j := fun s' => look_mapValues ({} : Band) (fun j b => stopped s band reason j b) s.bands j
  rw [after] at changed ⊢
  split at changed
  · rename_i some
    rw [if_pos some]
    unfold stopped at changed ⊢
    split at changed
    · rename_i marked
      rw [if_pos marked]
    · exact absurd rfl changed
  · exact absurd rfl changed

theorem quantumOn_onlyStops (s : State) (id : Nat) (l : Launch) (die : Nat) : OnlyStops s (quantumOn s id l die) := by
  refine foldl_onlyStops (fun s _ => ?_) _ _
  split
  · exact .refl s
  · split
    · exact beginPreempt_onlyStops _ _ _
    · exact .refl s

theorem quantumDone_onlyStops (s : State) (id : Nat) (l : Launch) : OnlyStops s (quantumDone s id l) := by
  unfold quantumDone
  dsimp only
  split
  · rename_i x found
    obtain ⟨d, -, rfl⟩ := List.mem_map.1 (List.mem_of_find?_eq_some found)
    exact quantumOn_onlyStops s id l d
  · exact foldl_onlyStops (fun s d => quantumOn_onlyStops s id l d) _ _

/-- On the first die where that suffices. -/
theorem quantumDone_fits {s x : State} {id : Nat} {l : Launch}
    (fits : ((allowedDies s l.tenant l.packet).map fun d => quantumOn s id l d).find? (fun x => fitsOnceOut x id l) = some x) :
    quantumDone s id l = { x with claims := id :: x.claims.filter fun c => c != id } := by
  simp only [quantumDone, fits]

/-- On every die, where none suffices. -/
theorem quantumDone_every {s : State} {id : Nat} {l : Launch}
    (none : ∀ d ∈ allowedDies s l.tenant l.packet, fitsOnceOut (quantumOn s id l d) id l = false) :
    quantumDone s id l = (allowedDies s l.tenant l.packet).foldl (fun s d => quantumOn s id l d) s := by
  have notFound : ((allowedDies s l.tenant l.packet).map fun d => quantumOn s id l d).find? (fun x => fitsOnceOut x id l) = Option.none := by
    rw [List.find?_eq_none]
    intro x mem
    obtain ⟨d, dieMem, rfl⟩ := List.mem_map.1 mem
    rw [none d dieMem]
    exact Bool.false_ne_true
  simp only [quantumDone, notFound]

/-! A quantum where one band is resident. -/

section OneBand
variable {s : State} {id v : Nat} {l : Launch} {b : Band}

/-- No band is being pre-empted: what is out is out. -/
theorem fitsOnceOut_none (none : ∀ e ∈ s.bands, e.2.run ≠ .stopping) : fitsOnceOut s id l = fitsNow s id l := by
  have same : (s.bands.map fun e => if e.2.run == .stopping then (e.1, { e.2 with run := .saved }) else e) = s.bands := by
    conv_rhs => rw [← List.map_id s.bands]
    refine List.map_congr_left fun e mem => if_neg ?_
    rw [beq_iff_eq]
    exact none e mem
  rw [fitsOnceOut, same]

/-- The marks on the only band. -/
theorem beginPreempt_one (one : s.bands = [(v, b)]) (resident : b.run ≠ .saved) :
    ∃ b', (beginPreempt s v 0).bands = [(v, b')] ∧ b'.run = .stopping := by
  rw [beginPreempt_eq]
  refine ⟨stopped s v 0 v b, by simp only [one, List.map_cons, List.map_nil], ?_⟩
  have resides : b.resident = true := by simpa [Band.resident] using resident
  rw [stopped, resides, beq_self_eq_true, Bool.true_or, Bool.and_self, if_pos rfl]

/-- The victim on a die. -/
theorem quantumVictim_one (one : s.bands = [(v, b)]) (tenant : b.tenant = l.tenant) (lower : b.prio < l.prio)
    (running : b.run = .going ∨ b.run = .gang ∨ b.run = .slowed) (d : Nat) :
    quantumVictim s l d = if b.die = d then some (v, b) else none := by
  have runs : [Run.saved, .stopping, .halting, .breaking, .halted, .stopped].contains b.run = false := by
    rcases running with h | h | h <;> simp [h]
  simp only [quantumVictim, one, List.filter_cons, List.filter_nil, tenant, lower, runs, beq_self_eq_true, decide_true, Bool.not_false, Bool.true_and,
    Bool.and_true, beq_iff_eq]
  split <;> rfl

theorem quantumVictim_stopping (one : s.bands = [(v, b)]) (stopping : b.run = .stopping) (d : Nat) : quantumVictim s l d = none := by
  have runs : [Run.saved, .stopping, .halting, .breaking, .halted, .stopped].contains b.run = true := by simp [stopping]
  simp only [quantumVictim, one, List.filter_cons, List.filter_nil, runs, Bool.not_true, Bool.and_false, Bool.false_eq_true, if_false, List.foldl_nil]

theorem quantumOn_one (one : s.bands = [(v, b)]) (d : Nat) :
    quantumOn s id l d = if fitsOnceOut s id l then s else match quantumVictim s l d with
      | some v => beginPreempt s v.1 0
      | none => s := by
  rw [quantumOn, one]
  rfl

/-- A quantum with one band in its way takes that band out, and claims its room where the waiting band then fits. -/
theorem quantumDone_one (unfit : fitsNow s id l = false) (one : s.bands = [(v, b)]) (tenant : b.tenant = l.tenant)
    (allowed : b.die ∈ allowedDies s l.tenant l.packet) (lower : b.prio < l.prio) (running : b.run = .going ∨ b.run = .gang ∨ b.run = .slowed) :
    let r := beginPreempt s v 0
    let gone := { r with bands := r.bands.map fun e => if e.2.run = .stopping then (e.1, { e.2 with run := .saved }) else e }
    quantumDone s id l = if fitsNow gone id l then { r with claims := id :: r.claims.filter fun c => c != id } else r := by
  intro r gone
  obtain ⟨b', oneAfter, stopping⟩ := beginPreempt_one one (by rcases running with h | h | h <;> simp [h])
  have unfitNow : fitsOnceOut s id l = false := by
    rw [fitsOnceOut_none (fun e mem => by
      obtain rfl : e = (v, b) := by simpa [one] using mem
      rcases running with h | h | h <;> simp [h]), unfit]
  have out : fitsOnceOut r id l = fitsNow gone id l := by simp only [fitsOnceOut, gone, beq_iff_eq]
  have on : ∀ d, quantumOn s id l d = if b.die = d then r else s := fun d => by
    rw [quantumOn_one one, unfitNow, if_neg Bool.false_ne_true, quantumVictim_one one tenant lower running]
    by_cases here : b.die = d
    · simp only [if_pos here, r]
    · simp only [if_neg here]
  have after : ∀ d, quantumOn r id l d = r := fun d => by
    rw [quantumOn_one oneAfter, quantumVictim_stopping oneAfter stopping, ite_self]
  by_cases fits : fitsNow gone id l = true
  · rw [if_pos fits]
    refine quantumDone_fits ?_
    have found : ∀ ds : List Nat, b.die ∈ ds → (ds.map fun d => quantumOn s id l d).find? (fun x => fitsOnceOut x id l) = some r := by
      intro ds
      induction ds with
      | nil => exact nofun
      | cons d ds ih =>
        intro mem
        rw [List.map_cons, List.find?_cons, on d]
        by_cases here : b.die = d
        · rw [if_pos here, out, fits]
        · rw [if_neg here, unfitNow]
          exact ih ((List.mem_cons.1 mem).resolve_left here)
    exact found _ allowed
  · rw [if_neg fits]
    have unfitAfter : fitsOnceOut r id l = false := by rw [out]; simpa using fits
    rw [quantumDone_every fun d _ => by rw [on d]; split <;> assumption]
    have stays : ∀ ds : List Nat, ds.foldl (fun s d => quantumOn s id l d) r = r := by
      intro ds
      induction ds with
      | nil => rfl
      | cons d ds ih => rw [List.foldl_cons, after d, ih]
    have reaches : ∀ ds : List Nat, b.die ∈ ds → ds.foldl (fun s d => quantumOn s id l d) s = r := by
      intro ds
      induction ds with
      | nil => exact nofun
      | cons d ds ih =>
        intro mem
        rw [List.foldl_cons, on d]
        by_cases here : b.die = d
        · rw [if_pos here, stays ds]
        · rw [if_neg here]
          exact ih ((List.mem_cons.1 mem).resolve_left here)
    exact reaches _ allowed

end OneBand

/-! ### Bands that issue (R200, R301) -/

theorem mapTeams_eq (s : State) (band : Nat) (f : Team → Team) :
    mapTeams s band f = { s with teams := s.teams.map fun e => (e.1, if bandKey e.1 = band then f e.2 else e.2) } := by
  have each : ∀ e : Nat × Team, (if bandKey e.1 == band then (e.1, f e.2) else e) = (e.1, if bandKey e.1 = band then f e.2 else e.2) := fun e => by
    by_cases here : bandKey e.1 = band
    · simp [here]
    · simp [here]
  simp only [mapTeams, each]

theorem letGo_asks (s : State) (band : Nat) :
    ((bandTeams (mapTeams s band fun t => { t with stepAsked := t.stepWanted }) band).any fun e => e.2.stepAsked.isSome) = true ↔
      ∃ e ∈ bandTeams s band, e.2.stepWanted ≠ none := by
  rw [mapTeams_eq, List.any_eq_true]
  constructor
  · rintro ⟨e, mem, asks⟩
    obtain ⟨mem, here⟩ := List.mem_filter.1 mem
    obtain ⟨x, listed, rfl⟩ := List.mem_map.1 mem
    rw [beq_iff_eq] at here
    simp only [if_pos here] at asks
    exact ⟨x, List.mem_filter.2 ⟨listed, by simpa using here⟩, Option.isSome_iff_ne_none.1 asks⟩
  · rintro ⟨x, mem, wants⟩
    obtain ⟨mem, here⟩ := List.mem_filter.1 mem
    rw [beq_iff_eq] at here
    refine ⟨(x.1, { x.2 with stepAsked := x.2.stepWanted }), List.mem_filter.2 ⟨List.mem_map.2 ⟨x, mem, by rw [if_pos here]⟩, by simpa using here⟩,
      Option.isSome_iff_ne_none.2 wants⟩

theorem letGo_clauses (s : State) (band : Nat) : let s' := letGo s band
    s' = { s with bands := s'.bands, teams := s'.teams } ∧
      bandOf s' band = { bandOf s band with run := if ∃ e ∈ bandTeams s band, e.2.stepWanted ≠ none then .stopped else .going } ∧
      (∀ j, j ≠ band → bandOf s' j = bandOf s j) ∧
      ∀ k, s'.teams.lookup k = (s.teams.lookup k).map fun t => if bandKey k = band then { t with stepAsked := t.stepWanted } else t := by
  intro s'
  refine ⟨rfl, ?_, fun j other => ?_, fun k => ?_⟩
  · simp only [s', letGo]
    rw [bandOf_setBand, if_pos rfl, if_congr (letGo_asks s band) rfl rfl]
    rfl
  · simp only [s', letGo]
    rw [bandOf_setBand, if_neg other]
    rfl
  · have after := lookup_mapValues (fun k (t : Team) => if bandKey k = band then { t with stepAsked := t.stepWanted } else t) s.teams k
    simp only [s', letGo, mapTeams_eq]
    exact after

theorem letGo_onlyTeams (s : State) (band : Nat) : (letGo s band).launches = s.launches := rfl

/-! ### The balancer (R305) -/

theorem balance_none {s : State} {launch : Nat} (none : (launchOf s launch).pipe = false ∨ (launchOf s launch).read = false ∨ (launchOf s launch).ended = true) :
    balance launch s = s := by
  have any : (!(launchOf s launch).pipe || !(launchOf s launch).read || (launchOf s launch).ended) = true := by
    rcases none with h | h | h <;> simp [h]
  simp only [balance]
  exact if_pos any

theorem balance_moves {s s1 s2 : State} {launch d0 d1 : Nat} {l : Launch} {g0 g1 : PipeStage} {b : Nat × Band} (is : launchOf s launch = l)
    (pipe : l.pipe = true) (read : l.read = true) (going : l.ended = false) (stages : l.stages = [g0, g1]) (fill0 : stageFill s l g0 = (s1, d0))
    (fill1 : stageFill s1 l g1 = (s2, d1)) (above : g0.minb < (stageBands s2 launch 0 false).length)
    (last : (stageBands s2 launch 0 false).getLast? = some b) (drains : d0 < 32) (low : (stageBands s2 launch 1 false).length ≤ g1.minb)
    (room : (stageBands s2 launch 1 false).length < g1.maxb) (fresh : g1.waited = false) (fills : 128 ≤ d1) (unstarted : g1.started < g1.maxb) :
    balance launch s = beginPreempt (setLaunch s2 launch { l with
      balanced := s2.tick
      stages := [{ g0 with waited := false }, { g1 with waited := false }]
      favour := some 1 }) b.1 0 := by
  have notDonor : ¬ g1.minb < (stageBands s2 launch 1 false).length := by omega
  have notTaker : ¬ 128 ≤ d0 := by omega
  have stagesBands : ∀ l' j, stageBands (setLaunch s2 launch l') launch j false = stageBands s2 launch j false := fun _ _ => rfl
  simp only [balance, is, pipe, read, going, stages, fill0, fill1, Bool.not_true, Bool.or_self, Bool.false_eq_true, if_false, List.foldl_cons, List.foldl_nil,
    List.nil_append, List.cons_append, List.zipIdx_cons, List.zipIdx_nil, List.map_cons, List.map_nil, List.filter_cons, List.filter_nil,
    List.getD_cons_zero, List.getD_cons_succ, gt_iff_lt, ge_iff_le, above, drains, room, fresh, fills, unstarted, notDonor, notTaker, decide_true,
    decide_false, Bool.true_or, Bool.and_self, Bool.false_and, Bool.and_false, Bool.not_false, if_true, stagesBands, last]
  rw [if_neg (by omega)]
  rfl

end Sys2Proof.Machine
end

section
/-! SUPPORT. Points, the kernel boundary, saves and resumptions, and the ends of launches (O49). -/

namespace Sys2Proof.Machine

/-! ### Operating points (R308) -/

/-- A band that waited for a faster point of the die is let go. -/
def unslowed (die : Nat) (b : Band) : Band := if b.die = die ∧ b.run = .slowed then { b with run := .going } else b

theorem releaseSlowed_eq (s : State) (die : Nat) : releaseSlowed s die = { s with bands := s.bands.map fun e => (e.1, unslowed die e.2) } := by
  have each : ∀ e : Nat × Band, (if e.2.die == die && e.2.run == .slowed then (e.1, { e.2 with run := .going }) else e) = (e.1, unslowed die e.2) :=
    fun e => by
      simp only [unslowed, Bool.and_eq_true, beq_iff_eq]
      split <;> rfl
  simp only [releaseSlowed, each]

theorem bandOf_releaseSlowed (s : State) (die j : Nat) :
    bandOf (releaseSlowed s die) j = if (s.bands.lookup j).isSome then unslowed die (bandOf s j) else bandOf s j := by
  rw [releaseSlowed_eq]
  exact look_mapValues ({} : Band) (fun _ b => unslowed die b) s.bands j

theorem operatingPointStable_settles {s : State} {die : Nat} (settles : (dieOf s die).settling = true) :
    ∃ s', exec (.operatingPointStable die) s = .next s' ∧ s' = { s with dies := s'.dies, bands := s'.bands } ∧
      dieOf s' die = { dieOf s die with point := min (dieOf s die).point (wantedPoint s die), settling := false } ∧
      ∀ j, (s.bands.lookup j).isSome = true → bandOf s' j =
        if (bandOf s j).die = die ∧ (bandOf s j).run = .slowed then { bandOf s j with run := .going } else bandOf s j := by
  refine ⟨releaseSlowed (setDie s die { dieOf s die with point := min (dieOf s die).point (wantedPoint s die), settling := false }) die, ?_, rfl, ?_,
    fun j has => ?_⟩
  · simp only [exec_operatingPointStable, execOperatingPointStable, settles, Bool.not_true, Bool.false_eq_true, if_false]
  · rw [releaseSlowed_eq, dieOf]
    exact (look_setAt _ _ _ _ _).trans (if_pos rfl)
  · rw [bandOf_releaseSlowed]
    exact if_pos has

/-- A new point lets slowed bands go, and leaves every other band as it is. -/
theorem bandOf_retune (s : State) (die j : Nat) : bandOf (retune s die) j = bandOf s j ∨
    (bandOf s j).run = .slowed ∧ bandOf (retune s die) j = { bandOf s j with run := .going } := by
  have released : ∀ d : Die, bandOf (releaseSlowed (setDie s die d) die) j = bandOf s j ∨
      (bandOf s j).run = .slowed ∧ bandOf (releaseSlowed (setDie s die d) die) j = { bandOf s j with run := .going } := fun d => by
    rw [bandOf_releaseSlowed]
    show (if _ then unslowed die (bandOf s j) else bandOf s j) = bandOf s j ∨ _
    split
    · by_cases slow : (bandOf s j).die = die ∧ (bandOf s j).run = .slowed
      · exact .inr ⟨slow.2, if_pos slow⟩
      · exact .inl (if_neg slow)
    · exact .inl rfl
  simp only [retune]
  split
  · exact released _
  · split
    · exact .inl rfl
    · split
      · exact released _
      · exact .inl rfl

/-! ### The kernel boundary (R346) -/

theorem complete_iff (l : Launch) : (l.read && !l.ended && l.stages.all fun g => g.retired == g.maxb) = true ↔
    l.read = true ∧ l.ended = false ∧ ∀ g ∈ l.stages, g.retired = g.maxb := by
  simp [and_assoc]

theorem kernelBoundary_clauses (s : State) (launch : Nat) : let l := launchOf s launch
    let complete := l.read = true ∧ l.ended = false ∧ ∀ g ∈ l.stages, g.retired = g.maxb
    (¬ complete → exec (.kernelBoundary launch) s = .next s) ∧
    (complete → homesHold (boundary346 s) = false →
      exec (.kernelBoundary launch) s = .next (setLaunch (launchStamp (boundary346 s) launch false) launch { l with ended := true })) ∧
    (complete → homesHold (boundary346 s) = true → exec (.kernelBoundary launch) s = .next (boundary346 s)) := by
  intro l complete
  refine ⟨fun no => ?_, fun yes open_ => ?_, fun yes hold => ?_⟩
  · exact if_neg fun all => no ((complete_iff l).1 all)
  · exact (if_pos ((complete_iff l).2 yes)).trans (if_neg (by simp [open_]))
  · exact (if_pos ((complete_iff l).2 yes)).trans (if_pos hold)

/-- The boundary leaves every L1 empty. -/
theorem l1Of_dropL1s (s : State) (c : Nat) : l1Of (dropL1s s) c = [] := by
  have after := look_mapValues ({} : Core) (fun _ (x : Core) => { x with l1 := [], epoch := x.epoch + 1 }) s.cores c
  refine (congrArg Core.l1 after).trans ?_
  split
  · rfl
  · rename_i none
    rw [look_of_lookup_none _ (Option.not_isSome_iff_eq_none.1 none)]

/-! ### What a scheduler's acts leave alone -/

theorem Calm.refl (s : State) : Calm s s := ⟨rfl, rfl, rfl, rfl⟩

theorem capture_calm (s : State) (core : Nat) (toHome cpToo : Bool) (p : Nat → Bool) (id : Nat) : Calm s (capture s core toHome cpToo p id) := by
  have add : ∀ (s : State) (pa i : Nat) (b : Blk), Calm s (capture.add core toHome id s pa i b) := fun s pa i b => by
    have h := leaving_calm s b pa core
    simp only [capture.add]
    exact h
  have one : ∀ (s : State) (pa i : Nat) (b : Blk), Calm s (capture.one core toHome id s pa i b) := fun s pa i b => by
    simp only [capture.one]
    split
    · split
      · exact Calm.refl s
      · exact add s pa i b
    · exact add s pa i b
  exact foldl_calm (fun s x => one s _ _ _) _ s

theorem flushCore_calm (s : State) (core : Nat) (cpToo : Bool) : Calm s (flushCore s core cpToo) := by
  have h := capture_calm s core true cpToo (fun _ => true) s.serial
  have g := foldl_calm performPub_calm ((capture s core true cpToo (fun _ => true) s.serial).pubs.filter fun p => p.core == core)
    { capture s core true cpToo (fun _ => true) s.serial with serial := (capture s core true cpToo (fun _ => true) s.serial).serial + 1 }
  exact (h.trans g).trans (invalidateClean_calm _ _)

theorem foldl_flushCore_calm (cores : List Nat) (cpToo : Bool) (s : State) : Calm s (cores.foldl (fun s c => flushCore s c cpToo) s) :=
  foldl_calm (fun s c => flushCore_calm s c cpToo) cores s

theorem takeCore_calm (s : State) (core tenant : Nat) (fresh : Bool) : Calm s (takeCore s core tenant fresh) := by
  have flushed : Calm s (if (coreOf s core).tenant != some tenant then flushCore s core true else s) := by
    split
    · exact flushCore_calm s core true
    · exact Calm.refl s
  exact flushed.trans (invalidateClean_calm _ core)

theorem putL2p_calm (s : State) (tenant off : Nat) (w : Word) : Calm s (putL2p s tenant off w) := by
  simp only [putL2p]
  split
  · exact homeWrite_calm _ _ _ _ _ _ _ _
  · rename_i va _
    exact noteMiss_calm s _ tenant va
  · exact Calm.refl s

theorem exchangeCent_calm (s : State) (tenant i n : Nat) : Calm s (exchangeCent s tenant i n) := by
  simp only [exchangeCent]
  split
  · exact Calm.refl s
  · refine Calm.trans ?_ (putL2p_calm _ _ _ _)
    exact Calm.trans (setTenant_calm s tenant _) (putL2p_calm _ _ _ _)

/-! ### Pre-emption (R196, R202, R325) -/

theorem settleMills_none {s : State} {band : Nat} (none : ∀ e ∈ bandTeams s band, e.2.mill = none) : settleMills s band = (s, true) := by
  have stays : ∀ ts : NMap Team, (∀ e ∈ ts, e.2.mill = Option.none) → ts.foldl (fun (a : State × Bool) e => match e.2.mill with
      | some m =>
        let r := millSettled a.1 e.1 e.2 m
        (setTeam r.1 e.1 { e.2 with mill := some r.2.1 }, a.2 && match r.2.2 with
          | some .wait => false
          | _ => true)
      | Option.none => a) (s, true) = (s, true) := by
    intro ts
    induction ts with
    | nil => intro _; rfl
    | cons e ts ih =>
      intro all
      rw [List.foldl_cons, all e List.mem_cons_self]
      exact ih fun x mem => all x (List.mem_cons_of_mem e mem)
  exact stays _ none

theorem saveSettled_saved (s : State) (band : Nat) :
    (bandOf (saveSettled s band) band).run = .saved ∧ ∀ k, (saveSettled s band).cur = some k → bandKey k ≠ band := by
  refine ⟨?_, fun k turn => ?_⟩
  · simp only [saveSettled]
    show (look {} (setAt _ band _) band : Band).run = .saved
    rw [look_setAt, if_pos rfl]
  · have kept := (Option.filter_eq_some_iff.1 turn).2
    simpa using kept

section PreEmption
variable {s : State} {band : Nat} {b : Band}

theorem preEmption_of (is : s.bands.lookup band = some b) :
    exec (.preEmption band) s = .next (if b.run == .stopping && drained s band then saveBand s band else standStill s band) := by
  simp only [exec_preEmption, execPreEmption, is]

theorem bandOf_of_lookup (is : s.bands.lookup band = some b) : bandOf s band = b := look_of_lookup ({} : Band) is

theorem preEmption_holds (is : s.bands.lookup band = some b) (holds : drained s band = false ∨ b.run ∉ [Run.stopping, .halting, .breaking]) :
    exec (.preEmption band) s = .next s := by
  rw [preEmption_of is]
  rcases holds with busy | running
  · rw [busy, Bool.and_false, if_neg Bool.false_ne_true]
    simp only [standStill, busy, Bool.not_false, if_true]
  · have notStopping : (b.run == .stopping) = false := by simpa using fun h : b.run = .stopping => running (by simp [h])
    rw [notStopping, Bool.false_and, if_neg Bool.false_ne_true]
    have still : standStill s band = s := by
      simp only [standStill, bandOf_of_lookup is]
      split
      · rfl
      · split
        · rename_i h; exact absurd (by simp [h]) running
        · rename_i h; exact absurd (by simp [h]) running
        · rfl
    rw [still]

theorem preEmption_saves (is : s.bands.lookup band = some b) (drains : drained s band = true) (stops : b.run = .stopping) :
    exec (.preEmption band) s = .next (saveBand s band) := by
  rw [preEmption_of is, stops, drains]
  rfl

/-- A band that halts, or stops for a debugger, stands still once it is drained. -/
theorem preEmption_stands (is : s.bands.lookup band = some b) (drains : drained s band = true) {run : Run}
    (stands : b.run = .halting ∧ run = .halted ∨ b.run = .breaking ∧ run = .stopped) :
    ∃ s', exec (.preEmption band) s = .next s' ∧ s'.teams = s.teams ∧ (bandOf s' band).run = run := by
  refine ⟨setBand (b.cores.foldl (fun s c => flushCore s c true) s) band { b with run := run }, ?_,
    (foldl_flushCore_calm b.cores true s).1, by rw [bandOf_setBand, if_pos rfl]⟩
  rw [preEmption_of is]
  rcases stands with ⟨was, rfl⟩ | ⟨was, rfl⟩
  · rw [was, if_neg (by simp)]
    simp only [standStill, drains, bandOf_of_lookup is, was, Bool.not_true, Bool.false_eq_true, if_false]
  · rw [was, if_neg (by simp)]
    simp only [standStill, drains, bandOf_of_lookup is, was, Bool.not_true, Bool.false_eq_true, if_false]

end PreEmption

/-! ### Resumption (R198, R199, R288, R299, R302) -/

theorem mem_setAt {α : Type} (m : NMap α) (k : Nat) (v : α) (e : Nat × α) : e ∈ setAt m k v ↔ e = (k, v) ∨ e ∈ m ∧ e.1 ≠ k := by
  rw [setAt, insertAt_mem, drop, List.mem_filter, bne_iff_ne]

/-- Teams go to other cores and quarters; their other registers, the bands and the launches are as they were. -/
structure Moves (s s' : State) : Prop where
  bands : s'.bands = s.bands
  launches : s'.launches = s.launches
  teams : ∀ P : Nat → Team → Prop, (∀ k t core quarter, P k t → P k { t with core := core, quarter := quarter }) →
    (∀ x ∈ s.teams, P x.1 x.2) → ∀ x ∈ s'.teams, P x.1 x.2
  keys : ∀ k, (∃ x ∈ s.teams, x.1 = k) → ∃ x ∈ s'.teams, x.1 = k

theorem Moves.of_calm {s s' : State} (h : Calm s s') : Moves s s' where
  bands := h.2.1
  launches := h.2.2.2
  teams := fun _ _ all x mem => all x (h.1 ▸ mem)
  keys := fun _ some => h.1.symm ▸ some

theorem Moves.trans {a b c : State} (h : Moves a b) (g : Moves b c) : Moves a c where
  bands := g.bands.trans h.bands
  launches := g.launches.trans h.launches
  teams := fun P keeps all => g.teams P keeps (h.teams P keeps all)
  keys := fun k some => g.keys k (h.keys k some)

theorem foldl_moves {α : Type} {f : State → α → State} (h : ∀ s a, Moves s (f s a)) (l : List α) (s : State) : Moves s (l.foldl f s) := by
  induction l generalizing s with
  | nil => exact .of_calm (Calm.refl s)
  | cons a l ih => exact (h s a).trans (ih _)

/-- A team of the machine as it was goes to another place. -/
theorem Moves.setTeam {s r : State} (h : Moves s r) {x : Nat × Team} (listed : x ∈ s.teams) (core quarter : Nat) :
    Moves s (setTeam r x.1 { x.2 with core := core, quarter := quarter }) where
  bands := h.bands
  launches := h.launches
  teams := fun P keeps all y mem => by
    rcases (mem_setAt _ _ _ _).1 mem with rfl | ⟨mem, -⟩
    · exact keeps _ _ _ _ (all x listed)
    · exact h.teams P keeps all y mem
  keys := fun k some => by
    obtain ⟨y, mem, rfl⟩ := h.keys k some
    by_cases here : y.1 = x.1
    · exact ⟨_, (mem_setAt _ _ _ _).2 (.inl rfl), here.symm⟩
    · exact ⟨y, (mem_setAt _ _ _ _).2 (.inr ⟨mem, here⟩), rfl⟩

/-- A crew goes to a core, and its teams to their quarters. -/
def moveCrew (core : Nat) (s : State) (c : Nat × List Nat) : State :=
  let s := setCrew s c.1 { crewOf s c.1 with core := core }
  ((crewTeams s c.1).zip c.2).foldl (fun s t => setTeam s t.1.1 { t.1.2 with core := core, quarter := t.2 }) s

theorem moveCrew_moves (core : Nat) (s : State) (c : Nat × List Nat) : Moves s (moveCrew core s c) := by
  have each : ∀ (ts : List ((Nat × Team) × Nat)) (r : State), (∀ x ∈ ts, x.1 ∈ s.teams) → Moves s r →
      Moves s (ts.foldl (fun s t => setTeam s t.1.1 { t.1.2 with core := core, quarter := t.2 }) r) := by
    intro ts
    induction ts with
    | nil => exact fun _ _ h => h
    | cons t ts ih =>
      intro r listed h
      exact ih _ (fun x mem => listed x (List.mem_cons_of_mem t mem)) (h.setTeam (listed t List.mem_cons_self) core t.2)
  refine each _ _ (fun x mem => ?_) (.of_calm (by simp [Calm]))
  exact (List.mem_filter.1 (List.of_mem_zip (a := x.1) (b := x.2) mem).1).1

/-- The cores of a resumed band take its banks and its queued commands. -/
def takeBanks (b : Band) (s : State) (g : Nat × Nat × List (Nat × List Nat)) : State :=
  let x := coreOf s g.2.1
  let k := b.banks.getD (b.cores.idxOf g.1) {}
  setCore s g.2.1 { x with tab := k.tab, tabGood := k.good, tabActive := k.active,
                           queue := x.queue ++ b.arrays.filter fun q => (crewOf s q.crew).core == g.2.1 }

/-- The machine with a resumed band's crews, teams, banks and commands on its new cores. -/
def onNewCores (s : State) (b : Band) (groups : List (Nat × Nat × List (Nat × List Nat))) : State :=
  let number := fun (g : Nat × Nat × List (Nat × List Nat)) => (crewOf s ((g.2.2.headD (0, [])).1)).lcore
  let s := (groups.map fun g => (number g, g.2.1)).foldl (fun s p => exchangeCent s b.tenant p.1 p.2) s
  let s := (groups.map fun g => g.2.1).foldl (fun s c => takeCore (flushCore s c false) c b.tenant false) s
  let s := groups.foldl (fun s g => g.2.2.foldl (moveCrew g.2.1) s) s
  groups.foldl (takeBanks b) s

theorem onNewCores_moves (s : State) (b : Band) (groups : List (Nat × Nat × List (Nat × List Nat))) : Moves s (onNewCores s b groups) := by
  have cents := fun (ps : List (Nat × Nat)) (s : State) => foldl_calm (fun s (p : Nat × Nat) => exchangeCent_calm s b.tenant p.1 p.2) ps s
  have cores := fun (cs : List Nat) (s : State) =>
    foldl_calm (fun s (c : Nat) => (flushCore_calm s c false).trans (takeCore_calm _ c b.tenant false)) cs s
  refine (((Moves.of_calm (cents _ s)).trans (.of_calm (cores _ _))).trans
    (foldl_moves (fun s g => foldl_moves (moveCrew_moves g.2.1) g.2.2 s) groups _)).trans (foldl_moves (fun s g => ?_) groups _)
  exact .of_calm (by simp [Calm, takeBanks])

/-- How a resumed band stands before its teams' steps are looked at. -/
def Band.resumed (b : Band) (groups : List (Nat × Nat × List (Nat × List Nat))) : Band :=
  { b with run := b.rests.getD .gang, rests := none, cores := groups.map fun g => g.2.1, banks := [], arrays := [] }

/-- A resumed band's launch has its turn, and the replies that came meanwhile are delivered. -/
def beforeRetune (band : Nat) (b : Band) (s : State) : State :=
  let s := if (launchOf s b.launch).pipe then setLaunch s b.launch { launchOf s b.launch with favour := none } else s
  let s := (s.services.filter fun r => bandKey r.team == band && r.reply.isSome).foldl (fun s r => deliverReply s r.team (r.reply.getD 0)) s
  gangReady { s with claims := s.claims.filter fun c => c != b.launch } b.launch

def afterResume (band : Nat) (b : Band) (s : State) : State := retune (beforeRetune band b s) b.die

section Resume
variable {s : State} {band : Nat} {b : Band}

theorem resumeBand_stays (is : s.bands.lookup band = some b) (stays : mayResume s band b = false ∨ placesAbove s b.prio = true ∨
    resumesAbove s b.prio = true ∨ resumeLayout s band = none) : resumeBand band s = s := by
  simp only [resumeBand, is]
  by_cases any : (!mayResume s band b || placesAbove s b.prio || resumesAbove s b.prio) = true
  · exact if_pos any
  · rw [if_neg any]
    have noLayout : resumeLayout s band = none := by
      rcases stays with h | h | h | h
      · exact absurd (by rw [h]; rfl) any
      · exact absurd (by rw [h, Bool.or_true]; rfl) any
      · exact absurd (by rw [h, Bool.or_true]) any
      · exact h
    rw [noLayout]

theorem resumeBand_resumes (is : s.bands.lookup band = some b) {groups : List (Nat × Nat × List (Nat × List Nat))} (may : mayResume s band b = true)
    (noPlace : placesAbove s b.prio = false) (noResume : resumesAbove s b.prio = false) (layout : resumeLayout s band = some groups) :
    let moved := setBand (onNewCores s b groups) band (b.resumed groups)
    resumeBand band s = afterResume band b (if b.rests.isNone && !(launchOf s b.launch).gang then letGo moved band else moved) := by
  have same : launchOf (setBand (onNewCores s b groups) band (b.resumed groups)) b.launch = launchOf s b.launch :=
    congrArg (fun m => look ({} : Launch) m b.launch) (onNewCores_moves s b groups).launches
  intro moved
  have pass : (!mayResume s band b || placesAbove s b.prio || resumesAbove s b.prio) = false := by rw [may, noPlace, noResume]; rfl
  rw [← same]
  simp only [resumeBand, is, pass, layout, Bool.false_eq_true, if_false] <;> rfl

theorem deliverReply_bands (s : State) (k : Nat) (v : DWord) : (deliverReply s k v).bands = s.bands := by
  unfold deliverReply
  split
  · rfl
  · split <;> rfl

theorem gangReady_bands (s : State) (id : Nat) : (gangReady s id).bands = s.bands := by
  simp only [gangReady]
  split <;> rfl

theorem beforeRetune_bands (band : Nat) (b : Band) (s : State) : (beforeRetune band b s).bands = s.bands := by
  have replies : ∀ (rs : List Service) (s : State), (rs.foldl (fun s r => deliverReply s r.team (r.reply.getD 0)) s).bands = s.bands := by
    intro rs
    induction rs with
    | nil => exact fun _ => rfl
    | cons r rs ih => exact fun s => (ih _).trans (deliverReply_bands _ _ _)
  have favour : (if (launchOf s b.launch).pipe then setLaunch s b.launch { launchOf s b.launch with favour := none } else s).bands = s.bands := by
    split <;> rfl
  exact (gangReady_bands _ _).trans ((replies _ _).trans favour)

/-- What follows a resumption may let the band go from a wait for a point, and changes nothing else of it. -/
theorem bandOf_afterResume (s : State) (band : Nat) (b : Band) : bandOf (afterResume band b s) band = bandOf s band ∨
    (bandOf s band).run = .slowed ∧ bandOf (afterResume band b s) band = { bandOf s band with run := .going } := by
  have tuned := bandOf_retune (beforeRetune band b s) b.die band
  have same : bandOf (beforeRetune band b s) band = bandOf s band := congrArg (fun m => look ({} : Band) m band) (beforeRetune_bands band b s)
  rw [same] at tuned
  exact tuned

end Resume

/-- How a resumed band stands. -/
theorem resumed_clauses {s : State} {band : Nat} {b : Band} (is : s.bands.lookup band = some b) {groups : List (Nat × Nat × List (Nat × List Nat))}
    (may : mayResume s band b = true) (noPlace : placesAbove s b.prio = false) (noResume : resumesAbove s b.prio = false)
    (layout : resumeLayout s band = some groups) :
    let r := bandOf (resumeBand band s) band
    let gang := (launchOf s b.launch).gang
    r.cores = groups.map (fun g => g.2.1) ∧ r.launch = b.launch ∧ (∀ x, b.rests = some x → x ≠ .slowed → r.run = x) ∧
      (b.rests = none → gang = true → r.run = .gang) ∧
      (b.rests = none → gang = false → (∃ e ∈ bandTeams s band, e.2.stepWanted ≠ none ∧ ∀ x ∈ s.teams, x.1 = e.1 → x = e) → r.run = .stopped) ∧
      (b.rests = none → gang = false → (∀ e ∈ bandTeams s band, e.2.stepWanted = none) → r.run = .going) := by
  intro r gang
  have moves := onNewCores_moves s b groups
  have stands : bandOf (setBand (onNewCores s b groups) band (b.resumed groups)) band = b.resumed groups := by rw [bandOf_setBand, if_pos rfl]
  have run := resumeBand_resumes is may noPlace noResume layout
  dsimp only at run
  -- the band before the point that its die is to run at is looked at
  have fixed : ∀ x : Band, bandOf (if b.rests.isNone && !gang then letGo (setBand (onNewCores s b groups) band (b.resumed groups)) band
      else setBand (onNewCores s b groups) band (b.resumed groups)) band = x → (r = x ∨ x.run = .slowed ∧ r = { x with run := .going }) := fun x same => by
    have after := bandOf_afterResume (if b.rests.isNone && !gang then letGo (setBand (onNewCores s b groups) band (b.resumed groups)) band
      else setBand (onNewCores s b groups) band (b.resumed groups)) band b
    rw [same, ← run] at after
    exact after
  have letsGo := (letGo_clauses (setBand (onNewCores s b groups) band (b.resumed groups)) band).2.1
  rw [stands] at letsGo
  have here : ∀ {x : Nat × Team}, x ∈ s.teams → bandKey x.1 = band → x ∈ bandTeams s band := fun mem is => List.mem_filter.2 ⟨mem, by simpa using is⟩
  refine ⟨?cores, ?launch, fun x rests other => ?rests, fun none yes => ?gang, fun none no some => ?stopped, fun none no all => ?going⟩
  case cores =>
    split at fixed
    · rcases fixed _ letsGo with h | ⟨-, h⟩ <;> rw [h] <;> rfl
    · rcases fixed _ stands with h | ⟨-, h⟩ <;> rw [h] <;> rfl
  case launch =>
    split at fixed
    · rcases fixed _ letsGo with h | ⟨-, h⟩ <;> rw [h] <;> rfl
    · rcases fixed _ stands with h | ⟨-, h⟩ <;> rw [h] <;> rfl
  case rests =>
    rw [rests, if_neg (by simp)] at fixed
    have is : (b.resumed groups).run = x := by rw [Band.resumed, rests]; rfl
    rcases fixed _ stands with h | ⟨slow, -⟩
    · rw [h, is]
    · exact absurd (is.symm.trans slow) other
  case gang =>
    rw [yes, if_neg (by simp)] at fixed
    have is : (b.resumed groups).run = .gang := by rw [Band.resumed, none]; rfl
    rcases fixed _ stands with h | ⟨slow, -⟩
    · rw [h, is]
    · rw [is] at slow; cases slow
  case stopped =>
    rw [none, no, if_pos (by rfl)] at fixed
    obtain ⟨e, listed, wants, unique⟩ := some
    obtain ⟨listed, ofBand⟩ := List.mem_filter.1 listed
    obtain ⟨x, mem, same⟩ := moves.keys e.1 ⟨e, listed, rfl⟩
    have keeps := moves.teams (fun k t => k = e.1 → t.stepWanted = e.2.stepWanted) (fun _ _ _ _ h is => h is)
      (fun y mem is => by rw [unique y mem is]) x mem same
    have asks : ∃ e ∈ bandTeams (setBand (onNewCores s b groups) band (b.resumed groups)) band, e.2.stepWanted ≠ Option.none :=
      ⟨x, List.mem_filter.2 ⟨mem, by rw [same]; exact ofBand⟩, by rw [keeps]; exact wants⟩
    rw [if_pos asks] at letsGo
    rcases fixed _ letsGo with h | ⟨slow, -⟩
    · rw [h]
    · cases slow
  case going =>
    rw [none, no, if_pos (by rfl)] at fixed
    have keeps := moves.teams (fun k t => bandKey k = band → t.stepWanted = Option.none) (fun _ _ _ _ h is => h is)
      (fun y mem is => all y (here mem is))
    have asks : ¬ ∃ e ∈ bandTeams (setBand (onNewCores s b groups) band (b.resumed groups)) band, e.2.stepWanted ≠ Option.none := by
      rintro ⟨x, mem, wants⟩
      obtain ⟨mem, ofBand⟩ := List.mem_filter.1 mem
      exact wants (keeps x mem (by simpa using ofBand))
    rw [if_neg asks] at letsGo
    rcases fixed _ letsGo with h | ⟨slow, -⟩
    · rw [h]
    · cases slow

theorem mayResume_alarm {s : State} (alarm : s.alarm ≠ none) (band : Nat) (b : Band) : mayResume s band b = false := by
  have raised : s.alarm.isNone = false := Option.isNone_eq_false_iff.2 (Option.isSome_iff_ne_none.2 alarm)
  simp only [mayResume, raised, Bool.false_and]

theorem canPlace_alarm {s : State} (alarm : s.alarm ≠ none) (id : Nat) (l : Launch) : canPlace s id l = none := by
  have raised : s.alarm.isSome = true := Option.isSome_iff_ne_none.2 alarm
  simp only [canPlace, raised, Bool.true_or, if_true]

/-! ### The ends of launches (R260, R325), and PTRIG (R205) -/

theorem follow_calm (s : State) (after : Option Walking) : Calm s (follow s after) := ⟨rfl, rfl, rfl, rfl⟩

theorem ite_calm {s a b : State} (c : Prop) [Decidable c] (yes : Calm s a) (no : Calm s b) : Calm s (if c then a else b) := by
  split <;> assumption

theorem stampAt_calm (s : State) (p : Point) (core : Nat) (pl : Place) (seq : DWord) (err : Bool) (tenant launch : Nat) (after : Option Walking) :
    Calm s (stampAt s p core pl seq err tenant launch after) := by
  unfold stampAt
  cases pl with
  | pad c o =>
    dsimp only
    generalize joinData (padDatum s c o) (padDatum s c (o + 4)) = r
    have read := (tendPad_calm s c o).trans (tendPad_calm _ c (o + 4))
    exact (ite_calm _ read (read.trans ((writePad_calm _ _ _ _).trans (writePad_calm _ _ _ _)))).trans (follow_calm _ after)
  | mem pa key _ =>
    have purged := (purgeL2_calm s pa 0).trans (purgeL2_calm _ (pa + 4) 0)
    dsimp only
    split
    · exact purged.trans (holdWrite_calm _ _)
    · split
      · exact purged.trans (holdBlock_calm _ _)
      · have lo := pointRead_calm s p core pa key 0 tenant
        have hi := lo.trans (pointRead_calm (pointRead s p core pa key 0 tenant).1 p core (pa + 4) key 0 tenant)
        exact (ite_calm _ hi (hi.trans ((pointWrite_calm _ _ _ _ _ _ _ _ _).trans (pointWrite_calm _ _ _ _ _ _ _ _ _)))).trans (follow_calm _ after)

theorem launchStamp_calm (s : State) (l : Nat) (err : Bool) : Calm s (launchStamp s l err) := by
  simp only [launchStamp, stampOwed]
  split
  · exact stampAt_calm _ _ _ _ _ _ _ _ _
  · exact noteMiss_calm _ _ _ _
  · exact ⟨rfl, rfl, rfl, rfl⟩

theorem refuseLaunch_ended (s : State) (id : Nat) : (launchOf (refuseLaunch s id) id).ended = true ∧ (refuseLaunch s id).bands = s.bands := by
  obtain ⟨-, bands, -, launches⟩ := launchStamp_calm (setLaunch s id { launchOf s id with ended := true }) id true
  refine ⟨?_, bands⟩
  have same : launchOf (refuseLaunch s id) id = launchOf (setLaunch s id { launchOf s id with ended := true }) id :=
    congrArg (fun m => look ({} : Launch) m id) launches
  rw [same]
  show (look {} (setAt s.launches id _) id : Launch).ended = true
  rw [look_setAt, if_pos rfl]

theorem dropBands_bands (s : State) (p : Nat → Band → Bool) : ∀ e ∈ (dropBands s p).bands, p e.1 e.2 = false := by
  have teams : ∀ (ks : List Nat) (s : State), (ks.foldl dropTeam s).bands = s.bands := by
    intro ks
    induction ks with
    | nil => exact fun _ => rfl
    | cons k ks ih => exact fun s => ih _
  have crews : ∀ (ks : List Nat) (s : State), (ks.foldl dropCrew s).bands = s.bands := by
    intro ks
    induction ks with
    | nil => exact fun _ => rfl
    | cons k ks ih => exact fun s => ih _
  intro e mem
  obtain ⟨mem, kept⟩ := List.mem_filter.1 mem
  rw [crews, teams] at mem
  by_contra yes
  have listed : e.1 ∈ (s.bands.filter fun e => p e.1 e.2).map fun e => e.1 :=
    List.mem_map_of_mem (List.mem_filter.2 ⟨mem, by simpa using yes⟩)
  simp only [Bool.not_eq_true', List.contains_eq_mem, decide_eq_false_iff_not] at kept
  exact kept listed

theorem launchEndFromOutside_ends {s : State} {launch : Nat} {l : Launch} (is : s.launches.lookup launch = some l) (going : l.ended = false) :
    ∃ s', exec (.launchEndFromOutside launch) s = .next s' ∧ (launchOf s' launch).ended = true ∧ ∀ e ∈ s'.bands, e.2.launch ≠ launch := by
  refine ⟨refuseLaunch (dropBands s fun _ b => b.launch == launch) launch, ?_, (refuseLaunch_ended _ launch).1, fun e mem same => ?_⟩
  · simp only [exec_launchEndFromOutside, execLaunchEndFromOutside, is, going, Bool.false_eq_true, if_false]
  · rw [(refuseLaunch_ended _ launch).2] at mem
    have out := dropBands_bands s (fun _ b => b.launch == launch) e mem
    rw [same, beq_self_eq_true] at out
    cases out

/-- PTRIG disarms: its EN bit is cleared. -/
theorem ptrig_disarmed (x : DWord) (armed : bit x.toNat 63 = true) : BitVec.ofNat 64 (x.toNat - 2 ^ 63) = x &&& 0x7FFFFFFFFFFFFFFF := by
  have low : (0x7FFFFFFFFFFFFFFF : DWord).toNat = 2 ^ 63 - 1 := by simp
  rw [bit, Nat.testBit_eq_decide_div_mod_eq, decide_eq_true_eq] at armed
  apply BitVec.eq_of_toNat_eq
  rw [BitVec.toNat_ofNat, BitVec.toNat_and, low, Nat.and_two_pow_sub_one_eq_mod]
  omega

theorem ptrigFire_clauses {s : State} {band : Nat} {b : Band} (is : s.bands.lookup band = some b) :
    let v := b.ptrig.toNat
    let named := 16 * (16 * band + bits v 36 4) + bits v 32 4
    (s.teams.lookup named = none → exec (.ptrigFire band) s = .next s) ∧
    ∀ t, s.teams.lookup named = some t → let fires := bit v 63 = true ∧ bits v 0 32 ≤ t.count ∧ b.run = .going
      (¬ fires → exec (.ptrigFire band) s = .next s) ∧
      (fires → exec (.ptrigFire band) s = .next (beginPreempt (setBand (setTeam s named { t with dbgst := 7 }) band
        { b with ptrig := b.ptrig &&& 0x7FFFFFFFFFFFFFFF }) band 1)) := by
  intro v named
  refine ⟨fun none => ?_, fun t holds => ?_⟩
  · simp only [exec_ptrigFire, execPtrigFire, is, v, named] at none ⊢
    simp only [none]
  have body : exec (.ptrigFire band) s = if bit v 63 && decide (t.count ≥ bits v 0 32) && b.run == .going then
      .next (beginPreempt (setBand (setTeam s named { t with dbgst := 7 }) band { b with ptrig := BitVec.ofNat 64 (v - 2 ^ 63) }) band 1)
      else .next s := by
    simp only [named, v] at holds
    simp only [exec_ptrigFire, execPtrigFire, is, holds, named, v]
  have fires_iff : (bit v 63 && decide (t.count ≥ bits v 0 32) && b.run == .going) = true ↔ (bit v 63 = true ∧ bits v 0 32 ≤ t.count ∧ b.run = .going) := by
    simp [and_assoc]
  refine ⟨fun no => body.trans (if_neg fun yes => no (fires_iff.1 yes)), fun yes => body.trans ((if_pos (fires_iff.2 yes)).trans ?_)⟩
  rw [ptrig_disarmed b.ptrig yes.1]

/-- Settles O49. -/
theorem schedulingEventsComplete : Obligations.SchedulingEventsComplete := by
  refine ⟨fun s l stage inst core quarter crew team _ => newTeam_begins s l stage inst core quarter crew team, fun s die queue => ⟨rfl, readHead_none,
      fun id l head => ⟨readHead_read head, readHead_spans head, readHead_kernel head, readHead_stages head⟩⟩,
    fun s id => rfl, fun s die => ⟨fun none => ?noBand, fun p q turn serves => ⟨fun above => ?above, fun first => ?places⟩⟩,
    fun s die queue => ⟨quantumExpiry_none, fun id l head since is waits => ?quantum⟩,
    fun s launch => ⟨fun none => ?ready, fun tick some => ⟨fun early => ?early, fun now => ?starts⟩⟩, letGo_clauses, fun t => rfl,
    fun s launch l is => ?balancer, fun s die => ⟨fun settled => ?settled, operatingPointStable_settles⟩, fun s launch => ?boundary,
    fun s band => ⟨fun none => ?noPreEmption, fun b is => ?preEmption⟩, fun s band => ⟨rfl, fun none => ?noResumption, fun b is =>
      ⟨resumeBand_stays is, fun groups may noPlace noResume layout => resumed_clauses is may noPlace noResume layout⟩⟩,
    fun s band b alarm => mayResume_alarm alarm band b, fun s id l alarm => canPlace_alarm alarm id l,
    fun s launch => ⟨fun none => ?noLaunch, fun l is => ⟨fun ended => ?ended, launchEndFromOutside_ends is⟩⟩,
    fun s band => ⟨fun none => ?noTrigger, fun b is => ptrigFire_clauses is⟩⟩
  case noBand => simp only [exec_bandPlacement, execBandPlacement, none]
  case above => simp only [exec_bandPlacement, execBandPlacement, serves, above, if_true]
  case places =>
    obtain ⟨id, l, g, d, y, head, place⟩ := served serves
    exact ⟨id, l, g, d, y, head, place, bandPlacement_places serves first head place⟩
  case quantum =>
    refine ⟨quantumExpiry_early is waits, fun due => ⟨fun x fits => ?_, fun none => ?_⟩, fun due => ?_, fun due unfit v b one tenant allowed lower running => ?_⟩
    · rw [quantumExpiry_due is waits due, quantumDone_fits fits]
    · rw [quantumExpiry_due is waits due, quantumDone_every none]
    · obtain ⟨teams, runs⟩ := quantumDone_onlyStops s id l
      exact ⟨_, quantumExpiry_due is waits due, teams, runs⟩
    · rw [quantumExpiry_due is waits due, quantumDone_one unfit one tenant allowed lower running]
  case ready => simp only [exec_gangStart, execGangStart, none]
  case early => simp only [exec_gangStart, execGangStart, some, early, if_true]
  case starts => simp only [exec_gangStart, execGangStart, some, Nat.not_lt.2 now, if_false, Bool.decide_and, beq_eq_decide]
  case balancer =>
    refine ⟨rfl, fun none => balance_none (by rw [is]; exact none), fun s1 s2 d0 d1 g0 g1 b pipe read going stages fill0 fill1 above last drains low room
      fresh fills unstarted => balance_moves is pipe read going stages fill0 fill1 above last drains low room fresh fills unstarted⟩
  case settled => simp only [exec_operatingPointStable, execOperatingPointStable, settled, Bool.not_false, if_true]
  case boundary =>
    obtain ⟨none, ends, waits⟩ := kernelBoundary_clauses s launch
    exact ⟨none, ends, waits, fun c => l1Of_dropL1s _ c⟩
  case noPreEmption => simp only [exec_preEmption, execPreEmption, none]
  case preEmption =>
    refine ⟨preEmption_holds is, fun drains stops waits => ?_, settleMills_none, fun drains stops settled => ?_,
      fun drains halts => preEmption_stands is drains (.inl ⟨halts, rfl⟩), fun drains breaks => preEmption_stands is drains (.inr ⟨breaks, rfl⟩)⟩
    · rw [preEmption_saves is drains stops, saveBand, waits]
      rfl
    · refine ⟨saveSettled (settleMills s band).1 band, ?_, saveSettled_saved _ band⟩
      rw [preEmption_saves is drains stops, saveBand, settled]
      rfl
  case noResumption => simp only [resumeBand, none]
  case noLaunch => simp only [exec_launchEndFromOutside, execLaunchEndFromOutside, none]
  case ended => simp only [exec_launchEndFromOutside, execLaunchEndFromOutside, is, ended, if_true]
  case noTrigger => simp only [exec_ptrigFire, execPtrigFire, none]

end Sys2Proof.Machine
end

section
/-! SUPPORT. No turn stops the machine (O59): every event answers a next state in any state, and every instruction does where a team has the turn. -/

namespace Sys2Proof.Machine

/-- The machine answers a next state. -/
abbrev Goes (o : Out) : Prop := ∃ s', o = .next s'

theorem ite_goes {c : Prop} [Decidable c] {a b : Out} (yes : Goes a) (no : Goes b) : Goes (if c then a else b) := by
  split <;> assumption

/-! ### Events -/

theorem execMergeTimeout_goes : ∀ core idx s, Goes (execMergeTimeout core idx s) := fun _ _ _ => ⟨_, rfl⟩

theorem execBackgroundScrub_goes : ∀ stack s, Goes (execBackgroundScrub stack s) := fun _ _ => ⟨_, rfl⟩

theorem execSliceCountClear_goes : ∀ stack s, Goes (execSliceCountClear stack s) := fun _ _ => ⟨_, rfl⟩

theorem execSenderRepairTimeout_goes : ∀ die idx s, Goes (execSenderRepairTimeout die idx s) := fun _ _ _ => ⟨_, rfl⟩

theorem execTimebaseCorrection_goes : ∀ offset s, Goes (execTimebaseCorrection offset s) := fun _ _ => ⟨_, rfl⟩

theorem execMasterLinkTimeout_goes : ∀ s, Goes (execMasterLinkTimeout s) := fun _ => ⟨_, rfl⟩

theorem execAtsInvalidation_goes : ∀ tenant base kind s, Goes (execAtsInvalidation tenant base kind s) := fun _ _ _ _ => ⟨_, rfl⟩

theorem execLaunchHead_goes : ∀ die queue s, Goes (execLaunchHead die queue s) := fun _ _ _ => ⟨_, rfl⟩

theorem execStageBalancer_goes : ∀ launch s, Goes (execStageBalancer launch s) := fun _ _ => ⟨_, rfl⟩

theorem execResumption_goes : ∀ band s, Goes (execResumption band s) := fun _ _ => ⟨_, rfl⟩

theorem execTrapEntry_goes : ∀ team s, Goes (execTrapEntry team s) := fun _ _ => ⟨_, rfl⟩

theorem execRegionRestart_goes : ∀ team s, Goes (execRegionRestart team s) := fun _ _ => ⟨_, rfl⟩

theorem execCopyPacketStart_goes : ∀ die queue s, Goes (execCopyPacketStart die queue s) := fun _ _ _ => ⟨_, rfl⟩

theorem execCopyRead_goes : ∀ idx s, Goes (execCopyRead idx s) := fun _ _ => ⟨_, rfl⟩

theorem execCopyComplete_goes : ∀ idx dest s, Goes (execCopyComplete idx dest s) := fun _ _ _ => ⟨_, rfl⟩

theorem execCollectiveMatch_goes : ∀ idx s, Goes (execCollectiveMatch idx s) := fun _ _ => ⟨_, rfl⟩

theorem execCollectiveComplete_goes : ∀ idx part s, Goes (execCollectiveComplete idx part s) := fun _ _ _ => ⟨_, rfl⟩

theorem execNodeComplete_goes : ∀ idx s, Goes (execNodeComplete idx s) := fun _ _ => ⟨_, rfl⟩

theorem execDebugStep_goes : ∀ team s, Goes (execDebugStep team s) := fun _ _ => ⟨_, rfl⟩

theorem execStepLane_goes : ∀ team lane s, Goes (execStepLane team lane s) := fun _ _ _ => ⟨_, rfl⟩

theorem execPowerLimitStep_goes : ∀ above s, Goes (execPowerLimitStep above s) := fun _ _ => ⟨_, rfl⟩

theorem execCurrentLimit_goes : ∀ die s, Goes (execCurrentLimit die s) := fun _ _ => ⟨_, rfl⟩

theorem execCurrentRestore_goes : ∀ die s, Goes (execCurrentRestore die s) := fun _ _ => ⟨_, rfl⟩

theorem execThermalShutdown_goes : ∀ s, Goes (execThermalShutdown s) := fun _ => ⟨_, rfl⟩

theorem execModuleReset_goes : ∀ s, Goes (execModuleReset s) := fun _ => ⟨_, rfl⟩

theorem execFirmwareUpdate_goes : ∀ image s, Goes (execFirmwareUpdate image s) := fun _ _ => ⟨_, rfl⟩

theorem execStepAbort_goes : ∀ team s, Goes (execStepAbort team s) := fun _ _ => ⟨_, rfl⟩

theorem execRequestCollectorAdmission_goes : ∀ core s, Goes (execRequestCollectorAdmission core s) := by
  intros
  unfold execRequestCollectorAdmission
  dsimp only
  repeat' split
  all_goals exact ⟨_, rfl⟩

theorem execL2SliceRequest_goes : ∀ idx s, Goes (execL2SliceRequest idx s) := by
  intros
  unfold execL2SliceRequest
  dsimp only
  repeat' split
  all_goals exact ⟨_, rfl⟩

theorem execHomeRequest_goes : ∀ idx s, Goes (execHomeRequest idx s) := by
  intros
  unfold execHomeRequest
  dsimp only
  repeat' split
  all_goals exact ⟨_, rfl⟩

theorem execBurstRead_goes : ∀ idx crcBad flips s, Goes (execBurstRead idx crcBad flips s) := by
  intros
  unfold execBurstRead
  dsimp only
  repeat' split
  all_goals exact ⟨_, rfl⟩

theorem execWriteReplay_goes : ∀ pa bad s, Goes (execWriteReplay pa bad s) := by
  intros
  unfold execWriteReplay
  dsimp only
  repeat' split
  all_goals exact ⟨_, rfl⟩

theorem execRetrain_goes : ∀ idx ok s, Goes (execRetrain idx ok s) := by
  intros
  unfold execRetrain
  dsimp only
  repeat' split
  all_goals exact ⟨_, rfl⟩

theorem execBlockProcedure_goes : ∀ idx s, Goes (execBlockProcedure idx s) := by
  intros
  unfold execBlockProcedure
  dsimp only
  repeat' split
  all_goals exact ⟨_, rfl⟩

theorem execBackInvalidateResponse_goes : ∀ idx words s, Goes (execBackInvalidateResponse idx words s) := by
  intros
  unfold execBackInvalidateResponse
  dsimp only
  repeat' split
  all_goals exact ⟨_, rfl⟩

theorem execFill_goes : ∀ idx s, Goes (execFill idx s) := by
  intros
  unfold execFill
  dsimp only
  repeat' split
  all_goals exact ⟨_, rfl⟩

theorem execPublication_goes : ∀ idx s, Goes (execPublication idx s) := by
  intros
  unfold execPublication
  dsimp only
  repeat' split
  all_goals exact ⟨_, rfl⟩

theorem execSpareIn_goes : ∀ stack pc slice s, Goes (execSpareIn stack pc slice s) := by
  intros
  unfold execSpareIn
  dsimp only
  repeat' split
  all_goals exact ⟨_, rfl⟩

theorem execSpareInComplete_goes : ∀ stack pc s, Goes (execSpareInComplete stack pc s) := by
  intros
  unfold execSpareInComplete
  dsimp only
  repeat' split
  all_goals exact ⟨_, rfl⟩

theorem execHotRemoveAcknowledge_goes : ∀ stack pc bankSet s, Goes (execHotRemoveAcknowledge stack pc bankSet s) := by
  intros
  unfold execHotRemoveAcknowledge
  dsimp only
  repeat' split
  all_goals exact ⟨_, rfl⟩

theorem execDeepRetention_goes : ∀ stack s, Goes (execDeepRetention stack s) := by
  intros
  unfold execDeepRetention
  repeat' split
  all_goals exact ⟨_, rfl⟩

theorem execHotAdd_goes : ∀ stack s, Goes (execHotAdd stack s) := by
  intros
  unfold execHotAdd
  dsimp only
  repeat' split
  all_goals exact ⟨_, rfl⟩

theorem execPageWalk_goes : ∀ core va s, Goes (execPageWalk core va s) := by
  intros
  unfold execPageWalk
  dsimp only
  repeat' split
  all_goals exact ⟨_, rfl⟩

theorem execMessageSend_goes : ∀ die idx s, Goes (execMessageSend die idx s) := by
  intros
  unfold execMessageSend
  dsimp only
  repeat' split
  all_goals exact ⟨_, rfl⟩

theorem execFragmentReceive_goes : ∀ idx arrival s, Goes (execFragmentReceive idx arrival s) := by
  intros
  unfold execFragmentReceive
  dsimp only
  repeat' split
  all_goals exact ⟨_, rfl⟩

theorem execAcknowledgement_goes : ∀ idx s, Goes (execAcknowledgement idx s) := by
  intros
  unfold execAcknowledgement
  repeat' split
  all_goals exact ⟨_, rfl⟩

theorem execReceiverRepairTimeout_goes : ∀ die idx s, Goes (execReceiverRepairTimeout die idx s) := by
  intros
  unfold execReceiverRepairTimeout
  repeat' split
  all_goals exact ⟨_, rfl⟩

theorem execRepairRequest_goes : ∀ idx s, Goes (execRepairRequest idx s) := by
  intros
  unfold execRepairRequest
  repeat' split
  all_goals exact ⟨_, rfl⟩

theorem execMessageLoss_goes : ∀ die idx s, Goes (execMessageLoss die idx s) := by
  intros
  unfold execMessageLoss
  dsimp only
  repeat' split
  all_goals exact ⟨_, rfl⟩

theorem execLossNotice_goes : ∀ idx s, Goes (execLossNotice idx s) := by
  intros
  unfold execLossNotice
  dsimp only
  repeat' split
  all_goals exact ⟨_, rfl⟩

theorem execPoisonNotice_goes : ∀ idx s, Goes (execPoisonNotice idx s) := by
  intros
  unfold execPoisonNotice
  repeat' split
  all_goals exact ⟨_, rfl⟩

theorem execDelayedFragment_goes : ∀ idx s, Goes (execDelayedFragment idx s) := by
  intros
  unfold execDelayedFragment
  dsimp only
  repeat' split
  all_goals exact ⟨_, rfl⟩

theorem execLinkRemoval_goes : ∀ die port s, Goes (execLinkRemoval die port s) := by
  intros
  unfold execLinkRemoval
  dsimp only
  repeat' split
  all_goals exact ⟨_, rfl⟩

theorem execHostReadShared_goes : ∀ pa s, Goes (execHostReadShared pa s) := by
  intros
  unfold execHostReadShared
  dsimp only
  repeat' split
  all_goals exact ⟨_, rfl⟩

theorem execHostReadOwned_goes : ∀ pa s, Goes (execHostReadOwned pa s) := by
  intros
  unfold execHostReadOwned
  dsimp only
  repeat' split
  all_goals exact ⟨_, rfl⟩

theorem execHostWriteback_goes : ∀ pa words keep s, Goes (execHostWriteback pa words keep s) := by
  intros
  unfold execHostWriteback
  dsimp only
  repeat' split
  all_goals exact ⟨_, rfl⟩

theorem execHostSnoopData_goes : ∀ pa s, Goes (execHostSnoopData pa s) := by
  intros
  unfold execHostSnoopData
  dsimp only
  repeat' split
  all_goals exact ⟨_, rfl⟩

theorem execHostSnoopInvalidate_goes : ∀ pa s, Goes (execHostSnoopInvalidate pa s) := by
  intros
  unfold execHostSnoopInvalidate
  dsimp only
  repeat' split
  all_goals exact ⟨_, rfl⟩

theorem execHostReadGrant_goes : ∀ idx owned words s, Goes (execHostReadGrant idx owned words s) := by
  intros
  unfold execHostReadGrant
  dsimp only
  repeat' split
  all_goals exact ⟨_, rfl⟩

theorem execAtsCompletion_goes : ∀ idx present frame kind s, Goes (execAtsCompletion idx present frame kind s) := by
  intros
  unfold execAtsCompletion
  dsimp only
  repeat' split
  all_goals exact ⟨_, rfl⟩

theorem execPageRequestResponse_goes : ∀ idx granted s, Goes (execPageRequestResponse idx granted s) := by
  intros
  unfold execPageRequestResponse
  dsimp only
  repeat' split
  all_goals exact ⟨_, rfl⟩

theorem execServiceReply_goes : ∀ idx value s, Goes (execServiceReply idx value s) := by
  intros
  unfold execServiceReply
  repeat' split
  all_goals exact ⟨_, rfl⟩

theorem execExtentRelease_goes : ∀ idx s, Goes (execExtentRelease idx s) := by
  intros
  unfold execExtentRelease
  dsimp only
  repeat' split
  all_goals exact ⟨_, rfl⟩

theorem execSurpriseRemoval_goes : ∀ idx s, Goes (execSurpriseRemoval idx s) := by
  intros
  unfold execSurpriseRemoval
  dsimp only
  repeat' split
  all_goals exact ⟨_, rfl⟩

theorem execBandPlacement_goes : ∀ die s, Goes (execBandPlacement die s) := by
  intros
  unfold execBandPlacement
  dsimp only
  repeat' split
  all_goals exact ⟨_, rfl⟩

theorem execQuantumExpiry_goes : ∀ die queue s, Goes (execQuantumExpiry die queue s) := by
  intros
  unfold execQuantumExpiry
  dsimp only
  repeat' split
  all_goals exact ⟨_, rfl⟩

theorem execGangStart_goes : ∀ launch s, Goes (execGangStart launch s) := by
  intros
  unfold execGangStart
  repeat' split
  all_goals exact ⟨_, rfl⟩

theorem execOperatingPointStable_goes : ∀ die s, Goes (execOperatingPointStable die s) := by
  intros
  unfold execOperatingPointStable
  dsimp only
  repeat' split
  all_goals exact ⟨_, rfl⟩

theorem execKernelBoundary_goes : ∀ launch s, Goes (execKernelBoundary launch s) := by
  intros
  unfold execKernelBoundary
  dsimp only
  repeat' split
  all_goals exact ⟨_, rfl⟩

theorem execPreEmption_goes : ∀ band s, Goes (execPreEmption band s) := by
  intros
  unfold execPreEmption
  repeat' split
  all_goals exact ⟨_, rfl⟩

theorem execMwaitSatisfied_goes : ∀ team s, Goes (execMwaitSatisfied team s) := by
  intros
  unfold execMwaitSatisfied
  dsimp only
  repeat' split
  all_goals exact ⟨_, rfl⟩

theorem execMwto_goes : ∀ team s, Goes (execMwto team s) := by
  intros
  unfold execMwto
  repeat' split
  all_goals exact ⟨_, rfl⟩

theorem execBarrierWaitEnd_goes : ∀ team s, Goes (execBarrierWaitEnd team s) := by
  intros
  unfold execBarrierWaitEnd
  repeat' split
  all_goals exact ⟨_, rfl⟩

theorem execMmaCommand_goes : ∀ core s, Goes (execMmaCommand core s) := by
  intros
  unfold execMmaCommand
  dsimp only
  repeat' split
  all_goals exact ⟨_, rfl⟩

theorem execAczCommand_goes : ∀ core s, Goes (execAczCommand core s) := by
  intros
  unfold execAczCommand
  dsimp only
  repeat' split
  all_goals exact ⟨_, rfl⟩

theorem execAcstCommand_goes : ∀ core s, Goes (execAcstCommand core s) := by
  intros
  unfold execAcstCommand
  dsimp only
  repeat' split
  all_goals exact ⟨_, rfl⟩

theorem execMlfillComplete_goes : ∀ team s, Goes (execMlfillComplete team s) := by
  intros
  unfold execMlfillComplete
  dsimp only
  repeat' split
  all_goals exact ⟨_, rfl⟩

theorem execMergeWindowClose_goes : ∀ die idx s, Goes (execMergeWindowClose die idx s) := by
  intros
  unfold execMergeWindowClose
  repeat' split
  all_goals exact ⟨_, rfl⟩

theorem execPtrigFire_goes : ∀ band s, Goes (execPtrigFire band s) := by
  intros
  unfold execPtrigFire
  dsimp only
  repeat' split
  all_goals exact ⟨_, rfl⟩

theorem execSecurityAlarm_goes : ∀ source s, Goes (execSecurityAlarm source s) := by
  intros
  unfold execSecurityAlarm
  dsimp only
  repeat' split
  all_goals exact ⟨_, rfl⟩

theorem execThermalLimit_goes : ∀ die s, Goes (execThermalLimit die s) := by
  intros
  unfold execThermalLimit
  repeat' split
  all_goals exact ⟨_, rfl⟩

theorem execFunctionReady_goes : ∀ bitNo passed s, Goes (execFunctionReady bitNo passed s) := by
  intros
  unfold execFunctionReady
  dsimp only
  repeat' split
  all_goals exact ⟨_, rfl⟩

theorem execDebuggerAttach_goes : ∀ band s, Goes (execDebuggerAttach band s) := by
  intros
  unfold execDebuggerAttach
  dsimp only
  repeat' split
  all_goals exact ⟨_, rfl⟩

theorem execBandResume_goes : ∀ band s, Goes (execBandResume band s) := by
  intros
  unfold execBandResume
  repeat' split
  all_goals exact ⟨_, rfl⟩

theorem execProducerCompletion_goes : ∀ team s, Goes (execProducerCompletion team s) := by
  intros
  unfold execProducerCompletion
  repeat' split
  all_goals exact ⟨_, rfl⟩

theorem execLaunchEndFromOutside_goes : ∀ launch s, Goes (execLaunchEndFromOutside launch s) := by
  intros
  unfold execLaunchEndFromOutside
  repeat' split
  all_goals exact ⟨_, rfl⟩

theorem execExtentAdd_goes : ∀ port range s, Goes (execExtentAdd port range s) := by
  intros
  unfold execExtentAdd
  dsimp only
  repeat' split
  all_goals exact ⟨_, rfl⟩

theorem execTableLoadComplete_goes : ∀ core s, Goes (execTableLoadComplete core s) := by
  intro core s
  unfold execTableLoadComplete
  generalize List.range 1028 = indices
  generalize span _ 1028 = words
  generalize 1028 = count
  extract_lets c
  split
  · exact ⟨_, rfl⟩
  · generalize (List.foldl _ (s, true) indices : State × Bool) = ready
    obtain ⟨s₁, ok⟩ := ready
    exact ite_goes ⟨_, rfl⟩ ⟨_, rfl⟩

theorem managed_goes (s : State) (f : State → State) : Goes (managed s f) := by
  unfold managed
  repeat' split
  all_goals exact ⟨_, rfl⟩

theorem execAttestationReport_goes : ∀ tenant nonce s, Goes (execAttestationReport tenant nonce s) := fun _ _ _ => managed_goes _ _
theorem execCounterRead_goes : ∀ unit s, Goes (execCounterRead unit s) := fun _ _ => managed_goes _ _
theorem execCounterClear_goes : ∀ unit s, Goes (execCounterClear unit s) := fun _ _ => managed_goes _ _
theorem execRasLogRead_goes : ∀ s, Goes (execRasLogRead s) := fun _ => managed_goes _ _
theorem execErrorRecordRead_goes : ∀ launch s, Goes (execErrorRecordRead launch s) := fun _ _ => managed_goes _ _
theorem execTenantCreate_goes : ∀ root s, Goes (execTenantCreate root s) := fun _ _ => managed_goes _ _
theorem execTenantDestroy_goes : ∀ tenant s, Goes (execTenantDestroy tenant s) := fun _ _ => managed_goes _ _
theorem execFattrWrite_goes : ∀ frame value s, Goes (execFattrWrite frame value s) := fun _ _ _ => managed_goes _ _
theorem execFormatWindowEnable_goes : ∀ n s, Goes (execFormatWindowEnable n s) := fun _ _ => managed_goes _ _
theorem execFormatWindowDisable_goes : ∀ n s, Goes (execFormatWindowDisable n s) := fun _ _ => managed_goes _ _
theorem execManagementRegisterWrite_goes : ∀ reg value s, Goes (execManagementRegisterWrite reg value s) := fun _ _ _ => managed_goes _ _

/-! ### Instructions -/

/-- An instruction or an event goes on where a team has the turn. -/
theorem exec_goes {s : State} {k : Nat} {t : Team} (h : Runs s k t) (i : Instr) : Goes (exec i s) := by
  cases i with
  | add | sub | mul | mulh | div | rem | min | max | abs | neg | and | or | xor | not | shl | shr | sra | bfx | bfi | popc | clz | ctz | brev | cmp |
  sel | cvt | pack | unpk | mov | movs | lid | rcp | rsq | sqrt | exp2 | log2 | sinr | cosr | tanh | tbev | shfi | shfd | shfx | vany | vall | vbal |
  tred | tscan | segred | tix | mad | msb | nmad | dot | addi | muli | andi | ori | xori | shli | shri | srai | cmpi | ldBase | ldVectorOffset |
  stBase | stVectorOffset | sld | sst | wgath | wscat | aadd | amin | amax | aand | aor | axor | axch | acas | ared | fence | phase | pf | cwb | cinv
  | mwait | br | bru | brany | brall | jmp | call | nop | exit | trap | brk | rti | yield | callr | callv | ret | cut | stkrd | stkwr | rgnx | sadd |
  ssub | smul | sdiv | sand | sor | sxor | sshl | sshr | ssra | smin | smax | saddi | rdl | wrl | bar | barar | barwt | barini | barexp | bbar |
  fwaitVector | fwaitScalar | fwaitAll | tbld | tbsw | shpld | rbal | mlopen | mlfill | mlsave | mlrest | mlstat | mlclose | cpl | cpt | cpm | cpr |
  coll | tgl | lnch | qpop | qapp | tld | tst | tzero | mma | acz | acrd | acwr | acst | acver | acverWait | movc | mvfc | sys | tlbi | rdtm | halt |
  frrd | lkill | ctxsv | ctxld | mode | sli | slih | slix | joinat | rgn | li | avWrite | tsWrite | spinj | crate | ptrig | breakpointWrite |
  unassignedOpcode | instructionFetchFault =>
    exact withTeam_next h _
  | scmp x y c z =>
    rw [exec_scmp, execScmp]
    split <;> exact withTeam_next h _
  | attestationReport tenant nonce => exact execAttestationReport_goes tenant nonce s
  | counterRead unit => exact execCounterRead_goes unit s
  | counterClear unit => exact execCounterClear_goes unit s
  | rasLogRead => exact execRasLogRead_goes s
  | errorRecordRead launch => exact execErrorRecordRead_goes launch s
  | tenantCreate root => exact execTenantCreate_goes root s
  | tenantDestroy tenant => exact execTenantDestroy_goes tenant s
  | fattrWrite frame value => exact execFattrWrite_goes frame value s
  | formatWindowEnable n => exact execFormatWindowEnable_goes n s
  | formatWindowDisable n => exact execFormatWindowDisable_goes n s
  | managementRegisterWrite reg value => exact execManagementRegisterWrite_goes reg value s
  | mergeTimeout core idx => exact execMergeTimeout_goes core idx s
  | backgroundScrub stack => exact execBackgroundScrub_goes stack s
  | sliceCountClear stack => exact execSliceCountClear_goes stack s
  | senderRepairTimeout die idx => exact execSenderRepairTimeout_goes die idx s
  | timebaseCorrection offset => exact execTimebaseCorrection_goes offset s
  | masterLinkTimeout => exact execMasterLinkTimeout_goes s
  | atsInvalidation tenant base kind => exact execAtsInvalidation_goes tenant base kind s
  | launchHead die queue => exact execLaunchHead_goes die queue s
  | stageBalancer launch => exact execStageBalancer_goes launch s
  | resumption band => exact execResumption_goes band s
  | trapEntry team => exact execTrapEntry_goes team s
  | regionRestart team => exact execRegionRestart_goes team s
  | copyPacketStart die queue => exact execCopyPacketStart_goes die queue s
  | copyRead idx => exact execCopyRead_goes idx s
  | copyComplete idx dest => exact execCopyComplete_goes idx dest s
  | collectiveMatch idx => exact execCollectiveMatch_goes idx s
  | collectiveComplete idx part => exact execCollectiveComplete_goes idx part s
  | nodeComplete idx => exact execNodeComplete_goes idx s
  | debugStep team => exact execDebugStep_goes team s
  | stepLane team lane => exact execStepLane_goes team lane s
  | powerLimitStep above => exact execPowerLimitStep_goes above s
  | currentLimit die => exact execCurrentLimit_goes die s
  | currentRestore die => exact execCurrentRestore_goes die s
  | thermalShutdown => exact execThermalShutdown_goes s
  | moduleReset => exact execModuleReset_goes s
  | firmwareUpdate image => exact execFirmwareUpdate_goes image s
  | stepAbort team => exact execStepAbort_goes team s
  | requestCollectorAdmission core => exact execRequestCollectorAdmission_goes core s
  | l2SliceRequest idx => exact execL2SliceRequest_goes idx s
  | homeRequest idx => exact execHomeRequest_goes idx s
  | burstRead idx crcBad flips => exact execBurstRead_goes idx crcBad flips s
  | writeReplay pa bad => exact execWriteReplay_goes pa bad s
  | retrain idx ok => exact execRetrain_goes idx ok s
  | blockProcedure idx => exact execBlockProcedure_goes idx s
  | backInvalidateResponse idx words => exact execBackInvalidateResponse_goes idx words s
  | fill idx => exact execFill_goes idx s
  | publication idx => exact execPublication_goes idx s
  | spareIn stack pc slice => exact execSpareIn_goes stack pc slice s
  | spareInComplete stack pc => exact execSpareInComplete_goes stack pc s
  | hotRemoveAcknowledge stack pc bankSet => exact execHotRemoveAcknowledge_goes stack pc bankSet s
  | deepRetention stack => exact execDeepRetention_goes stack s
  | hotAdd stack => exact execHotAdd_goes stack s
  | pageWalk core va => exact execPageWalk_goes core va s
  | messageSend die idx => exact execMessageSend_goes die idx s
  | fragmentReceive idx arrival => exact execFragmentReceive_goes idx arrival s
  | acknowledgement idx => exact execAcknowledgement_goes idx s
  | receiverRepairTimeout die idx => exact execReceiverRepairTimeout_goes die idx s
  | repairRequest idx => exact execRepairRequest_goes idx s
  | messageLoss die idx => exact execMessageLoss_goes die idx s
  | lossNotice idx => exact execLossNotice_goes idx s
  | poisonNotice idx => exact execPoisonNotice_goes idx s
  | delayedFragment idx => exact execDelayedFragment_goes idx s
  | linkRemoval die port => exact execLinkRemoval_goes die port s
  | hostReadShared pa => exact execHostReadShared_goes pa s
  | hostReadOwned pa => exact execHostReadOwned_goes pa s
  | hostWriteback pa words keep => exact execHostWriteback_goes pa words keep s
  | hostSnoopData pa => exact execHostSnoopData_goes pa s
  | hostSnoopInvalidate pa => exact execHostSnoopInvalidate_goes pa s
  | hostReadGrant idx owned words => exact execHostReadGrant_goes idx owned words s
  | atsCompletion idx present frame kind => exact execAtsCompletion_goes idx present frame kind s
  | pageRequestResponse idx granted => exact execPageRequestResponse_goes idx granted s
  | serviceReply idx value => exact execServiceReply_goes idx value s
  | extentRelease idx => exact execExtentRelease_goes idx s
  | surpriseRemoval idx => exact execSurpriseRemoval_goes idx s
  | bandPlacement die => exact execBandPlacement_goes die s
  | quantumExpiry die queue => exact execQuantumExpiry_goes die queue s
  | gangStart launch => exact execGangStart_goes launch s
  | operatingPointStable die => exact execOperatingPointStable_goes die s
  | kernelBoundary launch => exact execKernelBoundary_goes launch s
  | preEmption band => exact execPreEmption_goes band s
  | mwaitSatisfied team => exact execMwaitSatisfied_goes team s
  | mwto team => exact execMwto_goes team s
  | barrierWaitEnd team => exact execBarrierWaitEnd_goes team s
  | mmaCommand core => exact execMmaCommand_goes core s
  | aczCommand core => exact execAczCommand_goes core s
  | acstCommand core => exact execAcstCommand_goes core s
  | mlfillComplete team => exact execMlfillComplete_goes team s
  | mergeWindowClose die idx => exact execMergeWindowClose_goes die idx s
  | ptrigFire band => exact execPtrigFire_goes band s
  | securityAlarm source => exact execSecurityAlarm_goes source s
  | thermalLimit die => exact execThermalLimit_goes die s
  | functionReady bitNo passed => exact execFunctionReady_goes bitNo passed s
  | debuggerAttach band => exact execDebuggerAttach_goes band s
  | bandResume band => exact execBandResume_goes band s
  | producerCompletion team => exact execProducerCompletion_goes team s
  | launchEndFromOutside launch => exact execLaunchEndFromOutside_goes launch s
  | extentAdd port range => exact execExtentAdd_goes port range s
  | tableLoadComplete core => exact execTableLoadComplete_goes core s

end Sys2Proof.Machine
end

section
/-! SUPPORT. O59, part two: the turn of a team goes on. -/

namespace Sys2Proof.Machine

theorem readSpill_calm (s : State) (k : Nat) (t : Team) (i : Nat) : Calm s (readSpill s k t i).1 := by
  unfold readSpill
  dsimp only
  repeat' split
  all_goals simp [Calm]

theorem refill_calm (k n : Nat) (s : State) (t : Team) : Calm s (refill s k n t).1 := by
  induction n generalizing s t with
  | zero => simp [refill, Calm]
  | succ n ih =>
    have read := readSpill_calm s k t (t.spilled - 1)
    rw [refill]
    split
    · simp [Calm]
    · split
      · next s₁ e eq =>
        rw [eq] at read
        dsimp only
        split
        · exact read
        · exact read.trans (ih _ _)
      · next s₁ x eq => rwa [eq] at read

theorem reloaded_calm (s : State) (k : Nat) (t : Team) : Calm s (reloaded s k t).1 := by
  have filled := refill_calm k 8 s t
  unfold reloaded
  split <;> next s₁ x eq => rwa [eq] at filled

theorem reconvergeStep_calm (s : State) (k : Nat) (t : Team) : Calm s (reconvergeStep s k t).1 := by
  have filled := refill_calm k 1 s t
  unfold reconvergeStep
  dsimp only
  split
  · split
    · split <;> next s₁ x eq => rwa [eq] at filled
    · simp [Calm]
  · repeat' split
    all_goals simp [Calm]

/-- R157: the reconvergence before an issue may read the team's spill area; it changes no team and leaves it the turn. -/
theorem reconverge_calm (k n : Nat) (s : State) (t : Team) : Calm s (reconverge s k n t).1 := by
  induction n generalizing s t with
  | zero => exact reloaded_calm s k t
  | succ n ih =>
    have stepped := reconvergeStep_calm s k t
    rw [reconverge]
    split
    · next eq => exact Calm.trans (by rwa [eq] at stepped) (ih _ _)
    · next eq => exact Calm.trans (by rwa [eq] at stepped) (reloaded_calm _ _ _)
    · next eq => rwa [eq] at stepped

theorem fetchTrace_calm (s : State) (k : Nat) (t : Team) : Calm s (fetchTrace s k t) := by
  unfold fetchTrace
  dsimp only
  repeat' split
  all_goals simp [Calm]

theorem Runs.of_calm {s s' : State} {k : Nat} {t : Team} (h : Runs s k t) (calm : Calm s s') : Runs s' k t := by
  obtain ⟨teams, -, cur, -⟩ := calm
  exact ⟨cur ▸ h.1, teams ▸ h.2⟩

theorem runs_setTeam {s : State} {k : Nat} (turn : s.cur = some k) (t : Team) : Runs (setTeam s k t) k t :=
  ⟨turn, by simp [setTeam]⟩

/-- R167: the word at the PC, or what becomes of its fetch, is executed with the team's turn. -/
theorem issueWord_goes {s : State} {k : Nat} {t : Team} (h : Runs s k t) (t' : Team) : Goes (issueWord s k t') := by
  have fetched := h.of_calm (fetchTrace_calm s k t')
  unfold issueWord
  split
  · exact ite_goes (withTeam_next h _) ⟨_, rfl⟩
  · exact ⟨_, rfl⟩
  · dsimp only
    split
    · exact exec_goes fetched _
    · exact withTeam_next fetched _

theorem issue_goes {s : State} {k : Nat} (turn : s.cur = some k) (t : Team) : Goes (issue s k t) := by
  have calm := reconverge_calm k t.reconvergeFuel s t
  unfold issue
  refine ite_goes (execPtrigFire_goes _ _) ?_
  split
  · exact ⟨_, rfl⟩
  · exact ⟨_, rfl⟩
  · next s₁ t' eq =>
    rw [eq] at calm
    refine ite_goes ⟨_, rfl⟩ (issueWord_goes ((runs_setTeam ?_ t'.meetLane).of_calm (noteMisses_calm _ _ _ _)) _)
    exact calm.2.2.1.trans turn

theorem passTurn_goes {o : Out} (h : Goes o) : Goes (passTurn o) := by
  obtain ⟨s', rfl⟩ := h
  exact ⟨_, rfl⟩

theorem teamTurn_goes (s : State) (k : Nat) : Goes (teamTurn s k) := by
  unfold teamTurn
  split
  · exact ⟨_, rfl⟩
  · exact ite_goes (passTurn_goes (issue_goes rfl _)) ⟨_, rfl⟩

end Sys2Proof.Machine
end

section
/-! SUPPORT. What every part of a step leaves as it is: the agenda, and the canonical form of memory (O59, O60). -/

namespace Sys2Proof.Machine

/-- The agenda of `s` is that of `s₀`, and the memory of `s` is canonical where that of `s₀` is. -/
structure Keeps (s₀ s : State) : Prop where
  agenda : s.agenda = s₀.agenda
  mem : Memory.wf s₀.mem = true → Memory.wf s.mem = true

/-- The same of the state that an outcome answers. -/
def KeepsOut (s₀ : State) : Out → Prop
  | .next s => Keeps s₀ s
  | _ => True

section
variable {s₀ s : State}

theorem Keeps.refl (s : State) : Keeps s s := ⟨rfl, id⟩

/-- An update of any fields but the agenda and the memory. -/
theorem Keeps.upd (h : Keeps s₀ s) {cur stalled fresh tick lag steps upset teams crews bands cores drams tenants l2 tcache memPoison
    sealedPoison flips slots fattr windows extents loads misses l2q homeq bursts fills pubs asks owed late serial msgs frags nextId rx
    inbox crates spinj deadLinks writeJobs blocks walks ats atsDenied invals producers millJobs counters ras rues worn modst ready hmap
    launches turns claims turnQ capped blocked queues appends copies groups parts collTurns collFailed exchanges walking saveAreas services
    lastTime dies powerPoint heatPoint pwrcap almpol spareAt verified alarm command losses moduleNo dramOff bootFailed firmware secver
    measures replies hostData errors dooms} :
    Keeps s₀ ⟨s.agenda, cur, stalled, fresh, tick, lag, steps, upset, teams, crews, bands, cores, drams, tenants, l2, tcache, s.mem,
      memPoison, sealedPoison, flips, slots, fattr, windows, extents, loads, misses, l2q, homeq, bursts, fills, pubs, asks, owed, late,
      serial, msgs, frags, nextId, rx, inbox, crates, spinj, deadLinks, writeJobs, blocks, walks, ats, atsDenied, invals, producers,
      millJobs, counters, ras, rues, worn, modst, ready, hmap, launches, turns, claims, turnQ, capped, blocked, queues, appends, copies,
      groups, parts, collTurns, collFailed, exchanges, walking, saveAreas, services, lastTime, dies, powerPoint, heatPoint, pwrcap, almpol,
      spareAt, verified, alarm, command, losses, moduleNo, dramOff, bootFailed, firmware, secver, measures, replies, hostData, errors,
      dooms⟩ :=
  ⟨h.agenda, h.mem⟩

/-- An update of the memory too, where that keeps its form. -/
theorem Keeps.write {s' : State} (h : Keeps s₀ s) (agenda : s'.agenda = s.agenda)
    (mem : Memory.wf s.mem = true → Memory.wf s'.mem = true) : Keeps s₀ s' :=
  ⟨agenda.trans h.agenda, fun wf => mem (h.mem wf)⟩

theorem Keeps.trans {s₁ : State} (h : Keeps s₀ s) (h' : Keeps s s₁) : Keeps s₀ s₁ := h.write h'.agenda h'.mem

theorem Keeps.ite {c : Prop} [Decidable c] {a b : State} (yes : Keeps s₀ a) (no : Keeps s₀ b) : Keeps s₀ (if c then a else b) := by
  split <;> assumption

theorem Keeps.ite_fst {α : Type} {c : Prop} [Decidable c] {a b : State × α} (yes : Keeps s₀ a.1) (no : Keeps s₀ b.1) :
    Keeps s₀ (if c then a else b).1 := by
  split <;> assumption

theorem Keeps.of_fst {α : Type} {p : State × α} {x : α} (h : Keeps s₀ p.1) (eq : p = (s, x)) : Keeps s₀ s := by
  rwa [eq] at h

theorem Keeps.foldl {α : Type} {f : State → α → State} (step : ∀ s a, Keeps s₀ s → Keeps s₀ (f s a)) (h : Keeps s₀ s) {l : List α} :
    Keeps s₀ (l.foldl f s) := by
  induction l generalizing s with
  | nil => exact h
  | cons a l ih => exact ih (step s a h)

theorem Keeps.foldl₂ {α β : Type} {f : State × β → α → State × β} (step : ∀ r a, Keeps s₀ r.1 → Keeps s₀ (f r a).1) {r : State × β}
    (h : Keeps s₀ r.1) {l : List α} : Keeps s₀ (l.foldl f r).1 := by
  induction l generalizing r with
  | nil => exact h
  | cons a l ih => exact ih (step r a h)

theorem KeepsOut.next (h : Keeps s₀ s) : KeepsOut s₀ (.next s) := h

theorem KeepsOut.fault {f : Fault} : KeepsOut s₀ (.fault f) := trivial

theorem KeepsOut.refused {r : Refusal} : KeepsOut s₀ (.refused r) := trivial

theorem KeepsOut.ite {c : Prop} [Decidable c] {a b : Out} (yes : KeepsOut s₀ a) (no : KeepsOut s₀ b) :
    KeepsOut s₀ (if c then a else b) := by
  split <;> assumption

end

end Sys2Proof.Machine
end

section
/-! SUPPORT. Every operation of the model keeps the agenda and the canonical form of memory (O59, O60): a lemma for each, in the order of
the definitions, under the names of their files. -/

namespace Sys2Proof.Machine
variable {s₀ s : State}

/-! ### Memory -/

theorem count_keeps (h : Keeps s₀ s) {unit cls : Nat} : Keeps s₀ (count s unit cls) := h.upd

theorem setDram_keeps (h : Keeps s₀ s) {k : Nat} {d : Stack} : Keeps s₀ (setDram s k d) := h.upd

theorem countPc_keeps (h : Keeps s₀ s) {pa cls : Nat} : Keeps s₀ (countPc s pa cls) := setDram_keeps h

theorem countSlice_keeps (h : Keeps s₀ s) {cls pa : Nat} : Keeps s₀ (countSlice cls s pa) := setDram_keeps h

theorem consume_keeps (h : Keeps s₀ s) {pa : Nat} {d : Datum} : Keeps s₀ (consume s pa d) := Keeps.ite (countPc_keeps h) h

theorem setTenant_keeps (h : Keeps s₀ s) {t : Nat} {x : Tenant} : Keeps s₀ (setTenant s t x) := h.upd

theorem raiseVector_keeps (h : Keeps s₀ s) {t v : Nat} : Keeps s₀ (raiseVector s t v) := setTenant_keeps h

theorem logRas_keeps (h : Keeps s₀ s) {r : Ras} : Keeps s₀ (logRas s r) := Keeps.ite (raiseVector_keeps h.upd) h.upd

theorem requestReplacement_keeps (h : Keeps s₀ s) : Keeps s₀ (requestReplacement s) := logRas_keeps h.upd

theorem senseStored_keeps (h : Keeps s₀ s) {pa noise : Nat} : Keeps s₀ (senseStored s pa noise).1 := by
  unfold senseStored
  split
  · refine Keeps.ite_fst h ?_
    split
    · exact h
    · exact countSlice_keeps (countPc_keeps h)
    · exact countSlice_keeps (countPc_keeps h)
    · exact h
    · exact countPc_keeps h
    · exact h
  · split
    · exact Keeps.ite_fst h h
    · exact h
  · exact Keeps.ite_fst h h

theorem flushDelta_keeps (h : Keeps s₀ s) {block : Nat} : Keeps s₀ (flushDelta s block) := setDram_keeps h.upd

theorem addDelta_keeps (h : Keeps s₀ s) {pa : Nat} {old new : Word} : Keeps s₀ (addDelta s pa old new) := by
  unfold addDelta
  dsimp only
  refine setDram_keeps ?_
  split
  · exact Keeps.ite (flushDelta_keeps h) h
  · exact h

theorem stored_keeps (h : Keeps s₀ s) {pa : Nat} {w : Word} : Keeps s₀ (stored s pa w) := by
  refine h.write rfl fun wf => ?_
  change Memory.wf (if wordAt s.mem pa == w then s.mem else putWord s.mem pa w) = true
  split
  · exact wf
  · exact putWord_wf _ _ _ wf

theorem blockProcedure_keeps (h : Keeps s₀ s) {block : Nat} : Keeps s₀ (blockProcedure s block).1 := by
  unfold blockProcedure
  dsimp only
  split
  · exact Keeps.foldl (fun _ _ h₁ => stored_keeps h₁) (Keeps.foldl (fun _ _ h₁ => countSlice_keeps h₁) (countPc_keeps (flushDelta_keeps
      h)))
  · exact Keeps.foldl (fun _ _ h₁ => h₁.upd) (logRas_keeps (countPc_keeps (flushDelta_keeps h)))

theorem fetchStored_keeps (h : Keeps s₀ s) {pa : Nat} : Keeps s₀ (fetchStored s pa).1 := by
  unfold fetchStored
  dsimp only
  refine Keeps.ite_fst h ?_
  split
  all_goals have h₁ := (senseStored_keeps h).of_fst ‹_›
  · exact h₁
  · exact h₁
  · exact blockProcedure_keeps h₁

theorem writeOver_keeps (h : Keeps s₀ s) {pa : Nat} {old w : Word} {poison cipher : Bool} :
    Keeps s₀ (writeOver s pa old w poison cipher) := by
  have parity : Keeps s₀ (if region pa == .dram && old != w then addDelta s pa old w else s) := .ite (addDelta_keeps h) h
  unfold writeOver
  split
  · exact logRas_keeps h
  · exact parity.write rfl (putWord_wf _ _ _)

theorem writeStored_keeps (h : Keeps s₀ s) {pa : Nat} {w : Word} {poison known : Bool} : Keeps s₀ (writeStored s pa w poison known) :=
  Keeps.ite (writeOver_keeps (fetchStored_keeps h)) (writeOver_keeps h)

theorem readPlain_keeps (h : Keeps s₀ s) {pa key : Nat} {noise : Nat → Nat} : Keeps s₀ (readPlain s pa key noise).1 := by
  unfold readPlain
  dsimp only
  refine Keeps.ite_fst (senseStored_keeps h) (Keeps.ite_fst h (Keeps.ite_fst ?_ ?_))
  · dsimp only
    refine Keeps.foldl₂ (fun _ _ h₁ => ?_) h
    exact senseStored_keeps h₁
  · refine Keeps.ite_fst ?_ ?_
    · dsimp only
      refine Keeps.foldl₂ (fun _ _ h₁ => ?_) h
      exact senseStored_keeps h₁
    · dsimp only
      refine Keeps.foldl₂ (fun _ _ h₁ => ?_) h
      exact senseStored_keeps h₁

theorem writeGranule_keeps (h : Keeps s₀ s) {t : Tenant} {g : Nat} {ws : List (Nat × Word × Bool)} {known : Nat → Bool} :
    Keeps s₀ (writeGranule s t g ws known) := by
  unfold writeGranule
  dsimp only
  refine Keeps.foldl (fun _ _ h₁ => writeOver_keeps h₁) (Keeps.foldl₂ (fun _ _ h₁ => ?_) h)
  exact Keeps.ite_fst h₁ (fetchStored_keeps h₁)

theorem writePlains_keeps (h : Keeps s₀ s) {key : Nat} {ws : List (Nat × Word × Bool)} {known : Nat → Bool} :
    Keeps s₀ (writePlains s key ws known) :=
  Keeps.ite (Keeps.foldl (fun _ _ h₁ => writeStored_keeps h₁) h) (Keeps.foldl (fun _ _ h₁ => writeGranule_keeps h₁) h)

theorem writePlain_keeps (h : Keeps s₀ s) {pa key : Nat} {w : Word} {poison known : Bool} :
    Keeps s₀ (writePlain s pa w poison key known) :=
  writePlains_keeps h

theorem readCorrected_keeps (h : Keeps s₀ s) {pa key : Nat} : Keeps s₀ (readCorrected s pa key).1 := by
  unfold readCorrected
  dsimp only
  split
  all_goals have h₁ := (readPlain_keeps h).of_fst ‹_›
  · exact h₁
  · exact h₁
  · refine Keeps.ite_fst ?_ ?_
    · exact blockProcedure_keeps h₁
    · split
      all_goals have h₂ := (readPlain_keeps (blockProcedure_keeps h₁)).of_fst ‹_›
      · exact h₂
      · exact h₂

/-! ### Caches -/

theorem setL1_keeps (h : Keeps s₀ s) {core : Nat} {c : NMap Blk} : Keeps s₀ (setL1 s core c) := h.upd

theorem setL2_keeps (h : Keeps s₀ s) {die : Nat} {c : NMap Blk} : Keeps s₀ (setL2 s die c) := h.upd

theorem setMsc_keeps (h : Keeps s₀ s) {k : Nat} {c : NMap Blk} : Keeps s₀ (setMsc s k c) := setDram_keeps h

theorem leaving_keeps (h : Keeps s₀ s) {b : Blk} {pa unit : Nat} : Keeps s₀ (leaving s b pa unit).1 := by
  unfold leaving
  dsimp only
  refine Keeps.ite_fst ?_ ?_
  · dsimp only
    split
    · exact Keeps.ite (logRas_keeps (count_keeps h)) (logRas_keeps (count_keeps h)).upd
    · exact logRas_keeps (count_keeps h)
  · exact Keeps.ite (count_keeps h) h

theorem mend_keeps {unit pa : Nat} {get : State → NMap Blk} {put : State → NMap Blk → State} {onward : State → Blk → State}
    (h : Keeps s₀ s) (hput : ∀ b c, Keeps s₀ b → Keeps s₀ (put b c)) (honward : ∀ b c, Keeps s₀ b → Keeps s₀ (onward b c)) :
    Keeps s₀ (mend s unit pa get put onward) := by
  unfold mend
  dsimp only
  refine Keeps.ite h ?_
  split
  · exact h
  · exact Keeps.ite (count_keeps (hput _ _ h)) (Keeps.ite (hput _ _ (honward _ _ h)) (logRas_keeps (count_keeps (hput _ _ h))))

theorem holdBlock_keeps (h : Keeps s₀ s) {w : HeldWrite} : Keeps s₀ (holdBlock s w) := h.upd

theorem dropL2_keeps (h : Keeps s₀ s) {pa : Nat} : Keeps s₀ (dropL2 s pa) := by
  unfold dropL2
  refine Keeps.foldl (fun _ _ h₁ => ?_) h
  split
  · exact Keeps.ite (setL2_keeps h₁) h₁
  · exact h₁

theorem leavingHome_keeps (h : Keeps s₀ s) {b : Blk} {pa : Nat} : Keeps s₀ (leavingHome s b pa).1 :=
  leaving_keeps (Keeps.ite (dropL2_keeps h) h)

theorem mendHome_keeps (h : Keeps s₀ s) {pa : Nat} : Keeps s₀ (mendHome s pa) := by
  unfold mendHome
  dsimp only
  exact mend_keeps h (fun _ _ h₁ => setMsc_keeps h₁) (fun _ _ h₁ => Keeps.ite (holdBlock_keeps (leavingHome_keeps h₁)) (writePlain_keeps
    (leavingHome_keeps h₁)))

theorem mscEvict_keeps (h : Keeps s₀ s) {v : Nat × Blk} : Keeps s₀ (mscEvict s v) := by
  unfold mscEvict
  dsimp only
  refine writePlains_keeps (Keeps.foldl (fun _ _ h₁ => holdBlock_keeps h₁) (Keeps.foldl₂ (fun _ _ h₁ => ?_) h))
  exact leavingHome_keeps h₁

theorem countMiss_keeps (h : Keeps s₀ s) {pa tenant : Nat} : Keeps s₀ (countMiss s pa tenant) :=
  Keeps.ite h (Keeps.ite (setTenant_keeps h) (Keeps.ite (setTenant_keeps h) h))

theorem insertPrio_keeps (h : Keeps s₀ s) {pa tenant : Nat} : Keeps s₀ (insertPrio s pa tenant).1 := by
  unfold insertPrio
  dsimp only
  refine Keeps.ite_fst h ?_
  exact setDram_keeps h

theorem mscEnsure_keeps (h : Keeps s₀ s) {pa key hint tenant : Nat} : Keeps s₀ (mscEnsure s pa key hint tenant) := by
  unfold mscEnsure
  dsimp only
  split
  · exact h
  · split
    · exact setMsc_keeps (Keeps.ite_fst (insertPrio_keeps h) h)
    · exact Keeps.ite (setMsc_keeps (Keeps.ite_fst (insertPrio_keeps h) h)).upd (mscEvict_keeps (setMsc_keeps (Keeps.ite_fst
        (insertPrio_keeps h) h)))

theorem mscPut_keeps (h : Keeps s₀ s) {pa key hint tenant launch : Nat} {w : Word} {poison dirty : Bool} :
    Keeps s₀ (mscPut s pa w poison dirty key hint tenant launch) := by
  unfold mscPut
  dsimp only
  split
  · exact mscEnsure_keeps h
  · exact setMsc_keeps (mscEnsure_keeps h)

theorem homePut_keeps (h : Keeps s₀ s) {pa launch key hint : Nat} {w : Word} {poison : Bool} :
    Keeps s₀ (homePut s pa w poison launch key hint) := by
  unfold homePut
  dsimp only
  refine Keeps.ite (logRas_keeps h) (Keeps.ite (holdBlock_keeps h) ?_)
  split
  · exact setMsc_keeps (mscPut_keeps (Keeps.ite (countMiss_keeps h) h))
  · exact mscPut_keeps (Keeps.ite (countMiss_keeps h) h)

theorem askLine_keeps (h : Keeps s₀ s) {pa : Nat} {write : Bool} : Keeps s₀ (askLine s pa write) := by
  unfold askLine
  split
  · exact Keeps.ite h h.upd
  · exact h

theorem askBoth_keeps (h : Keeps s₀ s) {pa : Nat} : Keeps s₀ (askBoth s pa) := by
  unfold askBoth
  split
  · exact Keeps.ite h h.upd
  · exact h

theorem holdWrite_keeps (h : Keeps s₀ s) {w : HeldWrite} : Keeps s₀ (holdWrite s w) := by
  unfold holdWrite
  dsimp only
  refine Keeps.upd ?_
  refine Keeps.ite h ?_
  split
  · exact h.upd
  · exact h

theorem homePerform_keeps (h : Keeps s₀ s) {pa launch key hint writer : Nat} {w : Word} {poison : Bool} :
    Keeps s₀ (homePerform s pa w poison launch key hint writer) :=
  Keeps.ite (holdWrite_keeps h) (homePut_keeps h)

theorem purgeBy_keeps {perform : State → HeldWrite → State} {pa writer : Nat} (hperform : ∀ b c, Keeps s₀ b → Keeps s₀ (perform b c))
    (h : Keeps s₀ s) :
    Keeps s₀ (purgeBy perform s pa writer) := by
  unfold purgeBy
  dsimp only
  refine Keeps.foldl (fun _ _ h₁ => (Keeps.ite h₁ ?_)) h
  split
  · exact h₁
  · exact Keeps.ite (setL2_keeps (Keeps.ite (hperform _ _ (leaving_keeps h₁)) h₁)) h₁

theorem purgeL2_keeps (h : Keeps s₀ s) {pa writer : Nat} : Keeps s₀ (purgeL2 s pa writer) :=
  purgeBy_keeps (fun _ _ h₁ => homePerform_keeps h₁) h

theorem purgeNow_keeps (h : Keeps s₀ s) {pa : Nat} : Keeps s₀ (purgeNow s pa) := purgeBy_keeps (fun _ _ h₁ => homePut_keeps h₁) h

theorem homeWrite_keeps (h : Keeps s₀ s) {pa launch key hint writer : Nat} {w : Word} {poison : Bool} :
    Keeps s₀ (homeWrite s pa w poison launch key hint writer) :=
  homePerform_keeps (purgeL2_keeps h)

theorem mendL2_keeps (h : Keeps s₀ s) {die pa : Nat} : Keeps s₀ (mendL2 s die pa) := by
  unfold mendL2
  dsimp only
  exact mend_keeps h (fun _ _ h₁ => setL2_keeps h₁) (fun _ _ h₁ => homeWrite_keeps (leaving_keeps h₁))

theorem blockAtHome_keeps (h : Keeps s₀ s) {block : Nat} : Keeps s₀ (blockAtHome s block).1 :=
  Keeps.foldl (fun _ _ h₁ => setMsc_keeps (purgeL2_keeps h₁)) (blockProcedure_keeps h)

theorem readBehind_keeps (h : Keeps s₀ s) {pa key : Nat} : Keeps s₀ (readBehind s pa key).1 := by
  unfold readBehind
  dsimp only
  split
  all_goals have h₁ := (readPlain_keeps h).of_fst ‹_›
  · exact h₁
  · exact h₁
  · refine Keeps.ite_fst ?_ ?_
    · exact blockAtHome_keeps h₁
    · split
      all_goals have h₂ := (readPlain_keeps (blockAtHome_keeps h₁)).of_fst ‹_›
      · exact h₂
      · exact h₂

theorem askHost_keeps (h : Keeps s₀ s) {pa : Nat} {write : Bool} : Keeps s₀ (askHost s pa write) :=
  Keeps.foldl (fun _ _ h₁ => askLine_keeps h₁) h

theorem storedVia_keeps (h : Keeps s₀ s) {pa : Nat} : Keeps s₀ (storedVia s pa).1 := by
  unfold storedVia
  dsimp only
  split
  · exact setMsc_keeps (mendHome_keeps h)
  · split
    · have h₁ := (readBehind_keeps (mendHome_keeps h)).of_fst ‹_›
      exact mscPut_keeps h₁
    · have h₁ := (readBehind_keeps (mendHome_keeps h)).of_fst ‹_›
      exact mscPut_keeps h₁
    · exact readBehind_keeps (mendHome_keeps h)

theorem viewElem_keeps (h : Keeps s₀ s) {w : Window} {i : Nat} : Keeps s₀ (viewElem s w i).1 := by
  unfold viewElem
  dsimp only
  split
  · dsimp only
    split
    · exact storedVia_keeps (storedVia_keeps (storedVia_keeps h))
    · dsimp only
      exact storedVia_keeps (storedVia_keeps h)
  · dsimp only
    split
    · exact storedVia_keeps (storedVia_keeps (storedVia_keeps h))
    · dsimp only
      exact storedVia_keeps (storedVia_keeps h)

theorem viewWord_keeps (h : Keeps s₀ s) {pa : Nat} : Keeps s₀ (viewWord s pa).1 := by
  unfold viewWord
  dsimp only
  split
  · exact h
  · dsimp only
    refine Keeps.foldl₂ (fun _ _ h₁ => ?_) h
    exact viewElem_keeps h₁

theorem homeReadFor_keeps (h : Keeps s₀ s) {pa key hint tenant misser : Nat} : Keeps s₀ (homeReadFor s pa key hint tenant misser).1 := by
  unfold homeReadFor
  dsimp only
  refine Keeps.ite_fst (viewWord_keeps h) ?_
  split
  · exact setMsc_keeps (mendHome_keeps h)
  · split
    · have h₁ := (readBehind_keeps (countMiss_keeps (mendHome_keeps h))).of_fst ‹_›
      exact mscPut_keeps h₁
    · have h₁ := (readBehind_keeps (countMiss_keeps (mendHome_keeps h))).of_fst ‹_›
      exact mscPut_keeps h₁
    · exact readBehind_keeps (countMiss_keeps (mendHome_keeps h))

theorem homeRead_keeps (h : Keeps s₀ s) {pa key hint tenant : Nat} : Keeps s₀ (homeRead s pa key hint tenant).1 := homeReadFor_keeps h

theorem deviceRead_keeps (h : Keeps s₀ s) {pa key hint tenant : Nat} : Keeps s₀ (deviceRead s pa key hint tenant).1 := by
  unfold deviceRead
  dsimp only
  refine Keeps.ite_fst (homeRead_keeps h) ?_
  exact (askHost_keeps (homeRead_keeps h)).upd

theorem l2Evict_keeps (h : Keeps s₀ s) {die : Nat} {v : Nat × Blk} : Keeps s₀ (l2Evict s die v) :=
  Keeps.foldl (fun _ _ h₁ => homeWrite_keeps (leaving_keeps h₁)) h

theorem l2Ensure_keeps (h : Keeps s₀ s) {die pa key hint : Nat} : Keeps s₀ (l2Ensure s die pa key hint) := by
  unfold l2Ensure
  dsimp only
  split
  · exact h
  · split
    · exact l2Evict_keeps (setL2_keeps h)
    · exact setL2_keeps h

theorem l2Put_keeps (h : Keeps s₀ s) {die pa key hint launch : Nat} {w : Word} {poison dirty : Bool} :
    Keeps s₀ (l2Put s die pa w poison dirty key hint launch) := by
  unfold l2Put
  dsimp only
  split
  · exact l2Ensure_keeps h
  · exact setL2_keeps (l2Ensure_keeps h)

theorem l2Write_keeps (h : Keeps s₀ s) {die pa key hint launch : Nat} {w : Word} {poison : Bool} :
    Keeps s₀ (l2Write s die pa w poison key hint launch) :=
  l2Put_keeps h

theorem l2Fill_keeps (h : Keeps s₀ s) {die pa key hint : Nat} {w : Word} : Keeps s₀ (l2Fill s die pa w key hint) :=
  Keeps.ite h (l2Put_keeps h)

theorem l1Clean_keeps (h : Keeps s₀ s) {core pa : Nat} : Keeps s₀ (l1Clean s core pa) := by
  unfold l1Clean
  split
  · exact setL1_keeps h
  · exact h

theorem performPub_keeps (h : Keeps s₀ s) {p : Pub} : Keeps s₀ (performPub s p) := by
  unfold performPub
  dsimp only
  refine Keeps.ite ?_ ?_
  · refine l1Clean_keeps (Keeps.ite (l2Write_keeps h.upd) (Keeps.ite ?_ (homeWrite_keeps h.upd).upd))
    split
    · exact setL2_keeps (homeWrite_keeps h.upd).upd
    · exact (homeWrite_keeps h.upd).upd
  · refine Keeps.ite (l2Write_keeps h.upd) (Keeps.ite ?_ (homeWrite_keeps h.upd).upd)
    split
    · exact setL2_keeps (homeWrite_keeps h.upd).upd
    · exact (homeWrite_keeps h.upd).upd

theorem performPubs_keeps (h : Keeps s₀ s) {core pa : Nat} : Keeps s₀ (performPubs s core pa) :=
  Keeps.foldl (fun _ _ h₁ => performPub_keeps h₁) h

theorem l1Evict_keeps (h : Keeps s₀ s) {core : Nat} {v : Nat × Blk} : Keeps s₀ (l1Evict s core v) :=
  Keeps.foldl (fun _ _ h₁ => Keeps.ite (performPubs_keeps h₁) (l2Write_keeps (leaving_keeps (performPubs_keeps h₁)))) h

theorem mendL1_keeps (h : Keeps s₀ s) {core pa : Nat} : Keeps s₀ (mendL1 s core pa) :=
  mend_keeps h (fun _ _ h₁ => setL1_keeps h₁) (fun _ _ h₁ => Keeps.ite (logRas_keeps (count_keeps (performPubs_keeps h₁))) (l2Write_keeps
    (leaving_keeps (performPubs_keeps h₁))))

theorem l1Ensure_keeps (h : Keeps s₀ s) {core pa key hint : Nat} : Keeps s₀ (l1Ensure s core pa key hint) := by
  unfold l1Ensure
  dsimp only
  split
  · exact h
  · split
    · exact l1Evict_keeps (setL1_keeps h)
    · exact setL1_keeps h

theorem killMisses_keeps (h : Keeps s₀ s) {core pa : Nat} : Keeps s₀ (killMisses s core pa) := h.upd

theorem outdate_keeps (h : Keeps s₀ s) {core pa : Nat} : Keeps s₀ (outdate s core pa) := Keeps.ite h.upd (setL1_keeps h.upd)

theorem storedOver_keeps (h : Keeps s₀ s) {core pa : Nat} {w : Word} : Keeps s₀ (storedOver s core pa w) := h.upd

theorem l1Write_keeps (h : Keeps s₀ s) {core pa key hint launch : Nat} {w : Word} {cp : Bool} :
    Keeps s₀ (l1Write s core pa w cp key hint launch) := by
  unfold l1Write
  dsimp only
  split
  · exact l1Ensure_keeps (storedOver_keeps (killMisses_keeps h.upd))
  · exact setL1_keeps (l1Ensure_keeps (storedOver_keeps (killMisses_keeps h.upd)))

theorem l1Fill_keeps (h : Keeps s₀ s) {core pa key hint : Nat} {w : Word} {poison : Bool} :
    Keeps s₀ (l1Fill s core pa w poison key hint) := by
  unfold l1Fill
  dsimp only
  refine Keeps.ite h (Keeps.ite h ?_)
  split
  · exact l1Ensure_keeps h
  · exact setL1_keeps (l1Ensure_keeps h)

theorem invalidateClean_keeps (h : Keeps s₀ s) {core : Nat} : Keeps s₀ (invalidateClean s core) := h.upd

theorem l2Read_keeps (h : Keeps s₀ s) {die pa key hint tenant : Nat} : Keeps s₀ (l2Read s die pa key hint tenant).1 := by
  unfold l2Read
  dsimp only
  split
  · exact setL2_keeps (mendL2_keeps h)
  · split
    · have h₁ := (deviceRead_keeps (mendL2_keeps h)).of_fst ‹_›
      exact l2Fill_keeps h₁
    · exact deviceRead_keeps (mendL2_keeps h)

theorem coreRead_keeps (h : Keeps s₀ s) {core pa key hint tenant : Nat} : Keeps s₀ (coreRead s core pa key hint tenant).1 := by
  unfold coreRead
  dsimp only
  split
  · exact setL1_keeps (mendL1_keeps h)
  · split
    · have h₁ := (l2Read_keeps (mendL1_keeps h)).of_fst ‹_›
      exact l1Fill_keeps h₁
    · exact l2Read_keeps (mendL1_keeps h)

/-! ### Translate -/

theorem noteMiss_keeps (h : Keeps s₀ s) {core tenant va : Nat} : Keeps s₀ (noteMiss s core tenant va) := by
  unfold noteMiss
  dsimp only
  refine Keeps.ite h (Keeps.ite (Keeps.ite h h.upd) (Keeps.ite ?_ ?_))
  · split
    · exact askHost_keeps h
    · exact h
  · refine Keeps.upd ?_
    split
    · exact askHost_keeps h
    · exact h

theorem enterTrans_keeps (h : Keeps s₀ s) {core : Nat} {t : Trans} : Keeps s₀ (enterTrans s core t) := h.upd

theorem useDenials_keeps (h : Keeps s₀ s) {tenant : Nat} {vas : List DWord} : Keeps s₀ (useDenials s tenant vas) := h.upd

/-! ### Ops -/

theorem setTeam_keeps (h : Keeps s₀ s) {k : Nat} {t : Team} : Keeps s₀ (setTeam s k t) := h.upd

theorem setCrew_keeps (h : Keeps s₀ s) {k : Nat} {c : Crew} : Keeps s₀ (setCrew s k c) := h.upd

theorem setBand_keeps (h : Keeps s₀ s) {k : Nat} {b : Band} : Keeps s₀ (setBand s k b) := h.upd

theorem setCore_keeps (h : Keeps s₀ s) {k : Nat} {c : Core} : Keeps s₀ (setCore s k c) := h.upd

theorem setLaunch_keeps (h : Keeps s₀ s) {k : Nat} {l : Launch} : Keeps s₀ (setLaunch s k l) := h.upd

theorem withTeam_keeps {f : Nat → Team → State} (hf : ∀ k t, Keeps s₀ (f k t)) : KeepsOut s₀ (withTeam s f) := by
  unfold withTeam
  split
  · exact KeepsOut.fault
  · split
    · exact KeepsOut.fault
    · exact KeepsOut.next (hf _ _)

theorem waitHere_keeps (h : Keeps s₀ s) : Keeps s₀ (waitHere s) := h.upd

theorem finish_keeps (h : Keeps s₀ s) {k : Nat} {t : Team} : Keeps s₀ (finish s k t) := setTeam_keeps h

theorem lostOnDie_keeps (h : Keeps s₀ s) {unit core part band : Nat} : Keeps s₀ (lostOnDie s unit core part band) :=
  Keeps.ite (requestReplacement_keeps (logRas_keeps (count_keeps h)).upd) (logRas_keeps (count_keeps h)).upd

theorem tendCrew_keeps (h : Keeps s₀ s) {c : Nat} {get : Crew → Ecc} {put : Crew → Ecc → Crew} {hit : Nat → Bool} :
    Keeps s₀ (tendCrew s c get put hit) :=
  Keeps.ite h (setCrew_keeps (Keeps.foldl (fun _ _ h₁ => lostOnDie_keeps h₁) (Keeps.foldl (fun _ _ h₁ => count_keeps h₁) h)))

theorem tendPad_keeps (h : Keeps s₀ s) {c o : Nat} : Keeps s₀ (tendPad s c o) := tendCrew_keeps h

theorem tendTile_keeps (h : Keeps s₀ s) {c : Nat} {hit : Nat → Bool} : Keeps s₀ (tendTile s c hit) := tendCrew_keeps h

theorem tendAcc_keeps (h : Keeps s₀ s) {c : Nat} {hit : Nat → Bool} : Keeps s₀ (tendAcc s c hit) := tendCrew_keeps h

theorem lostRegister_keeps (h : Keeps s₀ s) {k : Nat} {t : Team} : Keeps s₀ (lostRegister s k t) := lostOnDie_keeps h

theorem countFixes_keeps (h : Keeps s₀ s) : Keeps s₀ (countFixes s) :=
  Keeps.ite h (Keeps.foldl (fun _ _ h₁ => Keeps.foldl (fun _ _ h₂ => count_keeps h₂) h₁) h).upd

theorem readPlace_keeps (h : Keeps s₀ s) {core tenant hint : Nat} {p : Place} : Keeps s₀ (readPlace s core tenant hint p).1 := by
  unfold readPlace
  dsimp only
  split
  · exact tendPad_keeps h
  · exact consume_keeps (coreRead_keeps h)

theorem writePad_keeps (h : Keeps s₀ s) {c o : Nat} {w : Word} : Keeps s₀ (writePad s c o w) := setCrew_keeps h

theorem storePlace_keeps (h : Keeps s₀ s) {core launch hint : Nat} {p : Place} {w : Word} :
    Keeps s₀ (storePlace s core launch hint p w) := by
  unfold storePlace
  split
  · exact writePad_keeps h
  · exact l1Write_keeps h

theorem pointRead_keeps (h : Keeps s₀ s) {p : Point} {core pa key hint tenant : Nat} :
    Keeps s₀ (pointRead s p core pa key hint tenant).1 := by
  unfold pointRead
  dsimp only
  refine consume_keeps ?_
  split
  · exact coreRead_keeps h
  · exact l2Read_keeps h
  · exact deviceRead_keeps (Keeps.ite (purgeL2_keeps h) h)

theorem pointWrite_keeps (h : Keeps s₀ s) {p : Point} {core pa key hint launch : Nat} {w : Word} {cp : Bool} :
    Keeps s₀ (pointWrite s p core pa w cp key hint launch) := by
  unfold pointWrite
  split
  · exact l1Write_keeps h
  · exact l2Write_keeps h
  · exact homeWrite_keeps h

theorem follow_keeps (h : Keeps s₀ s) {after : Option Walking} : Keeps s₀ (follow s after) := h.upd

theorem stampAt_keeps (h : Keeps s₀ s) {p : Point} {core tenant launch : Nat} {pl : Place} {seq : DWord} {err : Bool} {after : optParam
    (Option Walking) none} :
    Keeps s₀ (stampAt s p core pl seq err tenant launch after) := by
  unfold stampAt
  dsimp only
  split
  · exact follow_keeps (Keeps.ite (tendPad_keeps (tendPad_keeps h)) (writePad_keeps (writePad_keeps (tendPad_keeps (tendPad_keeps h)))))
  · exact Keeps.ite (holdWrite_keeps (purgeL2_keeps (purgeL2_keeps h))) (Keeps.ite (holdBlock_keeps (purgeL2_keeps (purgeL2_keeps h)))
      (follow_keeps (Keeps.ite (pointRead_keeps (pointRead_keeps h)) (pointWrite_keeps (pointWrite_keeps (pointRead_keeps
      (pointRead_keeps h)))))))

theorem performHeld_keeps (h : Keeps s₀ s) {w : HeldWrite} : Keeps s₀ (performHeld s w) := by
  unfold performHeld
  dsimp only
  split
  · exact homePerform_keeps h
  · exact Keeps.ite (holdWrite_keeps h) (Keeps.ite (holdBlock_keeps h) (follow_keeps (Keeps.ite (consume_keeps (consume_keeps
      (homeRead_keeps (homeRead_keeps h)))) (homePut_keeps (homePut_keeps (consume_keeps (consume_keeps (homeRead_keeps (homeRead_keeps
      h)))))))))

theorem stampOwed_keeps (h : Keeps s₀ s) {o : Owed} : Keeps s₀ (stampOwed s o) := by
  unfold stampOwed
  dsimp only
  split
  · exact stampAt_keeps h
  · exact (noteMiss_keeps h).upd
  · exact follow_keeps h

theorem attempt_keeps {f : State → State} (h : Keeps s₀ s) (hf : ∀ b, Keeps s₀ b → Keeps s₀ (f b)) : Keeps s₀ (attempt s f).1 := by
  unfold attempt
  dsimp only
  refine Keeps.ite_fst ?_ ?_
  · exact h.upd
  · exact hf _ h.upd

theorem dropTeam_keeps (h : Keeps s₀ s) {k : Nat} : Keeps s₀ (dropTeam s k) := h.upd

theorem dropCrew_keeps (h : Keeps s₀ s) {k : Nat} : Keeps s₀ (dropCrew s k) := (setCore_keeps h).upd

theorem endBands_keeps (h : Keeps s₀ s) {bs : List Nat} : Keeps s₀ (endBands s bs) := h.upd

theorem dropBands_keeps (h : Keeps s₀ s) {p : Nat → Band → Bool} : Keeps s₀ (dropBands s p) :=
  endBands_keeps (Keeps.foldl (fun _ _ h₁ => dropCrew_keeps h₁) (Keeps.foldl (fun _ _ h₁ => dropTeam_keeps h₁) h))

theorem launchStamp_keeps (h : Keeps s₀ s) {l : Nat} {err : Bool} : Keeps s₀ (launchStamp s l err) := stampOwed_keeps h

theorem errorCompletion_keeps (h : Keeps s₀ s) {r : ErrRec} : Keeps s₀ (errorCompletion s r) :=
  Keeps.ite h (raiseVector_keeps (launchStamp_keeps (setLaunch_keeps (dropBands_keeps h)))).upd

theorem settle_keeps (h : Keeps s₀ s) : Keeps s₀ (settle s) :=
  Keeps.foldl (fun _ _ h₁ => errorCompletion_keeps h₁) (Keeps.foldl (fun _ _ h₁ => stampOwed_keeps h₁) (countFixes_keeps h).upd).upd

theorem retireTeam_keeps (h : Keeps s₀ s) {k : Nat} : Keeps s₀ (retireTeam s k) :=
  Keeps.ite (setBand_keeps (setBand_keeps (dropTeam_keeps h))) (Keeps.ite (dropCrew_keeps (setBand_keeps (setBand_keeps (dropTeam_keeps
    h)))) (setLaunch_keeps (endBands_keeps (dropCrew_keeps (setBand_keeps (setBand_keeps (dropTeam_keeps h)))))))

theorem writeRecs_keeps {k seq i : Nat} {t : Team} {recs : List Rec} {s' : State} (h : Keeps s₀ s)
    (eq : writeRecs s k t recs seq i = .ok s') : Keeps s₀ s' := by
  induction recs generalizing s i with
  | nil =>
    cases eq
    exact h
  | cons r recs ih =>
    rw [writeRecs] at eq
    dsimp only at eq
    split at eq
    · refine ih (Keeps.foldl₂ (fun _ _ h' => ?_) h) eq
      dsimp only
      exact storePlace_keeps h'
    · cases eq

theorem doubleTrap_keeps (h : Keeps s₀ s) {k cause : Nat} {t : Team} {pc : DWord} : Keeps s₀ (doubleTrap s k t cause pc) :=
  errorCompletion_keeps h

theorem enterTrap_keeps (h : Keeps s₀ s) {k : Nat} {t : Team} {q : TrapReq} : Keeps s₀ (enterTrap s k t q) := by
  unfold enterTrap
  dsimp only
  split
  · exact errorCompletion_keeps h
  · exact setTeam_keeps (noteMiss_keeps h)
  · exact h
  · exact Keeps.ite (errorCompletion_keeps (writeRecs_keeps h ‹_›)) (setTeam_keeps (writeRecs_keeps h ‹_›))

theorem restartRegion_keeps (h : Keeps s₀ s) {k : Nat} {t : Team} : Keeps s₀ (restartRegion s k t) := setTeam_keeps h

theorem takeTrap_keeps (h : Keeps s₀ s) {k : Nat} {t : Team} {q : TrapReq} : Keeps s₀ (takeTrap s k t q) :=
  Keeps.ite (restartRegion_keeps h) (Keeps.ite (doubleTrap_keeps h) (enterTrap_keeps h))

theorem leaveTables_keeps (h : Keeps s₀ s) {core k : Nat} : Keeps s₀ (leaveTables s core k) := Keeps.ite (setCore_keeps h) h

theorem raiseAt_keeps (h : Keeps s₀ s) {k cause : Nat} {t : Team} {recs : List Rec} {tepc : DWord} :
    Keeps s₀ (raiseAt s k t cause recs tepc) :=
  Keeps.ite (setTeam_keeps (leaveTables_keeps h)) (takeTrap_keeps (leaveTables_keeps h))

theorem raise_keeps (h : Keeps s₀ s) {k cause : Nat} {t : Team} {recs : List Rec} : Keeps s₀ (raise s k t cause recs) := raiseAt_keeps h

theorem refuse_keeps (h : Keeps s₀ s) {k cause : Nat} {recs : List Rec} : Keeps s₀ (refuse s k cause recs) := raise_keeps h

theorem raise1_keeps (h : Keeps s₀ s) {k cause : Nat} {t : Team} {value : DWord} : Keeps s₀ (raise1 s k t cause value) := raise_keeps h

theorem refuse1_keeps (h : Keeps s₀ s) {k cause : Nat} {value : DWord} : Keeps s₀ (refuse1 s k cause value) := refuse_keeps h

theorem illop_keeps (h : Keeps s₀ s) {k : Nat} {t : Team} : Keeps s₀ (illop s k t) := raise_keeps h

/-! ### Operands -/

theorem gated_keeps {k : Nat} {t : Team} {u : Use} {body : Team → State} (h : Keeps s₀ s) (hbody : ∀ b, Keeps s₀ (body b)) :
    Keeps s₀ (gated s k t u body) := by
  unfold gated
  split
  · exact hbody _
  · exact waitHere_keeps h
  · exact raise_keeps (Keeps.ite (lostRegister_keeps h) h)

theorem checkedLanes_keeps {k unit : Nat} {t : Team} {lanes : LaneMask} {body : State → State} (h : Keeps s₀ s)
    (hbody : ∀ b, Keeps s₀ b → Keeps s₀ (body b)) :
    Keeps s₀ (checkedLanes s k t unit lanes body) := by
  unfold checkedLanes
  split
  · exact Keeps.ite (hbody _ h) (refuse_keeps (count_keeps h.upd))
  · exact hbody _ h

theorem withFlags_keeps {k : Nat} {t : Team} {fs : List (Nat × Flags)} {body : Team → State} (h : Keeps s₀ s) (hbody : ∀ b, Keeps s₀
    (body b)) :
    Keeps s₀ (withFlags s k t fs body) :=
  Keeps.ite (hbody _) (refuse_keeps h)

theorem vecResult_keeps (h : Keeps s₀ s) {k unit d : Nat} {t : Team} {wide : Bool} {rs : List (Nat × Nat × Flags)} :
    Keeps s₀ (vecResult s k t unit wide d rs) :=
  checkedLanes_keeps h (fun _ h₁ => withFlags_keeps h₁ (fun _ => finish_keeps h₁))

theorem VOp.run_keeps (h : Keeps s₀ s) {o : VOp} {k : Nat} {t : Team} : Keeps s₀ (o.run s k t) := by
  unfold VOp.run
  split
  · exact illop_keeps h
  · exact Keeps.ite (illop_keeps h) (gated_keeps h (fun _ => vecResult_keeps h))

/-! ### Arith -/

theorem arith2_keeps (h : Keeps s₀ s) {classes : List TyClass} {asBits ta tb : Bool} {unit : Nat}
    {g : Elem → NumEnv → Nat → Nat → Nat × Flags} {d a b : BitVec 6} :
    KeepsOut s₀ (arith2 classes asBits unit g d a b ta tb s) :=
  withTeam_keeps (fun _ _ => VOp.run_keeps h)

theorem arith1_keeps (h : Keeps s₀ s) {classes : List TyClass} {asBits ta : Bool} {unit : Nat} {g : Elem → NumEnv → Nat → Nat × Flags}
    {d a : BitVec 6} :
    KeepsOut s₀ (arith1 classes asBits unit g d a ta s) :=
  withTeam_keeps (fun _ _ => VOp.run_keeps h)

theorem divide_keeps (h : Keeps s₀ s) {rem ta tb : Bool} {d a b : BitVec 6} : KeepsOut s₀ (divide rem d a b ta tb s) := by
  unfold divide
  dsimp only
  refine withTeam_keeps (fun _ _ => ?_)
  split
  · exact illop_keeps h
  · exact Keeps.ite (illop_keeps h) (gated_keeps h (fun _ => Keeps.ite (VOp.run_keeps h) (refuse_keeps h)))

theorem compare_keeps (h : Keeps s₀ s) {c p : BitVec 3} {a : BitVec 6} {ta : Bool} {b : Option (BitVec 6 × Bool)}
    {imm : Ty → NumEnv → Nat} :
    KeepsOut s₀ (compare c p a ta b imm s) := by
  unfold compare
  dsimp only
  refine withTeam_keeps (fun _ _ => ?_)
  split
  · exact illop_keeps h
  · exact Keeps.ite (illop_keeps h) (gated_keeps h (fun _ => withFlags_keeps h (fun _ => finish_keeps h)))

theorem fused_keeps (h : Keeps s₀ s) {op : Nat} {d a b c : BitVec 6} {ta tb tc : Bool} : KeepsOut s₀ (fused op d a b c ta tb tc s) :=
  withTeam_keeps (fun _ _ => VOp.run_keeps h)

theorem arithImm_keeps (h : Keeps s₀ s) {classes : List TyClass} {asBits : Bool} {unit : Nat}
    {g : Elem → NumEnv → Nat → Nat → Nat × Flags} {rhs : Elem → NumEnv → Nat} {d a : BitVec 6} :
    KeepsOut s₀ (arithImm classes asBits unit g rhs d a s) :=
  withTeam_keeps (fun _ _ => VOp.run_keeps h)

/-! ### Lanes -/

theorem shuffle_keeps (h : Keeps s₀ s) {d a : BitVec 6} {ta : Bool} {b : List (Nat × Bool)} {src : Team → Nat → ℤ} :
    KeepsOut s₀ (shuffle d a ta b src s) := by
  unfold shuffle
  refine withTeam_keeps (fun _ _ => ?_)
  split
  · exact illop_keeps h
  · exact Keeps.ite (illop_keeps h) (gated_keeps h (fun _ => vecResult_keeps h))

theorem voteTo_keeps (h : Keeps s₀ s) {d : BitVec 5} {p : BitVec 3} {f : Team → Bool} : KeepsOut s₀ (voteTo d p f s) :=
  withTeam_keeps (fun _ _ => gated_keeps h (fun _ => finish_keeps h))

/-! ### WordPath -/

theorem enqueueCut_keeps (h : Keeps s₀ s) {α : Type} {src dst cls elem owner : Nat} {items : List α} {cargo : List α → Cargo}
    {bytes : α → List Nat} :
    Keeps s₀ (enqueueCut s src dst cls elem items owner cargo bytes) :=
  h.upd

theorem sendMiss_keeps (h : Keeps s₀ s) {m : Miss} : Keeps s₀ (sendMiss s m) := h.upd

theorem flushMisses_keeps (h : Keeps s₀ s) {core : Nat} : Keeps s₀ (flushMisses s core) := Keeps.foldl (fun _ _ h₁ => sendMiss_keeps h₁) h

theorem enterMiss_keeps (h : Keeps s₀ s) {core tenant hint key pa : Nat} {point : Point} :
    Keeps s₀ (enterMiss s core tenant point hint key pa) := by
  unfold enterMiss
  dsimp only
  refine Keeps.ite h ?_
  split
  · exact Keeps.ite (sendMiss_keeps h.upd) h.upd
  · exact h.upd

theorem completeLoad_keeps (h : Keeps s₀ s) {o : LoadOp} : Keeps s₀ (completeLoad s o) := by
  unfold completeLoad
  dsimp only
  split
  · exact Keeps.ite (invalidateClean_keeps (Keeps.ite h.upd (Keeps.foldl (fun _ _ h₁ => Keeps.ite (consume_keeps h₁) h₁) h.upd)))
      (Keeps.ite h.upd (Keeps.foldl (fun _ _ h₁ => Keeps.ite (consume_keeps h₁) h₁) h.upd))
  · exact setTeam_keeps (Keeps.ite (invalidateClean_keeps (Keeps.ite h.upd (Keeps.foldl (fun _ _ h₁ => Keeps.ite (consume_keeps h₁) h₁)
      h.upd))) (Keeps.ite h.upd (Keeps.foldl (fun _ _ h₁ => Keeps.ite (consume_keeps h₁) h₁) h.upd)))

theorem finishLoads_keeps (h : Keeps s₀ s) : Keeps s₀ (finishLoads s) := Keeps.foldl (fun _ _ h₁ => completeLoad_keeps h₁) h

theorem land_keeps (h : Keeps s₀ s) {r : Req} {data : List (Nat × Datum)} : Keeps s₀ (land s r data) := by
  unfold land
  dsimp only
  refine Keeps.foldl (fun _ _ h₁ => ?_) h.upd
  split
  · exact setTeam_keeps h₁
  · exact h₁

theorem capture.add_keeps (h : Keeps s₀ s) {core id pa i : Nat} {toHome : Bool} {b : Blk} :
    Keeps s₀ (capture.add core toHome id s pa i b) :=
  (leaving_keeps h).upd

theorem capture.one_keeps (h : Keeps s₀ s) {core id pa i : Nat} {toHome : Bool} {b : Blk} :
    Keeps s₀ (capture.one core toHome id s pa i b) := by
  unfold capture.one
  dsimp only
  split
  · exact Keeps.ite h.upd (capture.add_keeps h)
  · exact capture.add_keeps h

theorem capture_keeps (h : Keeps s₀ s) {core id : Nat} {toHome cpToo : Bool} {p : Nat → Bool} :
    Keeps s₀ (capture s core toHome cpToo p id) :=
  Keeps.foldl (fun _ _ h₁ => capture.one_keeps h₁) h

theorem releasing_keeps {k : Nat} {t : Team} {point : Point} {p : Nat → Bool} {cont : State → Team → State} (h : Keeps s₀ s)
    (hcont : ∀ b c, Keeps s₀ b → Keeps s₀ (cont b c)) :
    Keeps s₀ (releasing s k t point p cont) := by
  unfold releasing
  dsimp only
  split
  · exact Keeps.ite (hcont _ _ h) (waitHere_keeps (setTeam_keeps h))
  · exact Keeps.ite (hcont _ _ (Keeps.ite (flushMisses_keeps h.upd) (capture_keeps (flushMisses_keeps h.upd)))) (waitHere_keeps
      (setTeam_keeps (Keeps.ite (flushMisses_keeps h.upd) (capture_keeps (flushMisses_keeps h.upd)))))

theorem flushCore_keeps (h : Keeps s₀ s) {core : Nat} {cpToo : Bool} : Keeps s₀ (flushCore s core cpToo) :=
  invalidateClean_keeps (Keeps.foldl (fun _ _ h₁ => performPub_keeps h₁) (capture_keeps h).upd)

theorem flushL2_keeps (h : Keeps s₀ s) {die : Nat} : Keeps s₀ (flushL2 s die) := by
  unfold flushL2
  dsimp only
  refine Keeps.foldl (fun _ _ h₁ => ?_) h
  split
  · exact setL2_keeps (l2Evict_keeps h₁)
  · exact l2Evict_keeps h₁

theorem mapTeams_keeps (h : Keeps s₀ s) {band : Nat} {f : Team → Team} : Keeps s₀ (mapTeams s band f) := h.upd

theorem standStill_keeps (h : Keeps s₀ s) {band : Nat} : Keeps s₀ (standStill s band) := by
  unfold standStill
  dsimp only
  refine Keeps.ite h ?_
  split
  · exact setBand_keeps (Keeps.foldl (fun _ _ h₁ => flushCore_keeps h₁) h)
  · exact setBand_keeps (Keeps.foldl (fun _ _ h₁ => flushCore_keeps h₁) h)
  · exact h

theorem stopBand_keeps (h : Keeps s₀ s) {band : Nat} {how : Run} : Keeps s₀ (stopBand s band how) :=
  standStill_keeps (mapTeams_keeps (setBand_keeps h))

theorem debugEvent_keeps (h : Keeps s₀ s) {k ev : Nat} {t : Team} {recs : List Rec} {tepc : DWord} :
    Keeps s₀ (debugEvent s k t ev recs tepc) :=
  Keeps.ite (stopBand_keeps (setTeam_keeps (leaveTables_keeps h))) (raiseAt_keeps h)

theorem unlessWatched_keeps {k n : Nat} {rd wr : Bool} {va : DWord} {body : State} (h : Keeps s₀ s) (hbody : Keeps s₀ body) :
    Keeps s₀ (unlessWatched s k rd wr n va body) :=
  Keeps.ite (debugEvent_keeps h) hbody

theorem unlessWatchedAny_keeps {k : Nat} {wr : Bool} {vas : List DWord} {body : State} (h : Keeps s₀ s) (hbody : Keeps s₀ body) :
    Keeps s₀ (unlessWatchedAny s k wr vas body) := by
  unfold unlessWatchedAny
  dsimp only
  split
  · exact debugEvent_keeps h
  · exact hbody

theorem noteMisses_keeps (h : Keeps s₀ s) {k : Nat} {t : Team} {vas : List DWord} : Keeps s₀ (noteMisses s k t vas) :=
  Keeps.foldl (fun _ _ h₁ => noteMiss_keeps h₁) h

theorem access_keeps {k w : Nat} {t : Team} {rd wr : Bool} {flags : BitVec 8} {as : List (Nat × DWord)} {body : State → List
    (Nat × DWord × Place) → State} (h : Keeps s₀ s) (hbody : ∀ b c, Keeps s₀ b → Keeps s₀ (body b c)) :
    Keeps s₀ (access s k t w rd wr flags as body) := by
  unfold access
  dsimp only
  split
  · exact Keeps.ite (waitHere_keeps (noteMisses_keeps h)) (refuse_keeps (useDenials_keeps (noteMisses_keeps h)))
  · exact Keeps.ite (waitHere_keeps (noteMisses_keeps h)) (Keeps.ite (debugEvent_keeps (noteMisses_keeps h)) (hbody _ _ (noteMisses_keeps
      h)))

/-! ### MemOps -/

theorem memory_keeps {legal : Bool} {body : Nat → Team → State} (h : Keeps s₀ s) (hbody : ∀ b c, Keeps s₀ (body b c)) :
    KeepsOut s₀ (memory legal s body) :=
  withTeam_keeps (fun _ _ => Keeps.ite (illop_keeps h) (Keeps.ite (waitHere_keeps h) (hbody _ _)))

theorem tendLoads_keeps (h : Keeps s₀ s) {as : List (Nat × DWord × Place)} {parts : Nat} : Keeps s₀ (tendLoads s as parts) := by
  unfold tendLoads
  refine Keeps.foldl (fun _ _ h₁ => (Keeps.foldl (fun _ _ h₂ => ?_) h₁)) h
  split
  · exact tendPad_keeps h₂
  · exact h₂

theorem issueLoad_keeps (h : Keeps s₀ s) {k parts : Nat} {t : Team} {dst : Dst} {point : Point} {acq : Bool} {as : List
    (Nat × DWord × Place)} :
    Keeps s₀ (issueLoad s k t dst point acq as parts) :=
  Keeps.ite (finish_keeps (Keeps.ite (invalidateClean_keeps (Keeps.ite (flushMisses_keeps h) h)) (Keeps.ite (flushMisses_keeps h) h)))
    (finishLoads_keeps (finish_keeps (tendLoads_keeps (Keeps.ite (flushMisses_keeps h) h)).upd))

theorem vectorLoad_keeps (h : Keeps s₀ s) {k d : Nat} {t : Team} {wide : Bool} {ord : BitVec 2} {scope : BitVec 3} {as : List
    (Nat × DWord)} :
    Keeps s₀ (vectorLoad s k t wide d ord scope as) :=
  gated_keeps h (fun _ => access_keeps h (fun _ _ h₁ => Keeps.ite (waitHere_keeps h₁) (issueLoad_keeps h₁)))

theorem writeWords_keeps (h : Keeps s₀ s) {core launch hint : Nat} {ws : List (Place × Word)} :
    Keeps s₀ (writeWords s core launch hint ws) :=
  Keeps.foldl (fun _ _ h₁ => storePlace_keeps h₁) h

theorem writeThrough_keeps (h : Keeps s₀ s) {core launch hint id : Nat} {toHome : Bool} {ws : List (Place × Word)} :
    Keeps s₀ (writeThrough s core launch hint toHome id ws) := by
  unfold writeThrough
  dsimp only
  refine Keeps.foldl (fun _ _ h₁ => ?_) h
  split
  · split
    · exact Keeps.ite (capture.one_keeps (storePlace_keeps h₁)) (storePlace_keeps h₁)
    · exact storePlace_keeps h₁
  · exact storePlace_keeps h₁

theorem doStore_keeps (h : Keeps s₀ s) {k : Nat} {t : Team} {ord : BitVec 2} {scope : BitVec 3} {lanes : List Nat} {ws : List
    (Place × Word)} :
    Keeps s₀ (doStore s k t ord scope lanes ws) :=
  Keeps.ite (waitHere_keeps h) (Keeps.ite (finish_keeps (writeWords_keeps h)) (releasing_keeps h (fun _ _ h₁ => finish_keeps (Keeps.ite
    (writeWords_keeps h₁) (writeThrough_keeps h₁.upd)))))

theorem vectorStore_keeps (h : Keeps s₀ s) {k d : Nat} {t : Team} {wide : Bool} {ord : BitVec 2} {scope : BitVec 3} {as : List
    (Nat × DWord)} :
    Keeps s₀ (vectorStore s k t wide d ord scope as) :=
  access_keeps h (fun _ _ h₁ => doStore_keeps h₁)

theorem withPattern_keeps {k : Nat} {t : Team} {vs : List (Nat × Bool)} {b o : BitVec 5} {body : Team → List (Nat × DWord) → State}
    (h : Keeps s₀ s) (hbody : ∀ b c, Keeps s₀ (body b c)) :
    Keeps s₀ (withPattern s k t vs b o body) :=
  Keeps.ite (illop_keeps h) (gated_keeps h (fun _ => hbody _ _))

theorem dropRange_keeps (h : Keeps s₀ s) {core : Nat} {home : Bool} {p : Nat → Bool} : Keeps s₀ (dropRange s core home p) :=
  Keeps.ite (Keeps.foldl (fun _ _ h₁ => Keeps.foldl (fun _ _ h₂ => Keeps.ite (setL1_keeps h₂) h₂) h₁) h.upd) (Keeps.foldl (fun _ _ h₁ =>
    Keeps.foldl (fun _ _ h₂ => Keeps.ite (setL2_keeps (Keeps.ite (homeWrite_keeps (leaving_keeps h₂)) h₂)) h₂) h₁) (Keeps.foldl (fun _ _
    h₁ => Keeps.foldl (fun _ _ h₂ => Keeps.ite (setL1_keeps h₂) h₂) h₁) h.upd))

theorem cacheControl_keeps (h : Keeps s₀ s) {inv : Bool} {b l : BitVec 5} {scope : BitVec 3} :
    KeepsOut s₀ (cacheControl inv b l scope s) := by
  unfold cacheControl
  dsimp only
  refine memory_keeps h (fun _ _ => (gated_keeps h (fun _ => (Keeps.ite (finish_keeps h) ?_))))
  split
  · exact refuse1_keeps h
  · exact waitHere_keeps (noteMisses_keeps h)
  · exact releasing_keeps (noteMisses_keeps h) (fun _ _ h₁ => finish_keeps (Keeps.ite (dropRange_keeps h₁) h₁))

theorem askPlaces_keeps (h : Keeps s₀ s) {ps : List Place} : Keeps s₀ (askPlaces s ps) := by
  unfold askPlaces
  refine Keeps.foldl (fun _ _ h₁ => ?_) h
  split
  · exact askHost_keeps h₁
  · exact h₁

theorem readPlaces_keeps (h : Keeps s₀ s) {k : Nat} {t : Team} {ps : List Place} : Keeps s₀ (readPlaces s k t ps).1 := by
  unfold readPlaces
  dsimp only
  refine Keeps.foldl₂ (fun _ _ h₁ => ?_) h
  exact readPlace_keeps h₁

theorem writePlaces_keeps (h : Keeps s₀ s) {k : Nat} {t : Team} {ps : List Place} {ws : List Word} : Keeps s₀ (writePlaces s k t ps ws) :=
  writeWords_keeps h

theorem spillThen_keeps {α : Type} {k : Nat} {r : Except SpillStop α} {f : α → State} (h : Keeps s₀ s)
    (hf : ∀ x, r = .ok x → Keeps s₀ (f x)) : Keeps s₀ (spillThen s k r f) := by
  unfold spillThen
  split
  · exact hf _ rfl
  · exact refuse_keeps h
  · exact debugEvent_keeps h
  · exact waitHere_keeps h

theorem imageAccess_keeps {k align n : Nat} {t : Team} {va : DWord} {a : Acc} {body : State → List Place → State} (h : Keeps s₀ s)
    (hbody : ∀ b c, Keeps s₀ b → Keeps s₀ (body b c)) :
    Keeps s₀ (imageAccess s k t align n va a body) := by
  unfold imageAccess
  dsimp only
  refine Keeps.ite (waitHere_keeps h) ?_
  split
  · exact refuse_keeps (noteMisses_keeps h)
  · exact waitHere_keeps (noteMisses_keeps h)
  · exact spillThen_keeps (noteMisses_keeps h) (fun _ _ => Keeps.ite (waitHere_keeps (noteMisses_keeps h)) (unlessWatched_keeps
      (noteMisses_keeps h) (hbody _ _ (noteMisses_keeps h))))

theorem imageWords_keeps {k : Nat} {t : Team} {ps : List Place} {f : State → List Datum → State} (h : Keeps s₀ s)
    (hf : ∀ b c, Keeps s₀ b → Keeps s₀ (f b c)) :
    Keeps s₀ (imageWords s k t ps f) :=
  Keeps.ite (waitHere_keeps (askPlaces_keeps h)) (hf _ _ (readPlaces_keeps h))

/-! ### Atomics -/

theorem atomAt_keeps (h : Keeps s₀ s) {point : Point} {a : AtomReq} {l : AtomLane} : Keeps s₀ (atomAt s point a l).1 := by
  unfold atomAt
  dsimp only
  split
  · dsimp only
    refine Keeps.ite ?_ ?_
    · refine pointWrite_keeps (pointWrite_keeps (Keeps.ite_fst (pointRead_keeps (pointRead_keeps (Keeps.ite (Keeps.ite (purgeL2_keeps
        (purgeL2_keeps h)) (purgeL2_keeps h)) h))) ?_))
      exact pointRead_keeps (Keeps.ite (Keeps.ite (purgeL2_keeps (purgeL2_keeps h)) (purgeL2_keeps h)) h)
    · refine pointWrite_keeps (Keeps.ite_fst (pointRead_keeps (pointRead_keeps (Keeps.ite (Keeps.ite (purgeL2_keeps (purgeL2_keeps h))
        (purgeL2_keeps h)) h))) ?_)
      exact pointRead_keeps (Keeps.ite (Keeps.ite (purgeL2_keeps (purgeL2_keeps h)) (purgeL2_keeps h)) h)
  · dsimp only
    refine Keeps.ite_fst (pointRead_keeps (pointRead_keeps (Keeps.ite (Keeps.ite (purgeL2_keeps (purgeL2_keeps h)) (purgeL2_keeps h))
      h))) ?_
    exact pointRead_keeps (Keeps.ite (Keeps.ite (purgeL2_keeps (purgeL2_keeps h)) (purgeL2_keeps h)) h)

theorem atomPad_keeps (h : Keeps s₀ s) {mode : Word} {fn lane c o y : Nat} {x : ℤ} : Keeps s₀ (atomPad s mode fn lane c o x y).1 := by
  unfold atomPad
  dsimp only
  split
  · exact Keeps.ite (writePad_keeps (writePad_keeps (Keeps.ite (tendPad_keeps (tendPad_keeps h)) (tendPad_keeps h)))) (writePad_keeps
      (Keeps.ite (tendPad_keeps (tendPad_keeps h)) (tendPad_keeps h)))
  · exact Keeps.ite (tendPad_keeps (tendPad_keeps h)) (tendPad_keeps h)

theorem atomLanes_keeps (h : Keeps s₀ s) {point : Point} {a : AtomReq} : Keeps s₀ (atomLanes s point a).1 := by
  unfold atomLanes
  dsimp only
  refine Keeps.foldl₂ (fun _ _ h₁ => ?_) h
  exact atomAt_keeps h₁

theorem pumpHome_keeps (h : Keeps s₀ s) {op h' : Nat} : Keeps s₀ (pumpHome s op h') := by
  unfold pumpHome
  dsimp only
  split
  · exact h
  · split
    · exact h
    · exact Keeps.ite h (Keeps.ite h.upd (enqueueCut_keeps h.upd))

theorem pumpAtoms_keeps (h : Keeps s₀ s) {op : Nat} : Keeps s₀ (pumpAtoms s op) := Keeps.foldl (fun _ _ h₁ => pumpHome_keeps h₁) h

theorem landAtoms_keeps (h : Keeps s₀ s) {op : Nat} {vals : List (Nat × Nat × Datum)} : Keeps s₀ (landAtoms s op vals) :=
  finishLoads_keeps (pumpAtoms_keeps (Keeps.foldl (fun _ _ h₁ => outdate_keeps h₁) h).upd)

theorem shed_keeps (h : Keeps s₀ s) {core pa : Nat} {toHome : Bool} : Keeps s₀ (shed s core pa toHome) := by
  unfold shed
  dsimp only
  refine setL1_keeps (Keeps.ite ?_ (performPubs_keeps (killMisses_keeps h)))
  split
  · exact performPub_keeps (leaving_keeps (performPubs_keeps (killMisses_keeps h))).upd
  · exact performPubs_keeps (killMisses_keeps h)

theorem doAtoms_keeps (h : Keeps s₀ s) {k fn : Nat} {t : Team} {dst : Dst} {point : Point} {acq : Bool} {us : List AtomUse} :
    Keeps s₀ (doAtoms s k t dst fn point acq us) := by
  unfold doAtoms
  dsimp only
  refine Keeps.ite (finish_keeps (Keeps.ite (invalidateClean_keeps (Keeps.ite (flushMisses_keeps h) h)) (Keeps.ite (flushMisses_keeps h)
    h))) ?_
  refine Keeps.ite (waitHere_keeps (Keeps.foldl (fun _ a h₁ => askHost_keeps h₁) (Keeps.ite (flushMisses_keeps h) h))) ?_
  refine Keeps.ite (waitHere_keeps (Keeps.ite (flushMisses_keeps h) h)) (landAtoms_keeps (finish_keeps (Keeps.upd ?_)))
  refine Keeps.foldl₂ ?_ ?_
  · intro r a h₁
    split
    · exact atomPad_keeps h₁
    · refine Keeps.ite_fst h₁ ?_
      exact atomAt_keeps h₁
  · exact Keeps.ite (Keeps.foldl (fun _ a h₁ => shed_keeps h₁) (Keeps.ite (flushMisses_keeps h) h)) (Keeps.ite (flushMisses_keeps h) h)

theorem atomThen_keeps (h : Keeps s₀ s) {k fn : Nat} {t : Team} {dst : Dst} {ord : BitVec 2} {scope : BitVec 3} {lanes : LaneMask}
    {ps : List Place} {us : List AtomUse} :
    Keeps s₀ (atomThen s k t dst fn ord scope lanes ps us) :=
  Keeps.ite (waitHere_keeps h) (Keeps.ite (releasing_keeps h (fun _ _ h₁ => checkedLanes_keeps h₁ (fun _ h₂ => doAtoms_keeps h₂)))
    (checkedLanes_keeps h (fun _ h₁ => doAtoms_keeps h₁)))

theorem atomic_keeps (h : Keeps s₀ s) {fn : Nat} {d o : BitVec 6} {b : BitVec 5} {ord : BitVec 2} {scope : BitVec 3} {ta : Bool} :
    KeepsOut s₀ (atomic fn d b o ord scope ta s) := by
  unfold atomic
  dsimp only
  refine memory_keeps h (fun _ _ => ?_)
  split
  · exact illop_keeps h
  · exact Keeps.ite (illop_keeps h) (gated_keeps h (fun _ => access_keeps h (fun _ _ h₁ => atomThen_keeps h₁)))

theorem readStamp_keeps (h : Keeps s₀ s) {k core hint : Nat} {point : Point} {pl : Place} :
    Keeps s₀ (readStamp s k core point pl hint).1 := by
  unfold readStamp
  dsimp only
  split
  · exact tendPad_keeps (tendPad_keeps h)
  · exact pointRead_keeps (pointRead_keeps h)

theorem pastStamp_keeps (h : Keeps s₀ s) {core : Nat} {point : Point} {p : Place} : Keeps s₀ (pastStamp s core point p) := by
  unfold pastStamp
  split
  · exact Keeps.ite h (outdate_keeps (outdate_keeps h))
  · exact h

theorem askStamp_keeps (h : Keeps s₀ s) {p : Place} : Keeps s₀ (askStamp s p) := by
  unfold askStamp
  split
  · exact askHost_keeps h
  · exact h

/-! ### Barriers -/

theorem setBar_keeps (h : Keeps s₀ s) {c n : Nat} {b : Barrier} : Keeps s₀ (setBar s c n b) := setCrew_keeps h

theorem barrierOp_keeps {n : BitVec 6} {body : Nat → Team → State} (h : Keeps s₀ s) (hbody : ∀ b c, Keeps s₀ (body b c)) :
    KeepsOut s₀ (barrierOp n s body) :=
  withTeam_keeps (fun _ _ => Keeps.ite (illop_keeps h) (hbody _ _))

/-! ### Control -/

theorem readSpill_keeps (h : Keeps s₀ s) {k i : Nat} {t : Team} : Keeps s₀ (readSpill s k t i).1 := by
  unfold readSpill
  dsimp only
  split
  · exact noteMisses_keeps h
  · refine Keeps.ite_fst ?_ ?_
    · exact noteMisses_keeps h
    · refine Keeps.ite_fst ?_ ?_
      · exact askPlaces_keeps (noteMisses_keeps h)
      · split
        · exact readPlaces_keeps (noteMisses_keeps h)
        · exact readPlaces_keeps (noteMisses_keeps h)

theorem push_keeps {k : Nat} {t : Team} {deep : Bool} {e : Entry} {cont : State → Team → State} (h : Keeps s₀ s)
    (hcont : ∀ b c, Keeps s₀ b → Keeps s₀ (cont b c)) :
    Keeps s₀ (push s k t deep e cont) :=
  Keeps.ite (Keeps.ite (refuse_keeps h) (hcont _ _ h)) (Keeps.ite (refuse_keeps h) (Keeps.ite (Keeps.ite (refuse_keeps h) (hcont _ _ h))
    (spillThen_keeps (noteMisses_keeps h) (fun _ _ => Keeps.ite (refuse_keeps (noteMisses_keeps h)) (Keeps.ite (waitHere_keeps
    (noteMisses_keeps h)) (unlessWatched_keeps (noteMisses_keeps h) (hcont _ _ (writePlaces_keeps (noteMisses_keeps h)))))))))

theorem refill_keeps {k n : Nat} {t : Team} (h : Keeps s₀ s) : Keeps s₀ (refill s k n t).1 := by
  induction n generalizing s t with
  | zero => exact h
  | succ n ih =>
    rw [refill]
    refine Keeps.ite_fst h ?_
    split
    · have read := (readSpill_keeps h).of_fst ‹_›
      exact Keeps.ite_fst read (ih read)
    · exact (readSpill_keeps h).of_fst ‹_›

theorem reconvergeStep_keeps (h : Keeps s₀ s) {k : Nat} {t : Team} : Keeps s₀ (reconvergeStep s k t).1 := by
  unfold reconvergeStep
  dsimp only
  split
  · refine Keeps.ite_fst ?_ h
    split
    all_goals have h₁ := (refill_keeps h).of_fst ‹_›
    · exact h₁
    · exact h₁
  · exact Keeps.ite_fst h (Keeps.ite_fst (Keeps.ite_fst h (Keeps.ite_fst h h)) h)

theorem reloaded_keeps (h : Keeps s₀ s) {k : Nat} {t : Team} : Keeps s₀ (reloaded s k t).1 := by
  unfold reloaded
  split
  all_goals have h₁ := (refill_keeps h).of_fst ‹_›
  · exact h₁
  · exact h₁

theorem reconverge_keeps {k n : Nat} {t : Team} (h : Keeps s₀ s) : Keeps s₀ (reconverge s k n t).1 := by
  induction n generalizing s t with
  | zero => exact reloaded_keeps h
  | succ n ih =>
    rw [reconverge]
    split
    all_goals have stepped := (reconvergeStep_keeps h).of_fst ‹_›
    · exact ih stepped
    · exact reloaded_keeps stepped
    · exact stepped

theorem proceed_keeps (h : Keeps s₀ s) {k : Nat} {t : Team} : Keeps s₀ (proceed s k t) := by
  unfold proceed
  refine Keeps.ite (setTeam_keeps h) ?_
  split
  all_goals have h₁ := (reconverge_keeps h).of_fst ‹_›
  · exact setTeam_keeps h₁
  · exact retireTeam_keeps (setTeam_keeps h₁)
  · exact setTeam_keeps h₁

theorem enter_keeps (h : Keeps s₀ s) {k : Nat} {t : Team} {dest : DWord} : Keeps s₀ (enter s k t dest) :=
  Keeps.ite (refuse_keeps h) (setTeam_keeps h)

theorem readSpilled_keeps {k n : Nat} {t : Team} (h : Keeps s₀ s) : Keeps s₀ (readSpilled s k t n).1 := by
  induction n generalizing s with
  | zero => exact h
  | succ n ih =>
    rw [readSpilled]
    split
    · exact (readSpill_keeps h).of_fst ‹_›
    · have rest := ih ((readSpill_keeps h).of_fst ‹_›)
      split <;> exact rest.of_fst ‹_›

theorem writeSpilled_keeps {k : Nat} {t : Team} {es : List Entry} {s' : State} (h : Keeps s₀ s)
    (eq : writeSpilled s k t es = .ok s') : Keeps s₀ s' := by
  induction es generalizing s with
  | nil =>
    cases eq
    exact h
  | cons e es ih =>
    rw [writeSpilled] at eq
    split at eq
    · cases eq
    · exact ih (writePlaces_keeps h) eq

theorem shownEntry_keeps (h : Keeps s₀ s) {k i : Nat} {t : Team} : Keeps s₀ (shownEntry s k t i).1 := Keeps.ite_fst h (readSpill_keeps h)

theorem waitFor_keeps (h : Keeps s₀ s) {k : Nat} {t : Team} {vs ss : Option (List Nat)} : Keeps s₀ (waitFor s k t vs ss) := by
  unfold waitFor
  dsimp only
  split
  · exact raise_keeps h
  · exact raise_keeps h
  · exact Keeps.ite (waitHere_keeps h) (finish_keeps h)

/-! ### Moves -/

theorem startProducer_keeps (h : Keeps s₀ s) {k : Nat} {t : Team} {p : Producer} : Keeps s₀ (startProducer s k t p) := finish_keeps h.upd

theorem setLanes_keeps (h : Keeps s₀ s) {k d : Nat} {t : Team} {wide : Bool} {src ssrc : List (Nat × Bool)} {f : Team → Nat → Nat} :
    Keeps s₀ (setLanes s k t wide d src ssrc f) :=
  gated_keeps h (fun _ => finish_keeps h)

theorem setHigh_keeps (h : Keeps s₀ s) {lo : Nat} {d : BitVec 5} {imm : BitVec 21} : KeepsOut s₀ (setHigh lo d imm s) :=
  withTeam_keeps (fun _ _ => gated_keeps h (fun _ => finish_keeps h))

/-! ### Matrix -/

theorem enqueueCmd_keeps (h : Keeps s₀ s) {core : Nat} {q : ArrayCmd} : Keeps s₀ (enqueueCmd s core q) := (setCore_keeps h).upd

theorem afterCommands_keeps {k : Nat} {t : Team} {p : ArrayCmd → Bool} {cont : Team → State} (h : Keeps s₀ s) (hcont : ∀ b, Keeps s₀
    (cont b)) :
    Keeps s₀ (afterCommands s k t p cont) :=
  Keeps.ite (waitHere_keeps (setTeam_keeps h)) (hcont _)

theorem queueTeamCmd_keeps (h : Keeps s₀ s) {k ver : Nat} {t : Team} {w : Word} {ops : List DWord} :
    Keeps s₀ (queueTeamCmd s k t w ver ops) :=
  Keeps.ite (finish_keeps (enqueueCmd_keeps h)) (waitHere_keeps h)

theorem retireCmd_keeps (h : Keeps s₀ s) {core : Nat} {q : ArrayCmd} : Keeps s₀ (retireCmd s core q) := setCrew_keeps (setCore_keeps h)

theorem setFlt_keeps (h : Keeps s₀ s) {crew a : Nat} {on : Bool} : Keeps s₀ (setFlt s crew a on) := setCrew_keeps h

theorem countFaulted_keeps (h : Keeps s₀ s) {crew : Nat} : Keeps s₀ (countFaulted s crew) := logRas_keeps (count_keeps h)

theorem readAcc_keeps (h : Keeps s₀ s) {crew a : Nat} {hit : Nat → Bool} : Keeps s₀ (readAcc s crew a hit) :=
  Keeps.ite (setFlt_keeps (countFaulted_keeps (tendAcc_keeps h))) (tendAcc_keeps h)

theorem acstWord_keeps (h : Keeps s₀ s) {core band launch tenant size : Nat} {va : DWord} {es : List (Nat × Nat)} {val : Nat → Nat} :
    Keeps s₀ (acstWord s core band launch tenant va es size val) := by
  unfold acstWord
  dsimp only
  split
  · refine Keeps.ite (storePlace_keeps h) ?_
    split
    all_goals have h₁ := (readPlace_keeps h).of_fst ‹_›
    · exact storePlace_keeps h₁
    · exact h₁
  · exact h

theorem acstAsk_keeps (h : Keeps s₀ s) {core band : Nat} {q : ArrayCmd} : Keeps s₀ (acstAsk s core band q) := by
  unfold acstAsk
  dsimp only
  refine Keeps.foldl (fun _ _ h₁ => (Keeps.foldl (fun _ _ h₂ => ?_) h₁)) h
  split
  · exact Keeps.ite h₂ (askHost_keeps h₂)
  · exact h₂

theorem readVersion_keeps (h : Keeps s₀ s) {d a : Nat} {w : Option Nat} : KeepsOut s₀ (readVersion s d a w) := by
  unfold readVersion
  dsimp only
  refine withTeam_keeps (fun _ _ => ?_)
  refine Keeps.ite (illop_keeps h) (gated_keeps h (fun _ => ?_))
  split
  · exact raise_keeps h
  · split
    · exact Keeps.ite (waitHere_keeps h) (finish_keeps h)
    · exact finish_keeps h

theorem withTile_keeps {k a : Nat} {t : Team} {u : Use} {body : Team → Shape → State} (h : Keeps s₀ s) (hbody : ∀ b c, Keeps s₀
    (body b c)) :
    Keeps s₀ (withTile s k t a u body) :=
  Keeps.ite (illop_keeps h) (gated_keeps h (fun _ => Keeps.ite (hbody _ _) (refuse1_keeps h)))

theorem tileAccess_keeps {k tile : Nat} {t : Team} {h' : Shape} {base stride : DWord} {a : Acc}
    {body : State → List DWord → List Place → State} (h : Keeps s₀ s) (hbody : ∀ b c d, Keeps s₀ b → Keeps s₀ (body b c d)) :
    Keeps s₀ (tileAccess s k t h' base stride a tile body) :=
  Keeps.ite (refuse_keeps h) (Keeps.ite (refuse_keeps h) (spillThen_keeps (noteMisses_keeps h) (fun _ _ => unlessWatchedAny_keeps
    (noteMisses_keeps h) (afterCommands_keeps (noteMisses_keeps h) (fun _ => Keeps.ite (hbody _ _ _ (noteMisses_keeps h)) (waitHere_keeps
    (noteMisses_keeps h)))))))

/-! ### Queues -/

theorem pointDword_keeps (h : Keeps s₀ s) {p : Point} {core pa key tenant : Nat} : Keeps s₀ (pointDword s p core pa key tenant).1 :=
  pointRead_keeps (pointRead_keeps h)

theorem putPointDword_keeps (h : Keeps s₀ s) {p : Point} {core pa key launch : Nat} {x : DWord} :
    Keeps s₀ (putPointDword s p core pa key x launch) :=
  pointWrite_keeps (pointWrite_keeps h)

theorem askHome_keeps (h : Keeps s₀ s) {rd wr : Bool} {pa : Nat} : Keeps s₀ (askHome s rd wr pa) :=
  Keeps.ite (askHost_keeps (askBoth_keeps h)) (askHost_keeps h)

theorem refuseWrote_keeps (h : Keeps s₀ s) {k cause : Nat} {value : DWord} : Keeps s₀ (refuseWrote s k cause value) := refuse_keeps h

theorem atHomesOr_keeps {k : Nat} {t : Team} {fault : State → Nat → State} {vas : List DWord} {rd wr : Bool} {body : State → List
    (Nat × Nat) → State} (h : Keeps s₀ s) (hfault : ∀ b c, Keeps s₀ b → Keeps s₀ (fault b c)) (hbody : ∀ b c, Keeps s₀ b → Keeps s₀
    (body b c)) :
    Keeps s₀ (atHomesOr s k t fault vas rd wr body) := by
  unfold atHomesOr
  dsimp only
  split
  · exact hfault _ _ (noteMisses_keeps h)
  · exact waitHere_keeps (noteMisses_keeps h)
  · exact waitHere_keeps (noteMisses_keeps h)
  · exact Keeps.ite (hbody _ _ (noteMisses_keeps h)) (waitHere_keeps (Keeps.foldl (fun _ _ h₁ => askHome_keeps h₁) (noteMisses_keeps h)))

theorem atHomes_keeps {k : Nat} {t : Team} {value : DWord} {vas : List DWord} {rd wr : Bool} {body : State → List (Nat × Nat) → State}
    (h : Keeps s₀ s) (hbody : ∀ b c, Keeps s₀ b → Keeps s₀ (body b c)) :
    Keeps s₀ (atHomes s k t value vas rd wr body) :=
  atHomesOr_keeps h (fun _ _ h₁ => Keeps.ite (refuseWrote_keeps h₁) (refuse1_keeps h₁)) (fun _ _ h₁ => hbody _ _ h₁)

theorem readHeader_keeps (h : Keeps s₀ s) {core tenant : Nat} {ws : List (Nat × Nat)} : Keeps s₀ (readHeader s core tenant ws).1 := by
  unfold readHeader
  dsimp only
  exact pointDword_keeps (pointDword_keeps (pointDword_keeps (pointDword_keeps h)))

theorem setHeader_keeps (h : Keeps s₀ s) {core i x : Nat} {h' : Header} : Keeps s₀ (setHeader s core h' i x) := putPointDword_keeps h

theorem withQueue_keeps {k : Nat} {t : Team} {q value : DWord} {mal : Option DWord} {body : State → Header → State} (h : Keeps s₀ s)
    (hbody : ∀ b c, Keeps s₀ b → Keeps s₀ (body b c)) :
    Keeps s₀ (withQueue s k t q mal value body) := by
  unfold withQueue
  dsimp only
  refine Keeps.ite (refuseWrote_keeps h) (Keeps.ite ?_ ?_)
  · split
    · exact refuse1_keeps h
    · exact refuseWrote_keeps h
  · refine atHomesOr_keeps h ?_ ?_
    · intro s₁ a_1 h₁
      split
      · exact refuse1_keeps h₁
      · exact refuseWrote_keeps h₁
    · intro s₁ a_1 h₁
      split
      all_goals have h₂ := (readHeader_keeps h₁).of_fst ‹_›
      · refine Keeps.ite (refuse1_keeps h₂) ?_
        split
        · exact refuse1_keeps h₂
        · exact unlessWatched_keeps h₂ (hbody _ _ h₂)
      · split
        · exact refuse1_keeps h₂
        · exact refuseWrote_keeps h₂

theorem appendSlot_keeps (h : Keeps s₀ s) {core launch : Nat} {h' : Header} {slot : List (Nat × Nat)} {ws : List DWord}
    {team : Option Nat} :
    Keeps s₀ (appendSlot s core h' slot ws launch team) :=
  (Keeps.ite (setHeader_keeps (Keeps.foldl (fun _ _ h₁ => pointWrite_keeps h₁) (setHeader_keeps h))) (Keeps.foldl (fun _ _ h₁ =>
    pointWrite_keeps h₁) (setHeader_keeps h))).upd

theorem appendCopy_keeps (h : Keeps s₀ s) {kind : Nat} {x y : BitVec 5} : KeepsOut s₀ (appendCopy kind x y s) := by
  unfold appendCopy
  dsimp only
  refine memory_keeps h (fun _ _ => (gated_keeps h (fun _ => (Keeps.ite (refuse1_keeps h) ?_))))
  split
  · exact refuse1_keeps h
  · exact withQueue_keeps h (fun _ _ h₁ => releasing_keeps h₁ (fun _ _ h₂ => Keeps.ite (waitHere_keeps (setTeam_keeps h₂)) (atHomes_keeps
      h₂ (fun _ _ h₃ => unlessWatched_keeps h₃ (finish_keeps (appendSlot_keeps h₃))))))

theorem appendLaunch_keeps {die q tenant : Nat} {sup : Bool} {ws : List DWord} {s' : State} (h : Keeps s₀ s)
    (eq : appendLaunch s die q tenant sup ws = some s') : Keeps s₀ s' := by
  unfold appendLaunch at eq
  split at eq
  · cases eq
  · cases eq
    exact (setLaunch_keeps h).upd

theorem withPipe_keeps {k : Nat} {t : Team} {q : DWord} {body : State → List (Nat × Nat) → Bool → Nat → Nat → Nat → State}
    (h : Keeps s₀ s) (hbody : ∀ s ws f cap head tail, Keeps s₀ s → Keeps s₀ (body s ws f cap head tail)) :
    Keeps s₀ (withPipe s k t q body) := by
  unfold withPipe
  refine Keeps.ite (refuseWrote_keeps h) (Keeps.ite (refuseWrote_keeps h) (atHomes_keeps h fun _ ws h₁ => ?_))
  extract_lets tenant rd
  have hrd : ∀ s i, Keeps s₀ s → Keeps s₀ (rd s i).1 := fun _ _ h => pointDword_keeps h
  clear_value rd
  split
  have h₂ := (hrd _ _ h₁).of_fst ‹_›
  split
  have h₃ := (hrd _ _ h₂).of_fst ‹_›
  split
  have h₄ := (hrd _ _ h₃).of_fst ‹_›
  split
  · exact refuseWrote_keeps h₄
  · exact Keeps.ite (refuse1_keeps h₄) (unlessWatched_keeps h₄ (hbody _ _ _ _ _ _ h₄))

theorem noteQapp_keeps (h : Keeps s₀ s) {k : Nat} : Keeps s₀ (noteQapp s k) := setLaunch_keeps h

/-! ### Graph -/

theorem walkerRead_keeps (h : Keeps s₀ s) {die tenant : Nat} {va : DWord} : Keeps s₀ (walkerRead s die tenant va).1 := by
  unfold walkerRead
  dsimp only
  split
  · split
    all_goals have h₁ := (pointDword_keeps h).of_fst ‹_›
    · exact h₁
    · exact h₁
  · exact (noteMiss_keeps h).upd
  · exact h

theorem walkerWrite_keeps (h : Keeps s₀ s) {die tenant : Nat} {va x : DWord} : Keeps s₀ (walkerWrite s die tenant va x) := by
  unfold walkerWrite
  dsimp only
  split
  · exact putPointDword_keeps h
  · exact (noteMiss_keeps h).upd
  · exact h

theorem walkerPush_keeps (h : Keeps s₀ s) {w : Walking} : Keeps s₀ (walkerPush s w) := h.upd

theorem readTcb_keeps (h : Keeps s₀ s) {die tenant : Nat} {va : DWord} : Keeps s₀ (readTcb s die tenant va).1 := by
  unfold readTcb
  split
  all_goals have h₁ := (walkerRead_keeps h).of_fst ‹_›
  · split
    all_goals have h₂ := (walkerRead_keeps h₁).of_fst ‹_›
    · exact h₂
    · exact h₂
  · exact h₁

theorem walkerPacket_keeps (h : Keeps s₀ s) {die tenant : Nat} {va : DWord} : Keeps s₀ (walkerPacket s die tenant va).1 := by
  unfold walkerPacket
  refine Keeps.foldl₂ (fun _ _ h₁ => ?_) h
  split
  · exact h₁
  · split
    all_goals have h₂ := (walkerRead_keeps h₁).of_fst ‹_›
    · exact h₂
    · exact h₂

theorem walkerPlaces_keeps (h : Keeps s₀ s) {die tenant : Nat} {va : DWord} : Keeps s₀ (walkerPlaces s die tenant va).1 := by
  unfold walkerPlaces
  dsimp only
  refine Keeps.foldl₂ (fun _ _ h₁ => ?_) h
  split
  · exact h₁
  · exact (noteMiss_keeps h₁).upd
  · exact h₁

theorem walkerAppend_keeps (h : Keeps s₀ s) {die tenant : Nat} {q : DWord} {ws : List DWord} :
    Keeps s₀ (walkerAppend s die tenant q ws).1 := by
  unfold walkerAppend
  split
  all_goals have header := (walkerPlaces_keeps h).of_fst ‹_›
  · exact header
  · split
    all_goals have read := (readHeader_keeps header).of_fst ‹_›
    · refine Keeps.ite_fst read (Keeps.ite_fst read ?_)
      split
      all_goals have slot := (walkerPlaces_keeps read).of_fst ‹_›
      · exact slot
      · exact appendSlot_keeps slot
    · exact read

theorem startNode_keeps (h : Keeps s₀ s) {die tenant : Nat} {va : DWord} {b : Tcb} : Keeps s₀ (startNode s die tenant va b) := by
  unfold startNode
  dsimp only
  refine Keeps.ite (walkerPush_keeps h) (Keeps.ite (walkerPush_keeps h) (Keeps.ite ?_ ?_))
  · split
    all_goals have h₁ := (walkerRead_keeps h).of_fst ‹_›
    · exact walkerPush_keeps h₁
    · split
      all_goals have h₂ := (walkerPacket_keeps h₁).of_fst ‹_›
      · exact walkerPush_keeps h₂
      · refine Keeps.ite ?_ ?_
        · refine Keeps.ite (walkerPush_keeps h₂) ?_
          split
          · exact appendLaunch_keeps h₂ ‹_›
          · exact walkerPush_keeps h₂
        · split
          all_goals have h₃ := (walkerRead_keeps h₂).of_fst ‹_›
          · exact walkerPush_keeps h₃
          · split
            all_goals have h₄ := (walkerAppend_keeps h₃).of_fst ‹_›
            · exact h₄
            · exact walkerPush_keeps h₄
            · exact walkerPush_keeps h₄
  · refine Keeps.ite ?_ ?_
    · split
      · refine walkerPush_keeps (Keeps.of_fst ?_ ‹_›)
        split
        · have h₁ := (walkerRead_keeps h).of_fst ‹_›
          exact walkerRead_keeps h₁
        · exact walkerRead_keeps h
      · refine walkerPush_keeps (Keeps.of_fst ?_ ‹_›)
        split
        · have h₁ := (walkerRead_keeps h).of_fst ‹_›
          exact walkerRead_keeps h₁
        · exact walkerRead_keeps h
      · split
        · refine walkerPush_keeps (Keeps.of_fst ?_ ‹_›)
          refine walkerRead_keeps (Keeps.of_fst ?_ ‹_›)
          split
          · have h₁ := (walkerRead_keeps h).of_fst ‹_›
            exact walkerRead_keeps h₁
          · exact walkerRead_keeps h
        · refine walkerPush_keeps (Keeps.of_fst ?_ ‹_›)
          refine walkerRead_keeps (Keeps.of_fst ?_ ‹_›)
          split
          · have h₁ := (walkerRead_keeps h).of_fst ‹_›
            exact walkerRead_keeps h₁
          · exact walkerRead_keeps h
    · refine Keeps.ite ?_ (walkerPush_keeps h)
      split
      all_goals have h₁ := (walkerRead_keeps h).of_fst ‹_›
      · exact walkerPush_keeps h₁
      · split
        all_goals have h₂ := (walkerRead_keeps h₁).of_fst ‹_›
        · exact walkerPush_keeps h₂
        · split
          all_goals have h₃ := (walkerRead_keeps h₂).of_fst ‹_›
          · exact walkerPush_keeps h₃
          · exact walkerPush_keeps (walkerWrite_keeps h₃)

theorem decrement_keeps (h : Keeps s₀ s) {die tenant : Nat} {va : DWord} : Keeps s₀ (decrement s die tenant va) := by
  unfold decrement
  dsimp only
  split
  all_goals have h₁ := (readTcb_keeps h).of_fst ‹_›
  · exact h₁
  · exact Keeps.ite (Keeps.ite (walkerPush_keeps h₁) (startNode_keeps h₁)) (Keeps.ite (walkerWrite_keeps h₁) (Keeps.ite (startNode_keeps
      (walkerWrite_keeps h₁)) (walkerWrite_keeps h₁)))

theorem successors_keeps (h : Keeps s₀ s) {die tenant n : Nat} {va : DWord} : Keeps s₀ (successors s die tenant va n).1 := by
  unfold successors
  dsimp only
  refine Keeps.ite_fst ?_ ?_
  · refine Keeps.foldl₂ (fun r a h₁ => ?_) h
    split
    all_goals have h₂ := (walkerRead_keeps h₁).of_fst ‹_›
    · exact h₂
    · exact h₂
  · split
    · dsimp only
      refine Keeps.of_fst ?_ ‹_›
      refine walkerRead_keeps (Keeps.foldl₂ (fun r a h₁ => ?_) h)
      split
      all_goals have h₂ := (walkerRead_keeps h₁).of_fst ‹_›
      · exact h₂
      · exact h₂
    · refine Keeps.foldl₂ ?_ ?_
      · intro r a h₁
        split
        all_goals have h₂ := (walkerRead_keeps h₁).of_fst ‹_›
        · exact h₂
        · exact h₂
      · dsimp only
        refine Keeps.of_fst ?_ ‹_›
        refine walkerRead_keeps (Keeps.foldl₂ (fun r a h₁ => ?_) h)
        split
        all_goals have h₂ := (walkerRead_keeps h₁).of_fst ‹_›
        · exact h₂
        · exact h₂

theorem completeNode_keeps (h : Keeps s₀ s) {die tenant : Nat} {va : DWord} {err : Bool} :
    Keeps s₀ (completeNode s die tenant va err) := by
  unfold completeNode
  dsimp only
  split
  all_goals have h₁ := (readTcb_keeps h).of_fst ‹_›
  · exact Keeps.ite (raiseVector_keeps h₁) h₁
  · exact Keeps.ite (raiseVector_keeps (walkerWrite_keeps h₁)) (Keeps.foldl (fun _ _ h₂ => decrement_keeps h₂) (successors_keeps
      (walkerWrite_keeps h₁)))

theorem walkerItem_keeps (h : Keeps s₀ s) {idx : Nat} : Keeps s₀ (walkerItem idx s) := by
  unfold walkerItem
  dsimp only
  split
  · exact h
  · split
    · exact decrement_keeps h.upd
    · exact completeNode_keeps h.upd
    · split
      all_goals have h₁ := (readTcb_keeps h.upd).of_fst ‹_›
      · exact startNode_keeps h₁
      · exact h₁

/-! ### Copy -/

theorem groupRead_keeps (h : Keeps s₀ s) {die pa key tenant : Nat} : Keeps s₀ (groupRead s die pa key tenant).1 := by
  unfold groupRead
  dsimp only
  split
  · split
    · exact h
    · exact (pointRead_keeps h).upd
  · exact (pointRead_keeps h).upd

theorem destRead_keeps (h : Keeps s₀ s) {die tenant : Nat} {point : Point} {p : Place} : Keeps s₀ (destRead s die tenant point p).1 := by
  unfold destRead
  dsimp only
  split
  · exact readPlace_keeps h
  · refine Keeps.ite_fst ?_ ?_
    · exact pointRead_keeps h
    · exact askHost_keeps h

theorem engineRead_keeps (h : Keeps s₀ s) {die tenant : Nat} {point : Point} {p : Place} :
    Keeps s₀ (engineRead s die tenant point p).1 := by
  unfold engineRead
  dsimp only
  split
  · dsimp only
    exact readPlace_keeps h
  · refine Keeps.ite_fst ?_ ?_
    · refine Keeps.ite_fst ?_ ?_
      · dsimp only
        exact groupRead_keeps h
      · dsimp only
        exact askHost_keeps h
    · refine Keeps.ite_fst ?_ ?_
      · dsimp only
        exact pointRead_keeps h
      · dsimp only
        exact askHost_keeps h

theorem engineWrite_keeps (h : Keeps s₀ s) {die launch : Nat} {point : Point} {p : Place} {w : Word} :
    Keeps s₀ (engineWrite s die point launch p w) := by
  unfold engineWrite
  split
  · exact writePad_keeps h
  · exact pointWrite_keeps h

theorem engineStamp_keeps (h : Keeps s₀ s) {die tenant : Nat} {team : Option Nat} {ws : List DWord} {err : Bool} :
    Keeps s₀ (engineStamp s die tenant team ws err) := by
  unfold engineStamp
  dsimp only
  split
  · exact stampAt_keeps h
  · exact (noteMiss_keeps h).upd
  · exact follow_keeps h

theorem crewStamp_keeps (h : Keeps s₀ s) {ws : List DWord} {crew : Nat} {err : Bool} : Keeps s₀ (crewStamp s ws crew err) :=
  stampAt_keeps h

theorem noteFailure_keeps (h : Keeps s₀ s) {queue slot cause : Nat} : Keeps s₀ (noteFailure s queue slot cause) := by
  unfold noteFailure
  dsimp only
  split
  · exact putPointDword_keeps (putPointDword_keeps (pointDword_keeps h))
  · exact (noteMiss_keeps h).upd
  · exact h

theorem failPacket_keeps (h : Keeps s₀ s) {c : Copy} {cause : Nat} {stamp : Bool} : Keeps s₀ (failPacket s c cause stamp) :=
  (Keeps.ite (follow_keeps (noteFailure_keeps h)) (Keeps.ite (follow_keeps (Keeps.foldl (fun _ _ h₁ => Keeps.ite (crewStamp_keeps h₁) h₁)
    (noteFailure_keeps h))) (Keeps.ite (engineStamp_keeps (noteFailure_keeps h)) (follow_keeps (noteFailure_keeps h))))).upd

theorem setCopy_keeps (h : Keeps s₀ s) {c : Copy} : Keeps s₀ (setCopy s c) := h.upd

theorem abandonCopy_keeps (h : Keeps s₀ s) {c : Copy} {cause : Nat} : Keeps s₀ (abandonCopy s c cause) :=
  Keeps.ite (failPacket_keeps h) h.upd

theorem copyAt_keeps (h : Keeps s₀ s) {c : Copy} {va : DWord} {a : Acc} : Keeps s₀ (copyAt s c va a).1 := by
  unfold copyAt
  split
  · exact h
  · exact useDenials_keeps h
  · exact noteMiss_keeps h

theorem copyWord_keeps (h : Keeps s₀ s) {c : Copy} {va : DWord} : Keeps s₀ (copyWord s c va).1 := by
  unfold copyWord
  split
  all_goals have h₁ := (copyAt_keeps h).of_fst ‹_›
  · exact h₁
  · split
    all_goals have h₂ := (engineRead_keeps h₁).of_fst ‹_›
    · exact h₂
    · exact h₂
    · exact h₂

theorem stopCopy_keeps (h : Keeps s₀ s) {c : Copy} {e : Option CopyStop} : Keeps s₀ (stopCopy s c e) := by
  unfold stopCopy
  split
  · exact setCopy_keeps h
  · exact failPacket_keeps h
  · exact setCopy_keeps h
  · exact Keeps.ite (abandonCopy_keeps h) (setCopy_keeps h)

theorem ringDoors_keeps {core tenant n : Nat} {hw : List (Nat × Nat)} (h : Keeps s₀ s) : Keeps s₀ (ringDoors s core tenant hw n) := by
  induction n generalizing s with
  | zero => exact h
  | succ n ih =>
    rw [ringDoors]
    split
    all_goals have read := (readHeader_keeps h).of_fst ‹_›
    · exact Keeps.ite (ih (setHeader_keeps read).upd) read
    · exact read

theorem startCopy_keeps (h : Keeps s₀ s) {c : Copy} : Keeps s₀ (startCopy s c) := by
  unfold startCopy
  dsimp only
  refine Keeps.ite (failPacket_keeps h.upd) (Keeps.ite ?_ ?_)
  · split
    · exact failPacket_keeps h.upd
    · exact h.upd
  · split
    · split
      · refine failPacket_keeps (setCopy_keeps (Keeps.of_fst ?_ ‹_›))
        refine Keeps.foldl₂ ?_ ?_
        · intro r a h₁
          split
          · exact h₁
          · split
            all_goals have h₂ := (copyWord_keeps h₁).of_fst ‹_›
            · exact h₂
            · exact h₂
        · exact h.upd
      · refine setCopy_keeps (Keeps.of_fst ?_ ‹_›)
        refine Keeps.foldl₂ ?_ ?_
        · intro r a h₁
          split
          · exact h₁
          · split
            all_goals have h₂ := (copyWord_keeps h₁).of_fst ‹_›
            · exact h₂
            · exact h₂
        · exact h.upd
    · refine stopCopy_keeps (Keeps.of_fst ?_ ‹_›)
      refine Keeps.foldl₂ ?_ ?_
      · intro r a h₁
        split
        · exact h₁
        · split
          all_goals have h₂ := (copyWord_keeps h₁).of_fst ‹_›
          · exact h₂
          · exact h₂
      · exact h.upd

theorem readGroup_keeps (h : Keeps s₀ s) {c : Copy} : Keeps s₀ (readGroup s c).1 := by
  unfold readGroup
  dsimp only
  refine Keeps.foldl₂ (fun _ _ h₁ => ?_) h
  split
  · exact h₁
  · split
    · exact h₁
    · exact (noteMiss_keeps h₁).upd
    · split
      all_goals have h₂ := (destRead_keeps h₁).of_fst ‹_›
      · exact h₂
      · exact h₂
      · exact h₂.upd

theorem startPart_keeps (h : Keeps s₀ s) {c : Copy} : Keeps s₀ (startPart s c) := by
  unfold startPart
  dsimp only
  refine Keeps.ite (failPacket_keeps h) ?_
  split
  all_goals have h₁ := (readGroup_keeps h).of_fst ‹_›
  · exact failPacket_keeps h₁
  · exact h₁.upd

theorem takePacket_keeps (h : Keeps s₀ s) {die queue : Nat} : Keeps s₀ (takePacket die queue s) := by
  unfold takePacket
  dsimp only
  split
  · exact h
  · refine Keeps.ite h ?_
    split
    all_goals have h₁ := (walkerPlaces_keeps h).of_fst ‹_›
    · exact h₁
    · split
      all_goals have h₂ := (readHeader_keeps (ringDoors_keeps h₁)).of_fst ‹_›
      · refine Keeps.ite h₂ ?_
        split
        all_goals have h₃ := (walkerPacket_keeps h₂).of_fst ‹_›
        · exact h₃
        · split
          · exact failPacket_keeps (setHeader_keeps h₃).upd
          · refine Keeps.ite (Keeps.ite (startPart_keeps (setHeader_keeps h₃).upd) (startCopy_keeps (setHeader_keeps h₃).upd)) ?_
            split
            · exact failPacket_keeps (setHeader_keeps h₃).upd
            · exact (noteMiss_keeps h₃).upd
            · exact Keeps.ite (startPart_keeps (setHeader_keeps h₃).upd) (startCopy_keeps (setHeader_keeps h₃).upd)
      · exact h₂

theorem payloadWord.bytes_keeps (h : Keeps s₀ s) {c : Copy} {i : Nat} : Keeps s₀ (payloadWord.bytes c i s).1 := by
  unfold payloadWord.bytes
  dsimp only
  refine Keeps.foldl₂ (fun _ _ h₁ => ?_) h
  split
  · exact h₁
  · exact h₁
  · split
    all_goals have h₂ := (copyWord_keeps h₁).of_fst ‹_›
    · exact h₂
    · exact h₂

theorem payloadWord_keeps (h : Keeps s₀ s) {c : Copy} {i : Nat} : Keeps s₀ (payloadWord s c i).1 := by
  unfold payloadWord
  split
  · exact Keeps.ite_fst (copyWord_keeps h) (payloadWord.bytes_keeps h)
  · exact payloadWord.bytes_keeps h

theorem mergeWord_keeps (h : Keeps s₀ s) {c : Copy} {va : DWord} {lo n part : Nat} : Keeps s₀ (mergeWord s c va lo n part).1 := by
  unfold mergeWord
  split
  all_goals have h₁ := (copyAt_keeps h).of_fst ‹_›
  · exact h₁
  · split
    all_goals have h₂ := (destRead_keeps h₁).of_fst ‹_›
    · exact h₂
    · exact engineWrite_keeps h₂
    · exact h₂

theorem landWord_keeps (h : Keeps s₀ s) {c : Copy} {va : DWord} {w : Word} : Keeps s₀ (landWord s c va w).1 := by
  unfold landWord
  dsimp only
  split
  all_goals have h₁ := (copyAt_keeps h).of_fst ‹_›
  · dsimp only
    exact h₁
  · refine Keeps.ite_fst h₁ ?_
    dsimp only
    exact engineWrite_keeps h₁
  · dsimp only
    exact engineWrite_keeps h₁

theorem landMemory_keeps (h : Keeps s₀ s) {c : Copy} {i : Nat} {w : Word} : Keeps s₀ (landMemory s c i w).1 := by
  unfold landMemory
  dsimp only
  refine Keeps.ite_fst (landWord_keeps h) ?_
  split
  · dsimp only
    refine Keeps.of_fst ?_ ‹_›
    refine Keeps.ite_fst ?_ (landWord_keeps h)
    split
    all_goals have h₁ := (mergeWord_keeps h).of_fst ‹_›
    · exact h₁
    · exact h₁
  · refine Keeps.ite_fst ?_ ?_
    · dsimp only
      refine Keeps.of_fst ?_ ‹_›
      refine Keeps.ite_fst ?_ (landWord_keeps h)
      split
      all_goals have h₁ := (mergeWord_keeps h).of_fst ‹_›
      · exact h₁
      · exact h₁
    · split
      · dsimp only
        refine Keeps.of_fst ?_ ‹_›
        refine mergeWord_keeps (Keeps.of_fst ?_ ‹_›)
        refine Keeps.ite_fst ?_ (landWord_keeps h)
        split
        all_goals have h₁ := (mergeWord_keeps h).of_fst ‹_›
        · exact h₁
        · exact h₁
      · dsimp only
        refine Keeps.of_fst ?_ ‹_›
        refine mergeWord_keeps (Keeps.of_fst ?_ ‹_›)
        refine Keeps.ite_fst ?_ (landWord_keeps h)
        split
        all_goals have h₁ := (mergeWord_keeps h).of_fst ‹_›
        · exact h₁
        · exact h₁

theorem landTiles_keeps (h : Keeps s₀ s) {c : Copy} {i : Nat} {w : Word} : Keeps s₀ (landTiles s c i w) :=
  Keeps.foldl (fun _ _ h₁ => Keeps.ite (setCrew_keeps h₁) h₁) h

theorem moveWords_keeps {c : Copy} {n : Nat} {out : List (Nat × Word × Nat)} (h : Keeps s₀ s) : Keeps s₀ (moveWords s c n out).1 := by
  induction n generalizing s c out with
  | zero => exact h
  | succ n ih =>
    rw [moveWords]
    split
    all_goals have read := (payloadWord_keeps h).of_fst ‹_›
    · exact read
    · refine Keeps.ite_fst (ih (landTiles_keeps read)) ?_
      split
      all_goals have landed := (landMemory_keeps read).of_fst ‹_›
      · exact landed
      · exact ih landed

theorem stageWords_keeps {c : Copy} {n i : Nat} {out : List Word} (h : Keeps s₀ s) : Keeps s₀ (stageWords s c n i out).1 := by
  induction n generalizing s i out with
  | zero => exact h
  | succ n ih =>
    rw [stageWords]
    split
    all_goals have read := (payloadWord_keeps h).of_fst ‹_›
    · exact read
    · exact ih read

theorem sendCopyWords_keeps (h : Keeps s₀ s) {c : Copy} {ws : List (Nat × Word × Nat)} : Keeps s₀ (sendCopyWords s c ws).1 := by
  unfold sendCopyWords
  dsimp only
  refine Keeps.foldl₂ (fun _ _ h₁ => ?_) h
  exact enqueueCut_keeps h₁

theorem applyElem_keeps (h : Keeps s₀ s) {c : Copy} : Keeps s₀ (applyElem s c).1 := by
  unfold applyElem
  dsimp only
  split
  · exact h
  · exact noteMiss_keeps h
  · split
    · exact atomPad_keeps h
    · exact atomPad_keeps h
  · refine Keeps.ite_fst ?_ ?_
    · exact askHost_keeps h
    · split
      · exact atomAt_keeps h
      · exact atomAt_keeps h

theorem moveCopy_keeps (h : Keeps s₀ s) {idx : Nat} : Keeps s₀ (moveCopy idx s) := by
  unfold moveCopy
  dsimp only
  split
  · exact h
  · refine Keeps.ite h (Keeps.ite (Keeps.ite (stopCopy_keeps (stageWords_keeps h)) (Keeps.ite ?_ h)) (Keeps.ite (startCopy_keeps h.upd)
      (Keeps.ite (stopCopy_keeps (sendCopyWords_keeps (moveWords_keeps h))) h)))
    split
    all_goals have h₁ := (applyElem_keeps h).of_fst ‹_›
    · exact setCopy_keeps h₁
    · exact stopCopy_keeps h₁

theorem endCopy_keeps (h : Keeps s₀ s) {c : Copy} : Keeps s₀ (endCopy s c) := (Keeps.ite (follow_keeps h) (engineStamp_keeps h)).upd

theorem queueChain_keeps {crew : Nat} {ws : List DWord} {s' : State} (h : Keeps s₀ s) (eq : queueChain s crew ws = some s') :
    Keeps s₀ s' := by
  unfold queueChain at eq
  dsimp only at eq
  split at eq
  · cases eq
    exact (setBand_keeps h).upd
  · split at eq
    · cases eq
      exact enqueueCmd_keeps h
    · cases eq

theorem completeCopy_keeps (h : Keeps s₀ s) {idx dest : Nat} : Keeps s₀ (completeCopy idx dest s) := by
  unfold completeCopy
  dsimp only
  split
  · exact h
  · refine Keeps.ite h ?_
    split
    · exact Keeps.ite (endCopy_keeps h) h
    · refine Keeps.ite h (Keeps.ite (Keeps.ite (endCopy_keeps h) (setCopy_keeps h)) (Keeps.ite (failPacket_keeps h) ?_))
      split
      · exact h
      · next s₁ chained =>
        have chain : Keeps s₀ s₁ := by
          split at chained
          · exact queueChain_keeps h chained
          · cases chained
            exact h
        refine Keeps.ite (endCopy_keeps ?_) (setCopy_keeps ?_)
        all_goals exact Keeps.ite (crewStamp_keeps chain) chain

/-! ### Collective -/

theorem dropPart_keeps (h : Keeps s₀ s) {p : Part} : Keeps s₀ (dropPart s p) := h.upd

theorem failPart_keeps (h : Keeps s₀ s) {p : Part} {cause : Nat} : Keeps s₀ (failPart s p cause) := dropPart_keeps (failPacket_keeps h)

theorem readSend_keeps {p : Part} {n i : Nat} {out : List Word} (h : Keeps s₀ s) : Keeps s₀ (readSend s p n i out).1 := by
  induction n generalizing s i out with
  | zero => exact h
  | succ n ih =>
    rw [readSend]
    split
    · exact h
    · exact noteMiss_keeps h
    · split
      all_goals have read := (engineRead_keeps h).of_fst ‹_›
      · exact read
      · exact ih read
      · exact read

theorem sendChunks_keeps (h : Keeps s₀ s) {uid : Nat} {ps : List Part} {data : List (List Word)} :
    Keeps s₀ (sendChunks s uid ps data).1 := by
  unfold sendChunks
  dsimp only
  refine Keeps.foldl₂ (fun _ _ h₁ => (Keeps.foldl₂ (fun _ _ h₂ => ?_) h₁)) h
  split
  · refine Keeps.ite_fst h₂ ?_
    exact enqueueCut_keeps h₂
  · exact h₂

theorem startExchange_keeps (h : Keeps s₀ s) {ps : List Part} {old : Exchange} : Keeps s₀ (startExchange s ps old) := by
  unfold startExchange
  dsimp only
  split
  · refine Keeps.of_fst ?_ ‹_›
    refine Keeps.foldl₂ (fun _ _ h₁ => ?_) h
    split
    · exact h₁
    · split
      all_goals have h₂ := (readSend_keeps h₁).of_fst ‹_›
      · exact h₂
      · exact h₂
      · exact h₂
  · refine Keeps.upd ?_
    refine sendChunks_keeps (Keeps.upd ?_)
    refine Keeps.of_fst ?_ ‹_›
    refine Keeps.foldl₂ (fun _ _ h₁ => ?_) h
    split
    · exact h₁
    · split
      all_goals have h₂ := (readSend_keeps h₁).of_fst ‹_›
      · exact h₂
      · exact h₂
      · exact h₂

theorem matchPart_keeps (h : Keeps s₀ s) {idx : Nat} : Keeps s₀ (matchPart idx s) := by
  unfold matchPart
  dsimp only
  split
  · exact h
  · exact Keeps.ite h (Keeps.ite (failPart_keeps h.upd) (Keeps.ite (failPart_keeps h) (Keeps.ite h (Keeps.ite (Keeps.foldl (fun _ _ h₁ =>
      failPart_keeps h₁) h) (startExchange_keeps h)))))

theorem repeatExchange_keeps (h : Keeps s₀ s) {uid : Nat} : Keeps s₀ (repeatExchange s uid) := by
  unfold repeatExchange
  dsimp only
  split
  · exact h
  · exact Keeps.ite (Keeps.foldl (fun _ _ h₁ => Keeps.ite (dropPart_keeps h₁) (failPart_keeps h₁)) h.upd) h.upd

theorem writeRecv_keeps {e : Exchange} {p : Part} {n i : Nat} (h : Keeps s₀ s) : Keeps s₀ (writeRecv s e p n i).1 := by
  induction n generalizing s i with
  | zero => exact h
  | succ n ih =>
    rw [writeRecv]
    split
    · exact h
    · split
      · exact h
      · exact noteMiss_keeps h
      · exact ih (engineWrite_keeps h)

theorem endExchange_keeps (h : Keeps s₀ s) {uid : Nat} : Keeps s₀ (endExchange s uid) := Keeps.ite h h.upd

theorem setPart_keeps (h : Keeps s₀ s) {p : Part} : Keeps s₀ (setPart s p) := h.upd

theorem failRank_keeps (h : Keeps s₀ s) {p : Part} {cause : Nat} : Keeps s₀ (failRank s p cause) := setPart_keeps (failPacket_keeps h)

theorem completePart_keeps (h : Keeps s₀ s) {idx part : Nat} : Keeps s₀ (completePart idx part s) := by
  unfold completePart
  dsimp only
  split
  · exact h
  · split
    · exact h
    · refine Keeps.ite (startExchange_keeps h) (Keeps.ite h (Keeps.ite (Keeps.ite h (endExchange_keeps (failRank_keeps h))) ?_))
      split
      all_goals have h₁ := (writeRecv_keeps h).of_fst ‹_›
      · exact Keeps.ite (setPart_keeps h₁) (endExchange_keeps (failRank_keeps h₁))
      · exact setPart_keeps h₁
      · exact Keeps.ite (setPart_keeps h₁) (endExchange_keeps (setPart_keeps (Keeps.ite (follow_keeps (Keeps.foldl (fun _ _ h₂ =>
          crewStamp_keeps h₂) h₁)) (engineStamp_keeps h₁))))

/-! ### Special -/

theorem vecProducer_keeps (h : Keeps s₀ s) {k unit d : Nat} {t : Team} {wide table : Bool} {rs : List (Nat × Nat × Flags)} :
    Keeps s₀ (vecProducer s k t unit wide table d rs) :=
  checkedLanes_keeps h (fun _ h₁ => Keeps.ite (refuse_keeps h₁) (Keeps.ite (finish_keeps h₁) (startProducer_keeps h₁)))

theorem special_keeps (h : Keeps s₀ s) {fn : SpecFn} {f64too ta : Bool} {d a : BitVec 6} : KeepsOut s₀ (special fn f64too d ta a s) := by
  unfold special
  dsimp only
  refine withTeam_keeps (fun _ _ => ?_)
  split
  · exact illop_keeps h
  · exact Keeps.ite (illop_keeps h) (gated_keeps h (fun _ => vecProducer_keeps h.upd))

theorem queueTab_keeps (h : Keeps s₀ s) {core k : Nat} : Keeps s₀ (queueTab s core k) := Keeps.ite h (setCore_keeps h)

theorem imageReady_keeps (h : Keeps s₀ s) {core band : Nat} {va : DWord} : Keeps s₀ (imageReady s core band va).1 := by
  unfold imageReady
  split
  · refine Keeps.ite_fst h ?_
    exact askHost_keeps h
  · exact noteMiss_keeps h
  · exact h

theorem readImage_keeps (h : Keeps s₀ s) {core band tenant n : Nat} {va : DWord} : Keeps s₀ (readImage s core band tenant va n).1 := by
  unfold readImage
  refine Keeps.foldl₂ (fun _ _ h₁ => ?_) h
  split
  · split
    all_goals have h₂ := (readPlace_keeps h₁).of_fst ‹_›
    · exact h₂
    · exact h₂
  · exact h₁

/-! ### Mill -/

theorem millWord_keeps (h : Keeps s₀ s) {k : Nat} {t : Team} {va : DWord} : Keeps s₀ (millWord s k t va).1 := by
  unfold millWord
  dsimp only
  split
  · exact noteMisses_keeps h
  · exact noteMisses_keeps h
  · refine Keeps.ite_fst ?_ ?_
    · exact noteMisses_keeps h
    · refine Keeps.ite_fst ?_ ?_
      · exact noteMisses_keeps h
      · refine Keeps.ite_fst ?_ ?_
        · exact askPlaces_keeps (noteMisses_keeps h)
        · split
          all_goals have h₁ := (readPlace_keeps (noteMisses_keeps h)).of_fst ‹_›
          · exact h₁
          · exact h₁

theorem millHalf_keeps (h : Keeps s₀ s) {k : Nat} {t : Team} {va : DWord} : Keeps s₀ (millHalf s k t va).1 := by
  unfold millHalf
  split
  all_goals have h₁ := (millWord_keeps h).of_fst ‹_›
  · exact h₁
  · exact h₁

/-- `millBit` over any reading of a word and any numbers in place of its own: the kernel would evaluate those when it unfolds the recursion. -/
def scanBits (read : State → DWord → State × Except MStop Word) (last high : Nat) (bits : List Nat) (s : State) (base : DWord) :
    Nat → Nat → Option Nat → State × Except MStop (Option (Nat × Nat × Nat))
  | 0, _, _ => (s, .ok none)
  | n + 1, off, prev =>
    let j := off / 8
    if j ≥ last then (s, .ok none)
    else match read s (base + BitVec.ofNat 64 off) with
    | (s, .error e) => (s, .error e)
    | (s, .ok lo) =>
      match read s (base + BitVec.ofNat 64 (off + 4)) with
      | (s, .error e) => (s, .error e)
      | (s, .ok hi) =>
        let w := lo.toNat + hi.toNat * high
        match bits.find? fun b => w.testBit b && prev.all fun p => decide (64 * j + b > p) with
        | some b => (s, .ok (some (64 * j + b, off, off)))
        | none => scanBits read last high bits s base n (off + 8) prev

theorem millBit_eq_scanBits (s : State) (k : Nat) (t : Team) (base : DWord) (n off : Nat) (prev : Option Nat) :
    millBit s k t base n off prev = scanBits (fun s va => millWord s k t va) (2 ^ 26) (2 ^ 32) (List.range 64) s base n off prev := by
  delta millBit millBit._f scanBits scanBits._f
  rfl

theorem scanBits_keeps {read : State → DWord → State × Except MStop Word} {last high n off : Nat} {bits : List Nat} {base : DWord}
    {prev : Option Nat} (hread : ∀ s va, Keeps s₀ s → Keeps s₀ (read s va).1) (h : Keeps s₀ s) :
    Keeps s₀ (scanBits read last high bits s base n off prev).1 := by
  induction n generalizing s off with
  | zero => exact h
  | succ n ih =>
    rw [scanBits]
    refine Keeps.ite_fst h ?_
    split
    all_goals have low := (hread _ _ h).of_fst ‹_›
    · exact low
    · split
      all_goals have upper := (hread _ _ low).of_fst ‹_›
      · exact upper
      · dsimp only
        split
        · exact upper
        · exact ih upper

theorem millBit_keeps (h : Keeps s₀ s) {k n off : Nat} {t : Team} {base : DWord} {prev : Option Nat} :
    Keeps s₀ (millBit s k t base n off prev).1 := by
  rw [millBit_eq_scanBits]
  exact scanBits_keeps (fun _ _ h => millWord_keeps h) h

theorem millElem_keeps (h : Keeps s₀ s) {k enc pos off : Nat} {t : Team} {base : DWord} {prev : Option Nat} :
    Keeps s₀ (millElem s k t enc base pos prev off).1 := by
  unfold millElem
  split
  · split <;> exact (millWord_keeps h).of_fst ‹_›
  · split
    all_goals have low := (millHalf_keeps h).of_fst ‹_›
    · exact low
    · refine Keeps.ite_fst low ?_
      split
      all_goals have middle := (millHalf_keeps low).of_fst ‹_›
      · exact middle
      · split <;> exact (millHalf_keeps middle).of_fst ‹_›
  · exact millBit_keeps h
  · exact h

theorem peek_keeps (h : Keeps s₀ s) {k i : Nat} {t : Team} {m : Mill} {second : Bool} {x : Side} :
    Keeps s₀ (peek s k t m second x i).1 := by
  unfold peek
  dsimp only
  split
  · exact h
  · refine Keeps.ite_fst h ?_
    split
    · exact h
    · split
      all_goals have h₁ := (millElem_keeps h).of_fst ‹_›
      · exact h₁
      · exact h₁
      · exact h₁

theorem mergeRun_keeps {k n fuel : Nat} {t : Team} {m : Mill} {g : Merge} (h : Keeps s₀ s) :
    Keeps s₀ (mergeRun s k t m n fuel g).1 := by
  induction fuel generalizing s g with
  | zero => exact h
  | succ fuel ih =>
    rw [mergeRun]
    refine Keeps.ite_fst h ?_
    extract_lets op beyond past
    split
    have first := (peek_keeps h).of_fst ‹_›
    extract_lets g₁
    refine Keeps.ite_fst first ?_
    split
    have second := (peek_keeps first).of_fst ‹_›
    extract_lets g₂ act go
    refine Keeps.ite_fst second ?_
    have hgo : ∀ r x, Keeps s₀ (go r x).1 := by
      intro r x
      cases r with
      | none => exact second
      | some g' => exact ih second
    clear_value go
    split
    · exact hgo _ _
    · exact hgo _ _
    · exact hgo _ _
    · exact second
    · exact hgo _ _
    · exact hgo _ _
    · exact hgo _ _
    · exact hgo _ _
    · exact second
    · exact second
    · exact second
    · exact second
    · exact second
    · exact second

theorem coordAt_keeps (h : Keeps s₀ s) {k pos : Nat} {t : Team} {m : Mill} {second : Bool} : Keeps s₀ (coordAt s k t m second pos).1 := by
  unfold coordAt
  dsimp only
  split
  · split
    · exact h
    · split
      all_goals have h₁ := (millElem_keeps h).of_fst ‹_›
      · exact h₁
      · exact h₁
  · exact h
  · exact h

theorem decodeUpTo_keeps {k limit n : Nat} {t : Team} {second : Bool} {m : Mill} (h : Keeps s₀ s) :
    Keeps s₀ (decodeUpTo s k t second limit n m).1 := by
  induction n generalizing s m with
  | zero => exact h
  | succ n ih =>
    rw [decodeUpTo]
    refine Keeps.ite_fst h ?_
    split
    all_goals have read := (millElem_keeps h).of_fst ‹_›
    · exact read
    · exact read
    · exact ih read

theorem searchStream_keeps (h : Keeps s₀ s) {k limit : Nat} {t : Team} {m : Mill} {second : Bool} :
    Keeps s₀ (searchStream s k t m second limit).1 := by
  unfold searchStream
  refine Keeps.ite_fst h ?_
  split
  all_goals have h₁ := (decodeUpTo_keeps h).of_fst ‹_›
  · exact h₁
  · exact h₁

theorem lowerBound_keeps {k c n lo hi : Nat} {t : Team} {second : Bool} {m : Mill} (h : Keeps s₀ s) :
    Keeps s₀ (lowerBound s k t second c n m lo hi).1 := by
  induction n generalizing s m lo hi with
  | zero => exact h
  | succ n ih =>
    rw [lowerBound]
    refine Keeps.ite_fst h ?_
    dsimp only
    split
    all_goals have read := (coordAt_keeps h).of_fst ‹_›
    · exact read
    · exact Keeps.ite_fst (ih read) (ih read)

theorem lowerBounds_keeps (h : Keeps s₀ s) {k c la na lb nb : Nat} {t : Team} {m : Mill} :
    Keeps s₀ (lowerBounds s k t m c la na lb nb).1 := by
  unfold lowerBounds
  split
  all_goals have h₁ := (lowerBound_keeps h).of_fst ‹_›
  · exact h₁
  · split
    all_goals have h₂ := (lowerBound_keeps h₁).of_fst ‹_›
    · exact h₂
    · exact h₂

theorem mergePath_keeps {k la lb r n lo hi : Nat} {t : Team} {m : Mill} (h : Keeps s₀ s) :
    Keeps s₀ (mergePath s k t la lb r n m lo hi).1 := by
  induction n generalizing s m lo hi with
  | zero => exact h
  | succ n ih =>
    rw [mergePath]
    refine Keeps.ite_fst h ?_
    dsimp only
    split
    all_goals have read := (coordAt_keeps h).of_fst ‹_›
    · exact read
    · split
      all_goals have read' := (coordAt_keeps read).of_fst ‹_›
      · exact read'
      · exact Keeps.ite_fst (ih read') (ih read')

theorem coordBelow_keeps (h : Keeps s₀ s) {k pos hi : Nat} {t : Team} {m : Mill} {second : Bool} :
    Keeps s₀ (coordBelow s k t m second pos hi).1 :=
  Keeps.ite_fst (coordAt_keeps h) h

theorem boundary_keeps (h : Keeps s₀ s) {k cbase clim count p la ha lb hb : Nat} {t : Team} {m : Mill} :
    Keeps s₀ (boundary s k t m cbase clim count p la ha lb hb).1 := by
  unfold boundary
  dsimp only
  refine Keeps.ite_fst h (Keeps.ite_fst h ?_)
  split
  all_goals have h₁ := (mergePath_keeps h).of_fst ‹_›
  · exact h₁
  · split
    all_goals have h₂ := (coordBelow_keeps h₁).of_fst ‹_›
    · exact h₂
    · split
      all_goals have h₃ := (coordBelow_keeps h₂).of_fst ‹_›
      · exact h₃
      · refine Keeps.ite_fst h₃ ?_
        split
        all_goals have h₄ := (coordAt_keeps h₃).of_fst ‹_›
        · exact h₄
        · exact h₄

theorem readBefore_keeps (h : Keeps s₀ s) {k pos : Nat} {t : Team} {m : Mill} {second : Bool} :
    Keeps s₀ (readBefore s k t m second pos).1 := by
  unfold readBefore
  refine Keeps.ite_fst h ?_
  split
  all_goals have h₁ := (coordAt_keeps h).of_fst ‹_›
  · exact h₁
  · exact h₁

theorem search_keeps (h : Keeps s₀ s) {k : Nat} {t : Team} {m : Mill} : Keeps s₀ (search s k t m).1 := by
  unfold search
  dsimp only
  refine Keeps.ite_fst h ?_
  split
  all_goals have h₁ := (searchStream_keeps h).of_fst ‹_›
  · exact h₁
  · split
    all_goals have h₂ := (searchStream_keeps h₁).of_fst ‹_›
    · exact h₂
    · split
      all_goals have h₃ := (lowerBounds_keeps h₂).of_fst ‹_›
      · exact h₃
      · refine Keeps.ite_fst ?_ ?_
        · split
          all_goals have h₄ := (readBefore_keeps h₃).of_fst ‹_›
          · exact h₄
          · split
            all_goals have h₅ := (readBefore_keeps h₄).of_fst ‹_›
            · exact h₅
            · exact h₅
        · split
          all_goals have h₄ := (lowerBounds_keeps h₃).of_fst ‹_›
          · exact h₄
          · split
            all_goals have h₅ := (boundary_keeps h₄).of_fst ‹_›
            · exact h₅
            · split
              all_goals have h₆ := (boundary_keeps h₅).of_fst ‹_›
              · exact h₆
              · split
                all_goals have h₇ := (readBefore_keeps h₆).of_fst ‹_›
                · exact h₇
                · split
                  all_goals have h₈ := (readBefore_keeps h₇).of_fst ‹_›
                  · exact h₈
                  · exact h₈

theorem openMill_keeps (h : Keeps s₀ s) {k : Nat} {t : Team} {m : Mill} : Keeps s₀ (openMill s k t m) :=
  Keeps.ite (waitHere_keeps (setTeam_keeps h)) (finish_keeps h)

theorem millStop_keeps (h : Keeps s₀ s) {k : Nat} {m : Mill} {e : MStop} : Keeps s₀ (millStop s k m e) := by
  unfold millStop
  dsimp only
  split
  · exact refuse1_keeps (setTeam_keeps h)
  · exact debugEvent_keeps (setTeam_keeps h)
  · exact waitHere_keeps (setTeam_keeps h)

theorem millFill_keeps (h : Keeps s₀ s) {k n : Nat} {t : Team} {m : Mill} : Keeps s₀ (millFill s k t m n).1 := by
  unfold millFill
  dsimp only
  split
  all_goals have h₁ := (mergeRun_keeps h).of_fst ‹_›
  · exact h₁
  · exact h₁
  · exact Keeps.ite_fst h₁ h₁
  · split
    all_goals have h₂ := (mergeRun_keeps h₁).of_fst ‹_›
    · exact h₂
    · exact h₂
    · exact h₂

theorem millSettled_keeps (h : Keeps s₀ s) {k : Nat} {t : Team} {m : Mill} : Keeps s₀ (millSettled s k t m).1 := by
  unfold millSettled
  dsimp only
  split
  all_goals have h₁ := (search_keeps h).of_fst ‹_›
  · exact h₁
  · split
    · dsimp only
      refine Keeps.of_fst ?_ ‹_›
      refine Keeps.ite_fst ?_ h₁
      split
      all_goals have h₂ := (peek_keeps h₁).of_fst ‹_›
      · exact h₂
      · exact h₂
    · refine Keeps.ite_fst ?_ ?_
      · split
        · dsimp only
          refine Keeps.of_fst ?_ ‹_›
          refine peek_keeps (Keeps.of_fst ?_ ‹_›)
          refine Keeps.ite_fst ?_ h₁
          split
          all_goals have h₂ := (peek_keeps h₁).of_fst ‹_›
          · exact h₂
          · exact h₂
        · dsimp only
          refine Keeps.of_fst ?_ ‹_›
          refine peek_keeps (Keeps.of_fst ?_ ‹_›)
          refine Keeps.ite_fst ?_ h₁
          split
          all_goals have h₂ := (peek_keeps h₁).of_fst ‹_›
          · exact h₂
          · exact h₂
      · dsimp only
        refine Keeps.of_fst ?_ ‹_›
        refine Keeps.ite_fst ?_ h₁
        split
        all_goals have h₂ := (peek_keeps h₁).of_fst ‹_›
        · exact h₂
        · exact h₂

theorem withSettled_keeps {k : Nat} {t : Team} {body : State → Team → State} (h : Keeps s₀ s) (hbody : ∀ b c, Keeps s₀ b → Keeps s₀
    (body b c)) :
    Keeps s₀ (withSettled s k t body) := by
  unfold withSettled
  dsimp only
  split
  · exact hbody _ _ h
  · refine Keeps.ite (waitHere_keeps h) ?_
    split
    all_goals have h₁ := (millSettled_keeps h).of_fst ‹_›
    · exact millStop_keeps h₁
    · exact hbody _ _ (setTeam_keeps h₁)

theorem readWordsThen_keeps {k align n : Nat} {t : Team} {va : DWord} {f : State → List Word → State} (h : Keeps s₀ s)
    (hf : ∀ b c, Keeps s₀ b → Keeps s₀ (f b c)) :
    Keeps s₀ (readWordsThen s k t align n va f) := by
  unfold readWordsThen
  refine imageAccess_keeps h (fun _ _ h₁ => (imageWords_keeps h₁ (fun _ _ h₂ => ?_)))
  split
  · exact refuse1_keeps h₂
  · exact hf _ _ h₂

/-! ### Placement -/

theorem setDie_keeps (h : Keeps s₀ s) {d : Nat} {x : Die} : Keeps s₀ (setDie s d x) := h.upd

theorem releaseSlowed_keeps (h : Keeps s₀ s) {die : Nat} : Keeps s₀ (releaseSlowed s die) := h.upd

theorem retune_keeps (h : Keeps s₀ s) {die : Nat} : Keeps s₀ (retune s die) :=
  Keeps.ite (releaseSlowed_keeps (setDie_keeps h)) (Keeps.ite (setDie_keeps h) (Keeps.ite (releaseSlowed_keeps (setDie_keeps h)) h))

theorem retuneAll_keeps (h : Keeps s₀ s) : Keeps s₀ (retuneAll s) := Keeps.foldl (fun _ _ h₁ => retune_keeps h₁) h

theorem takeCore_keeps (h : Keeps s₀ s) {core tenant : Nat} {fresh : Bool} : Keeps s₀ (takeCore s core tenant fresh) :=
  setCore_keeps (invalidateClean_keeps (Keeps.ite (flushCore_keeps h) h))

theorem startBand_keeps (h : Keeps s₀ s) {id stage inst die key : Nat} {l : Launch} {y : Layout} {run : Run} :
    Keeps s₀ (startBand s id l stage inst die y run key) :=
  Keeps.foldl (fun _ _ h₁ => Keeps.foldl (fun _ _ h₂ => setTeam_keeps h₂) (setCrew_keeps h₁)) (setBand_keeps (Keeps.foldl (fun _ _ h₁ =>
    takeCore_keeps h₁) h))

/-! ### System -/

theorem deliverReply_keeps (h : Keeps s₀ s) {k : Nat} {v : DWord} : Keeps s₀ (deliverReply s k v) := by
  unfold deliverReply
  dsimp only
  split
  · exact h
  · split
    · exact setTeam_keeps (invalidateClean_keeps h.upd)
    · exact h

theorem dropTranslations_keeps (h : Keeps s₀ s) {p : Trans → Bool} : Keeps s₀ (dropTranslations s p) := h.upd

/-! ### Scheduling -/

theorem readDesc_keeps (h : Keeps s₀ s) {l : Launch} {va : DWord} {n : Nat} : Keeps s₀ (readDesc s l va n).1 := by
  unfold readDesc
  refine Keeps.foldl₂ (fun _ _ h₁ => ?_) h
  split
  · exact h₁
  · split
    all_goals have h₂ := (walkerRead_keeps h₁).of_fst ‹_›
    · exact h₂
    · exact h₂

theorem readKernel_keeps (h : Keeps s₀ s) {l : Launch} {va : DWord} : Keeps s₀ (readKernel s l va).1 := by
  unfold readKernel
  split
  all_goals have h₁ := (readDesc_keeps h).of_fst ‹_›
  · exact h₁
  · exact h₁

theorem readStages_keeps (h : Keeps s₀ s) {l : Launch} : Keeps s₀ (readStages s l).1 := by
  unfold readStages
  dsimp only
  split
  all_goals have h₁ := (readDesc_keeps h).of_fst ‹_›
  · exact h₁
  · refine Keeps.ite_fst h₁ (Keeps.foldl₂ (fun _ _ h₂ => ?_) h₁)
    split
    · exact h₂
    · split
      all_goals have h₃ := (readDesc_keeps h₂).of_fst ‹_›
      · exact h₃
      · split
        all_goals have h₄ := (readKernel_keeps h₃).of_fst ‹_›
        · exact h₄
        · exact Keeps.ite_fst h₄ h₄

theorem refuseLaunch_keeps (h : Keeps s₀ s) {id : Nat} : Keeps s₀ (refuseLaunch s id) := launchStamp_keeps (setLaunch_keeps h)

theorem readHead_keeps (h : Keeps s₀ s) {die queue : Nat} : Keeps s₀ (readHead die queue s) := by
  unfold readHead
  split
  · exact h
  · refine Keeps.ite h (Keeps.ite (refuseLaunch_keeps h) (Keeps.ite ?_ ?_))
    · split
      all_goals have h₁ := (readStages_keeps h).of_fst ‹_›
      · exact refuseLaunch_keeps h₁
      · exact Keeps.ite (refuseLaunch_keeps h₁) (retune_keeps (setLaunch_keeps h₁))
    · split
      all_goals have h₁ := (readKernel_keeps h).of_fst ‹_›
      · exact refuseLaunch_keeps h₁
      · exact Keeps.ite (refuseLaunch_keeps h₁) (retune_keeps (setLaunch_keeps h₁))

theorem passTurns_keeps (h : Keeps s₀ s) {die p : Nat} : Keeps s₀ (passTurns s die p) := Keeps.foldl (fun _ _ h₁ => Keeps.ite h₁.upd h₁) h

theorem noteBlocked_keeps (h : Keeps s₀ s) {die : Nat} : Keeps s₀ (noteBlocked s die) := by
  unfold noteBlocked
  refine Keeps.foldl (fun _ _ h₁ => ?_) h
  split
  · exact Keeps.ite h₁.upd (Keeps.ite h₁ h₁.upd)
  · exact h₁.upd

theorem gangReady_keeps (h : Keeps s₀ s) {id : Nat} : Keeps s₀ (gangReady s id) := Keeps.ite (setLaunch_keeps h) h

theorem letGo_keeps (h : Keeps s₀ s) {band : Nat} : Keeps s₀ (letGo s band) := setBand_keeps (mapTeams_keeps h)

theorem beginPreempt_keeps (h : Keeps s₀ s) {band reason : Nat} : Keeps s₀ (beginPreempt s band reason) :=
  (Keeps.ite (setLaunch_keeps h) h).upd

theorem writeImage_keeps (h : Keeps s₀ s) {band : Nat} : Keeps s₀ (writeImage s band) := by
  unfold writeImage
  extract_lets b base
  clear_value base
  refine Keeps.ite h (Keeps.foldl₂ (fun _ _ h' => ?_) h)
  dsimp only
  exact homeWrite_keeps h'

theorem settleMills_keeps (h : Keeps s₀ s) {band : Nat} : Keeps s₀ (settleMills s band).1 := by
  unfold settleMills
  dsimp only
  refine Keeps.foldl₂ (fun _ _ h₁ => ?_) h
  split
  · exact setTeam_keeps (millSettled_keeps h₁)
  · exact h₁

theorem saveSettled_keeps (h : Keeps s₀ s) {band : Nat} : Keeps s₀ (saveSettled s band) :=
  (setBand_keeps (Keeps.foldl (fun _ _ h₁ => setCore_keeps h₁) (mapTeams_keeps (writeImage_keeps (Keeps.foldl (fun _ _ h₁ =>
    flushCore_keeps h₁) (mapTeams_keeps h)))))).upd

theorem saveBand_keeps (h : Keeps s₀ s) {band : Nat} : Keeps s₀ (saveBand s band) :=
  Keeps.ite (saveSettled_keeps (settleMills_keeps h)) (settleMills_keeps h)

theorem putL2p_keeps (h : Keeps s₀ s) {tenant off : Nat} {w : Word} : Keeps s₀ (putL2p s tenant off w) := by
  unfold putL2p
  dsimp only
  split
  · exact homeWrite_keeps h
  · exact (noteMiss_keeps h).upd
  · exact h

theorem putCent_keeps (h : Keeps s₀ s) {tenant n : Nat} : Keeps s₀ (putCent s tenant n) := putL2p_keeps h

theorem writeL2p_keeps (h : Keeps s₀ s) {tenant : Nat} : Keeps s₀ (writeL2p s tenant) :=
  Keeps.foldl (fun _ _ h₁ => putCent_keeps h₁) (Keeps.foldl (fun _ _ h₁ => putL2p_keeps h₁) (Keeps.foldl (fun _ _ h₁ => putL2p_keeps h₁)
    h))

theorem exchangeCent_keeps (h : Keeps s₀ s) {tenant i n : Nat} : Keeps s₀ (exchangeCent s tenant i n) :=
  Keeps.ite h (putCent_keeps (putCent_keeps (setTenant_keeps h)))

theorem resumeBand_keeps (h : Keeps s₀ s) {band : Nat} : Keeps s₀ (resumeBand band s) := by
  unfold resumeBand
  dsimp only
  split
  · exact h
  · refine Keeps.ite h ?_
    split
    · exact h
    · exact retune_keeps (gangReady_keeps (Keeps.foldl (fun _ _ h₁ => deliverReply_keeps h₁) (Keeps.ite (setLaunch_keeps (Keeps.ite
        (letGo_keeps (setBand_keeps (Keeps.foldl (fun _ _ h₁ => setCore_keeps h₁) (Keeps.foldl (fun _ _ h₁ => Keeps.foldl (fun _ _ h₂ =>
        Keeps.foldl (fun _ _ h₃ => setTeam_keeps h₃) (setCrew_keeps h₂)) h₁) (Keeps.foldl (fun _ _ h₁ => takeCore_keeps (flushCore_keeps
        h₁)) (Keeps.foldl (fun _ _ h₁ => exchangeCent_keeps h₁) h)))))) (setBand_keeps (Keeps.foldl (fun _ _ h₁ => setCore_keeps h₁)
        (Keeps.foldl (fun _ _ h₁ => Keeps.foldl (fun _ _ h₂ => Keeps.foldl (fun _ _ h₃ => setTeam_keeps h₃) (setCrew_keeps h₂)) h₁)
        (Keeps.foldl (fun _ _ h₁ => takeCore_keeps (flushCore_keeps h₁)) (Keeps.foldl (fun _ _ h₁ => exchangeCent_keeps h₁) h)))))))
        (Keeps.ite (letGo_keeps (setBand_keeps (Keeps.foldl (fun _ _ h₁ => setCore_keeps h₁) (Keeps.foldl (fun _ _ h₁ => Keeps.foldl (fun
        _ _ h₂ => Keeps.foldl (fun _ _ h₃ => setTeam_keeps h₃) (setCrew_keeps h₂)) h₁) (Keeps.foldl (fun _ _ h₁ => takeCore_keeps
        (flushCore_keeps h₁)) (Keeps.foldl (fun _ _ h₁ => exchangeCent_keeps h₁) h)))))) (setBand_keeps (Keeps.foldl (fun _ _ h₁ =>
        setCore_keeps h₁) (Keeps.foldl (fun _ _ h₁ => Keeps.foldl (fun _ _ h₂ => Keeps.foldl (fun _ _ h₃ => setTeam_keeps h₃)
        (setCrew_keeps h₂)) h₁) (Keeps.foldl (fun _ _ h₁ => takeCore_keeps (flushCore_keeps h₁)) (Keeps.foldl (fun _ _ h₁ =>
        exchangeCent_keeps h₁) h)))))))).upd)

theorem quantumOn_keeps (h : Keeps s₀ s) {id die : Nat} {l : Launch} : Keeps s₀ (quantumOn s id l die) := by
  unfold quantumOn
  refine Keeps.foldl (fun _ _ h₁ => (Keeps.ite h₁ ?_)) h
  split
  · exact beginPreempt_keeps h₁
  · exact h₁

theorem stageFill_keeps (h : Keeps s₀ s) {l : Launch} {g : PipeStage} : Keeps s₀ (stageFill s l g).1 := by
  unfold stageFill
  dsimp only
  refine Keeps.ite_fst h ?_
  exact walkerRead_keeps (walkerRead_keeps (walkerRead_keeps h))

theorem balance_keeps (h : Keeps s₀ s) {launch : Nat} : Keeps s₀ (balance launch s) := by
  unfold balance
  dsimp only
  refine Keeps.ite h ?_
  split
  · dsimp only
    refine Keeps.ite ?_ ?_
    · refine setLaunch_keeps (Keeps.foldl₂ (fun _ _ h₁ => ?_) h)
      exact stageFill_keeps h₁
    · split
      · refine beginPreempt_keeps (setLaunch_keeps (Keeps.foldl₂ (fun _ _ h₁ => ?_) h))
        exact stageFill_keeps h₁
      · refine setLaunch_keeps (Keeps.foldl₂ (fun _ _ h₁ => ?_) h)
        exact stageFill_keeps h₁
  · refine setLaunch_keeps (Keeps.foldl₂ (fun _ _ h₁ => ?_) h)
    exact stageFill_keeps h₁

theorem dropL1s_keeps (h : Keeps s₀ s) : Keeps s₀ (dropL1s s) := h.upd

theorem boundary346_keeps (h : Keeps s₀ s) : Keeps s₀ (boundary346 s) :=
  dropL1s_keeps (Keeps.foldl (fun _ _ h₁ => flushL2_keeps h₁) (Keeps.foldl (fun _ _ h₁ => flushCore_keeps h₁) h))

/-! ### Debug -/

theorem stepTeam_keeps (h : Keeps s₀ s) {team : Nat} : Keeps s₀ (stepTeam s team) := by
  unfold stepTeam
  dsimp only
  split
  · exact (setTeam_keeps h).upd
  · exact h

theorem stepTeamLane_keeps (h : Keeps s₀ s) {team lane : Nat} : Keeps s₀ (stepTeamLane s team lane) := by
  unfold stepTeamLane
  dsimp only
  split
  · exact Keeps.ite (setTeam_keeps h).upd (setTeam_keeps h)
  · exact h

theorem serveBand_keeps (h : Keeps s₀ s) {band : Nat} : Keeps s₀ (serveBand s band) := by
  unfold serveBand
  dsimp only
  refine Keeps.ite h ?_
  split
  · split
    · exact stepTeam_keeps (setTeam_keeps h)
    · exact stepTeamLane_keeps (setTeam_keeps h)
  · exact h

theorem askStep_keeps (h : Keeps s₀ s) {team : Nat} {r : Option Nat} : Keeps s₀ (askStep s team r) := by
  unfold askStep
  split
  · exact serveBand_keeps (setTeam_keeps h)
  · exact h

theorem closeSteps_keeps (h : Keeps s₀ s) : Keeps s₀ (closeSteps s) := Keeps.foldl (fun _ _ h₁ => serveBand_keeps h₁) h.upd

/-! ### Homes -/

theorem admitWord.miss_keeps (h : Keeps s₀ s) {o : LoadOp} {w : WordReq} : Keeps s₀ (admitWord.miss o w s).1 := enterMiss_keeps h

theorem admitWord_keeps (h : Keeps s₀ s) {o : LoadOp} {w : WordReq} : Keeps s₀ (admitWord s o w).1 := by
  unfold admitWord
  dsimp only
  split
  · refine Keeps.ite_fst ?_ (admitWord.miss_keeps (mendL1_keeps h))
    exact setL1_keeps (mendL1_keeps h)
  · exact admitWord.miss_keeps (mendL1_keeps h)

theorem deliverHome_keeps (h : Keeps s₀ s) {r : Req} {data : List (Nat × Datum)} : Keeps s₀ (deliverHome s r data) :=
  Keeps.ite h (Keeps.ite h.upd (enqueueCut_keeps h))

theorem callBlocks_keeps (h : Keeps s₀ s) {r : Req} {is : List Nat} : Keeps s₀ (callBlocks s r is) := h.upd

theorem homeTake_keeps (h : Keeps s₀ s) {r : Req} : Keeps s₀ (homeTake s r).1 := by
  unfold homeTake
  extract_lets word s₁ ready wait isBurst direct kept doubts drams beside rest s₂ absent s₃ s₄
  have h₁ : Keeps s₀ s₁ := Keeps.ite h (Keeps.foldl (fun _ _ h => mendHome_keeps h) h)
  have h₂ : Keeps s₀ s₂ := Keeps.foldl (fun _ _ h => askHost_keeps h) h₁
  have h₃ : Keeps s₀ s₃ := Keeps.ite h₂ (countMiss_keeps h₂)
  have h₄ : Keeps s₀ s₄ := callBlocks_keeps h₃
  clear_value s₄
  generalize reads : direct.foldl _ _ = read
  obtain ⟨s₅, data⟩ := read
  have h₅ : Keeps s₀ s₅ := Keeps.of_fst (Keeps.foldl₂ (fun r _ h => ?_) h₄) reads
  · dsimp only
    generalize takes : kept.foldl _ _ = took
    obtain ⟨s₆, data'⟩ := took
    have h₆ : Keeps s₀ s₆ := Keeps.of_fst (Keeps.foldl₂ (fun r _ h => ?_) h₅) takes
    · exact Keeps.ite (deliverHome_keeps h₆) (deliverHome_keeps h₆).upd
    · dsimp only
      generalize Option.getD _ _ = d
      cases d with
      | ok w => exact mscPut_keeps h
      | poison => exact mscPut_keeps h
      | _ => exact h
  · dsimp only
    exact homeReadFor_keeps h

theorem homeReads_keeps (h : Keeps s₀ s) {rs : List Req} : Keeps s₀ (homeReads s rs) := by
  unfold homeReads
  dsimp only
  refine Keeps.upd ?_
  refine Keeps.foldl₂ (fun _ _ h₁ => ?_) h
  exact homeTake_keeps h₁

theorem homeAtoms_keeps (h : Keeps s₀ s) {a : AtomReq} : Keeps s₀ (homeAtoms s a) := by
  unfold homeAtoms
  dsimp only
  exact Keeps.ite (Keeps.ite (landAtoms_keeps (atomLanes_keeps h)) (enqueueCut_keeps (atomLanes_keeps h))) (Keeps.foldl (fun _ _ h₁ =>
    askBoth_keeps h₁) h).upd

theorem senseWords_keeps (h : Keeps s₀ s) {r : Req} {noise : Nat → Nat} : Keeps s₀ (senseWords s r noise) := by
  unfold senseWords
  dsimp only
  refine callBlocks_keeps (deliverHome_keeps (Keeps.foldl₂ (fun _ _ h₁ => ?_) h))
  split
  · exact setMsc_keeps (mendHome_keeps h₁)
  · refine Keeps.ite_fst ?_ ?_
    · exact mendHome_keeps h₁
    · split
      · exact mscPut_keeps (mendHome_keeps h₁)
      · exact mscPut_keeps (mendHome_keeps h₁)
      · exact mendHome_keeps h₁

theorem senseBurst_keeps (h : Keeps s₀ s) {ws : List Nat} {noise : Nat → Nat} : Keeps s₀ (senseBurst s ws noise) :=
  Keeps.foldl (fun _ _ h₁ => senseStored_keeps h₁) h

theorem holdResults_keeps (h : Keeps s₀ s) {r : Req} {noise : Nat → Nat} : Keeps s₀ (holdResults s r noise) := h.upd

theorem interfaceLost_keeps (h : Keeps s₀ s) {pa : Nat} : Keeps s₀ (interfaceLost s pa) := logRas_keeps (countPc_keeps h)

theorem retireChannel_keeps (h : Keeps s₀ s) {stack pc : Nat} : Keeps s₀ (retireChannel s stack pc) :=
  requestReplacement_keeps (logRas_keeps (setDram_keeps h))

theorem resumeRetrained_keeps (h : Keeps s₀ s) : Keeps s₀ (resumeRetrained s) := Keeps.foldl (fun _ _ h₁ => performHeld_keeps h₁) h.upd

theorem clearMisses_keeps (h : Keeps s₀ s) {r : Req} {is : List Nat} : Keeps s₀ (clearMisses s r is) := h.upd

theorem fillL2_keeps (h : Keeps s₀ s) {f : Fill} : Keeps s₀ (fillL2 s f) := by
  unfold fillL2
  dsimp only
  refine Keeps.upd ?_
  refine Keeps.foldl₂ (fun _ _ h₁ => ?_) h
  split
  · exact h₁
  · exact Keeps.ite h₁ (l2Fill_keeps h₁)
  · exact h₁

theorem fillCore_keeps (h : Keeps s₀ s) {f : Fill} : Keeps s₀ (fillCore s f) := by
  unfold fillCore
  dsimp only
  refine finishLoads_keeps (clearMisses_keeps (land_keeps (Keeps.foldl (fun _ _ h₁ => ?_) h)))
  split
  · exact Keeps.ite (l1Fill_keeps h₁) h₁
  · exact h₁

/-! ### Drams -/

theorem scrub_keeps (h : Keeps s₀ s) {p w : Nat → Bool} : Keeps s₀ (scrub s p w) := by
  unfold scrub
  dsimp only
  refine Keeps.foldl (fun _ _ h₁ => flushDelta_keeps h₁) (Keeps.foldl (fun _ _ h₁ => ?_) h)
  split
  all_goals have h₂ := (senseStored_keeps h₁).of_fst ‹_›
  · exact Keeps.ite (stored_keeps h₂) h₂
  · exact h₂
  · exact blockAtHome_keeps h₂

theorem capacityChange_keeps (h : Keeps s₀ s) {stack : Nat} : Keeps s₀ (capacityChange s stack) := logRas_keeps h

theorem deepRetire_keeps (h : Keeps s₀ s) {stack : Nat} : Keeps s₀ (deepRetire s stack) :=
  capacityChange_keeps (setDram_keeps (Keeps.foldl (fun _ _ h₁ => flushDelta_keeps h₁) (Keeps.foldl (fun _ _ h₁ => mscEvict_keeps h₁) h)))

theorem readEntry_keeps (h : Keeps s₀ s) {e : Nat} : Keeps s₀ (readEntry s e) :=
  Keeps.foldl (fun _ _ h₁ => consume_keeps (homeRead_keeps h₁)) h

/-! ### Sparge -/

theorem deliver_keeps (h : Keeps s₀ s) {m : Msg} : Keeps s₀ (deliver s m) := by
  unfold deliver
  dsimp only
  split
  · exact h.upd
  · exact h.upd
  · exact Keeps.foldl (fun _ _ h₁ => performPub_keeps h₁) h
  · exact h.upd
  · exact landAtoms_keeps h
  · exact (Keeps.foldl (fun _ _ h₁ => homeWrite_keeps h₁) h).upd
  · exact h.upd
  · exact h.upd
  · exact h.upd
  · exact h.upd
  · exact h.upd

theorem answer_keeps (h : Keeps s₀ s) {m : Msg} {c : Cargo} : Keeps s₀ (answer s m c) := h.upd

theorem acceptFragment_keeps (h : Keeps s₀ s) {f : Frag} : Keeps s₀ (acceptFragment s f) :=
  Keeps.ite h (Keeps.ite h.upd (Keeps.ite (deliver_keeps h.upd) (answer_keeps (deliver_keeps h.upd))))

theorem takeInbox_keeps {p : Cargo → Bool} {idx : Nat} {m : Msg} {s' : State} (h : Keeps s₀ s) (eq : takeInbox s p idx = some (m, s')) :
    Keeps s₀ s' := by
  obtain ⟨x, -, taken⟩ := Option.map_eq_some_iff.1 eq
  cases taken
  exact h.upd

theorem serveRepair_keeps (h : Keeps s₀ s) {m : Msg} {map : Nat} : Keeps s₀ (serveRepair s m map) := Keeps.ite h h.upd

theorem loseReads_keeps (h : Keeps s₀ s) {r : Req} : Keeps s₀ (loseReads s r) := finishLoads_keeps (clearMisses_keeps (land_keeps h))

theorem loseAtoms_keeps (h : Keeps s₀ s) {ls : List (Nat × Nat × Nat)} : Keeps s₀ (loseAtoms s ls) :=
  Keeps.foldl (fun _ _ h₁ => landAtoms_keeps h₁) h

theorem lossOutcome_keeps (h : Keeps s₀ s) {m : Msg} : Keeps s₀ (lossOutcome s m).1 := by
  unfold lossOutcome
  dsimp only
  split
  · exact loseReads_keeps h
  · exact h
  · exact enqueueCut_keeps (Keeps.ite h.upd h).upd
  · exact loseAtoms_keeps h
  · exact h
  · dsimp only
    split
    · exact abandonCopy_keeps h
    · exact h
  · exact repeatExchange_keeps h
  · exact enqueueCut_keeps h
  · exact h.upd
  · exact h
  · exact h

theorem poisonHome_keeps (h : Keeps s₀ s) {pa : Nat} : Keeps s₀ (poisonHome s pa) := homeWrite_keeps h

/-! ### HostLink -/

theorem setHostField_keeps (h : Keeps s₀ s) {pa v : Nat} : Keeps s₀ (setHostField s pa v) := by
  unfold setHostField
  dsimp only
  split
  · exact setMsc_keeps (mscEnsure_keeps h)
  · exact mscEnsure_keeps h

theorem readLine_keeps (h : Keeps s₀ s) {pa : Nat} : Keeps s₀ (readLine s pa).1 := by
  unfold readLine
  dsimp only
  refine Keeps.foldl₂ (fun _ _ h₁ => ?_) h
  exact homeRead_keeps h₁

theorem hostWrites_keeps (h : Keeps s₀ s) {pa : Nat} {words : List (Nat × Option Word)} : Keeps s₀ (hostWrites s pa words) :=
  Keeps.foldl (fun _ _ h₁ => Keeps.ite (homePut_keeps (purgeNow_keeps h₁)) h₁) h

theorem dropCleanL2_keeps (h : Keeps s₀ s) {pa : Nat} : Keeps s₀ (dropCleanL2 s pa) :=
  Keeps.foldl (fun _ _ h₁ => Keeps.foldl (fun _ _ h₂ => Keeps.ite (setL2_keeps h₂) h₂) h₁) h

theorem beWriteback_keeps (h : Keeps s₀ s) {pa : Nat} : Keeps s₀ (beWriteback s pa) := by
  unfold beWriteback
  dsimp only
  refine Keeps.foldl (fun _ _ h₁ => ?_) h
  split
  · exact Keeps.ite (setMsc_keeps (writePlain_keeps (leaving_keeps h₁))) h₁
  · exact h₁

theorem gatherLine_keeps (h : Keeps s₀ s) {pa : Nat} : Keeps s₀ (gatherLine s pa) := Keeps.foldl (fun _ _ h₁ => purgeNow_keeps h₁) h

theorem resumeWrites_keeps (h : Keeps s₀ s) {a : HostAsk} : Keeps s₀ (resumeWrites s a) := by
  unfold resumeWrites
  dsimp only
  split
  · exact Keeps.ite h h.upd
  · exact Keeps.foldl (fun _ _ h₁ => performHeld_keeps (Keeps.ite (purgeL2_keeps (purgeL2_keeps h₁)) (purgeL2_keeps h₁))) h

theorem finishEvict_keeps (h : Keeps s₀ s) {sb : Nat} : Keeps s₀ (finishEvict s sb) := by
  unfold finishEvict
  dsimp only
  split
  · exact Keeps.ite (setMsc_keeps (mscEvict_keeps h)) h
  · exact h

theorem dropExtent_keeps (h : Keeps s₀ s) {e : Extent} : Keeps s₀ (dropExtent s e) :=
  Keeps.foldl (fun _ _ h₁ => setMsc_keeps h₁) (Keeps.foldl (fun _ _ h₁ => Keeps.foldl (fun _ _ h₂ => mscEvict_keeps h₂) h₁) h)

theorem purgeExtent_keeps (h : Keeps s₀ s) {e : Extent} : Keeps s₀ (purgeExtent s e) :=
  Keeps.foldl (fun _ _ h₁ => Keeps.foldl (fun _ _ h₂ => Keeps.foldl (fun _ _ h₃ => purgeL2_keeps h₃) h₂) h₁) h

theorem sweepExtent_keeps (h : Keeps s₀ s) {e : Extent} : Keeps s₀ (sweepExtent s e) :=
  dropExtent_keeps (purgeExtent_keeps (dropExtent_keeps h))

/-! ### Platform -/

theorem modstBit_keeps (h : Keeps s₀ s) {i : Nat} {on : Bool} : Keeps s₀ (modstBit s i on) := h.upd

theorem haltAll_keeps (h : Keeps s₀ s) {spared : Run → Bool} : Keeps s₀ (haltAll s spared) :=
  Keeps.foldl (fun _ _ h₁ => stopBand_keeps h₁) h

theorem dropSealed_keeps (h : Keeps s₀ s) {p : Nat → Bool} : Keeps s₀ (dropSealed s p) := h.upd

theorem eraseKeys_keeps (h : Keeps s₀ s) : Keeps s₀ (eraseKeys s) := (dropSealed_keeps h).upd

theorem finishAlarm_keeps (h : Keeps s₀ s) : Keeps s₀ (finishAlarm s) := by
  unfold finishAlarm
  dsimp only
  split
  · exact h
  · exact Keeps.ite h (Keeps.ite (eraseKeys_keeps (Keeps.foldl (fun _ _ h₁ => raiseVector_keeps h₁) (Keeps.foldl (fun _ _ h₁ =>
      errorCompletion_keeps h₁) h.upd))) (Keeps.foldl (fun _ _ h₁ => raiseVector_keeps h₁) (Keeps.foldl (fun _ _ h₁ =>
      errorCompletion_keeps h₁) h.upd)))

theorem busy_keeps (h : Keeps s₀ s) : Keeps s₀ (busy s) := h.upd

theorem managed_keeps {f : State → State} (h : Keeps s₀ s) (hf : ∀ b, Keeps s₀ b → Keeps s₀ (f b)) : KeepsOut s₀ (managed s f) :=
  KeepsOut.ite (KeepsOut.next h) (KeepsOut.ite (KeepsOut.next (busy_keeps h)) (KeepsOut.next (hf _ h.upd)))

theorem newKey_keeps (h : Keeps s₀ s) {t : Nat} : Keeps s₀ (newKey s t) := (setTenant_keeps (dropSealed_keeps h)).upd

theorem recallLines_keeps (h : Keeps s₀ s) {ls : List Nat} : Keeps s₀ (recallLines s ls) :=
  Keeps.foldl (fun _ _ h₁ => Keeps.ite h₁ h₁.upd) h

theorem hostLaunch_keeps (h : Keeps s₀ s) {i pa : Nat} : Keeps s₀ (hostLaunch s i pa) := by
  unfold hostLaunch
  dsimp only
  refine Keeps.ite (busy_keeps h) ?_
  split
  · exact setLaunch_keeps (appendLaunch_keeps (Keeps.foldl (fun _ _ h₁ => consume_keeps h₁) (readLine_keeps h)) ‹_›)
  · exact busy_keeps h

theorem finishCommand_keeps (h : Keeps s₀ s) : Keeps s₀ (finishCommand s) := by
  unfold finishCommand
  dsimp only
  split
  · exact h
  · exact Keeps.ite h.upd (recallLines_keeps h)
  · exact Keeps.ite (attempt_keeps h (fun _ h₁ => writeL2p_keeps h₁)).upd (attempt_keeps h (fun _ h₁ => writeL2p_keeps h₁))
  · exact Keeps.ite (busy_keeps h.upd) (Keeps.ite (hostLaunch_keeps h.upd) (Keeps.foldl (fun _ _ h₁ => askHost_keeps h₁) h))
  · exact Keeps.ite (deepRetire_keeps h.upd) (recallLines_keeps h)

theorem beginCommand_keeps (h : Keeps s₀ s) {c : Command} : Keeps s₀ (beginCommand s c) := finishCommand_keeps h.upd

theorem setWindow_keeps (h : Keeps s₀ s) {n : Nat} {w : Window} : Keeps s₀ (setWindow s n w) := h.upd

theorem giveQuad_keeps (h : Keeps s₀ s) {t die quad : Nat} : Keeps s₀ (giveQuad s t die quad) := setTenant_keeps h

theorem writeWindow_keeps (h : Keeps s₀ s) {n r : Nat} {x : DWord} : Keeps s₀ (writeWindow s n r x) := by
  unfold writeWindow
  dsimp only
  refine Keeps.ite (Keeps.ite (busy_keeps h) h) ?_
  split <;> exact setWindow_keeps h

theorem writeTenant_keeps (h : Keeps s₀ s) {t cls : Nat} {v : DWord} : Keeps s₀ (writeTenant s t cls v) := by
  unfold writeTenant
  dsimp only
  refine Keeps.ite h ?_
  split
  · exact setTenant_keeps h
  · exact setTenant_keeps h
  · exact setTenant_keeps h
  · exact setTenant_keeps h
  · refine Keeps.ite (busy_keeps h) ?_
    split
    · exact setTenant_keeps h
    · exact beginCommand_keeps (setTenant_keeps h)
    · exact setTenant_keeps h
    · exact Keeps.ite (giveQuad_keeps h) (beginCommand_keeps (giveQuad_keeps h))
    · exact newKey_keeps h

/-! ### Scalar -/

theorem scalar2_keeps (h : Keeps s₀ s) {x y z : BitVec 5} {f : Bool → DWord → DWord → DWord} : KeepsOut s₀ (scalar2 x y z f s) := by
  unfold scalar2
  refine withTeam_keeps (fun _ _ => ?_)
  split
  · exact illop_keeps h
  · exact gated_keeps h (fun _ => finish_keeps h)

/-! ### Issue -/

theorem passTime_keeps (h : Keeps s₀ s) : Keeps s₀ (passTime s) := h.upd

theorem fetchTrace_keeps (h : Keeps s₀ s) {k : Nat} {t : Team} : Keeps s₀ (fetchTrace s k t) := by
  unfold fetchTrace
  dsimp only
  split
  · refine Keeps.ite h ?_
    split
    · refine setCore_keeps ?_
      split
      · exact Keeps.ite (setCore_keeps h) h
      · exact l2Read_keeps (Keeps.ite (setCore_keeps h) h)
    · refine consume_keeps ?_
      split
      · exact Keeps.ite (setCore_keeps h) h
      · exact l2Read_keeps (Keeps.ite (setCore_keeps h) h)
  · exact h

theorem choose_keeps (h : Keeps s₀ s) : Keeps s₀ (choose s) := by
  unfold choose
  dsimp only
  repeat' split
  all_goals exact h.upd

theorem background_keeps (h : Keeps s₀ s) : Keeps s₀ (background s) :=
  finishAlarm_keeps (finishCommand_keeps (closeSteps_keeps (settle_keeps h)))

end Sys2Proof.Machine
end

section
/-! SUPPORT. Every instruction and every event keeps the agenda and the canonical form of memory (O59, O60). -/

namespace Sys2Proof.Machine
variable {s₀ s : State}

/-! ### Arith -/

theorem execCmp_keeps (h : Keeps s₀ s) {c p : BitVec 3} {ta tb : Bool} {a b : BitVec 6} : KeepsOut s₀ (execCmp c p ta a tb b s) :=
  compare_keeps h

theorem execCvt.cvtBody_keeps (h : Keeps s₀ s) {d a : BitVec 6} {ta legal : Bool} {k kk : Nat} {t : Team} {dt st : Ty} {e : NumEnv} :
    Keeps s₀ (execCvt.cvtBody d ta a s k t dt st kk e legal) :=
  Keeps.ite (illop_keeps h) (gated_keeps h (fun _ => vecResult_keeps h))

theorem execCvt_keeps (h : Keeps s₀ s) {d a : BitVec 6} {ta : Bool} {part : BitVec 2} {src : BitVec 4} :
    KeepsOut s₀ (execCvt d ta a part src s) := by
  unfold execCvt
  dsimp only
  refine withTeam_keeps (fun _ _ => ?_)
  split
  · split
    · exact Keeps.ite (illop_keeps h) (execCvt.cvtBody_keeps h)
    · exact execCvt.cvtBody_keeps h
  · exact illop_keeps h

theorem execUnpk_keeps (h : Keeps s₀ s) {d a : BitVec 6} {ta : Bool} : KeepsOut s₀ (execUnpk d ta a s) := by
  unfold execUnpk
  dsimp only
  refine withTeam_keeps (fun _ _ => ?_)
  split
  · exact illop_keeps h
  · exact Keeps.ite (illop_keeps h) (gated_keeps h (fun _ => vecResult_keeps h))

theorem execCmpi_keeps (h : Keeps s₀ s) {c p : BitVec 3} {a : BitVec 6} {imm : BitVec 11} : KeepsOut s₀ (execCmpi c p a imm s) :=
  compare_keeps h

/-! ### Lanes -/

theorem execVbal_keeps (h : Keeps s₀ s) {d : BitVec 6} {inv : Bool} {p : BitVec 3} : KeepsOut s₀ (execVbal d inv p s) :=
  withTeam_keeps (fun _ _ => Keeps.ite (illop_keeps h) (gated_keeps h (fun _ => finish_keeps h)))

theorem execTred_keeps (h : Keeps s₀ s) {d : BitVec 5} {ta : Bool} {a op : BitVec 6} : KeepsOut s₀ (execTred d ta a op s) := by
  unfold execTred
  dsimp only
  refine withTeam_keeps (fun _ _ => ?_)
  refine Keeps.ite (illop_keeps h) ?_
  split
  · exact illop_keeps h
  · exact Keeps.ite (illop_keeps h) (gated_keeps h (fun _ => checkedLanes_keeps h (fun _ h₁ => withFlags_keeps h₁ (fun _ => finish_keeps
      h₁))))

theorem execTscan_keeps (h : Keeps s₀ s) {d a : BitVec 6} {ta excl : Bool} {op : BitVec 3} :
    KeepsOut s₀ (execTscan d ta a excl op s) := by
  unfold execTscan
  dsimp only
  refine withTeam_keeps (fun _ _ => ?_)
  refine Keeps.ite (illop_keeps h) ?_
  split
  · exact illop_keeps h
  · exact Keeps.ite (illop_keeps h) (gated_keeps h (fun _ => vecResult_keeps h))

theorem execSegred_keeps (h : Keeps s₀ s) {d a b : BitVec 6} {ta tb : Bool} : KeepsOut s₀ (execSegred d ta a tb b s) := by
  unfold execSegred
  dsimp only
  refine withTeam_keeps (fun _ _ => ?_)
  split
  · exact illop_keeps h
  · exact Keeps.ite (illop_keeps h) (gated_keeps h (fun _ => checkedLanes_keeps h (fun _ h₁ => withFlags_keeps h₁ (fun _ => finish_keeps
      h₁))))

theorem execTix_keeps (h : Keeps s₀ s) {d a : BitVec 6} {ta : Bool} {b : BitVec 5} : KeepsOut s₀ (execTix d ta a b s) :=
  withTeam_keeps (fun _ _ => Keeps.ite (illop_keeps h) (gated_keeps h (fun _ => Keeps.ite (refuse1_keeps h) (Keeps.ite (refuse1_keeps h)
    (checkedLanes_keeps h (fun _ h₁ => finish_keeps h₁))))))

/-! ### MemOps -/

theorem execLdBase_keeps (h : Keeps s₀ s) {d : BitVec 6} {b : BitVec 5} {ord : BitVec 2} {scope : BitVec 3} :
    KeepsOut s₀ (execLdBase d b ord scope s) := by
  unfold execLdBase
  refine memory_keeps h (fun _ _ => ?_)
  split
  · exact illop_keeps h
  · exact Keeps.ite (illop_keeps h) (gated_keeps h (fun _ => vectorLoad_keeps h))

theorem execLdVectorOffset_keeps (h : Keeps s₀ s) {d o : BitVec 6} {b : BitVec 5} {ord : BitVec 2} {scope : BitVec 3} :
    KeepsOut s₀ (execLdVectorOffset d b o ord scope s) := by
  unfold execLdVectorOffset
  refine memory_keeps h (fun _ _ => ?_)
  split
  · exact illop_keeps h
  · exact Keeps.ite (illop_keeps h) (gated_keeps h (fun _ => vectorLoad_keeps h))

theorem execSld_keeps (h : Keeps s₀ s) {d b : BitVec 5} {ord : BitVec 2} {scope : BitVec 3} : KeepsOut s₀ (execSld d b ord scope s) := by
  unfold execSld
  refine memory_keeps h (fun _ _ => ?_)
  split
  · exact illop_keeps h
  · exact gated_keeps h (fun _ => access_keeps h (fun _ _ h₁ => Keeps.ite (waitHere_keeps h₁) (issueLoad_keeps h₁)))

theorem execStBase_keeps (h : Keeps s₀ s) {d : BitVec 6} {b : BitVec 5} {ord : BitVec 2} {scope : BitVec 3} {ta : Bool} :
    KeepsOut s₀ (execStBase d b ord scope ta s) := by
  unfold execStBase
  refine memory_keeps h (fun _ _ => ?_)
  split
  · exact illop_keeps h
  · exact Keeps.ite (illop_keeps h) (gated_keeps h (fun _ => vectorStore_keeps h))

theorem execStVectorOffset_keeps (h : Keeps s₀ s) {d o : BitVec 6} {b : BitVec 5} {ord : BitVec 2} {scope : BitVec 3} {ta : Bool} :
    KeepsOut s₀ (execStVectorOffset d b o ord scope ta s) := by
  unfold execStVectorOffset
  refine memory_keeps h (fun _ _ => ?_)
  split
  · exact illop_keeps h
  · exact Keeps.ite (illop_keeps h) (gated_keeps h (fun _ => vectorStore_keeps h))

theorem execSst_keeps (h : Keeps s₀ s) {d b : BitVec 5} {ord : BitVec 2} {scope : BitVec 3} {ta : Bool} :
    KeepsOut s₀ (execSst d b ord scope ta s) := by
  unfold execSst
  dsimp only
  refine memory_keeps h (fun _ _ => ?_)
  split
  · exact illop_keeps h
  · exact gated_keeps h (fun _ => access_keeps h (fun _ _ h₁ => doStore_keeps h₁))

theorem execWgath_keeps (h : Keeps s₀ s) {d : BitVec 6} {b o : BitVec 5} {ord : BitVec 2} {scope : BitVec 3} :
    KeepsOut s₀ (execWgath d b o ord scope s) := by
  unfold execWgath
  refine memory_keeps h (fun _ _ => ?_)
  split
  · exact illop_keeps h
  · exact Keeps.ite (illop_keeps h) (withPattern_keeps h (fun _ _ => vectorLoad_keeps h))

theorem execWscat_keeps (h : Keeps s₀ s) {d : BitVec 6} {b o : BitVec 5} {ord : BitVec 2} {scope : BitVec 3} {ta : Bool} :
    KeepsOut s₀ (execWscat d b o ord scope ta s) := by
  unfold execWscat
  refine memory_keeps h (fun _ _ => ?_)
  split
  · exact illop_keeps h
  · exact Keeps.ite (illop_keeps h) (withPattern_keeps h (fun _ _ => vectorStore_keeps h))

theorem execFence_keeps (h : Keeps s₀ s) {scope : BitVec 3} : KeepsOut s₀ (execFence scope s) := by
  unfold execFence
  refine memory_keeps h (fun _ _ => ?_)
  split
  · exact raise_keeps h
  · refine releasing_keeps h (fun _ _ h₁ => ?_)
    split
    · exact raise_keeps h₁
    · exact finish_keeps h₁

theorem execPhase_keeps (h : Keeps s₀ s) {scope : BitVec 3} : KeepsOut s₀ (execPhase scope s) := by
  unfold execPhase
  dsimp only
  refine memory_keeps h (fun _ _ => (releasing_keeps h (fun _ _ h₁ => ?_)))
  split
  · exact raise_keeps (Keeps.ite h₁ (invalidateClean_keeps h₁))
  · exact finish_keeps (Keeps.ite h₁ (invalidateClean_keeps h₁))

theorem execPf_keeps (h : Keeps s₀ s) {b : BitVec 5} {o : BitVec 6} : KeepsOut s₀ (execPf b o s) := by
  unfold execPf
  dsimp only
  refine memory_keeps h (fun _ _ => ?_)
  split
  · exact illop_keeps h
  · refine Keeps.ite (illop_keeps h) (gated_keeps h (fun _ => (Keeps.ite (debugEvent_keeps h) ?_)))
    refine Keeps.ite (waitHere_keeps (noteMisses_keeps h)) (finish_keeps (useDenials_keeps (Keeps.foldl (fun _ _ h₁ => (Keeps.ite h₁
      (Keeps.foldl (fun _ _ h₂ => ?_) h₁))) (noteMisses_keeps h))))
    split
    · exact Keeps.ite (setL1_keeps (mendL1_keeps h₂)) (enterMiss_keeps (mendL1_keeps h₂))
    · exact h₂

/-! ### Atomics -/

theorem execAred_keeps (h : Keeps s₀ s) {d c : BitVec 6} {b : BitVec 5} {ord : BitVec 2} {scope : BitVec 3} {ta : Bool} :
    KeepsOut s₀ (execAred d b c ord scope ta s) := by
  unfold execAred
  dsimp only
  refine memory_keeps h (fun _ _ => ?_)
  split
  · exact illop_keeps h
  · exact Keeps.ite (illop_keeps h) (gated_keeps h (fun _ => access_keeps h (fun _ _ h₁ => atomThen_keeps h₁)))

theorem execMwait_keeps (h : Keeps s₀ s) {d b o : BitVec 5} {ord : BitVec 2} {scope : BitVec 3} :
    KeepsOut s₀ (execMwait d b o ord scope s) := by
  unfold execMwait
  dsimp only
  refine memory_keeps h (fun _ _ => (gated_keeps h (fun _ => (access_keeps h (fun _ _ h₁ => ?_)))))
  split
  · exact waitHere_keeps h₁
  · exact Keeps.ite (releasing_keeps h₁ (fun _ _ h₂ => Keeps.ite (waitHere_keeps (askStamp_keeps h₂)) (Keeps.ite (finish_keeps (Keeps.ite
      (invalidateClean_keeps (pastStamp_keeps (readStamp_keeps h₂))) (pastStamp_keeps (readStamp_keeps h₂)))) (setTeam_keeps
      (readStamp_keeps h₂))))) (Keeps.ite (waitHere_keeps (askStamp_keeps h₁)) (Keeps.ite (finish_keeps (Keeps.ite (invalidateClean_keeps
      (pastStamp_keeps (readStamp_keeps h₁))) (pastStamp_keeps (readStamp_keeps h₁)))) (setTeam_keeps (readStamp_keeps h₁))))

theorem execMwaitSatisfied_keeps (h : Keeps s₀ s) {team : Nat} : KeepsOut s₀ (execMwaitSatisfied team s) := by
  unfold execMwaitSatisfied
  dsimp only
  split
  · exact KeepsOut.next h
  · split
    · split
      · exact KeepsOut.ite (KeepsOut.next (askStamp_keeps h)) (KeepsOut.ite (KeepsOut.next (setTeam_keeps (Keeps.ite
          (invalidateClean_keeps (pastStamp_keeps (readStamp_keeps h))) (pastStamp_keeps (readStamp_keeps h))))) (KeepsOut.next
          (readStamp_keeps h)))
      · exact KeepsOut.next h
    · exact KeepsOut.next h

theorem execMwto_keeps (h : Keeps s₀ s) {team : Nat} : KeepsOut s₀ (execMwto team s) := by
  unfold execMwto
  split
  · exact KeepsOut.next h
  · split
    · exact KeepsOut.ite (KeepsOut.next (raise1_keeps h)) (KeepsOut.next h)
    · exact KeepsOut.next h

/-! ### Barriers -/

theorem execBar_keeps (h : Keeps s₀ s) {n : BitVec 6} : KeepsOut s₀ (execBar n s) :=
  barrierOp_keeps h (fun _ _ => releasing_keeps h (fun _ _ h₁ => Keeps.ite (finish_keeps (setBar_keeps h₁)) (setTeam_keeps (setBar_keeps
    h₁))))

theorem execBarar_keeps (h : Keeps s₀ s) {n : BitVec 6} {y : BitVec 5} : KeepsOut s₀ (execBarar n y s) :=
  barrierOp_keeps h (fun _ _ => gated_keeps h (fun _ => releasing_keeps h (fun _ _ h₁ => finish_keeps (setBar_keeps h₁))))

theorem execBarwt_keeps (h : Keeps s₀ s) {n : BitVec 6} {y : BitVec 5} : KeepsOut s₀ (execBarwt n y s) :=
  barrierOp_keeps h (fun _ _ => gated_keeps h (fun _ => Keeps.ite (finish_keeps h) (setTeam_keeps h)))

theorem execBarini_keeps (h : Keeps s₀ s) {n : BitVec 6} {y : BitVec 5} : KeepsOut s₀ (execBarini n y s) :=
  barrierOp_keeps h (fun _ _ => gated_keeps h (fun _ => Keeps.ite (refuse1_keeps h) (finish_keeps (setBar_keeps h))))

theorem execBarexp_keeps (h : Keeps s₀ s) {n : BitVec 6} {y : BitVec 5} : KeepsOut s₀ (execBarexp n y s) :=
  barrierOp_keeps h (fun _ _ => gated_keeps h (fun _ => Keeps.ite (refuse1_keeps h) (finish_keeps (setBar_keeps h))))

theorem execBbar_keeps (h : Keeps s₀ s) : KeepsOut s₀ (execBbar s) :=
  withTeam_keeps (fun _ _ => releasing_keeps h (fun _ _ h₁ => Keeps.ite (finish_keeps (invalidateClean_keeps (setBand_keeps h₁)))
    (setTeam_keeps (setBand_keeps h₁))))

theorem execBarrierWaitEnd_keeps (h : Keeps s₀ s) {team : Nat} : KeepsOut s₀ (execBarrierWaitEnd team s) := by
  unfold execBarrierWaitEnd
  split
  · exact KeepsOut.next h
  · split
    · exact KeepsOut.ite (KeepsOut.next (setTeam_keeps h)) (KeepsOut.next h)
    · exact KeepsOut.ite (KeepsOut.next (setTeam_keeps (invalidateClean_keeps h))) (KeepsOut.next h)
    · exact KeepsOut.next h

/-! ### Control -/

theorem execBr_keeps (h : Keeps s₀ s) {inv : Bool} {p : BitVec 3} {off : BitVec 21} : KeepsOut s₀ (execBr inv p off s) :=
  withTeam_keeps (fun _ _ => gated_keeps h (fun _ => Keeps.ite (setTeam_keeps h) (Keeps.ite (finish_keeps h) (push_keeps h (fun _ _ h₁ =>
    setTeam_keeps h₁)))))

theorem execBru_keeps (h : Keeps s₀ s) {inv : Bool} {p : BitVec 3} {off : BitVec 21} : KeepsOut s₀ (execBru inv p off s) :=
  withTeam_keeps (fun _ _ => gated_keeps h (fun _ => Keeps.ite (setTeam_keeps h) (Keeps.ite (finish_keeps h) (refuse1_keeps h))))

theorem execBrany_keeps (h : Keeps s₀ s) {inv : Bool} {p : BitVec 3} {off : BitVec 21} : KeepsOut s₀ (execBrany inv p off s) :=
  withTeam_keeps (fun _ _ => gated_keeps h (fun _ => Keeps.ite (setTeam_keeps h) (finish_keeps h)))

theorem execBrall_keeps (h : Keeps s₀ s) {inv : Bool} {p : BitVec 3} {off : BitVec 21} : KeepsOut s₀ (execBrall inv p off s) :=
  withTeam_keeps (fun _ _ => gated_keeps h (fun _ => Keeps.ite (setTeam_keeps h) (finish_keeps h)))

theorem execCallr_keeps (h : Keeps s₀ s) {x : BitVec 5} : KeepsOut s₀ (execCallr x s) :=
  withTeam_keeps (fun _ _ => gated_keeps h (fun _ => Keeps.ite (refuse1_keeps h) (enter_keeps h)))

theorem execRet_keeps (h : Keeps s₀ s) : KeepsOut s₀ (execRet s) :=
  withTeam_keeps (fun _ _ => gated_keeps h (fun _ => Keeps.ite (refuse1_keeps h) (setTeam_keeps h)))

theorem execCallv_keeps (h : Keeps s₀ s) {x : BitVec 6} : KeepsOut s₀ (execCallv x s) :=
  withTeam_keeps (fun _ _ => Keeps.ite (illop_keeps h) (gated_keeps h (fun _ => Keeps.ite (refuse_keeps h) (Keeps.ite (enter_keeps h)
    (push_keeps h (fun _ _ h₁ => enter_keeps h₁))))))

theorem execCut_keeps (h : Keeps s₀ s) {x y : BitVec 5} : KeepsOut s₀ (execCut x y s) :=
  withTeam_keeps (fun _ _ => gated_keeps h (fun _ => Keeps.ite (refuse1_keeps h) (Keeps.ite (refuse1_keeps h) (spillThen_keeps
    (readSpilled_keeps h) (fun _ _ => Keeps.ite (refuse1_keeps (readSpilled_keeps h)) (unlessWatched_keeps (readSpilled_keeps h)
    (Keeps.ite (setTeam_keeps (readSpilled_keeps h)) (spillThen_keeps (readSpilled_keeps h) (fun _ eq1 => setTeam_keeps
    (writeSpilled_keeps (readSpilled_keeps h) eq1))))))))))

theorem execStkrd_keeps (h : Keeps s₀ s) {x y : BitVec 5} {f : BitVec 8} : KeepsOut s₀ (execStkrd x y f s) :=
  withTeam_keeps (fun _ _ => Keeps.ite (illop_keeps h) (gated_keeps h (fun _ => Keeps.ite (finish_keeps h) (Keeps.ite (finish_keeps h)
    (Keeps.ite (refuse1_keeps h) (spillThen_keeps (shownEntry_keeps h) (fun _ _ => unlessWatched_keeps (shownEntry_keeps h) (finish_keeps
    (shownEntry_keeps h)))))))))

theorem execStkwr_keeps (h : Keeps s₀ s) {x y : BitVec 5} {f : BitVec 8} : KeepsOut s₀ (execStkwr x y f s) := by
  unfold execStkwr
  dsimp only
  exact withTeam_keeps (fun _ _ => Keeps.ite (illop_keeps h) (gated_keeps h (fun _ => Keeps.ite (finish_keeps h) (Keeps.ite
    (refuse1_keeps h) (Keeps.ite (refuse1_keeps h) (Keeps.ite (finish_keeps h) (spillThen_keeps (readSpill_keeps h) (fun _ _ =>
    spillThen_keeps (readSpill_keeps h) (fun _ _ => Keeps.ite (waitHere_keeps (readSpill_keeps h)) (unlessWatched_keeps (readSpill_keeps
    h) (finish_keeps (writePlaces_keeps (readSpill_keeps h)))))))))))))

theorem execExit_keeps (h : Keeps s₀ s) : KeepsOut s₀ (execExit s) := by
  unfold execExit
  dsimp only
  refine withTeam_keeps (fun _ _ => ?_)
  refine Keeps.ite (waitHere_keeps h) (Keeps.ite (retireTeam_keeps (setTeam_keeps h)) ?_)
  split
  · exact raise_keeps h
  · exact proceed_keeps h

/-! ### Moves -/

theorem execMov_keeps (h : Keeps s₀ s) {d a : BitVec 6} {ta : Bool} : KeepsOut s₀ (execMov d ta a s) := by
  unfold execMov
  refine withTeam_keeps (fun _ _ => ?_)
  split
  · exact illop_keeps h
  · exact Keeps.ite (illop_keeps h) (setLanes_keeps h)

theorem execMovs_keeps (h : Keeps s₀ s) {d : BitVec 6} {ta : Bool} {a : BitVec 5} : KeepsOut s₀ (execMovs d ta a s) := by
  unfold execMovs
  refine withTeam_keeps (fun _ _ => ?_)
  split
  · exact illop_keeps h
  · exact Keeps.ite (illop_keeps h) (setLanes_keeps h)

theorem execRdl_keeps (h : Keeps s₀ s) {x z : BitVec 5} {y : BitVec 6} : KeepsOut s₀ (execRdl x y z s) := by
  unfold execRdl
  dsimp only
  refine withTeam_keeps (fun _ _ => ?_)
  split
  · exact illop_keeps h
  · exact Keeps.ite (illop_keeps h) (gated_keeps h (fun _ => Keeps.ite (refuse_keeps h) (Keeps.ite (finish_keeps h) (startProducer_keeps
      h))))

theorem execWrl_keeps (h : Keeps s₀ s) {x : BitVec 6} {y z : BitVec 5} : KeepsOut s₀ (execWrl x y z s) := by
  unfold execWrl
  dsimp only
  refine withTeam_keeps (fun _ _ => ?_)
  split
  · exact illop_keeps h
  · exact Keeps.ite (illop_keeps h) (gated_keeps h (fun _ => Keeps.ite (refuse_keeps h) (Keeps.ite (waitHere_keeps h) (Keeps.ite
      (finish_keeps h) (gated_keeps h (fun _ => finish_keeps h))))))

/-! ### Matrix -/

theorem execMma_keeps (h : Keeps s₀ s) {a b v : BitVec 5} {c : BitVec 3} : KeepsOut s₀ (execMma a b c v s) := by
  unfold execMma
  dsimp only
  refine withTeam_keeps (fun _ _ => ?_)
  split
  · exact illop_keeps h
  · refine gated_keeps h (fun _ => ?_)
    split
    · exact refuse1_keeps h
    · exact queueTeamCmd_keeps h

theorem execAcz_keeps (h : Keeps s₀ s) {c : BitVec 3} {v : BitVec 5} : KeepsOut s₀ (execAcz c v s) :=
  withTeam_keeps (fun _ _ => Keeps.ite (illop_keeps h) (gated_keeps h (fun _ => queueTeamCmd_keeps h)))

theorem execAcst_keeps (h : Keeps s₀ s) {x : BitVec 5} {a : BitVec 3} : KeepsOut s₀ (execAcst x a s) := by
  unfold execAcst
  dsimp only
  refine memory_keeps h (fun _ _ => (Keeps.ite (illop_keeps h) (gated_keeps h (fun _ => (Keeps.ite (refuse1_keeps h) (Keeps.ite
    (refuse1_keeps h) ?_))))))
  split
  · exact refuse_keeps (noteMisses_keeps h)
  · exact Keeps.ite (waitHere_keeps (noteMisses_keeps h)) (unlessWatchedAny_keeps (noteMisses_keeps h) (queueTeamCmd_keeps
      (noteMisses_keeps h)))

theorem execMmaCommand_keeps (h : Keeps s₀ s) {core : Nat} : KeepsOut s₀ (execMmaCommand core s) := by
  unfold execMmaCommand
  dsimp only
  split
  · exact KeepsOut.ite (KeepsOut.next h) (KeepsOut.next (retireCmd_keeps (Keeps.ite (setFlt_keeps (setCrew_keeps (tendAcc_keeps
      (tendTile_keeps (Keeps.ite (countFaulted_keeps (Keeps.ite (count_keeps h.upd) h)) (Keeps.ite (count_keeps h.upd) h))))).upd)
      (setCrew_keeps (tendAcc_keeps (tendTile_keeps (Keeps.ite (countFaulted_keeps (Keeps.ite (count_keeps h.upd) h)) (Keeps.ite
      (count_keeps h.upd) h))))))))
  · exact KeepsOut.next h

theorem execAczCommand_keeps (h : Keeps s₀ s) {core : Nat} : KeepsOut s₀ (execAczCommand core s) := by
  unfold execAczCommand
  dsimp only
  split
  · exact KeepsOut.ite (KeepsOut.next h) (KeepsOut.next (retireCmd_keeps (setFlt_keeps (setCrew_keeps h))))
  · exact KeepsOut.next h

theorem execAcstCommand_keeps (h : Keeps s₀ s) {core : Nat} : KeepsOut s₀ (execAcstCommand core s) := by
  unfold execAcstCommand
  dsimp only
  split
  · refine KeepsOut.ite (KeepsOut.next h) ?_
    refine KeepsOut.ite ?_ (KeepsOut.ite (KeepsOut.next (acstAsk_keeps (Keeps.ite (readAcc_keeps h) h))) (KeepsOut.next (retireCmd_keeps
      (Keeps.foldl (fun _ _ h₁ => Keeps.foldl (fun _ _ h₂ => acstWord_keeps h₂) h₁) (Keeps.ite (readAcc_keeps h) h)))))
    split
    · exact KeepsOut.next (setTeam_keeps (retireCmd_keeps (Keeps.ite (readAcc_keeps h) h)))
    · exact KeepsOut.next (errorCompletion_keeps (retireCmd_keeps (Keeps.ite (readAcc_keeps h) h)))
  · exact KeepsOut.next h

theorem execAcrd_keeps (h : Keeps s₀ s) {d : BitVec 6} {r : BitVec 5} {a : BitVec 3} : KeepsOut s₀ (execAcrd d r a s) :=
  withTeam_keeps (fun _ _ => Keeps.ite (illop_keeps h) (gated_keeps h (fun _ => Keeps.ite (refuse1_keeps h) (afterCommands_keeps h (fun _
    => Keeps.ite (refuse1_keeps (Keeps.ite h (readAcc_keeps h))) (Keeps.ite (finish_keeps (Keeps.ite h (readAcc_keeps h)))
    (startProducer_keeps (Keeps.ite h (readAcc_keeps h)))))))))

theorem execAcwr_keeps (h : Keeps s₀ s) {d : BitVec 6} {r : BitVec 5} {a : BitVec 3} : KeepsOut s₀ (execAcwr d r a s) :=
  withTeam_keeps (fun _ _ => Keeps.ite (illop_keeps h) (gated_keeps h (fun _ => Keeps.ite (refuse1_keeps h) (afterCommands_keeps h (fun _
    => finish_keeps (setFlt_keeps (setCrew_keeps h)))))))

theorem execTld_keeps (h : Keeps s₀ s) {a b z : BitVec 5} : KeepsOut s₀ (execTld a b z s) := by
  unfold execTld
  refine memory_keeps h (fun _ _ => (withTile_keeps h (fun _ _ => (tileAccess_keeps h (fun _ _ _ h₁ => (imageWords_keeps h₁ (fun _ _ h₂
    => ?_)))))))
  split
  · exact refuse1_keeps h₂
  · exact finish_keeps (setCrew_keeps h₂)

theorem execTst_keeps (h : Keeps s₀ s) {a b z : BitVec 5} : KeepsOut s₀ (execTst a b z s) := by
  unfold execTst
  dsimp only
  refine memory_keeps h (fun _ _ => (withTile_keeps h (fun _ _ => (tileAccess_keeps h (fun _ _ _ h₁ => ?_)))))
  split
  · exact refuse1_keeps (tendTile_keeps h₁)
  · exact finish_keeps (writePlaces_keeps (tendTile_keeps h₁))

theorem execTzero_keeps (h : Keeps s₀ s) {a : BitVec 5} : KeepsOut s₀ (execTzero a s) :=
  withTeam_keeps (fun _ _ => withTile_keeps h (fun _ _ => afterCommands_keeps h (fun _ => finish_keeps (setCrew_keeps h))))

/-! ### Queues -/

theorem execColl_keeps (h : Keeps s₀ s) {x y : BitVec 5} : KeepsOut s₀ (execColl x y s) := by
  unfold execColl
  dsimp only
  refine memory_keeps h (fun _ _ => (gated_keeps h (fun _ => (Keeps.ite (refuse1_keeps h) ?_))))
  split
  · exact refuse1_keeps h
  · exact withQueue_keeps h (fun _ _ h₁ => releasing_keeps h₁ (fun _ _ h₂ => Keeps.ite (waitHere_keeps (setTeam_keeps h₂)) (atHomes_keeps
      h₂ (fun _ _ h₃ => unlessWatched_keeps h₃ (finish_keeps (appendSlot_keeps h₃))))))

theorem execLnch_keeps (h : Keeps s₀ s) {x y : BitVec 5} : KeepsOut s₀ (execLnch x y s) := by
  unfold execLnch
  dsimp only
  refine memory_keeps h (fun _ _ => (gated_keeps h (fun _ => (Keeps.ite (refuse1_keeps h) (Keeps.ite (refuse1_keeps h) ?_)))))
  split
  · exact refuse1_keeps h
  · refine releasing_keeps h (fun _ _ h₁ => ?_)
    split
    · exact finish_keeps (appendLaunch_keeps h₁ ‹_›)
    · exact waitHere_keeps (setTeam_keeps h₁)

theorem execQapp_keeps (h : Keeps s₀ s) {x y : BitVec 5} : KeepsOut s₀ (execQapp x y s) :=
  memory_keeps h (fun _ _ => gated_keeps h (fun _ => Keeps.ite (refuse1_keeps h) (withPipe_keeps h (fun _ _ _ _ _ _ h₁ => Keeps.ite
    (refuse1_keeps h₁) (releasing_keeps h₁ (fun _ _ h₂ => Keeps.ite (waitHere_keeps (setTeam_keeps (noteQapp_keeps h₂))) (atHomes_keeps
    h₂ (fun _ _ h₃ => unlessWatched_keeps h₃ (finish_keeps (putPointDword_keeps (putPointDword_keeps h₃)))))))))))

theorem execQpop_keeps (h : Keeps s₀ s) {x y : BitVec 5} : KeepsOut s₀ (execQpop x y s) := by
  unfold execQpop
  dsimp only
  refine memory_keeps h (fun _ _ => (gated_keeps h (fun _ => ?_)))
  refine withPipe_keeps h (fun _ _ _ _ _ _ h₁ => (Keeps.ite (Keeps.ite (finish_keeps (invalidateClean_keeps h₁)) (waitHere_keeps h₁))
    (atHomes_keeps h₁ (fun _ _ h₂ => (unlessWatched_keeps h₂ ?_)))))
  split
  all_goals have h₃ := (pointDword_keeps h₂).of_fst ‹_›
  · exact finish_keeps (invalidateClean_keeps (putPointDword_keeps h₃))
  · exact refuse1_keeps h₃

/-! ### Graph -/

theorem execTgl_keeps (h : Keeps s₀ s) {x : BitVec 5} : KeepsOut s₀ (execTgl x s) := by
  unfold execTgl
  dsimp only
  refine memory_keeps h (fun _ _ => ?_)
  refine gated_keeps h (fun _ => (Keeps.ite (refuseWrote_keeps h) (Keeps.ite (refuseWrote_keeps h) (atHomes_keeps h (fun _ _ h₁ =>
    (unlessWatched_keeps h₁ (releasing_keeps h₁ (fun _ _ h₂ => ?_))))))))
  split
  all_goals have h₃ := (attempt_keeps h₂ (fun _ h₃ => decrement_keeps h₃)).of_fst ‹_›
  · exact finish_keeps h₃
  · exact waitHere_keeps h₃

theorem execNodeComplete_keeps (h : Keeps s₀ s) {idx : Nat} : KeepsOut s₀ (execNodeComplete idx s) :=
  KeepsOut.next (attempt_keeps h (fun _ h₁ => walkerItem_keeps h₁))

/-! ### Copy -/

theorem execCopyPacketStart_keeps (h : Keeps s₀ s) {die queue : Nat} : KeepsOut s₀ (execCopyPacketStart die queue s) :=
  KeepsOut.next (attempt_keeps h (fun _ h₁ => takePacket_keeps h₁))

theorem execCopyRead_keeps (h : Keeps s₀ s) {idx : Nat} : KeepsOut s₀ (execCopyRead idx s) :=
  KeepsOut.next (attempt_keeps h (fun _ h₁ => moveCopy_keeps h₁))

theorem execMergeWindowClose_keeps (h : Keeps s₀ s) {die idx : Nat} : KeepsOut s₀ (execMergeWindowClose die idx s) := by
  unfold execMergeWindowClose
  split
  · exact KeepsOut.next h
  · exact KeepsOut.next h.upd

theorem execCopyComplete_keeps (h : Keeps s₀ s) {idx dest : Nat} : KeepsOut s₀ (execCopyComplete idx dest s) :=
  KeepsOut.next (attempt_keeps h (fun _ h₁ => completeCopy_keeps h₁))

/-! ### Collective -/

theorem execCollectiveMatch_keeps (h : Keeps s₀ s) {idx : Nat} : KeepsOut s₀ (execCollectiveMatch idx s) :=
  KeepsOut.next (attempt_keeps h (fun _ h₁ => matchPart_keeps h₁))

theorem execCollectiveComplete_keeps (h : Keeps s₀ s) {idx part : Nat} : KeepsOut s₀ (execCollectiveComplete idx part s) :=
  KeepsOut.next (attempt_keeps h (fun _ h₁ => completePart_keeps h₁))

/-! ### Special -/

theorem execTbev_keeps (h : Keeps s₀ s) {d a : BitVec 6} {ta : Bool} : KeepsOut s₀ (execTbev d ta a s) := by
  unfold execTbev
  dsimp only
  refine withTeam_keeps (fun _ _ => ?_)
  split
  · exact illop_keeps h
  · exact Keeps.ite (illop_keeps h) (gated_keeps h (fun _ => Keeps.ite (waitHere_keeps h) (vecProducer_keeps h)))

theorem execTbld_keeps (h : Keeps s₀ s) {x : BitVec 5} : KeepsOut s₀ (execTbld x s) :=
  withTeam_keeps (fun _ _ => gated_keeps h (fun _ => imageAccess_keeps h (fun _ _ h₁ => Keeps.ite (waitHere_keeps (queueTab_keeps h₁))
    (finish_keeps (setCore_keeps h₁)))))

theorem execTableLoadComplete_keeps (h : Keeps s₀ s) {core : Nat} : KeepsOut s₀ (execTableLoadComplete core s) := by
  unfold execTableLoadComplete
  generalize List.range 1028 = indices
  generalize span _ 1028 = words
  generalize 1028 = count
  extract_lets c
  split
  · exact h
  · generalize looked : List.foldl _ (s, true) indices = ready
    obtain ⟨s₁, ok⟩ := ready
    have h₁ : Keeps s₀ s₁ := Keeps.of_fst (Keeps.foldl₂ (fun _ _ h => ?_) h) looked
    · exact KeepsOut.ite (KeepsOut.next h₁) (KeepsOut.next (setCore_keeps (readImage_keeps h₁)))
    · dsimp only
      exact imageReady_keeps h

theorem execTbsw_keeps (h : Keeps s₀ s) : KeepsOut s₀ (execTbsw s) :=
  withTeam_keeps (fun _ _ => Keeps.ite (waitHere_keeps (queueTab_keeps h)) (Keeps.ite (raise_keeps h) (Keeps.ite (waitHere_keeps
    (queueTab_keeps (setCore_keeps h))) (finish_keeps (setCore_keeps h)))))

theorem execProducerCompletion_keeps (h : Keeps s₀ s) {team : Nat} : KeepsOut s₀ (execProducerCompletion team s) := by
  unfold execProducerCompletion
  split
  · exact KeepsOut.next (setTeam_keeps h.upd)
  · exact KeepsOut.next h

/-! ### Mill -/

theorem execMlopen_keeps (h : Keeps s₀ s) {x : BitVec 5} : KeepsOut s₀ (execMlopen x s) :=
  withTeam_keeps (fun _ _ => Keeps.ite (illop_keeps h) (gated_keeps h (fun _ => Keeps.ite (illop_keeps h) (Keeps.ite (refuse1_keeps h)
    (Keeps.ite (refuse1_keeps h) (Keeps.ite (refuse1_keeps h) (Keeps.ite (refuse1_keeps h) (Keeps.ite (waitHere_keeps h) (openMill_keeps
    h)))))))))

theorem execMlfill_keeps (h : Keeps s₀ s) {x y : BitVec 6} {p : BitVec 3} : KeepsOut s₀ (execMlfill x y p s) := by
  unfold execMlfill
  dsimp only
  refine withTeam_keeps (fun _ _ => ?_)
  refine Keeps.ite (illop_keeps h) (Keeps.ite (waitHere_keeps h) (gated_keeps h (fun _ => ?_)))
  refine Keeps.ite (waitHere_keeps h) ?_
  split
  · exact refuse1_keeps h
  · split
    all_goals have h₁ := (search_keeps h).of_fst ‹_›
    · exact millStop_keeps h₁
    · split
      all_goals have h₂ := (millFill_keeps h₁).of_fst ‹_›
      · exact millStop_keeps h₂
      · exact millStop_keeps h₂
      · exact gated_keeps h₂ (fun _ => Keeps.ite (finish_keeps h₂) (finish_keeps h₂.upd))

theorem execMlfillComplete_keeps (h : Keeps s₀ s) {team : Nat} : KeepsOut s₀ (execMlfillComplete team s) := by
  unfold execMlfillComplete
  dsimp only
  split
  · exact KeepsOut.next (setTeam_keeps h.upd)
  · exact KeepsOut.next h

theorem execMlstat_keeps (h : Keeps s₀ s) {x : BitVec 5} {f : BitVec 8} : KeepsOut s₀ (execMlstat x f s) := by
  unfold execMlstat
  dsimp only
  refine withTeam_keeps (fun _ _ => ?_)
  refine Keeps.ite (illop_keeps h) (Keeps.ite (waitHere_keeps h) (gated_keeps h (fun _ => ?_)))
  split
  · exact finish_keeps h
  · refine Keeps.ite (finish_keeps h) (Keeps.ite (waitHere_keeps h) ?_)
    split
    all_goals have h₁ := (search_keeps h).of_fst ‹_›
    · exact millStop_keeps h₁
    · exact finish_keeps h₁

theorem execMlsave_keeps (h : Keeps s₀ s) {x : BitVec 5} : KeepsOut s₀ (execMlsave x s) :=
  withTeam_keeps (fun _ _ => gated_keeps h (fun _ => Keeps.ite (waitHere_keeps h) (withSettled_keeps h (fun _ _ h₁ => imageAccess_keeps
    h₁ (fun _ _ h₂ => finish_keeps (writePlaces_keeps h₂))))))

theorem execMlrest_keeps (h : Keeps s₀ s) {x : BitVec 5} : KeepsOut s₀ (execMlrest x s) := by
  unfold execMlrest
  dsimp only
  refine withTeam_keeps (fun _ _ => ?_)
  refine gated_keeps h (fun _ => ?_)
  refine Keeps.ite (waitHere_keeps h) (readWordsThen_keeps h (fun _ _ h₁ => ?_))
  refine Keeps.ite (finish_keeps h₁) ?_
  split
  · exact refuse1_keeps h₁
  · exact openMill_keeps h₁

theorem execRbal_keeps (h : Keeps s₀ s) {x y : BitVec 6} {c : BitVec 5} : KeepsOut s₀ (execRbal x y c s) :=
  withTeam_keeps (fun _ _ => Keeps.ite (illop_keeps h) (gated_keeps h (fun _ => finish_keeps h)))

theorem execShpld_keeps (h : Keeps s₀ s) {x y : BitVec 5} : KeepsOut s₀ (execShpld x y s) := by
  unfold execShpld
  dsimp only
  refine withTeam_keeps (fun _ _ => ?_)
  refine Keeps.ite (illop_keeps h) (gated_keeps h (fun _ => ?_))
  refine imageAccess_keeps h (fun _ _ h₁ => ?_)
  refine imageWords_keeps h₁ (fun _ _ h₂ => ?_)
  split
  · exact finish_keeps h₂
  · exact Keeps.ite (refuse1_keeps h₂) (startProducer_keeps h₂)

/-! ### Placement -/

theorem execOperatingPointStable_keeps (h : Keeps s₀ s) {die : Nat} : KeepsOut s₀ (execOperatingPointStable die s) :=
  KeepsOut.ite (KeepsOut.next h) (KeepsOut.next (releaseSlowed_keeps (setDie_keeps h)))

/-! ### System -/

theorem execMvfc_keeps (h : Keeps s₀ s) {x : BitVec 5} {c : BitVec 8} : KeepsOut s₀ (execMvfc x c s) := by
  unfold execMvfc
  refine withTeam_keeps (fun _ _ => ?_)
  split
  · exact illop_keeps h
  · exact gated_keeps h (fun _ => Keeps.ite (waitHere_keeps h) (finish_keeps h))

theorem execMovc_keeps (h : Keeps s₀ s) {y : BitVec 5} {c : BitVec 8} : KeepsOut s₀ (execMovc y c s) :=
  withTeam_keeps (fun _ _ => Keeps.ite (illop_keeps h) (Keeps.ite (raise_keeps h) (gated_keeps h (fun _ => setTeam_keeps h))))

theorem execTsWrite_keeps (h : Keeps s₀ s) {n y : BitVec 5} : KeepsOut s₀ (execTsWrite n y s) :=
  withTeam_keeps (fun _ _ => gated_keeps h (fun _ => Keeps.ite (waitHere_keeps h) (finish_keeps (setCrew_keeps h))))

theorem execAvWrite_keeps (h : Keeps s₀ s) {n : BitVec 3} {y : BitVec 5} : KeepsOut s₀ (execAvWrite n y s) :=
  withTeam_keeps (fun _ _ => gated_keeps h (fun _ => finish_keeps (setCrew_keeps h)))

theorem execSpinj_keeps (h : Keeps s₀ s) {y : BitVec 5} : KeepsOut s₀ (execSpinj y s) :=
  withTeam_keeps (fun _ _ => gated_keeps h (fun _ => Keeps.ite (finish_keeps h) (finish_keeps h.upd)))

theorem execCrate_keeps (h : Keeps s₀ s) {n : BitVec 3} {y : BitVec 5} : KeepsOut s₀ (execCrate n y s) :=
  withTeam_keeps (fun _ _ => Keeps.ite (raise_keeps h) (gated_keeps h (fun _ => Keeps.ite (refuse1_keeps h) (finish_keeps h.upd))))

theorem execPtrig_keeps (h : Keeps s₀ s) {y : BitVec 5} : KeepsOut s₀ (execPtrig y s) := by
  unfold execPtrig
  dsimp only
  refine withTeam_keeps (fun _ _ => ?_)
  refine Keeps.ite (raise_keeps h) (gated_keeps h (fun _ => ?_))
  split
  · exact setTeam_keeps (setBand_keeps (finish_keeps h))
  · exact setBand_keeps (finish_keeps h)

theorem execBreakpointWrite_keeps (h : Keeps s₀ s) {n : BitVec 4} {y : BitVec 5} : KeepsOut s₀ (execBreakpointWrite n y s) :=
  withTeam_keeps (fun _ _ => Keeps.ite (raise_keeps h) (gated_keeps h (fun _ => finish_keeps (setBand_keeps h))))

theorem execSys_keeps (h : Keeps s₀ s) {x y : BitVec 5} {n : BitVec 8} : KeepsOut s₀ (execSys x y n s) :=
  memory_keeps h (fun _ _ => gated_keeps h (fun _ => Keeps.ite (waitHere_keeps h) (releasing_keeps h (fun _ _ h₁ => raiseVector_keeps
    (setTeam_keeps h₁.upd)))))

theorem execServiceReply_keeps (h : Keeps s₀ s) {idx : Nat} {value : DWord} : KeepsOut s₀ (execServiceReply idx value s) := by
  unfold execServiceReply
  split
  · exact KeepsOut.next h
  · refine KeepsOut.ite (KeepsOut.next h) ?_
    split
    · exact KeepsOut.next h.upd
    · exact KeepsOut.ite (KeepsOut.next h.upd) (KeepsOut.next (deliverReply_keeps h))

theorem execTlbi_keeps (h : Keeps s₀ s) {y : BitVec 5} {n : BitVec 8} : KeepsOut s₀ (execTlbi y n s) :=
  withTeam_keeps (fun _ _ => Keeps.ite (illop_keeps h) (Keeps.ite (raise_keeps h) (gated_keeps h (fun _ => Keeps.ite (waitHere_keeps
    (setTeam_keeps (Keeps.ite h (dropTranslations_keeps h.upd)))) (finish_keeps (Keeps.ite h (dropTranslations_keeps h.upd)))))))

theorem execHalt_keeps (h : Keeps s₀ s) : KeepsOut s₀ (execHalt s) :=
  withTeam_keeps (fun _ _ => Keeps.ite (raise_keeps h) (stopBand_keeps (finish_keeps h)))

theorem execFrrd_keeps (h : Keeps s₀ s) {x y : BitVec 5} {f : BitVec 8} : KeepsOut s₀ (execFrrd x y f s) := by
  unfold execFrrd
  dsimp only
  refine memory_keeps h (fun _ _ => (gated_keeps h (fun _ => (Keeps.ite (refuse1_keeps h) (imageAccess_keeps h (fun _ _ h₁ =>
    (imageWords_keeps h₁ (fun _ _ h₂ => ?_))))))))
  split <;> exact finish_keeps h₂

theorem execLkill_keeps (h : Keeps s₀ s) {x : BitVec 5} : KeepsOut s₀ (execLkill x s) :=
  withTeam_keeps (fun _ _ => Keeps.ite (illop_keeps h) (gated_keeps h (fun _ => Keeps.ite (refuse1_keeps h) (finish_keeps h))))

theorem execCtxsv_keeps (h : Keeps s₀ s) {x : BitVec 5} : KeepsOut s₀ (execCtxsv x s) :=
  memory_keeps h (fun _ _ => gated_keeps h (fun _ => Keeps.ite (waitHere_keeps h) (withSettled_keeps h (fun _ _ h₁ => imageAccess_keeps
    h₁ (fun _ _ h₂ => finish_keeps (writePlaces_keeps h₂))))))

theorem execCtxld_keeps (h : Keeps s₀ s) {x : BitVec 5} : KeepsOut s₀ (execCtxld x s) :=
  memory_keeps h (fun _ _ => Keeps.ite (raise_keeps h) (gated_keeps h (fun _ => Keeps.ite (waitHere_keeps h) (readWordsThen_keeps h (fun
    _ _ h₁ => Keeps.ite (refuse1_keeps h₁) (Keeps.ite (waitHere_keeps h₁) (setTeam_keeps h₁)))))))

/-! ### Scheduling -/

theorem execLaunchHead_keeps (h : Keeps s₀ s) {die queue : Nat} : KeepsOut s₀ (execLaunchHead die queue s) :=
  KeepsOut.next (attempt_keeps h (fun _ h₁ => readHead_keeps h₁))

theorem execBandPlacement_keeps (h : Keeps s₀ s) {die : Nat} : KeepsOut s₀ (execBandPlacement die s) := by
  unfold execBandPlacement
  dsimp only
  split
  · exact KeepsOut.next (noteBlocked_keeps (passTurns_keeps h))
  · refine KeepsOut.ite (KeepsOut.next h) ?_
    split
    · exact KeepsOut.next h
    · split
      · exact KeepsOut.next h
      · exact KeepsOut.next (noteBlocked_keeps (retune_keeps (gangReady_keeps (setLaunch_keeps (startBand_keeps (passTurns_keeps
          h).upd)))))

theorem execGangStart_keeps (h : Keeps s₀ s) {launch : Nat} : KeepsOut s₀ (execGangStart launch s) := by
  unfold execGangStart
  split
  · exact KeepsOut.next (gangReady_keeps h)
  · exact KeepsOut.ite (KeepsOut.next h) (KeepsOut.next (Keeps.foldl (fun _ _ h₁ => letGo_keeps h₁) h))

theorem execPreEmption_keeps (h : Keeps s₀ s) {band : Nat} : KeepsOut s₀ (execPreEmption band s) := by
  unfold execPreEmption
  split
  · exact KeepsOut.next h
  · exact KeepsOut.next (Keeps.ite (saveBand_keeps h) (standStill_keeps h))

theorem execResumption_keeps (h : Keeps s₀ s) {band : Nat} : KeepsOut s₀ (execResumption band s) :=
  KeepsOut.next (attempt_keeps h (fun _ h₁ => resumeBand_keeps h₁))

theorem execQuantumExpiry_keeps (h : Keeps s₀ s) {die queue : Nat} : KeepsOut s₀ (execQuantumExpiry die queue s) := by
  unfold execQuantumExpiry
  dsimp only
  split
  · refine KeepsOut.ite (KeepsOut.next h) (KeepsOut.next ?_)
    split
    · next x found =>
      obtain ⟨d, -, rfl⟩ := List.mem_map.1 (List.mem_of_find?_eq_some found)
      exact (quantumOn_keeps h).upd
    · exact Keeps.foldl (fun _ _ h => quantumOn_keeps h) h
  · exact KeepsOut.next h

theorem execStageBalancer_keeps (h : Keeps s₀ s) {launch : Nat} : KeepsOut s₀ (execStageBalancer launch s) :=
  KeepsOut.next (attempt_keeps h (fun _ h₁ => balance_keeps h₁))

theorem execKernelBoundary_keeps (h : Keeps s₀ s) {launch : Nat} : KeepsOut s₀ (execKernelBoundary launch s) := by
  have clean := boundary346_keeps h
  unfold execKernelBoundary
  extract_lets l s₁
  change Keeps s₀ s₁ at clean
  clear_value s₁
  split
  · split
    · exact KeepsOut.next clean
    · exact KeepsOut.next (setLaunch_keeps (launchStamp_keeps clean))
  · exact KeepsOut.next h

theorem execLaunchEndFromOutside_keeps (h : Keeps s₀ s) {launch : Nat} : KeepsOut s₀ (execLaunchEndFromOutside launch s) := by
  unfold execLaunchEndFromOutside
  split
  · exact KeepsOut.next h
  · exact KeepsOut.ite (KeepsOut.next h) (KeepsOut.next (refuseLaunch_keeps (dropBands_keeps h)))

theorem execPtrigFire_keeps (h : Keeps s₀ s) {band : Nat} : KeepsOut s₀ (execPtrigFire band s) := by
  unfold execPtrigFire
  dsimp only
  split
  · exact KeepsOut.next h
  · split
    · exact KeepsOut.next h
    · exact KeepsOut.ite (KeepsOut.next (beginPreempt_keeps (setBand_keeps (setTeam_keeps h)))) (KeepsOut.next h)

/-! ### Debug -/

theorem execTrapEntry_keeps (h : Keeps s₀ s) {team : Nat} : KeepsOut s₀ (execTrapEntry team s) := by
  unfold execTrapEntry
  refine KeepsOut.next ?_
  split
  · exact Keeps.ite h (takeTrap_keeps h)
  · exact h

theorem execRegionRestart_keeps (h : Keeps s₀ s) {team : Nat} : KeepsOut s₀ (execRegionRestart team s) := by
  unfold execRegionRestart
  refine KeepsOut.next ?_
  split
  · exact Keeps.ite (restartRegion_keeps h) h
  · exact h

theorem execUnassignedOpcode_keeps (h : Keeps s₀ s) {w : Word} : KeepsOut s₀ (execUnassignedOpcode w s) :=
  withTeam_keeps (fun _ _ => illop_keeps h)

theorem execInstructionFetchFault_keeps (h : Keeps s₀ s) {cause : BitVec 8} : KeepsOut s₀ (execInstructionFetchFault cause s) :=
  withTeam_keeps (fun _ _ => raise_keeps (useDenials_keeps h))

theorem execDebugStep_keeps (h : Keeps s₀ s) {team : Nat} : KeepsOut s₀ (execDebugStep team s) :=
  KeepsOut.next (Keeps.ite (askStep_keeps h) h)

theorem execStepLane_keeps (h : Keeps s₀ s) {team lane : Nat} : KeepsOut s₀ (execStepLane team lane s) :=
  KeepsOut.next (Keeps.ite (askStep_keeps h) h)

theorem execStepAbort_keeps (h : Keeps s₀ s) {team : Nat} : KeepsOut s₀ (execStepAbort team s) := by
  unfold execStepAbort
  dsimp only
  refine KeepsOut.next ?_
  split
  · exact setTeam_keeps h
  · exact h

theorem execDebuggerAttach_keeps (h : Keeps s₀ s) {band : Nat} : KeepsOut s₀ (execDebuggerAttach band s) := by
  unfold execDebuggerAttach
  dsimp only
  split
  · exact KeepsOut.next h
  · exact KeepsOut.next (Keeps.ite (beginPreempt_keeps (mapTeams_keeps (setBand_keeps h))) (mapTeams_keeps (setBand_keeps h)))

theorem execBandResume_keeps (h : Keeps s₀ s) {band : Nat} : KeepsOut s₀ (execBandResume band s) := by
  unfold execBandResume
  split
  · exact KeepsOut.next h
  · exact KeepsOut.ite (KeepsOut.next h) (KeepsOut.next (serveBand_keeps (letGo_keeps h)))

/-! ### Homes -/

theorem execRequestCollectorAdmission_keeps (h : Keeps s₀ s) {core : Nat} : KeepsOut s₀ (execRequestCollectorAdmission core s) := by
  unfold execRequestCollectorAdmission
  dsimp only
  split
  · exact KeepsOut.next h
  · refine KeepsOut.ite (KeepsOut.next h) (KeepsOut.ite (KeepsOut.next (pumpAtoms_keeps h.upd)) (KeepsOut.next (finishLoads_keeps
      (Keeps.upd ?_))))
    refine Keeps.foldl₂ (fun _ _ h₁ => ?_) h
    refine Keeps.ite_fst ?_ h₁
    exact admitWord_keeps h₁

theorem execMergeTimeout_keeps (h : Keeps s₀ s) {core idx : Nat} : KeepsOut s₀ (execMergeTimeout core idx s) := by
  unfold execMergeTimeout
  refine KeepsOut.next ?_
  split
  · exact sendMiss_keeps h
  · exact h

theorem execL2SliceRequest_keeps (h : Keeps s₀ s) {idx : Nat} : KeepsOut s₀ (execL2SliceRequest idx s) := by
  unfold execL2SliceRequest
  dsimp only
  split
  · exact KeepsOut.next h
  · exact KeepsOut.next (Keeps.ite (Keeps.ite (Keeps.foldl (fun _ _ h₁ => Keeps.ite (purgeL2_keeps h₁) h₁) (Keeps.ite (Keeps.foldl (fun _
      _ h₁ => setL2_keeps h₁) (Keeps.ite h.upd (Keeps.foldl (fun _ _ h₁ => mendL2_keeps h₁) h.upd))) (Keeps.foldl (fun _ _ h₁ =>
      setL2_keeps h₁) (Keeps.ite h.upd (Keeps.foldl (fun _ _ h₁ => mendL2_keeps h₁) h.upd))).upd)) (Keeps.ite (Keeps.foldl (fun _ _ h₁ =>
      setL2_keeps h₁) (Keeps.ite h.upd (Keeps.foldl (fun _ _ h₁ => mendL2_keeps h₁) h.upd))) (Keeps.foldl (fun _ _ h₁ => setL2_keeps h₁)
      (Keeps.ite h.upd (Keeps.foldl (fun _ _ h₁ => mendL2_keeps h₁) h.upd))).upd)) (Keeps.ite (Keeps.ite (Keeps.foldl (fun _ _ h₁ =>
      Keeps.ite (purgeL2_keeps h₁) h₁) (Keeps.ite (Keeps.foldl (fun _ _ h₁ => setL2_keeps h₁) (Keeps.ite h.upd (Keeps.foldl (fun _ _ h₁
      => mendL2_keeps h₁) h.upd))) (Keeps.foldl (fun _ _ h₁ => setL2_keeps h₁) (Keeps.ite h.upd (Keeps.foldl (fun _ _ h₁ => mendL2_keeps
      h₁) h.upd))).upd)) (Keeps.ite (Keeps.foldl (fun _ _ h₁ => setL2_keeps h₁) (Keeps.ite h.upd (Keeps.foldl (fun _ _ h₁ => mendL2_keeps
      h₁) h.upd))) (Keeps.foldl (fun _ _ h₁ => setL2_keeps h₁) (Keeps.ite h.upd (Keeps.foldl (fun _ _ h₁ => mendL2_keeps h₁)
      h.upd))).upd)).upd (enqueueCut_keeps (Keeps.ite (Keeps.foldl (fun _ _ h₁ => Keeps.ite (purgeL2_keeps h₁) h₁) (Keeps.ite
      (Keeps.foldl (fun _ _ h₁ => setL2_keeps h₁) (Keeps.ite h.upd (Keeps.foldl (fun _ _ h₁ => mendL2_keeps h₁) h.upd))) (Keeps.foldl
      (fun _ _ h₁ => setL2_keeps h₁) (Keeps.ite h.upd (Keeps.foldl (fun _ _ h₁ => mendL2_keeps h₁) h.upd))).upd)) (Keeps.ite (Keeps.foldl
      (fun _ _ h₁ => setL2_keeps h₁) (Keeps.ite h.upd (Keeps.foldl (fun _ _ h₁ => mendL2_keeps h₁) h.upd))) (Keeps.foldl (fun _ _ h₁ =>
      setL2_keeps h₁) (Keeps.ite h.upd (Keeps.foldl (fun _ _ h₁ => mendL2_keeps h₁) h.upd))).upd)))))

theorem execHomeRequest_keeps (h : Keeps s₀ s) {idx : Nat} : KeepsOut s₀ (execHomeRequest idx s) := by
  unfold execHomeRequest
  dsimp only
  split
  · exact KeepsOut.next h
  · refine KeepsOut.next ?_
    split
    · exact homeReads_keeps h.upd
    · exact homeAtoms_keeps h.upd

theorem execBurstRead.lost_keeps (h : Keeps s₀ s) {b : Burst} : Keeps s₀ (execBurstRead.lost s b) :=
  (Keeps.foldl (fun _ _ h₁ => deliverHome_keeps h₁) (interfaceLost_keeps h)).upd

theorem execBurstRead_keeps (h : Keeps s₀ s) {idx : Nat} {crcBad : Bool} {flips : List (Nat × Nat)} :
    KeepsOut s₀ (execBurstRead idx crcBad flips s) := by
  unfold execBurstRead
  dsimp only
  split
  · exact KeepsOut.next h
  · exact KeepsOut.ite (KeepsOut.next h) (KeepsOut.ite (KeepsOut.ite (KeepsOut.next (countPc_keeps h.upd)) (KeepsOut.ite (KeepsOut.next
      h.upd) (KeepsOut.next (execBurstRead.lost_keeps h.upd)))) (KeepsOut.next (Keeps.foldl (fun _ _ h₁ => senseWords_keeps h₁)
      (Keeps.foldl (fun _ _ h₁ => holdResults_keeps h₁) (senseBurst_keeps h.upd)))))

theorem execWriteReplay_keeps (h : Keeps s₀ s) {pa : Nat} {bad : Bool} : KeepsOut s₀ (execWriteReplay pa bad s) :=
  KeepsOut.ite (KeepsOut.next h) (KeepsOut.next (countPc_keeps h.upd))

theorem execRetrain_keeps (h : Keeps s₀ s) {idx : Nat} {ok : Bool} : KeepsOut s₀ (execRetrain idx ok s) := by
  unfold execRetrain
  dsimp only
  split
  · exact KeepsOut.next (resumeRetrained_keeps (Keeps.ite h.upd (execBurstRead.lost_keeps h.upd)))
  · split
    · exact KeepsOut.next h
    · exact KeepsOut.next (resumeRetrained_keeps (Keeps.ite h.upd (Keeps.ite h.upd (retireChannel_keeps (interfaceLost_keeps h.upd)))))

theorem execBlockProcedure_keeps (h : Keeps s₀ s) {idx : Nat} : KeepsOut s₀ (execBlockProcedure idx s) := by
  unfold execBlockProcedure
  dsimp only
  split
  · exact KeepsOut.next h
  · exact KeepsOut.ite (KeepsOut.next h) (KeepsOut.next (Keeps.foldl (fun _ _ h₁ => performHeld_keeps h₁) (Keeps.foldl (fun _ _ h₁ =>
      senseWords_keeps (deliverHome_keeps h₁)) (blockAtHome_keeps h.upd).upd).upd))

theorem execFill_keeps (h : Keeps s₀ s) {idx : Nat} : KeepsOut s₀ (execFill idx s) := by
  unfold execFill
  dsimp only
  split
  · exact KeepsOut.next h
  · exact KeepsOut.next (Keeps.ite (fillL2_keeps h.upd) (fillCore_keeps h.upd))

theorem execPublication_keeps (h : Keeps s₀ s) {idx : Nat} : KeepsOut s₀ (execPublication idx s) := by
  unfold execPublication
  dsimp only
  split
  · exact KeepsOut.next h
  · exact KeepsOut.ite (KeepsOut.next h) (KeepsOut.ite (KeepsOut.next (performPub_keeps h)) (KeepsOut.ite (KeepsOut.next h.upd)
      (KeepsOut.ite (KeepsOut.next (performPub_keeps h)) (KeepsOut.next (enqueueCut_keeps h.upd)))))

/-! ### Drams -/

theorem execBackgroundScrub_keeps (h : Keeps s₀ s) {stack : Nat} : KeepsOut s₀ (execBackgroundScrub stack s) :=
  KeepsOut.next (scrub_keeps h)

theorem execSliceCountClear_keeps (h : Keeps s₀ s) {stack : Nat} : KeepsOut s₀ (execSliceCountClear stack s) :=
  KeepsOut.next (setDram_keeps h)

theorem execSpareIn_keeps (h : Keeps s₀ s) {stack pc slice : Nat} : KeepsOut s₀ (execSpareIn stack pc slice s) :=
  KeepsOut.ite (KeepsOut.next h) (KeepsOut.ite (KeepsOut.next h) (KeepsOut.ite (KeepsOut.next (retireChannel_keeps h)) (KeepsOut.next
    (setDram_keeps h))))

theorem execSpareInComplete_keeps (h : Keeps s₀ s) {stack pc : Nat} : KeepsOut s₀ (execSpareInComplete stack pc s) := by
  unfold execSpareInComplete
  dsimp only
  split
  · exact KeepsOut.next h
  · exact KeepsOut.next (logRas_keeps (setDram_keeps (scrub_keeps h)))

theorem execHotRemoveAcknowledge_keeps (h : Keeps s₀ s) {stack pc bankSet : Nat} :
    KeepsOut s₀ (execHotRemoveAcknowledge stack pc bankSet s) :=
  KeepsOut.ite (KeepsOut.next (setDram_keeps h)) (KeepsOut.next h)

theorem filter_wf {m : Memory} (p : Host.Cell → Bool) (h : Memory.wf m = true) : Memory.wf (m.filter p) = true := by
  obtain ⟨rising, listed⟩ := (canonical_iff 0 m).1 h
  exact (canonical_iff 0 _).2 ⟨rising.filter p, fun e he => listed e (List.mem_filter.1 he).1⟩

theorem execHotAdd_keeps (h : Keeps s₀ s) {stack : Nat} : KeepsOut s₀ (execHotAdd stack s) := by
  unfold execHotAdd
  dsimp only
  refine KeepsOut.ite (KeepsOut.next h) (KeepsOut.next (capacityChange_keeps (setDram_keeps ?_)))
  exact h.write rfl (filter_wf _)

theorem execPageWalk_keeps (h : Keeps s₀ s) {core va : Nat} : KeepsOut s₀ (execPageWalk core va s) := by
  unfold execPageWalk
  dsimp only
  split
  · exact KeepsOut.next h
  · split
    · exact KeepsOut.next (askHost_keeps h)
    · refine KeepsOut.next (Keeps.ite (Keeps.foldl (fun _ _ h₁ => readEntry_keeps h₁) h).upd ?_)
      split
      · exact enterTrans_keeps (Keeps.foldl (fun _ _ h₁ => readEntry_keeps h₁) h).upd
      · exact (Keeps.foldl (fun _ _ h₁ => readEntry_keeps h₁) h).upd

/-! ### Sparge -/

theorem execMessageSend_keeps (h : Keeps s₀ s) {die idx : Nat} : KeepsOut s₀ (execMessageSend die idx s) := by
  unfold execMessageSend
  dsimp only
  split
  · exact KeepsOut.next h
  · exact KeepsOut.ite (KeepsOut.next h) (KeepsOut.next h.upd)

theorem execDelayedFragment_keeps (h : Keeps s₀ s) {idx : Nat} : KeepsOut s₀ (execDelayedFragment idx s) := by
  unfold execDelayedFragment
  dsimp only
  split
  · exact KeepsOut.next h
  · exact KeepsOut.ite (KeepsOut.next h) (KeepsOut.next h.upd)

theorem execFragmentReceive_keeps (h : Keeps s₀ s) {idx : Nat} {arrival : Option (BitVec 640)} :
    KeepsOut s₀ (execFragmentReceive idx arrival s) := by
  unfold execFragmentReceive
  dsimp only
  split
  · exact KeepsOut.next h
  · exact KeepsOut.ite (KeepsOut.next h) (KeepsOut.ite (KeepsOut.next h.upd) (KeepsOut.ite (KeepsOut.next (count_keeps h.upd))
      (KeepsOut.ite (KeepsOut.next (Keeps.ite (answer_keeps (count_keeps h.upd)) (count_keeps h.upd))) (KeepsOut.ite (KeepsOut.next
      (count_keeps h.upd)) (KeepsOut.next (acceptFragment_keeps h.upd))))))

theorem execAcknowledgement_keeps (h : Keeps s₀ s) {idx : Nat} : KeepsOut s₀ (execAcknowledgement idx s) := by
  unfold execAcknowledgement
  split
  · exact KeepsOut.next h
  · refine KeepsOut.next ?_
    split
    · exact (takeInbox_keeps h ‹_›).upd
    · exact takeInbox_keeps h ‹_›

theorem execReceiverRepairTimeout_keeps (h : Keeps s₀ s) {die idx : Nat} : KeepsOut s₀ (execReceiverRepairTimeout die idx s) := by
  unfold execReceiverRepairTimeout
  split
  · exact KeepsOut.next h
  · exact KeepsOut.next (Keeps.ite h (answer_keeps h))

theorem execSenderRepairTimeout_keeps (h : Keeps s₀ s) {die idx : Nat} : KeepsOut s₀ (execSenderRepairTimeout die idx s) := by
  unfold execSenderRepairTimeout
  refine KeepsOut.next ?_
  split
  · exact serveRepair_keeps h
  · exact h

theorem execRepairRequest_keeps (h : Keeps s₀ s) {idx : Nat} : KeepsOut s₀ (execRepairRequest idx s) := by
  unfold execRepairRequest
  split
  · exact KeepsOut.next h
  · refine KeepsOut.next ?_
    split
    · split
      · exact serveRepair_keeps (takeInbox_keeps h ‹_›)
      · exact takeInbox_keeps h ‹_›
    · exact takeInbox_keeps h ‹_›

theorem execMessageLoss_keeps (h : Keeps s₀ s) {die idx : Nat} : KeepsOut s₀ (execMessageLoss die idx s) := by
  unfold execMessageLoss
  dsimp only
  split
  · exact KeepsOut.next h
  · exact KeepsOut.ite (KeepsOut.next h) (KeepsOut.next (lossOutcome_keeps (logRas_keeps (count_keeps h.upd))).upd)

theorem execLossNotice_keeps (h : Keeps s₀ s) {idx : Nat} : KeepsOut s₀ (execLossNotice idx s) := by
  unfold execLossNotice
  dsimp only
  split
  · exact KeepsOut.next h
  · refine KeepsOut.next ?_
    split
    · exact loseAtoms_keeps (Keeps.foldl (fun _ _ h₁ => loseReads_keeps h₁) (Keeps.ite (takeInbox_keeps h ‹_›).upd (takeInbox_keeps h
        ‹_›)))
    · exact takeInbox_keeps h ‹_›

theorem execPoisonNotice_keeps (h : Keeps s₀ s) {idx : Nat} : KeepsOut s₀ (execPoisonNotice idx s) := by
  unfold execPoisonNotice
  split
  · exact KeepsOut.next h
  · refine KeepsOut.next ?_
    split
    · exact Keeps.foldl (fun _ _ h₁ => poisonHome_keeps h₁) (takeInbox_keeps h ‹_›)
    · exact takeInbox_keeps h ‹_›

theorem execLinkRemoval_keeps (h : Keeps s₀ s) {die port : Nat} : KeepsOut s₀ (execLinkRemoval die port s) :=
  KeepsOut.ite (KeepsOut.next h) (KeepsOut.next (requestReplacement_keeps h.upd))

/-! ### HostLink -/

theorem execHostReadShared_keeps (h : Keeps s₀ s) {pa : Nat} : KeepsOut s₀ (execHostReadShared pa s) := by
  unfold execHostReadShared
  dsimp only
  exact KeepsOut.ite (KeepsOut.next h) (KeepsOut.next (Keeps.ite (setHostField_keeps (readLine_keeps h).upd) (readLine_keeps h).upd))

theorem execHostReadOwned_keeps (h : Keeps s₀ s) {pa : Nat} : KeepsOut s₀ (execHostReadOwned pa s) := by
  unfold execHostReadOwned
  dsimp only
  exact KeepsOut.ite (KeepsOut.next h) (KeepsOut.next (Keeps.ite (setHostField_keeps (readLine_keeps (gatherLine_keeps h)).upd)
    (readLine_keeps (gatherLine_keeps h)).upd))

theorem execHostWriteback_keeps (h : Keeps s₀ s) {pa : Nat} {words : List (Nat × Option Word)} {keep : Bool} :
    KeepsOut s₀ (execHostWriteback pa words keep s) :=
  KeepsOut.ite (KeepsOut.next h) (KeepsOut.next (Keeps.ite (setHostField_keeps (hostWrites_keeps h)) (hostWrites_keeps h)))

theorem execHostSnoopData_keeps (h : Keeps s₀ s) {pa : Nat} : KeepsOut s₀ (execHostSnoopData pa s) := by
  unfold execHostSnoopData
  dsimp only
  exact KeepsOut.ite (KeepsOut.next h) (KeepsOut.ite (KeepsOut.next h) (KeepsOut.ite (KeepsOut.next (setHostField_keeps h)) (KeepsOut.ite
    (KeepsOut.next (setHostField_keeps (readLine_keeps h).upd)) (KeepsOut.next (setHostField_keeps (beWriteback_keeps h))))))

theorem execHostSnoopInvalidate_keeps (h : Keeps s₀ s) {pa : Nat} : KeepsOut s₀ (execHostSnoopInvalidate pa s) :=
  KeepsOut.ite (KeepsOut.next h) (KeepsOut.next (Keeps.ite (setHostField_keeps (Keeps.foldl (fun _ _ h₁ => setMsc_keeps h₁)
    (dropCleanL2_keeps (beWriteback_keeps h)))) (Keeps.foldl (fun _ _ h₁ => setMsc_keeps h₁) (dropCleanL2_keeps (beWriteback_keeps h)))))

theorem execBackInvalidateResponse_keeps (h : Keeps s₀ s) {idx : Nat} {words : List (Nat × Option Word)} :
    KeepsOut s₀ (execBackInvalidateResponse idx words s) := by
  unfold execBackInvalidateResponse
  dsimp only
  split
  · exact KeepsOut.next h
  · split
    · exact KeepsOut.next (Keeps.ite (finishEvict_keeps (resumeWrites_keeps (setHostField_keeps (hostWrites_keeps h.upd))))
        (resumeWrites_keeps (setHostField_keeps (hostWrites_keeps h.upd))))
    · exact KeepsOut.next h

theorem execHostReadGrant_keeps (h : Keeps s₀ s) {idx : Nat} {owned : Bool} {words : List (Nat × Option Word)} :
    KeepsOut s₀ (execHostReadGrant idx owned words s) := by
  unfold execHostReadGrant
  dsimp only
  split
  · exact KeepsOut.next h
  · split
    · exact KeepsOut.next h
    · exact KeepsOut.next (resumeWrites_keeps (setHostField_keeps h.upd))
    · exact KeepsOut.next (resumeWrites_keeps (Keeps.foldl (fun _ _ h₁ => Keeps.ite (mscPut_keeps h₁) h₁) (setHostField_keeps h.upd)))

theorem execAtsCompletion_keeps (h : Keeps s₀ s) {idx frame kind : Nat} {present : Bool} :
    KeepsOut s₀ (execAtsCompletion idx present frame kind s) := by
  unfold execAtsCompletion
  dsimp only
  split
  · exact KeepsOut.next h
  · exact KeepsOut.ite (KeepsOut.next h) (KeepsOut.ite (KeepsOut.next h.upd) (KeepsOut.ite (KeepsOut.next (enterTrans_keeps h.upd))
      (KeepsOut.next h.upd)))

theorem execAtsInvalidation_keeps (h : Keeps s₀ s) {tenant base kind : Nat} : KeepsOut s₀ (execAtsInvalidation tenant base kind s) :=
  KeepsOut.next (dropTranslations_keeps h).upd

theorem execPageRequestResponse_keeps (h : Keeps s₀ s) {idx : Nat} {granted : Bool} :
    KeepsOut s₀ (execPageRequestResponse idx granted s) := by
  unfold execPageRequestResponse
  dsimp only
  split
  · exact KeepsOut.next h
  · exact KeepsOut.ite (KeepsOut.next h) (KeepsOut.next (Keeps.ite h.upd h.upd))

theorem execExtentAdd_keeps (h : Keeps s₀ s) {port : Nat} {range : Nat × Nat} : KeepsOut s₀ (execExtentAdd port range s) :=
  KeepsOut.ite (KeepsOut.next h) (KeepsOut.next (Keeps.ite h.upd h))

theorem execExtentRelease_keeps (h : Keeps s₀ s) {idx : Nat} : KeepsOut s₀ (execExtentRelease idx s) := by
  unfold execExtentRelease
  dsimp only
  split
  · exact KeepsOut.next h
  · exact KeepsOut.ite (KeepsOut.next (sweepExtent_keeps h.upd)) (KeepsOut.ite (KeepsOut.next h) (KeepsOut.next (sweepExtent_keeps
      h).upd))

theorem execSurpriseRemoval_keeps (h : Keeps s₀ s) {idx : Nat} : KeepsOut s₀ (execSurpriseRemoval idx s) := by
  unfold execSurpriseRemoval
  dsimp only
  split
  · exact KeepsOut.next h
  · exact KeepsOut.next (Keeps.foldl (fun _ _ h₁ => Keeps.foldl (fun _ _ h₂ => setMsc_keeps (Keeps.foldl (fun _ _ h₃ => logRas_keeps h₃)
      h₂)) h₁) (purgeExtent_keeps h.upd))

theorem execTimebaseCorrection_keeps (h : Keeps s₀ s) {offset : ℤ} : KeepsOut s₀ (execTimebaseCorrection offset s) := KeepsOut.next h.upd

/-! ### Platform -/

theorem execSecurityAlarm_keeps (h : Keeps s₀ s) {source : Nat} : KeepsOut s₀ (execSecurityAlarm source s) :=
  KeepsOut.ite (KeepsOut.next h) (KeepsOut.ite (KeepsOut.next (logRas_keeps h)) (KeepsOut.next (finishAlarm_keeps (haltAll_keeps
    (modstBit_keeps (logRas_keeps h))).upd)))

theorem execPowerLimitStep_keeps (h : Keeps s₀ s) {above : Bool} : KeepsOut s₀ (execPowerLimitStep above s) :=
  KeepsOut.next (retuneAll_keeps (modstBit_keeps (modstBit_keeps (Keeps.ite h.upd (Keeps.ite h.upd h.upd)))))

theorem execCurrentLimit_keeps (h : Keeps s₀ s) {die : Nat} : KeepsOut s₀ (execCurrentLimit die s) := KeepsOut.next (setDie_keeps h)

theorem execCurrentRestore_keeps (h : Keeps s₀ s) {die : Nat} : KeepsOut s₀ (execCurrentRestore die s) := KeepsOut.next (setDie_keeps h)

theorem execThermalLimit_keeps (h : Keeps s₀ s) {die : Nat} : KeepsOut s₀ (execThermalLimit die s) :=
  KeepsOut.ite (KeepsOut.next h) (KeepsOut.next (retuneAll_keeps (modstBit_keeps h.upd)))

theorem execThermalShutdown_keeps (h : Keeps s₀ s) : KeepsOut s₀ (execThermalShutdown s) :=
  KeepsOut.next (logRas_keeps (Keeps.foldl (fun _ _ h₁ => setDie_keeps h₁) (haltAll_keeps h).upd))

theorem execModuleReset_keeps (h : Keeps s₀ s) : KeepsOut s₀ (execModuleReset s) := KeepsOut.next (h.write rfl fun _ => rfl)

theorem execFunctionReady_keeps (h : Keeps s₀ s) {bitNo : Nat} {passed : Bool} : KeepsOut s₀ (execFunctionReady bitNo passed s) := by
  unfold execFunctionReady
  dsimp only
  refine KeepsOut.ite (KeepsOut.next h) (KeepsOut.ite (KeepsOut.next ?_) (KeepsOut.next (Keeps.upd ?_)))
  · exact Keeps.ite (requestReplacement_keeps h.upd) h
  · refine Keeps.ite ?_ h
    exact h.write rfl (filter_wf _)

theorem execCounterRead_keeps (h : Keeps s₀ s) {unit : Nat} : KeepsOut s₀ (execCounterRead unit s) := managed_keeps h (fun _ h₁ => h₁.upd)

theorem execCounterClear_keeps (h : Keeps s₀ s) {unit : Nat} : KeepsOut s₀ (execCounterClear unit s) :=
  managed_keeps h (fun _ h₁ => Keeps.ite h₁ (Keeps.ite (setDram_keeps h₁) h₁.upd))

theorem execRasLogRead_keeps (h : Keeps s₀ s) : KeepsOut s₀ (execRasLogRead s) := managed_keeps h (fun _ h₁ => h₁.upd)

theorem execErrorRecordRead_keeps (h : Keeps s₀ s) {launch : Nat} : KeepsOut s₀ (execErrorRecordRead launch s) := by
  unfold execErrorRecordRead
  refine managed_keeps h (fun _ h₁ => ?_)
  split
  · exact h₁.upd
  · exact h₁

theorem execTenantCreate_keeps (h : Keeps s₀ s) {root : Nat} : KeepsOut s₀ (execTenantCreate root s) := by
  unfold execTenantCreate
  dsimp only
  refine managed_keeps h (fun _ h₁ => ?_)
  split
  · exact busy_keeps h₁
  · exact (newKey_keeps (setTenant_keeps h₁)).upd

theorem execTenantDestroy_keeps (h : Keeps s₀ s) {tenant : Nat} : KeepsOut s₀ (execTenantDestroy tenant s) :=
  managed_keeps h (fun _ h₁ => Keeps.ite (busy_keeps h₁) (setTenant_keeps (dropTranslations_keeps (dropSealed_keeps h₁))))

theorem execDeepRetention_keeps (h : Keeps s₀ s) {stack : Nat} : KeepsOut s₀ (execDeepRetention stack s) :=
  KeepsOut.ite (KeepsOut.next h) (KeepsOut.next (beginCommand_keeps h))

theorem execFattrWrite_keeps (h : Keeps s₀ s) {frame : Nat} {value : BitVec 2} : KeepsOut s₀ (execFattrWrite frame value s) :=
  managed_keeps h (fun _ h₁ => Keeps.ite h₁ (Keeps.ite (beginCommand_keeps h₁) h₁.upd))

theorem execFormatWindowEnable_keeps (h : Keeps s₀ s) {n : Nat} : KeepsOut s₀ (execFormatWindowEnable n s) :=
  managed_keeps h (fun _ h₁ => Keeps.ite h₁ (Keeps.ite (busy_keeps h₁) (setWindow_keeps h₁)))

theorem execFormatWindowDisable_keeps (h : Keeps s₀ s) {n : Nat} : KeepsOut s₀ (execFormatWindowDisable n s) :=
  managed_keeps h (fun _ h₁ => Keeps.ite h₁ (setWindow_keeps h₁.upd))

theorem execManagementRegisterWrite_keeps (h : Keeps s₀ s) {reg : Nat} {value : DWord} :
    KeepsOut s₀ (execManagementRegisterWrite reg value s) := by
  unfold execManagementRegisterWrite
  dsimp only
  refine managed_keeps h (fun _ h₁ => ?_)
  split
  · split
    · exact h₁.upd
    · exact h₁.upd
    · exact h₁.upd
    · exact h₁
  · exact Keeps.ite (writeWindow_keeps h₁) h₁
  · exact h₁.upd
  · exact h₁.upd
  · exact beginCommand_keeps h₁
  · exact h₁
  · exact h₁
  · refine Keeps.ite (writeTenant_keeps h₁) ?_
    split
    · exact Keeps.ite (setTeam_keeps h₁) h₁
    · exact h₁

theorem execMasterLinkTimeout_keeps (h : Keeps s₀ s) : KeepsOut s₀ (execMasterLinkTimeout s) :=
  KeepsOut.next (requestReplacement_keeps (Keeps.foldl (fun _ _ h₁ => refuseLaunch_keeps (dropBands_keeps h₁)) h.upd))

theorem execAttestationReport_keeps (h : Keeps s₀ s) {tenant nonce : Nat} : KeepsOut s₀ (execAttestationReport tenant nonce s) :=
  managed_keeps h (fun _ h₁ => h₁.upd)

theorem execFirmwareUpdate_keeps (h : Keeps s₀ s) {image : Nat} : KeepsOut s₀ (execFirmwareUpdate image s) := KeepsOut.next h.upd

/-! ### Scalar -/

theorem execSadd_keeps (h : Keeps s₀ s) {x y z : BitVec 5} : KeepsOut s₀ (execSadd x y z s) := scalar2_keeps h

theorem execSsub_keeps (h : Keeps s₀ s) {x y z : BitVec 5} : KeepsOut s₀ (execSsub x y z s) := scalar2_keeps h

theorem execSmul_keeps (h : Keeps s₀ s) {x y z : BitVec 5} : KeepsOut s₀ (execSmul x y z s) := scalar2_keeps h

theorem execSand_keeps (h : Keeps s₀ s) {x y z : BitVec 5} : KeepsOut s₀ (execSand x y z s) := scalar2_keeps h

theorem execSor_keeps (h : Keeps s₀ s) {x y z : BitVec 5} : KeepsOut s₀ (execSor x y z s) := scalar2_keeps h

theorem execSxor_keeps (h : Keeps s₀ s) {x y z : BitVec 5} : KeepsOut s₀ (execSxor x y z s) := scalar2_keeps h

theorem execSshl_keeps (h : Keeps s₀ s) {x y z : BitVec 5} : KeepsOut s₀ (execSshl x y z s) := scalar2_keeps h

theorem execSshr_keeps (h : Keeps s₀ s) {x y z : BitVec 5} : KeepsOut s₀ (execSshr x y z s) := scalar2_keeps h

theorem execSsra_keeps (h : Keeps s₀ s) {x y z : BitVec 5} : KeepsOut s₀ (execSsra x y z s) := scalar2_keeps h

theorem execSmin_keeps (h : Keeps s₀ s) {x y z : BitVec 5} : KeepsOut s₀ (execSmin x y z s) := scalar2_keeps h

theorem execSmax_keeps (h : Keeps s₀ s) {x y z : BitVec 5} : KeepsOut s₀ (execSmax x y z s) := scalar2_keeps h

theorem execScmp_keeps (h : Keeps s₀ s) {x y z : BitVec 5} {c : BitVec 3} : KeepsOut s₀ (execScmp x y c z s) :=
  KeepsOut.ite (withTeam_keeps (fun _ _ => illop_keeps h)) (scalar2_keeps h)

theorem execSdiv_keeps (h : Keeps s₀ s) {x y z : BitVec 5} : KeepsOut s₀ (execSdiv x y z s) := by
  unfold execSdiv
  refine withTeam_keeps (fun _ _ => ?_)
  split
  · exact illop_keeps h
  · exact gated_keeps h (fun _ => Keeps.ite (refuse_keeps h) (finish_keeps h))

theorem execSaddi_keeps (h : Keeps s₀ s) {x y : BitVec 5} {imm : BitVec 8} : KeepsOut s₀ (execSaddi x y imm s) := by
  unfold execSaddi
  refine withTeam_keeps (fun _ _ => ?_)
  split
  · exact illop_keeps h
  · exact gated_keeps h (fun _ => finish_keeps h)

/-! ### All of them -/

theorem exec_keeps (h : Keeps s₀ s) (i : Instr) : KeepsOut s₀ (exec i s) := by
  cases i with
  | add | sub | mul | mulh | min | max | and | or | xor | shl | shr | sra => exact arith2_keeps h
  | div | rem => exact divide_keeps h
  | abs | neg | not | popc | clz | ctz | brev => exact arith1_keeps h
  | bfx | bfi | sel | pack | dot => exact withTeam_keeps (fun _ _ => VOp.run_keeps h)
  | cmp => exact execCmp_keeps h
  | cvt => exact execCvt_keeps h
  | unpk => exact execUnpk_keeps h
  | mov => exact execMov_keeps h
  | movs => exact execMovs_keeps h
  | lid | li => exact withTeam_keeps (fun _ _ => Keeps.ite (illop_keeps h) (setLanes_keeps h))
  | rcp | rsq | sqrt | exp2 | log2 | sinr | cosr | tanh => exact special_keeps h
  | tbev => exact execTbev_keeps h
  | shfi | shfd | shfx => exact shuffle_keeps h
  | vany | vall => exact voteTo_keeps h
  | vbal => exact execVbal_keeps h
  | tred => exact execTred_keeps h
  | tscan => exact execTscan_keeps h
  | segred => exact execSegred_keeps h
  | tix => exact execTix_keeps h
  | mad | msb | nmad => exact fused_keeps h
  | addi | muli | andi | ori | xori | shli | shri | srai => exact arithImm_keeps h
  | cmpi => exact execCmpi_keeps h
  | ldBase => exact execLdBase_keeps h
  | ldVectorOffset => exact execLdVectorOffset_keeps h
  | stBase => exact execStBase_keeps h
  | stVectorOffset => exact execStVectorOffset_keeps h
  | sld => exact execSld_keeps h
  | sst => exact execSst_keeps h
  | wgath => exact execWgath_keeps h
  | wscat => exact execWscat_keeps h
  | aadd | amin | amax | aand | aor | axor | axch | acas => exact atomic_keeps h
  | ared => exact execAred_keeps h
  | fence => exact execFence_keeps h
  | phase => exact execPhase_keeps h
  | pf => exact execPf_keeps h
  | cwb | cinv => exact cacheControl_keeps h
  | mwait => exact execMwait_keeps h
  | br => exact execBr_keeps h
  | bru => exact execBru_keeps h
  | brany => exact execBrany_keeps h
  | brall => exact execBrall_keeps h
  | jmp | yield => exact withTeam_keeps (fun _ _ => setTeam_keeps h)
  | call => exact withTeam_keeps (fun _ _ => gated_keeps h (fun _ => enter_keeps h))
  | nop | rgnx | mode | joinat | rgn => exact withTeam_keeps (fun _ _ => finish_keeps h)
  | exit => exact execExit_keeps h
  | trap => exact withTeam_keeps (fun _ _ => raiseAt_keeps h)
  | brk => exact withTeam_keeps (fun _ _ => debugEvent_keeps h)
  | rti => exact withTeam_keeps (fun _ _ => Keeps.ite (illop_keeps h) (proceed_keeps h))
  | callr => exact execCallr_keeps h
  | callv => exact execCallv_keeps h
  | ret => exact execRet_keeps h
  | cut => exact execCut_keeps h
  | stkrd => exact execStkrd_keeps h
  | stkwr => exact execStkwr_keeps h
  | sadd => exact execSadd_keeps h
  | ssub => exact execSsub_keeps h
  | smul => exact execSmul_keeps h
  | sdiv => exact execSdiv_keeps h
  | sand => exact execSand_keeps h
  | sor => exact execSor_keeps h
  | sxor => exact execSxor_keeps h
  | sshl => exact execSshl_keeps h
  | sshr => exact execSshr_keeps h
  | ssra => exact execSsra_keeps h
  | smin => exact execSmin_keeps h
  | smax => exact execSmax_keeps h
  | scmp => exact execScmp_keeps h
  | saddi => exact execSaddi_keeps h
  | rdl => exact execRdl_keeps h
  | wrl => exact execWrl_keeps h
  | bar => exact execBar_keeps h
  | barar => exact execBarar_keeps h
  | barwt => exact execBarwt_keeps h
  | barini => exact execBarini_keeps h
  | barexp => exact execBarexp_keeps h
  | bbar => exact execBbar_keeps h
  | fwaitVector => exact withTeam_keeps (fun _ _ => Keeps.ite (illop_keeps h) (waitFor_keeps h))
  | fwaitScalar | fwaitAll => exact withTeam_keeps (fun _ _ => waitFor_keeps h)
  | tbld => exact execTbld_keeps h
  | tbsw => exact execTbsw_keeps h
  | shpld => exact execShpld_keeps h
  | rbal => exact execRbal_keeps h
  | mlopen => exact execMlopen_keeps h
  | mlfill => exact execMlfill_keeps h
  | mlsave => exact execMlsave_keeps h
  | mlrest => exact execMlrest_keeps h
  | mlstat => exact execMlstat_keeps h
  | mlclose => exact withTeam_keeps (fun _ _ => Keeps.ite (waitHere_keeps h) (finish_keeps h))
  | cpl | cpt | cpm | cpr => exact appendCopy_keeps h
  | coll => exact execColl_keeps h
  | tgl => exact execTgl_keeps h
  | lnch => exact execLnch_keeps h
  | qpop => exact execQpop_keeps h
  | qapp => exact execQapp_keeps h
  | tld => exact execTld_keeps h
  | tst => exact execTst_keeps h
  | tzero => exact execTzero_keeps h
  | mma => exact execMma_keeps h
  | acz => exact execAcz_keeps h
  | acrd => exact execAcrd_keeps h
  | acwr => exact execAcwr_keeps h
  | acst => exact execAcst_keeps h
  | acver | acverWait => exact readVersion_keeps h
  | movc => exact execMovc_keeps h
  | mvfc => exact execMvfc_keeps h
  | sys => exact execSys_keeps h
  | tlbi => exact execTlbi_keeps h
  | rdtm => exact withTeam_keeps (fun _ _ => gated_keeps h (fun _ => finish_keeps h.upd))
  | halt => exact execHalt_keeps h
  | frrd => exact execFrrd_keeps h
  | lkill => exact execLkill_keeps h
  | ctxsv => exact execCtxsv_keeps h
  | ctxld => exact execCtxld_keeps h
  | sli => exact withTeam_keeps (fun _ _ => gated_keeps h (fun _ => finish_keeps h))
  | slih | slix => exact setHigh_keeps h
  | avWrite => exact execAvWrite_keeps h
  | tsWrite => exact execTsWrite_keeps h
  | spinj => exact execSpinj_keeps h
  | crate => exact execCrate_keeps h
  | ptrig => exact execPtrig_keeps h
  | breakpointWrite => exact execBreakpointWrite_keeps h
  | requestCollectorAdmission => exact execRequestCollectorAdmission_keeps h
  | mergeTimeout => exact execMergeTimeout_keeps h
  | l2SliceRequest => exact execL2SliceRequest_keeps h
  | homeRequest => exact execHomeRequest_keeps h
  | burstRead => exact execBurstRead_keeps h
  | writeReplay => exact execWriteReplay_keeps h
  | retrain => exact execRetrain_keeps h
  | blockProcedure => exact execBlockProcedure_keeps h
  | backInvalidateResponse => exact execBackInvalidateResponse_keeps h
  | fill => exact execFill_keeps h
  | publication => exact execPublication_keeps h
  | backgroundScrub => exact execBackgroundScrub_keeps h
  | sliceCountClear => exact execSliceCountClear_keeps h
  | spareIn => exact execSpareIn_keeps h
  | spareInComplete => exact execSpareInComplete_keeps h
  | hotRemoveAcknowledge => exact execHotRemoveAcknowledge_keeps h
  | deepRetention => exact execDeepRetention_keeps h
  | hotAdd => exact execHotAdd_keeps h
  | pageWalk => exact execPageWalk_keeps h
  | messageSend => exact execMessageSend_keeps h
  | fragmentReceive => exact execFragmentReceive_keeps h
  | acknowledgement => exact execAcknowledgement_keeps h
  | receiverRepairTimeout => exact execReceiverRepairTimeout_keeps h
  | senderRepairTimeout => exact execSenderRepairTimeout_keeps h
  | repairRequest => exact execRepairRequest_keeps h
  | messageLoss => exact execMessageLoss_keeps h
  | lossNotice => exact execLossNotice_keeps h
  | poisonNotice => exact execPoisonNotice_keeps h
  | delayedFragment => exact execDelayedFragment_keeps h
  | linkRemoval => exact execLinkRemoval_keeps h
  | timebaseCorrection => exact execTimebaseCorrection_keeps h
  | masterLinkTimeout => exact execMasterLinkTimeout_keeps h
  | hostReadShared => exact execHostReadShared_keeps h
  | hostReadOwned => exact execHostReadOwned_keeps h
  | hostWriteback => exact execHostWriteback_keeps h
  | hostSnoopData => exact execHostSnoopData_keeps h
  | hostSnoopInvalidate => exact execHostSnoopInvalidate_keeps h
  | hostReadGrant => exact execHostReadGrant_keeps h
  | atsCompletion => exact execAtsCompletion_keeps h
  | atsInvalidation => exact execAtsInvalidation_keeps h
  | pageRequestResponse => exact execPageRequestResponse_keeps h
  | serviceReply => exact execServiceReply_keeps h
  | extentRelease => exact execExtentRelease_keeps h
  | surpriseRemoval => exact execSurpriseRemoval_keeps h
  | launchHead => exact execLaunchHead_keeps h
  | bandPlacement => exact execBandPlacement_keeps h
  | quantumExpiry => exact execQuantumExpiry_keeps h
  | stageBalancer => exact execStageBalancer_keeps h
  | gangStart => exact execGangStart_keeps h
  | operatingPointStable => exact execOperatingPointStable_keeps h
  | kernelBoundary => exact execKernelBoundary_keeps h
  | preEmption => exact execPreEmption_keeps h
  | resumption => exact execResumption_keeps h
  | trapEntry => exact execTrapEntry_keeps h
  | regionRestart => exact execRegionRestart_keeps h
  | mwaitSatisfied => exact execMwaitSatisfied_keeps h
  | mwto => exact execMwto_keeps h
  | barrierWaitEnd => exact execBarrierWaitEnd_keeps h
  | mmaCommand => exact execMmaCommand_keeps h
  | aczCommand => exact execAczCommand_keeps h
  | acstCommand => exact execAcstCommand_keeps h
  | tableLoadComplete core => exact execTableLoadComplete_keeps (core := core) h
  | mlfillComplete => exact execMlfillComplete_keeps h
  | copyPacketStart => exact execCopyPacketStart_keeps h
  | copyRead => exact execCopyRead_keeps h
  | mergeWindowClose => exact execMergeWindowClose_keeps h
  | copyComplete => exact execCopyComplete_keeps h
  | collectiveMatch => exact execCollectiveMatch_keeps h
  | collectiveComplete => exact execCollectiveComplete_keeps h
  | nodeComplete => exact execNodeComplete_keeps h
  | debugStep => exact execDebugStep_keeps h
  | stepLane => exact execStepLane_keeps h
  | ptrigFire => exact execPtrigFire_keeps h
  | securityAlarm => exact execSecurityAlarm_keeps h
  | powerLimitStep => exact execPowerLimitStep_keeps h
  | currentLimit => exact execCurrentLimit_keeps h
  | currentRestore => exact execCurrentRestore_keeps h
  | thermalLimit => exact execThermalLimit_keeps h
  | thermalShutdown => exact execThermalShutdown_keeps h
  | moduleReset => exact execModuleReset_keeps h
  | functionReady => exact execFunctionReady_keeps h
  | counterRead => exact execCounterRead_keeps h
  | counterClear => exact execCounterClear_keeps h
  | rasLogRead => exact execRasLogRead_keeps h
  | errorRecordRead => exact execErrorRecordRead_keeps h
  | tenantCreate => exact execTenantCreate_keeps h
  | tenantDestroy => exact execTenantDestroy_keeps h
  | fattrWrite => exact execFattrWrite_keeps h
  | formatWindowEnable => exact execFormatWindowEnable_keeps h
  | formatWindowDisable => exact execFormatWindowDisable_keeps h
  | managementRegisterWrite => exact execManagementRegisterWrite_keeps h
  | debuggerAttach => exact execDebuggerAttach_keeps h
  | bandResume => exact execBandResume_keeps h
  | attestationReport => exact execAttestationReport_keeps h
  | firmwareUpdate => exact execFirmwareUpdate_keeps h
  | unassignedOpcode w => exact execUnassignedOpcode_keeps (w := w) h
  | instructionFetchFault => exact execInstructionFetchFault_keeps h
  | producerCompletion => exact execProducerCompletion_keeps h
  | stepAbort => exact execStepAbort_keeps h
  | launchEndFromOutside => exact execLaunchEndFromOutside_keeps h
  | extentAdd => exact execExtentAdd_keeps h

end Sys2Proof.Machine
end

section
/-! SUPPORT. O59 and O60: what the machine may take of its own accord, the turn of a team, and the step that chooses between them. -/

namespace Sys2Proof.Machine

/-! ### The events that the machine takes by itself -/

/-- A turn that goes on from every state, and keeps the agenda and the form of memory. -/
structure Steady (e : State → Out) : Prop where
  goes : ∀ s, Goes (e s)
  keeps : ∀ s₀ s, Keeps s₀ s → KeepsOut s₀ (e s)

abbrev AllSteady (es : List (State → Out)) : Prop := ∀ e ∈ es, Steady e

theorem allSteady_nil : AllSteady [] := fun _ h => absurd h List.not_mem_nil

theorem allSteady_cons {e : State → Out} {es : List (State → Out)} (h : Steady e) (hs : AllSteady es) : AllSteady (e :: es) :=
  List.forall_mem_cons.2 ⟨h, hs⟩

theorem allSteady_one {e : State → Out} (h : Steady e) : AllSteady [e] := allSteady_cons h allSteady_nil

theorem allSteady_append {a b : List (State → Out)} (ha : AllSteady a) (hb : AllSteady b) : AllSteady (a ++ b) :=
  List.forall_mem_append.2 ⟨ha, hb⟩

theorem allSteady_ite {c : Prop} [Decidable c] {a b : List (State → Out)} (ha : AllSteady a) (hb : AllSteady b) :
    AllSteady (if c then a else b) := by
  split <;> assumption

section
variable {α : Type} {f : α → State → Out} {g : α → List (State → Out)}

theorem allSteady_map (h : ∀ a, Steady (f a)) (l : List α) : AllSteady (l.map f) := by
  simpa [AllSteady] using fun a _ => h a

theorem allSteady_option (h : ∀ a, Steady (f a)) (o : Option α) : AllSteady (o.map f).toList := by
  cases o with
  | none => exact allSteady_nil
  | some a => exact allSteady_one (h a)

theorem allSteady_flatMap (h : ∀ a, AllSteady (g a)) (l : List α) : AllSteady (l.flatMap g) := by
  intro e he
  obtain ⟨a, -, hea⟩ := List.mem_flatMap.1 he
  exact h a e hea

theorem allSteady_filterMap {p : α → Option (State → Out)} (h : ∀ a, AllSteady (p a).toList) (l : List α) : AllSteady (l.filterMap p) := by
  intro e he
  obtain ⟨a, -, hea⟩ := List.mem_filterMap.1 he
  exact h a e (by simp [hea])

end

theorem messageSend_steady (die idx : Nat) : Steady (execMessageSend die idx) :=
  ⟨execMessageSend_goes die idx, fun _ _ h => execMessageSend_keeps h⟩

theorem requestCollectorAdmission_steady (core : Nat) : Steady (execRequestCollectorAdmission core) :=
  ⟨execRequestCollectorAdmission_goes core, fun _ _ h => execRequestCollectorAdmission_keeps h⟩

theorem mergeTimeout_steady (core idx : Nat) : Steady (execMergeTimeout core idx) :=
  ⟨execMergeTimeout_goes core idx, fun _ _ h => execMergeTimeout_keeps h⟩

theorem l2SliceRequest_steady (idx : Nat) : Steady (execL2SliceRequest idx) :=
  ⟨execL2SliceRequest_goes idx, fun _ _ h => execL2SliceRequest_keeps h⟩

theorem homeRequest_steady (idx : Nat) : Steady (execHomeRequest idx) := ⟨execHomeRequest_goes idx, fun _ _ h => execHomeRequest_keeps h⟩

theorem burstRead_steady (idx : Nat) (crcBad : Bool) (flips : List (Nat × Nat)) : Steady (execBurstRead idx crcBad flips) :=
  ⟨execBurstRead_goes idx crcBad flips, fun _ _ h => execBurstRead_keeps h⟩

theorem retrain_steady (idx : Nat) (ok : Bool) : Steady (execRetrain idx ok) :=
  ⟨execRetrain_goes idx ok, fun _ _ h => execRetrain_keeps h⟩

theorem blockProcedure_steady (idx : Nat) : Steady (execBlockProcedure idx) :=
  ⟨execBlockProcedure_goes idx, fun _ _ h => execBlockProcedure_keeps h⟩

theorem fill_steady (idx : Nat) : Steady (execFill idx) := ⟨execFill_goes idx, fun _ _ h => execFill_keeps h⟩

theorem publication_steady (idx : Nat) : Steady (execPublication idx) := ⟨execPublication_goes idx, fun _ _ h => execPublication_keeps h⟩

theorem pageWalk_steady (core va : Nat) : Steady (execPageWalk core va) := ⟨execPageWalk_goes core va, fun _ _ h => execPageWalk_keeps h⟩

theorem fragmentReceive_steady (idx : Nat) (arrival : Option (BitVec 640)) : Steady (execFragmentReceive idx arrival) :=
  ⟨execFragmentReceive_goes idx arrival, fun _ _ h => execFragmentReceive_keeps h⟩

theorem delayedFragment_steady (idx : Nat) : Steady (execDelayedFragment idx) :=
  ⟨execDelayedFragment_goes idx, fun _ _ h => execDelayedFragment_keeps h⟩

theorem acknowledgement_steady (idx : Nat) : Steady (execAcknowledgement idx) :=
  ⟨execAcknowledgement_goes idx, fun _ _ h => execAcknowledgement_keeps h⟩

theorem repairRequest_steady (idx : Nat) : Steady (execRepairRequest idx) :=
  ⟨execRepairRequest_goes idx, fun _ _ h => execRepairRequest_keeps h⟩

theorem lossNotice_steady (idx : Nat) : Steady (execLossNotice idx) := ⟨execLossNotice_goes idx, fun _ _ h => execLossNotice_keeps h⟩

theorem poisonNotice_steady (idx : Nat) : Steady (execPoisonNotice idx) :=
  ⟨execPoisonNotice_goes idx, fun _ _ h => execPoisonNotice_keeps h⟩

theorem receiverRepairTimeout_steady (die idx : Nat) : Steady (execReceiverRepairTimeout die idx) :=
  ⟨execReceiverRepairTimeout_goes die idx, fun _ _ h => execReceiverRepairTimeout_keeps h⟩

theorem senderRepairTimeout_steady (die idx : Nat) : Steady (execSenderRepairTimeout die idx) :=
  ⟨execSenderRepairTimeout_goes die idx, fun _ _ h => execSenderRepairTimeout_keeps h⟩

theorem messageLoss_steady (die idx : Nat) : Steady (execMessageLoss die idx) :=
  ⟨execMessageLoss_goes die idx, fun _ _ h => execMessageLoss_keeps h⟩

theorem trapEntry_steady (team : Nat) : Steady (execTrapEntry team) := ⟨execTrapEntry_goes team, fun _ _ h => execTrapEntry_keeps h⟩

theorem regionRestart_steady (team : Nat) : Steady (execRegionRestart team) :=
  ⟨execRegionRestart_goes team, fun _ _ h => execRegionRestart_keeps h⟩

theorem mwaitSatisfied_steady (team : Nat) : Steady (execMwaitSatisfied team) :=
  ⟨execMwaitSatisfied_goes team, fun _ _ h => execMwaitSatisfied_keeps h⟩

theorem mwto_steady (team : Nat) : Steady (execMwto team) := ⟨execMwto_goes team, fun _ _ h => execMwto_keeps h⟩

theorem barrierWaitEnd_steady (team : Nat) : Steady (execBarrierWaitEnd team) :=
  ⟨execBarrierWaitEnd_goes team, fun _ _ h => execBarrierWaitEnd_keeps h⟩

theorem producerCompletion_steady (team : Nat) : Steady (execProducerCompletion team) :=
  ⟨execProducerCompletion_goes team, fun _ _ h => execProducerCompletion_keeps h⟩

theorem mlfillComplete_steady (team : Nat) : Steady (execMlfillComplete team) :=
  ⟨execMlfillComplete_goes team, fun _ _ h => execMlfillComplete_keeps h⟩

theorem tableLoadComplete_steady (core : Nat) : Steady (execTableLoadComplete core) :=
  ⟨execTableLoadComplete_goes core, fun _ _ h => execTableLoadComplete_keeps (core := core) h⟩

theorem mmaCommand_steady (core : Nat) : Steady (execMmaCommand core) := ⟨execMmaCommand_goes core, fun _ _ h => execMmaCommand_keeps h⟩

theorem aczCommand_steady (core : Nat) : Steady (execAczCommand core) := ⟨execAczCommand_goes core, fun _ _ h => execAczCommand_keeps h⟩

theorem acstCommand_steady (core : Nat) : Steady (execAcstCommand core) :=
  ⟨execAcstCommand_goes core, fun _ _ h => execAcstCommand_keeps h⟩

theorem copyPacketStart_steady (die queue : Nat) : Steady (execCopyPacketStart die queue) :=
  ⟨execCopyPacketStart_goes die queue, fun _ _ h => execCopyPacketStart_keeps h⟩

theorem copyRead_steady (idx : Nat) : Steady (execCopyRead idx) := ⟨execCopyRead_goes idx, fun _ _ h => execCopyRead_keeps h⟩

theorem copyComplete_steady (idx dest : Nat) : Steady (execCopyComplete idx dest) :=
  ⟨execCopyComplete_goes idx dest, fun _ _ h => execCopyComplete_keeps h⟩

theorem mergeWindowClose_steady (die idx : Nat) : Steady (execMergeWindowClose die idx) :=
  ⟨execMergeWindowClose_goes die idx, fun _ _ h => execMergeWindowClose_keeps h⟩

theorem collectiveMatch_steady (idx : Nat) : Steady (execCollectiveMatch idx) :=
  ⟨execCollectiveMatch_goes idx, fun _ _ h => execCollectiveMatch_keeps h⟩

theorem collectiveComplete_steady (idx part : Nat) : Steady (execCollectiveComplete idx part) :=
  ⟨execCollectiveComplete_goes idx part, fun _ _ h => execCollectiveComplete_keeps h⟩

theorem nodeComplete_steady (idx : Nat) : Steady (execNodeComplete idx) :=
  ⟨execNodeComplete_goes idx, fun _ _ h => execNodeComplete_keeps h⟩

theorem stageBalancer_steady (launch : Nat) : Steady (execStageBalancer launch) :=
  ⟨execStageBalancer_goes launch, fun _ _ h => execStageBalancer_keeps h⟩

theorem launchHead_steady (die queue : Nat) : Steady (execLaunchHead die queue) :=
  ⟨execLaunchHead_goes die queue, fun _ _ h => execLaunchHead_keeps h⟩

theorem bandPlacement_steady (die : Nat) : Steady (execBandPlacement die) :=
  ⟨execBandPlacement_goes die, fun _ _ h => execBandPlacement_keeps h⟩

theorem gangStart_steady (launch : Nat) : Steady (execGangStart launch) :=
  ⟨execGangStart_goes launch, fun _ _ h => execGangStart_keeps h⟩

theorem kernelBoundary_steady (launch : Nat) : Steady (execKernelBoundary launch) :=
  ⟨execKernelBoundary_goes launch, fun _ _ h => execKernelBoundary_keeps h⟩

theorem operatingPointStable_steady (die : Nat) : Steady (execOperatingPointStable die) :=
  ⟨execOperatingPointStable_goes die, fun _ _ h => execOperatingPointStable_keeps h⟩

theorem preEmption_steady (band : Nat) : Steady (execPreEmption band) := ⟨execPreEmption_goes band, fun _ _ h => execPreEmption_keeps h⟩

theorem ptrigFire_steady (band : Nat) : Steady (execPtrigFire band) := ⟨execPtrigFire_goes band, fun _ _ h => execPtrigFire_keeps h⟩

theorem resumption_steady (band : Nat) : Steady (execResumption band) := ⟨execResumption_goes band, fun _ _ h => execResumption_keeps h⟩

theorem quantumExpiry_steady (die queue : Nat) : Steady (execQuantumExpiry die queue) :=
  ⟨execQuantumExpiry_goes die queue, fun _ _ h => execQuantumExpiry_keeps h⟩

theorem spareIn_steady (stack pc slice : Nat) : Steady (execSpareIn stack pc slice) :=
  ⟨execSpareIn_goes stack pc slice, fun _ _ h => execSpareIn_keeps h⟩

theorem allSteady_sendEvents (s : State) (die : Nat) : AllSteady (sendEvents s die) :=
  allSteady_map (fun (m : Msg × Nat) => messageSend_steady die m.2) _

theorem allSteady_wordEvents (s : State) : AllSteady (wordEvents s) := by
  unfold wordEvents
  refine allSteady_append (allSteady_append (allSteady_append (allSteady_append (allSteady_append (allSteady_append (allSteady_append
    (allSteady_append (allSteady_append (allSteady_append (allSteady_append (allSteady_append (allSteady_append ?_ ?_) ?_) ?_) ?_) ?_) ?_)
    ?_) ?_) ?_) ?_) ?_) ?_) ?_
  · exact allSteady_map requestCollectorAdmission_steady _
  · exact allSteady_map (fun c => mergeTimeout_steady c 0) _
  · exact allSteady_ite allSteady_nil (allSteady_one (l2SliceRequest_steady 0))
  · exact allSteady_ite allSteady_nil (allSteady_one (homeRequest_steady 0))
  · exact allSteady_ite allSteady_nil (allSteady_one (burstRead_steady 0 false []))
  · exact allSteady_ite (allSteady_one (retrain_steady 0 true)) allSteady_nil
  · exact allSteady_option blockProcedure_steady _
  · exact allSteady_ite allSteady_nil (allSteady_one (fill_steady 0))
  · exact allSteady_option publication_steady _
  · exact allSteady_option (fun (w : Walk) => pageWalk_steady w.core w.va) _
  · exact allSteady_flatMap (allSteady_sendEvents s) _
  · exact allSteady_option (fun i => fragmentReceive_steady i (some 0)) _
  · exact allSteady_ite (allSteady_one (delayedFragment_steady 0)) allSteady_nil
  · exact allSteady_ite allSteady_nil (allSteady_cons (acknowledgement_steady 0) (allSteady_cons (repairRequest_steady 0)
      (allSteady_cons (lossNotice_steady 0) (allSteady_one (poisonNotice_steady 0)))))

theorem allSteady_repairEvents (s : State) : AllSteady (repairEvents s) := by
  refine allSteady_ite (allSteady_flatMap (fun d => allSteady_append ?_ ?_) _) allSteady_nil
  · exact allSteady_ite (allSteady_one (receiverRepairTimeout_steady d 0)) allSteady_nil
  · exact allSteady_ite allSteady_nil (allSteady_cons (senderRepairTimeout_steady d 0) (allSteady_one (messageLoss_steady d 0)))

theorem allSteady_teamEvents (s : State) : AllSteady (teamEvents s) := by
  unfold teamEvents
  refine allSteady_append (allSteady_append (allSteady_append (allSteady_flatMap (fun e => allSteady_append ?_ ?_) _) ?_) ?_)
    (allSteady_flatMap (fun e => allSteady_append ?_ ?_) _)
  · exact allSteady_ite (allSteady_cons (trapEntry_steady e.1) (allSteady_one (regionRestart_steady e.1))) allSteady_nil
  · cases e.2.hold with
    | mwait => exact allSteady_cons (mwaitSatisfied_steady e.1) (allSteady_ite (allSteady_one (mwto_steady e.1)) allSteady_nil)
    | barrier => exact allSteady_one (barrierWaitEnd_steady e.1)
    | band => exact allSteady_one (barrierWaitEnd_steady e.1)
    | _ => exact allSteady_nil
  · exact allSteady_option (fun (p : Producer) => producerCompletion_steady p.team) _
  · exact allSteady_option (fun (j : MillJob) => mlfillComplete_steady j.team) _
  · exact allSteady_ite allSteady_nil (allSteady_one (tableLoadComplete_steady e.1))
  · exact allSteady_ite allSteady_nil (allSteady_cons (mmaCommand_steady e.1) (allSteady_cons (aczCommand_steady e.1)
      (allSteady_one (acstCommand_steady e.1))))

theorem allSteady_moduleEvents (s : State) : AllSteady (moduleEvents s) := by
  unfold moduleEvents
  refine allSteady_append (allSteady_append (allSteady_append (allSteady_append (allSteady_append (allSteady_append (allSteady_append
    (allSteady_append (allSteady_append ?_ ?_) ?_) ?_) ?_) ?_) ?_) ?_) ?_) ?_
  · exact allSteady_map (fun (e : Nat × CopyQueue) => copyPacketStart_steady e.2.die e.1) _
  · exact allSteady_flatMap (fun (c : Copy × Nat) => allSteady_cons (copyRead_steady c.2)
      (allSteady_map (fun d => copyComplete_steady c.2 d) _)) _
  · exact allSteady_option (fun (g : Group) => mergeWindowClose_steady g.die 0) _
  · exact allSteady_map (fun (p : Part × Nat) => collectiveMatch_steady p.2) _
  · exact allSteady_flatMap (fun (e : Exchange × Nat) => allSteady_map (fun r => collectiveComplete_steady e.2 r) _) _
  · exact allSteady_ite allSteady_nil (allSteady_one (nodeComplete_steady 0))
  · refine allSteady_flatMap (fun (e : Nat × Launch) =>
      allSteady_append ?_ (allSteady_ite (allSteady_one (stageBalancer_steady e.1)) allSteady_nil)) _
    exact allSteady_cons (launchHead_steady _ _) (allSteady_cons (bandPlacement_steady _) (allSteady_cons (gangStart_steady _)
      (allSteady_one (kernelBoundary_steady _))))
  · refine allSteady_filterMap (fun e => ?_) _
    split
    · exact allSteady_one (operatingPointStable_steady e.1)
    · exact allSteady_nil
  · refine allSteady_filterMap (fun e => ?_) _
    cases e.2.run with
    | stopping | halting | breaking => exact allSteady_one (preEmption_steady e.1)
    | going =>
      dsimp only
      split
      · exact allSteady_one (ptrigFire_steady e.1)
      · exact allSteady_nil
    | saved => exact allSteady_one (resumption_steady e.1)
    | _ => exact allSteady_nil
  · exact allSteady_map (fun (e : Nat × Nat × Nat) => quantumExpiry_steady (e.1 / 64) (e.1 % 64)) _

theorem allSteady_spareEvents (s : State) : AllSteady (spareEvents s) := by
  refine allSteady_flatMap (fun k => allSteady_filterMap (fun x => ?_) _) _
  split
  · exact allSteady_one (spareIn_steady _ _ _)
  · exact allSteady_nil

theorem allSteady_pendingEvents (s : State) : AllSteady (pendingEvents s) :=
  allSteady_append (allSteady_append (allSteady_append (allSteady_append (allSteady_wordEvents s) (allSteady_repairEvents s))
    (allSteady_teamEvents s)) (allSteady_moduleEvents s)) (allSteady_spareEvents s)

theorem nextEvent_steady {s : State} {e : State → Out} (h : nextEvent s = some e) : Steady e :=
  allSteady_pendingEvents s e (List.mem_of_getElem? h)

/-! ### The turn of a team -/

section
variable {s₀ s : State}

theorem issueWord_keeps (h : Keeps s₀ s) {k : Nat} {t : Team} : KeepsOut s₀ (issueWord s k t) := by
  have fetched : Keeps s₀ (fetchTrace s k t) := fetchTrace_keeps h
  unfold issueWord
  split
  · exact KeepsOut.ite (execInstructionFetchFault_keeps h) (KeepsOut.next (raise_keeps fetched))
  · refine KeepsOut.next (waitHere_keeps ?_)
    split
    · exact askHost_keeps h
    · exact h
  · dsimp only
    split
    · exact exec_keeps fetched _
    · exact withTeam_keeps fun _ _ => illop_keeps fetched

theorem issue_keeps (h : Keeps s₀ s) {k : Nat} {t : Team} : KeepsOut s₀ (issue s k t) := by
  unfold issue
  refine KeepsOut.ite (execPtrigFire_keeps h) ?_
  split
  all_goals have ready := (reconverge_keeps h).of_fst ‹_›
  · exact KeepsOut.next (retireTeam_keeps ready)
  · exact KeepsOut.next (spillThen_keeps (setTeam_keeps ready) nofun)
  · refine KeepsOut.ite (KeepsOut.next (debugEvent_keeps (setTeam_keeps ready))) ?_
    exact issueWord_keeps (noteMisses_keeps (setTeam_keeps (setTeam_keeps ready)))

theorem passTurn_keeps {o : Out} (h : KeepsOut s₀ o) : KeepsOut s₀ (passTurn o) := by
  cases o with
  | next s => exact KeepsOut.next (Keeps.upd h)
  | _ => trivial

theorem teamTurn_keeps (h : Keeps s₀ s) {k : Nat} : KeepsOut s₀ (teamTurn s k) := by
  unfold teamTurn
  split
  · exact KeepsOut.next h
  · exact KeepsOut.ite (passTurn_keeps (issue_keeps h.upd)) (KeepsOut.next h)

end

/-! ### The step -/

theorem ownStep_goes (s : State) : Goes (ownStep s) := by
  unfold ownStep
  dsimp only
  split
  · next e due =>
    have steady : Steady e := nextEvent_steady (s := s) (by split at due; exacts [due, nomatch due])
    exact steady.goes _
  · split
    · exact teamTurn_goes _ _
    · split
      · next e event => exact (nextEvent_steady event).goes _
      · exact ⟨_, rfl⟩

theorem ownStep_keeps {s₀ s : State} (h : Keeps s₀ s) : KeepsOut s₀ (ownStep s) := by
  have chosen : Keeps s₀ (choose { s with stalled := false }) := choose_keeps h.upd
  unfold ownStep
  dsimp only
  split
  · next e due =>
    have steady : Steady e := nextEvent_steady (s := s) (by split at due; exacts [due, nomatch due])
    exact steady.keeps _ _ h.upd
  · split
    · exact teamTurn_keeps chosen
    · split
      · next e event => exact (nextEvent_steady event).keeps _ _ chosen
      · exact KeepsOut.next chosen

/-- What goes on before the choice of a step. -/
theorem chooses_keeps (s : State) : Keeps s (chooses s) := by
  have passed : Keeps s (passTime (background s)) := passTime_keeps (background_keeps (Keeps.refl s))
  exact Keeps.ite passed (retuneAll_keeps passed)

/-- A step leaves memory in its canonical form: the choice takes its head off the agenda, and what is chosen keeps the form. -/
theorem step_keeps (s : State) : ∃ s₁ : State, s₁.mem = (chooses s).mem ∧ KeepsOut s₁ (step s) := by
  rw [step_eq]
  generalize chooses s = c
  split
  · next e r event => exact ⟨{ c with agenda := r }, rfl, exec_keeps (Keeps.refl _) e⟩
  · next k r team => exact ⟨{ c with agenda := r }, rfl, teamTurn_keeps (Keeps.refl _)⟩
  · exact ⟨c, rfl, ownStep_keeps (Keeps.refl _)⟩

/-- Settles O59: every event that the machine takes of its own accord answers a next state, and so does every instruction in a team's turn. -/
theorem everyTurnGoesOn : Obligations.EveryTurnGoesOn := by
  intro s noEvent
  have agenda : (chooses s).agenda = s.agenda := (chooses_keeps s).agenda
  rw [step_eq]
  split
  · next e r event => exact absurd (agenda.symm.trans event) (noEvent e r)
  · exact teamTurn_goes _ _
  · exact ownStep_goes _

/-- Settles O60: every part of a step keeps the form of memory, from every state. -/
theorem memoryStaysCanonical : Obligations.MemoryStaysCanonical := by
  intro s s' wf stepped
  obtain ⟨s₁, same, kept⟩ := step_keeps s
  rw [stepped] at kept
  exact Keeps.mem kept (same ▸ (chooses_keeps s).mem wf)

end Sys2Proof.Machine
end

section
/-! SUPPORT. Numbers and rounding (R65, R66, R81 to R85): what an operation on the integers of lanes gives, as words. -/

namespace Sys2Proof.Machine

/-! ### Integers and words (R65, R66) -/

/-- An integer modulo `2 ^ n` is the word of that width that it stands for. -/
theorem ofInt_eq_toNat (n : Nat) (i : Int) : ofInt n i = (BitVec.ofInt n i).toNat := (BitVec.toNat_ofInt i).symm

theorem ofNat_ofInt (n : Nat) (i : Int) : BitVec.ofNat n (ofInt n i) = BitVec.ofInt n i := by
  rw [ofInt_eq_toNat, BitVec.ofNat_toNat, BitVec.setWidth_eq]

/-- R65: the integer that a word holds, as i32 and as u32. -/
theorem intOf_word (sg : Bool) (x : Word) : intOf sg 32 x.toNat = if sg then x.toInt else (x.toNat : Int) := by
  cases sg
  · simp only [intOf, Bool.false_eq_true, if_false, Nat.mod_eq_of_lt x.isLt]
  · exact toSigned_word x

/-- A word is the word of the integer that it holds, under either reading. -/
theorem wordOfInt_intOf (sg : Bool) (x : Word) : BitVec.ofInt 32 (intOf sg 32 x.toNat) = x := by
  rw [intOf_word]
  cases sg
  · simp only [Bool.false_eq_true, if_false, BitVec.ofInt_natCast, BitVec.ofNat_toNat, BitVec.setWidth_eq]
  · simp only [if_true, BitVec.ofInt_toInt]

theorem wordOfInt_sub (n : Nat) (i j : Int) : BitVec.ofInt n (i - j) = BitVec.ofInt n i - BitVec.ofInt n j := by
  rw [sub_eq_add_neg, BitVec.ofInt_add, BitVec.ofInt_neg, sub_eq_add_neg]

/-- The order of the integers that two words hold. -/
theorem intOf_lt (sg : Bool) (x y : Word) :
    decide (intOf sg 32 x.toNat < intOf sg 32 y.toNat) = if sg then x.slt y else x.ult y := by
  rw [intOf_word, intOf_word]
  cases sg
  · simp only [Bool.false_eq_true, if_false, BitVec.ult_eq_decide, Nat.cast_lt]
  · simp only [if_true, BitVec.slt_eq_decide]

/-- R66: without SAT a result wraps. -/
theorem ofNat_reduceInt {sat : Bool} (wraps : sat = false) (sg : Bool) (i : Int) : BitVec.ofNat 32 (reduceInt sat sg 32 i) = BitVec.ofInt 32 i := by
  subst wraps
  exact ofNat_ofInt 32 i

/-- R66: with SAT a result is held to the range of its type. -/
theorem reduceInt_held {sat : Bool} (holds : sat = true) (sg : Bool) (w : Nat) (i : Int) :
    reduceInt sat sg w i = ofInt w (max (if sg then -(2 ^ (w - 1)) else 0) (min (if sg then 2 ^ (w - 1) - 1 else 2 ^ w - 1) i)) := by
  subst holds
  simp only [reduceInt, if_true, Nat.cast_pow, Nat.cast_ofNat]

/-! ### Products and shifts (R82, R84) -/

/-- The upper half of a 64-bit number. -/
theorem upperHalf_wordOfInt (p : Int) : BitVec.ofInt 32 (p / 2 ^ 32) = (BitVec.ofInt 64 p >>> 32).setWidth 32 := by
  apply BitVec.eq_of_toNat_eq
  rw [BitVec.toNat_ofInt, BitVec.toNat_setWidth, BitVec.toNat_ushiftRight, BitVec.toNat_ofInt, Nat.shiftRight_eq_div_pow]
  omega

/-- R82: the upper half of the exact product of two words. -/
theorem mulh_word (sg : Bool) (x y : Word) : BitVec.ofInt 32 (intOf sg 32 x.toNat * intOf sg 32 y.toNat / 2 ^ 32) =
    if sg then ((x.signExtend 64 * y.signExtend 64) >>> 32).setWidth 32 else ((x.setWidth 64 * y.setWidth 64) >>> 32).setWidth 32 := by
  rw [upperHalf_wordOfInt, BitVec.ofInt_mul, intOf_word, intOf_word]
  cases sg
  · simp only [Bool.false_eq_true, if_false, BitVec.ofInt_natCast, BitVec.ofNat_toNat]
  · simp only [if_true, BitVec.signExtend]

theorem shl_word (x : Word) (n : Nat) : BitVec.ofNat 32 (x.toNat * 2 ^ n % 2 ^ 32) = x <<< n := by
  apply BitVec.eq_of_toNat_eq
  rw [BitVec.toNat_ofNat, Nat.mod_mod, BitVec.toNat_shiftLeft, Nat.shiftLeft_eq]

theorem shr_word (x : Word) (n : Nat) : BitVec.ofNat 32 (x.toNat / 2 ^ n) = x >>> n := by
  rw [← Nat.shiftRight_eq_div_pow, ← BitVec.toNat_ushiftRight, BitVec.ofNat_toNat, BitVec.setWidth_eq]

theorem sra_word (x : Word) (n : Nat) : BitVec.ofNat 32 (ofInt 32 (toSigned 32 x.toNat / (2 ^ n : Nat))) = x.sshiftRight n := by
  rw [ofNat_ofInt, toSigned_word, ← Int.shiftRight_eq_div_pow, ← BitVec.sshiftRight_eq]

/-- R84: the complement of a word. -/
theorem not_word (x : Word) : BitVec.ofNat 32 (2 ^ 32 - 1 - x.toNat) = ~~~x := by
  rw [← BitVec.toNat_not, BitVec.ofNat_toNat, BitVec.setWidth_eq]

/-! ### Bit counts (R85) -/

theorem popCount_eq_filter (x n : Nat) : popCount x n = ((List.range n).filter fun i => x.testBit i).length := by
  induction n with
  | zero => rfl
  | succ n ih =>
    rw [popCount, ih, List.range_succ, List.filter_append, List.length_append]
    cases top : x.testBit n <;> simp [top]

/-- The leading zeros of a number whose bits from the top down are `b`. -/
theorem leadingZeros_eq_takeWhile (x n : Nat) (b : Nat → Bool) (bitsOf : ∀ i < n, x.testBit (n - 1 - i) = b i) :
    leadingZeros x n = ((List.range n).takeWhile fun i => !b i).length := by
  induction n generalizing b with
  | zero => rfl
  | succ n ih =>
    have first : x.testBit n = b 0 := bitsOf 0 n.succ_pos
    have rest : leadingZeros x n = ((List.range n).takeWhile fun i => !b (i + 1)).length :=
      ih (fun i => b (i + 1)) fun i inside => by rw [← bitsOf (i + 1) (by omega)]; congr 1; omega
    rw [leadingZeros, first, rest, List.range_succ_eq_map, List.takeWhile_cons, List.takeWhile_map]
    cases b 0
    · simp only [Bool.false_eq_true, if_false, Bool.not_false, if_true, List.length_cons, List.length_map]
      rfl
    · rfl

theorem reverseBits_lt (x n : Nat) : reverseBits x n < 2 ^ n := by
  induction n generalizing x with
  | zero => exact Nat.one_pos
  | succ n ih =>
    have half := ih (x / 2)
    have low : x % 2 * 2 ^ n ≤ 1 * 2 ^ n := Nat.mul_le_mul_right _ (by omega)
    rw [reverseBits, pow_succ]
    omega

theorem testBit_reverseBits (x n i : Nat) (inside : i < n) : (reverseBits x n).testBit i = x.testBit (n - 1 - i) := by
  induction n generalizing x with
  | zero => omega
  | succ n ih =>
    rw [reverseBits, add_comm, mul_comm, Nat.testBit_two_pow_mul_add _ (reverseBits_lt _ _)]
    by_cases below : i < n
    · rw [if_pos below, ih _ below, Nat.testBit_div_two]
      congr 1
      omega
    · have last : i = n := by omega
      rw [if_neg below, last, Nat.sub_self, Nat.add_sub_cancel, Nat.sub_self, Nat.testBit_zero, Nat.testBit_zero, Nat.mod_mod]

/-! ### What the integer lane operations compute -/

/-- R66, R81: sums, differences and products without SAT. -/
theorem addSubMul_word {e : NumEnv} (wraps : e.sat = false) (sg : Bool) (x y : Word) :
    BitVec.ofNat 32 (addElem false (.int sg 32) e x.toNat y.toNat).1 = x + y ∧
    BitVec.ofNat 32 (addElem true (.int sg 32) e x.toNat y.toNat).1 = x - y ∧
    BitVec.ofNat 32 (mulElem (.int sg 32) e x.toNat y.toNat).1 = x * y := by
  refine ⟨(ofNat_reduceInt wraps sg _).trans ?_, (ofNat_reduceInt wraps sg _).trans ?_, (ofNat_reduceInt wraps sg _).trans ?_⟩
  · simp only [Bool.false_eq_true, if_false, BitVec.ofInt_add, wordOfInt_intOf]
  · simp only [if_true, wordOfInt_sub, wordOfInt_intOf]
  · simp only [BitVec.ofInt_mul, wordOfInt_intOf]

/-- R81: the lesser and the greater of two words. -/
theorem pick_word (greater sg : Bool) (e : NumEnv) (x y : Word) : BitVec.ofNat 32 (pickElem greater (.int sg 32) e x.toNat y.toNat).1 =
    if (if sg then x.slt y else x.ult y) then (if greater then y else x) else (if greater then x else y) := by
  simp only [pickElem, intOf_lt, apply_ite (BitVec.ofNat 32), BitVec.ofNat_toNat, BitVec.setWidth_eq]
  cases (if sg then x.slt y else x.ult y) <;> cases greater <;> rfl

/-- R84: the bitwise results of two words. -/
theorem bit_word (sg : Bool) (e : NumEnv) (x y : Word) :
    BitVec.ofNat 32 (bitElem (· &&& ·) (.int sg 32) e x.toNat y.toNat).1 = x &&& y ∧
    BitVec.ofNat 32 (bitElem (· ||| ·) (.int sg 32) e x.toNat y.toNat).1 = x ||| y ∧
    BitVec.ofNat 32 (bitElem (· ^^^ ·) (.int sg 32) e x.toNat y.toNat).1 = x ^^^ y := by
  simp only [bitElem, ← BitVec.toNat_and, ← BitVec.toNat_or, ← BitVec.toNat_xor, BitVec.ofNat_toNat, BitVec.setWidth_eq, and_self]

theorem neg_word {e : NumEnv} (wraps : e.sat = false) (sg : Bool) (x : Word) :
    BitVec.ofNat 32 (signElem true (.int sg 32) e x.toNat).1 = -x := by
  refine (ofNat_reduceInt wraps sg _).trans ?_
  simp only [if_true, BitVec.ofInt_neg, wordOfInt_intOf]

theorem ctz_word (x : Word) : leadingZeros (reverseBits x.toNat 32) 32 = ((List.range 32).takeWhile fun i => !x.getLsbD i).length :=
  leadingZeros_eq_takeWhile _ 32 (fun i => x.getLsbD i) fun i inside => by
    rw [testBit_reverseBits _ 32 _ (by omega), show 32 - 1 - (32 - 1 - i) = i by omega]
    rfl

/-- Settles O3: wrapping by the words of the integers, saturation by `reduceInt_held`, bit counts by the bits of a number. -/
theorem integerLaneValues : Obligations.IntegerLaneValues := by
  refine ⟨fun sg e x y wraps => ?_, fun sg w e x y holds _ => ?_, fun sg e x => ?_⟩
  · obtain ⟨sum, difference, product⟩ := addSubMul_word wraps sg x y
    obtain ⟨conj, disj, excl⟩ := bit_word sg e x y
    exact ⟨sum, difference, product, (ofNat_ofInt 32 _).trans (mulh_word sg x y), pick_word false sg e x y,
      pick_word true sg e x y, conj, disj, excl, not_word x, neg_word wraps sg x, shl_word x _, shr_word x _, sra_word x _⟩
  · have held := fun i => congrArg (fun r => (r, (0 : Flags))) (reduceInt_held holds sg w i)
    exact ⟨held _, held _, held _, held _⟩
  · refine ⟨popCount_eq_filter x.toNat 32, leadingZeros_eq_takeWhile x.toNat 32 (fun i => x.getLsbD (31 - i)) fun _ _ => rfl, ctz_word x,
      fun i inside => ?_⟩
    simp only [brevElem, Elem.width, BitVec.getLsbD_ofNat, inside, decide_true, Bool.true_and, testBit_reverseBits x.toNat 32 i inside]
    rfl

end Sys2Proof.Machine
end

section
/-! SUPPORT. Conversions between element types (R70, R89, R90) and reductions over the present lanes (R74, R75, R218), on registers that are in
range, full and good. -/

namespace Sys2Proof.Machine

theorem exec_cvt d ta a part src (s : State) : exec (.cvt d ta a part src) s = execCvt d ta a part src s := rfl
theorem exec_unpk d ta a (s : State) : exec (.unpk d ta a) s = execUnpk d ta a s := rfl
theorem exec_tred d ta a op (s : State) : exec (.tred d ta a op) s = execTred d ta a op s := rfl

/-! ### `cvt` (R89) -/

/-- R42: a type has at least one element to a lane. -/
theorem count_pos {code : Nat} {ty : Ty} (coded : Ty.ofCode code = some ty) : 0 < ty.count := by
  unfold Ty.ofCode at coded
  split at coded
  case h_14 => cases coded
  all_goals cases coded; decide

/-- R89: what a part index may be, by the two element counts. -/
theorem part_legal {ns nd part : Nat} (hs : 0 < ns) (hd : 0 < nd) (inRange : part < max 1 (max (ns / nd) (nd / ns))) :
    if ns = nd then part = 0 else if ns > nd then part < ns / nd else part < nd / ns := by
  rcases lt_trichotomy ns nd with widens | same | narrows
  · rw [Nat.div_eq_of_lt widens] at inRange
    have : 0 < nd / ns := Nat.div_pos widens.le hs
    rw [if_neg widens.ne, if_neg (by omega)]
    omega
  · subst same
    rw [Nat.div_self hs] at inRange
    rw [if_pos rfl]
    omega
  · rw [Nat.div_eq_of_lt narrows] at inRange
    have : 0 < ns / nd := Nat.div_pos narrows.le hd
    rw [if_neg narrows.ne', if_pos narrows]
    omega

/-- R89: a lane's value after `cvt`, from the source's value `x` and the destination's old value. -/
def cvtLane (e : NumEnv) (st dt : Ty) (part x old : Nat) : Nat × Flags :=
  dt.build fun j =>
    if st.count < dt.count then
      (if j / st.count = part then convert e st.elem dt.elem (st.get x (j % st.count)) else (dt.get old j, 0))
    else convert e st.elem dt.elem (st.get x (part * dt.count + j))

/-- Elements counted `n` to a part: which of them are in part `part`, and where in it. -/
theorem in_part {n part j : Nat} (hn : 0 < n) : part * n ≤ j ∧ j < (part + 1) * n ↔ j / n = part := by
  rw [← Nat.le_div_iff_mul_le hn, ← Nat.div_lt_iff_lt_mul hn]
  omega

theorem place_in_part {n part j : Nat} (inside : j / n = part) : j - part * n = j % n := by
  rw [Nat.mod_eq_sub_div_mul, inside]

/-- R89: `cvt` on good registers. -/
theorem cvt_good {s : State} {k : Nat} {t : Team} {dt st : Ty} {e : NumEnv} {d a : BitVec 6} (ta : Bool) {part : Nat} (q : Quiet s t)
    (hs : 0 < st.count) (okD : t.okV dt.wide d.toNat = true) (okA : t.okV st.wide a.toNat = true)
    (full : FullV t (pair st.wide a.toNat ++ pair dt.wide d.toNat))
    (clear : ∀ L ∈ laneList t t.present, (cvtLane e st dt part (t.rw st.wide a.toNat L) (t.rw dt.wide d.toNat L)).2 &&& t.fpte.setWidth 5 = 0) :
    LanesWritten s k t dt.wide d.toNat (fun L => cvtLane e st dt part (t.rw st.wide a.toNat L) (t.rw dt.wide d.toNat L))
      (.next (execCvt.cvtBody d ta a s k t dt st part e true)) := by
  have lane : ∀ x old, (dt.build fun j =>
      if decide (st.count < dt.count) then
        if part * st.count ≤ j ∧ j < (part + 1) * st.count then convert e st.elem dt.elem (st.get x (j - part * st.count))
        else (dt.get old j, 0)
      else convert e st.elem dt.elem (st.get x (part * dt.count + j))) = cvtLane e st dt part x old := by
    intro x old
    unfold cvtLane
    congr 1
    funext j
    by_cases inside : j / st.count = part
    · simp only [in_part hs, inside, place_in_part inside, decide_eq_true_eq]
    · simp only [in_part hs, inside, if_false, decide_eq_true_eq]
  have sources : FullV t ((srcsV st.wide a.toNat ta ++ if decide (st.count < dt.count) then srcsV dt.wide d.toNat false else []).map
      fun r => r.1) := by
    rw [List.map_append, srcsV_map]
    split
    · rw [srcsV_map]; exact full
    · rw [List.map_nil, List.append_nil]; exact fullV_left full
  have go := fun body => gated_good (k := k) (u := {
    srcV := srcsV st.wide a.toNat ta ++ if decide (st.count < dt.count) then srcsV dt.wide d.toNat false else []
    preds := [t.guardReg], dstV := pair dt.wide d.toNat, lanes := t.present }) body q sources nofun (fullV_right full) nofun
  simp only [execCvt.cvtBody, okD, okA, Bool.and_self, Bool.not_true, Bool.or_self, Bool.false_eq_true, if_false, go, lane]
  exact vecResult_lanes k 0 dt.wide d.toNat _ q.1 clear

/-- R43, R89: `cvt` with a part index in its range reaches its body; between integer types it asks nothing of MODE.RND. -/
theorem cvt_runs {s : State} {k : Nat} {t : Team} {dt st : Ty} {e : NumEnv} {d a : BitVec 6} (ta : Bool) {part : BitVec 2} {src : BitVec 4}
    (h : Runs s k t) (codedD : Ty.ofCode t.typeCode = some dt) (codedS : Ty.ofCode src.toNat = some st)
    (env : t.env = some e ∨ (t.env = none ∧ dt.isFloat = false ∧ st.isFloat = false ∧ e = t.envRn))
    (inRange : part.toNat < max 1 (max (st.count / dt.count) (dt.count / st.count))) :
    exec (.cvt d ta a part src) s = .next (execCvt.cvtBody d ta a s k t dt st part.toNat e true) := by
  have legal := decide_eq_true (part_legal (count_pos codedS) (count_pos codedD) inRange)
  rw [exec_cvt, execCvt, withTeam_runs h]
  rcases env with rounds | ⟨reserved, intD, intS, rfl⟩
  · simp only [codedD, codedS, rounds, legal]
  · simp only [codedD, codedS, reserved, intD, intS, Bool.or_self, Bool.false_eq_true, if_false, legal]

/-! ### `unpk` (R90) -/

/-- R90: `n` elements of a packed value from element `o` on, each widened. -/
def unpkHalf (e : NumEnv) (ty : Ty) (x o : Nat) : Nat × Flags := (partner ty).build fun i => convert e ty.elem (partner ty).elem (ty.get x (o + i))

/-- R90: the pair of registers that `unpk` makes of a lane's word. -/
def unpkLane (e : NumEnv) (ty : Ty) (x : Nat) : Nat × Flags :=
  ((unpkHalf e ty x 0).1 + (unpkHalf e ty x (partner ty).count).1 * 2 ^ 32, (unpkHalf e ty x 0).2 ||| (unpkHalf e ty x (partner ty).count).2)

theorem unpk_good {s : State} {k : Nat} {t : Team} {ty : Ty} {e : NumEnv} {d a : BitVec 6} (ta : Bool) (h : Runs s k t) (q : Quiet s t)
    (typed : t.typed [.PI, .PF, .F8] false = some (ty, e)) (okD : t.okV true d.toNat = true) (okA : t.okV false a.toNat = true)
    (full : FullV t ([a.toNat] ++ pair true d.toNat))
    (clear : ∀ L ∈ laneList t t.present, (unpkLane e ty (t.rv a.toNat L).toNat).2 &&& t.fpte.setWidth 5 = 0) :
    LanesWritten s k t true d.toNat (fun L => unpkLane e ty (t.rv a.toNat L).toNat) (exec (.unpk d ta a) s) := by
  have lower : ∀ x, ((partner ty).build fun i => convert e ty.elem (partner ty).elem (ty.get x i)) = unpkHalf e ty x 0 := fun x => by
    simp only [unpkHalf, Nat.zero_add]
  have go := fun body => gated_good (k := k) (u := { srcV := [(a.toNat, ta)], preds := [t.guardReg], dstV := pair true d.toNat, lanes := t.present })
    body q (fullV_left full) nofun (fullV_right full) nofun
  rw [exec_unpk, execUnpk, withTeam_runs h]
  simp only [typed, okD, okA, Bool.and_self, Bool.not_true, Bool.false_eq_true, if_false, go, lower]
  exact vecResult_lanes k 0 true d.toNat (fun L => unpkLane e ty (t.rv a.toNat L).toNat) q.1 clear

/-- Settles O9: the part indices that the two counts allow, then `cvt` and `unpk` on good registers. -/
theorem conversionsComplete : Obligations.ConversionsComplete := by
  refine ⟨fun s k t dt st e d a ta part src h q codedD codedS env okD okA full inRange => ?_,
    fun s k t ty e d a ta h q typed okD okA full => ?_⟩
  · intro f clear
    rw [cvt_runs ta h codedD codedS env inRange]
    exact cvt_good ta q (count_pos codedS) okD okA full clear
  · intro half clear
    exact unpk_good ta h q typed okD okA full clear

/-! ### `tred` (R218) -/

/-- Flags of which none is raised change nothing. -/
theorem addFlags_zero (t : Team) : t.addFlags 0 = t := by
  simp [Team.addFlags]

/-- R73: one result whose flags are not enabled. -/
theorem withFlags_one {s : State} {k lane : Nat} {t : Team} {g : Flags} (body : Team → State) (clear : g &&& t.fpte.setWidth 5 = 0) :
    withFlags s k t [(lane, g)] body = body (t.addFlags g) := by
  rw [withFlags_clear k body (by simpa using clear), List.foldl_cons, List.foldl_nil]
  congr 2
  exact BitVec.zero_or

/-- R74, R75, R218: the value that `tred` reduces the present lanes to, and its flags. -/
def tredResult (t : Team) (ty : Ty) (e : NumEnv) (op a : Nat) : Nat × Flags :=
  (reduceLanes op ty.elem e t (laneList t t.present) fun L => t.rw ty.wide a L).getD (identityOf op ty.elem, 0)

theorem tred_good {s : State} {k : Nat} {t : Team} {ty : Ty} {e : NumEnv} {d : BitVec 5} (ta : Bool) {a op : BitVec 6} (h : Runs s k t)
    (q : Quiet s t) (assigned : op.toNat ≤ 5) (typed : t.redType op.toNat = some (ty, e)) (ok : t.okV ty.wide a.toNat = true)
    (source : FullV t (pair ty.wide a.toNat)) (dest : FullS t [d.toNat]) (clear : (tredResult t ty e op.toNat a.toNat).2 &&& t.fpte.setWidth 5 = 0) :
    exec (.tred d ta a op) s = .next (finish s k ((t.addFlags (tredResult t ty e op.toNat a.toNat).2).ws d.toNat (BitVec.ofNat 64
      (if t.typeCode = 0 then signExt 32 64 (tredResult t ty e op.toNat a.toNat).1 else (tredResult t ty e op.toNat a.toNat).1)))) := by
  have go := fun body => gated_good (k := k) (u := { srcV := srcsV ty.wide a.toNat ta, preds := [t.guardReg], dstS := [d.toNat] })
    body q (by simpa using source) nofun nofun dest
  rw [exec_tred, execTred, withTeam_runs h]
  simp only [Nat.not_lt.2 assigned, typed, ok, Bool.not_true, Bool.false_eq_true, if_false, go, checkedLanes_quiet _ _ _ _ _ q.1]
  exact congrArg Host.Outcome.next (withFlags_one _ clear)

/-- R74: the sum of words is the word of their exact sum. -/
theorem wordOfInt_sumLanes (val : Nat → Word) (ls : List Nat) :
    BitVec.ofInt 32 (ls.foldl (fun (x : Int) L => x + intOf true 32 (val L).toNat) 0) = ls.foldl (fun (x : Word) L => x + val L) 0 := by
  refine (List.foldl_hom (init := (0 : Int)) (g₂ := fun (x : Word) L => x + val L) (BitVec.ofInt 32) fun x L => ?_).symm
  rw [BitVec.ofInt_add, wordOfInt_intOf]

/-- R74, R218: the integer sum under i32 without SAT, which with no present lane is zero. -/
theorem tredResult_sum {t : Team} {e : NumEnv} (wraps : e.sat = false) (a : Nat) :
    tredResult t ⟨.int true 32, 1, .I⟩ e 0 a = (((laneList t t.present).foldl (fun (x : Word) L => x + t.rv a L) 0).toNat, 0) := by
  rw [← wordOfInt_sumLanes, ← ofInt_eq_toNat, tredResult]
  cases laneList t t.present with
  | nil => rfl
  | cons L ls =>
    simp only [reduceLanes, List.isEmpty_cons, Bool.false_eq_true, if_false, Option.getD_some, reduceInt, wraps]
    rfl

/-- Settles O10: `tred` on good registers, and the sum of words for the integer add. -/
theorem reductionCompletes : Obligations.ReductionCompletes := by
  refine ⟨fun s k t ty e d ta a op h q assigned typed ok source dest => ?_, fun s k t d ta a h q i32 wraps ok source dest => ?_⟩
  · intro r clear
    exact tred_good ta h q assigned typed ok source dest clear
  · have typed : t.redType 0 = some (⟨.int true 32, 1, .I⟩, t.envRn) := by
      simp [Team.redType, Team.typed, i32, Ty.ofCode, Ty.isFloat]
    have sum : tredResult t ⟨.int true 32, 1, .I⟩ t.envRn (0 : BitVec 6).toNat a.toNat = _ := tredResult_sum wraps a.toNat
    rw [tred_good ta (op := 0) h q (Nat.zero_le 5) typed ok source dest (by rw [sum]; exact BitVec.zero_and), sum]
    simp only [addFlags_zero, i32, if_true, ofNat_signExt]

end Sys2Proof.Machine
end

section
/-! SUPPORT. Vector operations of one mould (R80), integer division by zero (R83, R95) and compares (R87, R93), on registers that are in
range, full and good. -/

namespace Sys2Proof.Machine

theorem exec_div d ta a tb b (s : State) : exec (.div d ta a tb b) s = divide false d a b ta tb s := rfl
theorem exec_rem d ta a tb b (s : State) : exec (.rem d ta a tb b) s = divide true d a b ta tb s := rfl
theorem exec_sdiv x y z (s : State) : exec (.sdiv x y z) s = execSdiv x y z s := rfl
theorem exec_cmp c p ta a tb b (s : State) : exec (.cmp c p ta a tb b) s = execCmp c p ta a tb b s := rfl
theorem exec_cmpi c p a imm (s : State) : exec (.cmpi c p a imm) s = execCmpi c p a imm s := rfl

/-! ### Division (R83) -/

/-- R83: what `div` and `rem` do with the lanes. -/
def divisionOp (rem : Bool) (d a b : BitVec 6) (ta tb : Bool) : VOp :=
  { d := d.toNat, srcs := [(a.toNat, ta), (b.toNat, tb)], classes := if rem then [.I] else [.I, .F], f := elem2 (divElem rem) }

/-- R83: the present lanes in which an integer division has a zero divisor. -/
def zeroDivisors (t : Team) (ty : Ty) (b : Nat) : List Nat :=
  if ty.isFloat then [] else (laneList t t.present).filter fun L => t.rw ty.wide b L == 0

/-- R83: a division on good registers traps DIVZ for its lanes with a zero divisor, and is a lane operation where there are none. -/
theorem divide_good {s : State} {k : Nat} {t : Team} {ty : Ty} {e : NumEnv} {d a b : BitVec 6} (rem ta tb : Bool) (h : Runs s k t) (q : Quiet s t)
    (typed : t.typed (divisionOp rem d a b ta tb).classes false = some (ty, e)) (okD : t.okV ty.wide d.toNat = true)
    (okA : t.okV ty.wide a.toNat = true) (okB : t.okV ty.wide b.toNat = true)
    (full : FullV t (pair ty.wide a.toNat ++ pair ty.wide b.toNat ++ pair ty.wide d.toNat)) :
    divide rem d a b ta tb s = .next (if (zeroDivisors t ty b.toNat).isEmpty then (divisionOp rem d a b ta tb).run s k t
      else raise s k t cDIVZ ((zeroDivisors t ty b.toNat).map fun L => record L cDIVZ 0)) := by
  have go := fun body => gated_good (k := k) (u := (divisionOp rem d a b ta tb).use t ty.wide) body q
    (by simpa [divisionOp, VOp.use] using fullV_left full) nofun (fullV_right full) nofun
  simp only [divisionOp] at typed go
  rw [divide, withTeam_runs h]
  simp only [typed, okD, okA, okB, Bool.and_self, Bool.not_true, Bool.false_eq_true, if_false, go, refuse_runs h, zeroDivisors, divisionOp]
  rfl

/-- R42: the types of class I are no floating types. -/
theorem typed_integer {t : Team} {ty : Ty} {e : NumEnv} (typed : t.typed [.I] false = some (ty, e)) :
    ty.isFloat = false ∧ t.typed [.I, .F] false = some (ty, e) := by
  cases coded : Ty.ofCode t.typeCode with
  | none => simp [Team.typed, coded] at typed
  | some ty' =>
    have int : ty'.cls = .I → ty'.isFloat = false := by
      unfold Ty.ofCode at coded
      split at coded
      case h_14 => cases coded
      all_goals cases coded; decide
    by_cases cls : ty'.cls = .I
    · simp_all [Team.typed]
    · simp [Team.typed, coded, cls] at typed

/-- R83: with no zero divisor no lane is listed. -/
theorem zeroDivisors_nil {t : Team} {ty : Ty} {b : Nat} (nonzero : ∀ L ∈ laneList t t.present, (!ty.isFloat && t.rw ty.wide b L == 0) = false) :
    zeroDivisors t ty b = [] := by
  unfold zeroDivisors
  split
  · rfl
  · next int => exact List.filter_eq_nil_iff.2 fun L present => by simpa [int] using nonzero L present

/-! ### Lane operations (R80) -/

/-- Each instruction of `laneOp` executes as its operation, under the checker of some unit; a division does once no divisor is zero. -/
theorem exec_laneOp {i : Instr} {o : VOp} (named : laneOp i = some o) :
    (∃ unit, ∀ s, exec i s = withTeam s ({ o with unit := unit }.run s)) ∨
    ∃ rem d a b ta tb, o = divisionOp rem d a b ta tb ∧ (∀ s, exec i s = divide rem d a b ta tb s) ∧
      ∀ t ty L, dividesByZero i t ty L = (!ty.isFloat && t.rw ty.wide b.toNat L == 0) := by
  unfold laneOp at named
  split at named
  case h_36 d ta a tb b => cases named; exact .inr ⟨false, d, a, b, ta, tb, rfl, fun _ => rfl, fun _ _ _ => rfl⟩
  case h_37 d ta a tb b => cases named; exact .inr ⟨true, d, a, b, ta, tb, rfl, fun _ => rfl, fun _ _ _ => rfl⟩
  case h_38 => cases named
  all_goals cases named; exact .inl ⟨_, fun _ => rfl⟩

/-- No operation of `laneOp` has sources that stay narrow under a wide type. -/
theorem laneOp_narrow {i : Instr} {o : VOp} (named : laneOp i = some o) : o.narrow = [] := by
  unfold laneOp at named
  split at named
  case h_38 => cases named
  all_goals cases named; rfl

/-- Settles O1: a lane operation on good registers, whatever its checker, and a division as one once no divisor is zero. -/
theorem laneOperationsComplete : Obligations.LaneOperationsComplete := by
  intro i o named s k t ty e h q typed okD okS full nonzero clear
  have narrow := laneOp_narrow named
  rcases exec_laneOp named with ⟨unit, executes⟩ | ⟨rem, d, a, b, ta, tb, rfl, executes, zeros⟩
  · rw [executes, withTeam_runs h]
    exact VOp.run_good (o := { o with unit := unit }) narrow q typed okD okS full clear
  · have none := zeroDivisors_nil fun L present => (zeros t ty L).symm.trans (nonzero L present)
    rw [executes, divide_good rem ta tb h q typed okD (okS _ List.mem_cons_self) (okS _ (List.mem_cons_of_mem _ List.mem_cons_self))
      (by simpa [divisionOp, VOp.regs] using full), none]
    exact VOp.run_good narrow q typed okD okS full clear

/-! ### Division by zero (R83, R95) -/

theorem sdiv_zero {s : State} {k : Nat} {t : Team} {x y z : BitVec 5} (h : Runs s k t) (q : Quiet s t) (coded : t.typeCode ≤ 12)
    (full : FullS t [x.toNat, y.toNat, z.toNat]) (zero : t.rs z.toNat = 0) : exec (.sdiv x y z) s = .next (raise s k t cDIVZ []) := by
  have go := fun body => gated_good (s := s) (k := k) (u := { srcS := [(y.toNat, false), (z.toNat, false)], dstS := [x.toNat] }) body q
    nofun (fun r hr => full r (List.mem_cons_of_mem _ hr)) nofun (fun r hr => full r (List.mem_of_mem_head? (by simp_all)))
  rw [exec_sdiv, execSdiv, withTeam_runs h]
  simp only [Team.signedType, Nat.not_lt.2 coded, if_false, go, zero, if_true, refuse_runs h]

/-- Settles O2: a division traps for its lanes with a zero divisor, and `sdiv` on its one divisor. -/
theorem divisionByZeroTraps : Obligations.DivisionByZeroTraps := by
  refine ⟨fun s k t ty e d a b ta tb h q typed okD okA okB full some => ?_, fun s k t x y z h q coded full zero => sdiv_zero h q coded full zero⟩
  obtain ⟨int, typed'⟩ := typed_integer typed
  obtain ⟨L, present, zero⟩ := some
  have zeros : zeroDivisors t ty b.toNat = (laneList t t.present).filter fun L => t.rw ty.wide b.toNat L == 0 := if_neg (by simp [int])
  have traps : ¬ (zeroDivisors t ty b.toNat).isEmpty = true := by
    rw [zeros, Bool.not_eq_true, List.isEmpty_eq_false_iff_exists_mem]
    exact ⟨L, List.mem_filter.2 ⟨present, by simp [zero]⟩⟩
  rw [exec_div, exec_rem, divide_good false ta tb h q typed' okD okA okB full, divide_good true ta tb h q typed okD okA okB full, if_neg traps,
    if_neg traps, zeros]
  exact ⟨rfl, rfl⟩

/-! ### Compares (R87, R93) -/

theorem foldl_mask_lt (p : Nat → Bool) (n : Nat) : (List.range n).foldl (fun a L => if p L then a + 2 ^ L else a) 0 < 2 ^ n := by
  induction n with
  | zero => simp
  | succ n ih =>
    rw [List.range_succ, List.foldl_append, List.foldl_cons, List.foldl_nil, pow_succ]
    split <;> omega

theorem testBit_foldl_mask (p : Nat → Bool) (n L : Nat) :
    ((List.range n).foldl (fun a L => if p L then a + 2 ^ L else a) 0).testBit L = (decide (L < n) && p L) := by
  induction n with
  | zero => simp
  | succ n ih =>
    have below := foldl_mask_lt p n
    rw [List.range_succ, List.foldl_append, List.foldl_cons, List.foldl_nil]
    rcases lt_trichotomy L n with lower | rfl | higher
    · rw [decide_eq_true lower] at ih
      rw [decide_eq_true (Nat.lt_succ_of_lt lower), ← ih]
      split
      · rw [Nat.add_comm, Nat.testBit_two_pow_add_gt lower]
      · rfl
    · rw [decide_eq_true (Nat.lt_succ_self L), Bool.true_and]
      cases held : p L
      · rw [if_neg Bool.false_ne_true, Nat.testBit_lt_two_pow below]
      · rw [if_pos rfl, Nat.add_comm, Nat.testBit_two_pow_add_eq, Nat.testBit_lt_two_pow below]; rfl
    · rw [decide_eq_false (by omega), Bool.false_and]
      refine Nat.testBit_lt_two_pow (lt_of_lt_of_le ?_ (Nat.pow_le_pow_right two_pos (Nat.succ_le_of_lt higher)))
      rw [pow_succ]
      split <;> omega

/-- A mask of lanes holds just the lanes that it is made of. -/
theorem getLsbD_laneMask (p : Nat → Bool) {L : Nat} (inRange : L < 1024) : (laneMask p).getLsbD L = p L := by
  rw [laneMask, BitVec.getLsbD_ofNat, testBit_foldl_mask, decide_eq_true inRange, Bool.true_and, Bool.true_and]

/-- The conditions and the flags of a lane's elements, gathered together. -/
theorem foldl_cond (h : Nat → Bool × Flags) (ls : List Nat) (b : Bool) (g : Flags) :
    ls.foldl (fun (u : Bool × Flags) i => (u.1 && (h i).1, u.2 ||| (h i).2)) (b, g) =
      (b && ls.all fun i => (h i).1, ls.foldl (fun g i => g ||| (h i).2) g) := by
  induction ls generalizing b g with
  | nil => simp
  | cons i ls ih => rw [List.foldl_cons, ih, List.foldl_cons, List.all_cons, Bool.and_assoc]

/-- R87: what a compare finds of a lane: whether its condition holds, and the flags that it raises. -/
def laneVerdict (c : Nat) (ty : Ty) (e : NumEnv) (x y : Nat) : Bool × Flags := (laneCond c ty e x y, laneCondFlags c ty e x y)

theorem foldl_condElem (c : Nat) (ty : Ty) (e : NumEnv) (x y : Nat) : (List.range ty.count).foldl (fun (u : Bool × Flags) i =>
    (u.1 && (condElem c ty.elem e (ty.get x i) (ty.get y i)).1, u.2 ||| (condElem c ty.elem e (ty.get x i) (ty.get y i)).2)) (true, 0) =
    laneVerdict c ty e x y := foldl_cond _ _ _ _

/-- R87: the predicate that a compare writes: the present lanes hold their condition, the others keep what they hold. -/
def condMask (t : Team) (p : Nat) (cond : Nat → Bool) : LaneMask :=
  (t.rp p &&& ~~~t.present) ||| laneMask fun L => (laneList t t.present).contains L && cond L

theorem getLsbD_condMask (t : Team) (p : Nat) (cond : Nat → Bool) {L : Nat} (inRange : L < 1024) :
    (condMask t p cond).getLsbD L = if t.present.getLsbD L then decide (L < t.lanes) && cond L else (t.rp p).getLsbD L := by
  have listed : (laneList t t.present).contains L = (decide (L < t.lanes) && t.present.getLsbD L) := by
    rw [Bool.eq_iff_iff, List.contains_iff_mem, mem_laneList, Bool.and_eq_true, decide_eq_true_eq]
    exact Iff.rfl
  rw [condMask, BitVec.getLsbD_or, BitVec.getLsbD_and, BitVec.getLsbD_not, decide_eq_true inRange, getLsbD_laneMask _ inRange, listed]
  cases t.present.getLsbD L <;> simp

/-- A lane's pair is found by its lane. -/
theorem any_lane (ls : List Nat) (g : Nat → Bool × Flags) (L : Nat) :
    ((ls.map fun M => (M, g M)).any fun r => r.1 == L && r.2.1) = (ls.contains L && (g L).1) := by
  rw [Bool.eq_iff_iff]
  simp only [List.any_map, List.any_eq_true, Function.comp_apply, Bool.and_eq_true, beq_iff_eq, List.contains_iff_mem]
  constructor
  · rintro ⟨M, listed, rfl, holds⟩
    exact ⟨listed, holds⟩
  · rintro ⟨listed, holds⟩
    exact ⟨L, listed, rfl, holds⟩

/-- R87, R93: what a compare compares a lane with: a register's value, or the immediate. -/
def compareRhs (t : Team) (wide : Bool) (imm : Nat) : Option (BitVec 6 × Bool) → Nat → Nat
  | some r, L => t.rw wide r.1.toNat L
  | none, _ => imm

/-- R87, R93: the registers of the second source. -/
def compareSrcs (wide : Bool) : Option (BitVec 6 × Bool) → List (Nat × Bool)
  | some r => srcsV wide r.1.toNat r.2
  | none => []

/-- R87, R93: a compare on good registers, with flags of which none is enabled. -/
theorem compare_good {s : State} {k : Nat} {t : Team} {ty : Ty} {e : NumEnv} {c p : BitVec 3} {a : BitVec 6} (ta : Bool)
    (b : Option (BitVec 6 × Bool)) (imm : Ty → NumEnv → Nat) (h : Runs s k t) (q : Quiet s t) (typed : t.typed arithClasses false = some (ty, e))
    (okA : t.okV ty.wide a.toNat = true) (okB : (b.all fun r => t.okV ty.wide r.1.toNat) = true) (fullA : FullV t (pair ty.wide a.toNat))
    (fullB : FullV t ((compareSrcs ty.wide b).map fun r => r.1))
    (clear : ∀ L ∈ laneList t t.present,
      laneCondFlags c.toNat ty e (t.rw ty.wide a.toNat L) (compareRhs t ty.wide (imm ty e) b L) &&& t.fpte.setWidth 5 = 0) :
    compare c p a ta b imm s = .next (finish s k ((t.addFlags (joinFlags (laneList t t.present) fun L =>
        laneCondFlags c.toNat ty e (t.rw ty.wide a.toNat L) (compareRhs t ty.wide (imm ty e) b L))).wp p.toNat
      (condMask t p.toNat fun L => laneCond c.toNat ty e (t.rw ty.wide a.toNat L) (compareRhs t ty.wide (imm ty e) b L)))) := by
  have go := fun body => gated_good (k := k) (u := {
    srcV := srcsV ty.wide a.toNat ta ++ compareSrcs ty.wide b, preds := [t.guardReg], dstP := [p.toNat], lanes := t.present })
    body q (fun r hr => by
      rw [List.map_append, srcsV_map, List.mem_append] at hr
      exact hr.elim (fullA r) (fullB r)) nofun nofun nofun
  have run : compare c p a ta b imm s = .next (
      let rs := (laneList t t.present).map fun L =>
        (L, laneVerdict c.toNat ty e (t.rw ty.wide a.toNat L) (compareRhs t ty.wide (imm ty e) b L))
      withFlags s k t (rs.map fun r => (r.1, r.2.2)) fun t => finish s k (t.wp p.toNat ((t.rp p.toNat &&& ~~~t.present) |||
        laneMask fun L => rs.any fun r => r.1 == L && r.2.1))) := by
    rw [compare, withTeam_runs h]
    cases b
    all_goals
      simp only [compareSrcs] at go
      simp only [typed, okA, okB, Bool.and_self, Bool.not_true, Bool.false_eq_true, if_false, go, foldl_condElem, compareRhs]
  rw [run]
  simp only [any_lane, List.map_map]
  rw [withFlags_clear k _ (by
    intro f mem
    obtain ⟨L, present, rfl⟩ := List.mem_map.1 mem
    exact clear L present), List.foldl_map]
  rfl

/-- Settles O8: a compare on good registers, and its mask a lane at a time. -/
theorem comparesComplete : Obligations.ComparesComplete := by
  intro s k t ty e c p a i y h q typed okA fullA named clear
  rcases named with ⟨ta, tb, b, rfl, okB, fullB, rfl⟩ | ⟨imm, rfl, rfl⟩
  · refine ⟨_, ?_, fun L inRange => getLsbD_condMask t p.toNat _ inRange⟩
    rw [exec_cmp, execCmp]
    exact compare_good ta (some (b, tb)) (fun _ _ => 0) h q typed okA okB fullA (by rwa [compareSrcs, srcsV_map]) clear
  · refine ⟨_, ?_, fun L inRange => getLsbD_condMask t p.toNat _ inRange⟩
    rw [exec_cmpi, execCmpi]
    exact compare_good false none (fun ty e => (ty.build fun _ => (immElem ty.elem e imm, 0)).1) h q typed okA rfl fullA nofun clear

end Sys2Proof.Machine
end

section
/-! SUPPORT. Activation tables (R99 to R101), job lists (R211) and shape entries (R222). -/

namespace Sys2Proof.Machine

theorem exec_tbld x (s : State) : exec (.tbld x) s = execTbld x s := rfl
theorem exec_tbsw (s : State) : exec .tbsw s = execTbsw s := rfl
theorem exec_tableLoadComplete core (s : State) : exec (.tableLoadComplete core) s = execTableLoadComplete core s := rfl
theorem exec_rbal x y c (s : State) : exec (.rbal x y c) s = execRbal x y c s := rfl
theorem exec_shpld x y (s : State) : exec (.shpld x y) s = execShpld x y s := rfl

/-! ### Maps written at many keys -/

theorem mem_span {lo n j : Nat} : j ∈ span lo n ↔ lo ≤ j ∧ j < lo + n := by
  simp only [span, List.mem_map, List.mem_range]
  exact ⟨by rintro ⟨i, inRange, rfl⟩; omega, fun inside => ⟨j - lo, by omega, by omega⟩⟩

/-- A read after writes at many keys. -/
theorem look_putMany {α : Type} [DecidableEq α] (d : α) (f : Nat → α) (ks : List Nat) (m : NMap α) (j : Nat) :
    look d (putMany d f ks m) j = if j ∈ ks then f j else look d m j := by
  induction ks generalizing m with
  | nil => simp [putMany]
  | cons k ks ih =>
    rw [putMany, ih, look_putAt]
    by_cases later : j ∈ ks
    · simp [later]
    · by_cases here : j = k <;> simp [later, here]

theorem lookup_putAt {α : Type} [DecidableEq α] (d : α) (m : NMap α) (k j : Nat) {v : α} (listed : v ≠ d) :
    List.lookup j (putAt d m k v) = if j = k then some v else List.lookup j m := by
  rw [putAt, if_neg listed]
  exact lookup_setAt m k j v

/-- A value that is no default is listed at each key that it is written to. -/
theorem lookup_putMany {α : Type} [DecidableEq α] (d : α) {v : α} (listed : v ≠ d) (ks : List Nat) (m : NMap α) (j : Nat) :
    List.lookup j (putMany d (fun _ => v) ks m) = if j ∈ ks then some v else List.lookup j m := by
  induction ks generalizing m with
  | nil => simp [putMany]
  | cons k ks ih =>
    rw [putMany, ih, lookup_putAt d m k j listed]
    by_cases later : j ∈ ks
    · simp [later]
    · by_cases here : j = k <;> simp [later, here]

/-! ### `tbld` and `tbsw` (R100, R101) -/

/-- Noting misses leaves the turn to the team, as it is. -/
theorem noteMisses_runs {s : State} {k : Nat} {t : Team} (h : Runs s k t) (vas : List DWord) : Runs (noteMisses s k t vas) k t := by
  obtain ⟨teams, -, cur, -⟩ := noteMisses_calm s k t vas
  exact ⟨cur.trans h.1, (congrArg (List.lookup k) teams).trans h.2⟩

theorem readPlaces_runs {s : State} {k : Nat} {t : Team} (h : Runs s k t) (ps : List Place) : Runs (readPlaces s k t ps).1 k t := by
  obtain ⟨teams, -, cur, -⟩ := readPlaces_calm s k t ps
  exact ⟨cur.trans h.1, (congrArg (List.lookup k) teams).trans h.2⟩

theorem granted_runs {s s0 : State} {k : Nat} {t : Team} {align n : Nat} {va : DWord} {a : Acc} {ps : List Place} (h : Runs s k t)
    (g : Granted s k t align n va a s0 ps) : Runs s0 k t := g.missed ▸ noteMisses_runs h _

/-- R99: the bank that is not in use. -/
theorem inactive_bank (co : Core) : 1 - co.bank = if co.tabActive then 0 else 1 := by
  unfold Core.bank
  split <;> rfl

section Tables
variable {s : State} {k : Nat} {t : Team} {x : BitVec 5}

/-- R100: `tbld` is an access to the image, on a full register. -/
theorem tbld_good (h : Runs s k t) (q : Quiet s t) (full : FullS t [x.toNat]) :
    exec (.tbld x) s = .next (imageAccess s k t 16 4112 (t.rs x.toNat) .read fun s _ =>
      let co := coreOf s t.core
      if co.tabLoads ≠ [] ∨ co.tabSwap ≠ none ∨ co.tabWait.headD k ≠ k then waitHere (queueTab s t.core k)
      else finish (setCore s t.core { co with
        tabLoads := [(k, if co.tabActive then 0 else 1, (t.rs x.toNat).toNat)]
        tabWait := co.tabWait.drop 1 }) k t) := by
  have go := fun body => gated_good (k := k) (u := { srcS := [(x.toNat, false)] }) body q nofun full nofun nofun
  rw [exec_tbld, execTbld, withTeam_runs h, go]
  refine congrArg (fun body => Host.Outcome.next (imageAccess s k t 16 4112 (t.rs x.toNat) .read body)) (funext fun s1 => funext fun _ => ?_)
  have held : (!(coreOf s1 t.core).tabLoads.isEmpty || (coreOf s1 t.core).tabSwap.isSome || !(coreOf s1 t.core).myTurn k) = true ↔
      (coreOf s1 t.core).tabLoads ≠ [] ∨ (coreOf s1 t.core).tabSwap ≠ none ∨ (coreOf s1 t.core).tabWait.headD k ≠ k := by
    simp only [Core.myTurn, Bool.or_eq_true, Bool.not_eq_true', List.isEmpty_eq_false_iff, Option.isSome_iff_ne_none, beq_eq_false_iff_ne, or_assoc]
  simp only [held, inactive_bank]

/-- R101: `tbsw` waits for its turn, checks the inactive bank, and waits for the `tbev`s of its core; then it swaps the banks. -/
theorem tbsw_runs (h : Runs s k t) :
    let co := coreOf s t.core
    let wait := co.tabLoads ≠ [] ∨ (co.tabSwap ≠ none ∧ co.tabSwap ≠ some k) ∨ co.tabWait.headD k ≠ k
    let good := co.tabSwap = some k ∨ bit co.tabGood.toNat (if co.tabActive then 0 else 1) = true
    let busy := ∃ p ∈ s.producers, p.core = t.core ∧ p.table = true
    (wait → exec .tbsw s = .next (waitHere (queueTab s t.core k))) ∧
    (¬ wait → ¬ good → exec .tbsw s = .next (raise s k t cPOISON [])) ∧
    (¬ wait → good → busy → exec .tbsw s = .next (waitHere (queueTab (setCore s t.core { co with tabSwap := some k }) t.core k))) ∧
    (¬ wait → good → ¬ busy → exec .tbsw s = .next (finish (setCore s t.core { co with
      tabActive := !co.tabActive
      tabSwap := none
      tabWait := co.tabWait.drop 1 }) k t)) := by
  intro co wait good busy
  have waits : (!co.tabLoads.isEmpty || (co.tabSwap.isSome && co.tabSwap != some k) || !co.myTurn k) = true ↔ wait := by
    simp only [Core.myTurn, Bool.or_eq_true, Bool.and_eq_true, Bool.not_eq_true', List.isEmpty_eq_false_iff, Option.isSome_iff_ne_none, bne_iff_ne,
      beq_eq_false_iff_ne, or_assoc, wait]
  have bad : ¬ wait → ((co.tabSwap.isNone && !bit co.tabGood.toNat (1 - co.bank)) = true ↔ ¬ good) := by
    intro turn
    have mine : co.tabSwap = none ∨ co.tabSwap = some k := by
      by_contra other
      exact turn (.inr (.inl (not_or.1 other)))
    simp only [good, inactive_bank, Bool.and_eq_true, Option.isNone_iff_eq_none, Bool.not_eq_true', not_or, Bool.not_eq_true]
    rcases mine with free | held
    · simp [free]
    · simp [held]
  have evaluates : (s.producers.any fun p => p.core == t.core && p.table) = true ↔ busy := by simp [busy]
  have run : exec .tbsw s = .next (
      if (!co.tabLoads.isEmpty || (co.tabSwap.isSome && co.tabSwap != some k) || !co.myTurn k) = true then waitHere (queueTab s t.core k)
      else if (co.tabSwap.isNone && !bit co.tabGood.toNat (1 - co.bank)) = true then raise s k t cPOISON []
      else if (s.producers.any fun p => p.core == t.core && p.table) = true then
        waitHere (queueTab (setCore s t.core { co with tabSwap := some k }) t.core k)
      else finish (setCore s t.core { co with tabActive := !co.tabActive, tabSwap := none, tabWait := co.tabWait.drop 1 }) k t) :=
    withTeam_runs h _
  rw [run]
  refine ⟨fun w => ?_, fun w g => ?_, fun w g b => ?_, fun w g b => ?_⟩
  · rw [if_pos (waits.2 w)]
  · rw [if_neg (mt waits.1 w), if_pos ((bad w).2 g)]
  · rw [if_neg (mt waits.1 w), if_neg (fun e => (bad w).1 e g), if_pos (evaluates.2 b)]
  · rw [if_neg (mt waits.1 w), if_neg (fun e => (bad w).1 e g), if_neg (mt evaluates.1 b)]

end Tables

/-! ### `TABLE_LOAD_COMPLETE` (R100) -/

/-- R100: whether the first `n` words of a table image can be read now, and the machine that has asked for those that cannot. -/
def imageAsked (s : State) (core k va n : Nat) : State × Bool :=
  (List.range n).foldl (fun (a : State × Bool) i =>
    let r := imageReady a.1 core (bandKey k) (BitVec.ofNat 64 (va + 4 * i))
    (r.1, a.2 && r.2)) (s, true)

/-- R99, R100: a core whose oldest load has given a bank the words of an image. -/
def tableLoaded (co : Core) (rest : List (Nat × Nat × Nat)) (bank : Nat) (ws : List (Option Word)) : Core :=
  { co with
    tabLoads := rest
    tab := putMany 0 (fun i => (ws.getD (i % 2048) none).getD 0) (span (2048 * bank) 1028) co.tab
    tabGood := BitVec.ofNat 2 (setBits co.tabGood.toNat bank 1 (if ws.all Option.isSome then 1 else 0)) }

theorem good_setBits : ∀ (g : BitVec 2) (bank : Fin 2) (good : Bool),
    bit (BitVec.ofNat 2 (setBits g.toNat bank 1 (if good then 1 else 0))).toNat bank = good := by decide

/-- R100: a bank is good just where each word of the image could be read. -/
theorem good_tableLoaded (co : Core) (rest : List (Nat × Nat × Nat)) {bank : Nat} (ws : List (Option Word)) (inRange : bank < 2) :
    bit (tableLoaded co rest bank ws).tabGood.toNat bank = true ↔ ∀ w ∈ ws, w.isSome = true := by
  rw [tableLoaded, good_setBits co.tabGood ⟨bank, inRange⟩ (ws.all Option.isSome), List.all_eq_true]

/-- R99: the words of the bank are those of the image, and the other bank's are as they were. -/
theorem look_tableLoaded (co : Core) (rest : List (Nat × Nat × Nat)) (bank : Nat) (ws : List (Option Word)) (j : Nat) :
    look 0 (tableLoaded co rest bank ws).tab j =
      if 2048 * bank ≤ j ∧ j < 2048 * bank + 1028 then (ws.getD (j - 2048 * bank) none).getD 0 else look 0 co.tab j := by
  simp only [tableLoaded, look_putMany, mem_span]
  split
  · next inside => rw [show j % 2048 = j - 2048 * bank by omega]
  · rfl

section Load
variable {s : State} {core k bank va : Nat} {rest : List (Nat × Nat × Nat)}

/-- R100: a load whose image has words that are not there yet asks for them, and one whose image can be read ends: its bank holds the image. -/
theorem tableLoadComplete_eq (oldest : (coreOf s core).tabLoads = (k, bank, va) :: rest) :
    ((imageAsked s core k va 1028).2 = false → exec (.tableLoadComplete core) s = .next (imageAsked s core k va 1028).1) ∧
    ∀ s2 ws, (imageAsked s core k va 1028).2 = true →
      readImage (imageAsked s core k va 1028).1 core (bandKey k) ((coreOf s core).tenant.getD 0) (BitVec.ofNat 64 va) 1028 = (s2, ws) →
      exec (.tableLoadComplete core) s = .next (setCore s2 core (tableLoaded (coreOf s2 core) rest bank ws)) := by
  rw [exec_tableLoadComplete, execTableLoadComplete]
  split
  · next empty => rw [empty] at oldest; cases oldest
  · next listed =>
    rw [listed] at oldest
    cases oldest
    split
    next s1 ok asked =>
      change imageAsked s core k va 1028 = (s1, ok) at asked
      rw [asked]
      refine ⟨fun waits => if_pos (by simpa using waits), fun s2 ws ready read => ?_⟩
      rw [if_neg (by simpa using ready), read]
      rfl

/-- R100, R105: the words of an image in a scratchpad can be read at once. -/
theorem imageAsked_pad {c o n : Nat}
    (granted : ∀ i < n, checkAddr s core (bandKey k) 4 (BitVec.ofNat 64 va + BitVec.ofNat 64 (4 * i)) .read = .go (.pad c (o + 4 * i))) :
    imageAsked s core k va n = (s, true) := by
  unfold imageAsked
  induction n with
  | zero => rfl
  | succ n ih =>
    have ready : imageReady s core (bandKey k) (BitVec.ofNat 64 (va + 4 * n)) = (s, true) := by
      rw [imageReady, BitVec.ofNat_add, granted n (Nat.lt_succ_self n)]
    rw [List.range_succ, List.foldl_append, ih fun i inRange => granted i (Nat.lt_succ_of_lt inRange), List.foldl_cons, List.foldl_nil, ready]
    rfl

/-- R105: a good word of a scratchpad reads as what it holds, and reading it changes nothing. -/
theorem readPlace_pad {c o : Nat} (tenant hint : Nat) (good : PadGood s c (o / 4)) :
    readPlace s core tenant hint (.pad c o) = (s, .ok (look 0 (crewOf s c).pad (o / 4))) := by
  obtain ⟨unpoisoned, sound⟩ := good
  have kept : tendPad s c o = s := if_pos (by rw [sound]; rfl)
  have known : ((crewOf s c).padPoison.contains (o / 4) || (crewOf s c).padEcc.bad.contains (o / 4)) = false := by rw [unpoisoned, sound]; rfl
  rw [readPlace, kept, padDatum, if_neg (by rw [known]; exact Bool.false_ne_true)]

/-- R105: what `n` words of a scratchpad read as, from word `w` on. -/
def padImage (s : State) (c w n : Nat) : List (Option Word) := (List.range n).map fun i => some (look 0 (crewOf s c).pad (w + i))

theorem isSome_padImage {c w n : Nat} {x : Option Word} (listed : x ∈ padImage s c w n) : x.isSome = true := by
  obtain ⟨i, -, rfl⟩ := List.mem_map.1 listed
  rfl

theorem getD_padImage (s : State) (c w : Nat) {n i : Nat} (inRange : i < n) :
    ((padImage s c w n).getD i none).getD 0 = look 0 (crewOf s c).pad (w + i) := by
  simp [padImage, inRange]

theorem readImage_pad {c o : Nat} (tenant n : Nat) (base : DWord) (aligned : o % 4 = 0)
    (granted : ∀ i < n, checkAddr s core (bandKey k) 4 (base + BitVec.ofNat 64 (4 * i)) .read = .go (.pad c (o + 4 * i)) ∧ PadGood s c (o / 4 + i)) :
    readImage s core (bandKey k) tenant base n = (s, padImage s c (o / 4) n) := by
  unfold readImage padImage
  induction n with
  | zero => rfl
  | succ n ih =>
    obtain ⟨go, good⟩ := granted n (Nat.lt_succ_self n)
    have place : (o + 4 * n) / 4 = o / 4 + n := by omega
    rw [List.range_succ, List.foldl_append, ih fun i inRange => granted i (Nat.lt_succ_of_lt inRange), List.foldl_cons, List.foldl_nil, go,
      List.map_append, List.map_cons, List.map_nil]
    simp only [readPlace_pad tenant 0 (place ▸ good), place]

end Load

/-! ### `rbal` (R211) -/

/-- R211: an element falls to the first list where that is long enough, and else to one of the others. -/
theorem jobOf_cons (n : Nat) (ns : List Nat) (e : Nat) :
    jobOf (n :: ns) e = if e < n then some (0, e) else (jobOf ns (e - n)).map fun x => (x.1 + 1, x.2) := by
  unfold jobOf
  rw [List.length_cons, List.range_succ_eq_map, List.find?_cons]
  by_cases here : e < n
  · simp [here]
  · have later : ∀ r, (decide (e < ((n :: ns).take (r + 1 + 1)).sum)) = decide (e - n < (ns.take (r + 1)).sum) := fun r => by
      rw [List.take_succ_cons, List.sum_cons, decide_eq_decide]
      omega
    simp only [here, if_false, List.find?_map, Function.comp_def, Nat.succ_eq_add_one, later]
    simp [here, Option.map_map, Function.comp_def, Nat.sub_sub]

theorem dealJob_eq (ns : List Nat) (lane e : Nat) : dealJob ns lane e = (jobOf ns e).map fun x => (lane + x.1, x.2) := by
  induction ns generalizing lane e with
  | nil => rfl
  | cons n ns ih =>
    rw [dealJob, jobOf_cons]
    split
    · rfl
    · rw [ih, Option.map_map]
      simp only [Function.comp_def, Nat.add_assoc, Nat.add_comm 1]

/-- R211: how many jobs each lane's list has: those of a lane that is not active count for nothing. -/
def jobCounts (t : Team) (y : Nat) : List Nat := (List.range t.lanes).map fun M => if bit t.mask.toNat M then (t.rv y M).toNat else 0

/-- R211: the value that `rbal` gives to a job: its owner and its index, or the owner that is none. -/
def jobValue : Option (Nat × Nat) → Nat
  | some (r, i) => r + i * 2 ^ 32
  | none => 0xFFFFFFFF

theorem rbal_good {s : State} {k : Nat} {t : Team} {x y : BitVec 6} {c : BitVec 5} (h : Runs s k t) (q : Quiet s t)
    (okX : t.okV true x.toNat = true) (okY : t.okV false y.toNat = true) (full : FullV t (y.toNat :: pair true x.toNat))
    (scalar : FullS t [c.toNat]) :
    LanesWritten s k t true x.toNat (fun L => (jobValue (jobOf (jobCounts t y.toNat) ((t.rs c.toNat).toNat + L)), 0)) (exec (.rbal x y c) s) := by
  have go := fun body => gated_good (k := k) (u := {
    srcV := [(y.toNat, false)], srcS := [(c.toNat, false)], preds := [t.guardReg], dstV := pair true x.toNat, lanes := t.present })
    body q (fullV_left (bs := pair true x.toNat) full) scalar (fullV_right (as := [y.toNat]) full) nofun
  rw [exec_rbal, execRbal, withTeam_runs h]
  simp only [okX, okY, Bool.and_self, Bool.not_true, Bool.false_eq_true, if_false, go]
  rw [List.map_congr_left (l := laneList t t.present)
    (g := fun L => (L, jobValue (jobOf (jobCounts t y.toNat) ((t.rs c.toNat).toNat + L)))) fun L _ => ?lane]
  case lane =>
    rw [← jobCounts, dealJob_eq]
    cases jobOf (jobCounts t y.toNat) ((t.rs c.toNat).toNat + L) with
    | none => rfl
    | some job => simp only [Option.map_some, Nat.zero_add, jobValue]
  exact lanesWritten_finish s k t true x.toNat fun L => jobValue (jobOf (jobCounts t y.toNat) ((t.rs c.toNat).toNat + L))

/-! ### `shpld` (R222) -/

theorem imageWords_ready {s : State} {k : Nat} {t : Team} {ps : List Place} (ready : placesReady s t.core ps = true)
    (f : State → List Datum → State) : imageWords s k t ps f = f (readPlaces s k t ps).1 (readPlaces s k t ps).2 := by
  simp [imageWords, ready]

theorem imageWords_asks {s : State} {k : Nat} {t : Team} {ps : List Place} (unready : placesReady s t.core ps = false)
    (f : State → List Datum → State) : imageWords s k t ps f = waitHere (askPlaces s ps) := by
  simp [imageWords, unready]

/-- Words that are all good have no first fault. -/
theorem find?_fault_good (ws : List Word) : ((ws.map Datum.ok).zipIdx.find? fun d => d.1.cause ≠ 0) = none := by
  rw [List.find?_eq_none]
  rintro ⟨d, i⟩ listed
  obtain ⟨w, -, rfl⟩ := List.mem_map.1 (List.fst_mem_of_mem_zipIdx listed)
  simp [Datum.cause]

/-- The first of the words that cannot be read, with its place. -/
theorem find?_fault {ds : List Datum} {i : Nat} {d : Datum} (here : ds[i]? = some d) (faulty : d.cause ≠ 0)
    (before : ∀ j < i, ∀ e, ds[j]? = some e → e.cause = 0) (n : Nat) : ((ds.zipIdx n).find? fun d => d.1.cause ≠ 0) = some (d, n + i) := by
  induction ds generalizing i n with
  | nil => simp at here
  | cons e ds ih =>
    cases i with
    | zero =>
      cases here
      simp [faulty]
    | succ i =>
      have good : e.cause = 0 := before 0 (Nat.zero_lt_succ i) e rfl
      rw [List.zipIdx_cons, List.find?_cons_of_neg (by simp [good]), ih here (fun j earlier e at_ => before (j + 1) (Nat.succ_lt_succ earlier) e at_),
        Nat.add_right_comm, Nat.add_assoc]

/-- R222: the words of an entry that make a shape: its rank, and an extent for each dimension but the outermost. -/
def IsShape (w : Nat → Nat) : Prop := 1 ≤ w 0 ∧ w 0 ≤ 5 ∧ w 1 = 0 ∧ w 6 = 0 ∧ w 7 = 0 ∧ ∀ i, i + 1 < w 0 → w (2 + i) ≠ 0

/-- R222: the checks of `shpld`, which read the rank from the low byte of the first word. -/
theorem not_isShape_iff {w : Nat → Nat} (word : w 0 < 2 ^ 32) :
    (bits (w 0) 0 8 = 0 ∨ bits (w 0) 0 8 > 5 ∨ bits (w 0) 8 24 ≠ 0 ∨ w 1 ≠ 0 ∨ w 6 ≠ 0 ∨ w 7 ≠ 0 ∨
      ((List.range (bits (w 0) 0 8 - 1)).any fun i => w (2 + i) == 0) = true) ↔ ¬ IsShape w := by
  by_cases rank : 1 ≤ w 0 ∧ w 0 ≤ 5
  · have low : bits (w 0) 0 8 = w 0 := by unfold bits; omega
    have high : bits (w 0) 8 24 = 0 := by unfold bits; omega
    have extents : ((List.range (w 0 - 1)).any fun i => w (2 + i) == 0) = true ↔ ¬ ∀ i, i + 1 < w 0 → w (2 + i) ≠ 0 := by
      simp only [List.any_eq_true, List.mem_range, beq_iff_eq, not_forall, not_not, Nat.lt_sub_iff_add_lt, exists_prop]
    rw [low, high, extents, IsShape]
    have : w 0 ≠ 0 := by omega
    have : ¬ w 0 > 5 := by omega
    tauto
  · have outside : bits (w 0) 0 8 = 0 ∨ bits (w 0) 0 8 > 5 ∨ bits (w 0) 8 24 ≠ 0 := by unfold bits; omega
    have noShape : ¬ IsShape w := fun ⟨least, most, _⟩ => rank ⟨least, most⟩
    tauto

/-- R222: the rank of a shape fits the byte that `shpld` reads it from. -/
theorem IsShape.rank_byte {w : Nat → Nat} (shape : IsShape w) : bits (w 0) 0 8 = w 0 := by
  obtain ⟨-, most, -⟩ := shape
  unfold bits
  omega

/-- R222: the words of an entry as numbers, and the extents that its rank asks for. -/
def shapeField (ws : List Word) (i : Nat) : Nat := (ws.getD i 0).toNat
def shapeExtent (w : Nat → Nat) (i : Nat) : Nat := if i + 1 < w 0 then w (2 + i) else 0

/-- R222: what `shpld` issues: the rank, the four multipliers and the extents. -/
def shapeProducer (k core x : Nat) (w : Nat → Nat) : Producer :=
  let e := shapeExtent w
  { team := k, core := core, sregs := [(x, BitVec.ofNat 64 (w 0)), (x + 1, shapeMul (e 0)), (x + 2, shapeMul (e 1)), (x + 3, shapeMul (e 2)),
    (x + 4, shapeMul (e 3)), (x + 5, BitVec.ofNat 64 (e 0 + e 1 * 2 ^ 32)), (x + 6, BitVec.ofNat 64 (e 2 + e 3 * 2 ^ 32))] }

/-- R110, R222: the fault that the seven registers of `shpld` carry together, and the team that carries it. -/
def shapeFault (x cause : Nat) (va : DWord) : DataFault := { cause := cause, regs := span x 7, recs := [record 0 cause va] }
def carryShape (t : Team) (x : Nat) (f : DataFault) : Team :=
  { t.emptyS (span x 7) with sFault := putMany {} (fun _ => f) ((span x 7).filter fun r => r != 0) t.sFault }

theorem lookup_carryShape (t : Team) (x cause : Nat) (va : DWord) {r : Nat} (listed : r ∈ span x 7) (nonzero : r ≠ 0) :
    (carryShape t x (shapeFault x cause va)).sFault.lookup r = some (shapeFault x cause va) := by
  have some : shapeFault x cause va ≠ {} := fun e => nomatch congrArg DataFault.regs e
  rw [carryShape, lookup_putMany _ some, if_pos (List.mem_filter.2 ⟨listed, by simpa using nonzero⟩)]

/-- R222: `shpld` on good registers, from an entry that the team may read. -/
theorem shpld_granted {s s0 : State} {k : Nat} {t : Team} {x y : BitVec 5} {ps : List Place} (h : Runs s k t) (q : Quiet s t) (inRange : x.toNat ≤ 25)
    (full : FullS t (y.toNat :: span x.toNat 7)) (g : Granted s k t 8 32 (t.rs y.toNat) .read s0 ps) :
    WordsRead s0 k t ps (exec (.shpld x y) s) fun s1 ds =>
      (∀ ws : List Word, ds = ws.map Datum.ok →
        (¬ IsShape (shapeField ws) → exec (.shpld x y) s = .next (raise s1 k t cBOUNDS [record 0 cBOUNDS (t.rs y.toNat)])) ∧
        (IsShape (shapeField ws) → exec (.shpld x y) s = .next (startProducer s1 k t (shapeProducer k t.core x.toNat (shapeField ws))))) ∧
      (∀ i d, ds[i]? = some d → d.cause ≠ 0 → (∀ j < i, ∀ e, ds[j]? = some e → e.cause = 0) →
        exec (.shpld x y) s = .next (finish s1 k (carryShape t x.toNat
          (shapeFault x.toNat d.cause (t.rs y.toNat + BitVec.ofNat 64 (4 * i)))))) := by
  have go := fun body => gated_good (k := k) (u := { srcS := [(y.toNat, false)], dstS := span x.toNat 7 }) body q nofun
    (fun r hr => full r (List.mem_cons.2 (.inl (List.mem_singleton.1 hr)))) nofun fun r hr => full r (List.mem_cons_of_mem _ hr)
  have runs := readPlaces_runs (granted_runs h g) ps
  rw [exec_shpld, execShpld, withTeam_runs h, if_neg (by omega), go, imageAccess_granted g]
  refine ⟨fun unready => by rw [imageWords_asks unready], fun ready => ?_⟩
  rw [imageWords_ready ready]
  generalize readPlaces s0 k t ps = r at runs ⊢
  obtain ⟨s1, ds⟩ := r
  refine ⟨?_, fun i d here faulty before => ?_⟩
  · rintro ws rfl
    have field : ∀ i, (ws.getD i 0).toNat = shapeField ws i := fun _ => rfl
    have checks := not_isShape_iff (w := shapeField ws) (ws.getD 0 0).isLt
    simp only [find?_fault_good, List.getD_map, field]
    refine ⟨fun bad => ?_, fun shape => ?_⟩
    · rw [if_pos (checks.2 bad), refuse1, refuse_runs runs]
    · rw [if_neg (mt checks.1 (not_not.2 shape)), shape.rank_byte]
      rfl
  · simp only [find?_fault here faulty before, Nat.zero_add]
    rfl

/-- Settles O35: the tables by their turns and their images, `rbal` by the lists' jobs, and `shpld` by the words of its entry. -/
theorem tablesAndShapesComplete : Obligations.TablesAndShapesComplete := by
  refine ⟨⟨fun s k t x h q free full => ?tbld, fun s k t h => tbsw_runs h, fun s core => ⟨fun idle => ?idle, fun k bank va rest oldest => ?load⟩,
    fun s k core bank va c o rest oldest inRange aligned granted => ?pad⟩, fun s k t h q => ⟨?rbal, fun x y => ⟨?illop, ?shpld⟩⟩⟩
  case tbld =>
    refine ⟨fun c fails => ?_, fun s0 ps g => ?_⟩
    · rw [tbld_good h q full, imageAccess_fault free fails, refuse_runs (noteMisses_runs h _)]
      rfl
    · rw [tbld_good h q full, imageAccess_granted g]
  case idle => rw [exec_tableLoadComplete, execTableLoadComplete, idle]
  case load =>
    intro asked r
    have asks : asked = imageAsked s core k va 1028 := rfl
    obtain ⟨waits, loads⟩ := tableLoadComplete_eq oldest
    rw [← asks] at waits loads
    obtain ⟨s2, ws, read⟩ : ∃ s2 ws, r = (s2, ws) := ⟨r.1, r.2, Prod.mk.eta.symm⟩
    rw [read]
    exact ⟨waits, fun ready inRange => ⟨_, loads s2 ws ready read, rfl, good_tableLoaded _ rest ws inRange, look_tableLoaded _ rest bank ws⟩⟩
  case pad =>
    obtain ⟨-, loads⟩ := tableLoadComplete_eq oldest
    rw [imageAsked_pad fun i inside => (granted i inside).1] at loads
    obtain ⟨ws, held⟩ : ∃ ws, ws = padImage s c (o / 4) 1028 := ⟨_, rfl⟩
    refine ⟨_, loads s ws rfl ?_, rfl, ?_⟩
    · rw [held]
      exact readImage_pad _ 1028 (BitVec.ofNat 64 va) aligned granted
    · rw [coreOf_setCore, if_pos rfl]
      refine ⟨rfl, (good_tableLoaded _ rest ws inRange).2 fun w listed => ?_, ?_, fun j => ?_⟩
      · rw [held] at listed
        exact isSome_padImage listed
      · simp only [tableLoaded]
      · rw [look_tableLoaded]
        refine ite_congr rfl (fun inside => ?_) fun _ => rfl
        rw [held, getD_padImage s c _ (by omega)]
  case rbal =>
    intro x y c okX okY full scalar
    exact rbal_good h q okX okY full scalar
  case illop =>
    intro beyond
    rw [exec_shpld, execShpld, withTeam_runs h, if_pos beyond]
    rfl
  case shpld =>
    intro inRange full s0 ps g
    obtain ⟨asks, reads⟩ := shpld_granted h q inRange full g
    refine ⟨asks, fun ready => ?_⟩
    obtain ⟨words, fault⟩ := reads ready
    refine ⟨fun ws good => ?_, fun i d here faulty before => ?_⟩
    · exact words ws good
    · exact ⟨_, fault i d here faulty before, rfl, rfl, fun r listed nonzero => lookup_carryShape t x.toNat d.cause _ listed nonzero⟩

end Sys2Proof.Machine
end

section
/-! SUPPORT. Three statements of memory instructions that fail. A load and an atomic of two pages whose checks both pass have to wait where one
walker is free for their two walks (R107, R376); and an atomic that sends its core's dirty copy of the word home can make the home's cache write
another superblock back to memory (R121, R133). -/

namespace Sys2Proof.Machine

/-! ### A load and an atomic that have to wait for a walker -/

/-- Where team `k` is after a step. -/
def pcAfter (k : Nat) (out : Out) : Option DWord := (teamAfter k out).map fun t => t.pc

/-- `ld v0, [s9 + v1]`. -/
def twoPageLoad : Instr := .ldVectorOffset 0 9 1 0 0

/-- What the load names. -/
def twoPageLoadUse : MemUse :=
  { ord := 0, scope := 0, width := 4, addrs := [(0, 0x100000), (1, 0x110000)], vs := [1, 0], ss := [9], dst := .vec 0 false }

theorem twoPageLoad_use : loadUse twoPageTeam twoPageLoad = some twoPageLoadUse := by
  have addrs : offsetAddrs twoPageTeam 9 1 (laneList twoPageTeam twoPageTeam.present) = twoPageLoadUse.addrs := by decide +kernel
  have narrow : twoPageTeam.wideType = some false := by decide +kernel
  have inRange : (twoPageTeam.okV false (0 : BitVec 6).toNat && twoPageTeam.okV false (1 : BitVec 6).toNat) = true := by decide +kernel
  unfold twoPageLoad loadUse
  simp only [narrow, Option.bind_some, inRange, if_true, widthOf, Bool.false_eq_true, if_false]
  exact congrArg (fun as => some { twoPageLoadUse with addrs := as }) addrs

/-- Each lane's check passes by itself. -/
theorem twoPageLoad_granted : ∀ x ∈ twoPageLoadUse.addrs,
    checkAddr oneWalkerFree twoPageTeam.core (bandKey 0) twoPageLoadUse.width x.2 .read = .go (twoPagePlace x.1) := by
  decide +kernel

/-- The load waits for a walker. -/
theorem twoPageLoad_stays : pcAfter 0 (exec twoPageLoad oneWalkerFree) = some 0 := by decide +kernel

/-- Refutes O15: the statement asks that each address be granted before the misses of the load are noted, and noting them can take the walkers
that the granted addresses need. -/
theorem not_loadsIssue : ¬ Obligations.LoadsIssue := by
  unfold Obligations.LoadsIssue
  rintro ⟨h, -⟩
  have issues := h twoPageLoad oneWalkerFree 0 twoPageTeam twoPageLoadUse twoPagePlace ⟨rfl, rfl⟩ (by decide +kernel) ⟨rfl, rfl⟩ rfl twoPageLoad_use
    rfl (by decide +kernel) (by decide +kernel) twoPageLoad_granted
  have stays := twoPageLoad_stays
  rw [issues] at stays
  exact absurd stays (by decide +kernel)

/-- `aadd v0, [s9 + v1]` at device scope. -/
def twoPageAtomic : Instr := .aadd 0 9 1 0 4 false

theorem twoPageAtomic_may : AtomMay oneWalkerFree 0 twoPageTeam 0 0 4 (.int true 32) (pair false 0 ++ [1]) 9 where
  runs := ⟨rfl, rfl⟩
  quiet := by decide +kernel
  free := ⟨rfl, rfl⟩
  unwatched := rfl
  legal := by decide
  typed := ⟨_, rfl⟩
  width := .inl rfl
  vectors := by decide +kernel
  base := by decide +kernel
  published := nofun

/-- The atomic waits for a walker. -/
theorem twoPageAtomic_stays : pcAfter 0 (exec twoPageAtomic oneWalkerFree) = some 0 := by decide +kernel

/-- Refutes O18: like a load's, the addresses of an atomic are granted before its misses are noted, and noting those of two pages can take the
walker that the second page needs. -/
theorem not_atomicsComplete : ¬ Obligations.AtomicsComplete := by
  unfold Obligations.AtomicsComplete
  rintro ⟨h, -⟩
  obtain ⟨-, atHomes, -⟩ := h twoPageAtomic 0 0 9 1 0 4 rfl oneWalkerFree 0 twoPageTeam (.int true 32) twoPageAtomic_may (by decide +kernel)
    (by decide +kernel) nofun
  obtain ⟨s', t', -, issues, team, next, -⟩ := atHomes (fun L => (0x100000 + 0x10000 * L, 0, false)) rfl (by decide +kernel) (by decide +kernel)
    (by decide +kernel) nofun (by decide +kernel)
  have stays := twoPageAtomic_stays
  rw [issues, pcAfter, teamAfter, team, Option.map_some, next] at stays
  exact absurd stays (by decide +kernel)

/-! ### An atomic whose dirty copy goes home -/

/-- A superblock whose first word is dirty and holds 5. -/
def dirtyWord : Blk := { valid := 1, dirty := 1, words := [(0, 5)] }

/-- Sixteen dirty superblocks of DRAM that fill the set of 0x1000 in the cache of its home. -/
def fullHomeSet : NMap Blk := (List.range 16).map fun i => (16 * (1 + 16384 * (i + 1)), { dirtyWord with way := i })

/-- A team of one lane; s9 points at 0x1000. -/
def sheddingTeam : Team := { mask := 1, live := 1, s := [(9, 0x1000)] }

/-- Its core has written the word at 0x1000, whose home has no room for it. -/
def sheddingMachine : State :=
  { teams := [(0, sheddingTeam)], bands := [(0, {})], cur := some 0
    cores := [(0, { tlb := [{ w := true }], l1 := [(16, dirtyWord)] })]
    drams := [(1, { msc := fullHomeSet })] }

/-- `ared.add v0, [s9]` at device scope. -/
def sheddingAred : Instr := .ared 0 9 0 0 4 false

/-- The memory behind the caches after a step. -/
def memAfter : Out → Option Memory
  | .next s => some s.mem
  | _ => none

theorem sheddingAred_may : AtomMay sheddingMachine 0 sheddingTeam 0 0 4 (.int true 32) (pair false 0) 9 where
  runs := ⟨rfl, rfl⟩
  quiet := by decide +kernel
  free := ⟨rfl, rfl⟩
  unwatched := rfl
  legal := by decide
  typed := ⟨_, rfl⟩
  width := .inl rfl
  vectors := by decide +kernel
  base := by decide +kernel
  published := nofun

/-- The core's copy is written to its home, and the first superblock of the set goes to memory to make room. -/
theorem sheddingAred_writes_memory : memAfter (exec sheddingAred sheddingMachine) = some [(0x4001000, 5)] := by decide +kernel

/-- Refutes O19: the statement asks that an `ared` that issues leave memory as it is. One whose core holds the word dirty first publishes it to its
home, whose cache can have to write another superblock back. -/
theorem not_aredCompletes : ¬ Obligations.AredCompletes := by
  unfold Obligations.AredCompletes
  rintro ⟨h, -⟩
  obtain ⟨-, atHome⟩ := h sheddingMachine 0 sheddingTeam 0 0 9 0 4 false (.int true 32) _ sheddingAred_may rfl (by decide) (by decide +kernel)
  obtain ⟨s', t', q, issues, -, -, -, -, -, -, -, -, -, kept⟩ := atHome 0x1000 0 false rfl (by decide +kernel) (by decide +kernel) (by decide +kernel)
    (by decide +kernel) nofun (by decide +kernel)
  have written := sheddingAred_writes_memory
  rw [sheddingAred, issues, memAfter, kept] at written
  exact absurd written (by decide)

end Sys2Proof.Machine
end

section
/-! SUPPORT. Words of scratchpads and of caches: what a word reads as after a store, a hit or an allocation (R12, R14, R105, R132), and the
stored words of O17. -/

namespace Sys2Proof.Machine

/-! ### The bits of a superblock -/

theorem bit_setBit64 (m : BitVec 64) {i : Nat} (inRange : i < 64) (b : Bool) (j : Nat) :
    bit (setBit64 m i b).toNat j = if j = i then b else bit m.toNat j := by
  have single : (BitVec.ofNat 64 (2 ^ i)).getLsbD j = decide (j = i) := by
    rw [BitVec.getLsbD_ofNat, Nat.testBit_two_pow]
    by_cases same : j = i
    · simp [same, inRange]
    · simp [same, Ne.symm same]
  simp only [bit_toNat]
  cases b
  · rw [setBit64, if_neg (by simp), BitVec.getLsbD_and, BitVec.getLsbD_not, single]
    by_cases same : j = i
    · simp [same]
    · by_cases inside : j < 64
      · simp [same, inside]
      · simp [same, inside, BitVec.getLsbD_of_ge m j (by omega)]
  · rw [setBit64, if_pos rfl, BitVec.getLsbD_or, single]
    by_cases same : j = i <;> simp [same]

theorem wordIx_lt (pa : Nat) : wordIx pa < 64 := Nat.mod_lt _ (by decide)

/-! ### What a superblock gives for a word -/

/-- The word that a superblock holds valid, if it does. -/
def Blk.read (b : Blk) (i : Nat) : Option Datum :=
  if b.has i && !(bit b.bad.toNat i && !b.isDirty i) then some (if bit b.bad.toNat i then .poison else b.datum i) else none

theorem held_eq (c : NMap Blk) (pa : Nat) : held c pa = (blk c (pa / 256)).bind fun b => b.read (wordIx pa) := by
  unfold held
  cases blk c (pa / 256) <;> rfl

theorem heldDirty_of_blk {c : NMap Blk} {pa : Nat} {b : Blk} (found : blk c (pa / 256) = some b) : heldDirty c pa = b.isDirty (wordIx pa) := by
  rw [heldDirty, found]

theorem isDirty_put {i : Nat} (inRange : i < 64) (b : Blk) (w : Word) (poison dirty cp : Bool) : (b.put i w poison dirty cp).isDirty i = dirty := by
  rw [Blk.isDirty, Blk.put, bit_setBit64 _ inRange, if_pos rfl]

theorem read_put {i : Nat} (inRange : i < 64) (b : Blk) (w : Word) (poison dirty cp : Bool) :
    (b.put i w poison dirty cp).read i = some (if poison then .poison else .ok w) := by
  simp only [Blk.read, Blk.has, Blk.isDirty, Blk.datum, Blk.put, bit_setBit64 _ inRange, look_putAt, if_true]
  rfl

theorem read_put_ne {i j : Nat} (inRange : i < 64) (other : j ≠ i) (b : Blk) (w : Word) (poison dirty cp : Bool) :
    (b.put i w poison dirty cp).read j = b.read j := by
  simp only [Blk.read, Blk.has, Blk.isDirty, Blk.datum, Blk.put, bit_setBit64 _ inRange, look_putAt, if_neg other]
  rfl

theorem read_hit (b : Blk) (i hint j : Nat) : (b.hit i hint).read j = b.read j := by
  unfold Blk.hit
  dsimp only
  repeat' split
  all_goals rfl

theorem read_enter (b : Blk) (now : Nat) (write : Bool) (i hint j : Nat) : (b.enter now write i hint).read j = b.read j := by
  unfold Blk.enter
  repeat' split
  · exact read_hit b i hint j
  · rfl
  · rfl

theorem read_newBlk (now hint dflt key way j : Nat) : Blk.read { newBlk now hint dflt key with way := way } j = none := by
  simp [Blk.read, Blk.has, newBlk, bit]

theorem blk_setAt (c : NMap Blk) (sb sb' : Nat) (b : Blk) : blk (setAt c sb b) sb' = if sb' = sb then some b else blk c sb' := lookup_setAt c sb sb' b

/-! ### A core's L1 -/

theorem l1Of_setL1 (s : State) (core core' : Nat) (c : NMap Blk) : l1Of (setL1 s core c) core' = if core' = core then c else l1Of s core' := by
  simp only [l1Of, setL1, look_setAt]
  split <;> rfl

theorem dropCode_l1 (c : Core) (p : Nat → Bool) : (c.dropCode p).l1 = c.l1 := by
  unfold Core.dropCode
  split <;> rfl

/-- The L1 of `core` is as it was but for superblock `sb`, which is now `b`; no other core's L1 has changed. -/
structure OnlyBlk (s s' : State) (core sb : Nat) (b : Blk) : Prop where
  cores : ∀ c, c ≠ core → l1Of s' c = l1Of s c
  here : blk (l1Of s' core) sb = some b
  others : ∀ x, x ≠ sb → blk (l1Of s' core) x = blk (l1Of s core) x

theorem onlyBlk_setL1 {s s' : State} {core sb : Nat} {b : Blk} (h : OnlyBlk s s' core sb b) (b' : Blk) :
    OnlyBlk s (setL1 s' core (setAt (l1Of s' core) sb b')) core sb b' where
  cores c other := by rw [l1Of_setL1, if_neg other, h.cores c other]
  here := by rw [l1Of_setL1, if_pos rfl, blk_setAt, if_pos rfl]
  others x other := by rw [l1Of_setL1, if_pos rfl, blk_setAt, if_neg other, h.others x other]

/-- The superblock is there, or its set has room for it. -/
def HasRoom (c : NMap Blk) (sb : Nat) : Prop := (blk c sb).isSome = true ∨ (setOf .l1 c (Level.set .l1 sb)).length < 16

/-- Where there is room, no superblock leaves, and the one that is made ready holds the words that it held. -/
theorem l1Ensure_room {s : State} {core pa : Nat} (room : HasRoom (l1Of s core) (pa / 256)) (key hint : Nat) :
    ∃ b cores, l1Ensure s core pa key hint = { s with cores := cores } ∧ OnlyBlk s (l1Ensure s core pa key hint) core (pa / 256) b ∧
      ∀ i, b.read i = (blk (l1Of s core) (pa / 256)).bind fun b => b.read i := by
  cases found : blk (l1Of s core) (pa / 256) with
  | some b =>
    have same : l1Ensure s core pa key hint = s := by rw [l1Ensure, found]
    rw [same]
    exact ⟨b, s.cores, rfl, ⟨fun _ _ => rfl, found, fun _ _ => rfl⟩, fun _ => rfl⟩
  | none =>
    have short : (setOf .l1 (l1Of s core) (Level.set .l1 (pa / 256))).length < 16 := by
      rcases room with there | short
      · rw [found] at there; cases there
      · exact short
    obtain ⟨b, enters, empty⟩ : ∃ b, l1Ensure s core pa key hint = setL1 s core (setAt (l1Of s core) (pa / 256) b) ∧ ∀ i, b.read i = none :=
      ⟨_, by rw [l1Ensure, found, allocate, if_pos short], fun i => read_newBlk _ _ _ _ _ i⟩
    rw [enters]
    refine ⟨b, _, rfl, ⟨fun c other => ?_, ?_, fun x other => ?_⟩, empty⟩
    · rw [l1Of_setL1, if_neg other]
    · rw [l1Of_setL1, if_pos rfl, blk_setAt, if_pos rfl]
    · rw [l1Of_setL1, if_pos rfl, blk_setAt, if_neg other]

/-- What a store of a word does before the word's superblock is made ready (R12, R13) leaves every L1 as it is. -/
theorem l1Of_storedOver (s : State) (core pa : Nat) (w : Word) (p : Nat → Bool) (c : Nat) :
    l1Of (storedOver (killMisses { s with cores := setAt s.cores core ((look {} s.cores core).dropCode p) } core pa) core pa w) c = l1Of s c := by
  show (look {} (setAt s.cores core _) c).l1 = _
  rw [look_setAt]
  split
  · next same => rw [dropCode_l1, same, l1Of]
  · rfl

/-- A superblock after a store of a word (R14). -/
def Blk.store (b : Blk) (now i hint key launch : Nat) (w : Word) (gone cp : Bool) : Blk :=
  { (b.enter now true i hint).put i w gone true cp with launch := launch, key := key }

theorem read_store {i : Nat} (inRange : i < 64) (b : Blk) (now hint key launch : Nat) (w : Word) (gone cp : Bool) :
    (b.store now i hint key launch w gone cp).read i = some (if gone then .poison else .ok w) :=
  read_put inRange (b.enter now true i hint) w gone true cp

theorem isDirty_store {i : Nat} (inRange : i < 64) (b : Blk) (now hint key launch : Nat) (w : Word) (gone cp : Bool) :
    (b.store now i hint key launch w gone cp).isDirty i = true :=
  isDirty_put inRange (b.enter now true i hint) w gone true cp

theorem read_store_ne {i j : Nat} (inRange : i < 64) (other : j ≠ i) (b : Blk) (now hint key launch : Nat) (w : Word) (gone cp : Bool) :
    (b.store now i hint key launch w gone cp).read j = b.read j :=
  (read_put_ne inRange other (b.enter now true i hint) w gone true cp).trans (read_enter b now true i hint j)

/-- A store into an L1 that has room changes the word's superblock, which holds the word and its other words as they were; beside caches it
changes only what brings words to the core (R12, R13). -/
theorem l1Write_room {s s' : State} {core pa : Nat} (room : HasRoom (l1Of s core) (pa / 256)) {w : Word} {cp : Bool} {key hint launch : Nat}
    (stores : l1Write s core pa w cp key hint launch = s') :
    s' = { s with cores := s'.cores, misses := s'.misses, loads := s'.loads } ∧
    ∃ b, OnlyBlk s s' core (pa / 256) b ∧
      b.read (wordIx pa) = some (if keyGone s key then .poison else .ok w) ∧ b.isDirty (wordIx pa) = true ∧
      ∀ i, i ≠ wordIx pa → b.read i = (blk (l1Of s core) (pa / 256)).bind fun b => b.read i := by
  obtain ⟨s0, hs0⟩ : ∃ s0, s0 = storedOver (killMisses { s with cores := setAt s.cores core ((look {} s.cores core).dropCode fun i => i == pa / 4) } core pa)
    core pa w := ⟨_, rfl⟩
  have sameL1 : ∀ c, l1Of s0 c = l1Of s c := fun c => hs0 ▸ l1Of_storedOver s core pa w _ c
  obtain ⟨b, cores, ready, only, kept⟩ := l1Ensure_room (s := s0) (core := core) (pa := pa) (by rw [sameL1]; exact room) key hint
  have written : s' = setL1 (l1Ensure s0 core pa key hint) core (setAt (l1Of (l1Ensure s0 core pa key hint) core) (pa / 256)
      (b.store s.steps (wordIx pa) hint key launch w (keyGone s key) cp)) := by
    rw [← stores, l1Write, ← hs0]
    simp only [only.here]
    rw [ready, hs0]
    rfl
  have all := onlyBlk_setL1 only (b.store s.steps (wordIx pa) hint key launch w (keyGone s key) cp)
  rw [← written] at all
  refine ⟨?_, _, ⟨fun c other => ?_, all.here, fun x other => ?_⟩, read_store (wordIx_lt pa) .., isDirty_store (wordIx_lt pa) .., fun i other => ?_⟩
  · rw [written, setL1, ready, hs0]
    rfl
  · rw [all.cores c other, sameL1]
  · rw [all.others x other, sameL1]
  · rw [read_store_ne (wordIx_lt pa) other, kept, sameL1]

/-! ### Scratchpads -/

/-- A write of a word clears its errors and no other word's. -/
theorem contains_wrote (e : Ecc) (i j : Nat) : (e.wrote fun x => x == i).bad.contains j = (decide (j ≠ i) && e.bad.contains j) := by
  unfold Ecc.wrote
  split
  · next good =>
    simp only [Ecc.good, Bool.and_eq_true, List.isEmpty_iff] at good
    simp [good.2]
  · by_cases same : j = i <;> simp [same]

/-- R105: a scratchpad word reads back as it was written, and every other word of every scratchpad as before. -/
theorem padDatum_writePad (s : State) (c o c' o' : Nat) (w : Word) :
    padDatum (writePad s c o w) c' o' = if c' = c ∧ o' / 4 = o / 4 then .ok w else padDatum s c' o' := by
  by_cases crew : c' = c
  · subst crew
    rw [writePad, padDatum, crewOf_setCrew, if_pos rfl]
    simp only [contains_wrote, look_putAt, true_and]
    by_cases word : o' / 4 = o / 4
    · simp [word]
    · simp [word, padDatum]
  · rw [if_neg (fun both => crew both.1), padDatum, writePad, crewOf_setCrew, if_neg crew, padDatum]

/-- Settles O17: a scratchpad by the word that is written, and an L1 by the one superblock that a store changes. -/
theorem storedWordsAreReadBack : Obligations.StoredWordsAreReadBack := by
  refine ⟨fun s core launch hint c o w => ⟨rfl, fun c' o' => padDatum_writePad s c o c' o' w⟩, fun s core launch hint pa key cp w room => ?_⟩
  intro s'
  obtain ⟨frame, b, only, read, dirty, kept⟩ := l1Write_room (s' := s') room rfl
  refine ⟨(congrArg State.mem frame :), (congrArg State.memPoison frame :), (congrArg State.l2 frame :), (congrArg State.drams frame :), (congrArg State.teams frame :),
    (congrArg State.crews frame :), only.cores, ?_, ?_, fun a other => ?_⟩
  · rw [held_eq, only.here]
    exact read
  · rw [heldDirty_of_blk only.here]
    exact dirty
  · rw [held_eq, held_eq]
    by_cases sameBlk : a / 256 = pa / 256
    · have otherWord : wordIx a ≠ wordIx pa := by unfold wordIx; omega
      rw [sameBlk, only.here]
      exact kept _ otherWord
    · rw [only.others _ sameBlk]

end Sys2Proof.Machine
end

section
/-! SUPPORT. A walk under way changes nothing that a home gives, so noting the miss of a page leaves the checks of the page's addresses as they were
(R107, R376). -/

namespace Sys2Proof.Machine

/-- The machine with other walks under way. -/
def State.withWalks (ws : List Walk) (s : State) : State := { s with walks := ws }

/-- A step that answers a value, with other walks under way. -/
abbrev withWalks₂ {β : Type} (ws : List Walk) (r : State × β) : State × β := (r.1.withWalks ws, r.2)

variable (ws : List Walk) (s : State)

theorem foldl_withWalks {α : Type} {f : State → α → State} (step : ∀ s a, f (s.withWalks ws) a = (f s a).withWalks ws) (l : List α) (s : State) :
    l.foldl f (s.withWalks ws) = (l.foldl f s).withWalks ws :=
  List.foldl_hom (State.withWalks ws) step

theorem foldl_withWalks₂ {α β : Type} {f : State × β → α → State × β} (step : ∀ r a, f (withWalks₂ ws r) a = withWalks₂ ws (f r a)) (l : List α)
    (r : State × β) : l.foldl f (withWalks₂ ws r) = withWalks₂ ws (l.foldl f r) :=
  List.foldl_hom (withWalks₂ ws) step

theorem ite_withWalks (c : Prop) [Decidable c] (a b : State) : (if c then a.withWalks ws else b.withWalks ws) = (if c then a else b).withWalks ws :=
  (apply_ite _ c a b).symm

/-! ### The memory behind the caches -/

theorem count_withWalks (u c : Nat) : count (s.withWalks ws) u c = (count s u c).withWalks ws := rfl
theorem countPc_withWalks (pa c : Nat) : countPc (s.withWalks ws) pa c = (countPc s pa c).withWalks ws := rfl
theorem countSlice_withWalks (c pa : Nat) : countSlice c (s.withWalks ws) pa = (countSlice c s pa).withWalks ws := rfl
theorem setTenant_withWalks (t : Nat) (x : Tenant) : setTenant (s.withWalks ws) t x = (setTenant s t x).withWalks ws := rfl
theorem logRas_withWalks (r : Ras) : logRas (s.withWalks ws) r = (logRas s r).withWalks ws := by
  unfold logRas
  rw [apply_ite (State.withWalks ws)]
  rfl
theorem senseStored_withWalks (pa n : Nat) : senseStored (s.withWalks ws) pa n = withWalks₂ ws (senseStored s pa n) := by
  unfold senseStored
  split
  · rw [apply_ite (withWalks₂ ws)]
    refine ite_congr rfl (fun _ => rfl) fun _ => ?_
    rw [show senseWord (s.withWalks ws) pa n = senseWord s pa n from rfl]
    split <;> rfl
  · rw [show extentOf (s.withWalks ws) pa = extentOf s pa from rfl]
    split
    · rw [apply_ite (withWalks₂ ws)]; rfl
    · rfl
  · rw [apply_ite (withWalks₂ ws)]; rfl
theorem flushDelta_withWalks (b : Nat) : flushDelta (s.withWalks ws) b = (flushDelta s b).withWalks ws := rfl
theorem addDelta_withWalks (pa : Nat) (o n : Word) : addDelta (s.withWalks ws) pa o n = (addDelta s pa o n).withWalks ws := by
  unfold addDelta
  dsimp only
  rw [show (dram (s.withWalks ws) (stackNo pa)) = dram s (stackNo pa) from rfl]
  split
  · rw [flushDelta_withWalks, ite_withWalks]; rfl
  · rfl
theorem blockErrors_withWalks (b : Nat) : blockErrors (s.withWalks ws) b = blockErrors s b := rfl
theorem blockProcedure_withWalks (b : Nat) : blockProcedure (s.withWalks ws) b = withWalks₂ ws (blockProcedure s b) := by
  unfold blockProcedure
  dsimp only
  rw [flushDelta_withWalks, blockErrors_withWalks]
  split
  · refine Prod.ext ?_ rfl
    rw [countPc_withWalks, foldl_withWalks ws fun s a => countSlice_withWalks ws s 1 a]
    exact foldl_withWalks ws (fun _ _ => rfl) _ _
  · refine Prod.ext ?_ rfl
    rw [countPc_withWalks, logRas_withWalks]
    exact foldl_withWalks ws (fun _ _ => rfl) _ _
theorem fetchStored_withWalks (pa : Nat) : fetchStored (s.withWalks ws) pa = withWalks₂ ws (fetchStored s pa) := by
  unfold fetchStored
  rw [apply_ite (withWalks₂ ws), senseStored_withWalks]
  refine ite_congr rfl (fun _ => rfl) fun _ => ?_
  obtain ⟨s1, x⟩ := senseStored s pa 0
  cases x
  · rfl
  · rfl
  · simp only [blockProcedure_withWalks]
    rfl
theorem writeOver_withWalks (pa : Nat) (o w : Word) (p x : Bool) : writeOver (s.withWalks ws) pa o w p x = (writeOver s pa o w p x).withWalks ws := by
  unfold writeOver
  rw [show writeDropped (s.withWalks ws) pa = writeDropped s pa from rfl]
  split
  · exact logRas_withWalks ws s _
  · rw [addDelta_withWalks, ite_withWalks]
    rfl
theorem writeStored_withWalks (pa : Nat) (w : Word) (p known : Bool) :
    writeStored (s.withWalks ws) pa w p known = (writeStored s pa w p known).withWalks ws := by
  unfold writeStored
  rw [apply_ite (State.withWalks ws)]
  refine ite_congr rfl (fun _ => ?_) fun _ => writeOver_withWalks ws s ..
  rw [fetchStored_withWalks]
  exact writeOver_withWalks ws _ ..
theorem readPlain_withWalks (pa key : Nat) (n : Nat → Nat) : readPlain (s.withWalks ws) pa key n = withWalks₂ ws (readPlain s pa key n) := by
  unfold readPlain
  dsimp only
  rw [apply_ite (withWalks₂ ws), apply_ite (withWalks₂ ws), senseStored_withWalks]
  refine ite_congr rfl (fun _ => rfl) fun _ => ite_congr rfl (fun _ => rfl) fun _ => ?_
  rw [show (s.withWalks ws, ([] : List Sensed)) = withWalks₂ ws (s, []) from rfl, foldl_withWalks₂ ws]
  case step => intro r i; simp only [senseStored_withWalks]
  generalize List.foldl _ (s, []) (List.range 4) = r
  rw [apply_ite (withWalks₂ ws), apply_ite (withWalks₂ ws)]
  rfl
theorem writeGranule_withWalks (t : Tenant) (g : Nat) (xs : List (Nat × Word × Bool)) (known : Nat → Bool) :
    writeGranule (s.withWalks ws) t g xs known = (writeGranule s t g xs known).withWalks ws := by
  unfold writeGranule
  extract_lets whole
  rw [show (s.withWalks ws, ([] : List (Word × Bool))) = withWalks₂ ws (s, []) from rfl, foldl_withWalks₂ ws]
  case step =>
    intro r i
    cases whole
    · simp only [Bool.false_eq_true, if_false, fetchStored_withWalks]
    · rfl
  generalize List.foldl _ (s, []) (List.range 4) = r
  exact foldl_withWalks ws (fun s i => writeOver_withWalks ws s ..) _ _
theorem writePlains_withWalks (key : Nat) (xs : List (Nat × Word × Bool)) (known : Nat → Bool) :
    writePlains (s.withWalks ws) key xs known = (writePlains s key xs known).withWalks ws := by
  unfold writePlains
  dsimp only
  rw [apply_ite (State.withWalks ws)]
  exact ite_congr rfl (fun _ => foldl_withWalks ws (fun s x => writeStored_withWalks ws s ..) _ _) fun _ =>
    foldl_withWalks ws (fun s x => writeGranule_withWalks ws s ..) _ _
theorem writePlain_withWalks (pa : Nat) (w : Word) (p : Bool) (key : Nat) (known : Bool) :
    writePlain (s.withWalks ws) pa w p key known = (writePlain s pa w p key known).withWalks ws := writePlains_withWalks ws s ..
theorem readCorrected_withWalks (pa key : Nat) : readCorrected (s.withWalks ws) pa key = withWalks₂ ws (readCorrected s pa key) := by
  unfold readCorrected
  rw [readPlain_withWalks]
  obtain ⟨s1, x⟩ := readPlain s pa key fun _ => 0
  cases x
  · rfl
  · rfl
  · simp only [blockProcedure_withWalks]
    rw [apply_ite (withWalks₂ ws)]
    refine ite_congr rfl (fun _ => rfl) fun _ => ?_
    rw [readPlain_withWalks]
    obtain ⟨s2, y⟩ := readPlain (blockProcedure s1 (blockOf pa)).1 pa key fun _ => 0
    cases y <;> rfl

/-! ### The caches of the dies and of the homes -/

theorem setL2_withWalks (d : Nat) (c : NMap Blk) : setL2 (s.withWalks ws) d c = (setL2 s d c).withWalks ws := rfl
theorem setMsc_withWalks (k : Nat) (c : NMap Blk) : setMsc (s.withWalks ws) k c = (setMsc s k c).withWalks ws := rfl
theorem leaving_withWalks (b : Blk) (pa unit : Nat) : leaving (s.withWalks ws) b pa unit = withWalks₂ ws (leaving s b pa unit) := by
  unfold leaving
  dsimp only
  rw [apply_ite (withWalks₂ ws)]
  refine ite_congr rfl (fun _ => Prod.ext ?_ rfl) fun _ => Prod.ext ?_ rfl
  · rw [show (count (s.withWalks ws) unit 12).launches.lookup b.launch = (count s unit 12).launches.lookup b.launch from rfl]
    dsimp only
    split
    · rw [apply_ite (State.withWalks ws), count_withWalks, logRas_withWalks, logRas_withWalks]
      rfl
    · rw [count_withWalks, logRas_withWalks]
  · dsimp only
    rw [apply_ite (State.withWalks ws)]
    rfl
theorem mend_withWalks {unit pa : Nat} {get : State → NMap Blk} {put : State → NMap Blk → State} {onward : State → Blk → State}
    (gets : ∀ s, get (s.withWalks ws) = get s) (puts : ∀ s c, put (s.withWalks ws) c = (put s c).withWalks ws)
    (passes : ∀ s b, onward (s.withWalks ws) b = (onward s b).withWalks ws) :
    mend (s.withWalks ws) unit pa get put onward = (mend s unit pa get put onward).withWalks ws := by
  unfold mend
  rw [apply_ite (State.withWalks ws), gets]
  refine ite_congr rfl (fun _ => rfl) fun _ => ?_
  split
  · rfl
  · dsimp only
    rw [apply_ite (State.withWalks ws), apply_ite (State.withWalks ws), puts, puts, passes, gets, puts, count_withWalks, count_withWalks,
      logRas_withWalks]
theorem holdBlock_withWalks (w : HeldWrite) : holdBlock (s.withWalks ws) w = (holdBlock s w).withWalks ws := rfl
theorem dropL2_withWalks (pa : Nat) : dropL2 (s.withWalks ws) pa = (dropL2 s pa).withWalks ws := by
  refine foldl_withWalks ws (fun s d => ?_) _ _
  rw [show l2Of (s.withWalks ws) d = l2Of s d from rfl]
  split
  · rw [apply_ite (State.withWalks ws)]
    rfl
  · rfl
theorem leavingHome_withWalks (b : Blk) (pa : Nat) : leavingHome (s.withWalks ws) b pa = withWalks₂ ws (leavingHome s b pa) := by
  unfold leavingHome
  rw [dropL2_withWalks, ite_withWalks]
  exact leaving_withWalks ws _ ..
theorem mendHome_withWalks (pa : Nat) : mendHome (s.withWalks ws) pa = (mendHome s pa).withWalks ws := by
  unfold mendHome
  refine mend_withWalks ws s (fun _ => rfl) (fun _ _ => rfl) fun s b => ?_
  rw [leavingHome_withWalks]
  dsimp only
  rw [apply_ite (State.withWalks ws), writePlain_withWalks]
  rfl
theorem mscEvict_withWalks (v : Nat × Blk) : mscEvict (s.withWalks ws) v = (mscEvict s v).withWalks ws := by
  unfold mscEvict
  rw [show (s.withWalks ws, ([] : List (Nat × Word × Bool))) = withWalks₂ ws (s, []) from rfl, foldl_withWalks₂ ws]
  case step => intro r i; simp only [leavingHome_withWalks]
  generalize List.foldl _ (s, []) v.2.dirtyWords = r
  dsimp only
  rw [show (fun x : Nat × Word × Bool => writeWaits (r.1.withWalks ws) x.1) = fun x => writeWaits r.1 x.1 from rfl, foldl_withWalks ws]
  case step => intro s x; rfl
  exact writePlains_withWalks ws _ ..
theorem countMiss_withWalks (pa t : Nat) : countMiss (s.withWalks ws) pa t = (countMiss s pa t).withWalks ws := by
  unfold countMiss
  dsimp only
  rw [apply_ite (State.withWalks ws), apply_ite (State.withWalks ws), apply_ite (State.withWalks ws)]
  rfl
theorem insertPrio_withWalks (pa t : Nat) : insertPrio (s.withWalks ws) pa t = withWalks₂ ws (insertPrio s pa t) := by
  unfold insertPrio
  dsimp only
  rw [apply_ite (withWalks₂ ws)]
  rfl
theorem mscEnsure_withWalks (pa key hint t : Nat) : mscEnsure (s.withWalks ws) pa key hint t = (mscEnsure s pa key hint t).withWalks ws := by
  unfold mscEnsure
  dsimp only
  rw [show mscOf (s.withWalks ws) (stackNo pa) = mscOf s (stackNo pa) from rfl, insertPrio_withWalks]
  split
  · rfl
  · rw [show (s.withWalks ws, 0) = withWalks₂ ws (s, 0) from rfl, ← apply_ite (withWalks₂ ws)]
    generalize (if hint = 0 then insertPrio s pa t else (s, 0)) = r
    dsimp only
    rw [show allocate .msc (mscOf (r.1.withWalks ws) (stackNo pa)) (pa / 256) (newBlk (r.1.withWalks ws).steps hint r.2 key) =
      allocate .msc (mscOf r.1 (stackNo pa)) (pa / 256) (newBlk r.1.steps hint r.2 key) from rfl]
    generalize allocate .msc (mscOf r.1 (stackNo pa)) (pa / 256) (newBlk r.1.steps hint r.2 key) = a
    obtain ⟨c, v⟩ := a
    cases v
    · rfl
    · dsimp only
      rw [apply_ite (State.withWalks ws), setMsc_withWalks, mscEvict_withWalks]
      rfl
theorem mscPut_withWalks (pa : Nat) (w : Word) (p d : Bool) (key hint t l : Nat) :
    mscPut (s.withWalks ws) pa w p d key hint t l = (mscPut s pa w p d key hint t l).withWalks ws := by
  unfold mscPut
  dsimp only
  rw [mscEnsure_withWalks]
  generalize mscEnsure s pa key hint t = r
  rw [show mscOf (r.withWalks ws) (stackNo pa) = mscOf r (stackNo pa) from rfl]
  split <;> rfl
theorem homePut_withWalks (pa : Nat) (w : Word) (p : Bool) (l key hint : Nat) :
    homePut (s.withWalks ws) pa w p l key hint = (homePut s pa w p l key hint).withWalks ws := by
  unfold homePut
  dsimp only
  rw [apply_ite (State.withWalks ws), apply_ite (State.withWalks ws), logRas_withWalks, holdBlock_withWalks, countMiss_withWalks]
  refine ite_congr rfl (fun _ => rfl) fun _ => ite_congr rfl (fun _ => rfl) fun _ => ?_
  rw [ite_withWalks, show writerTenant (s.withWalks ws) l = writerTenant s l from rfl, mscPut_withWalks]
  rw [show (if (blk (mscOf (s.withWalks ws) (stackNo pa)) (pa / 256)).isNone = true then countMiss s pa (writerTenant s l) else s) =
    if (blk (mscOf s (stackNo pa)) (pa / 256)).isNone = true then countMiss s pa (writerTenant s l) else s from rfl]
  generalize mscPut _ pa w p true key hint (writerTenant s l) l = r
  rw [show mscOf (r.withWalks ws) (stackNo pa) = mscOf r (stackNo pa) from rfl]
  split <;> rfl
theorem holdWrite_withWalks (w : HeldWrite) : holdWrite (s.withWalks ws) w = (holdWrite s w).withWalks ws := by
  unfold holdWrite
  dsimp only
  rw [show w.needs (s.withWalks ws) = w.needs s from rfl]
  cases w.needs s <;> rw [show asked (s.withWalks ws) w.pa = asked s w.pa from rfl] <;> split <;> rfl
theorem homePerform_withWalks (pa : Nat) (w : Word) (p : Bool) (l key hint writer : Nat) :
    homePerform (s.withWalks ws) pa w p l key hint writer = (homePerform s pa w p l key hint writer).withWalks ws := by
  unfold homePerform
  rw [apply_ite (State.withWalks ws), holdWrite_withWalks, homePut_withWalks]
  rfl
theorem purgeL2_withWalks (pa writer : Nat) : purgeL2 (s.withWalks ws) pa writer = (purgeL2 s pa writer).withWalks ws := by
  unfold purgeL2 purgeBy
  rw [foldl_withWalks ws]
  intro s d
  rw [apply_ite (State.withWalks ws), show l2Of (s.withWalks ws) d = l2Of s d from rfl]
  refine ite_congr rfl (fun _ => rfl) fun _ => ?_
  split
  · rfl
  · rw [apply_ite (State.withWalks ws)]
    refine ite_congr rfl (fun _ => ?_) fun _ => rfl
    rw [leaving_withWalks]
    dsimp only
    rw [homePerform_withWalks, ite_withWalks]
    rfl
theorem blockAtHome_withWalks (b : Nat) : blockAtHome (s.withWalks ws) b = withWalks₂ ws (blockAtHome s b) := by
  unfold blockAtHome
  rw [blockProcedure_withWalks]
  generalize blockProcedure s b = r
  dsimp only
  rw [show (fun pa => (held (mscOf (r.1.withWalks ws) (stackNo pa)) pa).isNone) = fun pa => (held (mscOf r.1 (stackNo pa)) pa).isNone from rfl,
    foldl_withWalks ws]
  intro s pa
  rw [purgeL2_withWalks]
  generalize purgeL2 s pa 0 = r
  rfl
theorem readBehind_withWalks (pa key : Nat) : readBehind (s.withWalks ws) pa key = withWalks₂ ws (readBehind s pa key) := by
  unfold readBehind
  rw [readPlain_withWalks]
  obtain ⟨s1, x⟩ := readPlain s pa key fun _ => 0
  cases x
  · rfl
  · rfl
  · simp only [blockAtHome_withWalks]
    rw [apply_ite (withWalks₂ ws)]
    refine ite_congr rfl (fun _ => rfl) fun _ => ?_
    rw [readPlain_withWalks]
    obtain ⟨s2, y⟩ := readPlain (blockAtHome s1 (blockOf pa)).1 pa key fun _ => 0
    cases y <;> rfl

/-! ### Views, entries and walks -/

theorem storedVia_withWalks (pa : Nat) : storedVia (s.withWalks ws) pa = withWalks₂ ws (storedVia s pa) := by
  unfold storedVia
  dsimp only
  rw [mendHome_withWalks]
  generalize mendHome s pa = r
  rw [show mscOf (r.withWalks ws) (stackNo pa) = mscOf r (stackNo pa) from rfl, readBehind_withWalks]
  split
  · rfl
  · obtain ⟨s1, d⟩ := readBehind r (pa / 4 * 4) 0
    cases d <;> simp only [mscPut_withWalks]
theorem viewElem_withWalks (w : Window) (i : Nat) : viewElem (s.withWalks ws) w i = withWalks₂ ws (viewElem s w i) := by
  unfold viewElem
  obtain ⟨a, b, g⟩ := w.places i
  dsimp only
  rw [storedVia_withWalks]
  obtain ⟨s1, d1⟩ := storedVia s (a / 4 * 4)
  dsimp only
  rw [storedVia_withWalks]
  obtain ⟨s2, d2⟩ := storedVia s1 (b / 4 * 4)
  cases g with
  | none => cases d1 <;> cases d2 <;> rfl
  | some g =>
    dsimp only
    rw [storedVia_withWalks]
    obtain ⟨s3, d3⟩ := storedVia s2 g
    cases d1 <;> cases d2 <;> cases d3 <;> rfl
theorem viewWord_withWalks (pa : Nat) : viewWord (s.withWalks ws) pa = withWalks₂ ws (viewWord s pa) := by
  unfold viewWord
  rw [show windowAt (s.withWalks ws) pa = windowAt s pa from rfl]
  split
  · rfl
  · dsimp only
    rw [show (s.withWalks ws, some 0) = withWalks₂ ws (s, some 0) from rfl, foldl_withWalks₂ ws]
    intro r k
    simp only [viewElem_withWalks]
theorem homePeek_withWalks (pa key : Nat) : homePeek (s.withWalks ws) pa key = homePeek s pa key := by
  unfold homePeek
  rw [viewWord_withWalks, readCorrected_withWalks, show mscOf (s.withWalks ws) (stackNo pa) = mscOf s (stackNo pa) from rfl]
theorem entryAt_withWalks (pa : Nat) : entryAt (s.withWalks ws) pa = entryAt s pa := by
  unfold entryAt
  rw [homePeek_withWalks, homePeek_withWalks]
theorem walk_withWalks (t va : Nat) : walk (s.withWalks ws) t va = walk s t va := by
  have leaves : ∀ level va e, leafAt (s.withWalks ws) t level va e = leafAt s t level va e := fun _ _ _ => rfl
  have groups : ∀ level va table i n, groupLeaves (s.withWalks ws) t level va table i n = groupLeaves s t level va table i n := fun _ _ _ _ _ => by
    simp only [groupLeaves, entryAt_withWalks, leaves]
  have root : tenantOf (s.withWalks ws) t = tenantOf s t := rfl
  simp only [walk, entryAt_withWalks, groups, root]
  rfl
theorem walkReads_withWalks (t va : Nat) : walkReads (s.withWalks ws) t va = walkReads s t va := by
  have root : tenantOf (s.withWalks ws) t = tenantOf s t := rfl
  simp only [walkReads, entryAt_withWalks, root]
theorem walkLate_withWalks (t va : Nat) : walkLate (s.withWalks ws) t va = walkLate s t va := by
  unfold walkLate
  rw [walkReads_withWalks]
  rfl
theorem pickLeaf_withWalks (ls : List Trans) : pickLeaf (s.withWalks ws) ls = pickLeaf s ls := rfl

/-- R376: of the walks under way a translation asks only whether it has a walker. -/
theorem translate_withWalks {core t va : Nat} (walker : walkerFree (s.withWalks ws) core t va = walkerFree s core t va) :
    translate (s.withWalks ws) core t va = translate s core t va := by
  unfold translate
  rw [walker, walk_withWalks, walkLate_withWalks, pickLeaf_withWalks]
  rfl

end Sys2Proof.Machine
end

section
/-! SUPPORT. What noting misses leaves alone, and the access of one lane whose check passes (R107, R122, R376). -/

namespace Sys2Proof.Machine

/-! ### What noting a miss asks for -/

/-- From `s` to `s'` walks, translations and lines have been asked for, and nothing else has changed; no release waits for what was asked. -/
def Asks (s s' : State) : Prop :=
  ∃ walks ats asks, s' = { s with walks := walks, ats := ats, asks := s.asks ++ asks } ∧ ∀ a ∈ asks, a.pubs = []

theorem Asks.refl (s : State) : Asks s s := ⟨s.walks, s.ats, [], by simp, nofun⟩

theorem Asks.trans {a b c : State} (h : Asks a b) (g : Asks b c) : Asks a c := by
  obtain ⟨w, t, x, rfl, hx⟩ := h
  obtain ⟨w', t', y, rfl, hy⟩ := g
  exact ⟨w', t', x ++ y, by simp, fun e mem => (List.mem_append.1 mem).elim (hx e) (hy e)⟩

theorem Asks.foldl {α : Type} {f : State → α → State} (step : ∀ s a, Asks s (f s a)) (l : List α) (s : State) : Asks s (l.foldl f s) := by
  induction l generalizing s with
  | nil => exact .refl s
  | cons a l ih => exact (step s a).trans (ih _)

theorem askLine_asks (s : State) (pa : Nat) (write : Bool) : Asks s (askLine s pa write) := by
  unfold askLine
  split
  · split
    · exact .refl s
    · exact ⟨s.walks, s.ats, _, rfl, by simp [hostAsk]⟩
  · exact .refl s

theorem askHost_asks (s : State) (pa : Nat) (write : Bool) : Asks s (askHost s pa write) := Asks.foldl (fun s a => askLine_asks s a write) _ s

theorem noteMiss_asks (s : State) (core tenant va : Nat) : Asks s (noteMiss s core tenant va) := by
  have walking : ∀ (s : State) (w : Walk), Asks s { s with walks := s.walks ++ [w] } := fun s w => ⟨s.walks ++ [w], s.ats, [], by simp, nofun⟩
  unfold noteMiss
  split
  · exact .refl s
  · split
    · split
      · exact .refl s
      · exact ⟨s.walks, s.ats ++ [{ tenant := tenant, page := va / 65536, core := core }], [], by simp, nofun⟩
    · cases walkLate s tenant va with
      | none =>
        dsimp only
        split
        · exact .refl s
        · exact walking s _
      | some e =>
        dsimp only
        split
        · exact askHost_asks s e false
        · exact (askHost_asks s e false).trans (walking _ _)

theorem noteMisses_asks (s : State) (k : Nat) (t : Team) (vas : List DWord) : Asks s (noteMisses s k t vas) :=
  Asks.foldl (fun s _ => noteMiss_asks s ..) _ s

/-- What a release waits for is as it was. -/
theorem Asks.published {s s' : State} (h : Asks s s') {k : Nat} {t : Team} (pub : Published s k t) : Published s' k t := by
  obtain ⟨walks, ats, asks, rfl, noPubs⟩ := h
  obtain ⟨free, idle, done, clean⟩ := pub
  refine ⟨free, idle, ?_, clean⟩
  have waitsForNone : (asks.any fun a => a.pubs.contains s.serial) = false := by
    rw [List.any_eq_false]
    intro a mem
    simp [noPubs a mem]
  simp only [releaseDone, List.any_append, waitsForNone, Bool.or_false]
  exact done

/-- A release goes on at once, whatever its point, where nothing that it waits for is left. -/
theorem releasing_done {s : State} {k : Nat} {t : Team} (pub : Published s k t) (point : Point) (p : Nat → Bool) (cont : State → Team → State) :
    releasing s k t point p cont = cont (released s t) t := by
  obtain ⟨free, idle, done, clean⟩ := pub
  obtain ⟨misses, l2q, eq⟩ := released_eq s t
  refine releasing_at free ?_ ?_ ?_ cont
  · split
    · rfl
    · refine capture_clean ?_ _ _ _ _
      rw [eq]; exact clean
  · rw [eq]; exact done
  · rw [eq]; exact idle

/-! ### The check of a page whose miss is noted -/

/-- The translation that a core's TLB or its die's cache holds (R376). -/
def cached (s : State) (core tenant va : Nat) : Option Trans :=
  ((tlbOf s core).find? fun t => t.maps tenant va).or ((look [] s.tcache (core / 144)).find? fun t => t.maps tenant va)

theorem translate_cached {s : State} {core tenant va : Nat} {t : Trans} (hit : cached s core tenant va = some t) :
    translate s core tenant va = .ok t := by
  unfold cached at hit
  unfold translate
  split
  · next found => rw [found] at hit; simpa using hit
  · next missed => rw [missed, Option.none_or] at hit; rw [hit]

theorem translate_missed {s : State} {core tenant va : Nat} (miss : cached s core tenant va = none) :
    translate s core tenant va =
      if (tenantOf s tenant).hostManaged then if s.atsDenied.contains (tenant, va / 65536) then .fail else .wait
      else if !walkerFree s core tenant va || (walkLate s tenant va).isSome then .wait
      else (pickLeaf s (walk s tenant va)).elim .fail .ok := by
  obtain ⟨noTlb, noCache⟩ := Option.or_eq_none_iff.1 miss
  simp only [translate, noTlb, noCache]
  cases pickLeaf s (walk s tenant va) <;> rfl

/-- The index bits of a page's addresses are those of the page. -/
theorem bits_of_page {v va : Nat} (page : v / 65536 = va / 65536) {lo : Nat} (above : 16 ≤ lo) (n : Nat) : bits v lo n = bits va lo n := by
  have split16 : 2 ^ lo = 65536 * 2 ^ (lo - 16) := by
    rw [show (65536 : Nat) = 2 ^ 16 from rfl, ← Nat.pow_add, Nat.add_sub_cancel' above]
  rw [bits, bits, split16, ← Nat.div_div_eq_div_mul, ← Nat.div_div_eq_div_mul, page]

theorem walkLate_of_page {v va : Nat} (page : v / 65536 = va / 65536) (s : State) (tenant : Nat) : walkLate s tenant v = walkLate s tenant va := by
  simp only [walkLate, walkReads, bits_of_page page (show 16 ≤ 46 by decide), bits_of_page page (show 16 ≤ 36 by decide),
    bits_of_page page (show 16 ≤ 26 by decide), bits_of_page page (show 16 ≤ 16 by decide)]

/-- R376: the miss of a page whose entries can all be read changes no more than the walks under way. -/
theorem noteMiss_ready {s : State} {core tenant va : Nat} (own : ¬ (tenantOf s tenant).hostManaged = true) (ready : walkLate s tenant va = none) :
    noteMiss s core tenant va = s ∨
      noteMiss s core tenant va = s.withWalks (s.walks ++ [{ core := core, tenant := tenant, va := va / 65536 * 65536 }]) := by
  unfold noteMiss
  rw [if_neg own, ready]
  dsimp only
  split
  · exact .inl rfl
  · split
    · exact .inl rfl
    · exact .inr rfl

/-- R376: the walk that the miss of a page leaves behind is the one that its translation comes from. -/
theorem translate_noteMiss {s : State} {core tenant v va : Nat} (page : v / 65536 = va / 65536) (now : translate s core tenant v ≠ .wait) :
    translate (noteMiss s core tenant va) core tenant v = translate s core tenant v := by
  obtain ⟨walks, ats, asks, frame, -⟩ := noteMiss_asks s core tenant va
  have sameCache : cached (noteMiss s core tenant va) core tenant v = cached s core tenant v := by rw [frame]; rfl
  cases hit : cached s core tenant v with
  | some t => rw [translate_cached hit, translate_cached (sameCache.trans hit)]
  | none =>
    rw [translate_missed hit] at now
    by_cases managed : (tenantOf s tenant).hostManaged = true
    · rw [translate_missed hit, translate_missed (sameCache.trans hit), if_pos managed,
        if_pos (show (tenantOf (noteMiss s core tenant va) tenant).hostManaged = true by rw [frame]; exact managed),
        show (noteMiss s core tenant va).atsDenied = s.atsDenied by rw [frame]]
    · rw [if_neg managed] at now
      have goes : ¬ (!walkerFree s core tenant v || (walkLate s tenant v).isSome) = true := fun waits => now (if_pos waits)
      simp only [Bool.or_eq_true, Bool.not_eq_true', not_or, Bool.not_eq_false, Bool.not_eq_true, Option.isSome_eq_false_iff,
        Option.isNone_iff_eq_none] at goes
      obtain ⟨free, ready⟩ := goes
      rcases noteMiss_ready managed ((walkLate_of_page page s tenant).symm.trans ready) with same | walks
      · rw [same]
      · rw [walks]
        refine translate_withWalks _ s (Eq.trans ?_ free.symm)
        simp [walkerFree, State.withWalks, page]

/-- One address notes one miss, if any. -/
theorem noteMisses_one (s : State) (k : Nat) (t : Team) (va : DWord) :
    noteMisses s k t [va] = if canonicalVa va && !inAperture va then
      noteMiss s t.core (bandOf s (bandKey k)).tenant (va.toNat % 2 ^ 57 / 65536 * 65536) else s := by
  rw [noteMisses, List.filter_singleton]
  cases canonicalVa va && !inAperture va <;> rfl

/-- A passed check passes still when the address's miss has been noted. -/
theorem checkAddr_noted {s : State} {k w : Nat} {t : Team} {va : DWord} {a : Acc} {p : Place}
    (granted : checkAddr s t.core (bandKey k) w va a = .go p) : checkAddr (noteMisses s k t [va]) t.core (bandKey k) w va a = .go p := by
  rw [noteMisses_one]
  split
  next pages =>
    obtain ⟨walks, ats, asks, frame, -⟩ := noteMiss_asks s t.core (bandOf s (bandKey k)).tenant (va.toNat % 2 ^ 57 / 65536 * 65536)
    have now : translate s t.core (bandOf s (bandKey k)).tenant (va.toNat % 2 ^ 57) ≠ .wait := by
      intro waits
      obtain ⟨canonical, outside⟩ := Bool.and_eq_true_iff.1 pages
      rw [Bool.not_eq_true'] at outside
      rw [bandOf] at waits
      unfold checkAddr at granted
      dsimp only at granted
      rw [outside, canonical, waits] at granted
      split at granted <;> cases granted
    have same := translate_noteMiss (va := va.toNat % 2 ^ 57 / 65536 * 65536) (by omega) now
    rw [← granted]
    generalize noteMiss s t.core (bandOf s (bandKey k)).tenant (va.toNat % 2 ^ 57 / 65536 * 65536) = s1 at frame same
    subst frame
    simp only [checkAddr]
    rw [bandOf] at same
    rw [same]
    rfl
  next => exact granted

/-- An access of one lane whose check passes, where no watchpoint is set. -/
theorem access_one {s : State} {k w : Nat} {t : Team} {va : DWord} {p : Place} (unwatched : Unwatched s k) {rd wr : Bool}
    (granted : checkAddr s t.core (bandKey k) w va (if wr then .write else .read) = .go p) (flags : BitVec 8) (L : Nat)
    (body : State → List (Nat × DWord × Place) → State) :
    access s k t w rd wr flags [(L, va)] body = body (noteMisses s k t [va]) [(L, va, p)] := by
  have unwatched' : Unwatched (noteMisses s k t [va]) k := by
    rw [Unwatched, bandOf, (noteMisses_calm s k t [va]).2.1]
    exact unwatched
  have passes := checkAddr_noted granted
  simp only [access, List.map_cons, List.map_nil, passes, watched_none unwatched', List.filterMap_cons, List.filterMap_nil, List.filter_cons,
    List.filter_nil, List.any_cons, List.any_nil, List.find?_cons, List.find?_nil]
  simp

/-- An instruction that goes to memory, of a team whose turn it is and whose acquires are complete. -/
theorem memory_runs {s : State} {k : Nat} {t : Team} (h : Runs s k t) (free : t.acquiring = false) {legal : Bool} (ok : legal = true)
    (body : Nat → Team → State) : memory legal s body = .next (body k t) := by
  rw [memory, withTeam_runs h, ok, free]
  rfl

end Sys2Proof.Machine
end

section
/-! SUPPORT. `mwait` and the two ways that its wait ends (R127). -/

namespace Sys2Proof.Machine

theorem exec_mwait (d b o : BitVec 5) (ord : BitVec 2) (scope : BitVec 3) (s : State) : exec (.mwait d b o ord scope) s = execMwait d b o ord scope s := rfl
theorem exec_mwaitSatisfied (k : Nat) (s : State) : exec (.mwaitSatisfied k) s = execMwaitSatisfied k s := rfl
theorem exec_mwto (k : Nat) (s : State) : exec (.mwto k) s = execMwto k s := rfl

/-! ### Stamps -/

/-- Reading a good word of a scratchpad leaves the machine as it is. -/
theorem tendPad_good {s : State} {c o : Nat} (good : PadGood s c (o / 4)) : tendPad s c o = s := by
  simp [tendPad, tendCrew, good.2, Ecc.good]

theorem padDatum_good {s : State} {c o : Nat} (good : PadGood s c (o / 4)) : padDatum s c o = .ok (look 0 (crewOf s c).pad (o / 4)) := by
  rw [padDatum, good.1, good.2]
  rfl

/-- A stamp of two good words of a scratchpad. -/
theorem readStamp_pad {s : State} {c o : Nat} (lo : PadGood s c (o / 4)) (hi : PadGood s c ((o + 4) / 4)) (k core : Nat) (point : Point) (hint : Nat) :
    readStamp s k core point (.pad c o) hint = (s, .ok (look 0 (crewOf s c).pad (o / 4)),
      look 0 (crewOf s c).pad ((o + 4) / 4) ++ look 0 (crewOf s c).pad (o / 4)) := by
  simp only [readStamp, padDatum_good lo, padDatum_good hi, tendPad_good lo, tendPad_good hi, joinData]

/-- A scalar that can take a stamp takes it. -/
theorem stampTo_ok {s : State} {t : Team} {d : Nat} (q : Quiet s t) (noFault : t.sFault.lookup d = none) (va : Nat) (w : Word) (stamp : DWord) :
    t.stampTo d va (.ok w) stamp = (t.ws d stamp).fillS [d] := by
  have same : ({ dstS := [d] } : Use).clean t = t := by
    obtain ⟨-, qv, qs, qp, sv, ss, sp⟩ := q
    simp [Use.clean, Use.fix, noFault, qv, qs, qp, sv, ss, sp]
  rw [Team.stampTo, same]

/-- Only an address of the aperture lies on a scratchpad (R105). -/
theorem inAperture_of_pad {s : State} {core band w : Nat} {va : DWord} {a : Acc} {c off : Nat}
    (granted : checkAddr s core band w va a = .go (.pad c off)) : inAperture va = true := by
  by_contra outside
  unfold checkAddr at granted
  dsimp only at granted
  rw [if_neg outside] at granted
  repeat' split at granted
  all_goals cases granted

/-- An address on a scratchpad has no page, and notes no miss. -/
theorem noteMisses_pad {s : State} {k core band w : Nat} {t : Team} {va : DWord} {a : Acc} {c off : Nat}
    (granted : checkAddr s core band w va a = .go (.pad c off)) : noteMisses s k t [va] = s := by
  rw [noteMisses_one, if_neg]
  simp [inAperture_of_pad granted]

/-! ### `mwait` -/

/-- The address of a place in its memory. -/
def Place.offset : Place → Nat
  | .mem pa _ _ => pa
  | .pad _ o => o

/-- What `mwait` does at a point once its address is granted and its release part is done. -/
def mwaitAt (s : State) (k : Nat) (t : Team) (d : BitVec 5) (va target : DWord) (point : Point) (scope : Nat) (acq : Bool) (p : Place) : State :=
  if !stampReady s k t.core point p then waitHere (askStamp s p)
  else
    let r := readStamp s k t.core point p t.ret
    if r.2.1.cause ≠ 0 ∨ stampMet r.2.2 target = true then
      finish (if acq && point != .l1 then invalidateClean (pastStamp r.1 t.core point p) t.core else pastStamp r.1 t.core point p) k
        (t.stampTo d.toNat va.toNat r.2.1 r.2.2)
    else setTeam r.1 k (((teamOf r.1 k).holding (.mwait d va.toNat p.offset target scope acq ((teamOf r.1 k).rs d.toNat)
      ((teamOf r.1 k).mwto.toNat + 1))).emptyS [d.toNat])

/-- R127: `mwait` on full registers and a granted stamp, of a team with nothing to publish where it releases. -/
theorem mwait_granted {s : State} {k : Nat} {t : Team} {d b o : BitVec 5} {ord : BitVec 2} {scope : BitVec 3} {p : Place} (h : Runs s k t) (q : Quiet s t)
    (free : t.acquiring = false) (unwatched : Unwatched s k) (legal : scope ≠ 7) (full : FullS t [b.toNat, o.toNat, d.toNat])
    (granted : checkAddr s t.core (bandKey k) 8 (t.rs b.toNat) .read = .go p) (pub : releases ord = true → Published s k t) :
    exec (.mwait d b o ord scope) s = .next (mwaitAt
      (if releases ord then released (noteMisses s k t [t.rs b.toNat]) t else noteMisses s k t [t.rs b.toNat])
      k t d (t.rs b.toNat) (t.rs o.toNat) (clampPoint (pointOf scope.toNat) [p]) scope.toNat (acquires ord) p) := by
  have sources : FullS t [b.toNat, o.toNat] := fun r mem => full r (by simp only [List.mem_cons, List.not_mem_nil, or_false] at mem ⊢; tauto)
  have dest : FullS t [d.toNat] := fun r mem => full r (by simp only [List.mem_cons, List.not_mem_nil, or_false] at mem ⊢; tauto)
  rw [exec_mwait, execMwait, memory_runs h free (by simpa using legal),
    gated_good (u := { srcS := [(b.toNat, false), (o.toNat, false)], dstS := [d.toNat] }) _ q nofun sources nofun dest]
  dsimp only
  rw [access_one unwatched granted]
  dsimp only
  cases rel : releases ord with
  | false => rfl
  | true =>
    rw [if_pos rfl, releasing_done ((noteMisses_asks s k t _).published (pub rel)), if_pos rfl]
    rfl

section Cases
variable {s : State} {k : Nat} {t : Team} {d : BitVec 5} {va target : DWord} {point : Point} {scope : Nat} {acq : Bool} {p : Place}

theorem mwaitAt_waits (late : stampReady s k t.core point p = false) :
    mwaitAt s k t d va target point scope acq p = waitHere (askStamp s p) := by
  rw [mwaitAt, late]
  rfl

theorem mwaitAt_ends (ready : stampReady s k t.core point p = true) {r : State × Datum × DWord}
    (read : readStamp s k t.core point p t.ret = r) (ends : r.2.1.cause ≠ 0 ∨ stampMet r.2.2 target = true) :
    mwaitAt s k t d va target point scope acq p = finish (if acq && point != .l1 then
      invalidateClean (pastStamp r.1 t.core point p) t.core else pastStamp r.1 t.core point p) k (t.stampTo d.toNat va.toNat r.2.1 r.2.2) := by
  rw [mwaitAt, ready, read]
  exact if_pos ends

theorem mwaitAt_holds (ready : stampReady s k t.core point p = true) {r : State × Datum × DWord}
    (read : readStamp s k t.core point p t.ret = r) (good : r.2.1.cause = 0) (unmet : stampMet r.2.2 target = false) :
    mwaitAt s k t d va target point scope acq p = setTeam r.1 k (((teamOf r.1 k).holding (.mwait d va.toNat p.offset target scope acq
      ((teamOf r.1 k).rs d.toNat) ((teamOf r.1 k).mwto.toNat + 1))).emptyS [d.toNat]) := by
  rw [mwaitAt, ready, read]
  exact if_neg (not_or.2 ⟨not_not.2 good, Bool.eq_false_iff.1 unmet⟩)

end Cases

/-! ### The ends of a wait -/

section Ends
variable {s : State} {k : Nat} {t : Team} {d : BitVec 5} {va pa scope left : Nat} {target old : DWord} {acq : Bool}

theorem mwaitSatisfied_read {p : Place} (team : s.teams.lookup k = some t) (waits : t.hold = .mwait d va pa target scope acq old left)
    (granted : checkAddr s t.core (bandKey k) 8 (BitVec.ofNat 64 va) .read = .go p) :
    exec (.mwaitSatisfied k) s = .next (
      let point := clampPoint (pointOf scope) [p]
      let r := readStamp s k t.core point p t.ret
      if stampReady s k t.core point p = false then askStamp s p
      else if r.2.1.cause ≠ 0 ∨ stampMet r.2.2 target = true then
        setTeam (if acq && point != .l1 then invalidateClean (pastStamp r.1 t.core point p) t.core else pastStamp r.1 t.core point p) k
          (t.stampTo d.toNat va r.2.1 r.2.2).holdOver
      else r.1) := by
  rw [exec_mwaitSatisfied, execMwaitSatisfied, team]
  dsimp only
  rw [waits]
  dsimp only
  rw [granted]
  dsimp only
  cases stampReady s k t.core (clampPoint (pointOf scope) [p]) p with
  | false => rfl
  | true => exact (apply_ite Host.Outcome.next _ _ _).symm

theorem mwaitSatisfied_refused (team : s.teams.lookup k = some t) (waits : t.hold = .mwait d va pa target scope acq old left)
    (refused : ∀ p, checkAddr s t.core (bandKey k) 8 (BitVec.ofNat 64 va) .read ≠ .go p) : exec (.mwaitSatisfied k) s = .next s := by
  rw [exec_mwaitSatisfied, execMwaitSatisfied, team]
  dsimp only
  rw [waits]
  dsimp only
  split
  · next p granted => exact absurd granted (refused p)
  · rfl

/-- R127: a wait that is abandoned has its destination as it was. -/
theorem abandon_mwait (waits : t.hold = .mwait d va pa target scope acq old left) (noFault : t.sFault.lookup d.toNat = none) :
    t.abandon = { (t.ws d.toNat old).fillS [d.toNat] with hold := .free, count := t.count - 1, stepAsked := none } := by
  rw [Team.abandon]
  dsimp only
  rw [waits]
  dsimp only
  rw [Team.ws_sFault, noFault]
  unfold Team.ws
  by_cases zero : d.toNat = 0
  · simp only [zero, if_true]
    rfl
  · simp only [zero, if_false]
    rfl

theorem mwto_held (team : s.teams.lookup k = some t) (waits : t.hold = .mwait d va pa target scope acq old left) :
    exec (.mwto k) s = .next (if t.mwto ≠ 0 ∧ left = 0 then raise1 s k t.abandon cMWTO (BitVec.ofNat 64 va) else s) := by
  rw [exec_mwto, execMwto, team]
  dsimp only
  rw [waits]
  exact (apply_ite Host.Outcome.next _ _ _).symm

theorem ends_of_no_wait (noWait : ∀ t, s.teams.lookup k = some t → ∀ d va pa g sc a old left, t.hold ≠ .mwait d va pa g sc a old left) :
    exec (.mwaitSatisfied k) s = .next s ∧ exec (.mwto k) s = .next s := by
  rw [exec_mwaitSatisfied, execMwaitSatisfied, exec_mwto, execMwto]
  cases team : s.teams.lookup k with
  | none => exact ⟨rfl, rfl⟩
  | some t =>
    dsimp only
    split
    · next held => exact absurd held (noWait t team _ _ _ _ _ _ _ _)
    · exact ⟨rfl, rfl⟩

end Ends

/-- Settles O21: the instruction by its equation on a granted stamp, and each end of a wait by its own. -/
theorem mwaitCompletes : Obligations.MwaitCompletes := by
  refine ⟨fun s k t d b o ord scope p h q free unwatched legal full granted pub => ?issue,
    fun s k t d b o scope c off h q free unwatched legal full granted lo hi => ?pad,
    fun s k t d va pa target old scope left team waits q noFault => ⟨fun c off granted lo hi => ?padEnds, fun limited passed => ?mwto⟩,
    fun s k t d va pa target old scope left acq team waits => ⟨fun p granted => ?ends, mwaitSatisfied_refused team waits, fun not => ?stays⟩,
    fun s k => ends_of_no_wait⟩
  case issue =>
    intro point s1 s2 r
    rw [mwait_granted h q free.1 unwatched legal full granted pub]
    refine ⟨fun late => ?_, fun ready ends => ?_, fun ready good unmet => ⟨p.offset, ?_⟩⟩
    · rw [mwaitAt_waits late]
    · rw [mwaitAt_ends ready rfl ends]
    · rw [mwaitAt_holds ready rfl good unmet]
  case pad =>
    intro stamp met
    rw [mwait_granted h q free.1 unwatched legal full granted (absurd · (by decide)), noteMisses_pad granted, if_neg (by decide),
      mwaitAt_ends rfl (readStamp_pad lo hi ..) (.inr met), stampTo_ok q (full _ (by simp)).2]
    rfl
  case padEnds =>
    intro stamp
    rw [mwaitSatisfied_read team waits granted]
    dsimp only
    rw [readStamp_pad lo hi]
    dsimp only
    rw [if_neg (by simp [stampReady]), stampTo_ok q noFault]
    simp [Datum.cause, pastStamp, stamp]
  case mwto => rw [mwto_held team waits, if_pos ⟨limited, passed⟩, abandon_mwait waits noFault]
  case ends =>
    intro point r
    rw [mwaitSatisfied_read team waits granted]
    refine ⟨fun late => ?_, fun ready ends => ?_, fun ready good unmet => ?_⟩
    · exact congrArg _ (if_pos late)
    · exact congrArg _ ((if_neg (by rw [ready]; simp)).trans (if_pos ends))
    · exact congrArg _ ((if_neg (by rw [ready]; simp)).trans (if_neg (not_or.2 ⟨not_not.2 good, Bool.eq_false_iff.1 unmet⟩)))
  case stays => rw [mwto_held team waits, if_neg (by tauto)]

end Sys2Proof.Machine
end

section
/-! SUPPORT. Fences, prefetches and cache control (R109, R110, R122 to R126). -/

namespace Sys2Proof.Machine

theorem exec_fence (scope : BitVec 3) (s : State) : exec (.fence scope) s = execFence scope s := rfl
theorem exec_phase (scope : BitVec 3) (s : State) : exec (.phase scope) s = execPhase scope s := rfl
theorem exec_pf (b : BitVec 5) (o : BitVec 6) (s : State) : exec (.pf b o) s = execPf b o s := rfl
theorem exec_cwb (b l : BitVec 5) (scope : BitVec 3) (s : State) : exec (.cwb b l scope) s = cacheControl false b l scope s := rfl
theorem exec_cinv (b l : BitVec 5) (scope : BitVec 3) (s : State) : exec (.cinv b l scope) s = cacheControl true b l scope s := rfl

theorem pointOf_l1_iff (scope : Nat) : pointOf scope = .l1 ↔ scope ≤ 1 := by
  unfold pointOf
  split
  · simp [*]
  · split <;> simp [*]

/-! ### Fences -/

section Fences
variable {s : State} {k : Nat} {t : Team} {scope : BitVec 3}

theorem fence_published (h : Runs s k t) (free : t.acquiring = false) (pub : Published s k t) (legal : scope ≠ 7) (noFault : t.heldFault = none) :
    exec (.fence scope) s = .next (finish (released s t) k t) := by
  rw [exec_fence, execFence, memory_runs h free (by simpa using legal), noFault]
  dsimp only
  rw [releasing_done pub, noFault]

theorem phase_published (h : Runs s k t) (free : t.acquiring = false) (pub : Published s k t) (legal : scope ≠ 7) (noFault : t.heldFault = none) :
    exec (.phase scope) s = .next (finish (if scope.toNat ≤ 1 then released s t else invalidateClean (released s t) t.core) k t) := by
  rw [exec_phase, execPhase, memory_runs h free (by simpa using legal), releasing_done pub]
  dsimp only
  rw [noFault]
  simp only [beq_iff_eq, pointOf_l1_iff]

/-- R110, R123: a `fence` delivers the first data fault that a vector register carries. -/
theorem fence_delivers {r : Nat} {f : DataFault} {rest : NMap DataFault} (h : Runs s k t) (free : t.acquiring = false) (legal : scope ≠ 7)
    (outside : t.inh = false) (carried : t.vFault = (r, f) :: rest) : exec (.fence scope) s = .next (raise s k (t.deliverV f) f.cause f.recs) := by
  have first : t.heldFault = some (t.deliverV f, f) := by
    rw [Team.heldFault, outside, carried]
    rfl
  rw [exec_fence, execFence, memory_runs h free (by simpa using legal), first]

end Fences

/-! ### Prefetches -/

/-- A hit changes what replacement goes by, and no word (R132). -/
theorem hit_eq (b : Blk) (i hint : Nat) : ∃ hints prio sticky, b.hit i hint = { b with hint := hints, prio := prio, sticky := sticky } := by
  unfold Blk.hit
  dsimp only
  split
  · exact ⟨_, _, b.sticky, rfl⟩
  · split
    · exact ⟨_, _, _, rfl⟩
    · exact ⟨_, b.prio, b.sticky, rfl⟩

theorem blk_touch (c : NMap Blk) (pa hint sb : Nat) :
    blk (touch c pa hint) sb = (blk c sb).map fun b => if sb = pa / 256 then b.hit (wordIx pa) hint else b := by
  cases here : blk c (pa / 256) with
  | none =>
    rw [touch, here]
    cases found : blk c sb with
    | none => rfl
    | some b =>
      have other : sb ≠ pa / 256 := fun same => by rw [same, here] at found; cases found
      simp [other]
  | some b =>
    rw [touch, here]
    dsimp only
    rw [blk_setAt]
    by_cases same : sb = pa / 256
    · simp [same, here]
    · simp [same]

theorem held_touch (c : NMap Blk) (pa hint a : Nat) : held (touch c pa hint) a = held c a := by
  rw [held_eq, held_eq, blk_touch]
  cases blk c (a / 256) with
  | none => rfl
  | some b =>
    simp only [Option.map_some, Option.bind_some]
    split
    · exact read_hit b _ _ _
    · rfl

theorem sound_touch (c : NMap Blk) (pa hint a : Nat) : sound (touch c pa hint) a = sound c a := by
  rw [sound, sound, blk_touch]
  cases blk c (a / 256) with
  | none => rfl
  | some b =>
    simp only [Option.map_some]
    split
    · obtain ⟨hints, prio, sticky, eq⟩ := hit_eq b (wordIx pa) hint
      rw [eq]
      rfl
    · rfl

/-- From `s` to `s'` the core has hit words of its L1 and asked for others, and nothing else has changed. -/
structure Prefetched (core : Nat) (s s' : State) : Prop where
  frame : s' = { s with misses := s'.misses, l2q := s'.l2q, cores := s'.cores }
  held : ∀ pa, held (l1Of s' core) pa = held (l1Of s core) pa
  sound : ∀ pa, sound (l1Of s' core) pa = sound (l1Of s core) pa

theorem Prefetched.refl (core : Nat) (s : State) : Prefetched core s s := ⟨rfl, fun _ => rfl, fun _ => rfl⟩

theorem Prefetched.trans {core : Nat} {a b c : State} (h : Prefetched core a b) (g : Prefetched core b c) : Prefetched core a c :=
  ⟨by rw [g.frame, h.frame], fun pa => (g.held pa).trans (h.held pa), fun pa => (g.sound pa).trans (h.sound pa)⟩

theorem Prefetched.changes {core : Nat} {s s' : State} (h : Prefetched core s s') :
    ∃ misses l2q cores, s' = { s with misses := misses, l2q := l2q, cores := cores } := ⟨_, _, _, h.frame⟩

/-- A word that the L1 does not hold is asked for, or its request is under way (R13, R129). -/
theorem enterMiss_prefetched (s : State) (core tenant : Nat) (point : Point) (hint key pa : Nat) :
    Prefetched core s (enterMiss s core tenant point hint key pa) := by
  unfold enterMiss
  dsimp only
  split
  · exact .refl core s
  · split
    · split
      · exact ⟨rfl, fun _ => rfl, fun _ => rfl⟩
      · exact ⟨rfl, fun _ => rfl, fun _ => rfl⟩
    · exact ⟨rfl, fun _ => rfl, fun _ => rfl⟩

/-- What `pf` does for one word once its lane's checks are complete (R109, R132). -/
def prefetchWord (core tenant hint : Nat) (s : State) (c : Check) : State :=
  match c with
  | .go (.mem pa key _) =>
    let pa := pa / 4 * 4
    let s := mendL1 s core pa
    if (held (l1Of s core) pa).isSome then setL1 s core (touch (l1Of s core) pa hint)
    else enterMiss s core tenant .l1 hint key pa
  | _ => s

theorem prefetchWord_prefetched {s : State} {core : Nat} (sounds : ∀ pa, sound (l1Of s core) pa = true) (tenant hint : Nat) (c : Check) :
    Prefetched core s (prefetchWord core tenant hint s c) := by
  have mended : ∀ pa, mendL1 s core pa = s := fun pa => by rw [mendL1, mend, if_pos (sounds pa)]
  unfold prefetchWord
  split
  · dsimp only
    rw [mended]
    split
    · refine ⟨rfl, fun a => ?_, fun a => ?_⟩
      · rw [l1Of_setL1, if_pos rfl, held_touch]
      · rw [l1Of_setL1, if_pos rfl, sound_touch]
    · exact enterMiss_prefetched s ..
  · exact .refl core s

/-- Prefetches in turn, each from a core whose words are sound. -/
theorem Prefetched.foldl {α : Type} {core : Nat} {f : State → α → State}
    (step : ∀ s a, (∀ pa, Machine.sound (l1Of s core) pa = true) → Prefetched core s (f s a)) (l : List α) (s : State)
    (sounds : ∀ pa, Machine.sound (l1Of s core) pa = true) : Prefetched core s (l.foldl f s) := by
  induction l generalizing s with
  | nil => exact .refl core s
  | cons a l ih =>
    have first := step s a sounds
    exact first.trans (ih _ fun pa => (first.sound pa).trans (sounds pa))

/-- A check that is not complete (R107). -/
def Check.isWait : Check → Bool
  | .wait _ => true
  | _ => false
/-- A check that fails. -/
def Check.isFault : Check → Bool
  | .fault _ => true
  | _ => false

theorem isWait_iff (c : Check) : c.isWait = true ↔ ∃ x, c = .wait x := by
  cases c <;> simp [Check.isWait]

/-- The checks of the word, or of the pair, at a lane's address. -/
def laneChecks (s : State) (k : Nat) (t : Team) (wide : Bool) (va : DWord) : List Check :=
  (wordVas va (if wide then 2 else 1)).map fun va => checkAddr s t.core (bandKey k) 1 va .read

/-- The prefetches of the lanes of `pf` whose words pass their checks. -/
def prefetchLanes (s : State) (k : Nat) (t : Team) (wide : Bool) (as : List (Nat × DWord)) : State :=
  as.foldl (fun s' a => if (laneChecks s k t wide a.2).any Check.isFault then s'
    else (laneChecks s k t wide a.2).foldl (prefetchWord t.core (bandOf s (bandKey k)).tenant t.ret) s') s

theorem prefetchLanes_prefetched {s : State} {t : Team} (sounds : ∀ pa, sound (l1Of s t.core) pa = true) (k : Nat) (wide : Bool)
    (as : List (Nat × DWord)) : Prefetched t.core s (prefetchLanes s k t wide as) := by
  refine Prefetched.foldl (fun s' a sounds' => ?_) as s sounds
  split
  · exact .refl _ s'
  · exact Prefetched.foldl (fun s'' c sounds'' => prefetchWord_prefetched sounds'' _ _ c) _ s' sounds'

section Prefetch
variable {s : State} {k : Nat} {t : Team} {b : BitVec 5} {o : BitVec 6} {w : Bool}

/-- R109, R125: `pf` on full registers, where no watchpoint is set. -/
theorem pf_good (h : Runs s k t) (q : Quiet s t) (free : t.acquiring = false) (unwatched : Unwatched s k) (wide : t.wideType = some w)
    (inRange : t.okV false o.toNat = true) (offsets : FullV t [o.toNat]) (base : FullS t [b.toNat]) :
    exec (.pf b o) s = .next (
      let as := offsetAddrs t b o (laneList t t.present)
      let s0 := noteMisses s k t (as.flatMap fun a => wordVas a.2 (if w then 2 else 1))
      if !collectorRoom s0 t.core (as.map fun a => a.1) || as.any fun a => (laneChecks s0 k t w a.2).any Check.isWait then waitHere s0
      else finish (useDenials (prefetchLanes s0 k t w as) (bandOf (prefetchLanes s0 k t w as) (bandKey k)).tenant (as.map fun a => a.2)) k t) := by
  have unhit : ∀ as : List (Nat × DWord), (as.filter fun a => watched (bandOf s (bandKey k)) t true false (widthOf w) a.2) = [] := fun as => by
    simp [watched_none unwatched]
  rw [exec_pf, execPf, memory_runs h free rfl, wide]
  dsimp only
  rw [inRange, if_neg (by simp), gated_good (u := { srcV := [(o.toNat, false)], srcS := [(b.toNat, false)], preds := [t.guardReg] }) _ q offsets base nofun nofun]
  rw [unhit, if_neg (by simp)]
  simp only [laneChecks, prefetchLanes, wordVas, List.map_map, Function.comp_def]
  rfl

theorem pf_waits {as : List (Nat × DWord)} {s0 : State} (full : collectorRoom s0 t.core (as.map fun a => a.1) = false ∨
      ∃ va ∈ as.flatMap fun a => wordVas a.2 (if w then 2 else 1), ∃ x, checkAddr s0 t.core (bandKey k) 1 va .read = .wait x) :
    (!collectorRoom s0 t.core (as.map fun a => a.1) || as.any fun a => (laneChecks s0 k t w a.2).any Check.isWait) = true := by
  rw [Bool.or_eq_true, Bool.not_eq_true']
  refine full.imp_right fun ⟨va, word, late⟩ => ?_
  obtain ⟨a, lane, word⟩ := List.mem_flatMap.1 word
  exact List.any_eq_true.2 ⟨a, lane, List.any_eq_true.2 ⟨_, List.mem_map_of_mem word, (isWait_iff _).2 late⟩⟩

theorem pf_goes {as : List (Nat × DWord)} {s0 : State} (room : collectorRoom s0 t.core (as.map fun a => a.1) = true)
    (complete : ¬ ∃ va ∈ as.flatMap fun a => wordVas a.2 (if w then 2 else 1), ∃ x, checkAddr s0 t.core (bandKey k) 1 va .read = .wait x) :
    ¬ (!collectorRoom s0 t.core (as.map fun a => a.1) || as.any fun a => (laneChecks s0 k t w a.2).any Check.isWait) = true := by
  rw [room, Bool.not_true, Bool.false_or]
  intro waits
  obtain ⟨a, lane, waits⟩ := List.any_eq_true.1 waits
  obtain ⟨c, check, waits⟩ := List.any_eq_true.1 waits
  obtain ⟨va, word, rfl⟩ := List.mem_map.1 check
  exact complete ⟨va, List.mem_flatMap.2 ⟨a, lane, word⟩, (isWait_iff _).1 waits⟩

/-- R125: what prefetches leave behind, from the misses of their addresses to the requests refused. -/
theorem Prefetched.leaves {core : Nat} {s0 s' : State} (h : Prefetched core s0 s') (asked : Asks s s0) (tenant : Nat) (vas : List DWord) :
    let s1 := useDenials s' tenant vas
    s1 = { s with walks := s1.walks, ats := s1.ats, atsDenied := s1.atsDenied, asks := s1.asks, misses := s1.misses, l2q := s1.l2q, cores := s1.cores } ∧
      ∀ pa, Machine.held (l1Of s1 core) pa = Machine.held (l1Of s core) pa := by
  obtain ⟨walks, ats, asks, rfl, -⟩ := asked
  have unheld : ∀ pa, Machine.held (l1Of s' core) pa = Machine.held (l1Of s core) pa := h.held
  obtain ⟨misses, l2q, cores, rfl⟩ := h.changes
  exact ⟨rfl, unheld⟩

end Prefetch

/-! ### Cache control -/

section CacheControl
variable {s : State} {k : Nat} {t : Team} {b l : BitVec 5} {scope : BitVec 3} {inv : Bool}

/-- R126: `cwb` and `cinv` on full registers, of no byte or within the core. -/
theorem cacheControl_nothing (h : Runs s k t) (q : Quiet s t) (free : t.acquiring = false) (legal : scope ≠ 7) (full : FullS t [b.toNat, l.toNat])
    (nothing : t.rs l.toNat = 0 ∨ scope.toNat ≤ 1) : cacheControl inv b l scope s = .next (finish s k t) := by
  rw [cacheControl, memory_runs h free (by simpa using legal),
    gated_good (u := { srcS := [(b.toNat, false), (l.toNat, false)] }) _ q nofun full nofun nofun]
  dsimp only
  rw [if_pos]
  simp only [Bool.or_eq_true, decide_eq_true_eq, beq_iff_eq, pointOf_l1_iff]
  exact nothing.imp_left fun none => by rw [none]; rfl

/-- The words of the range that `cwb` and `cinv` name in `S[b]` and `S[l]`. -/
def controlled (s : State) (k : Nat) (t : Team) (b l : BitVec 5) (pa : Nat) : Bool :=
  (inRange s t.core (bandKey k) (t.rs b.toNat) (t.rs l.toNat).toNat).any fun r => decide (r.1 / 4 * 4 ≤ pa ∧ pa ≤ r.2)

/-- R126: `cwb` and `cinv` of a range beyond the core whose pages pass their checks release its words. -/
theorem cacheControl_range (h : Runs s k t) (q : Quiet s t) (free : t.acquiring = false) (legal : scope ≠ 7) (full : FullS t [b.toNat, l.toNat])
    (bytes : t.rs l.toNat ≠ 0) (beyond : pointOf scope.toNat ≠ .l1)
    (pages : firstMissing (fun p => checkAddr s t.core (bandKey k) 1 p .read) (pageCount (t.rs b.toNat) (t.rs l.toNat).toNat) (t.rs b.toNat) = none) :
    cacheControl inv b l scope s = .next (
      let s1 := noteMisses s k t [t.rs b.toNat]
      let p := controlled s1 k t b l
      releasing s1 k t (pointOf scope.toNat) p fun s t => finish (if inv then dropRange s t.core (pointOf scope.toNat == .home) p else s) k t) := by
  have some : ¬ (decide ((t.rs l.toNat).toNat = 0) || pointOf scope.toNat == .l1) = true := by
    simp only [Bool.or_eq_true, decide_eq_true_eq, beq_iff_eq, not_or]
    exact ⟨fun zero => bytes (BitVec.eq_of_toNat_eq zero), beyond⟩
  rw [cacheControl, memory_runs h free (by simpa using legal),
    gated_good (u := { srcS := [(b.toNat, false), (l.toNat, false)] }) _ q nofun full nofun nofun]
  dsimp only
  rw [if_neg some, pages]
  rfl

/-- A release that begins takes its words; it goes on where they are performed and waits where they are not (R122). -/
theorem releasing_begins (begins : t.release = none) {point : Point} (beyond : point ≠ .l1) (p : Nat → Bool) (cont : State → Team → State) :
    releasing s k t point p cont =
      let s' := capture (flushMisses { s with serial := s.serial + 1 } t.core) t.core (point == .home) false p s.serial
      if releaseDone s' s.serial && !loading s' k then cont s' t else waitHere (setTeam s' k { teamOf s' k with release := some s.serial }) := by
  have outer : ¬ (point == .l1) = true := by simpa using beyond
  rw [releasing, begins]
  dsimp only
  rw [if_neg outer]

/-- A release under way takes no more words. -/
theorem releasing_resumes {id : Nat} (held : t.release = some id) (point : Point) (p : Nat → Bool) (cont : State → Team → State) :
    releasing s k t point p cont =
      if releaseDone s id && !loading s k then cont s t else waitHere (setTeam s k { teamOf s k with release := some id }) := by
  rw [releasing, held]

end CacheControl

/-- Settles O20: fences by their releases, prefetches by what they leave behind, and cache control by its release of a range. -/
theorem fencesAndCacheControlComplete : Obligations.FencesAndCacheControlComplete := by
  refine ⟨⟨fun s k t scope h free pub legal noFault => ⟨fence_published h free.1 pub legal noFault, phase_published h free.1 pub legal noFault⟩,
      fun s k t scope f r rest h free legal outside carried => fence_delivers h free.1 legal outside carried⟩,
    fun s k t h q free unwatched => ⟨fun w b o wide inRange offsets base => ?prefetch, fun b l scope legal full nothing => ?nothing⟩,
    fun s k t b l scope i inv h q free legal full bytes beyond names => ?range⟩
  case prefetch =>
    intro as s0 late
    have asked := noteMisses_asks s k t as
    have cores : s0.cores = s.cores := by
      obtain ⟨walks, ats, asks, eq, -⟩ := asked
      rw [show s0 = _ from eq]
    have lanes : (offsetAddrs t b o (laneList t t.present)).map (fun a => a.1) = laneList t t.present := by
      rw [offsetAddrs, List.map_map]
      exact List.map_id _
    have room : collectorRoom s0 t.core ((offsetAddrs t b o (laneList t t.present)).map fun a => a.1) =
        collectorRoom s t.core (laneList t t.present) := by
      obtain ⟨walks, ats, asks, eq, -⟩ := asked
      rw [lanes, show s0 = _ from eq]
      rfl
    rw [pf_good h q free.1 unwatched wide inRange offsets base]
    refine ⟨fun full => ?_, fun fits complete sounds => ?_⟩
    · exact congrArg _ (if_pos (pf_waits (full.imp_left room.trans)))
    · exact ⟨_, congrArg _ (if_neg (pf_goes (room.trans fits) complete)),
        (prefetchLanes_prefetched (s := s0) (fun pa => by rw [l1Of, cores]; exact sounds pa) k w _).leaves asked _ _⟩
  case nothing =>
    rw [exec_cwb, exec_cinv]
    exact ⟨cacheControl_nothing h q free.1 legal full nothing, cacheControl_nothing h q free.1 legal full nothing⟩
  case range =>
    intro va n pages s1 rs p home ends
    have run : exec i s = cacheControl inv b l scope s := by
      rcases names with ⟨rfl, rfl⟩ | ⟨rfl, rfl⟩
      · exact exec_cwb b l scope s
      · exact exec_cinv b l scope s
    rw [run, cacheControl_range h q free legal full bytes beyond pages]
    exact ⟨fun begins => congrArg _ (releasing_begins begins beyond _ _), fun id held => congrArg _ (releasing_resumes held _ _ _)⟩

end Sys2Proof.Machine
end

section
/-! SUPPORT. The end of lanes and of teams (O26, R152, R157, R158, R171, R327): what `lkill` takes from a team, what R158 makes of a team whose
active lanes have ended, and what is left of one that retires; and the proof of `LanesAndTeamsEnd`. -/

namespace Sys2Proof.Machine

variable {s : State} {k : Nat} {t : Team}

theorem exec_lkill (x : BitVec 5) (s : State) : exec (.lkill x) s = execLkill x s := rfl
theorem exec_exit (s : State) : exec .exit s = execExit s := rfl

/-! ### The end of a lane (R327) -/

theorem lkill_outside (h : Runs s k t) (outside : t.inh = false) (x : BitVec 5) : exec (.lkill x) s = .next (raise s k t cILLOP []) := by
  rw [exec_lkill, execLkill, withTeam_runs h, if_pos (by simp [outside])]
  rfl

/-- In a handler the named lane leaves the live lanes, the saved mask and the saved entries. -/
theorem lkill_inside {x : BitVec 5} (h : Runs s k t) (q : Quiet s t) (full : FullS t [x.toNat]) (inh : t.inh = true) :
    let L := (t.rs x.toNat).toNat
    exec (.lkill x) s = .next (if t.lanes ≤ L then raise s k t cBOUNDS [record 0 cBOUNDS (t.rs x.toNat)]
      else finish s k { t with
        live := t.live &&& ~~~(BitVec.ofNat 1024 (2 ^ L))
        tsmask := t.tsmask &&& ~~~(BitVec.ofNat 1024 (2 ^ L))
        tsstack := t.tsstack.map fun e => { e with mask := e.mask &&& ~~~(BitVec.ofNat 1024 (2 ^ L)) } }) := by
  intro L
  have team : teamOf s k = t := by rw [teamOf, look_of_lookup _ h.2]
  rw [exec_lkill, execLkill, withTeam_runs h, if_neg (by simp [inh]), gated_good (u := { srcS := [(x.toNat, false)] }) _ q nofun full nofun nofun]
  simp only [refuse1, refuse, team]
  rfl

/-! ### A team retires (R158) -/

/-- The team is gone; memory and every other team are as they were. -/
def Gone (s : State) (k : Nat) (s' : State) : Prop :=
  s'.teams.lookup k = none ∧ s'.mem = s.mem ∧ ∀ j, j ≠ k → s'.teams.lookup j = s.teams.lookup j

theorem retireTeam_frame (s : State) (k : Nat) : (retireTeam s k).teams = drop s.teams k ∧ (retireTeam s k).mem = s.mem := by
  unfold retireTeam
  dsimp only
  repeat' split
  all_goals exact ⟨rfl, rfl⟩

theorem retireTeam_gone (s : State) (k : Nat) (t : Team) : Gone s k (retireTeam (setTeam s k t) k) := by
  obtain ⟨teams, mem⟩ := retireTeam_frame (setTeam s k t) k
  refine ⟨?_, mem, fun j other => ?_⟩
  · rw [teams, lookup_drop, if_pos rfl]
  · rw [teams, lookup_drop, if_neg other, setTeam_teams, lookup_setAt, if_neg other]

/-! ### Reconvergence where the active lanes have ended (R157, R158) -/

theorem inh_congr {t u : Team} (same : u.tstat = t.tstat) : u.inh = t.inh := by rw [Team.inh, Team.inh, same]
theorem teamMask_congr {t u : Team} (same : u.rows = t.rows) : teamMask u = teamMask t := by
  rw [teamMask, teamMask, Team.lanes, Team.lanes, same]

/-- Outside a handler a team's masks are held to its live lanes, whatever else of it changes. -/
theorem limit_outside {t u : Team} (outside : t.inh = false) (tstat : u.tstat = t.tstat) (rows : u.rows = t.rows) :
    u.limit = u.live &&& teamMask t := by
  rw [Team.limit, inh_congr tstat, outside, teamMask_congr rows]
  rfl

/-- The team that goes on with the lanes of an entry, above the entries that are left, of which none is spilled. -/
def Team.resumeAt (t : Team) (e : Entry) (rest : List Entry) : Team :=
  { t with stack := rest, spilled := 0, mask := e.mask &&& t.limit, pc := if e.st then e.rpc else e.pc }

/-- The next entry is no reconvergence of the lanes that go on at `pc` with depth `cfd`. -/
def Apart (pc : DWord) (cfd : BitVec 16) (rest : List Entry) : Prop :=
  ∀ r, rest.head? = some r → r.norp = true ∨ r.rpc ≠ pc ∨ r.depth ≠ cfd

theorem reconverge_popsEnded {e : Entry} {rest : List Entry} (n : Nat) (stack : t.stack = e :: rest) (empty : t.mask = 0)
    (ended : e.mask &&& t.limit = 0) : reconverge s k (n + 1) t = reconverge s k n { t with stack := rest } := by
  have inactive : (t.mask &&& t.limit == 0) = true := by simp [empty]
  have same : ({ t with stack := rest, mask := 0 } : Team) = { t with stack := rest } := by rw [← empty]
  have stepped : reconvergeStep s k t = (s, .issue { t with stack := rest }, true) := by
    simp only [reconvergeStep, stack, inactive, if_true, ended, beq_self_eq_true, same]
  rw [reconverge, stepped]

/-- Entries whose lanes have all ended go, one after the other. -/
theorem reconverge_popsAllEnded (dead rest : List Entry) (n : Nat) (stack : t.stack = dead ++ rest) (empty : t.mask = 0)
    (ended : ∀ d ∈ dead, d.mask &&& t.limit = 0) : reconverge s k (dead.length + n) t = reconverge s k n { t with stack := rest } := by
  induction dead generalizing t with
  | nil =>
    have same : ({ t with stack := rest } : Team) = t := by rw [← List.nil_append rest, ← stack]
    rw [same, List.length_nil, Nat.zero_add]
  | cons d dead ih =>
    rw [List.length_cons, Nat.add_right_comm, reconverge_popsEnded (dead.length + n) stack empty (ended d List.mem_cons_self)]
    exact ih (t := { t with stack := dead ++ rest }) rfl empty fun e listed => ended e (List.mem_cons_of_mem _ listed)

theorem reconverge_retires (n : Nat) (stack : t.stack = []) (spilled : t.spilled = 0) (empty : t.mask = 0) (outside : t.inh = false) :
    reconverge s k (n + 1) t = (s, .retire) := by
  have stepped : reconvergeStep s k t = (s, .retire, false) := by
    simp [reconvergeStep, stack, spilled, empty, outside]
  rw [reconverge, stepped]

/-- A team with active lanes, nothing spilled and no entry to reconverge with issues as it is. -/
theorem reconverge_apart (n : Nat) (spilled : t.spilled = 0) (alive : t.mask &&& t.limit ≠ 0) (apart : Apart t.pc t.cfd t.stack) :
    reconverge s k (n + 1) t = (s, .issue { t with mask := t.mask &&& t.limit }) := by
  by_cases bottom : t.stack = []
  · exact reconverge_emptyStack n bottom spilled alive
  · obtain ⟨r, rest, stack⟩ := List.exists_cons_of_ne_nil bottom
    have active : (t.mask &&& t.limit == 0) = false := beq_eq_false_iff_ne.2 alive
    have differs : (!r.norp && r.rpc == t.pc && r.depth == t.cfd) = false := by
      rcases apart r (by rw [stack]; rfl) with norp | pc | depth
      · simp [norp]
      · simp [pc]
      · simp [depth]
    have stepped : reconvergeStep s k t = (s, .issue { t with mask := t.mask &&& t.limit }, false) := by
      simp only [reconvergeStep, stack, active, differs, Bool.false_eq_true, if_false]
    have full := refill_unspilled (t := { t with mask := t.mask &&& t.limit }) s k 8 spilled
    simp only [reconverge, stepped, reloaded, full]

/-- The newest entry that still has lanes goes on. -/
theorem reconverge_resumes {e : Entry} {rest : List Entry} (n : Nat) (stack : t.stack = e :: rest) (spilled : t.spilled = 0)
    (empty : t.mask = 0) (alive : e.mask &&& t.limit ≠ 0) (apart : Apart (if e.st then e.rpc else e.pc) t.cfd rest) :
    reconverge s k (n + 2) t = (s, .issue (t.resumeAt e rest)) := by
  have inactive : (t.mask &&& t.limit == 0) = true := by simp [empty]
  have active : (e.mask &&& t.limit == 0) = false := beq_eq_false_iff_ne.2 alive
  have stepped : reconvergeStep s k t = (s, .issue (t.resumeAt e rest), true) := by
    simp only [reconvergeStep, stack, inactive, active, if_true, Bool.false_eq_true, if_false, Team.resumeAt, ← spilled]
  have held : (t.resumeAt e rest).mask &&& (t.resumeAt e rest).limit = (t.resumeAt e rest).mask := by
    show e.mask &&& t.limit &&& t.limit = e.mask &&& t.limit
    rw [BitVec.and_assoc, BitVec.and_self]
  have settles := reconverge_apart (s := s) (k := k) (t := t.resumeAt e rest) n rfl (held.trans_ne alive) apart
  rw [held] at settles
  rw [reconverge, stepped]
  exact settles

/-- The one spilled entry of a team with none in hardware is read back (R156). -/
theorem reconverge_reloads {s1 : State} {e : Entry} (n : Nat) (stack : t.stack = []) (spilled : t.spilled = 1)
    (read : readSpill s k t 0 = (s1, .ok e)) (unwatched : Unwatched s1 k) :
    reconverge s k (n + 1) t = reconverge s1 k n { t with stack := [e], spilled := 0 } := by
  have filled : refill s k 1 t = (s1, .ok { t with stack := [e], spilled := 0 }) := by
    simp [refill, stack, spilled, read, watched_none unwatched]
  have stepped : reconvergeStep s k t = (s1, .issue { t with stack := [e], spilled := 0 }, true) := by
    simp [reconvergeStep, stack, spilled, filled]
  rw [reconverge, stepped]

theorem readSpill_unwatched (unwatched : Unwatched s k) (t : Team) (i : Nat) : Unwatched (readSpill s k t i).1 k := by
  obtain ⟨-, bands, -⟩ := readSpill_calm s k t i
  show (look ({} : Band) (readSpill s k t i).1.bands (bandKey k)).bp = []
  rw [bands]
  exact unwatched

/-! ### A team proceeds (R158) -/

theorem proceed_issues {s1 : State} {t1 : Team} (empty : t.mask = 0) (ready : reconverge s k t.reconvergeFuel t = (s1, .issue t1)) :
    proceed s k t = setTeam s1 k t1 := by
  rw [proceed, if_neg (by simp [empty]), ready]

theorem proceed_ends (empty : t.mask = 0) (ready : reconverge s k t.reconvergeFuel t = (s, .retire)) :
    proceed s k t = retireTeam (setTeam s k t) k := by
  rw [proceed, if_neg (by simp [empty]), ready]

theorem reconvergeFuel_covers {dead rest : List Entry} (stack : t.stack = dead ++ rest) :
    ∃ n, t.reconvergeFuel = dead.length + (n + 2) :=
  ⟨2 * dead.length + 3 * rest.length + 3 * t.spilled, by rw [Team.reconvergeFuel, stack, List.length_append]; omega⟩

theorem proceed_retires (empty : t.mask = 0) (outside : t.inh = false) (spilled : t.spilled = 0)
    (ended : ∀ e ∈ t.stack, e.mask &&& t.limit = 0) : proceed s k t = retireTeam (setTeam s k t) k := by
  have whole : t.stack = t.stack ++ [] := (List.append_nil _).symm
  obtain ⟨n, fuel⟩ := reconvergeFuel_covers whole
  apply proceed_ends empty
  rw [fuel, reconverge_popsAllEnded t.stack [] (n + 2) whole empty ended]
  exact reconverge_retires (n + 1) rfl spilled empty outside

theorem proceed_resumes {dead : List Entry} {e : Entry} {rest : List Entry} (empty : t.mask = 0) (spilled : t.spilled = 0)
    (stack : t.stack = dead ++ e :: rest) (ended : ∀ d ∈ dead, d.mask &&& t.limit = 0) (alive : e.mask &&& t.limit ≠ 0)
    (apart : Apart (if e.st then e.rpc else e.pc) t.cfd rest) : proceed s k t = setTeam s k (t.resumeAt e rest) := by
  obtain ⟨n, fuel⟩ := reconvergeFuel_covers stack
  apply proceed_issues empty
  rw [fuel, reconverge_popsAllEnded dead (e :: rest) (n + 2) stack empty ended]
  exact reconverge_resumes (t := { t with stack := e :: rest }) n rfl spilled empty alive apart

theorem proceed_reloads {s1 : State} {e : Entry} (empty : t.mask = 0) (spilled : t.spilled = 1) (unwatched : Unwatched s k)
    (ended : ∀ d ∈ t.stack, d.mask &&& t.limit = 0) (read : readSpill s k { t with stack := [] } 0 = (s1, .ok e)) (alive : e.mask &&& t.limit ≠ 0) :
    proceed s k t = setTeam s1 k (t.resumeAt e []) := by
  have whole : t.stack = t.stack ++ [] := (List.append_nil _).symm
  have fuel : t.reconvergeFuel = t.stack.length + (2 * t.stack.length + 2 + 2 + 1) := by rw [Team.reconvergeFuel, spilled]; omega
  have seen : Unwatched s1 k := by
    have := readSpill_unwatched unwatched { t with stack := [] } 0
    rwa [read] at this
  apply proceed_issues empty
  rw [fuel, reconverge_popsAllEnded t.stack [] _ whole empty ended, reconverge_reloads (t := { t with stack := [] }) _ rfl spilled read seen]
  exact reconverge_resumes (t := { t with stack := [e], spilled := 0 }) _ rfl rfl empty alive (fun r listed => by cases listed)

/-! ### `exit` (R158, R171) -/

/-- The team as `exit` leaves it before R158: its region closed and its active lanes ended. -/
def Team.exited (t : Team) : Team :=
  { t with
    dbgctl := BitVec.ofNat 64 (setBits t.dbgctl.toNat 12 2 0)
    credit := false
    count := t.count + 1
    release := none
    age := 1
    rgst := t.rgst &&& ~~~1
    live := t.live &&& ~~~t.mask
    mask := 0 }

theorem exited_eq (t : Team) : { t.issued.closeRegion with live := t.live &&& ~~~t.mask, mask := 0 } = t.exited := by
  simp only [Team.closeRegion, Team.issued, Team.exited]

theorem exited_cleared (t : Team) :
    { t.issued.closeRegion with live := t.live &&& ~~~t.mask, mask := 0, stack := [] } = { t.exited with stack := [] } := by
  simp only [Team.closeRegion, Team.issued, Team.exited]

theorem exit_waits (h : Runs s k t) (busy : outstanding s k = true) : exec .exit s = .next (waitHere s) := by
  rw [exec_exit, execExit, withTeam_runs h, if_pos busy]

theorem exit_inside (h : Runs s k t) (free : outstanding s k = false) (inh : t.inh = true) :
    exec .exit s = .next (retireTeam (setTeam s k { t with live := 0, mask := 0 }) k) := by
  rw [exec_exit, execExit, withTeam_runs h, if_neg (by simp [free]), if_pos inh]

theorem exit_delivers {t' : Team} {f : DataFault} (h : Runs s k t) (free : outstanding s k = false) (outside : t.inh = false)
    (held : t.heldFault = some (t', f)) : exec .exit s = .next (raise s k t' f.cause f.recs) := by
  rw [exec_exit, execExit, withTeam_runs h, if_neg (by simp [free]), if_neg (by simp [outside]), held]

theorem exit_proceeds (h : Runs s k t) (free : outstanding s k = false) (outside : t.inh = false) (faultless : t.heldFault = none) :
    exec .exit s = .next (proceed s k t.exited) := by
  rw [exec_exit, execExit, withTeam_runs h, if_neg (by simp [free]), if_neg (by simp [outside]), faultless]
  dsimp only
  rw [← exited_eq]

theorem exited_limit (outside : t.inh = false) : t.exited.limit = t.live &&& ~~~t.mask &&& teamMask t :=
  limit_outside (u := t.exited) outside rfl rfl

/-- What of the team stays, and what its newest entry with a lane left gives it. -/
theorem exited_resumeAt (outside : t.inh = false) (e : Entry) (rest : List Entry) :
    (t.exited.resumeAt e rest).pc = (if e.st then e.rpc else e.pc) ∧
      (t.exited.resumeAt e rest).mask = e.mask &&& (t.live &&& ~~~t.mask &&& teamMask t) ∧
      (t.exited.resumeAt e rest).live = t.live &&& ~~~t.mask ∧ (t.exited.resumeAt e rest).stack = rest ∧
      (t.exited.resumeAt e rest).spilled = 0 ∧ (t.exited.resumeAt e rest).v = t.v ∧ (t.exited.resumeAt e rest).s = t.s :=
  ⟨rfl, congrArg (e.mask &&& ·) (exited_limit outside), rfl, rfl, rfl, rfl, rfl⟩

section Outside
variable (h : Runs s k t) (free : outstanding s k = false) (outside : t.inh = false) (faultless : t.heldFault = none)
include h free outside faultless

theorem exit_retires (spilled : t.spilled = 0) (ended : ∀ e ∈ t.stack, e.mask &&& (t.live &&& ~~~t.mask &&& teamMask t) = 0) :
    ∃ s', exec .exit s = .next s' ∧ Gone s k s' := by
  rw [← exited_limit outside] at ended
  refine ⟨_, ?_, retireTeam_gone s k t.exited⟩
  rw [exit_proceeds h free outside faultless, proceed_retires (t := t.exited) rfl outside spilled ended]

theorem exit_resumes {dead : List Entry} {e : Entry} {rest : List Entry} (spilled : t.spilled = 0) (stack : t.stack = dead ++ e :: rest)
    (ended : ∀ d ∈ dead, d.mask &&& (t.live &&& ~~~t.mask &&& teamMask t) = 0) (alive : e.mask &&& (t.live &&& ~~~t.mask &&& teamMask t) ≠ 0)
    (apart : Apart (if e.st then e.rpc else e.pc) t.cfd rest) : exec .exit s = .next (setTeam s k (t.exited.resumeAt e rest)) := by
  rw [← exited_limit outside] at ended alive
  rw [exit_proceeds h free outside faultless, proceed_resumes (t := t.exited) rfl spilled stack ended alive apart]

theorem exit_reloads {s1 : State} {e : Entry} (spilled : t.spilled = 1) (unwatched : Unwatched s k)
    (ended : ∀ d ∈ t.stack, d.mask &&& (t.live &&& ~~~t.mask &&& teamMask t) = 0)
    (read : readSpill s k { t.exited with stack := [] } 0 = (s1, .ok e)) (alive : e.mask &&& (t.live &&& ~~~t.mask &&& teamMask t) ≠ 0) :
    exec .exit s = .next (setTeam s1 k (t.exited.resumeAt e [])) := by
  rw [← exited_limit outside] at ended alive
  rw [exit_proceeds h free outside faultless, proceed_reloads (t := t.exited) rfl spilled unwatched ended read alive]

end Outside

/-- Settles O26: a lane ends by `lkill`, and the active lanes and the team by `exit`. -/
theorem lanesAndTeamsEnd : Obligations.LanesAndTeamsEnd := by
  refine ⟨fun s k t x h q full => ⟨fun outside => lkill_outside h outside x, lkill_inside h q full⟩, fun s k t h => ?_⟩
  intro gone
  refine ⟨exit_waits h, fun free inh => ⟨_, exit_inside h free inh, retireTeam_gone s k _⟩, fun free outside =>
    ⟨fun t' f held => exit_delivers h free outside held, fun faultless => ?_⟩⟩
  intro left ended goesOn
  refine ⟨exit_retires h free outside faultless, fun dead e rest spilled stack all alive apart => ?resumes, ?reloads,
    fun _ => (exit_proceeds h free outside faultless).trans (congrArg (fun u => Host.Outcome.next (proceed s k u)) (exited_eq t).symm)⟩
  case resumes => exact ⟨_, exit_resumes h free outside faultless spilled stack all alive apart, exited_resumeAt outside e rest⟩
  case reloads =>
    intro t1 r spilled unwatched all e read alive
    have cleared : t1 = { t.exited with stack := [] } := exited_cleared t
    have found : readSpill s k { t.exited with stack := [] } 0 = (r.1, .ok e) := by
      rw [← cleared]
      exact Prod.ext rfl read
    exact ⟨_, exit_reloads h free outside faultless spilled unwatched all found alive, exited_resumeAt outside e []⟩

end Sys2Proof.Machine
end

section
/-! SUPPORT. Traps (O27, R150, R151, R185 to R191): when a trap waits, what its entry saves and sets, when it restarts a region, and when it ends
the launch; and the proof of `TrapEntry`. -/

namespace Sys2Proof.Machine

variable {s : State} {k : Nat} {t : Team}

theorem exec_trapEntry (k : Nat) (s : State) : exec (.trapEntry k) s = execTrapEntry k s := rfl
theorem exec_regionRestart (k : Nat) (s : State) : exec (.regionRestart k) s = execRegionRestart k s := rfl

/-! ### Leaving the order of the tables -/

@[simp] theorem outstanding_leaveTables (s : State) (core j k : Nat) : outstanding (leaveTables s core j) k = outstanding s k := by
  obtain ⟨cs, eq, -⟩ := leaveTables_eq s core j
  rw [eq]
  rfl

/-- The error record of a team does not depend on the cores. -/
@[simp] theorem trapErr_leaveTables (s : State) (core j k : Nat) (t : Team) : trapErr (leaveTables s core j) k t = trapErr s k t := by
  obtain ⟨cs, eq, -⟩ := leaveTables_eq s core j
  rw [eq]
  rfl

/-! ### A trap is raised (R49, R185) -/

theorem raise_waits (busy : outstanding s k = true) (cause : Nat) (recs : List Rec) :
    raise s k t cause recs = setTeam (leaveTables s t.core k) k
      { t with trapping := some { cause := cause, recs := recs, tepc := t.pc }, release := none } := by
  rw [raise, raiseAt, outstanding_leaveTables, if_pos busy]

theorem raise_taken (free : outstanding s k = false) (cause : Nat) (recs : List Rec) :
    raise s k t cause recs = takeTrap (leaveTables s t.core k) k t { cause := cause, recs := recs, tepc := t.pc } := by
  rw [raise, raiseAt, outstanding_leaveTables, if_neg (by simp [free])]

theorem restarts_closed (closed : t.regionOpen = false) (cause : Nat) : t.restarts cause = false := by
  simp [Team.restarts, closed]

theorem restarts_open {cause : Nat} (isOpen : t.regionOpen = true) (restarting : cause ∈ [8, 9, 10]) (again : t.tries < 3) :
    t.restarts cause = true := by
  simp only [List.mem_cons, List.not_mem_nil, or_false] at restarting
  rcases restarting with rfl | rfl | rfl <;> simp [Team.restarts, isOpen, again]

theorem takeTrap_restarts {q : TrapReq} (restarts : t.restarts q.cause = true) : takeTrap s k t q = restartRegion s k t := by
  rw [takeTrap, if_pos restarts]

theorem takeTrap_doubles {q : TrapReq} (once : t.restarts q.cause = false) (inh : t.inh = true) :
    takeTrap s k t q = doubleTrap s k t q.cause q.tepc := by
  rw [takeTrap, if_neg (by simp [once]), if_pos inh]

theorem takeTrap_enters {q : TrapReq} (once : t.restarts q.cause = false) (inh : t.inh = false) : takeTrap s k t q = enterTrap s k t q := by
  rw [takeTrap, if_neg (by simp [once]), if_neg (by simp [inh])]

/-! ### Trap entry (R151, R186, R190) -/

/-- The team in its handler, after a trap with no record: `enterTrap_recordless` ties it to the model. -/
def Team.trapped (t : Team) (q : TrapReq) : Team :=
  { t with
    tepc := q.tepc
    tcause := BitVec.ofNat 64 q.cause
    frcnt := 0
    frlost := 0
    tsmode := t.mode
    tsjpc := t.jpc
    tsmask := t.mask
    tsstack := t.stack
    tsspilled := t.spilled
    tscfd := t.cfd
    tstat := BitVec.ofNat 64 (1 + (t.tstat.toNat / 2 ^ 32 + 1) % 2 ^ 32 * 2 ^ 32)
    rgst := t.rgst &&& ~~~1
    mode := 0
    cfd := 0
    jpc := 0
    stack := []
    spilled := 0
    pc := t.tvec
    hold := .free
    release := none
    credit := false
    dbgctl := BitVec.ofNat 64 (setBits t.dbgctl.toNat 12 2 0)
    trapping := none }

theorem enterTrap_recordless {q : TrapReq} (recordless : q.recs = []) (vector : t.tvec ≠ 0) :
    enterTrap s k t q = setTeam s k (t.trapped q) := by
  simp only [enterTrap, recordless, List.take_nil, writeRecs, if_neg vector]
  rfl

theorem enterTrap_unvectored {q : TrapReq} (recordless : q.recs = []) (unset : t.tvec = 0) :
    enterTrap s k t q = errorCompletion s { trapErr s k t with kind := 0, cause := q.cause, pc := q.tepc } := by
  simp only [enterTrap, recordless, List.take_nil, writeRecs, if_pos unset]

/-- R190: a trap whose first record cannot be written is a double trap. -/
theorem enterTrap_unwritten {q : TrapReq} {f : Nat} (recorded : q.recs ≠ [])
    (refused : checkAddr s t.core (bandKey k) 16 t.frecb .write = .fault f) :
    enterTrap s k t q = errorCompletion s { trapErr s k t with kind := 1, cause := q.cause, pc := q.tepc, cause2 := f, pc2 := q.tepc } := by
  obtain ⟨r, rest, recs⟩ := List.exists_cons_of_ne_nil recorded
  have first : t.frecb + BitVec.ofNat 64 (16 * 0) = t.frecb := by simp
  simp only [enterTrap, recs, List.take_succ_cons, writeRecs, first, refused]

/-- The sequence number of TSTAT lies above its bit INH. -/
theorem trapped_inh (t : Team) (q : TrapReq) : (t.trapped q).inh = true := by
  rw [Team.inh, Team.trapped, bit, Nat.testBit_zero, BitVec.toNat_ofNat]
  simp only [decide_eq_true_eq]
  omega

/-! ### The restart of a region (R191) -/

/-- What delivering the faults of a region writes back: vector registers only. -/
theorem foldl_undo_frame (faults : NMap DataFault) (t : Team) :
    faults.foldl (fun t e => t.undo e.2) t = { t with v := (faults.foldl (fun t e => t.undo e.2) t).v } := by
  induction faults generalizing t with
  | nil => rfl
  | cons e faults ih => rw [List.foldl_cons, ih]; rfl

theorem filter_unlisted (faults : NMap DataFault) : (faults.filter fun e => !(faults.map fun e => e.1).contains e.1) = [] := by
  rw [List.filter_eq_nil_iff]
  intro e listed
  simpa using ⟨e.2, listed⟩

theorem tries_setBits {u : Team} {r : DWord} {n : Nat} (counted : u.rgst = BitVec.ofNat 64 (setBits r.toNat 1 2 (n + 1))) (few : n < 3) :
    u.tries = n + 1 := by
  have := r.isLt
  rw [Team.tries, counted, BitVec.toNat_ofNat, setBits, bits, bits]
  omega

/-- The team is at its region's beginning, one try further, with no fault held. -/
theorem restartRegion_restarts (outside : t.inh = false) (again : t.tries < 3) :
    ∃ t', restartRegion s k t = setTeam s k t' ∧ t'.pc = t.rgpc ∧ t'.mask = t.rgmask &&& (t.live &&& teamMask t) ∧ t'.tries = t.tries + 1 ∧
      t'.jpc = 0 ∧ t'.trapping = none ∧ t'.vFault = [] ∧ t'.sFault = [] := by
  rw [restartRegion, foldl_undo_frame]
  simp only [Team.unfaultV, Team.unfaultS, Team.fillV, Team.fillS, Team.cutStack, filter_unlisted]
  refine ⟨_, rfl, rfl, congrArg (t.rgmask &&& ·) ?_, tries_setBits (r := t.rgst) rfl again, rfl, rfl, rfl, rfl⟩
  exact limit_outside outside rfl rfl

/-! ### The trap that waits (R151, R185, R191) -/

theorem readyTrap_waiting {q : TrapReq} (team : s.teams.lookup k = some t) (free : outstanding s k = false) (waits : t.trapping = some q) :
    readyTrap s k = some ({ t with trapping := none }, q) := by
  rw [readyTrap, team]
  simp [waits, free]

theorem trap_unready (unready : readyTrap s k = none) : exec (.trapEntry k) s = .next s ∧ exec (.regionRestart k) s = .next s := by
  rw [exec_trapEntry, exec_regionRestart, execTrapEntry, execRegionRestart, unready]
  exact ⟨rfl, rfl⟩

theorem trap_restarts {q : TrapReq} (ready : readyTrap s k = some (t, q)) (restarts : t.restarts q.cause = true) :
    exec (.trapEntry k) s = .next s ∧ exec (.regionRestart k) s = .next (restartRegion s k t) := by
  rw [exec_trapEntry, exec_regionRestart, execTrapEntry, execRegionRestart, ready]
  dsimp only
  rw [if_pos restarts, if_pos restarts]
  exact ⟨rfl, rfl⟩

theorem trap_enters {q : TrapReq} (ready : readyTrap s k = some (t, q)) (once : t.restarts q.cause = false) :
    exec (.trapEntry k) s = .next (takeTrap s k t q) ∧ exec (.regionRestart k) s = .next s := by
  have not : ¬ t.restarts q.cause = true := by simp [once]
  rw [exec_trapEntry, exec_regionRestart, execTrapEntry, execRegionRestart, ready]
  dsimp only
  rw [if_neg not, if_neg not]
  exact ⟨rfl, rfl⟩

/-- TRAP_ENTRY of a trap with no record that has waited outside a handler and outside a region. -/
theorem trap_entersRecordless {q : TrapReq} (ready : readyTrap s k = some (t, q)) (recordless : q.recs = []) (outside : t.inh = false)
    (closed : t.regionOpen = false) (vector : t.tvec ≠ 0) : exec (.trapEntry k) s = .next (setTeam s k (t.trapped q)) := by
  have once := restarts_closed closed q.cause
  rw [(trap_enters ready once).1, takeTrap_enters once outside, enterTrap_recordless recordless vector]

/-! ### The launch ends (R150) -/

theorem errorCompletion_recorded {r : ErrRec} (going : (launchOf s r.launch).ended = false) :
    (errorCompletion s r).errors.lookup r.launch = some r := by
  rw [errorCompletion, if_neg (by simp [going])]
  dsimp only
  rw [lookup_setAt, if_pos rfl]

/-- Settles O27: each trap waits, enters its handler, restarts its region or ends the launch. -/
theorem trapEntry : Obligations.TrapEntry := by
  refine ⟨⟨fun s k t cause free outside closed vector => ?enters, fun s k t cause recs busy => raise_waits busy cause recs⟩,
    fun s k t cause tepc team free waits outside => ⟨fun closed vector => ?entry, fun isOpen restarting again => ?restart⟩,
    fun s k => ⟨trap_unready, fun t q ready => ⟨trap_restarts ready, trap_enters ready⟩⟩,
    fun s k t cause f recs free once => ?ends,
    fun s r going => errorCompletion_recorded going⟩
  case enters =>
    rw [raise_taken free, takeTrap_enters (restarts_closed closed cause) outside, enterTrap_recordless rfl vector]
    rfl
  case entry =>
    exact ⟨_, trap_entersRecordless (readyTrap_waiting team free waits) rfl outside closed vector, rfl, rfl, rfl, rfl, rfl, rfl, rfl, trapped_inh _ _⟩
  case restart =>
    have restarts : ({ t with trapping := none } : Team).restarts cause = true := restarts_open isOpen restarting again
    obtain ⟨t', done, parts⟩ := restartRegion_restarts (s := s) (k := k) (t := { t with trapping := none }) outside again
    exact ⟨t', (trap_restarts (readyTrap_waiting team free waits) restarts).2.trans (congrArg _ done), parts⟩
  case ends =>
    intro s1 b e
    refine ⟨fun inh => ?_, fun outside unset => ?_, fun outside recorded refused => ?_⟩
    · rw [raise_taken free, takeTrap_doubles once inh, doubleTrap, trapErr_leaveTables]
      rfl
    · rw [raise_taken free, takeTrap_enters once outside, enterTrap_unvectored rfl unset, trapErr_leaveTables]
      rfl
    · rw [raise_taken free, takeTrap_enters once outside, enterTrap_unwritten recorded refused, trapErr_leaveTables]
      rfl

end Sys2Proof.Machine
end

section
/-! SUPPORT. The management interface (O53, R146, R150, R348, R351, R384 to R400): when a command is answered, what each of them changes, and
what the words of its answer are; and the proof of `ManagementCommandsComplete`. -/

namespace Sys2Proof.Machine

/-! ### Maps that lose keys, and bit fields -/

theorem look_filterKeys {α : Type} (d : α) (keep : Nat → Bool) (m : NMap α) (k : Nat) :
    look d (m.filter fun e => keep e.1) k = if keep k then look d m k else d := by
  induction m with
  | nil => simp [look]
  | cons e m ih =>
    obtain ⟨a, v⟩ := e
    rw [List.filter_cons, look_cons]
    by_cases here : k = a
    · subst here
      split
      · rw [look_cons, if_pos rfl, if_pos rfl]
      · rename_i gone
        rw [ih, if_neg gone]
    · rw [if_neg here]
      split
      · rw [look_cons, if_neg here, ih]
      · exact ih

theorem bit_eq_decide (x i : Nat) : bit x i = decide (x / 2 ^ i % 2 = 1) := Nat.testBit_eq_decide_div_mod_eq

/-! ### When a command is answered (R393, R400) -/

theorem exec_counterRead (unit : Nat) (s : State) : exec (.counterRead unit) s = execCounterRead unit s := rfl
theorem exec_counterClear (unit : Nat) (s : State) : exec (.counterClear unit) s = execCounterClear unit s := rfl
theorem exec_rasLogRead (s : State) : exec .rasLogRead s = execRasLogRead s := rfl
theorem exec_errorRecordRead (launch : Nat) (s : State) : exec (.errorRecordRead launch) s = execErrorRecordRead launch s := rfl
theorem exec_tenantCreate (root : Nat) (s : State) : exec (.tenantCreate root) s = execTenantCreate root s := rfl
theorem exec_tenantDestroy (t : Nat) (s : State) : exec (.tenantDestroy t) s = execTenantDestroy t s := rfl
theorem exec_fattrWrite (f : Nat) (v : BitVec 2) (s : State) : exec (.fattrWrite f v) s = execFattrWrite f v s := rfl
theorem exec_formatWindowEnable (n : Nat) (s : State) : exec (.formatWindowEnable n) s = execFormatWindowEnable n s := rfl
theorem exec_formatWindowDisable (n : Nat) (s : State) : exec (.formatWindowDisable n) s = execFormatWindowDisable n s := rfl
theorem exec_managementRegisterWrite (n : Nat) (x : DWord) (s : State) :
    exec (.managementRegisterWrite n x) s = execManagementRegisterWrite n x s := rfl
theorem exec_attestationReport (t n : Nat) (s : State) : exec (.attestationReport t n) s = execAttestationReport t n s := rfl

/-- The commands of the management interface that are answered one at a time. -/
theorem exec_managed (n m : Nat) (v : DWord) (a : BitVec 2) :
    ∀ i ∈ [Instr.counterRead n, .counterClear n, .rasLogRead, .errorRecordRead n, .tenantCreate n, .tenantDestroy n, .fattrWrite n a,
      .formatWindowEnable n, .formatWindowDisable n, .managementRegisterWrite n v, .attestationReport n m], ∃ f, ∀ s, exec i s = managed s f := by
  simp only [List.forall_mem_cons]
  exact ⟨⟨_, exec_counterRead n⟩, ⟨_, exec_counterClear n⟩, ⟨_, exec_rasLogRead⟩, ⟨_, exec_errorRecordRead n⟩, ⟨_, exec_tenantCreate n⟩,
    ⟨_, exec_tenantDestroy n⟩, ⟨_, exec_fattrWrite n a⟩, ⟨_, exec_formatWindowEnable n⟩, ⟨_, exec_formatWindowDisable n⟩,
    ⟨_, exec_managementRegisterWrite n v⟩, ⟨_, exec_attestationReport n m⟩,
    fun _ none => absurd none List.not_mem_nil⟩

theorem managed_failed {s : State} (failed : s.bootFailed = true) (f : State → State) : managed s f = .next s := if_pos failed

theorem managed_busy {s : State} (up : s.bootFailed = false) (waits : s.command ≠ none) (f : State → State) : managed s f = .next (busy s) := by
  rw [managed, if_neg (by simp [up]), if_pos (Option.isSome_iff_ne_none.2 waits)]

/-- The state in which a command is carried out: nothing is answered yet. -/
def unanswered (s : State) : State := { s with replies := [] }

theorem managed_answers {s : State} (up : s.bootFailed = false) (idle : s.command = none) (f : State → State) :
    managed s f = .next (f (unanswered s)) := by
  rw [managed, if_neg (by simp [up]), if_neg (by simp [idle])]
  rfl

/-! ### Commands that wait for the host (R149, R287, R291, R351) -/

section Waiting
variable {s : State}

theorem finishCommand_idle (idle : s.command = none) : finishCommand s = s := by rw [finishCommand, idle]

theorem finishCommand_leaveHc {f : Nat} (waits : s.command = some (.leaveHc f)) : finishCommand s =
    if heldLines s f = [] then { s with fattr := putAt 1 s.fattr f 1, command := none } else recallLines s (heldLines s f) := by
  rw [finishCommand, waits]
  simp only [List.isEmpty_iff]

/-- A frame of which the host holds nothing leaves HC at once. -/
theorem beginCommand_leaveHc_leaves {f : Nat} (none : heldLines s f = []) :
    beginCommand s (.leaveHc f) = { s with fattr := putAt 1 s.fattr f 1, command := .none } :=
  (finishCommand_leaveHc rfl).trans (if_pos none)

theorem beginCommand_leaveHc_recalls {f : Nat} (holds : heldLines s f ≠ []) :
    beginCommand s (.leaveHc f) = recallLines { s with command := some (.leaveHc f) } (heldLines s f) :=
  (finishCommand_leaveHc rfl).trans (if_neg holds)

theorem finishCommand_table {t : Nat} (waits : s.command = some (.table t)) :
    let r := attempt s fun s => writeL2p s t
    finishCommand s = if r.2 then { r.1 with command := none } else r.1 := by
  rw [finishCommand, waits]

theorem finishCommand_deep {k : Nat} (waits : s.command = some (.deep k)) : finishCommand s =
    if deepLines s k = [] then deepRetire { s with command := none } k else recallLines s (deepLines s k) := by
  rw [finishCommand, waits]
  simp only [List.isEmpty_iff]

section Launch
variable {i pa : Nat} (waits : s.command = some (.launch i pa))
include waits

theorem finishCommand_launchFull (full : 64 ≤ (queued s (i / 64 % 8) (i % 4) (i / 4 % 16)).length) :
    finishCommand s = busy { s with command := none } := by
  rw [finishCommand, waits]
  exact if_pos (decide_eq_true full)

theorem finishCommand_launchReady (room : (queued s (i / 64 % 8) (i % 4) (i / 4 % 16)).length < 64)
    (ready : ∀ a ∈ lineWords pa, readableNow s a = true) : finishCommand s = hostLaunch { s with command := none } i pa := by
  have unfilled : ¬ launchFull s i = true := by simpa [launchFull] using room
  rw [finishCommand, waits]
  exact (if_neg unfilled).trans (if_pos (List.all_eq_true.2 ready))

theorem finishCommand_launchAsks (room : (queued s (i / 64 % 8) (i % 4) (i / 4 % 16)).length < 64)
    (unready : ∃ a ∈ lineWords pa, readableNow s a = false) :
    finishCommand s = (lineWords pa).foldl (fun s a => askHost s a false) s := by
  have unfilled : ¬ launchFull s i = true := by simpa [launchFull] using room
  have late : ¬ (lineWords pa).all (readableNow s) = true := by simpa using unready
  rw [finishCommand, waits]
  exact (if_neg unfilled).trans (if_neg late)

end Launch

/-- The eight words of a packet, from the data of its line. -/
def packetWords (ds : List Datum) : List DWord :=
  (List.range 8).map fun j => (joinData (ds.getD (2 * j) .poison) (ds.getD (2 * j + 1) .poison)).2

/-- What was read is no packet: a word is faulty, or the words fail a check of R260. -/
def NoPacket (ds : List Datum) : Prop :=
  (∃ d ∈ ds, d.cause ≠ 0) ∨ launchIllop (packetWords ds) = true ∨ launchCheck (packetWords ds) ≠ none

theorem noPacket_iff (ds : List Datum) :
    ((ds.any fun d => d.cause != 0) || launchIllop (packetWords ds) || (launchCheck (packetWords ds)).isSome) = true ↔ NoPacket ds := by
  simp [NoPacket, Option.isSome_iff_ne_none, or_assoc]

theorem hostLaunch_refused {s1 : State} {pa : Nat} {ds : List Datum} (i : Nat) (read : readLine s pa = (s1, ds)) (bad : NoPacket ds) :
    hostLaunch s i pa = busy s := by
  rw [hostLaunch, read]
  exact if_pos ((noPacket_iff ds).2 bad)

theorem hostLaunch_appends {s1 s3 : State} {i pa : Nat} {ds : List Datum} (read : readLine s pa = (s1, ds)) (good : ¬ NoPacket ds)
    (room : appendLaunch (((lineWords pa).zip ds).foldl (fun s d => consume s d.1 d.2) s1) (i / 64 % 8) (i % 4) (i / 4 % 16) (bit i 9)
      (packetWords ds) = some s3) : hostLaunch s i pa = setLaunch s3 s3.serial { launchOf s3 s3.serial with spans := bit i 10 } := by
  have packet := mt (noPacket_iff ds).1 good
  rw [packetWords] at room packet
  rw [hostLaunch, read]
  dsimp only
  rw [if_neg packet, room]

end Waiting

/-! ### What is read (R150, R325, R363, R384, R385) -/

theorem counterWords_unit {s : State} {unit : Nat} (small : unit < 100000) :
    counterWords s unit = (List.range 21).map fun c => BitVec.ofNat 64 (look 0 s.counters (64 * unit + c)) := by
  rw [counterWords, if_neg (by omega), if_neg (by omega), if_neg (by omega), if_neg (by omega), if_neg (by omega)]

theorem counterWords_band (s : State) {band : Nat} (inRange : band < 99999) :
    counterWords s (300000 + band) = [BitVec.ofNat 64 (((s.bands.lookup band).map fun b => b.run.code).getD 0)] := by
  rw [counterWords, if_neg (by omega), if_neg (by omega), if_neg (by omega), if_pos (by omega), Nat.add_sub_cancel_left]

theorem counterWords_losses (s : State) : counterWords s 399999 = s.losses.flatMap Loss.words := rfl

theorem counterWords_frame (s : State) (f : Nat) : counterWords s (500000 + f) = [(look 1 s.fattr f).setWidth 64] := by
  rw [counterWords, if_pos (by omega), Nat.add_sub_cancel_left]

theorem code_halted_only {r : Run} (other : r ≠ .halted) : r.code ≠ 3 := by
  cases r
  case halted => exact absurd rfl other
  all_goals decide

section Answers
variable {s : State} (up : s.bootFailed = false) (idle : s.command = none)
include up idle

theorem counterRead_answers (unit : Nat) : exec (.counterRead unit) s = .next { s with replies := counterWords s unit } :=
  (exec_counterRead unit s).trans (managed_answers up idle _)

theorem rasLogRead_answers : exec .rasLogRead s = .next { s with replies := s.ras.flatMap Ras.words } :=
  (exec_rasLogRead s).trans (managed_answers up idle _)

theorem errorRecordRead_answers (launch : Nat) :
    exec (.errorRecordRead launch) s = .next { s with replies := ((s.errors.lookup launch).map ErrRec.words).getD [] } := by
  have errors : (unanswered s).errors = s.errors := rfl
  rw [exec_errorRecordRead, execErrorRecordRead, managed_answers up idle, errors]
  cases s.errors.lookup launch <;> rfl

/-! ### Counters that are cleared (R384) -/

theorem counterClear_none {unit : Nat} (other : 300000 ≤ unit) : exec (.counterClear unit) s = .next (unanswered s) := by
  rw [exec_counterClear, execCounterClear, managed_answers up idle, if_pos other]

theorem counterClear_channel {unit : Nat} (channel : 100000 ≤ unit) (below : unit < 300000) :
    ∃ s', exec (.counterClear unit) s = .next s' ∧ s' = { s with drams := s'.drams, replies := [] } ∧
      ∀ k c, let key := 8 * ((unit - 100000) % 512) + c
        c < 8 → look 0 (dram s' k).counts key = if k = (unit - 100000) / 512 then 0 else look 0 (dram s k).counts key := by
  rw [exec_counterClear, execCounterClear, managed_answers up idle, if_neg (by omega), if_pos channel]
  refine ⟨_, rfl, rfl, ?_⟩
  intro k c key inRange
  rw [dram, setDram, look_setAt]
  split
  · have mine : (key / 8 != (unit - 100000) % 512) = false := by
      rw [bne_eq_false_iff_eq]
      omega
    dsimp only
    rw [look_filterKeys 0 (fun a => a / 8 != (unit - 100000) % 512), mine]
    rfl
  · rfl

theorem counterClear_unit {unit : Nat} (small : unit < 100000) :
    ∃ s', exec (.counterClear unit) s = .next s' ∧ s' = { s with counters := s'.counters, replies := [] } ∧
      ∀ u c, c < 64 → look 0 s'.counters (64 * u + c) = if u = unit then 0 else look 0 s.counters (64 * u + c) := by
  rw [exec_counterClear, execCounterClear, managed_answers up idle, if_neg (by omega), if_neg (by omega)]
  refine ⟨_, rfl, rfl, fun u c inRange => ?_⟩
  have key : (64 * u + c) / 64 = u := by omega
  dsimp only
  rw [look_filterKeys 0 (fun a => a / 64 != unit), key]
  by_cases mine : u = unit <;> simp [mine, unanswered]

end Answers

/-! ### Tenants and their keys (R387, R390) -/

@[simp] theorem tenantOf_setTenant (s : State) (t j : Nat) (x : Tenant) : tenantOf (setTenant s t x) j = if j = t then x else tenantOf s j :=
  look_setAt _ _ _ _ _

/-- A new pair of keys is given to one tenant's slot. -/
theorem newKey_tenants (s : State) (t : Nat) : ∃ key1 key2, ∀ j, tenantOf (newKey s t) j = if j = t then
    { tenantOf s t with keyed := true, keyGen := (tenantOf s t).keyGen + 1, key1 := key1, key2 := key2 } else tenantOf s j :=
  ⟨_, _, fun j => tenantOf_setTenant (dropSealed s fun k => k == t + 1) t j _⟩

/-- A core keeps the translations that are not dropped. -/
theorem tlbOf_dropTranslations (s : State) (p : Trans → Bool) (core : Nat) :
    tlbOf (dropTranslations s p) core = (tlbOf s core).filter fun x => !p x := by
  have mapped := look_mapValues ({} : Core) (fun _ c => { c with tlb := c.tlb.filter fun x => !p x }) s.cores core
  refine (congrArg Core.tlb mapped).trans ?_
  split
  · rfl
  · rename_i unlisted
    have fresh : look ({} : Core) s.cores core = {} := look_of_lookup_none _ (Option.not_isSome_iff_eq_none.1 unlisted)
    rw [tlbOf, fresh]
    rfl

section Tenants
variable {s : State} (up : s.bootFailed = false) (idle : s.command = none)
include up idle

theorem tenantCreate_lowest (root : Nat) {t : Nat} (inRange : t < 16) (free : (tenantOf s t).created = false)
    (lower : ∀ j < t, (tenantOf s j).created = true) :
    ∃ s', exec (.tenantCreate root) s = .next s' ∧ s'.replies = [BitVec.ofNat 64 t] ∧ (tenantOf s' t).created = true ∧
      (tenantOf s' t).pageRoot = root ∧ (tenantOf s' t).keyed = true ∧ (tenantOf s' t).keyGen = (tenantOf s t).keyGen + 1 ∧
      ∀ j, j ≠ t → tenantOf s' j = tenantOf s j := by
  have first : ((List.range 16).find? fun t => !(tenantOf (unanswered s) t).created) = some t := by
    rw [List.find?_range_eq_some]
    refine ⟨?_, List.mem_range.2 inRange, fun j below => ?_⟩
    · exact congrArg (! ·) free
    · exact congrArg (!! ·) (lower j below)
  rw [exec_tenantCreate, execTenantCreate, managed_answers up idle, first]
  let s1 := setTenant (unanswered s) t { created := true, pageRoot := root, keyGen := (tenantOf s t).keyGen }
  obtain ⟨key1, key2, tenants⟩ := newKey_tenants s1 t
  have own := tenants t
  rw [if_pos rfl, tenantOf_setTenant, if_pos rfl] at own
  refine ⟨{ newKey s1 t with replies := [BitVec.ofNat 64 t] }, rfl, rfl, ?_⟩
  have same : ∀ j, tenantOf { newKey s1 t with replies := [BitVec.ofNat 64 t] } j = tenantOf (newKey s1 t) j := fun _ => rfl
  rw [same, own]
  refine ⟨rfl, rfl, rfl, rfl, fun j other => ?_⟩
  rw [same, tenants, if_neg other, tenantOf_setTenant, if_neg other]
  rfl

theorem tenantCreate_taken (root : Nat) (taken : ∀ j < 16, (tenantOf s j).created = true) :
    exec (.tenantCreate root) s = .next (busy s) := by
  have none : ((List.range 16).find? fun t => !(tenantOf (unanswered s) t).created) = none := by
    rw [List.find?_range_eq_none]
    exact fun j inRange => congrArg (!! ·) (taken j inRange)
  rw [exec_tenantCreate, execTenantCreate, managed_answers up idle, none]
  rfl

theorem tenantDestroy_busy {t : Nat} (inUse : tenantBusy s t = true) : exec (.tenantDestroy t) s = .next (busy s) := by
  rw [exec_tenantDestroy, execTenantDestroy, managed_answers up idle, if_pos (show tenantBusy (unanswered s) t = true from inUse)]
  rfl

theorem tenantDestroy_destroys {t : Nat} (unused : tenantBusy s t = false) :
    ∃ s', exec (.tenantDestroy t) s = .next s' ∧ (tenantOf s' t).created = false ∧ (tenantOf s' t).keyed = false ∧
      (∀ c, ∀ x ∈ tlbOf s' c, x.tenant ≠ t) ∧ ∀ j, j ≠ t → tenantOf s' j = tenantOf s j := by
  have free : ¬ tenantBusy (unanswered s) t = true := by
    rw [show tenantBusy (unanswered s) t = tenantBusy s t from rfl, unused]
    decide
  rw [exec_tenantDestroy, execTenantDestroy, managed_answers up idle, if_neg free]
  refine ⟨_, rfl, ?_, ?_, fun c x listed => ?_, fun j other => ?_⟩
  · rw [tenantOf_setTenant, if_pos rfl]
  · rw [tenantOf_setTenant, if_pos rfl]
  · have kept : x ∈ tlbOf (dropTranslations (dropSealed (unanswered s) fun k => k == t + 1) fun x => x.tenant == t) c := listed
    rw [tlbOf_dropTranslations] at kept
    simpa using (List.mem_filter.1 kept).2
  · rw [tenantOf_setTenant, if_neg other]
    rfl

end Tenants

/-! ### The home attribute of a frame (R348, R351) -/

section Frames
variable {s : State} (up : s.bootFailed = false) (idle : s.command = none)
include up idle

theorem fattrWrite_ignored {value : BitVec 2} (frame : Nat) (reserved : 2 ≤ value.toNat) :
    exec (.fattrWrite frame value) s = .next (unanswered s) := by
  rw [exec_fattrWrite, execFattrWrite, managed_answers up idle, if_pos (show value ≥ 2 from BitVec.le_def.2 reserved)]

theorem fattrWrite_recalls {frame : Nat} (holds : heldLines s frame ≠ []) :
    ∃ s', exec (.fattrWrite frame 1) s = .next s' ∧
      s' = { unanswered s with asks := s'.asks, command := some (.leaveHc frame) } ∧ ∀ l ∈ heldLines s frame, ∃ a ∈ s'.asks, a.line = l := by
  have recalls : exec (.fattrWrite frame 1) s =
      .next (recallLines { unanswered s with command := some (.leaveHc frame) } (heldLines s frame)) := by
    rw [exec_fattrWrite, execFattrWrite, managed_answers up idle, if_neg (by decide), if_pos rfl]
    exact congrArg _ (beginCommand_leaveHc_recalls holds)
  obtain ⟨asks, eq, -, each⟩ := recallLines_eq (heldLines s frame) { unanswered s with command := some (.leaveHc frame) }
  refine ⟨_, recalls, by rw [eq], fun l listed => ?_⟩
  have found := each l listed
  rw [asked, List.any_eq_true] at found
  obtain ⟨a, mem, line⟩ := found
  exact ⟨a, mem, by simpa using line⟩

theorem fattrWrite_sets {frame : Nat} {value : BitVec 2} (small : value.toNat < 2) (free : value = 0 ∨ heldLines s frame = []) :
    ∃ s', exec (.fattrWrite frame value) s = .next s' ∧ s' = { s with fattr := s'.fattr, replies := [] } ∧
      ∀ f, look 1 s'.fattr f = if f = frame then value else look 1 s.fattr f := by
  have valid : ¬ value ≥ 2 := by
    intro above
    have := BitVec.le_def.1 above
    simp at this
    omega
  have written : exec (.fattrWrite frame value) s = .next { s with fattr := putAt 1 s.fattr frame value, replies := [] } := by
    rw [exec_fattrWrite, execFattrWrite, managed_answers up idle, if_neg valid]
    split
    · rename_i one
      have none : heldLines s frame = [] := free.resolve_left (by rw [one]; decide)
      rw [beginCommand_leaveHc_leaves (show heldLines (unanswered s) frame = [] from none), one, ← idle]
      rfl
    · rfl
  exact ⟨_, written, rfl, fun f => look_putAt _ _ _ _ _⟩

end Frames

/-! ### Format windows (R146) -/

theorem windowOf_setWindow (s : State) (n j : Nat) (w : Window) : windowOf (setWindow s n w) j = if j = n then w else windowOf s j :=
  look_setAt _ _ _ _ _

/-- EN and ERR as an enable leaves them. -/
theorem bits_enabled (c : DWord) (bad : Bool) :
    bit (BitVec.ofNat 64 (setBits c.toNat 0 2 (if bad then 2 else 1))).toNat 0 = !bad ∧
      bit (BitVec.ofNat 64 (setBits c.toNat 0 2 (if bad then 2 else 1))).toNat 1 = bad := by
  have := c.isLt
  rw [BitVec.toNat_ofNat, setBits, bits, bit_eq_decide, bit_eq_decide]
  cases bad <;> simp <;> omega

theorem bit_disabled (c : DWord) : bit (BitVec.ofNat 64 (setBits c.toNat 0 1 0)).toNat 0 = false := by
  have := c.isLt
  rw [BitVec.toNat_ofNat, setBits, bits, bit_eq_decide]
  simp
  omega

/-- A superblock without those of its valid words that `p` names. -/
theorem has_clear {i : Nat} (inRange : i < 64) (b : Blk) (j : Nat) : (b.clear i).has j = if j = i then false else b.has j :=
  bit_setBit64 _ inRange _ _

theorem has_clearWhere (p : Nat → Bool) {words : List Nat} (inRange : ∀ i ∈ words, i < 64) (b : Blk) (j : Nat) :
    (words.foldl (fun b i => if b.has i && p i then b.clear i else b) b).has j = (b.has j && !(words.contains j && p j)) := by
  induction words generalizing b with
  | nil => simp
  | cons i words ih =>
    rw [List.foldl_cons, ih fun a listed => inRange a (List.mem_cons_of_mem _ listed), List.contains_cons]
    by_cases here : j = i
    · subst here
      cases valid : b.has j <;> cases named : p j <;> simp [valid, has_clear (inRange j List.mem_cons_self)]
    · have other : (j == i) = false := by simpa using here
      split
      · rw [has_clear (inRange i List.mem_cons_self), if_neg here, other, Bool.false_or]
      · rw [other, Bool.false_or]

/-- Superblock `sb` without those of its words whose addresses `p` names. -/
def Blk.lacking (b : Blk) (sb : Nat) (p : Nat → Bool) : Blk :=
  (List.range 64).foldl (fun b i => if b.has i && p (sb * 256 + 4 * i) then b.clear i else b) b

theorem has_lacking (b : Blk) {pa : Nat} (aligned : pa % 4 = 0) {p : Nat → Bool} (named : p pa = true) :
    (b.lacking (pa / 256) p).has (wordIx pa) = false := by
  have word : pa / 256 * 256 + 4 * wordIx pa = pa := by rw [wordIx]; omega
  rw [Blk.lacking, has_clearWhere (fun i => p (pa / 256 * 256 + 4 * i)) (fun i listed => List.mem_range.1 listed), word, named]
  simp [wordIx_lt]

theorem held_none_of_absent {c : NMap Blk} {pa : Nat} (absent : ∀ b, blk c (pa / 256) = some b → b.has (wordIx pa) = false) :
    held c pa = none := by
  rw [held_eq]
  cases found : blk c (pa / 256) with
  | none => rfl
  | some b => simp [Blk.read, absent b found]

theorem l2Of_map (s : State) (f : NMap Blk → NMap Blk) (nothing : f [] = []) (die : Nat) :
    l2Of { s with l2 := s.l2.map fun d => (d.1, f d.2) } die = f (l2Of s die) := by
  rw [l2Of, l2Of, look_mapValues _ fun _ => f]
  split
  · rfl
  · rename_i unlisted
    rw [look_of_lookup_none _ (Option.not_isSome_iff_eq_none.1 unlisted), nothing]

section Windows
variable {s : State} (up : s.bootFailed = false) (idle : s.command = none)
include up idle

theorem formatWindowEnable_outside {n : Nat} (outside : 16 ≤ n) : exec (.formatWindowEnable n) s = .next (unanswered s) := by
  rw [exec_formatWindowEnable, execFormatWindowEnable, managed_answers up idle]
  exact congrArg _ (if_pos outside)

theorem formatWindowEnable_busy {n : Nat} (inRange : n < 16) (enabled : bit (windowOf s n).ctl.toNat 0 = true) :
    exec (.formatWindowEnable n) s = .next (busy s) := by
  rw [exec_formatWindowEnable, execFormatWindowEnable, managed_answers up idle]
  exact congrArg _ ((if_neg (by omega)).trans (if_pos enabled))

theorem formatWindowEnable_decides {n : Nat} (inRange : n < 16) (disabled : bit (windowOf s n).ctl.toNat 0 = false) :
    let bad := (windowOf s n).refused (((s.windows.filter fun e => e.1 != n).map fun e => e.2).filter fun o => bit o.ctl.toNat 0)
    ∃ s', exec (.formatWindowEnable n) s = .next s' ∧ s' = { s with windows := s'.windows, replies := [] } ∧
      bit (windowOf s' n).ctl.toNat 0 = !bad ∧ bit (windowOf s' n).ctl.toNat 1 = bad ∧ ∀ j, j ≠ n → windowOf s' j = windowOf s j := by
  intro bad
  have off : ¬ bit (windowOf s n).ctl.toNat 0 = true := by simp [disabled]
  have decided : exec (.formatWindowEnable n) s = .next (setWindow (unanswered s) n
      { windowOf s n with ctl := BitVec.ofNat 64 (setBits (windowOf s n).ctl.toNat 0 2 (if bad then 2 else 1)) }) := by
    rw [exec_formatWindowEnable, execFormatWindowEnable, managed_answers up idle]
    exact congrArg _ ((if_neg (by omega)).trans (if_neg off))
  refine ⟨_, decided, rfl, ?_, ?_, fun j other => ?_⟩
  · rw [windowOf_setWindow, if_pos rfl]
    exact (bits_enabled _ bad).1
  · rw [windowOf_setWindow, if_pos rfl]
    exact (bits_enabled _ bad).2
  · rw [windowOf_setWindow, if_neg other]
    rfl

theorem formatWindowDisable_idle {n : Nat} (disabled : bit (windowOf s n).ctl.toNat 0 = false) :
    exec (.formatWindowDisable n) s = .next (unanswered s) := by
  have off : (!bit (windowOf s n).ctl.toNat 0) = true := by simp [disabled]
  rw [exec_formatWindowDisable, execFormatWindowDisable, managed_answers up idle]
  exact congrArg _ (if_pos off)

theorem formatWindowDisable_drops {n : Nat} (enabled : bit (windowOf s n).ctl.toNat 0 = true) :
    let v := (windowOf s n).ranges.getD 2 (0, 0)
    ∃ s', exec (.formatWindowDisable n) s = .next s' ∧ bit (windowOf s' n).ctl.toNat 0 = false ∧
      ∀ d pa, pa % 4 = 0 → v.1 ≤ pa → pa < v.1 + v.2 → held (l2Of s' d) pa = none := by
  intro v
  have on : ¬ (!bit (windowOf s n).ctl.toNat 0) = true := by simp [enabled]
  rw [exec_formatWindowDisable, execFormatWindowDisable, managed_answers up idle]
  refine ⟨_, congrArg _ (if_neg on), ?_, fun d pa aligned above below => ?_⟩
  · rw [windowOf_setWindow, if_pos rfl]
    exact bit_disabled _
  · have slice := l2Of_map (unanswered s) (fun c => c.map fun e => (e.1, e.2.lacking e.1 fun pa => decide (v.1 ≤ pa ∧ pa < v.1 + v.2))) rfl d
    refine (congrArg (held · pa) slice).trans (held_none_of_absent fun b found => ?_)
    have mapped := lookup_mapValues (fun sb (b : Blk) => b.lacking sb fun pa => decide (v.1 ≤ pa ∧ pa < v.1 + v.2)) (l2Of s d) (pa / 256)
    obtain ⟨b0, -, rfl⟩ := Option.map_eq_some_iff.1 (mapped.symm.trans found)
    exact has_lacking b0 aligned (decide_eq_true ⟨above, below⟩)

end Windows

/-! ### Registers of the management interface (R145, R287, R291, R386, R399) -/

theorem clampPwrcap_inRange (x : DWord) : 1000 ≤ bits (clampPwrcap x).toNat 0 14 ∧ bits (clampPwrcap x).toNat 0 14 ≤ 15000 ∧
    1 ≤ bits (clampPwrcap x).toNat 16 8 ∧ bits (clampPwrcap x).toNat 14 2 = 0 ∧ bits (clampPwrcap x).toNat 24 40 = 0 := by
  have period : bits x.toNat 16 8 < 256 := Nat.mod_lt _ (by decide)
  rw [clampPwrcap, BitVec.toNat_ofNat]
  generalize bits x.toNat 16 8 = p at *
  generalize bits x.toNat 0 14 = w
  simp only [bits]
  omega

section Registers
variable {s : State} (up : s.bootFailed = false) (idle : s.command = none) (x : DWord)
include up idle

theorem registerWrite_pwrcap : exec (.managementRegisterWrite 0 x) s = .next { s with pwrcap := clampPwrcap x, replies := [] } :=
  (exec_managementRegisterWrite 0 x s).trans (managed_answers up idle _)

theorem registerWrite_spareAt : exec (.managementRegisterWrite 1 x) s = .next { unanswered s with spareAt := min s.spareAt x.toNat } :=
  (exec_managementRegisterWrite 1 x s).trans (managed_answers up idle _)

theorem registerWrite_ready : exec (.managementRegisterWrite 2 x) s = .next { s with ready := s.ready &&& ~~~x, replies := [] } :=
  (exec_managementRegisterWrite 2 x s).trans (managed_answers up idle _)

theorem registerWrite_none {i : Nat} (above : 3 ≤ i) (inRange : i < 65536) : exec (.managementRegisterWrite i x) s = .next (unanswered s) := by
  obtain ⟨j, rfl⟩ := Nat.exists_eq_add_of_le' above
  have cls : (j + 3) / 65536 = 0 := by omega
  have idx : (j + 3) % 65536 = j + 3 := by omega
  rw [exec_managementRegisterWrite, execManagementRegisterWrite, managed_answers up idle]
  simp only [cls, idx]

theorem registerWrite_tenant {t c : Nat} (inRange : t < 65536) (first : 1 ≤ c) (last : c ≤ 9) :
    exec (.managementRegisterWrite (65536 * c + t) x) s = .next (writeTenant (unanswered s) t c x) := by
  have cls : (65536 * c + t) / 65536 = c := by omega
  have idx : (65536 * c + t) % 65536 = t := by omega
  rw [exec_managementRegisterWrite, execManagementRegisterWrite, managed_answers up idle]
  simp only [cls, idx]
  interval_cases c <;> rfl

/-- The registers that belong to no tenant and no team: format windows, copy queues, save areas, a host's launch, and two classes of none. -/
theorem registerWrite_shared {i : Nat} (inRange : i < 65536) :
    exec (.managementRegisterWrite (65536 * 10 + i) x) s = .next (if i < 64 then writeWindow (unanswered s) (i / 4) (i % 4) x else unanswered s) ∧
      exec (.managementRegisterWrite (65536 * 11 + i) x) s = .next { unanswered s with
        queues := if x = 0 then drop s.queues (i / 128) else setAt s.queues (i / 128) { tenant := i % 16, die := i / 16 % 8, va := x } } ∧
      exec (.managementRegisterWrite (65536 * 12 + i) x) s = .next { unanswered s with saveAreas := setAt s.saveAreas i x.toNat } ∧
      exec (.managementRegisterWrite (65536 * 13 + i) x) s = .next (beginCommand (unanswered s) (.launch i x.toNat)) ∧
      exec (.managementRegisterWrite (65536 * 14 + i) x) s = .next (unanswered s) ∧
      exec (.managementRegisterWrite (65536 * 15 + i) x) s = .next (unanswered s) := by
  have cls : ∀ c, (65536 * c + i) / 65536 = c := by omega
  have idx : ∀ c, (65536 * c + i) % 65536 = i := by omega
  simp only [exec_managementRegisterWrite, execManagementRegisterWrite, managed_answers up idle, cls, idx, beq_iff_eq, true_and, and_true, -Nat.reduceMul]
  exact ⟨rfl, rfl⟩

/-- DBGCTL of a team is written where its band has a debugger attached. -/
theorem registerWrite_dbgctl_detached {k : Nat} (detached : s.teams.lookup k = none ∨ (bandOf s (bandKey k)).attached = false) :
    exec (.managementRegisterWrite (1048576 + k) x) s = .next (unanswered s) := by
  have cls : (1048576 + k) / 65536 = k / 65536 + 16 := by omega
  have idx : 1048576 + k - 2 ^ 20 = k := by omega
  rw [exec_managementRegisterWrite, execManagementRegisterWrite, managed_answers up idle]
  cases found : (unanswered s).teams.lookup k with
  | none =>
    simp only [cls, idx, found]
    exact congrArg _ (if_neg (by omega))
  | some t =>
    have off : ¬ (bandOf s (bandKey k)).attached = true := by
      rcases detached with none | off
      · cases none.symm.trans found
      · simp [off]
    simp only [cls, idx, found]
    exact congrArg _ ((if_neg (by omega)).trans (if_neg off))

theorem registerWrite_dbgctl_attached {k : Nat} {t : Team} (team : s.teams.lookup k = some t) (attached : (bandOf s (bandKey k)).attached = true) :
    exec (.managementRegisterWrite (1048576 + k) x) s = .next (setTeam (unanswered s) k { t with dbgctl := x &&& 0x7FFF }) := by
  have cls : (1048576 + k) / 65536 = k / 65536 + 16 := by omega
  have idx : 1048576 + k - 2 ^ 20 = k := by omega
  have found : (unanswered s).teams.lookup k = some t := team
  rw [exec_managementRegisterWrite, execManagementRegisterWrite, managed_answers up idle]
  simp only [cls, idx, found]
  exact congrArg _ ((if_neg (by omega)).trans (if_pos attached))

end Registers

section WindowRegisters
variable (r : State) (n : Nat) (x : DWord)

theorem writeWindow_enabled (enabled : bit (windowOf r n).ctl.toNat 0 = true) :
    writeWindow r n 0 x = busy r ∧ ∀ i, i ≠ 0 → writeWindow r n i x = r :=
  ⟨(if_pos enabled).trans (if_pos rfl), fun _ other => (if_pos enabled).trans (if_neg other)⟩

theorem writeWindow_disabled (disabled : bit (windowOf r n).ctl.toNat 0 = false) :
    let base : DWord := BitVec.ofNat 64 (bits x.toNat 12 40 * 4096)
    writeWindow r n 1 x = setWindow r n { windowOf r n with sto := base } ∧ writeWindow r n 2 x = setWindow r n { windowOf r n with scl := base } ∧
      writeWindow r n 3 x = setWindow r n { windowOf r n with view := base } ∧ (windowOf (writeWindow r n 0 x) n).sto = (windowOf r n).sto := by
  have off : ¬ bit (windowOf r n).ctl.toNat 0 = true := by simp [disabled]
  refine ⟨if_neg off, if_neg off, if_neg off, ?_⟩
  rw [writeWindow, if_neg off, windowOf_setWindow, if_pos rfl]

end WindowRegisters

section TenantRegisters
variable {r : State} {t : Nat} (x : DWord)

theorem writeTenant_outside (outside : 16 ≤ t) (c : Nat) : writeTenant r t c x = r := if_pos outside

theorem writeTenant_always (inRange : t < 16) :
    writeTenant r t 1 x = setTenant r t { tenantOf r t with lqcfg := x &&& 0xFFFFFFFFFFFF } ∧
      writeTenant r t 3 x = setTenant r t { tenantOf r t with tvec := x &&& ~~~3 } ∧
      writeTenant r t 4 x = setTenant r t { tenantOf r t with frecb := x &&& ~~~15 } ∧
      writeTenant r t 9 x = setTenant r t { tenantOf r t with vectors := (tenantOf r t).vectors &&& ~~~x } :=
  have inside : ¬ t ≥ 16 := by omega
  ⟨if_neg inside, if_neg inside, if_neg inside, if_neg inside⟩

theorem writeTenant_busy (inRange : t < 16) (inUse : tenantBusy r t = true) {c : Nat} (launched : c ∈ [2, 5, 6, 7, 8]) :
    writeTenant r t c x = busy r := by
  have inside : ¬ t ≥ 16 := by omega
  simp only [List.mem_cons, List.not_mem_nil, or_false] at launched
  rcases launched with rfl | rfl | rfl | rfl | rfl <;> exact (if_neg inside).trans (if_pos inUse)

theorem writeTenant_unused (inRange : t < 16) (unused : tenantBusy r t = false) :
    writeTenant r t 2 x = setTenant r t { tenantOf r t with pageRoot := x.toNat } ∧
      writeTenant r t 6 x = setTenant r t { tenantOf r t with hostManaged := bit x.toNat 0 } ∧ writeTenant r t 8 x = newKey r t ∧
      writeTenant r t 5 x = beginCommand (setTenant r t { tenantOf r t with l2pb := x &&& ~~~63 }) (.table t) ∧
      let given := giveQuad r t (bits x.toNat 0 3) (bits x.toNat 8 8)
      writeTenant r t 7 x = if (tenantOf r t).l2pb = 0 then given else beginCommand given (.table t) := by
  have inside : ¬ t ≥ 16 := by omega
  have free : ¬ tenantBusy r t = true := by simp [unused]
  refine ⟨(if_neg inside).trans (if_neg free), (if_neg inside).trans (if_neg free), (if_neg inside).trans (if_neg free),
    (if_neg inside).trans (if_neg free), ?_⟩
  rw [writeTenant, if_neg inside, if_neg free]
  simp only [beq_iff_eq]

end TenantRegisters

/-! ### The report (R394) -/

@[simp] theorem leBytes_length (x n : Nat) : (leBytes x n).length = n := by
  induction n generalizing x with
  | zero => rfl
  | succ n ih => rw [leBytes, List.length_cons, ih]

theorem drop_leBytes (x m n : Nat) : (leBytes x (m + n)).drop m = leBytes (x / 256 ^ m) n := by
  induction m generalizing x with
  | zero => simp
  | succ m ih => rw [Nat.add_right_comm, leBytes, List.drop_succ_cons, ih, Nat.div_div_eq_div_mul, pow_succ' 256 m]

theorem take_leBytes (x m n : Nat) : (leBytes x (m + n)).take m = leBytes x m := by
  induction m generalizing x with
  | zero => simp [leBytes]
  | succ m ih => rw [Nat.add_right_comm, leBytes, leBytes, List.take_succ_cons, ih]

theorem ofLeBytes_leBytes (x n : Nat) : ofLeBytes (leBytes x n) = x % 256 ^ n := by
  induction n generalizing x with
  | zero => simp [leBytes, ofLeBytes, Nat.mod_one]
  | succ n ih =>
    have digit : (BitVec.ofNat 8 x).toNat = x % 256 := BitVec.toNat_ofNat x 8
    rw [leBytes, ofLeBytes, ih, digit, pow_succ' 256 n, Nat.mod_mul]

/-- The words of a byte string that begins with a number are that number's words. -/
theorem word_of_leBytes (x : Nat) (rest : List Byte) {i : Nat} (inRange : i < 4) :
    BitVec.ofNat 64 (ofLeBytes (((leBytes x 32 ++ rest).drop (8 * i)).take 8)) = BitVec.ofNat 64 (x / 2 ^ (64 * i)) := by
  have power : 256 ^ (8 * i) = 2 ^ (64 * i) := by
    rw [show 256 = 2 ^ 8 from rfl, ← pow_mul]
    congr 1
    omega
  have bytes : 32 = 8 * i + (8 + (24 - 8 * i)) := by omega
  have dropped : (leBytes x 32).drop (8 * i) = leBytes (x / 2 ^ (64 * i)) (8 + (24 - 8 * i)) := by
    conv_lhs => rw [bytes, drop_leBytes, power]
  rw [List.drop_append_of_le_length (by rw [leBytes_length]; omega), dropped, List.take_append_of_le_length (by rw [leBytes_length]; omega),
    take_leBytes, ofLeBytes_leBytes]
  apply BitVec.eq_of_toNat_eq
  rw [BitVec.toNat_ofNat, BitVec.toNat_ofNat]
  exact Nat.mod_mod _ _

theorem attestationReport_words {s : State} (up : s.bootFailed = false) (idle : s.command = none) (tenant nonce : Nat) :
    ∃ ws, exec (.attestationReport tenant nonce) s = .next { s with replies := ws } ∧ ws.length = 67 ∧
      ∀ i < 4, ws.getD i 0 = BitVec.ofNat 64 (nonce / 2 ^ (64 * i)) := by
  rw [exec_attestationReport, execAttestationReport, managed_answers up idle]
  refine ⟨_, rfl, ?_, fun i inRange => ?_⟩
  · simp [List.length_flatMap]
  · have size : i < 67 := by omega
    simpa [List.getD_eq_getElem?_getD, List.length_flatMap, size] using word_of_leBytes nonce _ inRange

/-! ### The obligation -/

/-- Settles O53: every command of the management interface, by the lemma that says what it answers and changes. -/
theorem managementCommandsComplete : Obligations.ManagementCommandsComplete := by
  refine ⟨fun s failed n m v a i listed => ?failed, fun s up waits n m v a i listed => ?waits,
    fun s => ⟨finishCommand_idle, fun f => finishCommand_leaveHc, fun t => finishCommand_table,
      fun i pa waits => ⟨finishCommand_launchFull waits, fun room => ⟨finishCommand_launchReady waits room, finishCommand_launchAsks waits room⟩⟩,
      fun k => finishCommand_deep⟩,
    fun s s1 i pa ds read => ⟨hostLaunch_refused i read, fun s3 good => hostLaunch_appends read good⟩, fun s up idle => ?_⟩
  case failed =>
    obtain ⟨f, managed⟩ := exec_managed n m v a i listed
    rw [managed, managed_failed failed]
  case waits =>
    obtain ⟨f, managed⟩ := exec_managed n m v a i listed
    rw [managed, managed_busy up waits]
    rfl
  intro q refused
  refine ⟨fun unit => ⟨counterRead_answers up idle unit, counterClear_none up idle, counterClear_channel up idle⟩,
    fun unit small => ⟨(counterWords_unit small) ▸ counterRead_answers up idle unit, counterClear_unit up idle small⟩,
    fun band => counterWords_band s, rfl, fun r => code_halted_only, counterWords_losses s, counterWords_frame s, rasLogRead_answers up idle,
    errorRecordRead_answers up idle,
    fun root => ⟨fun t => tenantCreate_lowest up idle root, tenantCreate_taken up idle root⟩,
    fun t => ⟨tenantDestroy_busy up idle, tenantDestroy_destroys up idle⟩,
    fun frame value => ⟨fattrWrite_ignored up idle frame, ?recalls⟩,
    fun frame value => fattrWrite_sets up idle,
    fun n => ⟨formatWindowEnable_outside up idle, formatWindowEnable_busy up idle, formatWindowDisable_idle up idle⟩,
    fun n => formatWindowEnable_decides up idle, fun n => formatWindowDisable_drops up idle,
    fun x => ⟨⟨clampPwrcap x, registerWrite_pwrcap up idle x, clampPwrcap_inRange x⟩, registerWrite_ready up idle x, registerWrite_spareAt up idle x,
      fun i => registerWrite_none up idle x,
      fun i => registerWrite_shared up idle x,
      fun k => ⟨registerWrite_dbgctl_detached up idle x, fun t => registerWrite_dbgctl_attached up idle x⟩,
      fun t inRange c first last => registerWrite_tenant up idle x inRange first last,
      fun r n => ⟨writeWindow_enabled r n x, writeWindow_disabled r n x⟩, fun r c => rfl, fun r t => writeTenant_outside x, ?tenant, ?lqcfg⟩,
    attestationReport_words up idle⟩
  case recalls =>
    rintro rfl holds
    exact fattrWrite_recalls up idle holds
  case tenant =>
    intro r t inRange old
    obtain ⟨lqcfg, tvec, frecb, vectors⟩ := writeTenant_always (r := r) x inRange
    exact ⟨lqcfg, tvec, frecb, vectors, fun inUse c launched => writeTenant_busy x inRange inUse launched, writeTenant_unused x inRange⟩
  case lqcfg =>
    intro t inRange
    have written := registerWrite_tenant up idle x (t := t) (c := 1) (by omega) (by omega) (by omega)
    rw [(writeTenant_always x inRange).1] at written
    exact ⟨_, written, (tenantOf_setTenant _ _ _ _).trans (if_pos rfl), fun j other => (tenantOf_setTenant _ _ _ _).trans (if_neg other)⟩

end Sys2Proof.Machine
end

section
/-! SUPPORT. Branches and jumps (O22, R56, R162 to R165, R174, R175): where each takes the team, and what else it changes; and the proof of
`BranchesComplete`. -/

namespace Sys2Proof.Machine

variable {s : State} {k : Nat} {t : Team}

theorem exec_nop (s : State) : exec .nop s = execNop s := rfl
theorem exec_yield (s : State) : exec .yield s = execYield s := rfl
theorem exec_rgn (s : State) : exec .rgn s = execRgn s := rfl
theorem exec_rgnx (s : State) : exec .rgnx s = execRgnx s := rfl
theorem exec_jmp (off : BitVec 21) (s : State) : exec (.jmp off) s = execJmp off s := rfl
theorem exec_joinat (off : BitVec 26) (s : State) : exec (.joinat off) s = execJoinat off s := rfl
theorem exec_br (inv : Bool) (p : BitVec 3) (off : BitVec 21) (s : State) : exec (.br inv p off) s = execBr inv p off s := rfl
theorem exec_bru (inv : Bool) (p : BitVec 3) (off : BitVec 21) (s : State) : exec (.bru inv p off) s = execBru inv p off s := rfl
theorem exec_brany (inv : Bool) (p : BitVec 3) (off : BitVec 21) (s : State) : exec (.brany inv p off) s = execBrany inv p off s := rfl
theorem exec_brall (inv : Bool) (p : BitVec 3) (off : BitVec 21) (s : State) : exec (.brall inv p off) s = execBrall inv p off s := rfl

/-- R156: outside a handler an entry is pushed in hardware while fewer than eight are held and none has spilled. -/
theorem push_held (outside : t.inh = false) (spilled : t.spilled = 0) (room : t.stack.length < 8) (e : Entry) (cont : State → Team → State) :
    push s k t false e cont = cont s { t with stack := e :: t.stack } := by
  have fits : ¬ t.stack.length + t.spilled ≥ 8 + t.stackSize / 640 := by omega
  rw [push, if_neg (by simp [outside]), if_neg fits, if_pos room, if_neg (by simp)]

/-- A predicate that is read holds back no quiet team. -/
theorem gated_predicate (q : Quiet s t) (p : Nat) (body : Team → State) : gated s k t { preds := [p] } body = body t :=
  gated_good body q nofun nofun nofun nofun

/-- A trap with one record for lane 0, of the team whose turn it is. -/
theorem refuse1_runs (h : Runs s k t) (cause : Nat) (value : DWord) : refuse1 s k cause value = raise s k t cause [record 0 cause value] :=
  refuse_runs h cause _

/-! ### Instructions that no register holds back -/

section
variable (h : Runs s k t)
include h

theorem nop_runs : exec .nop s = .next (setTeam s k t.next) := by
  rw [exec_nop, execNop, withTeam_runs h, finish]

theorem yield_runs : exec .yield s = .next (setTeam s k { t.next with age := 0 }) := by
  rw [exec_yield, execYield, withTeam_runs h]

theorem rgnx_runs : exec .rgnx s = .next (setTeam s k { t.next with rgst := t.rgst &&& ~~~1 }) := by
  rw [exec_rgnx, execRgnx, withTeam_runs h, finish]
  rfl

theorem rgn_runs : exec .rgn s = .next (setTeam s k { t.next with
    rgpc := t.pc + 4
    rgmask := t.mask
    rgst := BitVec.ofNat 64 (1 + (t.stack.length + t.spilled) * 65536 + t.cfd.toNat * 2 ^ 32) }) := by
  rw [exec_rgn, execRgn, withTeam_runs h, finish]
  rfl

theorem jmp_runs (off : BitVec 21) : exec (.jmp off) s = .next (setTeam s k (t.goto (target t off))) := by
  rw [exec_jmp, execJmp, withTeam_runs h]

theorem joinat_runs (off : BitVec 26) : exec (.joinat off) s = .next (setTeam s k { t.next with jpc := target t off ||| 1 }) := by
  rw [exec_joinat, execJoinat, withTeam_runs h, finish]
  rfl

/-! ### Branches on a vote -/

variable (q : Quiet s t) (inv : Bool) (p : BitVec 3) (off : BitVec 21)
include q

theorem brany_runs : exec (.brany inv p off) s =
    .next (setTeam s k (if t.vote inv p.toNat = 0 then t.next else t.goto (target t off))) := by
  rw [exec_brany, execBrany, withTeam_runs h, gated_predicate q]
  by_cases noVote : t.vote inv p.toNat = 0
  · rw [if_neg (by simp [noVote]), if_pos noVote, finish]
  · rw [if_pos (bne_iff_ne.2 noVote), if_neg noVote]

theorem brall_runs : exec (.brall inv p off) s =
    .next (setTeam s k (if t.vote inv p.toNat = t.mask then t.goto (target t off) else t.next)) := by
  rw [exec_brall, execBrall, withTeam_runs h, gated_predicate q]
  by_cases all : t.vote inv p.toNat = t.mask
  · rw [if_pos (by simp [all]), if_pos all]
  · rw [if_neg (by simp [all]), if_neg all, finish]

theorem bru_runs : exec (.bru inv p off) s = .next (
    if t.vote inv p.toNat = t.mask then setTeam s k (t.goto (target t off))
    else if t.vote inv p.toNat = 0 then setTeam s k t.next
    else raise s k t cDIVU [record 0 cDIVU t.pc]) := by
  rw [exec_bru, execBru, withTeam_runs h, gated_predicate q, refuse1_runs h, finish]
  simp only [beq_iff_eq]

theorem br_allGo (all : t.mask &&& ~~~t.vote inv p.toNat = 0) :
    exec (.br inv p off) s = .next (setTeam s k { t.goto (target t off) with jpc := 0 }) := by
  rw [exec_br, execBr, withTeam_runs h, gated_predicate q]
  dsimp only
  rw [if_pos (beq_iff_eq.2 all)]
  rfl

theorem br_noneGoes (left : t.mask &&& ~~~t.vote inv p.toNat ≠ 0) (noVote : t.vote inv p.toNat = 0) :
    exec (.br inv p off) s = .next (setTeam s k { t.next with jpc := 0 }) := by
  rw [exec_br, execBr, withTeam_runs h, gated_predicate q]
  dsimp only
  rw [if_neg (by simpa using left), if_pos (beq_iff_eq.2 noVote), finish]
  rfl

/-- R162: the lanes that vote no are pushed, to go on after the branch. -/
theorem br_diverges (left : t.mask &&& ~~~t.vote inv p.toNat ≠ 0) (yes : t.vote inv p.toNat ≠ 0) (outside : t.inh = false)
    (spilled : t.spilled = 0) (room : t.stack.length < 8) :
    exec (.br inv p off) s = .next (setTeam s k { t.goto (target t off) with
      jpc := 0
      mask := t.vote inv p.toNat
      stack := { pc := t.pc + 4, rpc := if bit t.jpc.toNat 0 then t.jpc &&& ~~~3 else 0, mask := t.mask &&& ~~~t.vote inv p.toNat,
                 depth := t.cfd, norp := !bit t.jpc.toNat 0 } :: t.stack }) := by
  rw [exec_br, execBr, withTeam_runs h, gated_predicate q]
  dsimp only
  rw [if_neg (by simpa using left), if_neg (by simpa using yes), push_held outside spilled room]
  rfl

end

/-- Settles O22: every branch and jump by the lemma that says where it takes the team. -/
theorem branchesComplete : Obligations.BranchesComplete := fun _ _ _ h q =>
  ⟨nop_runs h, yield_runs h, rgnx_runs h, rgn_runs h, jmp_runs h, joinat_runs h, brany_runs h q, brall_runs h q, bru_runs h q,
    fun inv p off => ⟨br_allGo h q inv p off, br_noneGoes h q inv p off, br_diverges h q inv p off⟩⟩

end Sys2Proof.Machine
end

section
/-! SUPPORT. Calls and `ret` (O23, R154, R166, R168): the link, the depth and the target, and the lanes that a `callv` leaves behind; and the
proof of `CallsComplete`. -/

namespace Sys2Proof.Machine

variable {s : State} {k : Nat} {t : Team}

theorem exec_call (off : BitVec 21) (s : State) : exec (.call off) s = execCall off s := rfl
theorem exec_callr (x : BitVec 5) (s : State) : exec (.callr x) s = execCallr x s := rfl
theorem exec_callv (x : BitVec 6) (s : State) : exec (.callv x) s = execCallv x s := rfl
theorem exec_ret (s : State) : exec .ret s = execRet s := rfl

/-! ### Entering a frame (R154, R166) -/

/-- The team in the frame that a call enters: `enter_shallow` ties it to the model. -/
def Team.called (t : Team) (dest : DWord) : Team := { (t.goto dest).ws 30 (t.pc + 4) with cfd := t.cfd + 1 }

theorem enter_shallow (shallow : t.cfd ≠ 0xFFFF) (dest : DWord) : enter s k t dest = setTeam s k (t.called dest) := by
  rw [enter, if_neg shallow]
  rfl

theorem enter_deep (h : Runs s k t) (deep : t.cfd = 0xFFFF) (dest : DWord) : enter s k t dest = raise s k t cSTKOV [] := by
  rw [enter, if_pos deep, refuse_runs h]

theorem enter_runs (h : Runs s k t) (dest : DWord) :
    enter s k t dest = if t.cfd = 0xFFFF then raise s k t cSTKOV [] else setTeam s k (t.called dest) := by
  split
  · next deep => exact enter_deep h deep dest
  · next shallow => exact enter_shallow shallow dest

/-! ### Calls of the whole team -/

section
variable (h : Runs s k t) (q : Quiet s t) (link : FullS t [30])
include h q link

theorem call_enters (off : BitVec 21) : exec (.call off) s = .next (enter s k t (target t off)) := by
  rw [exec_call, execCall, withTeam_runs h, gated_good (u := { dstS := [30] }) _ q nofun nofun nofun link]

theorem callr_runs (x : BitVec 5) (full : FullS t [x.toNat]) : exec (.callr x) s = .next (
    if (t.rs x.toNat).toNat % 4 ≠ 0 then raise s k t cMALIGN [record 0 cMALIGN (t.rs x.toNat)]
    else if t.cfd = 0xFFFF then raise s k t cSTKOV [] else setTeam s k (t.called (t.rs x.toNat))) := by
  rw [exec_callr, execCallr, withTeam_runs h, gated_good (u := { srcS := [(x.toNat, false)], dstS := [30] }) _ q nofun full nofun link]
  dsimp only
  rw [refuse1_runs h, enter_runs h]

theorem ret_runs : exec .ret s = .next (
    if (t.rs 30).toNat % 4 ≠ 0 then raise s k t cMALIGN [record 0 cMALIGN (t.rs 30)]
    else setTeam s k { t.goto (t.rs 30) with cfd := t.cfd - (if t.cfd = 0 then 0 else 1) }) := by
  have depth : (if t.cfd = 0 then 0 else t.cfd - 1) = t.cfd - (if t.cfd = 0 then 0 else 1) := by
    split
    · next zero => simp [zero]
    · rfl
  rw [exec_ret, execRet, withTeam_runs h, gated_good (u := { srcS := [(30, false)] }) _ q nofun link nofun nofun]
  dsimp only
  rw [refuse1_runs h, ← depth]
  rfl

end

/-! ### `callv` (R168) -/

theorem contains_laneList (t : Team) (m : LaneMask) (L : Nat) : (laneList t m).contains L = (decide (L < t.lanes) && m.getLsbD L) := by
  rw [Bool.eq_iff_iff, List.contains_iff_mem, mem_laneList, Bool.and_eq_true, decide_eq_true_eq]
  exact Iff.rfl

/-- The active lanes that call `go`: `callv_calls` ties it to the model. -/
def callGroup (t : Team) (dest : Nat → DWord) (go : DWord) : LaneMask :=
  t.mask &&& laneMask fun L => (laneList t t.mask).contains L && dest L == go

theorem getLsbD_callGroup (t : Team) (dest : Nat → DWord) (go : DWord) {L : Nat} (inRange : L < 1024) :
    (callGroup t dest go).getLsbD L = (decide (L < t.lanes) && t.mask.getLsbD L && dest L == go) := by
  rw [callGroup, BitVec.getLsbD_and, getLsbD_laneMask _ inRange, contains_laneList]
  cases t.mask.getLsbD L <;> simp

/-- The target that a lane's wide register names. -/
def callDest (t : Team) (x : BitVec 6) (L : Nat) : DWord := t.rv (x.toNat + 1) L ++ t.rv x.toNat L

theorem ofNat_callDest (t : Team) (x : BitVec 6) (L : Nat) : BitVec.ofNat 64 (t.rw true x.toNat L) = callDest t x L := by
  rw [Team.rw, if_pos rfl, ofNat_pairValue, callDest]

/-- The lanes `g` go on, and the others wait at the instruction: `callv_calls` ties it to the model. -/
def Team.parted (t : Team) (g : LaneMask) : Team :=
  { t with mask := g, stack := { pc := t.pc, rpc := t.pc + 4, mask := t.mask &&& ~~~g, depth := t.cfd } :: t.stack }

/-- The lanes of the lowest lane's target call it; where others are left, they wait at the `callv`. -/
theorem callv_calls (h : Runs s k t) (q : Quiet s t) (link : FullS t [30]) (x : BitVec 6) (ok : t.okV true x.toNat = true)
    (source : FullV t [x.toNat, x.toNat + 1]) (shallow : t.cfd ≠ 0xFFFF) (outside : t.inh = false) (spilled : t.spilled = 0)
    (room : t.stack.length < 8) (aligned : ∀ L ∈ laneList t t.mask, (callDest t x L).toNat % 4 = 0) {L₀ : Nat}
    (lowest : (laneList t t.mask).head? = some L₀) :
    let go := callDest t x L₀
    let g := callGroup t (callDest t x) go
    exec (.callv x) s = .next (if t.mask &&& ~~~g = 0 then setTeam s k (t.called go)
      else setTeam s k ((t.parted g).called go)) := by
  intro go g
  have first : (laneList t t.mask).headD 0 = L₀ := by rw [List.headD_eq_head?_getD, lowest]; rfl
  have noneBad : ((laneList t t.mask).filter fun L => (callDest t x L).toNat % 4 != 0) = [] := by
    rw [List.filter_eq_nil_iff]
    intro L listed
    simp [aligned L listed]
  have opens : (t.cfd == 0xFFFF) = false := beq_eq_false_iff_ne.2 shallow
  rw [exec_callv, execCallv, withTeam_runs h, if_neg (by simp [ok]),
    gated_good (u := { srcV := srcsV true x.toNat false, dstS := [30] }) _ q (by rw [srcsV_map]; exact source) nofun nofun link]
  simp only [ofNat_callDest, noneBad, first, opens]
  by_cases whole : t.mask &&& ~~~g = 0
  · rw [if_pos whole]
    exact congrArg _ ((if_pos (beq_iff_eq.2 whole)).trans (enter_shallow shallow go))
  · rw [if_neg whole]
    refine congrArg _ ((if_neg (mt beq_iff_eq.1 whole)).trans ?_)
    exact (push_held outside spilled room _ _).trans (enter_shallow (t := t.parted g) shallow go)

/-- Settles O23: each call enters its frame or traps, and `ret` leaves it. -/
theorem callsComplete : Obligations.CallsComplete := by
  intro s k t h q link
  refine ⟨fun shallow off => ?_, fun deep off => ?_, callr_runs h q link, ret_runs h q link,
    fun x ok source shallow outside spilled room aligned L₀ lowest => ?_⟩
  · rw [call_enters h q link, enter_shallow shallow]
    rfl
  · rw [call_enters h q link, enter_deep h deep]
  · exact ⟨_, fun L => getLsbD_callGroup t (callDest t x) (callDest t x L₀),
      callv_calls h q link x ok source shallow outside spilled room aligned lowest⟩

end Sys2Proof.Machine
end

section
/-! SUPPORT. `cut`, `stkrd` and `stkwr` (O24, R155, R156, R169, R170, R187): what each does on the entries that are held in hardware and on those
that the spill area holds; and the proof of `StackInstructionsComplete`. -/

namespace Sys2Proof.Machine

variable {s : State} {k : Nat} {t : Team}

theorem exec_cut (x y : BitVec 5) (s : State) : exec (.cut x y) s = execCut x y s := rfl
theorem exec_stkrd (x y : BitVec 5) (f : BitVec 8) (s : State) : exec (.stkrd x y f) s = execStkrd x y f s := rfl
theorem exec_stkwr (x y : BitVec 5) (f : BitVec 8) (s : State) : exec (.stkwr x y f) s = execStkwr x y f s := rfl

/-! ### The spill area -/

/-- An instruction that runs `f` on what the spill area gives does what `good` says, once `f` does on each good reading. -/
theorem afterSpill_of {α : Type} {r : State × Except SpillStop α} {out : Out} {f : α → State} {good : State → α → Prop}
    (runs : out = .next (spillThen r.1 k r.2 f)) (ends : ∀ a, r.2 = .ok a → out = .next (f a) → good r.1 a) : AfterSpill k r out good := by
  refine ⟨fun a read => ends a read ?_, fun c rec read => ?_, fun read => ?_⟩
  all_goals rw [runs, read, spillThen]
  rw [refuse]

theorem Unwatched.of_calm {s s1 : State} (unwatched : Unwatched s k) (calm : Calm s s1) : Unwatched s1 k := by
  obtain ⟨-, bands, -⟩ := calm
  rw [Unwatched, bandOf, bands]
  exact unwatched

theorem readSpilled_calm (n : Nat) (s : State) (k : Nat) (t : Team) : Calm s (readSpilled s k t n).1 := by
  induction n generalizing s with
  | zero => exact Calm.refl s
  | succ n ih =>
    have newest := readSpill_calm s k t n
    rw [readSpilled]
    split
    · next s1 x eq => rwa [eq] at newest
    · next s1 e eq =>
      rw [eq] at newest
      have others := ih s1
      split <;> next s2 x eq' => rw [eq'] at others; exact newest.trans others

/-- Two full scalar sources hold back no quiet team. -/
theorem sources_go {x y : BitVec 5} (q : Quiet s t) (full : FullS t [x.toNat, y.toNat]) (body : Team → State) :
    gated s k t { srcS := [(x.toNat, false), (y.toNat, false)] } body = body t := gated_good body q nofun full nofun nofun

/-! ### `cut` (R169) -/

/-- A lane of the team stands in a frame deeper than `n`. -/
def deeperLane (t : Team) (n : Nat) (es : List Entry) : Bool := es.any fun e => decide (n < e.depth.toNat) && (e.mask &&& t.limit) != 0

/-- The entries of the frames that a cut to depth `n` leaves. -/
def keptEntries (n : Nat) (es : List Entry) : List Entry := es.filter fun e => decide (e.depth.toNat ≤ n)

/-- The team at `dest` and depth `n`, with the entries `es`: `cutTo_kept` ties it to the model. -/
def Team.cutAt (t : Team) (dest : DWord) (n : Nat) (es : List Entry) : Team :=
  { t.goto dest with stack := es.take 8, spilled := es.length - 8, cfd := BitVec.ofNat 16 n, jpc := 0 }

/-- What a cut does once the spill area has given the entries `old`. -/
def cutTo (s : State) (k : Nat) (t : Team) (dest depth : DWord) (old : List Entry) : State :=
  let all := t.stack ++ old
  let keep := keptEntries depth.toNat all
  if deeperLane t depth.toNat all then refuse1 s k cDIVU depth
  else unlessWatched s k (decide (t.spilled > 0)) false (160 * t.spilled) (t.spillVa 0) <|
    if keep.length = all.length || t.spilled = 0 then setTeam s k (t.cutAt dest depth.toNat keep)
    else spillThen s k (writeSpilled s k t (keep.drop 8)) fun s => setTeam s k (t.cutAt dest depth.toNat keep)

theorem keptEntries_eq_self {n : Nat} {es : List Entry} : keptEntries n es = es ↔ (keptEntries n es).length = es.length :=
  ⟨congrArg List.length, fun all => List.filter_sublist.eq_of_length all⟩

section
variable (dest depth : DWord) {old : List Entry}

theorem cutTo_deeper (h : Runs s k t) (deeper : deeperLane t depth.toNat (t.stack ++ old) = true) :
    cutTo s k t dest depth old = raise s k t cDIVU [record 0 cDIVU depth] := by
  rw [cutTo, if_pos deeper, refuse1_runs h]

section
variable (unwatched : Unwatched s k) (noneDeeper : deeperLane t depth.toNat (t.stack ++ old) = false)
include unwatched noneDeeper

theorem cutTo_kept (same : keptEntries depth.toNat (t.stack ++ old) = t.stack ++ old ∨ t.spilled = 0) :
    cutTo s k t dest depth old = setTeam s k (t.cutAt dest depth.toNat (keptEntries depth.toNat (t.stack ++ old))) := by
  rw [keptEntries_eq_self] at same
  rw [cutTo, if_neg (by simp [noneDeeper]), unlessWatched_none unwatched, if_pos (by simpa using same)]

theorem cutTo_rewrites {s2 : State} (fewer : keptEntries depth.toNat (t.stack ++ old) ≠ t.stack ++ old) (spilled : 0 < t.spilled)
    (written : writeSpilled s k t ((keptEntries depth.toNat (t.stack ++ old)).drop 8) = .ok s2) :
    cutTo s k t dest depth old = setTeam s2 k (t.cutAt dest depth.toNat (keptEntries depth.toNat (t.stack ++ old))) := by
  rw [Ne, keptEntries_eq_self] at fewer
  rw [cutTo, if_neg (by simp [noneDeeper]), unlessWatched_none unwatched, if_neg (by simpa [Nat.ne_of_gt spilled] using fewer), written, spillThen]

end
end

section
variable {x y : BitVec 5} (h : Runs s k t) (q : Quiet s t) (full : FullS t [x.toNat, y.toNat])
include h q full

theorem cut_misaligned (odd : (t.rs x.toNat).toNat % 4 ≠ 0) :
    exec (.cut x y) s = .next (raise s k t cMALIGN [record 0 cMALIGN (t.rs x.toNat)]) := by
  rw [exec_cut, execCut, withTeam_runs h, sources_go q full]
  dsimp only
  rw [if_pos odd, refuse1_runs h]

section
variable (aligned : (t.rs x.toNat).toNat % 4 = 0)
include aligned

theorem cut_beyond (beyond : t.cfd.toNat < (t.rs y.toNat).toNat) :
    exec (.cut x y) s = .next (raise s k t cBOUNDS [record 0 cBOUNDS (t.rs y.toNat)]) := by
  rw [exec_cut, execCut, withTeam_runs h, sources_go q full]
  dsimp only
  rw [if_neg (not_not_intro aligned), if_pos beyond, refuse1_runs h]

theorem cut_reads (within : (t.rs y.toNat).toNat ≤ t.cfd.toNat) : exec (.cut x y) s = .next (spillThen (readSpilled s k t t.spilled).1 k
    (readSpilled s k t t.spilled).2 (cutTo (readSpilled s k t t.spilled).1 k t (t.rs x.toNat) (t.rs y.toNat))) := by
  rw [exec_cut, execCut, withTeam_runs h, sources_go q full]
  dsimp only
  rw [if_neg (not_not_intro aligned), if_neg (Nat.not_lt.2 within)]
  rfl

theorem cut_unspilled (within : (t.rs y.toNat).toNat ≤ t.cfd.toNat) (unspilled : t.spilled = 0) :
    exec (.cut x y) s = .next (cutTo s k t (t.rs x.toNat) (t.rs y.toNat) []) := by
  rw [cut_reads h q full aligned within, unspilled]
  rfl

end
end

/-! ### The entries that `stkrd` and `stkwr` act on (R170, R187) -/

/-- The shown entries that are held in hardware. -/
def Team.shown (t : Team) : List Entry := if t.inh then t.tsstack else t.stack
/-- How many of the shown entries have spilled. -/
def Team.shownSpilled (t : Team) : Nat := if t.inh then t.tsspilled else t.spilled

theorem shownStack_eq (t : Team) : t.shownStack = (t.shown, t.shownSpilled) := by
  rw [Team.shownStack, Team.shown, Team.shownSpilled]
  split <;> rfl

theorem shownEntry_held {i : Nat} {e : Entry} (held : t.shown[i]? = some e) : shownEntry s k t i = (s, .ok e) := by
  have inside := (List.getElem?_eq_some_iff.1 held).1
  rw [shownEntry, shownStack_eq]
  dsimp only
  rw [if_pos inside, List.getD_eq_getElem?_getD, held, Option.getD_some]

theorem shownEntry_spilled {i : Nat} (beyond : t.shown.length ≤ i) :
    shownEntry s k t i = readSpill s k t (t.shownSpilled - 1 - (i - t.shown.length)) := by
  rw [shownEntry, shownStack_eq]
  dsimp only
  rw [if_neg (Nat.not_lt.2 beyond)]

/-! ### `stkrd` -/

theorem stkrd_illop (h : Runs s k t) (x y : BitVec 5) {f : BitVec 8} (unassigned : 37 < f.toNat) :
    exec (.stkrd x y f) s = .next (raise s k t cILLOP []) := by
  rw [exec_stkrd, execStkrd, withTeam_runs h, if_pos unassigned, illop]

/-- The registers let `stkrd` go. -/
theorem stkrd_goes {x y : BitVec 5} (q : Quiet s t) (full : FullS t [x.toNat, y.toNat]) (body : Team → State) :
    gated s k t { srcS := [(y.toNat, false)], dstS := [x.toNat] } body = body t :=
  gated_good body q nofun (fun r hr => full r (by simp_all)) nofun (fun r hr => full r (by simp_all))

section
variable {x y : BitVec 5} {f : BitVec 8} (h : Runs s k t) (q : Quiet s t) (full : FullS t [x.toNat, y.toNat])
include h q full

theorem stkrd_count : exec (.stkrd x y 36) s = .next (finish s k (t.ws x.toNat (BitVec.ofNat 64 (t.shown.length + t.shownSpilled)))) := by
  rw [exec_stkrd, execStkrd, withTeam_runs h, if_neg (by decide), stkrd_goes q full, shownStack_eq]
  rfl

theorem stkrd_depth : exec (.stkrd x y 37) s = .next (finish s k (t.ws x.toNat ((if t.inh then t.tscfd else t.cfd).setWidth 64))) := by
  rw [exec_stkrd, execStkrd, withTeam_runs h, if_neg (by decide), stkrd_goes q full, shownStack_eq]
  rfl

section
variable (field : f.toNat < 36)
include field

/-- A field of an entry is read where the entry is. -/
theorem stkrd_field : exec (.stkrd x y f) s = .next (
    let i := (t.rs y.toNat).toNat
    if t.shown.length + t.shownSpilled ≤ i then raise s k t cBOUNDS [record 0 cBOUNDS (t.rs y.toNat)]
    else
      let r := shownEntry s k t i
      spillThen r.1 k r.2 fun e => unlessWatched r.1 k (decide (t.shown.length ≤ i)) false 160
        (t.spillVa (t.shown.length + t.shownSpilled - 1 - i)) (finish r.1 k (t.ws x.toNat (e.field t f.toNat)))) := by
  have noCount : f ≠ 36 := by rintro rfl; exact absurd field (by decide)
  have noDepth : f ≠ 37 := by rintro rfl; exact absurd field (by decide)
  rw [exec_stkrd, execStkrd, withTeam_runs h, if_neg (by omega), stkrd_goes q full, shownStack_eq]
  dsimp only
  rw [if_neg noCount, if_neg noDepth, refuse1_runs h]

theorem stkrd_beyond (beyond : t.shown.length + t.shownSpilled ≤ (t.rs y.toNat).toNat) :
    exec (.stkrd x y f) s = .next (raise s k t cBOUNDS [record 0 cBOUNDS (t.rs y.toNat)]) := by
  rw [stkrd_field h q full field]
  exact congrArg _ (if_pos beyond)

theorem stkrd_held (unwatched : Unwatched s k) {e : Entry} (held : t.shown[(t.rs y.toNat).toNat]? = some e) :
    exec (.stkrd x y f) s = .next (finish s k (t.ws x.toNat (e.field t f.toNat))) := by
  have inside := (List.getElem?_eq_some_iff.1 held).1
  rw [stkrd_field h q full field]
  dsimp only
  rw [if_neg (by omega), shownEntry_held held, spillThen, unlessWatched_none unwatched]

theorem stkrd_spilled (unwatched : Unwatched s k) (beyond : t.shown.length ≤ (t.rs y.toNat).toNat)
    (within : (t.rs y.toNat).toNat < t.shown.length + t.shownSpilled) :
    AfterSpill k (readSpill s k t (t.shownSpilled - 1 - ((t.rs y.toNat).toNat - t.shown.length))) (exec (.stkrd x y f) s) fun s1 e =>
      exec (.stkrd x y f) s = .next (finish s1 k (t.ws x.toNat (e.field t f.toNat))) := by
  have runs := stkrd_field h q full field
  dsimp only at runs
  rw [if_neg (Nat.not_le.2 within), shownEntry_spilled beyond] at runs
  refine afterSpill_of runs fun e _ read => ?_
  rwa [unlessWatched_none (unwatched.of_calm (readSpill_calm s k t _))] at read

end
end

/-! ### `stkwr` -/

theorem stkwr_illop (h : Runs s k t) (x y : BitVec 5) {f : BitVec 8} (readOnly : 37 < f.toNat ∨ f = 3 ∨ f = 36 ∨ (f = 37 ∧ t.inh = false)) :
    exec (.stkwr x y f) s = .next (raise s k t cILLOP []) := by
  rw [exec_stkwr, execStkwr, withTeam_runs h, if_pos (by simpa [or_assoc] using readOnly), illop]

/-- The team with a field of shown entry `i` written. -/
def Team.fieldWritten (t : Team) (i f : Nat) (v : DWord) : Team :=
  let new := t.shown.zipIdx.map fun e => if e.2 = i then e.1.setField t f v else e.1
  if t.inh then { t with tsstack := new } else { t with stack := new }

section
variable {x y : BitVec 5} {f : BitVec 8} (h : Runs s k t) (q : Quiet s t) (full : FullS t [x.toNat, y.toNat])
include h q full

theorem stkwr_depth (inside : t.inh = true) :
    exec (.stkwr x y 37) s = .next (finish s k { t with tscfd := (t.rs x.toNat).setWidth 16 }) := by
  rw [exec_stkwr, execStkwr, withTeam_runs h, if_neg (by simp [inside]), sources_go q full, shownStack_eq]
  rfl

section
variable (field : f.toNat < 36) (writable : f ≠ 3)
include field writable

/-- A field of an entry is written where the entry is. -/
theorem stkwr_field : exec (.stkwr x y f) s = .next (
    let v := t.rs x.toNat
    let i := (t.rs y.toNat).toNat
    let j := t.shownSpilled - 1 - (i - t.shown.length)
    let r := readSpill s k t j
    if f.toNat < 2 ∧ v.toNat % 4 ≠ 0 then raise s k t cMALIGN [record 0 cMALIGN v]
    else if t.shown.length + t.shownSpilled ≤ i then raise s k t cBOUNDS [record 0 cBOUNDS (t.rs y.toNat)]
    else if i < t.shown.length then finish s k (t.fieldWritten i f.toNat v)
    else spillThen r.1 k r.2 fun e => spillThen r.1 k (wordPlaces r.1 k t 4 (t.spillVa j) 40 .write) fun ps =>
      if !inOrder r.1 k ps true then waitHere r.1
      else unlessWatched r.1 k true true 160 (t.spillVa j) (finish (writePlaces r.1 k t ps (e.setField t f.toNat v).image) k t)) := by
  have noCount : f ≠ 36 := by rintro rfl; exact absurd field (by decide)
  have noDepth : f ≠ 37 := by rintro rfl; exact absurd field (by decide)
  have assigned : ¬ (f.toNat > 37 || f = 3 || f = 36 || (f = 37 && !t.inh)) = true := by
    simp only [writable, noCount, noDepth, decide_false, Bool.or_false, Bool.false_and, decide_eq_true_eq]
    omega
  rw [exec_stkwr, execStkwr, withTeam_runs h, if_neg assigned, sources_go q full, shownStack_eq]
  dsimp only
  rw [if_neg noDepth, refuse1_runs h, refuse1_runs h]
  simp only [Bool.and_eq_true, decide_eq_true_eq, bne_iff_ne]
  rfl

theorem stkwr_misaligned (address : f.toNat < 2) (odd : (t.rs x.toNat).toNat % 4 ≠ 0) :
    exec (.stkwr x y f) s = .next (raise s k t cMALIGN [record 0 cMALIGN (t.rs x.toNat)]) := by
  rw [stkwr_field h q full field writable]
  exact congrArg _ (if_pos ⟨address, odd⟩)

section
variable (aligned : f.toNat < 2 → (t.rs x.toNat).toNat % 4 = 0)
include aligned

theorem stkwr_beyond (beyond : t.shown.length + t.shownSpilled ≤ (t.rs y.toNat).toNat) :
    exec (.stkwr x y f) s = .next (raise s k t cBOUNDS [record 0 cBOUNDS (t.rs y.toNat)]) := by
  rw [stkwr_field h q full field writable]
  dsimp only
  rw [if_neg (fun odd => odd.2 (aligned odd.1)), if_pos beyond]

theorem stkwr_held (inside : (t.rs y.toNat).toNat < t.shown.length) :
    exec (.stkwr x y f) s = .next (finish s k (t.fieldWritten (t.rs y.toNat).toNat f.toNat (t.rs x.toNat))) := by
  rw [stkwr_field h q full field writable]
  dsimp only
  rw [if_neg (fun odd => odd.2 (aligned odd.1)), if_neg (by omega), if_pos inside]

theorem stkwr_spilled (unwatched : Unwatched s k) (beyond : t.shown.length ≤ (t.rs y.toNat).toNat)
    (within : (t.rs y.toNat).toNat < t.shown.length + t.shownSpilled) :
    let j := t.shownSpilled - 1 - ((t.rs y.toNat).toNat - t.shown.length)
    AfterSpill k (readSpill s k t j) (exec (.stkwr x y f) s) fun s1 e =>
      ∀ ps, wordPlaces s1 k t 4 (t.spillVa j) 40 .write = .ok ps →
      exec (.stkwr x y f) s = .next (if inOrder s1 k ps true then finish (writePlaces s1 k t ps (e.setField t f.toNat (t.rs x.toNat)).image) k t
        else waitHere s1) := by
  intro j
  have runs := stkwr_field h q full field writable
  dsimp only at runs
  rw [if_neg (fun odd => odd.2 (aligned odd.1)), if_neg (Nat.not_le.2 within), if_neg (Nat.not_lt.2 beyond)] at runs
  refine afterSpill_of runs fun e _ read ps places => ?_
  rw [read, places, spillThen, unlessWatched_none (unwatched.of_calm (readSpill_calm s k t _))]
  cases inOrder (readSpill s k t j).1 k ps true <;> rfl

end
end
end

/-- Settles O24: `cut`, `stkrd` and `stkwr`, case by case. -/
theorem stackInstructionsComplete : Obligations.StackInstructionsComplete := by
  intro s k t x y h q unwatched n v
  refine ⟨fun full => ?cut, fun f => ⟨stkrd_illop h x y, fun full => ?stkrd⟩, fun f => ⟨stkwr_illop h x y, fun full => ?stkwr⟩⟩
  case cut =>
    intro deep keep gone
    refine ⟨cut_misaligned h q full, cut_beyond h q full, fun aligned within unspilled => ?_, fun aligned within spilled => ?_⟩
    · rw [cut_unspilled h q full aligned within unspilled]
      have bare : t.stack ++ [] = t.stack := List.append_nil _
      split
      · next deeper => exact congrArg _ (cutTo_deeper v (t.rs y.toNat) h (bare.symm ▸ deeper))
      · next shallow =>
        rw [cutTo_kept v (t.rs y.toNat) unwatched (bare.symm ▸ Bool.eq_false_iff.2 shallow) (.inr unspilled), bare]
        rfl
    · have calm := readSpilled_calm t.spilled s k t
      have seen := unwatched.of_calm calm
      refine afterSpill_of (cut_reads h q full aligned within) fun old _ read =>
        ⟨fun deeper => ?_, fun shallow same => ?_, fun shallow fewer s2 written => ?_⟩
      · have turn := h.of_calm calm
        rw [read, cutTo_deeper v (t.rs y.toNat) turn deeper, teamOf, look_of_lookup _ turn.2]
      · have kept := cutTo_kept v (t.rs y.toNat) seen shallow (.inl same)
        rw [read, kept]
        exact congrArg (fun es => Host.Outcome.next (gone _ es)) same
      · rw [read]
        exact congrArg _ (cutTo_rewrites v (t.rs y.toNat) seen shallow fewer spilled written)
  case stkrd =>
    refine ⟨?_, ?_, stkrd_beyond h q full, fun field e => stkrd_held h q full field unwatched, fun field => stkrd_spilled h q full field unwatched⟩
    · rintro rfl; exact stkrd_count h q full
    · rintro rfl; exact stkrd_depth h q full
  case stkwr =>
    refine ⟨?_, fun field writable => ⟨stkwr_misaligned h q full field writable, fun aligned => ⟨stkwr_beyond h q full field writable aligned,
      stkwr_held h q full field writable aligned, stkwr_spilled h q full field writable aligned unwatched⟩⟩⟩
    rintro rfl inside
    exact stkwr_depth h q full inside

end Sys2Proof.Machine
end

section
/-! SUPPORT. `trap`, `brk` and `rti` (O25, R172, R188, R189, R202): the entry of a trap with one record that lies on a scratchpad, and the return
from it; and the proof of `SoftwareTrapsAndReturnsComplete`. -/

namespace Sys2Proof.Machine

variable {s : State} {k : Nat} {t : Team}

theorem exec_trap (z : BitVec 8) (s : State) : exec (.trap z) s = execTrap z s := rfl
theorem exec_brk (z : BitVec 8) (s : State) : exec (.brk z) s = execBrk z s := rfl
theorem exec_rti (s : State) : exec .rti s = execRti s := rfl

/-! ### A record on a scratchpad (R105, R189) -/

/-- The check of an address on a scratchpad asks the crews alone. -/
theorem checkAddr_pad_of_crews {s s1 : State} {core band w : Nat} {va : DWord} {a : Acc} {c off : Nat} (same : s1.crews = s.crews)
    (granted : checkAddr s core band w va a = .go (.pad c off)) : checkAddr s1 core band w va a = .go (.pad c off) := by
  have aperture := inAperture_of_pad granted
  rw [← granted, checkAddr, checkAddr, aperture, same]
  rfl

/-- One record at a FRECB on a scratchpad is written, and memory and the teams are as they were. -/
theorem writeRecs_pad {c off : Nat} (granted : checkAddr s t.core (bandKey k) 16 t.frecb .write = .go (.pad c off)) (r : Rec) (seq : Nat) :
    ∃ s1, writeRecs s k t [r] seq 0 = .ok s1 ∧ s1.mem = s.mem := by
  have first : t.frecb + BitVec.ofNat 64 (16 * 0) = t.frecb := by simp
  rw [writeRecs, first, granted]
  exact ⟨_, rfl, rfl⟩

/-- The team in its handler, after a trap with one record: `enterTrap_pad` ties it to the model. -/
def Team.trappedOnce (t : Team) (q : TrapReq) : Team := { t.trapped q with frcnt := 1 }

/-- A trap with one record that can be written on a scratchpad enters the handler, which finds the record counted. -/
theorem enterTrap_pad {q : TrapReq} {r : Rec} {c off : Nat} (one : q.recs = [r]) (vector : t.tvec ≠ 0)
    (granted : checkAddr s t.core (bandKey k) 16 t.frecb .write = .go (.pad c off)) :
    ∃ s1, enterTrap s k t q = setTeam s1 k (t.trappedOnce q) ∧ s1.mem = s.mem := by
  obtain ⟨s1, written, mem⟩ := writeRecs_pad granted r ((t.tstat.toNat / 2 ^ 32 + 1) % 2 ^ 32)
  refine ⟨s1, ?_, mem⟩
  have few : [r].take 64 = [r] := rfl
  rw [enterTrap, one]
  simp only [few, written, if_neg vector]
  rfl

theorem raiseAt_taken (free : outstanding s k = false) (cause : Nat) (recs : List Rec) (tepc : DWord) :
    raiseAt s k t cause recs tepc = takeTrap (leaveTables s t.core k) k t { cause := cause, recs := recs, tepc := tepc } := by
  rw [raiseAt, outstanding_leaveTables, if_neg (by simp [free])]

/-! ### `trap` and `brk` (R172, R202) -/

/-- The team has entered its handler with one record, and memory and its registers are as they were. -/
def EntersHandler (s : State) (k : Nat) (t : Team) (cause tepc : DWord) (out : Out) : Prop :=
  ∃ s' t', out = .next s' ∧ s'.teams.lookup k = some t' ∧ t'.pc = t.tvec ∧ t'.tepc = tepc ∧ t'.tcause = cause ∧ t'.frcnt = 1 ∧
    t'.mode = 0 ∧ t'.tsmode = t.mode ∧ t'.tsmask = t.mask ∧ t'.inh = true ∧ t'.s = t.s ∧ t'.v = t.v ∧ t'.p = t.p ∧ s'.mem = s.mem

section
variable {c off : Nat} (h : Runs s k t) (free : outstanding s k = false) (outside : t.inh = false) (closed : t.regionOpen = false)
  (vector : t.tvec ≠ 0) (granted : checkAddr s t.core (bandKey k) 16 t.frecb .write = .go (.pad c off))
include free outside closed vector granted

theorem raiseAt_entersHandler (cause : Nat) (r : Rec) (tepc : DWord) :
    EntersHandler s k t (BitVec.ofNat 64 cause) tepc (.next (raiseAt s k t cause [r] tepc)) := by
  obtain ⟨cs, left, -⟩ := leaveTables_eq s t.core k
  have still : checkAddr (leaveTables s t.core k) t.core (bandKey k) 16 t.frecb .write = .go (.pad c off) :=
    checkAddr_pad_of_crews (by rw [left]) granted
  let q : TrapReq := { cause := cause, recs := [r], tepc := tepc }
  obtain ⟨s1, enters, mem⟩ := enterTrap_pad (q := q) rfl vector still
  rw [raiseAt_taken free, takeTrap_enters (restarts_closed closed _) outside, enters]
  refine ⟨_, t.trappedOnce q, rfl, by rw [setTeam_teams, lookup_setAt, if_pos rfl], rfl, rfl, rfl, rfl, rfl, rfl, rfl, trapped_inh t q, rfl, rfl, rfl, ?_⟩
  rw [setTeam_mem, mem, left]

include h

theorem trap_enters_handler (z : BitVec 8) : EntersHandler s k t 0x10 (t.pc + 4) (exec (.trap z) s) := by
  rw [exec_trap, execTrap, withTeam_runs h]
  exact raiseAt_entersHandler free outside closed vector granted cSWTRAP _ _

theorem brk_enters_handler (detached : bit t.dbgctl.toNat 14 = false) (z : BitVec 8) : EntersHandler s k t 0x11 t.pc (exec (.brk z) s) := by
  rw [exec_brk, execBrk, withTeam_runs h, debugEvent, if_neg (by simp [detached])]
  exact raiseAt_entersHandler free outside closed vector granted cBREAK _ _

end

/-! ### `rti` (R188) -/

theorem rti_outside (h : Runs s k t) (outside : t.inh = false) : exec .rti s = .next (raise s k t cILLOP []) := by
  rw [exec_rti, execRti, withTeam_runs h, if_pos (by simp [outside]), illop]

/-- The team as `rti` leaves it: `rti_returns` ties it to the model. -/
def Team.returned (t : Team) : Team :=
  { t.issued with
    mode := t.tsmode
    mask := t.tsmask &&& t.live
    stack := t.tsstack
    spilled := t.tsspilled
    cfd := t.tscfd
    jpc := t.tsjpc
    tstat := t.tstat &&& ~~~1
    pc := t.tepc
    tsmask := 0
    tsstack := []
    tsspilled := 0
    tscfd := 0 }

theorem returned_outside (t : Team) : t.returned.inh = false := by
  show (t.tstat &&& ~~~1).getLsbD 0 = false
  rw [BitVec.getLsbD_and, BitVec.getLsbD_not]
  simp

/-- A team with a lane left of its mask goes on as it is. -/
theorem proceed_active (active : t.mask &&& t.limit ≠ 0) : proceed s k t = setTeam s k t := by
  rw [proceed, if_pos (by simpa using active)]

theorem rti_returns (h : Runs s k t) (inside : t.inh = true) (alive : t.tsmask &&& t.live &&& teamMask t ≠ 0) :
    exec .rti s = .next (setTeam s k t.returned) := by
  have active : t.returned.mask &&& t.returned.limit ≠ 0 := by
    have held : t.returned.mask &&& t.returned.limit = t.tsmask &&& t.live &&& teamMask t := by
      rw [Team.limit, returned_outside]
      show t.tsmask &&& t.live &&& (t.live &&& teamMask t) = _
      rw [← BitVec.and_assoc, BitVec.and_assoc t.tsmask, BitVec.and_self]
    rwa [held]
  rw [exec_rti, execRti, withTeam_runs h, if_neg (by simp [inside])]
  exact congrArg _ (proceed_active active)

/-- Settles O25: `trap` and `brk` enter the handler with one record, and `rti` leaves it. -/
theorem softwareTrapsAndReturnsComplete : Obligations.SoftwareTrapsAndReturnsComplete :=
  ⟨fun _ _ _ z _ _ h free outside closed vector granted detached => ⟨trap_enters_handler h free outside closed vector granted z,
    brk_enters_handler h free outside closed vector granted detached z⟩,
   fun _ _ _ h => ⟨rti_outside h, rti_returns h⟩⟩

end Sys2Proof.Machine
end

section
/-! SUPPORT. Writes of the registers that a crew, a die and a band own (O31, R201, R205, R242, R270, R315, R318, R320, R321), and the proof of O31. -/

namespace Sys2Proof.Machine

/-! ### Bits of a value that a register's mask keeps -/

/-- A field below bit `n` is as it was under a mask whose low `n` bits are set. -/
theorem bits_and_of_low {x m n lo w : Nat} (set : m % 2 ^ n = 2 ^ n - 1) (below : lo + w ≤ n) : bits (x &&& m) lo w = bits x lo w := by
  apply Nat.eq_of_testBit_eq
  intro i
  simp only [bits, Nat.testBit_mod_two_pow, Nat.testBit_div_two_pow, Nat.testBit_and]
  by_cases inside : i < w
  · have kept : m.testBit (lo + i) = true := by
      have low := Nat.testBit_mod_two_pow m n (lo + i)
      rw [set, Nat.testBit_two_pow_sub_one] at low
      simpa [show lo + i < n by omega] using low.symm
    rw [Nat.add_comm i lo, kept, Bool.and_true]
  · simp [inside]

section
variable {s : State} {k : Nat} {t : Team} {y : BitVec 5}

/-- A register of a crew, a die or a band takes its value from one scalar register, which lets the write go once it is full. -/
theorem gated_scalar (q : Quiet s t) (full : FullS t [y.toNat]) (body : Team → State) :
    gated s k t { srcS := [(y.toNat, false)] } body = body t :=
  gated_good body q nofun full nofun nofun

/-! ### The crew's registers (R242, R270) -/

theorem avWrite_writes (h : Runs s k t) (q : Quiet s t) (full : FullS t [y.toNat]) (n : BitVec 3) :
    exec (.avWrite n y) s = .next (finish (setCrew s (crewKey k) { crewOf s (crewKey k) with
      aver := putAt 0 (crewOf s (crewKey k)).aver n.toNat ((t.rs y.toNat).setWidth 16) }) k t) := by
  show execAvWrite n y s = _
  rw [execAvWrite, withTeam_runs h, gated_scalar q full]

/-- No queued command of the crew names the tile. -/
theorem tsWrite_writes (h : Runs s k t) (q : Quiet s t) (full : FullS t [y.toNat]) (n : BitVec 5)
    (unnamed : ∀ c ∈ (coreOf s t.core).queue, c.crew = crewKey k → n.toNat ∉ c.tiles s) :
    exec (.tsWrite n y) s = .next (finish (setCrew s (crewKey k) { crewOf s (crewKey k) with
      ts := putAt 0 (crewOf s (crewKey k)).ts n.toNat (t.rs y.toNat &&& 0x0FFFFF0F) }) k t) := by
  have none : ((coreOf s t.core).queue.any fun c => c.crew == crewKey k && namesTile s n.toNat c) = false := by
    rw [List.any_eq_false]
    intro c queued
    simpa [namesTile] using unnamed c queued
  show execTsWrite n y s = _
  rw [execTsWrite, withTeam_runs h, gated_scalar q full, none, if_neg Bool.false_ne_true]

/-! ### The die's registers (R320, R321) -/

/-- A value that sets EN is ignored where no debugger is attached. -/
theorem spinj_writes (h : Runs s k t) (q : Quiet s t) (full : FullS t [y.toNat]) :
    exec (.spinj y) s = .next (if bit (t.rs y.toNat).toNat 0 = true ∧ bit t.dbgctl.toNat 14 = false then finish s k t
      else finish { s with spinj := setAt s.spinj (t.core / 144) (t.rs y.toNat &&& 0xFFFFFFFFF) } k t) := by
  have en : bit (t.rs y.toNat &&& 0xFFFFFFFFF).toNat 0 = bit (t.rs y.toNat).toNat 0 := by
    rw [bit_toNat, bit_toNat, BitVec.getLsbD_and]
    simp
  show execSpinj y s = _
  rw [execSpinj, withTeam_runs h, gated_scalar q full]
  simp only [en, Bool.and_eq_true, Bool.not_eq_true']

theorem crate_writes (h : Runs s k t) (q : Quiet s t) (full : FullS t [y.toNat]) (privileged : bit t.ten.toNat 4 = true) (n : BitVec 3) :
    let v := t.rs y.toNat
    exec (.crate n y) s = .next (
      if 4 < bits v.toNat 0 3 ∨ 4 < bits v.toNat 3 3 ∨ bits v.toNat 8 4 = 0 ∨ bits v.toNat 16 16 = 0 then raise s k t cBOUNDS [record 0 cBOUNDS v]
      else finish { s with crates := setAt s.crates (8 * (t.core / 144) + n.toNat) (v &&& 0xFFFF0F3F) } k t) := by
  intro v
  rw [exec_crate, execCrate, withTeam_runs h, Team.privileged, privileged, if_neg (by simp), gated_scalar q full]
  simp only [refuse1, refuse_runs h, gt_iff_lt, v]

/-! ### The band's registers (R201, R205) -/

theorem breakpointWrite_writes (h : Runs s k t) (q : Quiet s t) (full : FullS t [y.toNat]) (privileged : bit t.ten.toNat 4 = true) (n : BitVec 4) :
    exec (.breakpointWrite n y) s = .next (finish (setBand s (bandKey k) { bandOf s (bandKey k) with
      bp := putAt 0 (bandOf s (bandKey k)).bp n.toNat (t.rs y.toNat &&& if n.toNat < 8 then 0x01FFFFFFFFFFFFFD else 0x01FFFFFFFFFFFFFF) }) k t) := by
  rw [exec_breakpointWrite, execBreakpointWrite, withTeam_runs h, Team.privileged, privileged, if_neg (by simp), gated_scalar q full]

/-- The team that a value of PTRIG names in a band (R205). -/
def triggered (band : Nat) (v : DWord) : Nat := 16 * (16 * band + bits v.toNat 36 4) + bits v.toNat 32 4

/-- The bits that name the team are among those that PTRIG takes. -/
theorem triggered_masked (band : Nat) (v : DWord) : triggered band (v &&& 0x800000FFFFFFFFFF) = triggered band v := by
  have kept : ∀ lo, lo + 4 ≤ 40 → bits (v &&& 0x800000FFFFFFFFFF).toNat lo 4 = bits v.toNat lo 4 := fun lo below => by
    rw [BitVec.toNat_and]
    exact bits_and_of_low (n := 40) (by decide) below
  rw [triggered, triggered, kept 36 (by omega), kept 32 (by omega)]

/-- The machine with a team's count of instructions at zero, where it has that team. -/
def recount (s : State) (named : Nat) : State :=
  match s.teams.lookup named with
  | some u => setTeam s named { u with count := 0 }
  | none => s

theorem recount_onlyTeams (s : State) (named : Nat) : recount s named = { s with teams := (recount s named).teams } := by
  unfold recount
  split <;> rfl

theorem recount_lookup (s : State) (named j : Nat) :
    (recount s named).teams.lookup j = (s.teams.lookup j).map fun u => if j = named then { u with count := 0 } else u := by
  unfold recount
  by_cases here : j = named
  · subst here
    cases found : s.teams.lookup j with
    | none => exact found
    | some u => simp
  · have kept : ∀ m : Option Team, (m.map fun u => if j = named then { u with count := 0 } else u) = m := fun m => by simp [here]
    rw [kept]
    split
    · rw [setTeam_teams, lookup_setAt, if_neg here]
    · rfl

/-- The machine once PTRIG of a team's band is written, with the named team's count yet to start. -/
def ptrigSet (s : State) (k : Nat) (t : Team) (v : DWord) : State :=
  setBand (finish s k t) (bandKey k) { bandOf s (bandKey k) with ptrig := v &&& 0x800000FFFFFFFFFF }

theorem bandOf_ptrigSet (s : State) (k : Nat) (t : Team) (v : DWord) (j : Nat) : bandOf (ptrigSet s k t v) j =
    if j = bandKey k then { bandOf s (bandKey k) with ptrig := v &&& 0x800000FFFFFFFFFF } else bandOf s j := bandOf_setBand _ _ _ _

theorem ptrig_writes (h : Runs s k t) (q : Quiet s t) (full : FullS t [y.toNat]) (privileged : bit t.ten.toNat 4 = true) :
    exec (.ptrig y) s = .next (recount (ptrigSet s k t (t.rs y.toNat)) (triggered (bandKey k) (t.rs y.toNat))) := by
  rw [exec_ptrig, execPtrig, withTeam_runs h, Team.privileged, privileged, if_neg (by simp), gated_scalar q full, ← triggered_masked]
  rfl

/-- What PTRIG changes: the band's register, the writer's step, and the count of the team that it names. -/
theorem ptrig_clauses (h : Runs s k t) (q : Quiet s t) (full : FullS t [y.toNat]) (privileged : bit t.ten.toNat 4 = true) :
    let v := t.rs y.toNat
    let named := triggered (bandKey k) v
    ∃ s', exec (.ptrig y) s = .next s' ∧ s' = { s with bands := s'.bands, teams := s'.teams } ∧
      (bandOf s' (bandKey k)).ptrig = v &&& 0x800000FFFFFFFFFF ∧ (∀ j, j ≠ bandKey k → bandOf s' j = bandOf s j) ∧
      (∀ j, s'.teams.lookup j = (if j = k then some t.next else s.teams.lookup j).map fun u => if j = named then { u with count := 0 } else u) := by
  intro v named
  have only := recount_onlyTeams (ptrigSet s k t v) named
  have band : ∀ j, bandOf (recount (ptrigSet s k t v) named) j = bandOf (ptrigSet s k t v) j := fun j => by rw [only]; rfl
  refine ⟨recount (ptrigSet s k t v) named, ptrig_writes h q full privileged, by rw [only]; rfl, ?_, fun j other => ?_, fun j => ?_⟩
  · rw [band, bandOf_ptrigSet, if_pos rfl]
  · rw [band, bandOf_ptrigSet, if_neg other]
  · rw [recount_lookup, show (ptrigSet s k t v).teams.lookup j = if j = k then some t.next else s.teams.lookup j from lookup_setAt s.teams k j t.next]

end

/-- Settles O31: each register by the lemma that says what its write leaves. -/
theorem sharedRegisterWritesComplete : Obligations.SharedRegisterWritesComplete :=
  fun _ _ _ _ h q full => ⟨avWrite_writes h q full, tsWrite_writes h q full, spinj_writes h q full, fun privileged =>
    ⟨crate_writes h q full privileged, breakpointWrite_writes h q full privileged, ptrig_clauses h q full privileged⟩⟩

end Sys2Proof.Machine
end

section
/-! SUPPORT. The debugger's events (O50, R197, R202 to R204, R325), and the proof of O50. -/

namespace Sys2Proof.Machine

/-! ### A stopped team (R203, R204) -/

theorem stoppedTeam_some {s : State} {k : Nat} {t : Team} (is : s.teams.lookup k = some t) (stands : (bandOf s (bandKey k)).run = .stopped) :
    stoppedTeam s k = some t := by
  rw [stoppedTeam, is, stands]
  rfl

theorem askStep_none {s : State} {k : Nat} (none : stoppedTeam s k = none) (r : Option Nat) : askStep s k r = s := by rw [askStep, none]

theorem askStep_some {s : State} {k : Nat} {t : Team} (stands : stoppedTeam s k = some t) (r : Option Nat) :
    askStep s k r = serveBand (setTeam s k { t with stepAsked := some r }) (bandKey k) := by rw [askStep, stands]

/-- No event of a debugger does anything to a team that is not stopped. -/
theorem debugger_running {s : State} {k : Nat} (none : stoppedTeam s k = none) (L : Nat) :
    exec (.debugStep k) s = .next s ∧ exec (.stepLane k L) s = .next s ∧ exec (.stepAbort k) s = .next s := by
  show execDebugStep k s = _ ∧ execStepLane k L s = _ ∧ execStepAbort k s = _
  rw [execDebugStep, execStepLane, execStepAbort, none, askStep_none none, askStep_none none, ite_self, ite_self]
  exact ⟨rfl, rfl, rfl⟩

/-- What each event does to a stopped team. -/
theorem debugger_stopped {s : State} {k : Nat} {t : Team} (is : s.teams.lookup k = some t) (stands : (bandOf s (bandKey k)).run = .stopped) (L : Nat) :
    (bit t.dbgctl.toNat 0 = false → exec (.debugStep k) s = .next s) ∧ (bit t.dbgctl.toNat 1 = false → exec (.stepLane k L) s = .next s) ∧
    (bit t.dbgctl.toNat 0 = true → exec (.debugStep k) s = .next (serveBand (setTeam s k { t with stepAsked := some none }) (bandKey k))) ∧
    (bit t.dbgctl.toNat 1 = true → exec (.stepLane k L) s = .next (serveBand (setTeam s k { t with stepAsked := some (some L) }) (bandKey k))) ∧
    exec (.stepAbort k) s = .next (setTeam s k { t.abandon with credit := false, stepping := 0, stepLane := none, release := none }) := by
  have here := stoppedTeam_some is stands
  have step : exec (.debugStep k) s = .next (if bit t.dbgctl.toNat 0 then askStep s k none else s) := by
    show execDebugStep k s = _
    rw [execDebugStep, teamOf, look_of_lookup {} is]
  have lane : exec (.stepLane k L) s = .next (if bit t.dbgctl.toNat 1 then askStep s k (some L) else s) := by
    show execStepLane k L s = _
    rw [execStepLane, teamOf, look_of_lookup {} is]
  refine ⟨fun clear => ?_, fun clear => ?_, fun set => ?_, fun set => ?_, ?_⟩
  · rw [step, clear, if_neg Bool.false_ne_true]
  · rw [lane, clear, if_neg Bool.false_ne_true]
  · rw [step, if_pos set, askStep_some here]
  · rw [lane, if_pos set, askStep_some here]
  · show execStepAbort k s = _
    rw [execStepAbort, here]

/-! ### A band serves one step at a time (R203) -/

theorem serveBand_running {s : State} {band : Nat} (runs : (bandOf s band).run ≠ .stopped) : serveBand s band = s := by
  rw [serveBand]
  exact if_pos (by simp [runs])

theorem serveBand_stepping {s : State} {band : Nat} (busy : ∃ e ∈ bandTeams s band, e.2.stepping ≠ 0) : serveBand s band = s := by
  rw [serveBand]
  refine if_pos ?_
  rw [Bool.or_eq_true, List.any_eq_true]
  exact .inr (by simpa using busy)

/-- What a stopped band serves: the first step that a team of it has been asked for. -/
theorem serveBand_serves {s : State} {band : Nat} (stands : (bandOf s band).run = .stopped) (idle : ∀ e ∈ bandTeams s band, e.2.stepping = 0) :
    serveBand s band = match (bandTeams s band).findSome? fun e => e.2.stepAsked.map fun r => (e.1, r) with
      | some (k, r) => match r with
        | none => stepTeam (setTeam s k { teamOf s k with stepAsked := none }) k
        | some L => stepTeamLane (setTeam s k { teamOf s k with stepAsked := none }) k L
      | none => s := by
  have none : ¬ ((bandOf s band).run != .stopped || (bandTeams s band).any fun e => e.2.stepping != 0) = true := by
    rw [Bool.or_eq_true, List.any_eq_true]
    rintro (runs | ⟨e, mem, busy⟩)
    · simp [stands] at runs
    · simp [idle e mem] at busy
  rw [serveBand]
  exact (if_neg none).trans rfl

theorem serveBand_unasked {s : State} {band : Nat} (unasked : ∀ e ∈ bandTeams s band, e.2.stepAsked = none) : serveBand s band = s := by
  by_cases stands : (bandOf s band).run = .stopped
  · by_cases busy : ∃ e ∈ bandTeams s band, e.2.stepping ≠ 0
    · exact serveBand_stepping busy
    · have none : ((bandTeams s band).findSome? fun e => e.2.stepAsked.map fun r => (e.1, r)) = none := by
        rw [List.findSome?_eq_none_iff]
        intro e mem
        rw [unasked e mem]
        rfl
      rw [serveBand_serves stands (by simpa using busy), none]
  · exact serveBand_running stands

theorem stepTeam_stopped {s : State} {k : Nat} {t : Team} (stands : stoppedTeam s k = some t) :
    stepTeam s k = { setTeam s k { t with credit := true, stepping := 1, stepLane := none } with cur := some k } := by rw [stepTeam, stands]

theorem stepTeamLane_stopped {s : State} {k : Nat} {t : Team} (stands : stoppedTeam s k = some t) (L : Nat) :
    stepTeamLane s k L = if bit t.live.toNat L then { setTeam s k { t with credit := true, stepping := 2, stepLane := some L } with cur := some k }
      else setTeam s k { t with dbgst := 3 } := by rw [stepTeamLane, stands]

/-- The first team that has been asked is the one that steps. -/
theorem serveBand_first {s : State} {band k : Nat} {t : Team} {r : Option Nat} {before after : NMap Team} (stands : (bandOf s band).run = .stopped)
    (order : bandTeams s band = before ++ (k, t) :: after) (idle : ∀ e ∈ bandTeams s band, e.2.stepping = 0)
    (first : ∀ e ∈ before, e.2.stepAsked = none) (asked : t.stepAsked = some r) (is : s.teams.lookup k = some t) :
    (r = none → serveBand s band =
      { setTeam s k { t with stepAsked := none, credit := true, stepping := 1, stepLane := none } with cur := some k }) ∧
    (∀ L, r = some L → serveBand s band = if bit t.live.toNat L
      then { setTeam s k { t with stepAsked := none, credit := true, stepping := 2, stepLane := some L } with cur := some k }
      else setTeam s k { t with stepAsked := none, dbgst := 3 }) := by
  have found : ((bandTeams s band).findSome? fun e => e.2.stepAsked.map fun r => (e.1, r)) = some (k, r) := by
    have none : (before.findSome? fun e => e.2.stepAsked.map fun r => (e.1, r)) = none := by
      rw [List.findSome?_eq_none_iff]
      intro e mem
      rw [first e mem]
      rfl
    rw [order, List.findSome?_append, none, Option.none_or, List.findSome?_cons, asked]
    rfl
  have serves := serveBand_serves stands idle
  rw [found] at serves
  have inBand : bandKey k = band := by
    have mem : (k, t) ∈ bandTeams s band := by rw [order]; simp
    simpa using (List.mem_filter.1 mem).2
  have still : stoppedTeam (setTeam s k { t with stepAsked := none }) k = some { t with stepAsked := none } :=
    stoppedTeam_some (by rw [setTeam_teams, lookup_setAt, if_pos rfl]) (by rw [bandOf_setTeam, inBand]; exact stands)
  have held : teamOf s k = t := look_of_lookup ({} : Team) is
  refine ⟨fun step => ?_, fun L lane => ?_⟩
  · subst step
    rw [serves]
    dsimp only
    rw [held, stepTeam_stopped still, setTeam_setTeam]
  · subst lane
    rw [serves]
    dsimp only
    rw [held, stepTeamLane_stopped still, setTeam_setTeam, setTeam_setTeam]

/-! ### A debugger attaches (R197, R202) -/

/-- A band and its teams once a debugger is attached. -/
def attachBand (s : State) (band : Nat) (b : Band) : State :=
  mapTeams (setBand s band { b with attached := true }) band fun t => { t with dbgctl := t.dbgctl ||| 0x4000 }

theorem debuggerAttach_attaches {s : State} {band : Nat} {b : Band} (is : s.bands.lookup band = some b) :
    exec (.debuggerAttach band) s = .next (if b.run == .going then beginPreempt (attachBand s band b) band 2 else attachBand s band b) := by
  show execDebuggerAttach band s = _
  rw [execDebuggerAttach, is]
  rfl

theorem bandOf_attachBand (s : State) (band : Nat) (b : Band) : bandOf (attachBand s band b) band = { b with attached := true } := by
  rw [attachBand, mapTeams_eq]
  exact (bandOf_setBand s band band _).trans (if_pos rfl)

theorem lookup_attachBand (s : State) (band : Nat) (b : Band) (k : Nat) : (attachBand s band b).teams.lookup k =
    (s.teams.lookup k).map fun t => if bandKey k = band then { t with dbgctl := t.dbgctl ||| 0x4000 } else t := by
  rw [attachBand, mapTeams_eq]
  exact lookup_mapValues (fun k (t : Team) => if bandKey k = band then { t with dbgctl := t.dbgctl ||| 0x4000 } else t) s.teams k

/-- The band that a pre-emption names, where it is resident, is marked. -/
theorem bandOf_beginPreempt {s : State} {band : Nat} {b : Band} (is : s.bands.lookup band = some b) (resident : b.resident = true) (reason : Nat) :
    bandOf (beginPreempt s band reason) band = { b with run := .stopping, rests := b.standing, reason := reason, stopTick := s.tick } := by
  rw [beginPreempt_eq]
  refine (look_mapValues ({} : Band) (fun j b => stopped s band reason j b) s.bands band).trans ?_
  rw [is, look_of_lookup _ is, Option.isSome_some, if_pos rfl, stopped, resident]
  simp

theorem debuggerAttach_clauses {s : State} {band : Nat} {b : Band} (is : s.bands.lookup band = some b) :
    ∃ s', exec (.debuggerAttach band) s = .next s' ∧ (bandOf s' band).attached = true ∧ (b.run ≠ .going → (bandOf s' band).run = b.run) ∧
      (b.run = .going → (bandOf s' band).run = .stopping ∧ (bandOf s' band).reason = 2) ∧
      ∀ k, s'.teams.lookup k = (s.teams.lookup k).map fun t => if bandKey k = band then { t with dbgctl := t.dbgctl ||| 0x4000 } else t := by
  refine ⟨_, debuggerAttach_attaches is, ?_⟩
  by_cases going : b.run = .going
  · have listed : (attachBand s band b).bands.lookup band = some { b with attached := true } := (lookup_setAt s.bands band band _).trans (if_pos rfl)
    have marked := bandOf_beginPreempt listed (by simp [Band.resident, going]) 2
    rw [going, beq_self_eq_true, if_pos rfl, marked]
    refine ⟨rfl, fun other => absurd rfl other, fun _ => ⟨rfl, rfl⟩, fun k => ?_⟩
    rw [(beginPreempt_onlyStops _ band 2).1]
    exact lookup_attachBand s band b k
  · rw [if_neg (by simpa using going), bandOf_attachBand]
    exact ⟨rfl, fun _ => rfl, fun yes => absurd yes going, lookup_attachBand s band b⟩

/-! ### A band goes on (R202, R203, R325) -/

theorem bandResume_of {s : State} {band : Nat} {b : Band} (is : s.bands.lookup band = some b) :
    exec (.bandResume band) s = if (b.run != .halted && b.run != .stopped) || (dieOf s b.die).off || s.alarm.isSome then .next s
      else .next (serveBand (letGo s band) band) := by
  show execBandResume band s = _
  rw [execBandResume, is]

theorem bandResume_holds {s : State} {band : Nat} {b : Band} (is : s.bands.lookup band = some b)
    (holds : (b.run ≠ .halted ∧ b.run ≠ .stopped) ∨ (dieOf s b.die).off = true ∨ s.alarm ≠ none) : exec (.bandResume band) s = .next s := by
  rw [bandResume_of is]
  refine if_pos ?_
  rcases holds with ⟨notHalted, notStopped⟩ | off | alarm
  · simp [notHalted, notStopped]
  · rw [off, Bool.or_true, Bool.true_or]
  · rw [Option.isSome_iff_ne_none.2 alarm, Bool.or_true]

theorem bandResume_goes {s : State} {band : Nat} {b : Band} (is : s.bands.lookup band = some b) (stands : b.run = .halted ∨ b.run = .stopped)
    (on : (dieOf s b.die).off = false) (quiet : s.alarm = none) : exec (.bandResume band) s = .next (serveBand (letGo s band) band) := by
  rw [bandResume_of is, on, quiet]
  refine if_neg ?_
  rcases stands with h | h <;> simp [h]

/-- Where no team of it is to step, the band issues again. -/
theorem letGo_unstepped {s : State} {band : Nat} (none : ∀ e ∈ bandTeams s band, e.2.stepWanted = none) :
    (bandOf (serveBand (letGo s band) band) band).run = .going := by
  obtain ⟨-, here, -, -⟩ := letGo_clauses s band
  have going : (bandOf (letGo s band) band).run = .going := by
    rw [here]
    exact if_neg fun ⟨e, mem, wants⟩ => wants (none e mem)
  rw [serveBand_running (by rw [going]; decide), going]

/-- Settles O50: the steps of a stopped team, the order in which its band serves them, and the events of a band. -/
theorem debuggerEventsComplete : Obligations.DebuggerEventsComplete := by
  refine ⟨fun s k L => ⟨fun none => debugger_running none L, fun t is stands => debugger_stopped is stands L⟩,
    fun s band => ⟨?idle, fun k t r before after stands order idle first asked is => serveBand_first stands order idle first asked is⟩,
    fun s band => ⟨fun none => ?noBand, fun b is => ⟨debuggerAttach_clauses is, bandResume_holds is, fun stands on quiet =>
      ⟨bandResume_goes is stands on quiet, letGo_unstepped⟩⟩⟩⟩
  case idle =>
    rintro (runs | busy | unasked)
    · exact serveBand_running runs
    · exact serveBand_stepping busy
    · exact serveBand_unasked unasked
  case noBand =>
    show execDebuggerAttach band s = _ ∧ execBandResume band s = _
    rw [execDebuggerAttach, execBandResume, none]
    exact ⟨rfl, rfl⟩

end Sys2Proof.Machine
end

section
/-! SUPPORT. What a home gives for a word depends on no event counter and on no crew, so reading an accumulator's segments leaves the checks of an
`acst`'s addresses as they were (R107, R271, R376, R384). -/

namespace Sys2Proof.Machine

/-- Two machines that differ in their counters and their crews alone. -/
def Alike (s s' : State) : Prop := ∃ counters crews, s' = { s with counters := counters, crews := crews }

/-- Two answers with the same value, of machines that are alike. -/
abbrev Alike₂ {β : Type} (r r' : State × β) : Prop := Alike r.1 r'.1 ∧ r.2 = r'.2

theorem Alike.refl (s : State) : Alike s s := ⟨_, _, rfl⟩

theorem Alike.trans {s s' s'' : State} (h : Alike s s') (g : Alike s' s'') : Alike s s'' := by
  obtain ⟨c, m, rfl⟩ := h
  obtain ⟨c', m', rfl⟩ := g
  exact ⟨c', m', rfl⟩

theorem Alike.symm {s s' : State} (h : Alike s s') : Alike s' s := by
  obtain ⟨c, m, rfl⟩ := h
  exact ⟨s.counters, s.crews, rfl⟩

/-- Answers that are alike are pairs with one value. -/
theorem Alike₂.pairs {β : Type} {r r' : State × β} (h : Alike₂ r r') : ∃ a a' x, r = (a, x) ∧ r' = (a', x) ∧ Alike a a' :=
  ⟨r.1, r'.1, r.2, rfl, Prod.ext rfl h.2.symm, h.1⟩

theorem alike_foldl {α : Type} {f g : State → α → State} (step : ∀ s s' a, Alike s s' → Alike (f s a) (g s' a)) (l : List α) :
    ∀ {s s' : State}, Alike s s' → Alike (l.foldl f s) (l.foldl g s') := by
  induction l with
  | nil => exact id
  | cons a l ih => exact fun h => ih (step _ _ a h)

theorem alike_foldl₂ {α β : Type} {f g : State × β → α → State × β} (step : ∀ r r' a, Alike₂ r r' → Alike₂ (f r a) (g r' a)) (l : List α) :
    ∀ {r r' : State × β}, Alike₂ r r' → Alike₂ (l.foldl f r) (l.foldl g r') := by
  induction l with
  | nil => exact id
  | cons a l ih => exact fun h => ih (step _ _ a h)

theorem alike_ite {c : Prop} [Decidable c] {a a' b b' : State} (yes : Alike a a') (no : Alike b b') :
    Alike (if c then a else b) (if c then a' else b') := by
  split <;> assumption

theorem alike_ite₂ {β : Type} {c : Prop} [Decidable c] {a a' b b' : State × β} (yes : Alike₂ a a') (no : Alike₂ b b') :
    Alike₂ (if c then a else b) (if c then a' else b') := by
  split <;> assumption

variable {s s' : State}

/-! ### The memory behind the caches -/

theorem count_alike (h : Alike s s') (u c : Nat) : Alike (count s u c) (count s' u c) := by
  obtain ⟨_, _, rfl⟩ := h
  exact ⟨_, _, rfl⟩
theorem logRas_alike (h : Alike s s') (r : Ras) : Alike (logRas s r) (logRas s' r) := by
  obtain ⟨_, _, rfl⟩ := h
  exact alike_ite ⟨_, _, rfl⟩ ⟨_, _, rfl⟩
theorem countPc_alike (h : Alike s s') (pa c : Nat) : Alike (countPc s pa c) (countPc s' pa c) := by
  obtain ⟨_, _, rfl⟩ := h
  exact ⟨_, _, rfl⟩
theorem countSlice_alike (h : Alike s s') (c pa : Nat) : Alike (countSlice c s pa) (countSlice c s' pa) := by
  obtain ⟨_, _, rfl⟩ := h
  exact ⟨_, _, rfl⟩
theorem senseStored_alike (h : Alike s s') (pa n : Nat) : Alike₂ (senseStored s pa n) (senseStored s' pa n) := by
  obtain ⟨c, m, rfl⟩ := h
  have same : Alike s { s with counters := c, crews := m } := ⟨_, _, rfl⟩
  unfold senseStored
  split
  · refine alike_ite₂ ⟨same, rfl⟩ ?_
    rw [show senseWord { s with counters := c, crews := m } pa n = senseWord s pa n from rfl]
    split <;> exact ⟨⟨_, _, rfl⟩, rfl⟩
  · rw [show extentOf { s with counters := c, crews := m } pa = extentOf s pa from rfl]
    split
    · exact alike_ite₂ ⟨same, rfl⟩ ⟨same, rfl⟩
    · exact ⟨same, rfl⟩
  · exact alike_ite₂ ⟨same, rfl⟩ ⟨same, rfl⟩
theorem flushDelta_alike (h : Alike s s') (b : Nat) : Alike (flushDelta s b) (flushDelta s' b) := by
  obtain ⟨_, _, rfl⟩ := h
  exact ⟨_, _, rfl⟩
theorem setDelta_alike (h : Alike s s') (pa : Nat) (x : Word) :
    let put := fun (s : State) => setDram s (stackNo pa) { dram s (stackNo pa) with
      deltas := putAt 0 (dram s (stackNo pa)).deltas (blockOf pa)
        (look 0 (dram s (stackNo pa)).deltas (blockOf pa) ^^^ BitVec.ofNat 160 (bchWord x (pa / 4 % 128))) }
    Alike (put s) (put s') := by
  obtain ⟨_, _, rfl⟩ := h
  exact ⟨_, _, rfl⟩
theorem addDelta_alike (h : Alike s s') (pa : Nat) (o n : Word) : Alike (addDelta s pa o n) (addDelta s' pa o n) := by
  unfold addDelta
  refine setDelta_alike ?_ pa (o ^^^ n)
  have flushed := flushDelta_alike h
  obtain ⟨c, m, rfl⟩ := h
  rw [show dram { s with counters := c, crews := m } (stackNo pa) = dram s (stackNo pa) from rfl]
  split
  · exact alike_ite (flushed _) ⟨_, _, rfl⟩
  · exact ⟨_, _, rfl⟩
theorem blockErrors_alike (h : Alike s s') (b : Nat) : blockErrors s' b = blockErrors s b := by
  obtain ⟨_, _, rfl⟩ := h
  rfl
theorem stored_alike (h : Alike s s') (es : List Nat) (pa : Nat) :
    Alike (stored s pa ((rawWord s pa 0).1 ^^^ BitVec.ofNat 32 (wordErrors es pa))) (stored s' pa ((rawWord s' pa 0).1 ^^^ BitVec.ofNat 32 (wordErrors es pa))) := by
  obtain ⟨_, _, rfl⟩ := h
  exact ⟨_, _, rfl⟩
theorem blockProcedure_alike (h : Alike s s') (b : Nat) : Alike₂ (blockProcedure s b) (blockProcedure s' b) := by
  have flushed := flushDelta_alike h b
  unfold blockProcedure
  dsimp only
  rw [blockErrors_alike flushed]
  generalize flushDelta s b = r at flushed ⊢
  generalize flushDelta s' b = r' at flushed ⊢
  split
  · rename_i es _
    have counted := alike_foldl (fun _ _ a h => countSlice_alike h 1 a) (oneASlice ((blockWords b).filter fun pa => wordErrors es pa != 0))
      (countPc_alike flushed (b * 512) 1)
    have fixed := fun l => alike_foldl (fun _ _ a h => stored_alike h es a) l counted
    generalize List.foldl (countSlice 1) (countPc r (b * 512) 1) _ = x at counted fixed ⊢
    generalize List.foldl (countSlice 1) (countPc r' (b * 512) 1) _ = x' at counted fixed ⊢
    obtain ⟨_, _, rfl⟩ := counted
    exact ⟨fixed _, rfl⟩
  · have logged := logRas_alike (countPc_alike flushed (b * 512) 2)
      { addr := b * 512, cls := 2, die := stackNo (b * 512) / 2, unit := stackNo (b * 512), act := 2 }
    obtain ⟨_, _, rfl⟩ := flushed
    exact ⟨alike_foldl (fun _ _ _ h => by obtain ⟨_, _, rfl⟩ := h; exact ⟨_, _, rfl⟩) _ logged, rfl⟩
theorem fetchStored_alike (h : Alike s s') (pa : Nat) : Alike₂ (fetchStored s pa) (fetchStored s' pa) := by
  obtain ⟨r, r', x, e, e', rest⟩ := (senseStored_alike h pa 0).pairs
  have block := (blockProcedure_alike rest (blockOf pa)).1
  unfold fetchStored
  rw [e, e']
  obtain ⟨_, _, rfl⟩ := h
  refine alike_ite₂ ⟨⟨_, _, rfl⟩, rfl⟩ ?_
  cases x with
  | word w => exact ⟨rest, rfl⟩
  | poison => obtain ⟨_, _, rfl⟩ := rest; exact ⟨⟨_, _, rfl⟩, rfl⟩
  | block =>
    dsimp only
    generalize (blockProcedure r (blockOf pa)).1 = b at block ⊢
    generalize (blockProcedure r' (blockOf pa)).1 = b' at block ⊢
    obtain ⟨_, _, rfl⟩ := block
    exact ⟨⟨_, _, rfl⟩, rfl⟩
theorem writeOver_alike (h : Alike s s') (pa : Nat) (o w : Word) (p x : Bool) : Alike (writeOver s pa o w p x) (writeOver s' pa o w p x) := by
  have logged := logRas_alike h
  have added := alike_ite (c := (region pa == .dram && o != w) = true) (addDelta_alike h pa o w) h
  unfold writeOver
  generalize (if (region pa == .dram && o != w) = true then addDelta s pa o w else s) = r at added ⊢
  generalize (if (region pa == .dram && o != w) = true then addDelta s' pa o w else s') = r' at added ⊢
  obtain ⟨c, m, rfl⟩ := h
  obtain ⟨_, _, rfl⟩ := added
  rw [show writeDropped { s with counters := c, crews := m } pa = writeDropped s pa from rfl]
  split
  · exact logged _
  · exact ⟨_, _, rfl⟩
theorem writeStored_alike (h : Alike s s') (pa : Nat) (w : Word) (p known : Bool) :
    Alike (writeStored s pa w p known) (writeStored s' pa w p known) := by
  obtain ⟨r, r', x, e, e', rest⟩ := (fetchStored_alike h pa).pairs
  have written := writeOver_alike h pa (wordAt s.mem pa) w p false
  unfold writeStored
  rw [e, e']
  obtain ⟨_, _, rfl⟩ := h
  exact alike_ite (writeOver_alike rest pa x.1 w p false) written
theorem readPlain_alike (h : Alike s s') (pa key : Nat) (n : Nat → Nat) : Alike₂ (readPlain s pa key n) (readPlain s' pa key n) := by
  have unsealed := senseStored_alike h pa (n pa)
  unfold readPlain
  dsimp only
  generalize granule : List.foldl _ (s, []) (List.range 4) = r
  generalize granule' : List.foldl _ (s', []) (List.range 4) = r'
  have read : Alike₂ r r' := by
    rw [← granule, ← granule']
    refine alike_foldl₂ (fun _ _ i h => ?_) _ ⟨h, rfl⟩
    obtain ⟨a, a', x, rfl, rfl, rest⟩ := Alike₂.pairs h
    have sensed := senseStored_alike rest (pa / 16 * 16 + 4 * i) (n (pa / 16 * 16 + 4 * i))
    exact ⟨sensed.1, congrArg (x ++ [·]) sensed.2⟩
  clear granule granule'
  obtain ⟨a, a', x, rfl, rfl, rest⟩ := read.pairs
  obtain ⟨_, _, rfl⟩ := h
  obtain ⟨_, _, rfl⟩ := rest
  exact alike_ite₂ unsealed (alike_ite₂ ⟨⟨_, _, rfl⟩, rfl⟩ (alike_ite₂ ⟨⟨_, _, rfl⟩, rfl⟩ (alike_ite₂ ⟨⟨_, _, rfl⟩, rfl⟩ ⟨⟨_, _, rfl⟩, rfl⟩)))
theorem readCorrected_alike (h : Alike s s') (pa key : Nat) : Alike₂ (readCorrected s pa key) (readCorrected s' pa key) := by
  obtain ⟨r, r', x, e, e', rest⟩ := (readPlain_alike h pa key fun _ => 0).pairs
  unfold readCorrected
  rw [e, e']
  cases x with
  | word w => exact ⟨rest, rfl⟩
  | poison => exact ⟨rest, rfl⟩
  | block =>
    obtain ⟨b, b', bad, e, e', after⟩ := (blockProcedure_alike rest (blockOf pa)).pairs
    dsimp only
    rw [e, e']
    obtain ⟨a, a', y, e, e', last⟩ := (readPlain_alike after pa key fun _ => 0).pairs
    refine alike_ite₂ ⟨after, rfl⟩ ?_
    dsimp only
    rw [e, e']
    cases y <;> exact ⟨last, rfl⟩
theorem writeGranule_alike (h : Alike s s') (t : Tenant) (g : Nat) (xs : List (Nat × Word × Bool)) (known : Nat → Bool) :
    Alike (writeGranule s t g xs known) (writeGranule s' t g xs known) := by
  unfold writeGranule
  dsimp only
  generalize granule : List.foldl _ (s, []) (List.range 4) = r
  generalize granule' : List.foldl _ (s', []) (List.range 4) = r'
  have read : Alike₂ r r' := by
    rw [← granule, ← granule']
    refine alike_foldl₂ (fun _ _ i h => ?_) _ ⟨h, rfl⟩
    obtain ⟨a, a', x, rfl, rfl, rest⟩ := Alike₂.pairs h
    have fetched := fetchStored_alike rest (g + 4 * i)
    split
    · obtain ⟨_, _, rfl⟩ := rest
      exact ⟨⟨_, _, rfl⟩, rfl⟩
    · exact ⟨fetched.1, congrArg (x ++ [·]) fetched.2⟩
  clear granule granule'
  obtain ⟨a, a', x, rfl, rfl, rest⟩ := read.pairs
  have lost : ∀ i, unciphered a' (g + 4 * i) = unciphered a (g + 4 * i) := fun _ => by obtain ⟨_, _, rfl⟩ := rest; rfl
  dsimp only
  simp only [lost]
  refine alike_foldl (fun _ _ _ h => ?_) _ rest
  exact writeOver_alike h ..
theorem writePlains_alike (h : Alike s s') (key : Nat) (xs : List (Nat × Word × Bool)) (known : Nat → Bool) :
    Alike (writePlains s key xs known) (writePlains s' key xs known) := by
  have tenant : tenantOf s' (key - 1) = tenantOf s (key - 1) := by obtain ⟨_, _, rfl⟩ := h; rfl
  unfold writePlains
  dsimp only
  rw [tenant]
  refine alike_ite (alike_foldl (fun _ _ _ h => ?_) _ h) (alike_foldl (fun _ _ _ h => ?_) _ h)
  · exact writeStored_alike h ..
  · exact writeGranule_alike h ..

/-! ### The caches of the dies and of the homes -/

theorem mscOf_alike (h : Alike s s') (k : Nat) : mscOf s' k = mscOf s k := by
  obtain ⟨_, _, rfl⟩ := h
  rfl
theorem setMsc_alike (h : Alike s s') (k : Nat) (c : NMap Blk) : Alike (setMsc s k c) (setMsc s' k c) := by
  obtain ⟨_, _, rfl⟩ := h
  exact ⟨_, _, rfl⟩
theorem l2Of_alike (h : Alike s s') (d : Nat) : l2Of s' d = l2Of s d := by
  obtain ⟨_, _, rfl⟩ := h
  rfl
theorem setL2_alike (h : Alike s s') (d : Nat) (c : NMap Blk) : Alike (setL2 s d c) (setL2 s' d c) := by
  obtain ⟨_, _, rfl⟩ := h
  exact ⟨_, _, rfl⟩
theorem leaving_alike (h : Alike s s') (b : Blk) (pa unit : Nat) : Alike₂ (leaving s b pa unit) (leaving s' b pa unit) := by
  have counted := count_alike h unit
  have launches : (count s' unit 12).launches = (count s unit 12).launches := by obtain ⟨_, _, rfl⟩ := h; rfl
  unfold leaving
  dsimp only
  rw [launches]
  refine alike_ite₂ ⟨?_, rfl⟩ ⟨alike_ite (counted 10) h, rfl⟩
  dsimp only
  split
  · refine alike_ite (logRas_alike (counted 12) _) ?_
    rename_i l _
    obtain ⟨_, _, e⟩ := logRas_alike (counted 12) { cacheRas pa unit 12 2 with tenant := l.tenant, act := 1, launch := b.launch }
    rw [e]
    exact ⟨_, _, rfl⟩
  · exact logRas_alike (counted 12) _
theorem holdBlock_alike (h : Alike s s') (w : HeldWrite) : Alike (holdBlock s w) (holdBlock s' w) := by
  obtain ⟨_, _, rfl⟩ := h
  exact ⟨_, _, rfl⟩
theorem dropL2_alike (h : Alike s s') (pa : Nat) : Alike (dropL2 s pa) (dropL2 s' pa) := by
  refine alike_foldl (fun s s' d h => ?_) _ h
  rw [l2Of_alike h]
  split
  · exact alike_ite (setL2_alike h d _) h
  · exact h
theorem leavingHome_alike (h : Alike s s') (b : Blk) (pa : Nat) : Alike₂ (leavingHome s b pa) (leavingHome s' b pa) :=
  leaving_alike (alike_ite (dropL2_alike h pa) h) b pa _
theorem writeWaits_alike (h : Alike s s') (pa : Nat) : writeWaits s' pa = writeWaits s pa := by
  obtain ⟨_, _, rfl⟩ := h
  rfl
theorem mend_alike (h : Alike s s') {unit pa : Nat} {get : State → NMap Blk} {put : State → NMap Blk → State} {onward : State → Blk → State}
    (gets : ∀ s s', Alike s s' → get s' = get s) (puts : ∀ s s' c, Alike s s' → Alike (put s c) (put s' c))
    (passes : ∀ s s' b, Alike s s' → Alike (onward s b) (onward s' b)) : Alike (mend s unit pa get put onward) (mend s' unit pa get put onward) := by
  unfold mend
  rw [gets _ _ h]
  refine alike_ite h ?_
  split
  · exact h
  · rename_i b _
    have passed := passes _ _ b h
    dsimp only
    rw [gets _ _ passed]
    exact alike_ite (count_alike (puts _ _ _ h) ..) (alike_ite (puts _ _ _ passed) (logRas_alike (count_alike (puts _ _ _ h) ..) _))
theorem mendHome_alike (h : Alike s s') (pa : Nat) : Alike (mendHome s pa) (mendHome s' pa) := by
  unfold mendHome
  refine mend_alike h (fun _ _ h => mscOf_alike h _) (fun _ _ c h => setMsc_alike h _ c) fun s s' b h => ?_
  obtain ⟨a, a', x, e, e', rest⟩ := (leavingHome_alike h b pa).pairs
  rw [e, e']
  dsimp only
  rw [writeWaits_alike rest]
  exact alike_ite (holdBlock_alike rest _) (writePlains_alike rest ..)
theorem mscEvict_alike (h : Alike s s') (v : Nat × Blk) : Alike (mscEvict s v) (mscEvict s' v) := by
  unfold mscEvict
  generalize evicted : List.foldl _ (s, []) v.2.dirtyWords = r
  generalize evicted' : List.foldl _ (s', []) v.2.dirtyWords = r'
  have left : Alike₂ r r' := by
    rw [← evicted, ← evicted']
    refine alike_foldl₂ (fun _ _ i h => ?_) _ ⟨h, rfl⟩
    obtain ⟨a, a', x, rfl, rfl, rest⟩ := Alike₂.pairs h
    obtain ⟨b, b', y, e, e', after⟩ := (leavingHome_alike rest v.2 (v.1 * 256 + 4 * i)).pairs
    dsimp only
    rw [e, e']
    exact ⟨after, rfl⟩
  clear evicted evicted'
  obtain ⟨a, a', x, rfl, rfl, rest⟩ := left.pairs
  have waits : (fun x : Nat × Word × Bool => writeWaits a' x.1) = fun x => writeWaits a x.1 := funext fun x => writeWaits_alike rest x.1
  dsimp only
  rw [waits]
  refine writePlains_alike (alike_foldl (fun _ _ _ h => ?_) _ rest) ..
  exact holdBlock_alike h _
theorem countMiss_alike (h : Alike s s') (pa t : Nat) : Alike (countMiss s pa t) (countMiss s' pa t) := by
  obtain ⟨_, _, rfl⟩ := h
  exact alike_ite ⟨_, _, rfl⟩ (alike_ite ⟨_, _, rfl⟩ (alike_ite ⟨_, _, rfl⟩ ⟨_, _, rfl⟩))
theorem insertPrio_alike (h : Alike s s') (pa t : Nat) : Alike₂ (insertPrio s pa t) (insertPrio s' pa t) := by
  obtain ⟨_, _, rfl⟩ := h
  exact alike_ite₂ ⟨⟨_, _, rfl⟩, rfl⟩ ⟨⟨_, _, rfl⟩, rfl⟩
theorem mscEnsure_alike (h : Alike s s') (pa key hint t : Nat) : Alike (mscEnsure s pa key hint t) (mscEnsure s' pa key hint t) := by
  obtain ⟨a, a', p, e, e', rest⟩ := (alike_ite₂ (c := hint = 0) (insertPrio_alike h pa t) (b := (s, 0)) (b' := (s', 0)) ⟨h, rfl⟩).pairs
  have steps : a'.steps = a.steps := by obtain ⟨_, _, rfl⟩ := rest; rfl
  unfold mscEnsure
  dsimp only
  rw [e, e', mscOf_alike h]
  split
  · exact h
  dsimp only
  rw [mscOf_alike rest, steps]
  generalize allocate .msc (mscOf a (stackNo pa)) (pa / 256) (newBlk a.steps hint p key) = r
  obtain ⟨c, v⟩ := r
  cases v with
  | none => exact setMsc_alike rest ..
  | some v =>
    have put := setMsc_alike rest (stackNo pa) c
    refine alike_ite ?_ (mscEvict_alike put v)
    obtain ⟨_, _, rfl⟩ := rest
    exact ⟨_, _, rfl⟩
theorem mscPut_alike (h : Alike s s') (pa : Nat) (w : Word) (p d : Bool) (key hint t l : Nat) :
    Alike (mscPut s pa w p d key hint t l) (mscPut s' pa w p d key hint t l) := by
  have room := mscEnsure_alike h pa key hint t
  unfold mscPut
  dsimp only
  generalize mscEnsure s pa key hint t = r at room ⊢
  generalize mscEnsure s' pa key hint t = r' at room ⊢
  rw [mscOf_alike room]
  split
  · exact room
  · obtain ⟨_, _, rfl⟩ := room
    exact ⟨_, _, rfl⟩
theorem homePut_alike (h : Alike s s') (pa : Nat) (w : Word) (p : Bool) (l key hint : Nat) :
    Alike (homePut s pa w p l key hint) (homePut s' pa w p l key hint) := by
  have gone : extentGone s' pa = extentGone s pa := by obtain ⟨_, _, rfl⟩ := h; rfl
  have busy : blockBusy s' pa = blockBusy s pa := by obtain ⟨_, _, rfl⟩ := h; rfl
  have writer : writerTenant s' l = writerTenant s l := by obtain ⟨_, _, rfl⟩ := h; rfl
  have put := mscPut_alike (alike_ite (c := (blk (mscOf s (stackNo pa)) (pa / 256)).isNone = true) (countMiss_alike h pa (writerTenant s l)) h)
    pa w p true key hint (writerTenant s l) l
  unfold homePut
  dsimp only
  rw [gone, busy, writer, mscOf_alike h]
  refine alike_ite (logRas_alike h _) (alike_ite (holdBlock_alike h _) ?_)
  generalize mscPut _ pa w p true key hint (writerTenant s l) l = r at put ⊢
  generalize mscPut _ pa w p true key hint (writerTenant s l) l = r' at put ⊢
  rw [mscOf_alike put]
  split
  · exact setMsc_alike put ..
  · exact put
theorem holdWrite_alike (h : Alike s s') (w : HeldWrite) : Alike (holdWrite s w) (holdWrite s' w) := by
  obtain ⟨c, m, rfl⟩ := h
  unfold holdWrite
  dsimp only
  rw [show w.needs { s with counters := c, crews := m } = w.needs s from rfl,
    show asked { s with counters := c, crews := m } w.pa = asked s w.pa from rfl]
  cases w.needs s <;> split <;> exact ⟨_, _, rfl⟩
theorem homePerform_alike (h : Alike s s') (pa : Nat) (w : Word) (p : Bool) (l key hint writer : Nat) :
    Alike (homePerform s pa w p l key hint writer) (homePerform s' pa w p l key hint writer) := by
  have waits : awaits s' pa true = awaits s pa true := by obtain ⟨_, _, rfl⟩ := h; rfl
  unfold homePerform
  rw [waits]
  exact alike_ite (holdWrite_alike h _) (homePut_alike h ..)
theorem purgeL2_alike (h : Alike s s') (pa writer : Nat) : Alike (purgeL2 s pa writer) (purgeL2 s' pa writer) := by
  refine alike_foldl (fun s s' d h => ?_) _ h
  refine alike_ite h ?_
  rw [l2Of_alike h]
  split
  · exact h
  rename_i b _
  obtain ⟨a, a', x, e, e', rest⟩ := (leaving_alike h b pa (10000 + d * 48 + pa / 256 % 48)).pairs
  refine alike_ite ?_ h
  rw [e, e']
  dsimp only
  generalize purged : (if b.isDirty (wordIx pa) = true then homePerform a pa x.1 x.2 b.launch b.key (b.lineHint (wordIx pa)) (d + 1) else s) = r
  generalize purged' : (if b.isDirty (wordIx pa) = true then homePerform a' pa x.1 x.2 b.launch b.key (b.lineHint (wordIx pa)) (d + 1) else s') = r'
  have both : Alike r r' := by
    rw [← purged, ← purged']
    exact alike_ite (homePerform_alike rest ..) h
  rw [l2Of_alike both]
  exact setL2_alike both ..
theorem blockAtHome_alike (h : Alike s s') (b : Nat) : Alike₂ (blockAtHome s b) (blockAtHome s' b) := by
  obtain ⟨a, a', bad, e, e', rest⟩ := (blockProcedure_alike h b).pairs
  unfold blockAtHome
  rw [e, e']
  dsimp only
  simp only [mscOf_alike rest]
  refine ⟨alike_foldl (fun s s' pa h => ?_) _ rest, rfl⟩
  have purged := purgeL2_alike h pa 0
  rw [mscOf_alike purged]
  exact setMsc_alike purged ..
theorem readBehind_alike (h : Alike s s') (pa key : Nat) : Alike₂ (readBehind s pa key) (readBehind s' pa key) := by
  obtain ⟨r, r', x, e, e', rest⟩ := (readPlain_alike h pa key fun _ => 0).pairs
  unfold readBehind
  rw [e, e']
  cases x with
  | word w => exact ⟨rest, rfl⟩
  | poison => exact ⟨rest, rfl⟩
  | block =>
    obtain ⟨b, b', bad, e, e', after⟩ := (blockAtHome_alike rest (blockOf pa)).pairs
    dsimp only
    rw [e, e']
    obtain ⟨a, a', y, e, e', last⟩ := (readPlain_alike after pa key fun _ => 0).pairs
    refine alike_ite₂ ⟨after, rfl⟩ ?_
    dsimp only
    rw [e, e']
    cases y <;> exact ⟨last, rfl⟩

/-! ### Views, entries and walks -/

theorem storedVia_alike (h : Alike s s') (pa : Nat) : Alike₂ (storedVia s pa) (storedVia s' pa) := by
  have mended := mendHome_alike h pa
  unfold storedVia
  dsimp only
  generalize mendHome s pa = r at mended ⊢
  generalize mendHome s' pa = r' at mended ⊢
  rw [mscOf_alike mended]
  split
  · exact ⟨setMsc_alike mended .., rfl⟩
  · obtain ⟨a, a', x, e, e', rest⟩ := (readBehind_alike mended (pa / 4 * 4) 0).pairs
    rw [e, e']
    cases x with
    | ok w => exact ⟨mscPut_alike rest .., rfl⟩
    | poison => exact ⟨mscPut_alike rest .., rfl⟩
    | uncorr => exact ⟨rest, rfl⟩
    | loss => exact ⟨rest, rfl⟩
theorem viewElem_alike (h : Alike s s') (w : Window) (i : Nat) : Alike₂ (viewElem s w i) (viewElem s' w i) := by
  unfold viewElem
  obtain ⟨p, q, g⟩ := w.places i
  obtain ⟨a, a', x, e, e', rest⟩ := (storedVia_alike h (p / 4 * 4)).pairs
  obtain ⟨b, b', y, f, f', rest⟩ := (storedVia_alike rest (q / 4 * 4)).pairs
  dsimp only
  rw [e, e']
  dsimp only
  rw [f, f']
  cases g with
  | none => cases x <;> cases y <;> exact ⟨rest, rfl⟩
  | some g =>
    obtain ⟨c, c', z, e, e', rest⟩ := (storedVia_alike rest g).pairs
    dsimp only
    rw [e, e']
    cases x <;> cases y <;> cases z <;> exact ⟨rest, rfl⟩
theorem viewWord_alike (h : Alike s s') (pa : Nat) : Alike₂ (viewWord s pa) (viewWord s' pa) := by
  have window : windowAt s' pa = windowAt s pa := by obtain ⟨_, _, rfl⟩ := h; rfl
  unfold viewWord
  rw [window]
  split
  · exact ⟨h, rfl⟩
  rename_i w _
  dsimp only
  generalize read : List.foldl _ (s, some 0) _ = r
  generalize read' : List.foldl _ (s', some 0) _ = r'
  have both : Alike₂ r r' := by
    rw [← read, ← read']
    refine alike_foldl₂ (fun _ _ i h => ?_) _ ⟨h, rfl⟩
    obtain ⟨a, a', x, rfl, rfl, rest⟩ := Alike₂.pairs h
    obtain ⟨b, b', y, e, e', after⟩ := (viewElem_alike rest w ((w.elems pa).1 + i)).pairs
    dsimp only
    rw [e, e']
    exact ⟨after, rfl⟩
  clear read read'
  obtain ⟨a, a', x, rfl, rfl, rest⟩ := both.pairs
  exact ⟨rest, rfl⟩
theorem homePeek_alike (h : Alike s s') (pa key : Nat) : homePeek s' pa key = homePeek s pa key := by
  unfold homePeek
  rw [mscOf_alike h, (viewWord_alike h pa).2, (readCorrected_alike h pa key).2]
theorem entryAt_alike (h : Alike s s') (pa : Nat) : entryAt s' pa = entryAt s pa := by
  unfold entryAt
  rw [homePeek_alike h, homePeek_alike h]
theorem leafAt_alike (h : Alike s s') (t level va e : Nat) : leafAt s' t level va e = leafAt s t level va e := by
  obtain ⟨_, _, rfl⟩ := h
  rfl
theorem walk_alike (h : Alike s s') (t va : Nat) : walk s' t va = walk s t va := by
  have root : tenantOf s' t = tenantOf s t := by obtain ⟨_, _, rfl⟩ := h; rfl
  simp only [walk, groupLeaves, entryAt_alike h, leafAt_alike h, root]
theorem readableNow_alike (h : Alike s s') (pa : Nat) : readableNow s' pa = readableNow s pa := by
  obtain ⟨_, _, rfl⟩ := h
  rfl
theorem walkLate_alike (h : Alike s s') (t va : Nat) : walkLate s' t va = walkLate s t va := by
  have root : tenantOf s' t = tenantOf s t := by obtain ⟨_, _, rfl⟩ := h; rfl
  simp only [walkLate, walkReads, entryAt_alike h, readableNow_alike h, root]

/-- R376: a translation asks the caches, the walkers and the tables. -/
theorem translate_alike (h : Alike s s') (core t va : Nat) : translate s' core t va = translate s core t va := by
  have late := walkLate_alike h t va
  have leaves := walk_alike h t va
  unfold translate
  rw [late, leaves]
  obtain ⟨_, _, rfl⟩ := h
  rfl

/-- R107: of the crews a check asks how large their scratchpads are. -/
theorem checkAddr_alike (h : Alike s s') (sizes : ∀ k, (s'.crews.lookup k).map (·.padBytes) = (s.crews.lookup k).map (·.padBytes))
    (core band w : Nat) (va : DWord) (a : Acc) : checkAddr s' core band w va a = checkAddr s core band w va a := by
  have size := sizes (16 * band + apertureSlot va)
  have tr := translate_alike h core
  unfold checkAddr
  refine ite_congr rfl (fun _ => rfl) fun _ => ite_congr rfl (fun _ => ?_) fun _ => ite_congr rfl (fun _ => rfl) fun _ => ?_
  · generalize s'.crews.lookup (16 * band + apertureSlot va) = c' at size ⊢
    generalize s.crews.lookup (16 * band + apertureSlot va) = c at size ⊢
    cases c <;> cases c' <;> simp_all
  · dsimp only
    rw [tr]
    obtain ⟨_, _, rfl⟩ := h
    rfl
theorem readReady_alike (h : Alike s s') (core pa : Nat) : readReady s' core pa = readReady s core pa := by
  obtain ⟨_, _, rfl⟩ := h
  rfl

end Sys2Proof.Machine
end

section
/-! SUPPORT. The array at work (R194, R243, R271, R283, R378, R380): what each command leaves of a crew, and the proof of O42. -/

namespace Sys2Proof.Machine

/-! ### A command leaves the queue (R243) -/

theorem crewOf_retireCmd (s : State) (core : Nat) (q : ArrayCmd) : crewOf (retireCmd s core q) q.crew =
    { crewOf s q.crew with aver := putAt 0 (crewOf s q.crew).aver q.acc (q.ver + 1) } :=
  (crewOf_setCrew _ _ _ _).trans (if_pos rfl)

theorem retireCmd_retired (s : State) (core : Nat) (q : ArrayCmd) : Retired s (retireCmd s core q) core q := by
  refine ⟨?_, ?_, fun n other => ?_⟩
  · show (coreOf (setCore s core _) core).queue = _
    rw [coreOf_setCore, if_pos rfl]
  · rw [crewOf_retireCmd, look_putAt, if_pos rfl]
  · rw [crewOf_retireCmd, look_putAt, if_neg other]

/-- A command's work leaves the core, and the versions of its crew, as they were until it retires. -/
theorem Retired.of_worked {s r s' : State} {core : Nat} {q : ArrayCmd} (h : Retired r s' core q) (cores : r.cores = s.cores)
    (versions : (crewOf r q.crew).aver = (crewOf s q.crew).aver) : Retired s s' core q := by
  obtain ⟨queue, own, others⟩ := h
  exact ⟨queue.trans (congrArg (fun m => (look {} m core : Core).queue.filter fun x => x.uid != q.uid) cores), own, fun n other =>
    (others n other).trans (by rw [versions])⟩

/-! ### The code of a crew's storage (R378, R380) -/

theorem logRas_cores (s : State) (r : Ras) : (logRas s r).cores = s.cores := by
  unfold logRas
  split <;> rfl

theorem lostOnDie_cores (s : State) (unit core part band : Nat) : (lostOnDie s unit core part band).cores = s.cores := by
  unfold lostOnDie requestReplacement
  dsimp only
  split
  · exact (logRas_cores _ _).trans (logRas_cores _ _)
  · exact logRas_cores _ _

theorem foldl_cores {α : Type} {f : State → α → State} (keeps : ∀ s a, (f s a).cores = s.cores) (l : List α) (s : State) :
    (l.foldl f s).cores = s.cores := by
  induction l generalizing s with
  | nil => rfl
  | cons a l ih => exact (ih _).trans (keeps s a)

/-- What a read of a crew's storage leaves alone: the teams, the bands, the cores, and of the crews all but the marks of the code. -/
theorem tendCrew_leaves (s : State) (c : Nat) {get : Crew → Ecc} {put : Crew → Ecc → Crew} (hit : Nat → Bool) (own : ∀ x, put x (get x) = x) :
    Calm s (tendCrew s c get put hit) ∧ (tendCrew s c get put hit).cores = s.cores ∧
      ∃ ecc, crewOf (tendCrew s c get put hit) c = put (crewOf s c) ecc := by
  refine ⟨tendCrew_calm s c get put hit, ?_⟩
  unfold tendCrew
  dsimp only
  split
  · exact ⟨rfl, _, (own _).symm⟩
  rename_i marked
  clear marked
  have cores : ∀ (core : Nat) (fixes losses : List Nat), (losses.foldl (fun s _ => lostOnDie s (arrayUnit core) core (core % 144) (c / 16))
      (fixes.foldl (fun s _ => count s (arrayUnit core) 8) s)).cores = s.cores := fun core fixes losses =>
    (foldl_cores (fun s _ => lostOnDie_cores s ..) losses _).trans (foldl_cores (f := fun s _ => count s (arrayUnit core) 8) (fun _ _ => rfl) fixes s)
  have crews : ∀ (core : Nat) (fixes losses : List Nat), (losses.foldl (fun s _ => lostOnDie s (arrayUnit core) core (core % 144) (c / 16))
      (fixes.foldl (fun s _ => count s (arrayUnit core) 8) s)).crews = s.crews := fun core fixes losses =>
    (foldl_crews (fun s _ => lostOnDie_crews s ..) losses _).trans (foldl_crews (f := fun s _ => count s (arrayUnit core) 8) (fun _ _ => rfl) fixes s)
  refine ⟨cores _ _ _, { get (crewOf s c) with soft := (get (crewOf s c)).soft.filter fun i => !hit i }, ?_⟩
  rw [crewOf_setCrew, if_pos rfl]
  exact congrArg (fun m => put (look {} m c) _) (crews _ _ _)

theorem tendCrew_good {s : State} {c : Nat} {get : Crew → Ecc} (good : (get (crewOf s c)).good = true) (put : Crew → Ecc → Crew) (hit : Nat → Bool) :
    tendCrew s c get put hit = s := by
  unfold tendCrew
  exact if_pos good

theorem Alike.foldl {α : Type} {f : State → α → State} (step : ∀ s a, Alike s (f s a)) (l : List α) (s : State) : Alike s (l.foldl f s) := by
  induction l generalizing s with
  | nil => exact .refl s
  | cons a l ih => exact (step s a).trans (ih _)

theorem alike_setCrew (s : State) (c : Nat) (x : Crew) : Alike s (setCrew s c x) := ⟨_, _, rfl⟩

/-- A listed crew that keeps its scratchpad's size leaves every crew's size as it was. -/
theorem setCrew_sizes {s r : State} {c : Nat} {x : Crew} (listed : s.crews.lookup c = some (crewOf s c)) (crews : r.crews = s.crews)
    (kept : x.padBytes = (crewOf s c).padBytes) (k : Nat) :
    ((setCrew r c x).crews.lookup k).map (·.padBytes) = (s.crews.lookup k).map (·.padBytes) := by
  show ((setAt r.crews c x).lookup k).map _ = _
  rw [lookup_setAt, crews]
  by_cases same : k = c
  · rw [if_pos same, same, listed]
    exact congrArg some kept
  · rw [if_neg same]

/-- Where every segment that is read can be corrected, the crew's marks and the counters are all that changes. -/
theorem tendAcc_alike {s : State} {c : Nat} {hit : Nat → Bool} (fine : (crewOf s c).accEcc.bad.any hit = false) :
    Alike s (tendAcc s c hit) ∧ ∀ k, ((tendAcc s c hit).crews.lookup k).map (·.padBytes) = (s.crews.lookup k).map (·.padBytes) := by
  unfold tendAcc tendCrew
  dsimp only
  split
  · exact ⟨.refl s, fun _ => rfl⟩
  rename_i marked
  have none : (crewOf s c).accEcc.bad.filter hit = [] := by
    rw [List.filter_eq_nil_iff]
    exact fun i mem yes => by simp [List.any_eq_false.1 fine i mem] at yes
  have listed : s.crews.lookup c = some (crewOf s c) := by
    cases found : s.crews.lookup c with
    | none => exact absurd (by rw [crewOf, look_of_lookup_none _ found]; rfl) marked
    | some x => rw [crewOf, look_of_lookup _ found]
  rw [none, List.foldl_nil]
  have crews := foldl_crews (f := fun r _ => count r (arrayUnit (crewOf s c).core) 8) (fun _ _ => rfl) ((crewOf s c).accEcc.soft.filter hit) s
  have counted := Alike.foldl (f := fun r _ => count r (arrayUnit (crewOf s c).core) 8) (fun _ _ => ⟨_, _, rfl⟩) ((crewOf s c).accEcc.soft.filter hit) s
  exact ⟨counted.trans (alike_setCrew ..), setCrew_sizes listed crews (congrArg (fun m => (look {} m c : Crew).padBytes) crews)⟩

end Sys2Proof.Machine
end

section
/-! SUPPORT. The commands of the array and the proof of O42 (R194, R243, R271, R283, R380). -/

namespace Sys2Proof.Machine

variable {s : State} {core : Nat} {q : ArrayCmd}

/-! ### A step for another command, or for none, does nothing -/

theorem arrayCommand_none (none : nextCmd s core = none) :
    exec (.mmaCommand core) s = .next s ∧ exec (.aczCommand core) s = .next s ∧ exec (.acstCommand core) s = .next s := by
  refine ⟨?_, ?_, ?_⟩
  · show execMmaCommand core s = _
    rw [execMmaCommand, none]
  · show execAczCommand core s = _
    rw [execAczCommand, none]
  · show execAcstCommand core s = _
    rw [execAcstCommand, none]

theorem mmaCommand_other (next : nextCmd s core = some q) (other : q.op ≠ 3) : exec (.mmaCommand core) s = .next s := by
  show execMmaCommand core s = _
  rw [execMmaCommand, next]
  exact if_pos other

theorem aczCommand_other (next : nextCmd s core = some q) (other : q.op ≠ 4) : exec (.aczCommand core) s = .next s := by
  show execAczCommand core s = _
  rw [execAczCommand, next]
  exact if_pos other

theorem acstCommand_other (next : nextCmd s core = some q) (other : q.op ≠ 7) : exec (.acstCommand core) s = .next s := by
  show execAcstCommand core s = _
  rw [execAcstCommand, next]
  exact if_pos other

theorem ArrayCmd.acc_lt (q : ArrayCmd) : q.acc < 8 := by
  unfold ArrayCmd.acc bits
  split <;> omega

/-! ### `acz` (R271) -/

/-- What `acz` leaves of the crew of its accumulator `a`: the words zero, the segments good, FLT clear. -/
def Crew.cleared (c : Crew) (a : Nat) : Crew :=
  { c with acc := c.acc.filter fun e => e.1 / 16384 != a, accEcc := c.accEcc.wrote (accSegment a),
           accFault := c.accFault &&& ~~~BitVec.ofNat 8 (2 ^ a) }

/-- The state in which `acz` retires. -/
def aczCleared (s : State) (q : ArrayCmd) : State :=
  let c := crewOf s q.crew
  setFlt (setCrew s q.crew { c with acc := c.acc.filter fun e => e.1 / 16384 != q.acc, accEcc := c.accEcc.wrote (accSegment q.acc) }) q.crew q.acc false

theorem crewOf_aczCleared (s : State) (q : ArrayCmd) : crewOf (aczCleared s q) q.crew = (crewOf s q.crew).cleared q.acc := by
  simp only [aczCleared, setFlt, crewOf_setCrew, if_pos]
  rfl

theorem aczCommand_clears (next : nextCmd s core = some q) (acz : q.op = 4) :
    exec (.aczCommand core) s = .next (retireCmd (aczCleared s q) core q) := by
  show execAczCommand core s = _
  rw [execAczCommand, next]
  exact if_neg (not_not.2 acz)

theorem aczCommand_clauses (next : nextCmd s core = some q) (acz : q.op = 4) :
    ∃ s', exec (.aczCommand core) s = .next s' ∧ s' = { s with cores := s'.cores, crews := s'.crews } ∧ Retired s s' core q ∧
      bit (crewOf s' q.crew).accFault.toNat q.acc = false ∧
      ∀ n i, i < 16384 → look 0 (crewOf s' q.crew).acc (16384 * n + i) = if n = q.acc then 0 else look 0 (crewOf s q.crew).acc (16384 * n + i) := by
  have cleared := crewOf_aczCleared s q
  have crew := crewOf_retireCmd (aczCleared s q) core q
  refine ⟨_, aczCommand_clears next acz, rfl, Retired.of_worked (retireCmd_retired _ core q) rfl (by rw [cleared]; rfl), ?_, fun n i inside => ?_⟩
  · rw [crew, cleared]
    exact (bit_clear _ q.acc q.acc_lt).trans (if_pos rfl)
  · have own : (16384 * n + i) / 16384 = n := by omega
    rw [crew, cleared]
    refine (look_filterKeys 0 (fun k => k / 16384 != q.acc) _ _).trans ?_
    rw [own]
    by_cases same : n = q.acc
    · rw [if_pos same, if_neg (by simp [same])]
    · rw [if_neg same, if_pos (by simp [same])]

/-! ### The elements of an `mma` (R283) -/

/-- Steps on a map that each write keys of their own, from what those keys hold: what one of them writes is what it writes alone, and a key of none
stays as it was. -/
theorem foldl_disjoint {α : Type} {f : NMap Word → α → NMap Word} {keys : α → List Nat} (frame : ∀ m a k, k ∉ keys a → look 0 (f m a) k = look 0 m k)
    (own : ∀ m m' a, (∀ k ∈ keys a, look 0 m k = look 0 m' k) → ∀ k ∈ keys a, look 0 (f m a) k = look 0 (f m' a) k) {l : List α}
    (disjoint : l.Pairwise fun a b => ∀ k ∈ keys a, k ∉ keys b) (m : NMap Word) :
    (∀ k, (∀ a ∈ l, k ∉ keys a) → look 0 (l.foldl f m) k = look 0 m k) ∧
      ∀ a ∈ l, ∀ k ∈ keys a, look 0 (l.foldl f m) k = look 0 (f m a) k := by
  induction l generalizing m with
  | nil => exact ⟨fun _ _ => rfl, nofun⟩
  | cons b l ih =>
    obtain ⟨first, rest⟩ := List.pairwise_cons.1 disjoint
    obtain ⟨others, written⟩ := ih rest (f m b)
    refine ⟨fun k none => ?_, fun a mem k key => ?_⟩
    · exact (others k fun a mem => none a (.tail _ mem)).trans (frame m b k (none b (.head _)))
    · obtain rfl | mem := List.mem_cons.1 mem
      · exact others k fun x mem => first x mem k key
      · exact (written a mem k key).trans (own _ _ a (fun k key => frame m b k fun shared => first a mem k shared key) k key)

/-- Whether an `mma` sums 64-bit elements, of two words each. -/
def mmaWide (c : Crew) (w : Word) : Bool := (shapeOf (tsOf c (tileA w))).ety == 7

/-- The accumulator words of one element. -/
def mmaKeys (c : Crew) (w : Word) (e : Nat × Nat) : List Nat :=
  let n := bits w.toNat 5 3
  if mmaWide c w then [accKey n e.1 (2 * e.2), accKey n e.1 (2 * e.2) + 1] else [accKey n e.1 e.2]

/-- The new value of one element. -/
def mmaValue (c : Crew) (w : Word) (m : NMap Word) (e : Nat × Nat) : Nat :=
  mmaElem c (tileA w) (tileB w) (shapeOf (tsOf c (tileA w))) (shapeOf (tsOf c (tileB w))) e.1 e.2
    (if mmaWide c w then
      (look 0 m (accKey (bits w.toNat 5 3) e.1 (2 * e.2))).toNat + (look 0 m (accKey (bits w.toNat 5 3) e.1 (2 * e.2) + 1)).toNat * 2 ^ 32
      else (look 0 m (accKey (bits w.toNat 5 3) e.1 e.2)).toNat)

/-- The accumulator with the sum of one element. -/
def mmaPut (c : Crew) (w : Word) (m : NMap Word) (e : Nat × Nat) : NMap Word :=
  let n := bits w.toNat 5 3
  let x := mmaValue c w m e
  if mmaWide c w then putAt 0 (putAt 0 m (accKey n e.1 (2 * e.2)) (BitVec.ofNat 32 x)) (accKey n e.1 (2 * e.2) + 1) (BitVec.ofNat 32 (x / 2 ^ 32))
  else putAt 0 m (accKey n e.1 e.2) (BitVec.ofNat 32 x)

/-- An `mma` whose blocks and words are good sums its elements one after another. -/
theorem mmaAcc_good (c : Crew) (w : Word) (fresh : Nat) : mmaAcc c w false fresh =
    ((List.range (shapeOf (tsOf c (tileA w))).rows).product (List.range (shapeOf (tsOf c (tileB w))).rows)).foldl (mmaPut c w) c.acc := by
  rw [List.product, List.foldl_flatMap]
  simp only [List.foldl_map, mmaPut, mmaValue]
  cases wide : mmaWide c w with
  | false =>
    rw [mmaWide] at wide
    simp only [mmaAcc, wide, Bool.false_eq_true, if_false]
  | true =>
    rw [mmaWide] at wide
    simp only [mmaAcc, wide, Bool.false_eq_true, if_false, if_true]

variable {c : Crew} {w : Word}

theorem look_mmaPut_narrow (narrow : mmaWide c w = false) (m : NMap Word) (e : Nat × Nat) (k : Nat) : look 0 (mmaPut c w m e) k =
    if k = accKey (bits w.toNat 5 3) e.1 e.2 then BitVec.ofNat 32 (mmaValue c w m e) else look 0 m k := by
  simp only [mmaPut, narrow, Bool.false_eq_true, if_false, look_putAt]

theorem look_mmaPut_wide (wide : mmaWide c w = true) (m : NMap Word) (e : Nat × Nat) (k : Nat) : look 0 (mmaPut c w m e) k =
    if k = accKey (bits w.toNat 5 3) e.1 (2 * e.2) + 1 then BitVec.ofNat 32 (mmaValue c w m e / 2 ^ 32)
    else if k = accKey (bits w.toNat 5 3) e.1 (2 * e.2) then BitVec.ofNat 32 (mmaValue c w m e) else look 0 m k := by
  simp only [mmaPut, wide, if_true, look_putAt]

theorem mmaPut_frame (m : NMap Word) (e : Nat × Nat) (k : Nat) (other : k ∉ mmaKeys c w e) : look 0 (mmaPut c w m e) k = look 0 m k := by
  cases wide : mmaWide c w with
  | false =>
    rw [mmaKeys, wide] at other
    rw [look_mmaPut_narrow wide, if_neg (by simpa using other)]
  | true =>
    rw [mmaKeys, wide] at other
    obtain ⟨low, high⟩ : k ≠ _ ∧ k ≠ _ := by simpa using other
    rw [look_mmaPut_wide wide, if_neg high, if_neg low]

/-- An element's sum reads no accumulator word but its own. -/
theorem mmaValue_own {m m' : NMap Word} {e : Nat × Nat} (same : ∀ k ∈ mmaKeys c w e, look 0 m k = look 0 m' k) :
    mmaValue c w m e = mmaValue c w m' e := by
  unfold mmaValue
  cases wide : mmaWide c w with
  | false =>
    rw [mmaKeys, wide] at same
    rw [if_neg Bool.false_ne_true, if_neg Bool.false_ne_true, same _ (.head _)]
  | true =>
    rw [mmaKeys, wide] at same
    rw [if_pos rfl, if_pos rfl, same _ (.head _), same _ (.tail _ (.head _))]

theorem mmaPut_own (m m' : NMap Word) (e : Nat × Nat) (same : ∀ k ∈ mmaKeys c w e, look 0 m k = look 0 m' k) (k : Nat) (key : k ∈ mmaKeys c w e) :
    look 0 (mmaPut c w m e) k = look 0 (mmaPut c w m' e) k := by
  have value := mmaValue_own same
  have held := same k key
  cases wide : mmaWide c w with
  | false => rw [look_mmaPut_narrow wide, look_mmaPut_narrow wide, value, held]
  | true => rw [look_mmaPut_wide wide, look_mmaPut_wide wide, value, held]

/-- A row's elements stay in the row: the elements of an accumulator share no word. -/
theorem mmaKeys_disjoint {cols : Nat} (fits : cols ≤ if mmaWide c w then 64 else 128) (rows : Nat) :
    ((List.range rows).product (List.range cols)).Pairwise fun e e' => ∀ k ∈ mmaKeys c w e, k ∉ mmaKeys c w e' := by
  refine (List.nodup_range.product List.nodup_range).pairwise_of_forall_ne fun e mem e' mem' differ k key key' => differ ?_
  obtain ⟨-, col⟩ := List.mem_product.1 mem
  obtain ⟨-, col'⟩ := List.mem_product.1 mem'
  rw [List.mem_range] at col col'
  cases wide : mmaWide c w with
  | false =>
    simp only [mmaKeys, wide, accKey, Bool.false_eq_true, if_false, List.mem_singleton] at fits key key'
    exact Prod.ext (by omega) (by omega)
  | true =>
    simp only [mmaKeys, wide, accKey, if_true, List.mem_cons, List.not_mem_nil, or_false] at fits key key'
    exact Prod.ext (by omega) (by omega)

/-- The words of an `mma`: those of its elements are their sums, the others stay. -/
theorem look_mmaAcc (fits : (shapeOf (tsOf c (tileB w))).rows ≤ if mmaWide c w then 64 else 128) (fresh : Nat) :
    (∀ k, (∀ i < (shapeOf (tsOf c (tileA w))).rows, ∀ j < (shapeOf (tsOf c (tileB w))).rows, k ∉ mmaKeys c w (i, j)) →
        look 0 (mmaAcc c w false fresh) k = look 0 c.acc k) ∧
      ∀ i < (shapeOf (tsOf c (tileA w))).rows, ∀ j < (shapeOf (tsOf c (tileB w))).rows, ∀ k ∈ mmaKeys c w (i, j),
        look 0 (mmaAcc c w false fresh) k = look 0 (mmaPut c w c.acc (i, j)) k := by
  obtain ⟨others, written⟩ := foldl_disjoint mmaPut_frame mmaPut_own (mmaKeys_disjoint fits (shapeOf (tsOf c (tileA w))).rows) c.acc
  rw [mmaAcc_good]
  refine ⟨fun k none => others k fun e mem => ?_, fun i row j col => written (i, j) (List.mem_product.2 ⟨List.mem_range.2 row, List.mem_range.2 col⟩)⟩
  obtain ⟨row, col⟩ := List.mem_product.1 mem
  exact none e.1 (List.mem_range.1 row) e.2 (List.mem_range.1 col)

theorem look_mmaAcc_narrow (narrow : (shapeOf (tsOf c (tileA w))).ety ≠ 7) (cols : (shapeOf (tsOf c (tileB w))).rows ≤ 128) (fresh : Nat) {i j : Nat} (n : Nat)
    (row : i < 128) (col : j < 128) (rows : (shapeOf (tsOf c (tileA w))).rows ≤ 128) : look 0 (mmaAcc c w false fresh) (16384 * n + 128 * i + j) =
      if n = bits w.toNat 5 3 ∧ i < (shapeOf (tsOf c (tileA w))).rows ∧ j < (shapeOf (tsOf c (tileB w))).rows then
        BitVec.ofNat 32 (mmaElem c (tileA w) (tileB w) (shapeOf (tsOf c (tileA w))) (shapeOf (tsOf c (tileB w))) i j
          (look 0 c.acc (16384 * n + 128 * i + j)).toNat)
      else look 0 c.acc (16384 * n + 128 * i + j) := by
  have wide : mmaWide c w = false := beq_false_of_ne narrow
  obtain ⟨others, written⟩ := look_mmaAcc (c := c) (w := w) (by simpa [wide] using cols) fresh
  simp only [mmaKeys, wide, accKey, Bool.false_eq_true, if_false, List.mem_singleton] at others written
  split
  · next inside =>
    obtain ⟨rfl, inRow, inCol⟩ := inside
    rw [written i inRow j inCol _ rfl, look_mmaPut_narrow wide, accKey, if_pos rfl, mmaValue, wide, if_neg Bool.false_ne_true, accKey]
  · next outside =>
    exact others _ fun i' inRow j' inCol same => outside ⟨by omega, by omega, by omega⟩

/-- The two words of a 64-bit value. -/
theorem ofNat_words (x : Nat) : BitVec.ofNat 32 (x / 2 ^ 32) ++ BitVec.ofNat 32 x = BitVec.ofNat 64 x := by
  apply BitVec.eq_of_toNat_eq
  rw [BitVec.toNat_append, BitVec.toNat_ofNat, BitVec.toNat_ofNat, BitVec.toNat_ofNat, ← Nat.shiftLeft_add_eq_or_of_lt (by omega), Nat.shiftLeft_eq]
  omega

theorem look_mmaAcc_wide (wide : (shapeOf (tsOf c (tileA w))).ety = 7) (cols : (shapeOf (tsOf c (tileB w))).rows ≤ 64) (fresh : Nat) {i j : Nat} (n : Nat)
    (row : i < 128) (col : j < 64) (rows : (shapeOf (tsOf c (tileA w))).rows ≤ 128) :
    let word := fun (m : NMap Word) p => look 0 m (16384 * n + 128 * i + 2 * j + p)
    if n = bits w.toNat 5 3 ∧ i < (shapeOf (tsOf c (tileA w))).rows ∧ j < (shapeOf (tsOf c (tileB w))).rows then
      word (mmaAcc c w false fresh) 1 ++ word (mmaAcc c w false fresh) 0 =
        BitVec.ofNat 64 (mmaElem c (tileA w) (tileB w) (shapeOf (tsOf c (tileA w))) (shapeOf (tsOf c (tileB w))) i j
          ((word c.acc 0).toNat + (word c.acc 1).toNat * 2 ^ 32))
    else word (mmaAcc c w false fresh) 0 = word c.acc 0 ∧ word (mmaAcc c w false fresh) 1 = word c.acc 1 := by
  have wide : mmaWide c w = true := beq_of_eq wide
  obtain ⟨others, written⟩ := look_mmaAcc (c := c) (w := w) (by simpa [wide] using cols) fresh
  simp only [mmaKeys, wide, accKey, if_true, List.mem_cons, List.not_mem_nil, or_false] at others written
  dsimp only
  simp only [Nat.add_zero]
  split
  · next inside =>
    obtain ⟨rfl, inRow, inCol⟩ := inside
    have low := written i inRow j inCol _ (.inl rfl)
    have high := written i inRow j inCol _ (.inr rfl)
    rw [look_mmaPut_wide wide, accKey, if_neg (Nat.succ_ne_self _).symm, if_pos rfl] at low
    rw [look_mmaPut_wide wide, accKey, if_pos rfl] at high
    rw [low, high, ofNat_words, mmaValue, if_pos wide, accKey]
  · next outside =>
    exact ⟨others _ fun i' inRow j' inCol same => outside ⟨by omega, by omega, by omega⟩,
      others _ fun i' inRow j' inCol same => outside ⟨by omega, by omega, by omega⟩⟩

/-! ### The command `mma` (R194, R243, R283, R380, R384) -/

/-- The counts and the record of an `mma`: a block that fails its check is counted, and so is an accumulator that is marked faulted, which is logged. -/
def mmaNoted (s : State) (core : Nat) (q : ArrayCmd) (repeated spoiled : Bool) : State :=
  let s := if repeated then count { s with upset := none } (arrayUnit core) 14 else s
  if spoiled then countFaulted s q.crew else s

/-- The state once the array has read the tiles and the accumulator. -/
def mmaRead (c : Crew) (s : State) (q : ArrayCmd) : State :=
  tendAcc (tendTile s q.crew fun i => c.reads (tileA q.word) i || c.reads (tileB q.word) i) q.crew (accSegment q.acc)

/-- The state in which the array has written the accumulator. -/
def mmaWritten (s : State) (q : ArrayCmd) (spoiled : Bool) : State :=
  let c := crewOf s q.crew
  let s := setCrew s q.crew { c with acc := mmaAcc c q.word spoiled s.fresh, accEcc := c.accEcc.wrote (accSegment q.acc) }
  if spoiled then setFlt { s with fresh := s.fresh + 16384 } q.crew q.acc true else s

/-- A word of the tiles, or a segment of the accumulator, that the `mma` reads is poisoned or fails its code. -/
def mmaPoisoned (c : Crew) (q : ArrayCmd) : Bool :=
  tilePoisoned c (tileA q.word) || tilePoisoned c (tileB q.word) || c.accEcc.bad.any (accSegment q.acc)

theorem mmaCommand_works (next : nextCmd s core = some q) (mma : q.op = 3) {repeated failed : Bool}
    (repeats : repeated = true ↔ ∃ m, s.upset = some (m, 32 + q.acc))
    (fails : failed = true ↔ ∃ m, s.upset = some (m, 32 + q.acc) ∧ bit m.toNat 1 = true) :
    let spoiled := failed || mmaPoisoned (crewOf s q.crew) q
    exec (.mmaCommand core) s = .next (retireCmd (mmaWritten (mmaRead (crewOf s q.crew) (mmaNoted s core q repeated spoiled) q) q spoiled) core q) := by
  show execMmaCommand core s = _
  rw [execMmaCommand, next]
  refine (if_neg (not_not.2 mma)).trans ?_
  cases upset : s.upset with
  | none =>
    have noRepeat : repeated = false := by simpa [upset] using repeats
    have noFailure : failed = false := by simpa [upset] using fails
    rw [noRepeat, noFailure]
    rfl
  | some e =>
    obtain ⟨m, p⟩ := e
    have isRepeated : repeated = (p == 32 + q.acc) := by
      rw [Bool.eq_iff_iff, repeats, upset, beq_iff_eq]
      simp
    have isFailed : failed = (p == 32 + q.acc && bit m.toNat 1) := by
      rw [Bool.eq_iff_iff, fails, upset, Bool.and_eq_true, beq_iff_eq]
      simp [and_comm]
    rw [isRepeated, isFailed]
    rfl

theorem crewOf_countFaulted (s : State) (crew : Nat) : crewOf (countFaulted s crew) crew = crewOf s crew := by
  rw [countFaulted, crewOf, logRas_crews]
  rfl

theorem mmaNoted_leaves (s : State) (core : Nat) (q : ArrayCmd) (repeated spoiled : Bool) :
    Calm s (mmaNoted s core q repeated spoiled) ∧ (mmaNoted s core q repeated spoiled).cores = s.cores ∧
      crewOf (mmaNoted s core q repeated spoiled) q.crew = crewOf s q.crew := by
  have marked : ∀ r : State, Calm r (countFaulted r q.crew) ∧ (countFaulted r q.crew).cores = r.cores ∧
      crewOf (countFaulted r q.crew) q.crew = crewOf r q.crew := fun r =>
    ⟨(count_calm r _ _).trans (logRas_calm _ _), logRas_cores _ _, crewOf_countFaulted r q.crew⟩
  cases spoiled with
  | false => cases repeated <;> exact ⟨⟨rfl, rfl, rfl, rfl⟩, rfl, rfl⟩
  | true => cases repeated <;> exact marked _

/-- What an `mma` leaves of the crew of its accumulator. -/
def Crew.summed (c : Crew) (q : ArrayCmd) (spoiled : Bool) (tile acc : Ecc) (fresh : Nat) : Crew :=
  { c with acc := mmaAcc c q.word spoiled fresh, tileEcc := tile, accEcc := acc,
           accFault := if spoiled then c.accFault ||| BitVec.ofNat 8 (2 ^ q.acc) else c.accFault }

theorem mmaRead_leaves (c : Crew) (s : State) (q : ArrayCmd) : Calm s (mmaRead c s q) ∧ (mmaRead c s q).cores = s.cores ∧
    ∃ tile acc, crewOf (mmaRead c s q) q.crew = { crewOf s q.crew with tileEcc := tile, accEcc := acc } := by
  obtain ⟨calm, cores, tile, crew⟩ := tendCrew_leaves s q.crew (get := Crew.tileEcc) (put := fun x e => { x with tileEcc := e })
    (fun i => c.reads (tileA q.word) i || c.reads (tileB q.word) i) fun _ => rfl
  obtain ⟨calm', cores', acc, crew'⟩ := tendCrew_leaves (tendTile s q.crew fun i => c.reads (tileA q.word) i || c.reads (tileB q.word) i) q.crew
    (get := Crew.accEcc) (put := fun x e => { x with accEcc := e }) (accSegment q.acc) fun _ => rfl
  exact ⟨calm.trans calm', cores'.trans cores, tile, acc, crew'.trans (congrArg (fun x : Crew => { x with accEcc := acc }) crew)⟩

theorem mmaWritten_leaves (s : State) (q : ArrayCmd) (spoiled : Bool) : Calm s (mmaWritten s q spoiled) ∧ (mmaWritten s q spoiled).cores = s.cores ∧
    crewOf (mmaWritten s q spoiled) q.crew =
      (crewOf s q.crew).summed q spoiled (crewOf s q.crew).tileEcc ((crewOf s q.crew).accEcc.wrote (accSegment q.acc)) s.fresh := by
  cases spoiled with
  | false => exact ⟨⟨rfl, rfl, rfl, rfl⟩, rfl, (crewOf_setCrew _ _ _ _).trans (if_pos rfl)⟩
  | true =>
    refine ⟨⟨rfl, rfl, rfl, rfl⟩, rfl, (crewOf_setCrew _ _ _ _).trans ((if_pos rfl).trans ?_)⟩
    rw [crewOf]
    exact (congrArg (fun x : Crew => { x with accFault := x.accFault ||| BitVec.ofNat 8 (2 ^ q.acc) }) ((crewOf_setCrew s _ _ _).trans (if_pos rfl)))

/-- The state in which an `mma` retires. -/
def mmaDone (s : State) (core : Nat) (q : ArrayCmd) (repeated spoiled : Bool) : State :=
  mmaWritten (mmaRead (crewOf s q.crew) (mmaNoted s core q repeated spoiled) q) q spoiled

theorem mmaDone_leaves (s : State) (core : Nat) (q : ArrayCmd) (repeated spoiled : Bool) :
    Calm s (mmaDone s core q repeated spoiled) ∧ (mmaDone s core q repeated spoiled).cores = s.cores ∧
      ∃ tile acc fresh, crewOf (mmaDone s core q repeated spoiled) q.crew = (crewOf s q.crew).summed q spoiled tile acc fresh := by
  obtain ⟨calm, cores, same⟩ := mmaNoted_leaves s core q repeated spoiled
  obtain ⟨calm', cores', tile, acc, crew'⟩ := mmaRead_leaves (crewOf s q.crew) (mmaNoted s core q repeated spoiled) q
  obtain ⟨calm'', cores'', crew''⟩ := mmaWritten_leaves (mmaRead (crewOf s q.crew) (mmaNoted s core q repeated spoiled) q) q spoiled
  rw [same] at crew'
  rw [crew'] at crew''
  exact ⟨(calm.trans calm').trans calm'', cores''.trans (cores'.trans cores), _, _, _, crew''⟩

/-- Where the code has nothing to correct, an `mma` changes its crew, the free values and what it counts. -/
theorem mmaDone_good (tile : (crewOf s q.crew).tileEcc = {}) (acc : (crewOf s q.crew).accEcc = {}) (repeated spoiled : Bool) :
    mmaDone s core q repeated spoiled = { mmaNoted s core q repeated spoiled with
      cores := (mmaDone s core q repeated spoiled).cores, crews := (mmaDone s core q repeated spoiled).crews, fresh := (mmaDone s core q repeated spoiled).fresh } := by
  obtain ⟨-, -, same⟩ := mmaNoted_leaves s core q repeated spoiled
  have tiles : tendTile (mmaNoted s core q repeated spoiled) q.crew (fun i => (crewOf s q.crew).reads (tileA q.word) i || (crewOf s q.crew).reads (tileB q.word) i) =
      mmaNoted s core q repeated spoiled := tendCrew_good (by rw [same, tile]; rfl) _ _
  have segments : tendAcc (mmaNoted s core q repeated spoiled) q.crew (accSegment q.acc) = mmaNoted s core q repeated spoiled :=
    tendCrew_good (by rw [same, acc]; rfl) _ _
  rw [mmaDone, mmaRead, tiles, segments]
  cases spoiled <;> rfl

theorem mmaCommand_clauses (next : nextCmd s core = some q) (mma : q.op = 3) {repeated failed : Bool}
    (repeats : repeated = true ↔ ∃ m, s.upset = some (m, 32 + q.acc))
    (fails : failed = true ↔ ∃ m, s.upset = some (m, 32 + q.acc) ∧ bit m.toNat 1 = true) :
    let c := crewOf s q.crew
    let spoiled := failed || mmaPoisoned c q
    let s' := retireCmd (mmaDone s core q repeated spoiled) core q
    exec (.mmaCommand core) s = .next s' ∧ Calm s s' ∧ Retired s s' core q ∧
      (c.tileEcc = {} → c.accEcc = {} → s' = { mmaNoted s core q repeated spoiled with cores := s'.cores, crews := s'.crews, fresh := s'.fresh }) ∧
      ∃ fresh, (crewOf s' q.crew).acc = mmaAcc c q.word spoiled fresh ∧
        (crewOf s' q.crew).accFault = if spoiled then c.accFault ||| BitVec.ofNat 8 (2 ^ q.acc) else c.accFault := by
  intro c spoiled s'
  obtain ⟨calm, cores, tile, acc, fresh, crew⟩ := mmaDone_leaves s core q repeated spoiled
  have left : crewOf s' q.crew = { crewOf (mmaDone s core q repeated spoiled) q.crew with
    aver := putAt 0 (crewOf (mmaDone s core q repeated spoiled) q.crew).aver q.acc (q.ver + 1) } := crewOf_retireCmd _ core q
  rw [crew] at left
  exact ⟨mmaCommand_works next mma repeats fails, calm, Retired.of_worked (retireCmd_retired _ core q) cores (by rw [crew]; rfl),
    fun tiles segments => congrArg (retireCmd · core q) (mmaDone_good tiles segments repeated spoiled), fresh, by rw [left]; rfl, by rw [left]; rfl⟩

/-- The state that an `mma` notes its events in, written out. -/
theorem mmaNoted_eq (s : State) (core : Nat) (q : ArrayCmd) (repeated spoiled : Bool) :
    let c := crewOf s q.crew
    let band := bandOf s (q.crew / 16)
    let s0 := if repeated then count { s with upset := none } (arrayUnit core) 14 else s
    mmaNoted s core q repeated spoiled = if spoiled then logRas (count s0 (arrayUnit c.core) 15)
      { cls := 15, die := c.core / 144, unit := c.core % 144, tenant := band.tenant, launch := band.launch } else s0 := by
  cases repeated <;> rfl

theorem ArrayCmd.acc_mma (mma : q.op = 3) : q.acc = bits q.word.toNat 5 3 := by
  rw [ArrayCmd.acc, mma]
  rfl

/-- The elements of an `mma` whose words and blocks are good. -/
theorem mmaCommand_elements (mma : q.op = 3) {c c' : Crew} {fresh : Nat} (sums : c'.acc = mmaAcc c q.word false fresh) :
    let a := shapeOf (tsOf c (tileA q.word))
    let b := shapeOf (tsOf c (tileB q.word))
    (a.ety ≠ 7 → a.rows ≤ 128 → b.rows ≤ 128 → ∀ i j n, i < 128 → j < 128 → look 0 c'.acc (16384 * n + 128 * i + j) =
      if n = q.acc ∧ i < a.rows ∧ j < b.rows then BitVec.ofNat 32 (mmaElem c (tileA q.word) (tileB q.word) a b i j (look 0 c.acc (16384 * n + 128 * i + j)).toNat)
      else look 0 c.acc (16384 * n + 128 * i + j)) ∧
    (a.ety = 7 → a.rows ≤ 128 → b.rows ≤ 64 → ∀ i j n, i < 128 → j < 64 →
      let word := fun (c : Crew) p => look 0 c.acc (16384 * n + 128 * i + 2 * j + p)
      if n = q.acc ∧ i < a.rows ∧ j < b.rows then word c' 1 ++ word c' 0 =
          BitVec.ofNat 64 (mmaElem c (tileA q.word) (tileB q.word) a b i j ((word c 0).toNat + (word c 1).toNat * 2 ^ 32))
        else word c' 0 = word c 0 ∧ word c' 1 = word c 1) := by
  rw [ArrayCmd.acc_mma mma]
  dsimp only
  rw [sums]
  exact ⟨fun narrow rows cols i j n row col => look_mmaAcc_narrow narrow cols fresh n row col rows,
    fun wide rows cols i j n row col => look_mmaAcc_wide wide cols fresh n row col rows⟩

/-! ### `acst` (R194, R271, R380, R384) -/

/-- The segments that an `acst` reads: those of its accumulator that its rows and columns touch. -/
def acstHit (q : ArrayCmd) (i : Nat) : Bool :=
  let f := (q.ops.getD 2 0).toNat
  accSegment q.acc i && decide (i % 1024 / 8 < bits f 0 16 ∧ 16 * (i % 8) < bits f 16 16)

/-- The state once an `acst` has read its segments; one that is marked faulted, or that cannot store yet, reads none. -/
def acstRead (s : State) (core : Nat) (q : ArrayCmd) : State :=
  if acstReady s core (q.crew / 16) q && !bit (crewOf s q.crew).accFault.toNat q.acc then readAcc s q.crew q.acc (acstHit q) else s

/-- How an `acst` that stores nothing ends in state `r`: its team holds PIPE, or an error completion is logged where it has none. -/
def acstEnd (s r : State) (core : Nat) (q : ArrayCmd) : Option (Nat × Team) → Out
  | some (k, t) => .next (setTeam (retireCmd r core q) k { t with held := t.held ++ [{ cause := cPIPE, recs := [record 0 cPIPE (arrayPipe q.acc)] }] })
  | none => .next (errorCompletion (retireCmd r core q) { launch := (bandOf s (q.crew / 16)).launch, kind := 2, cause := cPIPE })

theorem acstCommand_stops (next : nextCmd s core = some q) (acst : q.op = 7)
    (faulted : bit (crewOf (acstRead s core q) q.crew).accFault.toNat q.acc = true) (teams : (acstRead s core q).teams = s.teams) :
    exec (.acstCommand core) s = acstEnd s (acstRead s core q) core q (q.team.bind fun k => (s.teams.lookup k).map fun t => (k, t)) := by
  show execAcstCommand core s = _
  rw [execAcstCommand, next]
  exact (if_neg (not_not.2 acst)).trans ((if_pos faulted).trans (congrArg (fun teams : NMap Team =>
    acstEnd s (acstRead s core q) core q (q.team.bind fun k => (teams.lookup k).map fun t => (k, t))) teams))

/-- What an `acst` of a faulted accumulator does: it stores nothing, and holds PIPE for its team, or logs an error completion where it has none. -/
theorem acstCommand_stopped (next : nextCmd s core = some q) (acst : q.op = 7) {r : State} (read : acstRead s core q = r)
    (faulted : bit (crewOf r q.crew).accFault.toNat q.acc = true) (teams : r.teams = s.teams) :
    (∀ k t, q.team = some k → s.teams.lookup k = some t → exec (.acstCommand core) s = .next (setTeam (retireCmd r core q) k
      { t with held := t.held ++ [{ cause := cPIPE, recs := [record 0 cPIPE (arrayPipe q.acc)] }] })) ∧
    ((q.team.bind fun k => s.teams.lookup k) = none → exec (.acstCommand core) s = .next (errorCompletion (retireCmd r core q)
      { launch := (bandOf s (q.crew / 16)).launch, kind := 2, cause := cPIPE })) := by
  subst read
  refine ⟨fun k t team found => (acstCommand_stops next acst faulted teams).trans ?_, fun gone => (acstCommand_stops next acst faulted teams).trans ?_⟩
  · rw [team, Option.bind_some, found]
    rfl
  · have nobody : (q.team.bind fun k => (s.teams.lookup k).map fun t => (k, t)) = none := by
      cases team : q.team with
      | none => rfl
      | some k =>
        rw [team, Option.bind_some] at gone
        rw [Option.bind_some, gone]
        rfl
    rw [nobody]
    rfl

theorem acstRead_faulted (marked : bit (crewOf s q.crew).accFault.toNat q.acc = true) : acstRead s core q = s := by
  rw [acstRead, marked, Bool.not_true, Bool.and_false]
  rfl

theorem acstRead_waits (waits : acstReady s core (q.crew / 16) q = false) : acstRead s core q = s := by
  rw [acstRead, waits, Bool.false_and]
  rfl

theorem acstRead_ready (clear : bit (crewOf s q.crew).accFault.toNat q.acc = false) (ready : acstReady s core (q.crew / 16) q = true) :
    acstRead s core q = readAcc s q.crew q.acc (acstHit q) := by
  rw [acstRead, clear, ready]
  rfl

/-- One that waits for the host's translation, or for the words that it must load, asks for them. -/
theorem acstCommand_asks (next : nextCmd s core = some q) (acst : q.op = 7) (clear : bit (crewOf s q.crew).accFault.toNat q.acc = false)
    (waits : acstReady s core (q.crew / 16) q = false) : exec (.acstCommand core) s = .next (acstAsk s core (q.crew / 16) q) := by
  have read := acstRead_waits (core := core) waits
  have notMarked : ¬ bit (crewOf (acstRead s core q) q.crew).accFault.toNat q.acc = true := by rw [read, clear]; exact Bool.false_ne_true
  have notReady : (!acstReady (acstRead s core q) core (q.crew / 16) q) = true := by rw [read, waits]; rfl
  show execAcstCommand core s = _
  rw [execAcstCommand, next]
  exact (if_neg (not_not.2 acst)).trans ((if_neg notMarked).trans ((if_pos notReady).trans
    (congrArg (fun r => (.next (acstAsk r core (q.crew / 16) q) : Out)) read)))

/-- A segment that fails its code marks the accumulator faulted before the read (R380). -/
theorem readAcc_bad {crew a : Nat} {hit : Nat → Bool} (bad : (crewOf s crew).accEcc.bad.any hit = true) :
    readAcc s crew a hit = setFlt (countFaulted (tendAcc s crew hit) crew) crew a true := by
  rw [readAcc, bad]
  rfl

theorem readAcc_good {crew a : Nat} {hit : Nat → Bool} (good : (crewOf s crew).accEcc.bad.any hit = false) : readAcc s crew a hit = tendAcc s crew hit := by
  rw [readAcc, good]
  rfl

theorem setFlt_marks (s : State) (crew : Nat) {a : Nat} (inRange : a < 8) : bit (crewOf (setFlt s crew a true) crew).accFault.toNat a = true := by
  rw [setFlt, crewOf_setCrew, if_pos rfl]
  exact bit_mark _ inRange

/-- The words that an `acst` stores, each with the number of its row. -/
def acstWords (q : ArrayCmd) : List (Nat × (DWord × List (Nat × Nat))) :=
  let f := (q.ops.getD 2 0).toNat
  (List.range (bits f 0 16)).flatMap fun i => (acstRow (q.ops.getD 0 0) (q.ops.getD 1 0) (acstSize (bits f 32 4)) i (bits f 16 16)).map fun w => (i, w)

/-- One word of an `acst` of crew `c` is stored. -/
def acstPut (s : State) (c : Crew) (core : Nat) (q : ArrayCmd) (r : State) (w : Nat × (DWord × List (Nat × Nat))) : State :=
  let f := (q.ops.getD 2 0).toNat
  acstWord r core (q.crew / 16) (bandOf s (q.crew / 16)).launch (bandOf s (q.crew / 16)).tenant w.2.1 w.2.2 (acstSize (bits f 32 4)) fun j =>
    acstElem (bits f 32 4) (bit f 36) (q.ops.getD 3 0).toNat (look 0 c.acc (16384 * q.acc + 128 * w.1 + j)).toNat

theorem foldl_acstWords (s r : State) (c : Crew) : (acstWords q).foldl (acstPut s c core q) r =
    (List.range (bits (q.ops.getD 2 0).toNat 0 16)).foldl (fun r i => (acstRow (q.ops.getD 0 0) (q.ops.getD 1 0)
      (acstSize (bits (q.ops.getD 2 0).toNat 32 4)) i (bits (q.ops.getD 2 0).toNat 16 16)).foldl (fun r w => acstPut s c core q r (i, w)) r) r := by
  rw [acstWords, List.foldl_flatMap]
  simp only [List.foldl_map]

/-- One that can store stores its rows. -/
theorem acstCommand_stores (next : nextCmd s core = some q) (acst : q.op = 7)
    (clear : bit (crewOf (acstRead s core q) q.crew).accFault.toNat q.acc = false) (ready : acstReady (acstRead s core q) core (q.crew / 16) q = true) :
    exec (.acstCommand core) s =
      .next (retireCmd ((acstWords q).foldl (acstPut s (crewOf (acstRead s core q) q.crew) core q) (acstRead s core q)) core q) := by
  have notMarked := Bool.eq_false_iff.1 clear
  have notWaits : ¬ (!acstReady (acstRead s core q) core (q.crew / 16) q) = true := by rw [ready]; exact Bool.false_ne_true
  rw [foldl_acstWords]
  show execAcstCommand core s = _
  rw [execAcstCommand, next]
  exact (if_neg (not_not.2 acst)).trans ((if_neg notMarked).trans (if_neg notWaits))

/-- A read that corrects every segment leaves an `acst` as ready as it was. -/
theorem acstReady_tendAcc {crew : Nat} {hit : Nat → Bool} (fine : (crewOf s crew).accEcc.bad.any hit = false) (band : Nat) :
    acstReady (tendAcc s crew hit) core band q = acstReady s core band q := by
  obtain ⟨alike, sizes⟩ := tendAcc_alike fine
  unfold acstReady
  simp only [← checkAddr_alike alike sizes, ← readReady_alike alike]

theorem countFaulted_calm (s : State) (crew : Nat) : Calm s (countFaulted s crew) := (count_calm s _ _).trans (logRas_calm _ _)

theorem acstCommand_uncorrected (next : nextCmd s core = some q) (acst : q.op = 7) (clear : bit (crewOf s q.crew).accFault.toNat q.acc = false)
    (ready : acstReady s core (q.crew / 16) q = true) (bad : (crewOf s q.crew).accEcc.bad.any (acstHit q) = true) (inRange : q.acc < 8) :
    let r := setFlt (countFaulted (tendAcc s q.crew (acstHit q)) q.crew) q.crew q.acc true
    (∀ k t, q.team = some k → s.teams.lookup k = some t → exec (.acstCommand core) s = .next (setTeam (retireCmd r core q) k
      { t with held := t.held ++ [{ cause := cPIPE, recs := [record 0 cPIPE (arrayPipe q.acc)] }] })) ∧
    ((q.team.bind fun k => s.teams.lookup k) = none → exec (.acstCommand core) s = .next (errorCompletion (retireCmd r core q)
      { launch := (bandOf s (q.crew / 16)).launch, kind := 2, cause := cPIPE })) :=
  acstCommand_stopped next acst ((acstRead_ready clear ready).trans (readAcc_bad bad)) (setFlt_marks _ _ inRange)
    ((tendCrew_calm s q.crew ..).trans (countFaulted_calm _ q.crew)).1

theorem acstCommand_corrected (next : nextCmd s core = some q) (acst : q.op = 7) (clear : bit (crewOf s q.crew).accFault.toNat q.acc = false)
    (ready : acstReady s core (q.crew / 16) q = true) (fine : (crewOf s q.crew).accEcc.bad.any (acstHit q) = false) :
    exec (.acstCommand core) s =
      .next (retireCmd ((acstWords q).foldl (acstPut s (crewOf s q.crew) core q) (tendAcc s q.crew (acstHit q))) core q) := by
  obtain ⟨ecc, crew⟩ := crewOf_tendAcc s q.crew (acstHit q)
  have read : acstRead s core q = tendAcc s q.crew (acstHit q) := (acstRead_ready clear ready).trans (readAcc_good fine)
  have stores := acstCommand_stores next acst (by rw [read, crew]; exact clear) (by rw [read, acstReady_tendAcc fine]; exact ready)
  rw [read, crew] at stores
  exact stores

/-! ### The obligation -/

/-- Settles O42, one command at a time: an `mma` sums its elements apart, as they share no word, and an `acst` reads its segments before it stores, which
leaves the checks of its addresses as they were. -/
theorem arrayCommandsComplete : Obligations.ArrayCommandsComplete := by
  unfold Obligations.ArrayCommandsComplete
  refine ⟨fun s core => arrayCommand_none, fun s core q next => ?_⟩
  refine ⟨mmaCommand_other next, aczCommand_other next, acstCommand_other next, fun r => retireCmd_retired r core q, fun mma repeated failed repeats fails => ?_,
    aczCommand_clauses next, fun acst => ⟨fun marked => acstCommand_stopped next acst (acstRead_faulted marked) marked rfl, acstCommand_asks next acst,
      fun clear ready => ⟨acstCommand_uncorrected next acst clear ready, acstCommand_corrected next acst clear ready⟩⟩⟩
  obtain ⟨runs, ⟨teams, bands, -, -⟩, retired, good, fresh, acc, fault⟩ := mmaCommand_clauses next mma repeats fails
  refine ⟨_, runs, teams, bands, retired, ?_, fun lost => ?_, fun noFailure noPoison => ?_⟩
  · rw [mmaNoted_eq] at good
    exact good
  · have spoiled : (failed || mmaPoisoned (crewOf s q.crew) q) = true := Bool.or_eq_true_iff.2 lost
    rw [fault, spoiled]
    exact bit_mark _ q.acc_lt
  · have spoiled : (failed || mmaPoisoned (crewOf s q.crew) q) = false := Bool.or_eq_false_iff.2 ⟨noFailure, noPoison⟩
    exact ⟨fault.trans (if_neg (Bool.eq_false_iff.1 spoiled)), mmaCommand_elements mma (acc.trans (congrArg (mmaAcc _ q.word · fresh) spoiled))⟩

end Sys2Proof.Machine
end
